-- ==== Sys2Proof/Word.lean ====
section
/-! DEFINITION. The word and byte types of the FX4860: registers are 32 bits wide (R8), frames and flash are bytes. -/
namespace Sys2Proof

/-- One register word (R8). -/
abbrev Word := BitVec 32

/-- One byte of a frame, a record or the flash. -/
abbrev Byte := BitVec 8

/-- A string of bytes, first byte first, as it travels on a wire or stands in a record. -/
abbrev Bytes := List Byte

/-- An instant of the Datum: a count of 2^-16 ns since 1970-01-01 00:00:00 TAI (R43, R44).
SEC is the quotient by 10^9 * 2^16, NS and FRAC are the rest. -/
abbrev Instant := Nat

end Sys2Proof
end

