-- ==== Sys2Proof/Syntax.lean ====
section
/-! DEFINITION. The commands of the FX4860 and their operands: one constructor of `Instr` for each row of opcode_table.json.
An operand is what the world supplies with the event: the value written, the frame received, the instant measured, the outcome seen. -/
namespace Sys2Proof

/-- The two register paths of R8 and R339. -/
inductive Path where
  | mw0 | mspi
deriving DecidableEq, Repr

/-- The fault events of R381 and R382. -/
inductive FaultCode where
  | eccDramSbe | eccDramDbe | eccSramSbe | eccSramDbe
  | dtmVote | dtmNovote | syn0Lol | syn0Lasting | synAuxLol | clkDoubleLoss | synLol
  | outLimit | stkDeviation | stkCal | prtFec | trnCal | laneFail | coreFail | spuFail
  | rngFail | dvlCmpMismatch
deriving DecidableEq, Repr

/-- A descriptor that host software wrote into a ring slot (R327). -/
structure Desc where
  addr : Nat
  len : Nat
  id : Nat
  hflags : Nat
  addr2 : Nat
  len2 : Nat
  port : Nat
deriving DecidableEq, Repr

/-- How a frame was received (R198 rows 2 and 3): clean, with a coding error, or after uncorrectable RS-FEC codewords, as many as ended in it. -/
inductive RxError where
  | clean | coding
  | fec (codewords : Nat)
deriving DecidableEq, Repr

/-- What a double-bit error hit (R40, R384): a client entry by its place, a frame in the queue of a pipeline, the response of a ticket, a
key-establishment session, an entry of a Field Book segment, a retained entry, an image-register copy, or a word that holds none of these. -/
inductive Held where
  | nothing
  | client (key : Nat)
  | frame (pl : Fin 5) (index : Nat)
  | ticket (port : Fin 4) (id : Nat)
  | session (id : Nat)
  | entry (seg index : Nat)
  | retained (index : Nat)
  | regCopy (addr : BitVec 24)
deriving DecidableEq, Repr

/-- What the error check of the memories found in an access (R40, R381): the DRAM channel or SRAM region of a corrected error, or the region
of a double-bit error and what it hit. -/
inductive EccHit where
  | none
  | single (sram : Bool) (source : Fin 4)
  | double (sram : Bool) (region : Fin 5) (held : Held)
deriving DecidableEq, Repr

/-- Which schedule issues a PTP message (R103, R126): a grant of a client by its index, or multicast on a main port. -/
inductive Schedule where
  | grant (index : Nat)
  | multicast (port : Fin 4)
deriving DecidableEq, Repr

/-- One granted message of a grant-table entry, as the journal carries it (R305, R126): period, the sending edge s, the expiry, the next issue and
the sequenceId. -/
structure WireGrant where
  log : Int
  start : Nat
  expiry : Nat
  next : Nat
  seq : Nat
deriving DecidableEq, Repr

/-- One change of the grant table (R305): the index i, the client's identity, its addressing and port, and its grants; an entry that holds none has
left the table. -/
structure GrantChange where
  index : Nat
  identity : Nat
  port : Fin 7
  dstMac : Nat
  srcMac : Nat
  tag : Nat
  l2 : Bool
  v6 : Bool
  srcIp : Nat
  dstIp : Nat
  srcPort : Nat
  dstPort : Nat
  hop : Nat
  announce : Option WireGrant
  sync : Option WireGrant
  delayResp : Option WireGrant
deriving DecidableEq, Repr

/-- A heartbeat (R304): claim, echo and flags as in R298, the cycle number, its transmit stamp, and the receive stamp of the partner's latest HB with
that HB's transmit stamp. Stamps are Datum values in units of 2^-16 ns. -/
structure Heartbeat where
  claim : BitVec 16
  echo : BitVec 16
  active : Bool
  ready : Bool
  cycle : Nat
  tx : Nat
  rx : Option (Nat × Nat)
deriving DecidableEq, Repr

/-- A state record (R305): cycle number; Datum snapshot: Datum, state, active domain, applied rate, TAI-UTC, pending leap and its day, SMEAR; of each
domain its state, offset and rate; the words of Traverse; NTS epoch and key check value; the reference offsets of R310; grant changes; client
entries by position, 32 bytes each. -/
structure StateRecord where
  cycle : Nat
  datum : Nat
  dtmState : Nat
  dtmActive : Nat
  rate : Int
  utc : Int
  leap : Nat
  leapDay : Nat
  smear : Bool
  domains : List (Nat × Int × Int)
  traverse : List Word
  epoch : Nat
  kcv : Nat
  refs : List (Nat × Int)
  grants : List GrantChange
  clients : List (Nat × Bytes)
deriving DecidableEq, Repr

/-- A STATUS frame (R304, R309, R310): the last cycle applied, Datum state, reference offsets, NTS epoch and key check value, lasting flag. -/
structure StatusRecord where
  cycle : Nat
  dtmState : Nat
  refs : List (Nat × Int)
  epoch : Nat
  kcv : Nat
  lasting : Bool
deriving DecidableEq, Repr

/-- A message of PAIRING (R316): the attestation statement of the ephemeral key with its certificate chain, or the wrapped client-table keys with
the digest of the service-address and ACL registers. -/
inductive PairMsg where
  | attest (statement chain : Bytes)
  | keys (wrapped digest : Bytes)
deriving DecidableEq, Repr

/-- A frame of the Dvorgo link (R304). -/
inductive DvlFrame where
  | hb (h : Heartbeat)
  | state (r : StateRecord)
  | status (r : StatusRecord)
  | bulk (clients : List (Nat × Bytes)) (grants : List GrantChange) (last : Bool)
  | pair (m : PairMsg)
deriving DecidableEq, Repr

/-- What arrives at the wake detector (R211): a low level on WAKE_IN_N, or a frame on a port, with its FCS, and whether it was received with an error (row 2 of
R198). -/
inductive WakeInput where
  | pin
  | frame (port : Fin 7) (bytes : Bytes) (error : Bool)
deriving DecidableEq, Repr

/-- Who reads and which bytes of the word the read addresses (R13). -/
structure ReadBy where
  path : Path
  be : BitVec 4
deriving DecidableEq, Repr

/-- The capture of a start position on the egress side, in 2⁻³² ns units of the counter, and the number of start positions since the anchor before (R111). -/
structure GridCapture where
  capture : Nat
  passed : Nat
deriving DecidableEq, Repr

/-- What a link reports as it comes up: the speed code of the PHY (R209), and whether its training completed (R195). -/
structure LinkReport where
  speed : Fin 4
  trained : Bool
deriving DecidableEq, Repr

/-- What a session's TCP stream brings: bytes of TLS records, and whether the client closed (R154, R156). -/
structure KeInput where
  records : Bytes
  closed : Bool
deriving DecidableEq, Repr

/-- The commands of the device: one constructor for each row of opcode_table.json. -/
inductive Instr where
  /-- REGISTER_WRITE (R9). A host write through MW0 or MSPI to a register that has no row of its own sets the addressed field values under its access codes. -/
  | registerWrite (path : Path) (addr : BitVec 24) (be : BitVec 4) (value : Word)
  /-- READ_CLEAR (R9). A read of an rc field returns its value and then clears the field, keeping any event on the same MCLK edge. -/
  | readClear (reader : ReadBy) (addr : BitVec 24)
  /-- WIDE_VALUE_LATCH_READ (R12). A read of the lowest-order word of a multi-word value latches its higher words for a consistent read. -/
  | wideValueLatchRead (reader : ReadBy) (addr : BitVec 24)
  /-- LIVELOCK_WRITE (R358). The first write to SYS_LIVELOCK after a release withdraws live-change grants until the next BOOT. -/
  | livelockWrite (path : Path) (value : Word)
  /-- MANAGEMENT_TICK (R26). The 1 ms management tick expires, and every management-plane evaluation runs. -/
  | managementTick
  /-- HANDOFF_REQUEST (R67). A write of DTM_DOMCTL.HANDOFF places a hand-off request pending for the next tick. -/
  | handoffRequest (force : Fin 4)
  /-- SLEW_COMPLETE (R68). A Datum phase slew finishes applying its target, and for a hand-off the HANDOFF record is written. -/
  | slewComplete
  /-- DATUM_RATE_APPLY (R115). An announced change of the applied Datum rate takes effect 24 µs after its announcement. -/
  | datumRateApply
  /-- DOMAIN_SPLIT (R69). Domain disagreement above SPLIT for three consecutive ticks sets SPLIT and raises DOMAIN_SPLIT. -/
  | domainSplit
  /-- DTM_VOTE (R52). One Datum counter copy disagrees and is reloaded from the majority, with a transient fault event. -/
  | dtmVote (copy : Fin 3)
  /-- DTM_NOVOTE (R52). All three Datum copies differ, so they are reloaded from the Monument counter and a lasting fault follows. -/
  | dtmNovote
  /-- LEAP_APPLIED (R61). At the end of the leap day the leap takes effect, changing TAI−UTC and the fallback offset. -/
  | leapApplied
  /-- UTC_OFFSET_CHANGE (R60). A source's new TAI−UTC, reported without interruption for 60 s, is accepted and recorded. -/
  | utcOffsetChange
  /-- UTC_DISAGREE (R60). The inactive domain reports a different offset for 60 s, raising UTC_DISAGREE. -/
  | utcDisagree
  /-- CMP_COMMIT (R72). A write of DTM_CMPn_TGT_W0 commits the target and period and arms the unit, or refuses the commit with BADVAL. -/
  | cmpCommit (path : Path) (n : Fin 16) (w0 : Word)
  /-- CMP_DISABLE (R71). A write of EN = 0 to DTM_CMPn_CTL disarms the compare unit at once. -/
  | cmpDisable (n : Fin 16) (value : Word)
  /-- CMP_FIRED (R71). The Datum reaches an armed compare target, so the unit fires, passes the remainder to its output and advances or disarms. -/
  | cmpFired (n : Fin 16)
  /-- PTP_CLIENT_DELAY_REQ (R73). A PTP client instance issues a Delay_Req with the next sequenceId. -/
  | ptpClientDelayReq (n : Fin 2)
  /-- PTP_CLIENT_MESSAGE (R74). A PTP client instance receives a Sync, Follow_Up, Delay_Resp or Announce and accepts or discards it. -/
  | ptpClientMessage (n : Fin 2)
  /-- FRAME_RECEIVE (R198). A port receives a whole frame, checks it, stamps it and passes it to its pipeline or discards it. -/
  | frameReceive (port : Fin 7) (bytes : Bytes) (capture : Option Nat) (error : RxError) (fecCorrected : Nat)
  /-- PIPELINE_REQUEST (R24). A pipeline takes a frame from its input queue and classifies, validates, looks up, rate-limits, stakes and builds the answer or forwards the frame. -/
  | pipelineRequest (pl : Fin 5) (table buffer : EccHit)
  /-- CLIENT_BUCKET_FILL (R97). A client-cache miss completes its DRAM read of the bucket, and the waiting requests resume. -/
  | clientBucketFill (bucket : Nat)
  /-- NTS_COOKIE_VERIFY (R162). An SIV lane completes cookie decryption and request verification for an NTS-protected request. -/
  | ntsCookieVerify (lane : Fin 12)
  /-- NTS_RESPONSE_ENCRYPT (R164). An SIV lane completes the tag and new cookies of an NTS response, and the response goes to the gate. -/
  | ntsResponseEncrypt (port : Fin 4) (ticket : Nat)
  /-- TICKET_LOAD_DEADLINE (R118). A ticket's load deadline passes without its response, so the ticket is freed as late or enters LATE. -/
  | ticketLoadDeadline (port : Fin 4) (ticket : Nat)
  /-- LATE_TOLERANCE_EXPIRY (R118). LATETOL elapses for a LATE ticket, which is freed and counted late. -/
  | lateToleranceExpiry (port : Fin 4) (ticket : Nat)
  /-- GATE_RELEASE (R119). A departure instant is reached and the READY response starts on its grid point, or is discarded when its class is paused. -/
  | gateRelease (port : Fin 4) (ticket : Nat)
  /-- TX_FRAME_DONE (R118). A staked frame's last bit leaves and its wire reservation is released. -/
  | txFrameDone (port : Fin 4) (ticket : Nat)
  /-- EGRESS_CROSSING_REPORT (R125). The egress Stake unit reports the crossing, and Stakeout checks the deviation and frees the ticket. -/
  | egressCrossingReport (port : Fin 4) (ticket capture : Nat)
  /-- UNSTAKED_FRAME_SEND (R114). A frame that is not staked starts when it fits before the next reservation. -/
  | unstakedFrameSend (port : Fin 7)
  /-- GRID_MODEL_REFRESH (R111). The egress Stake unit refreshes the port's grid model every 4,096 DCLK cycles. -/
  | gridModelRefresh (port : Fin 4) (anchor : GridCapture) (spacing : Nat) (codePos : Fin 80) (byte4 : Bool)
  /-- PTP_ISSUE (R126). A Sync or Announce issue instant of a grant or multicast schedule arrives, and the message is staked or counted without a ticket. -/
  | ptpIssue (schedule : Schedule) (announce : Bool)
  /-- GRANT_REQUEST (R105). The service processors decide a REQUEST_UNICAST_TRANSMISSION in a Signaling message. -/
  | grantRequest
  /-- GRANT_CANCEL (R106). A CANCEL_UNICAST_TRANSMISSION stops a grant from its next scheduled message and is acknowledged. -/
  | grantCancel
  /-- GRANT_EXPIRY (R106). A grant's duration elapses, and a client with no remaining grant leaves the table. -/
  | grantExpiry (index : Nat)
  /-- ANNOUNCEMENT_REPEAT (R81). A gratuitous ARP or unsolicited advertisement of an announcement series is sent 1 s after the previous one. -/
  | announcementRepeat (sa : Fin 272)
  /-- SVP_COUNTER_CLEAR (R108). A write of SVP_PLn_CNTCLR.CLR clears all counters of the pipeline. -/
  | svpCounterClear (pl : Fin 5)
  /-- SKO_COUNTER_CLEAR (R127). A write of SKO_Pn_CNTCLR.CLR clears the eight counters of the port. -/
  | skoCounterClear (port : Fin 4)
  /-- STAKE_COMPENSATION_CHANGE (R137). A change of Stake trims, board or PHY delays or PLANE takes effect and suspends ticket assignment until the next grid refresh. -/
  | stakeCompensationChange (n : Fin 7) (addr : BitVec 24) (value : Word) (path : Path)
  /-- STAKE_SELF_TEST_START (R143). A write of STK_n_CAL.START on an administratively down port starts the latency self-test. -/
  | stakeSelfTestStart (n : Fin 7)
  /-- STAKE_SELF_TEST_DONE (R143). The self-test ends after 2 ms, reporting RES and FAIL and sending STK_CAL on failure. -/
  | stakeSelfTestDone (n : Fin 7) (loopPs : Int)
  /-- FOLLOW_UP_SEND (R139). The two-step server takes an egress record and sends the Follow_Up for its Sync. -/
  | followUpSend (n : Fin 7)
  /-- VARIABLE_LATENCY_MEASURE (R132). A Stake unit completes its measurement of the variable latencies after alignment, allowing link up. -/
  | variableLatencyMeasure (n : Fin 7) (vrx vtx : Nat)
  /-- LINK_UP (R196). A port's link comes up and the change is recorded. -/
  | linkUp (port : Fin 7) (report : LinkReport)
  /-- LINK_DOWN (R197). A port's link goes down, discarding its received frames, pauses and tickets. -/
  | linkDown (port : Fin 7) (sigdet : BitVec 4) (lf rf feclock : Bool)
  /-- PAUSE_END (R202). A pause interval of a class ends. -/
  | pauseEnd (port : Fin 7) (tc : Fin 8)
  /-- FLOW_CONTROL_REFRESH (R203). Half the sent pause time elapses with occupancy above XON, and the frame is sent again. -/
  | flowControlRefresh (port : Fin 4) (cls : Option (Fin 8))
  /-- PATH_SWITCH (R205). HOLD ends with the active link down and the other up, and the active path switches. -/
  | pathSwitch (pair : Fin 2)
  /-- PATH_REVERT (R205). The primary has been up for WTR with REVERT set, and the pair returns to it. -/
  | pathRevert (pair : Fin 2)
  /-- PRT_COUNTER_CLEAR (R213). A write of a port's CNTCLR.CLR clears all its counters. -/
  | prtCounterClear (port : Fin 7)
  /-- FIELD_TX_ATTEMPT (R206). A field port starts a transmission attempt after deferral, backoff or in its PLCA opportunity. -/
  | fieldTxAttempt (n : Fin 2) (quiet : Option Nat)
  /-- FIELD_COLLISION (R207). A collision on a field port sets the backoff or abandons the frame after sixteen collisions. -/
  | fieldCollision (n : Fin 2) (level : Bool)
  /-- BEACON_LOST (R208). A PLCA node sees no BEACON for BTO and falls back to CSMA/CD. -/
  | beaconLost (n : Fin 2)
  /-- MDIO_COMMAND (R210). A write of PRT_MDIO_CMD.GO while not busy starts an MDIO frame. -/
  | mdioCommand (path : Path) (value : Word)
  /-- MDIO_DONE (R210). An MDIO frame completes, and a read places its result in DATA. -/
  | mdioDone (data : BitVec 16)
  /-- WAKE_EVENT (R211). An enabled wake source appears in DORMANT and is recorded, starting a release. -/
  | wakeEvent (input : WakeInput)
  /-- TRANSIT_EDGE (R218). A selected input edge is counted and, when the trigger conditions hold, converted. -/
  | transitEdge (ch : Fin 24) (falling : Bool) (code : Fin 16384) (narrow : Bool)
  /-- TRANSIT_STAMP_ACCEPT (R219). A converted edge passes its MINW check and its stamp feeds the owner, the mode processing and the statistics, or is rejected as a glitch. -/
  | transitStampAccept (ch : Fin 24) (held : Bool)
  /-- TRANSIT_RECORD_OUT (R220). A Transit record leaves its channel queue on the shared result path to the ring or event queue. -/
  | transitRecordOut
  /-- EVQ_POP (R236). A write of TRN_EVQ_POP.POP moves the oldest event-queue record into TRN_EVQ_W0 to W7. -/
  | evqPop
  /-- TRN_RES_SEQ_READ (R232). A read of TRN_CHn_RES_SEQ latches the channel's statistics result set. -/
  | trnResSeqRead (reader : ReadBy) (ch : Fin 24)
  /-- TRANSIT_SETTING_CHANGE (R233). A change of a channel's settings restarts its measurement, discarding unpaired starts, open gates and partial blocks. -/
  | transitSettingChange (ch : Fin 24) (addr : BitVec 24) (value : Word) (path : Path)
  /-- TRANSIT_START_OVERFLOW (R230). An unpaired start reaches 2⁴⁰ DCLK of age and yields an OVF interval record. -/
  | transitStartOverflow (ch : Fin 24)
  /-- CONVERTER_CALIBRATION_DONE (R222). A converter finishes its code-density calibration, or fails it with CALFAIL. -/
  | converterCalibrationDone (ch : Fin 24) (conv : Fin 3) (hist : List Nat)
  /-- CONVERTER_ROTATE (R223). CALPER elapses and the longest-serving converter of each channel swaps with the newly calibrated one. -/
  | converterRotate (ch : Fin 24) (conv : Fin 3)
  /-- OSCIN_DETECT (R226). Ten consecutive ticks decide OSCIN presence and frequency during BOOT. -/
  | oscinDetect (count : Nat)
  /-- OSCIN_LOSS (R226). No OSCIN edge for 400 ns signals OSCIN loss to Synthesis. -/
  | oscinLoss
  /-- TOD_MESSAGE (R240). A time-of-day port decodes a whole NMEA or G.8271 message and labels a pulse. -/
  | todMessage (port : Fin 4) (bytes : Bytes)
  /-- PULSE_MISSING (R456). An expected pulse instant passes by more than PPSWIN with no pulse. -/
  | pulseMissing (i : Fin 8)
  /-- REF_QUALIFY_TIMER (R244). An input's qualify timer reaches QUALT and the input enters WTR or AVAILABLE. -/
  | refQualifyTimer (i : Fin 12)
  /-- REF_WTR_EXPIRY (R244). An input's wait-to-restore timer reaches WTR and the input becomes AVAILABLE. -/
  | refWtrExpiry (i : Fin 12)
  /-- REF_SWITCH_DONE (R248). A channel's switch slew has applied all of Δ and the switch ends. -/
  | refSwitchDone (c : Fin 8)
  /-- CLOSURE_EVALUATION (R252). Every 1,000 ticks frequency estimates are updated and closure disputes, demotions and unresolved pairs are decided. -/
  | closureEvaluation
  /-- CHANNEL_LOCK (R258). A channel meets its lock criterion for LOCKT seconds and becomes LOCKED. -/
  | channelLock (c : Fin 8)
  /-- HOLDOVER_TIMEOUT (R259). HOMAX elapses in HOLDOVER and the channel goes to FREERUN. -/
  | holdoverTimeout (c : Fin 8)
  /-- BENCHMARK_SAMPLE (R264). Benchmark takes its one-per-second sample of each model's offset and temperature. -/
  | benchmarkSample (temp : BitVec 16)
  /-- BENCHMARK_REFIT (R265). Once per hour Benchmark refits its model terms and updates its learning phase. -/
  | benchmarkRefit
  /-- BENCHMARK_TEMP_READ (R266). Benchmark reads the board I2C temperature sensor, falling back after three failures. -/
  | benchmarkTempRead (reply : Option (BitVec 16))
  /-- SYN0_LOSS_OF_LOCK (R276). SYN0 declares loss of lock, freezing DCLK, SCLK and KCLK and switching MCLK to SYN_AUX. -/
  | syn0LossOfLock
  /-- CLOCK_RESTART (R276). SYN0 relocks and the clocks restart, reloading the Datum and running the restart handling of every block. -/
  | clockRestart
  /-- DRAM_RESUME (R276). The DRAM leaves self-refresh within 5 µs of the restart edge and waiting requests resume. -/
  | dramResume
  /-- SYN0_LASTING (R278). SYN0 is still unlocked 1 ms after the declaration, making the loss a lasting fault. -/
  | syn0Lasting
  /-- SYN_AUX_LOL (R279). SYN_AUX loses lock, taking the PCIe and MGT links down. -/
  | synAuxLol
  /-- CLK_DOUBLE_LOSS (R279). SYN0 and SYN_AUX are both unlocked, and the always-on controller records a lasting fault and restarts the clocks on relock. -/
  | clkDoubleLoss
  /-- SYN_LOL (R282). An output synthesizer loses lock and its outputs mute. -/
  | synLol (n : Fin 6)
  /-- SYN_LOCK (R282). An output synthesizer locks and its settle interval starts. -/
  | synLock (n : Fin 6)
  /-- SYN_SETTLE_DONE (R285). SETTLE passes after lock and the synthesizer's outputs unmute. -/
  | synSettleDone (n : Fin 6)
  /-- SYN_RELOCK_CHANGE (R285). A write of NUM, DEN or an output DIV mutes the synthesizer's outputs and starts a full relock. -/
  | synRelockChange (path : Path) (addr : BitVec 24) (value : Word)
  /-- SYN_STEER_APPLY (R281). A CH1 to CH7 frequency word reaches its steered synthesizers 24 µs after it is produced. -/
  | synSteerApply (c : Fin 8)
  /-- RAMP_GO (R283). A write of RAMPCTL.GO checks the profile and starts segment 0 on the next tick. -/
  | rampGo (n : Fin 6) (value : Word)
  /-- RAMP_SEGMENT_DONE (R283). A ramp segment reaches its target, starting the next or ending the ramp. -/
  | rampSegmentDone (n : Fin 6)
  /-- RAMP_STOP (R286). A write of RAMPCTL.STOP ends the ramp on the next tick at the frequency reached. -/
  | rampStop (n : Fin 6) (value : Word)
  /-- SYNC_IN_EDGE (R291). A sampled rising edge of SYNC_IN resets the dividers of outputs with SYNCEN set. -/
  | syncInEdge
  /-- OUTPUT_LIMIT_MEASURE (R294). A 1 ms measurement window of an output ends and may trip the limiter. -/
  | outputLimitMeasure (out : Fin 12) (mhz : BitVec 40)
  /-- LIMIT_CLEAR (R294). A write of SYN_OUTn_CTL.LIMCLR releases a limiter trip. -/
  | limitClear (out : Fin 12) (value : Word)
  /-- LIMIT_AUTO_RELEASE (R294). With AUTOREL set, both checks pass for 100 ms and the trip clears. -/
  | limitAutoRelease (out : Fin 12)
  /-- CLAIM_FRAME_SEND (R298). Each unit sends its 64-bit claim frame every 40 ns. -/
  | claimFrameSend
  /-- CLAIM_FRAME_RECEIVE (R298). A claim frame arrives and refreshes the partner claim and echo. -/
  | claimFrameReceive (bits : BitVec 64)
  /-- CLAIM_STALE (R298). Neither path refreshes the partner claim for 2 µs and it becomes stale. -/
  | claimStale
  /-- ACTIVE_GAIN (R299). The drive condition holds for the guard G, ACTIVE rises and the unit enters SERVE. -/
  | activeGain
  /-- DVL_CMP_MISMATCH (R301). An output-stage comparator differs from ACTIVE for more than 20 ns and the stage is forced off. -/
  | dvlCmpMismatch (out : Fin 12)
  /-- HEARTBEAT_SEND (R304). Each unit sends an HB frame every 1 µs. -/
  | heartbeatSend
  /-- HEARTBEAT_RECEIVE (R307). An HB frame arrives, refreshing the claim and feeding the estimate of D. -/
  | heartbeatReceive (good : Bool) (lanes : BitVec 2) (hb : Heartbeat) (stamp : Nat)
  /-- DVL_LINK_DOWN (R304). No valid Dvorgo frame arrives for 4 µs, so the link is down and resynchronisation returns to DOWN. -/
  | dvlLinkDown
  /-- STATE_RECORD_SEND (R305). Each 8 µs cycle the active unit sends its state record. -/
  | stateRecordSend
  /-- STATE_RECORD_APPLY (R305). The standby applies a complete state record, or discards it whole. -/
  | stateRecordApply (damaged : Nat) (missing : Bool) (r : StateRecord)
  /-- STATUS_RECORD_SEND (R304). Each cycle the standby sends its STATUS frame. -/
  | statusRecordSend
  /-- PAIR_ATTESTATION (R316). During PAIRING the units exchange attested ephemeral keys, derive the pair key and transfer the client-table keys. -/
  | pairAttestation (msg : PairMsg) (chainOk : Bool)
  /-- PAIRING_RETRY (R316). One second after a rejected pairing the next attempt starts. -/
  | pairingRetry
  /-- BULK_COMPLETE (R315). The standby has received every bucket and grant entry and enters TRACK. -/
  | bulkComplete
  /-- TRACK_COMPLETE (R315). The Datum is LOCKED with no bad cycle for TRACKT and the standby becomes READY. -/
  | trackComplete
  /-- DVL_YIELD (R297). A write of DVL_CTL.YIELD sets or clears health class 1. -/
  | dvlYield (value : Word)
  /-- DVL_REJOIN (R314). A write of DVL_CTL.REJOIN releases a hand-over once its cause has cleared. -/
  | dvlRejoin (value : Word)
  /-- RING_TAIL_WRITE (R324). A write of a ring's TAIL hands slots to the device, or is discarded with TAILERR. -/
  | ringTailWrite (ring : Fin 64) (value : Word)
  /-- RING_ENABLE (R326). A write of CFG.EN = 1 zeroes HEAD, TAIL and WRAPS and starts the ring. -/
  | ringEnable (ring : Fin 64) (value : Word)
  /-- RING_DISABLE (R326). A write of CFG.EN = 0 stops the ring, finishing the transfer in progress and dropping or aborting the rest. -/
  | ringDisable (ring : Fin 64) (value : Word)
  /-- RING_STOP_COMPLETE (R326). A stopped ring's ACTIVE falls and it issues no more DMA. -/
  | ringStopComplete (ring : Fin 64)
  /-- UP_RING_FRAME_DELIVER (R330). A frame at the head of an up-ring queue reserves slots and is written to the host with its completions and write-back. -/
  | upRingFrameDeliver (ring : Fin 16) (slots : List Desc)
  /-- RING_WAIT_EXPIRY (R330). WAIT ends with too few slots and the waiting frame or record is dropped as RING_SHORT. -/
  | ringWaitExpiry (ring : Fin 24)
  /-- UP_RING_RECORD (R331). A record is placed whole in the current record-ring buffer, completing it when the next would not fit. -/
  | upRingRecord (ring : Fin 8) (slots : List Desc)
  /-- RECORD_BUFFER_COALESCE (R331). COALESCE passes after a buffer's first record and the buffer is completed. -/
  | recordBufferCoalesce (ring : Fin 8)
  /-- HOST_TX_FRAME (R334). A host transmit frame is fetched, checked, sent or refused, and its completions are written. -/
  | hostTxFrame (ring : Fin 16) (slots : List Desc) (data : Bytes)
  /-- COMMAND_FETCH (R335). A command slot is fetched and dispatched once a completion slot is reserved, or completed as invalid. -/
  | commandFetch (k : Fin 8) (desc : Desc) (block : Bytes)
  /-- COMMAND_COMPLETION (R336). A command's completion is written to its U24 + k slot in ring order. -/
  | commandCompletion (k : Fin 8)
  /-- RING_IRQ_TIMER (R321). TMR µs pass after the first unsignalled completion and the ring's interrupt fires. -/
  | ringIrqTimer (ring : Fin 56)
  /-- HOST_RESET (R319). A PCIe link down, hot reset, FLR or PCIE_PERST_N stops every ring and clears the interrupt state. -/
  | hostReset (linkDown : Bool)
  /-- BUS_MASTER_DISABLE (R319). Bus Master Enable is cleared or D3hot is entered, and the device issues no new request. -/
  | busMasterDisable (d3 : Bool)
  /-- MSPI_READ (R337). An MSPI read transaction is checked and performed, returning data and status. -/
  | mspiRead (bytes : Bytes)
  /-- MSPI_WRITE (R337). An MSPI write transaction is checked and performed or refused, returning status. -/
  | mspiWrite (bytes : Bytes)
  /-- MOD_ADD (R175). The PKE computes (a + b) mod m. -/
  | modAdd (core : Fin 16)
  /-- MOD_SUB (R175). The PKE computes (a − b) mod m. -/
  | modSub (core : Fin 16)
  /-- MOD_MUL (R175). The PKE computes a × b mod m. -/
  | modMul (core : Fin 16)
  /-- MOD_RED (R175). The PKE reduces x modulo m. -/
  | modRed (core : Fin 16)
  /-- MOD_EXP (R175). The PKE computes a to the power e mod m. -/
  | modExp (core : Fin 16)
  /-- MOD_INV (R175). The PKE computes the inverse of a mod m. -/
  | modInv (core : Fin 16)
  /-- RSA_PUB (R175). The PKE performs an RSA public operation. -/
  | rsaPub (core : Fin 16)
  /-- RSA_PRIV (R175). The PKE performs a blinded, self-checked RSA private operation. -/
  | rsaPriv (core : Fin 16)
  /-- EC_VALIDATE (R175). The PKE validates a curve point. -/
  | ecValidate (core : Fin 16)
  /-- EC_MUL (R175). The PKE computes a scalar multiple of a point. -/
  | ecMul (core : Fin 16)
  /-- EC_KEYGEN (R175). The PKE generates an EC key pair. -/
  | ecKeygen (core : Fin 16)
  /-- EC_DH (R175). The PKE computes an ECDH shared x-coordinate. -/
  | ecDh (core : Fin 16)
  /-- ECDSA_SIGN (R175). The PKE produces an ECDSA signature. -/
  | ecdsaSign (core : Fin 16)
  /-- ECDSA_VERIFY (R175). The PKE verifies an ECDSA signature. -/
  | ecdsaVerify (core : Fin 16)
  /-- X25519 (R175). The PKE computes X25519. -/
  | x25519 (core : Fin 16)
  /-- X25519_KEYGEN (R175). The PKE generates an X25519 key pair. -/
  | x25519Keygen (core : Fin 16)
  /-- ED25519_KEYGEN (R175). The PKE generates an Ed25519 key pair. -/
  | ed25519Keygen (core : Fin 16)
  /-- ED25519_SIGN (R175). The PKE produces an Ed25519 signature. -/
  | ed25519Sign (core : Fin 16)
  /-- ED25519_VERIFY (R175). The PKE verifies an Ed25519 signature. -/
  | ed25519Verify (core : Fin 16)
  /-- KS_IMPORT (R186). The key store imports a form D or form T blob into a slot. -/
  | ksImport (core : Fin 16)
  /-- KS_GENERATE (R189). The key store generates a key into a slot and returns its public half and form D blob. -/
  | ksGenerate (core : Fin 16)
  /-- KS_PUBLIC (R185). The key store returns a slot's public key, with the attestation chain for slot 511. -/
  | ksPublic (core : Fin 16)
  /-- KS_ATTEST (R192). The key store returns a signed attestation statement for a slot. -/
  | ksAttest (core : Fin 16)
  /-- KS_ERASE (R190). The key store empties and zeroes a slot. -/
  | ksErase (core : Fin 16)
  /-- PKE_DISPATCH (R172). A core falls free and takes the next host command or service-processor request. -/
  | pkeDispatch (core : Fin 16)
  /-- PKE_OP_COMPLETE (R176). A core commits an operation's status and result and scrubs its operand memory. -/
  | pkeOpComplete (core : Fin 16)
  /-- PKE_ABORT (R181). A write of PKE_ABORT.RINGS aborts the host commands of the selected rings. -/
  | pkeAbort (rings : BitVec 8)
  /-- PKE_COUNTER_CLEAR (R193). A write of PKE_CNTCLR.CLR clears the six PKE counters. -/
  | pkeCounterClear
  /-- NTS_KEY_DERIVE (R145). Sixty seconds before an epoch boundary the next epoch key is derived. -/
  | ntsKeyDerive
  /-- NTS_EPOCH (R145). An epoch boundary passes, the oldest key is erased and the epoch is recorded. -/
  | ntsEpoch
  /-- CRL_COUNTER_CLEAR (R170). A write of CRL_NTS_CNTCLR.CLR clears the ten NTS counters. -/
  | crlCounterClear
  /-- RNG_FAIL (R169). The entropy source fails its health tests and the deterministic generator stops. -/
  | rngFail
  /-- RNG_RECOVER (R169). The entropy source passes its tests again and service resumes with new client-table keys. -/
  | rngRecover
  /-- NTSKE_SYN (R156). A TCP SYN to port 4460 opens an NTS-KE session, or is dropped at MAXSESS or without a certificate. -/
  | ntskeSyn (sa : Fin 272)
  /-- TLS_CLIENT_HELLO (R152). The server chooses suite, group and certificate for a ClientHello and builds its flight, or sends an alert. -/
  | tlsClientHello (session : Nat) (records : Bytes)
  /-- TLS_KEY_UPDATE (R151). A KeyUpdate is answered as TLS 1.3 requires. -/
  | tlsKeyUpdate (session : Nat) (records : Bytes)
  /-- NTSKE_REQUEST (R154). After the client's Finished, the NTS-KE records are read to End of Message and answered. -/
  | ntskeRequest (session : Nat) (input : KeInput)
  /-- NTSKE_SESSION_TIMEOUT (R156). A session that has not completed within TIMEOUT is reset. -/
  | ntskeSessionTimeout (session : Nat)
  /-- NTSKE_SESSION_END (R156). The client's close_notify and FIN arrive and the session state is scrubbed and freed. -/
  | ntskeSessionEnd (session : Nat)
  /-- CERT_EXPIRY (R160). Once per day a leaf certificate within 14 days of notAfter is recorded and alarmed. -/
  | certExpiry
  /-- RELEASE (R366). A release starts BOOT with the reset state and samples the straps. -/
  | release (bootsel : Fin 4) (unitId mspiEn : Bool)
  /-- PORST_ASSERT (R365). PORST_N held low for 20 consecutive samples resets the device. -/
  | porstAssert
  /-- VIN_GOOD (R360). VIN crosses its rising threshold and stays past it for 1 µs. -/
  | vinGood (porstLow : Bool)
  /-- VIN_LOST (R371). VIN is lost in a powered mode, and the device sheds to MONUMENT or OFF. -/
  | vinLost
  /-- VAO_GOOD (R368). VAO becomes good with VIN not good and MONUMENT starts. -/
  | vaoGood
  /-- VAO_LOST (R368). The last supply of MONUMENT or DORMANT is lost and the device goes OFF. -/
  | vaoLost
  /-- BOOT_SLOT_HEADER (R341). The boot controller reads a slot header and section table and checks them. -/
  | bootSlotHeader (readable : Bool)
  /-- BOOT_SLOT_BODY_READ (R346). The last byte of a slot is read with every section CRC and digest complete, or the slot is rejected. -/
  | bootSlotBodyRead
  /-- BOOT_SIGNATURE_VERIFY (R345). SIGZ and SIGC are verified on two PKE cores. -/
  | bootSignatureVerify
  /-- BOOT_FIRMWARE_START (R350). The service firmware is loaded, the processors start and the known-answer tests run. -/
  | bootFirmwareStart (laneFail : BitVec 18) (coreFail : BitVec 16) (rngOk : Bool)
  /-- BOOT_REGS_APPLY (R353). The REGS records are applied and every image field is range-checked and clamped. -/
  | bootRegsApply
  /-- BOOT_KEYS_LOAD (R188). Slots 510 and 511 are derived and the KEYS entries are loaded, with the generated root key where ROOTSRC is 1. -/
  | bootKeysLoad
  /-- BOOT_CERTS_CHECK (R159). The certificate chains are checked against their slots and invalid entries disabled. -/
  | bootCertsCheck
  /-- BOOT_END (R348). The image is loaded, register writes are admitted and the client-table keys are drawn. -/
  | bootEnd
  /-- BOOT_TIMEOUT (R346). A slot fails to reach the end of BOOT within 2 s and the next slot is tried. -/
  | bootTimeout
  /-- DRAM_TRAINING_DONE (R348). DRAM training completes and retained Field Book entries move to the DRAM journal. -/
  | dramTrainingDone
  /-- FLASH_READ (R357). SYS_FL_CTL GO with OP 0 reads 256 bytes of flash into the buffer. -/
  | flashRead (path : Path) (value : Word)
  /-- FLASH_PROGRAM (R357). SYS_FL_CTL GO with OP 1 programs 256 bytes from the buffer. -/
  | flashProgram (path : Path) (value : Word)
  /-- FLASH_ERASE (R357). SYS_FL_CTL GO with OP 2 erases one 64 KiB sector. -/
  | flashErase (path : Path) (value : Word)
  /-- FLASH_OP_DONE (R357). A flash operation completes, or fails after 2 s busy, and BUSY clears. -/
  | flashOpDone (failed : Bool)
  /-- MODE_REQUEST_MAINT (R372). A keyed SYS_MODE_CTL write requests MAINT. -/
  | modeRequestMaint (path : Path) (value : Word)
  /-- MODE_REQUEST_SAFE (R372). A keyed SYS_MODE_CTL write requests SAFE. -/
  | modeRequestSafe (path : Path) (value : Word)
  /-- MODE_REQUEST_DORMANT (R373). A keyed SYS_MODE_CTL write requests DORMANT, admitted only with a wake source. -/
  | modeRequestDormant (path : Path) (value : Word)
  /-- MODE_REQUEST_RESTART (R372). A keyed SYS_MODE_CTL write requests a restart. -/
  | modeRequestRestart (path : Path) (value : Word)
  /-- SURVEY_TIMEOUT (R370). SURVEYMAX seconds in SURVEY establish the service condition. -/
  | surveyTimeout
  /-- SAFE_AUTORST (R372). AUTORST minutes in SAFE start an automatic restart. -/
  | safeAutorst
  /-- IOBANK_CHANGE (R425). A write that changes a bank voltage sets its outputs high-impedance and moves the bank. -/
  | iobankChange (path : Path) (value : Word)
  /-- IOBANK_SETTLE (R425). Two milliseconds after a bank change the bank's outputs resume. -/
  | iobankSettle
  /-- FAULT_EVENT (R380). The fault manager counts a fault event in its source bucket and judges it transient or lasting. -/
  | faultEvent
  /-- PATROL_SCRUB (R384). The patrol scrub reads every DRAM and SRAM word once every 24 h. -/
  | patrolScrub (ecc : EccHit)
  /-- ALARM_ACK (R385). A write of SYS_ALARM_ACK clears latched alarms. -/
  | alarmAck (value : Word)
  /-- IRQ_EOI (R414). A write of SYS_IRQ_EOI re-signals groups that are still pending and enabled. -/
  | irqEoi (value : Word)
  /-- FBK_ENTRY_ACCEPT (R388). The system controller accepts the next Field Book entry from the block queues and hashes it. -/
  | fbkEntryAccept
  /-- FBK_SEAL_SIGNED (R390). The attestation-key signature of a seal completes. -/
  | fbkSealSigned (seg : Nat)
  /-- FBK_SEAL_PERIOD (R391). SEALPER minutes pass and the open segment is padded and sealed. -/
  | fbkSealPeriod
  /-- FBK_CHAIN_RESUME (R394). After DRAM training at a release the journal resumes its chain or starts a new one. -/
  | fbkChainResume
  /-- FBK_SEAL (R396). Command 0x40 seals the open segment and returns its number. -/
  | fbkSeal (k : Fin 8)
  /-- FBK_READSEG (R396). Command 0x41 returns a sealed segment and its seal block. -/
  | fbkReadseg (k : Fin 8) (ecc : EccHit)
  /-- FBK_READTAIL (R396). Command 0x42 returns the retained entries. -/
  | fbkReadtail (k : Fin 8)
  /-- FBK_MARK (R396). Command 0x43 writes a HOST_MARK entry and returns its journal index. -/
  | fbkMark (k : Fin 8)
  /-- FBK_HEAD (R396). Command 0x44 returns the chain identity, last sealed segment, its hash and the next index. -/
  | fbkHead (k : Fin 8)
  /-- PMC_SEL_WRITE (R403). A write of PMC_u_SELk stops the counter two cycles, clears it unless PRESERVE is set and resumes with the new event. -/
  | pmcSelWrite (u : Fin 13) (k : Fin 8) (value : Word)
  /-- PMC_CLEAR_ALL (R403). A write of PMC_CTL.CLRALL clears every event counter. -/
  | pmcClearAll
  /-- PMC_SNAPSHOT (R404). A write of PMC_CTL.SNAP captures every counter into the counter page. -/
  | pmcSnapshot
  /-- PMC_SNAP_PERIOD (R404). SNAPPER ms pass and a snapshot is taken, with telemetry records where enabled. -/
  | pmcSnapPeriod
  /-- TAG_ENABLE (R406). A write of PMC_TAG_CFG.EN = 1 seeds the tag LFSR. -/
  | tagEnable (value : Word)
  /-- SPU_INSTRUCTION_TAG (R409). A tagged service-processor instruction retires and yields its record. -/
  | spuInstructionTag (spu : Fin 8) (offered : Nat) (source : Fin 4) (stall : Fin 5) (pc fetch issue exec : Nat)
  /-- EXTEST (R427). TAP instruction EXTEST drives the boundary cells in MAINT. -/
  | extest
  /-- IDCODE (R427). TAP instruction IDCODE selects the identification register. -/
  | idcode
  /-- SAMPLE_PRELOAD (R427). TAP instruction SAMPLE/PRELOAD samples or preloads the boundary cells. -/
  | samplePreload
  /-- EXTEST_PULSE (R427). TAP instruction EXTEST_PULSE tests the SerDes balls under IEEE 1149.6 in MAINT. -/
  | extestPulse
  /-- EXTEST_TRAIN (R427). TAP instruction EXTEST_TRAIN tests the SerDes balls under IEEE 1149.6 in MAINT. -/
  | extestTrain
  /-- HIGHZ (R427). TAP instruction HIGHZ places the outputs high-impedance in MAINT. -/
  | highz
  /-- CLAMP (R427). TAP instruction CLAMP holds the outputs at the boundary values in MAINT. -/
  | clamp
  /-- BYPASS (R427). TAP instruction BYPASS selects the bypass register. -/
  | bypass
  /-- SYN0_LOCK (R273). During BOOT, SYN0 first locks to the selected system oscillator; DCLK, SCLK, KCLK and WCK start, the Datum is loaded or starts in FREERUN, and DRAM training and Transit calibration begin. -/
  | syn0Lock
  /-- SYN_AUX_LOCK (R279). SYN_AUX locks, at first after release or again after SYN_AUX_LOL, so MCLK, PCIe and MGT regain their reference and a double loss can restart the clocks. -/
  | synAuxLock
  /-- PCIE_LINK_UP (R426). The PCIe link completes training and its data link layer becomes active, setting HMI_STAT.LINK. -/
  | pcieLinkUp (speed : Fin 4) (width : Fin 3)
  /-- BUS_MASTER_ENABLE (R319). The host sets Bus Master Enable again or brings the function out of D3hot, and the rings resume DMA. -/
  | busMasterEnable (d3 msix : Bool)
  /-- BEACON_RECEIVE (R208). A PLCA BEACON arrives on a field port, setting PLCAOK and ending the CSMA/CD fallback. -/
  | beaconReceive (n : Fin 2)
  /-- BEACON_SEND (R208). A field port that is PLCA coordinator sends the BEACON that starts each PLCA cycle of transmit opportunities. -/
  | beaconSend (n : Fin 2)
  /-- FIELD_RX_CLK_CHANGE (R206). Fn_RX_CLK from the external PHY starts or stops, so the field port comes up or goes down and CLKOK changes. -/
  | fieldRxClkChange (n : Fin 2) (running : Bool)
  /-- BULK_FRAME_RECEIVE (R315). During BULK the standby receives a BULK frame and writes its client-table buckets and grant-table entries in arrival order. -/
  | bulkFrameReceive (good : Bool) (clients : List (Nat × Bytes)) (grants : List GrantChange) (last : Bool)
  /-- STATUS_RECORD_RECEIVE (R309). The active unit receives the standby's STATUS frame with its lasting-disagreement flag, reference offsets, epoch and key check value, and raises PAIR_DISAGREE and arbitrates when the flag is set. -/
  | statusRecordReceive (good : Bool) (r : StatusRecord)
  /-- HOST_FRAME_SENT (R334). A frame that is not staked (a host transmit frame, an address reply or an echo reply) leaves complete, giving the SENT completion and any egress timestamp record. -/
  | hostFrameSent (port : Fin 7) (capture : Option Nat)
  /-- VAOLOW (R360). In MONUMENT, VAO falls below its 2.90 V VAOLOW threshold and stays there for 1 µs. -/
  | vaolow
  /-- DVL_LANE_DOWN (R304). One Dvorgo lane goes down while the other stays up, cutting the journal to 20 KiB per cycle and raising DVL_LANE. -/
  | dvlLaneDown (lane : Fin 2)
deriving DecidableEq, Repr

end Sys2Proof
end

