-- ==== Sys2Proof/Config.lean ====
section
/-! DEFINITION. What the spec leaves open: free values, and the primitives that it names without defining. Nothing here has a body,
so no proof can see a value. -/
namespace Sys2Proof.Config

/-- A fresh free value: the n-th value that the device draws and that the spec does not fix (an entropy draw, a value that no rule states). -/
opaque free : Nat → Nat

/-- The fused fixed receive latency of a Stake unit in ps, by unit and speed code of STK_n_STAT.SPEED, corrected for the die temperature in units of 1/256
degree (R131, R133). -/
opaque fixedRx : Nat → Nat → Int → Nat

/-- The fused fixed transmit latency of a Stake unit in ps (R131, R133). -/
opaque fixedTx : Nat → Nat → Int → Nat

/-- The source MAC of the PAUSE and PFC frames of a port, which no rule states (R203). -/
opaque pauseMac : Nat → Nat

/-- The quotient that the affine formulas of a curve want where the modulus, which no rule requires to be prime, gives no inverse (R179). -/
opaque noInverse : Nat → Nat → Nat

/-- The device-unique key of R185, which combines the PUF response with a secret in OTP. -/
opaque deviceKey : List (BitVec 8)

/-- The attestation certificate chain in OTP, leaf first (R185). -/
opaque attestChain : List (BitVec 8)

/-- The USAGE that the reserved slots 510 and 511 show, which no rule states (R185). -/
opaque reservedUsage : Nat → Nat

/-- sourcePortIdentity of the PTP server of a port, which no rule states (R100). -/
opaque serverIdentity : Nat → Nat

/-- grandmasterIdentity of the Announce messages of a port, which no rule states (R104). -/
opaque grandmasterIdentity : Nat → Nat

/-- timeTraceable and frequencyTraceable of Announce by Datum state, which no rule states (R104). -/
opaque traceable : Nat → Nat

/-- The renewal-invited flag of a grant response, which no rule states (R105). -/
opaque renewalInvited : Nat

/-- The gains of a domain servo by its BW code, which no rule states beside the bandwidth: the proportional one in units of 2^-20 per s, the integral one in units of
2^-40 per s squared (R65). -/
opaque servoGain : Nat → Int

/-- The integral gain of a domain servo. -/
opaque servoIntegral : Nat → Int

/-- The Reference Timestamp before the active domain has accepted any input, which no rule states (R85). -/
opaque referenceBeforeInput : Nat

/-- The fused input-path delay of a Transit channel in units of 2^-8 ps, by channel and prescaler code (R216). -/
opaque fusedInput : Nat → Nat → Int

/-- The settings that Benchmark, the Dvorgo link and the calibration give the fields that they own on Transit channels 16, 17 and 23, which no
rule states, by channel: EDGE, PRESC, DECIM, MINW, HOLDOFF (R214). -/
opaque ownerSetting : Nat → Nat → Nat

/-- The fused path delay of an output in ps, by output and FMT (R289). -/
opaque fusedOutput : Nat → Nat → Nat

/-- The public key of Zomal's firmware signature in mask ROM: x and y (R345). -/
opaque zomalKey : Nat × Nat

/-- The customer key hashes in OTP (R345). -/
opaque customerHash : Nat → List (BitVec 8)

/-- Zomal's JEDEC JEP106 manufacturer code, 11 bits (R427). -/
opaque jedecCode : Nat

end Sys2Proof.Config
end

