-- ==== Sys2Proof/Machine/Bits.lean ====
section
/-! DEFINITION. Bit fields, signed readings, byte order and the checksums whose polynomials the spec states. -/
namespace Sys2Proof.Machine

/-- The field of width `w` at bit `lsb`, as a number. -/
def fieldGet (v : Word) (lsb w : Nat) : Nat := (v.extractLsb' lsb w).toNat

/-- The mask of a field. -/
def fieldMask (lsb w : Nat) : Word := BitVec.ofNat 32 (2 ^ w - 1) <<< lsb

/-- `v` with the field of width `w` at bit `lsb` replaced by `x` (cut to the field). -/
def fieldSet (v : Word) (lsb w x : Nat) : Word :=
  (v &&& ~~~ (fieldMask lsb w)) ||| ((BitVec.ofNat 32 x <<< lsb) &&& fieldMask lsb w)

/-- A number of `w` bits read as two's complement. -/
def toSigned (w x : Nat) : Int :=
  if x % 2 ^ w < 2 ^ (w - 1) then (x % 2 ^ w : Nat) else ((x % 2 ^ w : Nat) : Int) - (2 ^ w : Nat)

/-- The `w` low bits of a two's complement integer. -/
def ofSigned (w : Nat) (x : Int) : Nat := (x % (2 ^ w : Nat)).toNat

/-- Clamp an integer to a range. -/
def clampInt (lo hi x : Int) : Int := if x < lo then lo else if hi < x then hi else x

/-- Clamp a number to a range. -/
def clampNat (lo hi x : Nat) : Nat := if x < lo then lo else if hi < x then hi else x

/-- A counter of 32 bits that saturates at 0xFFFF_FFFF. -/
def satAdd32 (x k : Nat) : Nat := if x + k ≥ 2 ^ 32 then 2 ^ 32 - 1 else x + k

/-- Big-endian bytes to a number. -/
def beNat (b : Bytes) : Nat := b.foldl (fun n x => n * 256 + x.toNat) 0

/-- Little-endian bytes to a number. -/
def leNat : Bytes → Nat
  | [] => 0
  | x :: xs => x.toNat + 256 * leNat xs

/-- The `n` low bytes of a number, least significant first. -/
def natLE : Nat → Nat → Bytes
  | 0, _ => []
  | n + 1, v => BitVec.ofNat 8 v :: natLE n (v / 256)

/-- The `n` low bytes of a number, most significant first. -/
def natBE (n v : Nat) : Bytes := (natLE n v).reverse

/-- `n` bytes of value zero. -/
def zeros (n : Nat) : Bytes := List.replicate n 0

/-- `n` bytes from offset `o`. -/
def slice (b : Bytes) (o n : Nat) : Bytes := (b.drop o).take n

/-- The big-endian number of `n` bytes at offset `o`. -/
def beAt (b : Bytes) (o n : Nat) : Nat := beNat (slice b o n)

/-- The little-endian number of `n` bytes at offset `o`. -/
def leAt (b : Bytes) (o n : Nat) : Nat := leNat (slice b o n)

/-- Pad a string with zero bytes up to `n` bytes. -/
def padTo (n : Nat) (b : Bytes) : Bytes := b ++ zeros (n - b.length)

/-- One bit of a most-significant-bit-first CRC of `w` bits. -/
def crcStep (w poly crc : Nat) (bit : Bool) : Nat :=
  let top := (crc / 2 ^ (w - 1)) % 2
  let sh := (crc * 2) % 2 ^ w
  if (top == 1) != bit then sh ^^^ poly else sh

/-- The eight bits of a byte, most significant first. -/
def bitsMsb (b : Byte) : List Bool :=
  [b.getLsbD 7, b.getLsbD 6, b.getLsbD 5, b.getLsbD 4, b.getLsbD 3, b.getLsbD 2, b.getLsbD 1, b.getLsbD 0]

/-- A most-significant-bit-first CRC over bytes. -/
def crcMsb (w poly init : Nat) (bs : Bytes) : Nat :=
  bs.foldl (fun c b => (bitsMsb b).foldl (crcStep w poly) c) init

/-- One bit of a least-significant-bit-first CRC. -/
def crcStepLsb (poly crc : Nat) (bit : Bool) : Nat :=
  let sh := crc / 2
  if (crc % 2 == 1) != bit then sh ^^^ poly else sh

/-- CRC-32C (Castagnoli) over bytes, reflected, with the usual start and final complement. -/
def crc32c (bs : Bytes) : Nat :=
  (bs.foldl (fun c b => (bitsMsb b).reverse.foldl (crcStepLsb 0x82F63B78) c) 0xFFFFFFFF) ^^^ 0xFFFFFFFF

/-- Ceiling of log base 2 of a number above zero; 0 for 0 and 1. -/
def floorLog2 (n : Nat) : Nat := Nat.log2 n

end Sys2Proof.Machine
end

