-- ==== Sys2Proof/Machine/RegTable.lean ====
section
/-! DEFINITION. The register table: every register of the Register Index (R411) with its address, source, and the fields, access codes, reset values and ranges that its chapter gives (R9, R10, R15, R17). -/
namespace Sys2Proof.Machine

/-- The access codes of R9. -/
inductive Access where
  | ro | rw | w1c | wo | rc | ws
deriving DecidableEq, Repr

/-- One field of a register: its place, its access code, its reset value, and the range to which a load is clamped. -/
structure FieldRow where
  lsb : Nat
  width : Nat
  acc : Access
  reset : Nat
  lo : Nat
  hi : Nat
deriving DecidableEq, Repr

/-- One row of the index: up to two index ranges with their strides, the source, and for a value wider than 32 bits (R12)
how many words it has and which of them this one is. -/
structure RegRow where
  base : Nat
  stride1 : Nat
  count1 : Nat
  stride2 : Nat
  count2 : Nat
  image : Bool
  words : Nat
  word : Nat
  fields : List FieldRow
deriving DecidableEq, Repr

/-- Registers of block SYS, part 0. -/
def rowsSYS0 : List RegRow := [
  -- SYS_ID: PART, STEP, UNIT
  ⟨0x0, 0x1000000, 1, 0x1000000, 1, false, 1, 0, [⟨16, 16, .ro, 0x4860, 0x0, 0xFFFF⟩, ⟨8, 8, .ro, 0xB1, 0x0, 0xFF⟩, ⟨0, 1, .ro, 0x0, 0x0, 0x1⟩]⟩,
  -- SYS_SERIAL_W0: SERIAL
  ⟨0x4, 0x1000000, 1, 0x1000000, 1, false, 2, 0, [⟨0, 32, .ro, 0x0, 0x0, 0xFFFFFFFF⟩]⟩,
  -- SYS_SERIAL_W1: SERIAL
  ⟨0x8, 0x1000000, 1, 0x1000000, 1, false, 2, 1, [⟨0, 32, .ro, 0x0, 0x0, 0xFFFFFFFF⟩]⟩,
  -- SYS_OTP_STAT: REVOKED, PROG
  ⟨0xC, 0x1000000, 1, 0x1000000, 1, false, 1, 0, [⟨4, 4, .ro, 0x0, 0x0, 0xF⟩, ⟨0, 4, .ro, 0x0, 0x0, 0xF⟩]⟩,
  -- SYS_IRQ_STAT: GRP
  ⟨0x10, 0x1000000, 1, 0x1000000, 1, false, 1, 0, [⟨0, 18, .ro, 0x0, 0x0, 0x3FFFF⟩]⟩,
  -- SYS_IRQ_EN: GRP
  ⟨0x14, 0x1000000, 1, 0x1000000, 1, false, 1, 0, [⟨0, 18, .rw, 0x0, 0x0, 0x3FFFF⟩]⟩,
  -- SYS_IRQ_EOI: GRP
  ⟨0x18, 0x1000000, 1, 0x1000000, 1, false, 1, 0, [⟨0, 18, .wo, 0x0, 0x0, 0x3FFFF⟩]⟩,
  -- SYS_MODE_CFG: MONEN, HOSERVE, AUTORST, SURVEYMAX
  ⟨0x100, 0x1000000, 1, 0x1000000, 1, true, 1, 0, [⟨31, 1, .rw, 0x1, 0x0, 0x1⟩, ⟨30, 1, .rw, 0x0, 0x0, 0x1⟩, ⟨16, 8, .rw, 0x0, 0x0, 0xFF⟩, ⟨0, 16, .rw, 0x0, 0x0, 0xFFFF⟩]⟩,
  -- SYS_MODE_STAT: SECS, ARCNT, REFUSED, MONVALID, SAFECAUSE, MODE
  ⟨0x104, 0x1000000, 1, 0x1000000, 1, false, 1, 0, [⟨16, 16, .ro, 0x0, 0x0, 0xFFFF⟩, ⟨12, 2, .ro, 0x0, 0x0, 0x3⟩, ⟨9, 1, .w1c, 0x0, 0x0, 0x1⟩, ⟨8, 1, .ro, 0x0, 0x0, 0x1⟩, ⟨4, 4, .ro, 0x0, 0x0, 0xF⟩, ⟨0, 3, .ro, 0x0, 0x0, 0x7⟩]⟩,
  -- SYS_MODE_CTL: KEY, REQ
  ⟨0x108, 0x1000000, 1, 0x1000000, 1, false, 1, 0, [⟨16, 16, .wo, 0x0, 0x0, 0xFFFF⟩, ⟨0, 3, .wo, 0x0, 0x0, 0x7⟩]⟩,
  -- SYS_PWR_STAT: VINGOOD, VAOGOOD, ON
  ⟨0x10C, 0x1000000, 1, 0x1000000, 1, false, 1, 0, [⟨31, 1, .ro, 0x1, 0x0, 0x1⟩, ⟨30, 1, .ro, 0x0, 0x0, 0x1⟩, ⟨0, 12, .ro, 0xFFF, 0x0, 0xFFF⟩]⟩,
  -- SYS_SUPPLY: VAO, VIN
  ⟨0x110, 0x1000000, 1, 0x1000000, 1, false, 1, 0, [⟨16, 16, .ro, 0x0, 0x0, 0xFFFF⟩, ⟨0, 16, .ro, 0x0, 0x0, 0xFFFF⟩]⟩,
  -- SYS_RST_CAUSE: CAUSE
  ⟨0x114, 0x1000000, 1, 0x1000000, 1, false, 1, 0, [⟨0, 4, .ro, 0x1, 0x0, 0xF⟩]⟩,
  -- SYS_IOBANK: BK6, BK5, BK4, BK3, BK2, BK1, BK0
  ⟨0x118, 0x1000000, 1, 0x1000000, 1, true, 1, 0, [⟨12, 2, .rw, 0x0, 0x0, 0x2⟩, ⟨10, 2, .rw, 0x0, 0x0, 0x2⟩, ⟨8, 2, .rw, 0x0, 0x0, 0x2⟩, ⟨6, 2, .rw, 0x0, 0x0, 0x2⟩, ⟨4, 2, .rw, 0x0, 0x0, 0x2⟩, ⟨2, 2, .rw, 0x0, 0x0, 0x2⟩, ⟨0, 2, .ro, 0x0, 0x0, 0x3⟩]⟩,
  -- SYS_BOOT_STAT: SLOT, BOOTSEL, OPEN, WDROP, RESB, RESA
  ⟨0x200, 0x1000000, 1, 0x1000000, 1, false, 1, 0, [⟨30, 2, .ro, 0x0, 0x0, 0x3⟩, ⟨28, 2, .ro, 0x0, 0x0, 0x3⟩, ⟨27, 1, .ro, 0x0, 0x0, 0x1⟩, ⟨26, 1, .w1c, 0x0, 0x0, 0x1⟩, ⟨4, 4, .ro, 0x0, 0x0, 0xF⟩, ⟨0, 4, .ro, 0x0, 0x0, 0xF⟩]⟩,
  -- SYS_BOOT_SEQ: SEQ
  ⟨0x204, 0x1000000, 1, 0x1000000, 1, false, 1, 0, [⟨0, 32, .ro, 0x0, 0x0, 0xFFFFFFFF⟩]⟩,
  -- SYS_BOOT_TIME: TIME
  ⟨0x208, 0x1000000, 1, 0x1000000, 1, false, 1, 0, [⟨0, 32, .ro, 0x0, 0x0, 0xFFFFFFFF⟩]⟩,
  -- SYS_CLAMP_CNT: COUNT
  ⟨0x210, 0x1000000, 1, 0x1000000, 1, false, 1, 0, [⟨0, 32, .ro, 0x0, 0x0, 0xFFFFFFFF⟩]⟩,
  -- SYS_CLAMP_IDX: IDX
  ⟨0x214, 0x1000000, 1, 0x1000000, 1, false, 1, 0, [⟨0, 12, .rw, 0x0, 0x0, 0xFFF⟩]⟩,
  -- SYS_CLAMP_W: WORD
  ⟨0x218, 0x4, 4, 0x1000000, 1, false, 1, 0, [⟨0, 32, .ro, 0x0, 0x0, 0xFFFFFFFF⟩]⟩]

/-- Registers of block SYS, part 1. -/
def rowsSYS1 : List RegRow := [
  -- SYS_LIVECTL: FLASH, BLOCK
  ⟨0x240, 0x1000000, 1, 0x1000000, 1, true, 1, 0, [⟨31, 1, .rw, 0x0, 0x0, 0x1⟩, ⟨0, 15, .rw, 0x0, 0x0, 0x7FFF⟩]⟩,
  -- SYS_LIVELOCK: FLASH, BLOCK
  ⟨0x244, 0x1000000, 1, 0x1000000, 1, false, 1, 0, [⟨31, 1, .ws, 0x0, 0x0, 0x1⟩, ⟨0, 15, .ws, 0x0, 0x0, 0x7FFF⟩]⟩,
  -- SYS_FL_CTL: GO, BUSY, OP, ERR
  ⟨0x300, 0x1000000, 1, 0x1000000, 1, false, 1, 0, [⟨31, 1, .wo, 0x0, 0x0, 0x1⟩, ⟨30, 1, .ro, 0x0, 0x0, 0x1⟩, ⟨28, 2, .rw, 0x0, 0x0, 0x3⟩, ⟨26, 2, .ro, 0x0, 0x0, 0x3⟩]⟩,
  -- SYS_FL_ADDR: ADDR
  ⟨0x304, 0x1000000, 1, 0x1000000, 1, false, 1, 0, [⟨0, 28, .rw, 0x0, 0x0, 0xFFFFFFF⟩]⟩,
  -- SYS_FL_BUF: WORD
  ⟨0x400, 0x4, 64, 0x1000000, 1, false, 1, 0, [⟨0, 32, .rw, 0x0, 0x0, 0xFFFFFFFF⟩]⟩,
  -- SYS_FLT_LATCH: LATCH
  ⟨0x640, 0x1000000, 1, 0x1000000, 1, false, 1, 0, [⟨0, 16, .w1c, 0x0, 0x0, 0xFFFF⟩]⟩,
  -- SYS_ALARM_STAT: ALARM
  ⟨0x644, 0x1000000, 1, 0x1000000, 1, false, 1, 0, [⟨0, 16, .ro, 0x0, 0x0, 0xFFFF⟩]⟩,
  -- SYS_ALARM_EN: ALARM
  ⟨0x648, 0x1000000, 1, 0x1000000, 1, true, 1, 0, [⟨0, 16, .rw, 0xFFFF, 0x0, 0xFFFF⟩]⟩,
  -- SYS_ALARM_ACK: ALARM
  ⟨0x64C, 0x1000000, 1, 0x1000000, 1, false, 1, 0, [⟨0, 16, .wo, 0x0, 0x0, 0xFFFF⟩]⟩,
  -- SYS_FLT_CNT: COUNT
  ⟨0x680, 0x4, 16, 0x1000000, 1, false, 1, 0, [⟨0, 32, .rc, 0x0, 0x0, 0xFFFFFFFF⟩]⟩,
  -- SYS_FLT_CFG: RESP, N, WIN
  ⟨0x600, 0x4, 1, 0x1000000, 1, true, 1, 0, [⟨30, 2, .rw, 0x0, 0x0, 0x3⟩, ⟨20, 10, .rw, 0x3E8, 0x1, 0x3E8⟩, ⟨0, 20, .rw, 0x64, 0x1, 0xF4240⟩]⟩,
  -- SYS_FLT_CFG: RESP, N, WIN
  ⟨0x604, 0x4, 1, 0x1000000, 1, true, 1, 0, [⟨30, 2, .rw, 0x2, 0x0, 0x3⟩, ⟨20, 10, .rw, 0x4, 0x1, 0x3E8⟩, ⟨0, 20, .rw, 0x1770, 0x1, 0xF4240⟩]⟩,
  -- SYS_FLT_CFG: RESP, N, WIN
  ⟨0x608, 0x4, 1, 0x1000000, 1, true, 1, 0, [⟨30, 2, .rw, 0x0, 0x0, 0x3⟩, ⟨20, 10, .rw, 0x64, 0x1, 0x3E8⟩, ⟨0, 20, .rw, 0x64, 0x1, 0xF4240⟩]⟩,
  -- SYS_FLT_CFG: RESP, N, WIN
  ⟨0x60C, 0x4, 1, 0x1000000, 1, true, 1, 0, [⟨30, 2, .rw, 0x2, 0x0, 0x3⟩, ⟨20, 10, .rw, 0x4, 0x1, 0x3E8⟩, ⟨0, 20, .rw, 0x1770, 0x1, 0xF4240⟩]⟩,
  -- SYS_FLT_CFG: RESP, N, WIN
  ⟨0x610, 0x4, 1, 0x1000000, 1, true, 1, 0, [⟨30, 2, .rw, 0x2, 0x0, 0x3⟩, ⟨20, 10, .rw, 0x3, 0x1, 0x3E8⟩, ⟨0, 20, .rw, 0x64, 0x1, 0xF4240⟩]⟩,
  -- SYS_FLT_CFG: RESP, N, WIN
  ⟨0x614, 0x4, 1, 0x1000000, 1, true, 1, 0, [⟨30, 2, .rw, 0x2, 0x0, 0x3⟩, ⟨20, 10, .rw, 0x3, 0x1, 0x3E8⟩, ⟨0, 20, .rw, 0x1770, 0x1, 0xF4240⟩]⟩,
  -- SYS_FLT_CFG: RESP, N, WIN
  ⟨0x618, 0x4, 1, 0x1000000, 1, true, 1, 0, [⟨30, 2, .rw, 0x0, 0x0, 0x3⟩, ⟨20, 10, .rw, 0x3, 0x1, 0x3E8⟩, ⟨0, 20, .rw, 0x1770, 0x1, 0xF4240⟩]⟩,
  -- SYS_FLT_CFG: RESP, N, WIN
  ⟨0x61C, 0x4, 1, 0x1000000, 1, true, 1, 0, [⟨30, 2, .rw, 0x1, 0x0, 0x3⟩, ⟨20, 10, .rw, 0x3, 0x1, 0x3E8⟩, ⟨0, 20, .rw, 0x1770, 0x1, 0xF4240⟩]⟩,
  -- SYS_FLT_CFG: RESP, N, WIN
  ⟨0x620, 0x4, 1, 0x1000000, 1, true, 1, 0, [⟨30, 2, .rw, 0x0, 0x0, 0x3⟩, ⟨20, 10, .rw, 0x1, 0x1, 0x3E8⟩, ⟨0, 20, .rw, 0x64, 0x1, 0xF4240⟩]⟩,
  -- SYS_FLT_CFG: RESP, N, WIN
  ⟨0x624, 0x4, 1, 0x1000000, 1, true, 1, 0, [⟨30, 2, .rw, 0x2, 0x0, 0x3⟩, ⟨20, 10, .rw, 0x64, 0x1, 0x3E8⟩, ⟨0, 20, .rw, 0x64, 0x1, 0xF4240⟩]⟩]

/-- Registers of block SYS, part 2. -/
def rowsSYS2 : List RegRow := [
  -- SYS_FLT_CFG: RESP, N, WIN
  ⟨0x628, 0x4, 1, 0x1000000, 1, true, 1, 0, [⟨30, 2, .rw, 0x0, 0x0, 0x3⟩, ⟨20, 10, .rw, 0x1, 0x1, 0x3E8⟩, ⟨0, 20, .rw, 0x64, 0x1, 0xF4240⟩]⟩,
  -- SYS_FLT_CFG: RESP, N, WIN
  ⟨0x62C, 0x4, 1, 0x1000000, 1, true, 1, 0, [⟨30, 2, .rw, 0x0, 0x0, 0x3⟩, ⟨20, 10, .rw, 0x3E8, 0x1, 0x3E8⟩, ⟨0, 20, .rw, 0x64, 0x1, 0xF4240⟩]⟩,
  -- SYS_FLT_CFG: RESP, N, WIN
  ⟨0x630, 0x4, 1, 0x1000000, 1, true, 1, 0, [⟨30, 2, .rw, 0x1, 0x0, 0x3⟩, ⟨20, 10, .rw, 0x3, 0x1, 0x3E8⟩, ⟨0, 20, .rw, 0xEA60, 0x1, 0xF4240⟩]⟩,
  -- SYS_FLT_CFG: RESP, N, WIN
  ⟨0x634, 0x4, 1, 0x1000000, 1, true, 1, 0, [⟨30, 2, .rw, 0x1, 0x0, 0x3⟩, ⟨20, 10, .rw, 0x1, 0x1, 0x3E8⟩, ⟨0, 20, .rw, 0x64, 0x1, 0xF4240⟩]⟩,
  -- SYS_FLT_CFG: RESP, N, WIN
  ⟨0x638, 0x4, 1, 0x1000000, 1, true, 1, 0, [⟨30, 2, .rw, 0x2, 0x0, 0x3⟩, ⟨20, 10, .rw, 0x3, 0x1, 0x3E8⟩, ⟨0, 20, .rw, 0x57E40, 0x1, 0xF4240⟩]⟩,
  -- SYS_FLT_CFG: RESP, N, WIN
  ⟨0x63C, 0x4, 1, 0x1000000, 1, true, 1, 0, [⟨30, 2, .rw, 0x2, 0x0, 0x3⟩, ⟨20, 10, .rw, 0x1, 0x1, 0x3E8⟩, ⟨0, 20, .rw, 0x64, 0x1, 0xF4240⟩]⟩]

/-- Registers of block FBK, part 0. -/
def rowsFBK0 : List RegRow := [
  -- FBK_CFG: DELIV, RING, SEALPER
  ⟨0x10000, 0x1000000, 1, 0x1000000, 1, true, 1, 0, [⟨31, 1, .rw, 0x0, 0x0, 0x1⟩, ⟨29, 2, .rw, 0x0, 0x0, 0x3⟩, ⟨0, 11, .rw, 0x0, 0x0, 0x5A0⟩]⟩,
  -- FBK_STAT: SIGNOK, OPEN, RETAINED
  ⟨0x10004, 0x1000000, 1, 0x1000000, 1, false, 1, 0, [⟨31, 1, .ro, 0x0, 0x0, 0x1⟩, ⟨12, 13, .ro, 0x0, 0x0, 0x1FFF⟩, ⟨0, 9, .ro, 0x0, 0x0, 0x1FF⟩]⟩,
  -- FBK_NEXT_W0: NEXT
  ⟨0x10008, 0x1000000, 1, 0x1000000, 1, false, 2, 0, [⟨0, 32, .ro, 0x0, 0x0, 0xFFFFFFFF⟩]⟩,
  -- FBK_NEXT_W1: NEXT
  ⟨0x1000C, 0x1000000, 1, 0x1000000, 1, false, 2, 1, [⟨0, 32, .ro, 0x0, 0x0, 0xFFFFFFFF⟩]⟩,
  -- FBK_CHAINID_W0: CHAINID
  ⟨0x10010, 0x1000000, 1, 0x1000000, 1, false, 2, 0, [⟨0, 32, .ro, 0x0, 0x0, 0xFFFFFFFF⟩]⟩,
  -- FBK_CHAINID_W1: CHAINID
  ⟨0x10014, 0x1000000, 1, 0x1000000, 1, false, 2, 1, [⟨0, 32, .ro, 0x0, 0x0, 0xFFFFFFFF⟩]⟩,
  -- FBK_SEALED_W0: SEALED
  ⟨0x10018, 0x1000000, 1, 0x1000000, 1, false, 2, 0, [⟨0, 32, .ro, 0xFFFFFFFF, 0x0, 0xFFFFFFFF⟩]⟩,
  -- FBK_SEALED_W1: SEALED
  ⟨0x1001C, 0x1000000, 1, 0x1000000, 1, false, 2, 1, [⟨0, 32, .ro, 0xFFFFFFFF, 0x0, 0xFFFFFFFF⟩]⟩,
  -- FBK_LOST_CNT: COUNT
  ⟨0x10020, 0x1000000, 1, 0x1000000, 1, false, 1, 0, [⟨0, 32, .rc, 0x0, 0x0, 0xFFFFFFFF⟩]⟩,
  -- FBK_OVWR_CNT: COUNT
  ⟨0x10024, 0x1000000, 1, 0x1000000, 1, false, 1, 0, [⟨0, 32, .rc, 0x0, 0x0, 0xFFFFFFFF⟩]⟩]

/-- Registers of block PMC, part 0. -/
def rowsPMC0 : List RegRow := [
  -- PMC_CFG: SNAPREC, RING, SNAPPER
  ⟨0x20000, 0x1000000, 1, 0x1000000, 1, true, 1, 0, [⟨31, 1, .rw, 0x0, 0x0, 0x1⟩, ⟨29, 2, .rw, 0x0, 0x0, 0x3⟩, ⟨0, 16, .rw, 0x0, 0x0, 0xEA60⟩]⟩,
  -- PMC_CTL: CLRALL, SNAP
  ⟨0x20004, 0x1000000, 1, 0x1000000, 1, false, 1, 0, [⟨1, 1, .wo, 0x0, 0x0, 0x1⟩, ⟨0, 1, .wo, 0x0, 0x0, 0x1⟩]⟩,
  -- PMC_USERMAP: EN, UNIT
  ⟨0x20008, 0x1000000, 1, 0x1000000, 1, true, 1, 0, [⟨31, 1, .rw, 0x0, 0x0, 0x1⟩, ⟨0, 13, .rw, 0x0, 0x0, 0x1FFF⟩]⟩,
  -- PMC_IRQ_STAT: TAGSKIP, SNAP, OVF
  ⟨0x2000C, 0x1000000, 1, 0x1000000, 1, false, 1, 0, [⟨15, 1, .w1c, 0x0, 0x0, 0x1⟩, ⟨14, 1, .w1c, 0x0, 0x0, 0x1⟩, ⟨0, 13, .w1c, 0x0, 0x0, 0x1FFF⟩]⟩,
  -- PMC_IRQ_EN: TAGSKIP, SNAP, OVF
  ⟨0x20010, 0x1000000, 1, 0x1000000, 1, false, 1, 0, [⟨15, 1, .rw, 0x0, 0x0, 0x1⟩, ⟨14, 1, .rw, 0x0, 0x0, 0x1⟩, ⟨0, 13, .rw, 0x0, 0x0, 0x1FFF⟩]⟩,
  -- PMC_SNAP_SEQ: SEQ
  ⟨0x20014, 0x1000000, 1, 0x1000000, 1, false, 1, 0, [⟨0, 32, .ro, 0x0, 0x0, 0xFFFFFFFF⟩]⟩,
  -- PMC_TAG_CFG: EN, PORTS, K, CLASS
  ⟨0x20020, 0x1000000, 1, 0x1000000, 1, true, 1, 0, [⟨31, 1, .rw, 0x0, 0x0, 0x1⟩, ⟨24, 4, .rw, 0xF, 0x0, 0xF⟩, ⟨16, 5, .rw, 0xA, 0x4, 0x18⟩, ⟨0, 3, .rw, 0x7, 0x0, 0x7⟩]⟩,
  -- PMC_TAG_SEED: SEED
  ⟨0x20024, 0x1000000, 1, 0x1000000, 1, true, 1, 0, [⟨0, 32, .rw, 0x0, 0x0, 0xFFFFFFFF⟩]⟩,
  -- PMC_SPU_CFG: EN, K, SPUS
  ⟨0x20028, 0x1000000, 1, 0x1000000, 1, true, 1, 0, [⟨31, 1, .rw, 0x0, 0x0, 0x1⟩, ⟨16, 5, .rw, 0x10, 0x4, 0x18⟩, ⟨0, 8, .rw, 0xFF, 0x0, 0xFF⟩]⟩,
  -- PMC_TAG_SKIP_CNT: COUNT
  ⟨0x2002C, 0x1000000, 1, 0x1000000, 1, false, 1, 0, [⟨0, 32, .rc, 0x0, 0x0, 0xFFFFFFFF⟩]⟩,
  -- PMC_CYC_W0: CYC
  ⟨0x20100, 0x100, 13, 0x1000000, 1, false, 2, 0, [⟨0, 32, .ro, 0x0, 0x0, 0xFFFFFFFF⟩]⟩,
  -- PMC_CYC_W1: CYC
  ⟨0x20104, 0x100, 13, 0x1000000, 1, false, 2, 1, [⟨0, 32, .ro, 0x0, 0x0, 0xFFFFFFFF⟩]⟩,
  -- PMC_OVF: OVF
  ⟨0x20108, 0x100, 13, 0x1000000, 1, false, 1, 0, [⟨0, 8, .w1c, 0x0, 0x0, 0xFF⟩]⟩,
  -- PMC_SEL: EN, PRESERVE, INST, EVT
  ⟨0x20110, 0x100, 13, 0x4, 8, false, 1, 0, [⟨31, 1, .rw, 0x0, 0x0, 0x1⟩, ⟨30, 1, .rw, 0x0, 0x0, 0x1⟩, ⟨8, 7, .rw, 0x7F, 0x0, 0x7F⟩, ⟨0, 8, .rw, 0x0, 0x0, 0xFF⟩]⟩,
  -- PMC_CTR_W0: COUNT
  ⟨0x20140, 0x100, 13, 0x8, 8, false, 2, 0, [⟨0, 32, .ro, 0x0, 0x0, 0xFFFFFFFF⟩]⟩,
  -- PMC_CTR_W1: COUNT
  ⟨0x20144, 0x100, 13, 0x8, 8, false, 2, 1, [⟨0, 16, .ro, 0x0, 0x0, 0xFFFF⟩]⟩]

/-- Registers of block DVL, part 0. -/
def rowsDVL0 : List RegRow := [
  -- DVL_CFG: EN, XPPSOUT, PRIO
  ⟨0x30000, 0x1000000, 1, 0x1000000, 1, true, 1, 0, [⟨31, 1, .rw, 0x0, 0x0, 0x1⟩, ⟨24, 4, .rw, 0x0, 0x0, 0xB⟩, ⟨0, 8, .rw, 0x1, 0x1, 0xFF⟩]⟩,
  -- DVL_CMP_CFG: DISTH, W, K
  ⟨0x30004, 0x1000000, 1, 0x1000000, 1, true, 1, 0, [⟨16, 16, .rw, 0xA, 0x1, 0x3E8⟩, ⟨8, 6, .rw, 0x8, 0x1, 0x20⟩, ⟨0, 6, .rw, 0x3, 0x0, 0x3F⟩]⟩,
  -- DVL_RESYNC_CFG: TRACKT
  ⟨0x30008, 0x1000000, 1, 0x1000000, 1, true, 1, 0, [⟨0, 10, .rw, 0xA, 0x1, 0x3E8⟩]⟩,
  -- DVL_CTL: REJOIN, YIELD
  ⟨0x3000C, 0x1000000, 1, 0x1000000, 1, false, 1, 0, [⟨1, 1, .wo, 0x0, 0x0, 0x1⟩, ⟨0, 1, .rw, 0x0, 0x0, 0x1⟩]⟩,
  -- DVL_STAT: ACTIVE, LINK, LANES, CLAIMBUS, STALE, HANDED, LOSER, DISPUTE, LASTING, CALOK, SNAPDIFF, PTNREADY, PHASE, HEALTH
  ⟨0x30010, 0x1000000, 1, 0x1000000, 1, false, 1, 0, [⟨31, 1, .ro, 0x0, 0x0, 0x1⟩, ⟨30, 1, .ro, 0x0, 0x0, 0x1⟩, ⟨28, 2, .ro, 0x0, 0x0, 0x3⟩, ⟨27, 1, .ro, 0x0, 0x0, 0x1⟩, ⟨26, 1, .ro, 0x0, 0x0, 0x1⟩, ⟨25, 1, .ro, 0x0, 0x0, 0x1⟩, ⟨24, 1, .ro, 0x0, 0x0, 0x1⟩, ⟨23, 1, .ro, 0x0, 0x0, 0x1⟩, ⟨22, 1, .ro, 0x0, 0x0, 0x1⟩, ⟨21, 1, .ro, 0x0, 0x0, 0x1⟩, ⟨20, 1, .ro, 0x0, 0x0, 0x1⟩, ⟨19, 1, .ro, 0x0, 0x0, 0x1⟩, ⟨4, 3, .ro, 0x0, 0x0, 0x7⟩, ⟨0, 4, .ro, 0x0, 0x0, 0xF⟩]⟩,
  -- DVL_CLAIM: PARTNER, OWN
  ⟨0x30014, 0x1000000, 1, 0x1000000, 1, false, 1, 0, [⟨16, 16, .ro, 0x0, 0x0, 0xFFFF⟩, ⟨0, 16, .ro, 0x0, 0x0, 0xFFFF⟩]⟩,
  -- DVL_ECHO: ECHO
  ⟨0x30018, 0x1000000, 1, 0x1000000, 1, false, 1, 0, [⟨0, 16, .ro, 0x0, 0x0, 0xFFFF⟩]⟩,
  -- DVL_IRQ_STAT: CFGMIS, REJECT, PHASE, BOTH, IDCONF, ARB, LASTING, LINK, CLAIMBUS, ACTIVE
  ⟨0x3001C, 0x1000000, 1, 0x1000000, 1, false, 1, 0, [⟨9, 1, .w1c, 0x0, 0x0, 0x1⟩, ⟨8, 1, .w1c, 0x0, 0x0, 0x1⟩, ⟨7, 1, .w1c, 0x0, 0x0, 0x1⟩, ⟨6, 1, .w1c, 0x0, 0x0, 0x1⟩, ⟨5, 1, .w1c, 0x0, 0x0, 0x1⟩, ⟨4, 1, .w1c, 0x0, 0x0, 0x1⟩, ⟨3, 1, .w1c, 0x0, 0x0, 0x1⟩, ⟨2, 1, .w1c, 0x0, 0x0, 0x1⟩, ⟨1, 1, .w1c, 0x0, 0x0, 0x1⟩, ⟨0, 1, .w1c, 0x0, 0x0, 0x1⟩]⟩,
  -- DVL_IRQ_EN: CFGMIS, REJECT, PHASE, BOTH, IDCONF, ARB, LASTING, LINK, CLAIMBUS, ACTIVE
  ⟨0x30020, 0x1000000, 1, 0x1000000, 1, false, 1, 0, [⟨9, 1, .rw, 0x0, 0x0, 0x1⟩, ⟨8, 1, .rw, 0x0, 0x0, 0x1⟩, ⟨7, 1, .rw, 0x0, 0x0, 0x1⟩, ⟨6, 1, .rw, 0x0, 0x0, 0x1⟩, ⟨5, 1, .rw, 0x0, 0x0, 0x1⟩, ⟨4, 1, .rw, 0x0, 0x0, 0x1⟩, ⟨3, 1, .rw, 0x0, 0x0, 0x1⟩, ⟨2, 1, .rw, 0x0, 0x0, 0x1⟩, ⟨1, 1, .rw, 0x0, 0x0, 0x1⟩, ⟨0, 1, .rw, 0x0, 0x0, 0x1⟩]⟩,
  -- DVL_DIFF: VALUE
  ⟨0x30024, 0x1000000, 1, 0x1000000, 1, false, 1, 0, [⟨0, 32, .ro, 0x0, 0x0, 0xFFFFFFFF⟩]⟩,
  -- DVL_XPPSDIFF: VALUE
  ⟨0x30028, 0x1000000, 1, 0x1000000, 1, false, 1, 0, [⟨0, 32, .ro, 0x0, 0x0, 0xFFFFFFFF⟩]⟩,
  -- DVL_LINKCAL: VALUE
  ⟨0x3002C, 0x1000000, 1, 0x1000000, 1, false, 1, 0, [⟨0, 32, .ro, 0x0, 0x0, 0xFFFFFFFF⟩]⟩,
  -- DVL_ALIGN: VALUE
  ⟨0x30030, 0x1000000, 1, 0x1000000, 1, false, 1, 0, [⟨0, 32, .ro, 0x0, 0x0, 0xFFFFFFFF⟩]⟩,
  -- DVL_BADMAP: MAP
  ⟨0x30034, 0x1000000, 1, 0x1000000, 1, false, 1, 0, [⟨0, 32, .ro, 0x0, 0x0, 0xFFFFFFFF⟩]⟩,
  -- DVL_TAKEOVER_CNT: COUNT
  ⟨0x30040, 0x1000000, 1, 0x1000000, 1, false, 1, 0, [⟨0, 32, .rc, 0x0, 0x0, 0xFFFFFFFF⟩]⟩,
  -- DVL_BADCYC_CNT: COUNT
  ⟨0x30044, 0x1000000, 1, 0x1000000, 1, false, 1, 0, [⟨0, 32, .rc, 0x0, 0x0, 0xFFFFFFFF⟩]⟩,
  -- DVL_JRNL_DROP_CNT: COUNT
  ⟨0x30048, 0x1000000, 1, 0x1000000, 1, false, 1, 0, [⟨0, 32, .rc, 0x0, 0x0, 0xFFFFFFFF⟩]⟩,
  -- DVL_RECERR_CNT: COUNT
  ⟨0x3004C, 0x1000000, 1, 0x1000000, 1, false, 1, 0, [⟨0, 32, .rc, 0x0, 0x0, 0xFFFFFFFF⟩]⟩,
  -- DVL_ARB_CNT: COUNT
  ⟨0x30050, 0x1000000, 1, 0x1000000, 1, false, 1, 0, [⟨0, 32, .rc, 0x0, 0x0, 0xFFFFFFFF⟩]⟩,
  -- DVL_BOTH_CNT: COUNT
  ⟨0x30054, 0x1000000, 1, 0x1000000, 1, false, 1, 0, [⟨0, 32, .rc, 0x0, 0x0, 0xFFFFFFFF⟩]⟩]

/-- Registers of block SYN, part 0. -/
def rowsSYN0 : List RegRow := [
  -- SYN_CTL: FORCEXO, HOLDMUTE
  ⟨0x40000, 0x1000000, 1, 0x1000000, 1, true, 1, 0, [⟨31, 1, .rw, 0x0, 0x0, 0x1⟩, ⟨30, 1, .rw, 0x0, 0x0, 0x1⟩]⟩,
  -- SYN_STAT: SYN0LOCK, AUXLOCK, FROZEN, MCLKAUX, REF, SYNLOCK
  ⟨0x40004, 0x1000000, 1, 0x1000000, 1, false, 1, 0, [⟨31, 1, .ro, 0x0, 0x0, 0x1⟩, ⟨30, 1, .ro, 0x0, 0x0, 0x1⟩, ⟨29, 1, .ro, 0x0, 0x0, 0x1⟩, ⟨28, 1, .ro, 0x0, 0x0, 0x1⟩, ⟨27, 1, .ro, 0x0, 0x0, 0x1⟩, ⟨1, 6, .ro, 0x0, 0x0, 0x3F⟩]⟩,
  -- SYN_IRQ_STAT: RAMPDONE, LIMIT, SYNLOL, AUXLOL, LASTING, RESTART, FREEZE
  ⟨0x40008, 0x1000000, 1, 0x1000000, 1, false, 1, 0, [⟨17, 6, .w1c, 0x0, 0x0, 0x3F⟩, ⟨10, 1, .w1c, 0x0, 0x0, 0x1⟩, ⟨4, 6, .w1c, 0x0, 0x0, 0x3F⟩, ⟨3, 1, .w1c, 0x0, 0x0, 0x1⟩, ⟨2, 1, .w1c, 0x0, 0x0, 0x1⟩, ⟨1, 1, .w1c, 0x0, 0x0, 0x1⟩, ⟨0, 1, .w1c, 0x0, 0x0, 0x1⟩]⟩,
  -- SYN_IRQ_EN: RAMPDONE, LIMIT, SYNLOL, AUXLOL, LASTING, RESTART, FREEZE
  ⟨0x4000C, 0x1000000, 1, 0x1000000, 1, false, 1, 0, [⟨17, 6, .rw, 0x0, 0x0, 0x3F⟩, ⟨10, 1, .rw, 0x0, 0x0, 0x1⟩, ⟨4, 6, .rw, 0x0, 0x0, 0x3F⟩, ⟨3, 1, .rw, 0x0, 0x0, 0x1⟩, ⟨2, 1, .rw, 0x0, 0x0, 0x1⟩, ⟨1, 1, .rw, 0x0, 0x0, 0x1⟩, ⟨0, 1, .rw, 0x0, 0x0, 0x1⟩]⟩,
  -- SYN_FRZ_CNT: COUNT
  ⟨0x40010, 0x1000000, 1, 0x1000000, 1, false, 1, 0, [⟨0, 32, .rc, 0x0, 0x0, 0xFFFFFFFF⟩]⟩,
  -- SYN_FRZ_LAST: COUNT
  ⟨0x40014, 0x1000000, 1, 0x1000000, 1, false, 1, 0, [⟨0, 32, .ro, 0x0, 0x0, 0xFFFFFFFF⟩]⟩,
  -- SYN_SYN_NUM: VALUE
  ⟨0x40140, 0x40, 2, 0x1000000, 1, true, 1, 0, [⟨0, 32, .ro, 0x19, 0x0, 0xFFFFFFFF⟩]⟩,
  -- SYN_SYN_NUM: VALUE
  ⟨0x401C0, 0x40, 4, 0x1000000, 1, true, 1, 0, [⟨0, 32, .rw, 0x1, 0x0, 0xFFFFFFFF⟩]⟩,
  -- SYN_SYN_DEN: VALUE
  ⟨0x40144, 0x40, 2, 0x1000000, 1, true, 1, 0, [⟨0, 32, .ro, 0x180, 0x1, 0xFFFFFFFF⟩]⟩,
  -- SYN_SYN_DEN: VALUE
  ⟨0x401C4, 0x40, 4, 0x1000000, 1, true, 1, 0, [⟨0, 32, .rw, 0xC, 0x1, 0xFFFFFFFF⟩]⟩,
  -- SYN_SYN_CFG: EN, STEER, SETTLE
  ⟨0x40148, 0x40, 2, 0x1000000, 1, true, 1, 0, [⟨31, 1, .ro, 0x1, 0x0, 0x1⟩, ⟨24, 4, .ro, 0x1, 0x0, 0x8⟩, ⟨0, 14, .rw, 0x64, 0xA, 0x2710⟩]⟩,
  -- SYN_SYN_CFG: EN, STEER, SETTLE
  ⟨0x401C8, 0x40, 4, 0x1000000, 1, true, 1, 0, [⟨31, 1, .rw, 0x0, 0x0, 0x1⟩, ⟨24, 4, .rw, 0x0, 0x0, 0x8⟩, ⟨0, 14, .rw, 0x64, 0xA, 0x2710⟩]⟩,
  -- SYN_SYN_STAT: LOCKED, HOLD, SETTLING, RAMP, CLAMP, RAMPERR, RAMPBUSY, SEG
  ⟨0x4014C, 0x40, 6, 0x1000000, 1, false, 1, 0, [⟨31, 1, .ro, 0x0, 0x0, 0x1⟩, ⟨30, 1, .ro, 0x0, 0x0, 0x1⟩, ⟨29, 1, .ro, 0x0, 0x0, 0x1⟩, ⟨28, 1, .ro, 0x0, 0x0, 0x1⟩, ⟨27, 1, .ro, 0x0, 0x0, 0x1⟩, ⟨26, 1, .w1c, 0x0, 0x0, 0x1⟩, ⟨25, 1, .w1c, 0x0, 0x0, 0x1⟩, ⟨16, 4, .ro, 0x0, 0x0, 0xF⟩]⟩,
  -- SYN_SYN_RAMPCTL: GO, STOP, NSEG
  ⟨0x40150, 0x40, 6, 0x1000000, 1, false, 1, 0, [⟨31, 1, .wo, 0x0, 0x0, 0x1⟩, ⟨30, 1, .wo, 0x0, 0x0, 0x1⟩, ⟨0, 5, .rw, 0x1, 0x1, 0x10⟩]⟩,
  -- SYN_SYN_LOL_CNT: COUNT
  ⟨0x40154, 0x40, 6, 0x1000000, 1, false, 1, 0, [⟨0, 32, .rc, 0x0, 0x0, 0xFFFFFFFF⟩]⟩,
  -- SYN_SYN_CUR: OFFSET
  ⟨0x40158, 0x40, 6, 0x1000000, 1, false, 1, 0, [⟨0, 32, .ro, 0x0, 0x0, 0xFFFFFFFF⟩]⟩,
  -- SYN_SYN_SEG_NUM: NUM
  ⟨0x40900, 0x100, 6, 0x8, 16, false, 1, 0, [⟨0, 32, .rw, 0x0, 0x0, 0xFFFFFFFF⟩]⟩,
  -- SYN_SYN_SEG_SLOPE: SLOPE
  ⟨0x40904, 0x100, 6, 0x8, 16, false, 1, 0, [⟨0, 16, .rw, 0x1, 0x1, 0xFFFF⟩]⟩,
  -- SYN_OUT_CFG: EN, FMT, MODE, SYNSEL, SYNCEN, SURVEYEN, LATEDROP, AUTOREL
  ⟨0x42000, 0x40, 12, 0x1000000, 1, true, 1, 0, [⟨31, 1, .rw, 0x0, 0x0, 0x1⟩, ⟨29, 2, .rw, 0x1, 0x0, 0x3⟩, ⟨28, 1, .rw, 0x0, 0x0, 0x1⟩, ⟨26, 2, .rw, 0x0, 0x0, 0x3⟩, ⟨25, 1, .rw, 0x0, 0x0, 0x1⟩, ⟨24, 1, .rw, 0x0, 0x0, 0x1⟩, ⟨23, 1, .rw, 0x1, 0x0, 0x1⟩, ⟨22, 1, .rw, 0x0, 0x0, 0x1⟩]⟩,
  -- SYN_OUT_DIV: DIV
  ⟨0x42004, 0x40, 12, 0x1000000, 1, true, 1, 0, [⟨0, 32, .rw, 0x50, 0x0, 0xFFFFFFFF⟩]⟩]

/-- Registers of block SYN, part 1. -/
def rowsSYN1 : List RegRow := [
  -- SYN_OUT_TRIM: TRIM
  ⟨0x42008, 0x40, 12, 0x1000000, 1, true, 1, 0, [⟨0, 16, .rw, 0x0, 0x0, 0xFFFF⟩]⟩,
  -- SYN_OUT_PW: PW
  ⟨0x4200C, 0x40, 12, 0x1000000, 1, true, 1, 0, [⟨0, 30, .rw, 0x5F5E100, 0x8, 0x3B9AC9FF⟩]⟩,
  -- SYN_OUT_CEIL_W0: CEIL
  ⟨0x42010, 0x40, 12, 0x1000000, 1, true, 2, 0, [⟨0, 32, .rw, 0x0, 0x0, 0xFFFFFFFF⟩]⟩,
  -- SYN_OUT_CEIL_W1: CEIL
  ⟨0x42014, 0x40, 12, 0x1000000, 1, true, 2, 1, [⟨0, 8, .rw, 0x0, 0x0, 0xFF⟩]⟩,
  -- SYN_OUT_CTL: LIMCLR, HOSTMUTE
  ⟨0x42018, 0x40, 12, 0x1000000, 1, false, 1, 0, [⟨1, 1, .wo, 0x0, 0x0, 0x1⟩, ⟨0, 1, .rw, 0x0, 0x0, 0x1⟩]⟩,
  -- SYN_OUT_STAT: STATE, ALIGNED, CLAMP, HOST, LIMIT, SYN, MODE
  ⟨0x4201C, 0x40, 12, 0x1000000, 1, false, 1, 0, [⟨30, 2, .ro, 0x0, 0x0, 0x3⟩, ⟨29, 1, .ro, 0x0, 0x0, 0x1⟩, ⟨28, 1, .ro, 0x0, 0x0, 0x1⟩, ⟨3, 1, .ro, 0x0, 0x0, 0x1⟩, ⟨2, 1, .ro, 0x0, 0x0, 0x1⟩, ⟨1, 1, .ro, 0x0, 0x0, 0x1⟩, ⟨0, 1, .ro, 0x0, 0x0, 0x1⟩]⟩,
  -- SYN_OUT_LAT: LAT
  ⟨0x42020, 0x40, 12, 0x1000000, 1, false, 1, 0, [⟨0, 32, .ro, 0x0, 0x0, 0xFFFFFFFF⟩]⟩,
  -- SYN_OUT_LATE_CNT: LAT
  ⟨0x42024, 0x40, 12, 0x1000000, 1, false, 1, 0, [⟨0, 32, .rc, 0x0, 0x0, 0xFFFFFFFF⟩]⟩,
  -- SYN_OUT_FMEAS_W0: FMEAS
  ⟨0x42028, 0x40, 12, 0x1000000, 1, false, 2, 0, [⟨0, 32, .ro, 0x0, 0x0, 0xFFFFFFFF⟩]⟩,
  -- SYN_OUT_FMEAS_W1: FMEAS
  ⟨0x4202C, 0x40, 12, 0x1000000, 1, false, 2, 1, [⟨0, 8, .ro, 0x0, 0x0, 0xFF⟩]⟩]

/-- Registers of block TRV, part 0. -/
def rowsTRV0 : List RegRow := [
  -- TRV_CLOSURE_CFG: CLWIN, CLCONF
  ⟨0x50000, 0x1000000, 1, 0x1000000, 1, true, 1, 0, [⟨18, 14, .rw, 0x3E8, 0xA, 0x2710⟩, ⟨8, 6, .rw, 0xA, 0x1, 0x3C⟩]⟩,
  -- TRV_CLOSURE_TOL: ATOMTOL, OTHTOL
  ⟨0x50004, 0x1000000, 1, 0x1000000, 1, true, 1, 0, [⟨16, 16, .rw, 0x32, 0x1, 0xFFFF⟩, ⟨0, 16, .rw, 0x3E8, 0x1, 0xFFFF⟩]⟩,
  -- TRV_CLOSURE_PH: PHTOL
  ⟨0x50008, 0x1000000, 1, 0x1000000, 1, true, 1, 0, [⟨0, 24, .rw, 0x3E8, 0x0, 0x989680⟩]⟩,
  -- TRV_REF_IRQ_STAT: TODERR, DEMOTE, DISPUTE, SWITCH, REFCHG
  ⟨0x50010, 0x1000000, 1, 0x1000000, 1, false, 1, 0, [⟨26, 1, .w1c, 0x0, 0x0, 0x1⟩, ⟨25, 1, .w1c, 0x0, 0x0, 0x1⟩, ⟨24, 1, .w1c, 0x0, 0x0, 0x1⟩, ⟨16, 8, .w1c, 0x0, 0x0, 0xFF⟩, ⟨0, 12, .w1c, 0x0, 0x0, 0xFFF⟩]⟩,
  -- TRV_REF_IRQ_EN: TODERR, DEMOTE, DISPUTE, SWITCH, REFCHG
  ⟨0x50014, 0x1000000, 1, 0x1000000, 1, false, 1, 0, [⟨26, 1, .rw, 0x0, 0x0, 0x1⟩, ⟨25, 1, .rw, 0x0, 0x0, 0x1⟩, ⟨24, 1, .rw, 0x0, 0x0, 0x1⟩, ⟨16, 8, .rw, 0x0, 0x0, 0xFF⟩, ⟨0, 12, .rw, 0x0, 0x0, 0xFFF⟩]⟩,
  -- TRV_DISPUTE_STAT: DISPUTE
  ⟨0x50018, 0x1000000, 1, 0x1000000, 1, false, 1, 0, [⟨0, 8, .ro, 0x0, 0x0, 0xFF⟩]⟩,
  -- TRV_CH_IRQ_STAT: TEMPFALL, PHASE, LOSS, STATE
  ⟨0x50020, 0x1000000, 1, 0x1000000, 1, false, 1, 0, [⟨17, 1, .w1c, 0x0, 0x0, 0x1⟩, ⟨16, 1, .w1c, 0x0, 0x0, 0x1⟩, ⟨8, 8, .w1c, 0x0, 0x0, 0xFF⟩, ⟨0, 8, .w1c, 0x0, 0x0, 0xFF⟩]⟩,
  -- TRV_CH_IRQ_EN: TEMPFALL, PHASE, LOSS, STATE
  ⟨0x50024, 0x1000000, 1, 0x1000000, 1, false, 1, 0, [⟨17, 1, .rw, 0x0, 0x0, 0x1⟩, ⟨16, 1, .rw, 0x0, 0x0, 0x1⟩, ⟨8, 8, .rw, 0x0, 0x0, 0xFF⟩, ⟨0, 8, .rw, 0x0, 0x0, 0xFF⟩]⟩,
  -- TRV_REF_CFG: EN, KIND, TYPE, POL, QUALT, MISSN
  ⟨0x50100, 0x40, 8, 0x1000000, 1, true, 1, 0, [⟨31, 1, .rw, 0x0, 0x0, 0x1⟩, ⟨29, 2, .rw, 0x0, 0x0, 0x2⟩, ⟨27, 2, .rw, 0x0, 0x0, 0x2⟩, ⟨26, 1, .rw, 0x0, 0x0, 0x1⟩, ⟨16, 8, .rw, 0xA, 0x1, 0xFF⟩, ⟨8, 4, .rw, 0x3, 0x1, 0xF⟩]⟩,
  -- TRV_REF_CFG: EN, KIND, POL, QUALT, MISSN
  ⟨0x50300, 0x40, 4, 0x1000000, 1, true, 1, 0, [⟨31, 1, .rw, 0x0, 0x0, 0x1⟩, ⟨29, 2, .ro, 0x3, 0x0, 0x2⟩, ⟨26, 1, .rw, 0x0, 0x0, 0x1⟩, ⟨16, 8, .rw, 0xA, 0x1, 0xFF⟩, ⟨8, 4, .rw, 0x3, 0x1, 0xF⟩]⟩,
  -- TRV_REF_NOM: NOM
  ⟨0x50104, 0x40, 8, 0x1000000, 1, true, 1, 0, [⟨0, 31, .rw, 0x989680, 0x3E8, 0x4A817C80⟩]⟩,
  -- TRV_REF_NOM: 
  ⟨0x50304, 0x40, 4, 0x1000000, 1, true, 1, 0, []⟩,
  -- TRV_REF_MON: FLIM
  ⟨0x50108, 0x40, 12, 0x1000000, 1, true, 1, 0, [⟨0, 20, .rw, 0x2710, 0xA, 0xF4240⟩]⟩,
  -- TRV_REF_PPSWIN: PPSWIN
  ⟨0x5010C, 0x40, 12, 0x1000000, 1, true, 1, 0, [⟨0, 27, .rw, 0x64, 0xA, 0x5F5E100⟩]⟩,
  -- TRV_REF_WTR: WTR
  ⟨0x50110, 0x40, 12, 0x1000000, 1, true, 1, 0, [⟨0, 12, .rw, 0x12C, 0x0, 0xE10⟩]⟩,
  -- TRV_REF_CTL: DIS
  ⟨0x50114, 0x40, 12, 0x1000000, 1, false, 1, 0, [⟨0, 1, .rw, 0x0, 0x0, 0x1⟩]⟩,
  -- TRV_REF_STAT: TIMER, CAUSE, DISPUTED, STATE
  ⟨0x50118, 0x40, 12, 0x1000000, 1, false, 1, 0, [⟨20, 12, .ro, 0x0, 0x0, 0xFFF⟩, ⟨8, 9, .ro, 0x0, 0x0, 0x1FF⟩, ⟨3, 1, .ro, 0x0, 0x0, 0x1⟩, ⟨0, 3, .ro, 0x0, 0x0, 0x7⟩]⟩,
  -- TRV_REF_FOFF: FOFF
  ⟨0x5011C, 0x40, 12, 0x1000000, 1, false, 1, 0, [⟨0, 32, .ro, 0x0, 0x0, 0xFFFFFFFF⟩]⟩,
  -- TRV_REF_FOFF1: FOFF
  ⟨0x50120, 0x40, 12, 0x1000000, 1, false, 1, 0, [⟨0, 32, .ro, 0x0, 0x0, 0xFFFFFFFF⟩]⟩,
  -- TRV_REF_CLERR: FOFF
  ⟨0x50124, 0x40, 12, 0x1000000, 1, false, 1, 0, [⟨0, 32, .ro, 0x0, 0x0, 0xFFFFFFFF⟩]⟩]

/-- Registers of block TRV, part 1. -/
def rowsTRV1 : List RegRow := [
  -- TRV_REF_PULSE_CNT: COUNT
  ⟨0x50128, 0x40, 12, 0x1000000, 1, false, 1, 0, [⟨0, 32, .rc, 0x0, 0x0, 0xFFFFFFFF⟩]⟩,
  -- TRV_TOD_CFG: EN, FORMAT, LABEL, BAUD, SENT, TODWIN, REF
  ⟨0x50500, 0x40, 4, 0x1000000, 1, true, 1, 0, [⟨31, 1, .rw, 0x0, 0x0, 0x1⟩, ⟨30, 1, .rw, 0x0, 0x0, 0x1⟩, ⟨29, 1, .rw, 0x0, 0x0, 0x1⟩, ⟨26, 3, .rw, 0x0, 0x0, 0x7⟩, ⟨23, 3, .rw, 0x7, 0x0, 0x7⟩, ⟨8, 10, .rw, 0x384, 0xA, 0x3DE⟩, ⟨0, 3, .rw, 0x0, 0x0, 0x7⟩]⟩,
  -- TRV_TOD_STAT: VALID, CONFLICT, LEAP, OFFV, OFFSET
  ⟨0x50504, 0x40, 4, 0x1000000, 1, false, 1, 0, [⟨31, 1, .ro, 0x0, 0x0, 0x1⟩, ⟨30, 1, .ro, 0x0, 0x0, 0x1⟩, ⟨28, 2, .ro, 0x0, 0x0, 0x3⟩, ⟨16, 1, .ro, 0x0, 0x0, 0x1⟩, ⟨0, 16, .ro, 0x0, 0x0, 0xFFFF⟩]⟩,
  -- TRV_TOD_LABEL_W0: SEC
  ⟨0x50508, 0x40, 4, 0x1000000, 1, false, 2, 0, [⟨0, 32, .ro, 0x0, 0x0, 0xFFFFFFFF⟩]⟩,
  -- TRV_TOD_LABEL_W1: SEC
  ⟨0x5050C, 0x40, 4, 0x1000000, 1, false, 2, 1, [⟨0, 16, .ro, 0x0, 0x0, 0xFFFF⟩]⟩,
  -- TRV_TOD_ERR_CNT: COUNT
  ⟨0x50510, 0x40, 4, 0x1000000, 1, false, 1, 0, [⟨0, 32, .rc, 0x0, 0x0, 0xFFFFFFFF⟩]⟩,
  -- TRV_CH_SEL: REVERT, SETTLE, SLOPE
  ⟨0x51000, 0x100, 8, 0x1000000, 1, true, 1, 0, [⟨31, 1, .rw, 0x1, 0x0, 0x1⟩, ⟨24, 6, .rw, 0x2, 0x1, 0x3C⟩, ⟨0, 17, .rw, 0x3E8, 0x0, 0x186A0⟩]⟩,
  -- TRV_CH_PRIO: PRIO
  ⟨0x51004, 0x100, 8, 0x1000000, 1, true, 1, 0, [⟨0, 32, .rw, 0x0, 0x0, 0xFFFFFFFF⟩]⟩,
  -- TRV_CH_PRIOSE: PRIO
  ⟨0x51008, 0x100, 8, 0x1000000, 1, true, 1, 0, [⟨0, 16, .rw, 0x0, 0x0, 0xFFFF⟩]⟩,
  -- TRV_CH_FORCE: FORCE
  ⟨0x5100C, 0x100, 8, 0x1000000, 1, false, 1, 0, [⟨0, 4, .rw, 0x0, 0x0, 0xF⟩]⟩,
  -- TRV_CH_SELSTAT: SETTLE, DISPUTE, FORCEFAIL, PENDING, SWITCHING, SELECTED
  ⟨0x51010, 0x100, 8, 0x1000000, 1, false, 1, 0, [⟨12, 1, .ro, 0x0, 0x0, 0x1⟩, ⟨11, 1, .ro, 0x0, 0x0, 0x1⟩, ⟨10, 1, .ro, 0x0, 0x0, 0x1⟩, ⟨9, 1, .ro, 0x0, 0x0, 0x1⟩, ⟨8, 1, .ro, 0x0, 0x0, 0x1⟩, ⟨0, 4, .ro, 0xF, 0x0, 0xF⟩]⟩,
  -- TRV_CH_SWDELTA: DELTA
  ⟨0x51014, 0x100, 8, 0x1000000, 1, false, 1, 0, [⟨0, 32, .ro, 0x0, 0x0, 0xFFFFFFFF⟩]⟩,
  -- TRV_CH_SWITCH_CNT: COUNT
  ⟨0x51018, 0x100, 8, 0x1000000, 1, false, 1, 0, [⟨0, 32, .rc, 0x0, 0x0, 0xFFFFFFFF⟩]⟩,
  -- TRV_CH_CFG: EN, BMCOMP, BW, ACQBW, AVGWIN
  ⟨0x51020, 0x100, 1, 0x1000000, 1, true, 1, 0, [⟨31, 1, .rw, 0x0, 0x0, 0x1⟩, ⟨30, 1, .rw, 0x1, 0x0, 0x1⟩, ⟨24, 5, .rw, 0x4, 0x0, 0x12⟩, ⟨16, 5, .rw, 0x4, 0x0, 0x12⟩, ⟨0, 14, .rw, 0x3E8, 0x1, 0x2710⟩]⟩,
  -- TRV_CH_CFG: EN, BMCOMP, BW, ACQBW, AVGWIN
  ⟨0x51120, 0x100, 1, 0x1000000, 1, true, 1, 0, [⟨31, 1, .rw, 0x0, 0x0, 0x1⟩, ⟨30, 1, .rw, 0x1, 0x0, 0x1⟩, ⟨24, 5, .rw, 0x9, 0x0, 0x12⟩, ⟨16, 5, .rw, 0x9, 0x0, 0x12⟩, ⟨0, 14, .rw, 0x3E8, 0x1, 0x2710⟩]⟩,
  -- TRV_CH_CFG: EN, BMCOMP, ACQBW, AVGWIN
  ⟨0x51220, 0x100, 6, 0x1000000, 1, true, 1, 0, [⟨31, 1, .rw, 0x0, 0x0, 0x1⟩, ⟨30, 1, .rw, 0x1, 0x0, 0x1⟩, ⟨16, 5, .rw, 0x0, 0x0, 0x12⟩, ⟨0, 14, .rw, 0x3E8, 0x1, 0x2710⟩]⟩,
  -- TRV_CH_LOCK: LOCKT, LOSSN, GUARD, LOCKTH
  ⟨0x51024, 0x100, 8, 0x1000000, 1, true, 1, 0, [⟨26, 6, .rw, 0xA, 0x1, 0x3C⟩, ⟨22, 4, .rw, 0x3, 0x1, 0xF⟩, ⟨16, 6, .rw, 0x5, 0x0, 0x3C⟩, ⟨0, 16, .rw, 0x64, 0x1, 0xFFFF⟩]⟩,
  -- TRV_CH_HOMAX: HOMAX
  ⟨0x51028, 0x100, 8, 0x1000000, 1, true, 1, 0, [⟨0, 20, .rw, 0x0, 0x0, 0xF4240⟩]⟩,
  -- TRV_CH_STATE: CLAMP, BWLIM, BWEFF, HIST, STATE
  ⟨0x5102C, 0x100, 8, 0x1000000, 1, false, 1, 0, [⟨31, 1, .ro, 0x0, 0x0, 0x1⟩, ⟨30, 1, .ro, 0x0, 0x0, 0x1⟩, ⟨25, 5, .ro, 0x0, 0x0, 0x1F⟩, ⟨8, 14, .ro, 0x0, 0x0, 0x3FFF⟩, ⟨0, 2, .ro, 0x0, 0x0, 0x3⟩]⟩,
  -- TRV_CH_PHERR: PHERR
  ⟨0x51030, 0x100, 8, 0x1000000, 1, false, 1, 0, [⟨0, 32, .ro, 0x0, 0x0, 0xFFFFFFFF⟩]⟩]

/-- Registers of block TRV, part 2. -/
def rowsTRV2 : List RegRow := [
  -- TRV_CH_FREQ_W0: FREQ
  ⟨0x51034, 0x100, 8, 0x1000000, 1, false, 2, 0, [⟨0, 32, .ro, 0x0, 0x0, 0xFFFFFFFF⟩]⟩,
  -- TRV_CH_FREQ_W1: FREQ
  ⟨0x51038, 0x100, 8, 0x1000000, 1, false, 2, 1, [⟨0, 8, .ro, 0x0, 0x0, 0xFF⟩]⟩,
  -- TRV_CH_HOFREQ_W0: FREQ
  ⟨0x5103C, 0x100, 8, 0x1000000, 1, false, 2, 0, [⟨0, 32, .ro, 0x0, 0x0, 0xFFFFFFFF⟩]⟩,
  -- TRV_CH_HOFREQ_W1: FREQ
  ⟨0x51040, 0x100, 8, 0x1000000, 1, false, 2, 1, [⟨0, 8, .ro, 0x0, 0x0, 0xFF⟩]⟩,
  -- TRV_CH_LOSS_CNT: COUNT
  ⟨0x51044, 0x100, 8, 0x1000000, 1, false, 1, 0, [⟨0, 32, .rc, 0x0, 0x0, 0xFFFFFFFF⟩]⟩,
  -- TRV_CH_HOTIME: COUNT
  ⟨0x51048, 0x100, 8, 0x1000000, 1, false, 1, 0, [⟨0, 32, .ro, 0x0, 0x0, 0xFFFFFFFF⟩]⟩,
  -- TRV_BM_CFG: TEMPSRC, I2CADR, SEEDEN, LEARNDAYS
  ⟨0x52000, 0x1000000, 1, 0x1000000, 1, true, 1, 0, [⟨31, 1, .rw, 0x0, 0x0, 0x1⟩, ⟨24, 7, .rw, 0x0, 0x0, 0x7F⟩, ⟨23, 1, .rw, 0x0, 0x0, 0x1⟩, ⟨16, 7, .rw, 0x1E, 0x7, 0x5A⟩]⟩,
  -- TRV_BM_AVG: GUARD, AVGWIN
  ⟨0x52004, 0x1000000, 1, 0x1000000, 1, true, 1, 0, [⟨16, 6, .rw, 0x5, 0x0, 0x3C⟩, ⟨0, 14, .rw, 0x3E8, 0x1, 0x2710⟩]⟩,
  -- TRV_BM_DECL: AGEMAX, TEMPCO
  ⟨0x52008, 0x1000000, 1, 0x1000000, 1, true, 1, 0, [⟨16, 16, .rw, 0x1F4, 0x1, 0xFFFF⟩, ⟨0, 16, .rw, 0x64, 0x1, 0xFFFF⟩]⟩,
  -- TRV_BM_HOLD: HOLDLIM
  ⟨0x5200C, 0x1000000, 1, 0x1000000, 1, true, 1, 0, [⟨0, 30, .rw, 0x5DC, 0x1, 0x3B9ACA00⟩]⟩,
  -- TRV_BM_STAT: PHASE, TEMPOK, TEMPFALL, MODEL, MONFOLLOW, HOURS
  ⟨0x52010, 0x1000000, 1, 0x1000000, 1, false, 1, 0, [⟨30, 2, .ro, 0x0, 0x0, 0x3⟩, ⟨29, 1, .ro, 0x0, 0x0, 0x1⟩, ⟨28, 1, .ro, 0x0, 0x0, 0x1⟩, ⟨27, 1, .ro, 0x0, 0x0, 0x1⟩, ⟨26, 1, .ro, 0x0, 0x0, 0x1⟩, ⟨0, 16, .ro, 0x0, 0x0, 0xFFFF⟩]⟩,
  -- TRV_BM_AGE: VALUE
  ⟨0x52014, 0x1000000, 1, 0x1000000, 1, false, 1, 0, [⟨0, 32, .ro, 0x0, 0x0, 0xFFFFFFFF⟩]⟩,
  -- TRV_BM_K1: VALUE
  ⟨0x52018, 0x1000000, 1, 0x1000000, 1, false, 1, 0, [⟨0, 32, .ro, 0x0, 0x0, 0xFFFFFFFF⟩]⟩,
  -- TRV_BM_K2: VALUE
  ⟨0x5201C, 0x1000000, 1, 0x1000000, 1, false, 1, 0, [⟨0, 32, .ro, 0x0, 0x0, 0xFFFFFFFF⟩]⟩,
  -- TRV_BM_XOFF: VALUE
  ⟨0x5202C, 0x1000000, 1, 0x1000000, 1, false, 1, 0, [⟨0, 32, .ro, 0x0, 0x0, 0xFFFFFFFF⟩]⟩,
  -- TRV_BM_TEMP: T0, TEMP
  ⟨0x52020, 0x1000000, 1, 0x1000000, 1, false, 1, 0, [⟨16, 16, .ro, 0x0, 0x0, 0xFFFF⟩, ⟨0, 16, .ro, 0x0, 0x0, 0xFFFF⟩]⟩,
  -- TRV_BM_UF: VALUE
  ⟨0x52024, 0x1000000, 1, 0x1000000, 1, false, 1, 0, [⟨0, 32, .ro, 0x0, 0x0, 0xFFFFFFFF⟩]⟩,
  -- TRV_BM_BOUND: VALUE
  ⟨0x52028, 0x1000000, 1, 0x1000000, 1, false, 1, 0, [⟨0, 32, .ro, 0x0, 0x0, 0xFFFFFFFF⟩]⟩,
  -- TRV_BM_SEEDAGE: SEED
  ⟨0x52030, 0x1000000, 1, 0x1000000, 1, true, 1, 0, [⟨0, 32, .rw, 0x0, 0x0, 0xFFFFFFFF⟩]⟩,
  -- TRV_BM_SEEDK1: SEED
  ⟨0x52034, 0x1000000, 1, 0x1000000, 1, true, 1, 0, [⟨0, 32, .rw, 0x0, 0x0, 0xFFFFFFFF⟩]⟩]

/-- Registers of block TRV, part 3. -/
def rowsTRV3 : List RegRow := [
  -- TRV_BM_SEEDK2: SEED
  ⟨0x52038, 0x1000000, 1, 0x1000000, 1, true, 1, 0, [⟨0, 32, .rw, 0x0, 0x0, 0xFFFFFFFF⟩]⟩]

/-- Registers of block TRN, part 0. -/
def rowsTRN0 : List RegRow := [
  -- TRN_CFG: RING, CALPER
  ⟨0x60000, 0x1000000, 1, 0x1000000, 1, true, 1, 0, [⟨8, 2, .rw, 0x0, 0x0, 0x3⟩, ⟨0, 8, .rw, 0x1, 0x1, 0x3C⟩]⟩,
  -- TRN_STAT: CALOK, QUALITY, OSCFREQ, LOAD
  ⟨0x60004, 0x1000000, 1, 0x1000000, 1, false, 1, 0, [⟨31, 1, .ro, 0x0, 0x0, 0x1⟩, ⟨30, 1, .ro, 0x0, 0x0, 0x1⟩, ⟨28, 2, .ro, 0x0, 0x0, 0x3⟩, ⟨0, 8, .ro, 0x0, 0x0, 0xFF⟩]⟩,
  -- TRN_IRQ_STAT: EVQFULL, CALFAIL, QUALITY, FREEZE, MISSED, LOST, STATRDY
  ⟨0x60008, 0x1000000, 1, 0x1000000, 1, false, 1, 0, [⟨29, 1, .w1c, 0x0, 0x0, 0x1⟩, ⟨28, 1, .w1c, 0x0, 0x0, 0x1⟩, ⟨27, 1, .w1c, 0x0, 0x0, 0x1⟩, ⟨26, 1, .w1c, 0x0, 0x0, 0x1⟩, ⟨25, 1, .w1c, 0x0, 0x0, 0x1⟩, ⟨24, 1, .w1c, 0x0, 0x0, 0x1⟩, ⟨0, 24, .w1c, 0x0, 0x0, 0xFFFFFF⟩]⟩,
  -- TRN_IRQ_EN: EVQFULL, CALFAIL, QUALITY, FREEZE, MISSED, LOST, STATRDY
  ⟨0x6000C, 0x1000000, 1, 0x1000000, 1, false, 1, 0, [⟨29, 1, .rw, 0x0, 0x0, 0x1⟩, ⟨28, 1, .rw, 0x0, 0x0, 0x1⟩, ⟨27, 1, .rw, 0x0, 0x0, 0x1⟩, ⟨26, 1, .rw, 0x0, 0x0, 0x1⟩, ⟨25, 1, .rw, 0x0, 0x0, 0x1⟩, ⟨24, 1, .rw, 0x0, 0x0, 0x1⟩, ⟨0, 24, .rw, 0x0, 0x0, 0xFFFFFF⟩]⟩,
  -- TRN_EVQ_STAT: LEVEL
  ⟨0x60010, 0x1000000, 1, 0x1000000, 1, false, 1, 0, [⟨0, 9, .ro, 0x0, 0x0, 0x1FF⟩]⟩,
  -- TRN_EVQ_POP: POP
  ⟨0x60014, 0x1000000, 1, 0x1000000, 1, false, 1, 0, [⟨0, 1, .wo, 0x0, 0x0, 0x1⟩]⟩,
  -- TRN_EVQ_LOST_CNT: COUNT
  ⟨0x60018, 0x1000000, 1, 0x1000000, 1, false, 1, 0, [⟨0, 32, .rc, 0x0, 0x0, 0xFFFFFFFF⟩]⟩,
  -- TRN_EVQ_W: WORD
  ⟨0x60020, 0x4, 8, 0x1000000, 1, false, 1, 0, [⟨0, 32, .ro, 0x0, 0x0, 0xFFFFFFFF⟩]⟩,
  -- TRN_CH_CFG: EN, MODE, EDGE, PRESC, STOPSEL, QUEUE, HOST
  ⟨0x61000, 0x100, 23, 0x1000000, 1, true, 1, 0, [⟨31, 1, .rw, 0x0, 0x0, 0x1⟩, ⟨29, 2, .rw, 0x0, 0x0, 0x2⟩, ⟨27, 2, .rw, 0x0, 0x0, 0x2⟩, ⟨23, 4, .rw, 0x0, 0x0, 0xA⟩, ⟨18, 5, .rw, 0x0, 0x0, 0x16⟩, ⟨3, 1, .rw, 0x0, 0x0, 0x1⟩, ⟨2, 1, .rw, 0x0, 0x0, 0x1⟩]⟩,
  -- TRN_CH_CFG: EN, MODE, EDGE, STOPSEL, QUEUE, HOST
  ⟨0x62700, 0x100, 1, 0x1000000, 1, true, 1, 0, [⟨31, 1, .rw, 0x0, 0x0, 0x1⟩, ⟨29, 2, .ro, 0x1, 0x0, 0x2⟩, ⟨27, 2, .rw, 0x0, 0x0, 0x2⟩, ⟨18, 5, .rw, 0x0, 0x0, 0x16⟩, ⟨3, 1, .rw, 0x0, 0x0, 0x1⟩, ⟨2, 1, .rw, 0x0, 0x0, 0x1⟩]⟩,
  -- TRN_CH_TRIG: MINW, DECIM
  ⟨0x61004, 0x100, 24, 0x1000000, 1, true, 1, 0, [⟨16, 11, .rw, 0x0, 0x0, 0x4B0⟩, ⟨0, 16, .rw, 0x1, 0x1, 0xFFFF⟩]⟩,
  -- TRN_CH_HOLDOFF: HOLDOFF
  ⟨0x61008, 0x100, 24, 0x1000000, 1, true, 1, 0, [⟨0, 20, .rw, 0x0, 0x0, 0xF4240⟩]⟩,
  -- TRN_CH_GATE: GATE
  ⟨0x6100C, 0x100, 24, 0x1000000, 1, true, 1, 0, [⟨0, 20, .rw, 0x3E8, 0x1, 0xDBBA0⟩]⟩,
  -- TRN_CH_STATN: CONT, EN, N
  ⟨0x61010, 0x100, 24, 0x1000000, 1, true, 1, 0, [⟨31, 1, .rw, 0x0, 0x0, 0x1⟩, ⟨30, 1, .rw, 0x0, 0x0, 0x1⟩, ⟨0, 25, .rw, 0x3E8, 0x1, 0x1000000⟩]⟩,
  -- TRN_CH_DLY: DLY
  ⟨0x61014, 0x100, 24, 0x1000000, 1, true, 1, 0, [⟨0, 32, .rw, 0x0, 0x0, 0xFFFFFFFF⟩]⟩,
  -- TRN_CH_NOM_W0: NOM
  ⟨0x61018, 0x100, 24, 0x1000000, 1, true, 2, 0, [⟨0, 32, .rw, 0x0, 0x0, 0xFFFFFFFF⟩]⟩,
  -- TRN_CH_NOM_W1: NOM
  ⟨0x6101C, 0x100, 24, 0x1000000, 1, true, 2, 1, [⟨0, 24, .rw, 0x0, 0x0, 0xFFFFFF⟩]⟩,
  -- TRN_CH_STAT: RANGE, DEGRADED, RESTART, OWNER, QLEVEL
  ⟨0x61020, 0x100, 24, 0x1000000, 1, false, 1, 0, [⟨31, 1, .ro, 0x0, 0x0, 0x1⟩, ⟨30, 1, .ro, 0x0, 0x0, 0x1⟩, ⟨29, 1, .w1c, 0x0, 0x0, 0x1⟩, ⟨24, 3, .ro, 0x0, 0x0, 0x7⟩, ⟨0, 5, .ro, 0x0, 0x0, 0x1F⟩]⟩,
  -- TRN_CH_LAST_W0: FRAC
  ⟨0x61030, 0x100, 24, 0x1000000, 1, false, 4, 0, [⟨0, 16, .ro, 0x0, 0x0, 0xFFFF⟩]⟩,
  -- TRN_CH_LAST_W1: NS
  ⟨0x61034, 0x100, 24, 0x1000000, 1, false, 4, 1, [⟨0, 30, .ro, 0x0, 0x0, 0x3FFFFFFF⟩]⟩]

/-- Registers of block TRN, part 1. -/
def rowsTRN1 : List RegRow := [
  -- TRN_CH_LAST_W2: SECLO
  ⟨0x61038, 0x100, 24, 0x1000000, 1, false, 4, 2, [⟨0, 32, .ro, 0x0, 0x0, 0xFFFFFFFF⟩]⟩,
  -- TRN_CH_LAST_W3: SECHI
  ⟨0x6103C, 0x100, 24, 0x1000000, 1, false, 4, 3, [⟨0, 16, .ro, 0x0, 0x0, 0xFFFF⟩]⟩,
  -- TRN_CH_FREQ_W0: FREQ
  ⟨0x61040, 0x100, 24, 0x1000000, 1, false, 2, 0, [⟨0, 32, .ro, 0x0, 0x0, 0xFFFFFFFF⟩]⟩,
  -- TRN_CH_FREQ_W1: FREQ
  ⟨0x61044, 0x100, 24, 0x1000000, 1, false, 2, 1, [⟨0, 24, .ro, 0x0, 0x0, 0xFFFFFF⟩]⟩,
  -- TRN_CH_FOFF_W0: FOFF
  ⟨0x61048, 0x100, 24, 0x1000000, 1, false, 2, 0, [⟨0, 32, .ro, 0x0, 0x0, 0xFFFFFFFF⟩]⟩,
  -- TRN_CH_FOFF_W1: FOFF
  ⟨0x6104C, 0x100, 24, 0x1000000, 1, false, 2, 1, [⟨0, 32, .ro, 0x0, 0x0, 0xFFFFFFFF⟩]⟩,
  -- TRN_CH_RES_SEQ: SEQ
  ⟨0x61050, 0x100, 24, 0x1000000, 1, false, 1, 0, [⟨0, 32, .ro, 0x0, 0x0, 0xFFFFFFFF⟩]⟩,
  -- TRN_CH_RES_DEV: DEV
  ⟨0x61054, 0x100, 24, 0x1000000, 1, false, 1, 0, [⟨0, 32, .ro, 0x0, 0x0, 0xFFFFFFFF⟩]⟩,
  -- TRN_CH_RES_MEAN_W0: MEAN
  ⟨0x61058, 0x100, 24, 0x1000000, 1, false, 2, 0, [⟨0, 32, .ro, 0x0, 0x0, 0xFFFFFFFF⟩]⟩,
  -- TRN_CH_RES_MEAN_W1: MEAN
  ⟨0x6105C, 0x100, 24, 0x1000000, 1, false, 2, 1, [⟨0, 32, .ro, 0x0, 0x0, 0xFFFFFFFF⟩]⟩,
  -- TRN_CH_RES_MIN_W0: MIN
  ⟨0x61060, 0x100, 24, 0x1000000, 1, false, 2, 0, [⟨0, 32, .ro, 0x0, 0x0, 0xFFFFFFFF⟩]⟩,
  -- TRN_CH_RES_MIN_W1: MIN
  ⟨0x61064, 0x100, 24, 0x1000000, 1, false, 2, 1, [⟨0, 32, .ro, 0x0, 0x0, 0xFFFFFFFF⟩]⟩,
  -- TRN_CH_RES_MAX_W0: MAX
  ⟨0x61068, 0x100, 24, 0x1000000, 1, false, 2, 0, [⟨0, 32, .ro, 0x0, 0x0, 0xFFFFFFFF⟩]⟩,
  -- TRN_CH_RES_MAX_W1: MAX
  ⟨0x6106C, 0x100, 24, 0x1000000, 1, false, 2, 1, [⟨0, 32, .ro, 0x0, 0x0, 0xFFFFFFFF⟩]⟩,
  -- TRN_CH_RES_N: N
  ⟨0x61070, 0x100, 24, 0x1000000, 1, false, 1, 0, [⟨0, 25, .ro, 0x0, 0x0, 0x1FFFFFF⟩]⟩,
  -- TRN_CH_MISSED_CNT: COUNT
  ⟨0x61080, 0x100, 24, 0x1000000, 1, false, 1, 0, [⟨0, 32, .rc, 0x0, 0x0, 0xFFFFFFFF⟩]⟩,
  -- TRN_CH_LOST_CNT: COUNT
  ⟨0x61084, 0x100, 24, 0x1000000, 1, false, 1, 0, [⟨0, 32, .rc, 0x0, 0x0, 0xFFFFFFFF⟩]⟩,
  -- TRN_CH_GLITCH_CNT: COUNT
  ⟨0x61088, 0x100, 24, 0x1000000, 1, false, 1, 0, [⟨0, 32, .rc, 0x0, 0x0, 0xFFFFFFFF⟩]⟩,
  -- TRN_CH_UNPAIRED_CNT: COUNT
  ⟨0x6108C, 0x100, 24, 0x1000000, 1, false, 1, 0, [⟨0, 32, .rc, 0x0, 0x0, 0xFFFFFFFF⟩]⟩,
  -- TRN_CH_OVF_CNT: COUNT
  ⟨0x61090, 0x100, 24, 0x1000000, 1, false, 1, 0, [⟨0, 32, .rc, 0x0, 0x0, 0xFFFFFFFF⟩]⟩]

/-- Registers of block TRN, part 2. -/
def rowsTRN2 : List RegRow := [
  -- TRN_CH_FRZ_CNT: COUNT
  ⟨0x61094, 0x100, 24, 0x1000000, 1, false, 1, 0, [⟨0, 32, .rc, 0x0, 0x0, 0xFFFFFFFF⟩]⟩]

/-- Registers of block DTM, part 0. -/
def rowsDTM0 : List RegRow := [
  -- DTM_CFG: LOCKTIME, LOCKTH, SETTLE, WTR, REVERT, START
  ⟨0x70000, 0x1000000, 1, 0x1000000, 1, true, 1, 0, [⟨28, 4, .rw, 0xA, 0x1, 0xF⟩, ⟨20, 8, .rw, 0xA, 0x1, 0xFF⟩, ⟨16, 4, .rw, 0x2, 0x1, 0xF⟩, ⟨2, 12, .rw, 0x12C, 0x0, 0xE10⟩, ⟨1, 1, .rw, 0x0, 0x0, 0x1⟩, ⟨0, 1, .rw, 0x0, 0x0, 0x1⟩]⟩,
  -- DTM_STATE: SPLIT, SLEW, BS_ST, FS_ST, ACTIVE, STATE
  ⟨0x70004, 0x1000000, 1, 0x1000000, 1, false, 1, 0, [⟨13, 1, .ro, 0x0, 0x0, 0x1⟩, ⟨12, 1, .ro, 0x0, 0x0, 0x1⟩, ⟨10, 2, .ro, 0x0, 0x0, 0x3⟩, ⟨8, 2, .ro, 0x0, 0x0, 0x3⟩, ⟨4, 1, .ro, 0x0, 0x0, 0x1⟩, ⟨0, 3, .ro, 0x0, 0x0, 0x7⟩]⟩,
  -- DTM_DOMCTL: FORCE, HANDOFF
  ⟨0x70008, 0x1000000, 1, 0x1000000, 1, false, 1, 0, [⟨1, 2, .rw, 0x0, 0x0, 0x3⟩, ⟨0, 1, .wo, 0x0, 0x0, 0x1⟩]⟩,
  -- DTM_IRQ_STAT: CMP, UTCDIS, PCLATE, VOTE, UTCCHG, LEAPDONE, LEAPSCHED, SPLIT, HANDOFF, STATE
  ⟨0x7000C, 0x1000000, 1, 0x1000000, 1, false, 1, 0, [⟨16, 16, .w1c, 0x0, 0x0, 0xFFFF⟩, ⟨8, 1, .w1c, 0x0, 0x0, 0x1⟩, ⟨7, 1, .w1c, 0x0, 0x0, 0x1⟩, ⟨6, 1, .w1c, 0x0, 0x0, 0x1⟩, ⟨5, 1, .w1c, 0x0, 0x0, 0x1⟩, ⟨4, 1, .w1c, 0x0, 0x0, 0x1⟩, ⟨3, 1, .w1c, 0x0, 0x0, 0x1⟩, ⟨2, 1, .w1c, 0x0, 0x0, 0x1⟩, ⟨1, 1, .w1c, 0x0, 0x0, 0x1⟩, ⟨0, 1, .w1c, 0x0, 0x0, 0x1⟩]⟩,
  -- DTM_IRQ_EN: CMP, UTCDIS, PCLATE, VOTE, UTCCHG, LEAPDONE, LEAPSCHED, SPLIT, HANDOFF, STATE
  ⟨0x70010, 0x1000000, 1, 0x1000000, 1, false, 1, 0, [⟨16, 16, .rw, 0x0, 0x0, 0xFFFF⟩, ⟨8, 1, .rw, 0x0, 0x0, 0x1⟩, ⟨7, 1, .rw, 0x0, 0x0, 0x1⟩, ⟨6, 1, .rw, 0x0, 0x0, 0x1⟩, ⟨5, 1, .rw, 0x0, 0x0, 0x1⟩, ⟨4, 1, .rw, 0x0, 0x0, 0x1⟩, ⟨3, 1, .rw, 0x0, 0x0, 0x1⟩, ⟨2, 1, .rw, 0x0, 0x0, 0x1⟩, ⟨1, 1, .rw, 0x0, 0x0, 0x1⟩, ⟨0, 1, .rw, 0x0, 0x0, 0x1⟩]⟩,
  -- DTM_SLOPE: SPLIT, SLOPE
  ⟨0x70014, 0x1000000, 1, 0x1000000, 1, true, 1, 0, [⟨20, 12, .rw, 0x64, 0x1, 0xFFF⟩, ⟨0, 17, .rw, 0x3E8, 0x1, 0x186A0⟩]⟩,
  -- DTM_STEPTH: STEPTH
  ⟨0x70018, 0x1000000, 1, 0x1000000, 1, true, 1, 0, [⟨0, 30, .rw, 0x3E8, 0x0, 0x3B9AC9FF⟩]⟩,
  -- DTM_FS_CFG: MINWIN, BW, SRC
  ⟨0x70020, 0x1000000, 1, 0x1000000, 1, true, 1, 0, [⟨8, 4, .rw, 0xF, 0x0, 0xF⟩, ⟨4, 4, .rw, 0x9, 0x0, 0x9⟩, ⟨0, 2, .rw, 0x0, 0x0, 0x3⟩]⟩,
  -- DTM_BS_CFG: MINWIN, BW, SRC
  ⟨0x70024, 0x1000000, 1, 0x1000000, 1, true, 1, 0, [⟨8, 4, .rw, 0xF, 0x0, 0xF⟩, ⟨4, 4, .rw, 0x9, 0x0, 0x9⟩, ⟨0, 2, .rw, 0x1, 0x0, 0x3⟩]⟩,
  -- DTM_UTC_CFG: SMEAR, OFFSET
  ⟨0x70028, 0x1000000, 1, 0x1000000, 1, true, 1, 0, [⟨16, 1, .rw, 0x0, 0x0, 0x1⟩, ⟨0, 16, .rw, 0x25, 0x0, 0xFFFF⟩]⟩,
  -- DTM_UTC_STAT: SRC, PENDING, OFFSET
  ⟨0x7002C, 0x1000000, 1, 0x1000000, 1, false, 1, 0, [⟨20, 2, .ro, 0x2, 0x0, 0x3⟩, ⟨16, 2, .ro, 0x0, 0x0, 0x3⟩, ⟨0, 16, .ro, 0x25, 0x0, 0xFFFF⟩]⟩,
  -- DTM_LEAP_DAY: KIND, MJD
  ⟨0x70030, 0x1000000, 1, 0x1000000, 1, true, 1, 0, [⟨20, 2, .rw, 0x0, 0x0, 0x3⟩, ⟨0, 20, .rw, 0x0, 0x0, 0xFFFFF⟩]⟩,
  -- DTM_TIME_W0: FRAC
  ⟨0x70040, 0x1000000, 1, 0x1000000, 1, false, 4, 0, [⟨0, 16, .ro, 0x0, 0x0, 0xFFFF⟩]⟩,
  -- DTM_TIME_W1: NS
  ⟨0x70044, 0x1000000, 1, 0x1000000, 1, false, 4, 1, [⟨0, 30, .ro, 0x0, 0x0, 0x3FFFFFFF⟩]⟩,
  -- DTM_TIME_W2: SECLO
  ⟨0x70048, 0x1000000, 1, 0x1000000, 1, false, 4, 2, [⟨0, 32, .ro, 0x0, 0x0, 0xFFFFFFFF⟩]⟩,
  -- DTM_TIME_W3: SECHI
  ⟨0x7004C, 0x1000000, 1, 0x1000000, 1, false, 4, 3, [⟨0, 16, .ro, 0x0, 0x0, 0xFFFF⟩]⟩,
  -- DTM_RATE_W0: RATE
  ⟨0x70050, 0x1000000, 1, 0x1000000, 1, false, 2, 0, [⟨0, 32, .ro, 0x0, 0x0, 0xFFFFFFFF⟩]⟩,
  -- DTM_RATE_W1: RATE
  ⟨0x70054, 0x1000000, 1, 0x1000000, 1, false, 2, 1, [⟨0, 8, .ro, 0x0, 0x0, 0xFF⟩]⟩,
  -- DTM_DOMDIFF: DIFF
  ⟨0x70058, 0x1000000, 1, 0x1000000, 1, false, 1, 0, [⟨0, 32, .ro, 0x0, 0x0, 0xFFFFFFFF⟩]⟩,
  -- DTM_MONDIFF: DIFF
  ⟨0x7005C, 0x1000000, 1, 0x1000000, 1, false, 1, 0, [⟨0, 32, .ro, 0x0, 0x0, 0xFFFFFFFF⟩]⟩]

/-- Registers of block DTM, part 1. -/
def rowsDTM1 : List RegRow := [
  -- DTM_VOTE_CNT: COUNT
  ⟨0x70060, 0x1000000, 1, 0x1000000, 1, false, 1, 0, [⟨0, 32, .rc, 0x0, 0x0, 0xFFFFFFFF⟩]⟩,
  -- DTM_CMP_CTL: BADVAL, PERCLAMP, LATE, ARMED, OUTEN, OUTSEL, FBK, IRQ, EN
  ⟨0x70100, 0x20, 16, 0x1000000, 1, false, 1, 0, [⟨18, 1, .w1c, 0x0, 0x0, 0x1⟩, ⟨17, 1, .w1c, 0x0, 0x0, 0x1⟩, ⟨16, 1, .w1c, 0x0, 0x0, 0x1⟩, ⟨15, 1, .ro, 0x0, 0x0, 0x1⟩, ⟨12, 1, .rw, 0x0, 0x0, 0x1⟩, ⟨8, 4, .rw, 0x0, 0x0, 0xF⟩, ⟨2, 1, .rw, 0x0, 0x0, 0x1⟩, ⟨1, 1, .rw, 0x0, 0x0, 0x1⟩, ⟨0, 1, .rw, 0x0, 0x0, 0x1⟩]⟩,
  -- DTM_CMP_TGT_W0: FRAC
  ⟨0x70104, 0x20, 16, 0x1000000, 1, false, 4, 0, [⟨0, 16, .rw, 0x0, 0x0, 0xFFFF⟩]⟩,
  -- DTM_CMP_TGT_W1: NS
  ⟨0x70108, 0x20, 16, 0x1000000, 1, false, 4, 1, [⟨0, 30, .rw, 0x0, 0x0, 0x3FFFFFFF⟩]⟩,
  -- DTM_CMP_TGT_W2: SECLO
  ⟨0x7010C, 0x20, 16, 0x1000000, 1, false, 4, 2, [⟨0, 32, .rw, 0x0, 0x0, 0xFFFFFFFF⟩]⟩,
  -- DTM_CMP_TGT_W3: SECHI
  ⟨0x70110, 0x20, 16, 0x1000000, 1, false, 4, 3, [⟨0, 16, .rw, 0x0, 0x0, 0xFFFF⟩]⟩,
  -- DTM_CMP_PER_W0: FRAC
  ⟨0x70114, 0x20, 16, 0x1000000, 1, false, 3, 0, [⟨0, 16, .rw, 0x0, 0x0, 0xFFFF⟩]⟩,
  -- DTM_CMP_PER_W1: NS
  ⟨0x70118, 0x20, 16, 0x1000000, 1, false, 3, 1, [⟨0, 30, .rw, 0x0, 0x0, 0x3FFFFFFF⟩]⟩,
  -- DTM_CMP_PER_W2: SECLO
  ⟨0x7011C, 0x20, 16, 0x1000000, 1, false, 3, 2, [⟨0, 16, .rw, 0x0, 0x0, 0xFFFF⟩]⟩,
  -- DTM_PC_CFG: TIMEOUT, TRANSPORT, PROFILE, DOMAIN, EN, PORT
  ⟨0x70300, 0x20, 2, 0x1000000, 1, true, 1, 0, [⟨20, 12, .rw, 0x3E8, 0x64, 0xFA0⟩, ⟨18, 2, .rw, 0x1, 0x0, 0x3⟩, ⟨16, 2, .rw, 0x0, 0x0, 0x3⟩, ⟨8, 8, .rw, 0x0, 0x0, 0xFF⟩, ⟨3, 1, .rw, 0x0, 0x0, 0x1⟩, ⟨0, 3, .rw, 0x0, 0x0, 0x6⟩]⟩,
  -- DTM_PC_STAT: SEQ, MASTER, STATE
  ⟨0x70304, 0x20, 2, 0x1000000, 1, false, 1, 0, [⟨16, 16, .ro, 0x0, 0x0, 0xFFFF⟩, ⟨4, 3, .ro, 0x0, 0x0, 0x7⟩, ⟨0, 4, .ro, 0x0, 0x0, 0xF⟩]⟩,
  -- DTM_PC_LATE_CNT: COUNT
  ⟨0x70308, 0x20, 2, 0x1000000, 1, false, 1, 0, [⟨0, 32, .rc, 0x0, 0x0, 0xFFFFFFFF⟩]⟩,
  -- DTM_PC_SRC_ADDR_W0: ADDR
  ⟨0x70400, 0x20, 2, 0x1000000, 1, true, 4, 0, [⟨0, 32, .rw, 0x0, 0x0, 0xFFFFFFFF⟩]⟩,
  -- DTM_PC_SRC_ADDR_W1: ADDR
  ⟨0x70404, 0x20, 2, 0x1000000, 1, true, 4, 1, [⟨0, 32, .rw, 0x0, 0x0, 0xFFFFFFFF⟩]⟩,
  -- DTM_PC_SRC_ADDR_W2: ADDR
  ⟨0x70408, 0x20, 2, 0x1000000, 1, true, 4, 2, [⟨0, 32, .rw, 0x0, 0x0, 0xFFFFFFFF⟩]⟩,
  -- DTM_PC_SRC_ADDR_W3: ADDR
  ⟨0x7040C, 0x20, 2, 0x1000000, 1, true, 4, 3, [⟨0, 32, .rw, 0x0, 0x0, 0xFFFFFFFF⟩]⟩,
  -- DTM_PC_SRC_MAC_W0: MAC
  ⟨0x70410, 0x20, 2, 0x1000000, 1, true, 2, 0, [⟨0, 32, .rw, 0x0, 0x0, 0xFFFFFFFF⟩]⟩,
  -- DTM_PC_SRC_MAC_W1: MAC, VID
  ⟨0x70414, 0x20, 2, 0x1000000, 1, true, 2, 1, [⟨0, 16, .rw, 0x0, 0x0, 0xFFFF⟩, ⟨16, 12, .rw, 0x0, 0x0, 0xFFE⟩]⟩]

/-- Registers of block PRT, part 0. -/
def rowsPRT0 : List RegRow := [
  -- PRT_P_CFG: EN, SPEED, MEDIA, TRAIN, AN37, POLTX, POLRX, CTLTC
  ⟨0x100000, 0x10000, 4, 0x1000000, 1, true, 1, 0, [⟨31, 1, .rw, 0x0, 0x0, 0x1⟩, ⟨28, 3, .rw, 0x4, 0x0, 0x4⟩, ⟨26, 2, .rw, 0x0, 0x0, 0x2⟩, ⟨25, 1, .rw, 0x1, 0x0, 0x1⟩, ⟨24, 1, .rw, 0x1, 0x0, 0x1⟩, ⟨20, 4, .rw, 0x0, 0x0, 0xF⟩, ⟨16, 4, .rw, 0x0, 0x0, 0xF⟩, ⟨0, 3, .rw, 0x6, 0x0, 0x7⟩]⟩,
  -- PRT_F_CFG: EN, PLCAEN
  ⟨0x140000, 0x10000, 2, 0x1000000, 1, true, 1, 0, [⟨31, 1, .rw, 0x0, 0x0, 0x1⟩, ⟨30, 1, .rw, 0x0, 0x0, 0x1⟩]⟩,
  -- PRT_MGT_CFG: EN, MODE, AN37, RXPAUSE, POLTX, POLRX
  ⟨0x160000, 0x1000000, 1, 0x1000000, 1, true, 1, 0, [⟨31, 1, .rw, 0x0, 0x0, 0x1⟩, ⟨30, 1, .rw, 0x0, 0x0, 0x1⟩, ⟨29, 1, .rw, 0x1, 0x0, 0x1⟩, ⟨28, 1, .rw, 0x1, 0x0, 0x1⟩, ⟨27, 1, .rw, 0x0, 0x0, 0x1⟩, ⟨26, 1, .rw, 0x0, 0x0, 0x1⟩]⟩,
  -- PRT_MAXFRM: MAXFRM
  ⟨0x100004, 0x10000, 7, 0x1000000, 1, true, 1, 0, [⟨0, 14, .rw, 0x5F2, 0x40, 0x2580⟩]⟩,
  -- PRT_P_FC: RXPAUSE, RXPFC, TXPAUSE, TXPFC, TXPRI, QUANTA
  ⟨0x100008, 0x10000, 4, 0x1000000, 1, true, 1, 0, [⟨31, 1, .rw, 0x1, 0x0, 0x1⟩, ⟨30, 1, .rw, 0x1, 0x0, 0x1⟩, ⟨29, 1, .rw, 0x0, 0x0, 0x1⟩, ⟨28, 1, .rw, 0x0, 0x0, 0x1⟩, ⟨16, 8, .rw, 0x7F, 0x0, 0xFF⟩, ⟨0, 16, .rw, 0xFFFF, 0x1, 0xFFFF⟩]⟩,
  -- PRT_P_FCTH: XOFF, XON
  ⟨0x10000C, 0x10000, 4, 0x1000000, 1, true, 1, 0, [⟨16, 9, .rw, 0x140, 0x1, 0x1C0⟩, ⟨0, 9, .rw, 0x100, 0x0, 0x1FF⟩]⟩,
  -- PRT_P_PCPMAP: UNTAG, MAP
  ⟨0x100010, 0x10000, 4, 0x1000000, 1, true, 1, 0, [⟨24, 3, .rw, 0x0, 0x0, 0x7⟩, ⟨0, 24, .rw, 0xFAC688, 0x0, 0xFFFFFF⟩]⟩,
  -- PRT_F_PLCA0: NODEID, NCOUNT, TOTMR
  ⟨0x140008, 0x10000, 2, 0x1000000, 1, true, 1, 0, [⟨24, 8, .rw, 0xFF, 0x0, 0xFF⟩, ⟨16, 8, .rw, 0x8, 0x1, 0xFF⟩, ⟨8, 8, .rw, 0x20, 0x1, 0xFF⟩]⟩,
  -- PRT_F_PLCA1: MAXBC, BTMR, BTO
  ⟨0x14000C, 0x10000, 2, 0x1000000, 1, true, 1, 0, [⟨24, 8, .rw, 0x0, 0x0, 0xFF⟩, ⟨16, 8, .rw, 0x80, 0x0, 0xFF⟩, ⟨0, 10, .rw, 0x64, 0x1, 0x3E8⟩]⟩,
  -- PRT_P_STAT: LINK, LF, RF, TRAINED, SIGDET, FECLOCK
  ⟨0x100014, 0x10000, 4, 0x1000000, 1, false, 1, 0, [⟨31, 1, .ro, 0x0, 0x0, 0x1⟩, ⟨30, 1, .ro, 0x0, 0x0, 0x1⟩, ⟨29, 1, .ro, 0x0, 0x0, 0x1⟩, ⟨28, 1, .ro, 0x0, 0x0, 0x1⟩, ⟨24, 4, .ro, 0x0, 0x0, 0xF⟩, ⟨23, 1, .ro, 0x0, 0x0, 0x1⟩]⟩,
  -- PRT_F_STAT: PLCAOK, COORD, CLKOK
  ⟨0x140014, 0x10000, 2, 0x1000000, 1, false, 1, 0, [⟨31, 1, .ro, 0x0, 0x0, 0x1⟩, ⟨30, 1, .ro, 0x0, 0x0, 0x1⟩, ⟨29, 1, .ro, 0x0, 0x0, 0x1⟩]⟩,
  -- PRT_MGT_STAT: LINK, ANDONE, PHYSPEED, SPDREJ
  ⟨0x160014, 0x1000000, 1, 0x1000000, 1, false, 1, 0, [⟨31, 1, .ro, 0x0, 0x0, 0x1⟩, ⟨30, 1, .ro, 0x0, 0x0, 0x1⟩, ⟨28, 2, .ro, 0x0, 0x0, 0x3⟩, ⟨27, 1, .ro, 0x0, 0x0, 0x1⟩]⟩,
  -- PRT_P_PAUSE_STAT: TXPAUSE, TXPFC, PAUSED
  ⟨0x100018, 0x10000, 4, 0x1000000, 1, false, 1, 0, [⟨16, 1, .ro, 0x0, 0x0, 0x1⟩, ⟨8, 8, .ro, 0x0, 0x0, 0xFF⟩, ⟨0, 8, .ro, 0x0, 0x0, 0xFF⟩]⟩,
  -- PRT_IRQ_STAT: BEACONLOST, ABANDON, FECUNC, PAUSE, LINKUP, LINKDOWN
  ⟨0x10001C, 0x10000, 7, 0x1000000, 1, false, 1, 0, [⟨5, 1, .w1c, 0x0, 0x0, 0x1⟩, ⟨4, 1, .w1c, 0x0, 0x0, 0x1⟩, ⟨3, 1, .w1c, 0x0, 0x0, 0x1⟩, ⟨2, 1, .w1c, 0x0, 0x0, 0x1⟩, ⟨1, 1, .w1c, 0x0, 0x0, 0x1⟩, ⟨0, 1, .w1c, 0x0, 0x0, 0x1⟩]⟩,
  -- PRT_IRQ_EN: BEACONLOST, ABANDON, FECUNC, PAUSE, LINKUP, LINKDOWN
  ⟨0x100020, 0x10000, 7, 0x1000000, 1, false, 1, 0, [⟨5, 1, .rw, 0x0, 0x0, 0x1⟩, ⟨4, 1, .rw, 0x0, 0x0, 0x1⟩, ⟨3, 1, .rw, 0x0, 0x0, 0x1⟩, ⟨2, 1, .rw, 0x0, 0x0, 0x1⟩, ⟨1, 1, .rw, 0x0, 0x0, 0x1⟩, ⟨0, 1, .rw, 0x0, 0x0, 0x1⟩]⟩,
  -- PRT_CNTCLR: CLR
  ⟨0x100024, 0x10000, 7, 0x1000000, 1, false, 1, 0, [⟨0, 1, .wo, 0x0, 0x0, 0x1⟩]⟩,
  -- PRT_CNT_W0: COUNT
  ⟨0x100100, 0x10000, 7, 0x8, 23, false, 2, 0, [⟨0, 32, .ro, 0x0, 0x0, 0xFFFFFFFF⟩]⟩,
  -- PRT_CNT_W1: COUNT
  ⟨0x100104, 0x10000, 7, 0x8, 23, false, 2, 1, [⟨0, 32, .ro, 0x0, 0x0, 0xFFFFFFFF⟩]⟩,
  -- PRT_PAIR_CFG: EN, PRIM, REVERT, HOLD, WTR
  ⟨0x170000, 0x8, 2, 0x1000000, 1, true, 1, 0, [⟨31, 1, .rw, 0x0, 0x0, 0x1⟩, ⟨30, 1, .rw, 0x0, 0x0, 0x1⟩, ⟨29, 1, .rw, 0x0, 0x0, 0x1⟩, ⟨20, 4, .rw, 0x5, 0x0, 0xA⟩, ⟨0, 12, .rw, 0x12C, 0x1, 0xE10⟩]⟩,
  -- PRT_PAIR_STAT: ACTIVE, BOTHDOWN, SWITCHES
  ⟨0x170004, 0x8, 2, 0x1000000, 1, false, 1, 0, [⟨31, 1, .ro, 0x0, 0x0, 0x1⟩, ⟨30, 1, .ro, 0x0, 0x0, 0x1⟩, ⟨0, 16, .rc, 0x0, 0x0, 0xFFFF⟩]⟩]

/-- Registers of block PRT, part 1. -/
def rowsPRT1 : List RegRow := [
  -- PRT_MDIO_CTL: DIV
  ⟨0x170020, 0x1000000, 1, 0x1000000, 1, true, 1, 0, [⟨0, 8, .rw, 0x13, 0x4, 0xFF⟩]⟩,
  -- PRT_MDIO_CMD: BUSY, GO, CL45, OP, PHYAD, REGAD, DATA
  ⟨0x170024, 0x1000000, 1, 0x1000000, 1, false, 1, 0, [⟨31, 1, .ro, 0x0, 0x0, 0x1⟩, ⟨30, 1, .wo, 0x0, 0x0, 0x1⟩, ⟨29, 1, .rw, 0x0, 0x0, 0x1⟩, ⟨27, 2, .rw, 0x0, 0x0, 0x3⟩, ⟨22, 5, .rw, 0x0, 0x0, 0x1F⟩, ⟨17, 5, .rw, 0x0, 0x0, 0x1F⟩, ⟨0, 16, .rw, 0x0, 0x0, 0xFFFF⟩]⟩,
  -- PRT_WAKE_CFG: PINEN, MAGICEN, MAGICPORTS, PATEN
  ⟨0x170040, 0x1000000, 1, 0x1000000, 1, true, 1, 0, [⟨31, 1, .rw, 0x1, 0x0, 0x1⟩, ⟨30, 1, .rw, 0x0, 0x0, 0x1⟩, ⟨24, 3, .rw, 0x0, 0x0, 0x7⟩, ⟨16, 8, .rw, 0x0, 0x0, 0xFF⟩]⟩,
  -- PRT_WAKE_MAC_W0: MAC
  ⟨0x170044, 0x1000000, 1, 0x1000000, 1, true, 2, 0, [⟨0, 32, .rw, 0x0, 0x0, 0xFFFFFFFF⟩]⟩,
  -- PRT_WAKE_MAC_W1: MAC
  ⟨0x170048, 0x1000000, 1, 0x1000000, 1, true, 2, 1, [⟨0, 16, .rw, 0x0, 0x0, 0xFFFF⟩]⟩,
  -- PRT_WAKE_STAT: SRC, PORT, PATTERN
  ⟨0x17004C, 0x1000000, 1, 0x1000000, 1, false, 1, 0, [⟨30, 2, .rc, 0x0, 0x0, 0x3⟩, ⟨28, 2, .rc, 0x0, 0x0, 0x3⟩, ⟨24, 3, .rc, 0x0, 0x0, 0x7⟩]⟩,
  -- PRT_WAKEP_DATA: WORD
  ⟨0x170100, 0x100, 8, 0x4, 32, true, 1, 0, [⟨0, 32, .rw, 0x0, 0x0, 0xFFFFFFFF⟩]⟩,
  -- PRT_WAKEP_MASK: WORD
  ⟨0x170180, 0x100, 8, 0x4, 4, true, 1, 0, [⟨0, 32, .rw, 0x0, 0x0, 0xFFFFFFFF⟩]⟩,
  -- PRT_WAKEP_CTL: PORTS
  ⟨0x170190, 0x100, 8, 0x1000000, 1, true, 1, 0, [⟨0, 3, .rw, 0x0, 0x0, 0x7⟩]⟩]

/-- Registers of block STK, part 0. -/
def rowsSTK0 : List RegRow := [
  -- STK_CFG: LASTSEL, PLANE
  ⟨0x180000, 0x1000, 7, 0x1000000, 1, true, 1, 0, [⟨8, 1, .rw, 0x0, 0x0, 0x1⟩, ⟨0, 1, .rw, 0x0, 0x0, 0x1⟩]⟩,
  -- STK_STAT: ALIGNED, SPEED, QLEVEL
  ⟨0x180004, 0x1000, 7, 0x1000000, 1, false, 1, 0, [⟨31, 1, .ro, 0x0, 0x0, 0x1⟩, ⟨16, 3, .ro, 0x0, 0x0, 0x7⟩, ⟨0, 7, .ro, 0x0, 0x0, 0x7F⟩]⟩,
  -- STK_IRQ_STAT: FRZDROP, CALDONE, TSLOST
  ⟨0x180008, 0x1000, 7, 0x1000000, 1, false, 1, 0, [⟨2, 1, .w1c, 0x0, 0x0, 0x1⟩, ⟨1, 1, .w1c, 0x0, 0x0, 0x1⟩, ⟨0, 1, .w1c, 0x0, 0x0, 0x1⟩]⟩,
  -- STK_IRQ_EN: FRZDROP, CALDONE, TSLOST
  ⟨0x18000C, 0x1000, 7, 0x1000000, 1, false, 1, 0, [⟨2, 1, .rw, 0x0, 0x0, 0x1⟩, ⟨1, 1, .rw, 0x0, 0x0, 0x1⟩, ⟨0, 1, .rw, 0x0, 0x0, 0x1⟩]⟩,
  -- STK_TRIM: TRIMRX, TRIMTX
  ⟨0x180010, 0x1000, 7, 0x1000000, 1, true, 1, 0, [⟨16, 16, .rw, 0x0, 0x0, 0xFFFF⟩, ⟨0, 16, .rw, 0x0, 0x0, 0xFFFF⟩]⟩,
  -- STK_BRD: BRDRX, BRDTX
  ⟨0x180014, 0x1000, 4, 0x1000000, 1, true, 1, 0, [⟨16, 16, .rw, 0x0, 0x0, 0xFFFF⟩, ⟨0, 16, .rw, 0x0, 0x0, 0xFFFF⟩]⟩,
  -- STK_BRD: 
  ⟨0x184014, 0x1000, 2, 0x1000000, 1, true, 1, 0, []⟩,
  -- STK_BRD: BRDRX, BRDTX
  ⟨0x186014, 0x1000, 1, 0x1000000, 1, true, 1, 0, [⟨16, 16, .rw, 0x0, 0x0, 0xFFFF⟩, ⟨0, 16, .rw, 0x0, 0x0, 0xFFFF⟩]⟩,
  -- STK_PHYRX: DELAY
  ⟨0x184018, 0x1000, 2, 0x1000000, 1, true, 1, 0, [⟨0, 24, .rw, 0x0, 0x0, 0x989680⟩]⟩,
  -- STK_PHYRX: 
  ⟨0x180018, 0x1000, 4, 0x1000000, 1, true, 1, 0, []⟩,
  -- STK_PHYRX: 
  ⟨0x186018, 0x1000, 1, 0x1000000, 1, true, 1, 0, []⟩,
  -- STK_PHYTX: DELAY
  ⟨0x18401C, 0x1000, 2, 0x1000000, 1, true, 1, 0, [⟨0, 24, .rw, 0x0, 0x0, 0x989680⟩]⟩,
  -- STK_PHYTX: 
  ⟨0x18001C, 0x1000, 4, 0x1000000, 1, true, 1, 0, []⟩,
  -- STK_PHYTX: 
  ⟨0x18601C, 0x1000, 1, 0x1000000, 1, true, 1, 0, []⟩,
  -- STK_ASYM: ASYM
  ⟨0x180020, 0x1000, 7, 0x1000000, 1, true, 1, 0, [⟨0, 32, .rw, 0x0, 0x0, 0xFFFFFFFF⟩]⟩,
  -- STK_LATRX: LAT
  ⟨0x180024, 0x1000, 7, 0x1000000, 1, false, 1, 0, [⟨0, 32, .ro, 0x0, 0x0, 0xFFFFFFFF⟩]⟩,
  -- STK_LATTX: LAT
  ⟨0x180028, 0x1000, 7, 0x1000000, 1, false, 1, 0, [⟨0, 32, .ro, 0x0, 0x0, 0xFFFFFFFF⟩]⟩,
  -- STK_CAL: RES, FAIL, BUSY, START
  ⟨0x18002C, 0x1000, 4, 0x1000000, 1, false, 1, 0, [⟨16, 16, .ro, 0x0, 0x0, 0xFFFF⟩, ⟨2, 1, .ro, 0x0, 0x0, 0x1⟩, ⟨1, 1, .ro, 0x0, 0x0, 0x1⟩, ⟨0, 1, .wo, 0x0, 0x0, 0x1⟩]⟩,
  -- STK_CAL: 
  ⟨0x18402C, 0x1000, 2, 0x1000000, 1, false, 1, 0, []⟩,
  -- STK_CAL: RES, FAIL, BUSY, START
  ⟨0x18602C, 0x1000, 1, 0x1000000, 1, false, 1, 0, [⟨16, 16, .ro, 0x0, 0x0, 0xFFFF⟩, ⟨2, 1, .ro, 0x0, 0x0, 0x1⟩, ⟨1, 1, .ro, 0x0, 0x0, 0x1⟩, ⟨0, 1, .wo, 0x0, 0x0, 0x1⟩]⟩]

/-- Registers of block STK, part 1. -/
def rowsSTK1 : List RegRow := [
  -- STK_TSLOST_CNT: COUNT
  ⟨0x180030, 0x1000, 7, 0x1000000, 1, false, 1, 0, [⟨0, 32, .rc, 0x0, 0x0, 0xFFFFFFFF⟩]⟩,
  -- STK_FRZDROP_CNT: COUNT
  ⟨0x180034, 0x1000, 7, 0x1000000, 1, false, 1, 0, [⟨0, 32, .rc, 0x0, 0x0, 0xFFFFFFFF⟩]⟩,
  -- STK_LASTRX_W0: FRAC
  ⟨0x180040, 0x1000, 7, 0x1000000, 1, false, 4, 0, [⟨0, 16, .ro, 0x0, 0x0, 0xFFFF⟩]⟩,
  -- STK_LASTRX_W1: NS
  ⟨0x180044, 0x1000, 7, 0x1000000, 1, false, 4, 1, [⟨0, 30, .ro, 0x0, 0x0, 0x3FFFFFFF⟩]⟩,
  -- STK_LASTRX_W2: SECLO
  ⟨0x180048, 0x1000, 7, 0x1000000, 1, false, 4, 2, [⟨0, 32, .ro, 0x0, 0x0, 0xFFFFFFFF⟩]⟩,
  -- STK_LASTRX_W3: SECHI
  ⟨0x18004C, 0x1000, 7, 0x1000000, 1, false, 4, 3, [⟨0, 16, .ro, 0x0, 0x0, 0xFFFF⟩]⟩,
  -- STK_LASTTX_W0: FRAC
  ⟨0x180050, 0x1000, 7, 0x1000000, 1, false, 4, 0, [⟨0, 16, .ro, 0x0, 0x0, 0xFFFF⟩]⟩,
  -- STK_LASTTX_W1: NS
  ⟨0x180054, 0x1000, 7, 0x1000000, 1, false, 4, 1, [⟨0, 30, .ro, 0x0, 0x0, 0x3FFFFFFF⟩]⟩,
  -- STK_LASTTX_W2: SECLO
  ⟨0x180058, 0x1000, 7, 0x1000000, 1, false, 4, 2, [⟨0, 32, .ro, 0x0, 0x0, 0xFFFFFFFF⟩]⟩,
  -- STK_LASTTX_W3: SECHI
  ⟨0x18005C, 0x1000, 7, 0x1000000, 1, false, 4, 3, [⟨0, 16, .ro, 0x0, 0x0, 0xFFFF⟩]⟩]

/-- Registers of block SVP, part 0. -/
def rowsSVP0 : List RegRow := [
  -- SVP_CFG: HOPLIM, PTPEN, NTPEN, IXEN, SURVEYANS, OOS16, ICMPEN
  ⟨0x200000, 0x1000000, 1, 0x1000000, 1, true, 1, 0, [⟨24, 8, .rw, 0x40, 0x1, 0xFF⟩, ⟨6, 1, .rw, 0x0, 0x0, 0x1⟩, ⟨5, 1, .rw, 0x0, 0x0, 0x1⟩, ⟨4, 1, .rw, 0x1, 0x0, 0x1⟩, ⟨3, 1, .rw, 0x0, 0x0, 0x1⟩, ⟨2, 1, .rw, 0x0, 0x0, 0x1⟩, ⟨1, 1, .rw, 0x0, 0x0, 0x1⟩]⟩,
  -- SVP_NTP_CFG: OTHSTRAT, DISP0
  ⟨0x200004, 0x1000000, 1, 0x1000000, 1, true, 1, 0, [⟨24, 8, .rw, 0x1, 0x1, 0xF⟩, ⟨0, 16, .rw, 0x1, 0x0, 0xFFFF⟩]⟩,
  -- SVP_KOD_CFG: BUDGET, MINPOLL, RSTRKOD
  ⟨0x200008, 0x1000000, 1, 0x1000000, 1, true, 1, 0, [⟨16, 16, .rw, 0x3E8, 0x1, 0xFFFF⟩, ⟨8, 5, .rw, 0xA, 0x4, 0x11⟩, ⟨0, 1, .rw, 0x1, 0x0, 0x1⟩]⟩,
  -- SVP_CT_CFG: V6PLEN, V4PLEN
  ⟨0x20000C, 0x1000000, 1, 0x1000000, 1, true, 1, 0, [⟨8, 8, .rw, 0x40, 0x30, 0x80⟩, ⟨0, 8, .rw, 0x20, 0x10, 0x20⟩]⟩,
  -- SVP_PTP_CFG: PRIO1, PRIO2, DOMAIN, PROFILE
  ⟨0x200010, 0x1000000, 1, 0x1000000, 1, true, 1, 0, [⟨24, 8, .rw, 0x80, 0x0, 0xFF⟩, ⟨16, 8, .rw, 0x80, 0x0, 0xFF⟩, ⟨8, 8, .rw, 0x0, 0x0, 0xFF⟩, ⟨4, 2, .rw, 0x0, 0x0, 0x2⟩]⟩,
  -- SVP_PTP_GRANT: MAXDUR, MINDUR, SYNCLOG, ANNLOG
  ⟨0x200014, 0x1000000, 1, 0x1000000, 1, true, 1, 0, [⟨22, 10, .rw, 0x12C, 0xA, 0x3E8⟩, ⟨12, 10, .rw, 0xA, 0x0, 0x3FF⟩, ⟨4, 4, .rw, 0x9, 0x0, 0xF⟩, ⟨0, 4, .rw, 0xD, 0x0, 0xF⟩]⟩,
  -- SVP_GRANT_STAT: CLIENTS
  ⟨0x200018, 0x1000000, 1, 0x1000000, 1, false, 1, 0, [⟨0, 19, .ro, 0x0, 0x0, 0x7FFFF⟩]⟩,
  -- SVP_GRANT_DENY_CNT: COUNT
  ⟨0x20001C, 0x1000000, 1, 0x1000000, 1, false, 1, 0, [⟨0, 32, .rc, 0x0, 0x0, 0xFFFFFFFF⟩]⟩,
  -- SVP_RLC: ACTION, BURST, RATE
  ⟨0x200100, 0x4, 16, 0x1000000, 1, true, 1, 0, [⟨27, 1, .rw, 0x1, 0x0, 0x1⟩, ⟨16, 11, .rw, 0x10, 0x1, 0x400⟩, ⟨0, 11, .rw, 0x10, 0x1, 0x400⟩]⟩,
  -- SVP_HOSTMAP: SPREAD, BASE
  ⟨0x200200, 0x4, 1, 0x1000000, 1, true, 1, 0, [⟨6, 2, .rw, 0x2, 0x0, 0x3⟩, ⟨0, 4, .rw, 0x0, 0x0, 0xF⟩]⟩,
  -- SVP_HOSTMAP: SPREAD, BASE
  ⟨0x200204, 0x4, 1, 0x1000000, 1, true, 1, 0, [⟨6, 2, .rw, 0x2, 0x0, 0x3⟩, ⟨0, 4, .rw, 0x4, 0x0, 0xF⟩]⟩,
  -- SVP_HOSTMAP: SPREAD, BASE
  ⟨0x200208, 0x4, 1, 0x1000000, 1, true, 1, 0, [⟨6, 2, .rw, 0x2, 0x0, 0x3⟩, ⟨0, 4, .rw, 0x8, 0x0, 0xF⟩]⟩,
  -- SVP_HOSTMAP: SPREAD, BASE
  ⟨0x20020C, 0x4, 1, 0x1000000, 1, true, 1, 0, [⟨6, 2, .rw, 0x1, 0x0, 0x3⟩, ⟨0, 4, .rw, 0xC, 0x0, 0xF⟩]⟩,
  -- SVP_HOSTMAP: SPREAD, BASE
  ⟨0x200210, 0x4, 2, 0x1000000, 1, true, 1, 0, [⟨6, 2, .rw, 0x0, 0x0, 0x3⟩, ⟨0, 4, .rw, 0xE, 0x0, 0xF⟩]⟩,
  -- SVP_HOSTMAP: SPREAD, BASE
  ⟨0x200218, 0x4, 1, 0x1000000, 1, true, 1, 0, [⟨6, 2, .rw, 0x0, 0x0, 0x3⟩, ⟨0, 4, .rw, 0xF, 0x0, 0xF⟩]⟩,
  -- SVP_PL_STAT: QDEPTH
  ⟨0x200400, 0x10, 5, 0x1000000, 1, false, 1, 0, [⟨0, 13, .ro, 0x0, 0x0, 0x1FFF⟩]⟩,
  -- SVP_PL_CNTCLR: CLR
  ⟨0x200404, 0x10, 5, 0x1000000, 1, false, 1, 0, [⟨0, 1, .wo, 0x0, 0x0, 0x1⟩]⟩,
  -- SVP_ACL_ADDR_W0: ADDR
  ⟨0x201000, 0x20, 256, 0x1000000, 1, true, 4, 0, [⟨0, 32, .rw, 0x0, 0x0, 0xFFFFFFFF⟩]⟩,
  -- SVP_ACL_ADDR_W1: ADDR
  ⟨0x201004, 0x20, 256, 0x1000000, 1, true, 4, 1, [⟨0, 32, .rw, 0x0, 0x0, 0xFFFFFFFF⟩]⟩,
  -- SVP_ACL_ADDR_W2: ADDR
  ⟨0x201008, 0x20, 256, 0x1000000, 1, true, 4, 2, [⟨0, 32, .rw, 0x0, 0x0, 0xFFFFFFFF⟩]⟩]

/-- Registers of block SVP, part 1. -/
def rowsSVP1 : List RegRow := [
  -- SVP_ACL_ADDR_W3: ADDR
  ⟨0x20100C, 0x20, 256, 0x1000000, 1, true, 4, 3, [⟨0, 32, .rw, 0x0, 0x0, 0xFFFFFFFF⟩]⟩,
  -- SVP_ACL_CTL: EN, V6, ACTION, CLASS, PLEN
  ⟨0x201010, 0x20, 256, 0x1000000, 1, true, 1, 0, [⟨31, 1, .rw, 0x0, 0x0, 0x1⟩, ⟨30, 1, .rw, 0x0, 0x0, 0x1⟩, ⟨28, 2, .rw, 0x0, 0x0, 0x3⟩, ⟨16, 4, .rw, 0x0, 0x0, 0xF⟩, ⟨0, 8, .rw, 0x0, 0x0, 0xFF⟩]⟩,
  -- SVP_SA_ADDR_W0: ADDR
  ⟨0x204000, 0x20, 272, 0x1000000, 1, true, 4, 0, [⟨0, 32, .rw, 0x0, 0x0, 0xFFFFFFFF⟩]⟩,
  -- SVP_SA_ADDR_W1: ADDR
  ⟨0x204004, 0x20, 272, 0x1000000, 1, true, 4, 1, [⟨0, 32, .rw, 0x0, 0x0, 0xFFFFFFFF⟩]⟩,
  -- SVP_SA_ADDR_W2: ADDR
  ⟨0x204008, 0x20, 272, 0x1000000, 1, true, 4, 2, [⟨0, 32, .rw, 0x0, 0x0, 0xFFFFFFFF⟩]⟩,
  -- SVP_SA_ADDR_W3: ADDR
  ⟨0x20400C, 0x20, 272, 0x1000000, 1, true, 4, 3, [⟨0, 32, .rw, 0x0, 0x0, 0xFFFFFFFF⟩]⟩,
  -- SVP_SA_MAC_W0: MAC
  ⟨0x204010, 0x20, 272, 0x1000000, 1, true, 2, 0, [⟨0, 32, .rw, 0x0, 0x0, 0xFFFFFFFF⟩]⟩,
  -- SVP_SA_MAC_W1: MAC, VID
  ⟨0x204014, 0x20, 272, 0x1000000, 1, true, 2, 1, [⟨0, 16, .rw, 0x0, 0x0, 0xFFFF⟩, ⟨16, 12, .rw, 0x0, 0x0, 0xFFE⟩]⟩,
  -- SVP_SA_CTL: EN, V6, PORT, NTSREQ, PTP, NTS, NTP
  ⟨0x204018, 0x20, 272, 0x1000000, 1, true, 1, 0, [⟨31, 1, .rw, 0x0, 0x0, 0x1⟩, ⟨30, 1, .rw, 0x0, 0x0, 0x1⟩, ⟨27, 3, .rw, 0x0, 0x0, 0x7⟩, ⟨3, 1, .rw, 0x0, 0x0, 0x1⟩, ⟨2, 1, .rw, 0x0, 0x0, 0x1⟩, ⟨1, 1, .rw, 0x0, 0x0, 0x1⟩, ⟨0, 1, .rw, 0x0, 0x0, 0x1⟩]⟩,
  -- SVP_PL_CNT_W0: COUNT
  ⟨0x208000, 0x100, 5, 0x8, 32, false, 2, 0, [⟨0, 32, .ro, 0x0, 0x0, 0xFFFFFFFF⟩]⟩,
  -- SVP_PL_CNT_W1: COUNT
  ⟨0x208004, 0x100, 5, 0x8, 32, false, 2, 1, [⟨0, 32, .ro, 0x0, 0x0, 0xFFFFFFFF⟩]⟩]

/-- Registers of block SKO, part 0. -/
def rowsSKO0 : List RegRow := [
  -- SKO_CTL: DEVFBK, PORTEN
  ⟨0x280000, 0x1000000, 1, 0x1000000, 1, true, 1, 0, [⟨8, 1, .rw, 0x1, 0x0, 0x1⟩, ⟨0, 4, .rw, 0xF, 0x0, 0xF⟩]⟩,
  -- SKO_IRQ_STAT: PAUSED, LATE, NOTICKET, DEV
  ⟨0x280004, 0x1000000, 1, 0x1000000, 1, false, 1, 0, [⟨12, 4, .w1c, 0x0, 0x0, 0xF⟩, ⟨8, 4, .w1c, 0x0, 0x0, 0xF⟩, ⟨4, 4, .w1c, 0x0, 0x0, 0xF⟩, ⟨0, 4, .w1c, 0x0, 0x0, 0xF⟩]⟩,
  -- SKO_IRQ_EN: PAUSED, LATE, NOTICKET, DEV
  ⟨0x280008, 0x1000000, 1, 0x1000000, 1, false, 1, 0, [⟨12, 4, .rw, 0x0, 0x0, 0xF⟩, ⟨8, 4, .rw, 0x0, 0x0, 0xF⟩, ⟨4, 4, .rw, 0x0, 0x0, 0xF⟩, ⟨0, 4, .rw, 0x0, 0x0, 0xF⟩]⟩,
  -- SKO_P_LAT0: NTS, NTP
  ⟨0x280100, 0x100, 4, 0x1000000, 1, true, 1, 0, [⟨16, 16, .rw, 0x1770, 0x7D0, 0x4E20⟩, ⟨0, 16, .rw, 0xFA0, 0x7D0, 0x4E20⟩]⟩,
  -- SKO_P_LAT1: LATETOL, PTP
  ⟨0x280104, 0x100, 4, 0x1000000, 1, true, 1, 0, [⟨16, 16, .rw, 0x0, 0x0, 0x4E20⟩, ⟨0, 16, .rw, 0xBB8, 0x7D0, 0x4E20⟩]⟩,
  -- SKO_P_CFG: PAUSEHON, PFCEXEMPT, TC
  ⟨0x280108, 0x100, 4, 0x1000000, 1, true, 1, 0, [⟨5, 1, .rw, 0x0, 0x0, 0x1⟩, ⟨4, 1, .rw, 0x1, 0x0, 0x1⟩, ⟨0, 3, .rw, 0x7, 0x0, 0x7⟩]⟩,
  -- SKO_P_STAT: HWM, INUSE
  ⟨0x28010C, 0x100, 4, 0x1000000, 1, false, 1, 0, [⟨16, 14, .rc, 0x0, 0x0, 0x3FFF⟩, ⟨0, 14, .ro, 0x0, 0x0, 0x3FFF⟩]⟩,
  -- SKO_P_PERIOD_W0: PERIOD
  ⟨0x280110, 0x100, 4, 0x1000000, 1, false, 2, 0, [⟨0, 32, .ro, 0x0, 0x0, 0xFFFFFFFF⟩]⟩,
  -- SKO_P_PERIOD_W1: PERIOD, VALID
  ⟨0x280114, 0x100, 4, 0x1000000, 1, false, 2, 1, [⟨0, 5, .ro, 0x0, 0x0, 0x1F⟩, ⟨31, 1, .ro, 0x0, 0x0, 0x1⟩]⟩,
  -- SKO_P_DEVMAX: DEV
  ⟨0x280118, 0x100, 4, 0x1000000, 1, false, 1, 0, [⟨0, 32, .rc, 0x0, 0x0, 0xFFFFFFFF⟩]⟩,
  -- SKO_P_CNTCLR: CLR
  ⟨0x28011C, 0x100, 4, 0x1000000, 1, false, 1, 0, [⟨0, 1, .wo, 0x0, 0x0, 0x1⟩]⟩,
  -- SKO_P_CNT_W0: COUNT
  ⟨0x280140, 0x100, 4, 0x8, 8, false, 2, 0, [⟨0, 32, .ro, 0x0, 0x0, 0xFFFFFFFF⟩]⟩,
  -- SKO_P_CNT_W1: COUNT
  ⟨0x280144, 0x100, 4, 0x8, 8, false, 2, 1, [⟨0, 32, .ro, 0x0, 0x0, 0xFFFFFFFF⟩]⟩]

/-- Registers of block CRL, part 0. -/
def rowsCRL0 : List RegRow := [
  -- CRL_NTS_CFG: ROOTSRC, ROOTSLOT, PERIOD
  ⟨0x300100, 0x1000000, 1, 0x1000000, 1, true, 1, 0, [⟨31, 1, .rw, 0x1, 0x0, 0x1⟩, ⟨16, 9, .rw, 0x0, 0x0, 0x1FF⟩, ⟨0, 8, .rw, 0x18, 0x1, 0xA8⟩]⟩,
  -- CRL_NTS_EPOCH: EPOCH
  ⟨0x300104, 0x1000000, 1, 0x1000000, 1, false, 1, 0, [⟨0, 32, .ro, 0x0, 0x0, 0xFFFFFFFF⟩]⟩,
  -- CRL_NTS_KCV_W0: KCV
  ⟨0x300108, 0x1000000, 1, 0x1000000, 1, false, 2, 0, [⟨0, 32, .ro, 0x0, 0x0, 0xFFFFFFFF⟩]⟩,
  -- CRL_NTS_KCV_W1: KCV
  ⟨0x30010C, 0x1000000, 1, 0x1000000, 1, false, 2, 1, [⟨0, 32, .ro, 0x0, 0x0, 0xFFFFFFFF⟩]⟩,
  -- CRL_NTS_STAT: ROOTOK, MISMATCH, NORNG, SIVBUSY
  ⟨0x300110, 0x1000000, 1, 0x1000000, 1, false, 1, 0, [⟨31, 1, .ro, 0x0, 0x0, 0x1⟩, ⟨30, 1, .ro, 0x0, 0x0, 0x1⟩, ⟨29, 1, .ro, 0x0, 0x0, 0x1⟩, ⟨0, 4, .ro, 0x0, 0x0, 0xF⟩]⟩,
  -- CRL_NTS_IRQ_STAT: NORNG, REKEY, MISMATCH, EPOCH
  ⟨0x300114, 0x1000000, 1, 0x1000000, 1, false, 1, 0, [⟨3, 1, .w1c, 0x0, 0x0, 0x1⟩, ⟨2, 1, .w1c, 0x0, 0x0, 0x1⟩, ⟨1, 1, .w1c, 0x0, 0x0, 0x1⟩, ⟨0, 1, .w1c, 0x0, 0x0, 0x1⟩]⟩,
  -- CRL_NTS_IRQ_EN: NORNG, REKEY, MISMATCH, EPOCH
  ⟨0x300118, 0x1000000, 1, 0x1000000, 1, false, 1, 0, [⟨3, 1, .rw, 0x0, 0x0, 0x1⟩, ⟨2, 1, .rw, 0x0, 0x0, 0x1⟩, ⟨1, 1, .rw, 0x0, 0x0, 0x1⟩, ⟨0, 1, .rw, 0x0, 0x0, 0x1⟩]⟩,
  -- CRL_NTS_CNTCLR: CLR
  ⟨0x30011C, 0x1000000, 1, 0x1000000, 1, false, 1, 0, [⟨0, 1, .wo, 0x0, 0x0, 0x1⟩]⟩,
  -- CRL_NTS_CNT_W0: COUNT
  ⟨0x300140, 0x8, 10, 0x1000000, 1, false, 2, 0, [⟨0, 32, .ro, 0x0, 0x0, 0xFFFFFFFF⟩]⟩,
  -- CRL_NTS_CNT_W1: COUNT
  ⟨0x300144, 0x8, 10, 0x1000000, 1, false, 2, 1, [⟨0, 32, .ro, 0x0, 0x0, 0xFFFFFFFF⟩]⟩]

/-- Registers of block SPU, part 0. -/
def rowsSPU0 : List RegRow := [
  -- SPU_KE_CFG: MAXSESS, TIMEOUT, SUITEPREF, AES256, AES128
  ⟨0x400200, 0x1000000, 1, 0x1000000, 1, true, 1, 0, [⟨16, 16, .rw, 0xFFFF, 0x1, 0xFFFF⟩, ⟨8, 8, .rw, 0xA, 0x2, 0x3C⟩, ⟨6, 1, .rw, 0x0, 0x0, 0x1⟩, ⟨5, 1, .rw, 0x1, 0x0, 0x1⟩, ⟨4, 1, .rw, 0x1, 0x0, 0x1⟩]⟩,
  -- SPU_KE_GRP: G2, G1, G0
  ⟨0x400204, 0x1000000, 1, 0x1000000, 1, true, 1, 0, [⟨4, 2, .rw, 0x3, 0x0, 0x3⟩, ⟨2, 2, .rw, 0x2, 0x0, 0x3⟩, ⟨0, 2, .rw, 0x1, 0x0, 0x3⟩]⟩,
  -- SPU_KE_SRV: SRVEN, SRVSA
  ⟨0x400208, 0x1000000, 1, 0x1000000, 1, true, 1, 0, [⟨31, 1, .rw, 0x0, 0x0, 0x1⟩, ⟨0, 9, .rw, 0x0, 0x0, 0x10F⟩]⟩,
  -- SPU_KE_CERT: EN, SCHEME, KEYSLOT
  ⟨0x400210, 0x4, 4, 0x1000000, 1, true, 1, 0, [⟨31, 1, .rw, 0x0, 0x0, 0x1⟩, ⟨24, 3, .rw, 0x0, 0x0, 0x3⟩, ⟨0, 9, .rw, 0x0, 0x0, 0x1FF⟩]⟩,
  -- SPU_KE_STAT: CERTOK, SESSIONS
  ⟨0x400220, 0x1000000, 1, 0x1000000, 1, false, 1, 0, [⟨24, 4, .ro, 0x0, 0x0, 0xF⟩, ⟨0, 17, .ro, 0x0, 0x0, 0x1FFFF⟩]⟩,
  -- SPU_KE_CNTCLR: CLR
  ⟨0x400224, 0x1000000, 1, 0x1000000, 1, false, 1, 0, [⟨0, 1, .wo, 0x0, 0x0, 0x1⟩]⟩,
  -- SPU_KE_CNT_W0: COUNT
  ⟨0x400240, 0x8, 8, 0x1000000, 1, false, 2, 0, [⟨0, 32, .ro, 0x0, 0x0, 0xFFFFFFFF⟩]⟩,
  -- SPU_KE_CNT_W1: COUNT
  ⟨0x400244, 0x8, 8, 0x1000000, 1, false, 2, 1, [⟨0, 32, .ro, 0x0, 0x0, 0xFFFFFFFF⟩]⟩]

/-- Registers of block PKE, part 0. -/
def rowsPKE0 : List RegRow := [
  -- PKE_CFG: HOSTCORES, HOSTRES, COREEN
  ⟨0x380000, 0x1000000, 1, 0x1000000, 1, true, 1, 0, [⟨24, 5, .rw, 0x4, 0x0, 0x10⟩, ⟨16, 5, .rw, 0x1, 0x0, 0x1F⟩, ⟨0, 16, .rw, 0xFFFF, 0x0, 0xFFFF⟩]⟩,
  -- PKE_STAT: HOST, BUSY
  ⟨0x380004, 0x1000000, 1, 0x1000000, 1, false, 1, 0, [⟨16, 16, .ro, 0x0, 0x0, 0xFFFF⟩, ⟨0, 16, .ro, 0x0, 0x0, 0xFFFF⟩]⟩,
  -- PKE_ISOL: ISOL
  ⟨0x380008, 0x1000000, 1, 0x1000000, 1, false, 1, 0, [⟨0, 16, .ro, 0x0, 0x0, 0xFFFF⟩]⟩,
  -- PKE_ABORT: RINGS
  ⟨0x38000C, 0x1000000, 1, 0x1000000, 1, false, 1, 0, [⟨0, 8, .wo, 0x0, 0x0, 0xFF⟩]⟩,
  -- PKE_IRQ_STAT: ISOL, RNG, ABORT
  ⟨0x380010, 0x1000000, 1, 0x1000000, 1, false, 1, 0, [⟨2, 1, .w1c, 0x0, 0x0, 0x1⟩, ⟨1, 1, .w1c, 0x0, 0x0, 0x1⟩, ⟨0, 1, .w1c, 0x0, 0x0, 0x1⟩]⟩,
  -- PKE_IRQ_EN: ISOL, RNG, ABORT
  ⟨0x380014, 0x1000000, 1, 0x1000000, 1, false, 1, 0, [⟨2, 1, .rw, 0x0, 0x0, 0x1⟩, ⟨1, 1, .rw, 0x0, 0x0, 0x1⟩, ⟨0, 1, .rw, 0x0, 0x0, 0x1⟩]⟩,
  -- PKE_CNTCLR: CLR
  ⟨0x380018, 0x1000000, 1, 0x1000000, 1, false, 1, 0, [⟨0, 1, .wo, 0x0, 0x0, 0x1⟩]⟩,
  -- PKE_CNT_W0: COUNT
  ⟨0x380040, 0x8, 6, 0x1000000, 1, false, 2, 0, [⟨0, 32, .ro, 0x0, 0x0, 0xFFFFFFFF⟩]⟩,
  -- PKE_CNT_W1: COUNT
  ⟨0x380044, 0x8, 6, 0x1000000, 1, false, 2, 1, [⟨0, 32, .ro, 0x0, 0x0, 0xFFFFFFFF⟩]⟩]

/-- Registers of block KST, part 0. -/
def rowsKST0 : List RegRow := [
  -- KST_STAT: ATTOK, PUFOK, USED
  ⟨0x3C0000, 0x1000000, 1, 0x1000000, 1, false, 1, 0, [⟨31, 1, .ro, 0x0, 0x0, 0x1⟩, ⟨30, 1, .ro, 0x0, 0x0, 0x1⟩, ⟨0, 10, .ro, 0x0, 0x0, 0x3FF⟩]⟩,
  -- KST_SLOT_INFO: ORIGIN, TYPE, USAGE, BITS
  ⟨0x3C1000, 0x4, 512, 0x1000000, 1, false, 1, 0, [⟨28, 2, .ro, 0x0, 0x0, 0x3⟩, ⟨24, 4, .ro, 0x0, 0x0, 0xF⟩, ⟨16, 4, .ro, 0x0, 0x0, 0xF⟩, ⟨0, 15, .ro, 0x0, 0x0, 0x7FFF⟩]⟩]

/-- Registers of block HMI, part 0. -/
def rowsHMI0 : List RegRow := [
  -- HMI_CFG: IRQPIN, MAXSPD, MAXW
  ⟨0x480000, 0x1000000, 1, 0x1000000, 1, true, 1, 0, [⟨31, 1, .rw, 0x1, 0x0, 0x1⟩, ⟨4, 2, .rw, 0x3, 0x0, 0x3⟩, ⟨0, 2, .rw, 0x2, 0x0, 0x2⟩]⟩,
  -- HMI_STAT: LINK, BME, MSIX, D3, SPEED, WIDTH
  ⟨0x480004, 0x1000000, 1, 0x1000000, 1, false, 1, 0, [⟨31, 1, .ro, 0x0, 0x0, 0x1⟩, ⟨30, 1, .ro, 0x0, 0x0, 0x1⟩, ⟨29, 1, .ro, 0x0, 0x0, 0x1⟩, ⟨28, 1, .ro, 0x0, 0x0, 0x1⟩, ⟨8, 4, .ro, 0x0, 0x0, 0xF⟩, ⟨0, 3, .ro, 0x0, 0x0, 0x7⟩]⟩,
  -- HMI_IRQ_PEND_W0: PEND
  ⟨0x480008, 0x1000000, 1, 0x1000000, 1, false, 2, 0, [⟨0, 32, .w1c, 0x0, 0x0, 0xFFFFFFFF⟩]⟩,
  -- HMI_IRQ_PEND_W1: PEND
  ⟨0x48000C, 0x1000000, 1, 0x1000000, 1, false, 2, 1, [⟨0, 32, .w1c, 0x0, 0x0, 0xFFFFFFFF⟩]⟩,
  -- HMI_MEM_STAT: TRAINED, SELFREF
  ⟨0x480010, 0x1000000, 1, 0x1000000, 1, false, 1, 0, [⟨31, 1, .ro, 0x0, 0x0, 0x1⟩, ⟨30, 1, .ro, 0x0, 0x0, 0x1⟩]⟩,
  -- HMI_RST_CNT: COUNT
  ⟨0x480014, 0x1000000, 1, 0x1000000, 1, false, 1, 0, [⟨0, 32, .rc, 0x0, 0x0, 0xFFFFFFFF⟩]⟩,
  -- HMI_R_BASE_W0: BASE
  ⟨0x481000, 0x40, 48, 0x1000000, 1, false, 2, 0, [⟨12, 20, .rw, 0x0, 0x0, 0xFFFFF⟩]⟩,
  -- HMI_R_BASE_W1: BASE
  ⟨0x481004, 0x40, 48, 0x1000000, 1, false, 2, 1, [⟨0, 32, .rw, 0x0, 0x0, 0xFFFFFFFF⟩]⟩,
  -- HMI_R_WB_W0: WB
  ⟨0x481008, 0x40, 48, 0x1000000, 1, false, 2, 0, [⟨3, 29, .rw, 0x0, 0x0, 0x1FFFFFFF⟩]⟩,
  -- HMI_R_WB_W1: WB
  ⟨0x48100C, 0x40, 48, 0x1000000, 1, false, 2, 1, [⟨0, 32, .rw, 0x0, 0x0, 0xFFFFFFFF⟩]⟩,
  -- HMI_R_CFG: EN, SIZE, BUFSZ
  ⟨0x481010, 0x40, 48, 0x1000000, 1, false, 1, 0, [⟨31, 1, .rw, 0x0, 0x0, 0x1⟩, ⟨24, 5, .rw, 0x6, 0x6, 0x10⟩, ⟨8, 9, .rw, 0x8, 0x1, 0x100⟩]⟩,
  -- HMI_R_TAIL: TAIL
  ⟨0x481014, 0x40, 48, 0x1000000, 1, false, 1, 0, [⟨0, 16, .rw, 0x0, 0x0, 0xFFFF⟩]⟩,
  -- HMI_R_HEAD: HEAD
  ⟨0x481018, 0x40, 48, 0x1000000, 1, false, 1, 0, [⟨0, 16, .ro, 0x0, 0x0, 0xFFFF⟩]⟩,
  -- HMI_R_IRQ: EN, TMR, CNT, VEC
  ⟨0x48101C, 0x40, 48, 0x1000000, 1, false, 1, 0, [⟨31, 1, .rw, 0x0, 0x0, 0x1⟩, ⟨16, 10, .rw, 0x14, 0x0, 0x3FF⟩, ⟨8, 8, .rw, 0x1, 0x1, 0xFF⟩, ⟨0, 5, .rw, 0x0, 0x0, 0x1F⟩]⟩,
  -- HMI_R_LIM: MAXFRM, WAIT
  ⟨0x481020, 0x40, 48, 0x1000000, 1, false, 1, 0, [⟨18, 14, .rw, 0x2580, 0x40, 0x2580⟩, ⟨0, 14, .rw, 0x0, 0x0, 0x2710⟩]⟩,
  -- HMI_R_COAL: COALESCE
  ⟨0x481024, 0x40, 48, 0x1000000, 1, false, 1, 0, [⟨0, 16, .rw, 0x64, 0x1, 0xFFFF⟩]⟩,
  -- HMI_R_STAT: ACTIVE, CFGERR, TAILERR, INVALID, CLAMP
  ⟨0x481028, 0x40, 48, 0x1000000, 1, false, 1, 0, [⟨31, 1, .ro, 0x0, 0x0, 0x1⟩, ⟨3, 1, .w1c, 0x0, 0x0, 0x1⟩, ⟨2, 1, .w1c, 0x0, 0x0, 0x1⟩, ⟨1, 1, .w1c, 0x0, 0x0, 0x1⟩, ⟨0, 1, .w1c, 0x0, 0x0, 0x1⟩]⟩,
  -- HMI_R_DROP_CNT: COUNT
  ⟨0x48102C, 0x40, 48, 0x1000000, 1, false, 1, 0, [⟨0, 32, .rc, 0x0, 0x0, 0xFFFFFFFF⟩]⟩,
  -- HMI_R_OVS_CNT: COUNT
  ⟨0x481030, 0x40, 48, 0x1000000, 1, false, 1, 0, [⟨0, 32, .rc, 0x0, 0x0, 0xFFFFFFFF⟩]⟩,
  -- HMI_R_BASE_W0: BASE
  ⟨0x481E00, 0x40, 8, 0x1000000, 1, false, 2, 0, [⟨12, 20, .rw, 0x0, 0x0, 0xFFFFF⟩]⟩]

/-- Registers of block HMI, part 1. -/
def rowsHMI1 : List RegRow := [
  -- HMI_R_BASE_W1: BASE
  ⟨0x481E04, 0x40, 8, 0x1000000, 1, false, 2, 1, [⟨0, 32, .rw, 0x0, 0x0, 0xFFFFFFFF⟩]⟩,
  -- HMI_R_WB_W0: WB
  ⟨0x481E08, 0x40, 8, 0x1000000, 1, false, 2, 0, [⟨3, 29, .rw, 0x0, 0x0, 0x1FFFFFFF⟩]⟩,
  -- HMI_R_WB_W1: WB
  ⟨0x481E0C, 0x40, 8, 0x1000000, 1, false, 2, 1, [⟨0, 32, .rw, 0x0, 0x0, 0xFFFFFFFF⟩]⟩,
  -- HMI_R_CFG: EN, SIZE, BUFSZ
  ⟨0x481E10, 0x40, 8, 0x1000000, 1, false, 1, 0, [⟨31, 1, .rw, 0x0, 0x0, 0x1⟩, ⟨24, 5, .rw, 0x6, 0x6, 0x10⟩, ⟨8, 9, .rw, 0x8, 0x1, 0x100⟩]⟩,
  -- HMI_R_TAIL: TAIL
  ⟨0x481E14, 0x40, 8, 0x1000000, 1, false, 1, 0, [⟨0, 16, .rw, 0x0, 0x0, 0xFFFF⟩]⟩,
  -- HMI_R_HEAD: HEAD
  ⟨0x481E18, 0x40, 8, 0x1000000, 1, false, 1, 0, [⟨0, 16, .ro, 0x0, 0x0, 0xFFFF⟩]⟩,
  -- HMI_R_IRQ: EN, TMR, CNT, VEC
  ⟨0x481E1C, 0x40, 8, 0x1000000, 1, false, 1, 0, [⟨31, 1, .rw, 0x0, 0x0, 0x1⟩, ⟨16, 10, .rw, 0x14, 0x0, 0x3FF⟩, ⟨8, 8, .rw, 0x1, 0x1, 0xFF⟩, ⟨0, 5, .rw, 0x0, 0x0, 0x1F⟩]⟩,
  -- HMI_R_LIM: MAXFRM, WAIT
  ⟨0x481E20, 0x40, 8, 0x1000000, 1, false, 1, 0, [⟨18, 14, .rw, 0x2580, 0x40, 0x2580⟩, ⟨0, 14, .rw, 0x0, 0x0, 0x2710⟩]⟩,
  -- HMI_R_COAL: COALESCE
  ⟨0x481E24, 0x40, 8, 0x1000000, 1, false, 1, 0, [⟨0, 16, .rw, 0x64, 0x1, 0xFFFF⟩]⟩,
  -- HMI_R_STAT: ACTIVE, CFGERR, TAILERR, INVALID, CLAMP
  ⟨0x481E28, 0x40, 8, 0x1000000, 1, false, 1, 0, [⟨31, 1, .ro, 0x0, 0x0, 0x1⟩, ⟨3, 1, .w1c, 0x0, 0x0, 0x1⟩, ⟨2, 1, .w1c, 0x0, 0x0, 0x1⟩, ⟨1, 1, .w1c, 0x0, 0x0, 0x1⟩, ⟨0, 1, .w1c, 0x0, 0x0, 0x1⟩]⟩,
  -- HMI_R_DROP_CNT: COUNT
  ⟨0x481E2C, 0x40, 8, 0x1000000, 1, false, 1, 0, [⟨0, 32, .rc, 0x0, 0x0, 0xFFFFFFFF⟩]⟩,
  -- HMI_R_OVS_CNT: COUNT
  ⟨0x481E30, 0x40, 8, 0x1000000, 1, false, 1, 0, [⟨0, 32, .rc, 0x0, 0x0, 0xFFFFFFFF⟩]⟩]

/-- The rows of the block that holds an address. -/
def rowsAt (a : Nat) : List RegRow :=
  if a < 0x10000 then rowsSYS0 ++ rowsSYS1 ++ rowsSYS2 else
  if a < 0x20000 then rowsFBK0 else
  if a < 0x30000 then rowsPMC0 else
  if a < 0x40000 then rowsDVL0 else
  if a < 0x50000 then rowsSYN0 ++ rowsSYN1 else
  if a < 0x60000 then rowsTRV0 ++ rowsTRV1 ++ rowsTRV2 ++ rowsTRV3 else
  if a < 0x70000 then rowsTRN0 ++ rowsTRN1 ++ rowsTRN2 else
  if a < 0x80000 then rowsDTM0 ++ rowsDTM1 else
  if a < 0x100000 then [] else
  if a < 0x180000 then rowsPRT0 ++ rowsPRT1 else
  if a < 0x190000 then rowsSTK0 ++ rowsSTK1 else
  if a < 0x200000 then [] else
  if a < 0x280000 then rowsSVP0 ++ rowsSVP1 else
  if a < 0x300000 then rowsSKO0 else
  if a < 0x380000 then rowsCRL0 else
  if a < 0x3C0000 then rowsPKE0 else
  if a < 0x400000 then rowsKST0 else
  if a < 0x480000 then rowsSPU0 else
  if a < 0x490000 then rowsHMI0 ++ rowsHMI1 else
  []

end Sys2Proof.Machine
end

