-- ==== Sys2Proof/Machine/Fields.lean ====
section
/-! DEFINITION. Names for the registers and fields of the Register Index: an address and a bit range for each, indexed as the manual indexes them. -/
namespace Sys2Proof.Machine

/-- A field of a register: the register's address, the lowest bit, the width. -/
structure Fld where
  addr : Nat
  lsb : Nat
  width : Nat
deriving DecidableEq, Repr

namespace A

abbrev SYS_ID : Nat := 0x0
abbrev SYS_SERIAL_W0 : Nat := 0x4
abbrev SYS_SERIAL_W1 : Nat := 0x8
abbrev SYS_OTP_STAT : Nat := 0xC
abbrev SYS_IRQ_STAT : Nat := 0x10
abbrev SYS_IRQ_EN : Nat := 0x14
abbrev SYS_IRQ_EOI : Nat := 0x18
abbrev SYS_MODE_CFG : Nat := 0x100
abbrev SYS_MODE_STAT : Nat := 0x104
abbrev SYS_MODE_CTL : Nat := 0x108
abbrev SYS_PWR_STAT : Nat := 0x10C
abbrev SYS_SUPPLY : Nat := 0x110
abbrev SYS_RST_CAUSE : Nat := 0x114
abbrev SYS_IOBANK : Nat := 0x118
abbrev SYS_BOOT_STAT : Nat := 0x200
abbrev SYS_BOOT_SEQ : Nat := 0x204
abbrev SYS_BOOT_TIME : Nat := 0x208
abbrev SYS_CLAMP_CNT : Nat := 0x210
abbrev SYS_CLAMP_IDX : Nat := 0x214
abbrev SYS_CLAMP_W (n : Nat) : Nat := 0x218 + 0x4 * n
abbrev SYS_LIVECTL : Nat := 0x240
abbrev SYS_LIVELOCK : Nat := 0x244
abbrev SYS_FL_CTL : Nat := 0x300
abbrev SYS_FL_ADDR : Nat := 0x304
abbrev SYS_FL_BUF (n : Nat) : Nat := 0x400 + 0x4 * n
abbrev SYS_FLT_LATCH : Nat := 0x640
abbrev SYS_ALARM_STAT : Nat := 0x644
abbrev SYS_ALARM_EN : Nat := 0x648
abbrev SYS_ALARM_ACK : Nat := 0x64C
abbrev SYS_FLT_CNT (n : Nat) : Nat := 0x680 + 0x4 * n
abbrev FBK_CFG : Nat := 0x10000
abbrev FBK_STAT : Nat := 0x10004
abbrev FBK_NEXT_W0 : Nat := 0x10008
abbrev FBK_NEXT_W1 : Nat := 0x1000C
abbrev FBK_CHAINID_W0 : Nat := 0x10010
abbrev FBK_CHAINID_W1 : Nat := 0x10014
abbrev FBK_SEALED_W0 : Nat := 0x10018
abbrev FBK_SEALED_W1 : Nat := 0x1001C
abbrev FBK_LOST_CNT : Nat := 0x10020
abbrev FBK_OVWR_CNT : Nat := 0x10024
abbrev PMC_CFG : Nat := 0x20000
abbrev PMC_CTL : Nat := 0x20004
abbrev PMC_USERMAP : Nat := 0x20008
abbrev PMC_IRQ_STAT : Nat := 0x2000C
abbrev PMC_IRQ_EN : Nat := 0x20010
abbrev PMC_SNAP_SEQ : Nat := 0x20014
abbrev PMC_TAG_CFG : Nat := 0x20020
abbrev PMC_TAG_SEED : Nat := 0x20024
abbrev PMC_SPU_CFG : Nat := 0x20028
abbrev PMC_TAG_SKIP_CNT : Nat := 0x2002C
abbrev PMC_CYC_W0 (n : Nat) : Nat := 0x20100 + 0x100 * n
abbrev PMC_CYC_W1 (n : Nat) : Nat := 0x20104 + 0x100 * n
abbrev PMC_OVF (n : Nat) : Nat := 0x20108 + 0x100 * n
abbrev PMC_SEL (n : Nat) (k : Nat) : Nat := 0x20110 + 0x100 * n + 0x4 * k
abbrev PMC_CTR_W0 (n : Nat) (k : Nat) : Nat := 0x20140 + 0x100 * n + 0x8 * k
abbrev PMC_CTR_W1 (n : Nat) (k : Nat) : Nat := 0x20144 + 0x100 * n + 0x8 * k
abbrev DVL_CFG : Nat := 0x30000
abbrev DVL_CMP_CFG : Nat := 0x30004
abbrev DVL_RESYNC_CFG : Nat := 0x30008
abbrev DVL_CTL : Nat := 0x3000C
abbrev DVL_STAT : Nat := 0x30010
abbrev DVL_CLAIM : Nat := 0x30014
abbrev DVL_ECHO : Nat := 0x30018
abbrev DVL_IRQ_STAT : Nat := 0x3001C
abbrev DVL_IRQ_EN : Nat := 0x30020
abbrev DVL_DIFF : Nat := 0x30024
abbrev DVL_XPPSDIFF : Nat := 0x30028
abbrev DVL_LINKCAL : Nat := 0x3002C
abbrev DVL_ALIGN : Nat := 0x30030
abbrev DVL_BADMAP : Nat := 0x30034
abbrev DVL_TAKEOVER_CNT : Nat := 0x30040
abbrev DVL_BADCYC_CNT : Nat := 0x30044
abbrev DVL_JRNL_DROP_CNT : Nat := 0x30048
abbrev DVL_RECERR_CNT : Nat := 0x3004C
abbrev DVL_ARB_CNT : Nat := 0x30050
abbrev DVL_BOTH_CNT : Nat := 0x30054
abbrev SYN_CTL : Nat := 0x40000
abbrev SYN_STAT : Nat := 0x40004
abbrev SYN_IRQ_STAT : Nat := 0x40008
abbrev SYN_IRQ_EN : Nat := 0x4000C
abbrev SYN_FRZ_CNT : Nat := 0x40010
abbrev SYN_FRZ_LAST : Nat := 0x40014
abbrev SYN_SYN_NUM (n : Nat) : Nat := 0x40100 + 0x40 * n
abbrev SYN_SYN_DEN (n : Nat) : Nat := 0x40104 + 0x40 * n
abbrev SYN_SYN_CFG (n : Nat) : Nat := 0x40108 + 0x40 * n
abbrev SYN_SYN_STAT (n : Nat) : Nat := 0x4010C + 0x40 * n
abbrev SYN_SYN_RAMPCTL (n : Nat) : Nat := 0x40110 + 0x40 * n
abbrev SYN_SYN_LOL_CNT (n : Nat) : Nat := 0x40114 + 0x40 * n
abbrev SYN_SYN_CUR (n : Nat) : Nat := 0x40118 + 0x40 * n
abbrev SYN_SYN_SEG_NUM (n : Nat) (k : Nat) : Nat := 0x40800 + 0x100 * n + 0x8 * k
abbrev SYN_SYN_SEG_SLOPE (n : Nat) (k : Nat) : Nat := 0x40804 + 0x100 * n + 0x8 * k
abbrev SYN_OUT_CFG (n : Nat) : Nat := 0x42000 + 0x40 * n
abbrev SYN_OUT_DIV (n : Nat) : Nat := 0x42004 + 0x40 * n
abbrev SYN_OUT_TRIM (n : Nat) : Nat := 0x42008 + 0x40 * n
abbrev SYN_OUT_PW (n : Nat) : Nat := 0x4200C + 0x40 * n
abbrev SYN_OUT_CEIL_W0 (n : Nat) : Nat := 0x42010 + 0x40 * n
abbrev SYN_OUT_CEIL_W1 (n : Nat) : Nat := 0x42014 + 0x40 * n
abbrev SYN_OUT_CTL (n : Nat) : Nat := 0x42018 + 0x40 * n
abbrev SYN_OUT_STAT (n : Nat) : Nat := 0x4201C + 0x40 * n
abbrev SYN_OUT_LAT (n : Nat) : Nat := 0x42020 + 0x40 * n
abbrev SYN_OUT_LATE_CNT (n : Nat) : Nat := 0x42024 + 0x40 * n
abbrev SYN_OUT_FMEAS_W0 (n : Nat) : Nat := 0x42028 + 0x40 * n
abbrev SYN_OUT_FMEAS_W1 (n : Nat) : Nat := 0x4202C + 0x40 * n
abbrev TRV_CLOSURE_CFG : Nat := 0x50000
abbrev TRV_CLOSURE_TOL : Nat := 0x50004
abbrev TRV_CLOSURE_PH : Nat := 0x50008
abbrev TRV_REF_IRQ_STAT : Nat := 0x50010
abbrev TRV_REF_IRQ_EN : Nat := 0x50014
abbrev TRV_DISPUTE_STAT : Nat := 0x50018
abbrev TRV_CH_IRQ_STAT : Nat := 0x50020
abbrev TRV_CH_IRQ_EN : Nat := 0x50024
abbrev TRV_REF_CFG (n : Nat) : Nat := 0x50100 + 0x40 * n
abbrev TRV_REF_NOM (n : Nat) : Nat := 0x50104 + 0x40 * n
abbrev TRV_REF_MON (n : Nat) : Nat := 0x50108 + 0x40 * n
abbrev TRV_REF_PPSWIN (n : Nat) : Nat := 0x5010C + 0x40 * n
abbrev TRV_REF_WTR (n : Nat) : Nat := 0x50110 + 0x40 * n
abbrev TRV_REF_CTL (n : Nat) : Nat := 0x50114 + 0x40 * n
abbrev TRV_REF_STAT (n : Nat) : Nat := 0x50118 + 0x40 * n
abbrev TRV_REF_FOFF (n : Nat) : Nat := 0x5011C + 0x40 * n
abbrev TRV_REF_FOFF1 (n : Nat) : Nat := 0x50120 + 0x40 * n
abbrev TRV_REF_CLERR (n : Nat) : Nat := 0x50124 + 0x40 * n
abbrev TRV_REF_PULSE_CNT (n : Nat) : Nat := 0x50128 + 0x40 * n
abbrev TRV_TOD_CFG (n : Nat) : Nat := 0x50500 + 0x40 * n
abbrev TRV_TOD_STAT (n : Nat) : Nat := 0x50504 + 0x40 * n
abbrev TRV_TOD_LABEL_W0 (n : Nat) : Nat := 0x50508 + 0x40 * n
abbrev TRV_TOD_LABEL_W1 (n : Nat) : Nat := 0x5050C + 0x40 * n
abbrev TRV_TOD_ERR_CNT (n : Nat) : Nat := 0x50510 + 0x40 * n
abbrev TRV_CH_SEL (n : Nat) : Nat := 0x51000 + 0x100 * n
abbrev TRV_CH_PRIO (n : Nat) : Nat := 0x51004 + 0x100 * n
abbrev TRV_CH_PRIOSE (n : Nat) : Nat := 0x51008 + 0x100 * n
abbrev TRV_CH_FORCE (n : Nat) : Nat := 0x5100C + 0x100 * n
abbrev TRV_CH_SELSTAT (n : Nat) : Nat := 0x51010 + 0x100 * n
abbrev TRV_CH_SWDELTA (n : Nat) : Nat := 0x51014 + 0x100 * n
abbrev TRV_CH_SWITCH_CNT (n : Nat) : Nat := 0x51018 + 0x100 * n
abbrev TRV_CH_CFG (n : Nat) : Nat := 0x51020 + 0x100 * n
abbrev TRV_CH_LOCK (n : Nat) : Nat := 0x51024 + 0x100 * n
abbrev TRV_CH_HOMAX (n : Nat) : Nat := 0x51028 + 0x100 * n
abbrev TRV_CH_STATE (n : Nat) : Nat := 0x5102C + 0x100 * n
abbrev TRV_CH_PHERR (n : Nat) : Nat := 0x51030 + 0x100 * n
abbrev TRV_CH_FREQ_W0 (n : Nat) : Nat := 0x51034 + 0x100 * n
abbrev TRV_CH_FREQ_W1 (n : Nat) : Nat := 0x51038 + 0x100 * n
abbrev TRV_CH_HOFREQ_W0 (n : Nat) : Nat := 0x5103C + 0x100 * n
abbrev TRV_CH_HOFREQ_W1 (n : Nat) : Nat := 0x51040 + 0x100 * n
abbrev TRV_CH_LOSS_CNT (n : Nat) : Nat := 0x51044 + 0x100 * n
abbrev TRV_CH_HOTIME (n : Nat) : Nat := 0x51048 + 0x100 * n
abbrev TRV_BM_CFG : Nat := 0x52000
abbrev TRV_BM_AVG : Nat := 0x52004
abbrev TRV_BM_DECL : Nat := 0x52008
abbrev TRV_BM_HOLD : Nat := 0x5200C
abbrev TRV_BM_STAT : Nat := 0x52010
abbrev TRV_BM_AGE : Nat := 0x52014
abbrev TRV_BM_K1 : Nat := 0x52018
abbrev TRV_BM_K2 : Nat := 0x5201C
abbrev TRV_BM_XOFF : Nat := 0x5202C
abbrev TRV_BM_TEMP : Nat := 0x52020
abbrev TRV_BM_UF : Nat := 0x52024
abbrev TRV_BM_BOUND : Nat := 0x52028
abbrev TRV_BM_SEEDAGE : Nat := 0x52030
abbrev TRV_BM_SEEDK1 : Nat := 0x52034
abbrev TRV_BM_SEEDK2 : Nat := 0x52038
abbrev TRN_CFG : Nat := 0x60000
abbrev TRN_STAT : Nat := 0x60004
abbrev TRN_IRQ_STAT : Nat := 0x60008
abbrev TRN_IRQ_EN : Nat := 0x6000C
abbrev TRN_EVQ_STAT : Nat := 0x60010
abbrev TRN_EVQ_POP : Nat := 0x60014
abbrev TRN_EVQ_LOST_CNT : Nat := 0x60018
abbrev TRN_EVQ_W (n : Nat) : Nat := 0x60020 + 0x4 * n
abbrev TRN_CH_CFG (n : Nat) : Nat := 0x61000 + 0x100 * n
abbrev TRN_CH_TRIG (n : Nat) : Nat := 0x61004 + 0x100 * n
abbrev TRN_CH_HOLDOFF (n : Nat) : Nat := 0x61008 + 0x100 * n
abbrev TRN_CH_GATE (n : Nat) : Nat := 0x6100C + 0x100 * n
abbrev TRN_CH_STATN (n : Nat) : Nat := 0x61010 + 0x100 * n
abbrev TRN_CH_DLY (n : Nat) : Nat := 0x61014 + 0x100 * n
abbrev TRN_CH_NOM_W0 (n : Nat) : Nat := 0x61018 + 0x100 * n
abbrev TRN_CH_NOM_W1 (n : Nat) : Nat := 0x6101C + 0x100 * n
abbrev TRN_CH_STAT (n : Nat) : Nat := 0x61020 + 0x100 * n
abbrev TRN_CH_LAST_W0 (n : Nat) : Nat := 0x61030 + 0x100 * n
abbrev TRN_CH_LAST_W1 (n : Nat) : Nat := 0x61034 + 0x100 * n
abbrev TRN_CH_LAST_W2 (n : Nat) : Nat := 0x61038 + 0x100 * n
abbrev TRN_CH_LAST_W3 (n : Nat) : Nat := 0x6103C + 0x100 * n
abbrev TRN_CH_FREQ_W0 (n : Nat) : Nat := 0x61040 + 0x100 * n
abbrev TRN_CH_FREQ_W1 (n : Nat) : Nat := 0x61044 + 0x100 * n
abbrev TRN_CH_FOFF_W0 (n : Nat) : Nat := 0x61048 + 0x100 * n
abbrev TRN_CH_FOFF_W1 (n : Nat) : Nat := 0x6104C + 0x100 * n
abbrev TRN_CH_RES_SEQ (n : Nat) : Nat := 0x61050 + 0x100 * n
abbrev TRN_CH_RES_DEV (n : Nat) : Nat := 0x61054 + 0x100 * n
abbrev TRN_CH_RES_MEAN_W0 (n : Nat) : Nat := 0x61058 + 0x100 * n
abbrev TRN_CH_RES_MEAN_W1 (n : Nat) : Nat := 0x6105C + 0x100 * n
abbrev TRN_CH_RES_MIN_W0 (n : Nat) : Nat := 0x61060 + 0x100 * n
abbrev TRN_CH_RES_MIN_W1 (n : Nat) : Nat := 0x61064 + 0x100 * n
abbrev TRN_CH_RES_MAX_W0 (n : Nat) : Nat := 0x61068 + 0x100 * n
abbrev TRN_CH_RES_MAX_W1 (n : Nat) : Nat := 0x6106C + 0x100 * n
abbrev TRN_CH_RES_N (n : Nat) : Nat := 0x61070 + 0x100 * n
abbrev TRN_CH_MISSED_CNT (n : Nat) : Nat := 0x61080 + 0x100 * n
abbrev TRN_CH_LOST_CNT (n : Nat) : Nat := 0x61084 + 0x100 * n
abbrev TRN_CH_GLITCH_CNT (n : Nat) : Nat := 0x61088 + 0x100 * n
abbrev TRN_CH_UNPAIRED_CNT (n : Nat) : Nat := 0x6108C + 0x100 * n
abbrev TRN_CH_OVF_CNT (n : Nat) : Nat := 0x61090 + 0x100 * n
abbrev TRN_CH_FRZ_CNT (n : Nat) : Nat := 0x61094 + 0x100 * n
abbrev DTM_CFG : Nat := 0x70000
abbrev DTM_STATE : Nat := 0x70004
abbrev DTM_DOMCTL : Nat := 0x70008
abbrev DTM_IRQ_STAT : Nat := 0x7000C
abbrev DTM_IRQ_EN : Nat := 0x70010
abbrev DTM_SLOPE : Nat := 0x70014
abbrev DTM_STEPTH : Nat := 0x70018
abbrev DTM_FS_CFG : Nat := 0x70020
abbrev DTM_BS_CFG : Nat := 0x70024
abbrev DTM_UTC_CFG : Nat := 0x70028
abbrev DTM_UTC_STAT : Nat := 0x7002C
abbrev DTM_LEAP_DAY : Nat := 0x70030
abbrev DTM_TIME_W0 : Nat := 0x70040
abbrev DTM_TIME_W1 : Nat := 0x70044
abbrev DTM_TIME_W2 : Nat := 0x70048
abbrev DTM_TIME_W3 : Nat := 0x7004C
abbrev DTM_RATE_W0 : Nat := 0x70050
abbrev DTM_RATE_W1 : Nat := 0x70054
abbrev DTM_DOMDIFF : Nat := 0x70058
abbrev DTM_MONDIFF : Nat := 0x7005C
abbrev DTM_VOTE_CNT : Nat := 0x70060
abbrev DTM_CMP_CTL (n : Nat) : Nat := 0x70100 + 0x20 * n
abbrev DTM_CMP_TGT_W0 (n : Nat) : Nat := 0x70104 + 0x20 * n
abbrev DTM_CMP_TGT_W1 (n : Nat) : Nat := 0x70108 + 0x20 * n
abbrev DTM_CMP_TGT_W2 (n : Nat) : Nat := 0x7010C + 0x20 * n
abbrev DTM_CMP_TGT_W3 (n : Nat) : Nat := 0x70110 + 0x20 * n
abbrev DTM_CMP_PER_W0 (n : Nat) : Nat := 0x70114 + 0x20 * n
abbrev DTM_CMP_PER_W1 (n : Nat) : Nat := 0x70118 + 0x20 * n
abbrev DTM_CMP_PER_W2 (n : Nat) : Nat := 0x7011C + 0x20 * n
abbrev DTM_PC_CFG (n : Nat) : Nat := 0x70300 + 0x20 * n
abbrev DTM_PC_STAT (n : Nat) : Nat := 0x70304 + 0x20 * n
abbrev DTM_PC_LATE_CNT (n : Nat) : Nat := 0x70308 + 0x20 * n
abbrev DTM_PC_SRC_ADDR_W0 (n : Nat) : Nat := 0x70400 + 0x20 * n
abbrev DTM_PC_SRC_ADDR_W1 (n : Nat) : Nat := 0x70404 + 0x20 * n
abbrev DTM_PC_SRC_ADDR_W2 (n : Nat) : Nat := 0x70408 + 0x20 * n
abbrev DTM_PC_SRC_ADDR_W3 (n : Nat) : Nat := 0x7040C + 0x20 * n
abbrev DTM_PC_SRC_MAC_W0 (n : Nat) : Nat := 0x70410 + 0x20 * n
abbrev DTM_PC_SRC_MAC_W1 (n : Nat) : Nat := 0x70414 + 0x20 * n
abbrev PRT_P_CFG (n : Nat) : Nat := 0x100000 + 0x10000 * n
abbrev PRT_F_CFG (n : Nat) : Nat := 0x140000 + 0x10000 * n
abbrev PRT_MGT_CFG : Nat := 0x160000
abbrev PRT_MAXFRM (n : Nat) : Nat := 0x100004 + 0x10000 * n
abbrev PRT_P_FC (n : Nat) : Nat := 0x100008 + 0x10000 * n
abbrev PRT_P_FCTH (n : Nat) : Nat := 0x10000C + 0x10000 * n
abbrev PRT_P_PCPMAP (n : Nat) : Nat := 0x100010 + 0x10000 * n
abbrev PRT_F_PLCA0 (n : Nat) : Nat := 0x140008 + 0x10000 * n
abbrev PRT_F_PLCA1 (n : Nat) : Nat := 0x14000C + 0x10000 * n
abbrev PRT_P_STAT (n : Nat) : Nat := 0x100014 + 0x10000 * n
abbrev PRT_F_STAT (n : Nat) : Nat := 0x140014 + 0x10000 * n
abbrev PRT_MGT_STAT : Nat := 0x160014
abbrev PRT_P_PAUSE_STAT (n : Nat) : Nat := 0x100018 + 0x10000 * n
abbrev PRT_IRQ_STAT (n : Nat) : Nat := 0x10001C + 0x10000 * n
abbrev PRT_IRQ_EN (n : Nat) : Nat := 0x100020 + 0x10000 * n
abbrev PRT_CNTCLR (n : Nat) : Nat := 0x100024 + 0x10000 * n
abbrev PRT_CNT_W0 (n : Nat) (k : Nat) : Nat := 0x100100 + 0x10000 * n + 0x8 * k
abbrev PRT_CNT_W1 (n : Nat) (k : Nat) : Nat := 0x100104 + 0x10000 * n + 0x8 * k
abbrev PRT_PAIR_CFG (n : Nat) : Nat := 0x170000 + 0x8 * n
abbrev PRT_PAIR_STAT (n : Nat) : Nat := 0x170004 + 0x8 * n
abbrev PRT_MDIO_CTL : Nat := 0x170020
abbrev PRT_MDIO_CMD : Nat := 0x170024
abbrev PRT_WAKE_CFG : Nat := 0x170040
abbrev PRT_WAKE_MAC_W0 : Nat := 0x170044
abbrev PRT_WAKE_MAC_W1 : Nat := 0x170048
abbrev PRT_WAKE_STAT : Nat := 0x17004C
abbrev PRT_WAKEP_DATA (n : Nat) (k : Nat) : Nat := 0x170100 + 0x100 * n + 0x4 * k
abbrev PRT_WAKEP_MASK (n : Nat) (k : Nat) : Nat := 0x170180 + 0x100 * n + 0x4 * k
abbrev PRT_WAKEP_CTL (n : Nat) : Nat := 0x170190 + 0x100 * n
abbrev STK_CFG (n : Nat) : Nat := 0x180000 + 0x1000 * n
abbrev STK_STAT (n : Nat) : Nat := 0x180004 + 0x1000 * n
abbrev STK_IRQ_STAT (n : Nat) : Nat := 0x180008 + 0x1000 * n
abbrev STK_IRQ_EN (n : Nat) : Nat := 0x18000C + 0x1000 * n
abbrev STK_TRIM (n : Nat) : Nat := 0x180010 + 0x1000 * n
abbrev STK_BRD (n : Nat) : Nat := 0x180014 + 0x1000 * n
abbrev STK_PHYRX (n : Nat) : Nat := 0x180018 + 0x1000 * n
abbrev STK_PHYTX (n : Nat) : Nat := 0x18001C + 0x1000 * n
abbrev STK_ASYM (n : Nat) : Nat := 0x180020 + 0x1000 * n
abbrev STK_LATRX (n : Nat) : Nat := 0x180024 + 0x1000 * n
abbrev STK_LATTX (n : Nat) : Nat := 0x180028 + 0x1000 * n
abbrev STK_CAL (n : Nat) : Nat := 0x18002C + 0x1000 * n
abbrev STK_TSLOST_CNT (n : Nat) : Nat := 0x180030 + 0x1000 * n
abbrev STK_FRZDROP_CNT (n : Nat) : Nat := 0x180034 + 0x1000 * n
abbrev STK_LASTRX_W0 (n : Nat) : Nat := 0x180040 + 0x1000 * n
abbrev STK_LASTRX_W1 (n : Nat) : Nat := 0x180044 + 0x1000 * n
abbrev STK_LASTRX_W2 (n : Nat) : Nat := 0x180048 + 0x1000 * n
abbrev STK_LASTRX_W3 (n : Nat) : Nat := 0x18004C + 0x1000 * n
abbrev STK_LASTTX_W0 (n : Nat) : Nat := 0x180050 + 0x1000 * n
abbrev STK_LASTTX_W1 (n : Nat) : Nat := 0x180054 + 0x1000 * n
abbrev STK_LASTTX_W2 (n : Nat) : Nat := 0x180058 + 0x1000 * n
abbrev STK_LASTTX_W3 (n : Nat) : Nat := 0x18005C + 0x1000 * n
abbrev SVP_CFG : Nat := 0x200000
abbrev SVP_NTP_CFG : Nat := 0x200004
abbrev SVP_KOD_CFG : Nat := 0x200008
abbrev SVP_CT_CFG : Nat := 0x20000C
abbrev SVP_PTP_CFG : Nat := 0x200010
abbrev SVP_PTP_GRANT : Nat := 0x200014
abbrev SVP_GRANT_STAT : Nat := 0x200018
abbrev SVP_GRANT_DENY_CNT : Nat := 0x20001C
abbrev SVP_RLC (n : Nat) : Nat := 0x200100 + 0x4 * n
abbrev SVP_HOSTMAP (n : Nat) : Nat := 0x200200 + 0x4 * n
abbrev SVP_PL_STAT (n : Nat) : Nat := 0x200400 + 0x10 * n
abbrev SVP_PL_CNTCLR (n : Nat) : Nat := 0x200404 + 0x10 * n
abbrev SVP_ACL_ADDR_W0 (n : Nat) : Nat := 0x201000 + 0x20 * n
abbrev SVP_ACL_ADDR_W1 (n : Nat) : Nat := 0x201004 + 0x20 * n
abbrev SVP_ACL_ADDR_W2 (n : Nat) : Nat := 0x201008 + 0x20 * n
abbrev SVP_ACL_ADDR_W3 (n : Nat) : Nat := 0x20100C + 0x20 * n
abbrev SVP_ACL_CTL (n : Nat) : Nat := 0x201010 + 0x20 * n
abbrev SVP_SA_ADDR_W0 (n : Nat) : Nat := 0x204000 + 0x20 * n
abbrev SVP_SA_ADDR_W1 (n : Nat) : Nat := 0x204004 + 0x20 * n
abbrev SVP_SA_ADDR_W2 (n : Nat) : Nat := 0x204008 + 0x20 * n
abbrev SVP_SA_ADDR_W3 (n : Nat) : Nat := 0x20400C + 0x20 * n
abbrev SVP_SA_MAC_W0 (n : Nat) : Nat := 0x204010 + 0x20 * n
abbrev SVP_SA_MAC_W1 (n : Nat) : Nat := 0x204014 + 0x20 * n
abbrev SVP_SA_CTL (n : Nat) : Nat := 0x204018 + 0x20 * n
abbrev SVP_PL_CNT_W0 (n : Nat) (k : Nat) : Nat := 0x208000 + 0x100 * n + 0x8 * k
abbrev SVP_PL_CNT_W1 (n : Nat) (k : Nat) : Nat := 0x208004 + 0x100 * n + 0x8 * k
abbrev SKO_CTL : Nat := 0x280000
abbrev SKO_IRQ_STAT : Nat := 0x280004
abbrev SKO_IRQ_EN : Nat := 0x280008
abbrev SKO_P_LAT0 (n : Nat) : Nat := 0x280100 + 0x100 * n
abbrev SKO_P_LAT1 (n : Nat) : Nat := 0x280104 + 0x100 * n
abbrev SKO_P_CFG (n : Nat) : Nat := 0x280108 + 0x100 * n
abbrev SKO_P_STAT (n : Nat) : Nat := 0x28010C + 0x100 * n
abbrev SKO_P_PERIOD_W0 (n : Nat) : Nat := 0x280110 + 0x100 * n
abbrev SKO_P_PERIOD_W1 (n : Nat) : Nat := 0x280114 + 0x100 * n
abbrev SKO_P_DEVMAX (n : Nat) : Nat := 0x280118 + 0x100 * n
abbrev SKO_P_CNTCLR (n : Nat) : Nat := 0x28011C + 0x100 * n
abbrev SKO_P_CNT_W0 (n : Nat) (k : Nat) : Nat := 0x280140 + 0x100 * n + 0x8 * k
abbrev SKO_P_CNT_W1 (n : Nat) (k : Nat) : Nat := 0x280144 + 0x100 * n + 0x8 * k
abbrev CRL_NTS_CFG : Nat := 0x300100
abbrev CRL_NTS_EPOCH : Nat := 0x300104
abbrev CRL_NTS_KCV_W0 : Nat := 0x300108
abbrev CRL_NTS_KCV_W1 : Nat := 0x30010C
abbrev CRL_NTS_STAT : Nat := 0x300110
abbrev CRL_NTS_IRQ_STAT : Nat := 0x300114
abbrev CRL_NTS_IRQ_EN : Nat := 0x300118
abbrev CRL_NTS_CNTCLR : Nat := 0x30011C
abbrev CRL_NTS_CNT_W0 (n : Nat) : Nat := 0x300140 + 0x8 * n
abbrev CRL_NTS_CNT_W1 (n : Nat) : Nat := 0x300144 + 0x8 * n
abbrev SPU_KE_CFG : Nat := 0x400200
abbrev SPU_KE_GRP : Nat := 0x400204
abbrev SPU_KE_SRV : Nat := 0x400208
abbrev SPU_KE_CERT (n : Nat) : Nat := 0x400210 + 0x4 * n
abbrev SPU_KE_STAT : Nat := 0x400220
abbrev SPU_KE_CNTCLR : Nat := 0x400224
abbrev SPU_KE_CNT_W0 (n : Nat) : Nat := 0x400240 + 0x8 * n
abbrev SPU_KE_CNT_W1 (n : Nat) : Nat := 0x400244 + 0x8 * n
abbrev PKE_CFG : Nat := 0x380000
abbrev PKE_STAT : Nat := 0x380004
abbrev PKE_ISOL : Nat := 0x380008
abbrev PKE_ABORT : Nat := 0x38000C
abbrev PKE_IRQ_STAT : Nat := 0x380010
abbrev PKE_IRQ_EN : Nat := 0x380014
abbrev PKE_CNTCLR : Nat := 0x380018
abbrev PKE_CNT_W0 (n : Nat) : Nat := 0x380040 + 0x8 * n
abbrev PKE_CNT_W1 (n : Nat) : Nat := 0x380044 + 0x8 * n
abbrev KST_STAT : Nat := 0x3C0000
abbrev KST_SLOT_INFO (n : Nat) : Nat := 0x3C1000 + 0x4 * n
abbrev HMI_CFG : Nat := 0x480000
abbrev HMI_STAT : Nat := 0x480004
abbrev HMI_IRQ_PEND_W0 : Nat := 0x480008
abbrev HMI_IRQ_PEND_W1 : Nat := 0x48000C
abbrev HMI_MEM_STAT : Nat := 0x480010
abbrev HMI_RST_CNT : Nat := 0x480014
abbrev HMI_R_BASE_W0 (n : Nat) : Nat := 0x481000 + 0x40 * n
abbrev HMI_R_BASE_W1 (n : Nat) : Nat := 0x481004 + 0x40 * n
abbrev HMI_R_WB_W0 (n : Nat) : Nat := 0x481008 + 0x40 * n
abbrev HMI_R_WB_W1 (n : Nat) : Nat := 0x48100C + 0x40 * n
abbrev HMI_R_CFG (n : Nat) : Nat := 0x481010 + 0x40 * n
abbrev HMI_R_TAIL (n : Nat) : Nat := 0x481014 + 0x40 * n
abbrev HMI_R_HEAD (n : Nat) : Nat := 0x481018 + 0x40 * n
abbrev HMI_R_IRQ (n : Nat) : Nat := 0x48101C + 0x40 * n
abbrev HMI_R_LIM (n : Nat) : Nat := 0x481020 + 0x40 * n
abbrev HMI_R_COAL (n : Nat) : Nat := 0x481024 + 0x40 * n
abbrev HMI_R_STAT (n : Nat) : Nat := 0x481028 + 0x40 * n
abbrev HMI_R_DROP_CNT (n : Nat) : Nat := 0x48102C + 0x40 * n
abbrev HMI_R_OVS_CNT (n : Nat) : Nat := 0x481030 + 0x40 * n
abbrev SYS_FLT_CFG (n : Nat) : Nat := 0x600 + 0x4 * n

end A

namespace F

abbrev SYS_ID_PART : Fld := ⟨A.SYS_ID, 16, 16⟩
abbrev SYS_ID_STEP : Fld := ⟨A.SYS_ID, 8, 8⟩
abbrev SYS_ID_UNIT : Fld := ⟨A.SYS_ID, 0, 1⟩
abbrev SYS_SERIAL_W0_SERIAL : Fld := ⟨A.SYS_SERIAL_W0, 0, 32⟩
abbrev SYS_SERIAL_W1_SERIAL : Fld := ⟨A.SYS_SERIAL_W1, 0, 32⟩
abbrev SYS_OTP_STAT_REVOKED : Fld := ⟨A.SYS_OTP_STAT, 4, 4⟩
abbrev SYS_OTP_STAT_PROG : Fld := ⟨A.SYS_OTP_STAT, 0, 4⟩
abbrev SYS_IRQ_STAT_GRP : Fld := ⟨A.SYS_IRQ_STAT, 0, 18⟩
abbrev SYS_IRQ_EN_GRP : Fld := ⟨A.SYS_IRQ_EN, 0, 18⟩
abbrev SYS_IRQ_EOI_GRP : Fld := ⟨A.SYS_IRQ_EOI, 0, 18⟩
abbrev SYS_MODE_CFG_MONEN : Fld := ⟨A.SYS_MODE_CFG, 31, 1⟩
abbrev SYS_MODE_CFG_HOSERVE : Fld := ⟨A.SYS_MODE_CFG, 30, 1⟩
abbrev SYS_MODE_CFG_AUTORST : Fld := ⟨A.SYS_MODE_CFG, 16, 8⟩
abbrev SYS_MODE_CFG_SURVEYMAX : Fld := ⟨A.SYS_MODE_CFG, 0, 16⟩
abbrev SYS_MODE_STAT_SECS : Fld := ⟨A.SYS_MODE_STAT, 16, 16⟩
abbrev SYS_MODE_STAT_ARCNT : Fld := ⟨A.SYS_MODE_STAT, 12, 2⟩
abbrev SYS_MODE_STAT_REFUSED : Fld := ⟨A.SYS_MODE_STAT, 9, 1⟩
abbrev SYS_MODE_STAT_MONVALID : Fld := ⟨A.SYS_MODE_STAT, 8, 1⟩
abbrev SYS_MODE_STAT_SAFECAUSE : Fld := ⟨A.SYS_MODE_STAT, 4, 4⟩
abbrev SYS_MODE_STAT_MODE : Fld := ⟨A.SYS_MODE_STAT, 0, 3⟩
abbrev SYS_MODE_CTL_KEY : Fld := ⟨A.SYS_MODE_CTL, 16, 16⟩
abbrev SYS_MODE_CTL_REQ : Fld := ⟨A.SYS_MODE_CTL, 0, 3⟩
abbrev SYS_PWR_STAT_VINGOOD : Fld := ⟨A.SYS_PWR_STAT, 31, 1⟩
abbrev SYS_PWR_STAT_VAOGOOD : Fld := ⟨A.SYS_PWR_STAT, 30, 1⟩
abbrev SYS_PWR_STAT_ON : Fld := ⟨A.SYS_PWR_STAT, 0, 12⟩
abbrev SYS_SUPPLY_VAO : Fld := ⟨A.SYS_SUPPLY, 16, 16⟩
abbrev SYS_SUPPLY_VIN : Fld := ⟨A.SYS_SUPPLY, 0, 16⟩
abbrev SYS_RST_CAUSE_CAUSE : Fld := ⟨A.SYS_RST_CAUSE, 0, 4⟩
abbrev SYS_IOBANK_BK6 : Fld := ⟨A.SYS_IOBANK, 12, 2⟩
abbrev SYS_IOBANK_BK5 : Fld := ⟨A.SYS_IOBANK, 10, 2⟩
abbrev SYS_IOBANK_BK4 : Fld := ⟨A.SYS_IOBANK, 8, 2⟩
abbrev SYS_IOBANK_BK3 : Fld := ⟨A.SYS_IOBANK, 6, 2⟩
abbrev SYS_IOBANK_BK2 : Fld := ⟨A.SYS_IOBANK, 4, 2⟩
abbrev SYS_IOBANK_BK1 : Fld := ⟨A.SYS_IOBANK, 2, 2⟩
abbrev SYS_IOBANK_BK0 : Fld := ⟨A.SYS_IOBANK, 0, 2⟩
abbrev SYS_BOOT_STAT_SLOT : Fld := ⟨A.SYS_BOOT_STAT, 30, 2⟩
abbrev SYS_BOOT_STAT_BOOTSEL : Fld := ⟨A.SYS_BOOT_STAT, 28, 2⟩
abbrev SYS_BOOT_STAT_OPEN : Fld := ⟨A.SYS_BOOT_STAT, 27, 1⟩
abbrev SYS_BOOT_STAT_WDROP : Fld := ⟨A.SYS_BOOT_STAT, 26, 1⟩
abbrev SYS_BOOT_STAT_RESB : Fld := ⟨A.SYS_BOOT_STAT, 4, 4⟩
abbrev SYS_BOOT_STAT_RESA : Fld := ⟨A.SYS_BOOT_STAT, 0, 4⟩
abbrev SYS_BOOT_SEQ_SEQ : Fld := ⟨A.SYS_BOOT_SEQ, 0, 32⟩
abbrev SYS_BOOT_TIME_TIME : Fld := ⟨A.SYS_BOOT_TIME, 0, 32⟩
abbrev SYS_CLAMP_CNT_COUNT : Fld := ⟨A.SYS_CLAMP_CNT, 0, 32⟩
abbrev SYS_CLAMP_IDX_IDX : Fld := ⟨A.SYS_CLAMP_IDX, 0, 12⟩
abbrev SYS_CLAMP_W_WORD (n : Nat) : Fld := ⟨A.SYS_CLAMP_W n, 0, 32⟩
abbrev SYS_LIVECTL_FLASH : Fld := ⟨A.SYS_LIVECTL, 31, 1⟩
abbrev SYS_LIVECTL_BLOCK : Fld := ⟨A.SYS_LIVECTL, 0, 15⟩
abbrev SYS_LIVELOCK_FLASH : Fld := ⟨A.SYS_LIVELOCK, 31, 1⟩
abbrev SYS_LIVELOCK_BLOCK : Fld := ⟨A.SYS_LIVELOCK, 0, 15⟩
abbrev SYS_FL_CTL_GO : Fld := ⟨A.SYS_FL_CTL, 31, 1⟩
abbrev SYS_FL_CTL_BUSY : Fld := ⟨A.SYS_FL_CTL, 30, 1⟩
abbrev SYS_FL_CTL_OP : Fld := ⟨A.SYS_FL_CTL, 28, 2⟩
abbrev SYS_FL_CTL_ERR : Fld := ⟨A.SYS_FL_CTL, 26, 2⟩
abbrev SYS_FL_ADDR_ADDR : Fld := ⟨A.SYS_FL_ADDR, 0, 28⟩
abbrev SYS_FL_BUF_WORD (n : Nat) : Fld := ⟨A.SYS_FL_BUF n, 0, 32⟩
abbrev SYS_FLT_LATCH_LATCH : Fld := ⟨A.SYS_FLT_LATCH, 0, 16⟩
abbrev SYS_ALARM_STAT_ALARM : Fld := ⟨A.SYS_ALARM_STAT, 0, 16⟩
abbrev SYS_ALARM_EN_ALARM : Fld := ⟨A.SYS_ALARM_EN, 0, 16⟩
abbrev SYS_ALARM_ACK_ALARM : Fld := ⟨A.SYS_ALARM_ACK, 0, 16⟩
abbrev SYS_FLT_CNT_COUNT (n : Nat) : Fld := ⟨A.SYS_FLT_CNT n, 0, 32⟩
abbrev FBK_CFG_DELIV : Fld := ⟨A.FBK_CFG, 31, 1⟩
abbrev FBK_CFG_RING : Fld := ⟨A.FBK_CFG, 29, 2⟩
abbrev FBK_CFG_SEALPER : Fld := ⟨A.FBK_CFG, 0, 11⟩
abbrev FBK_STAT_SIGNOK : Fld := ⟨A.FBK_STAT, 31, 1⟩
abbrev FBK_STAT_OPEN : Fld := ⟨A.FBK_STAT, 12, 13⟩
abbrev FBK_STAT_RETAINED : Fld := ⟨A.FBK_STAT, 0, 9⟩
abbrev FBK_NEXT_W0_NEXT : Fld := ⟨A.FBK_NEXT_W0, 0, 32⟩
abbrev FBK_NEXT_W1_NEXT : Fld := ⟨A.FBK_NEXT_W1, 0, 32⟩
abbrev FBK_CHAINID_W0_CHAINID : Fld := ⟨A.FBK_CHAINID_W0, 0, 32⟩
abbrev FBK_CHAINID_W1_CHAINID : Fld := ⟨A.FBK_CHAINID_W1, 0, 32⟩
abbrev FBK_SEALED_W0_SEALED : Fld := ⟨A.FBK_SEALED_W0, 0, 32⟩
abbrev FBK_SEALED_W1_SEALED : Fld := ⟨A.FBK_SEALED_W1, 0, 32⟩
abbrev FBK_LOST_CNT_COUNT : Fld := ⟨A.FBK_LOST_CNT, 0, 32⟩
abbrev FBK_OVWR_CNT_COUNT : Fld := ⟨A.FBK_OVWR_CNT, 0, 32⟩
abbrev PMC_CFG_SNAPREC : Fld := ⟨A.PMC_CFG, 31, 1⟩
abbrev PMC_CFG_RING : Fld := ⟨A.PMC_CFG, 29, 2⟩
abbrev PMC_CFG_SNAPPER : Fld := ⟨A.PMC_CFG, 0, 16⟩
abbrev PMC_CTL_CLRALL : Fld := ⟨A.PMC_CTL, 1, 1⟩
abbrev PMC_CTL_SNAP : Fld := ⟨A.PMC_CTL, 0, 1⟩
abbrev PMC_USERMAP_EN : Fld := ⟨A.PMC_USERMAP, 31, 1⟩
abbrev PMC_USERMAP_UNIT : Fld := ⟨A.PMC_USERMAP, 0, 13⟩
abbrev PMC_IRQ_STAT_TAGSKIP : Fld := ⟨A.PMC_IRQ_STAT, 15, 1⟩
abbrev PMC_IRQ_STAT_SNAP : Fld := ⟨A.PMC_IRQ_STAT, 14, 1⟩
abbrev PMC_IRQ_STAT_OVF : Fld := ⟨A.PMC_IRQ_STAT, 0, 13⟩
abbrev PMC_IRQ_EN_TAGSKIP : Fld := ⟨A.PMC_IRQ_EN, 15, 1⟩
abbrev PMC_IRQ_EN_SNAP : Fld := ⟨A.PMC_IRQ_EN, 14, 1⟩
abbrev PMC_IRQ_EN_OVF : Fld := ⟨A.PMC_IRQ_EN, 0, 13⟩
abbrev PMC_SNAP_SEQ_SEQ : Fld := ⟨A.PMC_SNAP_SEQ, 0, 32⟩
abbrev PMC_TAG_CFG_EN : Fld := ⟨A.PMC_TAG_CFG, 31, 1⟩
abbrev PMC_TAG_CFG_PORTS : Fld := ⟨A.PMC_TAG_CFG, 24, 4⟩
abbrev PMC_TAG_CFG_K : Fld := ⟨A.PMC_TAG_CFG, 16, 5⟩
abbrev PMC_TAG_CFG_CLASS : Fld := ⟨A.PMC_TAG_CFG, 0, 3⟩
abbrev PMC_TAG_SEED_SEED : Fld := ⟨A.PMC_TAG_SEED, 0, 32⟩
abbrev PMC_SPU_CFG_EN : Fld := ⟨A.PMC_SPU_CFG, 31, 1⟩
abbrev PMC_SPU_CFG_K : Fld := ⟨A.PMC_SPU_CFG, 16, 5⟩
abbrev PMC_SPU_CFG_SPUS : Fld := ⟨A.PMC_SPU_CFG, 0, 8⟩
abbrev PMC_TAG_SKIP_CNT_COUNT : Fld := ⟨A.PMC_TAG_SKIP_CNT, 0, 32⟩
abbrev PMC_CYC_W0_CYC (n : Nat) : Fld := ⟨A.PMC_CYC_W0 n, 0, 32⟩
abbrev PMC_CYC_W1_CYC (n : Nat) : Fld := ⟨A.PMC_CYC_W1 n, 0, 32⟩
abbrev PMC_OVF_OVF (n : Nat) : Fld := ⟨A.PMC_OVF n, 0, 8⟩
abbrev PMC_SEL_EN (n : Nat) (k : Nat) : Fld := ⟨A.PMC_SEL n k, 31, 1⟩
abbrev PMC_SEL_PRESERVE (n : Nat) (k : Nat) : Fld := ⟨A.PMC_SEL n k, 30, 1⟩
abbrev PMC_SEL_INST (n : Nat) (k : Nat) : Fld := ⟨A.PMC_SEL n k, 8, 7⟩
abbrev PMC_SEL_EVT (n : Nat) (k : Nat) : Fld := ⟨A.PMC_SEL n k, 0, 8⟩
abbrev PMC_CTR_W0_COUNT (n : Nat) (k : Nat) : Fld := ⟨A.PMC_CTR_W0 n k, 0, 32⟩
abbrev PMC_CTR_W1_COUNT (n : Nat) (k : Nat) : Fld := ⟨A.PMC_CTR_W1 n k, 0, 16⟩
abbrev DVL_CFG_EN : Fld := ⟨A.DVL_CFG, 31, 1⟩
abbrev DVL_CFG_XPPSOUT : Fld := ⟨A.DVL_CFG, 24, 4⟩
abbrev DVL_CFG_PRIO : Fld := ⟨A.DVL_CFG, 0, 8⟩
abbrev DVL_CMP_CFG_DISTH : Fld := ⟨A.DVL_CMP_CFG, 16, 16⟩
abbrev DVL_CMP_CFG_W : Fld := ⟨A.DVL_CMP_CFG, 8, 6⟩
abbrev DVL_CMP_CFG_K : Fld := ⟨A.DVL_CMP_CFG, 0, 6⟩
abbrev DVL_RESYNC_CFG_TRACKT : Fld := ⟨A.DVL_RESYNC_CFG, 0, 10⟩
abbrev DVL_CTL_REJOIN : Fld := ⟨A.DVL_CTL, 1, 1⟩
abbrev DVL_CTL_YIELD : Fld := ⟨A.DVL_CTL, 0, 1⟩
abbrev DVL_STAT_ACTIVE : Fld := ⟨A.DVL_STAT, 31, 1⟩
abbrev DVL_STAT_LINK : Fld := ⟨A.DVL_STAT, 30, 1⟩
abbrev DVL_STAT_LANES : Fld := ⟨A.DVL_STAT, 28, 2⟩
abbrev DVL_STAT_CLAIMBUS : Fld := ⟨A.DVL_STAT, 27, 1⟩
abbrev DVL_STAT_STALE : Fld := ⟨A.DVL_STAT, 26, 1⟩
abbrev DVL_STAT_HANDED : Fld := ⟨A.DVL_STAT, 25, 1⟩
abbrev DVL_STAT_LOSER : Fld := ⟨A.DVL_STAT, 24, 1⟩
abbrev DVL_STAT_DISPUTE : Fld := ⟨A.DVL_STAT, 23, 1⟩
abbrev DVL_STAT_LASTING : Fld := ⟨A.DVL_STAT, 22, 1⟩
abbrev DVL_STAT_CALOK : Fld := ⟨A.DVL_STAT, 21, 1⟩
abbrev DVL_STAT_SNAPDIFF : Fld := ⟨A.DVL_STAT, 20, 1⟩
abbrev DVL_STAT_PTNREADY : Fld := ⟨A.DVL_STAT, 19, 1⟩
abbrev DVL_STAT_PHASE : Fld := ⟨A.DVL_STAT, 4, 3⟩
abbrev DVL_STAT_HEALTH : Fld := ⟨A.DVL_STAT, 0, 4⟩
abbrev DVL_CLAIM_PARTNER : Fld := ⟨A.DVL_CLAIM, 16, 16⟩
abbrev DVL_CLAIM_OWN : Fld := ⟨A.DVL_CLAIM, 0, 16⟩
abbrev DVL_ECHO_ECHO : Fld := ⟨A.DVL_ECHO, 0, 16⟩
abbrev DVL_IRQ_STAT_CFGMIS : Fld := ⟨A.DVL_IRQ_STAT, 9, 1⟩
abbrev DVL_IRQ_STAT_REJECT : Fld := ⟨A.DVL_IRQ_STAT, 8, 1⟩
abbrev DVL_IRQ_STAT_PHASE : Fld := ⟨A.DVL_IRQ_STAT, 7, 1⟩
abbrev DVL_IRQ_STAT_BOTH : Fld := ⟨A.DVL_IRQ_STAT, 6, 1⟩
abbrev DVL_IRQ_STAT_IDCONF : Fld := ⟨A.DVL_IRQ_STAT, 5, 1⟩
abbrev DVL_IRQ_STAT_ARB : Fld := ⟨A.DVL_IRQ_STAT, 4, 1⟩
abbrev DVL_IRQ_STAT_LASTING : Fld := ⟨A.DVL_IRQ_STAT, 3, 1⟩
abbrev DVL_IRQ_STAT_LINK : Fld := ⟨A.DVL_IRQ_STAT, 2, 1⟩
abbrev DVL_IRQ_STAT_CLAIMBUS : Fld := ⟨A.DVL_IRQ_STAT, 1, 1⟩
abbrev DVL_IRQ_STAT_ACTIVE : Fld := ⟨A.DVL_IRQ_STAT, 0, 1⟩
abbrev DVL_IRQ_EN_CFGMIS : Fld := ⟨A.DVL_IRQ_EN, 9, 1⟩
abbrev DVL_IRQ_EN_REJECT : Fld := ⟨A.DVL_IRQ_EN, 8, 1⟩
abbrev DVL_IRQ_EN_PHASE : Fld := ⟨A.DVL_IRQ_EN, 7, 1⟩
abbrev DVL_IRQ_EN_BOTH : Fld := ⟨A.DVL_IRQ_EN, 6, 1⟩
abbrev DVL_IRQ_EN_IDCONF : Fld := ⟨A.DVL_IRQ_EN, 5, 1⟩
abbrev DVL_IRQ_EN_ARB : Fld := ⟨A.DVL_IRQ_EN, 4, 1⟩
abbrev DVL_IRQ_EN_LASTING : Fld := ⟨A.DVL_IRQ_EN, 3, 1⟩
abbrev DVL_IRQ_EN_LINK : Fld := ⟨A.DVL_IRQ_EN, 2, 1⟩
abbrev DVL_IRQ_EN_CLAIMBUS : Fld := ⟨A.DVL_IRQ_EN, 1, 1⟩
abbrev DVL_IRQ_EN_ACTIVE : Fld := ⟨A.DVL_IRQ_EN, 0, 1⟩
abbrev DVL_DIFF_VALUE : Fld := ⟨A.DVL_DIFF, 0, 32⟩
abbrev DVL_XPPSDIFF_VALUE : Fld := ⟨A.DVL_XPPSDIFF, 0, 32⟩
abbrev DVL_LINKCAL_VALUE : Fld := ⟨A.DVL_LINKCAL, 0, 32⟩
abbrev DVL_ALIGN_VALUE : Fld := ⟨A.DVL_ALIGN, 0, 32⟩
abbrev DVL_BADMAP_MAP : Fld := ⟨A.DVL_BADMAP, 0, 32⟩
abbrev DVL_TAKEOVER_CNT_COUNT : Fld := ⟨A.DVL_TAKEOVER_CNT, 0, 32⟩
abbrev DVL_BADCYC_CNT_COUNT : Fld := ⟨A.DVL_BADCYC_CNT, 0, 32⟩
abbrev DVL_JRNL_DROP_CNT_COUNT : Fld := ⟨A.DVL_JRNL_DROP_CNT, 0, 32⟩
abbrev DVL_RECERR_CNT_COUNT : Fld := ⟨A.DVL_RECERR_CNT, 0, 32⟩
abbrev DVL_ARB_CNT_COUNT : Fld := ⟨A.DVL_ARB_CNT, 0, 32⟩
abbrev DVL_BOTH_CNT_COUNT : Fld := ⟨A.DVL_BOTH_CNT, 0, 32⟩
abbrev SYN_CTL_FORCEXO : Fld := ⟨A.SYN_CTL, 31, 1⟩
abbrev SYN_CTL_HOLDMUTE : Fld := ⟨A.SYN_CTL, 30, 1⟩
abbrev SYN_STAT_SYN0LOCK : Fld := ⟨A.SYN_STAT, 31, 1⟩
abbrev SYN_STAT_AUXLOCK : Fld := ⟨A.SYN_STAT, 30, 1⟩
abbrev SYN_STAT_FROZEN : Fld := ⟨A.SYN_STAT, 29, 1⟩
abbrev SYN_STAT_MCLKAUX : Fld := ⟨A.SYN_STAT, 28, 1⟩
abbrev SYN_STAT_REF : Fld := ⟨A.SYN_STAT, 27, 1⟩
abbrev SYN_STAT_SYNLOCK : Fld := ⟨A.SYN_STAT, 1, 6⟩
abbrev SYN_IRQ_STAT_RAMPDONE : Fld := ⟨A.SYN_IRQ_STAT, 17, 6⟩
abbrev SYN_IRQ_STAT_LIMIT : Fld := ⟨A.SYN_IRQ_STAT, 10, 1⟩
abbrev SYN_IRQ_STAT_SYNLOL : Fld := ⟨A.SYN_IRQ_STAT, 4, 6⟩
abbrev SYN_IRQ_STAT_AUXLOL : Fld := ⟨A.SYN_IRQ_STAT, 3, 1⟩
abbrev SYN_IRQ_STAT_LASTING : Fld := ⟨A.SYN_IRQ_STAT, 2, 1⟩
abbrev SYN_IRQ_STAT_RESTART : Fld := ⟨A.SYN_IRQ_STAT, 1, 1⟩
abbrev SYN_IRQ_STAT_FREEZE : Fld := ⟨A.SYN_IRQ_STAT, 0, 1⟩
abbrev SYN_IRQ_EN_RAMPDONE : Fld := ⟨A.SYN_IRQ_EN, 17, 6⟩
abbrev SYN_IRQ_EN_LIMIT : Fld := ⟨A.SYN_IRQ_EN, 10, 1⟩
abbrev SYN_IRQ_EN_SYNLOL : Fld := ⟨A.SYN_IRQ_EN, 4, 6⟩
abbrev SYN_IRQ_EN_AUXLOL : Fld := ⟨A.SYN_IRQ_EN, 3, 1⟩
abbrev SYN_IRQ_EN_LASTING : Fld := ⟨A.SYN_IRQ_EN, 2, 1⟩
abbrev SYN_IRQ_EN_RESTART : Fld := ⟨A.SYN_IRQ_EN, 1, 1⟩
abbrev SYN_IRQ_EN_FREEZE : Fld := ⟨A.SYN_IRQ_EN, 0, 1⟩
abbrev SYN_FRZ_CNT_COUNT : Fld := ⟨A.SYN_FRZ_CNT, 0, 32⟩
abbrev SYN_FRZ_LAST_COUNT : Fld := ⟨A.SYN_FRZ_LAST, 0, 32⟩
abbrev SYN_SYN_NUM_VALUE (n : Nat) : Fld := ⟨A.SYN_SYN_NUM n, 0, 32⟩
abbrev SYN_SYN_DEN_VALUE (n : Nat) : Fld := ⟨A.SYN_SYN_DEN n, 0, 32⟩
abbrev SYN_SYN_CFG_EN (n : Nat) : Fld := ⟨A.SYN_SYN_CFG n, 31, 1⟩
abbrev SYN_SYN_CFG_STEER (n : Nat) : Fld := ⟨A.SYN_SYN_CFG n, 24, 4⟩
abbrev SYN_SYN_CFG_SETTLE (n : Nat) : Fld := ⟨A.SYN_SYN_CFG n, 0, 14⟩
abbrev SYN_SYN_STAT_LOCKED (n : Nat) : Fld := ⟨A.SYN_SYN_STAT n, 31, 1⟩
abbrev SYN_SYN_STAT_HOLD (n : Nat) : Fld := ⟨A.SYN_SYN_STAT n, 30, 1⟩
abbrev SYN_SYN_STAT_SETTLING (n : Nat) : Fld := ⟨A.SYN_SYN_STAT n, 29, 1⟩
abbrev SYN_SYN_STAT_RAMP (n : Nat) : Fld := ⟨A.SYN_SYN_STAT n, 28, 1⟩
abbrev SYN_SYN_STAT_CLAMP (n : Nat) : Fld := ⟨A.SYN_SYN_STAT n, 27, 1⟩
abbrev SYN_SYN_STAT_RAMPERR (n : Nat) : Fld := ⟨A.SYN_SYN_STAT n, 26, 1⟩
abbrev SYN_SYN_STAT_RAMPBUSY (n : Nat) : Fld := ⟨A.SYN_SYN_STAT n, 25, 1⟩
abbrev SYN_SYN_STAT_SEG (n : Nat) : Fld := ⟨A.SYN_SYN_STAT n, 16, 4⟩
abbrev SYN_SYN_RAMPCTL_GO (n : Nat) : Fld := ⟨A.SYN_SYN_RAMPCTL n, 31, 1⟩
abbrev SYN_SYN_RAMPCTL_STOP (n : Nat) : Fld := ⟨A.SYN_SYN_RAMPCTL n, 30, 1⟩
abbrev SYN_SYN_RAMPCTL_NSEG (n : Nat) : Fld := ⟨A.SYN_SYN_RAMPCTL n, 0, 5⟩
abbrev SYN_SYN_LOL_CNT_COUNT (n : Nat) : Fld := ⟨A.SYN_SYN_LOL_CNT n, 0, 32⟩
abbrev SYN_SYN_CUR_OFFSET (n : Nat) : Fld := ⟨A.SYN_SYN_CUR n, 0, 32⟩
abbrev SYN_SYN_SEG_NUM_NUM (n : Nat) (k : Nat) : Fld := ⟨A.SYN_SYN_SEG_NUM n k, 0, 32⟩
abbrev SYN_SYN_SEG_SLOPE_SLOPE (n : Nat) (k : Nat) : Fld := ⟨A.SYN_SYN_SEG_SLOPE n k, 0, 16⟩
abbrev SYN_OUT_CFG_EN (n : Nat) : Fld := ⟨A.SYN_OUT_CFG n, 31, 1⟩
abbrev SYN_OUT_CFG_FMT (n : Nat) : Fld := ⟨A.SYN_OUT_CFG n, 29, 2⟩
abbrev SYN_OUT_CFG_MODE (n : Nat) : Fld := ⟨A.SYN_OUT_CFG n, 28, 1⟩
abbrev SYN_OUT_CFG_SYNSEL (n : Nat) : Fld := ⟨A.SYN_OUT_CFG n, 26, 2⟩
abbrev SYN_OUT_CFG_SYNCEN (n : Nat) : Fld := ⟨A.SYN_OUT_CFG n, 25, 1⟩
abbrev SYN_OUT_CFG_SURVEYEN (n : Nat) : Fld := ⟨A.SYN_OUT_CFG n, 24, 1⟩
abbrev SYN_OUT_CFG_LATEDROP (n : Nat) : Fld := ⟨A.SYN_OUT_CFG n, 23, 1⟩
abbrev SYN_OUT_CFG_AUTOREL (n : Nat) : Fld := ⟨A.SYN_OUT_CFG n, 22, 1⟩
abbrev SYN_OUT_DIV_DIV (n : Nat) : Fld := ⟨A.SYN_OUT_DIV n, 0, 32⟩
abbrev SYN_OUT_TRIM_TRIM (n : Nat) : Fld := ⟨A.SYN_OUT_TRIM n, 0, 16⟩
abbrev SYN_OUT_PW_PW (n : Nat) : Fld := ⟨A.SYN_OUT_PW n, 0, 30⟩
abbrev SYN_OUT_CEIL_W0_CEIL (n : Nat) : Fld := ⟨A.SYN_OUT_CEIL_W0 n, 0, 32⟩
abbrev SYN_OUT_CEIL_W1_CEIL (n : Nat) : Fld := ⟨A.SYN_OUT_CEIL_W1 n, 0, 8⟩
abbrev SYN_OUT_CTL_LIMCLR (n : Nat) : Fld := ⟨A.SYN_OUT_CTL n, 1, 1⟩
abbrev SYN_OUT_CTL_HOSTMUTE (n : Nat) : Fld := ⟨A.SYN_OUT_CTL n, 0, 1⟩
abbrev SYN_OUT_STAT_STATE (n : Nat) : Fld := ⟨A.SYN_OUT_STAT n, 30, 2⟩
abbrev SYN_OUT_STAT_ALIGNED (n : Nat) : Fld := ⟨A.SYN_OUT_STAT n, 29, 1⟩
abbrev SYN_OUT_STAT_CLAMP (n : Nat) : Fld := ⟨A.SYN_OUT_STAT n, 28, 1⟩
abbrev SYN_OUT_STAT_HOST (n : Nat) : Fld := ⟨A.SYN_OUT_STAT n, 3, 1⟩
abbrev SYN_OUT_STAT_LIMIT (n : Nat) : Fld := ⟨A.SYN_OUT_STAT n, 2, 1⟩
abbrev SYN_OUT_STAT_SYN (n : Nat) : Fld := ⟨A.SYN_OUT_STAT n, 1, 1⟩
abbrev SYN_OUT_STAT_MODE (n : Nat) : Fld := ⟨A.SYN_OUT_STAT n, 0, 1⟩
abbrev SYN_OUT_LAT_LAT (n : Nat) : Fld := ⟨A.SYN_OUT_LAT n, 0, 32⟩
abbrev SYN_OUT_LATE_CNT_LAT (n : Nat) : Fld := ⟨A.SYN_OUT_LATE_CNT n, 0, 32⟩
abbrev SYN_OUT_FMEAS_W0_FMEAS (n : Nat) : Fld := ⟨A.SYN_OUT_FMEAS_W0 n, 0, 32⟩
abbrev SYN_OUT_FMEAS_W1_FMEAS (n : Nat) : Fld := ⟨A.SYN_OUT_FMEAS_W1 n, 0, 8⟩
abbrev TRV_CLOSURE_CFG_CLWIN : Fld := ⟨A.TRV_CLOSURE_CFG, 18, 14⟩
abbrev TRV_CLOSURE_CFG_CLCONF : Fld := ⟨A.TRV_CLOSURE_CFG, 8, 6⟩
abbrev TRV_CLOSURE_TOL_ATOMTOL : Fld := ⟨A.TRV_CLOSURE_TOL, 16, 16⟩
abbrev TRV_CLOSURE_TOL_OTHTOL : Fld := ⟨A.TRV_CLOSURE_TOL, 0, 16⟩
abbrev TRV_CLOSURE_PH_PHTOL : Fld := ⟨A.TRV_CLOSURE_PH, 0, 24⟩
abbrev TRV_REF_IRQ_STAT_TODERR : Fld := ⟨A.TRV_REF_IRQ_STAT, 26, 1⟩
abbrev TRV_REF_IRQ_STAT_DEMOTE : Fld := ⟨A.TRV_REF_IRQ_STAT, 25, 1⟩
abbrev TRV_REF_IRQ_STAT_DISPUTE : Fld := ⟨A.TRV_REF_IRQ_STAT, 24, 1⟩
abbrev TRV_REF_IRQ_STAT_SWITCH : Fld := ⟨A.TRV_REF_IRQ_STAT, 16, 8⟩
abbrev TRV_REF_IRQ_STAT_REFCHG : Fld := ⟨A.TRV_REF_IRQ_STAT, 0, 12⟩
abbrev TRV_REF_IRQ_EN_TODERR : Fld := ⟨A.TRV_REF_IRQ_EN, 26, 1⟩
abbrev TRV_REF_IRQ_EN_DEMOTE : Fld := ⟨A.TRV_REF_IRQ_EN, 25, 1⟩
abbrev TRV_REF_IRQ_EN_DISPUTE : Fld := ⟨A.TRV_REF_IRQ_EN, 24, 1⟩
abbrev TRV_REF_IRQ_EN_SWITCH : Fld := ⟨A.TRV_REF_IRQ_EN, 16, 8⟩
abbrev TRV_REF_IRQ_EN_REFCHG : Fld := ⟨A.TRV_REF_IRQ_EN, 0, 12⟩
abbrev TRV_DISPUTE_STAT_DISPUTE : Fld := ⟨A.TRV_DISPUTE_STAT, 0, 8⟩
abbrev TRV_CH_IRQ_STAT_TEMPFALL : Fld := ⟨A.TRV_CH_IRQ_STAT, 17, 1⟩
abbrev TRV_CH_IRQ_STAT_PHASE : Fld := ⟨A.TRV_CH_IRQ_STAT, 16, 1⟩
abbrev TRV_CH_IRQ_STAT_LOSS : Fld := ⟨A.TRV_CH_IRQ_STAT, 8, 8⟩
abbrev TRV_CH_IRQ_STAT_STATE : Fld := ⟨A.TRV_CH_IRQ_STAT, 0, 8⟩
abbrev TRV_CH_IRQ_EN_TEMPFALL : Fld := ⟨A.TRV_CH_IRQ_EN, 17, 1⟩
abbrev TRV_CH_IRQ_EN_PHASE : Fld := ⟨A.TRV_CH_IRQ_EN, 16, 1⟩
abbrev TRV_CH_IRQ_EN_LOSS : Fld := ⟨A.TRV_CH_IRQ_EN, 8, 8⟩
abbrev TRV_CH_IRQ_EN_STATE : Fld := ⟨A.TRV_CH_IRQ_EN, 0, 8⟩
abbrev TRV_REF_CFG_EN (n : Nat) : Fld := ⟨A.TRV_REF_CFG n, 31, 1⟩
abbrev TRV_REF_CFG_KIND (n : Nat) : Fld := ⟨A.TRV_REF_CFG n, 29, 2⟩
abbrev TRV_REF_CFG_TYPE (n : Nat) : Fld := ⟨A.TRV_REF_CFG n, 27, 2⟩
abbrev TRV_REF_CFG_POL (n : Nat) : Fld := ⟨A.TRV_REF_CFG n, 26, 1⟩
abbrev TRV_REF_CFG_QUALT (n : Nat) : Fld := ⟨A.TRV_REF_CFG n, 16, 8⟩
abbrev TRV_REF_CFG_MISSN (n : Nat) : Fld := ⟨A.TRV_REF_CFG n, 8, 4⟩
abbrev TRV_REF_NOM_NOM (n : Nat) : Fld := ⟨A.TRV_REF_NOM n, 0, 31⟩
abbrev TRV_REF_MON_FLIM (n : Nat) : Fld := ⟨A.TRV_REF_MON n, 0, 20⟩
abbrev TRV_REF_PPSWIN_PPSWIN (n : Nat) : Fld := ⟨A.TRV_REF_PPSWIN n, 0, 27⟩
abbrev TRV_REF_WTR_WTR (n : Nat) : Fld := ⟨A.TRV_REF_WTR n, 0, 12⟩
abbrev TRV_REF_CTL_DIS (n : Nat) : Fld := ⟨A.TRV_REF_CTL n, 0, 1⟩
abbrev TRV_REF_STAT_TIMER (n : Nat) : Fld := ⟨A.TRV_REF_STAT n, 20, 12⟩
abbrev TRV_REF_STAT_CAUSE (n : Nat) : Fld := ⟨A.TRV_REF_STAT n, 8, 9⟩
abbrev TRV_REF_STAT_DISPUTED (n : Nat) : Fld := ⟨A.TRV_REF_STAT n, 3, 1⟩
abbrev TRV_REF_STAT_STATE (n : Nat) : Fld := ⟨A.TRV_REF_STAT n, 0, 3⟩
abbrev TRV_REF_FOFF_FOFF (n : Nat) : Fld := ⟨A.TRV_REF_FOFF n, 0, 32⟩
abbrev TRV_REF_FOFF1_FOFF (n : Nat) : Fld := ⟨A.TRV_REF_FOFF1 n, 0, 32⟩
abbrev TRV_REF_CLERR_FOFF (n : Nat) : Fld := ⟨A.TRV_REF_CLERR n, 0, 32⟩
abbrev TRV_REF_PULSE_CNT_COUNT (n : Nat) : Fld := ⟨A.TRV_REF_PULSE_CNT n, 0, 32⟩
abbrev TRV_TOD_CFG_EN (n : Nat) : Fld := ⟨A.TRV_TOD_CFG n, 31, 1⟩
abbrev TRV_TOD_CFG_FORMAT (n : Nat) : Fld := ⟨A.TRV_TOD_CFG n, 30, 1⟩
abbrev TRV_TOD_CFG_LABEL (n : Nat) : Fld := ⟨A.TRV_TOD_CFG n, 29, 1⟩
abbrev TRV_TOD_CFG_BAUD (n : Nat) : Fld := ⟨A.TRV_TOD_CFG n, 26, 3⟩
abbrev TRV_TOD_CFG_SENT (n : Nat) : Fld := ⟨A.TRV_TOD_CFG n, 23, 3⟩
abbrev TRV_TOD_CFG_TODWIN (n : Nat) : Fld := ⟨A.TRV_TOD_CFG n, 8, 10⟩
abbrev TRV_TOD_CFG_REF (n : Nat) : Fld := ⟨A.TRV_TOD_CFG n, 0, 3⟩
abbrev TRV_TOD_STAT_VALID (n : Nat) : Fld := ⟨A.TRV_TOD_STAT n, 31, 1⟩
abbrev TRV_TOD_STAT_CONFLICT (n : Nat) : Fld := ⟨A.TRV_TOD_STAT n, 30, 1⟩
abbrev TRV_TOD_STAT_LEAP (n : Nat) : Fld := ⟨A.TRV_TOD_STAT n, 28, 2⟩
abbrev TRV_TOD_STAT_OFFV (n : Nat) : Fld := ⟨A.TRV_TOD_STAT n, 16, 1⟩
abbrev TRV_TOD_STAT_OFFSET (n : Nat) : Fld := ⟨A.TRV_TOD_STAT n, 0, 16⟩
abbrev TRV_TOD_LABEL_W0_SEC (n : Nat) : Fld := ⟨A.TRV_TOD_LABEL_W0 n, 0, 32⟩
abbrev TRV_TOD_LABEL_W1_SEC (n : Nat) : Fld := ⟨A.TRV_TOD_LABEL_W1 n, 0, 16⟩
abbrev TRV_TOD_ERR_CNT_COUNT (n : Nat) : Fld := ⟨A.TRV_TOD_ERR_CNT n, 0, 32⟩
abbrev TRV_CH_SEL_REVERT (n : Nat) : Fld := ⟨A.TRV_CH_SEL n, 31, 1⟩
abbrev TRV_CH_SEL_SETTLE (n : Nat) : Fld := ⟨A.TRV_CH_SEL n, 24, 6⟩
abbrev TRV_CH_SEL_SLOPE (n : Nat) : Fld := ⟨A.TRV_CH_SEL n, 0, 17⟩
abbrev TRV_CH_PRIO_PRIO (n : Nat) : Fld := ⟨A.TRV_CH_PRIO n, 0, 32⟩
abbrev TRV_CH_PRIOSE_PRIO (n : Nat) : Fld := ⟨A.TRV_CH_PRIOSE n, 0, 16⟩
abbrev TRV_CH_FORCE_FORCE (n : Nat) : Fld := ⟨A.TRV_CH_FORCE n, 0, 4⟩
abbrev TRV_CH_SELSTAT_SETTLE (n : Nat) : Fld := ⟨A.TRV_CH_SELSTAT n, 12, 1⟩
abbrev TRV_CH_SELSTAT_DISPUTE (n : Nat) : Fld := ⟨A.TRV_CH_SELSTAT n, 11, 1⟩
abbrev TRV_CH_SELSTAT_FORCEFAIL (n : Nat) : Fld := ⟨A.TRV_CH_SELSTAT n, 10, 1⟩
abbrev TRV_CH_SELSTAT_PENDING (n : Nat) : Fld := ⟨A.TRV_CH_SELSTAT n, 9, 1⟩
abbrev TRV_CH_SELSTAT_SWITCHING (n : Nat) : Fld := ⟨A.TRV_CH_SELSTAT n, 8, 1⟩
abbrev TRV_CH_SELSTAT_SELECTED (n : Nat) : Fld := ⟨A.TRV_CH_SELSTAT n, 0, 4⟩
abbrev TRV_CH_SWDELTA_DELTA (n : Nat) : Fld := ⟨A.TRV_CH_SWDELTA n, 0, 32⟩
abbrev TRV_CH_SWITCH_CNT_COUNT (n : Nat) : Fld := ⟨A.TRV_CH_SWITCH_CNT n, 0, 32⟩
abbrev TRV_CH_CFG_EN (n : Nat) : Fld := ⟨A.TRV_CH_CFG n, 31, 1⟩
abbrev TRV_CH_CFG_BMCOMP (n : Nat) : Fld := ⟨A.TRV_CH_CFG n, 30, 1⟩
abbrev TRV_CH_CFG_BW (n : Nat) : Fld := ⟨A.TRV_CH_CFG n, 24, 5⟩
abbrev TRV_CH_CFG_ACQBW (n : Nat) : Fld := ⟨A.TRV_CH_CFG n, 16, 5⟩
abbrev TRV_CH_CFG_AVGWIN (n : Nat) : Fld := ⟨A.TRV_CH_CFG n, 0, 14⟩
abbrev TRV_CH_LOCK_LOCKT (n : Nat) : Fld := ⟨A.TRV_CH_LOCK n, 26, 6⟩
abbrev TRV_CH_LOCK_LOSSN (n : Nat) : Fld := ⟨A.TRV_CH_LOCK n, 22, 4⟩
abbrev TRV_CH_LOCK_GUARD (n : Nat) : Fld := ⟨A.TRV_CH_LOCK n, 16, 6⟩
abbrev TRV_CH_LOCK_LOCKTH (n : Nat) : Fld := ⟨A.TRV_CH_LOCK n, 0, 16⟩
abbrev TRV_CH_HOMAX_HOMAX (n : Nat) : Fld := ⟨A.TRV_CH_HOMAX n, 0, 20⟩
abbrev TRV_CH_STATE_CLAMP (n : Nat) : Fld := ⟨A.TRV_CH_STATE n, 31, 1⟩
abbrev TRV_CH_STATE_BWLIM (n : Nat) : Fld := ⟨A.TRV_CH_STATE n, 30, 1⟩
abbrev TRV_CH_STATE_BWEFF (n : Nat) : Fld := ⟨A.TRV_CH_STATE n, 25, 5⟩
abbrev TRV_CH_STATE_HIST (n : Nat) : Fld := ⟨A.TRV_CH_STATE n, 8, 14⟩
abbrev TRV_CH_STATE_STATE (n : Nat) : Fld := ⟨A.TRV_CH_STATE n, 0, 2⟩
abbrev TRV_CH_PHERR_PHERR (n : Nat) : Fld := ⟨A.TRV_CH_PHERR n, 0, 32⟩
abbrev TRV_CH_FREQ_W0_FREQ (n : Nat) : Fld := ⟨A.TRV_CH_FREQ_W0 n, 0, 32⟩
abbrev TRV_CH_FREQ_W1_FREQ (n : Nat) : Fld := ⟨A.TRV_CH_FREQ_W1 n, 0, 8⟩
abbrev TRV_CH_HOFREQ_W0_FREQ (n : Nat) : Fld := ⟨A.TRV_CH_HOFREQ_W0 n, 0, 32⟩
abbrev TRV_CH_HOFREQ_W1_FREQ (n : Nat) : Fld := ⟨A.TRV_CH_HOFREQ_W1 n, 0, 8⟩
abbrev TRV_CH_LOSS_CNT_COUNT (n : Nat) : Fld := ⟨A.TRV_CH_LOSS_CNT n, 0, 32⟩
abbrev TRV_CH_HOTIME_COUNT (n : Nat) : Fld := ⟨A.TRV_CH_HOTIME n, 0, 32⟩
abbrev TRV_BM_CFG_TEMPSRC : Fld := ⟨A.TRV_BM_CFG, 31, 1⟩
abbrev TRV_BM_CFG_I2CADR : Fld := ⟨A.TRV_BM_CFG, 24, 7⟩
abbrev TRV_BM_CFG_SEEDEN : Fld := ⟨A.TRV_BM_CFG, 23, 1⟩
abbrev TRV_BM_CFG_LEARNDAYS : Fld := ⟨A.TRV_BM_CFG, 16, 7⟩
abbrev TRV_BM_AVG_GUARD : Fld := ⟨A.TRV_BM_AVG, 16, 6⟩
abbrev TRV_BM_AVG_AVGWIN : Fld := ⟨A.TRV_BM_AVG, 0, 14⟩
abbrev TRV_BM_DECL_AGEMAX : Fld := ⟨A.TRV_BM_DECL, 16, 16⟩
abbrev TRV_BM_DECL_TEMPCO : Fld := ⟨A.TRV_BM_DECL, 0, 16⟩
abbrev TRV_BM_HOLD_HOLDLIM : Fld := ⟨A.TRV_BM_HOLD, 0, 30⟩
abbrev TRV_BM_STAT_PHASE : Fld := ⟨A.TRV_BM_STAT, 30, 2⟩
abbrev TRV_BM_STAT_TEMPOK : Fld := ⟨A.TRV_BM_STAT, 29, 1⟩
abbrev TRV_BM_STAT_TEMPFALL : Fld := ⟨A.TRV_BM_STAT, 28, 1⟩
abbrev TRV_BM_STAT_MODEL : Fld := ⟨A.TRV_BM_STAT, 27, 1⟩
abbrev TRV_BM_STAT_MONFOLLOW : Fld := ⟨A.TRV_BM_STAT, 26, 1⟩
abbrev TRV_BM_STAT_HOURS : Fld := ⟨A.TRV_BM_STAT, 0, 16⟩
abbrev TRV_BM_AGE_VALUE : Fld := ⟨A.TRV_BM_AGE, 0, 32⟩
abbrev TRV_BM_K1_VALUE : Fld := ⟨A.TRV_BM_K1, 0, 32⟩
abbrev TRV_BM_K2_VALUE : Fld := ⟨A.TRV_BM_K2, 0, 32⟩
abbrev TRV_BM_XOFF_VALUE : Fld := ⟨A.TRV_BM_XOFF, 0, 32⟩
abbrev TRV_BM_TEMP_T0 : Fld := ⟨A.TRV_BM_TEMP, 16, 16⟩
abbrev TRV_BM_TEMP_TEMP : Fld := ⟨A.TRV_BM_TEMP, 0, 16⟩
abbrev TRV_BM_UF_VALUE : Fld := ⟨A.TRV_BM_UF, 0, 32⟩
abbrev TRV_BM_BOUND_VALUE : Fld := ⟨A.TRV_BM_BOUND, 0, 32⟩
abbrev TRV_BM_SEEDAGE_SEED : Fld := ⟨A.TRV_BM_SEEDAGE, 0, 32⟩
abbrev TRV_BM_SEEDK1_SEED : Fld := ⟨A.TRV_BM_SEEDK1, 0, 32⟩
abbrev TRV_BM_SEEDK2_SEED : Fld := ⟨A.TRV_BM_SEEDK2, 0, 32⟩
abbrev TRN_CFG_RING : Fld := ⟨A.TRN_CFG, 8, 2⟩
abbrev TRN_CFG_CALPER : Fld := ⟨A.TRN_CFG, 0, 8⟩
abbrev TRN_STAT_CALOK : Fld := ⟨A.TRN_STAT, 31, 1⟩
abbrev TRN_STAT_QUALITY : Fld := ⟨A.TRN_STAT, 30, 1⟩
abbrev TRN_STAT_OSCFREQ : Fld := ⟨A.TRN_STAT, 28, 2⟩
abbrev TRN_STAT_LOAD : Fld := ⟨A.TRN_STAT, 0, 8⟩
abbrev TRN_IRQ_STAT_EVQFULL : Fld := ⟨A.TRN_IRQ_STAT, 29, 1⟩
abbrev TRN_IRQ_STAT_CALFAIL : Fld := ⟨A.TRN_IRQ_STAT, 28, 1⟩
abbrev TRN_IRQ_STAT_QUALITY : Fld := ⟨A.TRN_IRQ_STAT, 27, 1⟩
abbrev TRN_IRQ_STAT_FREEZE : Fld := ⟨A.TRN_IRQ_STAT, 26, 1⟩
abbrev TRN_IRQ_STAT_MISSED : Fld := ⟨A.TRN_IRQ_STAT, 25, 1⟩
abbrev TRN_IRQ_STAT_LOST : Fld := ⟨A.TRN_IRQ_STAT, 24, 1⟩
abbrev TRN_IRQ_STAT_STATRDY : Fld := ⟨A.TRN_IRQ_STAT, 0, 24⟩
abbrev TRN_IRQ_EN_EVQFULL : Fld := ⟨A.TRN_IRQ_EN, 29, 1⟩
abbrev TRN_IRQ_EN_CALFAIL : Fld := ⟨A.TRN_IRQ_EN, 28, 1⟩
abbrev TRN_IRQ_EN_QUALITY : Fld := ⟨A.TRN_IRQ_EN, 27, 1⟩
abbrev TRN_IRQ_EN_FREEZE : Fld := ⟨A.TRN_IRQ_EN, 26, 1⟩
abbrev TRN_IRQ_EN_MISSED : Fld := ⟨A.TRN_IRQ_EN, 25, 1⟩
abbrev TRN_IRQ_EN_LOST : Fld := ⟨A.TRN_IRQ_EN, 24, 1⟩
abbrev TRN_IRQ_EN_STATRDY : Fld := ⟨A.TRN_IRQ_EN, 0, 24⟩
abbrev TRN_EVQ_STAT_LEVEL : Fld := ⟨A.TRN_EVQ_STAT, 0, 9⟩
abbrev TRN_EVQ_POP_POP : Fld := ⟨A.TRN_EVQ_POP, 0, 1⟩
abbrev TRN_EVQ_LOST_CNT_COUNT : Fld := ⟨A.TRN_EVQ_LOST_CNT, 0, 32⟩
abbrev TRN_EVQ_W_WORD (n : Nat) : Fld := ⟨A.TRN_EVQ_W n, 0, 32⟩
abbrev TRN_CH_CFG_EN (n : Nat) : Fld := ⟨A.TRN_CH_CFG n, 31, 1⟩
abbrev TRN_CH_CFG_MODE (n : Nat) : Fld := ⟨A.TRN_CH_CFG n, 29, 2⟩
abbrev TRN_CH_CFG_EDGE (n : Nat) : Fld := ⟨A.TRN_CH_CFG n, 27, 2⟩
abbrev TRN_CH_CFG_PRESC (n : Nat) : Fld := ⟨A.TRN_CH_CFG n, 23, 4⟩
abbrev TRN_CH_CFG_STOPSEL (n : Nat) : Fld := ⟨A.TRN_CH_CFG n, 18, 5⟩
abbrev TRN_CH_CFG_QUEUE (n : Nat) : Fld := ⟨A.TRN_CH_CFG n, 3, 1⟩
abbrev TRN_CH_CFG_HOST (n : Nat) : Fld := ⟨A.TRN_CH_CFG n, 2, 1⟩
abbrev TRN_CH_TRIG_MINW (n : Nat) : Fld := ⟨A.TRN_CH_TRIG n, 16, 11⟩
abbrev TRN_CH_TRIG_DECIM (n : Nat) : Fld := ⟨A.TRN_CH_TRIG n, 0, 16⟩
abbrev TRN_CH_HOLDOFF_HOLDOFF (n : Nat) : Fld := ⟨A.TRN_CH_HOLDOFF n, 0, 20⟩
abbrev TRN_CH_GATE_GATE (n : Nat) : Fld := ⟨A.TRN_CH_GATE n, 0, 20⟩
abbrev TRN_CH_STATN_CONT (n : Nat) : Fld := ⟨A.TRN_CH_STATN n, 31, 1⟩
abbrev TRN_CH_STATN_EN (n : Nat) : Fld := ⟨A.TRN_CH_STATN n, 30, 1⟩
abbrev TRN_CH_STATN_N (n : Nat) : Fld := ⟨A.TRN_CH_STATN n, 0, 25⟩
abbrev TRN_CH_DLY_DLY (n : Nat) : Fld := ⟨A.TRN_CH_DLY n, 0, 32⟩
abbrev TRN_CH_NOM_W0_NOM (n : Nat) : Fld := ⟨A.TRN_CH_NOM_W0 n, 0, 32⟩
abbrev TRN_CH_NOM_W1_NOM (n : Nat) : Fld := ⟨A.TRN_CH_NOM_W1 n, 0, 24⟩
abbrev TRN_CH_STAT_RANGE (n : Nat) : Fld := ⟨A.TRN_CH_STAT n, 31, 1⟩
abbrev TRN_CH_STAT_DEGRADED (n : Nat) : Fld := ⟨A.TRN_CH_STAT n, 30, 1⟩
abbrev TRN_CH_STAT_RESTART (n : Nat) : Fld := ⟨A.TRN_CH_STAT n, 29, 1⟩
abbrev TRN_CH_STAT_OWNER (n : Nat) : Fld := ⟨A.TRN_CH_STAT n, 24, 3⟩
abbrev TRN_CH_STAT_QLEVEL (n : Nat) : Fld := ⟨A.TRN_CH_STAT n, 0, 5⟩
abbrev TRN_CH_LAST_W0_FRAC (n : Nat) : Fld := ⟨A.TRN_CH_LAST_W0 n, 0, 16⟩
abbrev TRN_CH_LAST_W1_NS (n : Nat) : Fld := ⟨A.TRN_CH_LAST_W1 n, 0, 30⟩
abbrev TRN_CH_LAST_W2_SECLO (n : Nat) : Fld := ⟨A.TRN_CH_LAST_W2 n, 0, 32⟩
abbrev TRN_CH_LAST_W3_SECHI (n : Nat) : Fld := ⟨A.TRN_CH_LAST_W3 n, 0, 16⟩
abbrev TRN_CH_FREQ_W0_FREQ (n : Nat) : Fld := ⟨A.TRN_CH_FREQ_W0 n, 0, 32⟩
abbrev TRN_CH_FREQ_W1_FREQ (n : Nat) : Fld := ⟨A.TRN_CH_FREQ_W1 n, 0, 24⟩
abbrev TRN_CH_FOFF_W0_FOFF (n : Nat) : Fld := ⟨A.TRN_CH_FOFF_W0 n, 0, 32⟩
abbrev TRN_CH_FOFF_W1_FOFF (n : Nat) : Fld := ⟨A.TRN_CH_FOFF_W1 n, 0, 32⟩
abbrev TRN_CH_RES_SEQ_SEQ (n : Nat) : Fld := ⟨A.TRN_CH_RES_SEQ n, 0, 32⟩
abbrev TRN_CH_RES_DEV_DEV (n : Nat) : Fld := ⟨A.TRN_CH_RES_DEV n, 0, 32⟩
abbrev TRN_CH_RES_MEAN_W0_MEAN (n : Nat) : Fld := ⟨A.TRN_CH_RES_MEAN_W0 n, 0, 32⟩
abbrev TRN_CH_RES_MEAN_W1_MEAN (n : Nat) : Fld := ⟨A.TRN_CH_RES_MEAN_W1 n, 0, 32⟩
abbrev TRN_CH_RES_MIN_W0_MIN (n : Nat) : Fld := ⟨A.TRN_CH_RES_MIN_W0 n, 0, 32⟩
abbrev TRN_CH_RES_MIN_W1_MIN (n : Nat) : Fld := ⟨A.TRN_CH_RES_MIN_W1 n, 0, 32⟩
abbrev TRN_CH_RES_MAX_W0_MAX (n : Nat) : Fld := ⟨A.TRN_CH_RES_MAX_W0 n, 0, 32⟩
abbrev TRN_CH_RES_MAX_W1_MAX (n : Nat) : Fld := ⟨A.TRN_CH_RES_MAX_W1 n, 0, 32⟩
abbrev TRN_CH_RES_N_N (n : Nat) : Fld := ⟨A.TRN_CH_RES_N n, 0, 25⟩
abbrev TRN_CH_MISSED_CNT_COUNT (n : Nat) : Fld := ⟨A.TRN_CH_MISSED_CNT n, 0, 32⟩
abbrev TRN_CH_LOST_CNT_COUNT (n : Nat) : Fld := ⟨A.TRN_CH_LOST_CNT n, 0, 32⟩
abbrev TRN_CH_GLITCH_CNT_COUNT (n : Nat) : Fld := ⟨A.TRN_CH_GLITCH_CNT n, 0, 32⟩
abbrev TRN_CH_UNPAIRED_CNT_COUNT (n : Nat) : Fld := ⟨A.TRN_CH_UNPAIRED_CNT n, 0, 32⟩
abbrev TRN_CH_OVF_CNT_COUNT (n : Nat) : Fld := ⟨A.TRN_CH_OVF_CNT n, 0, 32⟩
abbrev TRN_CH_FRZ_CNT_COUNT (n : Nat) : Fld := ⟨A.TRN_CH_FRZ_CNT n, 0, 32⟩
abbrev DTM_CFG_LOCKTIME : Fld := ⟨A.DTM_CFG, 28, 4⟩
abbrev DTM_CFG_LOCKTH : Fld := ⟨A.DTM_CFG, 20, 8⟩
abbrev DTM_CFG_SETTLE : Fld := ⟨A.DTM_CFG, 16, 4⟩
abbrev DTM_CFG_WTR : Fld := ⟨A.DTM_CFG, 2, 12⟩
abbrev DTM_CFG_REVERT : Fld := ⟨A.DTM_CFG, 1, 1⟩
abbrev DTM_CFG_START : Fld := ⟨A.DTM_CFG, 0, 1⟩
abbrev DTM_STATE_SPLIT : Fld := ⟨A.DTM_STATE, 13, 1⟩
abbrev DTM_STATE_SLEW : Fld := ⟨A.DTM_STATE, 12, 1⟩
abbrev DTM_STATE_BS_ST : Fld := ⟨A.DTM_STATE, 10, 2⟩
abbrev DTM_STATE_FS_ST : Fld := ⟨A.DTM_STATE, 8, 2⟩
abbrev DTM_STATE_ACTIVE : Fld := ⟨A.DTM_STATE, 4, 1⟩
abbrev DTM_STATE_STATE : Fld := ⟨A.DTM_STATE, 0, 3⟩
abbrev DTM_DOMCTL_FORCE : Fld := ⟨A.DTM_DOMCTL, 1, 2⟩
abbrev DTM_DOMCTL_HANDOFF : Fld := ⟨A.DTM_DOMCTL, 0, 1⟩
abbrev DTM_IRQ_STAT_CMP : Fld := ⟨A.DTM_IRQ_STAT, 16, 16⟩
abbrev DTM_IRQ_STAT_UTCDIS : Fld := ⟨A.DTM_IRQ_STAT, 8, 1⟩
abbrev DTM_IRQ_STAT_PCLATE : Fld := ⟨A.DTM_IRQ_STAT, 7, 1⟩
abbrev DTM_IRQ_STAT_VOTE : Fld := ⟨A.DTM_IRQ_STAT, 6, 1⟩
abbrev DTM_IRQ_STAT_UTCCHG : Fld := ⟨A.DTM_IRQ_STAT, 5, 1⟩
abbrev DTM_IRQ_STAT_LEAPDONE : Fld := ⟨A.DTM_IRQ_STAT, 4, 1⟩
abbrev DTM_IRQ_STAT_LEAPSCHED : Fld := ⟨A.DTM_IRQ_STAT, 3, 1⟩
abbrev DTM_IRQ_STAT_SPLIT : Fld := ⟨A.DTM_IRQ_STAT, 2, 1⟩
abbrev DTM_IRQ_STAT_HANDOFF : Fld := ⟨A.DTM_IRQ_STAT, 1, 1⟩
abbrev DTM_IRQ_STAT_STATE : Fld := ⟨A.DTM_IRQ_STAT, 0, 1⟩
abbrev DTM_IRQ_EN_CMP : Fld := ⟨A.DTM_IRQ_EN, 16, 16⟩
abbrev DTM_IRQ_EN_UTCDIS : Fld := ⟨A.DTM_IRQ_EN, 8, 1⟩
abbrev DTM_IRQ_EN_PCLATE : Fld := ⟨A.DTM_IRQ_EN, 7, 1⟩
abbrev DTM_IRQ_EN_VOTE : Fld := ⟨A.DTM_IRQ_EN, 6, 1⟩
abbrev DTM_IRQ_EN_UTCCHG : Fld := ⟨A.DTM_IRQ_EN, 5, 1⟩
abbrev DTM_IRQ_EN_LEAPDONE : Fld := ⟨A.DTM_IRQ_EN, 4, 1⟩
abbrev DTM_IRQ_EN_LEAPSCHED : Fld := ⟨A.DTM_IRQ_EN, 3, 1⟩
abbrev DTM_IRQ_EN_SPLIT : Fld := ⟨A.DTM_IRQ_EN, 2, 1⟩
abbrev DTM_IRQ_EN_HANDOFF : Fld := ⟨A.DTM_IRQ_EN, 1, 1⟩
abbrev DTM_IRQ_EN_STATE : Fld := ⟨A.DTM_IRQ_EN, 0, 1⟩
abbrev DTM_SLOPE_SPLIT : Fld := ⟨A.DTM_SLOPE, 20, 12⟩
abbrev DTM_SLOPE_SLOPE : Fld := ⟨A.DTM_SLOPE, 0, 17⟩
abbrev DTM_STEPTH_STEPTH : Fld := ⟨A.DTM_STEPTH, 0, 30⟩
abbrev DTM_FS_CFG_MINWIN : Fld := ⟨A.DTM_FS_CFG, 8, 4⟩
abbrev DTM_FS_CFG_BW : Fld := ⟨A.DTM_FS_CFG, 4, 4⟩
abbrev DTM_FS_CFG_SRC : Fld := ⟨A.DTM_FS_CFG, 0, 2⟩
abbrev DTM_BS_CFG_MINWIN : Fld := ⟨A.DTM_BS_CFG, 8, 4⟩
abbrev DTM_BS_CFG_BW : Fld := ⟨A.DTM_BS_CFG, 4, 4⟩
abbrev DTM_BS_CFG_SRC : Fld := ⟨A.DTM_BS_CFG, 0, 2⟩
abbrev DTM_UTC_CFG_SMEAR : Fld := ⟨A.DTM_UTC_CFG, 16, 1⟩
abbrev DTM_UTC_CFG_OFFSET : Fld := ⟨A.DTM_UTC_CFG, 0, 16⟩
abbrev DTM_UTC_STAT_SRC : Fld := ⟨A.DTM_UTC_STAT, 20, 2⟩
abbrev DTM_UTC_STAT_PENDING : Fld := ⟨A.DTM_UTC_STAT, 16, 2⟩
abbrev DTM_UTC_STAT_OFFSET : Fld := ⟨A.DTM_UTC_STAT, 0, 16⟩
abbrev DTM_LEAP_DAY_KIND : Fld := ⟨A.DTM_LEAP_DAY, 20, 2⟩
abbrev DTM_LEAP_DAY_MJD : Fld := ⟨A.DTM_LEAP_DAY, 0, 20⟩
abbrev DTM_TIME_W0_FRAC : Fld := ⟨A.DTM_TIME_W0, 0, 16⟩
abbrev DTM_TIME_W1_NS : Fld := ⟨A.DTM_TIME_W1, 0, 30⟩
abbrev DTM_TIME_W2_SECLO : Fld := ⟨A.DTM_TIME_W2, 0, 32⟩
abbrev DTM_TIME_W3_SECHI : Fld := ⟨A.DTM_TIME_W3, 0, 16⟩
abbrev DTM_RATE_W0_RATE : Fld := ⟨A.DTM_RATE_W0, 0, 32⟩
abbrev DTM_RATE_W1_RATE : Fld := ⟨A.DTM_RATE_W1, 0, 8⟩
abbrev DTM_DOMDIFF_DIFF : Fld := ⟨A.DTM_DOMDIFF, 0, 32⟩
abbrev DTM_MONDIFF_DIFF : Fld := ⟨A.DTM_MONDIFF, 0, 32⟩
abbrev DTM_VOTE_CNT_COUNT : Fld := ⟨A.DTM_VOTE_CNT, 0, 32⟩
abbrev DTM_CMP_CTL_BADVAL (n : Nat) : Fld := ⟨A.DTM_CMP_CTL n, 18, 1⟩
abbrev DTM_CMP_CTL_PERCLAMP (n : Nat) : Fld := ⟨A.DTM_CMP_CTL n, 17, 1⟩
abbrev DTM_CMP_CTL_LATE (n : Nat) : Fld := ⟨A.DTM_CMP_CTL n, 16, 1⟩
abbrev DTM_CMP_CTL_ARMED (n : Nat) : Fld := ⟨A.DTM_CMP_CTL n, 15, 1⟩
abbrev DTM_CMP_CTL_OUTEN (n : Nat) : Fld := ⟨A.DTM_CMP_CTL n, 12, 1⟩
abbrev DTM_CMP_CTL_OUTSEL (n : Nat) : Fld := ⟨A.DTM_CMP_CTL n, 8, 4⟩
abbrev DTM_CMP_CTL_FBK (n : Nat) : Fld := ⟨A.DTM_CMP_CTL n, 2, 1⟩
abbrev DTM_CMP_CTL_IRQ (n : Nat) : Fld := ⟨A.DTM_CMP_CTL n, 1, 1⟩
abbrev DTM_CMP_CTL_EN (n : Nat) : Fld := ⟨A.DTM_CMP_CTL n, 0, 1⟩
abbrev DTM_CMP_TGT_W0_FRAC (n : Nat) : Fld := ⟨A.DTM_CMP_TGT_W0 n, 0, 16⟩
abbrev DTM_CMP_TGT_W1_NS (n : Nat) : Fld := ⟨A.DTM_CMP_TGT_W1 n, 0, 30⟩
abbrev DTM_CMP_TGT_W2_SECLO (n : Nat) : Fld := ⟨A.DTM_CMP_TGT_W2 n, 0, 32⟩
abbrev DTM_CMP_TGT_W3_SECHI (n : Nat) : Fld := ⟨A.DTM_CMP_TGT_W3 n, 0, 16⟩
abbrev DTM_CMP_PER_W0_FRAC (n : Nat) : Fld := ⟨A.DTM_CMP_PER_W0 n, 0, 16⟩
abbrev DTM_CMP_PER_W1_NS (n : Nat) : Fld := ⟨A.DTM_CMP_PER_W1 n, 0, 30⟩
abbrev DTM_CMP_PER_W2_SECLO (n : Nat) : Fld := ⟨A.DTM_CMP_PER_W2 n, 0, 16⟩
abbrev DTM_PC_CFG_TIMEOUT (n : Nat) : Fld := ⟨A.DTM_PC_CFG n, 20, 12⟩
abbrev DTM_PC_CFG_TRANSPORT (n : Nat) : Fld := ⟨A.DTM_PC_CFG n, 18, 2⟩
abbrev DTM_PC_CFG_PROFILE (n : Nat) : Fld := ⟨A.DTM_PC_CFG n, 16, 2⟩
abbrev DTM_PC_CFG_DOMAIN (n : Nat) : Fld := ⟨A.DTM_PC_CFG n, 8, 8⟩
abbrev DTM_PC_CFG_EN (n : Nat) : Fld := ⟨A.DTM_PC_CFG n, 3, 1⟩
abbrev DTM_PC_CFG_PORT (n : Nat) : Fld := ⟨A.DTM_PC_CFG n, 0, 3⟩
abbrev DTM_PC_STAT_SEQ (n : Nat) : Fld := ⟨A.DTM_PC_STAT n, 16, 16⟩
abbrev DTM_PC_STAT_MASTER (n : Nat) : Fld := ⟨A.DTM_PC_STAT n, 4, 3⟩
abbrev DTM_PC_STAT_STATE (n : Nat) : Fld := ⟨A.DTM_PC_STAT n, 0, 4⟩
abbrev DTM_PC_LATE_CNT_COUNT (n : Nat) : Fld := ⟨A.DTM_PC_LATE_CNT n, 0, 32⟩
abbrev DTM_PC_SRC_ADDR_W0_ADDR (n : Nat) : Fld := ⟨A.DTM_PC_SRC_ADDR_W0 n, 0, 32⟩
abbrev DTM_PC_SRC_ADDR_W1_ADDR (n : Nat) : Fld := ⟨A.DTM_PC_SRC_ADDR_W1 n, 0, 32⟩
abbrev DTM_PC_SRC_ADDR_W2_ADDR (n : Nat) : Fld := ⟨A.DTM_PC_SRC_ADDR_W2 n, 0, 32⟩
abbrev DTM_PC_SRC_ADDR_W3_ADDR (n : Nat) : Fld := ⟨A.DTM_PC_SRC_ADDR_W3 n, 0, 32⟩
abbrev DTM_PC_SRC_MAC_W0_MAC (n : Nat) : Fld := ⟨A.DTM_PC_SRC_MAC_W0 n, 0, 32⟩
abbrev DTM_PC_SRC_MAC_W1_MAC (n : Nat) : Fld := ⟨A.DTM_PC_SRC_MAC_W1 n, 0, 16⟩
abbrev DTM_PC_SRC_MAC_W1_VID (n : Nat) : Fld := ⟨A.DTM_PC_SRC_MAC_W1 n, 16, 12⟩
abbrev PRT_P_CFG_EN (n : Nat) : Fld := ⟨A.PRT_P_CFG n, 31, 1⟩
abbrev PRT_P_CFG_SPEED (n : Nat) : Fld := ⟨A.PRT_P_CFG n, 28, 3⟩
abbrev PRT_P_CFG_MEDIA (n : Nat) : Fld := ⟨A.PRT_P_CFG n, 26, 2⟩
abbrev PRT_P_CFG_TRAIN (n : Nat) : Fld := ⟨A.PRT_P_CFG n, 25, 1⟩
abbrev PRT_P_CFG_AN37 (n : Nat) : Fld := ⟨A.PRT_P_CFG n, 24, 1⟩
abbrev PRT_P_CFG_POLTX (n : Nat) : Fld := ⟨A.PRT_P_CFG n, 20, 4⟩
abbrev PRT_P_CFG_POLRX (n : Nat) : Fld := ⟨A.PRT_P_CFG n, 16, 4⟩
abbrev PRT_P_CFG_CTLTC (n : Nat) : Fld := ⟨A.PRT_P_CFG n, 0, 3⟩
abbrev PRT_F_CFG_EN (n : Nat) : Fld := ⟨A.PRT_F_CFG n, 31, 1⟩
abbrev PRT_F_CFG_PLCAEN (n : Nat) : Fld := ⟨A.PRT_F_CFG n, 30, 1⟩
abbrev PRT_MGT_CFG_EN : Fld := ⟨A.PRT_MGT_CFG, 31, 1⟩
abbrev PRT_MGT_CFG_MODE : Fld := ⟨A.PRT_MGT_CFG, 30, 1⟩
abbrev PRT_MGT_CFG_AN37 : Fld := ⟨A.PRT_MGT_CFG, 29, 1⟩
abbrev PRT_MGT_CFG_RXPAUSE : Fld := ⟨A.PRT_MGT_CFG, 28, 1⟩
abbrev PRT_MGT_CFG_POLTX : Fld := ⟨A.PRT_MGT_CFG, 27, 1⟩
abbrev PRT_MGT_CFG_POLRX : Fld := ⟨A.PRT_MGT_CFG, 26, 1⟩
abbrev PRT_MAXFRM_MAXFRM (n : Nat) : Fld := ⟨A.PRT_MAXFRM n, 0, 14⟩
abbrev PRT_P_FC_RXPAUSE (n : Nat) : Fld := ⟨A.PRT_P_FC n, 31, 1⟩
abbrev PRT_P_FC_RXPFC (n : Nat) : Fld := ⟨A.PRT_P_FC n, 30, 1⟩
abbrev PRT_P_FC_TXPAUSE (n : Nat) : Fld := ⟨A.PRT_P_FC n, 29, 1⟩
abbrev PRT_P_FC_TXPFC (n : Nat) : Fld := ⟨A.PRT_P_FC n, 28, 1⟩
abbrev PRT_P_FC_TXPRI (n : Nat) : Fld := ⟨A.PRT_P_FC n, 16, 8⟩
abbrev PRT_P_FC_QUANTA (n : Nat) : Fld := ⟨A.PRT_P_FC n, 0, 16⟩
abbrev PRT_P_FCTH_XOFF (n : Nat) : Fld := ⟨A.PRT_P_FCTH n, 16, 9⟩
abbrev PRT_P_FCTH_XON (n : Nat) : Fld := ⟨A.PRT_P_FCTH n, 0, 9⟩
abbrev PRT_P_PCPMAP_UNTAG (n : Nat) : Fld := ⟨A.PRT_P_PCPMAP n, 24, 3⟩
abbrev PRT_P_PCPMAP_MAP (n : Nat) : Fld := ⟨A.PRT_P_PCPMAP n, 0, 24⟩
abbrev PRT_F_PLCA0_NODEID (n : Nat) : Fld := ⟨A.PRT_F_PLCA0 n, 24, 8⟩
abbrev PRT_F_PLCA0_NCOUNT (n : Nat) : Fld := ⟨A.PRT_F_PLCA0 n, 16, 8⟩
abbrev PRT_F_PLCA0_TOTMR (n : Nat) : Fld := ⟨A.PRT_F_PLCA0 n, 8, 8⟩
abbrev PRT_F_PLCA1_MAXBC (n : Nat) : Fld := ⟨A.PRT_F_PLCA1 n, 24, 8⟩
abbrev PRT_F_PLCA1_BTMR (n : Nat) : Fld := ⟨A.PRT_F_PLCA1 n, 16, 8⟩
abbrev PRT_F_PLCA1_BTO (n : Nat) : Fld := ⟨A.PRT_F_PLCA1 n, 0, 10⟩
abbrev PRT_P_STAT_LINK (n : Nat) : Fld := ⟨A.PRT_P_STAT n, 31, 1⟩
abbrev PRT_P_STAT_LF (n : Nat) : Fld := ⟨A.PRT_P_STAT n, 30, 1⟩
abbrev PRT_P_STAT_RF (n : Nat) : Fld := ⟨A.PRT_P_STAT n, 29, 1⟩
abbrev PRT_P_STAT_TRAINED (n : Nat) : Fld := ⟨A.PRT_P_STAT n, 28, 1⟩
abbrev PRT_P_STAT_SIGDET (n : Nat) : Fld := ⟨A.PRT_P_STAT n, 24, 4⟩
abbrev PRT_P_STAT_FECLOCK (n : Nat) : Fld := ⟨A.PRT_P_STAT n, 23, 1⟩
abbrev PRT_F_STAT_PLCAOK (n : Nat) : Fld := ⟨A.PRT_F_STAT n, 31, 1⟩
abbrev PRT_F_STAT_COORD (n : Nat) : Fld := ⟨A.PRT_F_STAT n, 30, 1⟩
abbrev PRT_F_STAT_CLKOK (n : Nat) : Fld := ⟨A.PRT_F_STAT n, 29, 1⟩
abbrev PRT_MGT_STAT_LINK : Fld := ⟨A.PRT_MGT_STAT, 31, 1⟩
abbrev PRT_MGT_STAT_ANDONE : Fld := ⟨A.PRT_MGT_STAT, 30, 1⟩
abbrev PRT_MGT_STAT_PHYSPEED : Fld := ⟨A.PRT_MGT_STAT, 28, 2⟩
abbrev PRT_MGT_STAT_SPDREJ : Fld := ⟨A.PRT_MGT_STAT, 27, 1⟩
abbrev PRT_P_PAUSE_STAT_TXPAUSE (n : Nat) : Fld := ⟨A.PRT_P_PAUSE_STAT n, 16, 1⟩
abbrev PRT_P_PAUSE_STAT_TXPFC (n : Nat) : Fld := ⟨A.PRT_P_PAUSE_STAT n, 8, 8⟩
abbrev PRT_P_PAUSE_STAT_PAUSED (n : Nat) : Fld := ⟨A.PRT_P_PAUSE_STAT n, 0, 8⟩
abbrev PRT_IRQ_STAT_BEACONLOST (n : Nat) : Fld := ⟨A.PRT_IRQ_STAT n, 5, 1⟩
abbrev PRT_IRQ_STAT_ABANDON (n : Nat) : Fld := ⟨A.PRT_IRQ_STAT n, 4, 1⟩
abbrev PRT_IRQ_STAT_FECUNC (n : Nat) : Fld := ⟨A.PRT_IRQ_STAT n, 3, 1⟩
abbrev PRT_IRQ_STAT_PAUSE (n : Nat) : Fld := ⟨A.PRT_IRQ_STAT n, 2, 1⟩
abbrev PRT_IRQ_STAT_LINKUP (n : Nat) : Fld := ⟨A.PRT_IRQ_STAT n, 1, 1⟩
abbrev PRT_IRQ_STAT_LINKDOWN (n : Nat) : Fld := ⟨A.PRT_IRQ_STAT n, 0, 1⟩
abbrev PRT_IRQ_EN_BEACONLOST (n : Nat) : Fld := ⟨A.PRT_IRQ_EN n, 5, 1⟩
abbrev PRT_IRQ_EN_ABANDON (n : Nat) : Fld := ⟨A.PRT_IRQ_EN n, 4, 1⟩
abbrev PRT_IRQ_EN_FECUNC (n : Nat) : Fld := ⟨A.PRT_IRQ_EN n, 3, 1⟩
abbrev PRT_IRQ_EN_PAUSE (n : Nat) : Fld := ⟨A.PRT_IRQ_EN n, 2, 1⟩
abbrev PRT_IRQ_EN_LINKUP (n : Nat) : Fld := ⟨A.PRT_IRQ_EN n, 1, 1⟩
abbrev PRT_IRQ_EN_LINKDOWN (n : Nat) : Fld := ⟨A.PRT_IRQ_EN n, 0, 1⟩
abbrev PRT_CNTCLR_CLR (n : Nat) : Fld := ⟨A.PRT_CNTCLR n, 0, 1⟩
abbrev PRT_CNT_W0_COUNT (n : Nat) (k : Nat) : Fld := ⟨A.PRT_CNT_W0 n k, 0, 32⟩
abbrev PRT_CNT_W1_COUNT (n : Nat) (k : Nat) : Fld := ⟨A.PRT_CNT_W1 n k, 0, 32⟩
abbrev PRT_PAIR_CFG_EN (n : Nat) : Fld := ⟨A.PRT_PAIR_CFG n, 31, 1⟩
abbrev PRT_PAIR_CFG_PRIM (n : Nat) : Fld := ⟨A.PRT_PAIR_CFG n, 30, 1⟩
abbrev PRT_PAIR_CFG_REVERT (n : Nat) : Fld := ⟨A.PRT_PAIR_CFG n, 29, 1⟩
abbrev PRT_PAIR_CFG_HOLD (n : Nat) : Fld := ⟨A.PRT_PAIR_CFG n, 20, 4⟩
abbrev PRT_PAIR_CFG_WTR (n : Nat) : Fld := ⟨A.PRT_PAIR_CFG n, 0, 12⟩
abbrev PRT_PAIR_STAT_ACTIVE (n : Nat) : Fld := ⟨A.PRT_PAIR_STAT n, 31, 1⟩
abbrev PRT_PAIR_STAT_BOTHDOWN (n : Nat) : Fld := ⟨A.PRT_PAIR_STAT n, 30, 1⟩
abbrev PRT_PAIR_STAT_SWITCHES (n : Nat) : Fld := ⟨A.PRT_PAIR_STAT n, 0, 16⟩
abbrev PRT_MDIO_CTL_DIV : Fld := ⟨A.PRT_MDIO_CTL, 0, 8⟩
abbrev PRT_MDIO_CMD_BUSY : Fld := ⟨A.PRT_MDIO_CMD, 31, 1⟩
abbrev PRT_MDIO_CMD_GO : Fld := ⟨A.PRT_MDIO_CMD, 30, 1⟩
abbrev PRT_MDIO_CMD_CL45 : Fld := ⟨A.PRT_MDIO_CMD, 29, 1⟩
abbrev PRT_MDIO_CMD_OP : Fld := ⟨A.PRT_MDIO_CMD, 27, 2⟩
abbrev PRT_MDIO_CMD_PHYAD : Fld := ⟨A.PRT_MDIO_CMD, 22, 5⟩
abbrev PRT_MDIO_CMD_REGAD : Fld := ⟨A.PRT_MDIO_CMD, 17, 5⟩
abbrev PRT_MDIO_CMD_DATA : Fld := ⟨A.PRT_MDIO_CMD, 0, 16⟩
abbrev PRT_WAKE_CFG_PINEN : Fld := ⟨A.PRT_WAKE_CFG, 31, 1⟩
abbrev PRT_WAKE_CFG_MAGICEN : Fld := ⟨A.PRT_WAKE_CFG, 30, 1⟩
abbrev PRT_WAKE_CFG_MAGICPORTS : Fld := ⟨A.PRT_WAKE_CFG, 24, 3⟩
abbrev PRT_WAKE_CFG_PATEN : Fld := ⟨A.PRT_WAKE_CFG, 16, 8⟩
abbrev PRT_WAKE_MAC_W0_MAC : Fld := ⟨A.PRT_WAKE_MAC_W0, 0, 32⟩
abbrev PRT_WAKE_MAC_W1_MAC : Fld := ⟨A.PRT_WAKE_MAC_W1, 0, 16⟩
abbrev PRT_WAKE_STAT_SRC : Fld := ⟨A.PRT_WAKE_STAT, 30, 2⟩
abbrev PRT_WAKE_STAT_PORT : Fld := ⟨A.PRT_WAKE_STAT, 28, 2⟩
abbrev PRT_WAKE_STAT_PATTERN : Fld := ⟨A.PRT_WAKE_STAT, 24, 3⟩
abbrev PRT_WAKEP_DATA_WORD (n : Nat) (k : Nat) : Fld := ⟨A.PRT_WAKEP_DATA n k, 0, 32⟩
abbrev PRT_WAKEP_MASK_WORD (n : Nat) (k : Nat) : Fld := ⟨A.PRT_WAKEP_MASK n k, 0, 32⟩
abbrev PRT_WAKEP_CTL_PORTS (n : Nat) : Fld := ⟨A.PRT_WAKEP_CTL n, 0, 3⟩
abbrev STK_CFG_LASTSEL (n : Nat) : Fld := ⟨A.STK_CFG n, 8, 1⟩
abbrev STK_CFG_PLANE (n : Nat) : Fld := ⟨A.STK_CFG n, 0, 1⟩
abbrev STK_STAT_ALIGNED (n : Nat) : Fld := ⟨A.STK_STAT n, 31, 1⟩
abbrev STK_STAT_SPEED (n : Nat) : Fld := ⟨A.STK_STAT n, 16, 3⟩
abbrev STK_STAT_QLEVEL (n : Nat) : Fld := ⟨A.STK_STAT n, 0, 7⟩
abbrev STK_IRQ_STAT_FRZDROP (n : Nat) : Fld := ⟨A.STK_IRQ_STAT n, 2, 1⟩
abbrev STK_IRQ_STAT_CALDONE (n : Nat) : Fld := ⟨A.STK_IRQ_STAT n, 1, 1⟩
abbrev STK_IRQ_STAT_TSLOST (n : Nat) : Fld := ⟨A.STK_IRQ_STAT n, 0, 1⟩
abbrev STK_IRQ_EN_FRZDROP (n : Nat) : Fld := ⟨A.STK_IRQ_EN n, 2, 1⟩
abbrev STK_IRQ_EN_CALDONE (n : Nat) : Fld := ⟨A.STK_IRQ_EN n, 1, 1⟩
abbrev STK_IRQ_EN_TSLOST (n : Nat) : Fld := ⟨A.STK_IRQ_EN n, 0, 1⟩
abbrev STK_TRIM_TRIMRX (n : Nat) : Fld := ⟨A.STK_TRIM n, 16, 16⟩
abbrev STK_TRIM_TRIMTX (n : Nat) : Fld := ⟨A.STK_TRIM n, 0, 16⟩
abbrev STK_BRD_BRDRX (n : Nat) : Fld := ⟨A.STK_BRD n, 16, 16⟩
abbrev STK_BRD_BRDTX (n : Nat) : Fld := ⟨A.STK_BRD n, 0, 16⟩
abbrev STK_PHYRX_DELAY (n : Nat) : Fld := ⟨A.STK_PHYRX n, 0, 24⟩
abbrev STK_PHYTX_DELAY (n : Nat) : Fld := ⟨A.STK_PHYTX n, 0, 24⟩
abbrev STK_ASYM_ASYM (n : Nat) : Fld := ⟨A.STK_ASYM n, 0, 32⟩
abbrev STK_LATRX_LAT (n : Nat) : Fld := ⟨A.STK_LATRX n, 0, 32⟩
abbrev STK_LATTX_LAT (n : Nat) : Fld := ⟨A.STK_LATTX n, 0, 32⟩
abbrev STK_CAL_RES (n : Nat) : Fld := ⟨A.STK_CAL n, 16, 16⟩
abbrev STK_CAL_FAIL (n : Nat) : Fld := ⟨A.STK_CAL n, 2, 1⟩
abbrev STK_CAL_BUSY (n : Nat) : Fld := ⟨A.STK_CAL n, 1, 1⟩
abbrev STK_CAL_START (n : Nat) : Fld := ⟨A.STK_CAL n, 0, 1⟩
abbrev STK_TSLOST_CNT_COUNT (n : Nat) : Fld := ⟨A.STK_TSLOST_CNT n, 0, 32⟩
abbrev STK_FRZDROP_CNT_COUNT (n : Nat) : Fld := ⟨A.STK_FRZDROP_CNT n, 0, 32⟩
abbrev STK_LASTRX_W0_FRAC (n : Nat) : Fld := ⟨A.STK_LASTRX_W0 n, 0, 16⟩
abbrev STK_LASTRX_W1_NS (n : Nat) : Fld := ⟨A.STK_LASTRX_W1 n, 0, 30⟩
abbrev STK_LASTRX_W2_SECLO (n : Nat) : Fld := ⟨A.STK_LASTRX_W2 n, 0, 32⟩
abbrev STK_LASTRX_W3_SECHI (n : Nat) : Fld := ⟨A.STK_LASTRX_W3 n, 0, 16⟩
abbrev STK_LASTTX_W0_FRAC (n : Nat) : Fld := ⟨A.STK_LASTTX_W0 n, 0, 16⟩
abbrev STK_LASTTX_W1_NS (n : Nat) : Fld := ⟨A.STK_LASTTX_W1 n, 0, 30⟩
abbrev STK_LASTTX_W2_SECLO (n : Nat) : Fld := ⟨A.STK_LASTTX_W2 n, 0, 32⟩
abbrev STK_LASTTX_W3_SECHI (n : Nat) : Fld := ⟨A.STK_LASTTX_W3 n, 0, 16⟩
abbrev SVP_CFG_HOPLIM : Fld := ⟨A.SVP_CFG, 24, 8⟩
abbrev SVP_CFG_PTPEN : Fld := ⟨A.SVP_CFG, 6, 1⟩
abbrev SVP_CFG_NTPEN : Fld := ⟨A.SVP_CFG, 5, 1⟩
abbrev SVP_CFG_IXEN : Fld := ⟨A.SVP_CFG, 4, 1⟩
abbrev SVP_CFG_SURVEYANS : Fld := ⟨A.SVP_CFG, 3, 1⟩
abbrev SVP_CFG_OOS16 : Fld := ⟨A.SVP_CFG, 2, 1⟩
abbrev SVP_CFG_ICMPEN : Fld := ⟨A.SVP_CFG, 1, 1⟩
abbrev SVP_NTP_CFG_OTHSTRAT : Fld := ⟨A.SVP_NTP_CFG, 24, 8⟩
abbrev SVP_NTP_CFG_DISP0 : Fld := ⟨A.SVP_NTP_CFG, 0, 16⟩
abbrev SVP_KOD_CFG_BUDGET : Fld := ⟨A.SVP_KOD_CFG, 16, 16⟩
abbrev SVP_KOD_CFG_MINPOLL : Fld := ⟨A.SVP_KOD_CFG, 8, 5⟩
abbrev SVP_KOD_CFG_RSTRKOD : Fld := ⟨A.SVP_KOD_CFG, 0, 1⟩
abbrev SVP_CT_CFG_V6PLEN : Fld := ⟨A.SVP_CT_CFG, 8, 8⟩
abbrev SVP_CT_CFG_V4PLEN : Fld := ⟨A.SVP_CT_CFG, 0, 8⟩
abbrev SVP_PTP_CFG_PRIO1 : Fld := ⟨A.SVP_PTP_CFG, 24, 8⟩
abbrev SVP_PTP_CFG_PRIO2 : Fld := ⟨A.SVP_PTP_CFG, 16, 8⟩
abbrev SVP_PTP_CFG_DOMAIN : Fld := ⟨A.SVP_PTP_CFG, 8, 8⟩
abbrev SVP_PTP_CFG_PROFILE : Fld := ⟨A.SVP_PTP_CFG, 4, 2⟩
abbrev SVP_PTP_GRANT_MAXDUR : Fld := ⟨A.SVP_PTP_GRANT, 22, 10⟩
abbrev SVP_PTP_GRANT_MINDUR : Fld := ⟨A.SVP_PTP_GRANT, 12, 10⟩
abbrev SVP_PTP_GRANT_SYNCLOG : Fld := ⟨A.SVP_PTP_GRANT, 4, 4⟩
abbrev SVP_PTP_GRANT_ANNLOG : Fld := ⟨A.SVP_PTP_GRANT, 0, 4⟩
abbrev SVP_GRANT_STAT_CLIENTS : Fld := ⟨A.SVP_GRANT_STAT, 0, 19⟩
abbrev SVP_GRANT_DENY_CNT_COUNT : Fld := ⟨A.SVP_GRANT_DENY_CNT, 0, 32⟩
abbrev SVP_RLC_ACTION (n : Nat) : Fld := ⟨A.SVP_RLC n, 27, 1⟩
abbrev SVP_RLC_BURST (n : Nat) : Fld := ⟨A.SVP_RLC n, 16, 11⟩
abbrev SVP_RLC_RATE (n : Nat) : Fld := ⟨A.SVP_RLC n, 0, 11⟩
abbrev SVP_HOSTMAP_SPREAD (n : Nat) : Fld := ⟨A.SVP_HOSTMAP n, 6, 2⟩
abbrev SVP_HOSTMAP_BASE (n : Nat) : Fld := ⟨A.SVP_HOSTMAP n, 0, 4⟩
abbrev SVP_PL_STAT_QDEPTH (n : Nat) : Fld := ⟨A.SVP_PL_STAT n, 0, 13⟩
abbrev SVP_PL_CNTCLR_CLR (n : Nat) : Fld := ⟨A.SVP_PL_CNTCLR n, 0, 1⟩
abbrev SVP_ACL_ADDR_W0_ADDR (n : Nat) : Fld := ⟨A.SVP_ACL_ADDR_W0 n, 0, 32⟩
abbrev SVP_ACL_ADDR_W1_ADDR (n : Nat) : Fld := ⟨A.SVP_ACL_ADDR_W1 n, 0, 32⟩
abbrev SVP_ACL_ADDR_W2_ADDR (n : Nat) : Fld := ⟨A.SVP_ACL_ADDR_W2 n, 0, 32⟩
abbrev SVP_ACL_ADDR_W3_ADDR (n : Nat) : Fld := ⟨A.SVP_ACL_ADDR_W3 n, 0, 32⟩
abbrev SVP_ACL_CTL_EN (n : Nat) : Fld := ⟨A.SVP_ACL_CTL n, 31, 1⟩
abbrev SVP_ACL_CTL_V6 (n : Nat) : Fld := ⟨A.SVP_ACL_CTL n, 30, 1⟩
abbrev SVP_ACL_CTL_ACTION (n : Nat) : Fld := ⟨A.SVP_ACL_CTL n, 28, 2⟩
abbrev SVP_ACL_CTL_CLASS (n : Nat) : Fld := ⟨A.SVP_ACL_CTL n, 16, 4⟩
abbrev SVP_ACL_CTL_PLEN (n : Nat) : Fld := ⟨A.SVP_ACL_CTL n, 0, 8⟩
abbrev SVP_SA_ADDR_W0_ADDR (n : Nat) : Fld := ⟨A.SVP_SA_ADDR_W0 n, 0, 32⟩
abbrev SVP_SA_ADDR_W1_ADDR (n : Nat) : Fld := ⟨A.SVP_SA_ADDR_W1 n, 0, 32⟩
abbrev SVP_SA_ADDR_W2_ADDR (n : Nat) : Fld := ⟨A.SVP_SA_ADDR_W2 n, 0, 32⟩
abbrev SVP_SA_ADDR_W3_ADDR (n : Nat) : Fld := ⟨A.SVP_SA_ADDR_W3 n, 0, 32⟩
abbrev SVP_SA_MAC_W0_MAC (n : Nat) : Fld := ⟨A.SVP_SA_MAC_W0 n, 0, 32⟩
abbrev SVP_SA_MAC_W1_MAC (n : Nat) : Fld := ⟨A.SVP_SA_MAC_W1 n, 0, 16⟩
abbrev SVP_SA_MAC_W1_VID (n : Nat) : Fld := ⟨A.SVP_SA_MAC_W1 n, 16, 12⟩
abbrev SVP_SA_CTL_EN (n : Nat) : Fld := ⟨A.SVP_SA_CTL n, 31, 1⟩
abbrev SVP_SA_CTL_V6 (n : Nat) : Fld := ⟨A.SVP_SA_CTL n, 30, 1⟩
abbrev SVP_SA_CTL_PORT (n : Nat) : Fld := ⟨A.SVP_SA_CTL n, 27, 3⟩
abbrev SVP_SA_CTL_NTSREQ (n : Nat) : Fld := ⟨A.SVP_SA_CTL n, 3, 1⟩
abbrev SVP_SA_CTL_PTP (n : Nat) : Fld := ⟨A.SVP_SA_CTL n, 2, 1⟩
abbrev SVP_SA_CTL_NTS (n : Nat) : Fld := ⟨A.SVP_SA_CTL n, 1, 1⟩
abbrev SVP_SA_CTL_NTP (n : Nat) : Fld := ⟨A.SVP_SA_CTL n, 0, 1⟩
abbrev SVP_PL_CNT_W0_COUNT (n : Nat) (k : Nat) : Fld := ⟨A.SVP_PL_CNT_W0 n k, 0, 32⟩
abbrev SVP_PL_CNT_W1_COUNT (n : Nat) (k : Nat) : Fld := ⟨A.SVP_PL_CNT_W1 n k, 0, 32⟩
abbrev SKO_CTL_DEVFBK : Fld := ⟨A.SKO_CTL, 8, 1⟩
abbrev SKO_CTL_PORTEN : Fld := ⟨A.SKO_CTL, 0, 4⟩
abbrev SKO_IRQ_STAT_PAUSED : Fld := ⟨A.SKO_IRQ_STAT, 12, 4⟩
abbrev SKO_IRQ_STAT_LATE : Fld := ⟨A.SKO_IRQ_STAT, 8, 4⟩
abbrev SKO_IRQ_STAT_NOTICKET : Fld := ⟨A.SKO_IRQ_STAT, 4, 4⟩
abbrev SKO_IRQ_STAT_DEV : Fld := ⟨A.SKO_IRQ_STAT, 0, 4⟩
abbrev SKO_IRQ_EN_PAUSED : Fld := ⟨A.SKO_IRQ_EN, 12, 4⟩
abbrev SKO_IRQ_EN_LATE : Fld := ⟨A.SKO_IRQ_EN, 8, 4⟩
abbrev SKO_IRQ_EN_NOTICKET : Fld := ⟨A.SKO_IRQ_EN, 4, 4⟩
abbrev SKO_IRQ_EN_DEV : Fld := ⟨A.SKO_IRQ_EN, 0, 4⟩
abbrev SKO_P_LAT0_NTS (n : Nat) : Fld := ⟨A.SKO_P_LAT0 n, 16, 16⟩
abbrev SKO_P_LAT0_NTP (n : Nat) : Fld := ⟨A.SKO_P_LAT0 n, 0, 16⟩
abbrev SKO_P_LAT1_LATETOL (n : Nat) : Fld := ⟨A.SKO_P_LAT1 n, 16, 16⟩
abbrev SKO_P_LAT1_PTP (n : Nat) : Fld := ⟨A.SKO_P_LAT1 n, 0, 16⟩
abbrev SKO_P_CFG_PAUSEHON (n : Nat) : Fld := ⟨A.SKO_P_CFG n, 5, 1⟩
abbrev SKO_P_CFG_PFCEXEMPT (n : Nat) : Fld := ⟨A.SKO_P_CFG n, 4, 1⟩
abbrev SKO_P_CFG_TC (n : Nat) : Fld := ⟨A.SKO_P_CFG n, 0, 3⟩
abbrev SKO_P_STAT_HWM (n : Nat) : Fld := ⟨A.SKO_P_STAT n, 16, 14⟩
abbrev SKO_P_STAT_INUSE (n : Nat) : Fld := ⟨A.SKO_P_STAT n, 0, 14⟩
abbrev SKO_P_PERIOD_W0_PERIOD (n : Nat) : Fld := ⟨A.SKO_P_PERIOD_W0 n, 0, 32⟩
abbrev SKO_P_PERIOD_W1_PERIOD (n : Nat) : Fld := ⟨A.SKO_P_PERIOD_W1 n, 0, 5⟩
abbrev SKO_P_PERIOD_W1_VALID (n : Nat) : Fld := ⟨A.SKO_P_PERIOD_W1 n, 31, 1⟩
abbrev SKO_P_DEVMAX_DEV (n : Nat) : Fld := ⟨A.SKO_P_DEVMAX n, 0, 32⟩
abbrev SKO_P_CNTCLR_CLR (n : Nat) : Fld := ⟨A.SKO_P_CNTCLR n, 0, 1⟩
abbrev SKO_P_CNT_W0_COUNT (n : Nat) (k : Nat) : Fld := ⟨A.SKO_P_CNT_W0 n k, 0, 32⟩
abbrev SKO_P_CNT_W1_COUNT (n : Nat) (k : Nat) : Fld := ⟨A.SKO_P_CNT_W1 n k, 0, 32⟩
abbrev CRL_NTS_CFG_ROOTSRC : Fld := ⟨A.CRL_NTS_CFG, 31, 1⟩
abbrev CRL_NTS_CFG_ROOTSLOT : Fld := ⟨A.CRL_NTS_CFG, 16, 9⟩
abbrev CRL_NTS_CFG_PERIOD : Fld := ⟨A.CRL_NTS_CFG, 0, 8⟩
abbrev CRL_NTS_EPOCH_EPOCH : Fld := ⟨A.CRL_NTS_EPOCH, 0, 32⟩
abbrev CRL_NTS_KCV_W0_KCV : Fld := ⟨A.CRL_NTS_KCV_W0, 0, 32⟩
abbrev CRL_NTS_KCV_W1_KCV : Fld := ⟨A.CRL_NTS_KCV_W1, 0, 32⟩
abbrev CRL_NTS_STAT_ROOTOK : Fld := ⟨A.CRL_NTS_STAT, 31, 1⟩
abbrev CRL_NTS_STAT_MISMATCH : Fld := ⟨A.CRL_NTS_STAT, 30, 1⟩
abbrev CRL_NTS_STAT_NORNG : Fld := ⟨A.CRL_NTS_STAT, 29, 1⟩
abbrev CRL_NTS_STAT_SIVBUSY : Fld := ⟨A.CRL_NTS_STAT, 0, 4⟩
abbrev CRL_NTS_IRQ_STAT_NORNG : Fld := ⟨A.CRL_NTS_IRQ_STAT, 3, 1⟩
abbrev CRL_NTS_IRQ_STAT_REKEY : Fld := ⟨A.CRL_NTS_IRQ_STAT, 2, 1⟩
abbrev CRL_NTS_IRQ_STAT_MISMATCH : Fld := ⟨A.CRL_NTS_IRQ_STAT, 1, 1⟩
abbrev CRL_NTS_IRQ_STAT_EPOCH : Fld := ⟨A.CRL_NTS_IRQ_STAT, 0, 1⟩
abbrev CRL_NTS_IRQ_EN_NORNG : Fld := ⟨A.CRL_NTS_IRQ_EN, 3, 1⟩
abbrev CRL_NTS_IRQ_EN_REKEY : Fld := ⟨A.CRL_NTS_IRQ_EN, 2, 1⟩
abbrev CRL_NTS_IRQ_EN_MISMATCH : Fld := ⟨A.CRL_NTS_IRQ_EN, 1, 1⟩
abbrev CRL_NTS_IRQ_EN_EPOCH : Fld := ⟨A.CRL_NTS_IRQ_EN, 0, 1⟩
abbrev CRL_NTS_CNTCLR_CLR : Fld := ⟨A.CRL_NTS_CNTCLR, 0, 1⟩
abbrev CRL_NTS_CNT_W0_COUNT (n : Nat) : Fld := ⟨A.CRL_NTS_CNT_W0 n, 0, 32⟩
abbrev CRL_NTS_CNT_W1_COUNT (n : Nat) : Fld := ⟨A.CRL_NTS_CNT_W1 n, 0, 32⟩
abbrev SPU_KE_CFG_MAXSESS : Fld := ⟨A.SPU_KE_CFG, 16, 16⟩
abbrev SPU_KE_CFG_TIMEOUT : Fld := ⟨A.SPU_KE_CFG, 8, 8⟩
abbrev SPU_KE_CFG_SUITEPREF : Fld := ⟨A.SPU_KE_CFG, 6, 1⟩
abbrev SPU_KE_CFG_AES256 : Fld := ⟨A.SPU_KE_CFG, 5, 1⟩
abbrev SPU_KE_CFG_AES128 : Fld := ⟨A.SPU_KE_CFG, 4, 1⟩
abbrev SPU_KE_GRP_G2 : Fld := ⟨A.SPU_KE_GRP, 4, 2⟩
abbrev SPU_KE_GRP_G1 : Fld := ⟨A.SPU_KE_GRP, 2, 2⟩
abbrev SPU_KE_GRP_G0 : Fld := ⟨A.SPU_KE_GRP, 0, 2⟩
abbrev SPU_KE_SRV_SRVEN : Fld := ⟨A.SPU_KE_SRV, 31, 1⟩
abbrev SPU_KE_SRV_SRVSA : Fld := ⟨A.SPU_KE_SRV, 0, 9⟩
abbrev SPU_KE_CERT_EN (n : Nat) : Fld := ⟨A.SPU_KE_CERT n, 31, 1⟩
abbrev SPU_KE_CERT_SCHEME (n : Nat) : Fld := ⟨A.SPU_KE_CERT n, 24, 3⟩
abbrev SPU_KE_CERT_KEYSLOT (n : Nat) : Fld := ⟨A.SPU_KE_CERT n, 0, 9⟩
abbrev SPU_KE_STAT_CERTOK : Fld := ⟨A.SPU_KE_STAT, 24, 4⟩
abbrev SPU_KE_STAT_SESSIONS : Fld := ⟨A.SPU_KE_STAT, 0, 17⟩
abbrev SPU_KE_CNTCLR_CLR : Fld := ⟨A.SPU_KE_CNTCLR, 0, 1⟩
abbrev SPU_KE_CNT_W0_COUNT (n : Nat) : Fld := ⟨A.SPU_KE_CNT_W0 n, 0, 32⟩
abbrev SPU_KE_CNT_W1_COUNT (n : Nat) : Fld := ⟨A.SPU_KE_CNT_W1 n, 0, 32⟩
abbrev PKE_CFG_HOSTCORES : Fld := ⟨A.PKE_CFG, 24, 5⟩
abbrev PKE_CFG_HOSTRES : Fld := ⟨A.PKE_CFG, 16, 5⟩
abbrev PKE_CFG_COREEN : Fld := ⟨A.PKE_CFG, 0, 16⟩
abbrev PKE_STAT_HOST : Fld := ⟨A.PKE_STAT, 16, 16⟩
abbrev PKE_STAT_BUSY : Fld := ⟨A.PKE_STAT, 0, 16⟩
abbrev PKE_ISOL_ISOL : Fld := ⟨A.PKE_ISOL, 0, 16⟩
abbrev PKE_ABORT_RINGS : Fld := ⟨A.PKE_ABORT, 0, 8⟩
abbrev PKE_IRQ_STAT_ISOL : Fld := ⟨A.PKE_IRQ_STAT, 2, 1⟩
abbrev PKE_IRQ_STAT_RNG : Fld := ⟨A.PKE_IRQ_STAT, 1, 1⟩
abbrev PKE_IRQ_STAT_ABORT : Fld := ⟨A.PKE_IRQ_STAT, 0, 1⟩
abbrev PKE_IRQ_EN_ISOL : Fld := ⟨A.PKE_IRQ_EN, 2, 1⟩
abbrev PKE_IRQ_EN_RNG : Fld := ⟨A.PKE_IRQ_EN, 1, 1⟩
abbrev PKE_IRQ_EN_ABORT : Fld := ⟨A.PKE_IRQ_EN, 0, 1⟩
abbrev PKE_CNTCLR_CLR : Fld := ⟨A.PKE_CNTCLR, 0, 1⟩
abbrev PKE_CNT_W0_COUNT (n : Nat) : Fld := ⟨A.PKE_CNT_W0 n, 0, 32⟩
abbrev PKE_CNT_W1_COUNT (n : Nat) : Fld := ⟨A.PKE_CNT_W1 n, 0, 32⟩
abbrev KST_STAT_ATTOK : Fld := ⟨A.KST_STAT, 31, 1⟩
abbrev KST_STAT_PUFOK : Fld := ⟨A.KST_STAT, 30, 1⟩
abbrev KST_STAT_USED : Fld := ⟨A.KST_STAT, 0, 10⟩
abbrev KST_SLOT_INFO_ORIGIN (n : Nat) : Fld := ⟨A.KST_SLOT_INFO n, 28, 2⟩
abbrev KST_SLOT_INFO_TYPE (n : Nat) : Fld := ⟨A.KST_SLOT_INFO n, 24, 4⟩
abbrev KST_SLOT_INFO_USAGE (n : Nat) : Fld := ⟨A.KST_SLOT_INFO n, 16, 4⟩
abbrev KST_SLOT_INFO_BITS (n : Nat) : Fld := ⟨A.KST_SLOT_INFO n, 0, 15⟩
abbrev HMI_CFG_IRQPIN : Fld := ⟨A.HMI_CFG, 31, 1⟩
abbrev HMI_CFG_MAXSPD : Fld := ⟨A.HMI_CFG, 4, 2⟩
abbrev HMI_CFG_MAXW : Fld := ⟨A.HMI_CFG, 0, 2⟩
abbrev HMI_STAT_LINK : Fld := ⟨A.HMI_STAT, 31, 1⟩
abbrev HMI_STAT_BME : Fld := ⟨A.HMI_STAT, 30, 1⟩
abbrev HMI_STAT_MSIX : Fld := ⟨A.HMI_STAT, 29, 1⟩
abbrev HMI_STAT_D3 : Fld := ⟨A.HMI_STAT, 28, 1⟩
abbrev HMI_STAT_SPEED : Fld := ⟨A.HMI_STAT, 8, 4⟩
abbrev HMI_STAT_WIDTH : Fld := ⟨A.HMI_STAT, 0, 3⟩
abbrev HMI_IRQ_PEND_W0_PEND : Fld := ⟨A.HMI_IRQ_PEND_W0, 0, 32⟩
abbrev HMI_IRQ_PEND_W1_PEND : Fld := ⟨A.HMI_IRQ_PEND_W1, 0, 32⟩
abbrev HMI_MEM_STAT_TRAINED : Fld := ⟨A.HMI_MEM_STAT, 31, 1⟩
abbrev HMI_MEM_STAT_SELFREF : Fld := ⟨A.HMI_MEM_STAT, 30, 1⟩
abbrev HMI_RST_CNT_COUNT : Fld := ⟨A.HMI_RST_CNT, 0, 32⟩
abbrev HMI_R_BASE_W0_BASE (n : Nat) : Fld := ⟨A.HMI_R_BASE_W0 n, 12, 20⟩
abbrev HMI_R_BASE_W1_BASE (n : Nat) : Fld := ⟨A.HMI_R_BASE_W1 n, 0, 32⟩
abbrev HMI_R_WB_W0_WB (n : Nat) : Fld := ⟨A.HMI_R_WB_W0 n, 3, 29⟩
abbrev HMI_R_WB_W1_WB (n : Nat) : Fld := ⟨A.HMI_R_WB_W1 n, 0, 32⟩
abbrev HMI_R_CFG_EN (n : Nat) : Fld := ⟨A.HMI_R_CFG n, 31, 1⟩
abbrev HMI_R_CFG_SIZE (n : Nat) : Fld := ⟨A.HMI_R_CFG n, 24, 5⟩
abbrev HMI_R_CFG_BUFSZ (n : Nat) : Fld := ⟨A.HMI_R_CFG n, 8, 9⟩
abbrev HMI_R_TAIL_TAIL (n : Nat) : Fld := ⟨A.HMI_R_TAIL n, 0, 16⟩
abbrev HMI_R_HEAD_HEAD (n : Nat) : Fld := ⟨A.HMI_R_HEAD n, 0, 16⟩
abbrev HMI_R_IRQ_EN (n : Nat) : Fld := ⟨A.HMI_R_IRQ n, 31, 1⟩
abbrev HMI_R_IRQ_TMR (n : Nat) : Fld := ⟨A.HMI_R_IRQ n, 16, 10⟩
abbrev HMI_R_IRQ_CNT (n : Nat) : Fld := ⟨A.HMI_R_IRQ n, 8, 8⟩
abbrev HMI_R_IRQ_VEC (n : Nat) : Fld := ⟨A.HMI_R_IRQ n, 0, 5⟩
abbrev HMI_R_LIM_MAXFRM (n : Nat) : Fld := ⟨A.HMI_R_LIM n, 18, 14⟩
abbrev HMI_R_LIM_WAIT (n : Nat) : Fld := ⟨A.HMI_R_LIM n, 0, 14⟩
abbrev HMI_R_COAL_COALESCE (n : Nat) : Fld := ⟨A.HMI_R_COAL n, 0, 16⟩
abbrev HMI_R_STAT_ACTIVE (n : Nat) : Fld := ⟨A.HMI_R_STAT n, 31, 1⟩
abbrev HMI_R_STAT_CFGERR (n : Nat) : Fld := ⟨A.HMI_R_STAT n, 3, 1⟩
abbrev HMI_R_STAT_TAILERR (n : Nat) : Fld := ⟨A.HMI_R_STAT n, 2, 1⟩
abbrev HMI_R_STAT_INVALID (n : Nat) : Fld := ⟨A.HMI_R_STAT n, 1, 1⟩
abbrev HMI_R_STAT_CLAMP (n : Nat) : Fld := ⟨A.HMI_R_STAT n, 0, 1⟩
abbrev HMI_R_DROP_CNT_COUNT (n : Nat) : Fld := ⟨A.HMI_R_DROP_CNT n, 0, 32⟩
abbrev HMI_R_OVS_CNT_COUNT (n : Nat) : Fld := ⟨A.HMI_R_OVS_CNT n, 0, 32⟩
abbrev SYS_FLT_CFG_RESP (n : Nat) : Fld := ⟨A.SYS_FLT_CFG n, 30, 2⟩
abbrev SYS_FLT_CFG_N (n : Nat) : Fld := ⟨A.SYS_FLT_CFG n, 20, 10⟩
abbrev SYS_FLT_CFG_WIN (n : Nat) : Fld := ⟨A.SYS_FLT_CFG n, 0, 20⟩

end F

end Sys2Proof.Machine
end

