-- ==== Sys2Proof/Machine/Frac.lean ====
section
/-! DEFINITION. Exact fractions in lowest terms, for phases, frequencies and fits: functions that the kernel evaluates on numerals. -/
namespace Sys2Proof.Machine

/-- A fraction; `den` is not zero in every value that the functions below build. -/
structure Frac where
  num : Int
  den : Nat
deriving DecidableEq, Repr

/-- A fraction in lowest terms; a quotient by zero is 0. -/
def Frac.of (n : Int) (d : Nat) : Frac :=
  if d = 0 then ⟨0, 1⟩
  else
    let g := Nat.gcd n.natAbs d
    ⟨n / (g : Int), d / g⟩

/-- A whole number. -/
def Frac.int (n : Int) : Frac := ⟨n, 1⟩

/-- Zero. -/
def Frac.zero : Frac := ⟨0, 1⟩

/-- Sum. -/
def Frac.add (a b : Frac) : Frac := of (a.num * b.den + b.num * a.den) (a.den * b.den)

/-- Negation. -/
def Frac.neg (a : Frac) : Frac := ⟨-a.num, a.den⟩

/-- Difference. -/
def Frac.sub (a b : Frac) : Frac := a.add b.neg

/-- Product. -/
def Frac.mul (a b : Frac) : Frac := of (a.num * b.num) (a.den * b.den)

/-- Quotient; by zero it is 0. -/
def Frac.div (a b : Frac) : Frac :=
  if b.num < 0 then of (-(a.num * b.den)) (a.den * b.num.natAbs) else of (a.num * b.den) (a.den * b.num.natAbs)

/-- Less than. -/
def Frac.lt (a b : Frac) : Bool := decide (a.num * b.den < b.num * a.den)

/-- At most. -/
def Frac.le (a b : Frac) : Bool := decide (a.num * b.den ≤ b.num * a.den)

/-- Magnitude. -/
def Frac.abs (a : Frac) : Frac := ⟨(a.num.natAbs : Int), a.den⟩

/-- The greatest integer at or below. -/
def Frac.floor (a : Frac) : Int := a.num / (a.den : Int)

/-- The least integer at or above. -/
def Frac.ceil (a : Frac) : Int := -((-a.num) / (a.den : Int))

/-- The nearest integer, ties upward. -/
def Frac.round (a : Frac) : Int := (2 * a.num + a.den) / (2 * a.den : Nat)

/-- The larger of two. -/
def Frac.max (a b : Frac) : Frac := if a.lt b then b else a

/-- The smaller of two. -/
def Frac.min (a b : Frac) : Frac := if b.lt a then b else a

/-- Sum of a list. -/
def Frac.sum (l : List Frac) : Frac := l.foldl add zero

/-- The range above -p/2 and up to p/2, modulo p (R248). -/
def Frac.wrap (a p : Frac) : Frac :=
  let k := (a.div p).sub (of 1 2)
  a.sub (p.mul (int k.ceil))

end Sys2Proof.Machine
end

