-- ==== Sys2Proof/Machine/Map.lean ====
section
/-! DEFINITION. Sparse data by key: a list of key and value pairs with strictly rising keys. Equal maps are equal lists. -/
namespace Sys2Proof.Machine

/-- A sparse map from numbers. Its canonical form is `Map.sorted`. -/
abbrev Map (α : Type) := List (Nat × α)

/-- The value at a key. -/
def Map.get {α : Type} : Map α → Nat → Option α
  | [], _ => none
  | (j, v) :: m, k => if j = k then some v else Map.get m k

/-- Store a value at a key, keeping the keys rising. -/
def Map.put {α : Type} : Map α → Nat → α → Map α
  | [], k, v => [(k, v)]
  | (j, w) :: m, k, v =>
    if k < j then (k, v) :: (j, w) :: m
    else if k = j then (k, v) :: m
    else (j, w) :: Map.put m k v

/-- Remove a key. -/
def Map.del {α : Type} : Map α → Nat → Map α
  | [], _ => []
  | (j, w) :: m, k => if j = k then m else (j, w) :: Map.del m k

/-- Every key of the map is above `lo`, and the keys rise. -/
def Map.above {α : Type} (lo : Nat) : Map α → Bool
  | [] => true
  | (j, _) :: m => decide (lo < j) && Map.above j m

/-- The canonical form: strictly rising keys. -/
def Map.sorted {α : Type} : Map α → Bool
  | [] => true
  | (j, _) :: m => Map.above j m

/-- Change the value at a key where there is one. -/
def Map.modify {α : Type} (m : Map α) (k : Nat) (f : α → α) : Map α :=
  match Map.get m k with
  | some v => Map.put m k (f v)
  | none => m

end Sys2Proof.Machine
end

