-- ==== Sys2Proof/Machine/State.lean ====
section
/-! DEFINITION. The state of the FX4860: every register, queue, table, counter, mode and pin that the spec gives the device, as plain data; its reset; the reasons a step may stop. -/
namespace Sys2Proof.Machine

/-! ## What leaves the device -/

/-- One thing the device sent to the world. `State.out` holds them newest first. -/
inductive Emission where
  /-- A frame on a port (0-3 P0-P3, 4 F0, 5 F1, 6 MGT) with the Datum instant of its start. -/
  | frame (port : Nat) (data : Bytes) (start : Instant)
  /-- The frame that was leaving a port ended at this instant: with an error control character on a serial port (R118, R124), with the 32-bit jam on a field
  port after a collision (R206). -/
  | cut (port : Nat) (at_ : Instant)
  /-- A PCIe memory write as bus master (R317). -/
  | dma (addr : Nat) (data : Bytes)
  /-- An MSI-X message of a vector with the address and data of its table entry (R321, R414). -/
  | msix (vector addr data : Nat)
  /-- Data returned by a register read on MW0 (path 0) or MSPI (path 1) (R8): the bytes that `be` addresses, and 0 in place of the others (R13). -/
  | read (path addr be : Nat) (word : Word)
  /-- The bytes of an MSPI reply, status included (R337). -/
  | mspi (data : Bytes)
  /-- A claim frame on CLAIM_TX and the echo path (R298). -/
  | claim (bits : BitVec 64)
  /-- A frame on the Dvorgo lanes (R304). -/
  | dvl (frame : DvlFrame)
  /-- A management frame on MDC and MDIO (R210). -/
  | mdio (bits : BitVec 32)
  /-- An edge that an output divider places: the output, the target instant, and the remainder in 2^-64 ns; its delay from the firing edge is 12 DCLK
  minus the remainder, plus what LAT adds to 12 DCLK (R71, R289-R291). `width` is the pulse width in DCLK, 0 for the divider of a CLOCK output. While a pulse is
high (`again`) there is no edge: the width counts anew from there (R289). -/
  | pulse (out : Nat) (target : Instant) (remainder width : Nat) (again : Bool)
  /-- A divider reset by SYNC_IN: the output, and the delay of its first rising edge from the sampling edge in ps (R291). -/
  | restart (out : Nat) (ps : Int)
  /-- TLS records of a key-establishment session, and a TCP RST where there are none (R151, R156). -/
  | tls (session : Nat) (data : Bytes)
  /-- A bit string shifted out of the TAP (R427). -/
  | tdo (data : Bytes)
deriving DecidableEq, Repr

/-! ## Field Book (R386-R396) -/

/-- One Field Book entry (R387): the Datum value, SOURCE, CODE and four arguments. `bad` marks a stored copy that an
uncorrectable error made unreadable (R40, R384). -/
structure Entry where
  datum : Instant
  src : Nat
  code : Nat
  a0 : Nat
  a1 : Nat
  a2 : Nat
  a3 : Nat
  bad : Bool
deriving DecidableEq, Repr

/-- An entry waiting in a block's queue (R388): the block, the edge on which it reached the queue, the entry. -/
structure QEntry where
  block : Nat
  edge : Nat
  entry : Entry
deriving DecidableEq, Repr

/-- The seal block of a segment (R390). -/
structure Seal where
  time : Instant
  unsigned : Bool
  padded : Bool
  seg : Nat
  chainId : Nat
  hash : Bytes
  sig : Bytes
  padCount : Nat
deriving DecidableEq, Repr

/-- A full segment in the DRAM region of R392: its entries, its seal block once written, and what was delivered (R392, R395). -/
structure Segment where
  entries : List Entry
  hash : Bytes
  sealBlk : Option Seal
  padCount : Nat
  lostDelivery : Bool
deriving DecidableEq, Repr

/-- The Field Book: block queues, the open segment, the stored segments, retention in PD0 and the chain head in PD1. -/
structure FbkState where
  /-- Entries in the block queues, in order of arrival (R388). -/
  queued : List QEntry
  /-- Entries lost at a full queue since the block's last gap entry (R388). -/
  lost : Map Nat
  /-- Entries of the open segment, oldest first (R389). -/
  openSeg : List Entry
  /-- Whether an entry of the open segment was not delivered (R392, R395). -/
  openUndelivered : Bool
  /-- Full segments held in DRAM (R392). -/
  segs : Map Segment
  /-- H(g-1): the hash of the last full segment of the chain (R389); 48 zero bytes at the start of a chain. -/
  prevHash : Bytes
  /-- H(S) of the chain head in PD1 (R393). -/
  headHash : Bytes
  /-- Whether PD1 still holds a chain head (R394). -/
  headKept : Bool
  /-- Retention in PD0: journal index and entry, oldest first, at most 256 (R393). The index is 2^64 for an entry that has no place in the
  journal yet, and 2^65 for one that a sealed segment holds. -/
  retained : List (Nat × Entry)
  /-- Entries that the lost open segment held when the release took it (R394). -/
  openLost : Nat
  /-- The journal stands in DRAM: training done and the chain resumed (R394). -/
  resumed : Bool
  /-- Signatures of seals that a core has made, by segment, and empty where the operation was aborted (R390). -/
  sigs : Map Bytes
  /-- Ticks since the last periodic seal (R391). -/
  sealTicks : Nat
deriving DecidableEq, Repr

/-! ## Fault manager (R379-R384) -/

/-- A fault event on its way to the fault manager (R28, R379). -/
structure FaultEv where
  code : FaultCode
  source : Nat
  datum : Instant
  a1 : Nat
  a2 : Nat
  a3 : Nat
deriving DecidableEq, Repr

/-- The bucket of one source (R380), and what R387 needs for its records. -/
structure Bucket where
  level : Nat
  unrecorded : Nat
  seenThisTick : Bool
deriving DecidableEq, Repr

/-- The fault manager. -/
structure FltState where
  /-- Events that wait to be judged, oldest first (R28). -/
  queue : List FaultEv
  /-- Buckets by class * 65536 + source (R379). -/
  buckets : Map Bucket
  /-- The strongest mode response of the faults that became lasting since the last tick, 2 or 3, and the class of its fault (R368, R383). -/
  resp : Option (Nat × Nat)
  /-- Alarms raised since the last tick, by bit (R385). -/
  raised : Nat
  /-- Isolated crypto lanes, by the instance numbers of R400 (R383). -/
  isoLanes : Nat
  /-- Isolated service processors (R383). -/
  isoSpus : Nat
  /-- Isolated output synthesizers, bit n for SYNn (R383). -/
  isoSyns : Nat
deriving DecidableEq, Repr

/-! ## System controller (R360-R378) -/

/-- Whether the device has power and is out of reset: the two states of R368 that are no mode, and the modes. -/
inductive Phase where
  | off | reset | running
deriving DecidableEq, Repr

/-- One entry of the clamp report: W0 to W3 (R356). -/
structure ClampEntry where
  w0 : Nat
  w1 : Nat
  w2 : Nat
  w3 : Nat
deriving DecidableEq, Repr

/-- What the boot controller has reached in the slot that it tries (R346, R348). -/
inductive BootStage where
  | header | body | signatures | firmware | regs | keys | certs | finish | ended
deriving DecidableEq, Repr

/-- The boot controller. -/
structure BootRun where
  /-- The slots whose header is still to be read, and those whose body is still to be read, in order (R341): 0 A, 1 B. -/
  headers : List Nat
  bodies : List Nat
  /-- The slot being tried, and the DCLK period of the start of its read. -/
  slot : Option Nat
  since : Nat
  stage : BootStage
deriving DecidableEq, Repr

/-- The system controller's own state. -/
structure SysState where
  phase : Phase
  /-- Levels of the strap pins, sampled at each release (R367). -/
  bootsel : Nat
  unitId : Bool
  mspiEn : Bool
  /-- Level of PORST_N (R365): true while it is held low. -/
  porstLow : Bool
  /-- Management ticks in the current mode (SYS_MODE_STAT.SECS counts their seconds). -/
  modeTicks : Nat
  /-- An admitted host request that the next tick decides (R372): the REQ code. -/
  request : Option Nat
  /-- SURVEYMAX has elapsed in this SURVEY (R370). -/
  surveyDone : Bool
  /-- The release in progress is an automatic restart (R372). -/
  autoRestarted : Bool
  /-- A wake that arrived while VIN was not good (R374). -/
  wakeLatched : Bool
  /-- SYS_LIVELOCK has been written since the release (R9, R358). -/
  liveLocked : Bool
  /-- Register writes are admitted: the image is loaded, or BOOT is over (R349). -/
  writesOpen : Bool
  /-- Management ticks since the release, and the DCLK periods that have passed since the last of them (R26). -/
  ticks : Nat
  tickPhase : Nat
  /-- Bank voltages have been set since the release (R375). -/
  banksSet : Bool
  /-- Banks whose outputs wait for the settle time of R425, bit n for BKn, and the DCLK period of the write. -/
  bankSettling : Nat
  bankAt : Nat
  /-- The DCLK period of the release. -/
  releasedAt : Nat
  /-- Ticks spent in SERVE or SHADOW without interruption (R372). -/
  serviceTicks : Nat
  /-- Records of clamps, oldest first, at most 4,096 (R356). -/
  clamps : List ClampEntry
  boot : BootRun
  /-- The boot flash: bytes that differ from 0xFF, by address (R340; assumption log 5). -/
  flash : Map Byte
  /-- A flash operation in progress: OP (0 read, 1 program, 2 erase), address, and the bytes to program as the buffer held them at GO (R357). -/
  flashOp : Option (Nat × Nat × Bytes)
  /-- The TAP instruction in force (R427): 0 BYPASS, 1 IDCODE, 2 SAMPLE/PRELOAD, 3 EXTEST, 4 EXTEST_PULSE, 5 EXTEST_TRAIN, 6 HIGHZ, 7 CLAMP. -/
  tap : Nat
  /-- SYS_RST_CAUSE that the coming release reports (R366). -/
  nextCause : Nat
  /-- VAO has fallen below 2.90 V in MONUMENT (R360). -/
  vaoLow : Bool
deriving DecidableEq, Repr

/-! ## The Datum (R43-R75) -/

/-- A change of the applied rate that is announced and not yet in force (R115): the base rate and the slew rate, in units of 2^-48. -/
structure RateChange where
  due : Instant
  base : Int
  slew : Int
deriving DecidableEq, Repr

/-- A change of a rate that has taken effect: when, and the rate before and after, in units of 2^-48 (R111, R115). -/
structure RateStep where
  at_ : Instant
  before : Int
  after : Int
deriving DecidableEq, Repr

/-- What a source of TAI-UTC and leaps reports (R59-R61): Traverse CH0, PC0 or PC1. -/
structure UtcSource where
  valid : Bool
  offset : Int
  /-- Ticks for which the value has been reported without interruption (R60). -/
  ticks : Nat
  /-- The leap it announces: 0 none, 1 insertion, 2 deletion. -/
  leap : Nat
  /-- The day that the announcement names, as a Modified Julian Date; none for a flag (R61). -/
  leapDay : Option Nat
  /-- The flag has stayed set since a leap was applied and announces nothing (R61). -/
  stale : Bool
deriving DecidableEq, Repr

/-- One of the two domain servos (R65, R66). -/
structure Domain where
  /-- Offset estimate: source minus Datum, in units of 2^-16 ns (R65). -/
  est : Int
  /-- Rate in units of 2^-48, and its part that the loop's integrator holds (R65). -/
  rate : Int
  freq : Int
  /-- Ticks for which the estimate has stayed within LOCKTH (R66). -/
  withinTicks : Nat
  /-- Ticks for which the domain has been LOCKED without interruption (R67). -/
  lockedTicks : Nat
  /-- The last accepted input update, before the present holdover where the domain is the active one (R85), and the last sample of the loop. -/
  lastInput : Instant
  sampled : Instant
  /-- Path delay and offset of the exchanges of the window that is filling, for a PTP source (R65). -/
  window : List (Int × Int)
  /-- An estimate has been delivered since the domain last was NOINPUT. -/
  fed : Bool
deriving DecidableEq, Repr

/-- One outstanding Delay_Req (R74): its sequenceId and the instant at which it left, once the Stake unit has reported it. -/
structure DelayReq where
  seq : Nat
  left : Option Instant
deriving DecidableEq, Repr

/-- The latest Sync of one master (R74): sourcePortIdentity, sequenceId, arrival, and the instant it states when one-step. -/
structure SyncSeen where
  port : Nat
  seq : Nat
  rx : Instant
  corr : Int
  twoStep : Bool
deriving DecidableEq, Repr

/-- What a master's Announce says (R86, R104). -/
structure Announced where
  clockClass : Nat
  accuracy : Nat
  variance : Nat
  timeSource : Nat
  steps : Nat
  /-- The master's IP address, for the reference identifier of R86, 0 on Layer 2; and the MAC that its frames carry. -/
  addr : Nat
  mac : Nat
deriving DecidableEq, Repr

/-- A message that the pipeline delivered to an instance (R75): PTP bytes, arrival instant, source MAC and source IP address (0 on Layer 2). -/
structure PcMsg where
  bytes : Bytes
  inst : Instant
  mac : Nat
  addr : Nat
deriving DecidableEq, Repr

/-- An entry of the PTPMASTERS list (R344): instance, family (0 Layer 2, 1 IPv4, 2 IPv6), local priority, address. -/
structure MasterEntry where
  inst : Nat
  family : Nat
  prio : Nat
  addr : Nat
deriving DecidableEq, Repr

/-- One PTP client instance (R73-R75). -/
structure PtpClient where
  /-- Whether the sequenceId has been drawn since the restart (R73). -/
  started : Bool
  nextSeq : Nat
  outstanding : List DelayReq
  syncs : List SyncSeen
  /-- The last Sync that gave a time: arrival instant and master time (2^-16 ns). -/
  lastSync : Option (Instant × Instant)
  /-- The measured path delay of the last exchange, in units of 2^-16 ns (R86). -/
  delay : Int
  /-- sourcePortIdentity of the selected master; 0 while none is selected. -/
  master : Nat
  announce : Option Announced
  /-- Ticks since a Sync last gave a time (DTM_PCn_CFG.TIMEOUT). -/
  quietTicks : Nat
  /-- Messages that the pipeline delivered, oldest first (R75). -/
  inbox : List PcMsg
deriving DecidableEq, Repr

/-- The Datum, its two domains, the Monument counter, TAI-UTC and the PTP clients. -/
structure DatumState where
  /-- The three copies of the counter, in units of 2^-64 ns (R47, R51). -/
  c0 : Nat
  c1 : Nat
  c2 : Nat
  /-- DCLK edges modulo 3, for the extra unit of R47. -/
  third : Nat
  /-- The Datum has been started in this BOOT (R348). -/
  started : Bool
  /-- Rate without slew, and the slew part, in units of 2^-48 (R47). -/
  base : Int
  slew : Int
  /-- Phase still to be slewed, in units of 2^-64 ns (R49). -/
  slewLeft : Int
  /-- The hand-off whose slew runs: old domain, new domain, phase target in 2^-16 ns (R68). -/
  handoff : Option (Nat × Nat × Int)
  announced : List RateChange
  /-- The latest changes of the applied rate that are in force, oldest first, which a grid point behind an older anchor needs (R111, R115). -/
  steps : List RateStep
  /-- The Monument counter in units of 2^-64 ns, its steering in 2^-48, and whether it holds time (R53, R55). -/
  mon : Nat
  monRate : Int
  monHolds : Bool
  fs : Domain
  bs : Domain
  /-- Ticks left in the settle interval after the start of a hand-off (R67). -/
  settleLeft : Nat
  handoffPending : Bool
  splitTicks : Nat
  /-- The Datum state of R70 that stands under SAFE. -/
  under : Nat
  lockedSinceBoot : Bool
  fromMonument : Bool
  /-- The next offset that the active domain delivers is still to be stepped or slewed out (R50, R55, R70). -/
  offsetDue : Bool
  utcCh0 : UtcSource
  utcPc0 : UtcSource
  utcPc1 : UtcSource
  /-- The fallback offset of R59. -/
  fallback : Int
  /-- The pending leap: its day (MJD), and whether it was accepted after 00:00:00 UTC of that day (R61, R64). -/
  leapDay : Nat
  leapLate : Bool
  /-- Where the pending leap came from: 0 CH0, 1 PC0, 2 PC1, 3 DTM_LEAP_DAY. -/
  leapFrom : Nat
  /-- A leap of DTM_LEAP_DAY that has been applied: its day, so that the register announces it once. -/
  leapDone : Option Nat
  /-- Compare units whose next firing is late, bit n (R50, R54, R72). -/
  cmpLate : Nat
  pc0 : PtpClient
  pc1 : PtpClient
  /-- The PTPMASTERS lists of the image, in order. -/
  masters : List MasterEntry
deriving DecidableEq, Repr

/-! ## Key store and big-number engine (R172-R193) -/

/-- A key store slot that is not empty (R183): type, usage, length in bits, origin, the key material as a blob carries it, and the public half. -/
structure KeySlot where
  typ : Nat
  usage : Nat
  bits : Nat
  origin : Nat
  secret : Bytes
  pub : Bytes
deriving DecidableEq, Repr

/-- Who asked for an operation (R172). -/
inductive PkeOwner where
  /-- The host, on D24 + k: the command's number. -/
  | host (k seq : Nat)
  /-- A key-establishment session, by its number. -/
  | session (id : Nat)
  /-- The seal of a Field Book segment, by its number (R390). -/
  | seal (seg : Nat)
deriving DecidableEq, Repr

/-- An operation that waits for a core or runs on one. -/
structure PkeOp where
  owner : PkeOwner
  block : Bytes
  /-- The copy of the slot that the operation loaded. -/
  key : Option KeySlot
  /-- Status and result once the core has computed them. -/
  outcome : Option (Nat × Bytes)
  /-- The DCLK period in which the core started. -/
  start : Nat
deriving DecidableEq, Repr

/-- The cluster and the key store. -/
structure PkeState where
  cores : Vector (Option PkeOp) 16
  /-- Requests of the service processors, oldest first. -/
  spuQueue : List PkeOp
  /-- Occupied slots. -/
  slots : Map KeySlot
  /-- The command ring, 0 to 7, that host dispatch asks next (R172). -/
  turn : Nat
  /-- Numbers given to host commands. -/
  nextSeq : Nat
deriving DecidableEq, Repr

/-! ## NTS (R144-R171) -/

/-- The NTS keys that the crypto lanes hold. -/
structure CrlState where
  /-- The root key content and the period in s that give the epoch keys; none while no epoch key exists (R147). -/
  root : Option (Bytes × Nat)
  /-- Those of the last derivation, which a new derivation is compared with (R147). -/
  last : Option (Bytes × Nat)
  /-- Epochs whose keys the SIV lanes hold (R145). -/
  held : List Nat
  /-- The DCLK period from which the epoch of the active unit has differed (R148). -/
  epochDiffers : Option Nat
deriving DecidableEq, Repr

/-- A frame in a pipeline (R24, R109), without FCS: its port and ingress instant, and the tag of a tagged packet (R406). -/
structure PlItem where
  port : Fin 7
  bytes : Bytes
  inst : Instant
  tag : Option (Nat × Nat)
deriving DecidableEq, Repr

/-- One direction of a TLS 1.3 connection (R151): its traffic secret, empty while its records are not protected, and the sequence number of its next record. -/
structure TlsDir where
  secret : Bytes
  seq : Nat
deriving DecidableEq, Repr

/-- One session of the key-establishment server (R151-R157). -/
structure KeSession where
  id : Nat
  /-- The port of its connection. -/
  port : Nat
  /-- 0 waits for a ClientHello, 1 for the key pair, 2 for the shared secret, 3 for the signature, 4 for Finished and the request, 5 for the
  client's close, 6 for a lane that seals its cookies. -/
  phase : Nat
  /-- The Datum-independent instant of its SYN, in DCLK periods. -/
  since : Nat
  /-- A HelloRetryRequest was sent. -/
  retried : Bool
  suite : Nat
  group : Nat
  cert : Nat
  /-- The client's key share and the server's scalar, until they are used; and the secret of the key schedule that later steps need: the handshake secret, then the
  exporter secret. -/
  share : Bytes
  scalar : Bytes
  secret : Bytes
  /-- The service address, IP address and TCP port of its connection. -/
  sa : Nat
  peer : Nat × Nat
  /-- legacy_session_id of the ClientHello, and the handshake messages so far. -/
  legacy : Bytes
  transcript : Bytes
  /-- The ServerHello and the messages after it that wait for the signature. -/
  hello : Bytes
  flight : Bytes
  /-- What the client sends and what the server sends; the client's application secret, and whether its Finished has come. -/
  rx : TlsDir
  tx : TlsDir
  clientNext : Bytes
  finished : Bool
  /-- Bytes of 0-RTT records that are still discarded (R153). -/
  early : Nat
  /-- What the connection has brought and is not yet taken as records; a handshake message whose end has not come; and the NTS-KE bytes received (R154). -/
  stream : Bytes
  part : Bytes
  data : Bytes
  /-- The client has closed its side. -/
  closed : Bool
deriving DecidableEq, Repr

/-- The key-establishment server. -/
structure KeState where
  sessions : List KeSession
  nextId : Nat
  /-- Certificate chains of the image by entry (R159). -/
  chains : Map Bytes
  /-- The UTC day, by entry, of its last CERT_EXPIRY record (R160). -/
  expiryDay : Map Nat
  /-- TCP segments for port 4460 that the pipelines delivered and the service processors have not taken, with their service address, oldest first (R23). -/
  segments : List (Nat × PlItem)
  /-- Sessions whose cookies wait for an SIV lane, oldest first (R155, R167). -/
  sealing : List Nat
  /-- What the service processors hold of the image's firmware: the code in their local memory, and its tables in DRAM (R36, R38, R344). -/
  firmware : Bytes
  fwData : Bytes
deriving DecidableEq, Repr

/-! ## Host interface (R317-R339, R412) -/

/-- One entry of the MSI-X table (R412). -/
structure MsixEntry where
  addr : Nat
  data : Nat
  masked : Bool
deriving DecidableEq, Repr

/-- One item of an up-ring queue (R330, R331): a frame with its port and ingress instant, or a record; `seg` is one more than the number of the
Field Book segment that a journal record belongs to, and 0 for everything else (R392). -/
structure UpItem where
  bytes : Bytes
  record : Bool
  port : Nat
  inst : Instant
  seg : Nat
deriving DecidableEq, Repr

/-- Drops of one kind on a ring (R332): in this tick, in the previous one, and the tick of the last one. -/
structure DropTicks where
  tick : Nat
  count : Nat
  prev : Nat
deriving DecidableEq, Repr

/-- The record buffer that a record ring is filling (R331): its slot, its address, its room, the bytes and records in it, and the
instant of its first record in DCLK periods. -/
structure RecBuf where
  slot : Nat
  addr : Nat
  room : Nat
  bytes : Nat
  records : Nat
  clamped : Bool
  since : Nat
deriving DecidableEq, Repr

/-- A host transmit frame that was fetched and is not yet completed (R333, R334). -/
structure DownFrame where
  /-- Its slots in ring order: index, CLAMPED, INVALID. -/
  slots : List (Nat × Bool × Bool)
  id : Nat
  port : Nat
  tsreq : Bool
  /-- STATUS of R334 once it is known. -/
  status : Option Nat
  inst : Option Instant
deriving DecidableEq, Repr

/-- A command that was fetched and is not yet completed on its ring (R335, R336). -/
structure HostCmd where
  /-- The command's number. -/
  seq : Nat
  id : Nat
  pos : Nat
  block : Bytes
  resAddr : Nat
  resLen : Nat
  clamped : Bool
  invalid : Bool
  /-- Dispatched to a core or to the key store. -/
  running : Bool
  /-- The copy of the slot that the command named at dispatch (R190). -/
  key : Option KeySlot
  /-- Status and result once the command has ended (R178), and the DCLK period from which the completion may be written (R176). -/
  done : Option (Nat × Bytes)
  ready : Nat
deriving DecidableEq, Repr

/-- One ring (R323-R336): U0-U31 are 0 to 31 and D0-D31 are 32 to 63. -/
structure Ring where
  /-- Queue of an up-ring, oldest first, with the bytes that it holds (R330). -/
  queue : List UpItem
  /-- WRAPS of R325. -/
  wraps : Nat
  /-- Drops since the last completion that reported them (R329). -/
  drops : Nat
  short : DropTicks
  oversize : DropTicks
  /-- Completions since the interrupt last fired, and the DCLK period of the first (R321). -/
  unsignalled : Nat
  firstAt : Nat
  /-- The DCLK period at which the item at the head began to wait (R330). -/
  waitFrom : Option Nat
  buf : Option RecBuf
  /-- Slots read, invalid ones, that no frame has taken yet on a down frame ring, and frames fetched and not completed. -/
  frames : List DownFrame
  /-- Commands fetched and not completed, in ring order (R336). -/
  cmds : List HostCmd
deriving DecidableEq, Repr

/-- A ring as it is after a release: empty (R326). -/
def Ring.empty : Ring :=
  { queue := [], wraps := 0, drops := 0, short := ⟨0, 0, 0⟩, oversize := ⟨0, 0, 0⟩, unsignalled := 0, firstAt := 0,
    waitFrom := none, buf := none, frames := [], cmds := [] }

/-- The host interface. -/
structure HmiState where
  /-- The MSI-X table by vector; an unlisted vector is masked with address and data 0, as after reset (R412). -/
  msix : Map MsixEntry
  /-- The Pending Bit Array (R412). -/
  pba : Nat
  /-- The rings that are not empty, by r of R323. -/
  rings : Map Ring
  /-- The DCLK period from which ring DMA pauses, from a freeze until the DRAM leaves self-refresh (R320). -/
  dmaPaused : Option Nat
deriving DecidableEq, Repr

/-! ## Performance-monitor hub (R397-R410) -/

/-- A tagged packet in flight (R406, R407). -/
structure Traced where
  pl : Nat
  seq : Nat
  port : Nat
  cls : Nat
  arrive : Instant
  /-- Stage number and stamp, latest first. -/
  stamps : List (Nat × Instant)
  dep : Option Instant
  restaked : Bool
  cacheMiss : Bool
  interleaved : Bool
deriving DecidableEq, Repr

/-- The performance-monitor hub. -/
structure PmcState where
  /-- Packet-tag LFSRs of PL0 to PL3, and instruction-tag LFSRs of the processors (R406, R409). -/
  lfsr : Vector Nat 4
  spuLfsr : Vector Nat 8
  /-- Tag sequence numbers of the pipelines (R408). -/
  tagSeq : Vector Nat 4
  inflight : List Traced
  /-- Stopped event counters, by 8 * u + k: the DCLK period at which each resumes (R403). -/
  stopped : Map Nat
  /-- The counter page of MW2 (R405), 4 KiB; empty stands for all zero. -/
  page : Bytes
  /-- Management ticks since the last periodic snapshot (R404). -/
  snapTicks : Nat
deriving DecidableEq, Repr

/-! ## Replies and Stakeout (R110-R127) -/

/-- The addressing of a frame that the device builds: Ethernet, VLAN, IP and UDP, or Layer 2 PTP. -/
structure Envelope where
  dstMac : Nat
  srcMac : Nat
  /-- The VLAN tag, TPID * 65536 + TCI; 0 is untagged. -/
  tag : Nat
  /-- Layer 2 PTP (EtherType 0x88F7), with no IP and UDP. -/
  l2 : Bool
  v6 : Bool
  srcIp : Nat
  dstIp : Nat
  srcPort : Nat
  dstPort : Nat
  hop : Nat
deriving DecidableEq, Repr

/-- What kind of response a ticket holds: it decides the latency (R116) and what a re-stake rewrites (R120). -/
inductive RespKind where
  | ntpBasic | ntpInterleaved | nts | kod | delayResp | sync | announce
deriving DecidableEq, Repr

/-- The states of a ticket other than FREE (R118). -/
inductive TicketState where
  | staked | late | ready | sending | check
deriving DecidableEq, Repr

/-- What an SIV lane needs to finish an NTS response (R164, R165). -/
structure NtsJob where
  s2c : Bytes
  c2s : Bytes
  /-- Cookies that the response carries; 0 for an authenticated kiss-of-death. -/
  cookies : Nat
  /-- Length of the header and the Unique Identifier field. -/
  clear : Nat
  /-- The plaintext of the new cookies once they are sealed, which a re-stake keeps (R166). -/
  plain : Option Bytes
deriving DecidableEq, Repr

/-- A ticket of Stakeout (R111, R112, R118). Positions on the grid are in units of 2^-32 ns of Datum time. -/
structure Ticket where
  id : Nat
  state : TicketState
  kind : RespKind
  /-- Departure instant. -/
  dep : Instant
  /-- Grid point as a count of start positions from the anchor in force at staking (R111), and how many start positions the anchor has moved on since. -/
  gridK : Nat
  moved : Nat
  /-- The wire reservation, from and to; empty once released (R112). -/
  resFrom : Nat
  resTo : Nat
  restaked : Bool
  /-- The stake latency of its service in ns, in force at the arrival (R29, R116). -/
  latency : Nat
  /-- The staking base: arrival of the request, or issue instant (R116). -/
  base : Instant
  /-- Egress compensation in force when the ticket was staked, in ps (R137). -/
  comp : Int
  env : Envelope
  payload : Bytes
  /-- The place and the tag of the client entry whose PREVTX a re-stake rewrites (R120). -/
  client : Option (Nat × Nat)
  /-- The tagged packet that this response belongs to: pipeline and sequence (R406, R407). -/
  tag : Option (Nat × Nat)
  /-- An NTS response whose tag is still to be computed: the s2c key, the unique identifier field and the new cookies' plaintexts (R164, R165). -/
  nts : Option NtsJob
deriving DecidableEq, Repr

/-- The grid model of a port (R111), in units of 2^-32 ns. -/
structure GridModel where
  valid : Bool
  anchor : Nat
  spacing : Nat
  /-- Position of the anchor within its codeword at 100 Gb/s, 0 to 79. -/
  codePos : Nat
  /-- The anchor is a byte-4 start position, at 10 and 25 Gb/s. -/
  byte4 : Bool
deriving DecidableEq, Repr

/-- Stakeout of one main port. -/
structure SkoPort where
  model : GridModel
  tickets : List Ticket
  nextId : Nat
  /-- No tickets are assigned until the next refresh of the model (R124, R137). -/
  suspended : Bool
  /-- A restart waits for the first refresh to judge the surviving tickets (R124). -/
  checkSurvivors : Bool
deriving DecidableEq, Repr

/-- Who asked for a frame that is not staked, and for its egress instant (R139, R142). -/
inductive TxOwner where
  /-- The device itself: address replies, echo replies, announcements, Announce and Follow_Up messages. -/
  | device
  /-- A PAUSE or PFC frame of the port (R203). -/
  | control
  /-- A host frame: down-ring index 32 to 47 and the place of its first slot (R333, R334). -/
  | host (ring slot : Nat)
  /-- A Sync of the two-step server, by its tag (R139). -/
  | twoStep (tag : Nat)
  /-- A Delay_Req of PTP client n, by its sequenceId (R73). -/
  | client (n : Fin 2) (seq : Nat)
  /-- The response that grants: the client's identity, the message type, the period and the duration in s (R105, R106). -/
  | grant (identity kind : Nat) (log : Int) (dur : Nat)
deriving DecidableEq, Repr

/-- A frame that is not staked and waits to be sent (R113, R114), without FCS. -/
structure TxFrame where
  bytes : Bytes
  /-- Traffic class (R200). -/
  tc : Nat
  owner : TxOwner
deriving DecidableEq, Repr

/-! ## Service pipelines (R76-R109) -/

/-- A client table entry (R94). -/
structure Client where
  tag : Nat
  last : Nat
  tokens : Nat
  v6 : Bool
  ix : Bool
  kodv : Bool
  kodsec : Nat
  cls : Nat
  prevRx : Nat
  prevTx : Nat
deriving DecidableEq, Repr

/-- The service values of R86 and R87. `li3` is LI = 3; otherwise LI follows R62. -/
structure ServiceValues where
  li3 : Bool
  stratum : Nat
  refId : Nat
  rootDelay : Nat
  rootDisp : Nat
deriving DecidableEq, Repr

/-- What LI follows (R62, R64): the pending leap, its day, whether it came too late to be smeared, and the TAI-UTC in use. -/
structure LeapView where
  kind : Nat
  day : Nat
  late : Bool
  off : Int
deriving DecidableEq, Repr

/-- A bucket read in flight and the requests that wait for it (R97). -/
structure Fill where
  bucket : Nat
  waiting : List PlItem
deriving DecidableEq, Repr

/-- One grant (R105, R106): logInterMessagePeriod, the DCLK edge s of its response, its expiry, the next issue instant k (R126), the
sequenceId of its next message. -/
structure Grant where
  log : Int
  start : Instant
  expiry : Instant
  next : Nat
  seq : Nat
  /-- The period that was granted last; whether a response that grants has left, so that the grant runs; and the responses that are still to leave. -/
  granted : Int
  live : Bool
  waiting : Nat
deriving DecidableEq, Repr

/-- A client of the grant table (R105): index, sourcePortIdentity, addressing of its messages, port and its grants. -/
structure GrantClient where
  index : Nat
  identity : Nat
  port : Fin 7
  env : Envelope
  announce : Option Grant
  sync : Option Grant
  delayResp : Option Grant
deriving DecidableEq, Repr

/-- A running announcement series of a service address (R81): repeats left and when the next is due. -/
structure Series where
  sa : Nat
  left : Nat
  due : Instant
deriving DecidableEq, Repr

/-- An NTS-protected request that waits for its SIV lane (R162), with what step 3 found. -/
structure NtsRequest where
  pl : Fin 4
  item : PlItem
  /-- Service address that it matched. -/
  sa : Nat
  /-- Place and tag of the client entry, none where the ACL denies the request (R93), and whether the entry was found (R89). -/
  client : Option (Nat × Nat)
  found : Bool
  /-- The kiss-of-death that step 3 decided (R163): 0 none, 1 RATE, 2 DENY. -/
  kod : Nat
deriving DecidableEq, Repr

/-- A job of a pipeline on an SIV lane (R167): the verification of a request, or the encryption of the response of a ticket. -/
inductive SivJob where
  | verify (r : NtsRequest)
  | encrypt (port : Fin 4) (ticket : Nat)
deriving DecidableEq, Repr

/-- One SIV lane (R22, R167): its jobs in flight, oldest first, and the DCLK period from which it accepts another. -/
structure SivLane where
  jobs : List SivJob
  free : Nat
deriving DecidableEq, Repr

/-- A PTP Signaling message that the service processors hold (R100, R105), with its TLVs that are not yet handled. -/
structure SigMsg where
  port : Fin 7
  /-- The addressing of an answer. -/
  env : Envelope
  identity : Nat
  domain : Nat
  /-- The ACL entry that matched has ACTION 2 (R93). -/
  denied : Bool
  /-- TLV type and value, in order. -/
  tlvs : List (Nat × Bytes)
deriving DecidableEq, Repr

/-- The service pipelines. -/
structure SvpState where
  /-- Input queues of PL0 to PL4, oldest first, at most 4096 each (R109). -/
  queues : Vector (List PlItem) 5
  fills : List Fill
  /-- Client entries by bucket * 8 + way (R94-R96). -/
  table : Map Client
  /-- The buckets that the client cache holds, 1,572,864 entries at most, and the places of the entries that it has still to write back (R38, R97). -/
  cached : List Nat
  dirty : List Nat
  /-- The two 128-bit keys of R95. -/
  key1 : Nat
  key2 : Nat
  /-- The keys were derived from the device-unique key, because the entropy source was failed at the end of BOOT (R95). -/
  keysDerived : Bool
  /-- Kiss-of-death responses that each pipeline sent in this tick (R92). -/
  kodUsed : Vector Nat 5
  /-- Service values in force, those before each change with the edge of the change, oldest first, and likewise what LI followed before each change (R88). -/
  values : ServiceValues
  valuesLog : List (Instant × ServiceValues)
  leaps : List (Instant × LeapView)
  /-- Stratum, reference ID and root delay of the last source (R86, R87). -/
  lastSource : Nat × Nat × Nat
  /-- The holdover state that ACQUIRE was entered from, 4 or 5, and 0 otherwise, and the bound in ns held at its value then (R87, R104). -/
  heldState : Nat
  heldBound : Nat
  grants : List GrantClient
  series : List Series
  /-- Next issue and sequenceId of multicast Sync and Announce per main port (R103, R126). -/
  mcSync : Vector (Nat × Nat) 4
  mcAnnounce : Vector (Nat × Nat) 4
  /-- Signaling messages passed to the service processors (R76, R100), oldest first. -/
  signaling : List SigMsg
  /-- NTS-protected requests that wait for an SIV lane, and responses that wait for one, by port and ticket, oldest first. -/
  verify : List NtsRequest
  encrypts : List (Fin 4 × Nat)
  /-- The twelve SIV lanes, and the requester that the round-robin asks next: 0 to 4 the pipelines, 5 the service processors (R22, R167). -/
  lanes : Vector SivLane 12
  laneTurn : Nat
  /-- The DCLK period until which the service processors hold a lane (R167). -/
  keUntil : Nat
  /-- Registers before each live change of a parameter of the data plane, with the edge of the change, oldest first (R29). -/
  history : List (Instant × Map Word)
  /-- The edges on which SERVE, and the answering modes, were last entered (R42, R81). -/
  serveEdge : Instant
  answerEdge : Instant
deriving DecidableEq, Repr

/-! ## Ports (R194-R213) -/

/-- A pause interval of a class (R202): PAUSE is kind 0 and PFC is kind 1. -/
structure Pause where
  port : Nat
  tc : Nat
  kind : Nat
  from_ : Instant
  to_ : Instant
deriving DecidableEq, Repr

/-- A flow-control onset in force (R203): the class of a PFC onset, none for PAUSE, and when its frame was last sent. -/
structure Onset where
  port : Nat
  cls : Option Nat
  sentAt : Instant
deriving DecidableEq, Repr

/-- A pair of paths (R205). The active path stands in PRT_PAIRk_STAT. -/
structure PairState where
  /-- End of HOLD while it runs. -/
  hold : Option Instant
  /-- When the last switch completed. -/
  lastSwitch : Option Instant
  /-- Since when the primary's link has been up. -/
  primaryUp : Option Instant
deriving DecidableEq, Repr

/-- A field port (R206-R208). -/
structure FieldPort where
  /-- Collisions of the frame at the head of the queue. -/
  collisions : Nat
  /-- End of the backoff. -/
  backoff : Instant
  /-- A transmission is on the wire. -/
  sending : Bool
  /-- The frame at the head has been counted in DEFERRED. -/
  deferred : Bool
  /-- CSMA/CD in place of PLCA: no BEACON for BTO (R208). -/
  fallback : Bool
  /-- The PLCA cycle: a BEACON has opened one, when the last BEACON passed or the port began to wait for one, the node whose transmit opportunity began at
  `toFrom`, and of the port's own opportunity the frames sent and the end of the last. Times are in DCLK periods (R208). -/
  cycling : Bool
  beaconAt : Nat
  curId : Nat
  toFrom : Nat
  burst : Nat
  burstEnd : Nat
deriving DecidableEq, Repr

/-- The ports. -/
structure PrtState where
  pauses : List Pause
  /-- Frames that are not staked, in order of arrival, per port. -/
  tx : Vector (List TxFrame) 7
  /-- The frame that is not staked and is on the wire, and the end of its inter-packet gap. -/
  txNow : Vector (Option (TxFrame × Instant)) 7
  onsets : List Onset
  pairs : Vector PairState 2
  field : Vector FieldPort 2
  /-- An MDIO frame in progress is a read (R210). -/
  mdioRead : Bool
deriving DecidableEq, Repr

/-! ## Stake units (R128-R143) -/

/-- An egress timestamp record (R139): the frame's tag, its egress instant, none for status ABANDONED (R141). -/
structure EgressRec where
  tag : Nat
  inst : Option Instant
deriving DecidableEq, Repr

/-- A Sync that the two-step server sent and whose Follow_Up waits for its egress record (R139). -/
structure TwoStepSync where
  tag : Nat
  env : Envelope
  header : Bytes
deriving DecidableEq, Repr

/-- A change of a unit's compensation (R137): its DCLK edge E, and the receive and transmit compensation in ps that software had set before it. -/
structure CompChange where
  edge : Instant
  rx : Int
  tx : Int
deriving DecidableEq, Repr

/-- One Stake unit. -/
structure StkUnit where
  /-- The measured variable latencies in ps (R131, R132). -/
  vrx : Nat
  vtx : Nat
  /-- The service processors' queue, oldest first, at most 64 (R139). -/
  queue : List EgressRec
  /-- Two-step Syncs sent and not yet followed up. -/
  syncs : List TwoStepSync
  nextTag : Nat
  /-- The management tick at which the self-test started (R143). -/
  calFrom : Nat
  /-- The latest changes of compensation, oldest first, for captures that came before them (R137). -/
  changes : List CompChange
deriving DecidableEq, Repr

/-! ## Synthesis (R273-R294) -/

/-- One output synthesizer (R280-R286). Counts are of the coarse counter, which a freeze stops (R277). -/
structure Synth where
  /-- The ratio in use (R280). -/
  num : Nat
  den : Nat
  /-- The ratio at the last lock (R283); none before the first. -/
  centre : Option Frac
  /-- The ramp offset in force, or at the start of the running segment, as a fraction of NUM/DEN. -/
  offset : Frac
  /-- The running profile: targets as offsets, and slopes in ppb/ms, of the segments not yet done, with the index and the start of the first. -/
  profile : List (Frac × Nat)
  seg : Nat
  segAt : Nat
  /-- A profile that GO accepted, and a STOP, wait for the tick (R283, R286). -/
  goNext : List (Frac × Nat)
  stopNext : Bool
  /-- The STEER code in force, and what is left of the step that its last change caused, at a count (R286). -/
  steer : Nat
  adj : Frac
  adjAt : Nat
  /-- The DCLK period of the last lock (R282, R285). -/
  lockedAt : Nat
  /-- A relock change came in HOLD and waits for the restart (R277). -/
  relockDue : Bool
  /-- The latest points at which the ramp offset changed its slope, latest first: the coarse count and the offset (R115, R283). -/
  bends : List (Nat × Frac)
deriving DecidableEq, Repr

/-- Synthesis. -/
structure SynState where
  /-- Frequency words of CH1 to CH7 that are announced and not yet applied: due instant and word, oldest first, by channel (R115, R281). -/
  words : Map (List (Instant × Int))
  /-- The words in force, by channel, and the latest changes of that of CH1, oldest first (R111, R115). -/
  applied : Map Int
  wordSteps : List RateStep
  /-- SYN1 to SYN6. -/
  synths : Vector Synth 6
  /-- Consecutive ticks in which both checks of a tripped output passed, by output (R294). -/
  passTicks : Vector Nat 12
  /-- The measured check of an output failed in its last window (R294). -/
  overMeasured : Nat
  /-- When the latest pulse of an output falls, less the delay that every edge of it has: in units of 2^-64 ns / 6 of coarse time (R289). -/
  pulseEnd : Vector Int 12
  /-- The last load of an output's DIV was clamped, bit n (R288). -/
  divClamped : Nat
  /-- The declaration of the present freeze, in DCLK periods; the Datum value then; and whether its loss has become lasting (R276, R278). -/
  frozenAt : Nat
  frozenDatum : Instant
  lasting : Bool
  /-- MCLK has no source: SYN0 and SYN_AUX are both unlocked (R279). -/
  mclkStopped : Bool
  /-- The edge counts of channel 16 in the latest ticks of BOOT, latest first (R226). -/
  oscCounts : List Nat
deriving DecidableEq, Repr

/-! ## Dvorgo (R295-R316) -/

/-- An edge of ACTIVE that the next tick records (R302): whether it rose, its Datum value, and the two claims. -/
structure TakeEdge where
  gained : Bool
  datum : Instant
  own : Nat
  partner : Nat
deriving DecidableEq, Repr

/-- What holds the guard of R299: the condition under which the partner claim is known (1 claim bus, 2 link only, 3 stale), and since when. -/
structure GuardRun where
  kind : Nat
  since : Nat
deriving DecidableEq, Repr

/-- A pairing in progress (R316). -/
structure Pairing where
  /-- The ephemeral scalar and the pair key, empty before they exist and after they are erased. -/
  scalar : Bytes
  key : Bytes
  /-- The DCLK period of the rejection that ended the last attempt; the next follows one second later. -/
  rejectedAt : Option Nat
  /-- The keys of the partner have been adopted, or the own keys sent. -/
  done : Bool
deriving DecidableEq, Repr

/-- The Dvorgo link and the pair. -/
structure DvlState where
  /-- Positions of client entries in the journal queue, oldest first, at most 1,048,576 (R306). -/
  journal : List Nat
  /-- SEQ of the next claim frame, and of the last one received (R298). -/
  seqTx : Nat
  seqRx : Option Nat
  /-- The claim P as last refreshed, and the DCLK periods of the last refresh by the claim bus and by the link (R298). -/
  partner : Nat
  busAt : Option Nat
  linkAt : Option Nat
  /-- The DCLK period of the last frame on CLAIM_RX with a correct CRC (R298). -/
  heardAt : Option Nat
  /-- The last valid frame of the link (R304). -/
  frameAt : Nat
  guard : Option GuardRun
  /-- Since when ACTIVE is 1. -/
  activeAt : Nat
  /-- A unit has been active since the link last came up (R296). -/
  everActive : Bool
  idConflict : Bool
  /-- Health class 0 after BOTH_DRIVING (R300). -/
  bothOff : Bool
  /-- Output stages forced to high-impedance by their comparator, bit n (R301). -/
  forced : Nat
  take : Option TakeEdge
  /-- The lasting cause of the hand-over in force persists (R314). -/
  causeHeld : Bool
  /-- The latest HB of the partner: its transmit stamp t1 and our receive stamp t2 (R307). -/
  hbIn : Option (Instant × Instant)
  /-- The cycle number of the active unit, and the one to which the running sums belong (R304, R307). -/
  cycle : Nat
  sumCycle : Nat
  /-- Sum in 2^-17 ns and number of the complete HB exchanges of the cycle (R307), and the Dx of the XPPS edges in it, in ps (R308). -/
  sumD : Int
  nD : Nat
  dxs : List Int
  /-- D of the latest evaluated cycle, c, and A, in ps; the DCLK period of the last update of c (R307, R308, R311). -/
  d : Frac
  cal : Frac
  calAt : Option Nat
  align : Frac
  /-- A is slewed to 0 (R311). -/
  slewing : Bool
  /-- Cycles evaluated, at most 32 (R309), and the DCLK period of the last bad one. -/
  evaluated : Nat
  lastBad : Nat
  /-- The next tick arbitrates (R309). -/
  arbitrate : Bool
  /-- The partner's lasting flag, and its qualified references with their offsets in units of 2^-16 ns (R309, R310). -/
  ptnLasting : Bool
  ptnRefs : List (Nat × Int)
  /-- The reference offsets that the last STATE or STATUS of this unit carried (R310). -/
  sentRefs : List (Nat × Int)
  /-- The last STATE record applied (R305, R309). -/
  lastApplied : Nat
  /-- The grant table as the journal last sent it (R305). -/
  sentGrants : List GrantClient
  /-- The next bucket that BULK sends, and none once all are sent (R315). -/
  bulkNext : Option Nat
  /-- BULK has delivered every bucket and grant entry (R315). -/
  bulkLast : Bool
  /-- A BULK frame arrived damaged, so that not every bucket has been received (R315). -/
  bulkHole : Bool
  pair : Pairing
  /-- Ticks in TRACK with the Datum LOCKED and no bad cycle (R315). -/
  trackTicks : Nat
deriving DecidableEq, Repr

/-! ## Transit (R214-R236) -/

/-- One fraction converter of a channel (R218, R222, R223). -/
structure TrnConv where
  /-- In service. -/
  serving : Bool
  /-- Out of service until the next BOOT, by the fault manager (R383). -/
  isolated : Bool
  /-- Calibrated, and ready to serve. -/
  ready : Bool
  /-- The calibration ended: with a table, or failed. Only the initial calibration reads it (R223). -/
  ended : Bool
  /-- The DCLK period from which it serves. -/
  since : Nat
  /-- When its table was built: the tick, and the die temperature in units of 1/256 degree (R223). -/
  built : Nat
  builtTemp : Int
  /-- The histogram behind its table, by code (R222); empty before a calibration. -/
  hist : List Nat
deriving DecidableEq, Repr

/-- A converted edge (R216): the coarse count at the DCLK edge that ended integration, timebase stamp in units of 2^-16 DCLK since the release, Datum stamp, EDGES, all
edges counted so far, and whether the edge was falling. -/
structure TrnEdge where
  coarse : Nat
  stamp : Int
  datum : Instant
  edges : Nat
  total : Nat
  falling : Bool
deriving DecidableEq, Repr

/-- A record in a channel queue (R220, R235), with its destinations. -/
structure TrnRecord where
  kind : Nat
  flags : Nat
  edges : Nat
  value : Nat
  datum : Instant
  host : Bool
  queue : Bool
deriving DecidableEq, Repr

/-- The running sums of a statistics block, in units of 2^-8 ps (R231). -/
structure TrnStats where
  n : Nat
  sum : Int
  squares : Int
  min : Int
  max : Int
deriving DecidableEq, Repr

/-- A result set (R231, R232). -/
structure TrnResult where
  seq : Nat
  n : Nat
  mean : Int
  min : Int
  max : Int
  dev : Nat
deriving DecidableEq, Repr

/-- One Transit channel. -/
structure TrnChan where
  /-- Edges counted since the last converted edge, since the release, and in this tick (R218, R221). -/
  edges : Nat
  total : Nat
  tickEdges : Nat
  /-- Selected edges that the prescaler has taken since it last passed one (R218). -/
  div : Nat
  /-- The pulse-width monitor saw a level below 1.5 ns in this tick (R221). -/
  narrow : Bool
  /-- The DCLK count of the last conversion (R218). -/
  lastConv : Option Nat
  /-- The converter that serves next. -/
  nextConv : Nat
  convs : Vector TrnConv 3
  /-- Management ticks at the last rotation (R223). -/
  rotated : Nat
  /-- Converted edges that wait for their MINW check (R219). -/
  waiting : List TrnEdge
  /-- End of the holdoff, as a Datum value (R219). -/
  holdEnd : Option Instant
  /-- The last accepted edge (R227). -/
  prev : Option TrnEdge
  /-- Unpaired starts, oldest first (R228). -/
  starts : List TrnEdge
  /-- The first edge of the open gate (R229). -/
  gate : Option TrnEdge
  stats : TrnStats
  /-- The latest completed result set, which the next read of RES_SEQ latches (R232). -/
  latest : TrnResult
  queue : List TrnRecord
  /-- Flags that the next record carries (R217, R220, R234). -/
  lostNext : Bool
  freezeNext : Bool
  stepNext : Bool
  /-- Wraps of the coarse counter at the last record (R230). -/
  wraps : Nat
  /-- Glitches since the release, for the monitor of R242. -/
  glitches : Nat
deriving DecidableEq, Repr

/-- Transit. -/
structure TrnState where
  /-- DCLK edges of the coarse counter since the release; the counter itself holds the low 40 bits. -/
  coarse : Nat
  chans : Vector TrnChan 24
  /-- The event queue, oldest first, at most 256 (R236). -/
  evq : List Bytes
  /-- The channel that the round-robin of the result path serves next (R220). -/
  turn : Nat
  /-- Records that left on the result path in this tick (TRN_STAT.LOAD). -/
  outTick : Nat
deriving DecidableEq, Repr

/-! ## Traverse (R237-R262) -/

/-- What the last pulse's label replaced: the latest well-labelled pulse, the badly labelled ones in a row, cause TOD, and the label shown. A message that makes the time
invalid brings it back (R241). -/
structure TodUndo where
  last : Option (Nat × Instant)
  bad : Nat
  fail : Bool
  shown : Nat
deriving DecidableEq, Repr

/-- What Traverse keeps of one input. Stamps are in units of 2^-16 DCLK of the timebase. -/
structure TrvInput where
  /-- AVAILABLE at some time since BOOT (R244). -/
  everAvailable : Bool
  /-- Ticks in QUALIFYING or WTR. -/
  timer : Nat
  /-- The last accepted edge, and the cycles of the input up to it. -/
  last : Option TrnEdge
  cycles : Nat
  /-- The pulse monitor has its anchor (R456). -/
  anchored : Bool
  /-- The last 16 good pulses, latest first, each with its number of periods since anchoring. -/
  goods : List (Int × Nat)
  /-- The mean period. -/
  period : Frac
  /-- Expected instants after the last good pulse that have passed as missing, and consecutive missing or bad pulses. -/
  missed : Nat
  bad : Nat
  /-- A freeze fell after the last good pulse, and ended at this stamp: the next pulse is the new base (R243). -/
  rebase : Option Int
  /-- Edges of the last second with the cycles up to each, latest first, and the verdict of the frequency limit (R242). -/
  freqs : List (Int × Nat)
  freqFail : Bool
  /-- Glitches of the channel at the start of the present second, and the verdict of the last second. -/
  glitchFrom : Nat
  glitchFail : Bool
  /-- The latest well-labelled pulse: its label and its Datum stamp (R241). -/
  todLast : Option (Nat × Instant)
  /-- The valid label of the pulse before the last one. -/
  todPrev : Option Nat
  /-- The last pulse: its Datum stamp, its valid label so far, and whether it is well labelled. -/
  todPulse : Option Instant
  todLabel : Option Nat
  todWell : Bool
  /-- What its label replaced, and whether it has been counted as badly labelled (R241). -/
  todUndo : Option TodUndo
  todJudged : Bool
  /-- A message of its window made the time of the last pulse invalid (R240). -/
  todInvalid : Bool
  /-- Messages that name the next pulse, in order: the valid label of each, with the Datum value of its end. -/
  todNext : List (Option Nat × Instant)
  todBad : Nat
  todFail : Bool
  /-- The phase samples of the closure estimate, latest first: stamp and lead against nominal, both in units of 2^-16 DCLK (R251). -/
  phases : List (Int × Frac)
  /-- The winner of the demotion, and the consecutive evaluations in agreement with it (R253). -/
  demotedBy : Option (Fin 12)
  agree : Nat
deriving DecidableEq, Repr

/-- Closure counts of a pair on a channel (R252). -/
structure TrvPair where
  bad : Nat
  good : Nat
  disputed : Bool
deriving DecidableEq, Repr

/-- One DPLL channel. -/
structure TrvChan where
  /-- A reference has been selected since the channel was enabled (R246). -/
  everSelected : Bool
  /-- The channel was enabled at the last tick. -/
  enabled : Bool
  /-- The part of Δ still to be applied, in units of 2^-16 DCLK, at the stamp `outAt`; and the slope in force, in ns/s (R248, R250). -/
  slewLeft : Frac
  slope : Nat
  /-- The selected reference has failed since its selection (R249). -/
  lost : Bool
  /-- The tick at which the last switch ended. -/
  switchEnd : Option Nat
  /-- The output phase: a stamp, and the position of an output instant there, modulo the period of the reference (R255). -/
  outAt : Int
  outPos : Frac
  /-- The first edge of an acquisition, with the cycles up to it, until the second sets the frequency (R259). -/
  acq : Option (Int × Nat)
  /-- A phase has been taken from a reference. -/
  phased : Bool
  /-- The frequency word in units of 2^-48 (R254). -/
  word : Int
  /-- Phase-detector samples of this tick, oldest first, in units of 2^-16 DCLK (R258). -/
  samples : List Frac
  /-- Ticks for which every sample has met the lock criterion; consecutive samples beyond the loss threshold. -/
  okTicks : Option Nat
  lossRun : Nat
  /-- The frequency word of each LOCKED second: tick of its end and word, latest first (R259). -/
  history : List (Nat × Int)
  /-- Ticks of the running second LOCKED and not slewing. -/
  secTicks : Nat
  /-- fho, B(te) and the crystal model's B at te of the present holdover, and its ticks (R260, R261). -/
  fho : Frac
  bEntry : Frac
  xEntry : Frac
  hoTicks : Nat
deriving DecidableEq, Repr

/-- Traverse. -/
structure TrvState where
  inputs : Vector TrvInput 12
  chans : Vector TrvChan 8
  /-- Pairs by channel * 144 + a * 12 + b (R252). -/
  pairs : Map TrvPair
  /-- Unresolved pairs at the last evaluation: channel, a, b. -/
  unresolved : List (Nat × Nat × Nat)
  /-- Ticks since the last evaluation. -/
  evalTicks : Nat
  /-- A freeze fell in the present tick (R243). -/
  froze : Bool
  /-- Time-of-day ports whose latest status message reports a source that is not traceable, bit n (R240). -/
  untraceable : Nat
deriving DecidableEq, Repr

/-! ## Benchmark (R264-R271) -/

/-- One oscillator model (R264, R265). Offsets are fractions, times are in days, temperatures in degrees Celsius. -/
structure BmModel where
  /-- Offsets of the latest 10,000 seconds, latest first. -/
  ring : List Frac
  /-- Sums of the running hour, and its samples. -/
  hourOff : Frac
  hourTemp : Frac
  hourN : Nat
  /-- Hourly means: time, offset, temperature; latest first. -/
  hours : List (Frac × Frac × Frac)
  c0 : Frac
  a : Frac
  k1 : Frac
  k2 : Frac
  /-- t0 and T0. -/
  t0 : Frac
  temp0 : Frac
  /-- Standard errors of a and k1. -/
  seA : Frac
  seK1 : Frac
  phase : Nat
  tempOk : Bool
  /-- Terms taken from the seeds and not yet replaced (R267). -/
  seeded : Bool
deriving DecidableEq, Repr

/-- Benchmark. It lives in PD1. -/
structure BmState where
  osc : BmModel
  xtal : BmModel
  /-- No image has seeded the model of OSCIN since PD1 got power (R267). -/
  unseeded : Bool
  /-- Milliseconds since PD1 got power; those since the last sample and the last refit. -/
  ticks : Nat
  secTicks : Nat
  hourTicks : Nat
  /-- The conditions of R264 have held for the whole running second; QUALITY has too; the Datum has been LOCKED. -/
  clean : Bool
  cleanOsc : Bool
  lockedSec : Bool
  /-- Temperatures in units of 1/256 degree: the in-package sensor and the I2C sensor. -/
  dieTemp : Int
  boardTemp : Int
  i2cFails : Nat
  i2cGood : Nat
  /-- Channel 16: Datum stamp and cycles of the latest edge, and of the edge at the last sample. -/
  oscLast : Option (Instant × Nat)
  oscFrom : Option (Instant × Nat)
  /-- The active domain's rate in each Datum-LOCKED second: tick of its end and rate in units of 2^-48, latest first (R268). -/
  rates : List (Nat × Int)
  /-- The present holdover: yavg, the active domain's rate at te, B(te), te as a count of ticks, Te, E0 in ns, Uf, the integral of
  |T - Te| in degree seconds, the freezes, and E in ns. -/
  yavg : Option Frac
  yEntry : Int
  bEntry : Frac
  te : Nat
  tempEntry : Frac
  e0 : Frac
  uf : Frac
  tempInt : Frac
  freezes : Nat
  bound : Frac
  /-- The Datum follows the Monument counter, or the device is in MONUMENT (R271), and the value at which DTM_MONDIFF is held. -/
  follow : Bool
  held : Int
deriving DecidableEq, Repr

/-! ## The whole state -/

/-- A higher word pending on a path (R12), and the latched higher words of a read: address and word. -/
abbrev WordMap := Map Word

/-- The state of the device. -/
structure State where
  /-- Commands waiting, first in first out. The model's own. -/
  pending : List Instr
  /-- DCLK periods (5/6 ns) since power was applied. The model's own measure of elapsed time. -/
  now : Nat
  /-- How many free values have been drawn. The model's own (assumption log 2). -/
  fresh : Nat
  /-- What the device sent, newest first. -/
  out : List Emission
  /-- Registers that differ from their reset value (R8, R15), by address. -/
  regs : Map Word
  /-- What the fields that an access clears would hold had they been cleared at the last MCLK edge: the events of the running MCLK cycle, by the address of
  their register (R11). -/
  mclk : Map Word
  /-- Latched higher words of R12, per path. -/
  latchMw0 : WordMap
  latchMspi : WordMap
  /-- Pending copies of R12, per path. -/
  copyMw0 : WordMap
  copyMspi : WordMap
  sys : SysState
  flt : FltState
  fbk : FbkState
  dtm : DatumState
  /-- Stakeout of P0 to P3. -/
  sko : Vector SkoPort 4
  /-- Stake units of P0-P3, F0, F1, MGT. -/
  stk : Vector StkUnit 7
  svp : SvpState
  pke : PkeState
  crl : CrlState
  ke : KeState
  prt : PrtState
  syn : SynState
  dvl : DvlState
  trn : TrnState
  trv : TrvState
  bm : BmState
  hmi : HmiState
  pmc : PmcState
deriving DecidableEq, Repr

/-! ## Reasons to stop -/

/-- The model has no fault: no rule of the spec stops the device, and every command has an effect in every state.
The type is inhabited by one reason that nothing raises, so that it is plain data. -/
inductive Fault where
  /-- Raised by no meaning. Safe: a stop proves nothing about the device. -/
  | unreachable
deriving DecidableEq, Repr

/-- Why a command was refused. -/
inductive Refusal where
  /-- Raised by `exec` alone, for a command that has no meaning yet. Safe: it claims nothing. -/
  | notModelled (mnemonic : String)
deriving DecidableEq, Repr

/-! ## Reset (R15, R366) -/

/-- A source of TAI-UTC that reports nothing. -/
def UtcSource.none : UtcSource := ⟨false, 0, 0, 0, Option.none, false⟩

/-- A domain servo after a release. -/
def Domain.empty : Domain := { est := 0, rate := 0, freq := 0, withinTicks := 0, lockedTicks := 0, lastInput := 0, sampled := 0, window := [], fed := false }

/-- A PTP client instance after a release (R73). -/
def PtpClient.empty : PtpClient :=
  { started := false, nextSeq := 0, outstanding := [], syncs := [], lastSync := none, delay := 0, master := 0, announce := none, quietTicks := 0,
    inbox := [] }

/-- The Datum after a release, before it starts (R348). -/
def DatumState.empty : DatumState :=
  { c0 := 0, c1 := 0, c2 := 0, third := 0, started := false, base := 0, slew := 0, slewLeft := 0, handoff := none, announced := [], steps := [],
    mon := 0, monRate := 0, monHolds := false, fs := .empty, bs := .empty, settleLeft := 0, handoffPending := false, splitTicks := 0,
    under := 0, lockedSinceBoot := false, fromMonument := false, offsetDue := false, utcCh0 := .none, utcPc0 := .none, utcPc1 := .none, fallback := 37,
    leapDay := 0, leapLate := false, leapFrom := 0, leapDone := none, cmpLate := 0, pc0 := .empty, pc1 := .empty, masters := [] }

/-- Stakeout of a port after a release: no grid model. -/
def SkoPort.empty : SkoPort :=
  { model := { valid := false, anchor := 0, spacing := 0, codePos := 0, byte4 := false }, tickets := [], nextId := 0, suspended := true,
    checkSurvivors := false }

/-- A Stake unit after a release. -/
def StkUnit.empty : StkUnit := { vrx := 0, vtx := 0, queue := [], syncs := [], nextTag := 0, calFrom := 0, changes := [] }

/-- The pipelines after a release: the service values are those of FREERUN (R87) with DISP0 at its reset value. The client-table keys
are zero until BOOT draws them (R95; assumption log 4). -/
def SvpState.empty : SvpState :=
  let v : ServiceValues := ⟨true, 16, 0x494E4954, 0, 1⟩
  { queues := Vector.replicate 5 [], fills := [], table := [], cached := [], dirty := [], key1 := 0, key2 := 0, keysDerived := false, kodUsed := Vector.replicate 5 0,
    values := v, valuesLog := [], leaps := [], lastSource := (16, 0x494E4954, 0), heldState := 0, heldBound := 0, grants := [], series := [],
    mcSync := Vector.replicate 4 (0, 0), mcAnnounce := Vector.replicate 4 (0, 0), signaling := [], verify := [], encrypts := [],
    lanes := Vector.replicate 12 ⟨[], 0⟩, laneTurn := 0, keUntil := 0, history := [], serveEdge := 0, answerEdge := 0 }

/-- A field port after a release, and after a loss of its clock. -/
def FieldPort.empty : FieldPort :=
  { collisions := 0, backoff := 0, sending := false, deferred := false, fallback := false, cycling := false, beaconAt := 0, curId := 0, toFrom := 0,
    burst := 0, burstEnd := 0 }

/-- The ports after a release. -/
def PrtState.empty : PrtState :=
  { pauses := [], tx := Vector.replicate 7 [], txNow := Vector.replicate 7 none, onsets := [],
    pairs := Vector.replicate 2 { hold := none, lastSwitch := none, primaryUp := none },
    field := Vector.replicate 2 .empty, mdioRead := false }

/-- A synthesizer after a release: not locked, at the ratio of its reset registers (R280). -/
def Synth.empty (num den steer : Nat) : Synth :=
  { num := num, den := den, centre := none, offset := .zero, profile := [], seg := 0, segAt := 0, goNext := [], stopNext := false, steer := steer,
    adj := .zero, adjAt := 0, lockedAt := 0, relockDue := false, bends := [] }

/-- Synthesis after a release. -/
def SynState.empty : SynState :=
  let a := Synth.empty 25 384 1
  let b := Synth.empty 1 12 0
  { words := [], applied := [], wordSteps := [], synths := ⟨#[a, a, b, b, b, b], rfl⟩, passTicks := Vector.replicate 12 0, overMeasured := 0, pulseEnd := Vector.replicate 12 0, divClamped := 0,
    frozenAt := 0, frozenDatum := 0, lasting := false, mclkStopped := false, oscCounts := [] }

/-- The Dvorgo link after a release. -/
def DvlState.empty : DvlState :=
  { journal := [], seqTx := 0, seqRx := none, partner := 0, busAt := none, linkAt := none, heardAt := none, frameAt := 0, guard := none, activeAt := 0,
    everActive := false, idConflict := false, bothOff := false, forced := 0, take := none, causeHeld := false, hbIn := none, cycle := 0,
    sumCycle := 0, sumD := 0, nD := 0, dxs := [], d := .zero, cal := .zero, calAt := none, align := .zero, slewing := false, evaluated := 0,
    lastBad := 0, arbitrate := false, ptnLasting := false, ptnRefs := [], sentRefs := [], lastApplied := 0, sentGrants := [], bulkNext := none, bulkLast := false, bulkHole := false,
    pair := { scalar := [], key := [], rejectedAt := none, done := false }, trackTicks := 0 }

/-- A Transit channel after a release: its converters are not calibrated (R222). -/
def TrnChan.empty : TrnChan :=
  { edges := 0, total := 0, tickEdges := 0, div := 0, narrow := false, lastConv := none, nextConv := 0,
    convs := Vector.replicate 3 { serving := false, isolated := false, ready := false, ended := false, since := 0, built := 0, builtTemp := 0, hist := [] },
    rotated := 0, waiting := [], holdEnd := none, prev := none, starts := [], gate := none, stats := ⟨0, 0, 0, 0, 0⟩,
    latest := ⟨0, 0, 0, 0, 0, 0⟩, queue := [], lostNext := false, freezeNext := false, stepNext := false, wraps := 0, glitches := 0 }

/-- A Traverse input after a release. -/
def TrvInput.empty : TrvInput :=
  { everAvailable := false, timer := 0, last := none, cycles := 0, anchored := false, goods := [], period := .zero, missed := 0, bad := 0,
    rebase := none, freqs := [], freqFail := false, glitchFrom := 0, glitchFail := false, todLast := none, todPrev := none,
    todPulse := none, todLabel := none, todWell := false, todUndo := none, todJudged := false, todInvalid := false, todNext := [], todBad := 0, todFail := true, phases := [],
    demotedBy := none, agree := 0 }

/-- A DPLL channel after a release. -/
def TrvChan.empty : TrvChan :=
  { everSelected := false, enabled := false, slewLeft := .zero, slope := 0, lost := false, switchEnd := none, outAt := 0, outPos := .zero, acq := none,
    phased := false, word := 0, samples := [], okTicks := none, lossRun := 0, history := [], secTicks := 0, fho := .zero, bEntry := .zero,
    xEntry := .zero, hoTicks := 0 }

/-- An oscillator model with no history (R267). -/
def BmModel.empty : BmModel :=
  { ring := [], hourOff := .zero, hourTemp := .zero, hourN := 0, hours := [], c0 := .zero, a := .zero, k1 := .zero, k2 := .zero,
    t0 := .zero, temp0 := .zero, seA := .zero, seK1 := .zero, phase := 0, tempOk := false, seeded := false }

/-- Benchmark when PD1 gets power (R267). -/
def BmState.empty : BmState :=
  { osc := .empty, xtal := .empty, unseeded := true, ticks := 0, secTicks := 0, hourTicks := 0, clean := true, cleanOsc := true, lockedSec := true,
    dieTemp := 0, boardTemp := 0, i2cFails := 0, i2cGood := 0, oscLast := none, oscFrom := none, rates := [], yavg := none, yEntry := 0,
    bEntry := .zero, te := 0, tempEntry := .zero, e0 := .zero, uf := .zero, tempInt := .zero, freezes := 0, bound := .zero, follow := false,
    held := 0 }

/-- The system controller right after a release with BOOTSEL at 0b00 (R367). -/
def SysState.empty : SysState :=
  { phase := .running, bootsel := 0, unitId := false, mspiEn := false, porstLow := false, modeTicks := 0, request := none, surveyDone := false,
    autoRestarted := false, wakeLatched := false, liveLocked := false, writesOpen := false, ticks := 0, tickPhase := 0, banksSet := false, bankSettling := 0,
    bankAt := 0, releasedAt := 0, serviceTicks := 0, clamps := [],
    boot := { headers := [0, 1], bodies := [], slot := none, since := 0, stage := .header }, flash := [], flashOp := none, tap := 0, nextCause := 1, vaoLow := false }

/-- The Field Book of a device whose PD0 and PD1 have just got power (R393, R394). -/
def FbkState.empty : FbkState :=
  { queued := [], lost := [], openSeg := [], openUndelivered := false, segs := [], prevHash := [], headHash := [], headKept := false, retained := [],
    openLost := 0, resumed := false, sigs := [], sealTicks := 0 }

/-- The machine right after the release that follows power-on (R15, R366): mode BOOT, every register at its reset value, no clock locked, memory and
queues empty, no command waiting. -/
def State.reset : State :=
  { pending := [], now := 0, fresh := 0, out := [], regs := [], mclk := [], latchMw0 := [], latchMspi := [], copyMw0 := [], copyMspi := [],
    sys := .empty, flt := { queue := [], buckets := [], resp := none, raised := 0, isoLanes := 0, isoSpus := 0, isoSyns := 0 }, fbk := .empty,
    dtm := .empty, sko := Vector.replicate 4 .empty, stk := Vector.replicate 7 .empty, svp := .empty,
    pke := { cores := Vector.replicate 16 none, spuQueue := [], slots := [], turn := 0, nextSeq := 0 },
    crl := { root := none, last := none, held := [], epochDiffers := none },
    ke := { sessions := [], nextId := 0, chains := [], expiryDay := [], segments := [], sealing := [], firmware := [], fwData := [] }, prt := .empty, syn := .empty, dvl := .empty,
    trn := { coarse := 0, chans := Vector.replicate 24 .empty, evq := [], turn := 0, outTick := 0 },
    trv := { inputs := Vector.replicate 12 .empty, chans := Vector.replicate 8 .empty, pairs := [], unresolved := [], evalTicks := 0, froze := false,
             untraceable := 0 },
    bm := .empty, hmi := { msix := [], pba := 0, rings := [], dmaPaused := none },
    pmc := { lfsr := Vector.replicate 4 0, spuLfsr := Vector.replicate 8 0, tagSeq := Vector.replicate 4 0, inflight := [], stopped := [],
             page := [], snapTicks := 0 } }

end Sys2Proof.Machine
end

