-- ==== Sys2Proof/Machine/Ops.lean ====
section
/-! DEFINITION. The named operations that the meanings share: registers and fields, Field Book records, alarms, interrupts, performance events, fault events, free values. -/
namespace Sys2Proof.Machine

/-! ## The register file (R8-R10, R15, R411) -/

/-- Whether an address is one of a row's registers. -/
def RegRow.hit (r : RegRow) (a : Nat) : Bool :=
  decide (r.base ≤ a) && decide ((a - r.base) / r.stride1 < r.count1)
    && decide (((a - r.base) % r.stride1) / r.stride2 < r.count2)
    && decide (((a - r.base) % r.stride1) % r.stride2 = 0)

/-- The row of the Register Index that an address belongs to (R411). -/
def findRow (a : Nat) : Option RegRow := (rowsAt a).find? (fun r => r.hit a)

/-- The reset word of a row (R15). -/
def RegRow.resetNat (r : RegRow) : Nat := r.fields.foldl (fun n f => n + f.reset * 2 ^ f.lsb) 0

/-- What an unlisted address of the register file reads: its reset value, or 0 where no register stands (R10, R15). -/
def resetWord (a : Nat) : Word :=
  match findRow a with
  | some r => BitVec.ofNat 32 r.resetNat
  | none => 0

/-- The word stored at a register address. -/
def regGet (m : Map Word) (a : Nat) : Word := (m.get a).getD (resetWord a)

/-- Store a word, keeping the canonical form: no entry equals the reset value. -/
def regPut (m : Map Word) (a : Nat) (v : Word) : Map Word :=
  if v = resetWord a then m.del a else m.put a v

/-- The register file's form: rising addresses, and no entry equal to what an unlisted address reads. -/
def regsWf (m : Map Word) : Bool := m.sorted && m.all (fun e => decide (e.2 ≠ resetWord e.1))

/-- Read a register word. -/
def State.rd (s : State) (a : Nat) : Word := regGet s.regs a

/-- Write a register word. -/
def State.wr (s : State) (a : Nat) (v : Word) : State := { s with regs := regPut s.regs a v }

/-- Read a field. -/
def State.get (s : State) (f : Fld) : Nat := fieldGet (s.rd f.addr) f.lsb f.width

/-- Whether a field is not zero. -/
def State.on (s : State) (f : Fld) : Bool := decide (s.get f ≠ 0)

/-- Read a field as two's complement. -/
def State.getI (s : State) (f : Fld) : Int := toSigned f.width (s.get f)

/-- Write a field; bits above its width are cut. -/
def State.set (s : State) (f : Fld) (x : Nat) : State := s.wr f.addr (fieldSet (s.rd f.addr) f.lsb f.width x)

/-- Write a field from a Bool. -/
def State.setB (s : State) (f : Fld) (b : Bool) : State := s.set f (if b then 1 else 0)

/-- Write a signed field, cut to its width. -/
def State.setI (s : State) (f : Fld) (x : Int) : State := s.set f (ofSigned f.width x)

/-- What events of the running MCLK cycle have brought into a register whose fields an access clears (R11). -/
def State.brought (s : State) (a : Nat) : Word := (s.mclk.get a).getD 0

/-- An event changes a field that an access clears, w1c or rc: the field, and what the running MCLK cycle has brought of it (R11). -/
def State.happen (s : State) (f : Fld) (g : Nat → Nat) : State :=
  { s.set f (g (s.get f)) with
    mclk := s.mclk.put f.addr (fieldSet (s.brought f.addr) f.lsb f.width (g (fieldGet (s.brought f.addr) f.lsb f.width))) }

/-- An event sets a w1c field. -/
def State.strike (s : State) (f : Fld) : State := s.happen f (fun _ => 1)

/-- Set one bit of a register by an event. -/
def State.setBit (s : State) (a i : Nat) : State := s.strike ⟨a, i, 1⟩

/-- Clear one bit of a register. -/
def State.clrBit (s : State) (a i : Nat) : State := s.set ⟨a, i, 1⟩ 0

/-- One bit of a register. -/
def State.bit (s : State) (a i : Nat) : Bool := (s.rd a).getLsbD i

/-- A 64-bit value in two consecutive words, the low word first (R12). -/
def State.get64 (s : State) (a : Nat) : Nat := (s.rd a).toNat + 2 ^ 32 * (s.rd (a + 4)).toNat

/-- Store a 64-bit value in two consecutive words. -/
def State.set64 (s : State) (a v : Nat) : State :=
  (s.wr a (BitVec.ofNat 32 v)).wr (a + 4) (BitVec.ofNat 32 (v / 2 ^ 32))

/-- Add to a 64-bit counter. The counters never wrap within the service life (R127, R170); the word pair keeps the low 64 bits. -/
def State.add64 (s : State) (a k : Nat) : State := s.set64 a (s.get64 a + k)

/-- An event adds to a 32-bit counter that saturates. -/
def State.addSat (s : State) (f : Fld) (k : Nat) : State := s.happen f (fun n => satAdd32 n k)

/-- Clear the `n` 64-bit counters from an address on. -/
def State.clear64s (s : State) (a : Nat) : Nat → State
  | 0 => s
  | n + 1 => (s.clear64s a n).set64 (a + 8 * n) 0

/-- A Datum value in the four-word layout of R43. -/
def State.setDatum (s : State) (a : Nat) (t : Instant) : State :=
  let ns := t / 2 ^ 16
  (((s.wr a (BitVec.ofNat 32 (t % 2 ^ 16))).wr (a + 4) (BitVec.ofNat 32 (ns % 1000000000))).wr (a + 8)
    (BitVec.ofNat 32 (ns / 1000000000))).wr (a + 12) (BitVec.ofNat 32 (ns / 1000000000 / 2 ^ 32 % 2 ^ 16))

/-- The Datum value in four words (R43). -/
def State.getDatum (s : State) (a : Nat) : Instant :=
  ((((s.rd (a + 8)).toNat + 2 ^ 32 * ((s.rd (a + 12)).toNat % 2 ^ 16)) * 1000000000
    + (s.rd (a + 4)).toNat % 2 ^ 30) * 2 ^ 16 + (s.rd a).toNat % 2 ^ 16)

/-! ## Instants -/

/-- Units of 2^-16 ns in a second. -/
def secUnits : Nat := 1000000000 * 2 ^ 16

/-- The Datum's modulus: SEC has 48 bits (R43). -/
def datumMod : Nat := 2 ^ 48 * secUnits

/-- The signed difference of two Datum values (R45). -/
def instDiff (a b : Instant) : Int :=
  let d := ((a : Int) - (b : Int)) % (datumMod : Int)
  if d < (datumMod : Int) / 2 then d else d - datumMod

/-- A Datum value moved by a signed number of units of 2^-16 ns. -/
def instAdd (a : Instant) (d : Int) : Instant := (((a : Int) + d) % (datumMod : Int)).toNat

/-- Nanoseconds as units of 2^-16 ns. -/
def nsUnits (n : Nat) : Nat := n * 2 ^ 16

/-- Whole seconds of an instant. -/
def instSec (t : Instant) : Nat := t / secUnits

/-- Nanoseconds within the second. -/
def instNs (t : Instant) : Nat := t / 2 ^ 16 % 1000000000

/-- The fraction in units of 2^-16 ns. -/
def instFrac (t : Instant) : Nat := t % 2 ^ 16

/-- The 12-byte layout of a Datum value in records (R387). -/
def instBytes (t : Instant) : Bytes := natLE 2 (instFrac t) ++ natLE 4 (instNs t) ++ natLE 6 (instSec t)

/-- The majority of the three copies (R51); where no two agree, the first, until DTM_NOVOTE reloads them. -/
def DatumState.vote (d : DatumState) : Nat :=
  if d.c0 = d.c1 ∨ d.c0 = d.c2 then d.c0 else if d.c1 = d.c2 then d.c1 else d.c0

/-- The visible 96 bits of a counter value: the top 16 bits of its fraction are FRAC (R47). -/
def visible (c : Nat) : Instant := c / 2 ^ 48

/-- The current Datum value (R43, R51). -/
def State.datum (s : State) : Instant := visible s.dtm.vote

/-- The Datum value that a record carries (R387): the Monument counter's before the Datum runs, where that counter holds time. -/
def State.recordTime (s : State) : Instant :=
  if s.dtm.started then s.datum else if s.dtm.monHolds then visible s.dtm.mon else 0

/-! ## Emissions and free values -/

/-- Send something to the world. -/
def State.emit (s : State) (e : Emission) : State := { s with out := e :: s.out }

/-- Draw a free value below `2 ^ w` (assumption log 2). -/
def State.draw (s : State) (w : Nat) : Nat × State :=
  (Config.free s.fresh % 2 ^ w, { s with fresh := s.fresh + 1 })

/-! ## Performance events (R398-R402) -/

/-- Add to event counter k of unit u when it selects the event and the instance (R398, R399). -/
def pmcCount (u evt inst amt : Nat) (s : State) (k : Nat) : State :=
  if s.on (F.PMC_SEL_EN u k) && decide ((s.pmc.stopped.get (8 * u + k)).getD 0 ≤ s.now) && decide (s.get (F.PMC_SEL_EVT u k) = evt)
      && (decide (s.get (F.PMC_SEL_INST u k) = 0x7F) || decide (s.get (F.PMC_SEL_INST u k) = inst)) then
    let old := s.get64 (A.PMC_CTR_W0 u k)
    let sum := old + amt
    let s := s.set64 (A.PMC_CTR_W0 u k) (sum % 2 ^ 48)
    if sum < 2 ^ 48 then s
    else if s.bit (A.PMC_OVF u) k then s
    else (s.setBit (A.PMC_OVF u) k).setBit A.PMC_IRQ_STAT u
  else s

/-- An event of unit u reaches the event counters of the performance-monitor hub (R398, R400). It changes nothing else (R397). -/
def pmcRaw (u evt inst amt : Nat) (s : State) : State :=
  [0, 1, 2, 3, 4, 5, 6, 7].foldl (pmcCount u evt inst amt) s

/-! ## MSI-X vectors and interrupt groups (R321, R413, R414) -/

/-- An MSI-X message may leave: it is a request of the device, of which there is none without bus mastering and in D3hot (R319, R321). -/
def messageOk (s : State) : Bool := s.on F.HMI_STAT_MSIX && s.on F.HMI_STAT_BME && !(s.on F.HMI_STAT_D3)

/-- Signal a vector: its message when MSI-X is enabled and the vector is unmasked, its pending bit otherwise (R321). A message that may not leave pends (R319;
assumption log 42). -/
def signalVector (v : Nat) (s : State) : State :=
  if s.on F.HMI_STAT_MSIX then
    match s.hmi.msix.get v with
    | some e =>
      if e.masked || !(messageOk s) then { s with hmi := { s.hmi with pba := s.hmi.pba ||| 2 ^ v } }
      else pmcRaw 12 0x05 0x80 1 (s.emit (.msix v e.addr e.data))
    | none => { s with hmi := { s.hmi with pba := s.hmi.pba ||| 2 ^ v } }
  else s

/-- A unit's IRQ_STAT AND IRQ_EN is not zero. -/
def irqLive (s : State) (stat en : Nat) : Bool := decide (s.rd stat &&& s.rd en ≠ 0)

/-- Whether source group g is pending (R413). -/
def groupPending (s : State) (g : Nat) : Bool :=
  match g with
  | 0 => decide (s.rd A.SYS_FLT_LATCH ≠ 0) || s.on F.SYS_MODE_STAT_REFUSED || s.on F.SYS_BOOT_STAT_WDROP
  | 1 => irqLive s A.SYS_ALARM_STAT A.SYS_ALARM_EN
  | 2 => irqLive s A.DTM_IRQ_STAT A.DTM_IRQ_EN
  | 3 => irqLive s A.TRV_REF_IRQ_STAT A.TRV_REF_IRQ_EN
  | 4 => irqLive s A.TRV_CH_IRQ_STAT A.TRV_CH_IRQ_EN
  | 5 => irqLive s A.TRN_IRQ_STAT A.TRN_IRQ_EN
  | 6 => irqLive s A.SYN_IRQ_STAT A.SYN_IRQ_EN
  | 7 => irqLive s A.DVL_IRQ_STAT A.DVL_IRQ_EN
  | 8 => irqLive s A.SKO_IRQ_STAT A.SKO_IRQ_EN
  | 9 => [0, 1, 2, 3, 4, 5, 6].any (fun n => irqLive s (A.STK_IRQ_STAT n) (A.STK_IRQ_EN n))
  | 10 => irqLive s (A.PRT_IRQ_STAT 0) (A.PRT_IRQ_EN 0)
  | 11 => irqLive s (A.PRT_IRQ_STAT 1) (A.PRT_IRQ_EN 1)
  | 12 => irqLive s (A.PRT_IRQ_STAT 2) (A.PRT_IRQ_EN 2)
  | 13 => irqLive s (A.PRT_IRQ_STAT 3) (A.PRT_IRQ_EN 3)
  | 14 => [4, 5, 6].any (fun n => irqLive s (A.PRT_IRQ_STAT n) (A.PRT_IRQ_EN n))
  | 15 => irqLive s A.CRL_NTS_IRQ_STAT A.CRL_NTS_IRQ_EN
  | 16 => irqLive s A.PKE_IRQ_STAT A.PKE_IRQ_EN
  | 17 => irqLive s A.PMC_IRQ_STAT A.PMC_IRQ_EN
  | _ => false

/-- Group g is pending and enabled in SYS_IRQ_EN (R414). -/
def groupEnabled (s : State) (g : Nat) : Bool := groupPending s g && s.bit A.SYS_IRQ_EN g

/-- Do `f`, then signal group g's vector if its enabled pending bit rose (R414). -/
def withGroup (g : Nat) (f : State → State) (s : State) : State :=
  let t := f s
  if groupEnabled t g && !groupEnabled s g then signalVector (32 + g) t else t

/-- Set bit i of a block's IRQ_STAT, whose group is g (R413, R414). -/
def irqSet (g stat i : Nat) (s : State) : State := withGroup g (fun s => s.setBit stat i) s

/-- An event of unit u reaches the hub, and an overflow signals group 17 (R398, R402, R413). -/
def pmcEvent (u evt inst amt : Nat) (s : State) : State := withGroup 17 (pmcRaw u evt inst amt) s

/-- An access to the DRAM: event 07 a read, 08 a write (R400). No rule gives its channel, which is a free value (assumption log 66). -/
def dramEvent (evt : Nat) (s : State) : State :=
  let c := s.draw 1
  pmcEvent 12 evt c.1 1 c.2

/-- The group of a port's interrupts (R413). -/
def portGroup (p : Nat) : Nat := if p < 4 then 10 + p else 14

/-! ## Alarms (R385) -/

/-- Raise alarm n. -/
def alarmRaise (n : Nat) (s : State) : State :=
  let s := { s with flt := { s.flt with raised := s.flt.raised ||| 2 ^ n } }
  if s.bit A.SYS_ALARM_STAT n then s
  else pmcEvent 0 0x09 0x80 1 (irqSet 1 A.SYS_ALARM_STAT n s)

/-! ## Field Book records (R387, R388) -/

/-- SOURCE of a whole block. -/
def srcBlock (blk : Nat) : Nat := blk * 256 + 0xFF

/-- SOURCE of a unit. -/
def srcUnit (blk unit : Nat) : Nat := blk * 256 + unit % 256

/-- An entry reaches the queue of its writing block, or finds it full and is lost (R388, R385). -/
def enqueueEntry (e : Entry) (s : State) : State :=
  let blk := e.code / 256
  if (s.fbk.queued.filter (fun q => decide (q.block = blk))).length < 64 then
    { s with fbk := { s.fbk with queued := s.fbk.queued ++ [⟨blk, s.now, e⟩] } }
  else
    let s := { s with fbk := { s.fbk with lost := s.fbk.lost.put blk ((s.fbk.lost.get blk).getD 0 + 1) } }
    alarmRaise 15 (s.addSat F.FBK_LOST_CNT_COUNT 1)

/-- Write a record that carries a Datum value of its own (R28). -/
def recordAt (t : Instant) (code src a0 a1 a2 a3 : Nat) (s : State) : State :=
  enqueueEntry ⟨t % datumMod, src, code, a0 % 2 ^ 32, a1 % 2 ^ 32, a2 % 2 ^ 32, a3 % 2 ^ 32, false⟩ s

/-- Write a record of the present instant, of the whole block that writes it. -/
def record (code a0 a1 a2 a3 : Nat) (s : State) : State :=
  recordAt s.recordTime code (srcBlock (code / 256)) a0 a1 a2 a3 s

/-- Write a record of one unit of the block. -/
def recordUnit (code unit a0 a1 a2 a3 : Nat) (s : State) : State :=
  recordAt s.recordTime code (srcUnit (code / 256) unit) a0 a1 a2 a3 s

/-- Clear alarm n and record the clear (R385). -/
def alarmClear (n : Nat) (s : State) : State :=
  if s.bit A.SYS_ALARM_STAT n then record 0x000F n 0 0 0 (s.clrBit A.SYS_ALARM_STAT n) else s

/-- Raise or clear an alarm by its condition. -/
def alarmSet (n : Nat) (b : Bool) (s : State) : State := if b then alarmRaise n s else alarmClear n s

/-! ## Fault events (R379) -/

/-- A block sends a fault event to the fault manager, where it waits to be judged (R28, R379). -/
def faultSend (code : FaultCode) (source a1 a2 a3 : Nat) (s : State) : State :=
  { s with flt := { s.flt with queue := s.flt.queue ++ [⟨code, source, s.recordTime, a1, a2, a3⟩] } }

/-! ## What requests that wait may still need (R29, R88) -/

/-- Whether a request still waits in a pipeline. -/
def pipesBusy (s : State) : Bool :=
  s.svp.queues.any (fun q => !q.isEmpty) || s.svp.fills.any (fun f => !f.waiting.isEmpty) || !s.svp.verify.isEmpty
    || !s.svp.encrypts.isEmpty || s.svp.lanes.any (fun l => !l.jobs.isEmpty)

/-- Of what is kept with the edge at which it ended, what a request may still need: all while requests wait, and otherwise that of the last second, for
a frame whose timestamp point has crossed and whose end is still to come (R29). -/
def stillNeeded {α : Type} (s : State) (l : List (Instant × α)) : List (Instant × α) :=
  if pipesBusy s then l else l.filter (fun e => decide (instDiff s.datum e.1 < (secUnits : Int)))

/-- What stood at an instant, of what is kept with the edge at which it ended, oldest first; none where it is what stands now (R29, R88). -/
def stoodAt {α : Type} (l : List (Instant × α)) (t : Instant) : Option α := (l.find? (fun e => decide (0 < instDiff e.1 t))).map (·.2)

/-- What LI and the NTP format follow at present (R56, R62-R64). -/
def State.leapView (s : State) : LeapView :=
  ⟨s.get F.DTM_UTC_STAT_PENDING, s.dtm.leapDay, s.dtm.leapLate, s.getI F.DTM_UTC_STAT_OFFSET⟩

/-- What they followed at an instant (R88). -/
def State.leapAt (s : State) (t : Instant) : LeapView := (stoodAt s.svp.leaps t).getD s.leapView

/-- Do something that may change what LI and the NTP format follow: what they followed before is kept for requests that arrived before (R88). -/
def noteLeap (f : State → State) (s : State) : State :=
  let t := f s
  if t.leapView = s.leapView then t
  else { t with svp := { t.svp with leaps := stillNeeded t t.svp.leaps ++ [(s.datum, s.leapView)] } }

end Sys2Proof.Machine
end

