-- ==== Sys2Proof/Machine/Operands.lean ====
section
/-! DEFINITION. The operand forms of the commands that carry frames: Ethernet, VLAN, IPv4, IPv6, UDP, TCP, ARP, neighbour discovery, ICMP echo, NTP and PTP, read and built;
and the timestamp formats of NTP and PTP (R56-R64). Layouts that the spec names and does not print are those of IEEE 802.3, IEEE 1588-2019 and the RFCs (assumption log 22). -/
namespace Sys2Proof.Machine

/-! ## Ethernet -/

/-- The frame check sequence of IEEE 802.3 over a frame without it. -/
def crc32 (bs : Bytes) : Nat :=
  (bs.foldl (fun c b => (bitsMsb b).reverse.foldl (crcStepLsb 0xEDB88320) c) 0xFFFFFFFF) ^^^ 0xFFFFFFFF

/-- A frame with its FCS. -/
def withFcs (b : Bytes) : Bytes := b ++ natLE 4 (crc32 b)

/-- A frame without its FCS. -/
def dropFcs (b : Bytes) : Bytes := b.take (b.length - 4)

/-- Whether the last four bytes of a frame are its FCS. -/
def fcsGood (b : Bytes) : Bool := decide (4 ≤ b.length) && decide (leNat (b.drop (b.length - 4)) = crc32 (dropFcs b))

/-- The Ethernet part of a frame without FCS: the addresses, the number of VLAN tags, the first tag (TPID * 65536 + TCI), the EtherType
after the tags and where the payload starts. -/
structure Eth where
  dst : Nat
  src : Nat
  tags : Nat
  tag : Nat
  etype : Nat
  off : Nat
deriving DecidableEq, Repr

/-- Whether an EtherType opens a VLAN tag. -/
def isTpid (t : Nat) : Bool := decide (t = 0x8100) || decide (t = 0x88A8)

/-- How many VLAN tags follow each other from an offset on. -/
def tagRun : Nat → Bytes → Nat → Nat
  | 0, _, _ => 0
  | n + 1, b, o => if isTpid (beAt b o 2) then 1 + tagRun n b (o + 4) else 0

/-- Read the Ethernet part, past any VLAN tags (R77, R79). -/
def parseEth (b : Bytes) : Eth :=
  let n := tagRun (b.length / 4) b 12
  ⟨beAt b 0 6, beAt b 6 6, n, if n = 0 then 0 else beAt b 12 4, beAt b (12 + 4 * n) 2, 14 + 4 * n⟩

/-- The VLAN identifier; an untagged or priority-tagged frame has 0 (R77). -/
def Eth.vid (e : Eth) : Nat := e.tag % 4096

/-- The Ethernet header of a frame to build, with an EtherType. -/
def ethHead (dst src tag etype : Nat) : Bytes :=
  natBE 6 dst ++ natBE 6 src ++ (if tag = 0 then [] else natBE 4 tag) ++ natBE 2 etype

/-- A tag for a VLAN identifier, with priority 0; none for 0. -/
def vidTag (vid : Nat) : Nat := if vid = 0 then 0 else 0x81000000 + vid

/-- Pad a frame to the 60 bytes that 64 with FCS need. -/
def ethPad (b : Bytes) : Bytes := padTo 60 b

/-! ## IP -/

/-- The Internet checksum: the complement of the ones' complement sum of 16-bit words. -/
def inetSum : Bytes → Nat → Nat
  | [], n => n
  | [x], n => n + x.toNat * 256
  | x :: y :: r, n => inetSum r (n + x.toNat * 256 + y.toNat)

/-- Fold a sum to 16 bits and complement it. -/
def inetFold (n : Nat) : Nat :=
  let a := n % 65536 + n / 65536
  let b := a % 65536 + a / 65536
  65535 - (b % 65536 + b / 65536)

/-- The checksum of bytes with a sum to start from. -/
def inetChecksum (b : Bytes) (start : Nat) : Nat := inetFold (inetSum b start)

/-- The sum of the pseudo-header of UDP, TCP and ICMPv6. -/
def pseudoSum (v6 : Bool) (src dst proto len : Nat) : Nat :=
  let w := if v6 then 16 else 4
  inetSum (natBE w src ++ natBE w dst ++ natBE 4 len ++ natBE 4 proto) 0

/-- An IP packet as read: family, addresses, protocol (Next Header of the fixed header), hop limit, payload, the protocol and the bytes behind any IPv6
extension headers (59, no next header, where none can be reached), whether it is a fragment, and whether check 1 of R82 holds. -/
structure Ip where
  v6 : Bool
  src : Nat
  dst : Nat
  proto : Nat
  hop : Nat
  payload : Bytes
  upper : Nat
  segment : Bytes
  fragment : Bool
  sound : Bool
deriving DecidableEq, Repr

/-- Walk the extension headers of an IPv6 packet: the protocol behind them, its bytes, and whether a Fragment header was among them. A fragment that is not the
first reaches no protocol. -/
def ip6Walk : Nat → Nat → Bytes → Bool → Nat × Bytes × Bool
  | 0, _, b, f => (59, b, f)
  | n + 1, k, b, f =>
    if k = 0 ∨ k = 43 ∨ k = 60 then ip6Walk n (beAt b 0 1) (b.drop (8 * (beAt b 1 1 + 1))) f
    else if k = 51 then ip6Walk n (beAt b 0 1) (b.drop (4 * (beAt b 1 1 + 2))) f
    else if k = 44 then (if beAt b 2 2 / 8 = 0 then ip6Walk n (beAt b 0 1) (b.drop 8) true else (59, b, true))
    else (k, b, f)

/-- Read an IPv4 packet (check 1 of R82: version 4, IHL 5, no fragment, checksum, total length). -/
def parseIp4 (b : Bytes) : Ip :=
  let frag := decide (beAt b 6 2 % 0x4000 ≠ 0)
  let total := beAt b 2 2
  let ihl := (beAt b 0 1 % 16) * 4
  { v6 := false, src := beAt b 12 4, dst := beAt b 16 4, proto := beAt b 9 1, hop := beAt b 8 1,
    payload := slice b ihl (total - ihl), upper := beAt b 9 1, segment := slice b ihl (total - ihl), fragment := frag,
    sound := decide (beAt b 0 1 = 0x45) && !frag && decide (inetChecksum (b.take 20) 0 = 0)
      && decide (20 ≤ total) && decide (total ≤ b.length) }

/-- Read an IPv6 packet (check 1 of R82: next header UDP with no extension header, payload length). -/
def parseIp6 (b : Bytes) : Ip :=
  let len := beAt b 4 2
  let w := ip6Walk 16 (beAt b 6 1) (slice b 40 len) false
  { v6 := true, src := beAt b 8 16, dst := beAt b 24 16, proto := beAt b 6 1, hop := beAt b 7 1,
    payload := slice b 40 len, upper := w.1, segment := w.2.1, fragment := w.2.2,
    sound := decide (beAt b 0 1 / 16 = 6) && decide (beAt b 6 1 = 17) && decide (40 + len ≤ b.length) }

/-- Read the IP packet of a frame, where its EtherType is IP. -/
def parseIp (e : Eth) (b : Bytes) : Option Ip :=
  if e.etype = 0x0800 then some (parseIp4 (b.drop e.off))
  else if e.etype = 0x86DD then some (parseIp6 (b.drop e.off))
  else none

/-- Source addresses that check 2 of R82 refuses: multicast, broadcast, loopback, unspecified. -/
def badSource (v6 : Bool) (a : Nat) : Bool :=
  if v6 then decide (a / 2 ^ 120 = 0xFF) || decide (a = 0) || decide (a = 1)
  else decide (a / 2 ^ 28 = 14) || decide (a = 0xFFFFFFFF) || decide (a / 2 ^ 24 = 127) || decide (a = 0)

/-- Check 3 of R82: the UDP length, the source port and the checksum; a zero checksum is accepted on IPv4 and refused on IPv6. -/
def udpSound (i : Ip) : Bool :=
  let len := beAt i.segment 4 2
  decide (8 ≤ i.segment.length) && decide (len = i.segment.length) && decide (beAt i.segment 0 2 ≠ 0)
    && (if beAt i.segment 6 2 = 0 then !i.v6
        else decide (inetChecksum i.segment (pseudoSum i.v6 i.src i.dst 17 len) = 0))

/-- The UDP payload. -/
def Ip.udp (i : Ip) : Bytes := i.segment.drop 8

/-- The UDP payload by the UDP length (R100). -/
def Ip.udpBody (i : Ip) : Bytes := slice i.segment 8 (beAt i.segment 4 2 - 8)

/-- The source port of UDP and TCP. -/
def Ip.sport (i : Ip) : Nat := beAt i.segment 0 2

/-- The destination port of UDP and TCP. -/
def Ip.dport (i : Ip) : Nat := beAt i.segment 2 2

/-- An IP header, with its checksum on IPv4. -/
def ipHead (v6 : Bool) (src dst proto hop len : Nat) : Bytes :=
  if v6 then natBE 4 0x60000000 ++ natBE 2 len ++ natBE 1 proto ++ natBE 1 hop ++ natBE 16 src ++ natBE 16 dst
  else
    let a := natBE 2 0x4500 ++ natBE 2 (20 + len) ++ natBE 2 0 ++ natBE 2 0x4000 ++ natBE 1 hop ++ natBE 1 proto
    let z := natBE 4 src ++ natBE 4 dst
    a ++ natBE 2 (inetChecksum (a ++ zeros 2 ++ z) 0) ++ z

/-- A UDP datagram with its checksum; a checksum that comes out 0 is sent as 0xFFFF. -/
def udpBytes (v6 : Bool) (src dst sport dport : Nat) (p : Bytes) : Bytes :=
  let len := 8 + p.length
  let h := natBE 2 sport ++ natBE 2 dport ++ natBE 2 len
  let c := inetChecksum (h ++ zeros 2 ++ p) (pseudoSum v6 src dst 17 len)
  h ++ natBE 2 (if c = 0 then 0xFFFF else c) ++ p

/-- The frame of an envelope and a payload, without FCS: UDP over IP, or Layer 2 PTP (R78). -/
def Envelope.frame (v : Envelope) (p : Bytes) : Bytes :=
  if v.l2 then ethPad (ethHead v.dstMac v.srcMac v.tag 0x88F7 ++ p)
  else
    let u := udpBytes v.v6 v.srcIp v.dstIp v.srcPort v.dstPort p
    ethPad (ethHead v.dstMac v.srcMac v.tag (if v.v6 then 0x86DD else 0x0800)
      ++ ipHead v.v6 v.srcIp v.dstIp 17 v.hop u.length ++ u)

/-- The length F of R112 of that frame, FCS and VLAN tag included. -/
def Envelope.length (v : Envelope) (n : Nat) : Nat :=
  let body := (if v.tag = 0 then 14 else 18) + (if v.l2 then 0 else if v.v6 then 48 else 28) + n
  (if body < 60 then 60 else body) + 4

/-! ## Address resolution and echo (R79, R80) -/

/-- An ARP reply: sha and spa of the answering side. -/
def arpReply (tag sha spa tha tpa : Nat) : Bytes :=
  ethPad (ethHead tha sha tag 0x0806 ++ natBE 8 0x0001080006040002 ++ natBE 6 sha ++ natBE 4 spa ++ natBE 6 tha ++ natBE 4 tpa)

/-- A gratuitous ARP for an address (R81). -/
def gratuitousArp (tag mac ip : Nat) : Bytes :=
  ethPad (ethHead 0xFFFFFFFFFFFF mac tag 0x0806 ++ natBE 8 0x0001080006040001 ++ natBE 6 mac ++ natBE 4 ip ++ zeros 6 ++ natBE 4 ip)

/-- The all-nodes multicast address and its MAC. -/
def allNodes : Nat := 0xFF020000000000000000000000000001
def allNodesMac : Nat := 0x333300000001

/-- A neighbour advertisement with its target link-layer address option; `flags` are S = 2 and O = 1 in bits 30 and 29. -/
def neighbourAdv (dstMac mac tag dstIp target flags : Nat) : Bytes :=
  let body := natBE 4 (flags * 2 ^ 29) ++ natBE 16 target ++ natBE 2 0x0201 ++ natBE 6 mac
  let c := inetChecksum (natBE 2 0x8800 ++ zeros 2 ++ body) (pseudoSum true target dstIp 58 32)
  ethPad (ethHead dstMac mac tag 0x86DD ++ ipHead true target dstIp 58 255 32 ++ natBE 2 0x8800 ++ natBE 2 c ++ body)

/-- An echo reply to an ICMP or ICMPv6 echo request. -/
def echoReply (e : Eth) (i : Ip) (mac hop : Nat) : Bytes :=
  let body := i.payload.drop 4
  let m := natBE 2 (if i.v6 then 0x8100 else 0)
  let c := inetChecksum (m ++ zeros 2 ++ body) (if i.v6 then pseudoSum true i.dst i.src 58 i.payload.length else 0)
  ethPad (ethHead e.src mac e.tag e.etype ++ ipHead i.v6 i.dst i.src (if i.v6 then 58 else 1) hop i.payload.length
    ++ m ++ natBE 2 c ++ body)

/-! ## Flow key (R79) -/

/-- The flow key of a host-bound frame. -/
def flowKey (b : Bytes) : Bytes :=
  let e := parseEth b
  match parseIp e b with
  | some i =>
    let w := if i.v6 then 16 else 4
    let k := natBE w i.src ++ natBE w i.dst ++ natBE 1 i.proto
    if !i.fragment && (decide (i.upper = 6) || decide (i.upper = 17)) then k ++ slice i.segment 0 4 else k
  | none => natBE 6 e.dst ++ natBE 6 e.src ++ natBE 2 e.etype

/-! ## Timestamp formats (R56-R64) -/

/-- The UTC day of an instant's leap, in seconds of TAI: 00:00:00 UTC of a Modified Julian Date under an offset. -/
def dayStart (day : Nat) (off : Int) : Int := ((day : Int) - 40587) * 86400 + off

/-- Whether leap smear applies to a pending leap (R63, R64). -/
def smearing (s : State) (v : LeapView) : Bool := s.on F.DTM_UTC_CFG_SMEAR && decide (v.kind ≠ 0) && !v.late

/-- TAI-UTC at an instant for the NTP format (R56, R62): the pending leap counts from the inserted second on, which repeats the seconds
value before it, or from the instant of a deletion. -/
def ntpOffset (v : LeapView) (t : Instant) : Int :=
  let day := dayStart v.day v.off
  if v.kind = 1 ∧ day + 86400 ≤ ((instSec t : Nat) : Int) then v.off + 1
  else if v.kind = 2 ∧ day + 86399 ≤ ((instSec t : Nat) : Int) then v.off - 1
  else v.off

/-- An NTP timestamp, seconds and fraction as one 64-bit number (R56), of an instant given as `num / den` units of 2^-16 ns. -/
def ntpRound (num den : Int) (off : Int) : Nat :=
  let u : Int := (secUnits : Int) * den
  (((num * 2 ^ 33 + u) / (2 * u) + (2208988800 - off) * 2 ^ 32) % (2 ^ 64 : Int)).toNat

/-- The NTP timestamp of an instant (R56), smeared where leap smear applies (R63), by the TAI-UTC and the pending leap in force at that instant. -/
def ntpTime (s : State) (t : Instant) : Nat :=
  let v := s.leapAt t
  let e : Int := (t : Int) - dayStart v.day v.off * (secUnits : Int)
  let len : Int := if v.kind = 1 then 86401 else 86399
  if smearing s v && decide (0 ≤ e) && decide (e ≤ len * (secUnits : Int)) then
    if len = 86401 then ntpRound ((t : Int) * len - e) len v.off else ntpRound ((t : Int) * len + e) len v.off
  else ntpRound t 1 (ntpOffset v t)

/-- LI of a request that arrived at an instant, while the leap announcement of R62 was in force then; 0 when none was, and when smear applies (R87, R88). -/
def leapLI (s : State) (t : Instant) : Nat :=
  let v := s.leapAt t
  if v.kind ≠ 0 ∧ smearing s v = false ∧ dayStart v.day v.off ≤ ((instSec t : Nat) : Int) then v.kind else 0

/-- The PTP leap flags: the leap announced in the last 12 hours of its day (R62). -/
def leapPtp (s : State) (t : Instant) : Nat :=
  let v := s.leapAt t
  if v.kind ≠ 0 ∧ dayStart v.day v.off + 43200 ≤ ((instSec t : Nat) : Int) then v.kind else 0

/-- A PTP timestamp of ten bytes: SEC and NS (R58). -/
def ptpStamp (t : Instant) : Bytes := natBE 6 (instSec t) ++ natBE 4 (instNs t)

/-! ## PTP messages (IEEE 1588-2019) -/

/-- The fields of a PTP message that the device reads. -/
structure Ptp where
  kind : Nat
  version : Nat
  minor : Nat
  length : Nat
  domain : Nat
  flags : Nat
  corr : Int
  /-- sourcePortIdentity, ten bytes as a number. -/
  port : Nat
  seq : Nat
  logInt : Nat
  body : Bytes
deriving DecidableEq, Repr

/-- Read the 34-byte header. -/
def parsePtp (b : Bytes) : Ptp :=
  { kind := beAt b 0 1 % 16, version := beAt b 1 1 % 16, minor := beAt b 1 1 / 16, length := beAt b 2 2, domain := beAt b 4 1,
    flags := beAt b 6 2, corr := toSigned 64 (beAt b 8 8), port := beAt b 20 10, seq := beAt b 30 2, logInt := beAt b 33 1,
    body := b.drop 34 }

/-- The length of a message of each type; 34 for the others. -/
def ptpLength (kind : Nat) : Nat :=
  if kind = 0 ∨ kind = 1 ∨ kind = 8 then 44
  else if kind = 2 ∨ kind = 3 ∨ kind = 9 ∨ kind = 10 then 54
  else if kind = 11 then 64
  else if kind = 12 then 44
  else if kind = 13 then 48
  else 34

/-- The controlField of a message type. -/
def ptpControl (kind : Nat) : Nat :=
  if kind = 0 then 0 else if kind = 1 then 1 else if kind = 8 then 2 else if kind = 9 then 3 else if kind = 13 then 4 else 5

/-- A PTP header with minorVersionPTP 1 (R100) and a body. -/
def ptpMessage (kind domain flags : Nat) (corr : Int) (port seq logInt : Nat) (body : Bytes) : Bytes :=
  natBE 1 kind ++ natBE 1 0x12 ++ natBE 2 (34 + body.length) ++ natBE 1 domain ++ zeros 1 ++ natBE 2 flags
    ++ natBE 8 (ofSigned 64 corr) ++ zeros 4 ++ natBE 10 port ++ natBE 2 seq ++ natBE 1 (ptpControl kind) ++ natBE 1 logInt ++ body

/-- A clockIdentity of a MAC address (EUI-64), with a port number: sourcePortIdentity. -/
def portIdentity (mac port : Nat) : Nat :=
  ((mac / 2 ^ 24) * 2 ^ 40 + 0xFFFE * 2 ^ 24 + mac % 2 ^ 24) * 65536 + port

/-! ## NTP messages -/

/-- The 48-byte header of an NTP response. -/
def ntpHeader (li vn stratum poll rootDelay rootDisp refId refTime orig recv xmit : Nat) : Bytes :=
  natBE 1 (li * 64 + vn * 8 + 4) ++ natBE 1 stratum ++ natBE 1 poll ++ natBE 1 0xE2 ++ natBE 4 rootDelay ++ natBE 4 rootDisp
    ++ natBE 4 refId ++ natBE 8 refTime ++ natBE 8 orig ++ natBE 8 recv ++ natBE 8 xmit

/-- Replace `n` bytes at an offset. -/
def patch (b : Bytes) (o : Nat) (x : Bytes) : Bytes := b.take o ++ x ++ b.drop (o + x.length)

/-- An NTP extension field: type, and its bytes from the type on. -/
structure ExtField where
  kind : Nat
  bytes : Bytes
deriving DecidableEq, Repr

/-- The value of an extension field. -/
def ExtField.value (f : ExtField) : Bytes := f.bytes.drop 4

/-- How the extension fields of a request end: parsed, or the reason of R83. -/
inductive ExtResult where
  | fields (l : List ExtField)
  | badExt
  | badMac
deriving DecidableEq, Repr

/-- Parse extension fields (R83) while more than 24 bytes remain; at most 32 fields. -/
def parseExt : Nat → Bytes → List ExtField → ExtResult
  | n, b, acc =>
    if b.length ≤ 24 then
      if b.length = 0 then .fields acc.reverse else if b.length = 20 ∨ b.length = 24 then .badMac else .badExt
    else match n with
      | 0 => .badExt
      | n + 1 =>
        let len := beAt b 2 2
        if len % 4 = 0 ∧ 16 ≤ len ∧ len ≤ b.length then parseExt n (b.drop len) (⟨beAt b 0 2, b.take len⟩ :: acc) else .badExt

end Sys2Proof.Machine
end

