-- ==== Sys2Proof/Machine/Hub.lean ====
section
/-! DEFINITION. What many blocks send to: the queues of the up-rings (R330-R332) and the trace of tagged packets (R406-R408, R410). -/
namespace Sys2Proof.Machine

/-! ## Rings (R323, R330-R332) -/

/-- Ring r of R323. -/
def State.ring (s : State) (r : Nat) : Ring := (s.hmi.rings.get r).getD Ring.empty

/-- Replace ring r. The map lists only rings that are not empty. -/
def State.setRing (s : State) (r : Nat) (q : Ring) : State :=
  { s with hmi := { s.hmi with rings := if q = Ring.empty then s.hmi.rings.del r else s.hmi.rings.put r q } }

/-- The queue room of an up-ring in bytes (R37, R330). -/
def upRoom (r : Nat) : Nat := if r < 16 then 8388608 else 4194304

/-- Bytes that a queue holds. -/
def queueBytes (q : List UpItem) : Nat := q.foldl (fun n i => n + i.bytes.length) 0

/-- Count one more drop of a kind in tick `t` (R332). -/
def DropTicks.add (d : DropTicks) (t : Nat) : DropTicks :=
  if d.tick = t then { d with count := d.count + 1 }
  else if d.tick + 1 = t then ⟨t, 1, d.count⟩
  else ⟨t, 1, 0⟩

/-- Count a drop on a ring, with no record: a queue that a stopped ring discards (R326), or Field Book entries (R332). -/
def dropQuiet (r : Nat) (s : State) : State :=
  let q := s.ring r
  pmcEvent 12 0x06 r 1 ((s.addSat (F.HMI_R_DROP_CNT_COUNT r) 1).setRing r { q with drops := satAdd32 q.drops 1 })

/-- A drop of R330 or R331 on ring r: RING_OVERSIZE or RING_SHORT. The first of its kind in a tick is recorded (R332). -/
def dropItem (r : Nat) (big : Bool) (len : Nat) (s : State) : State :=
  let s := dropQuiet r s
  let s := if big then s.addSat (F.HMI_R_OVS_CNT_COUNT r) 1 else s
  let q := s.ring r
  let d := (if big then q.oversize else q.short).add s.sys.ticks
  let s := s.setRing r (if big then { q with oversize := d } else { q with short := d })
  if d.count = 1 ∧ ¬(16 ≤ r ∧ r ≤ 19) then
    recordUnit (if big then 0x4803 else 0x4802) r r len d.prev 0 s
  else s

/-- A journal record that is not delivered marks its segment (R392). -/
def undelivered (i : UpItem) (s : State) : State :=
  if i.seg = 0 then s
  else if (s.fbk.segs.get (i.seg - 1)).isSome then
    { s with fbk := { s.fbk with segs := s.fbk.segs.modify (i.seg - 1) (fun g => { g with lostDelivery := true }) } }
  else { s with fbk := { s.fbk with openUndelivered := true } }

/-- An item reaches the queue of up-ring r (R330). A ring that is not enabled takes nothing (R326). -/
def upEnqueue (r : Nat) (i : UpItem) (s : State) : State :=
  if s.on (F.HMI_R_CFG_EN r) = false then undelivered i s
  else if i.record = false ∧ s.get (F.HMI_R_LIM_MAXFRM r) < i.bytes.length then dropItem r true i.bytes.length s
  else
    let q := s.ring r
    if upRoom r < queueBytes q.queue + i.bytes.length then dropItem r false i.bytes.length (undelivered i s)
    else s.setRing r { q with queue := q.queue ++ [i] }

/-- Write a performance-monitor record to U20 + RING (R410). -/
def pmcRecord (b : Bytes) (s : State) : State := upEnqueue (20 + s.get F.PMC_CFG_RING) ⟨b, true, 0, 0, 0⟩ s

/-! ## Tagged packets (R406-R408) -/

/-- One advance of the 32-bit LFSR of x^32 + x^22 + x^2 + x + 1. DESIGN CHOICE (assumption log 21): the shift is to the left and the
feedback enters the low terms. -/
def lfsrNext (x : Nat) : Nat :=
  let y := x * 2 % 2 ^ 32
  if x / 2 ^ 31 % 2 = 1 then y ^^^ 0x00400007 else y

/-- A tag of a packet in flight: its pipeline and sequence number. -/
abbrev Tag := Option (Nat × Nat)

/-- Offer a frame to the tag LFSR of its pipeline (R406). Main port n is served by PLn. -/
def offerTag (port : Fin 4) (cls : Nat) (arrive : Instant) (s : State) : Tag × State :=
  if s.on F.PMC_TAG_CFG_EN && (s.get F.PMC_TAG_CFG_PORTS).testBit port && (s.get F.PMC_TAG_CFG_CLASS).testBit cls then
    let x := lfsrNext s.pmc.lfsr[port]
    let s := { s with pmc := { s.pmc with lfsr := s.pmc.lfsr.set port x } }
    if x % 2 ^ s.get F.PMC_TAG_CFG_K = 0 then
      if 64 ≤ (s.pmc.inflight.filter (fun t => decide (t.pl = port.val))).length then
        (none, irqSet 17 A.PMC_IRQ_STAT 15 (s.addSat F.PMC_TAG_SKIP_CNT_COUNT 1))
      else
        let q := s.pmc.tagSeq[port]
        (some (port, q), { s with pmc := { s.pmc with
          tagSeq := s.pmc.tagSeq.set port ((q + 1) % 2 ^ 32)
          inflight := s.pmc.inflight ++ [⟨port, q, port, cls, arrive, [], none, false, false, false⟩] } })
    else (none, s)
  else (none, s)

/-- Change the tagged packet of a tag. -/
def traceMod (g : Tag) (f : Traced → Traced) (s : State) : State :=
  match g with
  | none => s
  | some (pl, q) =>
    { s with pmc := { s.pmc with inflight := s.pmc.inflight.map (fun t => if t.pl = pl ∧ t.seq = q then f t else t) } }

/-- Stamp a stage of a tagged packet with an instant (R407). -/
def traceAt (g : Tag) (stage : Nat) (t : Instant) (s : State) : State :=
  traceMod g (fun x => { x with stamps := (stage, t) :: x.stamps }) s

/-- Stamp a stage with the present Datum value. -/
def traceStage (g : Tag) (stage : Nat) (s : State) : State := traceAt g stage s.datum s

/-- An offset from the arrival in units of 2^-8 ns, rounded to nearest with ties upward, saturating (R408). -/
def traceOffset (base : Instant) (t : Option Instant) : Nat :=
  match t with
  | none => 0xFFFFFFFF
  | some x => (clampInt 0 0xFFFFFFFE ((instDiff x base + 128) / 256)).toNat

/-- The latest stamp of a stage. -/
def Traced.stamp (t : Traced) (stage : Nat) : Option Instant := (t.stamps.find? (fun e => decide (e.1 = stage))).map (·.2)

/-- The 64-byte packet trace record (R408). -/
def Traced.bytes (t : Traced) (outcome reason : Nat) : Bytes :=
  let flags := (if t.restaked then 1 else 0) + (if t.cacheMiss then 2 else 0) + (if t.interleaved then 4 else 0)
  natLE 1 0x10 ++ natLE 1 t.port ++ natLE 1 t.cls ++ natLE 1 outcome ++ natLE 1 reason ++ natLE 1 flags ++ zeros 2
    ++ natLE 4 t.seq ++ instBytes t.arrive
    ++ [2, 3, 4, 5, 6, 7, 8, 9].flatMap (fun k => natLE 4 (traceOffset t.arrive (t.stamp k)))
    ++ natLE 4 (traceOffset t.arrive t.dep) ++ zeros 4

/-- A tagged packet ends: the hub writes its trace record (R407, R408). -/
def traceEnd (g : Tag) (outcome reason : Nat) (s : State) : State :=
  match g with
  | none => s
  | some (pl, q) =>
    match s.pmc.inflight.find? (fun t => decide (t.pl = pl ∧ t.seq = q)) with
    | none => s
    | some t =>
      pmcRecord (t.bytes outcome reason)
        { s with pmc := { s.pmc with inflight := s.pmc.inflight.filter (fun t => decide (¬(t.pl = pl ∧ t.seq = q))) } }

end Sys2Proof.Machine
end

