-- ==== Sys2Proof/Machine/Rings.lean ====
section
/-! DEFINITION. Rings in host memory: slots, completions, write-back, ring interrupts (R321-R336). -/
namespace Sys2Proof.Machine

/-- DCLK periods in a microsecond. -/
def usPeriods : Nat := 1200

/-- Whether the device may issue DMA (R319, R320). -/
def dmaOk (s : State) : Bool :=
  s.on F.HMI_STAT_LINK && s.on F.HMI_STAT_BME && !(s.on F.HMI_STAT_D3) && s.hmi.dmaPaused.isNone

/-- Slots of a ring (R324). -/
def ringSize (s : State) (r : Nat) : Nat := 2 ^ s.get (F.HMI_R_CFG_SIZE r)

/-- The address of a slot. -/
def slotAddr (s : State) (r i : Nat) : Nat :=
  s.get (F.HMI_R_BASE_W0_BASE r) * 4096 + s.get (F.HMI_R_BASE_W1_BASE r) * 2 ^ 32 + 32 * i

/-- HEAD of a ring. -/
def ringHead (s : State) (r : Nat) : Nat := s.get (F.HMI_R_HEAD_HEAD r)

/-- Slots that belong to the device, from HEAD up to TAIL (R324). -/
def ringOwned (s : State) (r : Nat) : Nat :=
  (s.get (F.HMI_R_TAIL_TAIL r) + ringSize s r - ringHead s r) % ringSize s r

/-- The largest buffer of a ring in bytes. -/
def ringBufsz (s : State) (r : Nat) : Nat := s.get (F.HMI_R_CFG_BUFSZ r) * 256

/-- The length that the device uses for a slot, and whether it was clamped (R328). -/
def slotLen (s : State) (r : Nat) (d : Desc) : Nat × Bool :=
  if ringBufsz s r < d.len then (ringBufsz s r, true) else (d.len, false)

/-- A bus-master write (R317). -/
def dmaWrite (r addr : Nat) (b : Bytes) (s : State) : State := pmcEvent 12 0x03 r b.length (s.emit (.dma addr b))

/-- Write HEAD and WRAPS to the write-back address (R325). -/
def writeBack (r : Nat) (s : State) : State :=
  dmaWrite r (s.get (F.HMI_R_WB_W0_WB r) * 8 + s.get (F.HMI_R_WB_W1_WB r) * 2 ^ 32)
    (natLE 4 (ringHead s r) ++ natLE 4 (s.ring r).wraps) s

/-- Advance HEAD past `n` slots (R324, R325). -/
def headAdvance (r n : Nat) (s : State) : State :=
  let h := ringHead s r + n
  let q := s.ring r
  (s.set (F.HMI_R_HEAD_HEAD r) (h % ringSize s r)).setRing r { q with wraps := (q.wraps + h / ringSize s r) % 2 ^ 32 }

/-- The interrupt of a ring fires (R321). -/
def ringFire (r : Nat) (s : State) : State :=
  let s := s.setBit (if r < 32 then A.HMI_IRQ_PEND_W0 else A.HMI_IRQ_PEND_W1) (r % 32)
  let q := s.ring r
  signalVector (s.get (F.HMI_R_IRQ_VEC r)) (s.setRing r { q with unsignalled := 0 })

/-- Fire when CNT completions have been written since the interrupt last fired (R321). Command rings fire none. -/
def ringCheck (r : Nat) (s : State) : State :=
  if s.on (F.HMI_R_IRQ_EN r) ∧ r < 56 ∧ 0 < (s.ring r).unsignalled ∧ s.get (F.HMI_R_IRQ_CNT r) ≤ (s.ring r).unsignalled then
    ringFire r s
  else s

/-- `n` completions have been written: HEAD passes their slots, the write-back follows, then the interrupt (R321, R325). -/
def ringCompleted (r n : Nat) (s : State) : State :=
  let s := writeBack r (headAdvance r n s)
  let q := s.ring r
  let s := s.setRing r { q with unsignalled := q.unsignalled + n, firstAt := if q.unsignalled = 0 then s.now else q.firstAt }
  ringCheck r (pmcEvent 12 0x02 r n s)

/-- The Datum word layout in 16 bytes (R43, R329). -/
def stampBytes (t : Instant) : Bytes :=
  natLE 4 (instFrac t) ++ natLE 4 (instNs t) ++ natLE 4 (instSec t) ++ natLE 4 (instSec t / 2 ^ 32)

/-- CFLAGS of a completion. -/
def cflags (sop eop invalid clamped ts : Bool) : Nat :=
  (if sop then 1 else 0) + (if eop then 2 else 0) + (if invalid then 4 else 0) + (if clamped then 8 else 0) + (if ts then 16 else 0)

/-- Note a clamped or an invalid slot in the ring's STAT (R328). -/
def noteSlot (r : Nat) (clamped invalid : Bool) (s : State) : State :=
  let s := if clamped then s.strike (F.HMI_R_STAT_CLAMP r) else s
  if invalid then s.strike (F.HMI_R_STAT_INVALID r) else s

/-! ## Delivery of frames (R330) -/

/-- One slot of a span that a frame takes: its index, its descriptor, the bytes that go there (0 for an invalid slot), CLAMPED. -/
structure SpanSlot where
  index : Nat
  addr : Nat
  bytes : Nat
  clamped : Bool
  invalid : Bool

/-- Reserve slots in ring order for `left` bytes (R330): none when the owned valid slots fall short. -/
def reserveSpan (s : State) (r : Nat) : Nat → Nat → List Desc → Option (List SpanSlot)
  | _, 0, _ => some []
  | _, _ + 1, [] => none
  | i, left + 1, d :: ds =>
    let slot := (ringHead s r + i) % ringSize s r
    if d.len = 0 then (reserveSpan s r (i + 1) (left + 1) ds).map (⟨slot, 0, 0, false, true⟩ :: ·)
    else
      let l := slotLen s r d
      let n := if left + 1 ≤ l.1 then left + 1 else l.1
      (reserveSpan s r (i + 1) (left + 1 - n) ds).map (⟨slot, d.addr, n, l.2, false⟩ :: ·)

/-- Write the data and completions of a span (R329): `sop` marks the first valid slot still to come. -/
def writeSpan (r : Nat) (f : UpItem) : List SpanSlot → Bool → Bytes → State → State
  | [], _, _, s => s
  | x :: xs, sop, data, s =>
    if x.invalid then
      let s := noteSlot r false true s
      let s := dmaWrite r (slotAddr s r x.index) (natLE 4 0 ++ natLE 2 (cflags false false true false false) ++ natLE 1 f.port ++ zeros 25) s
      writeSpan r f xs sop data s
    else
      let eop := decide (data.length ≤ x.bytes)
      let s := dmaWrite r x.addr (data.take x.bytes) (noteSlot r x.clamped false s)
      let c := natLE 4 x.bytes ++ natLE 2 (cflags sop eop false x.clamped false) ++ natLE 1 f.port ++ zeros 1
        ++ natLE 4 (if sop then f.bytes.length else 0) ++ natLE 4 (if sop then (s.ring r).drops else 0)
        ++ (if sop then stampBytes f.inst else zeros 16)
      let s := dmaWrite r (slotAddr s r x.index) c s
      let s := if sop then s.setRing r { s.ring r with drops := 0 } else s
      writeSpan r f xs false (data.drop x.bytes) s

/-- Take the item at the head of a ring's queue. -/
def popQueue (r : Nat) (s : State) : State := s.setRing r { s.ring r with queue := (s.ring r).queue.tail, waitFrom := none }

/-- The item at the head finds too few slots (R330, R331): it waits up to WAIT, or is dropped whole at once when WAIT is 0. -/
def waitHead (r len : Nat) (s : State) : State :=
  if s.get (F.HMI_R_LIM_WAIT r) = 0 then dropItem r false len (popQueue r ((s.ring r).queue.take 1 |>.foldl (fun s i => undelivered i s) s))
  else if (s.ring r).waitFrom = none then s.setRing r { s.ring r with waitFrom := some s.now }
  else s

/-- A frame at the head of an up-ring queue (R330), with the owned slots from HEAD on as the host wrote them. -/
def deliverFrame (r : Nat) (slots : List Desc) (s : State) : State :=
  match (s.ring r).queue with
  | [] => s
  | f :: _ =>
    match reserveSpan s r 0 f.bytes.length (slots.take (ringOwned s r)) with
    | none => waitHead r f.bytes.length s
    | some span => ringCompleted r span.length (writeSpan r f span true f.bytes (popQueue r s))

/-! ## Record rings (R331) -/

/-- Complete the open record buffer (R329, R331). -/
def completeBuffer (r : Nat) (s : State) : State :=
  match (s.ring r).buf with
  | none => s
  | some b =>
    let c := natLE 4 b.bytes ++ natLE 2 (cflags false false false b.clamped false) ++ natLE 2 b.records
      ++ natLE 4 (s.ring r).drops ++ zeros 20
    let s := dmaWrite r (slotAddr s r b.slot) c s
    ringCompleted r 1 (s.setRing r { s.ring r with buf := none, drops := 0 })

/-- Complete an invalid slot at HEAD of a record ring. -/
def completeInvalid (r : Nat) (s : State) : State :=
  let c := natLE 4 0 ++ natLE 2 (cflags false false true false false) ++ natLE 2 0 ++ natLE 4 (s.ring r).drops ++ zeros 20
  let s := dmaWrite r (slotAddr s r (ringHead s r)) c (noteSlot r false true s)
  ringCompleted r 1 (s.setRing r { s.ring r with drops := 0 })

/-- Place bytes in the open buffer. -/
def appendRecord (r : Nat) (b : RecBuf) (x : Bytes) (s : State) : State :=
  (dmaWrite r (b.addr + b.bytes) x s).setRing r { s.ring r with buf := some { b with bytes := b.bytes + x.length, records := b.records + 1 } }

/-- Place a record in the first of the free owned slots that takes it (R331): invalid slots are completed in their place, and a buffer
that the record does not fit is completed. -/
def placeRecord (r : Nat) (x : Bytes) : List Desc → State → State × Bool
  | [], s => (s, false)
  | d :: ds, s =>
    if ringOwned s r = 0 then (s, false)
    else if d.len = 0 then placeRecord r x ds (completeInvalid r s)
    else
      let l := slotLen s r d
      let b : RecBuf := ⟨ringHead s r, d.addr, l.1, 0, 0, l.2, s.now⟩
      let s := noteSlot r l.2 false (s.setRing r { s.ring r with buf := some b })
      if x.length ≤ l.1 then (appendRecord r b x s, true) else placeRecord r x ds (completeBuffer r s)

/-- The record at the head of a record ring's queue (R331). `slots` are the owned slots after the open buffer's. -/
def deliverRecord (r : Nat) (slots : List Desc) (s : State) : State :=
  match (s.ring r).queue with
  | [] => s
  | i :: _ =>
    match (s.ring r).buf with
    | some b =>
      if b.bytes + i.bytes.length ≤ b.room then appendRecord r b i.bytes (popQueue r s)
      else
        let p := placeRecord r i.bytes slots (completeBuffer r s)
        if p.2 then popQueue r p.1 else waitHead r i.bytes.length p.1
    | none =>
      let p := placeRecord r i.bytes slots s
      if p.2 then popQueue r p.1 else waitHead r i.bytes.length p.1

/-! ## Down frame rings (R333, R334) -/

/-- The completions of a frame's slots (R329). -/
def writeDown (r : Nat) (f : DownFrame) (status : Nat) : List (Nat × Bool × Bool) → State → State
  | [], s => s
  | (i, clamped, invalid) :: xs, s =>
    let last := decide (xs = [])
    let ts := last && f.tsreq && decide (status = 0) && f.inst.isSome
    let c := if invalid then natLE 2 0 ++ natLE 2 0 ++ natLE 2 (cflags false false true false false) ++ zeros 26
      else natLE 2 status ++ natLE 2 f.id ++ natLE 2 (cflags false last false clamped ts) ++ zeros 10
        ++ (if ts then stampBytes (f.inst.getD 0) else zeros 16)
    writeDown r f status xs (dmaWrite r (slotAddr s r i) c (noteSlot r clamped invalid s))

/-- Write the completions of the leading frames whose status is known, in ring order (R334). -/
def flushDown (r : Nat) : List DownFrame → State → State
  | [], s => s.setRing r { s.ring r with frames := [] }
  | f :: fs, s =>
    match f.status with
    | none => s.setRing r { s.ring r with frames := f :: fs }
    | some st => flushDown r fs (ringCompleted r f.slots.length (writeDown r f st f.slots s))

/-- A host frame ends with a status, and an egress instant when it has one (R334, R140). -/
def endHostFrame (r slot status : Nat) (inst : Option Instant) (s : State) : State :=
  let fs := (s.ring r).frames.map (fun f =>
    if (f.slots.head?.map (·.1)) = some slot then { f with status := some status, inst := inst } else f)
  flushDown r fs s

end Sys2Proof.Machine
end

