-- ==== Sys2Proof/Machine/Address.lean ====
section
/-! DEFINITION. Service addresses and client identities (R75, R77, R204), the answering modes (R81), and what ports count and queue (R113, R200, R213). -/
namespace Sys2Proof.Machine

/-! ## Modes (R41, R81) -/

/-- The mode in SYS_MODE_STAT: 0 BOOT, 1 SURVEY, 2 SERVE, 3 SHADOW, 4 SAFE, 5 MAINT, 6 MONUMENT, 7 DORMANT. -/
def State.mode (s : State) : Nat := s.get F.SYS_MODE_STAT_MODE

/-- The answering modes: SERVE, and SURVEY while SURVEYANS is 1 (R81). -/
def answering (s : State) : Bool := decide (s.mode = 2) || (decide (s.mode = 1) && s.on F.SVP_CFG_SURVEYANS)

/-! ## Clocks and instants -/

/-- DCLK runs: the Datum has started and no freeze holds the clocks (R276, R348). -/
def dclkRuns (s : State) : Bool := s.dtm.started && !(s.on F.SYN_STAT_FROZEN)

/-- MCLK has a source (R33, R279). -/
def mclkRuns (s : State) : Bool := s.on F.SYN_STAT_SYN0LOCK || s.on F.SYN_STAT_AUXLOCK

/-- A freeze holds DCLK, SCLK and KCLK: the ports, Stakeout, the pipelines, the service processors and the lanes stand, with their state held (R33, R276). -/
def halted (s : State) : Bool := s.on F.SYN_STAT_FROZEN

/-- Whether an instant is after another by R45. -/
def after (a b : Instant) : Bool := decide (0 < instDiff a b)

/-- The state with the registers that were in force at an instant, for the parameters of what happened then (R29). -/
def State.asOf (s : State) (t : Instant) : State :=
  match stoodAt s.svp.history t with
  | some m => { s with regs := m }
  | none => s

/-- Series stop when the device leaves the answering modes and when their address is disabled, at once (R81). -/
def stopSeries (s : State) : State :=
  { s with svp := { s.svp with series := s.svp.series.filter (fun x => answering s && s.on (F.SVP_SA_CTL_EN x.sa)) } }

/-- A request on a service address that arrived at an instant is one to answer in the present mode: in SERVE where it arrived since the entry to SERVE (R42), in SURVEY
where SURVEYANS was 1 at its arrival, since the device took up answering there (R29, R81). -/
def serves (s : State) (t : Instant) : Bool :=
  (decide (s.mode = 2) && !(after s.svp.serveEdge t))
    || (decide (s.mode = 1) && (s.asOf t).on F.SVP_CFG_SURVEYANS && !(after s.svp.answerEdge t))

/-! ## Ports -/

/-- Whether a port is up: LINK on P0-P3 and MGT (R196, R209), enable and clock on F0 and F1 (R206). -/
def linkUp (s : State) (p : Nat) : Bool :=
  if p < 4 then s.on (F.PRT_P_STAT_LINK p)
  else if p = 6 then s.on F.PRT_MGT_STAT_LINK
  else s.on (F.PRT_F_CFG_EN (p - 4)) && s.on (F.PRT_F_STAT_CLKOK (p - 4))

/-- Add to counter k of a port (R213). -/
def portCount (p k amt : Nat) (s : State) : State := s.add64 (A.PRT_CNT_W0 p k) amt

/-- A frame of a port was sent complete, `n` bytes with FCS (R213). -/
def portSent (p n : Nat) (s : State) : State :=
  pmcEvent 1 0x05 p n (pmcEvent 1 0x03 p 1 (portCount p 3 n (portCount p 2 1 s)))

/-- A frame that is not staked joins the queue of its port (R113, R114). -/
def txEnqueue (p : Fin 7) (f : TxFrame) (s : State) : State :=
  { s with prt := { s.prt with tx := s.prt.tx.set p (s.prt.tx[p] ++ [f]) } }

/-- The class of address replies and echo replies (R200). -/
def controlClass (s : State) (p : Nat) : Nat := if p < 4 then s.get (F.PRT_P_CFG_CTLTC p) else 0

/-- Queue a frame of the device's own. -/
def txDevice (p : Fin 7) (b : Bytes) (s : State) : State := txEnqueue p ⟨b, controlClass s p, .device⟩ s

/-! ## Pairs (R204) -/

/-- Whether a main port belongs to an enabled pair. -/
def paired (s : State) (p : Nat) : Bool := decide (p < 4) && s.on (F.PRT_PAIR_CFG_EN (p / 2))

/-- The primary of the pair of a port. -/
def pairPrimary (s : State) (k : Nat) : Nat := 2 * k + s.get (F.PRT_PAIR_CFG_PRIM k)

/-- The backup of a pair. -/
def pairBackup (s : State) (k : Nat) : Nat := 2 * k + 1 - s.get (F.PRT_PAIR_CFG_PRIM k)

/-- The port of the active path. -/
def pairActive (s : State) (k : Nat) : Nat :=
  if s.on (F.PRT_PAIR_STAT_ACTIVE k) then pairBackup s k else pairPrimary s k

/-- Whether a main port is the path of its pair that is not active (R204). -/
def standbyPath (s : State) (p : Nat) : Bool := paired s p && decide (pairActive s (p / 2) ≠ p)

/-! ## Service addresses (R77) -/

/-- The number of the first service address that a main port matches (R77, R204). -/
def saBase (s : State) (p : Nat) : Nat := if paired s p then 64 * pairPrimary s (p / 2) else 64 * p

/-- The enabled service addresses that a port matches, in rising order (R77, R204). -/
def saList (s : State) (p : Nat) : List Nat :=
  if p < 4 then
    if standbyPath s p then [] else ((List.range 64).map (saBase s p + ·)).filter (fun n => s.on (F.SVP_SA_CTL_EN n))
  else ((List.range 16).map (256 + ·)).filter (fun n => s.on (F.SVP_SA_CTL_EN n) && decide (s.get (F.SVP_SA_CTL_PORT n) = p))

/-- A four-word address in registers: W0 is the lowest word, and an IPv4 address sits there. -/
def addrWords (s : State) (a : Nat) (v6 : Bool) : Nat :=
  let w := fun i => (s.rd (a + 4 * i)).toNat
  if v6 then w 0 + 2 ^ 32 * w 1 + 2 ^ 64 * w 2 + 2 ^ 96 * w 3 else w 0

/-- The address of a service address. -/
def saAddr (s : State) (n : Nat) : Nat := addrWords s (A.SVP_SA_ADDR_W0 n) (s.on (F.SVP_SA_CTL_V6 n))

/-- Its MAC. -/
def saMac (s : State) (n : Nat) : Nat := s.get (F.SVP_SA_MAC_W0_MAC n) + 2 ^ 32 * s.get (F.SVP_SA_MAC_W1_MAC n)

/-- Its VLAN identifier. -/
def saVid (s : State) (n : Nat) : Nat := s.get (F.SVP_SA_MAC_W1_VID n)

/-- The service address that an IP frame matches (R77). -/
def saMatch (s : State) (p : Nat) (e : Eth) (i : Ip) : Option Nat :=
  if 2 ≤ e.tags then none
  else (saList s p).find? (fun n => decide (saMac s n = e.dst) && decide (saVid s n = e.vid)
    && decide (s.on (F.SVP_SA_CTL_V6 n) = i.v6) && decide (saAddr s n = i.dst))

/-- The service address that an ARP request or a neighbour solicitation asks for (R80). -/
def saTarget (s : State) (p vid : Nat) (v6 : Bool) (target : Nat) : Option Nat :=
  (saList s p).find? (fun n => decide (saVid s n = vid) && decide (s.on (F.SVP_SA_CTL_V6 n) = v6) && decide (saAddr s n = target))

/-- The multicast MACs of Layer 2 PTP. -/
def ptpMac0 : Nat := 0x011B19000000
def ptpMac1 : Nat := 0x0180C200000E

/-- The service address that a Layer 2 PTP frame matches: on P0-P3 alone (R78). -/
def saMatchL2 (s : State) (p : Nat) (e : Eth) : Option Nat :=
  if 2 ≤ e.tags ∨ 4 ≤ p then none
  else
    let ok := fun n => s.on (F.SVP_SA_CTL_PTP n) && decide (saVid s n = e.vid)
    if e.dst = ptpMac0 ∨ e.dst = ptpMac1 then
      if s.get F.SVP_PTP_CFG_PROFILE = 1 then (saList s p).find? ok else none
    else (saList s p).find? (fun n => ok n && decide (saMac s n = e.dst))

/-! ## PTP client identities (R75) -/

/-- The transport of an instance: 0 Layer 2, 1 IPv4, 2 IPv6. PROFILE 1 uses Layer 2 whatever TRANSPORT holds. -/
def pcTransport (s : State) (n : Nat) : Nat :=
  if s.get (F.DTM_PC_CFG_PROFILE n) = 1 then 0 else s.get (F.DTM_PC_CFG_TRANSPORT n)

/-- Its own IP address. -/
def pcAddr (s : State) (n : Nat) : Nat := addrWords s (A.DTM_PC_SRC_ADDR_W0 n) (decide (pcTransport s n = 2))

/-- Its own MAC. -/
def pcMac (s : State) (n : Nat) : Nat := s.get (F.DTM_PC_SRC_MAC_W0_MAC n) + 2 ^ 32 * s.get (F.DTM_PC_SRC_MAC_W1_MAC n)

/-- Its VLAN identifier. -/
def pcVid (s : State) (n : Nat) : Nat := s.get (F.DTM_PC_SRC_MAC_W1_VID n)

/-- The port of an instance. -/
def pcPort (s : State) (n : Nat) : Nat := s.get (F.DTM_PC_CFG_PORT n)

/-- Whether an address is that of an enabled service address. -/
def isServiceAddr (s : State) (v6 : Bool) (a : Nat) : Bool :=
  (List.range 272).any (fun n => s.on (F.SVP_SA_CTL_EN n) && decide (s.on (F.SVP_SA_CTL_V6 n) = v6) && decide (saAddr s n = a))

/-- An instance that must not run: its address is 0 under a UDP transport, or is a service address (R75). -/
def pcFaulty (s : State) (n : Nat) : Bool :=
  decide (pcTransport s n ≠ 0) && (decide (pcAddr s n = 0) || isServiceAddr s (decide (pcTransport s n = 2)) (pcAddr s n))

/-- Whether an instance runs. -/
def pcRuns (s : State) (n : Nat) : Bool := s.on (F.DTM_PC_CFG_EN n) && !pcFaulty s n

/-! ## MAC control frames -/

/-- The MAC addresses of a port's own (R201). -/
def ownMac (s : State) (p mac : Nat) : Bool :=
  (saList s p).any (fun n => decide (saMac s n = mac))
    || [0, 1].any (fun n => s.on (F.DTM_PC_CFG_EN n) && decide (pcPort s n = p) && decide (pcMac s n = mac))

/-! ## Announcement series (R81) -/

/-- The port from which the announcements of a service address leave: the active path of a pair (R204, R205). -/
def saPort (s : State) (n : Nat) : Nat :=
  if 256 ≤ n then s.get (F.SVP_SA_CTL_PORT n)
  else if paired s (n / 64) then pairActive s (n / 64 / 2) else n / 64

/-- Whether a service address is the primary's, or stands alone: a backup's own entries are ignored (R204). -/
def saCounts (s : State) (n : Nat) : Bool :=
  decide (256 ≤ n) || !(paired s (n / 64)) || decide (pairPrimary s (n / 64 / 2) = n / 64)

/-- Send one announcement: gratuitous ARP, or unsolicited neighbour advertisement with Override (R81). -/
def announceSend (n : Nat) (s : State) : State :=
  let p := saPort s n
  if h : p < 7 then
    let mac := saMac s n
    let b := if s.on (F.SVP_SA_CTL_V6 n) then neighbourAdv allNodesMac mac (vidTag (saVid s n)) allNodes (saAddr s n) 1
      else gratuitousArp (vidTag (saVid s n)) mac (saAddr s n)
    txDevice ⟨p, h⟩ b s
  else s

/-- Start the announcement of a service address: one now and two more, 1 s apart (R81). -/
def announceStart (s : State) (n : Nat) : State :=
  let s := announceSend n s
  { s with svp := { s.svp with series := s.svp.series.filter (fun x => decide (x.sa ≠ n)) ++ [⟨n, 2, instAdd s.datum secUnits⟩] } }

/-- Announce every enabled service address, on entry to an answering mode (R81). -/
def announceAll (s : State) : State :=
  ((List.range 272).filter (fun n => s.on (F.SVP_SA_CTL_EN n) && saCounts s n)).foldl announceStart s

end Sys2Proof.Machine
end

