-- ==== Sys2Proof/Machine/Datum.lean ====
section
/-! DEFINITION. The Datum: its advance, rate and slew, the votes, TAI-UTC and leaps (R43-R70), and the commands of that family. -/
namespace Sys2Proof.Machine

/-! ## Advance (R47-R49) -/

/-- The counter's modulus in units of 2^-64 ns: 2^48 seconds. -/
def counterMod : Nat := 2 ^ 48 * 1000000000 * 2 ^ 64

/-- The limit of the applied rate: 500 ppm in units of 2^-48 (R48). -/
def rateLimit : Int := 140737488355

/-- The applied rate: base plus the slew in progress, clamped (R47, R48). -/
def DatumState.y (d : DatumState) : Int := clampInt (-rateLimit) rateLimit (d.base + if d.slewLeft = 0 then 0 else d.slew)

/-- The nominal step of one DCLK in units of 2^-64 ns, with the further unit of every third edge (R47). -/
def nominalStep (third : Nat) : Nat := 0xD555555555555555 + (if third = 2 then 1 else 0)

/-- The part of one step that a rate contributes, in whole units of 2^-64 ns. -/
def ratePart (step : Nat) (y : Int) : Int := (step : Int) * y / (2 ^ 48 : Int)

/-- Move a counter value by a signed number of units. -/
def counterAdd (c : Nat) (d : Int) : Nat := (((c : Int) + d) % (counterMod : Int)).toNat

/-- What is left of a slew after `part` of it has been applied; a slew never overshoots (R48, R49). -/
def slewRest (left part : Int) : Int :=
  if left = 0 then 0
  else if 0 < left then (if part < left then left - part else 0)
  else (if left < part then left - part else 0)

/-- The slew that one step applies: the rate's part, cut to what is left. -/
def slewPart (left part : Int) : Int := left - slewRest left part

/-- One DCLK edge of the Datum (R47-R51): every copy advances by the same step. -/
def DatumState.edge (d : DatumState) : DatumState :=
  let n := nominalStep d.third
  let sl := slewPart d.slewLeft (ratePart n (d.y - d.base))
  let step := (n : Int) + ratePart n (clampInt (-rateLimit) rateLimit d.base) + sl
  { d with c0 := counterAdd d.c0 step, c1 := counterAdd d.c1 step, c2 := counterAdd d.c2 step,
           third := (d.third + 1) % 3, slewLeft := slewRest d.slewLeft (ratePart n (d.y - d.base)) }

/-- One edge of the 20 MHz crystal of the Monument counter (R53): 50 ns at its steered rate. -/
def DatumState.monEdge (d : DatumState) : DatumState :=
  { d with mon := counterAdd d.mon (50 * 2 ^ 64 + (50 * 2 ^ 64 : Int) * d.monRate / (2 ^ 48 : Int)) }

/-- Load every copy with one value (R52, R54, R55). -/
def DatumState.load (d : DatumState) (c : Nat) : DatumState :=
  { d with c0 := c % counterMod, c1 := c % counterMod, c2 := c % counterMod }

/-- The Monument counter plus the last value of DTM_MONDIFF, which counts 20 ps (R52, R54). -/
def State.monumentValue (s : State) : Nat :=
  counterAdd s.dtm.mon (s.getI F.DTM_MONDIFF_DIFF * (2 ^ 64 : Int) / 50)

/-- Show the applied rate in DTM_RATE (R47). -/
def showRate (s : State) : State :=
  let v := ofSigned 40 s.dtm.y
  (s.set F.DTM_RATE_W0_RATE v).set F.DTM_RATE_W1_RATE (v / 2 ^ 32)

/-- Put a base rate and a slew rate in force on one DCLK edge (R28, R48). Stakeout keeps the change (R115). -/
def applyRate (base slew : Int) (s : State) : State :=
  let d : DatumState := { s.dtm with base := base, slew := slew }
  let l := s.dtm.steps ++ [⟨s.datum, s.dtm.y, d.y⟩]
  pmcEvent 8 0x02 0x80 1 (showRate { s with dtm := { d with steps := l.drop (l.length - 64) } })

/-- 24 us in units of 2^-16 ns (R115). -/
def announceLead : Int := 24000 * 2 ^ 16

/-- Announce a change of the applied rate 24 us before it takes effect (R115). -/
def announceRate (base slew : Int) (s : State) : State :=
  { s with dtm := { s.dtm with announced := s.dtm.announced ++ [⟨instAdd s.datum announceLead, base, slew⟩] } }

/-- The rate that was announced last, or the rate in force (R115). -/
def DatumState.lastRate (d : DatumState) : Int × Int :=
  match d.announced.getLast? with
  | some r => (r.base, r.slew)
  | none => (d.base, d.slew)

/-- The slew rate of a phase correction: SLOPE ns/s in units of 2^-48, with the correction's sign (R49). -/
def slewRate (s : State) (left : Int) : Int :=
  let r : Int := (s.get F.DTM_SLOPE_SLOPE * 2 ^ 48 / 1000000000 : Nat)
  if left = 0 then 0 else if left < 0 then -r else r

/-- How far the Datum moves, in units of 2^-16 ns rounded up, while a slew of `left` units of 2^-64 ns runs at rate `sl` beside the base rate (R49). -/
def slewSpan (base sl left : Int) : Nat :=
  let nominal : Nat := left.natAbs * 2 ^ 48 / sl.natAbs
  let span : Int := (nominal : Int) + (nominal : Int) * base / (2 ^ 48 : Int) + left
  ((span + 2 ^ 48 - 1) / (2 ^ 48 : Int)).toNat

/-- The changes of the applied rate that lie ahead (R115): those announced, and the end of the slew, from an instant on with a base rate, a slew rate and
what is left of the slew in units of 2^-64 ns. -/
def rateAhead (t : Instant) (base slew left : Int) : List RateChange → List (Instant × Int)
  | [] =>
    let y := clampInt (-rateLimit) rateLimit (base + slew)
    let b := clampInt (-rateLimit) rateLimit base
    if left = 0 ∨ y = b then [] else [(instAdd t (slewSpan b (y - b) left), b)]
  | c :: cs =>
    let y := clampInt (-rateLimit) rateLimit (base + if left = 0 then 0 else slew)
    let b := clampInt (-rateLimit) rateLimit base
    let stop := instAdd t (slewSpan b (y - b) left)
    let next := fun (left : Int) => (c.due, clampInt (-rateLimit) rateLimit (c.base + if left = 0 then 0 else c.slew)) :: rateAhead c.due c.base c.slew left cs
    if left = 0 ∨ y = b then next left
    else if 0 ≤ instDiff c.due stop then (stop, b) :: next 0
    else next (slewRest left (instDiff c.due t * (2 ^ 48 : Int) * (y - b) / ((2 ^ 48 : Int) + y)))

/-- Every change of the applied rate that is announced to Stakeout: the start and the end of a slew with the others, 24 us ahead (R115). -/
def State.rateAhead (s : State) : List (Instant × Int) :=
  (Sys2Proof.Machine.rateAhead s.datum s.dtm.base s.dtm.slew s.dtm.slewLeft s.dtm.announced).filter (fun c => decide (instDiff c.1 s.datum ≤ announceLead))

/-- Start a slew of `d` units of 2^-16 ns: fix the target and announce the rate (R49, R115). An estimate counts from where the Datum stands, so it takes the
place of what is left of a slew in progress (assumption log 86). -/
def startSlew (base : Int) (d : Int) (s : State) : State :=
  let left := d * (2 ^ 48 : Int)
  let s := { s with dtm := { s.dtm with slewLeft := left } }
  announceRate base (slewRate s left) (s.setB F.DTM_STATE_SLEW (decide (left ≠ 0)))

/-! ## State of the Datum and of the domains -/

/-- Set DTM_STATE.STATE and its interrupt (R70). -/
def setDatumState (n : Nat) (s : State) : State :=
  if s.get F.DTM_STATE_STATE = n then s
  else irqSet 2 A.DTM_IRQ_STAT 0 (s.set F.DTM_STATE_STATE n)

/-- Move the state of R70; under SAFE the register keeps 6 and the state underneath moves. -/
def datumGoto (n : Nat) (s : State) : State :=
  let s := { s with dtm := { s.dtm with under := n, lockedSinceBoot := s.dtm.lockedSinceBoot || decide (n = 2) } }
  if s.get F.DTM_STATE_STATE = 6 then s else setDatumState n s

/-- The active domain: 0 Foresight, 1 Backsight. -/
def State.active (s : State) : Nat := s.get F.DTM_STATE_ACTIVE

/-- A domain by its number. -/
def DatumState.dom (d : DatumState) (i : Nat) : Domain := if i = 0 then d.fs else d.bs

/-- Change a domain. -/
def DatumState.setDom (d : DatumState) (i : Nat) (x : Domain) : DatumState :=
  if i = 0 then { d with fs := x } else { d with bs := x }

/-- The source of a domain (R65): 0 CH0, 1 PC0, 2 PC1, 3 none. -/
def State.domSrc (s : State) (i : Nat) : Nat := if i = 0 then s.get F.DTM_FS_CFG_SRC else s.get F.DTM_BS_CFG_SRC

/-- A domain's state as DTM_STATE shows it: 0 NOINPUT, 1 ACQUIRE, 2 LOCKED (R66). -/
def State.domState (s : State) (i : Nat) : Nat := if i = 0 then s.get F.DTM_STATE_FS_ST else s.get F.DTM_STATE_BS_ST

/-! ## TAI-UTC and leaps (R59-R64) -/

/-- What source k of TAI-UTC reports: 0 CH0, 1 PC0, 2 PC1; none for 3. -/
def State.utcSource (s : State) (k : Nat) : UtcSource :=
  match k with
  | 0 => s.dtm.utcCh0
  | 1 => s.dtm.utcPc0
  | 2 => s.dtm.utcPc1
  | _ => ⟨false, 0, 0, 0, none, false⟩

/-- Change what source k reports. -/
def State.setUtcSource (s : State) (k : Nat) (u : UtcSource) : State :=
  match k with
  | 0 => { s with dtm := { s.dtm with utcCh0 := u } }
  | 1 => { s with dtm := { s.dtm with utcPc0 := u } }
  | 2 => { s with dtm := { s.dtm with utcPc1 := u } }
  | _ => s

/-- TAI-UTC in use, in seconds (R59). -/
def State.utcOffset (s : State) : Int := s.getI F.DTM_UTC_STAT_OFFSET

/-- Put a TAI-UTC in use and record the change (R59, R60). -/
def utcChange (v : Int) (s : State) : State :=
  if s.utcOffset = v then s
  else record 0x0706 0 0 0 0 (irqSet 2 A.DTM_IRQ_STAT 5 (noteLeap (fun s => s.setI F.DTM_UTC_STAT_OFFSET v) s))

/-- The code of DTM_UTC_STAT.SRC for a source: 0 CH0, 1 PTP client, 2 the fallback. -/
def utcSrcCode (k : Nat) : Nat := if k = 0 then 0 else if k ≤ 2 then 1 else 2

/-- Choose between the active domain's source and the fallback offset (R59): the fallback at once when the source gives no valid
offset; the source at once when it reports the offset in use. A different report waits for UTC_OFFSET_CHANGE (R60). -/
def utcResolve (s : State) : State :=
  let k := s.domSrc s.active
  let u := s.utcSource k
  if u.valid then
    if u.offset = s.utcOffset then s.set F.DTM_UTC_STAT_SRC (utcSrcCode k) else s
  else utcChange s.dtm.fallback (s.set F.DTM_UTC_STAT_SRC 2)

/-- The UTC day of an instant under an offset, as a Modified Julian Date; 40587 is 1970-01-01 (R61). -/
def utcDay (t : Instant) (off : Int) : Nat := ((((instSec t : Nat) : Int) - off) / 86400 + 40587).toNat

/-- The TAI second at which the leap of a day takes effect: 00:00:00 after an inserted second, or after a deleted one (R61). -/
def leapSec (day kind : Nat) (off : Int) : Int :=
  ((day : Int) + 1 - 40587) * 86400 + off + (if kind = 1 then 1 else if kind = 2 then -1 else 0)

/-- The TAI second of 00:00:00 UTC of a day (R62, R63). -/
def daySec (day : Nat) (off : Int) : Int := ((day : Int) - 40587) * 86400 + off

/-- Accept the announcement of a leap (R61, R64): schedule it, record it, and record that it comes too late to be smeared. -/
def leapAccept (kind day src : Nat) (s : State) : State :=
  let late := decide (daySec day s.utcOffset < ((instSec s.datum : Nat) : Int) ∨
    (daySec day s.utcOffset = ((instSec s.datum : Nat) : Int) ∧ 0 < s.datum % secUnits))
  let s := noteLeap (fun s => { s with dtm := { s.dtm with leapDay := day, leapLate := late, leapFrom := src } }.set F.DTM_UTC_STAT_PENDING kind) s
  let s := record 0x0708 0 0 0 0 (irqSet 2 A.DTM_IRQ_STAT 3 s)
  if late && s.on F.DTM_UTC_CFG_SMEAR then record 0x070B 0 0 0 0 s else s

/-- Cancel the pending leap (R61). -/
def leapCancel (s : State) : State :=
  record 0x070A 0 0 0 0 (irqSet 2 A.DTM_IRQ_STAT 4 (noteLeap (fun s => s.set F.DTM_UTC_STAT_PENDING 0) s))

/-- Weigh the announcements (R59, R61): accept a new one of the active domain's source, cancel one that the source withdrew before the
leap, and let DTM_LEAP_DAY announce only while no source supplies leap information. DESIGN CHOICE (assumption log 49): no source supplies leap information
while the active domain's source has no valid offset, whatever the other source reports; a withdrawal cancels only while the source that announced feeds the
active domain; and a pending leap of DTM_LEAP_DAY stays when a source with a valid offset appears. -/
def leapEvaluate (s : State) : State :=
  let k := s.domSrc s.active
  let u := s.utcSource k
  let pend := s.get F.DTM_UTC_STAT_PENDING
  let kind := s.get F.DTM_LEAP_DAY_KIND
  let day := s.get F.DTM_LEAP_DAY_MJD
  if u.valid then
    if pend = 0 then
      if u.leap ≠ 0 ∧ u.stale = false then
        match u.leapDay with
        | some d => if utcDay s.datum s.utcOffset ≤ d then leapAccept u.leap d k s else s
        | none => leapAccept u.leap (utcDay s.datum s.utcOffset) k s
      else s
    else if s.dtm.leapFrom = k ∧ u.leap ≠ pend then leapCancel s
    else s
  else if pend = 0 then
    if (kind = 1 ∨ kind = 2) ∧ s.dtm.leapDone ≠ some day ∧ utcDay s.datum s.utcOffset ≤ day then leapAccept kind day 3 s else s
  else if s.dtm.leapFrom = 3 ∧ (kind ≠ pend ∨ day ≠ s.dtm.leapDay) then leapCancel s
  else s

/-- A flag that stays set after its leap announces nothing until it has been clear once (R61). -/
def UtcSource.afterLeap (u : UtcSource) : UtcSource := { u with stale := u.stale || decide (u.leap ≠ 0) }

/-- A source's new report (R59-R61): the time for which a value stands restarts when the value changes, and a clear flag ends `stale`. -/
def UtcSource.report (u : UtcSource) (valid : Bool) (offset : Int) (leap : Nat) (day : Option Nat) : UtcSource :=
  { valid := valid, offset := offset, ticks := if u.valid && valid && decide (u.offset = offset) then u.ticks else 0,
    leap := leap, leapDay := day, stale := u.stale && decide (leap ≠ 0) }

/-! ## Commands -/

/-- A write of DTM_DOMCTL: FORCE, and with HANDOFF a pending request, with which others merge (R67). -/
def domctlWrite (force : Nat) (go : Bool) (s : State) : State :=
  let s := s.set F.DTM_DOMCTL_FORCE force
  if go then { s with dtm := { s.dtm with handoffPending := true } } else s

/-- The slew rate leaves the announced changes and the applied rate. -/
def dropSlew (s : State) : State :=
  let l := s.dtm.announced.map (fun (c : RateChange) => ({ c with slew := 0 } : RateChange))
  applyRate s.dtm.base 0 { s with dtm := { s.dtm with announced := l } }

/-- A hand-off whose slew has ended writes its record, with Δ in ps (R68). -/
def handoffEnd (s : State) : State :=
  match s.dtm.handoff with
  | some (old, new, d) =>
    let ps := ofSigned 64 (d * 1000 / 65536)
    record 0x0704 (old + 256 * new) ps (ps / 2 ^ 32) 0 { s with dtm := { s.dtm with handoff := none } }
  | none => s

/-- The end of a slew (R49, R68, R70): the slew rate leaves the applied rate, which Stakeout has known for 24 us (R115), and a hand-off writes its
record. -/
def slewEnd (s : State) : State :=
  let s := handoffEnd (dropSlew (s.set F.DTM_STATE_SLEW 0))
  if s.dtm.under = 3 ∧ s.get (F.TRV_CH_SELSTAT_SWITCHING 0) = 0 then datumGoto 2 s else s

/-- SLEW_COMPLETE: nothing of the slew is left (R68). Without a finished slew the event does not happen. -/
def execSlewComplete (s : State) : Host.Outcome State Fault Refusal :=
  .next (if s.on F.DTM_STATE_SLEW && decide (s.dtm.slewLeft = 0) then slewEnd s else s)

/-- DOMAIN_SPLIT: the third consecutive tick above SPLIT sets SPLIT and raises the alarm (R69). -/
def execDomainSplit (s : State) : Host.Outcome State Fault Refusal :=
  .next (if 3 ≤ s.dtm.splitTicks ∧ s.on F.DTM_STATE_SPLIT = false then
      record 0x070F 0 0 0 0 (alarmRaise 1 (irqSet 2 A.DTM_IRQ_STAT 2 (s.set F.DTM_STATE_SPLIT 1)))
    else s)

/-- Reload one copy from the majority of the two others (R52). -/
def DatumState.reload (d : DatumState) (copy : Nat) : DatumState :=
  match copy with
  | 0 => { d with c0 := d.c1 }
  | 1 => { d with c1 := d.c0 }
  | _ => { d with c2 := d.c0 }

/-- DTM_VOTE: exactly one copy disagreed; it is reloaded, counted and reported (R52). -/
def execDtmVote (copy : Fin 3) (s : State) : Host.Outcome State Fault Refusal :=
  .next (faultSend .dtmVote 0 0 0 0 (pmcEvent 8 0x05 0x80 1 (irqSet 2 A.DTM_IRQ_STAT 6
    ({ s with dtm := s.dtm.reload copy }.addSat F.DTM_VOTE_CNT_COUNT 1))))

/-- LEAP_APPLIED: the pending leap takes effect once its instant has come (R61): TAI-UTC and the fallback offset move together. -/
def leapApply (s : State) : State :=
  let kind := s.get F.DTM_UTC_STAT_PENDING
  let d : Int := if kind = 1 then 1 else -1
  let s := noteLeap (fun s => (s.setI F.DTM_UTC_STAT_OFFSET (s.utcOffset + d)).set F.DTM_UTC_STAT_PENDING 0) s
  let s := { s with dtm := { s.dtm with
    fallback := s.dtm.fallback + d
    utcCh0 := s.dtm.utcCh0.afterLeap, utcPc0 := s.dtm.utcPc0.afterLeap, utcPc1 := s.dtm.utcPc1.afterLeap
    leapDone := if s.dtm.leapFrom = 3 then some s.dtm.leapDay else s.dtm.leapDone } }
  record 0x0709 0 0 0 0 (irqSet 2 A.DTM_IRQ_STAT 5 (irqSet 2 A.DTM_IRQ_STAT 4 s))

/-- LEAP_APPLIED (R61). Before its instant, or with no leap pending, the event does not happen. -/
def execLeapApplied (s : State) : Host.Outcome State Fault Refusal :=
  .next (if s.get F.DTM_UTC_STAT_PENDING ≠ 0 ∧
      leapSec s.dtm.leapDay (s.get F.DTM_UTC_STAT_PENDING) s.utcOffset ≤ ((instSec s.datum : Nat) : Int)
    then leapEvaluate (leapApply s) else s)

/-- A source has reported its offset for 60 s: 60,000 whole ticks have passed since the first tick that found it (R7, R60). -/
def UtcSource.stood (u : UtcSource) : Bool := u.valid && decide (60000 < u.ticks)

/-- UTC_OFFSET_CHANGE: the active source has reported another offset for 60 s (R60). -/
def execUtcOffsetChange (s : State) : Host.Outcome State Fault Refusal :=
  .next (let k := s.domSrc s.active
    let u := s.utcSource k
    if u.stood = true ∧ u.offset ≠ s.utcOffset then
      utcChange u.offset (s.set F.DTM_UTC_STAT_SRC (utcSrcCode k))
    else s)

/-- UTC_DISAGREE: the inactive domain has reported another offset for 60 s (R60). -/
def execUtcDisagree (s : State) : Host.Outcome State Fault Refusal :=
  .next (let u := s.utcSource (s.domSrc (1 - s.active))
    if u.stood = true ∧ u.offset ≠ s.utcOffset then
      record 0x0707 0 0 0 0 (alarmRaise 0 (irqSet 2 A.DTM_IRQ_STAT 8 s))
    else s)

end Sys2Proof.Machine
end

