-- ==== Sys2Proof/Machine/Load.lean ====
section
/-! DEFINITION. What a write loads into a register: the access codes of R9 and the ranges of the field tables (R17). -/
namespace Sys2Proof.Machine

/-- The value that a field takes from a written word: clamped to its range (R17). -/
def FieldRow.loaded (f : FieldRow) (v : Word) : Nat := clampNat f.lo f.hi (fieldGet v f.lsb f.width)

/-- The effect of a written word on one field of a register (R9): rw takes the value, w1c clears where a 1 is written, and the other codes
hold nothing. A w1c bit that an event set in the same MCLK cycle stays set: `brought` holds those (R11). -/
def writeField (brought v old : Word) (f : FieldRow) : Word :=
  match f.acc with
  | .rw => fieldSet old f.lsb f.width (f.loaded v)
  | .w1c => old &&& ~~~(v &&& ~~~brought &&& fieldMask f.lsb f.width)
  | .ro | .wo | .rc | .ws => old

/-- The effect of a written word on a register. -/
def RegRow.written (r : RegRow) (brought old v : Word) : Word := r.fields.foldl (writeField brought v) old

/-- Write a register under its access codes. An address with no register takes nothing (R10). -/
def regWrite (a : Nat) (v : Word) (s : State) : State :=
  match findRow a with
  | some r => s.wr a (r.written (s.brought a) (s.rd a) v)
  | none => s

/-- The register as after a read: every rc field cleared, but for what events have brought in the same MCLK cycle (R9, R11). -/
def RegRow.cleared (r : RegRow) (brought old : Word) : Word :=
  r.fields.foldl (fun w f => match f.acc with
    | .rc => fieldSet w f.lsb f.width (fieldGet brought f.lsb f.width)
    | .ro | .rw | .w1c | .wo | .ws => w) old

end Sys2Proof.Machine
end

