-- ==== Sys2Proof/Machine/Transit.lean ====
section
/-! DEFINITION. Transit: edges, stamps, the measurement modes, statistics, records and calibration (R214-R236). -/
namespace Sys2Proof.Machine

/-- A channel. -/
def State.chan (s : State) (n : Fin 24) : TrnChan := s.trn.chans[n]

/-- Replace a channel. -/
def State.setChan (s : State) (n : Fin 24) (c : TrnChan) : State := { s with trn := { s.trn with chans := s.trn.chans.set n c } }

/-! ## Owners (R214, R239) -/

/-- The Traverse input that a channel carries: 0 to 11, and 12 for a channel that carries none (R237). -/
def inputOf (n : Nat) : Nat := if n < 8 then n else if 18 ≤ n ∧ n ≤ 21 then n - 10 else 12

/-- The Transit channel of an input (R237). -/
def channelOf (i : Nat) : Nat := if i < 8 then i else i + 10

/-- The owner of a channel: 0 none, 1 Traverse, 2 Benchmark, 3 the Dvorgo link, 4 calibration (R214). -/
def chOwner (s : State) (n : Nat) : Nat :=
  if inputOf n < 12 then (if s.on (F.TRV_REF_CFG_EN (inputOf n)) then 1 else 0)
  else if n = 16 then 2
  else if n = 17 then (if s.on F.DVL_CFG_EN then 3 else 0)
  else if n = 23 then 4
  else 0

/-- KIND of an input: 0 PPS, 1 PPS with time of day, 2 frequency, 3 SyncE (R238). -/
def inputKind (s : State) (i : Nat) : Nat := if 8 ≤ i then 3 else s.get (F.TRV_REF_CFG_KIND i)

/-- Whether an input is of a PPS kind. -/
def isPps (s : State) (i : Nat) : Bool := decide (inputKind s i ≤ 1)

/-- The nominal frequency of an input in units of 0.1 Hz (R215, R238). -/
def nominalDeci (s : State) (i : Nat) : Nat :=
  match inputKind s i with
  | 2 => s.get (F.TRV_REF_NOM_NOM i) * 10
  | 3 => if s.get (F.PRT_P_CFG_SPEED (i - 8)) ≤ 1 then 1562500000 else 1611328125
  | _ => 10

/-- The prescaler of a frequency input: the smallest ratio 2^k that brings it to 300 MHz or below (R239). -/
def neededPresc (nomDeci : Nat) : Nat := ((List.range 11).find? (fun k => decide (nomDeci ≤ 3000000000 * 2 ^ k))).getD 10

/-- PRESC in force (R214, R239). -/
def chPresc (s : State) (n : Nat) : Nat :=
  match chOwner s n with
  | 0 => s.get (F.TRN_CH_CFG_PRESC n)
  | 1 => if inputKind s (inputOf n) = 2 then neededPresc (nominalDeci s (inputOf n)) else 0
  | _ => Config.ownerSetting n 1 % 11

/-- EDGE in force: 0 rising, 1 falling, 2 both. -/
def chEdge (s : State) (n : Nat) : Nat :=
  match chOwner s n with
  | 0 => s.get (F.TRN_CH_CFG_EDGE n)
  | 1 => if isPps s (inputOf n) then s.get (F.TRV_REF_CFG_POL (inputOf n)) else 0
  | _ => Config.ownerSetting n 0 % 3

/-- DECIM in force. -/
def chDecim (s : State) (n : Nat) : Nat :=
  match chOwner s n with
  | 0 => s.get (F.TRN_CH_TRIG_DECIM n)
  | 1 =>
    let i := inputOf n
    match inputKind s i with
    | 2 => (nominalDeci s i + 1000000 * 2 ^ chPresc s n - 1) / (1000000 * 2 ^ chPresc s n)
    | 3 => if nominalDeci s i = 1562500000 then 1563 else 1612
    | _ => 1
  | _ => Config.ownerSetting n 2 % 65535 + 1

/-- MINW in force, in DCLK. -/
def chMinw (s : State) (n : Nat) : Nat :=
  match chOwner s n with
  | 0 => s.get (F.TRN_CH_TRIG_MINW n)
  | 1 => if isPps s (inputOf n) then 120 else 0
  | _ => Config.ownerSetting n 3 % 1201

/-- HOLDOFF in force, in us. -/
def chHoldoff (s : State) (n : Nat) : Nat :=
  match chOwner s n with
  | 0 => s.get (F.TRN_CH_HOLDOFF_HOLDOFF n)
  | 1 => if isPps s (inputOf n) then 500000 else 0
  | _ => Config.ownerSetting n 4 % 1000001

/-- Whether a channel runs. -/
def chEnabled (s : State) (n : Nat) : Bool := decide (chOwner s n ≠ 0) || s.on (F.TRN_CH_CFG_EN n)

/-- What a register of a channel reads while an owner holds fields of it (R214). -/
def ownedView (s : State) (a : Nat) (v : Word) : Word :=
  let n := (a - 0x61000) / 0x100
  if a < 0x61000 ∨ 0x62800 ≤ a ∨ chOwner s n = 0 then v
  else match (a - 0x61000) % 0x100 with
    | 0 => fieldSet (fieldSet (fieldSet v 31 1 1) 27 2 (chEdge s n)) 23 4 (if n = 23 then 0 else chPresc s n)
    | 4 => BitVec.ofNat 32 (chMinw s n * 65536 + chDecim s n)
    | 8 => BitVec.ofNat 32 (chHoldoff s n)
    | _ => v

/-- The stored word with the fields that an owner holds kept as they were: host writes to them are discarded (R214). -/
def ownedMask (s : State) (a : Nat) (old v : Word) : Word :=
  let n := (a - 0x61000) / 0x100
  if a < 0x61000 ∨ 0x62800 ≤ a ∨ chOwner s n = 0 then v
  else match (a - 0x61000) % 0x100 with
    | 0 => fieldSet (fieldSet (fieldSet v 31 1 (fieldGet old 31 1)) 27 2 (fieldGet old 27 2)) 23 4 (fieldGet old 23 4)
    | 4 | 8 => old
    | _ => v

/-- Show the owner of a channel. -/
def showOwner (s : State) (n : Nat) : State := s.set (F.TRN_CH_STAT_OWNER n) (chOwner s n)

/-! ## Stamps (R216, R222) -/

/-- Units of 2^-16 DCLK in 2^k ms of the timebase. -/
def msStamp : Nat := 1200000 * 65536

/-- Twice the calibrated part of a code times H: 2 (h0 + ... + h(k-1)) + hk. A code without counts takes the tau of the nearest lower code
that has counts (R222). -/
def tauCounts (hist : List Nat) (code : Nat) : Nat :=
  let k := ((List.range (code + 1)).reverse.find? (fun j => decide (hist.getD j 0 ≠ 0))).getD code
  2 * (hist.take k).sum + hist.getD k 0

/-- DLY: the fused input-path delay and the trim, in units of 2^-8 ps (R216). -/
def chDelay (s : State) (n : Nat) : Int := Config.fusedInput n (chPresc s n) + s.getI (F.TRN_CH_DLY_DLY n)

/-- tau + DLY in units of 1/20000 of 2^-16 DCLK. -/
def tauDelay (s : State) (n : Nat) (hist : List Nat) (code : Nat) : Int :=
  1310720000 + 625 * (tauCounts hist code : Int) + 6144 * chDelay s n

/-- The timebase stamp: c T - tau - DLY, in units of 2^-16 DCLK, rounded to nearest (R216; assumption log 31). -/
def timebaseStamp (c : Nat) (x : Int) : Int := (((c : Int) * 65536 * 20000 - x) + 10000) / 20000

/-- The Datum stamp: D(E) - (tau + DLY)(1 + y), rounded to 2^-16 ns, ties upward (R216). -/
def datumStamp (d : Instant) (y x : Int) : Instant :=
  instAdd d ((12000 * 2 ^ 48 - x * (2 ^ 48 + y)) / (24000 * 2 ^ 48))

/-! ## Converting an edge (R218) -/

/-- The converters in service. -/
def TrnChan.serving (c : TrnChan) : List (Fin 3) := (List.finRange 3).filter (fun k => c.convs[k].serving)

/-- The dead time of a channel has passed: 48 ns with two serving converters, 96 ns with one, in fifths of a DCLK period (R218, R223). -/
def TrnChan.free (c : TrnChan) (now : Nat) : Bool :=
  match c.serving with
  | [] => false
  | [_] => c.lastConv.all (fun l => decide (576 ≤ 5 * (now - l)))
  | _ => c.lastConv.all (fun l => decide (288 ≤ 5 * (now - l)))

/-- The converter that takes the next edge: those in service take turns. -/
def TrnChan.pick (c : TrnChan) : Option (Fin 3) :=
  (c.serving.find? (fun k => decide (c.nextConv ≤ k.val))).orElse (fun _ => c.serving.head?)

/-- Whether an edge is one that the channel selects. -/
def edgeSelected (s : State) (n : Nat) (falling : Bool) : Bool :=
  match chEdge s n with
  | 0 => !falling
  | 1 => falling
  | _ => true

/-- The holdoff has expired (R219). -/
def holdoffOver (s : State) (c : TrnChan) : Bool := c.holdEnd.all (fun t => decide (0 ≤ instDiff s.datum t))

/-- Whether edges reach a channel: the recovered clock of a main port gives none while the port's link is down (R215). -/
def edgesArrive (s : State) (n : Nat) : Bool := if 18 ≤ n ∧ n ≤ 21 then s.on (F.PRT_P_STAT_LINK (n - 18)) else true

/-- An edge counted after the prescaler fires a converter where the trigger's conditions hold. One that finds the serving converters busy is missed (R218). -/
def trigger (n : Fin 24) (falling : Bool) (code : Nat) (c : TrnChan) (s : State) : State :=
  if c.edges < chDecim s n ∨ holdoffOver s c = false then s.setChan n c
  else
    match (if c.free s.trn.coarse then c.pick else none) with
    | none =>
      let s := s.setChan n c
      if chDecim s n = 1 ∧ c.serving ≠ [] then
        pmcEvent 10 0x03 n 1 (irqSet 5 A.TRN_IRQ_STAT 25 (s.addSat (F.TRN_CH_MISSED_CNT_COUNT n) 1))
      else s
    | some k =>
      let x := tauDelay s n c.convs[k].hist code
      let e : TrnEdge := ⟨s.trn.coarse, timebaseStamp s.trn.coarse x, datumStamp s.datum s.dtm.y x, c.edges, c.total, falling⟩
      pmcEvent 10 0x02 n 1 (s.setChan n { c with edges := 0, lastConv := some s.trn.coarse, nextConv := (k.val + 1) % 3, waiting := c.waiting ++ [e] })

/-- TRANSIT_EDGE: a selected edge of the input, with its converter's code, at the DCLK edge that ends integration (R216, R218). The prescaler passes each 2^k-th
selected edge to the edge counter (assumption log 101). The converted edge then waits for its MINW check. -/
def transitEdge (n : Fin 24) (falling : Bool) (code : Nat) (narrow : Bool) (s : State) : State :=
  if dclkRuns s && chEnabled s n && edgesArrive s n && edgeSelected s n falling then
    let c := s.chan n
    if c.div + 1 < 2 ^ chPresc s n then s.setChan n { c with div := c.div + 1 }
    else
      let c := { c with div := 0, edges := c.edges + 1, total := c.total + 1, tickEdges := c.tickEdges + 1, narrow := c.narrow || narrow }
      trigger n falling code c (if narrow || decide (300000 < c.tickEdges) then s.set (F.TRN_CH_STAT_RANGE n) 1 else s)
  else s

/-- TRANSIT_EDGE (R218). -/
def execTransitEdge (ch : Fin 24) (falling : Bool) (code : Fin 16384) (narrow : Bool) (s : State) : Host.Outcome State Fault Refusal :=
  .next (transitEdge ch falling code narrow s)

/-! ## Statistics (R231, R232) -/

/-- An empty block. -/
def TrnStats.empty : TrnStats := ⟨0, 0, 0, 0, 0⟩

/-- Integer square root, bit by bit from 2^k down. -/
def isqrtBits (x : Nat) : Nat → Nat → Nat
  | 0, r => r
  | k + 1, r => isqrtBits x k (if (r + 2 ^ k) * (r + 2 ^ k) ≤ x then r + 2 ^ k else r)

/-- Integer square root of a number. -/
def isqrt (x : Nat) : Nat := isqrtBits x (Nat.log2 x / 2 + 1) 0

/-- Round a quotient to nearest, ties upward. -/
def roundDiv (a : Int) (b : Nat) : Int := (2 * a + b) / (2 * b : Nat)

/-- The deviation s of a block, rounded to nearest, saturating (R231). -/
def TrnStats.dev (b : TrnStats) : Nat :=
  if b.n ≤ 1 then 0
  else
    let v := ((b.n : Int) * b.squares - b.sum * b.sum).toNat
    let r := (isqrt (4 * v / (b.n * (b.n - 1))) + 1) / 2
    if 2 ^ 32 ≤ r then 2 ^ 32 - 1 else r

/-- Add a sample. -/
def TrnStats.add (b : TrnStats) (x : Int) : TrnStats :=
  ⟨b.n + 1, b.sum + x, b.squares + x * x, if b.n = 0 ∨ x < b.min then x else b.min, if b.n = 0 ∨ b.max < x then x else b.max⟩

/-- A sample reaches the statistics engine (R231). -/
def statSample (n : Fin 24) (x : Int) (s : State) : State :=
  if s.on (F.TRN_CH_STATN_EN n) then
    let c := s.chan n
    let b := c.stats.add x
    if b.n < s.get (F.TRN_CH_STATN_N n) then s.setChan n { c with stats := b }
    else
      let r : TrnResult := ⟨(c.latest.seq + 1) % 2 ^ 32, b.n, roundDiv b.sum b.n, b.min, b.max, b.dev⟩
      let s := s.setChan n { c with stats := TrnStats.empty, latest := r }
      let s := if s.on (F.TRN_CH_STATN_CONT n) then s else s.set (F.TRN_CH_STATN_EN n) 0
      irqSet 5 A.TRN_IRQ_STAT n s
  else s

/-- A read of RES_SEQ latches the latest result set (R232). -/
def resLatch (n : Nat) (r : TrnResult) (s : State) : State :=
  let s := (s.set (F.TRN_CH_RES_SEQ_SEQ n) r.seq).set (F.TRN_CH_RES_DEV_DEV n) r.dev
  let s := (s.set64 (A.TRN_CH_RES_MEAN_W0 n) (ofSigned 64 r.mean)).set64 (A.TRN_CH_RES_MIN_W0 n) (ofSigned 64 r.min)
  (s.set64 (A.TRN_CH_RES_MAX_W0 n) (ofSigned 64 r.max)).set (F.TRN_CH_RES_N_N n) r.n

/-! ## Records (R220, R230, R235) -/

/-- The flags of a record at its production (R235). -/
def recordFlags (s : State) (n : Nat) (c : TrnChan) (falling ovf : Bool) : Nat :=
  (if c.wraps < s.trn.coarse / 2 ^ 40 then 1 else 0) + (if ovf then 2 else 0) + (if s.on F.TRN_STAT_QUALITY then 4 else 0)
    + (if c.freezeNext then 8 else 0) + (if s.on (F.TRN_CH_STAT_RANGE n) then 32 else 0) + (if falling then 64 else 0)
    + (if c.stepNext then 128 else 0)

/-- A channel produces a record: it enters the channel queue, or is lost when 16 wait there (R220). A channel with neither HOST nor QUEUE produces
none. -/
def produce (n : Fin 24) (kind edges value : Nat) (datum : Instant) (falling ovf : Bool) (s : State) : State :=
  let host := s.on (F.TRN_CH_CFG_HOST n)
  let queue := s.on (F.TRN_CH_CFG_QUEUE n)
  if host || queue then
    let c := s.chan n
    if 16 ≤ c.queue.length then
      pmcEvent 10 0x06 n 1 (irqSet 5 A.TRN_IRQ_STAT 24
        ((s.setChan n { c with lostNext := true }).addSat (F.TRN_CH_LOST_CNT_COUNT n) 1))
    else
      let r : TrnRecord := ⟨kind, recordFlags s n c falling ovf, if edges < 2 ^ 32 then edges else 2 ^ 32 - 1, value % 2 ^ 64, datum, host, queue⟩
      let c := { c with queue := c.queue ++ [r], wraps := s.trn.coarse / 2 ^ 40, freezeNext := false, stepNext := false }
      (s.setChan n c).set (F.TRN_CH_STAT_QLEVEL n) c.queue.length
  else s

/-- The 32 bytes of a record (R235). -/
def TrnRecord.bytes (r : TrnRecord) (n : Nat) (lost : Bool) : Bytes :=
  natLE 1 r.kind ++ natLE 1 n ++ natLE 2 (r.flags + (if lost then 16 else 0)) ++ natLE 4 r.edges ++ natLE 8 r.value
    ++ natLE 4 (instFrac r.datum) ++ natLE 4 (instNs r.datum) ++ natLE 4 (instSec r.datum) ++ natLE 4 (instSec r.datum / 2 ^ 32)

/-- Channels in the order in which the result path serves them: those with an owner, then the others from the round-robin's turn on (R220). -/
def pathOrder (s : State) : List (Fin 24) :=
  let all : List (Fin 24) := List.finRange 24
  all.filter (fun (n : Fin 24) => decide (chOwner s n.val ≠ 0))
    ++ (all.filter (fun n => decide (s.trn.turn ≤ n.val)) ++ all.filter (fun n => decide (n.val < s.trn.turn))).filter
      (fun (n : Fin 24) => decide (chOwner s n.val = 0))

/-- A record reaches the event queue (R236). -/
def evqPush (b : Bytes) (s : State) : State :=
  if 256 ≤ s.trn.evq.length then irqSet 5 A.TRN_IRQ_STAT 29 (s.addSat F.TRN_EVQ_LOST_CNT_COUNT 1)
  else { s with trn := { s.trn with evq := s.trn.evq ++ [b] } }.set F.TRN_EVQ_STAT_LEVEL (s.trn.evq.length + 1)

/-- A record leaves its channel queue (R220, R235). -/
def recordOut (n : Fin 24) (r : TrnRecord) (s : State) : State :=
  let c := s.chan n
  let b := r.bytes n c.lostNext
  let s := (s.setChan n { c with queue := c.queue.tail, lostNext := false }).set (F.TRN_CH_STAT_QLEVEL n) c.queue.tail.length
  let s := { s with trn := { s.trn with outTick := s.trn.outTick + 1, turn := if chOwner s n = 0 then (n.val + 1) % 24 else s.trn.turn } }
  let s := pmcEvent 10 0x05 n 1 s
  let s := if r.host then upEnqueue (20 + s.get F.TRN_CFG_RING) ⟨b, true, 0, 0, 0⟩ s else s
  if r.queue then evqPush b s else s

/-- TRANSIT_RECORD_OUT: the next record takes the result path (R220). The path stands with DCLK (R33). -/
def execTransitRecordOut (s : State) : Host.Outcome State Fault Refusal :=
  .next (if halted s then s else match (pathOrder s).findSome? (fun n => ((s.chan n).queue.head?).map (fun r => (n, r))) with
    | none => s
    | some (n, r) => recordOut n r s)

/-- Load a record into TRN_EVQ_W0 to W7. -/
def evqShow (b : Bytes) : Nat → State → State
  | 0, s => s
  | k + 1, s => (evqShow b k s).wr (A.TRN_EVQ_W k) (BitVec.ofNat 32 (leAt b (4 * k) 4))

/-- The oldest record moves into TRN_EVQ_W0 to W7; an empty queue loads zeros (R236). -/
def evqPop (s : State) : State :=
  let b := (s.trn.evq.head?).getD (zeros 32)
  let s := evqShow b 8 s
  { s with trn := { s.trn with evq := s.trn.evq.tail } }.set F.TRN_EVQ_STAT_LEVEL s.trn.evq.tail.length

/-! ## Measurement modes (R227-R230) -/

/-- 2^40 DCLK in units of 2^-16 DCLK: the age at which starts and samples overflow (R230). -/
def wrapStamp : Int := 2 ^ 56

/-- A difference of timebase stamps in units of 2^-8 ps (R228, R231). -/
def stampPs (d : Int) : Int := roundDiv (625 * d) 192

/-- Stamp mode (R227). -/
def stampMode (n : Fin 24) (e : TrnEdge) (s : State) : State :=
  let prev := (s.chan n).prev
  let far := prev.any (fun p => decide (wrapStamp ≤ e.stamp - p.stamp))
  let s := produce n 1 e.edges ((e.stamp % 2 ^ 56).toNat) e.datum e.falling far s
  match prev with
  | some p => if far then s else statSample n (stampPs (e.stamp - p.stamp)) s
  | none => s

/-- A channel that pairs both edges of its own input: a start takes the next opposite edge (R228). -/
def opposite (s : State) (n : Nat) : Bool := decide (s.get (F.TRN_CH_CFG_STOPSEL n) = n) && decide (chEdge s n = 2)

/-- A stop edge meets channel n in interval mode: it pairs with the latest unpaired start at or before it; earlier starts are discarded and
counted (R228). -/
def stopEdge (n : Fin 24) (e : TrnEdge) (s : State) : State :=
  let c := s.chan n
  match (c.starts.filter (fun x => decide (x.stamp ≤ e.stamp) && !(opposite s n && decide (x.falling = e.falling)))).getLast? with
  | none => s
  | some st =>
    let earlier := (c.starts.filter (fun x => decide (x.stamp ≤ st.stamp))).length - 1
    let s := s.setChan n { c with starts := c.starts.filter (fun x => decide (st.stamp < x.stamp)) }
    let s := if earlier = 0 then s else s.addSat (F.TRN_CH_UNPAIRED_CNT_COUNT n) earlier
    let v := stampPs (e.stamp - st.stamp)
    statSample n v (produce n 2 st.edges (ofSigned 64 v) st.datum st.falling false s)

/-- Channels in interval mode that take their stop edges from channel m. -/
def stopUsers (s : State) (m : Fin 24) : List (Fin 24) :=
  (List.finRange 24).filter (fun n => chEnabled s n && decide (s.get (F.TRN_CH_CFG_MODE n) = 1) && decide (s.get (F.TRN_CH_CFG_STOPSEL n) = m.val))

/-- The nominal frequency of a channel in units of 2^-24 Hz. -/
def chNom (s : State) (n : Nat) : Nat := s.get64 (A.TRN_CH_NOM_W0 n) % 2 ^ 56

/-- Frequency mode (R229): the gate closes on the first edge at least GATE ms after its first stamp, and its last stamp opens the next. -/
def freqMode (n : Fin 24) (e : TrnEdge) (s : State) : State :=
  let c := s.chan n
  match c.gate with
  | none => s.setChan n { c with gate := some e }
  | some g =>
    let dt := e.stamp - g.stamp
    if dt < ((s.get (F.TRN_CH_GATE_GATE n) * msStamp : Nat) : Int) ∨ dt ≤ 0 then s
    else
      let cyc : Int := ((e.total - g.total) * 2 ^ chPresc s n : Nat)
      let d := dt.toNat
      let f := roundDiv (cyc * 65536 * 1200000000 * 2 ^ 24) d
      let nom := chNom s n
      let foff : Int := if nom = 0 then 0
        else roundDiv ((cyc * 65536 * 1200000000 * 2 ^ 24 - (nom : Int) * dt) * 1000000000000000) (nom * d)
      let s := s.setChan n { c with gate := some e }
      let s := (s.set64 (A.TRN_CH_FREQ_W0 n) (f.toNat % 2 ^ 56)).set64 (A.TRN_CH_FOFF_W0 n) (ofSigned 64 foff)
      let s := produce n 3 e.edges f.toNat e.datum e.falling false s
      statSample n (roundDiv (625 * dt) (192 * cyc.toNat)) s

/-- An accepted edge reaches the channel's own mode, and every channel whose stop edges it supplies (R220, R227-R229). -/
def modeEdge (n : Fin 24) (e : TrnEdge) (s : State) : State :=
  let s := (stopUsers s n).foldl (fun s m => stopEdge m e s) s
  let s := match s.get (F.TRN_CH_CFG_MODE n) with
    | 0 => stampMode n e s
    | 1 => s.setChan n { s.chan n with starts := (s.chan n).starts ++ [e] }
    | _ => freqMode n e s
  (s.setDatum (A.TRN_CH_LAST_W0 n) e.datum).setChan n { s.chan n with prev := some e }

/-- A converted edge that fails its MINW check: counted, and nothing else (R219). -/
def glitch (n : Fin 24) (s : State) : State :=
  let c := s.chan n
  pmcEvent 10 0x04 n 1 ((s.setChan n { c with glitches := c.glitches + 1 }).addSat (F.TRN_CH_GLITCH_CNT_COUNT n) 1)

/-- An accepted edge starts the holdoff and feeds the channel's own processing (R219, R220). -/
def acceptEdge (n : Fin 24) (e : TrnEdge) (s : State) : State :=
  let h := chHoldoff s n
  let s := if h = 0 then s else s.setChan n { s.chan n with holdEnd := some (instAdd e.datum (h * 1000 * 65536)) }
  modeEdge n e s

/-- TRANSIT_START_OVERFLOW: unpaired starts that have reached 2^40 DCLK of age are discarded, counted, and give a record with OVF (R230). -/
def execTransitStartOverflow (ch : Fin 24) (s : State) : Host.Outcome State Fault Refusal :=
  .next (let c := s.chan ch
    match c.starts with
    | [] => s
    | st :: rest =>
      if (s.trn.coarse : Int) * 65536 - st.stamp < wrapStamp then s
      else
        let s := (s.setChan ch { c with starts := rest }).addSat (F.TRN_CH_OVF_CNT_COUNT ch) 1
        produce ch 2 st.edges 0 st.datum st.falling true s)

/-! ## Disturbances (R233, R234) -/

/-- Discard unpaired starts, the open gate and the partial statistics block. -/
def TrnChan.drop (c : TrnChan) : TrnChan := { c with starts := [], gate := none, stats := TrnStats.empty, prev := none }

/-- A change of a channel's settings restarts its measurement (R233). -/
def transitRestart (n : Fin 24) (s : State) : State := (s.setChan n (s.chan n).drop).strike (F.TRN_CH_STAT_RESTART n)

/-- A channel at the restart edge after a freeze (R234). -/
def channelThaw (s : State) (n : Fin 24) : State :=
  let c := s.chan n
  (s.setChan n { c.drop with freezeNext := true }).addSat (F.TRN_CH_FRZ_CNT_COUNT n) 1

/-- Every channel restarts after a freeze (R234). -/
def transitThaw (s : State) : State := irqSet 5 A.TRN_IRQ_STAT 26 ((List.finRange 24).foldl channelThaw s)

/-- The first record of each channel after a Datum step carries STEP (R217). -/
def transitStep (s : State) : State :=
  (List.finRange 24).foldl (fun s n => s.setChan n { s.chan n with stepNext := true }) s

/-- TRN_STAT.QUALITY follows the source of SYN0; a change sets its interrupt and discards the measurements that span it (R225). -/
def setQuality (q : Bool) (s : State) : State :=
  if s.on F.TRN_STAT_QUALITY = q then s
  else irqSet 5 A.TRN_IRQ_STAT 27 ((List.finRange 24).foldl (fun s n => s.setChan n (s.chan n).drop) (s.setB F.TRN_STAT_QUALITY q))

/-! ## Calibration (R222, R223) -/

/-- Change a converter of a channel. -/
def State.setConv (s : State) (n : Fin 24) (k : Fin 3) (v : TrnConv) : State :=
  s.setChan n { s.chan n with convs := (s.chan n).convs.set k v }

/-- Empty codes inside the window: between the first and the last code with counts. -/
def emptyCodes (hist : List Nat) : Nat :=
  (((hist.dropWhile (fun h => decide (h = 0))).reverse.dropWhile (fun h => decide (h = 0))).filter (fun h => decide (h = 0))).length

/-- A calibration fails with more than 64 empty codes inside the window, or with a histogram that holds no count (R223). -/
def calFails (hist : List Nat) : Bool := decide (64 < emptyCodes hist) || hist.all (fun h => decide (h = 0))

/-- Show whether one converter alone serves. -/
def showDegraded (n : Fin 24) (s : State) : State :=
  s.setB (F.TRN_CH_STAT_DEGRADED n) (decide ((s.chan n).serving.length = 1))

/-- Put ready converters of a channel in service until two serve. -/
def fillService (n : Fin 24) (s : State) : State :=
  showDegraded n ((List.finRange 3).foldl (fun s k =>
    let v := (s.chan n).convs[k]
    if (s.chan n).serving.length < 2 && v.ready && !v.serving && !v.isolated then
      s.setConv n k { v with serving := true, since := s.now }
    else s) s)

/-- The initial calibration of every converter has ended: CALOK, and two converters of each channel serve (R223). -/
def initialDone (s : State) : Bool :=
  (List.finRange 24).all (fun n => (List.finRange 3).all (fun k => (s.chan n).convs[k].ended || (s.chan n).convs[k].isolated))

/-- CONVERTER_CALIBRATION_DONE: a converter that does not serve has its histogram (R222, R223). -/
def execConverterCalibrationDone (ch : Fin 24) (conv : Fin 3) (hist : List Nat) (s : State) : Host.Outcome State Fault Refusal :=
  .next (let v := (s.chan ch).convs[conv]
    if v.serving || v.isolated || !(dclkRuns s) then s
    else
      let s := if calFails hist then
          faultSend .trnCal (3 * ch.val + conv.val) 0 0 0 (irqSet 5 A.TRN_IRQ_STAT 28 (s.setConv ch conv { v with ready := false, ended := true }))
        else s.setConv ch conv { v with ready := true, ended := true, hist := hist, built := s.sys.ticks, builtTemp := s.bm.dieTemp }
      if s.on F.TRN_STAT_CALOK then (if (s.chan ch).serving.length < 2 then fillService ch s else s)
      else if initialDone s then (List.finRange 24).foldl (fun s n => fillService n s) (s.set F.TRN_STAT_CALOK 1)
      else s)

/-- The converter of a channel that has served longest. -/
def longest (c : TrnChan) : Option (Fin 3) :=
  c.serving.foldl (fun b k => match b with
    | none => some k
    | some j => if c.convs[k].since < c.convs[j].since then some k else some j) none

/-- A table is current while it is younger than three times CALPER and the die temperature lies within 2 degrees of that at its build (R223). -/
def TrnConv.current (v : TrnConv) (s : State) : Bool :=
  decide (s.sys.ticks - v.built < 3 * (1000 * s.get F.TRN_CFG_CALPER)) && decide ((s.bm.dieTemp - v.builtTemp).natAbs ≤ 512)

/-- A converter that may enter service: calibrated, not serving, not isolated (R223). -/
def TrnConv.spare (v : TrnConv) : Bool := v.ready && !v.serving && !v.isolated

/-- The next swap of a channel is due: CALPER has passed since the last one, or a converter serves on a table that is not current (R223). -/
def rotateDue (s : State) (c : TrnChan) : Bool :=
  decide (c.rotated + 1000 * s.get F.TRN_CFG_CALPER < s.sys.ticks) || c.serving.any (fun k => !(c.convs[k].current s))

/-- CONVERTER_ROTATE: after CALPER, or at once when the die temperature moved by more than 2 °C, the newly calibrated converter `conv` takes the place of
the one that has served longest, which is then calibrated again (R223). -/
def execConverterRotate (ch : Fin 24) (conv : Fin 3) (s : State) : Host.Outcome State Fault Refusal :=
  .next (let c := s.chan ch
    match longest c with
    | some l =>
      if s.on F.TRN_STAT_CALOK && dclkRuns s && c.convs[conv].spare && rotateDue s c then
        let s := s.setChan ch { c with rotated := s.sys.ticks }
        let s := s.setConv ch l { c.convs[l] with serving := false, ready := false }
        showDegraded ch (s.setConv ch conv { c.convs[conv] with serving := true, since := s.now })
      else s
    | none => s)

/-- The fault manager isolates a converter: it leaves service (R223, R383). -/
def isolateConverter (n : Fin 24) (k : Fin 3) (s : State) : State :=
  fillService n (s.setConv n k { (s.chan n).convs[k] with isolated := true, serving := false, ready := false })

/-! ## The tick (R221, R226) -/

/-- A channel at the end of a tick: RANGE by what the tick counted. -/
def channelTick (s : State) (n : Fin 24) : State :=
  let c := s.chan n
  (s.setB (F.TRN_CH_STAT_RANGE n) (c.narrow || decide (300000 < c.tickEdges))).setChan n { c with tickEdges := 0, narrow := false }

/-- The frequency code of R226 that a tick's count of OSCIN edges fits within 200 ppm: 1, 2, 3 for 10, 20, 25 MHz, and 0 for none. -/
def oscFits (edges : Nat) : Nat :=
  if 9998 ≤ edges ∧ edges ≤ 10002 then 1 else if 19996 ≤ edges ∧ edges ≤ 20004 then 2
  else if 24995 ≤ edges ∧ edges ≤ 25005 then 3 else 0

/-- The tick of Transit: LOAD and RANGE. -/
def transitTick (s : State) : State :=
  let l := s.trn.outTick / 2000
  let s := s.set F.TRN_STAT_LOAD (if l < 255 then l else 255)
  (List.finRange 24).foldl channelTick { s with trn := { s.trn with outTick := 0 } }

end Sys2Proof.Machine
end

