-- ==== Sys2Proof/Machine/Benchmark.lean ====
section
/-! DEFINITION. Benchmark: its two oscillator models, their fits, and the Datum's holdover (R264-R272). -/
namespace Sys2Proof.Machine

/-! ## Models (R264, R265, R267) -/

/-- B(t) of a model at a time in days and a temperature (R265). -/
def BmModel.predict (m : BmModel) (t temp : Frac) : Frac :=
  let u := temp.sub m.temp0
  ((m.c0.add (m.a.mul (t.sub m.t0))).add (m.k1.mul u)).add (m.k2.mul (u.mul u))

/-- Milliseconds in days. -/
def daysOf (ms : Nat) : Frac := .of ms 86400000

/-- Degrees of a reading in 1/256 degree. -/
def degrees (x : Int) : Frac := .of x 256

/-- The temperature of the OSCIN model (R266). -/
def oscTemp (s : State) : Frac :=
  if s.on F.TRV_BM_CFG_TEMPSRC && !(s.on F.TRV_BM_STAT_TEMPFALL) then degrees s.bm.boardTemp else degrees s.bm.dieTemp

/-- Whether the crystal is the system oscillator (R264). -/
def onCrystal (s : State) : Bool := s.on F.TRV_BM_STAT_MODEL

/-- The model of the system oscillator. -/
def bmModel (s : State) : BmModel := if onCrystal s then s.bm.xtal else s.bm.osc

/-- The temperature that it uses. -/
def bmTemp (s : State) : Frac := if onCrystal s then degrees s.bm.dieTemp else oscTemp s

/-- B of the system oscillator now. -/
def bNow (s : State) : Frac := (bmModel s).predict (daysOf s.bm.ticks) (bmTemp s)

/-- B of the OSCIN model and of the crystal model now. -/
def bOsc (s : State) : Frac := s.bm.osc.predict (daysOf s.bm.ticks) (oscTemp s)

/-- B of the crystal model now. -/
def bXtal (s : State) : Frac := s.bm.xtal.predict (daysOf s.bm.ticks) (degrees s.bm.dieTemp)

/-- A fraction in whole units, rounded to nearest, as a signed field of 32 bits that saturates. -/
def sat32 (x : Frac) (unit : Nat) : Int := clampInt (-2147483648) 2147483647 (x.mul (.int unit)).round

/-- Show the model of the system oscillator (TRV_BM registers). -/
def showModel (s : State) : State :=
  let m := bmModel s
  let s := ((s.set F.TRV_BM_STAT_PHASE m.phase).setB F.TRV_BM_STAT_TEMPOK m.tempOk).set F.TRV_BM_STAT_HOURS m.hours.length
  let s := ((s.setI F.TRV_BM_AGE_VALUE (sat32 m.a (10 ^ 15))).setI F.TRV_BM_K1_VALUE (sat32 m.k1 (10 ^ 15))).setI F.TRV_BM_K2_VALUE
    (sat32 m.k2 (10 ^ 15))
  let s := s.setI F.TRV_BM_XOFF_VALUE (sat32 (bXtal s) (10 ^ 15))
  (s.setI F.TRV_BM_TEMP_T0 (m.temp0.mul (.int 256)).round).setI F.TRV_BM_TEMP_TEMP ((bmTemp s).mul (.int 256)).round

/-! ## Least squares -/

/-- The first row whose head is not zero, and the other rows in order. -/
def pickRow : List (List Frac) → Option (List Frac × List (List Frac))
  | [] => none
  | r :: rs =>
    if (r.headD .zero).num ≠ 0 then some (r, rs)
    else (pickRow rs).map (fun p => (p.1, r :: p.2))

/-- Subtract from a row the multiple of a pivot row that clears its head, and drop the head. -/
def clearHead (p r : List Frac) : List Frac :=
  let f := (r.headD .zero).div (p.headD .zero)
  (List.zipWith (fun x y => x.sub (f.mul y)) r p).tail

/-- Solve n linear equations, each a row of n coefficients and the right-hand side. -/
def solve : Nat → List (List Frac) → Option (List Frac)
  | 0, _ => some []
  | n + 1, rows =>
    match pickRow rows with
    | none => none
    | some (p, rest) =>
      match solve n (rest.map (clearHead p)) with
      | none => none
      | some xs =>
        let known := Frac.sum (List.zipWith Frac.mul p.tail xs)
        some ((((p.getLastD .zero).sub known).div (p.headD .zero)) :: xs)

/-- The normal matrix of a list of regressor rows. -/
def normal (k : Nat) (xs : List (List Frac)) : List (List Frac) :=
  (List.range k).map (fun i => (List.range k).map (fun j => Frac.sum (xs.map (fun x => (x.getD i .zero).mul (x.getD j .zero)))))

/-- The least-squares coefficients of y on k regressors, with the standard errors of the coefficients (R265): residual variance over n - k degrees
of freedom times the inverse of the normal matrix, with the root taken to 10^-18. None where the regressors are dependent. -/
def leastSquares (k : Nat) (xs : List (List Frac)) (ys : List Frac) : Option (List Frac × List Frac) :=
  let m := normal k xs
  let rhs := (List.range k).map (fun i => Frac.sum (List.zipWith (fun x y => (x.getD i .zero).mul y) xs ys))
  match solve k (List.zipWith (fun r b => r ++ [b]) m rhs) with
  | none => none
  | some b =>
    let res := List.zipWith (fun x y => y.sub (Frac.sum (List.zipWith Frac.mul x b))) xs ys
    let ssr := Frac.sum (res.map (fun r => r.mul r))
    let var := if xs.length ≤ k then Frac.zero else ssr.div (.int (xs.length - k))
    let se := (List.range k).map (fun j =>
      let e := (List.range k).map (fun i => if i = j then Frac.int 1 else Frac.zero)
      match solve k (List.zipWith (fun r b => r ++ [b]) m e) with
      | some c => Frac.of (isqrt ((var.mul (c.getD j .zero)).mul (.int (10 ^ 36))).floor.toNat) (10 ^ 18)
      | none => Frac.zero)
    some (b, se)

/-- The mean of a list; 0 of none. -/
def meanOf (l : List Frac) : Frac := (Frac.sum l).div (.int l.length)

/-- The spread of a list. -/
def spanOf (l : List Frac) : Frac :=
  match l with
  | [] => .zero
  | x :: xs => (xs.foldl Frac.max x).sub (xs.foldl Frac.min x)

/-- Learning phase by hours of history (R265). -/
def phaseOf (m : BmModel) (learnDays : Nat) : Nat :=
  if learnDays * 24 ≤ m.hours.length then 2 else if 24 ≤ m.hours.length ∨ m.seeded = true then 1 else 0

/-- Refit a model at the time t0 (R265). Below 24 hours the ageing term is 0; a seeded model keeps its terms until then (R267). -/
def BmModel.refit (m : BmModel) (t0 : Frac) (learnDays : Nat) : BmModel :=
  let ph := phaseOf m learnDays
  let ys := m.hours.map (fun h => h.2.1)
  let temps := m.hours.map (fun h => h.2.2)
  let mt := meanOf temps
  if m.hours = [] then { m with phase := ph }
  else if m.hours.length < 24 then
    if m.seeded then { m with phase := ph, c0 := (meanOf ys), temp0 := mt, t0 := t0 }
    else { m with phase := ph, c0 := (meanOf ys), a := .zero, k1 := .zero, k2 := .zero, temp0 := mt, t0 := t0, tempOk := false }
  else
    let ok := decide (72 ≤ m.hours.length) && (Frac.int 2).le (spanOf temps)
    let base := { m with phase := ph, temp0 := mt, t0 := t0, seeded := false }
    let plain := { base with tempOk := false, k1 := .zero, k2 := .zero, seK1 := .zero }
    let fit2 := match leastSquares 2 (m.hours.map (fun h => [Frac.int 1, h.1.sub t0])) ys with
      | some (b, se) => { plain with c0 := b.getD 0 .zero, a := b.getD 1 .zero, seA := se.getD 1 .zero }
      | none => { plain with c0 := (meanOf ys), a := .zero }
    if ok then
      match leastSquares 4 (m.hours.map (fun h => let u := h.2.2.sub mt; [Frac.int 1, h.1.sub t0, u, u.mul u])) ys with
      | some (b, se) => { base with tempOk := true, c0 := b.getD 0 .zero, a := b.getD 1 .zero, k1 := b.getD 2 .zero, k2 := b.getD 3 .zero,
                                    seA := se.getD 1 .zero, seK1 := se.getD 2 .zero }
      | none => fit2
    else fit2

/-- A second's sample reaches a model (R264). -/
def BmModel.sample (m : BmModel) (off temp : Frac) : BmModel :=
  { m with ring := off :: m.ring.take 9999, hourOff := m.hourOff.add off, hourTemp := m.hourTemp.add temp, hourN := m.hourN + 1 }

/-- The hour ends: its means enter the history of the latest LEARNDAYS days (R264). -/
def BmModel.closeHour (m : BmModel) (t : Frac) (learnDays : Nat) : BmModel :=
  let h := if m.hourN = 0 then m.hours
    else (t, m.hourOff.div (.int m.hourN), m.hourTemp.div (.int m.hourN)) :: m.hours.take (learnDays * 24 - 1)
  { m with hours := h, hourOff := .zero, hourTemp := .zero, hourN := 0 }

/-- Ua of a model per day (R265). A seeded model keeps AGEMAX until FULL, as PHASE gives. -/
def bmUa (s : State) (m : BmModel) : Frac :=
  if m.phase = 2 then Frac.max ((Frac.int 2).mul m.seA) (.of 1 (10 ^ 13)) else .of (s.get F.TRV_BM_DECL_AGEMAX) (10 ^ 13)

/-- Ut of a model per degree (R269). -/
def bmUt (s : State) (m : BmModel) : Frac :=
  if m.tempOk then Frac.max ((Frac.int 2).mul m.seK1) (.of 1 (10 ^ 14)) else .of (s.get F.TRV_BM_DECL_TEMPCO) (10 ^ 13)

/-- The OSCIN model after a loss of PD1 (R267). -/
def seedModel (s : State) : BmModel :=
  if s.on F.TRV_BM_CFG_SEEDEN then
    { BmModel.empty with
        phase := 1, seeded := true, a := .of (s.getI F.TRV_BM_SEEDAGE_SEED) (10 ^ 15),
        k1 := .of (s.getI F.TRV_BM_SEEDK1_SEED) (10 ^ 15), k2 := .of (s.getI F.TRV_BM_SEEDK2_SEED) (10 ^ 15),
        tempOk := s.on F.TRV_BM_SEEDK1_SEED }
  else BmModel.empty

/-! ## Commands -/

/-- The fractional offset of OSCIN against the Datum over a span of channel 16's stamps (R226, R264). -/
def oscOffset (s : State) (a b : Instant × Nat) : Option Frac :=
  let code := s.get F.TRN_STAT_OSCFREQ
  let hz := if code = 1 then 10000000 else if code = 2 then 20000000 else 25000000
  let dt := instDiff b.1 a.1
  if dt ≤ 0 ∨ code = 0 then none
  else some ((Frac.of (((b.2 - a.2 : Nat) : Int) * secUnits) (hz * dt.toNat)).sub (.int 1))

/-- BENCHMARK_SAMPLE: once per second, with the reading of the in-package sensor (R264). A second in which a condition failed gives no sample. -/
def execBenchmarkSample (temp : BitVec 16) (s : State) : Host.Outcome State Fault Refusal :=
  .next (if s.bm.secTicks < 1000 then s
    else
      let b := { s.bm with secTicks := 0, dieTemp := toSigned 16 temp.toNat, oscFrom := s.bm.oscLast, clean := true, cleanOsc := true }
      let off := match s.bm.oscFrom, s.bm.oscLast with
        | some x, some y => oscOffset s x y
        | _, _ => none
      let clean := s.bm.clean
      let cleanOsc := s.bm.clean && s.bm.cleanOsc
      let s := { s with bm := b }
      let s := match off with
        | some o => if cleanOsc then { s with bm := { s.bm with osc := s.bm.osc.sample o (oscTemp s) } } else s
        | none => s
      let s := if clean then
          { s with bm := { s.bm with xtal := s.bm.xtal.sample (.of (-s.dtm.monRate) (2 ^ 48)) (degrees s.bm.dieTemp) } }
        else s
      showModel s)

/-- A change of PHASE sets its interrupt and writes BM_PHASE (R265). -/
def phaseChange (old : Nat) (s : State) : State :=
  if (bmModel s).phase = old then s else record 0x0508 0 0 0 0 (irqSet 4 A.TRV_CH_IRQ_STAT 16 s)

/-- BENCHMARK_REFIT: once per hour the hourly means enter the history, and but for a Datum in HOLDOVER both models are refitted (R265). -/
def execBenchmarkRefit (s : State) : Host.Outcome State Fault Refusal :=
  .next (if s.bm.hourTicks < 3600000 then s
    else
      let ld := s.get F.TRV_BM_CFG_LEARNDAYS
      let t := daysOf s.bm.ticks
      let hold := decide (s.dtm.under = 4 ∨ s.dtm.under = 5)
      let step := fun (m : BmModel) => let m := m.closeHour t ld; if hold then m else m.refit t ld
      phaseChange (bmModel s).phase (showModel { s with bm := { s.bm with hourTicks := 0, osc := step s.bm.osc, xtal := step s.bm.xtal } }))

/-- BENCHMARK_TEMP_READ: the once-per-second read of the I2C sensor, with its value, or with none where the read failed (R266). -/
def execBenchmarkTempRead (reply : Option (BitVec 16)) (s : State) : Host.Outcome State Fault Refusal :=
  .next (if s.on F.TRV_BM_CFG_TEMPSRC then
      match reply with
      | some v =>
        let s := { s with bm := { s.bm with boardTemp := toSigned 16 v.toNat, i2cFails := 0, i2cGood := s.bm.i2cGood + 1 } }
        showModel (if 60 ≤ s.bm.i2cGood then s.set F.TRV_BM_STAT_TEMPFALL 0 else s)
      | none =>
        let s := { s with bm := { s.bm with i2cFails := s.bm.i2cFails + 1, i2cGood := 0 } }
        if 3 ≤ s.bm.i2cFails ∧ s.on F.TRV_BM_STAT_TEMPFALL = false then
          showModel (record 0x0509 0 0 0 0 (irqSet 4 A.TRV_CH_IRQ_STAT 17 (s.set F.TRV_BM_STAT_TEMPFALL 1)))
        else s
    else s)

/-! ## The Datum in holdover (R268-R271) -/

/-- The Datum-LOCKED seconds of the window before te (R268). -/
def rateWindow (s : State) : List Int :=
  let g := s.get F.TRV_BM_AVG_GUARD * 1000
  let w := s.get F.TRV_BM_AVG_AVGWIN * 1000
  (s.bm.rates.filter (fun r => decide (r.1 + g ≤ s.bm.ticks ∧ s.bm.ticks < r.1 + g + w))).map (·.2)

/-- Uf: 2 s / sqrt(m) of the averaged seconds, at least 10^-13; 10^-8 with none (R269). The root is taken to 10^-18. -/
def ufOf (l : List Frac) : Frac :=
  match l with
  | [] => .of 1 (10 ^ 8)
  | _ =>
    let m := meanOf l
    let v := if l.length ≤ 1 then Frac.zero else (Frac.sum (l.map (fun x => (x.sub m).mul (x.sub m)))).div (.int (l.length - 1))
    let r := Frac.of (isqrt ((v.div (.int l.length)).mul (.int (10 ^ 36))).floor.toNat) (10 ^ 18)
    Frac.max ((Frac.int 2).mul r) (.of 1 (10 ^ 13))

/-- E in ns at the present tick (R269). -/
def holdBound (s : State) : Frac :=
  let tau := Frac.of (s.bm.ticks - s.bm.te) 1000
  let m := if s.bm.follow then s.bm.xtal else bmModel s
  let ns := Frac.int 1000000000
  ((((s.bm.e0.add ((s.bm.uf.mul tau).mul ns)).add ((((bmUa s m).div (.int 172800)).mul (tau.mul tau)).mul ns)).add
    (((bmUt s m).mul s.bm.tempInt).mul ns)).add (.of s.bm.freezes 2))

/-- Show E and Uf (R269). BOUND reads 0 outside holdover. -/
def showBound (s : State) : State :=
  let e := if s.dtm.under = 4 ∨ s.dtm.under = 5 then s.bm.bound.ceil else 0
  let u := (s.bm.uf.mul (.int (10 ^ 15))).round
  (s.set F.TRV_BM_BOUND_VALUE (if e < 2 ^ 32 then e.toNat else 2 ^ 32 - 1)).set F.TRV_BM_UF_VALUE (if u < 2 ^ 32 then u.toNat else 2 ^ 32 - 1)

/-- The rate of the Datum in holdover, in units of 2^-48 (R268). -/
def holdRate (s : State) : Int :=
  let unit := Frac.int (2 ^ 48)
  let b := bNow s
  clampInt (-rateLimit) rateLimit (match s.bm.yavg with
    | some y => ((y.sub (b.sub s.bm.bEntry)).mul unit).round
    | none => if 1 ≤ (bmModel s).phase then (b.neg.mul unit).round else s.bm.yEntry)

/-- E0 of an entry to holdover in ns: LOCKTH and the active domain's last estimate (R269). -/
def holdStart (s : State) : Frac := (Frac.int (s.get F.DTM_CFG_LOCKTH * 10)).add (.of (s.dtm.dom s.active).est.natAbs 65536)

/-- Entry to HOLDOVER (R268, R269). -/
def enterHoldover (s : State) : State :=
  let w := rateWindow s
  let l := w.map (fun r => Frac.of r (2 ^ 48))
  let e0 := holdStart s
  let s := { s with bm := { s.bm with yavg := if l = [] then none else some (meanOf l), yEntry := (s.dtm.dom s.active).rate, bEntry := bNow s,
                                      te := s.bm.ticks, tempEntry := bmTemp s, e0 := e0, uf := ufOf l, tempInt := .zero, freezes := 0, bound := e0 } }
  let s := datumGoto 4 s
  announceRate (holdRate s) s.dtm.lastRate.2 (showBound s)

/-- The Datum follows the Monument counter from here: E goes on from its value with the terms of the crystal model, and DTM_MONDIFF is held (R271). -/
def followMonument (s : State) : State :=
  let d := degrees s.bm.dieTemp
  { s with bm := { s.bm with follow := true, e0 := s.bm.bound, te := s.bm.ticks, tempEntry := d, tempInt := .zero, freezes := 0,
                             uf := ufOf s.bm.xtal.ring, held := s.getI F.DTM_MONDIFF_DIFF } }.set F.TRV_BM_STAT_MONFOLLOW 1

/-- The temperature that the bound in force uses. -/
def boundTemp (s : State) : Frac := if s.bm.follow then degrees s.bm.dieTemp else bmTemp s

/-- E of the next millisecond: the temperature integral and the formula of R269. E never decreases (R270). -/
def boundStep (s : State) : State :=
  let s := { s with bm := { s.bm with tempInt := s.bm.tempInt.add (((boundTemp s).sub s.bm.tempEntry).abs.mul (.of 1 1000)) } }
  { s with bm := { s.bm with bound := Frac.max s.bm.bound (holdBound s) } }

/-- The rate that holds DTM_MONDIFF while the Datum follows the Monument counter: the difference is removed within one second (R271; assumption
log 37). -/
def followRate (s : State) : Int :=
  clampInt (-rateLimit) rateLimit (s.dtm.lastRate.1 + (s.bm.held - s.getI F.DTM_MONDIFF_DIFF) * 20 * 2 ^ 48 / 1000000000000)

/-- One tick of a holdover: the temperature integral, the bound, the rate, and the step out of specification (R268-R270). While the Datum follows the
Monument counter, its rate is what holds DTM_MONDIFF (R271; assumption log 37). -/
def holdTick (s : State) : State :=
  let s := boundStep s
  let s := if s.dtm.under = 4 ∧ (Frac.int (s.get F.TRV_BM_HOLD_HOLDLIM)).lt s.bm.bound = true then
      record 0x0703 0 0 0 0 (alarmRaise 12 (datumGoto 5 s))
    else s
  let s := showBound s
  let want := if s.bm.follow then followRate s else holdRate s
  if want = s.dtm.lastRate.1 then s else announceRate want s.dtm.lastRate.2 s

/-- The Datum leaves holdover, into ACQUIRE: E holds its value (R87, R269). -/
def leaveHoldover (s : State) : State :=
  let st := s.dtm.under
  let e := s.bm.bound.ceil.toNat
  let s := { s with svp := { s.svp with heldState := st, heldBound := e } }
  let s := { s with bm := { s.bm with follow := false } }.set F.TRV_BM_STAT_MONFOLLOW 0
  showBound (alarmClear 12 (datumGoto 1 s))

/-- Entry to LOCKED clears E (R269). -/
def clearBound (s : State) : State :=
  showBound { s with bm := { s.bm with bound := .zero }, svp := { s.svp with heldState := 0, heldBound := 0 } }

/-- The conditions of R264 for the running second, and the LOCKED seconds of R268. -/
def benchTick (s : State) : State :=
  let locked := decide (s.get F.DTM_STATE_STATE = 2)
  let frozen := s.on F.SYN_STAT_FROZEN
  let clean := locked && decide (s.domState s.active = 2) && !(s.on F.DTM_STATE_SLEW) && !frozen
  let b : BmState := { s.bm with
    ticks := s.bm.ticks + 1, secTicks := s.bm.secTicks + 1, hourTicks := s.bm.hourTicks + 1, clean := s.bm.clean && clean,
    cleanOsc := s.bm.cleanOsc && s.on F.TRN_STAT_QUALITY, lockedSec := s.bm.lockedSec && locked }
  if b.ticks % 1000 = 0 then
    let keep := s.get F.TRV_BM_AVG_GUARD + s.get F.TRV_BM_AVG_AVGWIN + 1
    { s with bm := { b with
      lockedSec := true,
      rates := if b.lockedSec then ((b.ticks, (s.dtm.dom s.active).rate) :: b.rates).take keep else b.rates } }
  else { s with bm := b }

end Sys2Proof.Machine
end

