-- ==== Sys2Proof/Machine/Crypto.lean ====
section
/-! DEFINITION. The primitives that the spec names by their standards: SHA-384 and SHA-512 (FIPS 180-4), HMAC and HKDF (RFC 2104, RFC 5869), AES (FIPS 197),
AES-SIV-CMAC (RFC 5297), AES-KW (RFC 3394), MD5 (RFC 1321) and SipHash-2-4. The spec states no more of them than the name (assumption log 23). -/
namespace Sys2Proof.Machine

/-! ## SHA-512 and SHA-384 -/

/-- The round constants of SHA-512: the fractions of the cube roots of the first 80 primes, part 0. -/
def sha512K0 : List (BitVec 64) := [
  0x428A2F98D728AE22, 0x7137449123EF65CD, 0xB5C0FBCFEC4D3B2F, 0xE9B5DBA58189DBBC,
  0x3956C25BF348B538, 0x59F111F1B605D019, 0x923F82A4AF194F9B, 0xAB1C5ED5DA6D8118,
  0xD807AA98A3030242, 0x12835B0145706FBE, 0x243185BE4EE4B28C, 0x550C7DC3D5FFB4E2,
  0x72BE5D74F27B896F, 0x80DEB1FE3B1696B1, 0x9BDC06A725C71235, 0xC19BF174CF692694]

/-- The round constants of SHA-512: the fractions of the cube roots of the first 80 primes, part 1. -/
def sha512K1 : List (BitVec 64) := [
  0xE49B69C19EF14AD2, 0xEFBE4786384F25E3, 0xFC19DC68B8CD5B5, 0x240CA1CC77AC9C65,
  0x2DE92C6F592B0275, 0x4A7484AA6EA6E483, 0x5CB0A9DCBD41FBD4, 0x76F988DA831153B5,
  0x983E5152EE66DFAB, 0xA831C66D2DB43210, 0xB00327C898FB213F, 0xBF597FC7BEEF0EE4,
  0xC6E00BF33DA88FC2, 0xD5A79147930AA725, 0x6CA6351E003826F, 0x142929670A0E6E70]

/-- The round constants of SHA-512: the fractions of the cube roots of the first 80 primes, part 2. -/
def sha512K2 : List (BitVec 64) := [
  0x27B70A8546D22FFC, 0x2E1B21385C26C926, 0x4D2C6DFC5AC42AED, 0x53380D139D95B3DF,
  0x650A73548BAF63DE, 0x766A0ABB3C77B2A8, 0x81C2C92E47EDAEE6, 0x92722C851482353B,
  0xA2BFE8A14CF10364, 0xA81A664BBC423001, 0xC24B8B70D0F89791, 0xC76C51A30654BE30,
  0xD192E819D6EF5218, 0xD69906245565A910, 0xF40E35855771202A, 0x106AA07032BBD1B8]

/-- The round constants of SHA-512: the fractions of the cube roots of the first 80 primes, part 3. -/
def sha512K3 : List (BitVec 64) := [
  0x19A4C116B8D2D0C8, 0x1E376C085141AB53, 0x2748774CDF8EEB99, 0x34B0BCB5E19B48A8,
  0x391C0CB3C5C95A63, 0x4ED8AA4AE3418ACB, 0x5B9CCA4F7763E373, 0x682E6FF3D6B2B8A3,
  0x748F82EE5DEFB2FC, 0x78A5636F43172F60, 0x84C87814A1F0AB72, 0x8CC702081A6439EC,
  0x90BEFFFA23631E28, 0xA4506CEBDE82BDE9, 0xBEF9A3F7B2C67915, 0xC67178F2E372532B]

/-- The round constants of SHA-512: the fractions of the cube roots of the first 80 primes, part 4. -/
def sha512K4 : List (BitVec 64) := [
  0xCA273ECEEA26619C, 0xD186B8C721C0C207, 0xEADA7DD6CDE0EB1E, 0xF57D4F7FEE6ED178,
  0x6F067AA72176FBA, 0xA637DC5A2C898A6, 0x113F9804BEF90DAE, 0x1B710B35131C471B,
  0x28DB77F523047D84, 0x32CAAB7B40C72493, 0x3C9EBE0A15C9BEBC, 0x431D67C49C100D4C,
  0x4CC5D4BECB3E42B6, 0x597F299CFC657E2A, 0x5FCB6FAB3AD6FAEC, 0x6C44198C4A475817]

/-- The round constants of SHA-512: the fractions of the cube roots of the first 80 primes. -/
def sha512K : List (BitVec 64) := sha512K0 ++ sha512K1 ++ sha512K2 ++ sha512K3 ++ sha512K4

/-- The initial value of SHA-512. -/
def sha512Init : List (BitVec 64) := [
  0x6A09E667F3BCC908, 0xBB67AE8584CAA73B, 0x3C6EF372FE94F82B, 0xA54FF53A5F1D36F1,
  0x510E527FADE682D1, 0x9B05688C2B3E6C1F, 0x1F83D9ABFB41BD6B, 0x5BE0CD19137E2179]

/-- The initial value of SHA-384. -/
def sha384Init : List (BitVec 64) := [
  0xCBBB9D5DC1059ED8, 0x629A292A367CD507, 0x9159015A3070DD17, 0x152FECD8F70E5939,
  0x67332667FFC00B31, 0x8EB44A8768581511, 0xDB0C2E0D64F98FA7, 0x47B5481DBEFA4FA4]

/-- The eight working variables. -/
structure Sha8 where
  a : BitVec 64
  b : BitVec 64
  c : BitVec 64
  d : BitVec 64
  e : BitVec 64
  f : BitVec 64
  g : BitVec 64
  h : BitVec 64

/-- Working variables from a list. -/
def Sha8.of (l : List (BitVec 64)) : Sha8 :=
  let w := fun i => l.getD i 0
  ⟨w 0, w 1, w 2, w 3, w 4, w 5, w 6, w 7⟩

/-- The variables as a list. -/
def Sha8.list (s : Sha8) : List (BitVec 64) := [s.a, s.b, s.c, s.d, s.e, s.f, s.g, s.h]

/-- The message schedule, newest word first: extend by `n` words. -/
def shaSchedule : Nat → List (BitVec 64) → List (BitVec 64)
  | 0, w => w
  | n + 1, w =>
    let x2 := w.getD 1 0
    let x15 := w.getD 14 0
    let s1 := x2.rotateRight 19 ^^^ x2.rotateRight 61 ^^^ (x2 >>> 6)
    let s0 := x15.rotateRight 1 ^^^ x15.rotateRight 8 ^^^ (x15 >>> 7)
    shaSchedule n ((s1 + w.getD 6 0 + s0 + w.getD 15 0) :: w)

/-- One round with its constant plus schedule word. -/
def shaRound (s : Sha8) (kw : BitVec 64) : Sha8 :=
  let s1 := s.e.rotateRight 14 ^^^ s.e.rotateRight 18 ^^^ s.e.rotateRight 41
  let ch := (s.e &&& s.f) ^^^ (~~~ s.e &&& s.g)
  let t1 := s.h + s1 + ch + kw
  let s0 := s.a.rotateRight 28 ^^^ s.a.rotateRight 34 ^^^ s.a.rotateRight 39
  let mj := (s.a &&& s.b) ^^^ (s.a &&& s.c) ^^^ (s.b &&& s.c)
  ⟨t1 + s0 + mj, s.a, s.b, s.c, s.d + t1, s.e, s.f, s.g⟩

/-- Cut a string into pieces of `w` bytes; at most `n`. -/
def chunks (w : Nat) : Nat → Bytes → List Bytes
  | 0, _ => []
  | n + 1, b => if b.isEmpty then [] else b.take w :: chunks w n (b.drop w)

/-- The pieces of `w` bytes of a string. -/
def pieces (w : Nat) (b : Bytes) : List Bytes := chunks w b.length b

/-- Absorb one block of 128 bytes. -/
def shaBlock (h : List (BitVec 64)) (blk : Bytes) : List (BitVec 64) :=
  let w := (pieces 8 blk).map (fun x => BitVec.ofNat 64 (beNat x))
  let ws := (shaSchedule 64 w.reverse).reverse
  let s := (List.zipWith (· + ·) sha512K ws).foldl shaRound (Sha8.of h)
  List.zipWith (· + ·) h s.list

/-- The padding of SHA-512. -/
def shaPad (n : Nat) : Bytes := [0x80] ++ zeros ((239 - n % 128) % 128) ++ natBE 16 (8 * n)

/-- The hash over padded blocks. -/
def shaRun (init : List (BitVec 64)) (b : Bytes) : Bytes :=
  ((pieces 128 (b ++ shaPad b.length)).foldl shaBlock init).flatMap (fun x => natBE 8 x.toNat)

/-- SHA-512. -/
def sha512 (b : Bytes) : Bytes := shaRun sha512Init b

/-- SHA-384. -/
def sha384 (b : Bytes) : Bytes := (shaRun sha384Init b).take 48

/-- HMAC-SHA-384. -/
def hmac384 (key msg : Bytes) : Bytes :=
  let k := padTo 128 (if 128 < key.length then sha384 key else key)
  sha384 (k.map (· ^^^ 0x5C) ++ sha384 (k.map (· ^^^ 0x36) ++ msg))

/-- HKDF-Extract with SHA-384. -/
def hkdfExtract (salt ikm : Bytes) : Bytes := hmac384 salt ikm

/-- The blocks of HKDF-Expand from block i on. -/
def hkdfBlocks (prk info : Bytes) : Nat → Nat → Bytes → Bytes
  | 0, _, _ => []
  | n + 1, i, t =>
    let u := hmac384 prk (t ++ info ++ natBE 1 i)
    u ++ hkdfBlocks prk info n (i + 1) u

/-- HKDF-Expand with SHA-384. -/
def hkdfExpand (prk info : Bytes) (n : Nat) : Bytes := (hkdfBlocks prk info ((n + 47) / 48) 1 []).take n

/-- The bytes of a label. -/
def label (s : String) : Bytes := s.toList.map (fun c => BitVec.ofNat 8 c.toNat)

/-- HKDF with a salt of 48 zero bytes. -/
def hkdf (ikm info : Bytes) (n : Nat) : Bytes := hkdfExpand (hkdfExtract (zeros 48) ikm) info n

/-! ## AES -/

/-- Doubling in GF(2^8). -/
def xtime (x : Byte) : Byte := if x.getLsbD 7 then (x <<< 1) ^^^ 0x1B else x <<< 1

/-- Product in GF(2^8), by the bits of the second factor. -/
def gmulBits : Nat → Byte → Byte → Byte
  | 0, _, _ => 0
  | n + 1, x, y => (if y.getLsbD 0 then x else 0) ^^^ gmulBits n (xtime x) (y >>> 1)

/-- Product in GF(2^8). -/
def gmul (x y : Byte) : Byte := gmulBits 8 x y

/-- The inverse in GF(2^8), x^254; 0 for 0. -/
def ginv (x : Byte) : Byte :=
  let x2 := gmul x x
  let x4 := gmul x2 x2
  let x8 := gmul x4 x4
  let x16 := gmul x8 x8
  let x32 := gmul x16 x16
  let x64 := gmul x32 x32
  let x128 := gmul x64 x64
  gmul x2 (gmul x4 (gmul x8 (gmul x16 (gmul x32 (gmul x64 x128)))))

/-- The S-box. -/
def sbox (x : Byte) : Byte :=
  let i := ginv x
  i ^^^ i.rotateLeft 1 ^^^ i.rotateLeft 2 ^^^ i.rotateLeft 3 ^^^ i.rotateLeft 4 ^^^ 0x63

/-- The inverse S-box. -/
def invSbox (y : Byte) : Byte := ginv (y.rotateLeft 1 ^^^ y.rotateLeft 3 ^^^ y.rotateLeft 6 ^^^ 0x05)

/-- Exclusive or of two strings, as long as the shorter. -/
def xorBytes (a b : Bytes) : Bytes := List.zipWith (· ^^^ ·) a b

/-- Extend the key schedule, newest word first, by `n` words from word i on; `nk` words of key. -/
def keyExtend (nk : Nat) : Nat → Nat → Byte → List Bytes → List Bytes
  | 0, _, _, w => w
  | n + 1, i, rc, w =>
    let t := w.headD []
    let r := if i % nk = 0 then xorBytes ((t.drop 1 ++ t.take 1).map sbox) [rc, 0, 0, 0]
      else if nk = 8 ∧ i % nk = 4 then t.map sbox else t
    keyExtend nk n (i + 1) (if i % nk = 0 then xtime rc else rc) (xorBytes (w.getD (nk - 1) []) r :: w)

/-- The round keys of a key of 16 or 32 bytes. -/
def aesKeys (key : Bytes) : List Bytes :=
  let nk := key.length / 4
  (pieces 16 ((keyExtend nk (4 * (nk + 7) - nk) nk 1 (pieces 4 key).reverse).reverse.flatten))

/-- Shift the rows of a state by a step per row. -/
def shiftRows (k : Nat) (s : Bytes) : Bytes := (List.range 16).map (fun i => s.getD ((i + k * (i % 4)) % 16) 0)

/-- Multiply the columns by a circulant matrix. -/
def mixColumns (m0 m1 m2 m3 : Byte) (s : Bytes) : Bytes :=
  (List.range 16).map (fun i =>
    let b := fun j => s.getD (4 * (i / 4) + (i + j) % 4) 0
    gmul m0 (b 0) ^^^ gmul m1 (b 1) ^^^ gmul m2 (b 2) ^^^ gmul m3 (b 3))

/-- The rounds of encryption. -/
def aesRounds : List Bytes → Bytes → Bytes
  | [], s => s
  | [k], s => xorBytes (shiftRows 4 (s.map sbox)) k
  | k :: ks, s => aesRounds ks (xorBytes (mixColumns 2 3 1 1 (shiftRows 4 (s.map sbox))) k)

/-- Encrypt a block. -/
def aesEnc (key b : Bytes) : Bytes :=
  match aesKeys key with
  | [] => b
  | k :: ks => aesRounds ks (xorBytes b k)

/-- The rounds of decryption, with the round keys from the last but one back. -/
def aesInvRounds : List Bytes → Bytes → Bytes
  | [], s => s
  | [k], s => xorBytes ((shiftRows 12 s).map invSbox) k
  | k :: ks, s => aesInvRounds ks (mixColumns 14 11 13 9 (xorBytes ((shiftRows 12 s).map invSbox) k))

/-- Decrypt a block. -/
def aesDec (key b : Bytes) : Bytes :=
  match (aesKeys key).reverse with
  | [] => b
  | k :: ks => aesInvRounds ks (xorBytes b k)

/-! ## AES-SIV-CMAC (RFC 5297) -/

/-- Doubling in GF(2^128) of a string of 16 bytes. -/
def dbl (b : Bytes) : Bytes :=
  let n := beNat b * 2
  natBE 16 (if n < 2 ^ 128 then n else (n % 2 ^ 128) ^^^ 0x87)

/-- AES-CMAC. -/
def cmac (key m : Bytes) : Bytes :=
  let k1 := dbl (aesEnc key (zeros 16))
  let n := if m.length = 0 then 0 else (m.length - 1) / 16
  let last := m.drop (16 * n)
  let z := if last.length = 16 then xorBytes last k1 else xorBytes (padTo 16 (last ++ [0x80])) (dbl k1)
  aesEnc key (xorBytes ((pieces 16 (m.take (16 * n))).foldl (fun c b => aesEnc key (xorBytes c b)) (zeros 16)) z)

/-- S2V over the associated strings and the plaintext. -/
def s2v (key : Bytes) (ads : List Bytes) (p : Bytes) : Bytes :=
  let d := ads.foldl (fun d a => xorBytes (dbl d) (cmac key a)) (cmac key (zeros 16))
  if 16 ≤ p.length then
    cmac key (p.take (p.length - 16) ++ xorBytes (p.drop (p.length - 16)) d)
  else cmac key (xorBytes (dbl d) (padTo 16 (p ++ [0x80])))

/-- CTR mode from an initial counter block. -/
def ctr (key iv p : Bytes) : Bytes :=
  xorBytes p ((List.range ((p.length + 15) / 16)).flatMap (fun i => aesEnc key (natBE 16 ((beNat iv + i) % 2 ^ 128))))

/-- The counter block of a synthetic IV: bits 63 and 31 cleared. -/
def sivCounter (v : Bytes) : Bytes := natBE 16 (beNat v &&& (2 ^ 128 - 1 - 2 ^ 63 - 2 ^ 31))

/-- Seal: synthetic IV, then ciphertext. The key is a MAC key followed by a CTR key; the nonce is the last associated string. -/
def sivSeal (key : Bytes) (ads : List Bytes) (p : Bytes) : Bytes :=
  let h := key.length / 2
  let v := s2v (key.take h) ads p
  v ++ ctr (key.drop h) (sivCounter v) p

/-- Open: the plaintext, where the synthetic IV verifies. -/
def sivOpen (key : Bytes) (ads : List Bytes) (c : Bytes) : Option Bytes :=
  let h := key.length / 2
  let v := c.take 16
  let p := ctr (key.drop h) (sivCounter v) (c.drop 16)
  if 16 ≤ c.length ∧ s2v (key.take h) ads p = v then some p else none

/-! ## AES-KW (RFC 3394) -/

/-- One pass over the registers: steps t, t + 1, ... -/
def kwPass (key : Bytes) : Nat → Bytes → List Bytes → Bytes × List Bytes
  | _, a, [] => (a, [])
  | t, a, r :: rs =>
    let b := aesEnc key (a ++ r)
    let q := kwPass key (t + 1) (natBE 8 (beNat (b.take 8) ^^^ t)) rs
    (q.1, b.drop 8 :: q.2)

/-- Wrap a string of whole 8-byte blocks. -/
def kwWrap (key p : Bytes) : Bytes :=
  let rs := pieces 8 p
  let q := [0, 1, 2, 3, 4, 5].foldl (fun (q : Bytes × List Bytes) j => kwPass key (rs.length * j + 1) q.1 q.2) (natBE 8 0xA6A6A6A6A6A6A6A6, rs)
  q.1 ++ q.2.flatten

/-- One pass of unwrapping, over the registers from the last back: steps t, t - 1, ... -/
def kwUnpass (key : Bytes) : Nat → Bytes → List Bytes → Bytes × List Bytes
  | _, a, [] => (a, [])
  | t, a, r :: rs =>
    let b := aesDec key (natBE 8 (beNat a ^^^ t) ++ r)
    let q := kwUnpass key (t - 1) (b.take 8) rs
    (q.1, b.drop 8 :: q.2)

/-- Unwrap, where the integrity check passes. -/
def kwUnwrap (key c : Bytes) : Option Bytes :=
  let rs := pieces 8 (c.drop 8)
  let n := rs.length
  let q := [5, 4, 3, 2, 1, 0].foldl (fun (q : Bytes × List Bytes) j => kwUnpass key (n * j + n) q.1 q.2) (c.take 8, rs.reverse)
  if q.1 = natBE 8 0xA6A6A6A6A6A6A6A6 then some q.2.reverse.flatten else none

/-! ## MD5 -/

/-- The constants of MD5: the integer parts of 2^32 |sin(i + 1)|, part 0. -/
def md5K0 : List (BitVec 32) := [
  0xD76AA478, 0xE8C7B756, 0x242070DB, 0xC1BDCEEE, 0xF57C0FAF, 0x4787C62A, 0xA8304613, 0xFD469501,
  0x698098D8, 0x8B44F7AF, 0xFFFF5BB1, 0x895CD7BE, 0x6B901122, 0xFD987193, 0xA679438E, 0x49B40821]

/-- The constants of MD5: the integer parts of 2^32 |sin(i + 1)|, part 1. -/
def md5K1 : List (BitVec 32) := [
  0xF61E2562, 0xC040B340, 0x265E5A51, 0xE9B6C7AA, 0xD62F105D, 0x2441453, 0xD8A1E681, 0xE7D3FBC8,
  0x21E1CDE6, 0xC33707D6, 0xF4D50D87, 0x455A14ED, 0xA9E3E905, 0xFCEFA3F8, 0x676F02D9, 0x8D2A4C8A]

/-- The constants of MD5: the integer parts of 2^32 |sin(i + 1)|, part 2. -/
def md5K2 : List (BitVec 32) := [
  0xFFFA3942, 0x8771F681, 0x6D9D6122, 0xFDE5380C, 0xA4BEEA44, 0x4BDECFA9, 0xF6BB4B60, 0xBEBFBC70,
  0x289B7EC6, 0xEAA127FA, 0xD4EF3085, 0x4881D05, 0xD9D4D039, 0xE6DB99E5, 0x1FA27CF8, 0xC4AC5665]

/-- The constants of MD5: the integer parts of 2^32 |sin(i + 1)|, part 3. -/
def md5K3 : List (BitVec 32) := [
  0xF4292244, 0x432AFF97, 0xAB9423A7, 0xFC93A039, 0x655B59C3, 0x8F0CCC92, 0xFFEFF47D, 0x85845DD1,
  0x6FA87E4F, 0xFE2CE6E0, 0xA3014314, 0x4E0811A1, 0xF7537E82, 0xBD3AF235, 0x2AD7D2BB, 0xEB86D391]

/-- The constants of MD5: the integer parts of 2^32 |sin(i + 1)|. -/
def md5K : List (BitVec 32) := md5K0 ++ md5K1 ++ md5K2 ++ md5K3

/-- The shifts of MD5. -/
def md5Shift (i : Nat) : Nat :=
  ([7, 12, 17, 22, 5, 9, 14, 20, 4, 11, 16, 23, 6, 10, 15, 21] : List Nat).getD (4 * (i / 16) + i % 4) 0

/-- One step of MD5 on (a, b, c, d). -/
def md5Step (m : List (BitVec 32)) (s : BitVec 32 × BitVec 32 × BitVec 32 × BitVec 32) (i : Nat) :
    BitVec 32 × BitVec 32 × BitVec 32 × BitVec 32 :=
  let a := s.1
  let b := s.2.1
  let c := s.2.2.1
  let d := s.2.2.2
  let f := if i < 16 then (b &&& c) ||| (~~~ b &&& d) else if i < 32 then (d &&& b) ||| (~~~ d &&& c)
    else if i < 48 then b ^^^ c ^^^ d else c ^^^ (b ||| ~~~ d)
  let g := if i < 16 then i else if i < 32 then (5 * i + 1) % 16 else if i < 48 then (3 * i + 5) % 16 else 7 * i % 16
  (d, b + (a + f + md5K.getD i 0 + m.getD g 0).rotateLeft (md5Shift i), b, c)

/-- Absorb a block of 64 bytes. -/
def md5Block (h : BitVec 32 × BitVec 32 × BitVec 32 × BitVec 32) (blk : Bytes) : BitVec 32 × BitVec 32 × BitVec 32 × BitVec 32 :=
  let m := (pieces 4 blk).map (fun x => BitVec.ofNat 32 (leNat x))
  let s := (List.range 64).foldl (md5Step m) h
  (h.1 + s.1, h.2.1 + s.2.1, h.2.2.1 + s.2.2.1, h.2.2.2 + s.2.2.2)

/-- MD5. -/
def md5 (b : Bytes) : Bytes :=
  let p := b ++ [0x80] ++ zeros ((119 - b.length % 64) % 64) ++ natLE 8 (8 * b.length)
  let h := (pieces 64 p).foldl md5Block (0x67452301, 0xEFCDAB89, 0x98BADCFE, 0x10325476)
  natLE 4 h.1.toNat ++ natLE 4 h.2.1.toNat ++ natLE 4 h.2.2.1.toNat ++ natLE 4 h.2.2.2.toNat

/-! ## SipHash-2-4 -/

/-- One SipRound on (v0, v1, v2, v3). -/
def sipRound (v : BitVec 64 × BitVec 64 × BitVec 64 × BitVec 64) : BitVec 64 × BitVec 64 × BitVec 64 × BitVec 64 :=
  let a := v.1 + v.2.1
  let b := v.2.1.rotateLeft 13 ^^^ a
  let a := a.rotateLeft 32
  let c := v.2.2.1 + v.2.2.2
  let d := v.2.2.2.rotateLeft 16 ^^^ c
  let a := a + d
  let d := d.rotateLeft 21 ^^^ a
  let c := c + b
  let b := b.rotateLeft 17 ^^^ c
  (a, b, c.rotateLeft 32, d)

/-- Absorb one word. -/
def sipAbsorb (v : BitVec 64 × BitVec 64 × BitVec 64 × BitVec 64) (m : BitVec 64) : BitVec 64 × BitVec 64 × BitVec 64 × BitVec 64 :=
  let w := sipRound (sipRound (v.1, v.2.1, v.2.2.1, v.2.2.2 ^^^ m))
  (w.1 ^^^ m, w.2.1, w.2.2.1, w.2.2.2)

/-- SipHash-2-4 of a string under a key of 128 bits: k0 is the low half. -/
def sipHash (key : Nat) (b : Bytes) : Nat :=
  let k0 := BitVec.ofNat 64 key
  let k1 := BitVec.ofNat 64 (key / 2 ^ 64)
  let v := (k0 ^^^ 0x736F6D6570736575, k1 ^^^ 0x646F72616E646F6D, k0 ^^^ 0x6C7967656E657261, k1 ^^^ 0x7465646279746573)
  let n := b.length / 8
  let v := (pieces 8 (b.take (8 * n))).foldl (fun v x => sipAbsorb v (BitVec.ofNat 64 (leNat x))) v
  let v := sipAbsorb v (BitVec.ofNat 64 (leNat (b.drop (8 * n)) + b.length % 256 * 2 ^ 56))
  let v := sipRound (sipRound (sipRound (sipRound (v.1, v.2.1, v.2.2.1 ^^^ 0xFF, v.2.2.2))))
  (v.1 ^^^ v.2.1 ^^^ v.2.2.1 ^^^ v.2.2.2).toNat

end Sys2Proof.Machine
end

