-- ==== Sys2Proof/Machine/Arith.lean ====
section
/-! DEFINITION. The arithmetic of the PKE (R174, R175): modular powers and inverses, short Weierstrass curves, X25519 (RFC 7748) and Ed25519 (RFC 8032). -/
namespace Sys2Proof.Machine

/-! ## Modular arithmetic -/

/-- Square and multiply over the bits of e, least significant first. -/
def powModBits (m : Nat) : Nat → Nat → Nat → Nat → Nat
  | 0, _, _, r => r
  | n + 1, b, e, r => powModBits m n (b * b % m) (e / 2) (if e % 2 = 1 then r * b % m else r)

/-- b to the power e modulo m. -/
def powMod (b e m : Nat) : Nat := powModBits m (Nat.log2 e + 1) (b % m) e (1 % m)

/-- The extended Euclidean algorithm on (r0, r1) with the coefficients of the first operand. -/
def egcd : Nat → Nat → Nat → Int → Int → Nat × Int
  | 0, r0, _, s0, _ => (r0, s0)
  | n + 1, r0, r1, s0, s1 => if r1 = 0 then (r0, s0) else egcd n r1 (r0 % r1) s1 (s0 - (r0 / r1 : Nat) * s1)

/-- The inverse of a modulo m, where there is one. -/
def invMod (a m : Nat) : Option Nat :=
  let g := egcd (2 * Nat.log2 m + 4) a m 1 0
  if m = 0 then none else if g.1 = 1 then some (g.2 % (m : Int)).toNat else if m = 1 then some 0 else none

/-- a - b modulo m, for b below m. -/
def subMod (a b m : Nat) : Nat := (a + m - b % m) % m

/-- a divided by b modulo a prime. Over a composite modulus of a generic curve the quotient may not exist, and its value is free (assumption log 24). -/
def divMod (a b m : Nat) : Nat :=
  match invMod (b % m) m with
  | some i => a * i % m
  | none => Config.noInverse b m % m

/-! ## Curves y^2 = x^3 + ax + b -/

/-- A curve with its base point, its order and its cofactor. -/
structure Curve where
  p : Nat
  a : Nat
  b : Nat
  gx : Nat
  gy : Nat
  n : Nat
  h : Nat
deriving DecidableEq, Repr

/-- P-256, P-384 and P-521 (FIPS 186-5). -/
def p256 : Curve :=
  { p := 2 ^ 256 - 2 ^ 224 + 2 ^ 192 + 2 ^ 96 - 1, a := 2 ^ 256 - 2 ^ 224 + 2 ^ 192 + 2 ^ 96 - 4
    b := 0x5ac635d8aa3a93e7b3ebbd55769886bc651d06b0cc53b0f63bce3c3e27d2604b
    gx := 0x6b17d1f2e12c4247f8bce6e563a440f277037d812deb33a0f4a13945d898c296
    gy := 0x4fe342e2fe1a7f9b8ee7eb4a7c0f9e162bce33576b315ececbb6406837bf51f5
    n := 0xffffffff00000000ffffffffffffffffbce6faada7179e84f3b9cac2fc632551, h := 1 }

/-- P-384. -/
def p384 : Curve :=
  { p := 2 ^ 384 - 2 ^ 128 - 2 ^ 96 + 2 ^ 32 - 1, a := 2 ^ 384 - 2 ^ 128 - 2 ^ 96 + 2 ^ 32 - 4
    b := 0xb3312fa7e23ee7e4988e056be3f82d19181d9c6efe8141120314088f5013875ac656398d8a2ed19d2a85c8edd3ec2aef
    gx := 0xaa87ca22be8b05378eb1c71ef320ad746e1d3b628ba79b9859f741e082542a385502f25dbf55296c3a545e3872760ab7
    gy := 0x3617de4a96262c6f5d9e98bf9292dc29f8f41dbd289a147ce9da3113b5f0b8c00a60b1ce1d7e819d7a431d7c90ea0e5f
    n := 0xffffffffffffffffffffffffffffffffffffffffffffffffc7634d81f4372ddf581a0db248b0a77aecec196accc52973, h := 1 }

/-- P-521. -/
def p521 : Curve :=
  { p := 2 ^ 521 - 1, a := 2 ^ 521 - 4
    b := 0x0051953eb9618e1c9a1f929a21a0b68540eea2da725b99b315f3b8b489918ef109e156193951ec7e937b1652c0bd3bb1bf073573df883d2c34f1ef451fd46b503f00
    gx := 0x00c6858e06b70404e9cd9e3ecb662395b4429c648139053fb521f828af606b4d3dbaa14b5e77efe75928fe1dc127a2ffa8de3348b3c1856a429bf97e7e31c2e5bd66
    gy := 0x011839296a789a3bc0045c8a5fb42c7d1bd998f54449579b446817afbd17273e662c97ee72995ef42640c550b9013fad0761353c7086a272c24088be94769fd16650
    n := 0x01fffffffffffffffffffffffffffffffffffffffffffffffffffffffffffffffffa51868783bf2f966b7fcc0148f709a5d03bb5c9b8899c47aebb6fb71e91386409, h := 1 }

/-- A point: none is infinity. -/
abbrev Point := Option (Nat × Nat)

/-- Whether a pair of coordinates is a point of the curve: below p, and on it. -/
def Curve.has (c : Curve) (x y : Nat) : Bool :=
  decide (x < c.p) && decide (y < c.p) && decide (y * y % c.p = (x * x * x + c.a * x + c.b) % c.p)

/-- The sum of two points. -/
def Curve.add (c : Curve) (u v : Point) : Point :=
  match u, v with
  | none, q => q
  | q, none => q
  | some (x1, y1), some (x2, y2) =>
    if x1 = x2 ∧ (y1 + y2) % c.p = 0 then none
    else
      let l := if x1 = x2 then divMod (3 * x1 * x1 + c.a) (2 * y1) c.p else divMod (subMod y2 y1 c.p) (subMod x2 x1 c.p) c.p
      let x := (l * l + 2 * c.p - x1 % c.p - x2 % c.p) % c.p
      some (x, subMod (l * subMod x1 x c.p) y1 c.p)

/-- Double and add over the bits of k, least significant first. -/
def Curve.mulBits (c : Curve) : Nat → Nat → Point → Point → Point
  | 0, _, _, r => r
  | n + 1, k, q, r => Curve.mulBits c n (k / 2) (c.add q q) (if k % 2 = 1 then c.add r q else r)

/-- k times a point. -/
def Curve.mul (c : Curve) (k : Nat) (q : Point) : Point := c.mulBits (Nat.log2 k + 1) k q none

/-- The base point. -/
def Curve.g (c : Curve) : Point := some (c.gx, c.gy)

/-- The leftmost bits of a hash of `bits` bits, as ECDSA takes them. -/
def Curve.hashInt (c : Curve) (bits h : Nat) : Nat :=
  let nb := Nat.log2 c.n + 1
  if nb < bits then h / 2 ^ (bits - nb) else h

/-- The signature (r, s) with private scalar d, hash integer z and nonce k; none when r or s is 0. -/
def Curve.sign (c : Curve) (d z k : Nat) : Option (Nat × Nat) :=
  match c.mul k c.g with
  | none => none
  | some (x, _) =>
    let r := x % c.n
    let s := divMod (z + r * d) k c.n
    if r = 0 ∨ s = 0 then none else some (r, s)

/-- Whether (r, s), both from 1 to n - 1, is a signature of z under Q. -/
def Curve.verify (c : Curve) (q : Point) (z r s : Nat) : Bool :=
  let u1 := divMod z s c.n
  let u2 := divMod r s c.n
  match c.add (c.mul u1 c.g) (c.mul u2 q) with
  | none => false
  | some (x, _) => decide (x % c.n = r)

/-! ## X25519 -/

/-- 2^255 - 19. -/
def q25519 : Nat := 2 ^ 255 - 19

/-- One step of the Montgomery ladder on (x2, z2, x3, z3, swap) for bit t of k. -/
def ladderStep (x1 k : Nat) (v : Nat × Nat × Nat × Nat × Nat) (t : Nat) : Nat × Nat × Nat × Nat × Nat :=
  let q := q25519
  let kt := k / 2 ^ t % 2
  let sw := decide (v.2.2.2.2 ≠ kt)
  let x2 := if sw then v.2.2.1 else v.1
  let z2 := if sw then v.2.2.2.1 else v.2.1
  let x3 := if sw then v.1 else v.2.2.1
  let z3 := if sw then v.2.1 else v.2.2.2.1
  let a := (x2 + z2) % q
  let b := subMod x2 z2 q
  let e := subMod (a * a) (b * b) q
  let da := (subMod x3 z3 q) * a % q
  let cb := ((x3 + z3) % q) * b % q
  ((a * a % q) * (b * b % q) % q, e * ((a * a + 121665 * e) % q) % q, ((da + cb) * (da + cb)) % q,
    x1 * (subMod da cb q * subMod da cb q % q) % q, kt)

/-- X25519 of a scalar and a coordinate, both as the 32 bytes of RFC 7748. -/
def x25519 (k u : Bytes) : Bytes :=
  let kn := (leNat k &&& (2 ^ 255 - 8)) % 2 ^ 254 + 2 ^ 254
  let un := leNat u % 2 ^ 255 % q25519
  let v := ((List.range 255).map (254 - ·)).foldl (ladderStep un kn) (1, 0, un, 1, 0)
  let x := if v.2.2.2.2 = 1 then v.2.2.1 else v.1
  let z := if v.2.2.2.2 = 1 then v.2.2.2.1 else v.2.1
  natLE 32 (x * powMod z (q25519 - 2) q25519 % q25519)

/-- The base coordinate 9. -/
def x25519Base : Bytes := natLE 32 9

/-! ## Ed25519 -/

/-- The constant d of the curve. -/
def ed25519d : Nat := divMod (q25519 - 121665) 121666 q25519

/-- The order L of the base point. -/
def ed25519L : Nat := 2 ^ 252 + 27742317777372353535851937790883648493

/-- Recover x from y and its sign. -/
def edRecover (y sign : Nat) : Option Nat :=
  let q := q25519
  let u := subMod (y * y) 1 q
  let v := (ed25519d * (y * y % q) + 1) % q
  let x := u * powMod v 3 q % q * powMod (u * powMod v 7 q) ((q - 5) / 8) q % q
  let ok := fun (x : Nat) => if x = 0 ∧ sign = 1 then none else some (if x % 2 = sign then x else (q - x) % q)
  if v * (x * x % q) % q = u then ok x
  else if v * (x * x % q) % q = (q - u) % q then ok (x * powMod 2 ((q - 1) / 4) q % q)
  else none

/-- Decode a point of 32 bytes. -/
def edDecode (b : Bytes) : Option (Nat × Nat) :=
  let n := leNat b
  let y := n % 2 ^ 255
  if y < q25519 then (edRecover y (n / 2 ^ 255 % 2)).map (fun x => (x, y)) else none

/-- Encode a point. -/
def edEncode (v : Nat × Nat) : Bytes := natLE 32 (v.2 + v.1 % 2 * 2 ^ 255)

/-- The sum of two points. -/
def edAdd (u v : Nat × Nat) : Nat × Nat :=
  let q := q25519
  let t := ed25519d * (u.1 * v.1 % q) % q * (u.2 * v.2 % q) % q
  (divMod (u.1 * v.2 + v.1 * u.2) (1 + t) q, divMod (u.2 * v.2 + u.1 * v.1) (1 + q - t) q)

/-- Double and add. -/
def edMulBits : Nat → Nat → Nat × Nat → Nat × Nat → Nat × Nat
  | 0, _, _, r => r
  | n + 1, k, v, r => edMulBits n (k / 2) (edAdd v v) (if k % 2 = 1 then edAdd r v else r)

/-- k times a point. -/
def edMul (k : Nat) (v : Nat × Nat) : Nat × Nat := edMulBits (Nat.log2 k + 1) k v (0, 1)

/-- The base point, with y = 4/5. -/
def edBase : Nat × Nat :=
  let y := divMod 4 5 q25519
  ((edRecover y 0).getD 0, y)

/-- The secret scalar of a seed, and the prefix. -/
def edSecret (seed : Bytes) : Nat × Bytes :=
  let h := sha512 seed
  ((leNat (h.take 32) &&& (2 ^ 255 - 8)) % 2 ^ 254 + 2 ^ 254, h.drop 32)

/-- The public key of a seed. -/
def edPublic (seed : Bytes) : Bytes := edEncode (edMul (edSecret seed).1 edBase)

/-- The signature R followed by S. -/
def edSign (seed msg : Bytes) : Bytes :=
  let a := edSecret seed
  let r := leNat (sha512 (a.2 ++ msg)) % ed25519L
  let rb := edEncode (edMul r edBase)
  let k := leNat (sha512 (rb ++ edPublic seed ++ msg)) % ed25519L
  rb ++ natLE 32 ((r + k * a.1) % ed25519L)

/-- The cofactorless equation for decoded A and R (R175). -/
def edVerify (a r : Nat × Nat) (ab rb msg : Bytes) (s : Nat) : Bool :=
  let k := leNat (sha512 (rb ++ ab ++ msg)) % ed25519L
  decide (edMul s edBase = edAdd r (edMul k a))

end Sys2Proof.Machine
end

