-- ==== Sys2Proof/Machine/Tls.lean ====
section
/-! DEFINITION. TLS 1.3 as R151 names it (RFC 8446): SHA-256, AES-GCM, the key schedule, record protection, and the octets of the server's messages. The spec states no
more of them than the name (assumption log 23). -/
namespace Sys2Proof.Machine

/-! ## SHA-256 (FIPS 180-4) -/

/-- One block's message schedule, newest word first: extend by `n` words. -/
def sha256Schedule : Nat → List (BitVec 32) → List (BitVec 32)
  | 0, w => w
  | n + 1, w =>
    let a := w.getD 1 0
    let b := w.getD 14 0
    let s1 := a.rotateRight 17 ^^^ a.rotateRight 19 ^^^ (a >>> 10)
    let s0 := b.rotateRight 7 ^^^ b.rotateRight 18 ^^^ (b >>> 3)
    sha256Schedule n ((s1 + w.getD 6 0 + s0 + w.getD 15 0) :: w)

/-- One round on the eight working variables, with its constant plus schedule word. -/
def sha256Round (v : List (BitVec 32)) (kw : BitVec 32) : List (BitVec 32) :=
  let x := fun i => v.getD i 0
  let e := x 4
  let a := x 0
  let t1 := x 7 + (e.rotateRight 6 ^^^ e.rotateRight 11 ^^^ e.rotateRight 25) + ((e &&& x 5) ^^^ (~~~ e &&& x 6)) + kw
  let t2 := (a.rotateRight 2 ^^^ a.rotateRight 13 ^^^ a.rotateRight 22) + ((a &&& x 1) ^^^ (a &&& x 2) ^^^ (x 1 &&& x 2))
  [t1 + t2, a, x 1, x 2, x 3 + t1, e, x 5, x 6]

/-- The high half of a word: the constants of SHA-256 are the high halves of those of SHA-512. -/
def highHalf (x : BitVec 64) : BitVec 32 := x.extractLsb' 32 32

/-- Absorb one block of 64 bytes. -/
def sha256Block (h : List (BitVec 32)) (blk : Bytes) : List (BitVec 32) :=
  let w := (pieces 4 blk).map (fun x => BitVec.ofNat 32 (beNat x))
  let ws := (sha256Schedule 48 w.reverse).reverse
  List.zipWith (· + ·) h ((List.zipWith (· + ·) (sha512K.map highHalf) ws).foldl sha256Round h)

/-- SHA-256. -/
def sha256 (b : Bytes) : Bytes :=
  ((pieces 64 (b ++ [0x80] ++ zeros ((119 - b.length % 64) % 64) ++ natBE 8 (8 * b.length))).foldl sha256Block (sha512Init.map highHalf)).flatMap
    (fun x => natBE 4 x.toNat)

/-! ## The hash of a suite, HMAC and HKDF -/

/-- A suite with SHA-384: 0x1302; 0x1301 has SHA-256. -/
def suite384 (suite : Nat) : Bool := decide (suite = 0x1302)

/-- Octets of the suite's hash. -/
def tlsHashLen (suite : Nat) : Nat := if suite384 suite then 48 else 32

/-- The suite's hash. -/
def tlsHash (suite : Nat) (b : Bytes) : Bytes := if suite384 suite then sha384 b else sha256 b

/-- HMAC with SHA-256. -/
def hmac256 (key msg : Bytes) : Bytes :=
  let k := padTo 64 (if 64 < key.length then sha256 key else key)
  sha256 (k.map (· ^^^ 0x5C) ++ sha256 (k.map (· ^^^ 0x36) ++ msg))

/-- HMAC with the suite's hash. -/
def tlsHmac (suite : Nat) (key msg : Bytes) : Bytes := if suite384 suite then hmac384 key msg else hmac256 key msg

/-- The blocks of HKDF-Expand from block i on. -/
def tlsBlocks (suite : Nat) (prk info : Bytes) : Nat → Nat → Bytes → Bytes
  | 0, _, _ => []
  | n + 1, i, t =>
    let u := tlsHmac suite prk (t ++ info ++ natBE 1 i)
    u ++ tlsBlocks suite prk info n (i + 1) u

/-- HKDF-Expand-Label (RFC 8446, 7.1). -/
def tlsExpand (suite : Nat) (secret : Bytes) (name : String) (ctx : Bytes) (n : Nat) : Bytes :=
  let l := label ("tls13 " ++ name)
  (tlsBlocks suite secret (natBE 2 n ++ natBE 1 l.length ++ l ++ natBE 1 ctx.length ++ ctx) (n / tlsHashLen suite + 1) 1 []).take n

/-- Derive-Secret: `hash` is the hash of the messages. -/
def tlsDerive (suite : Nat) (secret : Bytes) (name : String) (hash : Bytes) : Bytes := tlsExpand suite secret name hash (tlsHashLen suite)

/-- The handshake secret, with no pre-shared key. -/
def handshakeSecret (suite : Nat) (shared : Bytes) : Bytes :=
  let z := zeros (tlsHashLen suite)
  tlsHmac suite (tlsDerive suite (tlsHmac suite z z) "derived" (tlsHash suite [])) shared

/-- The master secret. -/
def masterSecret (suite : Nat) (hs : Bytes) : Bytes :=
  tlsHmac suite (tlsDerive suite hs "derived" (tlsHash suite [])) (zeros (tlsHashLen suite))

/-- verify_data of Finished under a traffic secret. -/
def finishedData (suite : Nat) (base hash : Bytes) : Bytes := tlsHmac suite (tlsDerive suite base "finished" []) hash

/-- The exporter (RFC 8446, 7.5). -/
def tlsExport (suite : Nat) (secret : Bytes) (name : String) (ctx : Bytes) (n : Nat) : Bytes :=
  tlsExpand suite (tlsDerive suite secret name (tlsHash suite [])) "exporter" (tlsHash suite ctx) n

/-! ## AES-GCM (SP 800-38D) -/

/-- The product in GF(2^128), bits taken from the most significant on. -/
def ghashMul : Nat → BitVec 128 → BitVec 128 → BitVec 128 → BitVec 128
  | 0, _, _, z => z
  | n + 1, x, v, z =>
    ghashMul n (x <<< 1) (if v.getLsbD 0 then (v >>> 1) ^^^ 0xE1000000000000000000000000000000 else v >>> 1) (if x.getLsbD 127 then z ^^^ v else z)

/-- A string padded with zeros to whole blocks. -/
def padBlocks (b : Bytes) : Bytes := b ++ zeros ((16 - b.length % 16) % 16)

/-- GHASH over associated data and ciphertext. -/
def ghash (h : BitVec 128) (a c : Bytes) : Bytes :=
  natBE 16 ((pieces 16 (padBlocks a ++ padBlocks c ++ natBE 8 (8 * a.length) ++ natBE 8 (8 * c.length))).foldl
    (fun y b => ghashMul 128 (y ^^^ BitVec.ofNat 128 (beNat b)) h 0) 0).toNat

/-- The tag under a key and a nonce of 12 octets. -/
def gcmTag (key iv a c : Bytes) : Bytes :=
  xorBytes (aesEnc key (iv ++ natBE 4 1)) (ghash (BitVec.ofNat 128 (beNat (aesEnc key (zeros 16)))) a c)

/-- Seal: ciphertext, then tag. -/
def gcmSeal (key iv a p : Bytes) : Bytes :=
  let c := ctr key (iv ++ natBE 4 2) p
  c ++ gcmTag key iv a c

/-- Open: the plaintext, where the tag verifies. -/
def gcmOpen (key iv a x : Bytes) : Option Bytes :=
  let c := x.take (x.length - 16)
  if 16 ≤ x.length ∧ gcmTag key iv a c = x.drop (x.length - 16) then some (ctr key (iv ++ natBE 4 2) c) else none

/-! ## Records (RFC 8446, 5) -/

/-- The key of a direction. -/
def TlsDir.key (d : TlsDir) (suite : Nat) : Bytes := tlsExpand suite d.secret "key" [] (if suite384 suite then 32 else 16)

/-- The nonce of the next record of a direction. -/
def TlsDir.nonce (d : TlsDir) (suite : Nat) : Bytes := xorBytes (zeros 4 ++ natBE 8 d.seq) (tlsExpand suite d.secret "iv" [] 12)

/-- The traffic secret that follows (7.2). -/
def TlsDir.next (d : TlsDir) (suite : Nat) : TlsDir := ⟨tlsDerive suite d.secret "traffic upd" [], 0⟩

/-- The head of a record. -/
def tlsHead (kind n : Nat) : Bytes := natBE 1 kind ++ natBE 2 0x0303 ++ natBE 2 n

/-- One record of a direction: clear while the direction has no secret. -/
def TlsDir.record (d : TlsDir) (suite kind : Nat) (b : Bytes) : Bytes × TlsDir :=
  if d.secret = [] then (tlsHead kind b.length ++ b, d)
  else
    let head := tlsHead 23 (b.length + 17)
    (head ++ gcmSeal (d.key suite) (d.nonce suite) head (b ++ natBE 1 kind), { d with seq := d.seq + 1 })

/-- The records of a string of one content type, of at most 16,384 octets each (R151). -/
def TlsDir.records (suite kind : Nat) : List Bytes → TlsDir → Bytes × TlsDir
  | [], d => ([], d)
  | b :: r, d =>
    let x := d.record suite kind b
    let y := TlsDir.records suite kind r x.2
    (x.1 ++ y.1, y.2)

/-- The session by its number. -/
def State.session (s : State) (id : Nat) : Option KeSession := s.ke.sessions.find? (fun x => decide (x.id = id))

/-- Replace a session. -/
def putSession (x : KeSession) (s : State) : State :=
  { s with ke := { s.ke with sessions := s.ke.sessions.map (fun y => if y.id = x.id then x else y) } }

/-- Send octets of a content type on a session, which moves its sending direction on. -/
def tlsSend (x : KeSession) (kind : Nat) (b : Bytes) (s : State) : KeSession × State :=
  let r := TlsDir.records x.suite kind (pieces 16384 b) x.tx
  let y := { x with tx := r.2 }
  (y, putSession y (s.emit (.tls x.id r.1)))

/-! ## Octets with a length before them -/

/-- A string with its length in `n` octets before it. -/
def lenBytes (n : Nat) (b : Bytes) : Bytes := natBE n b.length ++ b

/-- A string whose length stands before it in `n` octets at the front: the string and what follows; none when it is cut short. -/
def takeLen (n : Nat) (b : Bytes) : Option (Bytes × Bytes) :=
  let l := beAt b 0 n
  if n ≤ b.length ∧ n + l ≤ b.length then some (slice b n l, b.drop (n + l)) else none

/-- A list of strings, each with its length in `n` octets before it; none where the list does not end with a string. -/
def takeLens (n : Nat) : Nat → Bytes → Option (List Bytes)
  | 0, b => if b.isEmpty then some [] else none
  | k + 1, b =>
    if b.isEmpty then some []
    else (takeLen n b).bind (fun x => (takeLens n k x.2).map (fun r => x.1 :: r))

/-- A handshake message. -/
def handshake (kind : Nat) (b : Bytes) : Bytes := natBE 1 kind ++ lenBytes 3 b

/-- An extension. -/
def tlsExt (kind : Nat) (b : Bytes) : Bytes := natBE 2 kind ++ lenBytes 2 b

/-- Extensions: type and body of each; none when they are cut short. -/
def takeExts : Nat → Bytes → Option (List (Nat × Bytes))
  | 0, b => if b.isEmpty then some [] else none
  | k + 1, b =>
    if b.isEmpty then some []
    else (takeLen 2 (b.drop 2)).bind (fun x => (takeExts k x.2).map (fun r => (beAt b 0 2, x.1) :: r))

/-! ## ClientHello -/

/-- What the server reads of a ClientHello (R152, R153). -/
structure Hello where
  legacy : Bytes
  suites : List Nat
  alpn : List Bytes
  /-- Groups by the codes of SPU_KE_GRP, and signature schemes by those of SCHEME. -/
  groups : List Nat
  shares : List (Nat × Bytes)
  schemes : List Nat
  early : Bool
deriving DecidableEq, Repr

/-- The numbers of two octets in a string. -/
def words16 (b : Bytes) : List Nat := (pieces 2 b).map beNat

/-- A named group by its code in SPU_KE_GRP: 1 x25519, 2 secp256r1, 3 secp384r1; 0 is none of them. -/
def groupCode (x : Nat) : Nat := if x = 29 then 1 else if x = 23 then 2 else if x = 24 then 3 else 0

/-- The named group of a code. -/
def groupName (g : Nat) : Nat := if g = 1 then 29 else if g = 2 then 23 else 24

/-- A signature scheme by its SCHEME; 8 is none of them. -/
def schemeCode (x : Nat) : Nat := if x = 0x0403 then 0 else if x = 0x0503 then 1 else if x = 0x0807 then 2 else if x = 0x0804 then 3 else 8

/-- The signature scheme of a SCHEME. -/
def schemeName (x : Nat) : Nat := if x = 0 then 0x0403 else if x = 1 then 0x0503 else if x = 2 then 0x0807 else 0x0804

/-- Key shares: group code and key; none when they are cut short. -/
def takeShares : Nat → Bytes → Option (List (Nat × Bytes))
  | 0, b => if b.isEmpty then some [] else none
  | k + 1, b =>
    if b.isEmpty then some []
    else (takeLen 2 (b.drop 2)).bind (fun x => (takeShares k x.2).map (fun r => (groupCode (beAt b 0 2), x.1) :: r))

/-- The body of an extension, empty where it is absent. -/
def extBody (l : List (Nat × Bytes)) (k : Nat) : Bytes := ((l.find? (fun e => decide (e.1 = k))).map (·.2)).getD []

/-- Read the body of a ClientHello, or the alert that it gets: decode_error 50 where it is cut short, illegal_parameter 47 for a compression method, protocol_version 70
where the client does not offer TLS 1.3. -/
def parseHello (b : Bytes) : Except Nat Hello :=
  match takeLen 1 (b.drop 34) with
  | none => .error 50
  | some (legacy, r1) =>
    match takeLen 2 r1 with
    | none => .error 50
    | some (suites, r2) =>
      match takeLen 1 r2 with
      | none => .error 50
      | some (comp, r3) =>
        match takeLen 2 r3 with
        | none => .error (if r3 = [] then 70 else 50)
        | some (exts, rest) =>
          match takeExts exts.length exts with
          | none => .error 50
          | some l =>
            let inner := fun k n => ((takeLen n (extBody l k)).map (·.1)).getD []
            if rest ≠ [] then .error 50
            else if comp ≠ [0] then .error 47
            else if (words16 (inner 43 1)).contains 0x0304 = false then .error 70
            else match takeLens 1 exts.length (inner 16 2), takeShares exts.length (inner 51 2) with
              | some alpn, some shares => .ok {
                  legacy := legacy, suites := words16 suites, alpn := alpn, groups := (words16 (inner 10 2)).map groupCode, shares := shares
                  schemes := (words16 (inner 13 2)).map schemeCode, early := l.any (fun e => decide (e.1 = 42)) }
              | _, _ => .error 50

/-! ## The server's messages -/

/-- The Random of a HelloRetryRequest: SHA-256 of "HelloRetryRequest". -/
def retryRandom : Bytes := sha256 (label "HelloRetryRequest")

/-- A ServerHello, or a HelloRetryRequest, with the body of its key_share. -/
def serverHello (random legacy : Bytes) (suite : Nat) (share : Bytes) : Bytes :=
  handshake 2 (natBE 2 0x0303 ++ random ++ lenBytes 1 legacy ++ natBE 2 suite ++ [0] ++ lenBytes 2 (tlsExt 43 (natBE 2 0x0304) ++ tlsExt 51 share))

/-- EncryptedExtensions with the ALPN "ntske/1". -/
def encryptedExtensions : Bytes := handshake 8 (lenBytes 2 (tlsExt 16 (lenBytes 2 (lenBytes 1 (label "ntske/1")))))

/-- The content that CertificateVerify signs. -/
def verifyContent (hash : Bytes) : Bytes := List.replicate 64 0x20 ++ label "TLS 1.3, server CertificateVerify" ++ [0] ++ hash

/-- An INTEGER of DER, not negative. -/
def derInteger (b : Bytes) : Bytes :=
  let c := b.dropWhile (fun x => decide (x = 0))
  let d := if c = [] ∨ 128 ≤ beAt c 0 1 then 0 :: c else c
  [2] ++ natBE 1 d.length ++ d

/-- r and s of ECDSA as DER. -/
def derSignature (b : Bytes) : Bytes :=
  let h := b.length / 2
  let c := derInteger (b.take h) ++ derInteger (b.drop h)
  [0x30] ++ natBE 1 c.length ++ c

/-- MGF1 with SHA-256 (RFC 8017). -/
def mgf1 (seed : Bytes) (n : Nat) : Bytes := ((List.range ((n + 31) / 32)).flatMap (fun i => sha256 (seed ++ natBE 4 i))).take n

/-- EMSA-PSS with SHA-256 and a salt of 32 octets, for a modulus of `n` octets whose top bit is set. -/
def emsaPss (n : Nat) (msg salt : Bytes) : Bytes :=
  let h := sha256 (zeros 8 ++ sha256 msg ++ salt)
  let db := zeros (n - 66) ++ [1] ++ salt
  let x := xorBytes db (mgf1 h (n - 33))
  (x.headD 0 &&& 0x7F) :: x.tail ++ h ++ [0xBC]

end Sys2Proof.Machine
end

