-- ==== Sys2Proof/Machine/Keys.lean ====
section
/-! DEFINITION. The key store's slots and blobs (R183-R192), and the NTS root and epoch keys (R144-R148). -/
namespace Sys2Proof.Machine

/-! ## Draws from the deterministic generator -/

/-- Draw `n` bytes. -/
def State.drawBytes (s : State) (n : Nat) : Bytes × State :=
  let r := s.draw (8 * n)
  (natBE n r.1, r.2)

/-- Draw a scalar from 1 to n - 1, with 64 extra bits (FIPS 186-5). -/
def State.drawScalar (s : State) (n : Nat) : Nat × State :=
  let r := s.draw (Nat.log2 n + 65)
  (1 + r.1 % (n - 1), r.2)

/-- The entropy source has failed (R169). -/
def rngFailed (s : State) : Bool := s.on F.CRL_NTS_STAT_NORNG

/-- Power domain n is on. -/
def domainOn (s : State) (n : Nat) : Bool := s.bit A.SYS_PWR_STAT n

/-! ## Epoch keys (R144-R148) -/

/-- The epoch period P in s (R145). -/
def epochPeriod (s : State) : Nat := s.get F.CRL_NTS_CFG_PERIOD * 3600

/-- The epoch number of an instant (R145). -/
def epochOf (s : State) (t : Instant) : Nat := instSec t / epochPeriod s % 2 ^ 32

/-- The pseudo-random key of a root key (R145). -/
def rootPrk (root : Bytes) : Bytes := hkdfExtract (zeros 48) root

/-- The epoch key Ke for root key and period (R145). -/
def epochKey (r : Bytes × Nat) (e : Nat) : Bytes :=
  hkdfExpand (rootPrk r.1) (label "FX4860 NTS epoch" ++ natBE 4 r.2 ++ natBE 4 e) 32

/-- The key check value (R148). -/
def keyCheck (root : Bytes) : Nat := beNat (hkdfExpand (rootPrk root) (label "FX4860 NTS KCV") 8)

/-- The slot's content as a root key: TYPE 1 with NTSROOT (R144, R183, R191). -/
def rootKey (s : State) : Option Bytes :=
  match s.pke.slots.get (s.get F.CRL_NTS_CFG_ROOTSLOT) with
  | some k => if k.typ = 1 ∧ k.usage.testBit 2 = true then some k.secret else none
  | none => none

/-- The epochs whose keys are held at an instant: e - 2 to e, and e + 1 in the last 60 s (R145). -/
def heldEpochs (s : State) (t : Instant) : List Nat :=
  let e := epochOf s t
  let l := [(e + 2 ^ 32 - 2) % 2 ^ 32, (e + 2 ^ 32 - 1) % 2 ^ 32, e]
  if epochPeriod s ≤ instSec t % epochPeriod s + 60 then l ++ [(e + 1) % 2 ^ 32] else l

/-- Show the root key's presence and its check value. -/
def showRoot (s : State) : State :=
  let v := match s.crl.root with | some r => keyCheck r.1 | none => 0
  ((s.setB F.CRL_NTS_STAT_ROOTOK s.crl.root.isSome).wr A.CRL_NTS_KCV_W1 (BitVec.ofNat 32 (v / 2 ^ 32))).wr A.CRL_NTS_KCV_W0 (BitVec.ofNat 32 v)

/-- Put the keys of the present root slot and period in force. -/
def crlDerive (s : State) : State :=
  let r := (rootKey s).map (fun k => (k, epochPeriod s))
  showRoot { s with crl := { s.crl with
    root := r, last := if r.isSome then r else s.crl.last, held := if r.isSome then heldEpochs s s.datum else [] } }

/-- Derive every epoch key again and compare with the last derived (R147). -/
def crlRekey (s : State) : State :=
  let old := s.crl.last
  let s := crlDerive s
  if s.crl.root.isSome ∧ old.isSome ∧ s.crl.root ≠ old then
    record 0x3002 0 0 0 0 (irqSet 15 A.CRL_NTS_IRQ_STAT 2 s)
  else s

/-! ## Slots (R183, R190, R191) -/

/-- The words of a fast-path curve by key type. -/
def typeCurve (typ : Nat) : Option (Curve × Nat) :=
  match typ with
  | 2 => some (p256, 4)
  | 3 => some (p384, 6)
  | 4 => some (p521, 9)
  | _ => none

/-- The length in bits that a type fixes (KST_SLOTn_INFO); 0 where it varies. -/
def typeBits (typ : Nat) : Nat :=
  match typ with
  | 1 | 2 | 5 | 6 => 256
  | 3 => 384
  | 4 => 521
  | _ => 0

/-- Whether TYPE and length belong together (R183, R174). -/
def keyShape (typ bits : Nat) : Bool :=
  match typ with
  | 1 | 2 | 3 | 4 | 5 | 6 => decide (bits = typeBits typ)
  | 7 => decide (1024 ≤ bits) && decide (bits ≤ 16384) && decide (bits % 128 = 0)
  | 8 => decide (1 ≤ bits) && decide (bits ≤ 640)
  | _ => false

/-- Words of a value of `bits` bits. -/
def bitWords (bits : Nat) : Nat := (bits + 63) / 64

/-- The length of the key material in bytes: an RSA key is n, e, p, q, dp, dq, qinv, and a generic-curve key is its curve parameters and d, in
the order and encoding of R174 and R175 (assumption log 25). -/
def materialLen (typ bits : Nat) : Nat :=
  match typ with
  | 1 | 2 | 5 | 6 => 32
  | 3 => 48
  | 4 => 72
  | 7 => 28 * (bits / 64) + 8
  | _ => 56 * bitWords bits + 8

/-- A point as x followed by y, each of w words; infinity as zeros (R174). -/
def pointBytes (w : Nat) (q : Point) : Bytes :=
  match q with
  | some (x, y) => natBE (8 * w) x ++ natBE (8 * w) y
  | none => zeros (16 * w)

/-- The parameters of a generic curve of w words (R174). -/
def readCurve (w : Nat) (b : Bytes) : Curve :=
  let f := fun i => beAt b (8 * w * i) (8 * w)
  ⟨f 0, f 1, f 2, f 3, f 4, f 5, beAt b (48 * w) 8⟩

/-- The public half of a key (R183). -/
def publicHalf (typ bits : Nat) (m : Bytes) : Bytes :=
  match typ with
  | 2 | 3 | 4 =>
    match typeCurve typ with
    | some (c, w) => pointBytes w (c.mul (beNat m) c.g)
    | none => []
  | 5 => x25519 m x25519Base
  | 6 => edPublic m
  | 7 => m.take (8 * (bits / 64) + 8)
  | 8 =>
    let w := bitWords bits
    let c := readCurve w m
    pointBytes w (c.mul (beNat (m.drop (48 * w + 8))) c.g) ++ m.take (48 * w + 8)
  | _ => []

/-- Show a slot and the number of occupied slots. -/
def showSlot (n : Nat) (s : State) : State :=
  let s := match s.pke.slots.get n with
    | some k => s.wr (A.KST_SLOT_INFO n) (BitVec.ofNat 32
        (k.origin % 4 * 2 ^ 28 + k.typ % 16 * 2 ^ 24 + k.usage % 16 * 2 ^ 16 + k.bits % 2 ^ 15))
    | none => s.wr (A.KST_SLOT_INFO n) 0
  s.set F.KST_STAT_USED s.pke.slots.length

/-- Fill or empty a slot, with nothing recorded. -/
def storeSlot (n : Nat) (k : Option KeySlot) (s : State) : State :=
  let m := match k with | some k => s.pke.slots.put n k | none => s.pke.slots.del n
  showSlot n { s with pke := { s.pke with slots := m } }

/-- The record of a slot change (R190, R455): code 0x3C02 to 0x3C04, requester 0 boot, 1 service processors, 2 + k host ring D24 + k. -/
def recordSlot (code n : Nat) (k : KeySlot) (requester : Nat) (s : State) : State :=
  record code n (k.typ % 256 + k.usage % 256 * 256 + k.origin % 4 * 2 ^ 16) requester 0 s

/-- A change of the root slot re-keys (R191). -/
def slotChanged (n : Nat) (s : State) : State := if n = s.get F.CRL_NTS_CFG_ROOTSLOT then crlRekey s else s

/-- Fill an empty slot (R190). -/
def fillSlot (code n : Nat) (k : KeySlot) (requester : Nat) (s : State) : State :=
  slotChanged n (recordSlot code n k requester (storeSlot n (some k) s))

/-- An enabled certificate entry whose slot is erased is disabled until the next BOOT (R191). -/
def certSlotErased (n : Nat) (s : State) : State :=
  ([0, 1, 2, 3] : List Nat).foldl (fun s i =>
    if s.on (F.SPU_KE_CERT_EN i) && decide (s.get (F.SPU_KE_CERT_KEYSLOT i) = n) && s.bit A.SPU_KE_STAT (24 + i) then
      record 0x4001 0 0 0 0 (s.clrBit A.SPU_KE_STAT (24 + i))
    else s) s

/-- Empty an occupied slot (R190, R191). -/
def eraseSlot (n : Nat) (requester : Nat) (s : State) : State :=
  match s.pke.slots.get n with
  | none => s
  | some k => certSlotErased n (slotChanged n (recordSlot 0x3C04 n k requester (storeSlot n none s)))

/-! ## Derived keys and blobs (R185-R187) -/

/-- A key derived from the device-unique key for slots 510 and 511 (R185). -/
def deviceScalar (l : String) : Nat := 1 + beNat (hkdf Config.deviceKey (label l) 56) % (p384.n - 1)

/-- The content of a reserved slot. -/
def reservedSlot (n : Nat) (l : String) : KeySlot :=
  let m := natBE 48 (deviceScalar l)
  ⟨3, Config.reservedUsage n % 16, 384, 3, m, publicHalf 3 384 m⟩

/-- The key that wraps form D blobs (R186). -/
def wrapKey : Bytes := hkdf Config.deviceKey (label "FX4860 KST wrap") 32

/-- The clear header of a blob (R186). -/
def blobHeader (form : Nat) (k : KeySlot) : Bytes :=
  natBE 2 form ++ natBE 1 k.typ ++ natBE 1 k.usage ++ natBE 2 k.bits ++ natBE 1 k.origin ++ [0]

/-- The form D blob of a key (R186). -/
def blobD (k : KeySlot) : Bytes :=
  let h := blobHeader 1 k
  h ++ zeros 8 ++ kwWrap wrapKey (h ++ k.secret)

/-- The length of a form D blob. -/
def blobDLen (typ bits : Nat) : Nat := materialLen typ bits + 32

/-- The transport key's wrap for a form T blob: HKDF of the shared x-coordinate (R186); none for a public key that is no point. -/
def transportKey (hdr pub : Bytes) : Option Bytes :=
  let x := beAt pub 0 48
  let y := beAt pub 48 48
  if p384.has x y then
    match p384.mul (deviceScalar "FX4860 transport") (some (x, y)) with
    | some (sx, _) => some (hkdf (natBE 48 sx) (label "FX4860 KST transport" ++ hdr) 32)
    | none => none
  else none

/-- Open a blob (R186, R187): the key it carries, where its header names a form and a key that belong together, the integrity check passes and the wrapped header equals
the clear one. -/
def openBlob (b : Bytes) : Option KeySlot :=
  let hdr := b.take 8
  let typ := beAt b 2 1
  let bits := beAt b 4 2
  let form := beAt b 0 2
  let n := 16 + materialLen typ bits
  let p := if form = 1 then kwUnwrap wrapKey (slice b 16 n)
    else if form = 2 then
      match transportKey hdr (slice b 16 96) with
      | some k => kwUnwrap k (slice b 112 n)
      | none => none
    else none
  match p with
  | some q =>
    if q.take 8 = hdr ∧ beAt b 7 1 = 0 ∧ keyShape typ bits = true then
      some ⟨typ, beAt b 3 1, bits, if form = 2 then 1 else beAt b 6 1, q.drop 8, publicHalf typ bits (q.drop 8)⟩
    else none
  | none => none

/-- Bytes of a blob by its clear header; 0 where the header names no form or no key (R186). -/
def blobLen (b : Bytes) : Nat :=
  let typ := beAt b 2 1
  let bits := beAt b 4 2
  if keyShape typ bits then
    if beAt b 0 2 = 1 then blobDLen typ bits else if beAt b 0 2 = 2 then blobDLen typ bits + 96 else 0
  else 0

/-- Draw a key of a type that KS_GENERATE supports (R189), with its public half. -/
def drawKey (typ usage origin : Nat) (s : State) : KeySlot × State :=
  match typeCurve typ with
  | some (c, w) =>
    let r := s.drawScalar c.n
    let m := natBE (8 * w) r.1
    (⟨typ, usage, typeBits typ, origin, m, publicHalf typ (typeBits typ) m⟩, r.2)
  | none =>
    let r := s.drawBytes 32
    (⟨typ, usage, 256, origin, r.1, publicHalf typ 256 r.1⟩, r.2)

/-! ## Key-establishment sessions and seals: what an operation's end does to its owner (R151, R157, R181, R390) -/

/-- A counter of R171. -/
def keCount (k amt : Nat) (s : State) : State := s.add64 (A.SPU_KE_CNT_W0 k) amt

/-- Show the number of open sessions. -/
def showSessions (s : State) : State := s.set F.SPU_KE_STAT_SESSIONS s.ke.sessions.length

/-- Whether a TCP segment is a SYN that opens a connection. -/
def isSyn (i : PlItem) : Bool :=
  match parseIp (parseEth i.bytes) i.bytes with
  | some x => decide (beAt x.payload 13 1 % 32 / 16 = 0 ∧ beAt x.payload 13 1 % 4 / 2 = 1)
  | none => false

/-- The address and the port that a TCP segment comes from. -/
def segmentPeer (i : PlItem) : Nat × Nat :=
  match parseIp (parseEth i.bytes) i.bytes with
  | some x => (x.src, x.sport)
  | none => (0, 0)

/-- Whether a segment on a service address belongs to the connection of a session. -/
def KeSession.owns (x : KeSession) (sa : Nat) (i : PlItem) : Bool := decide (x.sa = sa ∧ x.peer = segmentPeer i)

/-- A pipeline passes a TCP segment for port 4460 to the service processors (R23, R76), which keep one that opens a connection or belongs to one. -/
def segmentDeliver (sa : Nat) (i : PlItem) (s : State) : State :=
  let s := pmcEvent 7 0x06 0 1 s
  if isSyn i || s.ke.sessions.any (fun x => x.owns sa i) then { s with ke := { s.ke with segments := s.ke.segments ++ [(sa, i)] } } else s

/-- Remove a session: its state is scrubbed and freed (R156), with what waits of its connection. -/
def dropSession (id : Nat) (s : State) : State :=
  let mine := fun (e : Nat × PlItem) => !(isSyn e.2) && s.ke.sessions.any (fun x => decide (x.id = id) && x.owns e.1 e.2)
  showSessions { s with ke := { s.ke with
    sessions := s.ke.sessions.filter (fun x => decide (x.id ≠ id)), segments := s.ke.segments.filter (fun e => !(mine e))
    sealing := s.ke.sealing.filter (fun i => decide (i ≠ id)) } }

/-- End a session with a TLS alert, which closes the connection (R153). -/
def keAlert (id code : Nat) (s : State) : State :=
  match s.session id with
  | none => s
  | some x => dropSession id (keCount 3 1 (tlsSend x 21 [2, BitVec.ofNat 8 code] s).2)

/-- What the service processors learn of the signature of a seal: empty when none was made. -/
def sealReady (seg : Nat) (sig : Bytes) (s : State) : State :=
  { s with fbk := { s.fbk with sigs := s.fbk.sigs.put seg sig } }

/-- An operation of the service processors ended ABORTED: a session ends with the alert internal_error (R157), and a seal stays unsigned. -/
def ownerAborted (o : PkeOwner) (s : State) : State :=
  match o with
  | .session id => keAlert id 80 s
  | .seal seg => sealReady seg [] s
  | .host _ _ => s

end Sys2Proof.Machine
end

