-- ==== Sys2Proof/Machine/Pke.lean ====
section
/-! DEFINITION. The big-number engine: command blocks, dispatch checks, the operations of R175 with the statuses of R178 to R180, durations, aborts (R172-R193). -/
namespace Sys2Proof.Machine

/-! ## Command blocks (R174) -/

/-- The header of a command block. Its multi-byte fields are little-endian, as the host's structures are (assumption log 25). -/
structure CmdHead where
  op : Nat
  curve : Nat
  len : Nat
  slot : Nat
  keysrc : Bool
  store : Bool
  xarg : Nat
  /-- Every reserved bit is zero. -/
  clean : Bool
deriving DecidableEq, Repr

/-- Read the header. -/
def cmdHead (b : Bytes) : CmdHead :=
  let fl := leAt b 6 1
  { op := leAt b 0 1, curve := leAt b 1 1, len := leAt b 2 2, slot := leAt b 4 2, keysrc := fl.testBit 0, store := fl.testBit 1,
    xarg := leAt b 8 4, clean := decide (fl < 4) && decide (leAt b 7 1 = 0) && decide (leAt b 12 4 = 0) }

/-- Operand bytes from an offset behind the header. -/
def opnd (b : Bytes) (o n : Nat) : Bytes := slice b (16 + o) n

/-- An operand as a number. -/
def opndNat (b : Bytes) (o n : Nat) : Nat := beNat (opnd b o n)

/-- Operations that may take a private key from a slot (KEYSRC). -/
def takesKey (op : Nat) : Bool := decide (op = 0x08 ∨ op = 0x13 ∨ op = 0x14 ∨ op = 0x18 ∨ op = 0x1B)

/-- Operations that may write a generated key to a slot (STORE). -/
def storesKey (op : Nat) : Bool := decide (op = 0x12 ∨ op = 0x19 ∨ op = 0x1A)

/-- The private key comes from SLOT. -/
def CmdHead.fromSlot (h : CmdHead) : Bool := h.keysrc && takesKey h.op

/-- The generated key goes to SLOT. -/
def CmdHead.toSlot (h : CmdHead) : Bool := h.store && storesKey h.op

/-- Whether the command names SLOT. -/
def CmdHead.namesSlot (h : CmdHead) : Bool := h.fromSlot || h.toSlot || decide (0x30 ≤ h.op)

/-- CURVE is allowed for OPCODE, which is known (R175). -/
def curveOk (op curve : Nat) : Bool :=
  if 1 ≤ op ∧ op ≤ 8 then decide (curve = 0)
  else if 0x10 ≤ op ∧ op ≤ 0x15 then decide (curve = 1 ∨ curve = 2 ∨ curve = 3 ∨ curve = 15)
  else if op = 0x18 ∨ op = 0x19 then decide (curve = 4)
  else if op = 0x1A ∨ op = 0x1B ∨ op = 0x1C then decide (curve = 5)
  else if 0x30 ≤ op ∧ op ≤ 0x34 then decide (curve = 0)
  else false

/-- LEN is in its range (R174, R175). The key store operations have no operand of LEN words and ignore it. -/
def lenOk (h : CmdHead) : Bool :=
  if 0x30 ≤ h.op then true
  else if h.op = 8 then decide (16 ≤ h.len) && decide (h.len ≤ 256) && decide (h.len % 2 = 0)
  else if h.op < 8 then decide (1 ≤ h.len) && decide (h.len ≤ 256)
  else match h.curve with
    | 1 | 4 | 5 => decide (h.len = 4)
    | 2 => decide (h.len = 6)
    | 3 => decide (h.len = 9)
    | _ => decide (1 ≤ h.len) && decide (h.len ≤ 10)

/-- XARG is in its range (R174). -/
def xargOk (h : CmdHead) : Bool :=
  if h.op = 0x1B ∨ h.op = 0x1C then decide (h.xarg ≤ 1024)
  else if h.op = 0x31 then decide (h.xarg < 4096) && decide (1 ≤ h.xarg % 256) && decide (h.xarg % 256 ≤ 8)
  else decide (h.xarg = 0)

/-- Bytes of the curve parameters that stand before the operands: those of a generic curve whose key is not in a slot (R174). -/
def paramLen (h : CmdHead) : Nat := if h.curve = 15 ∧ h.fromSlot = false then 48 * h.len + 8 else 0

/-- Bytes of the operands (R175). -/
def operandLen (h : CmdHead) (b : Bytes) : Nat :=
  let w := 8 * h.len
  paramLen h + match h.op with
  | 0x01 | 0x02 | 0x03 | 0x04 | 0x05 => 3 * w
  | 0x06 => 2 * w
  | 0x07 => 2 * w + 8
  | 0x08 => if h.fromSlot then w else 36 * h.len + 8
  | 0x10 => 2 * w
  | 0x11 => 3 * w
  | 0x13 => if h.fromSlot then 2 * w else 3 * w
  | 0x14 => if h.fromSlot then w else 2 * w
  | 0x15 => 5 * w
  | 0x18 => if h.fromSlot then 32 else 64
  | 0x1B => (if h.fromSlot then 0 else 32) + h.xarg
  | 0x1C => 96 + h.xarg
  | 0x30 => if blobLen (b.drop 16) = 0 then 8 else blobLen (b.drop 16)
  | 0x33 => 32
  | _ => 0

/-- Bytes of the result of OK (R175). -/
def resultLen (h : CmdHead) (b : Bytes) (key : Option KeySlot) : Nat :=
  let w := 8 * h.len
  let pub := match key with | some k => k.pub.length | none => 0
  match h.op with
  | 0x01 | 0x02 | 0x03 | 0x04 | 0x05 | 0x06 | 0x07 | 0x08 | 0x13 => w
  | 0x11 | 0x14 => 2 * w
  | 0x12 => if h.store then 2 * w else 3 * w
  | 0x18 => 32
  | 0x19 | 0x1A => if h.store then 32 else 64
  | 0x1B => 64
  | 0x30 => if beAt b 16 2 = 2 ∧ blobLen (b.drop 16) ≠ 0 then blobDLen (beAt b 18 1) (beAt b 20 2) else 0
  | 0x31 =>
    let t := h.xarg % 256
    (match typeCurve t with | some (_, v) => 16 * v | none => if t = 1 then 0 else 32) + blobDLen t (typeBits t)
  | 0x32 => pub + (if h.slot = 511 then Config.attestChain.length else 0)
  | 0x33 => 161 + pub
  | _ => 0

/-- The key type that an operation with a slot's secret wants, and its usage bit (R183). -/
def keyWanted (h : CmdHead) : Nat × Nat :=
  let ec := match h.curve with | 1 => 2 | 2 => 3 | 3 => 4 | _ => 8
  match h.op with
  | 0x08 => (7, 0)
  | 0x13 => (ec, 1)
  | 0x14 => (ec, 0)
  | 0x18 => (5, 1)
  | _ => (6, 0)

/-- Operations that need the deterministic generator. -/
def needsRng (op : Nat) : Bool :=
  decide (op = 0x08 ∨ op = 0x12 ∨ op = 0x14 ∨ op = 0x19 ∨ op = 0x1A ∨ op = 0x31 ∨ op = 0x33)

/-- Whether USAGE and type deny the operation (R183, R185, R189). -/
def usageDenied (h : CmdHead) (b : Bytes) (host : Bool) (key : Option KeySlot) : Bool :=
  let wanted := keyWanted h
  (h.fromSlot && (match key with
    | some k => !(decide (k.typ = wanted.1)) || !(k.usage.testBit wanted.2) || (host && !(k.usage.testBit 3))
    | none => false))
  || (decide (h.op = 0x32 ∨ h.op = 0x33) && (match key with | some k => decide (k.typ = 1) | none => false))
  || (decide (h.op = 0x31) && (decide (7 ≤ h.xarg % 256) || ((h.xarg / 256).testBit 2 && decide (h.xarg % 256 ≠ 1))))
  || (decide (h.op = 0x30) && (beAt b 19 1).testBit 2 && decide (beAt b 18 1 ≠ 1))

/-- The dispatch checks (R178), in the order of the codes but for the reserved slots of R185; 0 is admitted. A blob whose header names no form, or no key of its length, has
the 8 bytes of a header as its operand: its import fails its integrity check on a core (R186). -/
def dispatchStatus (s : State) (host : Bool) (b : Bytes) (resLen : Nat) : Nat :=
  let h := cmdHead b
  let key := s.pke.slots.get h.slot
  let keyLen := match key with | some k => bitWords k.bits | none => h.len
  if b.length < 16 ∧ 1 ≤ b.length ∧ curveOk h.op h.curve = true then 0x11
  else if curveOk h.op h.curve = false ∨ h.clean = false ∨ 511 < h.slot then 0x10
  else if lenOk h = false ∨ xargOk h = false ∨ b.length < 16 + operandLen h b then 0x11
  else if h.fromSlot = true ∧ (h.op = 0x08 ∨ h.curve = 15) ∧ (key.any (fun k => decide (k.typ = (keyWanted h).1))) = true ∧ keyLen ≠ h.len then 0x11
  else if resLen < resultLen h b key then 0x12
  else if h.namesSlot = true ∧ 510 ≤ h.slot ∧ h.op ≠ 0x32 ∧ h.op ≠ 0x33 then 0x15
  else if (h.fromSlot = true ∨ h.op = 0x32 ∨ h.op = 0x33 ∨ h.op = 0x34) ∧ key = none then 0x13
  else if (h.toSlot = true ∨ h.op = 0x30 ∨ h.op = 0x31) ∧ key ≠ none then 0x14
  else if usageDenied h b host key then 0x15
  else if needsRng h.op = true ∧ rngFailed s = true then 0x17
  else if domainOn s 9 = false ∨ s.get F.PKE_ISOL_ISOL = 0xFFFF then 0x18
  else 0

/-! ## Values (R179, R180) -/

/-- A status with its result. -/
abbrev Outcome2 := Nat × Bytes

/-- Whether an odd number above 1 passes the Miller-Rabin test to a base: with n - 1 = 2^k m for odd m, base^m is 1, or one of its first k squarings is n - 1. -/
def rabinPass (n base : Nat) : Bool :=
  let k := ((List.range (Nat.log2 n + 1)).takeWhile (fun i => decide ((n - 1) % 2 ^ (i + 1) = 0))).length
  let x := powMod base ((n - 1) / 2 ^ k) n
  decide (base % n = 0) || decide (x = 1) || (List.range k).any (fun i => decide (powMod x (2 ^ i) n = n - 1))

/-- Whether a number is taken as prime: it passes the test to the first 40 primes as bases (assumption log 92). -/
def takenPrime (n : Nat) : Bool :=
  decide (1 < n) && decide (n % 2 = 1) && ([2, 3, 5, 7, 11, 13, 17, 19, 23, 29, 31, 37, 41, 43, 47, 53, 59, 61, 67, 71, 73, 79, 83, 89, 97, 101, 103, 107, 109, 113, 127,
    131, 137, 139, 149, 151, 157, 163, 167, 173] : List Nat).all (rabinPass n)

/-- Whether the base point has order n: n of it is infinity, and no smaller multiple is. A prime n has no proper divisor but 1 to try. -/
def Curve.hasOrder (c : Curve) : Bool :=
  decide (c.mul c.n c.g = none)
    && (takenPrime c.n || ((List.range c.n).drop 1).all (fun d => decide (c.n % d ≠ 0) || decide (c.mul d c.g ≠ none)))

/-- The curve of a command, with what its parameters say (check 1 of R179): 0 where they pass. -/
def curveOf (h : CmdHead) (b : Bytes) (key : Option KeySlot) : Curve × Nat :=
  match h.curve with
  | 1 => (p256, 0)
  | 2 => (p384, 0)
  | 3 => (p521, 0)
  | _ =>
    let c := readCurve h.len (if h.fromSlot then (match key with | some k => k.secret | none => []) else b.drop 16)
    let st := if c.p % 2 = 0 ∨ c.n % 2 = 0 then 2
      else if c.p ≤ c.a ∨ c.p ≤ c.b ∨ c.p ≤ c.gx ∨ c.p ≤ c.gy then 1
      else if (4 * c.a * c.a * c.a + 27 * c.b * c.b) % c.p = 0 then 8
      else if c.has c.gx c.gy = false ∨ c.hasOrder = false then 5
      else 0
    (c, st)

/-- Input point validity (check 4 of R179, R180). -/
def pointOk (c : Curve) (x y : Nat) : Bool :=
  !(decide (x = 0) && decide (y = 0)) && c.has x y && (decide (c.h ≤ 1) || decide (c.mul c.n (some (x, y)) = none))

/-- The private scalar of a command: from its slot, or the first operand. -/
def scalarOf (h : CmdHead) (b : Bytes) (key : Option KeySlot) : Nat :=
  let w := 8 * h.len
  if h.fromSlot then
    match key with
    | some k => beNat (if k.typ = 8 then k.secret.drop (48 * h.len + 8) else k.secret)
    | none => 0
  else opndNat b (paramLen h) w

/-- MOD_ADD, MOD_SUB, MOD_RED: the modulus may be even. -/
def modSimple (op : Nat) (h : CmdHead) (b : Bytes) : Outcome2 :=
  let w := 8 * h.len
  let m := opndNat b 0 w
  let x := opndNat b w w
  let y := opndNat b (2 * w) w
  if m = 0 then (2, [])
  else if op = 0x04 then (0, natBE w (opndNat b w (2 * w) % m))
  else if m ≤ x ∨ m ≤ y then (1, [])
  else (0, natBE w (if op = 0x01 then (x + y) % m else subMod x y m))

/-- MOD_MUL, MOD_EXP, MOD_INV: the modulus is odd. -/
def modOdd (op : Nat) (h : CmdHead) (b : Bytes) : Outcome2 :=
  let w := 8 * h.len
  let m := opndNat b 0 w
  let x := opndNat b w w
  let y := opndNat b (2 * w) w
  if m % 2 = 0 then (2, [])
  else if m ≤ x ∨ (op = 0x03 ∧ m ≤ y) then (1, [])
  else if op = 0x03 then (0, natBE w (x * y % m))
  else if op = 0x05 then (0, natBE w (powMod x y m))
  else match invMod x m with
    | some i => (0, natBE w i)
    | none => (6, [])

/-- RSA_PUB. -/
def rsaPub (h : CmdHead) (b : Bytes) : Outcome2 :=
  let w := 8 * h.len
  let n := opndNat b 0 w
  let x := opndNat b w w
  if n % 2 = 0 then (2, []) else if n ≤ x then (1, []) else (0, natBE w (powMod x (opndNat b (2 * w) 8) n))

/-- RSA_PRIV in CRT form, checked with the public exponent before it commits (R175). The key stands as n, e, p, q, dp, dq, qinv. -/
def rsaPriv (h : CmdHead) (b : Bytes) (key : Option KeySlot) : Outcome2 :=
  let w := 8 * h.len
  let v := w / 2
  let k := if h.fromSlot then (match key with | some k => k.secret | none => []) else b.drop 16
  let x := if h.fromSlot then opndNat b 0 w else opndNat b (28 * h.len + 8) w
  let n := beAt k 0 w
  let e := beAt k w 8
  let f := fun i => beAt k (w + 8 + i * v) v
  let p := f 0
  let q := f 1
  let m1 := powMod x (f 2) p
  let m2 := powMod x (f 3) q
  let r := m2 + f 4 * subMod m1 m2 p % p * q
  if n % 2 = 0 then (2, [])
  else if n ≤ x then (1, [])
  else if powMod r e n = x then (0, natBE w (r % n)) else (6, [])

/-- EC_VALIDATE. -/
def ecValidate (h : CmdHead) (b : Bytes) : Outcome2 :=
  let c := curveOf h b none
  let w := 8 * h.len
  let o := paramLen h
  if c.2 ≠ 0 then (c.2, [])
  else if pointOk c.1 (opndNat b o w) (opndNat b (o + w) w) then (0, []) else (5, [])

/-- EC_MUL. -/
def ecMul (h : CmdHead) (b : Bytes) : Outcome2 :=
  let c := curveOf h b none
  let w := 8 * h.len
  let o := paramLen h
  let k := opndNat b o w
  let x := opndNat b (o + w) w
  let y := opndNat b (o + 2 * w) w
  if c.2 ≠ 0 then (c.2, [])
  else if c.1.n ≤ k then (1, [])
  else if pointOk c.1 x y = false then (5, [])
  else if k = 0 then (3, zeros (2 * w))
  else (0, pointBytes h.len (c.1.mul k (some (x, y))))

/-- EC_DH. -/
def ecDh (h : CmdHead) (b : Bytes) (key : Option KeySlot) : Outcome2 :=
  let c := curveOf h b key
  let w := 8 * h.len
  let o := paramLen h + (if h.fromSlot then 0 else w)
  let d := scalarOf h b key
  let x := opndNat b o w
  let y := opndNat b (o + w) w
  if c.2 ≠ 0 then (c.2, [])
  else if c.1.n ≤ d then (1, [])
  else if pointOk c.1 x y = false then (5, [])
  else if d = 0 then (4, [])
  else match c.1.mul d (some (x, y)) with
    | some (sx, _) => (0, natBE w sx)
    | none => (4, [])

/-- ECDSA_SIGN with a nonce from the deterministic generator (R180). -/
def ecdsaSign (h : CmdHead) (b : Bytes) (key : Option KeySlot) (s : State) : Outcome2 × State :=
  let c := curveOf h b key
  let w := 8 * h.len
  let o := paramLen h + (if h.fromSlot then 0 else w)
  let d := scalarOf h b key
  let k := s.drawScalar c.1.n
  let out : Outcome2 :=
    if c.2 ≠ 0 then (c.2, [])
    else if c.1.n ≤ d ∨ d = 0 then (1, [])
    else match c.1.sign d (c.1.hashInt (8 * w) (opndNat b o w)) k.1 with
      | some (r, t) => (0, natBE w r ++ natBE w t)
      | none => (6, [])
  (out, k.2)

/-- ECDSA_VERIFY. -/
def ecdsaVerify (h : CmdHead) (b : Bytes) : Outcome2 :=
  let c := curveOf h b none
  let w := 8 * h.len
  let o := paramLen h
  let f := fun i => opndNat b (o + i * w) w
  if c.2 ≠ 0 then (c.2, [])
  else if pointOk c.1 (f 0) (f 1) = false then (5, [])
  else if f 3 = 0 ∨ f 4 = 0 ∨ c.1.n ≤ f 3 ∨ c.1.n ≤ f 4 then (7, [])
  else if c.1.verify (some (f 0, f 1)) (c.1.hashInt (8 * w) (f 2)) (f 3) (f 4) then (0, []) else (7, [])

/-- X25519 of a command (R180). -/
def x25519Op (h : CmdHead) (b : Bytes) (key : Option KeySlot) : Outcome2 :=
  let k := if h.fromSlot then (match key with | some k => k.secret | none => []) else opnd b 0 32
  let r := x25519 k (opnd b (if h.fromSlot then 0 else 32) 32)
  if leNat r = 0 then (4, []) else (0, r)

/-- The seed of ED25519_SIGN. -/
def seedOf (h : CmdHead) (b : Bytes) (key : Option KeySlot) : Bytes :=
  if h.fromSlot then (match key with | some k => k.secret | none => []) else opnd b 0 32

/-- ED25519_VERIFY (R180). -/
def ed25519VerifyOp (h : CmdHead) (b : Bytes) : Outcome2 :=
  let ab := opnd b 0 32
  let msg := opnd b 32 h.xarg
  let rb := opnd b (32 + h.xarg) 32
  let t := leNat (opnd b (64 + h.xarg) 32)
  match edDecode ab with
  | none => (5, [])
  | some a =>
    match edDecode rb with
    | none => (7, [])
    | some r => if ed25519L ≤ t then (7, []) else if edVerify a r ab rb msg t then (0, []) else (7, [])

/-! ## The attestation statement (R192) -/

/-- The statement up to its signature. -/
def attestBody (s : State) (slot : Nat) (k : KeySlot) (challenge : Bytes) : Bytes :=
  let t := s.datum
  natBE 2 1 ++ natBE 3 ((s.rd A.SYS_ID).toNat / 2 ^ 8) ++ [0] ++ natBE 8 (s.get64 A.SYS_SERIAL_W0)
    ++ natBE 2 slot ++ natBE 1 k.typ ++ natBE 1 k.usage ++ natBE 1 k.origin
    ++ natBE 6 (instSec t) ++ natBE 4 (instNs t) ++ natBE 2 (instFrac t) ++ challenge ++ natBE 2 k.pub.length ++ k.pub

/-- ECDSA P-384 under slot 511 over the SHA-384 digest. A zero r or s is drawn again by the requester (R180): the result is then empty. -/
def attestSign (digest : Bytes) (s : State) : Option (Nat × Nat) × State :=
  let k := s.drawScalar p384.n
  (p384.sign (deviceScalar "FX4860 attest") (beNat digest) k.1, k.2)

/-! ## Cores (R172, R176, R182) -/

/-- The state of a core. -/
def State.core (s : State) (c : Fin 16) : Option PkeOp := s.pke.cores[c]

/-- Change a core. -/
def State.setCore (s : State) (c : Fin 16) (o : Option PkeOp) : State :=
  { s with pke := { s.pke with cores := s.pke.cores.set c o } }

/-- Whether an operation belongs to the host. -/
def PkeOp.host (o : PkeOp) : Bool := match o.owner with | .host _ _ => true | _ => false

/-- Every core. -/
def allCores : List (Fin 16) := List.finRange 16

/-- Show PKE_STAT. -/
def showCores (s : State) : State :=
  let busy := allCores.foldl (fun v c => if (s.core c).isSome then v + 2 ^ c.val else v) 0
  let host := allCores.foldl (fun v c => if (s.core c).any PkeOp.host then v + 2 ^ c.val else v) 0
  s.wr A.PKE_STAT (BitVec.ofNat 32 (host * 65536 + busy))

/-- A counter of R193. -/
def pkeCount (k : Nat) (s : State) : State := s.add64 (A.PKE_CNT_W0 k) 1

/-- Whether KCLK runs and PD9 is on. -/
def kclkRuns (s : State) : Bool := domainOn s 9 && !(s.on F.SYN_STAT_FROZEN)

/-- The enabled cores, lowest first. -/
def enabledCores (s : State) : List (Fin 16) := allCores.filter (fun c => s.bit A.PKE_CFG c.val)

/-- Cores that may take work: enabled and not isolated. -/
def usableCores (s : State) : List (Fin 16) := (enabledCores s).filter (fun c => !(s.bit A.PKE_ISOL c.val))

/-- The command at the front of a command ring: the oldest that has not run. -/
def ringFront (s : State) (k : Nat) : Option HostCmd :=
  (s.ring (56 + k)).cmds.find? (fun c => !c.running && c.done.isNone && decide (beAt c.block 0 1 < 0x40))

/-- The next host command, round-robin across rings from `turn` on (R172). -/
def nextHost (s : State) : Option (Nat × HostCmd) :=
  ((List.range 8).map (fun i => (s.pke.turn + i) % 8)).findSome? (fun k => (ringFront s k).map (fun c => (k, c)))

/-- Change a command of D24 + k. -/
def modCmd (k seq : Nat) (f : HostCmd → HostCmd) (s : State) : State :=
  let q := s.ring (56 + k)
  s.setRing (56 + k) { q with cmds := q.cmds.map (fun c => if c.seq = seq then f c else c) }

/-- Count a completion by its status and its requester. -/
def countDone (host : Bool) (st : Nat) (s : State) : State :=
  let s := if st = 0 then pkeCount 0 s else if st = 9 then pkeCount 3 s else if st < 0x10 then pkeCount 1 s else pkeCount 2 s
  if host then pkeCount 4 s else pkeCount 5 s

/-- A host command ends with a status and a result. Only OK and SCALAR_ZERO write the result (R173, R178). -/
def endHost (k seq st : Nat) (res : Bytes) (ready : Nat) (s : State) : State :=
  countDone true st (modCmd k seq (fun c =>
    { c with done := some (st, if st = 0 ∨ st = 3 then res else []), running := false, key := none, ready := ready }) s)

/-- A command got RNG_FAIL (PKE_IRQ_STAT). -/
def noteRng (st : Nat) (s : State) : State := if st = 0x17 then irqSet 16 A.PKE_IRQ_STAT 1 s else s

/-- A dispatch rejection takes no core and completes 50 KCLK, of two DCLK periods each, after dispatch (R176, R178). -/
def rejectHost (k seq st : Nat) (s : State) : State := endHost k seq st [] (s.now + 100) (noteRng st (pmcEvent 6 0x05 0 1 s))

/-- A request of the service processors is rejected at dispatch (R178): a session ends with the alert internal_error, and a seal stays unsigned. -/
def rejectSpu (o : PkeOwner) (st : Nat) (s : State) : State := ownerAborted o (countDone false st (noteRng st (pmcEvent 6 0x05 0 1 s)))

/-- The dispatch checks of a request of the service processors (R178). A seal is signed with the attestation key of slot 511, which R185 keeps for it. -/
def spuStatus (s : State) (o : PkeOwner) (block : Bytes) : Nat :=
  match o with
  | .seal _ => if rngFailed s then 0x17 else 0
  | .session _ | .host _ _ => dispatchStatus s false block (2 ^ 32)

/-- A request of the service processors joins the queue when the dispatch checks admit it (R172, R178). -/
def spuRequest (o : PkeOwner) (block : Bytes) (key : Option KeySlot) (s : State) : State :=
  let s := pmcEvent 7 0x07 0 1 s
  let st := spuStatus s o block
  if st = 0 then { s with pke := { s.pke with spuQueue := s.pke.spuQueue ++ [⟨o, block, key, none, 0⟩] } } else rejectSpu o st s

/-- A core takes a host command. -/
def takeHost (c : Fin 16) (k : Nat) (x : HostCmd) (s : State) : State :=
  let s := modCmd k x.seq (fun y => { y with running := true }) s
  let s := { s with pke := { s.pke with turn := (k + 1) % 8 } }
  pmcEvent 6 0x02 c 1 (showCores (s.setCore c (some ⟨.host k x.seq, x.block, x.key, none, s.now⟩)))

/-- A core takes the oldest request of the service processors. -/
def takeSpu (c : Fin 16) (o : PkeOp) (rest : List PkeOp) (s : State) : State :=
  let s := { s with pke := { s.pke with spuQueue := rest } }
  pmcEvent 6 0x02 c 1 (showCores (s.setCore c (some { o with start := s.now })))

/-- Whether an operation that a core is to take needs the deterministic generator while the entropy source has failed: it is rejected as it is dispatched (R169, R178). -/
def rngBars (s : State) (block : Bytes) : Bool := needsRng (cmdHead block).op && rngFailed s

/-- A core takes a host command, or the command is rejected. -/
def hostTurn (c : Fin 16) (s : State) : State :=
  match nextHost s with
  | some (k, x) => if rngBars s x.block then rejectHost k x.seq 0x17 s else takeHost c k x s
  | none => s

/-- PKE_DISPATCH: a core falls free and takes the next operation by the three rules of R172. -/
def execPkeDispatch (core : Fin 16) (s : State) : Host.Outcome State Fault Refusal :=
  .next (if (usableCores s).contains core && (s.core core).isNone && kclkRuns s then
      let reserved := ((enabledCores s).take (s.get F.PKE_CFG_HOSTRES)).contains core
      let running := (allCores.filter (fun c => (s.core c).any PkeOp.host)).length
      if reserved && (nextHost s).isSome then hostTurn core s
      else match s.pke.spuQueue with
        | o :: rest =>
          if rngBars s o.block then rejectSpu o.owner 0x17 { s with pke := { s.pke with spuQueue := rest } } else takeSpu core o rest s
        | [] => if running < s.get F.PKE_CFG_HOSTCORES then hostTurn core s else s
    else s)

/-! ## Durations (R177) -/

/-- T(w). -/
def opT (w : Nat) : Nat := 4 + (w * w + 15) / 16

/-- Duration of MOD_INV. -/
def invDur (w : Nat) : Nat := 64 + 128 * w * (2 + (w + 7) / 8)

/-- Duration of a generic EC_MUL. -/
def genMul (w : Nat) : Nat := 100 + 14 * (64 * w + 2) * opT w

/-- Duration of a generic EC_VALIDATE, with one EC_MUL more when h > 1. -/
def genValidate (w h : Nat) : Nat := 40 + 6 * opT w + (if 1 < h then genMul w else 0)

/-- The column of a fast-path curve. -/
def fastDur (curve a b c : Nat) : Nat := if curve = 1 then a else if curve = 2 then b else c

/-- Duration of the KEYGEN of a key type. -/
def keygenDur (typ : Nat) : Nat :=
  match typ with
  | 2 => 13200
  | 3 => 36000
  | 4 => 81000
  | 5 => 10800
  | _ => 9000

/-- Duration in KCLK (R177). `hh` is the cofactor of a generic curve. -/
def opDuration (h : CmdHead) (b : Bytes) (hh : Nat) : Nat :=
  let w := h.len
  let gen := decide (h.curve = 15)
  let ed := fun base => base + (if 256 < h.xarg then 360 * ((h.xarg - 256 + 127) / 128) else 0)
  match h.op with
  | 0x01 | 0x02 => 16 + 2 * w
  | 0x03 => 8 + 3 * opT w
  | 0x04 => 8 + 2 * opT w
  | 0x05 => 100 + (18 + 80 * w) * opT w
  | 0x06 => invDur w
  | 0x07 => 100 + 132 * opT w
  | 0x08 => if w ≤ 16 then 9300 else if w ≤ 32 then 74400 else if w ≤ 48 then 218400 else if w ≤ 64 then 506400
      else if w ≤ 128 then 4051200 else 32409600
  | 0x10 => if gen then genValidate w hh else fastDur h.curve 600 1200 2400
  | 0x11 => if gen then genMul w else fastDur h.curve 12600 34800 78600
  | 0x12 => if gen then genMul w else fastDur h.curve 13200 36000 81000
  | 0x13 => if gen then genValidate w hh + genMul w else fastDur h.curve 13200 36000 81000
  | 0x14 => if gen then genMul w + invDur w + 4 * opT w else fastDur h.curve 16800 42000 93000
  | 0x15 => if gen then genValidate w hh + 2 * genMul w + invDur w else fastDur h.curve 21000 54000 120000
  | 0x18 | 0x19 => 10800
  | 0x1A => 9000
  | 0x1B => ed 12000
  | 0x1C => ed 18000
  | 0x30 =>
    let m := materialLen (beAt b 18 1) (beAt b 20 2)
    2400 + (if 64 < m then 8 * ((m - 64 + 7) / 8) else 0) + (if beAt b 16 2 = 2 then 36000 else 0)
  | 0x31 => if h.xarg % 256 = 1 then 3000 else keygenDur (h.xarg % 256) + 2400
  | 0x32 => 200 + (if h.slot = 511 then (Config.attestChain.length + 7) / 8 else 0)
  | 0x33 => 42600
  | _ => 1200

/-- The duration of an operation. -/
def PkeOp.duration (o : PkeOp) : Nat :=
  let h := cmdHead o.block
  opDuration h o.block (if h.curve = 15 then (curveOf h o.block o.key).1.h else 1)

/-! ## The operations (R175) -/

/-- Compute on a core: a core that runs an operation of this code and has not computed it sets its outcome. Otherwise, and while KCLK is stopped, nothing happens (R182). -/
def coreCompute (core : Fin 16) (code : Nat) (f : CmdHead → PkeOp → State → Outcome2 × State) (s : State) : State :=
  match s.core core with
  | none => s
  | some o =>
    if beAt o.block 0 1 = code ∧ o.outcome = none ∧ kclkRuns s = true then
      let r := f (cmdHead o.block) o s
      r.2.setCore core (some { o with outcome := some r.1 })
    else s

/-- An operation that draws nothing and changes nothing else. -/
def pureOp (f : CmdHead → PkeOp → Outcome2) : CmdHead → PkeOp → State → Outcome2 × State := fun h o s => (f h o, s)

/-- MOD_ADD (R175, R180). -/
def execModAdd (core : Fin 16) (s : State) : Host.Outcome State Fault Refusal :=
  .next (coreCompute core 0x01 (pureOp fun h o => modSimple 0x01 h o.block) s)

/-- MOD_SUB. -/
def execModSub (core : Fin 16) (s : State) : Host.Outcome State Fault Refusal :=
  .next (coreCompute core 0x02 (pureOp fun h o => modSimple 0x02 h o.block) s)

/-- MOD_MUL. -/
def execModMul (core : Fin 16) (s : State) : Host.Outcome State Fault Refusal :=
  .next (coreCompute core 0x03 (pureOp fun h o => modOdd 0x03 h o.block) s)

/-- MOD_RED. -/
def execModRed (core : Fin 16) (s : State) : Host.Outcome State Fault Refusal :=
  .next (coreCompute core 0x04 (pureOp fun h o => modSimple 0x04 h o.block) s)

/-- MOD_EXP. -/
def execModExp (core : Fin 16) (s : State) : Host.Outcome State Fault Refusal :=
  .next (coreCompute core 0x05 (pureOp fun h o => modOdd 0x05 h o.block) s)

/-- MOD_INV. -/
def execModInv (core : Fin 16) (s : State) : Host.Outcome State Fault Refusal :=
  .next (coreCompute core 0x06 (pureOp fun h o => modOdd 0x06 h o.block) s)

/-- RSA_PUB. -/
def execRsaPub (core : Fin 16) (s : State) : Host.Outcome State Fault Refusal :=
  .next (coreCompute core 0x07 (pureOp fun h o => rsaPub h o.block) s)

/-- RSA_PRIV. Blinding draws from the generator and leaves the result as it is (R175). -/
def execRsaPriv (core : Fin 16) (s : State) : Host.Outcome State Fault Refusal :=
  .next (coreCompute core 0x08 (pureOp fun h o => rsaPriv h o.block o.key) s)

/-- EC_VALIDATE. -/
def execEcValidate (core : Fin 16) (s : State) : Host.Outcome State Fault Refusal :=
  .next (coreCompute core 0x10 (pureOp fun h o => ecValidate h o.block) s)

/-- EC_MUL. -/
def execEcMul (core : Fin 16) (s : State) : Host.Outcome State Fault Refusal :=
  .next (coreCompute core 0x11 (pureOp fun h o => ecMul h o.block) s)

/-- The requester of a record of the key store (R455). -/
def PkeOp.requester (o : PkeOp) : Nat := match o.owner with | .host k _ => 2 + k | _ => 1

/-- Keep a generated key: in SLOT with STORE = 1, where it must still be empty (R190), or in the result. -/
def keepKey (h : CmdHead) (o : PkeOp) (typ bits : Nat) (material pub secret : Bytes) (s : State) : Outcome2 × State :=
  if h.store then
    if (s.pke.slots.get h.slot).isSome then ((0x14, []), s)
    else
      let u := s.draw 4
      ((0, pub), fillSlot 0x3C03 h.slot ⟨typ, u.1, bits, 2, material, publicHalf typ bits material⟩ o.requester u.2)
  else ((0, pub ++ secret), s)

/-- The length in bits of a generic curve, and its parameters and scalar as key material, in words of that length (assumption log 25). -/
def Curve.bits (c : Curve) : Nat := Nat.log2 (max c.p c.n) + 1

/-- The key material of a generic curve. -/
def Curve.material (c : Curve) (d : Nat) : Bytes :=
  let w := 8 * bitWords c.bits
  natBE w c.p ++ natBE w c.a ++ natBE w c.b ++ natBE w c.gx ++ natBE w c.gy ++ natBE w c.n ++ natBE 8 c.h ++ natBE w d

/-- EC_KEYGEN: d is drawn, Q is d times the base point. The USAGE of a stored key is a free value (assumption log 26). -/
def execEcKeygen (core : Fin 16) (s : State) : Host.Outcome State Fault Refusal :=
  .next (coreCompute core 0x12 (fun h o s =>
    let c := curveOf h o.block none
    if c.2 ≠ 0 then ((c.2, []), s)
    else
      let d := s.drawScalar c.1.n
      let m := natBE (8 * h.len) d.1
      let q := pointBytes h.len (c.1.mul d.1 c.1.g)
      if h.curve = 15 then keepKey h o 8 c.1.bits (c.1.material d.1) q m d.2
      else keepKey h o (h.curve + 1) (typeBits (h.curve + 1)) m q m d.2) s)

/-- EC_DH. -/
def execEcDh (core : Fin 16) (s : State) : Host.Outcome State Fault Refusal :=
  .next (coreCompute core 0x13 (pureOp fun h o => ecDh h o.block o.key) s)

/-- ECDSA_SIGN. The seal of a Field Book segment is signed with slot 511 (R390). -/
def execEcdsaSign (core : Fin 16) (s : State) : Host.Outcome State Fault Refusal :=
  .next (coreCompute core 0x14 (fun h o s =>
    match o.owner with
    | .seal _ =>
      let r := attestSign (opnd o.block 0 48) s
      (match r.1 with | some (a, b) => (0, natBE 48 a ++ natBE 48 b) | none => (6, []), r.2)
    | _ => ecdsaSign h o.block o.key s) s)

/-- ECDSA_VERIFY. -/
def execEcdsaVerify (core : Fin 16) (s : State) : Host.Outcome State Fault Refusal :=
  .next (coreCompute core 0x15 (pureOp fun h o => ecdsaVerify h o.block) s)

/-- X25519. -/
def execX25519 (core : Fin 16) (s : State) : Host.Outcome State Fault Refusal :=
  .next (coreCompute core 0x18 (pureOp fun h o => x25519Op h o.block o.key) s)

/-- X25519_KEYGEN. -/
def execX25519Keygen (core : Fin 16) (s : State) : Host.Outcome State Fault Refusal :=
  .next (coreCompute core 0x19 (fun h o s =>
    let k := s.drawBytes 32
    keepKey h o 5 256 k.1 (x25519 k.1 x25519Base) k.1 k.2) s)

/-- ED25519_KEYGEN. -/
def execEd25519Keygen (core : Fin 16) (s : State) : Host.Outcome State Fault Refusal :=
  .next (coreCompute core 0x1A (fun h o s =>
    let k := s.drawBytes 32
    keepKey h o 6 256 k.1 (edPublic k.1) k.1 k.2) s)

/-- ED25519_SIGN. -/
def execEd25519Sign (core : Fin 16) (s : State) : Host.Outcome State Fault Refusal :=
  .next (coreCompute core 0x1B (pureOp fun h o =>
    (0, edSign (seedOf h o.block o.key) (opnd o.block (if h.fromSlot then 0 else 32) h.xarg))) s)

/-- ED25519_VERIFY. -/
def execEd25519Verify (core : Fin 16) (s : State) : Host.Outcome State Fault Refusal :=
  .next (coreCompute core 0x1C (pureOp fun h o => ed25519VerifyOp h o.block) s)

/-- KS_IMPORT: the first import or generation to reach an empty slot fills it (R186, R187, R190). -/
def execKsImport (core : Fin 16) (s : State) : Host.Outcome State Fault Refusal :=
  .next (coreCompute core 0x30 (fun h o s =>
    match openBlob (o.block.drop 16) with
    | none => ((0x0A, []), s)
    | some k =>
      if (s.pke.slots.get h.slot).isSome then ((0x14, []), s)
      else ((0, if beAt o.block 16 2 = 2 then blobD k else []), pmcEvent 6 0x07 16 1 (fillSlot 0x3C02 h.slot k o.requester s))) s)

/-- KS_GENERATE: the key is drawn and written with ORIGIN 2; public half, then form D blob (R189). -/
def execKsGenerate (core : Fin 16) (s : State) : Host.Outcome State Fault Refusal :=
  .next (coreCompute core 0x31 (fun h o s =>
    if (s.pke.slots.get h.slot).isSome then ((0x14, []), s)
    else
      let k := drawKey (h.xarg % 256) (h.xarg / 256 % 256) 2 s
      ((0, k.1.pub ++ blobD k.1), pmcEvent 6 0x07 16 1 (fillSlot 0x3C03 h.slot k.1 o.requester k.2))) s)

/-- KS_PUBLIC: the public half; for slot 511 the attestation chain follows (R185). -/
def execKsPublic (core : Fin 16) (s : State) : Host.Outcome State Fault Refusal :=
  .next (coreCompute core 0x32 (fun h o s =>
    match o.key with
    | none => ((0x13, []), s)
    | some k => ((0, k.pub ++ (if h.slot = 511 then Config.attestChain else [])), pmcEvent 6 0x07 16 1 s)) s)

/-- KS_ATTEST: the signed statement (R192). -/
def execKsAttest (core : Fin 16) (s : State) : Host.Outcome State Fault Refusal :=
  .next (coreCompute core 0x33 (fun h o s =>
    match o.key with
    | none => ((0x13, []), s)
    | some k =>
      let body := attestBody s h.slot k (opnd o.block 0 32)
      let r := attestSign (sha384 body) s
      (match r.1 with | some (a, b) => (0, body ++ natBE 48 a ++ natBE 48 b) | none => (6, []), pmcEvent 6 0x07 16 1 r.2)) s)

/-- KS_ERASE: the slot is emptied at once (R190). -/
def execKsErase (core : Fin 16) (s : State) : Host.Outcome State Fault Refusal :=
  .next (coreCompute core 0x34 (fun h o s =>
    if (s.pke.slots.get h.slot).isSome then ((0, []), pmcEvent 6 0x07 16 1 (eraseSlot h.slot o.requester s))
    else ((0x13, []), s)) s)

/-! ## Completion and abort (R173, R181, R182, R193) -/

/-- An operation ends ABORTED (R181, R182): with no result, and the slot unaltered. -/
def abortHost (k seq : Nat) (s : State) : State :=
  irqSet 16 A.PKE_IRQ_STAT 0 (endHost k seq 9 [] s.now s)

/-- A core is scrubbed: it holds no operation (R182). -/
def scrub (c : Fin 16) (s : State) : State := showCores (s.setCore c none)

/-- Abort what runs on a core, where it has not committed (R182). The owner hears ABORTED. -/
def abortCore (c : Fin 16) (s : State) : State :=
  match s.core c with
  | none => s
  | some o =>
    let s := pmcEvent 6 0x06 c 1 (scrub c s)
    match o.owner with
    | .host k seq => abortHost k seq s
    | .session _ | .seal _ => ownerAborted o.owner (irqSet 16 A.PKE_IRQ_STAT 0 (countDone false 9 s))

/-- Abort the host commands of D24 + k that have not completed (R181). Those of the Field Book are not the cluster's. -/
def abortRing (k : Nat) (s : State) : State :=
  let mine := fun (c : Fin 16) => match s.core c with
    | some o => (match o.owner with | .host k' _ => decide (k' = k) | _ => false)
    | none => false
  let s := (allCores.filter mine).foldl (fun s c => abortCore c s) s
  (((s.ring (56 + k)).cmds.filter (fun c => c.done.isNone && decide (beAt c.block 0 1 < 0x40))).map (·.seq)).foldl
    (fun s q => abortHost k q s) s

/-- Abort the operations of a session, running or queued (R157, R181). -/
def abortSession (id : Nat) (s : State) : State :=
  let mine := fun (c : Fin 16) => (s.core c).any (fun o => decide (o.owner = .session id))
  let s := (allCores.filter mine).foldl (fun s c => abortCore c s) s
  let n := (s.pke.spuQueue.filter (fun o => decide (o.owner = .session id))).length
  let s := { s with pke := { s.pke with spuQueue := s.pke.spuQueue.filter (fun o => decide (o.owner ≠ .session id)) } }
  if n = 0 then s else irqSet 16 A.PKE_IRQ_STAT 0 ((List.range n).foldl (fun s _ => countDone false 9 s) s)

/-- Abort every running operation: entry to MAINT (R181). -/
def abortRunning (s : State) : State := allCores.foldl (fun s c => abortCore c s) s

/-- Abort every operation: entry to SAFE, or PD9 off (R181). -/
def abortAll (s : State) : State :=
  let s := (List.range 8).foldl (fun s k => abortRing k s) (abortRunning s)
  s.pke.spuQueue.foldl (fun s o => ownerAborted o.owner (irqSet 16 A.PKE_IRQ_STAT 0 (countDone false 9 s)))
    { s with pke := { s.pke with spuQueue := [] } }

/-- PKE_ABORT: a write of PKE_ABORT.RINGS (R181). -/
def abortWrite (rings : BitVec 8) (s : State) : State :=
  (List.range 8).foldl (fun s k => if rings.getLsbD k then abortRing k s else s) s

/-- PKE_COUNTER_CLEAR (R193). -/
def pkeCounterClear (s : State) : State := s.clear64s (A.PKE_CNT_W0 0) 6

end Sys2Proof.Machine
end

