-- ==== Sys2Proof/Machine/Stakeout.lean ====
section
/-! DEFINITION. Stake compensation (R131) and Stakeout: the egress grid, tickets, the gate and how each ticket ends (R110-R127). -/
namespace Sys2Proof.Machine

/-! ## Stake compensation (R131, R137) -/

/-- The state of Stake unit n. -/
def State.stkUnit (s : State) (n : Fin 7) : StkUnit := s.stk[n]

/-- Replace Stake unit n. -/
def State.setStk (s : State) (n : Fin 7) (u : StkUnit) : State := { s with stk := s.stk.set n u }

/-- The plane's part of the receive compensation in ps: board delay on serial ports, PHY delay on field ports, with PLANE = 1 (R131). -/
def planeRx (s : State) (n : Fin 7) : Int :=
  if s.on (F.STK_CFG_PLANE n) then
    (if n.val = 4 ∨ n.val = 5 then (s.get (F.STK_PHYRX_DELAY n) : Int) else (s.get (F.STK_BRD_BRDRX n) : Int))
  else 0

/-- The plane's part of the transmit compensation in ps (R131). -/
def planeTx (s : State) (n : Fin 7) : Int :=
  if s.on (F.STK_CFG_PLANE n) then
    (if n.val = 4 ∨ n.val = 5 then (s.get (F.STK_PHYTX_DELAY n) : Int) else (s.get (F.STK_BRD_BRDTX n) : Int))
  else 0

/-- Latency before trim, fixed plus variable, in ps (R131, STK_n_LATRX). -/
def latRx (s : State) (n : Fin 7) : Nat := Config.fixedRx n (s.get (F.STK_STAT_SPEED n)) s.bm.dieTemp + (s.stkUnit n).vrx

/-- Latency before trim of the transmit direction, in ps. -/
def latTx (s : State) (n : Fin 7) : Nat := Config.fixedTx n (s.get (F.STK_STAT_SPEED n)) s.bm.dieTemp + (s.stkUnit n).vtx

/-- The receive compensation that software sets, in ps: trim and plane (R131, R137). -/
def setRx (s : State) (n : Fin 7) : Int := s.getI (F.STK_TRIM_TRIMRX n) + planeRx s n

/-- The transmit compensation that software sets, in ps. -/
def setTx (s : State) (n : Fin 7) : Int := s.getI (F.STK_TRIM_TRIMTX n) + planeTx s n

/-- What R131 subtracts from a capture to give the ingress instant, in ps. -/
def compRx (s : State) (n : Fin 7) : Int := (latRx s n : Int) + setRx s n

/-- What R131 adds to a capture to give the egress instant, in ps. -/
def compTx (s : State) (n : Fin 7) : Int := (latTx s n : Int) + setTx s n

/-- The change of compensation that a capture, in units of 2^-32 ns, came before: the oldest whose edge E is later (R137). -/
def StkUnit.before (u : StkUnit) (capture : Nat) : Option CompChange := u.changes.find? (fun c => decide (capture < c.edge * 2 ^ 16))

/-- The receive compensation of a capture: that in force at its instant (R137). -/
def compRxAt (s : State) (n : Fin 7) (capture : Nat) : Int :=
  match (s.stkUnit n).before capture with
  | some c => (latRx s n : Int) + c.rx
  | none => compRx s n

/-- The transmit compensation of a capture that belongs to no ticket (R137). -/
def compTxAt (s : State) (n : Fin 7) (capture : Nat) : Int :=
  match (s.stkUnit n).before capture with
  | some c => (latTx s n : Int) + c.tx
  | none => compTx s n

/-- A capture, in units of 2^-32 ns, moved by ps and rounded to the nearest 2^-16 ns with ties upward (R131). -/
def captureToInstant (capture : Nat) (ps : Int) : Instant :=
  ((((capture : Int) * 1000 + ps * (2 ^ 32 : Int)) * 2 + 1000 * 2 ^ 16) / (2 * 1000 * 2 ^ 16) % (datumMod : Int)).toNat

/-- Keep an instant in STK_n_LASTRX or LASTTX when LASTSEL selects the frame (R128). -/
def keepLast (n : Fin 7) (addr : Nat) (ptpEvent : Bool) (t : Instant) (s : State) : State :=
  if s.on (F.STK_CFG_LASTSEL n) && !ptpEvent then s else s.setDatum addr t

/-- The egress instant of a frame whose capture the unit took: the timestamp, LATTX and LASTTX (R131). -/
def egressStamp (n : Fin 7) (capture : Nat) (ps : Int) (ptpEvent : Bool) (s : State) : Instant × State :=
  let t := captureToInstant capture ps
  (t, pmcEvent 2 0x03 n 1 (keepLast n (A.STK_LASTTX_W0 n) ptpEvent t (s.set (F.STK_LATTX_LAT n) (latTx s n))))

/-- The ingress instant of a frame (R131). -/
def ingressStamp (n : Fin 7) (capture : Nat) (ptpEvent : Bool) (s : State) : Instant × State :=
  let t := captureToInstant capture (-(compRxAt s n capture))
  (t, pmcEvent 2 0x02 n 1 (keepLast n (A.STK_LASTRX_W0 n) ptpEvent t (s.set (F.STK_LATRX_LAT n) (latRx s n))))

/-- A two-step Sync that gets no egress record is forgotten: no Follow_Up is sent for it (R140). -/
def dropSync (n : Fin 7) (tag : Nat) (s : State) : State :=
  let u := s.stkUnit n
  s.setStk n { u with syncs := u.syncs.filter (fun x => decide (x.tag ≠ tag)) }

/-- An egress record reaches the service processors' queue, or is lost when the queue is full (R139, R140). -/
def egressQueue (n : Fin 7) (r : EgressRec) (s : State) : State :=
  let u := s.stkUnit n
  if u.queue.length < 64 then
    (pmcEvent 2 0x04 n 1 (s.setStk n { u with queue := u.queue ++ [r] })).set (F.STK_STAT_QLEVEL n) (u.queue.length + 1)
  else irqSet 9 (A.STK_IRQ_STAT n) 0 ((dropSync n r.tag s).addSat (F.STK_TSLOST_CNT_COUNT n) 1)

/-! ## The egress grid (R110, R111, R115) -/

/-- Stakeout of a main port. -/
def State.port (s : State) (p : Fin 4) : SkoPort := s.sko[p]

/-- Replace Stakeout of a main port. -/
def State.setPort (s : State) (p : Fin 4) (q : SkoPort) : State := { s with sko := s.sko.set p q }

/-- Where start position k after the anchor stands, from the anchor, in units of 2^-32 ns (R110, R111). The speed is PRT_Pn_CFG.SPEED:
uniform at 1 and 50 Gb/s; 32 and 34 bit times alternating at 10 and 25 Gb/s; at 100 Gb/s 80 positions of 64.25 bit times in a codeword of 5,280. DESIGN CHOICE
(assumption log 89): each quotient of these positions, and of a reservation's length, is cut to a whole unit. -/
def gridOffset (speed : Nat) (m : GridModel) (k : Nat) : Nat :=
  let g := m.spacing
  if speed = 1 ∨ speed = 2 then
    (k / 2) * (2 * g) + (if k % 2 = 1 then (if m.byte4 then 34 * g / 33 else 32 * g / 33) else 0)
  else if speed = 4 then
    let q := m.codePos + k
    (q / 80) * (80 * g) + (q % 80) * 257 * g / 264 - m.codePos * 257 * g / 264
  else k * g

/-- Scale what lies beyond each change of the Datum rate by the ratio of the rates (R115): `x` is an offset from the anchor, and the changes are in units of
2^-48 from rate `y` on. -/
def bendRate (anchor : Nat) : Int → List (Instant × Int) → Int → Int
  | x, [], _ => x
  | x, (due, y1) :: cs, y =>
    let at_ : Int := (due : Int) * (2 ^ 16 : Int) - (anchor : Int)
    let x' := if x ≤ at_ then x else at_ + (x - at_) * ((2 ^ 48 : Int) + y1) / ((2 ^ 48 : Int) + y)
    bendRate anchor x' cs y1

/-- The steering of SYN1 and SYN2: the word of CH1 clamped to 100 ppm, in units of 2^-48 (R281). -/
def clampSteer (w : Int) : Int := clampInt (-28147497671) 28147497671 w

/-- Scale what lies beyond each change of the port's synthesizer frequency (R115, R281): a higher frequency brings points closer. -/
def bendSyn (anchor : Nat) : Int → List (Instant × Int) → Int → Int
  | x, [], _ => x
  | x, (due, w1) :: cs, w0 =>
    let w := clampSteer w1
    let at_ : Int := (due : Int) * (2 ^ 16 : Int) - (anchor : Int)
    let x' := if x ≤ at_ then x else at_ + (x - at_) * ((2 ^ 48 : Int) + w0) / ((2 ^ 48 : Int) + w)
    bendSyn anchor x' cs w

/-- A rate from an anchor on: its value there, and every change since and ahead. `y` is the rate in force. -/
def ratesFrom (anchor : Nat) (y : Int) (past : List RateStep) (ahead : List (Instant × Int)) : Int × List (Instant × Int) :=
  let since := past.filter (fun c => decide (anchor < c.at_ * 2 ^ 16))
  (match since.head? with | some c => c.before | none => y, since.map (fun c => (c.at_, c.after)) ++ ahead)

/-- The points between which a ramp offset runs linearly, from a coarse count and an offset on through the segments that are left (R283): a slope is in
ppb of the frequency per ms, of 1,200,000 counts. -/
def rampFrom : Frac → Frac → List (Frac × Nat) → List (Frac × Frac)
  | c, o, [] => [(c, o)]
  | c, o, (t, slope) :: r => (c, o) :: rampFrom (c.add ((t.sub o).abs.mul (.of (1000000000 * 1200000) slope))) t r

/-- Those points of a synthesizer: the latest that it has passed, and those of the profile that runs. -/
def Synth.rampPoints (x : Synth) : List (Frac × Frac) :=
  x.bends.reverse.map (fun b => (Frac.int b.1, b.2)) ++ rampFrom (.int x.segAt) x.offset x.profile

/-- The offset at a count on a line through points. -/
def offsetOn : List (Frac × Frac) → Frac → Frac
  | [], _ => .zero
  | [(_, o)], _ => o
  | (c, o) :: (c', o') :: r, t =>
    if t.le c then o
    else if t.lt c' then o.add (((o'.sub o).mul (t.sub c)).div (c'.sub c))
    else offsetOn ((c', o') :: r) t

/-- The area under such a line between two counts. -/
def areaOn : List (Frac × Frac) → Frac → Frac → Frac
  | [], _, _ => .zero
  | [(_, o)], a, b => o.mul (b.sub a)
  | (c, o) :: (c', o') :: r, a, b =>
    let lo := Frac.max a c
    let hi := Frac.min b c'
    let ahead := if a.lt c then o.mul ((Frac.min b c).sub a) else .zero
    let here := if lo.lt hi then ((offsetOn [(c, o), (c', o')] lo).add (offsetOn [(c, o), (c', o')] hi)).mul ((hi.sub lo).mul (.of 1 2)) else .zero
    (ahead.add here).add (if c'.lt b then areaOn ((c', o') :: r) (Frac.max a c') b else .zero)

/-- How much earlier a point `x` beyond an anchor lies for the ramp of the port's synthesizer between the two (R115, R283), in units of 2^-32 ns. -/
def rampShift (s : State) (p : Fin 4) (anchor : Nat) (x : Int) : Int :=
  let l := (s.syn.synths[p.val / 2]).rampPoints
  if l.length ≤ 1 then 0
  else
    let count := fun (t : Int) => (Frac.int s.trn.coarse).add (.of ((t - (s.datum : Int) * 2 ^ 16) * 6) (5 * 2 ^ 32))
    let a := count anchor
    let b := count ((anchor : Int) + x)
    (((areaOn l a b).sub ((offsetOn l a).mul (b.sub a))).mul (.of (5 * 2 ^ 32) 6)).floor

/-- Grid point k of a port, in units of 2^-32 ns of Datum time, with every change of the Datum rate and of the port's synthesizer since the anchor and ahead
(R111, R115). -/
def gridPoint (s : State) (p : Fin 4) (k : Nat) : Nat :=
  let m := (s.port p).model
  let d := ratesFrom m.anchor s.dtm.y s.dtm.steps s.rateAhead
  let w := ratesFrom m.anchor ((s.syn.applied.get 1).getD 0) s.syn.wordSteps ((s.syn.words.get 1).getD [])
  let x := bendRate m.anchor (gridOffset (s.get (F.PRT_P_CFG_SPEED p)) m k) d.2 d.1
  let x := bendSyn m.anchor x w.2 (clampSteer w.1)
  ((m.anchor : Int) + x - rampShift s p m.anchor x).toNat

/-- The least k of the 2^n from `lo` on whose grid point lies at or after t: the points rise with k, so each half decides. -/
def firstPointIn (s : State) (p : Fin 4) (t : Nat) : Nat → Nat → Nat
  | 0, lo => lo
  | n + 1, lo => if t ≤ gridPoint s p (lo + 2 ^ n - 1) then firstPointIn s p t n lo else firstPointIn s p t n (lo + 2 ^ n)

/-- The first grid point at or after t (R112): no announced change moves a point by half of its distance from the anchor (R48, R281, R283). -/
def firstPoint (s : State) (p : Fin 4) (t : Nat) : Nat :=
  let m := (s.port p).model
  firstPointIn s p t (Nat.log2 (2 * (t - m.anchor) / m.spacing + 16) + 1) 0

/-- Data bits that one mean spacing carries, by speed (R112). -/
def bitsPerSpacing (speed : Nat) : Nat :=
  if speed = 0 then 16 else if speed = 1 ∨ speed = 2 then 32 else 64

/-- How long a frame of F bytes, FCS included, reserves the wire, in units of 2^-32 ns (R112). -/
def wireTime (s : State) (p : Fin 4) (f : Nat) : Nat :=
  (f + 20) * 8 * (s.port p).model.spacing / bitsPerSpacing (s.get (F.PRT_P_CFG_SPEED p))

/-- A reservation [a, b) of the port that meets [x, y), if there is one. -/
def clash (ts : List Ticket) (x y : Nat) : Option Ticket :=
  ts.find? (fun t => decide (t.resFrom < t.resTo) && decide (t.resFrom < y) && decide (x < t.resTo))

/-- The first grid point at or after t whose whole reservation is free (R112). Each pass steps beyond one reservation. -/
def freePoint (s : State) (p : Fin 4) (w : Nat) : Nat → Nat → Option Nat
  | 0, _ => none
  | n + 1, t =>
    let k := firstPoint s p t
    let x := gridPoint s p k
    match clash (s.port p).tickets x (x + w) with
    | none => some k
    | some c => freePoint s p w n c.resTo

/-- An instant in units of 2^-32 ns rounded to the nearest 2^-16 ns, ties upward (R111). -/
def roundPoint (x : Nat) : Instant := (2 * x + 2 ^ 16) / 2 ^ 17 % datumMod

/-- 24 us in units of 2^-16 ns (R113). -/
def horizon : Int := 24000 * 2 ^ 16

/-- The load lead of 96 DCLK, 80 ns, in units of 2^-16 ns (R118). -/
def loadLead : Int := 80 * 2 ^ 16

/-- The stake latency of a response in ns (R116). -/
def stakeLatency (s : State) (p : Fin 4) (k : RespKind) : Nat :=
  match k with
  | .nts => s.get (F.SKO_P_LAT0_NTS p)
  | .ntpBasic | .ntpInterleaved | .kod => s.get (F.SKO_P_LAT0_NTP p)
  | .delayResp | .sync | .announce => s.get (F.SKO_P_LAT1_PTP p)

/-- The departure point for a response staked from `base` (R112, R113): grid index, or none within the horizon. -/
def departurePoint (s : State) (p : Fin 4) (latency : Nat) (base : Instant) (w : Nat) : Option Nat :=
  let q := s.port p
  let target := instAdd base (nsUnits latency)
  match freePoint s p w (q.tickets.length + 1) (target * 2 ^ 16) with
  | some k => if instDiff (roundPoint (gridPoint s p k)) s.datum ≤ horizon then some k else none
  | none => none

/-! ## Counters of Stakeout (R127) -/

/-- Address of counter k of port p. -/
def skoCnt (p : Fin 4) (k : Nat) : Nat := A.SKO_P_CNT_W0 p k

/-- Count STAKED 0, LATE 1, PAUSED 2, FROZEN 3, NOTICKET 4, MTU 5, RESTAKE 6 or DEV 7 of a port. -/
def skoCount (p : Fin 4) (k : Nat) (s : State) : State :=
  let s := s.add64 (skoCnt p k) 1
  match k with
  | 1 => irqSet 8 A.SKO_IRQ_STAT (8 + p) s
  | 2 => irqSet 8 A.SKO_IRQ_STAT (12 + p) s
  | 4 => irqSet 8 A.SKO_IRQ_STAT (4 + p) s
  | 7 => irqSet 8 A.SKO_IRQ_STAT p s
  | _ => s

/-- Show the tickets in use, and the high-water mark (SKO_Pn_STAT). -/
def showInUse (p : Fin 4) (s : State) : State :=
  let n := (s.port p).tickets.length
  let s := s.set (F.SKO_P_STAT_INUSE p) n
  s.happen (F.SKO_P_STAT_HWM p) (fun m => if m < n then n else m)

/-! ## Tickets (R117, R118) -/

/-- Find a ticket. -/
def SkoPort.ticket (q : SkoPort) (id : Nat) : Option Ticket := q.tickets.find? (fun t => decide (t.id = id))

/-- Replace a ticket. -/
def SkoPort.putTicket (q : SkoPort) (t : Ticket) : SkoPort :=
  { q with tickets := q.tickets.map (fun x => if x.id = t.id then t else x) }

/-- Remove a ticket: it is FREE. -/
def SkoPort.dropTicket (q : SkoPort) (id : Nat) : SkoPort :=
  { q with tickets := q.tickets.filter (fun t => decide (t.id ≠ id)) }

/-- Free a ticket: it leaves the pool, with its wait for a lane, and the count of tickets in use follows. -/
def freeTicket (p : Fin 4) (id : Nat) (s : State) : State :=
  let s := s.setPort p ((s.port p).dropTicket id)
  showInUse p { s with svp := { s.svp with encrypts := s.svp.encrypts.filter (fun e => decide (e ≠ (p, id))) } }

/-- Discard a ticket: count it in counter `cnt` of R127, and end the trace of a tagged packet with an outcome of R408. -/
def discardTicket (p : Fin 4) (cnt outcome : Nat) (t : Ticket) (s : State) : State :=
  traceEnd t.tag outcome 0 (pmcEvent 4 0x04 p 1 (skoCount p cnt (freeTicket p t.id s)))

/-- The late discard of R118. -/
def discardLate (p : Fin 4) (t : Ticket) (s : State) : State := discardTicket p 1 2 t s

/-- A frame in SENDING ends at once with an error control character, so that the receiver discards it (R118, R124). -/
def cutSending (p : Fin 4) (t : Ticket) (s : State) : State := if t.state = .sending then s.emit (.cut p s.datum) else s

/-- Discard the tickets of a port that satisfy a condition, as frozen (R42, R50, R124). -/
def freezeTickets (p : Fin 4) (c : Ticket → Bool) (s : State) : State :=
  ((s.port p).tickets.filter c).foldl (fun s t => discardTicket p 3 4 t (cutSending p t s)) s

/-- Every ticket but one whose crossing is awaited: entry to SAFE, SHADOW or MAINT, or a Datum step (R118). -/
def outstanding (t : Ticket) : Bool := decide (t.state ≠ .check)

/-- Discard every outstanding ticket of every port (R42, R50). -/
def freezeAll (s : State) : State :=
  freezeTickets 3 outstanding (freezeTickets 2 outstanding (freezeTickets 1 outstanding (freezeTickets 0 outstanding s)))

/-- The port loses signal: its tickets are late (R21, R118). -/
def signalLost (p : Fin 4) (s : State) : State :=
  ((s.port p).tickets.filter outstanding).foldl (fun s t => discardLate p t (cutSending p t s)) s

/-- The pipeline abandons a response under R40: a STAKED, LATE or READY ticket is freed, with no Stakeout counter (R118). -/
def abandonTicket (p : Fin 4) (id : Nat) (s : State) : State :=
  match (s.port p).ticket id with
  | some t =>
    match t.state with
    | .staked | .late | .ready => freeTicket p id s
    | .sending | .check => s
  | none => s

/-- The wire reservation of a ticket at grid index k (R112). -/
def reserve (s : State) (p : Fin 4) (k f : Nat) : Nat × Nat :=
  let g := gridPoint s p k
  (g, g + wireTime s p f)

/-- What a response needs to be staked (R116). -/
structure StakeAsk where
  kind : RespKind
  latency : Nat
  base : Instant
  env : Envelope
  /-- Length of the payload that will be sent. -/
  len : Nat
  tag : Tag

/-- Assign a ticket at step 5 (R112, R113, R117): the ticket's id and departure, or none after counting MTU or NOTICKET, by the MTU and the enable in force at the
staking base (R29). A response over the MTU counts there alone, also while PORTEN is 0 (assumption log 85). -/
def assignTicket (p : Fin 4) (a : StakeAsk) (s : State) : Option (Nat × Instant) × State :=
  let f := a.env.length a.len
  let q := s.port p
  let o := s.asOf a.base
  if o.get (F.PRT_MAXFRM_MAXFRM p) < f then (none, traceEnd a.tag 6 0 (skoCount p 5 s))
  else if !(o.bit A.SKO_CTL p) || q.suspended || !q.model.valid || decide (8192 ≤ q.tickets.length) then
    (none, traceEnd a.tag 5 0 (skoCount p 4 s))
  else match departurePoint s p a.latency a.base (wireTime s p f) with
    | none => (none, traceEnd a.tag 5 0 (skoCount p 4 s))
    | some k =>
      let r := reserve s p k f
      let dep := roundPoint r.1
      let t : Ticket := {
        id := q.nextId, state := .staked, kind := a.kind, dep := dep, gridK := k, moved := 0, resFrom := r.1, resTo := r.2,
        restaked := false, latency := a.latency, base := a.base, comp := compTx s ⟨p.val, by omega⟩, env := a.env, payload := [],
        client := none, tag := a.tag, nts := none }
      let s := s.setPort p { q with tickets := q.tickets ++ [t], nextId := q.nextId + 1 }
      let s := pmcEvent 4 0x02 p 1 (skoCount p 0 (showInUse p s))
      (some (t.id, dep), traceMod a.tag (fun x => { x with dep := some dep }) (traceStage a.tag 6 s))

/-- The load deadline: 96 DCLK before the departure (R118). -/
def Ticket.deadline (t : Ticket) : Instant := instAdd t.dep (-loadLead)

/-- The load deadline of a STAKED ticket passes (R118). -/
def deadlinePass (p : Fin 4) (t : Ticket) (s : State) : State :=
  if s.get (F.SKO_P_LAT1_LATETOL p) = 0 ∨ t.restaked = true then discardLate p t s
  else s.setPort p ((s.port p).putTicket { t with state := .late, resTo := t.resFrom })

/-- The client entry that a request was rated with, where its place still holds it: an entry with another TAG is another client's (R90, R95, R96). -/
def clientAt (s : State) (key : Nat × Nat) : Option Client := (s.svp.table.get key.1).filter (fun c => decide (c.tag = key.2))

/-- The cache, where it holds the bucket of an entry that has changed, has the entry to write back (R97). -/
def markDirty (k : Nat) (s : State) : State :=
  if s.svp.cached.contains (k / 8) && !(s.svp.dirty.contains k) then { s with svp := { s.svp with dirty := s.svp.dirty ++ [k] } } else s

/-- Change a client entry where its place still holds it. -/
def clientMod (key : Nat × Nat) (f : Client → Client) (s : State) : State :=
  if (clientAt s key).isSome then markDirty key.1 { s with svp := { s.svp with table := s.svp.table.modify key.1 f } } else s

/-- Rewrite the PREVTX of a client entry (R90, R120). -/
def setPrevTx (key : Option (Nat × Nat)) (dep : Instant) (s : State) : State :=
  match key with
  | none => s
  | some k => clientMod k (fun c => { c with prevTx := ntpTime s dep }) s

/-- What a re-stake rewrites in the response (R120). -/
def rewrite (s : State) (kind : RespKind) (dep : Instant) (b : Bytes) : Bytes :=
  match kind with
  | .ntpBasic | .nts => patch b 40 (natBE 8 (ntpTime s dep))
  | .sync => patch (patch b 34 (ptpStamp dep)) 8 (natBE 8 (instFrac dep))
  | .ntpInterleaved | .kod | .delayResp | .announce => b

/-- A ticket's response is at the gate, READY. The keys in its context are overwritten there (R166). -/
def Ticket.atGate (t : Ticket) : Ticket := { t with state := .ready, nts := none }

/-- A response waits for an SIV lane (R164, R167). -/
def askLane (p : Fin 4) (id : Nat) (s : State) : State := { s with svp := { s.svp with encrypts := s.svp.encrypts ++ [(p, id)] } }

/-- A late response is staked once more, from its arrival at the gate (R120). A rewritten response is at the gate again, but for an
NTS-protected one, whose tag a lane computes anew. DESIGN CHOICE (assumption log 88): a suspension of assignment under R124 or R137 does not hold a re-stake, which takes
the grid model that stands. -/
def restake (p : Fin 4) (t : Ticket) (s : State) : State :=
  let f := t.env.length t.payload.length
  match departurePoint s p t.latency s.datum (wireTime s p f) with
  | none => discardLate p t s
  | some k =>
    let r := reserve s p k f
    let dep := roundPoint r.1
    let u : Ticket := { t with
      dep := dep, gridK := k, moved := 0, resFrom := r.1, resTo := r.2, restaked := true
      payload := rewrite s t.kind dep t.payload, comp := compTx s ⟨p.val, by omega⟩ }
    let s := skoCount p 6 (if t.kind = .nts then askLane p t.id (s.setPort p ((s.port p).putTicket { u with state := .staked }))
      else s.setPort p ((s.port p).putTicket u.atGate))
    let s := setPrevTx t.client dep s
    traceMod t.tag (fun x => { x with dep := some dep, restaked := true }) (traceStage t.tag 6 s)

/-- A complete response reaches the gate (R118): READY, or re-staked, or discarded. -/
def gateLoad (p : Fin 4) (id : Nat) (s : State) : State :=
  match (s.port p).ticket id with
  | none => s
  | some t =>
    let late := fun (u : Ticket) (s : State) =>
      if after s.datum (instAdd u.deadline (nsUnits (s.get (F.SKO_P_LAT1_LATETOL p)))) then discardLate p u s else restake p u s
    match t.state with
    | .staked =>
      if after s.datum t.deadline then
        let s := deadlinePass p t s
        match (s.port p).ticket id with
        | some u => late u s
        | none => s
      else traceStage t.tag 8 (s.setPort p ((s.port p).putTicket t.atGate))
    | .late => late t s
    | .ready | .sending | .check => s

/-- Put a finished response into its ticket and load it at the gate (steps 6 and 7 of R24). -/
def loadResponse (p : Fin 4) (id : Nat) (payload : Bytes) (client : Option (Nat × Nat)) (s : State) : State :=
  match (s.port p).ticket id with
  | none => s
  | some t =>
    gateLoad p id (traceStage t.tag 7 (s.setPort p ((s.port p).putTicket { t with payload := payload, client := client })))

/-! ## Pause of the timing class (R121, R122) -/

/-- Whether a class of a main port is paused at an instant (R202). PAUSE and PFC each keep one interval for the class. -/
def classPaused (s : State) (p : Fin 4) (tc : Nat) (t : Instant) : Bool :=
  (s.prt.pauses.filter (fun x => decide (x.port = p.val ∧ x.tc = tc))).any
    (fun x => decide (0 ≤ instDiff t x.from_) && decide (instDiff t x.to_ < 0))

/-! ## Commands -/

/-- TICKET_LOAD_DEADLINE: the load deadline of a STAKED ticket has passed (R118). Before it, the event does not happen. -/
def execTicketLoadDeadline (port : Fin 4) (ticket : Nat) (s : State) : Host.Outcome State Fault Refusal :=
  .next (match (s.port port).ticket ticket with
    | some t => if t.state = .staked ∧ after s.datum t.deadline = true ∧ halted s = false then deadlinePass port t s else s
    | none => s)

/-- LATE_TOLERANCE_EXPIRY: LATETOL has elapsed after the missed deadline of a LATE ticket (R118). -/
def execLateToleranceExpiry (port : Fin 4) (ticket : Nat) (s : State) : Host.Outcome State Fault Refusal :=
  .next (match (s.port port).ticket ticket with
    | some t =>
      if t.state = .late ∧ after s.datum (instAdd t.deadline (nsUnits (s.get (F.SKO_P_LAT1_LATETOL port)))) = true ∧ halted s = false then
        discardLate port t s
      else s
    | none => s)

/-- GATE_RELEASE: the departure instant of a READY ticket is reached (R118, R119, R122): the frame starts on its grid point, or the
response is discarded when the timing class is paused. DESIGN CHOICE (assumption log 90): a frame that is not staked and is on the wire since before the ticket was assigned
does not hold it. -/
def execGateRelease (port : Fin 4) (ticket : Nat) (s : State) : Host.Outcome State Fault Refusal :=
  .next (match (s.port port).ticket ticket with
    | some t =>
      if t.state = .ready ∧ after t.dep s.datum = false ∧ halted s = false then
        if classPaused s port (s.get (F.SKO_P_CFG_TC port)) t.dep then discardTicket port 2 3 t s
        else
          let f := withFcs (t.env.frame t.payload)
          (((s.setPort port ((s.port port).putTicket { t with state := .sending }))).emit (.frame port f t.dep))
      else s
    | none => s)

/-- TX_FRAME_DONE: the last bit of a staked frame leaves (R118). -/
def execTxFrameDone (port : Fin 4) (ticket : Nat) (s : State) : Host.Outcome State Fault Refusal :=
  .next (match (s.port port).ticket ticket with
    | some t =>
      if t.state = .sending then
        portSent port (t.env.length t.payload.length) (s.setPort port ((s.port port).putTicket { t with state := .check, resTo := t.resFrom }))
      else s
    | none => s)

/-- The deviation check of R125 on a crossing: DEVMAX, and above 1 ns the count, the fault event and its record (R455). DESIGN CHOICE (assumption log 91): the ps of
DEVMAX are cut, not rounded. -/
def checkDeviation (p : Fin 4) (t : Ticket) (crossing : Instant) (s : State) : State :=
  let d := instDiff crossing t.dep
  let ps := d.natAbs * 1000 / 65536
  let s := s.happen (F.SKO_P_DEVMAX_DEV p) (fun m => if m < ps then (if 2 ^ 32 ≤ ps then 2 ^ 32 - 1 else ps) else m)
  if 65536 < d.natAbs then
    skoCount p 7 { s with flt := { s.flt with queue := s.flt.queue ++ [⟨.stkDeviation, p, crossing,
      ofSigned 32 (clampInt (-(2 ^ 31)) (2 ^ 31 - 1) d), instNs t.dep, instSec t.dep % 2 ^ 32⟩] } }
  else s

/-- EGRESS_CROSSING_REPORT: the egress Stake unit reports a capture of a frame in CHECK, in units of 2^-32 ns; Stakeout checks the deviation
and frees the ticket (R118, R125, R131, R137). -/
def execEgressCrossingReport (port : Fin 4) (ticket capture : Nat) (s : State) : Host.Outcome State Fault Refusal :=
  .next (match (s.port port).ticket ticket with
    | some t =>
      if t.state = .check ∧ halted s = false then
        let event := decide (t.kind = .sync) || decide (t.kind = .delayResp)
        let r := egressStamp ⟨port.val, by omega⟩ capture t.comp (event && decide (t.kind = .sync)) s
        let s := checkDeviation port t r.1 r.2
        freeTicket port ticket (traceEnd t.tag 0 0 (traceAt t.tag 9 r.1 (pmcEvent 4 0x03 port 1 s)))
      else s
    | none => s)

/-- The surviving tickets of a restart after the first refresh of the model (R124): a ticket stays only when its recorded grid point lies within 250 ps of its
departure under the new model. -/
def judgeSurvivors (p : Fin 4) (s : State) : State :=
  let near := fun (t : Ticket) => decide (t.moved ≤ t.gridK)
    && decide (((gridPoint s p (t.gridK - t.moved) : Int) - (t.dep : Int) * (2 ^ 16 : Int)).natAbs ≤ 2 ^ 32 / 4)
  freezeTickets p (fun t => outstanding t && !(near t)) s

/-- The anchor that a capture of a start position gives, in units of 2^-32 ns: at the timestamp reference plane, as any egress timestamp of the unit
(R110, R131, R135). -/
def gridAnchor (s : State) (p : Fin 4) (capture : Nat) : Nat :=
  let n : Fin 7 := ⟨p.val, by omega⟩
  ((capture : Int) + (2 * compTxAt s n capture * 2 ^ 32 + 1000) / 2000).toNat

/-- GRID_MODEL_REFRESH: the egress Stake unit refreshes the model of a port whose link is up, from the capture of a start position and the number of start
positions since the last anchor (R111). It ends a suspension (R124, R137). While DCLK is stopped there is none (R138). -/
def execGridModelRefresh (port : Fin 4) (anchor : GridCapture) (spacing : Nat) (codePos : Fin 80) (byte4 : Bool) (s : State) :
    Host.Outcome State Fault Refusal :=
  .next (if s.on (F.PRT_P_STAT_LINK port) && decide (0 < spacing) && dclkRuns s then
      let q := s.port port
      let s := s.setPort port { q with
        model := ⟨true, gridAnchor s port anchor.capture, spacing, codePos, byte4⟩, suspended := false, checkSurvivors := false
        tickets := q.tickets.map (fun t => { t with moved := t.moved + anchor.passed }) }
      let v := spacing % 2 ^ 37
      let s := ((s.set (F.SKO_P_PERIOD_W0_PERIOD port) v).set (F.SKO_P_PERIOD_W1_PERIOD port) (v / 2 ^ 32)).set (F.SKO_P_PERIOD_W1_VALID port) 1
      if q.checkSurvivors then judgeSurvivors port s else s
    else s)

/-- SKO_COUNTER_CLEAR: the eight counters of a port (R127). -/
def skoCounterClear (port : Fin 4) (s : State) : State := s.clear64s (skoCnt port 0) 8

end Sys2Proof.Machine
end

