-- ==== Sys2Proof/Machine/Ecc.lean ====
section
/-! DEFINITION. What the error check of DRAM and SRAM does with an error that an access or the patrol scrub finds (R40, R384). -/
namespace Sys2Proof.Machine

/-- Mark the stored copy of a Field Book entry as unreadable (R40). -/
def Entry.spoil (e : Entry) : Entry := { e with bad := true }

/-- Change the entry at a place of a list. -/
def modifyAt {α : Type} (f : α → α) : Nat → List α → List α
  | _, [] => []
  | 0, x :: xs => f x :: xs
  | n + 1, x :: xs => x :: modifyAt f n xs

/-- What a double-bit error destroys (R40, R384). -/
def loseHeld (h : Held) (s : State) : State :=
  match h with
  | .nothing => s
  | .client key => { s with svp := { s.svp with table := s.svp.table.del key, dirty := s.svp.dirty.filter (fun k => decide (k ≠ key)) } }
  | .frame pl index =>
    let q := (s.svp.queues[pl]).eraseIdx index
    { s with svp := { s.svp with queues := s.svp.queues.set pl q } }.set (F.SVP_PL_STAT_QDEPTH pl) q.length
  | .ticket port id => abandonTicket port id s
  | .session id => abortSession id (dropSession id s)
  | .entry seg index =>
    { s with fbk := { s.fbk with segs := s.fbk.segs.modify seg (fun g => { g with entries := modifyAt Entry.spoil index g.entries }) } }
  | .retained index =>
    { s with fbk := { s.fbk with retained := modifyAt (fun (x : Nat × Entry) => (x.1, x.2.spoil)) index s.fbk.retained } }
  | .regCopy addr =>
    match findRow addr.toNat with
    | some r => if r.image then s.wr addr.toNat (resetWord addr.toNat) else s
    | none => s

/-- An access meets an error: a single-bit error is corrected and reported, a double-bit error has its effect and is reported (R40). -/
def eccApply (h : EccHit) (s : State) : State :=
  match h with
  | .none => s
  | .single sram source => faultSend (if sram then .eccSramSbe else .eccDramSbe) source 0 0 0 s
  | .double sram region held => faultSend (if sram then .eccSramDbe else .eccDramDbe) region 0 0 0 (loseHeld held s)

/-- PATROL_SCRUB: the scrub reads a word and handles what it finds like an access (R384). -/
def execPatrolScrub (ecc : EccHit) (s : State) : Host.Outcome State Fault Refusal := .next (eccApply ecc s)

end Sys2Proof.Machine
end

