-- ==== Sys2Proof/Machine/Ke.lean ====
section
/-! DEFINITION. The key-establishment server: sessions, TLS choices, NTS-KE records, certificates (R151-R161), and the end of a PKE operation (R173, R176). -/
namespace Sys2Proof.Machine

/-! ## Certificates (R159, R160) -/

/-- The head of a DER item: tag, length of the content, bytes of the head. -/
def derHead (b : Bytes) : Nat × Nat × Nat :=
  let l := beAt b 1 1
  if l < 128 then (beAt b 0 1, l, 2) else (beAt b 0 1, beAt b 2 (l - 128), 2 + (l - 128))

/-- The items of a DER content: tag and content of each, at most `n`. -/
def derItems : Nat → Bytes → List (Nat × Bytes)
  | 0, _ => []
  | n + 1, b =>
    if b.length < 2 then []
    else
      let h := derHead b
      (h.1, slice b h.2.2 h.2.1) :: derItems n (b.drop (h.2.2 + h.2.1))

/-- Content of the i-th item. -/
def derChild (i : Nat) (b : Bytes) : Bytes := ((derItems 16 b).getD i (0, [])).2

/-- The tbsCertificate items of the leaf of a chain, without the version: serial, algorithm, issuer, validity, subject, key (RFC 5280). -/
def leafItems (chain : Bytes) : List (Nat × Bytes) :=
  let l := derItems 16 (derChild 0 (derChild 0 chain))
  if (l.head?.map (·.1)) = some 0xA0 then l.tail else l

/-- The subject public key bits of the leaf. -/
def leafKey (chain : Bytes) : Bytes := (derChild 1 (((leafItems chain).getD 5 (0, [])).2)).drop 1

/-- Two ASCII digits. -/
def twoDigits (b : Bytes) (o : Nat) : Nat := (beAt b o 1 - 48) * 10 + (beAt b (o + 1) 1 - 48)

/-- Days from 1970-01-01 to a civil date. -/
def civilDays (y m d : Nat) : Nat :=
  let y' := if m ≤ 2 then y - 1 else y
  let m' := if m ≤ 2 then m + 9 else m - 3
  365 * y' + y' / 4 - y' / 100 + y' / 400 + (153 * m' + 2) / 5 + d - 1 - 719468

/-- The time of a UTCTime or a GeneralizedTime in UTC seconds since 1970. -/
def derTime (i : Nat × Bytes) : Nat :=
  let g := decide (i.1 = 0x18)
  let b := i.2
  let y := if g then twoDigits b 0 * 100 + twoDigits b 2 else (if twoDigits b 0 < 50 then 2000 else 1900) + twoDigits b 0
  let o := if g then 4 else 2
  civilDays y (twoDigits b o) (twoDigits b (o + 2)) * 86400 + twoDigits b (o + 4) * 3600 + twoDigits b (o + 6) * 60 + twoDigits b (o + 8)

/-- notAfter of the leaf. -/
def leafNotAfter (chain : Bytes) : Nat := derTime ((derItems 4 ((leafItems chain).getD 3 (0, [])).2).getD 1 (0, []))

/-- Whether the leaf's key is the slot's key (R159). An EC key stands as an uncompressed point, an RSA key as modulus and exponent. -/
def leafMatches (chain : Bytes) (k : KeySlot) : Bool :=
  let b := leafKey chain
  match k.typ with
  | 2 | 3 | 4 => decide (b = 4 :: k.pub)
  | 6 => decide (b = k.pub)
  | 7 =>
    let w := 8 * (k.bits / 64)
    let c := derChild 0 b
    decide (beNat (derChild 0 c) = beAt k.pub 0 w) && decide (beNat (derChild 1 c) = beAt k.pub w 8)
  | _ => false

/-- The key type that a SCHEME wants. -/
def schemeType (scheme : Nat) : Nat := if scheme = 0 then 2 else if scheme = 1 then 3 else if scheme = 2 then 6 else 7

/-- The checks of R159 on entry n. The reserved keys sign no handshake (R161, R185). -/
def certGood (s : State) (n : Nat) : Bool :=
  match s.pke.slots.get (s.get (F.SPU_KE_CERT_KEYSLOT n)), s.ke.chains.get n with
  | some k, some c =>
    decide (s.get (F.SPU_KE_CERT_KEYSLOT n) < 510) && decide (k.typ = schemeType (s.get (F.SPU_KE_CERT_SCHEME n)))
      && (decide (k.typ ≠ 7) || (decide (2048 ≤ k.bits) && decide (k.bits ≤ 4096))) && leafMatches c k
  | _, _ => false

/-- Entry n is enabled and valid. -/
def certValid (s : State) (n : Nat) : Bool := s.on (F.SPU_KE_CERT_EN n) && s.bit A.SPU_KE_STAT (24 + n)

/-- Check the entries during BOOT (R159): one that fails is disabled and recorded. -/
def checkCerts (s : State) : State :=
  ([0, 1, 2, 3] : List Nat).foldl (fun s n =>
    if s.on (F.SPU_KE_CERT_EN n) then
      if certGood s n then s.setBit A.SPU_KE_STAT (24 + n)
      else record 0x4001 0 0 0 0 (s.clrBit A.SPU_KE_STAT (24 + n))
    else s.clrBit A.SPU_KE_STAT (24 + n)) s

/-- UTC seconds since 1970 of the Datum. -/
def utcSeconds (s : State) : Int := ((instSec s.datum : Nat) : Int) - s.getI F.DTM_UTC_STAT_OFFSET

/-- Whether the leaf of entry n lies within 14 days of notAfter, or past it (R160). -/
def certAged (s : State) (n : Nat) : Bool :=
  certValid s n && (match s.ke.chains.get n with
    | some c => decide (((leafNotAfter c : Nat) : Int) - 14 * 86400 ≤ utcSeconds s)
    | none => false)

/-- CERT_EXPIRY: the daily look at the enabled leaf certificates (R160). The record of an entry is written once per UTC day. -/
def execCertExpiry (s : State) : Host.Outcome State Fault Refusal :=
  .next (([0, 1, 2, 3] : List Nat).foldl (fun s n =>
    let day := (utcSeconds s / 86400).toNat
    if certAged s n && decide (s.ke.expiryDay.get n ≠ some day) then
      record 0x4002 0 0 0 0 (alarmRaise 4 { s with ke := { s.ke with expiryDay := s.ke.expiryDay.put n day } })
    else s) s)

/-! ## Sessions (R151-R157) -/

/-- Discard every open session (R157): nothing is sent, the state is scrubbed, and the sessions are counted. Of the segments that wait, only a SYN belongs to no session. -/
def discardSessions (s : State) : State :=
  let n := s.ke.sessions.length
  let s := s.ke.sessions.foldl (fun s x => abortSession x.id s)
    { s with ke := { s.ke with sessions := [], sealing := [], segments := s.ke.segments.filter (fun e => isSyn e.2) } }
  showSessions (keCount 7 n s)

/-- A session as its SYN opens it. -/
def KeSession.start (id port sa : Nat) (peer : Nat × Nat) (now : Nat) : KeSession :=
  { id := id, port := port, phase := 0, since := now, retried := false, suite := 0, group := 0, cert := 0, share := [], scalar := [], secret := [],
    sa := sa, peer := peer, legacy := [], transcript := [], hello := [], flight := [], rx := ⟨[], 0⟩, tx := ⟨[], 0⟩, clientNext := [], finished := false,
    early := 0, stream := [], part := [], data := [], closed := false }

/-- A SYN opens a session, or is dropped and counted (R156, R159). A repeated SYN opens no second one. -/
def openSession (sa : Nat) (i : PlItem) (s : State) : State :=
  if ([0, 1, 2, 3] : List Nat).all (fun n => !(certValid s n)) then keCount 6 1 s
  else if s.ke.sessions.any (fun x => x.owns sa i) then s
  else if s.get F.SPU_KE_CFG_MAXSESS ≤ s.ke.sessions.length then keCount 5 1 s
  else
    showSessions { s with ke := { s.ke with
      sessions := s.ke.sessions ++ [KeSession.start s.ke.nextId i.port sa (segmentPeer i) s.now], nextId := s.ke.nextId + 1 } }

/-- NTSKE_SYN: the service processors take the oldest TCP SYN to port 4460 of a service address that a pipeline delivered (R23, R151, R156, R159). A unit that answers no
service address accepts none (R303). -/
def execNtskeSyn (sa : Fin 272) (s : State) : Host.Outcome State Fault Refusal :=
  .next (match s.ke.segments.find? (fun e => decide (e.1 = sa.val) && isSyn e.2) with
    | none => s
    | some e =>
      if halted s then s
      else
        let s := { s with ke := { s.ke with segments := s.ke.segments.erase e } }
        if answering s then openSession sa e.2 s else s)

/-- The suites enabled, in the order that SUITEPREF gives: 0x1301 AES-128, 0x1302 AES-256. -/
def suiteOrder (s : State) : List Nat :=
  let a := if s.on F.SPU_KE_CFG_AES128 then [0x1301] else []
  let b := if s.on F.SPU_KE_CFG_AES256 then [0x1302] else []
  if s.on F.SPU_KE_CFG_SUITEPREF then b ++ a else a ++ b

/-- The groups in SPU_KE_GRP order: 1 x25519, 2 secp256r1, 3 secp384r1. -/
def groupOrder (s : State) : List Nat :=
  [s.get F.SPU_KE_GRP_G0, s.get F.SPU_KE_GRP_G1, s.get F.SPU_KE_GRP_G2].filter (fun g => decide (g ≠ 0))

/-- The block of a PKE request with LEN words. -/
def pkeBlock (op curve len slot flags xarg : Nat) (operands : Bytes) : Bytes :=
  natLE 1 op ++ natLE 1 curve ++ natLE 2 len ++ natLE 2 slot ++ natLE 1 flags ++ [0] ++ natLE 4 xarg ++ zeros 4 ++ operands

/-- The key-pair request of a group. -/
def keygenBlock (group : Nat) : Bytes :=
  if group = 1 then pkeBlock 0x19 4 4 0 0 0 [] else if group = 2 then pkeBlock 0x12 1 4 0 0 0 [] else pkeBlock 0x12 2 6 0 0 0 []

/-- The key-agreement request. -/
def agreeBlock (group : Nat) (scalar share : Bytes) : Bytes :=
  if group = 1 then pkeBlock 0x18 4 4 0 0 0 (scalar ++ share)
  else if group = 2 then pkeBlock 0x13 1 4 0 0 0 (scalar ++ share) else pkeBlock 0x13 2 6 0 0 0 (scalar ++ share)

/-- The length of a public key share. -/
def shareLen (group : Nat) : Nat := if group = 1 then 32 else if group = 2 then 64 else 96

/-- A client's key as the engine takes it: u, or x and y of an uncompressed point; none where it is neither. -/
def shareKey (group : Nat) (b : Bytes) : Option Bytes :=
  if group = 1 then (if b.length = 32 then some b else none)
  else if b.length = shareLen group + 1 ∧ beAt b 0 1 = 4 then some (b.drop 1) else none

/-- The key of the server as a key share. -/
def serverShare (group : Nat) (pub : Bytes) : Bytes := natBE 2 (groupName group) ++ lenBytes 2 ((if group = 1 then [] else [4]) ++ pub)

/-! ## The ClientHello (R152, R153) -/

/-- The dummy change_cipher_spec that follows a first message where the client gave a session identifier (RFC 8446, D.4). -/
def sendCcs (x : KeSession) (s : State) : KeSession × State := if x.legacy = [] then (x, s) else tlsSend x 20 [1] s

/-- Ask for a key share of another group, once (R152). -/
def helloRetry (x : KeSession) (h : Hello) (msg : Bytes) (suite g : Nat) (s : State) : State :=
  let m := serverHello retryRandom h.legacy suite (natBE 2 (groupName g))
  let y := { x with
    retried := true, suite := suite, group := g, legacy := h.legacy, transcript := handshake 254 (tlsHash suite msg) ++ m
    early := if h.early then 16384 else 0 }
  let r := tlsSend y 22 m s
  (sendCcs r.1 r.2).2

/-- A ClientHello whose choices are made: the key pair is asked for. -/
def helloTaken (x : KeSession) (h : Hello) (msg share : Bytes) (suite g cert : Nat) (s : State) : State :=
  let y := { x with
    phase := 1, suite := suite, group := g, cert := cert, share := share, legacy := h.legacy, transcript := x.transcript ++ msg
    early := if h.early then 16384 else x.early }
  spuRequest (.session x.id) (keygenBlock g) none (putSession y s)

/-- The choices of R152: after a HelloRetryRequest, only the suite and the group that it named. -/
def chooseHello (x : KeSession) (h : Hello) (msg : Bytes) (s : State) : State :=
  if h.alpn.contains (label "ntske/1") = false then keAlert x.id 120 s
  else
    let suites := if x.retried then [x.suite] else suiteOrder s
    let groups := if x.retried then [x.group] else groupOrder s
    let cert := ([0, 1, 2, 3] : List Nat).find? (fun n => certValid s n && h.schemes.contains (s.get (F.SPU_KE_CERT_SCHEME n)))
    match suites.find? (fun u => h.suites.contains u), cert with
    | some suite, some n =>
      match groups.find? (fun g => h.shares.any (fun e => decide (e.1 = g))) with
      | some g =>
        match shareKey g (((h.shares.find? (fun e => decide (e.1 = g))).map (·.2)).getD []) with
        | some k => helloTaken x h msg k suite g n s
        | none => keAlert x.id 47 s
      | none =>
        match groups.find? (fun g => h.groups.contains g) with
        | some g => if x.retried then keAlert x.id 40 s else helloRetry x h msg suite g s
        | none => keAlert x.id 40 s
    | _, _ => keAlert x.id 40 s

/-- Handshake octets before the ClientHello is whole, and then the ClientHello. -/
def helloBytes (x : KeSession) (s : State) : State :=
  let n := beAt x.part 1 3
  if beAt x.part 0 1 ≠ 1 then keAlert x.id 10 s
  else if 4 ≤ x.part.length ∧ 16384 < n then keAlert x.id 22 s
  else if x.part.length < 4 ∨ x.part.length < 4 + n then putSession x s
  else if 4 + n < x.part.length then keAlert x.id 10 s
  else match parseHello (x.part.drop 4) with
    | .error code => keAlert x.id code s
    | .ok h => chooseHello { x with part := [] } h x.part s

/-- A record before the keys exist. After a HelloRetryRequest a change_cipher_spec is dropped, and so are the octets of 0-RTT records (R153). -/
def clearRecord (kind : Nat) (b : Bytes) (x : KeSession) (s : State) : State :=
  if kind = 22 then helloBytes { x with part := x.part ++ b } s
  else if kind = 20 ∧ b = [1] ∧ x.retried = true then putSession x s
  else if kind = 23 ∧ x.retried = true ∧ b.length ≤ x.early then putSession { x with early := x.early - b.length } s
  else if kind = 21 then dropSession x.id s
  else keAlert x.id 10 s

/-! ## Protected records (R151, R153) -/

/-- A KeyUpdate of the client: its keys move on, and where it asks for that, so do the server's after an update of its own. -/
def keyUpdate (x : KeSession) (ask : Nat) (s : State) : State :=
  let x := { x with rx := x.rx.next x.suite, part := [] }
  if 1 < ask then keAlert x.id 47 s
  else if ask = 0 ∨ x.phase = 5 then putSession x s
  else
    let r := tlsSend x 22 (handshake 24 [0]) s
    putSession { r.1 with tx := r.1.tx.next x.suite } r.2

/-- The client's Finished: its application keys follow. -/
def clientFinished (x : KeSession) (data : Bytes) (s : State) : State :=
  if data = finishedData x.suite x.rx.secret (tlsHash x.suite x.transcript) then
    putSession { x with finished := true, rx := ⟨x.clientNext, 0⟩, clientNext := [], transcript := [], early := 0, part := [] } s
  else keAlert x.id 51 s

/-- Protected handshake octets: Finished, and after it KeyUpdate. Each ends its record, since the keys change behind it. -/
def sealedHandshake (x : KeSession) (s : State) : State :=
  let n := beAt x.part 1 3
  let kind := beAt x.part 0 1
  if 4 ≤ x.part.length ∧ 16384 < n then keAlert x.id 22 s
  else if x.part.length < 4 ∨ x.part.length < 4 + n then putSession x s
  else if 4 + n < x.part.length then keAlert x.id 10 s
  else if x.finished = false ∧ kind = 20 then clientFinished x (x.part.drop 4) s
  else if x.finished = true ∧ kind = 24 then (if n = 1 then keyUpdate x (beAt x.part 4 1) s else keAlert x.id 50 s)
  else keAlert x.id 10 s

/-- The content of a protected record. -/
def sealedContent (kind : Nat) (b : Bytes) (x : KeSession) (s : State) : State :=
  if 16384 < b.length then keAlert x.id 22 s
  else if kind = 22 then sealedHandshake { x with part := x.part ++ b } s
  else if kind = 23 ∧ x.finished = true then putSession { x with data := x.data ++ b } s
  else if kind = 21 then (if beAt b 1 1 = 0 then putSession { x with closed := true } s else dropSession x.id s)
  else keAlert x.id 10 s

/-- A record once the keys exist. Before Finished, a change_cipher_spec is dropped, and a record that does not verify is one of 0-RTT, as long as R153 lets it be. -/
def sealedRecord (kind : Nat) (head b : Bytes) (x : KeSession) (s : State) : State :=
  if kind = 20 ∧ b = [1] ∧ x.finished = false then putSession x s
  else if kind = 21 ∧ x.finished = false then dropSession x.id s
  else if kind ≠ 23 then keAlert x.id 10 s
  else match gcmOpen (x.rx.key x.suite) (x.rx.nonce x.suite) head b with
    | none =>
      if x.finished = false ∧ b.length ≤ x.early then putSession { x with early := x.early - b.length } s else keAlert x.id 20 s
    | some p =>
      let q := (p.reverse.dropWhile (fun v => decide (v = 0))).reverse
      if q = [] then keAlert x.id 10 s
      else sealedContent (beAt q (q.length - 1) 1) q.dropLast { x with rx := { x.rx with seq := x.rx.seq + 1 } } s

/-- The most octets of a record's fragment (R151, R153). -/
def recordLimit (kind : Nat) : Nat := if kind = 23 then 16384 + 256 else 16384

/-- Take the whole records that have come on a connection, at most `n`: in the phases in which the server waits for the client. -/
def takeRecords : Nat → Nat → State → State
  | 0, _, s => s
  | n + 1, id, s =>
    match s.session id with
    | none => s
    | some x =>
      let kind := beAt x.stream 0 1
      let len := beAt x.stream 3 2
      if (x.phase ≠ 0 ∧ x.phase < 4) ∨ x.stream.length < 5 then s
      else if recordLimit kind < len then keAlert id 22 s
      else if x.stream.length < 5 + len then s
      else
        let y := { x with stream := x.stream.drop (5 + len) }
        takeRecords n id
          (if x.phase = 0 then clearRecord kind (slice x.stream 5 len) y s else sealedRecord kind (x.stream.take 5) (slice x.stream 5 len) y s)

/-- The connection brings octets: the segments that carried them are taken, and the whole records among them. -/
def tlsInput (x : KeSession) (b : Bytes) (closed : Bool) (s : State) : State :=
  let s := { s with ke := { s.ke with segments := s.ke.segments.filter (fun e => isSyn e.2 || !(x.owns e.1 e.2)) } }
  takeRecords (x.stream.length + b.length) x.id (putSession { x with stream := x.stream ++ b, closed := x.closed || closed } s)

/-- TLS_CLIENT_HELLO: the octets of a connection that waits for its ClientHello: the choices of R152 and the refusals of R153. -/
def execTlsClientHello (session : Nat) (records : Bytes) (s : State) : Host.Outcome State Fault Refusal :=
  .next (match s.session session with
    | none => s
    | some x => if x.phase = 0 ∧ halted s = false then tlsInput x records false s else s)

/-- TLS_KEY_UPDATE: the octets of a connection behind the client's Finished: a KeyUpdate among them is answered as TLS 1.3 requires (R151). -/
def execTlsKeyUpdate (session : Nat) (records : Bytes) (s : State) : Host.Outcome State Fault Refusal :=
  .next (match s.session session with
    | none => s
    | some x => if x.finished = true ∧ halted s = false then tlsInput x records false s else s)

/-! ## The server's flight (R151) -/

/-- The Certificate message of an entry: the certificates of its chain, leaf first (R159). -/
def certificateMessage (chain : Bytes) : Bytes :=
  handshake 11 ([0] ++ lenBytes 3 ((certsOf chain.length chain).flatMap (fun c => lenBytes 3 c ++ zeros 2)))
where
  /-- The certificates of a chain, one DER item each. -/
  certsOf : Nat → Bytes → List Bytes
    | 0, _ => []
    | n + 1, b =>
      if b.length < 2 then []
      else
        let h := derHead b
        b.take (h.2.2 + h.2.1) :: certsOf n (b.drop (h.2.2 + h.2.1))

/-- The signature request over a session's transcript. A SCHEME of the P-curves signs the digest, Ed25519 the content itself, RSA its encoding with a salt from the
generator. -/
def signRequest (x : KeSession) (s : State) : State :=
  let slot := s.get (F.SPU_KE_CERT_KEYSLOT x.cert)
  let scheme := s.get (F.SPU_KE_CERT_SCHEME x.cert)
  let c := verifyContent (tlsHash x.suite (x.transcript ++ x.flight))
  let k := s.pke.slots.get slot
  let ask := fun (b : Bytes) (s : State) => spuRequest (.session x.id) b k s
  if scheme = 0 then ask (pkeBlock 0x14 1 4 slot 1 0 (sha256 c)) s
  else if scheme = 1 then ask (pkeBlock 0x14 2 6 slot 1 0 (sha384 c)) s
  else if scheme = 2 then ask (pkeBlock 0x1B 5 4 slot 1 c.length c) s
  else if rngFailed s then keAlert x.id 80 s
  else
    let w := bitWords ((k.map (·.bits)).getD 0)
    let r := s.drawBytes 32
    ask (pkeBlock 0x08 0 w slot 1 0 (emsaPss (8 * w) c r.1)) r.2

/-- The key pair exists: the ServerHello is built, and the shared secret asked for. -/
def keyPairDone (x : KeSession) (res : Bytes) (s : State) : State :=
  if rngFailed s then keAlert x.id 80 s
  else
    let n := shareLen x.group
    let r := s.drawBytes 32
    let y := { x with
      phase := 2, share := [], scalar := res.drop n, hello := serverHello r.1 x.legacy x.suite (serverShare x.group (res.take n)) }
    spuRequest (.session x.id) (agreeBlock x.group (res.drop n) x.share) none (putSession y r.2)

/-- The shared secret exists: EncryptedExtensions and Certificate are built, and the signature asked for. -/
def sharedDone (x : KeSession) (res : Bytes) (s : State) : State :=
  let y := { x with
    phase := 3, scalar := [], secret := handshakeSecret x.suite res, transcript := x.transcript ++ x.hello
    flight := encryptedExtensions ++ certificateMessage ((s.ke.chains.get x.cert).getD []) }
  signRequest y (putSession y s)

/-- The octets of a signature as TLS carries them. -/
def signatureBytes (scheme : Nat) (res : Bytes) : Bytes := if scheme ≤ 1 then derSignature res else res

/-- The signature exists: the server's flight leaves, from ServerHello to Finished, and the keys of the application follow. -/
def flightSend (x : KeSession) (res : Bytes) (s : State) : State :=
  let u := x.suite
  let scheme := s.get (F.SPU_KE_CERT_SCHEME x.cert)
  let h := tlsHash u x.transcript
  let chs := tlsDerive u x.secret "c hs traffic" h
  let shs := tlsDerive u x.secret "s hs traffic" h
  let f := x.flight ++ handshake 15 (natBE 2 (schemeName scheme) ++ lenBytes 2 (signatureBytes scheme res))
  let f := f ++ handshake 20 (finishedData u shs (tlsHash u (x.transcript ++ f)))
  let t := x.transcript ++ f
  let m := masterSecret u x.secret
  let e := tlsHash u t
  let a := tlsSend x 22 x.hello s
  let b := if x.retried then a else sendCcs a.1 a.2
  let c := tlsSend { b.1 with tx := ⟨shs, 0⟩ } 22 f b.2
  putSession { c.1 with
    phase := 4, hello := [], flight := [], transcript := t, rx := ⟨chs, 0⟩, tx := ⟨tlsDerive u m "s ap traffic" e, 0⟩
    clientNext := tlsDerive u m "c ap traffic" e, secret := tlsDerive u m "exp master" e } c.2

/-- An operation of a session ends (R151): the next one follows, or the server's flight leaves. A zero r or s is tried again (R180). -/
def sessionStep (id st : Nat) (res : Bytes) (s : State) : State :=
  match s.session id with
  | none => s
  | some x =>
    match x.phase with
    | 1 => if st = 0 then keyPairDone x res s else keAlert id 80 s
    | 2 => if st = 0 then sharedDone x res s else keAlert id 47 s
    | 3 => if st = 0 then flightSend x res s else if st = 6 then signRequest x s else keAlert id 80 s
    | _ => s

/-- A seal's signature ends: a zero r or s is drawn again (R180). -/
def sealStep (seg st : Nat) (o : PkeOp) (res : Bytes) (s : State) : State :=
  if st = 0 then sealReady seg res s else spuRequest (.seal seg) o.block none s

/-- PKE_OP_COMPLETE: the status is committed when the duration of R177 has run, and the core scrubs its operand memory (R176, R182). Two DCLK
periods are one KCLK; while KCLK is stopped, operations are held (R182). -/
def execPkeOpComplete (core : Fin 16) (s : State) : Host.Outcome State Fault Refusal :=
  .next (match s.core core with
    | none => s
    | some o =>
      match o.outcome with
      | none => s
      | some r =>
        if s.now < o.start + 2 * o.duration ∨ kclkRuns s = false then s
        else
          let s := scrub core s
          let s := if r.1 ≠ 0 ∧ r.1 < 0x10 then pmcEvent 6 0x04 core 1 s else s
          match o.owner with
          | .host k seq => endHost k seq r.1 r.2 s.now s
          | .session id => sessionStep id r.1 r.2 (countDone false r.1 s)
          | .seal seg => sealStep seg r.1 o r.2 (countDone false r.1 s))

/-! ## NTS-KE records (R154, R155) -/

/-- A record: critical, type, body. -/
structure KeRec where
  critical : Bool
  kind : Nat
  body : Bytes
deriving DecidableEq, Repr

/-- Read records up to End of Message: the records, the bytes before End of Message, the bytes after it; none when it does not come. -/
def keRecords : Nat → Bytes → Nat → List KeRec → Option (List KeRec × Nat × Nat)
  | 0, _, _, _ => none
  | n + 1, b, used, acc =>
    if b.length < 4 then none
    else
      let t := beAt b 0 2
      let len := beAt b 2 2
      if b.length < 4 + len then none
      else if t % 32768 = 0 then some (acc.reverse, used, b.length - 4 - len)
      else keRecords n (b.drop (4 + len)) (used + 4 + len) (⟨decide (32768 ≤ t), t % 32768, slice b 4 len⟩ :: acc)

/-- The records of a type. -/
def recsOf (k : Nat) (l : List KeRec) : List KeRec := l.filter (fun r => decide (r.kind = k))

/-- Whether a list of 16-bit numbers holds one. -/
def has16 (x : Nat) (b : Bytes) : Bool := (pieces 2 b).any (fun p => decide (beNat p = x))

/-- One record to send. -/
def keRec (t : Nat) (body : Bytes) : Bytes := natBE 2 t ++ natBE 2 body.length ++ body

/-- An Error record and End of Message. -/
def keError (code : Nat) : Bytes := keRec 0x8002 (natBE 2 code) ++ keRec 0x8000 []

/-- Decimal digits of a number below 1000. -/
def decDigits (n : Nat) : Bytes :=
  let d := fun x => BitVec.ofNat 8 (48 + x % 10)
  if n < 10 then [d n] else if n < 100 then [d (n / 10), d n] else [d (n / 100), d (n / 10), d n]

/-- A hexadecimal digit. -/
def hexDigit (x : Nat) : Byte := BitVec.ofNat 8 (if x < 10 then 48 + x else 87 + x)

/-- An address in text form: dotted decimal, or eight groups of four hexadecimal digits (assumption log 28). -/
def addrText (v6 : Bool) (a : Nat) : Bytes :=
  if v6 then
    ((List.range 8).map (fun i => (List.range 4).map (fun j => hexDigit (a / 16 ^ (31 - 4 * i - j) % 16)))).intersperse [58] |>.flatten
  else ((List.range 4).map (fun i => decDigits (a / 256 ^ (3 - i) % 256))).intersperse [46] |>.flatten

/-- A new cookie (R149): sealed under the key of epoch e, over a nonce from the generator. -/
def sealCookie (r : Bytes × Nat) (e : Nat) (c2s s2c : Bytes) (s : State) : Bytes × State :=
  let n := s.drawBytes 16
  let id := natBE 4 e
  (id ++ n.1 ++ sivSeal (epochKey r e) [id, n.1] (natBE 2 15 ++ zeros 2 ++ c2s ++ s2c), n.2)

/-- `n` new cookies. -/
def sealCookies (r : Bytes × Nat) (e : Nat) (c2s s2c : Bytes) : Nat → State → List Bytes × State
  | 0, s => ([], s)
  | n + 1, s =>
    let c := sealCookie r e c2s s2c s
    let q := sealCookies r e c2s s2c n c.2
    (c.1 :: q.1, q.2)

/-- A counter of R170. -/
def crlCount (k amt : Nat) (s : State) : State := s.add64 (A.CRL_NTS_CNT_W0 k) amt

/-- The C2S key of a session for 0 and its S2C key for 1: the TLS exporter under the label and the context of R155. -/
def exportKey (x : KeSession) (dir : Nat) : Bytes :=
  tlsExport x.suite x.secret "EXPORTER-network-time-security" (natBE 4 0x0000000F ++ natBE 1 dir) 32

/-- The full response of R155. -/
def keFull (r : Bytes × Nat) (x : KeSession) (s : State) : Bytes × State :=
  let q := sealCookies r (epochOf s s.datum) (exportKey x 0) (exportKey x 1) 8 s
  let sa := s.get F.SPU_KE_SRV_SRVSA
  let srv := if s.on F.SPU_KE_SRV_SRVEN then keRec 0x0006 (addrText (s.on (F.SVP_SA_CTL_V6 sa)) (saAddr s sa)) else []
  (keRec 0x8001 (natBE 2 0) ++ keRec 0x8004 (natBE 2 15) ++ srv ++ q.1.flatMap (keRec 0x0005) ++ keRec 0x8000 [],
    crlCount 9 8 q.2)

/-- What R154 makes of a request. -/
inductive KeVerdict where
  /-- End of Message is still to come. -/
  | wait
  | error (code : Nat)
  /-- Rows 4 and 5: the answer. -/
  | empty (answer : Bytes)
  | full
deriving DecidableEq, Repr

/-- The first row of R154 that matches the bytes received. A request whose End of Message has not come by the time that it could stand behind 1,024 bytes has more. -/
def keVerdict (b : Bytes) (closed : Bool) (s : State) : KeVerdict :=
  match keRecords (b.length + 1) b 0 [] with
  | none => if closed ∨ 1028 ≤ b.length then .error 1 else .wait
  | some (recs, used, after) =>
    let np := recsOf 1 recs
    let ae := recsOf 4 recs
    let npb := (np.head?.map (·.body)).getD []
    let aeb := (ae.head?.map (·.body)).getD []
    if 1024 < used ∨ 0 < after then .error 1
    else if recs.any (fun r => r.critical && decide (7 < r.kind)) then .error 0
    else if np.length ≠ 1 ∨ ae.length ≠ 1 ∨ npb.length % 2 = 1 ∨ aeb.length % 2 = 1 then .error 1
    else if has16 0 npb = false then .empty (keRec 0x8001 [] ++ keRec 0x8000 [])
    else if has16 15 aeb = false then .empty (keRec 0x8001 (natBE 2 0) ++ keRec 0x8004 [] ++ keRec 0x8000 [])
    else if rngFailed s ∨ s.on F.CRL_NTS_STAT_ROOTOK = false ∨ s.crl.root = none then .error 2
    else .full

/-- Send the answer and close_notify, and close; the session's secrets are scrubbed, but for those of the connection (R155, R156). -/
def keReply (x : KeSession) (b : Bytes) (s : State) : State :=
  let r := tlsSend x 23 b s
  let c := tlsSend { r.1 with phase := 5, secret := [], data := [] } 21 [1, 0] r.2
  c.2

/-- Answer with an Error record (R154). -/
def keErrorReply (x : KeSession) (code : Nat) (s : State) : State := keReply x (keError code) (keCount 2 1 s)

/-- The full response leaves, once a lane has sealed its cookies (R155, R167). -/
def keFullReply (x : KeSession) (r : Bytes × Nat) (s : State) : State :=
  let q := keFull r x s
  keReply x q.1 (pmcEvent 7 0x05 0 1 (keCount 0 1 q.2))

/-- Judge the request of a session (R154): an answer with cookies waits for a lane. A connection that closes before Finished ends its session. -/
def keJudge (x : KeSession) (s : State) : State :=
  if x.finished = false then (if x.closed then dropSession x.id s else s)
  else match keVerdict x.data x.closed s with
    | .wait => s
    | .error code => keErrorReply x code s
    | .empty b => keReply x b (keCount 1 1 s)
    | .full =>
      let t := putSession { x with phase := 6, data := [] } s
      { t with ke := { t.ke with sealing := t.ke.sealing ++ [x.id] } }

/-- The octets of a session that waits for its request, and what they lead to, up to the cookies (R154). -/
def requestInput (session : Nat) (records : Bytes) (closed : Bool) (s : State) : State :=
  match s.session session with
  | none => s
  | some x =>
    if x.phase ≠ 4 then s
    else
      let s := tlsInput x records closed s
      match s.session session with
      | none => s
      | some y => keJudge y s

/-- Periods of DCLK in a second. -/
def secPeriods : Nat := 1200000000

/-- NTSKE_SESSION_TIMEOUT: a session that has not completed R155 within TIMEOUT of its SYN is reset (R156). -/
def execNtskeSessionTimeout (session : Nat) (s : State) : Host.Outcome State Fault Refusal :=
  .next (match s.session session with
    | none => s
    | some x =>
      if x.phase ≠ 5 ∧ x.since + secPeriods * s.get F.SPU_KE_CFG_TIMEOUT ≤ s.now ∧ halted s = false then
        (keCount 4 1 (abortSession session (dropSession session s))).emit (.tls session [])
      else s)

/-- NTSKE_SESSION_END: the client's close_notify and FIN arrive after the answer (R156). -/
def execNtskeSessionEnd (session : Nat) (s : State) : Host.Outcome State Fault Refusal :=
  .next (match s.session session with
    | none => s
    | some x => if x.phase = 5 ∧ halted s = false then dropSession session s else s)

/-! ## Epochs, counters and the entropy source (R145, R169, R170) -/

/-- NTS_KEY_DERIVE: 60 s before an epoch begins its key is derived (R145). -/
def execNtsKeyDerive (s : State) : Host.Outcome State Fault Refusal :=
  .next (if s.crl.root.isSome then { s with crl := { s.crl with held := heldEpochs s s.datum } } else s)

/-- NTS_EPOCH: an epoch boundary has passed (R145). -/
def execNtsEpoch (s : State) : Host.Outcome State Fault Refusal :=
  .next (let e := epochOf s s.datum
    if s.get F.CRL_NTS_EPOCH_EPOCH = e then s
    else
      let s := s.set F.CRL_NTS_EPOCH_EPOCH e
      let s := if s.crl.root.isSome then { s with crl := { s.crl with held := heldEpochs s s.datum } } else s
      record 0x3001 e 0 0 0 (irqSet 15 A.CRL_NTS_IRQ_STAT 0 s))

/-- CRL_COUNTER_CLEAR (R170). -/
def crlCounterClear (s : State) : State := s.clear64s (A.CRL_NTS_CNT_W0 0) 10

/-- RNG_FAIL: the entropy source fails its health tests (R169). -/
def execRngFail (s : State) : Host.Outcome State Fault Refusal :=
  .next (if rngFailed s then s
    else faultSend .rngFail 18 0 0 0 (pmcEvent 5 0x06 18 1 (irqSet 15 A.CRL_NTS_IRQ_STAT 3 (s.set F.CRL_NTS_STAT_NORNG 1))))

/-- Every client entry becomes invalid, and the cache holds none of them (R95, R97). -/
def clearClients (s : State) : State := { s with svp := { s.svp with table := [], cached := [], dirty := [] } }

/-- New client-table keys are drawn, and every entry becomes invalid (R95). -/
def drawClientKeys (s : State) : State :=
  let a := s.draw 128
  let b := a.2.draw 128
  clearClients { b.2 with svp := { b.2.svp with key1 := a.1, key2 := b.1 } }

/-- RNG_RECOVER: the source passes its tests again (R169). The client-table keys are drawn anew where they had been derived (R95). -/
def execRngRecover (s : State) : Host.Outcome State Fault Refusal :=
  .next (if rngFailed s then
      let s := s.set F.CRL_NTS_STAT_NORNG 0
      if s.svp.keysDerived then let t := drawClientKeys s; { t with svp := { t.svp with keysDerived := false } } else s
    else s)

end Sys2Proof.Machine
end

