-- ==== Sys2Proof/Machine/Fbk.lean ====
section
/-! DEFINITION. The Field Book: acceptance, segments, seals, retention, the chain and the commands of R396 (R387-R396). -/
namespace Sys2Proof.Machine

/-- The next journal index. -/
def fbkNext (s : State) : Nat := s.get64 A.FBK_NEXT_W0

/-- Show FBK_STAT.OPEN and RETAINED. -/
def fbkShow (s : State) : State :=
  (s.set F.FBK_STAT_OPEN s.fbk.openSeg.length).set F.FBK_STAT_RETAINED s.fbk.retained.length

/-- The journal takes entries: DRAM training is done, the chain has resumed, and the DRAM is not in self-refresh (R276, R393, R394). -/
def journalReady (s : State) : Bool := s.fbk.resumed && s.on F.HMI_MEM_STAT_TRAINED && !(s.on F.HMI_MEM_STAT_SELFREF)

/-- Seals can be signed: PD9 and the service processors are available (R352, R363, R390). -/
def signOk (s : State) : Bool :=
  domainOn s 9 && domainOn s 10 && decide (s.mode ≠ 4) && decide (s.get F.SYS_BOOT_STAT_SLOT < 2)

/-- The 32 bytes of an entry (R387). A stored copy with an uncorrectable error shows SOURCE and CODE 0xFFFE (R396). -/
def Entry.bytes (e : Entry) : Bytes :=
  instBytes e.datum ++ natLE 2 (if e.bad then 0xFFFE else e.src) ++ natLE 2 (if e.bad then 0xFFFE else e.code)
    ++ natLE 4 e.a0 ++ natLE 4 e.a1 ++ natLE 4 e.a2 ++ natLE 4 e.a3

/-- The 192 bytes of a seal block (R390). -/
def Seal.bytes (b : Seal) : Bytes :=
  instBytes b.time ++ natLE 2 0xFFFF ++ natLE 2 ((if b.unsigned then 1 else 0) + (if b.padded then 2 else 0))
    ++ natLE 8 b.seg ++ natLE 8 b.chainId ++ b.hash ++ padTo 96 b.sig ++ natLE 4 b.padCount ++ zeros 12

/-- A record for the delivery ring, which belongs to segment g (R395). -/
def deliver (g : Nat) (b : Bytes) (s : State) : State :=
  if s.on F.FBK_CFG_DELIV then upEnqueue (16 + s.get F.FBK_CFG_RING) ⟨b, true, 0, 0, g + 1⟩ s
  else undelivered ⟨b, true, 0, 0, g + 1⟩ s

/-! ## Retention (R393) -/

/-- The index of a retained entry that has no place in the journal yet. -/
def unplaced : Nat := 2 ^ 64

/-- The index of a retained entry that a sealed segment holds. -/
def inSealed : Nat := 2 ^ 65

/-- Retention takes an entry. With 256 held, the oldest is overwritten, which is a loss where it is the only copy (R385, R393). -/
def retain (q : Nat) (e : Entry) (s : State) : State :=
  let r := s.fbk.retained
  let full := decide (256 ≤ r.length)
  let s := if full && decide ((r.head?.map (·.1)) = some unplaced) then alarmRaise 15 (s.addSat F.FBK_LOST_CNT_COUNT 1) else s
  { s with fbk := { s.fbk with retained := (if full then r.tail else r) ++ [(q, e)] } }

/-! ## Segments and seals (R389-R392) -/

/-- SERIAL as R192 carries it. -/
def serialBytes (s : State) : Bytes := natBE 8 (s.get64 A.SYS_SERIAL_W0)

/-- H(g) (R389), over the entries as they were accepted. -/
def segHash (s : State) (g : Nat) (es : List Entry) : Bytes :=
  sha384 (label "FX4860 FBK" ++ serialBytes s ++ natLE 8 (s.get64 A.FBK_CHAINID_W0) ++ natLE 8 g ++ s.fbk.prevHash
    ++ es.flatMap (fun e => ({ e with bad := false } : Entry).bytes))

/-- The seal block of segment g is written, signed or, with an empty signature, UNSIGNED: S and H(S) follow, the retained entries of the segment
are in a sealed segment, and the block is delivered (R390, R393, R395). -/
def writeSeal (g : Nat) (sig : Bytes) (s : State) : State :=
  match s.fbk.segs.get g with
  | none => s
  | some x =>
    let b : Seal := ⟨s.recordTime, sig.isEmpty, decide (0 < x.padCount), g, s.get64 A.FBK_CHAINID_W0, x.hash, sig, x.padCount⟩
    let r := s.fbk.retained.map (fun (p : Nat × Entry) => if p.1 / 4096 = g ∧ p.1 < unplaced then (inSealed, p.2) else p)
    let s := { s with fbk := { s.fbk with segs := s.fbk.segs.put g { x with sealBlk := some b }, headHash := x.hash, headKept := true, retained := r,
                                          sigs := s.fbk.sigs.del g } }
    deliver g b.bytes ((s.set64 A.FBK_SEALED_W0 g).setB F.FBK_STAT_SIGNOK (signOk s))

/-- The open segment is full: it moves to its space with H(g), and its signature is asked for, or the seal block is written at once (R389, R390). -/
def closeSegment (pads : Nat) (s : State) : State :=
  let g := (fbkNext s - 1) / 4096
  let h := segHash s g s.fbk.openSeg
  let x : Segment := ⟨s.fbk.openSeg, h, none, pads, s.fbk.openUndelivered⟩
  let s := { s with fbk := { s.fbk with segs := s.fbk.segs.put g x, prevHash := h, openSeg := [], openUndelivered := false } }
  if signOk s then spuRequest (.seal g) (pkeBlock 0x14 2 6 511 1 0 h) (some (reservedSlot 511 "FX4860 attest")) s else writeSeal g [] s

/-- Items of a segment that still wait on the delivery rings. -/
def waitingDelivery (s : State) (g : Nat) : Bool :=
  [16, 17, 18, 19].any (fun r => (s.ring r).queue.any (fun i => decide (i.seg = g + 1)))

/-- A new segment starts while all 4,088 spaces hold a segment: it overwrites the oldest (R392). -/
def overwriteOldest (s : State) : State :=
  if s.fbk.segs.length < 4088 then s
  else
    match s.fbk.segs with
    | [] => s
    | (g, x) :: rest =>
      let lost := s.on F.FBK_CFG_DELIV && (x.lostDelivery || x.sealBlk.isNone || waitingDelivery s g)
      let s := { s with fbk := { s.fbk with segs := rest } }
      let s := s.addSat F.FBK_OVWR_CNT_COUNT 1
      if lost then alarmRaise 15 s else s

/-- An entry takes the next place of the journal (R388, R395). Answers its index. -/
def journalAppend (e : Entry) (pads : Nat) (s : State) : State :=
  let q := fbkNext s
  let s := if s.fbk.openSeg = [] then overwriteOldest s else s
  let s := { s with fbk := { s.fbk with openSeg := s.fbk.openSeg ++ [e] } }
  let s := s.set64 A.FBK_NEXT_W0 (q + 1)
  let s := if pads = 0 then deliver (q / 4096) e.bytes s else s
  if q % 4096 = 4095 then closeSegment pads s else s

/-- An entry is accepted: it is journalled where the DRAM takes it, and it is retained (R388, R393). -/
def acceptEntry (e : Entry) (s : State) : State :=
  let s := pmcEvent 0 0x05 0x80 1 s
  fbkShow (if journalReady s then journalAppend e 0 (retain (fbkNext s) e s) else retain unplaced e s)

/-- A record of the Field Book itself. -/
def fbkEntry (s : State) (index a0 a1 a2 a3 : Nat) : Entry :=
  ⟨s.recordTime, srcBlock 1, 0x0100 + index, a0 % 2 ^ 32, a1 % 2 ^ 32, a2 % 2 ^ 32, a3 % 2 ^ 32, false⟩

/-- The heads of the block queues: the first waiting entry of each block. -/
def queueHeads : List Nat → List QEntry → List QEntry
  | _, [] => []
  | seen, q :: qs => if seen.contains q.block then queueHeads seen qs else q :: queueHeads (q.block :: seen) qs

/-- Which of two heads is taken first: the earlier MCLK edge, then the lower block code of SOURCE, then the lower unit (R388). -/
def QEntry.before (a b : QEntry) : Bool :=
  if a.edge / 12 ≠ b.edge / 12 then decide (a.edge / 12 < b.edge / 12) else decide (a.entry.src < b.entry.src)

/-- The head that is taken next. -/
def firstHead : List QEntry → Option QEntry
  | [] => none
  | q :: qs =>
    match firstHead qs with
    | none => some q
    | some r => if r.before q then some r else some q

/-- FBK_ENTRY_ACCEPT: the system controller takes the next entry from the block queues, after an FBK_GAP entry where the block lost entries. An
entry accepted before the Datum runs carries the value at acceptance (R387, R388). -/
def execFbkEntryAccept (s : State) : Host.Outcome State Fault Refusal :=
  .next (match firstHead (queueHeads [] s.fbk.queued) with
    | none => s
    | some q =>
      let s := { s with fbk := { s.fbk with queued := s.fbk.queued.erase q } }
      let n := (s.fbk.lost.get q.block).getD 0
      let s := if n = 0 then s
        else acceptEntry { fbkEntry s 3 n 0 0 0 with src := srcBlock q.block } { s with fbk := { s.fbk with lost := s.fbk.lost.del q.block } }
      acceptEntry (if s.dtm.started then q.entry else { q.entry with datum := s.recordTime }) s)

/-- FBK_SEAL_SIGNED: the signature of segment g is complete, or its operation was aborted, and the seal block is written (R390). -/
def execFbkSealSigned (seg : Nat) (s : State) : Host.Outcome State Fault Refusal :=
  .next (match s.fbk.sigs.get seg with
    | none => s
    | some sig => writeSeal seg sig { s with fbk := { s.fbk with sigs := s.fbk.sigs.del seg } })

/-- Fill the open segment with `n` PAD entries (R391). -/
def padSegment (n : Nat) : Nat → State → State
  | 0, s => s
  | k + 1, s =>
    padSegment n k (journalAppend { fbkEntry s 0 0 0 0 0 with src := 0x01FF } n s)

/-- Seal the open segment early (R391). One with no entries is not sealed. -/
def sealEarly (s : State) : State :=
  let used := s.fbk.openSeg.length
  if journalReady s ∧ used ≠ 0 then fbkShow (padSegment (4096 - used) (4096 - used) s) else s

/-- FBK_SEAL_PERIOD: SEALPER minutes have passed since the last periodic seal, or since SEALPER was set (R7, R391). -/
def execFbkSealPeriod (s : State) : Host.Outcome State Fault Refusal :=
  .next (let p := s.get F.FBK_CFG_SEALPER * 60000
    if p ≠ 0 ∧ p < s.fbk.sealTicks then sealEarly { s with fbk := { s.fbk with sealTicks := s.fbk.sealTicks - p } } else s)

/-! ## The chain at a release (R394) -/

/-- Journal the entries in order. -/
def journalAll (es : List Entry) (s : State) : State :=
  es.foldl (fun s e => journalAppend e 0 (retain (fbkNext s) e s)) s

/-- The entries that retention alone holds move to the DRAM, in journal order (R393, R395). -/
def placeRetained (s : State) : State :=
  let again := (s.fbk.retained.filter (fun p => decide (p.1 = unplaced))).map (·.2)
  let s := { s with fbk := { s.fbk with retained := s.fbk.retained.filter (fun p => decide (p.1 ≠ unplaced)) } }
  fbkShow (journalAll again s)

/-- The journal resumes once DRAM training is complete (R394). -/
def chainResume (s : State) : State :=
  let old := s.fbk.retained
  let again := (old.filter (fun p => decide (p.1 ≠ inSealed))).map (·.2)
  let kept := old.filter (fun p => decide (p.1 = inSealed))
  let cause := (s.rd A.SYS_RST_CAUSE).toNat
  let s := { s with fbk := { s.fbk with resumed := true, openSeg := [], openUndelivered := false, retained := kept, segs := [] } }
  if s.fbk.headKept then
    let sealed := s.get64 A.FBK_SEALED_W0
    let recovered := (old.filter (fun p => decide (p.1 < unplaced))).length
    let s := { s with fbk := { s.fbk with prevHash := s.fbk.headHash } }
    let s := s.set64 A.FBK_NEXT_W0 (if sealed = 2 ^ 64 - 1 then 0 else (sealed + 1) * 4096)
    fbkShow (journalAll (fbkEntry s 2 s.fbk.openLost recovered cause 0 :: again) s)
  else
    let d := s.draw 64
    let s := { d.2 with fbk := { d.2.fbk with prevHash := zeros 48, headHash := zeros 48, headKept := true } }
    let s := ((s.set64 A.FBK_CHAINID_W0 d.1).set64 A.FBK_SEALED_W0 (2 ^ 64 - 1)).set64 A.FBK_NEXT_W0 0
    fbkShow (journalAll (fbkEntry s 1 cause 0 0 0 :: again) s)

/-- FBK_CHAIN_RESUME (R394). -/
def execFbkChainResume (s : State) : Host.Outcome State Fault Refusal :=
  .next (if s.fbk.resumed = false ∧ s.on F.HMI_MEM_STAT_TRAINED = true then chainResume s else s)

/-! ## Commands (R396) -/

/-- The oldest Field Book command of D24 + k that has not ended: its number, opcode, block and room. -/
def fbkFront (s : State) (k : Fin 8) : Option HostCmd :=
  (s.ring (56 + k.val)).cmds.find? (fun c => c.done.isNone && decide (0x40 ≤ beAt c.block 0 1))

/-- End a Field Book command. The operation counters of R193 are the cluster's and do not move. -/
def fbkEnd (k : Fin 8) (c : HostCmd) (st : Nat) (res : Bytes) (s : State) : State :=
  modCmd k.val c.seq (fun x => { x with done := some (st, if st = 0 then res else []), ready := s.now }) s

/-- The checks of R178 that a command block of the Field Book can fail: a reserved byte, an operand short or over, no room for the result. -/
def fbkCheck (c : HostCmd) (len res : Nat) : Nat :=
  if slice c.block 1 7 ≠ zeros 7 then 0x10
  else if c.block.length ≠ len then 0x11
  else if c.resLen < res then 0x12
  else 0

/-- Run the Field Book command at the front of D24 + k when it has this opcode. -/
def fbkCommand (k : Fin 8) (op len res : Nat) (f : HostCmd → State → Nat × Bytes × State) (s : State) : State :=
  match fbkFront s k with
  | none => s
  | some c =>
    if beAt c.block 0 1 ≠ op then s
    else
      let st := fbkCheck c len res
      if st ≠ 0 then fbkEnd k c st [] s
      else
        let r := f c s
        fbkEnd k c r.1 r.2.1 r.2.2

/-- FBK_SEAL seals the open segment and returns its number (R391, R396). -/
def execFbkSeal (k : Fin 8) (s : State) : Host.Outcome State Fault Refusal :=
  .next (fbkCommand k 0x40 16 8 (fun _ s => (0, natLE 8 (fbkNext s / 4096), sealEarly s)) s)

/-- The state of segment g: 0 stored and sealed, 0x20 overwritten or not in this chain, 0x21 not yet sealed (R396). -/
def segStatus (s : State) (g : Nat) : Nat :=
  match s.fbk.segs.get g with
  | some x => if x.sealBlk.isSome then 0 else 0x21
  | none => if s.fbk.resumed && decide (g = fbkNext s / 4096) then 0x21 else 0x20

/-- The entries of a segment and its seal block (R396). -/
def segBytes (s : State) (g : Nat) : Bytes :=
  match s.fbk.segs.get g with
  | some x => x.entries.flatMap Entry.bytes ++ (x.sealBlk.map Seal.bytes).getD []
  | none => []

/-- FBK_READSEG returns a sealed segment; the DRAM read may meet an error (R40, R396). -/
def execFbkReadseg (k : Fin 8) (ecc : EccHit) (s : State) : Host.Outcome State Fault Refusal :=
  .next (fbkCommand k 0x41 16 131264 (fun c s =>
    let g := leAt c.block 8 8
    let st := segStatus s g
    let s := if st = 0 then eccApply ecc s else s
    (st, segBytes s g, s)) s)

/-- FBK_READTAIL returns the retained entries, oldest first (R396). -/
def execFbkReadtail (k : Fin 8) (s : State) : Host.Outcome State Fault Refusal :=
  .next (fbkCommand k 0x42 16 (32 * s.fbk.retained.length) (fun _ s => (0, s.fbk.retained.flatMap (fun p => p.2.bytes), s)) s)

/-- FBK_MARK writes HOST_MARK with the four arguments of the command and returns its journal index (R396). -/
def execFbkMark (k : Fin 8) (s : State) : Host.Outcome State Fault Refusal :=
  .next (fbkCommand k 0x43 24 8 (fun c s =>
    let q := fbkNext s
    (0, natLE 8 q, acceptEntry (fbkEntry s 4 (leAt c.block 8 4) (leAt c.block 12 4) (leAt c.block 16 4) (leAt c.block 20 4)) s)) s)

/-- FBK_HEAD returns CHAINID, S, H(S) and the next index (R396). -/
def execFbkHead (k : Fin 8) (s : State) : Host.Outcome State Fault Refusal :=
  .next (fbkCommand k 0x44 16 72 (fun _ s =>
    (0, natLE 8 (s.get64 A.FBK_CHAINID_W0) ++ natLE 8 (s.get64 A.FBK_SEALED_W0) ++ s.fbk.headHash ++ natLE 8 (fbkNext s), s)) s)

end Sys2Proof.Machine
end

