-- ==== Sys2Proof/Machine/Grants.lean ====
section
/-! DEFINITION. The grant table of unicast negotiation: what a decided request leaves in it, and the edges on which its response leaves, from which the grant runs
(R105, R106, R126). -/
namespace Sys2Proof.Machine

/-! ## The table (R105) -/

/-- The grant of a message type: 11 Announce, 0 Sync, 9 Delay_Resp. -/
def GrantClient.grant (c : GrantClient) (kind : Nat) : Option Grant :=
  if kind = 11 then c.announce else if kind = 0 then c.sync else c.delayResp

/-- Replace the grant of a message type. -/
def GrantClient.setGrant (c : GrantClient) (kind : Nat) (g : Option Grant) : GrantClient :=
  if kind = 11 then { c with announce := g } else if kind = 0 then { c with sync := g } else { c with delayResp := g }

/-- Whether a grant stands at an instant: it has not run out, or a response that grants is still to leave, so that a renewal decided before the expiry leaves no gap
(R106). -/
def Grant.stands (g : Grant) (t : Instant) : Bool := decide (g.waiting ≠ 0) || after g.expiry t

/-- A grant that stands. -/
def liveGrant (t : Instant) (g : Option Grant) : Option Grant := g.filter (fun x => x.stands t)

/-- A grant that stands and runs: its response has left (R106). -/
def runningGrant (t : Instant) (g : Option Grant) : Option Grant := g.filter (fun x => x.live && x.stands t)

/-- The client with an identity on a port. -/
def clientOf (s : State) (p : Fin 7) (identity : Nat) : Option GrantClient :=
  s.svp.grants.find? (fun c => decide (c.identity = identity ∧ c.port = p))

/-- Show the clients that hold grants. -/
def showGrants (s : State) : State := s.set F.SVP_GRANT_STAT_CLIENTS s.svp.grants.length

/-- Keep only the clients that hold a grant (R106). -/
def dropEmpty (s : State) : State :=
  showGrants { s with svp := { s.svp with grants := s.svp.grants.filter (fun c => c.announce.isSome || c.sync.isSome || c.delayResp.isSome) } }

/-- Messages per second of a period; the longest are below one per second and count by their share of a second in units of 2^-8. -/
def grantRate (log : Int) : Nat := if log ≤ 0 then 256 * 2 ^ (-log).toNat else 256 / 2 ^ log.toNat

/-- The granted Sync rate of a port, in the units of `grantRate`, without one client. -/
def syncRate (s : State) (p : Fin 7) (identity : Nat) : Nat :=
  (s.svp.grants.filter (fun c => decide (c.port = p ∧ c.identity ≠ identity))).foldl
    (fun n c => n + (match c.sync with | some g => grantRate g.granted | none => 0)) 0

/-- The lowest index that no client holds. -/
def freeIndex (s : State) : Nat :=
  ((List.range (s.svp.grants.length + 1)).find? (fun n => s.svp.grants.all (fun c => decide (c.index ≠ n)))).getD 0

/-! ## Issue instants (R126) -/

/-- The period T of a grant in units of 2^-16 ns. -/
def grantPeriod (log : Int) : Nat := if log ≤ 0 then secUnits / 2 ^ (-log).toNat else secUnits * 2 ^ log.toNat

/-- The issue instant of a grant's next message (R126). -/
def issueInstant (index : Nat) (g : Grant) : Instant :=
  let t := grantPeriod g.log
  instAdd g.start (index * t / 2 ^ 18 + g.next * t : Nat)

/-! ## From the decision to the response (R105, R106) -/

/-- What a decided request leaves: a grant whose response is still to leave, new or beside one that stands. -/
def grantDecided (old : Option Grant) (log : Int) (now : Instant) (seq : Nat) : Grant :=
  match liveGrant now old with
  | some g => { g with granted := log, waiting := g.waiting + 1 }
  | none => ⟨log, now, now, 0, seq, log, false, 1⟩

/-- A response that grants leaves on an edge: the grant runs from there, or goes on with the new expiry; a changed period takes effect on the next scheduled message
(R106). -/
def grantStarted (index : Nat) (log : Int) (dur : Nat) (t : Instant) (g : Grant) : Grant :=
  let expiry := instAdd t (dur * secUnits)
  if g.live = false then { g with log := log, start := t, expiry := expiry, next := 0, live := true, waiting := g.waiting - 1 }
  else if g.log = log then { g with expiry := expiry, waiting := g.waiting - 1 }
  else { g with
    log := log, start := instAdd (issueInstant index g) (-((index * grantPeriod log / 2 ^ 18 : Nat) : Int)), expiry := expiry, next := 0
    waiting := g.waiting - 1 }

/-- A response that grants is lost before it leaves: a grant that never ran ends with it. -/
def grantUnsent (g : Grant) : Option Grant :=
  if g.live = false ∧ g.waiting ≤ 1 then none else some { g with waiting := g.waiting - 1 }

/-- Change the grant of a client. -/
def grantMod (p : Fin 7) (identity kind : Nat) (f : Nat → Grant → Option Grant) (s : State) : State :=
  { s with svp := { s.svp with grants := s.svp.grants.map (fun (c : GrantClient) =>
    if c.identity = identity ∧ c.port = p then c.setGrant kind ((c.grant kind).bind (f c.index)) else c) } }

/-- The response that grants has left, on the edge `t`. -/
def grantSent (p : Fin 7) (identity kind : Nat) (log : Int) (dur : Nat) (t : Instant) (s : State) : State :=
  grantMod p identity kind (fun i g => some (grantStarted i log dur t g)) s

/-- The response that grants will not leave. -/
def grantLost (p : Fin 7) (identity kind : Nat) (s : State) : State := dropEmpty (grantMod p identity kind (fun _ g => grantUnsent g) s)

end Sys2Proof.Machine
end

