-- ==== Sys2Proof/Machine/Ports.lean ====
section
/-! DEFINITION. The ports: links, reception, pauses, flow control, paired paths, field ports, MDIO (R194-R213), and frames that are not staked (R114, R142). -/
namespace Sys2Proof.Machine

/-! ## Speeds and buffers -/

/-- Line rate in Gb/s of PRT_Pn_CFG.SPEED (R194). -/
def speedGbps (code : Nat) : Nat :=
  if code = 0 then 1 else if code = 1 then 10 else if code = 2 then 25 else if code = 3 then 50 else 100

/-- Line rate of a port in units of 10 Mb/s: main ports by SPEED, F0 and F1 10 Mb/s, MGT 1 Gb/s. -/
def portRate (s : State) (p : Nat) : Nat :=
  if p < 4 then 100 * speedGbps (s.get (F.PRT_P_CFG_SPEED p)) else if p = 6 then 100 else 1

/-- `n` bit times of a port in units of 2^-16 ns. -/
def bitTimes (s : State) (p n : Nat) : Nat := n * 100 * 65536 / portRate s p

/-- SPEED of STK_n_STAT for a port whose link is up (R131). -/
def stakeSpeed (s : State) (p : Nat) : Nat :=
  if p < 4 then s.get (F.PRT_P_CFG_SPEED p) + 2 else if p = 6 then 2 else 1

/-- The pipeline of a port (R21). -/
def pipeOf (p : Fin 7) : Fin 5 := if h : p.val < 4 then ⟨p.val, by omega⟩ else 4

/-- A port's share of the packet buffer (R38, R199). -/
def bufferShare (p : Nat) : Nat := if p < 4 then 7340032 else if p = 6 then 2097152 else 1048576

/-- The requests that an SIV lane verifies. -/
def SivLane.requests (l : SivLane) : List NtsRequest := l.jobs.filterMap (fun j => match j with | .verify r => some r | .encrypt _ _ => none)

/-- The frames of a port that the packet buffer holds: in the input queue, waiting for a bucket, for an SIV lane, or on one. -/
def bufferItems (s : State) (p : Fin 7) : List PlItem :=
  ((s.svp.queues[pipeOf p] ++ s.svp.fills.flatMap (·.waiting) ++ s.svp.verify.map (·.item)
    ++ s.svp.lanes.toList.flatMap (fun l => l.requests.map (·.item)))).filter (fun i => decide (i.port = p))

/-- Bytes of a list of frames, FCS included. -/
def itemBytes (l : List PlItem) : Nat := l.foldl (fun n i => n + i.bytes.length + 4) 0

/-- Class of a VLAN priority (PCPMAP). -/
def pcpClass (s : State) (p pri : Nat) : Nat := s.get (F.PRT_P_PCPMAP_MAP p) / 8 ^ pri % 8

/-- Class of a received or host frame under PCPMAP (R200, R203). -/
def frameClass (s : State) (p : Nat) (b : Bytes) : Nat :=
  let e := parseEth b
  if e.tags = 0 then s.get (F.PRT_P_PCPMAP_UNTAG p) else pcpClass s p (e.tag / 2 ^ 13 % 8)

/-! ## Flow control that the port sends (R203) -/

/-- Occupancy of a class, or in total. -/
def occupancy (s : State) (p : Fin 4) (cls : Option Nat) : Nat :=
  let l := bufferItems s ⟨p.val, by omega⟩
  match cls with
  | none => itemBytes l
  | some c => itemBytes (l.filter (fun i => decide (frameClass s p i.bytes = c)))

/-- The priorities of a class that TXPRI permits, as an enable vector. -/
def pfcVector (s : State) (p cls : Nat) : Nat :=
  (List.range 8).foldl (fun v i =>
    if pcpClass s p i = cls ∧ (s.get (F.PRT_P_FC_TXPRI p)).testBit i = true then v + 2 ^ i else v) 0

/-- The PAUSE or PFC frame of an onset with a time. -/
def pauseFrame (s : State) (p : Nat) (cls : Option Nat) (quanta : Nat) : Bytes :=
  let h := ethHead 0x0180C2000001 (Config.pauseMac p) 0 0x8808
  match cls with
  | none => ethPad (h ++ natBE 2 0x0001 ++ natBE 2 quanta)
  | some c =>
    let v := pfcVector s p c
    ethPad (h ++ natBE 2 0x0101 ++ natBE 2 v ++ (List.range 8).flatMap (fun i => natBE 2 (if v.testBit i then quanta else 0)))

/-- Show the onsets in force in PAUSE_STAT. -/
def showOnsets (p : Fin 4) (s : State) : State :=
  let os := s.prt.onsets.filter (fun o => decide (o.port = p.val))
  let v := os.foldl (fun v o => match o.cls with | some c => v ||| pfcVector s p c | none => v) 0
  (s.setB (F.PRT_P_PAUSE_STAT_TXPAUSE p) (os.any (fun o => decide (o.cls = none)))).set (F.PRT_P_PAUSE_STAT_TXPFC p) v

/-- Send the frame of an onset. -/
def sendPause (p : Fin 4) (cls : Option Nat) (quanta : Nat) (s : State) : State :=
  txEnqueue ⟨p.val, by omega⟩ ⟨pauseFrame s p cls quanta, 0, .control⟩ s

/-- Whether an onset of this kind is in force. -/
def onsetOn (s : State) (p : Fin 4) (cls : Option Nat) : Bool :=
  s.prt.onsets.any (fun o => decide (o.port = p.val ∧ o.cls = cls))

/-- The port sends this kind of flow control (R203). -/
def flowEnabled (s : State) (p : Fin 4) (cls : Option Nat) : Bool :=
  match cls with
  | none => s.on (F.PRT_P_FC_TXPAUSE p)
  | some c => s.on (F.PRT_P_FC_TXPFC p) && decide (pfcVector s p c ≠ 0)

/-- Judge one kind of onset: onset above XOFF, release at XON or below (R203). An onset whose kind is disabled ends with no frame. -/
def flowOne (p : Fin 4) (cls : Option Nat) (s : State) : State :=
  let enabled := flowEnabled s p cls
  let occ := occupancy s p cls
  let drop := fun (s : State) => { s with prt := { s.prt with
    onsets := s.prt.onsets.filter (fun o => decide (¬(o.port = p.val ∧ o.cls = cls))) } }
  if onsetOn s p cls then
    if enabled = false then showOnsets p (drop s)
    else if occ ≤ s.get (F.PRT_P_FCTH_XON p) * 16384 then showOnsets p (sendPause p cls 0 (drop s)) else s
  else if enabled && decide (s.get (F.PRT_P_FCTH_XOFF p) * 16384 < occ) then
    showOnsets p (sendPause p cls (s.get (F.PRT_P_FC_QUANTA p))
      { s with prt := { s.prt with onsets := s.prt.onsets ++ [⟨p, cls, s.datum⟩] } })
  else s

/-- Judge every onset of a port after its occupancy has changed (R203). F0, F1 and MGT send none. -/
def flowControl (p : Fin 7) (s : State) : State :=
  if h : p.val < 4 then
    [none, some 0, some 1, some 2, some 3, some 4, some 5, some 6, some 7].foldl (fun s c => flowOne ⟨p.val, h⟩ c s) s
  else s

/-! ## Pauses that the port receives (R201, R202) -/

/-- Show the classes that are paused now. -/
def showPaused (p : Nat) (s : State) : State :=
  if h : p < 4 then
    s.set (F.PRT_P_PAUSE_STAT_PAUSED p)
      ((List.range 8).foldl (fun v c => if classPaused s ⟨p, h⟩ c s.datum then v + 2 ^ c else v) 0)
  else s

/-- A staked frame is in transmission: its start position was committed to the PCS before now (R202). -/
def inTransmission (s : State) (t : Ticket) : Bool := decide (t.state = .sending) || (decide (t.state = .ready) && after s.datum t.dep)

/-- The frame boundary of R202: now, or the end of the inter-packet gap of the frame in transmission. -/
def frameBoundary (s : State) (p : Fin 7) : Instant :=
  let t := s.datum
  let u := match s.prt.txNow[p] with
    | some x => if after x.2 t then x.2 else t
    | none => t
  if h : p.val < 4 then
    (s.port ⟨p.val, h⟩).tickets.foldl (fun m x =>
      if inTransmission s x = true ∧ after (x.resTo / 2 ^ 16) m = true then x.resTo / 2 ^ 16 else m) u
  else u

/-- A pause of one kind for one class from a boundary on: it replaces the earlier one of its kind (R202). -/
def setPause (p tc kind quanta : Nat) (b : Instant) (s : State) : State :=
  let cut := s.prt.pauses.map (fun x =>
    if x.port = p ∧ x.tc = tc ∧ x.kind = kind ∧ after x.to_ b = true then { x with to_ := b } else x)
  let live := cut.filter (fun x => after x.to_ s.datum && after x.to_ x.from_)
  let new := if quanta = 0 then [] else [⟨p, tc, kind, b, instAdd b (bitTimes s p (quanta * 512))⟩]
  { s with prt := { s.prt with pauses := live ++ new } }

/-- Whether a pause of a kind applies to a class of a main port: the timing class is limited by R121. -/
def pauseApplies (s : State) (p tc kind : Nat) : Bool :=
  if s.get (F.SKO_P_CFG_TC p) = tc then (if kind = 0 then s.on (F.SKO_P_CFG_PAUSEHON p) else !(s.on (F.SKO_P_CFG_PFCEXEMPT p)))
  else true

/-- Apply a pause to a class, and say so when it is the timing class. -/
def applyPause (p : Fin 7) (tc kind quanta : Nat) (b : Instant) (s : State) : State :=
  if p.val < 4 then
    if pauseApplies s p tc kind then
      let s := setPause p tc kind quanta b s
      if s.get (F.SKO_P_CFG_TC p) = tc then irqSet (portGroup p) (A.PRT_IRQ_STAT p) 2 s else s
    else s
  else setPause p tc kind quanta b s

/-- A MAC control frame (R201, R202). -/
def macControl (p : Fin 7) (e : Eth) (b : Bytes) (s : State) : State :=
  let op := beAt b e.off 2
  let dst := decide (e.tags = 0) && (decide (e.dst = 0x0180C2000001) || ownMac s p e.dst)
  let bnd := frameBoundary s p
  let rxPause := if p.val < 4 then s.on (F.PRT_P_FC_RXPAUSE p) else decide (p.val = 6) && s.on F.PRT_MGT_CFG_RXPAUSE
  let rxPfc := decide (p.val < 4) && s.on (F.PRT_P_FC_RXPFC p)
  if dst && decide (op = 0x0001) && rxPause then
    let q := beAt b (e.off + 2) 2
    showPaused p ((List.range 8).foldl (fun s c => applyPause p c 0 q bnd s) (portCount p 9 1 s))
  else if dst && decide (op = 0x0101) && rxPfc then
    let v := beAt b (e.off + 2) 2
    showPaused p ((List.range 8).foldl (fun s i =>
      if v.testBit i then applyPause p (pcpClass s p i) 1 (beAt b (e.off + 4 + 2 * i) 2) bnd s else s) (portCount p 10 1 s))
  else portCount p 11 1 s

/-! ## The PLCA cycle of a field port (R208) -/

/-- The port number of a field port. -/
def fieldPort (n : Fin 2) : Fin 7 := ⟨n.val + 4, by omega⟩

/-- Change a field port. -/
def State.setField (s : State) (n : Fin 2) (f : FieldPort) : State :=
  { s with prt := { s.prt with field := s.prt.field.set n f } }

/-- PLCA is on for a field port (R208). -/
def plcaOn (s : State) (n : Nat) : Bool := s.on (F.PRT_F_CFG_PLCAEN n) && decide (s.get (F.PRT_F_PLCA0_NODEID n) ≠ 255)

/-- The port is the coordinator: node 0 (R208). -/
def plcaLeads (s : State) (n : Nat) : Bool := plcaOn s n && decide (s.get (F.PRT_F_PLCA0_NODEID n) = 0)

/-- PLCA rules the port: it is on and has not fallen back to CSMA/CD (R208). -/
def plcaRules (s : State) (n : Fin 2) : Bool := plcaOn s n && !(s.prt.field[n]).fallback

/-- A bit time of 10 Mb/s in DCLK periods. -/
def fieldBit : Nat := 120

/-- A BEACON lasts 20 bit times (PRESUMED, assumption log 82: Clause 148). -/
def beaconBits : Nat := 20

/-- The port's own opportunity goes on after a frame: a further one is permitted, and BTMR has not run out (R208). -/
def bursting (s : State) (n : Fin 2) : Bool :=
  let f := s.prt.field[n]
  decide (f.burst ≤ s.get (F.PRT_F_PLCA1_MAXBC n)) && decide (s.now ≤ f.burstEnd + s.get (F.PRT_F_PLCA1_BTMR n) * fieldBit)

/-- The node whose transmit opportunity runs (R208): one that nobody uses lasts TOTMR bit times, and the port's own ends with its burst. NCOUNT or above: the cycle
is over. -/
def plcaNode (s : State) (n : Fin 2) : Nat :=
  let f := s.prt.field[n]
  let slot := s.get (F.PRT_F_PLCA0_TOTMR n) * fieldBit
  if f.burst = 0 then f.curId + (s.now - f.toFrom) / slot
  else if f.sending || bursting s n then f.curId
  else
    let last := f.burstEnd + (if f.burst ≤ s.get (F.PRT_F_PLCA1_MAXBC n) then s.get (F.PRT_F_PLCA1_BTMR n) * fieldBit else 0)
    f.curId + 1 + (s.now - last) / slot

/-- A PLCA cycle starts: the opportunity of node 0 begins at `t` (R208). -/
def FieldPort.cycle (f : FieldPort) (now t : Nat) : FieldPort :=
  { f with cycling := true, fallback := false, beaconAt := now, curId := 0, toFrom := t, burst := 0, burstEnd := 0 }

/-- A frame of another node is over, and with it that node's opportunity (R208; assumption log 82). -/
def plcaHeard (p : Fin 7) (s : State) : State :=
  if h : p.val = 4 ∨ p.val = 5 then
    let n : Fin 2 := ⟨p.val - 4, by omega⟩
    let f := s.prt.field[n]
    if plcaRules s n && f.cycling then s.setField n { f with curId := plcaNode s n + 1, toFrom := s.now, burst := 0 } else s
  else s

/-! ## Reception (R198, R138, R109) -/

/-- Whether a frame is a PTP event message, over Layer 2 or UDP port 319 (LASTSEL of STK_n_CFG). -/
def ptpEvent (b : Bytes) : Bool :=
  let e := parseEth b
  if e.etype = 0x88F7 then decide (beAt b e.off 1 % 16 < 4)
  else match parseIp e b with
    | some i => decide (i.upper = 17) && decide (i.dport = 319) && decide (beAt i.udp 0 1 % 16 < 4)
    | none => false

/-- A frame discarded by R198 in counter k. -/
def rxDiscard (p k : Nat) (s : State) : State := pmcEvent 1 0x06 p 1 (portCount p k 1 s)

/-- A frame enters the input queue of its pipeline, or finds it full (R109). -/
def pipeEnqueue (i : PlItem) (s : State) : State :=
  let pl := pipeOf i.port
  let q := s.svp.queues[pl]
  if 4096 ≤ q.length then pmcEvent 3 0x05 pl 1 (s.add64 (A.SVP_PL_CNT_W0 pl 24) 1)
  else
    let s := { s with svp := { s.svp with queues := s.svp.queues.set pl (q ++ [i]) } }
    flowControl i.port (s.set (F.SVP_PL_STAT_QDEPTH pl) (q.length + 1))

/-- A good frame: counted, stamped, and passed to its pipeline, but for the path of a pair that is not active (R131, R198, R204). -/
def rxGood (p : Fin 7) (b : Bytes) (capture : Nat) (s : State) : State :=
  let n := b.length
  let s := pmcEvent 1 0x04 p n (pmcEvent 1 0x02 p 1 (portCount p 1 n (portCount p 0 1 s)))
  let r := ingressStamp p capture (ptpEvent b) s
  if standbyPath r.2 p then portCount p 17 1 r.2 else pipeEnqueue ⟨p, dropFcs b, r.1, none⟩ r.2

/-- The largest frame of a port (R199). -/
def maxFrame (s : State) (p : Nat) : Nat := s.get (F.PRT_MAXFRM_MAXFRM p)

/-- An uncorrectable codeword (R213). -/
def fecUncorrectable (p : Nat) (s : State) : State :=
  faultSend .prtFec p 0 0 0 (irqSet (portGroup p) (A.PRT_IRQ_STAT p) 3 (portCount p 16 1 s))

/-- As many uncorrectable codewords. -/
def fecLost (p : Nat) : Nat → State → State
  | 0, s => s
  | n + 1, s => fecLost p n (fecUncorrectable p s)

/-- RS-FEC runs on a port: a main port at 100 Gb/s (R194). -/
def hasFec (s : State) (p : Nat) : Bool := decide (p < 4) && decide (s.get (F.PRT_P_CFG_SPEED p) = 4)

/-- The RS-FEC codewords of a frame are counted (R213). -/
def fecCount (p : Nat) (error : RxError) (corrected : Nat) (s : State) : State :=
  if hasFec s p then
    let s := if corrected = 0 then s else pmcEvent 1 0x08 p corrected (portCount p 15 corrected s)
    match error with
    | .fec n => fecLost p n s
    | .clean | .coding => s
  else s

/-- A frame that passed rows 1 to 6 of R198: a capture taken while DCLK was stopped gives no timestamp, and the frame is dropped (R138). -/
def rxPassed (p : Fin 7) (b : Bytes) (capture : Option Nat) (s : State) : State :=
  match capture with
  | none => irqSet 9 (A.STK_IRQ_STAT p) 2 (s.addSat (F.STK_FRZDROP_CNT_COUNT p) 1)
  | some c =>
    let e := parseEth b
    if e.etype = 0x8808 then macControl p e b s else rxGood p b c s

/-- FRAME_RECEIVE: a whole frame with its FCS; the capture of its timestamp point in 2^-32 ns, none where that point crossed while DCLK was stopped; how it was
received; and how many RS-FEC codewords were corrected in it. The rows of R198 apply in order. -/
def execFrameReceive (port : Fin 7) (bytes : Bytes) (capture : Option Nat) (error : RxError) (fecCorrected : Nat) (s : State) :
    Host.Outcome State Fault Refusal :=
  .next (if linkUp s port = false then s
    else
      let s := plcaHeard port (fecCount port error fecCorrected s)
      if error ≠ .clean ∨ fcsGood bytes = false then rxDiscard port 4 s
      else if bytes.length < 64 then rxDiscard port 5 s
      else if maxFrame s port < bytes.length then rxDiscard port 6 s
      else if bufferShare port < itemBytes (bufferItems s port) + bytes.length then rxDiscard port 7 s
      else rxPassed port bytes capture s)

/-! ## Links (R196, R197, R205, R209) -/

/-- Frames of the port that wait unsent: host frames end as LINKDOWN, the others are lost (R334). -/
def dropTx (p : Fin 7) (s : State) : State :=
  let waiting := s.prt.tx[p] ++ (match s.prt.txNow[p] with | some x => [x.1] | none => [])
  let s := { s with prt := { s.prt with tx := s.prt.tx.set p [], txNow := s.prt.txNow.set p none } }
  waiting.foldl (fun s f => match f.owner with
    | .host r slot => endHostFrame r slot 4 none s
    | .twoStep tag => dropSync p tag s
    | .grant identity kind _ _ => grantLost p identity kind s
    | .device | .control | .client _ _ => s) s

/-- Received frames of a main port that have not reached step 5 (R197): discarded and counted in RX_LINKDROP. -/
def dropReceived (p : Fin 7) (s : State) : State :=
  let n := (bufferItems s p).length
  let keep := fun (i : PlItem) => decide (i.port ≠ p)
  let q := (s.svp.queues[pipeOf p]).filter keep
  let s := { s with svp := { s.svp with
    queues := s.svp.queues.set (pipeOf p) q
    fills := s.svp.fills.map (fun (x : Fill) => { x with waiting := x.waiting.filter keep })
    verify := s.svp.verify.filter (fun (r : NtsRequest) => keep r.item)
    lanes := s.svp.lanes.map (fun (l : SivLane) => { l with jobs := l.jobs.filter (fun j => match j with
      | .verify r => keep r.item
      | .encrypt _ _ => true) }) } }
  flowControl p (portCount p 8 n (s.set (F.SVP_PL_STAT_QDEPTH (pipeOf p)) q.length))

/-- Whether a path of a pair is up. -/
def pathUp (s : State) (p : Nat) : Bool := linkUp s p

/-- The active path of a pair moves (R205): the switch is counted and recorded, and the announcements start. -/
def switchPath (k : Fin 2) (toBackup : Bool) (cause : Nat) (s : State) : State :=
  let s := s.setB (F.PRT_PAIR_STAT_ACTIVE k) toBackup
  let s := s.happen (F.PRT_PAIR_STAT_SWITCHES k) (fun n => if n = 0xFFFF then n else n + 1)
  let pr := s.prt.pairs[k]
  let s := { s with prt := { s.prt with pairs := s.prt.pairs.set k { pr with hold := none, lastSwitch := some s.datum } } }
  let s := recordUnit 0x1003 k k (if toBackup then 1 else 0) cause 0 s
  if answering s then
    (((List.range 64).map (64 * pairPrimary s k + ·)).filter (fun n => s.on (F.SVP_SA_CTL_EN n))).foldl announceStart s
  else s

/-- What a pair does when one of its links comes up (R205). -/
def pairUp (p : Fin 4) (s : State) : State :=
  let k : Fin 2 := ⟨p.val / 2, by omega⟩
  if s.on (F.PRT_PAIR_CFG_EN k) then
    let pr := s.prt.pairs[k]
    let s := if pairPrimary s k = p.val then
        { s with prt := { s.prt with pairs := s.prt.pairs.set k { pr with primaryUp := some s.datum } } } else s
    if s.on (F.PRT_PAIR_STAT_BOTHDOWN k) then
      let s := s.set (F.PRT_PAIR_STAT_BOTHDOWN k) 0
      if pairActive s k = p.val then s else switchPath k (decide (pairBackup s k = p.val)) 0 s
    else s
  else s

/-- What a pair does when one of its links goes down: HOLD starts on the active path (R205). -/
def pairDown (p : Fin 4) (s : State) : State :=
  let k : Fin 2 := ⟨p.val / 2, by omega⟩
  if s.on (F.PRT_PAIR_CFG_EN k) then
    let pr := s.prt.pairs[k]
    let pr := if pairPrimary s k = p.val then { pr with primaryUp := none } else pr
    let pr := if pairActive s k = p.val ∧ pr.hold = none then
        { pr with hold := some (instAdd s.datum (nsUnits (1000 * s.get (F.PRT_PAIR_CFG_HOLD k)))) } else pr
    { s with prt := { s.prt with pairs := s.prt.pairs.set k pr } }
  else s

/-- The lanes that a speed uses, as a mask (R194). -/
def usedLanes (code : Nat) : Nat := if code = 3 then 3 else if code = 4 then 15 else 1

/-- What a lane of a main port drives (R195): none where its transmitter is electrically idle, else whether its polarity is inverted. -/
def laneDrive (s : State) (p : Fin 4) (lane : Fin 4) : Option Bool :=
  if s.on (F.PRT_P_CFG_EN p) && (usedLanes (s.get (F.PRT_P_CFG_SPEED p))).testBit lane then some ((s.get (F.PRT_P_CFG_POLTX p)).testBit lane) else none

/-- What the receiver of a lane of a main port takes (R195): none where it is ignored, else the bit on the lane under POLRX. -/
def laneReceives (s : State) (p : Fin 4) (lane : Fin 4) (bit : Bool) : Option Bool :=
  if s.on (F.PRT_P_CFG_EN p) && (usedLanes (s.get (F.PRT_P_CFG_SPEED p))).testBit lane then some (bit != (s.get (F.PRT_P_CFG_POLRX p)).testBit lane)
  else none

/-- Link training precedes link up: 10 Gb/s and above on KR or CR with TRAIN = 1 (R195). -/
def needsTraining (s : State) (p : Fin 4) : Bool :=
  decide (1 ≤ s.get (F.PRT_P_CFG_SPEED p)) && decide (s.get (F.PRT_P_CFG_MEDIA p) ≠ 0) && s.on (F.PRT_P_CFG_TRAIN p)

/-- A link comes up: its bits, its interrupt, its record, and the fixed latencies of the speed (R132, R196). -/
def linkComesUp (p : Fin 7) (s : State) : State :=
  let s := s.set (F.STK_STAT_SPEED p) (stakeSpeed s p)
  recordUnit 0x1002 p 0 0 0 0 (irqSet (portGroup p) (A.PRT_IRQ_STAT p) 1 s)

/-- The reference of a port's SerDes runs: SYN1 for P0 and P1, SYN2 for P2 and P3, SYN_AUX for MGT (R35). -/
def refRuns (s : State) (p : Nat) : Bool :=
  if p < 2 then s.on (F.SYN_SYN_STAT_LOCKED 1) else if p < 4 then s.on (F.SYN_SYN_STAT_LOCKED 2)
  else if p = 6 then s.on F.SYN_STAT_AUXLOCK else true

/-- LINK_UP: the conditions of R196 are gone on a main port, after its training where R195 asks for it, or MGT completes its link with the speed that its PHY
reports by the in-band negotiation (R209; assumption log 83). It needs the port enabled and its variable latencies measured (R132). -/
def execLinkUp (port : Fin 7) (report : LinkReport) (s : State) : Host.Outcome State Fault Refusal :=
  .next (if h : port.val < 4 then
      let p : Fin 4 := ⟨port.val, h⟩
      if s.on (F.PRT_P_CFG_EN p) && s.on (F.STK_STAT_ALIGNED port) && refRuns s p && !(s.on (F.PRT_P_STAT_LINK p))
          && (report.trained || !(needsTraining s p)) then
        let code := s.get (F.PRT_P_CFG_SPEED p)
        let s := s.setB (F.PRT_P_STAT_TRAINED p) (needsTraining s p)
        let s := ((s.set (F.PRT_P_STAT_LINK p) 1).set (F.PRT_P_STAT_LF p) 0).set (F.PRT_P_STAT_RF p) 0
        let s := (s.set (F.PRT_P_STAT_SIGDET p) (usedLanes code)).setB (F.PRT_P_STAT_FECLOCK p) (decide (code = 4))
        pairUp p (linkComesUp port s)
      else s
    else if port.val = 6 then
      if s.on F.PRT_MGT_CFG_EN && s.on (F.STK_STAT_ALIGNED 6) && refRuns s 6 && !(s.on F.PRT_MGT_STAT_LINK) then
        let sgmii := !(s.on F.PRT_MGT_CFG_MODE) && s.on F.PRT_MGT_CFG_AN37
        let s := if sgmii then s.set F.PRT_MGT_STAT_PHYSPEED report.speed else s
        let s := s.setB F.PRT_MGT_STAT_ANDONE (s.on F.PRT_MGT_CFG_AN37)
        if sgmii && decide (report.speed.val ≠ 2) then s.set F.PRT_MGT_STAT_SPDREJ 1
        else linkComesUp 6 ((s.set F.PRT_MGT_STAT_SPDREJ 0).set F.PRT_MGT_STAT_LINK 1)
      else s
    else s)

/-- The grid model and the pauses of a main port end with its link (R111, R197). -/
def portDownCommon (p : Fin 4) (s : State) : State :=
  let s := { s with prt := { s.prt with pauses := s.prt.pauses.filter (fun x => decide (x.port ≠ p.val)) } }
  let q := s.port p
  let s := s.setPort p { q with model := { q.model with valid := false } }
  showPaused p (s.set (F.SKO_P_PERIOD_W1_VALID p) 0)

/-- The receive path of a port with a SerDes is lost: its variable latencies are to be measured anew (R132), training, codeword lock and negotiation are gone, and
a port that is not enabled ignores its receivers (R194, R195, R209). -/
def pathLost (p : Fin 7) (s : State) : State :=
  let s := s.set (F.STK_STAT_ALIGNED p) 0
  if p.val < 4 then
    let s := (s.set (F.PRT_P_STAT_TRAINED p) 0).set (F.PRT_P_STAT_FECLOCK p) 0
    s.set (F.PRT_P_STAT_SIGDET p) (if s.on (F.PRT_P_CFG_EN p) then s.get (F.PRT_P_STAT_SIGDET p) &&& usedLanes (s.get (F.PRT_P_CFG_SPEED p)) else 0)
  else if p.val = 6 then s.set F.PRT_MGT_STAT_ANDONE 0
  else s

/-- A link goes down, on any port that has one (R196, R197): count, interrupt, record, and what was in flight. -/
def linkDown (p : Fin 7) (s : State) : State :=
  let s := if h : p.val < 4 then
      let q : Fin 4 := ⟨p.val, h⟩
      pairDown q (portDownCommon q (signalLost q (dropReceived p (s.set (F.PRT_P_STAT_LINK q) 0))))
    else { (s.set F.PRT_MGT_STAT_LINK 0) with prt := { s.prt with pauses := s.prt.pauses.filter (fun x => decide (x.port ≠ p.val)) } }
  let s := dropTx p ((pathLost p s).set (F.STK_STAT_SPEED p) 0)
  recordUnit 0x1001 p 0 0 0 0 (irqSet (portGroup p) (A.PRT_IRQ_STAT p) 0 (portCount p 14 1 s))

/-- LINK_DOWN: a condition of R196 appears on a main port, or MGT loses its link: with the conditions found, the link of a port that was up goes down (R196, R197),
and one that was not up has to align again (R132). -/
def execLinkDown (port : Fin 7) (sigdet : BitVec 4) (lf rf feclock : Bool) (s : State) : Host.Outcome State Fault Refusal :=
  .next (if port.val < 4 ∨ port.val = 6 then
      let s := if linkUp s port then linkDown port s else pathLost port s
      if port.val < 4 then
        let on := s.on (F.PRT_P_CFG_EN port)
        let code := s.get (F.PRT_P_CFG_SPEED port)
        (((s.set (F.PRT_P_STAT_SIGDET port) (if on then sigdet.toNat &&& usedLanes code else 0)).setB (F.PRT_P_STAT_LF port) (on && lf)).setB
          (F.PRT_P_STAT_RF port) (on && rf)).setB (F.PRT_P_STAT_FECLOCK port) (on && feclock && decide (code = 4))
      else s
    else s)

/-- PAUSE_END: a pause interval of a class has ended (R202). -/
def execPauseEnd (port : Fin 7) (tc : Fin 8) (s : State) : Host.Outcome State Fault Refusal :=
  .next (showPaused port { s with prt := { s.prt with
    pauses := s.prt.pauses.filter (fun x => decide (¬(x.port = port.val ∧ x.tc = tc.val)) || after x.to_ s.datum) } })

/-- FLOW_CONTROL_REFRESH: half of QUANTA has elapsed since the frame of an onset (R203). A port whose TXPAUSE or TXPFC is 0 sends none. -/
def execFlowControlRefresh (port : Fin 4) (cls : Option (Fin 8)) (s : State) : Host.Outcome State Fault Refusal :=
  .next (let c := cls.map (·.val)
    match s.prt.onsets.find? (fun o => decide (o.port = port.val ∧ o.cls = c)) with
    | none => s
    | some o =>
      let half := bitTimes s port (s.get (F.PRT_P_FC_QUANTA port) * 256)
      if halted s then s
      else if flowEnabled s port c = true ∧ s.get (F.PRT_P_FCTH_XON port) * 16384 < occupancy s port c then
        if after (instAdd o.sentAt half) s.datum then s
        else sendPause port c (s.get (F.PRT_P_FC_QUANTA port)) { s with prt := { s.prt with
          onsets := s.prt.onsets.map (fun x => if x.port = port.val ∧ x.cls = c then { x with sentAt := s.datum } else x) } }
      else flowOne port c s)

/-- PATH_SWITCH: HOLD ends (R205). The path switches when the active link is still down and the other is up. -/
def execPathSwitch (pair : Fin 2) (s : State) : Host.Outcome State Fault Refusal :=
  .next (let pr := s.prt.pairs[pair]
    match pr.hold with
    | none => s
    | some t =>
      if after t s.datum then s
      else
        let s := { s with prt := { s.prt with pairs := s.prt.pairs.set pair { pr with hold := none } } }
        let act := pairActive s pair
        let oth := pairPrimary s pair + pairBackup s pair - act
        if pathUp s act then s
        else if pathUp s oth then switchPath pair (decide (oth = pairBackup s pair)) 0 s
        else s.set (F.PRT_PAIR_STAT_BOTHDOWN pair) 1)

/-- PATH_REVERT: the primary has been up for WTR with REVERT set, and no switch completed in the last second (R205). -/
def execPathRevert (pair : Fin 2) (s : State) : Host.Outcome State Fault Refusal :=
  .next (let pr := s.prt.pairs[pair]
    match pr.primaryUp with
    | none => s
    | some t =>
      let rested := match pr.lastSwitch with
        | none => true
        | some u => !(after (instAdd u secUnits) s.datum)
      if s.on (F.PRT_PAIR_CFG_EN pair) && s.on (F.PRT_PAIR_CFG_REVERT pair) && s.on (F.PRT_PAIR_STAT_ACTIVE pair) && rested
          && !(after (instAdd t (secUnits * s.get (F.PRT_PAIR_CFG_WTR pair))) s.datum) then
        switchPath pair false 1 s
      else s)

/-- The active paths at the end of BOOT (R205). -/
def pairsAtBootEnd (s : State) : State :=
  ([0, 1] : List Nat).foldl (fun s k =>
    if s.on (F.PRT_PAIR_CFG_EN k) then
      s.setB (F.PRT_PAIR_STAT_ACTIVE k) (pathUp s (pairBackup s k) && !(pathUp s (pairPrimary s k)))
    else s) s

/-- All counters of a port are cleared (R213). -/
def prtCounterClear (port : Nat) (s : State) : State := s.clear64s (A.PRT_CNT_W0 port 0) 23

/-! ## Frames that are not staked (R114, R123, R142) -/

/-- The order of R200 among waiting frames: flow control first, then the highest class; among equals the earliest. -/
def txRank (f : TxFrame) : Nat := if f.owner = .control then 8 else f.tc

/-- Whether a waiting frame is held by a pause. Flow control frames are not. -/
def txHeld (s : State) (p : Fin 7) (f : TxFrame) : Bool :=
  if f.owner = .control then false
  else (s.prt.pauses.filter (fun x => decide (x.port = p.val ∧ x.tc = f.tc))).any
    (fun x => !(after x.from_ s.datum) && after x.to_ s.datum)

/-- The frames of a queue that no earlier one of the same down-ring holds back: frames of one ring to one port leave in ring order (R334). `seen` lists the rings of
the frames before. -/
def txFirsts : List Nat → List TxFrame → List TxFrame
  | _, [] => []
  | seen, f :: fs => match f.owner with
    | .host r _ => if seen.contains r then txFirsts seen fs else f :: txFirsts (r :: seen) fs
    | .device | .control | .twoStep _ | .client _ _ | .grant _ _ _ _ => f :: txFirsts seen fs

/-- The waiting frame that may go next. -/
def txPick (s : State) (p : Fin 7) : Option TxFrame :=
  let free := (txFirsts [] (s.prt.tx[p])).filter (fun f => !(txHeld s p f))
  if p.val < 4 then
    free.foldl (fun m f => match m with
      | none => some f
      | some g => if txRank g < txRank f then some f else m) none
  else free.head?

/-- Remove the first copy of a frame. -/
def txRemove (f : TxFrame) (l : List TxFrame) : List TxFrame := l.erase f

/-- How long a frame occupies the wire with its inter-packet gap, in 2^-16 ns (R112, R114). -/
def txTime (s : State) (p : Fin 7) (f : TxFrame) : Nat := bitTimes s p ((f.bytes.length + 4 + 20) * 8)

/-- Whether a frame that starts now ends before the next reservation of the port (R114). -/
def txFits (s : State) (p : Fin 7) (f : TxFrame) : Bool :=
  if h : p.val < 4 then
    let q : Fin 4 := ⟨p.val, h⟩
    let n := f.bytes.length + 4
    let w := if (s.port q).model.valid then wireTime s q n else txTime s p f * 2 ^ 16
    (clash (s.port q).tickets (s.datum * 2 ^ 16) (s.datum * 2 ^ 16 + w)).isNone
  else true

/-- UNSTAKED_FRAME_SEND: the next frame that is not staked starts, on P0-P3 when it fits before the next reservation, on MGT in order (R114,
R200). F0 and F1 send by FIELD_TX_ATTEMPT. In a freeze nothing starts (R33). -/
def execUnstakedFrameSend (port : Fin 7) (s : State) : Host.Outcome State Fault Refusal :=
  .next (if (port.val = 4 ∨ port.val = 5) ∨ linkUp s port = false ∨ s.prt.txNow[port].isSome = true ∨ halted s = true then s
    else match txPick s port with
      | none => s
      | some f =>
        if txFits s port f then
          let s := { s with prt := { s.prt with
            tx := s.prt.tx.set port (txRemove f s.prt.tx[port])
            txNow := s.prt.txNow.set port (some (f, instAdd s.datum (txTime s port f))) } }
          let s := if f.owner = .control then portCount port (if beAt f.bytes 14 2 = 1 then 12 else 13) 1 s else s
          s.emit (.frame port (withFcs f.bytes) s.datum)
        else s)

/-- A Stake unit's egress instant reaches the PTP client that sent a Delay_Req (R142). -/
def clientLeft (n : Fin 2) (seq : Nat) (t : Instant) (s : State) : State :=
  let f := fun (c : PtpClient) => { c with outstanding := c.outstanding.map (fun d =>
    if d.seq = seq ∧ d.left = none then { d with left := some t } else d) }
  if n.val = 0 then { s with dtm := { s.dtm with pc0 := f s.dtm.pc0 } } else { s with dtm := { s.dtm with pc1 := f s.dtm.pc1 } }

/-- What a sent frame that started on the edge `start` and has the egress instant `t` owes its owner (R106, R139, R140, R334). -/
def txOwed (p : Fin 7) (o : TxOwner) (start t : Instant) (s : State) : State :=
  match o with
  | .device | .control => s
  | .grant identity kind log dur => grantSent p identity kind log dur start s
  | .host r slot => endHostFrame r slot 0 (some t) s
  | .twoStep tag => egressQueue p ⟨tag, some t⟩ s
  | .client n seq => clientLeft n seq t s

/-- What a frame that left without an egress instant owes its owner: its timestamp point crossed while DCLK was stopped (R106, R138, R334). -/
def txUnstamped (p : Fin 7) (o : TxOwner) (start : Instant) (s : State) : State :=
  match o with
  | .host r slot => endHostFrame r slot 0 none s
  | .twoStep tag => dropSync p tag s
  | .grant identity kind log dur => grantSent p identity kind log dur start s
  | .device | .control | .client _ _ => s

/-- A field port has sent its frame: the collision count ends with it, and the burst of its PLCA opportunity goes on from here (R207, R208). -/
def fieldSent (p : Fin 7) (s : State) : State :=
  if h : p.val = 4 ∨ p.val = 5 then
    let n : Fin 2 := ⟨p.val - 4, by omega⟩
    s.setField n { s.prt.field[n] with collisions := 0, sending := false, deferred := false, burstEnd := s.now }
  else s

/-- HOST_FRAME_SENT: the frame on the wire that is not staked has left complete, with the capture of its timestamp point, none where that point crossed while DCLK
was stopped (R138, R334, R139, R142). -/
def execHostFrameSent (port : Fin 7) (capture : Option Nat) (s : State) : Host.Outcome State Fault Refusal :=
  .next (match s.prt.txNow[port] with
    | none => s
    | some x =>
      let s := fieldSent port { s with prt := { s.prt with txNow := s.prt.txNow.set port none } }
      let n := x.1.bytes.length + 4
      let start := instAdd x.2 (-(txTime s port x.1 : Int))
      match capture with
      | some c =>
        let r := egressStamp port c (compTxAt s port c) (ptpEvent x.1.bytes) s
        showPaused port (txOwed port x.1.owner start r.1 (portSent port n r.2))
      | none => showPaused port (txUnstamped port x.1.owner start (portSent port n s)))

/-! ## Field ports (R206-R208) -/

/-- Fn_TX_ER: low at all times (R206). -/
def fieldTxEr (_ : State) (_ : Fin 2) : Bool := false

/-- A mode in which a field port sends nothing: the BEACON stops, and there is no transmit opportunity (R208, R212, R363). -/
def fieldSilent (s : State) : Bool := decide (s.mode = 4 ∨ s.mode = 6 ∨ s.mode = 7)

/-- The port's own transmit opportunity runs, with room for a frame (R208). -/
def ownTurn (s : State) (n : Fin 2) : Bool :=
  let f := s.prt.field[n]
  f.cycling && decide (plcaNode s n = s.get (F.PRT_F_PLCA0_NODEID n)) && decide (f.toFrom ≤ s.now)
    && decide (f.burst ≤ s.get (F.PRT_F_PLCA1_MAXBC n))

/-- The head of the queue of a field port goes on the wire. In its opportunity the port stays the current node (R208). -/
def fieldStart (n : Fin 2) (x : TxFrame) (rest : List TxFrame) (s : State) : State :=
  let p := fieldPort n
  let f := s.prt.field[n]
  let f := if plcaRules s n then { f with curId := s.get (F.PRT_F_PLCA0_NODEID n), burst := f.burst + 1 } else f
  let s := s.setField n { f with sending := true }
  let s := { s with prt := { s.prt with
    tx := s.prt.tx.set p rest, txNow := s.prt.txNow.set p (some (x, instAdd s.datum (txTime s p x))) } }
  s.emit (.frame p (withFcs x.bytes) s.datum)

/-- FIELD_TX_ATTEMPT: the head of the queue tries the wire, with the bit times since Fn_CRS fell, none while carrier is sensed. Under CSMA/CD it defers to carrier,
counted once, and keeps the inter-packet gap of 96 bit times and its backoff (R206, R207); under PLCA it goes in the port's own opportunity alone (R208). -/
def execFieldTxAttempt (n : Fin 2) (quiet : Option Nat) (s : State) : Host.Outcome State Fault Refusal :=
  .next (let p := fieldPort n
    let f := s.prt.field[n]
    match s.prt.tx[p] with
    | [] => s
    | x :: rest =>
      if linkUp s p = false ∨ f.sending = true ∨ fieldSilent s = true ∨ halted s = true then s
      else if plcaRules s n then (if quiet.isSome && ownTurn s n then fieldStart n x rest s else s)
      else match quiet with
        | none => if f.deferred then s else portCount p 20 1 (s.setField n { f with deferred := true })
        | some q => if 96 ≤ q ∧ after f.backoff s.datum = false then fieldStart n x rest s else s)

/-- A frame is abandoned after the attempt limit (R141, R207). -/
def fieldAbandon (n : Fin 2) (x : TxFrame) (s : State) : State :=
  let p := fieldPort n
  let s := irqSet (portGroup p) (A.PRT_IRQ_STAT p) 4 (portCount p 21 1 s)
  match x.owner with
  | .host r slot => endHostFrame r slot 5 none s
  | .twoStep tag => egressQueue p ⟨tag, none⟩ s
  | .grant identity kind _ _ => grantLost p identity kind s
  | .device | .control | .client _ _ => s

/-- A frame goes back to the head of the queue of its field port. -/
def fieldReturn (n : Fin 2) (x : TxFrame) (s : State) : State :=
  { s with prt := { s.prt with tx := s.prt.tx.set (fieldPort n) (x :: s.prt.tx[fieldPort n]) } }

/-- The collision came more than 512 bit times after the first preamble bit of the frame on the wire (R206). -/
def lateCollision (s : State) (n : Fin 2) (x : TxFrame × Instant) : Bool :=
  decide ((bitTimes s (fieldPort n) 512 : Int) < instDiff s.datum (instAdd x.2 (-(txTime s (fieldPort n) x.1 : Int))))

/-- The frame on a field port's wire ends with the jam (R206). -/
def cutFrame (n : Fin 2) (s : State) : State :=
  { s with prt := { s.prt with txNow := s.prt.txNow.set (fieldPort n) none } }.emit (.cut (fieldPort n) s.datum)

/-- What becomes of a frame that collided, by the state `f` of its port: it goes back to the head of the queue behind a backoff of r slot times, a free value below
2^min(n, 10) drawn from the generator; the sixteenth collision abandons it (R207). Under PLCA it waits for the port's next opportunity and is never abandoned (R208;
assumption log 82). -/
def collided (n : Fin 2) (x : TxFrame) (f : FieldPort) (s : State) : State :=
  if plcaRules s n then fieldReturn n x (s.setField n { f with sending := false, burstEnd := s.now })
  else if 15 ≤ f.collisions then fieldAbandon n x (s.setField n { f with collisions := 0, sending := false, deferred := false })
  else
    let c := f.collisions + 1
    let r := s.draw (if c < 10 then c else 10)
    fieldReturn n x (r.2.setField n { f with collisions := c, sending := false, backoff := instAdd r.2.datum (nsUnits (51200 * r.1)) })

/-- A collision counts, and counts as late where it is (R206, R207). -/
def collide (n : Fin 2) (s : State) : State :=
  match s.prt.txNow[fieldPort n] with
  | none => s
  | some x =>
    collided n x.1 s.prt.field[n] (cutFrame n (portCount (fieldPort n) 18 1 (if lateCollision s n x then portCount (fieldPort n) 19 1 s else s)))

/-- FIELD_COLLISION: Fn_COL changes to `level`; its rise during a transmission is a collision (R206, R207). -/
def execFieldCollision (n : Fin 2) (level : Bool) (s : State) : Host.Outcome State Fault Refusal := .next (if level then collide n s else s)

/-- BEACON_LOST: a node that is not the coordinator saw no BEACON for BTO ms: it falls back to CSMA/CD (R208). -/
def execBeaconLost (n : Fin 2) (s : State) : Host.Outcome State Fault Refusal :=
  .next (if plcaRules s n && !(plcaLeads s n) && linkUp s (n.val + 4)
        && decide ((s.prt.field[n]).beaconAt + s.get (F.PRT_F_PLCA1_BTO n) * 1200000 ≤ s.now) then
      let p := fieldPort n
      irqSet (portGroup p) (A.PRT_IRQ_STAT p) 5 (portCount p 22 1
        ((s.set (F.PRT_F_STAT_PLCAOK n) 0).setField n { s.prt.field[n] with fallback := true, cycling := false }))
    else s)

/-- BEACON_RECEIVE: a BEACON has arrived: it ends the fallback and opens a cycle (R208). -/
def execBeaconReceive (n : Fin 2) (s : State) : Host.Outcome State Fault Refusal :=
  .next (if plcaOn s n && !(plcaLeads s n) && linkUp s (n.val + 4) then
      (s.set (F.PRT_F_STAT_PLCAOK n) 1).setField n ((s.prt.field[n]).cycle s.now s.now)
    else s)

/-- BEACON_SEND: the coordinator starts a PLCA cycle, once every node of NCOUNT has had its opportunity (R208). -/
def execBeaconSend (n : Fin 2) (s : State) : Host.Outcome State Fault Refusal :=
  .next (let f := s.prt.field[n]
    if plcaLeads s n && linkUp s (n.val + 4) && !(fieldSilent s) && !(halted s) && !f.sending
        && (!f.cycling || decide (s.get (F.PRT_F_PLCA0_NCOUNT n) ≤ plcaNode s n)) then
      (((s.set (F.PRT_F_STAT_COORD n) 1).set (F.PRT_F_STAT_PLCAOK n) 1).setField n (f.cycle s.now (s.now + beaconBits * fieldBit))).emit
        (.frame (n.val + 4) [] s.datum)
    else s)

/-- A field port comes up, goes down, or takes another PLCA setting: its cycle starts anew, and PLCAOK and COORD say what holds (R206, R208). -/
def fieldSettle (n : Fin 2) (s : State) : State :=
  let up := linkUp s (n.val + 4)
  let lead := up && plcaLeads s n
  let s := ((s.setB (F.PRT_F_STAT_COORD n) lead).setB (F.PRT_F_STAT_PLCAOK n) lead).set (F.STK_STAT_SPEED (n.val + 4)) (if up then 1 else 0)
  s.setField n { s.prt.field[n] with fallback := false, cycling := false, beaconAt := s.now, curId := 0, toFrom := 0, burst := 0, burstEnd := 0 }

/-- A field port goes down: the frame on the wire ends, and what waits is dropped (R206, R334). -/
def fieldDown (n : Fin 2) (s : State) : State :=
  let p := fieldPort n
  let s := if (s.prt.field[n]).sending then s.emit (.cut p s.datum) else s
  fieldSettle n (dropTx p (s.setField n .empty))

/-- FIELD_RX_CLK_CHANGE: Fn_RX_CLK starts or stops (R206). -/
def execFieldRxClkChange (n : Fin 2) (running : Bool) (s : State) : Host.Outcome State Fault Refusal :=
  .next (if s.on (F.PRT_F_STAT_CLKOK n) = running then s
    else
      let s := s.setB (F.PRT_F_STAT_CLKOK n) running
      if running then fieldSettle n s else fieldDown n s)

/-! ## MDIO (R210) -/

/-- The MDIO frame of a command: start, operation, addresses, turnaround and data of Clause 22 or Clause 45. -/
def mdioFrame (v : Word) : BitVec 32 :=
  let cl45 := v.getLsbD 29
  let op := fieldGet v 27 2
  let code := if cl45 then op else if op = 3 then 2 else op
  BitVec.ofNat 32 ((if cl45 then 0 else 1) * 2 ^ 30 + code * 2 ^ 28 + fieldGet v 22 5 * 2 ^ 23 + fieldGet v 17 5 * 2 ^ 18
    + 2 * 2 ^ 16 + fieldGet v 0 16)

/-- A write of PRT_MDIO_CMD (R210): its fields load, and GO starts the frame that they describe; a GO while BUSY is 1 is ignored. -/
def mdioWrite (v : Word) (s : State) : State :=
  let busy := s.on F.PRT_MDIO_CMD_BUSY
  let s := (s.wr A.PRT_MDIO_CMD (v &&& 0x3FFEFFFF)).setB F.PRT_MDIO_CMD_BUSY (busy || v.getLsbD 30)
  if v.getLsbD 30 && !busy then { s with prt := { s.prt with mdioRead := decide (2 ≤ fieldGet v 27 2) } }.emit (.mdio (mdioFrame v)) else s

/-- MDIO_DONE: the frame completes; a read places its result in DATA (R210). -/
def execMdioDone (data : BitVec 16) (s : State) : Host.Outcome State Fault Refusal :=
  .next (if s.on F.PRT_MDIO_CMD_BUSY then
      let s := s.set F.PRT_MDIO_CMD_BUSY 0
      if s.prt.mdioRead then s.set F.PRT_MDIO_CMD_DATA data.toNat else s
    else s)

end Sys2Proof.Machine
end

