-- ==== Sys2Proof/Machine/HostIf.lean ====
section
/-! DEFINITION. The host interface: enabling and stopping rings, delivery, transmit frames, commands and completions, PCIe events (R317-R336, R426). -/
namespace Sys2Proof.Machine

/-- D16 to D23 have no function: their registers read 0 and ignore writes (R323). -/
def ringExists (r : Nat) : Bool := decide (r < 64) && !(decide (48 ≤ r) && decide (r < 56))

/-- Whether a ring runs. -/
def ringOn (s : State) (r : Nat) : Bool := s.on (F.HMI_R_CFG_EN r)

/-! ## Enabling and stopping (R324, R326) -/

/-- A write of TAIL hands slots over; 2^SIZE or more is discarded and sets TAILERR (R324). -/
def ringTailWrite (r : Nat) (value : Word) (s : State) : State :=
  if ringExists r = false then s
  else
    let v := value.toNat % 65536
    if ringSize s r ≤ v then s.strike (F.HMI_R_STAT_TAILERR r) else s.set (F.HMI_R_TAIL_TAIL r) v

/-- A CFG value with its fields in range. -/
def ringCfgClamp (v : Word) : Word :=
  let size := clampNat 6 16 (fieldGet v 24 5)
  let buf := clampNat 1 256 (fieldGet v 8 9)
  BitVec.ofNat 32 (fieldGet v 31 1 * 2 ^ 31 + size * 2 ^ 24 + buf * 2 ^ 8)

/-- A ring starts: HEAD, TAIL and WRAPS are 0 and are written back (R326). -/
def ringStart (r : Nat) (s : State) : State :=
  let s := ((s.set (F.HMI_R_HEAD_HEAD r) 0).set (F.HMI_R_TAIL_TAIL r) 0).setRing r Ring.empty
  let s := (s.set (F.HMI_R_CFG_EN r) 1).set (F.HMI_R_STAT_ACTIVE r) 1
  if dmaOk s then writeBack r s else s

/-- Commands of D24 + k end ABORTED and their completions are discarded (R326). -/
def ringAbortCommands (k : Nat) (s : State) : State :=
  let s := abortRing k s
  s.setRing (56 + k) { s.ring (56 + k) with cmds := [] }

/-- The open record buffer of a ring that stops while the device may issue no DMA is not completed: its records count as dropped (assumption log 105). -/
def bufferLost (r : Nat) (s : State) : State :=
  match (s.ring r).buf with
  | none => s
  | some b => (List.replicate b.records ()).foldl (fun s _ => dropQuiet r s) (s.setRing r { s.ring r with buf := none })

/-- A ring stops taking new slots (R326): the record buffer in progress is completed, queued items are dropped and counted, commands are
aborted. Down frames that were fetched whole are completed as they end. -/
def ringStop (r : Nat) (s : State) : State :=
  let s := s.set (F.HMI_R_CFG_EN r) 0
  if r < 24 then
    let s := if dmaOk s then completeBuffer r s else bufferLost r s
    let n := (s.ring r).queue.length
    let s := (s.ring r).queue.foldl (fun s i => undelivered i s) s
    (List.replicate n ()).foldl (fun s _ => dropQuiet r s) (s.setRing r { s.ring r with queue := [], waitFrom := none })
  else if 56 ≤ r then ringAbortCommands (r - 56) s
  else s

/-- A write of CFG (R326): its fields take writes only while EN and ACTIVE are 0, EN always. -/
def ringCfgWrite (r : Nat) (value : Word) (s : State) : State :=
  if ringExists r = false then s
  else
    let v := ringCfgClamp value
    let old := s.rd (A.HMI_R_CFG r)
    let was := ringOn s r
    let idle := !was && !(s.on (F.HMI_R_STAT_ACTIVE r))
    let s := if idle then s.wr (A.HMI_R_CFG r) (fieldSet v 31 1 0)
      else if fieldSet v 31 1 0 = fieldSet old 31 1 0 then s else s.strike (F.HMI_R_STAT_CFGERR r)
    if v.getLsbD 31 && !was then ringStart r s
    else if !(v.getLsbD 31) && was then ringStop r s
    else s

/-- RING_STOP_COMPLETE: ACTIVE of a stopped ring falls and it issues no more DMA (R326). -/
def execRingStopComplete (ring : Fin 64) (s : State) : Host.Outcome State Fault Refusal :=
  .next (if ringOn s ring then s else (s.set (F.HMI_R_STAT_ACTIVE ring) 0).setRing ring { s.ring ring with frames := [] })

/-! ## Delivery (R330, R331) -/

/-- UP_RING_FRAME_DELIVER: the frame at the head of the queue of a frame ring, with the slots from HEAD on as the host wrote them. Without bus
mastering the ring has no free descriptor, and a freeze pauses it (R319, R320). -/
def execUpRingFrameDeliver (ring : Fin 16) (slots : List Desc) (s : State) : Host.Outcome State Fault Refusal :=
  .next (if ringOn s ring = false ∨ s.hmi.dmaPaused.isSome = true then s
    else deliverFrame ring (if dmaOk s then slots else []) s)

/-- UP_RING_RECORD: the record at the head of the queue of record ring U16 + n, with the owned slots after the open buffer's. -/
def execUpRingRecord (ring : Fin 8) (slots : List Desc) (s : State) : Host.Outcome State Fault Refusal :=
  .next (let r := 16 + ring.val
    if ringOn s r = false ∨ s.hmi.dmaPaused.isSome = true then s
    else if dmaOk s then deliverRecord r slots s
    else match (s.ring r).queue with
      | [] => s
      | i :: _ => waitHead r i.bytes.length s)

/-- RING_WAIT_EXPIRY: WAIT µs have passed and the item at the head still lacks slots: it is dropped as RING_SHORT (R330, R331). -/
def execRingWaitExpiry (ring : Fin 24) (s : State) : Host.Outcome State Fault Refusal :=
  .next (match (s.ring ring).waitFrom, (s.ring ring).queue with
    | some t, i :: _ =>
      if s.hmi.dmaPaused = none ∧ t + usPeriods * s.get (F.HMI_R_LIM_WAIT ring) ≤ s.now then
        dropItem ring false i.bytes.length (popQueue ring (undelivered i s))
      else s
    | _, _ => s)

/-- RECORD_BUFFER_COALESCE: COALESCE µs have passed since the first record of the open buffer (R331). -/
def execRecordBufferCoalesce (ring : Fin 8) (s : State) : Host.Outcome State Fault Refusal :=
  .next (let r := 16 + ring.val
    match (s.ring r).buf with
    | some b =>
      if dmaOk s && decide (0 < b.records) && decide (b.since + usPeriods * s.get (F.HMI_R_COAL_COALESCE r) ≤ s.now) then completeBuffer r s else s
    | none => s)

/-- RING_IRQ_TIMER: TMR µs have passed since the first completion not yet signalled (R321). -/
def execRingIrqTimer (ring : Fin 56) (s : State) : Host.Outcome State Fault Refusal :=
  .next (let t := s.get (F.HMI_R_IRQ_TMR ring)
    let q := s.ring ring
    if s.on (F.HMI_R_IRQ_EN ring) && decide (t ≠ 0) && decide (0 < q.unsignalled) && s.hmi.dmaPaused.isNone
        && decide (q.firstAt + usPeriods * t ≤ s.now) then ringFire ring s
    else s)

/-! ## Host transmit frames (R333, R334) -/

/-- Slots that frames of a down ring hold and that have no completion yet. -/
def slotsFetched (s : State) (r : Nat) : Nat := (s.ring r).frames.foldl (fun n f => n + f.slots.length) 0

/-- Whether a descriptor has EOP, TSREQ. -/
def descEop (d : Desc) : Bool := d.len != 0 && d.hflags % 2 == 1
def descTsreq (d : Desc) : Bool := d.hflags / 2 % 2 == 1

/-- Whether slots are one frame: the last one has EOP and no other valid one has; or invalid ones alone, which are part of no frame (R328). -/
def oneFrame (l : List Desc) : Bool :=
  match l.reverse with
  | [] => false
  | d :: ds => (descEop d && ds.all (fun x => !(descEop x))) || (d :: ds).all (fun x => x.len == 0)

/-- Index, CLAMPED and INVALID of each slot from place `i` after HEAD on. -/
def frameSlots (s : State) (r : Nat) : Nat → List Desc → List (Nat × Bool × Bool)
  | _, [] => []
  | i, d :: ds => ((ringHead s r + i) % ringSize s r, d.len != 0 && (slotLen s r d).2, d.len == 0) :: frameSlots s r (i + 1) ds

/-- Bytes of frame data that the valid slots name, as clamped. -/
def frameBytes (s : State) (r : Nat) (l : List Desc) : Nat := l.foldl (fun n d => n + (slotLen s r d).1) 0

/-- A MAC of an enabled service address (R303). -/
def isServiceMac (s : State) (mac : Nat) : Bool :=
  (List.range 272).any (fun n => s.on (F.SVP_SA_CTL_EN n) && decide (saMac s n = mac))

/-- The first failing check of R334. -/
def txStatus (s : State) (port len : Nat) (b : Bytes) : Option Nat :=
  if 6 < port then some 1
  else if maxFrame s port < b.length + 4 ∨ 9600 < len then some 2
  else if s.mode = 3 ∧ isServiceMac s (beAt b 6 6) = true then some 3
  else if linkUp s port = false then some 4
  else none

/-- Traffic class of a host frame (R200). -/
def hostClass (s : State) (p : Nat) (b : Bytes) : Nat := if p < 4 then frameClass s p b else 0

/-- HOST_TX_FRAME: the next frame of D-ring n, with its slots as the host wrote them, invalid ones included, and the data that they name (R333,
R334); or invalid slots alone, which are completed in ring position (R328). The event needs the slots to be handed over, and a frame's to end with EOP. -/
def execHostTxFrame (ring : Fin 16) (slots : List Desc) (data : Bytes) (s : State) : Host.Outcome State Fault Refusal :=
  .next (let r := 32 + ring.val
    let held := slotsFetched s r
    if ringOn s r && dmaOk s && oneFrame slots && decide (held + slots.length ≤ ringOwned s r) then
      match slots.find? (fun d => d.len != 0) with
      | none => flushDown r ((s.ring r).frames ++ [⟨frameSlots s r held slots, 0, 0, false, some 0, none⟩]) s
      | some d =>
        let len := frameBytes s r slots
        let b := ethPad ((padTo len data).take (if len < 9600 then len else 9600))
        let sl := frameSlots s r held slots
        let st := txStatus s d.port len b
        let f : DownFrame := ⟨sl, d.id, d.port, descTsreq d, st, none⟩
        let s := pmcEvent 12 0x04 r (if len < 9600 then len else 9600) s
        let s := s.setRing r { s.ring r with frames := (s.ring r).frames ++ [f] }
        if h : st = none ∧ d.port < 7 then
          txEnqueue ⟨d.port, h.2⟩ ⟨b, hostClass s d.port b, .host r ((sl.head?.map (·.1)).getD 0)⟩ s
        else flushDown r (s.ring r).frames s
    else s)

/-! ## Commands (R335, R336) -/

/-- Commands of D24 + k that hold a completion slot. -/
def commandsHeld (s : State) (k : Nat) : Nat := (s.ring (56 + k)).cmds.length

/-- Whether an operation of the cluster names a key store slot, whose content is then copied at dispatch (R190). -/
def commandKey (s : State) (b : Bytes) : Option KeySlot := s.pke.slots.get (leAt b 4 2)

/-- COMMAND_FETCH: the next command slot of D24 + k and its block are read once U24 + k has a slot for the completion (R335). HEAD passes the
slot (R329). An invalid slot, an unknown opcode and a failed dispatch check end the command without running it (R179, R335). -/
def execCommandFetch (k : Fin 8) (desc : Desc) (block : Bytes) (s : State) : Host.Outcome State Fault Refusal :=
  .next (let r := 56 + k.val
    let u := 24 + k.val
    if ringOn s r && ringOn s u && dmaOk s && decide (0 < ringOwned s r) && decide (commandsHeld s k < ringOwned s u) then
      let invalid := decide (desc.len = 0)
      let l := slotLen s r desc
      let b := padTo l.1 (block.take l.1)
      let seq := s.pke.nextSeq
      let c : HostCmd := ⟨seq, desc.id, ringHead s r, if invalid then [] else b, desc.addr2, desc.len2, l.2 && !invalid, invalid, false,
        commandKey s b, none, 0⟩
      let s := { s with pke := { s.pke with nextSeq := seq + 1 } }
      let s := s.setRing r { s.ring r with cmds := (s.ring r).cmds ++ [c] }
      let s := writeBack r (headAdvance r 1 (noteSlot r c.clamped invalid (pmcEvent 12 0x04 r (32 + l.1) s)))
      let op := beAt b 0 1
      if invalid then modCmd k seq (fun c => { c with done := some (0x11, []), ready := s.now }) s
      else if 0x40 ≤ op ∧ op ≤ 0x44 then s
      else if op = 0 ∨ 0x34 < op then modCmd k seq (fun c => { c with done := some (0x10, []), ready := s.now + 100 }) s
      else
        let st := dispatchStatus s true b desc.len2
        if st = 0 then s else rejectHost k seq st s
    else s)

/-- COMMAND_COMPLETION: the oldest command of D24 + k has ended, and its result and completion are written (R329, R336). -/
def execCommandCompletion (k : Fin 8) (s : State) : Host.Outcome State Fault Refusal :=
  .next (let r := 56 + k.val
    let u := 24 + k.val
    match (s.ring r).cmds with
    | [] => s
    | c :: rest =>
      match c.done with
      | none => s
      | some (st, res) =>
        if c.ready ≤ s.now ∧ ringOn s u = true ∧ dmaOk s = true ∧ 0 < ringOwned s u then
          let s := s.setRing r { s.ring r with cmds := rest }
          let s := if res = [] then s else dmaWrite u c.resAddr res s
          let cf := (if c.invalid then 4 else 0) + (if c.clamped then 8 else 0)
          let b := natLE 2 c.id ++ natLE 2 c.pos ++ natLE 1 st ++ natLE 1 cf ++ zeros 2 ++ natLE 4 res.length ++ zeros 4 ++ stampBytes s.datum
          ringCompleted u 1 (dmaWrite u (slotAddr s u (ringHead s u)) b s)
        else s)

/-! ## PCIe events (R319, R426) -/

/-- Stop a ring on the edge of a host-side event: what it holds is handled as when EN is written 0 (R319). -/
def ringHalt (s : State) (r : Nat) : State := if ringOn s r then ringStop r s else s

/-- HOST_RESET: link down, hot reset, FLR or PCIE_PERST_N (R319): every ring stops, the MSI-X table, its pending bits and HMI_IRQ_PEND are
cleared, and the event is counted and recorded. From the edge of the event on, the device issues no DMA. -/
def hostReset (linkDown : Bool) (s : State) : State :=
  let s := ((s.set F.HMI_STAT_BME 0).set F.HMI_STAT_MSIX 0).set F.HMI_STAT_D3 0
  let s := (List.range 64).foldl ringHalt s
  let s := { s with hmi := { s.hmi with msix := [], pba := 0 } }
  let s := (s.wr A.HMI_IRQ_PEND_W0 0).wr A.HMI_IRQ_PEND_W1 0
  let s := if linkDown then ((s.set F.HMI_STAT_LINK 0).set F.HMI_STAT_SPEED 0).set F.HMI_STAT_WIDTH 0 else s
  record 0x4801 0 0 0 0 (s.addSat F.HMI_RST_CNT_COUNT 1)

/-- HOST_RESET (R319). -/
def execHostReset (linkDown : Bool) (s : State) : Host.Outcome State Fault Refusal := .next (hostReset linkDown s)

/-- BUS_MASTER_DISABLE: Bus Master Enable is cleared, or D3hot is entered (R319). -/
def execBusMasterDisable (d3 : Bool) (s : State) : Host.Outcome State Fault Refusal :=
  .next (if d3 then s.set F.HMI_STAT_D3 1 else s.set F.HMI_STAT_BME 0)

/-- The messages of unmasked vectors that pend leave (R321; assumption log 42). -/
def sendPending (s : State) : State :=
  (List.range 64).foldl (fun (s : State) (v : Nat) =>
    if s.hmi.pba.testBit v && messageOk s && (s.hmi.msix.get v).any (fun e => !e.masked) then
      signalVector v { s with hmi := { s.hmi with pba := s.hmi.pba ^^^ 2 ^ v } }
    else s) s

/-- BUS_MASTER_ENABLE: the host sets Bus Master Enable or leaves D3hot, with its MSI-X Enable (R319, R321). -/
def execBusMasterEnable (d3 msix : Bool) (s : State) : Host.Outcome State Fault Refusal :=
  .next (if s.on F.HMI_STAT_LINK then
      let s := s.setB F.HMI_STAT_MSIX msix
      sendPending (if d3 then s.set F.HMI_STAT_D3 0 else s.set F.HMI_STAT_BME 1)
    else s)

/-- What the configuration space says of the function: Device ID and Subsystem ID, Revision ID, class code, Interrupt Pin, MSI-X vectors (R317). The vendor identifier,
which the spec does not give, is left out. -/
def pcieIdentity : List Nat := [0x4860, 0x4860, 0xB1, 0x118000, 0, 64]

/-- PCIE_LINK_UP: the link trains at a speed (0 is 2.5 GT/s) and width (0 is x1, 2 is x4) within the limits of HMI_CFG (R317, R426). Its reference is SYN_AUX, without whose
lock no link comes up (R35). -/
def execPcieLinkUp (speed : Fin 4) (width : Fin 3) (s : State) : Host.Outcome State Fault Refusal :=
  .next (let sp := if s.get F.HMI_CFG_MAXSPD < speed.val then s.get F.HMI_CFG_MAXSPD else speed.val
    let w := if s.get F.HMI_CFG_MAXW < width.val then s.get F.HMI_CFG_MAXW else width.val
    if s.on F.SYN_STAT_AUXLOCK then ((s.set F.HMI_STAT_LINK 1).set F.HMI_STAT_SPEED (sp + 1)).set F.HMI_STAT_WIDTH (2 ^ w) else s)

end Sys2Proof.Machine
end

