-- ==== Sys2Proof/Machine/Lanes.lean ====
section
/-! DEFINITION. The twelve SIV lanes: who waits for one, the round-robin that grants them, and what a grant starts (R22, R167, R169). -/
namespace Sys2Proof.Machine

/-- The pipeline of a job: that of its port. -/
def SivJob.pipe : SivJob → Nat
  | .verify r => r.pl
  | .encrypt p _ => p

/-- A drop that a crypto counter of R170 counts. -/
def crlDrop (k : Nat) (g : Tag) (s : State) : State := traceEnd g 1 (0x80 + k) (crlCount k 1 s)

/-! ## Lanes (R22, R167) -/

/-- Whether a lane accepts a job: in service, fewer than 32 jobs in flight, and the issue cost of its last job has elapsed. -/
def laneOpen (s : State) (n : Fin 12) : Bool :=
  !(s.flt.isoLanes.testBit n) && decide ((s.svp.lanes[n]).jobs.length < 32) && decide ((s.svp.lanes[n]).free ≤ s.now)

/-- The lanes that hold a job of a pipeline. -/
def lanesHeld (s : State) (r : Nat) : List (Fin 12) := (List.finRange 12).filter (fun n => (s.svp.lanes[n]).jobs.any (fun j => decide (j.pipe = r)))

/-- The lane that a pipeline gets: the lowest that accepts a job, among its own once it holds four (R22). -/
def laneFor (s : State) (r : Nat) : Option (Fin 12) :=
  (List.finRange 12).find? (fun n => laneOpen s n && (decide ((lanesHeld s r).length < 4) || (lanesHeld s r).contains n))

/-- The lane that the service processors get: they hold at most one at a time (R167). -/
def laneForSpu (s : State) : Option (Fin 12) :=
  if s.svp.keUntil ≤ s.now then (List.finRange 12).find? (laneOpen s) else none

/-- A lane issues a job of a cost in KCLK, of two DCLK periods each. -/
def laneIssue (n : Fin 12) (job : Option SivJob) (cost : Nat) (s : State) : State :=
  let l := s.svp.lanes[n]
  pmcEvent 5 0x02 n 1 { s with svp := { s.svp with lanes := s.svp.lanes.set n ⟨l.jobs ++ job.toList, s.now + 2 * cost⟩ } }

/-- A job leaves its lane. -/
def laneDone (n : Fin 12) (job : SivJob) (s : State) : State :=
  let l := s.svp.lanes[n]
  { s with svp := { s.svp with lanes := s.svp.lanes.set n { l with jobs := l.jobs.erase job } } }

/-- The lane that holds a job. -/
def laneOf (s : State) (job : SivJob) : Option (Fin 12) := (List.finRange 12).find? (fun n => (s.svp.lanes[n]).jobs.contains job)

/-! ## What waits for a lane -/

/-- The response of a ticket whose fields are still to be protected. -/
def laneTicket (s : State) (e : Fin 4 × Nat) : Option (Ticket × NtsJob) :=
  match (s.port e.1).ticket e.2 with
  | none => none
  | some t =>
    match t.nts, t.state with
    | some j, .staked => some (t, j)
    | some j, .late => some (t, j)
    | _, _ => none

/-- The first response of a pipeline that waits for a lane. While the entropy source is failed none is encrypted: its nonce could not be drawn (R169). -/
def wantsEncrypt (s : State) (r : Nat) : Option ((Fin 4 × Nat) × Ticket × NtsJob) :=
  if rngFailed s then none
  else s.svp.encrypts.findSome? (fun e => if e.1.val = r then (laneTicket s e).map (fun x => (e, x)) else none)

/-- The first request of a pipeline that waits for a lane. -/
def wantsVerify (s : State) (r : Nat) : Option NtsRequest := s.svp.verify.find? (fun v => decide (v.pl.val = r))

/-- The cost of an encryption in KCLK (R167). -/
def encryptCost (cookies : Nat) : Nat := if cookies = 0 then 24 else 36 + 12 * (cookies - 1)

/-- A lane takes the response of a ticket: its tag job is issued, and the cookies that it seals are counted (R167, R170, R407). -/
def grantEncrypt (n : Fin 12) (e : Fin 4 × Nat) (t : Ticket) (j : NtsJob) (s : State) : State :=
  let s := { s with svp := { s.svp with encrypts := s.svp.encrypts.erase e } }
  let s := laneIssue n (some (.encrypt e.1 e.2)) (encryptCost j.cookies) (traceStage t.tag 7 s)
  if j.plain = none ∧ s.crl.root.isSome = true then crlCount 8 j.cookies s else s

/-- A lane takes a request for checks 4 to 8. -/
def grantVerify (n : Fin 12) (v : NtsRequest) (s : State) : State :=
  laneIssue n (some (.verify v)) 24 (traceStage v.item.tag 4 { s with svp := { s.svp with verify := s.svp.verify.erase v } })

/-- A grant to a pipeline: its responses before its requests. -/
def grantPipe (r : Nat) (s : State) : Option State :=
  match laneFor s r with
  | none => none
  | some n =>
    match wantsEncrypt s r with
    | some (e, t, j) => some (grantEncrypt n e t j s)
    | none => (wantsVerify s r).map (fun v => grantVerify n v s)

/-- A grant to the service processors: a lane seals the cookies of the oldest session that waits, and its answer leaves (R155, R167). -/
def grantSpu (s : State) : Option State :=
  match laneForSpu s, s.ke.sealing with
  | some n, id :: rest =>
    let t := { s with ke := { s.ke with sealing := rest } }
    match t.session id, t.crl.root with
    | some x, some r =>
      let u := laneIssue n none 96 t
      some (keFullReply x r { u with svp := { u.svp with keUntil := u.now + 192 } })
    | some x, none => some (keErrorReply x 2 t)
    | none, _ => some t
  | _, _ => none

/-- One round of the pool: the requester whose turn it is, or the next one that wants a lane and may have one (R22). -/
def laneRound (s : State) : Option State :=
  (List.range 6).findSome? (fun i =>
    let r := (s.svp.laneTurn + i) % 6
    (if r = 5 then grantSpu s else if r = 4 then none else grantPipe r s).map (fun t => { t with svp := { t.svp with laneTurn := (r + 1) % 6 } }))

/-- Grant lanes for as long as there is one to grant, at most `n` times. DESIGN CHOICE (assumption log 93): grants take no time and follow what makes them possible at once; a
lane serves requests of every pipeline, the lowest first. -/
def laneGrants : Nat → State → State
  | 0, s => s
  | n + 1, s =>
    match laneRound s with
    | some t => laneGrants n t
    | none => s

/-- With the entropy source failed, the requests that have reached step 4 are dropped (R169). -/
def dropVerify (s : State) : State :=
  s.svp.verify.foldl (fun s v => flowControl v.item.port (crlDrop 7 v.item.tag s)) { s with svp := { s.svp with verify := [] } }

/-- With the entropy source failed, the requests that wait for cookies are answered with Error 2 (R169). -/
def failSealing (s : State) : State :=
  s.ke.sealing.foldl (fun s id => match s.session id with | some x => keErrorReply x 2 s | none => s) { s with ke := { s.ke with sealing := [] } }

/-- What the lanes do by themselves: nothing during a freeze (R33). -/
def lanesRun (s : State) : State :=
  if halted s then s else laneGrants 18 (if rngFailed s then failSealing (dropVerify s) else s)

/-- Whether something waits for a lane. -/
def lanesWanted (s : State) : Bool := !(s.svp.verify.isEmpty) || !(s.svp.encrypts.isEmpty) || !(s.ke.sealing.isEmpty)

/-- NTSKE_REQUEST: after the client's Finished, the records up to End of Message, or up to the close or the limit that ends them. The
answer is followed by close_notify (R154-R156); one with cookies leaves once a lane has sealed them. -/
def execNtskeRequest (session : Nat) (input : KeInput) (s : State) : Host.Outcome State Fault Refusal :=
  .next (if halted s then s else lanesRun (requestInput session input.records input.closed s))

end Sys2Proof.Machine
end

