-- ==== Sys2Proof/Machine/Pipeline.lean ====
section
/-! DEFINITION. The service pipelines: classification, ACL, client table, rate limit, NTP and NTS responses, kiss-of-death (R76-R99, R107, R108, R162-R166). -/
namespace Sys2Proof.Machine

/-! ## Counters and parameters -/

/-- Add to counter k of a pipeline (R107). -/
def plCount (pl : Fin 5) (k : Nat) (s : State) : State := s.add64 (A.SVP_PL_CNT_W0 pl k) 1

/-- A drop counted under R107, which ends the trace of a tagged packet. -/
def plDrop (pl : Fin 5) (k : Nat) (g : Tag) (s : State) : State := traceEnd g 1 k (pmcEvent 3 0x05 pl 1 (plCount pl k s))

/-- SVP_COUNTER_CLEAR: all 32 counters of a pipeline (R108). -/
def svpCounterClear (pl : Nat) (s : State) : State := s.clear64s (A.SVP_PL_CNT_W0 pl 0) 32

/-- Keep the registers in force before a change of a data-plane parameter, for requests that arrived before it (R29). -/
def keepHistory (old : Map Word) (s : State) : State :=
  { s with svp := { s.svp with history := stillNeeded s s.svp.history ++ [(s.datum, old)] } }

/-! ## Classification (R75, R77-R80) -/

/-- The class of a frame. -/
inductive FrameKind where
  /-- An ARP request or neighbour solicitation for an address of the device: its MAC, and whether it is a client instance's (R75, R80). -/
  | arp (mac : Nat) (client : Bool)
  | nd (mac : Nat) (client : Bool)
  | ntp (sa : Nat)
  /-- A PTP message: the instances that it is addressed to (R75) and the service address that it matches (R78, R79). -/
  | ptp (instances : List Nat) (sa : Option Nat)
  | ntske (sa : Nat)
  | echo (sa : Nat)
  | host
deriving DecidableEq, Repr

/-- The client instance whose address an ARP request or a neighbour solicitation asks for (R75). -/
def pcTarget (s : State) (p vid : Nat) (v6 : Bool) (target : Nat) : Option Nat :=
  [0, 1].find? (fun n => pcRuns s n && decide (pcPort s n = p) && decide (pcVid s n = vid)
    && decide (pcTransport s n = (if v6 then 2 else 1)) && decide (pcAddr s n = target))

/-- Whether a frame is an ARP request for IPv4 over Ethernet. -/
def isArpRequest (e : Eth) (b : Bytes) : Bool := decide (e.etype = 0x0806) && decide (beAt b e.off 8 = 0x0001080006040001)

/-- Whether a packet is a valid neighbour solicitation. -/
def isSolicit (i : Ip) : Bool :=
  i.v6 && decide (i.proto = 58) && decide (beAt i.payload 0 2 = 0x8700) && decide (i.hop = 255) && decide (24 ≤ i.payload.length)
    && decide (inetChecksum i.payload (pseudoSum true i.src i.dst 58 i.payload.length) = 0)

/-- Whether a packet is a whole ICMP or ICMPv6 echo request. DESIGN CHOICE (assumption log 97): its ICMP checksum is not looked at, and the reply carries one of its own. -/
def isEcho (i : Ip) : Bool :=
  !i.fragment && decide (8 ≤ i.payload.length)
    && (if i.v6 then decide (i.proto = 58) && decide (beAt i.payload 0 2 = 0x8000) else decide (i.proto = 1) && decide (beAt i.payload 0 2 = 0x0800))

/-- Whether an IP packet carries its UDP or TCP header: not a later fragment. -/
def hasPorts (e : Eth) (b : Bytes) (i : Ip) : Bool := i.v6 || decide (beAt b (e.off + 6) 2 % 0x2000 = 0)

/-- A PTP message of a frame: the payload of Layer 2, or that of UDP by the UDP length (R100). -/
def ptpBytes (e : Eth) (i : Option Ip) (b : Bytes) : Bytes :=
  match i with
  | some x => x.udpBody
  | none => b.drop e.off

/-- The instances that a frame is addressed to (R75). -/
def pcMatch (s : State) (p : Nat) (e : Eth) (i : Option Ip) (b : Bytes) : List Nat :=
  [0, 1].filter (fun n => s.on (F.DTM_PC_CFG_EN n) && decide (pcPort s n = p) &&
    (match i with
     | some x => decide (pcTransport s n ≠ 0) && decide (e.tags < 2) && decide (e.dst = pcMac s n) && decide (e.vid = pcVid s n)
        && decide (x.v6 = decide (pcTransport s n = 2)) && decide (x.dst = pcAddr s n) && decide (x.upper = 17) && hasPorts e b x
        && (decide (x.dport = 319) || decide (x.dport = 320))
     | none => decide (e.etype = 0x88F7) && decide (pcTransport s n = 0) && decide (e.tags < 2) &&
        (if e.dst = ptpMac0 ∨ e.dst = ptpMac1 then decide ((parsePtp (b.drop e.off)).domain = s.get (F.DTM_PC_CFG_DOMAIN n))
         else decide (e.dst = pcMac s n) && decide (e.vid = pcVid s n))))

/-- Whether PTP messages of a service address are served: PTPEN on the main ports (R79). -/
def ptpServed (s : State) (p : Nat) : Bool := decide (4 ≤ p) || s.on F.SVP_CFG_PTPEN

/-- The row of R79 for an IP packet on a service address. -/
def saKind (s : State) (p n : Nat) (e : Eth) (i : Ip) (b : Bytes) : FrameKind :=
  let ports := hasPorts e b i
  if i.upper = 17 ∧ ports = true ∧ i.dport = 123 ∧ s.on (F.SVP_SA_CTL_NTP n) = true ∧ s.on F.SVP_CFG_NTPEN = true ∧ p < 4 then .ntp n
  else if i.upper = 17 ∧ ports = true ∧ (i.dport = 319 ∨ i.dport = 320) ∧ s.on (F.SVP_SA_CTL_PTP n) = true ∧ ptpServed s p = true then
    .ptp [] (some n)
  else if i.upper = 6 ∧ ports = true ∧ i.dport = 4460 ∧ s.on (F.SVP_SA_CTL_NTS n) = true then .ntske n
  else if isEcho i && s.on F.SVP_CFG_ICMPEN then .echo n
  else .host

/-- The class of a frame on a port. -/
def classify (s : State) (p : Nat) (b : Bytes) : FrameKind :=
  let e := parseEth b
  if isArpRequest e b then
    let t := beAt b (e.off + 24) 4
    if 2 ≤ e.tags then .host
    else match saTarget s p e.vid false t with
      | some n => .arp (saMac s n) false
      | none => match pcTarget s p e.vid false t with
        | some n => .arp (pcMac s n) true
        | none => .host
  else match parseIp e b with
    | some i =>
      let t := beAt i.payload 8 16
      let own := if isSolicit i && decide (e.tags < 2) then
          (match saTarget s p e.vid true t with
           | some n => some (saMac s n, false)
           | none => (pcTarget s p e.vid true t).map (fun n => (pcMac s n, true)))
        else none
      match own with
      | some o => .nd o.1 o.2
      | none =>
        let pcs := pcMatch s p e (some i) b
        if pcs ≠ [] then .ptp pcs none
        else match saMatch s p e i with
          | some n => saKind s p n e i b
          | none => .host
    | none =>
      if e.etype = 0x88F7 then
        let pcs := pcMatch s p e none b
        let sa := if ptpServed s p then saMatchL2 s p e else none
        if pcs = [] ∧ sa = none then .host else .ptp pcs sa
      else .host

/-! ## Frames for the host (R79) -/

/-- Pass a frame to the up-ring that its port's set and its flow key choose, or drop it when that ring is disabled. In SAFE the host has access by MGT, MSPI and PCIe alone
(R41): a frame of another port does not reach it (assumption log 96). -/
def hostForward (i : PlItem) (s : State) : State :=
  if s.mode = 4 ∧ i.port.val ≠ 6 then traceEnd i.tag 1 8 s
  else
  let r := s.get (F.SVP_HOSTMAP_BASE i.port) + crc32c (flowKey i.bytes) % 2 ^ s.get (F.SVP_HOSTMAP_SPREAD i.port)
  if s.on (F.HMI_R_CFG_EN r) then upEnqueue r ⟨i.bytes, false, i.port, i.inst, 0⟩ (plCount (pipeOf i.port) 7 s)
  else plDrop (pipeOf i.port) 8 i.tag s

/-! ## Address resolution and echo (R75, R79-R81) -/

/-- Answer an ARP request. -/
def arpAnswer (i : PlItem) (mac : Nat) (s : State) : State :=
  let e := parseEth i.bytes
  plCount (pipeOf i.port) 25
    (txDevice i.port (arpReply e.tag mac (beAt i.bytes (e.off + 24) 4) (beAt i.bytes (e.off + 8) 6) (beAt i.bytes (e.off + 14) 4)) s)

/-- Answer a neighbour solicitation; a duplicate-address probe also gives a record (R80). -/
def ndAnswer (i : PlItem) (mac : Nat) (s : State) : State :=
  let e := parseEth i.bytes
  let x := parseIp6 (i.bytes.drop e.off)
  let t := beAt x.payload 8 16
  let s := plCount (pipeOf i.port) 26 s
  if x.src = 0 then
    recordUnit 0x2001 (pipeOf i.port) 0 0 0 0 (txDevice i.port (neighbourAdv allNodesMac mac e.tag allNodes t 1) s)
  else txDevice i.port (neighbourAdv e.src mac e.tag x.src t 3) s

/-! ## Access control (R93) -/

/-- Whether ACL entry n matches an address. -/
def aclHit (s : State) (v6 : Bool) (a n : Nat) : Bool :=
  let sh := (if v6 then 128 else 32) - s.get (F.SVP_ACL_CTL_PLEN n)
  s.on (F.SVP_ACL_CTL_EN n) && decide (s.on (F.SVP_ACL_CTL_V6 n) = v6)
    && decide (a / 2 ^ sh = addrWords s (A.SVP_ACL_ADDR_W0 n) v6 / 2 ^ sh)

/-- The winning entry: the longest prefix, then the lowest number. -/
def aclWinner (s : State) (v6 : Bool) (a : Nat) : Option Nat :=
  (List.range 256).foldl (fun m n =>
    if aclHit s v6 a n then
      match m with
      | none => some n
      | some k => if s.get (F.SVP_ACL_CTL_PLEN k) < s.get (F.SVP_ACL_CTL_PLEN n) then some n else m
    else m) none

/-- ACTION and CLASS for an address; ACTION 3 acts as 1, and no entry admits with class 0. -/
def aclVerdict (s : State) (v6 : Bool) (a : Nat) : Nat × Nat :=
  match aclWinner s v6 a with
  | none => (0, 0)
  | some n =>
    let act := s.get (F.SVP_ACL_CTL_ACTION n)
    (if act = 3 then 1 else act, s.get (F.SVP_ACL_CTL_CLASS n))

/-! ## The client table (R94-R97, R306) -/

/-- The client key: family, and the address masked to the prefix length (R95). DESIGN CHOICE (assumption log 29): the family as one byte 4
or 6 before the address in network order. -/
def clientKey (s : State) (v6 : Bool) (a : Nat) : Bytes :=
  let sh := if v6 then 128 - s.get F.SVP_CT_CFG_V6PLEN else 32 - s.get F.SVP_CT_CFG_V4PLEN
  natBE 1 (if v6 then 6 else 4) ++ natBE (if v6 then 16 else 4) (a / 2 ^ sh * 2 ^ sh)

/-- The bucket of a key (R95). -/
def clientBucket (s : State) (key : Bytes) : Nat := sipHash s.svp.key1 key % 2 ^ 32 * 25165824 / 2 ^ 32

/-- The tag of a key (R95). -/
def clientTag (s : State) (key : Bytes) : Nat := sipHash s.svp.key2 key

/-- The places of a bucket, lowest way first. -/
def bucketWays (b : Nat) : List Nat := (List.range 8).map (8 * b + ·)

/-- The place of the entry with a tag (R96). -/
def clientFind (s : State) (b tag : Nat) : Option Nat :=
  (bucketWays b).find? (fun k => (s.svp.table.get k).any (fun c => decide (c.tag = tag)))

/-- LAST of the entry at a place. -/
def lastAt (s : State) (k : Nat) : Nat := ((s.svp.table.get k).map (·.last)).getD 0

/-- The way whose LAST is oldest by the signed difference modulo 2^32, the lowest on a tie (R96). -/
def oldestWay (s : State) (b : Nat) : Nat :=
  (bucketWays b).foldl (fun m k => if toSigned 32 (ofSigned 32 ((lastAt s k : Int) - lastAt s m)) < 0 then k else m) (8 * b)

/-- Put a position into the journal queue of the active unit of a pair (R306). -/
def journalPush (k : Nat) (s : State) : State :=
  if s.on F.DVL_CFG_EN && s.on F.DVL_STAT_ACTIVE then
    if 1048576 ≤ s.dvl.journal.length then s.addSat F.DVL_JRNL_DROP_CNT_COUNT 1
    else { s with dvl := { s.dvl with journal := s.dvl.journal ++ [k] } }
  else s

/-- Store an entry. -/
def putClient (k : Nat) (c : Client) (s : State) : State := markDirty k { s with svp := { s.svp with table := s.svp.table.put k c } }

/-- The instant in ms modulo 2^32 (R94, R99). -/
def msOf (t : Instant) : Nat := t / (1000000 * 65536) % 2 ^ 32

/-- The entry of a key, created on a miss (R96): its place, the entry, whether it was found. -/
def clientGet (a : State) (pl : Fin 5) (v6 : Bool) (key : Bytes) (cls : Nat) (ta : Instant) (s : State) : Nat × Client × Bool × State :=
  let b := clientBucket s key
  let tag := clientTag s key
  let fresh : Client := ⟨tag, msOf ta, a.get (F.SVP_RLC_BURST cls) * 32, v6, false, false, 0, cls, 0, 0⟩
  match clientFind s b tag with
  | some k => (k, (s.svp.table.get k).getD fresh, true, s)
  | none =>
    match (bucketWays b).find? (fun k => (s.svp.table.get k).isNone) with
    | some k => (k, fresh, false, journalPush k (putClient k fresh s))
    | none =>
      let k := oldestWay s b
      (k, fresh, false, journalPush k (putClient k fresh (plCount pl 29 s)))

/-- The token bucket of R99: the entry after the procedure, and whether the request is in excess. -/
def rateClient (rate burst : Nat) (ta : Instant) (c : Client) : Client × Bool :=
  let now := msOf ta
  let d := (now + 2 ^ 32 - c.last) % 2 ^ 32
  let clear := c.kodv && (decide (1000 ≤ d) || decide (c.kodsec ≠ instSec ta % 256))
  let full := burst * 32
  let t := if 2 ^ 31 ≤ d ∨ 1000000 ≤ d then full else min (c.tokens + d * rate * 32 / 1000) full
  let c := { c with kodv := c.kodv && !clear, last := now }
  if 32 ≤ t then ({ c with tokens := t - 32 }, false) else ({ c with tokens := t }, true)

/-- What step 3 finds for an admitted request: place and tag of the entry, found, in excess. -/
structure Rated where
  key : Nat × Nat
  found : Bool
  excess : Bool

/-- Client lookup and rate limit (R96, R97, R99). -/
def clientStep (a : State) (pl : Fin 5) (v6 : Bool) (src cls : Nat) (i : PlItem) (s : State) : Rated × State :=
  let g := clientGet a pl v6 (clientKey a v6 src) cls i.inst s
  let r := rateClient (a.get (F.SVP_RLC_RATE cls)) (a.get (F.SVP_RLC_BURST cls)) i.inst g.2.1
  let s := putClient g.1 r.1 g.2.2.2
  let s := if r.2 then journalPush g.1 s else s
  (⟨(g.1, r.1.tag), g.2.2.1, r.2⟩, traceStage i.tag 3 s)

/-! ## Responses -/

/-- An NTP request on a service address of a main port. -/
structure NtpAsk where
  item : PlItem
  port : Fin 4
  eth : Eth
  ip : Ip
  sa : Nat

/-- The NTP bytes of a request. -/
def NtpAsk.msg (r : NtpAsk) : Bytes := r.ip.udp

/-- The pipeline of a request. -/
def NtpAsk.pl (r : NtpAsk) : Fin 5 := ⟨r.port.val, by omega⟩

/-- VN of a request. -/
def NtpAsk.vn (r : NtpAsk) : Nat := beAt r.msg 0 1 / 8 % 8

/-- The addressing of the response (R85): to the request's source, from the service address, with the request's VLAN tag. -/
def NtpAsk.env (a : State) (r : NtpAsk) : Envelope :=
  { dstMac := r.eth.src, srcMac := saMac a r.sa, tag := r.eth.tag, l2 := false, v6 := r.ip.v6, srcIp := r.ip.dst, dstIp := r.ip.src,
    srcPort := 123, dstPort := r.ip.sport, hop := a.get F.SVP_CFG_HOPLIM }

/-- Put a response that a lane still has to finish into its ticket, where it waits for a lane (R164, R167). -/
def putJob (p : Fin 4) (id : Nat) (payload : Bytes) (client : Option (Nat × Nat)) (job : NtsJob) (s : State) : State :=
  match (s.port p).ticket id with
  | none => s
  | some t => askLane p id (s.setPort p ((s.port p).putTicket { t with payload := payload, client := client, nts := some job }))

/-- Place a response in its ticket: at the gate at once, or through a lane when its fields are still to be protected. -/
def placeResponse (p : Fin 4) (id : Nat) (payload : Bytes) (client : Option (Nat × Nat)) (job : Option NtsJob) (s : State) : State :=
  match job with
  | none => loadResponse p id payload client s
  | some j => putJob p id payload client j s

/-- Bytes that a lane adds to a response: the Authenticator field with its nonce and ciphertext (R164). -/
def jobBytes (job : Option NtsJob) : Nat :=
  match job with
  | none => 0
  | some j => 40 + 108 * j.cookies

/-- The Kiss codes of R91: 1 RATE, 2 DENY, 3 RSTR, 4 NTSN. -/
def kissCode (k : Nat) : Nat :=
  if k = 1 then 0x52415445 else if k = 2 then 0x44454E59 else if k = 3 then 0x52535452 else 0x4E54534E

/-- The header of a kiss-of-death (R91). -/
def kissHeader (a : State) (r : NtpAsk) (k : Nat) : Bytes :=
  let poll := toSigned 8 (beAt r.msg 2 1)
  let min : Int := a.get F.SVP_KOD_CFG_MINPOLL
  ntpHeader 3 r.vn 0 (ofSigned 8 (if k = 1 ∧ poll < min then min else poll)) 0 0 (kissCode k) 0 (beAt r.msg 40 8) 0 0

/-- Whether a RATE has gone to a client in the Datum second of an instant (R99). -/
def rateSent (s : State) (client : Option (Nat × Nat)) (t : Instant) : Bool :=
  (client.bind (clientAt s)).any (fun c => c.kodv && decide (c.kodsec = instSec t % 256))

/-- Send a kiss-of-death within the budget (R91, R92), with a Unique Identifier field and a lane job for an NTS-protected request. A RATE sets
KODV of its client once it is sent; of two requests that came to this point in one Datum second, only the first has one (R91). -/
def kissSend (a : State) (r : NtpAsk) (k : Nat) (client : Option (Nat × Nat)) (uid : Bytes) (job : Option NtsJob) (s : State) : State :=
  if k = 1 ∧ rateSent s client r.item.inst = true then plDrop r.pl 17 r.item.tag s
  else if a.get F.SVP_KOD_CFG_BUDGET ≤ s.svp.kodUsed[r.pl] then plDrop r.pl 18 r.item.tag s
  else
    let ask : StakeAsk := ⟨.kod, stakeLatency a r.port .kod, r.item.inst, r.env a, 48 + uid.length + jobBytes job, r.item.tag⟩
    match assignTicket r.port ask s with
    | (none, s) => s
    | (some t, s) =>
      let s := { s with svp := { s.svp with kodUsed := s.svp.kodUsed.set r.pl (s.svp.kodUsed[r.pl] + 1) } }
      let s := plCount r.pl (k + 2) s
      let s := match client with
        | some c => if k = 1 then journalPush c.1 (clientMod c (fun x => { x with kodv := true, kodsec := instSec r.item.inst % 256 }) s) else s
        | none => s
      placeResponse r.port t.1 (kissHeader a r k ++ uid) none job s

/-- The service values in force at an instant (R88). -/
def valuesAt (s : State) (t : Instant) : ServiceValues := (stoodAt s.svp.valuesLog t).getD s.svp.values

/-- The Reference Timestamp (R85): the last accepted input update of the active domain; free before there is one. -/
def referenceTime (s : State) : Nat :=
  let t := (s.dtm.dom s.active).lastInput
  if t = 0 then Config.referenceBeforeInput % 2 ^ 64 else ntpTime s t

/-- Whether a request is answered in interleaved mode (R89). -/
def interleaves (a : State) (r : NtpAsk) (found : Bool) (c : Client) : Bool :=
  a.on F.SVP_CFG_IXEN && decide (r.vn = 4) && found && decide (beAt r.msg 24 8 ≠ 0) && decide (beAt r.msg 24 8 = c.prevRx)
    && decide (beAt r.msg 32 8 ≠ 0)

/-- The header of a response (R85) with its Transmit Timestamp. -/
def responseHeader (s : State) (r : NtpAsk) (ix : Bool) (xmit : Nat) : Bytes :=
  let v := valuesAt s r.item.inst
  ntpHeader (if v.li3 then 3 else leapLI s r.item.inst) r.vn v.stratum (beAt r.msg 2 1) v.rootDelay v.rootDisp v.refId (referenceTime s)
    (if ix then beAt r.msg 32 8 else beAt r.msg 40 8) (ntpTime s r.item.inst) xmit

/-- Build and stake the response to a request that is answered (R85, R89, R90): the client entry keeps its Receive Timestamp and its staked
departure, and the journal takes the entry in the cases of R306. An entry that another client has taken meanwhile keeps nothing of it. -/
def ntpRespond (a : State) (r : NtpAsk) (key : Nat × Nat) (found : Bool) (uid : Bytes) (job : Option NtsJob) (s : State) : State :=
  let e := clientAt s key
  let c := e.getD ⟨0, 0, 0, false, false, false, 0, 0, 0, 0⟩
  let ix := interleaves a r (found && e.isSome) c
  let kind : RespKind := if job.isSome then .nts else if ix then .ntpInterleaved else .ntpBasic
  let ask : StakeAsk := ⟨kind, stakeLatency a r.port kind, r.item.inst, r.env a, 48 + uid.length + jobBytes job, r.item.tag⟩
  match assignTicket r.port ask s with
  | (none, s) => s
  | (some t, s) =>
    let xmit := if ix then c.prevTx else ntpTime s t.2
    let body := responseHeader s r ix xmit ++ uid
    let s := clientMod key (fun c => { c with ix := ix, prevRx := ntpTime s r.item.inst, prevTx := ntpTime s t.2 }) s
    let s := if e.isSome && (ix || c.ix) then journalPush key.1 s else s
    let s := plCount r.pl (if job.isSome then 1 else 0) s
    let s := if ix then plCount r.pl 27 (traceMod r.item.tag (fun x => { x with interleaved := true }) s) else s
    let s := pmcEvent 3 (if job.isSome then 0x04 else 0x03) r.pl 1 s
    placeResponse r.port t.1 body (some key) job s

/-! ## NTP requests (R82-R84, R91-R93, R162, R163) -/

/-- What the extension fields of a request hold, or the counter of R107 that its failure is counted in. -/
def requestFields (r : NtpAsk) : List ExtField × Option Nat :=
  if r.vn = 4 then
    match parseExt 32 (r.msg.drop 48) [] with
    | .fields l => (l, none)
    | .badExt => ([], some 14)
    | .badMac => ([], some 15)
  else ([], none)

/-- Checks 1 to 7 of R82: the counter of the first that fails. -/
def requestCheck (r : NtpAsk) : Option Nat :=
  if r.ip.sound = false then some 9
  else if badSource r.ip.v6 r.ip.src then some 9
  else if udpSound r.ip = false then some 10
  else if r.msg.length < 48 then some 11
  else if r.vn = 0 ∨ 4 < r.vn then some 12
  else if beAt r.msg 0 1 % 8 ≠ 3 then some 13
  else (requestFields r).2

/-- The extension fields of a type. -/
def fieldsOf (kind : Nat) (l : List ExtField) : List ExtField := l.filter (fun f => decide (f.kind = kind))

/-- The length of a nonce or ciphertext in the Authenticator field with its padding to a word. -/
def wordPad (n : Nat) : Nat := (n + 3) / 4 * 4

/-- Check 2 of R162. -/
def ntsWellFormed (l : List ExtField) : Bool :=
  let u := fieldsOf 0x0104 l
  let a := fieldsOf 0x0404 l
  let v := ((a.head?).map (·.value)).getD []
  let n := beAt v 0 2
  let c := beAt v 2 2
  decide (u.length = 1) && u.all (fun f => decide (32 ≤ f.value.length)) && decide ((fieldsOf 0x0204 l).length = 1)
    && decide (a.length = 1) && decide (l.getLast?.map (·.kind) = some 0x0404)
    && decide (16 ≤ n) && decide (n ≤ 64) && decide (16 ≤ c) && decide (4 + wordPad n + wordPad c ≤ v.length)

/-- The bucket of an admitted request. -/
def askBucket (a s : State) (r : NtpAsk) : Nat := clientBucket s (clientKey a r.ip.v6 r.ip.src)

/-- After the client lookup of an admitted request (R91, R163): answer, kiss-of-death, drop, or on to a lane. -/
def admitted (a : State) (r : NtpAsk) (cls : Nat) (nts : Bool) (s : State) : State :=
  let x := clientStep a r.pl r.ip.v6 r.ip.src cls r.item s
  let s := x.2
  let rate := a.on (F.SVP_RLC_ACTION cls) && !(rateSent s (some x.1.key) r.item.inst)
  if x.1.excess && !rate then plDrop r.pl 17 r.item.tag s
  else if nts then
    { s with svp := { s.svp with verify := s.svp.verify ++ [⟨r.port, r.item, r.sa, some x.1.key, x.1.found, if x.1.excess then 1 else 0⟩] } }
  else if x.1.excess then kissSend a r 1 (some x.1.key) [] none s
  else ntpRespond a r x.1.key x.1.found [] none s

/-- The client cache (R97): a bucket that it does not hold is read from DRAM, and a request for a bucket in flight waits for that read. DESIGN CHOICE (assumption log 94): such
a request, which starts no read, counts neither as a hit nor as a miss. -/
def cacheStep (a : State) (r : NtpAsk) (cls : Nat) (nts : Bool) (s : State) : State :=
  let b := askBucket a s r
  if s.svp.fills.any (fun f => decide (f.bucket = b)) then
    { s with svp := { s.svp with fills := s.svp.fills.map (fun (f : Fill) =>
      if f.bucket = b then { f with waiting := f.waiting ++ [r.item] } else f) } }
  else if s.svp.cached.contains b then admitted a r cls nts (pmcEvent 3 0x06 r.pl 1 s)
  else
    let s := traceMod r.item.tag (fun x => { x with cacheMiss := true }) (pmcEvent 3 0x07 r.pl 1 (plCount r.pl 28 s))
    { s with svp := { s.svp with fills := s.svp.fills ++ [⟨b, [r.item]⟩] } }

/-- The ACL, then the client (R93, R163). -/
def aclStep (a : State) (r : NtpAsk) (nts : Bool) (s : State) : State :=
  let v := aclVerdict a r.ip.v6 r.ip.src
  if v.1 = 1 then plDrop r.pl 16 r.item.tag s
  else if v.1 = 2 then
    if nts then { s with svp := { s.svp with verify := s.svp.verify ++ [⟨r.port, r.item, r.sa, none, false, 2⟩] } }
    else kissSend a r 2 none [] none s
  else cacheStep a r v.2 nts s

/-- Validation of R82 and the split of R84. -/
def ntpValidate (a : State) (r : NtpAsk) (s : State) : State :=
  match requestCheck r with
  | some k => plDrop r.pl k r.item.tag s
  | none =>
    let l := (requestFields r).1
    let nts := decide (fieldsOf 0x0204 l ≠ [])
    let s := traceStage r.item.tag 2 s
    if a.on (F.SVP_SA_CTL_NTSREQ r.sa) && !nts then
      if a.on F.SVP_KOD_CFG_RSTRKOD then kissSend a r 3 none [] none s else plDrop r.pl 30 r.item.tag s
    else if nts then
      if a.on (F.SVP_SA_CTL_NTS r.sa) = false then crlDrop 1 r.item.tag s
      else if ntsWellFormed l = false then crlDrop 2 r.item.tag s
      else aclStep a r true s
    else aclStep a r false s

/-- Whether a Delay_Req is one to answer: in SERVE alone (R42, R81). -/
def servesDelay (s : State) (t : Instant) : Bool := decide (s.mode = 2) && !(after s.svp.serveEdge t)

/-- A time request in a mode that answers none (R107, counter 31): SURVEY, SHADOW and MAINT, and what arrived in them before SERVE. -/
def notServing (i : PlItem) (s : State) : State :=
  if s.mode = 1 ∨ s.mode = 2 ∨ s.mode = 3 ∨ s.mode = 5 then plDrop (pipeOf i.port) 31 i.tag s else traceEnd i.tag 1 31 s

/-- The request in a frame that is classified as NTP. -/
def askOf (i : PlItem) (p : Fin 4) (sa : Nat) : NtpAsk :=
  let e := parseEth i.bytes
  ⟨i, p, e, (parseIp e i.bytes).getD ⟨false, 0, 0, 0, 0, [], 0, [], false, false⟩, sa⟩

/-- A VN 4 request with a cookie is offered to the tag LFSR as NTS, any other as plain NTP (R406). -/
def askClass (r : NtpAsk) : Nat := if fieldsOf 0x0204 (requestFields r).1 = [] then 0 else 1

/-- Steps 3 to 6 of R24 for an NTP request. -/
def ntpRequest (i : PlItem) (p : Fin 4) (sa : Nat) (s : State) : State :=
  let g := offerTag p (askClass (askOf i p sa)) i.inst s
  let i := { i with tag := g.1 }
  let s := traceAt i.tag 1 i.inst g.2
  if serves s i.inst then ntpValidate (s.asOf i.inst) (askOf i p sa) s else notServing i s

/-- Whether a port assigns no tickets for the moment, so that requests wait before step 5 (R124, R137). -/
def waitsForGrid (s : State) (p : Fin 7) : Bool := if h : p.val < 4 then (s.port ⟨p.val, h⟩).suspended else false

/-- The buckets that the client cache holds at most: 1,572,864 entries, eight in a bucket (R38, R97). -/
def cacheBuckets : Nat := 196608

/-- A bucket has come into the cache. A full cache gives up one, which no rule names, and writes its entries back (assumption log 94). -/
def cacheFill (b : Nat) (s : State) : State :=
  if s.svp.cached.length < cacheBuckets then { s with svp := { s.svp with cached := s.svp.cached ++ [b] } }
  else
    let r := s.draw 32
    let v := s.svp.cached.getD (r.1 % s.svp.cached.length) 0
    let s := if s.svp.dirty.any (fun k => decide (k / 8 = v)) then dramEvent 0x08 r.2 else r.2
    { s with svp := { s.svp with
      cached := s.svp.cached.filter (fun x => decide (x ≠ v)) ++ [b], dirty := s.svp.dirty.filter (fun k => decide (k / 8 ≠ v)) } }

/-- A request resumes after the read of its bucket, in a mode that still answers it (R42, R97). -/
def fillResume (s : State) (i : PlItem) : State :=
  flowControl i.port (match classify (s.asOf i.inst) i.port i.bytes with
    | .ntp sa =>
      if h : i.port.val < 4 then
        let r := askOf i ⟨i.port.val, h⟩ sa
        let a := s.asOf i.inst
        if serves s i.inst then admitted a r (aclVerdict a r.ip.v6 r.ip.src).2 (decide (askClass r = 1)) s else notServing i s
      else s
    | _ => s)

/-- CLIENT_BUCKET_FILL: the DRAM read of a bucket completes and the requests that wait for it resume in order (R97). A freeze holds them (R33). -/
def execClientBucketFill (bucket : Nat) (s : State) : Host.Outcome State Fault Refusal :=
  .next (match s.svp.fills.find? (fun f => decide (f.bucket = bucket)) with
    | none => s
    | some f =>
      if f.waiting.any (fun i => waitsForGrid s i.port) ∨ halted s = true then s
      else
        lanesRun (f.waiting.foldl fillResume
          (cacheFill bucket { dramEvent 0x07 s with svp := { s.svp with fills := s.svp.fills.filter (fun x => decide (x.bucket ≠ bucket)) } })))

/-! ## NTS-protected requests on a lane (R162-R166) -/

/-- A job that ends in a failure of checks 4 to 8. -/
def laneFail (n : Fin 12) (s : State) : State := pmcEvent 5 0x04 n 1 s

/-- What checks 4 to 8 find. -/
inductive NtsVerdict where
  /-- Check 4, 5 or 6 fails: NTSN, and the counter. -/
  | ntsn (k : Nat)
  /-- Check 7 or 8 fails: dropped, and the counter. -/
  | drop (k : Nat)
  /-- Verified: C2S, S2C and the placeholders counted. -/
  | pass (c2s s2c : Bytes) (q : Nat)
deriving DecidableEq, Repr

/-- The placeholders of R165 among extension fields. -/
def placeholders (l : List ExtField) : Nat := ((fieldsOf 0x0304 l).filter (fun f => decide (f.value.length = 104))).length

/-- Whether a decrypted plaintext parses as extension fields under R83: every byte belongs to a field. -/
def parseInner : Nat → Bytes → List ExtField → Option (List ExtField)
  | n, b, acc =>
    if b.length = 0 then some acc.reverse
    else match n with
      | 0 => none
      | n + 1 =>
        let len := beAt b 2 2
        if len % 4 = 0 ∧ 16 ≤ len ∧ len ≤ b.length then parseInner n (b.drop len) (⟨beAt b 0 2, b.take len⟩ :: acc) else none

/-- Checks 4 to 8 of R162. -/
def ntsVerify (s : State) (msg : Bytes) (t : Instant) (l : List ExtField) : NtsVerdict :=
  let ck := (((fieldsOf 0x0204 l).head?).map (·.value)).getD []
  let af := ((fieldsOf 0x0404 l).head?).getD ⟨0, []⟩
  let av := af.value
  let id := beAt ck 0 4
  let e := epochOf s t
  let age := (e + 2 ^ 32 - id) % 2 ^ 32
  if ck.length ≠ 104 then .ntsn 3
  else if 2 < age then .ntsn 4
  else match s.crl.root with
    | none => .ntsn 5
    | some root =>
      match sivOpen (epochKey root id) [ck.take 4, slice ck 4 16] (ck.drop 20) with
        | none => .ntsn 5
        | some p =>
          if p.take 4 ≠ natBE 4 0x000F0000 then .ntsn 5
          else
            let c2s := slice p 4 32
            let n := beAt av 0 2
            let c := beAt av 2 2
            match sivOpen c2s [msg.take (msg.length - af.bytes.length), slice av 4 n] (slice av (4 + wordPad n) c) with
            | none => .drop 6
            | some q =>
              match parseInner q.length q [] with
              | none => .drop 2
              | some inner =>
                if fieldsOf 0x0204 inner ≠ [] then .drop 2
                else .pass c2s (slice p 36 32) (placeholders l + placeholders inner)

/-- A request ends its checks on a lane (R162-R165): dropped, answered with NTSN, or staked with its response or its kiss-of-death. -/
def cookieVerify (n : Fin 12) (v : NtsRequest) (s : State) : State :=
  let r := askOf v.item v.pl v.sa
  let a := s.asOf v.item.inst
  let l := (requestFields r).1
  let uid := ((fieldsOf 0x0104 l).head?.map (·.bytes)).getD []
  let s := pmcEvent 5 0x05 n r.msg.length s
  match ntsVerify a r.msg v.item.inst l with
  | .ntsn k => kissSend a r 4 none uid none (crlCount k 1 (laneFail n s))
  | .drop k => crlDrop k v.item.tag (laneFail n s)
  | .pass c2s s2c q =>
    let s := traceStage v.item.tag 5 (crlCount 0 1 s)
    let job := fun n => some (NtsJob.mk s2c c2s n (48 + uid.length) none)
    if v.kod ≠ 0 then kissSend a r v.kod v.client uid (job 0) s
    else ntpRespond a r (v.client.getD (0, 0)) v.found uid (job (1 + (if 7 < q then 7 else q))) s

/-- The oldest request that a lane verifies. -/
def laneRequest (s : State) (n : Fin 12) : Option NtsRequest := (s.svp.lanes[n]).requests.head?

/-- NTS_COOKIE_VERIFY: a lane ends checks 4 to 8 of its oldest request (R162-R165), in a mode that still answers it (R42). The request waits while its port
assigns no tickets (R124, R137), and a freeze holds it (R33). -/
def execNtsCookieVerify (lane : Fin 12) (s : State) : Host.Outcome State Fault Refusal :=
  .next (match laneRequest s lane with
    | none => s
    | some v =>
      if waitsForGrid s v.item.port ∨ halted s = true then s
      else
        let s := laneDone lane (.verify v) s
        lanesRun (flowControl v.item.port (if serves s v.item.inst then cookieVerify lane v s else notServing v.item s)))

/-- The new cookies of a response as extension fields (R164). -/
def cookieFields (l : List Bytes) : Bytes := l.flatMap (fun c => natBE 2 0x0204 ++ natBE 2 108 ++ c)

/-- Seal a response: its nonce and ciphertext in the Authenticator field (R164). -/
def sealResponse (j : NtsJob) (head plain nonce : Bytes) : Bytes :=
  let c := sivSeal j.s2c [head, nonce] plain
  head ++ natBE 2 0x0404 ++ natBE 2 (8 + nonce.length + c.length) ++ natBE 2 nonce.length ++ natBE 2 c.length ++ nonce ++ c

/-- A lane completes the response of a ticket: the new cookies where none are sealed yet, and the tag, over a nonce of its own (R164, R166). The response reaches the gate.
Without a root key no cookie can be sealed, and the response is abandoned. -/
def responseEncrypt (port : Fin 4) (t : Ticket) (j : NtsJob) (s : State) : State :=
  let made := match j.plain, s.crl.root with
    | some p, _ => some (p, s)
    | none, some r =>
      let q := sealCookies r (epochOf s t.base) j.c2s j.s2c j.cookies s
      some (cookieFields q.1, q.2)
    | none, none => if j.cookies = 0 then some ([], s) else none
  match made with
  | none => abandonTicket port t.id s
  | some (plain, s) =>
    let n := s.drawBytes 16
    let u := { t with nts := some { j with plain := some plain }, payload := sealResponse j (t.payload.take j.clear) plain n.1 }
    gateLoad port t.id (n.2.setPort port ((n.2.port port).putTicket u))

/-- NTS_RESPONSE_ENCRYPT: the lane that holds the job of a response completes it (R164, R166, R167). A job whose ticket has gone ends with nothing. A freeze holds it
(R33), and so does a failed entropy source, without which it has no nonce (R169). -/
def execNtsResponseEncrypt (port : Fin 4) (ticket : Nat) (s : State) : Host.Outcome State Fault Refusal :=
  .next (match laneOf s (.encrypt port ticket) with
    | none => s
    | some n =>
      if halted s then s
      else
        match laneTicket s (port, ticket) with
        | none => lanesRun (laneDone n (.encrypt port ticket) s)
        | some (t, j) =>
          if rngFailed s then s
          else lanesRun (responseEncrypt port t j (pmcEvent 5 0x05 n t.payload.length (laneDone n (.encrypt port ticket) s))))

end Sys2Proof.Machine
end

