-- ==== Sys2Proof/Machine/Ptp.lean ====
section
/-! DEFINITION. PTP: the server of the pipelines and of the service processors, grants and issue instants (R100-R106, R126), the client instances
(R73-R75), the service values (R86, R87), announcements (R81), and PIPELINE_REQUEST. -/
namespace Sys2Proof.Machine

/-! ## Domain inputs (R65) -/

/-- BW of a domain. -/
def domBw (s : State) (i : Nat) : Nat := if i = 0 then s.get F.DTM_FS_CFG_BW else s.get F.DTM_BS_CFG_BW

/-- A step of the second-order loop (R65): an offset in units of 2^-16 ns and the time since the last sample move the integrator, and the rate is the integrator with the
proportional part, in units of 2^-48. The gains are the configuration's (assumption log 98). -/
def servoStep (bw : Nat) (freq est dt : Int) : Int × Int :=
  let f := clampInt (-rateLimit) rateLimit (freq + Config.servoIntegral bw * est * dt / (2 ^ 24 * 10 ^ 18))
  (f, clampInt (-rateLimit) rateLimit (f + Config.servoGain bw * est * 2 ^ 12 / 10 ^ 9))

/-- A domain's servo takes an offset estimate (R65), within the limit of R48. The rate of the active domain, while it steers the Datum, is announced (R115). In HOLDOVER the
last input of the active domain stays that of before (R85). -/
def domainInput (i : Nat) (est : Int) (s : State) : State :=
  let x := s.dtm.dom i
  let q := servoStep (domBw s i) x.freq est (if x.fed then instDiff s.datum x.sampled else 0)
  let within := decide (est.natAbs ≤ s.get F.DTM_CFG_LOCKTH * 655360)
  let held := decide (s.active = i) && (decide (s.dtm.under = 4) || decide (s.dtm.under = 5))
  let s := pmcEvent 8 0x06 0x80 1 { s with dtm := s.dtm.setDom i { x with
    est := est, rate := q.2, freq := q.1, lastInput := if held then x.lastInput else s.datum, sampled := s.datum, fed := true
    withinTicks := if within then x.withinTicks else 0 } }
  if s.active = i ∧ 1 ≤ s.dtm.under ∧ s.dtm.under ≤ 3 then announceRate q.2 s.dtm.lastRate.2 s else s

/-- The exchange with the smallest path delay, the first among equals (R65). -/
def minDelay : List (Int × Int) → Int × Int
  | [] => (0, 0)
  | x :: xs => xs.foldl (fun m y => if y.1 < m.1 then y else m) x

/-- MINWIN of a domain. -/
def domMinwin (s : State) (i : Nat) : Nat := if i = 0 then s.get F.DTM_FS_CFG_MINWIN else s.get F.DTM_BS_CFG_MINWIN

/-- An exchange of a PTP client reaches a domain that it feeds: each window of MINWIN + 1 exchanges gives one input (R65). DESIGN CHOICE (assumption log 100): a window begins
where the one before it ended. -/
def exchangeInput (src : Nat) (x : Int × Int) (s : State) (i : Nat) : State :=
  if s.domSrc i = src then
    let d := s.dtm.dom i
    let w := d.window ++ [x]
    if domMinwin s i < w.length then
      domainInput i (minDelay w).2 { s with dtm := s.dtm.setDom i { d with window := [] } }
    else { s with dtm := s.dtm.setDom i { d with window := w } }
  else s

/-! ## PTP client instances (R73-R75) -/

/-- Client instance n. -/
def State.pc (s : State) (n : Fin 2) : PtpClient := if n.val = 0 then s.dtm.pc0 else s.dtm.pc1

/-- Replace client instance n. -/
def State.setPc (s : State) (n : Fin 2) (c : PtpClient) : State :=
  if n.val = 0 then { s with dtm := { s.dtm with pc0 := c } } else { s with dtm := { s.dtm with pc1 := c } }

/-- sourcePortIdentity of an instance: its clockIdentity is formed from its MAC (R75), port number 1. -/
def pcIdentity (s : State) (n : Nat) : Nat := portIdentity (pcMac s n) 1

/-- The listed masters of an instance. -/
def pcMasters (s : State) (n : Nat) : List MasterEntry := s.dtm.masters.filter (fun m => decide (m.inst = n))

/-- The place of a master in the list of an instance. -/
def masterIndex (s : State) (n : Nat) (m : PcMsg) : Option Nat :=
  (pcMasters s n).findIdx? (fun e => decide (e.addr = (if e.family = 0 then m.mac else m.addr)))

/-- The priority of a place in the list; beyond the list the least preferred. -/
def masterPrio (s : State) (n : Nat) (i : Option Nat) : Nat :=
  match i with
  | some k => ((pcMasters s n)[k]?.map (·.prio)).getD 256
  | none => 256

/-- Set the port state of an instance. -/
def pcState (n : Fin 2) (v : Nat) (s : State) : State := s.set (F.DTM_PC_STAT_STATE n) v

/-- An Announce: an instance without a master, or with a less preferred one, selects its sender (assumption log 30). The values of the selected
master are kept, and its TAI-UTC and leap flags are reported (R59, R61). -/
def pcAnnounce (n : Fin 2) (m : PcMsg) (h : Ptp) (s : State) : State :=
  let c := s.pc n
  let idx := masterIndex s n m
  let listed := (pcMasters s n = []) ∨ idx.isSome = true
  let better := c.master = 0 ∨ masterPrio s n idx < masterPrio s n (some (s.get (F.DTM_PC_STAT_MASTER n)))
  if ¬ listed then s
  else if c.master ≠ h.port ∧ ¬ better then s
  else
    let a : Announced := ⟨beAt h.body 14 1, beAt h.body 15 1, beAt h.body 16 2, beAt h.body 29 1, beAt h.body 27 2, m.addr, m.mac⟩
    let s := if c.master = h.port then s.setPc n { c with announce := some a }
      else pcState n 4 ((s.setPc n { c with master := h.port, announce := some a, syncs := [], lastSync := none }).set
        (F.DTM_PC_STAT_MASTER n) (idx.getD 0))
    let k := n.val + 1
    let leap := if h.flags % 2 = 1 then 1 else if h.flags / 2 % 2 = 1 then 2 else 0
    leapEvaluate (utcResolve (s.setUtcSource k ((s.utcSource k).report (decide (h.flags / 4 % 2 = 1)) (toSigned 16 (beAt h.body 10 2)) leap none)))

/-- The instant that a PTP timestamp and a correctionField give, in units of 2^-16 ns (R58). -/
def ptpInstant (b : Bytes) (o : Nat) (corr : Int) : Instant := instAdd ((beAt b o 6 * 1000000000 + beAt b (o + 6) 4) * 2 ^ 16) corr

/-- A Sync of the selected master: the latest of its port; a one-step Sync gives its time (R74). -/
def pcSync (n : Fin 2) (m : PcMsg) (h : Ptp) (s : State) : State :=
  let c := s.pc n
  if c.master ≠ h.port then s
  else
    let two := decide (h.flags / 512 % 2 = 1)
    let syncs := c.syncs.filter (fun x => decide (x.port ≠ h.port)) ++ [⟨h.port, h.seq, m.inst, h.corr, two⟩]
    s.setPc n { c with
      syncs := syncs
      quietTicks := if two then c.quietTicks else 0
      lastSync := if two then c.lastSync else some (m.inst, ptpInstant h.body 0 h.corr) }

/-- A Follow_Up is accepted only for the latest Sync of the same port with the same sequenceId (R74). -/
def pcFollowUp (n : Fin 2) (h : Ptp) (s : State) : State :=
  let c := s.pc n
  match c.syncs.find? (fun x => decide (x.port = h.port)) with
  | some x =>
    if x.seq = h.seq ∧ x.twoStep = true then
      s.setPc n { c with lastSync := some (x.rx, ptpInstant h.body 0 (x.corr + h.corr)), quietTicks := 0 }
    else s
  | none => s

/-- A Delay_Resp that R74 rejects. -/
def pcLate (n : Fin 2) (s : State) : State := irqSet 2 A.DTM_IRQ_STAT 7 (s.addSat (F.DTM_PC_LATE_CNT_COUNT n) 1)

/-- A Delay_Resp (R74): it must answer the latest outstanding Delay_Req with its sequenceId, sent less than TIMEOUT ago. It ends an exchange of
t1 to t4, whose path delay and offset go to the domains that the instance feeds; the offset carries the delay asymmetry of the instance's port (R65, R136). -/
def pcDelayResp (n : Fin 2) (m : PcMsg) (h : Ptp) (s : State) : State :=
  let c := s.pc n
  let limit : Int := s.get (F.DTM_PC_CFG_TIMEOUT n) * 1000000 * 65536
  match c.outstanding.reverse.find? (fun d => decide (d.seq = h.seq)) with
  | none => pcLate n s
  | some d =>
    match d.left with
    | none => pcLate n s
    | some t3 =>
      if beAt h.body 10 10 ≠ pcIdentity s n ∨ limit ≤ instDiff m.inst t3 then pcLate n s
      else
        let s := s.setPc n { c with outstanding := c.outstanding.filter (fun x => decide (x.seq ≠ h.seq)) }
        match c.lastSync with
        | none => s
        | some (t2, t1) =>
          let t4 := ptpInstant h.body 0 (-h.corr)
          let ms := instDiff t2 t1
          let sm := instDiff t4 t3
          let s := pcState n 5 (s.setPc n { s.pc n with delay := (ms + sm) / 2 })
          [0, 1].foldl (exchangeInput (n.val + 1) ((ms + sm) / 2, (sm - ms) / 2 + s.getI (F.STK_ASYM_ASYM (pcPort s n)))) s

/-- PTP_CLIENT_MESSAGE: the instance takes the oldest message that was delivered to it (R74, R75). -/
def execPtpClientMessage (n : Fin 2) (s : State) : Host.Outcome State Fault Refusal :=
  .next (if halted s then s else
    let c := s.pc n
    match c.inbox with
    | [] => s
    | m :: rest =>
      let s := s.setPc n { c with inbox := rest }
      let h := parsePtp m.bytes
      if pcRuns s n = false ∨ h.version ≠ 2 ∨ m.bytes.length < h.length ∨ h.length < ptpLength h.kind then s
      else if h.domain ≠ s.get (F.DTM_PC_CFG_DOMAIN n) then (if h.kind = 9 then pcLate n s else s)
      else match h.kind with
        | 0 => pcSync n m h s
        | 8 => pcFollowUp n h s
        | 9 => pcDelayResp n m h s
        | 11 => pcAnnounce n m h s
        | _ => s)

/-- The addressing of an instance's own frames (R75): Layer 2 to the PTP multicast address under PROFILE 1, otherwise to the selected master. -/
def pcEnv (s : State) (n : Fin 2) (a : Announced) : Envelope :=
  let tr := pcTransport s n
  { dstMac := if s.get (F.DTM_PC_CFG_PROFILE n) = 1 then ptpMac0 else a.mac, srcMac := pcMac s n, tag := vidTag (pcVid s n),
    l2 := decide (tr = 0), v6 := decide (tr = 2), srcIp := pcAddr s n, dstIp := a.addr, srcPort := 319, dstPort := 319, hop := 64 }

/-- PTP_CLIENT_DELAY_REQ: the instance issues a Delay_Req with the next sequenceId, the first one drawn (R58, R73). It needs a running instance
with a selected master. -/
def execPtpClientDelayReq (n : Fin 2) (s : State) : Host.Outcome State Fault Refusal :=
  .next (if halted s then s else match (s.pc n).announce with
    | none => s
    | some a =>
      if h : pcRuns s n = false ∨ 7 ≤ pcPort s n then s
      else
        let c := s.pc n
        let r := if c.started then (c.nextSeq, s) else s.draw 16
        let seq := r.1
        let s := r.2
        let p : Fin 7 := ⟨pcPort s n % 7, Nat.mod_lt _ (by omega)⟩
        let uni := if s.get (F.DTM_PC_CFG_PROFILE n) = 1 then 0 else 0x0400
        let m := ptpMessage 1 (s.get (F.DTM_PC_CFG_DOMAIN n)) uni 0 (pcIdentity s n) seq 0x7F (ptpStamp s.datum)
        let s := s.setPc n { c with
          started := true, nextSeq := (seq + 1) % 65536, outstanding := c.outstanding ++ [⟨seq, none⟩] }
        txEnqueue p ⟨(pcEnv s n a).frame m, controlClass s p, .client n seq⟩ (s.set (F.DTM_PC_STAT_SEQ n) seq))

/-- Deliver a PTP message to instances (R75, R100). -/
def pcDeliver (l : List Nat) (m : PcMsg) (s : State) : State :=
  l.foldl (fun s n =>
    if n = 0 then { s with dtm := { s.dtm with pc0 := { s.dtm.pc0 with inbox := s.dtm.pc0.inbox ++ [m] } } }
    else { s with dtm := { s.dtm with pc1 := { s.dtm.pc1 with inbox := s.dtm.pc1.inbox ++ [m] } } }) s

/-! ## The PTP server (R100-R102) -/

/-- The addressing of an answer to a frame that matched a service address (R78, R85, R103): UDP to port 320 of its source, or Layer 2 to its
source MAC or the multicast address that it was sent to. -/
def ptpEnv (a : State) (e : Eth) (ip : Option Ip) (sa : Nat) : Envelope :=
  match ip with
  | some i => { dstMac := e.src, srcMac := saMac a sa, tag := e.tag, l2 := false, v6 := i.v6, srcIp := i.dst, dstIp := i.src,
                srcPort := 320, dstPort := 320, hop := a.get F.SVP_CFG_HOPLIM }
  | none => { dstMac := if e.dst = ptpMac0 ∨ e.dst = ptpMac1 then e.dst else e.src, srcMac := saMac a sa, tag := e.tag, l2 := true,
              v6 := false, srcIp := 0, dstIp := 0, srcPort := 0, dstPort := 0, hop := 0 }

/-- The unicast flag of a message that answers one sender. -/
def uniFlag (v : Envelope) : Nat := if v.l2 = true ∧ (v.dstMac = ptpMac0 ∨ v.dstMac = ptpMac1) then 0 else 0x0400

/-- The period that a Delay_Resp announces, or none where the sender holds no grant (R102). -/
def delayPeriod (a s : State) (p : Fin 7) (identity : Nat) : Option Int :=
  if a.get F.SVP_PTP_CFG_PROFILE = 1 then some (-4)
  else (clientOf s p identity).bind (fun c => (runningGrant s.datum c.delayResp).map (·.log))

/-- A Delay_Resp to a Delay_Req (R58, R102). -/
def delayResp (p : Nat) (v : Envelope) (h : Ptp) (ta : Instant) (log : Int) : Bytes :=
  ptpMessage 9 h.domain (uniFlag v) (h.corr - (instFrac ta : Int)) (Config.serverIdentity p) h.seq (ofSigned 8 log)
    (ptpStamp ta ++ natBE 10 h.port)

/-- The TLVs of a Signaling message that ask for a grant or cancel one. -/
def sigTlvs : Nat → Bytes → List (Nat × Bytes)
  | 0, _ => []
  | n + 1, b =>
    if b.length < 4 then []
    else
      let k := beAt b 0 2
      let v := slice b 4 (beAt b 2 2)
      let rest := sigTlvs n (b.drop (4 + beAt b 2 2))
      if k = 4 ∨ k = 6 then (k, v) :: rest else rest

/-- A drop of a PTP message (R93, R100, R107). -/
def ptpDrop (i : PlItem) (k : Nat) (s : State) : State := plDrop (pipeOf i.port) k i.tag s

/-- The instances that run on a port and domain (R100). -/
def pcOn (s : State) (p domain : Nat) : List Nat :=
  [0, 1].filter (fun n => pcRuns s n && decide (pcPort s n = p) && decide (s.get (F.DTM_PC_CFG_DOMAIN n) = domain))

/-- A Delay_Req on a service address (R93, R100, R102). -/
def ptpDelayReq (a : State) (i : PlItem) (e : Eth) (ip : Option Ip) (sa : Nat) (h : Ptp) (s : State) : State :=
  let act := match ip with
    | some x => (aclVerdict a x.v6 x.src).1
    | none => 0
  if h.domain ≠ a.get F.SVP_PTP_CFG_DOMAIN then (if pcOn a i.port h.domain = [] then ptpDrop i 21 s else s)
  else if act ≠ 0 then ptpDrop i 16 s
  else match delayPeriod a s i.port h.port with
    | none => ptpDrop i 22 s
    | some log =>
      let v := ptpEnv a e ip sa
      let m := delayResp i.port v h i.inst log
      if hp : i.port.val < 4 then
        let p : Fin 4 := ⟨i.port.val, hp⟩
        match assignTicket p ⟨.delayResp, stakeLatency a p .delayResp, i.inst, v, m.length, i.tag⟩ s with
        | (none, s) => s
        | (some t, s) => loadResponse p t.1 m none (plCount (pipeOf i.port) 2 s)
      else txDevice i.port (v.frame m) s

/-- A Signaling message goes to the service processors unless the ACL drops it (R93, R100). -/
def ptpSignaling (a : State) (i : PlItem) (e : Eth) (ip : Option Ip) (sa : Nat) (h : Ptp) (s : State) : State :=
  let act := match ip with
    | some x => (aclVerdict a x.v6 x.src).1
    | none => 0
  if h.domain ≠ a.get F.SVP_PTP_CFG_DOMAIN ∧ pcOn a i.port h.domain = [] ∧ i.port.val < 4 then ptpDrop i 21 s
  else if act = 1 then ptpDrop i 16 s
  else { s with svp := { s.svp with signaling := s.svp.signaling ++
    [⟨i.port, ptpEnv a e ip sa, h.port, h.domain, decide (act = 2), sigTlvs 64 (slice h.body 10 (h.length - 44))⟩] } }

/-- A PTP message on a service address (R100). PL4 passes each to the service processors (R76), for whom R100 names nothing to do with Management; `done` are the instances that it was delivered to by R75. -/
def ptpServer (i : PlItem) (sa : Nat) (done : List Nat) (s : State) : State :=
  let a := s.asOf i.inst
  let e := parseEth i.bytes
  let ip := parseIp e i.bytes
  let b := ptpBytes e ip i.bytes
  let h := parsePtp b
  let i := if h.kind = 1 ∧ i.port.val < 4 then i else { i with tag := none }
  if h.kind = 1 ∧ servesDelay s i.inst = false then notServing i s
  else if h.version ≠ 2 ∨ 1 < h.minor then ptpDrop i 20 s
  else if b.length < h.length ∨ h.length < ptpLength h.kind then ptpDrop i 19 s
  else match h.kind with
    | 1 => ptpDelayReq a i e ip sa h (traceStage i.tag 2 s)
    | 0 | 8 | 9 | 11 =>
      let l := pcOn a i.port h.domain
      if l = [] ∧ done = [] then ptpDrop i 21 s
      else pcDeliver (l.filter (fun n => !(done.contains n))) ⟨b, i.inst, e.src, (ip.map (·.src)).getD 0⟩ s
    | 12 => ptpSignaling a i e ip sa h s
    | 13 => if i.port.val < 4 then hostForward i s else s
    | _ => ptpDrop i 23 s

/-- A Delay_Req on a main port is offered to the tag LFSR (R406). -/
def ptpFrame (i : PlItem) (pcs : List Nat) (sa : Option Nat) (s : State) : State :=
  let e := parseEth i.bytes
  let ip := parseIp e i.bytes
  let b := ptpBytes e ip i.bytes
  let s := pcDeliver pcs ⟨b, i.inst, e.src, (ip.map (·.src)).getD 0⟩ s
  match sa with
  | none => s
  | some n =>
    if h : (parsePtp b).kind = 1 ∧ i.port.val < 4 then
      let g := offerTag ⟨i.port.val, h.2⟩ 2 i.inst s
      ptpServer { i with tag := g.1 } n pcs (traceAt g.1 1 i.inst g.2)
    else ptpServer i n pcs s

/-! ## PIPELINE_REQUEST (R24) -/

/-- What a pipeline does with a frame of a class. A request for a service address is answered in the modes that answered at its arrival and do now (R81). -/
def pipelineFrame (i : PlItem) (k : FrameKind) (s : State) : State :=
  match k with
  | .arp mac client => if client || serves s i.inst then arpAnswer i mac s else s
  | .nd mac client => if client || serves s i.inst then ndAnswer i mac s else s
  | .ntp sa => if h : i.port.val < 4 then ntpRequest i ⟨i.port.val, h⟩ sa s else s
  | .ptp pcs sa => ptpFrame i pcs sa s
  | .ntske sa => segmentDeliver sa i s
  | .echo sa =>
    if serves s i.inst then
      let a := s.asOf i.inst
      let e := parseEth i.bytes
      match parseIp e i.bytes with
      | some x => txDevice i.port (echoReply e x (saMac a sa) (a.get F.SVP_CFG_HOPLIM)) s
      | none => s
    else s
  | .host => hostForward i s

/-- Whether a frame asks for a ticket. -/
def wantsTicket (k : FrameKind) : Bool :=
  match k with
  | .ntp _ => true
  | .ptp _ sa => sa.isSome
  | .arp _ _ | .nd _ _ | .ntske _ | .echo _ | .host => false

/-- A pipeline takes the oldest frame of its input queue (R24). A time request waits while its port assigns no tickets (R124, R137). -/
def pipelineTake (pl : Fin 5) (s : State) : State :=
  match s.svp.queues[pl] with
  | [] => s
  | i :: rest =>
    let k := classify (s.asOf i.inst) i.port i.bytes
    if wantsTicket k && waitsForGrid s i.port then s
    else
      let s := { s with svp := { s.svp with queues := s.svp.queues.set pl rest } }
      let s := pmcEvent 3 0x02 pl 1 (s.set (F.SVP_PL_STAT_QDEPTH pl) rest.length)
      lanesRun (flowControl i.port (pipelineFrame i k s))

/-- PIPELINE_REQUEST: a pipeline takes a frame (R24). `table` and `buffer` say what the error check finds in its accesses to the tables and to the packet buffer (R40). A freeze holds the pipelines (R33). -/
def execPipelineRequest (pl : Fin 5) (table buffer : EccHit) (s : State) : Host.Outcome State Fault Refusal :=
  .next (if halted s then s else pipelineTake pl (eccApply table (eccApply buffer s)))

/-! ## Grants (R105, R106) -/

/-- Whether a grant request is denied: rows 1 to 5 of R105. F0, F1 and MGT accept at most 256 clients each (R76). -/
def grantDenied (s : State) (m : SigMsg) (kind : Nat) (log : Int) : Bool :=
  let new := (clientOf s m.port m.identity).isNone
  m.denied
    || (decide (m.port.val < 4) && !(s.on F.SVP_CFG_PTPEN)) || decide (m.domain ≠ s.get F.SVP_PTP_CFG_DOMAIN)
    || decide (kind ≠ 11 ∧ kind ≠ 0 ∧ kind ≠ 9)
    || (if kind = 11 then decide (log < s.getI F.SVP_PTP_GRANT_ANNLOG ∨ 4 < log) else decide (log < s.getI F.SVP_PTP_GRANT_SYNCLOG ∨ 0 < log))
    || (new && decide (262144 ≤ s.svp.grants.length))
    || (new && decide (4 ≤ m.port.val) && decide (256 ≤ (s.svp.grants.filter (fun c => decide (c.port = m.port))).length))
    || (decide (kind = 0) && decide (256 * 8388608 < syncRate s m.port m.identity + grantRate log))

/-- The Signaling message that answers with one TLV, for an owner to hear of; its sequenceId is a free value. -/
def sigAnswer (m : SigMsg) (owner : TxOwner) (tlv : Bytes) (s : State) : State :=
  let r := s.draw 16
  let b := m.env.frame (ptpMessage 12 m.domain (uniFlag m.env) 0 (Config.serverIdentity m.port) r.1 0x7F (natBE 10 m.identity ++ tlv))
  txEnqueue m.port ⟨b, controlClass r.2 m.port, owner⟩ r.2

/-- Store a decided grant in the table: it runs from its response (R106). -/
def grantStore (m : SigMsg) (kind : Nat) (log : Int) (s : State) : State :=
  let r := s.draw 16
  let s := r.2
  let c := (clientOf s m.port m.identity).getD ⟨freeIndex s, m.identity, m.port, m.env, none, none, none⟩
  let c := { c with env := m.env }.setGrant kind (some (grantDecided (c.grant kind) log s.datum r.1))
  showGrants { s with svp := { s.svp with
    grants := s.svp.grants.filter (fun x => decide (¬(x.identity = m.identity ∧ x.port = m.port))) ++ [c] } }

/-- Take the first TLV of the oldest Signaling message, which leaves the queue with its last one. -/
def sigTake (m : SigMsg) (s : State) : State :=
  let rest := s.svp.signaling.tail
  { s with svp := { s.svp with signaling := if m.tlvs.length ≤ 1 then rest else { m with tlvs := m.tlvs.tail } :: rest } }

/-- Messages in front of the queue with no TLV left are gone. -/
def sigClean (s : State) : State :=
  { s with svp := { s.svp with signaling := s.svp.signaling.dropWhile (fun m => m.tlvs.isEmpty) } }

/-- GRANT_REQUEST: the service processors decide the REQUEST_UNICAST_TRANSMISSION that stands first (R105). -/
def execGrantRequest (s : State) : Host.Outcome State Fault Refusal :=
  .next (if halted s then s else
    let s := sigClean s
    match s.svp.signaling with
    | [] => s
    | m :: _ =>
      match m.tlvs with
      | (4, v) :: _ =>
        let kind := beAt v 0 1 / 16
        let log := toSigned 8 (beAt v 1 1)
        let s := sigTake m s
        let reply := fun (dur : Nat) => natBE 2 5 ++ natBE 2 8 ++ natBE 1 (kind * 16) ++ natBE 1 (ofSigned 8 log) ++ natBE 4 dur ++ zeros 1
          ++ natBE 1 (Config.renewalInvited % 2)
        if grantDenied s m kind log then sigAnswer m .device (reply 0) (s.addSat F.SVP_GRANT_DENY_CNT_COUNT 1)
        else
          let dur := clampNat (s.get F.SVP_PTP_GRANT_MINDUR) (s.get F.SVP_PTP_GRANT_MAXDUR) (beAt v 2 4)
          sigAnswer m (.grant m.identity kind log dur) (reply dur) (grantStore m kind log s)
      | _ => s)

/-- GRANT_CANCEL: the CANCEL_UNICAST_TRANSMISSION that stands first stops its grant and is acknowledged (R106). -/
def execGrantCancel (s : State) : Host.Outcome State Fault Refusal :=
  .next (if halted s then s else
    let s := sigClean s
    match s.svp.signaling with
    | [] => s
    | m :: _ =>
      match m.tlvs with
      | (6, v) :: _ =>
        let kind := beAt v 0 1 / 16
        let s := sigTake m s
        let s := { s with svp := { s.svp with grants := s.svp.grants.map (fun (c : GrantClient) =>
          if c.identity = m.identity ∧ c.port = m.port ∧ (kind = 11 ∨ kind = 0 ∨ kind = 9) then c.setGrant kind none else c) } }
        sigAnswer m .device (natBE 2 7 ++ natBE 2 2 ++ natBE 1 (kind * 16) ++ zeros 1) (dropEmpty s)
      | _ => s)

/-- GRANT_EXPIRY: the grants of a client whose duration has elapsed end (R106). -/
def execGrantExpiry (index : Nat) (s : State) : Host.Outcome State Fault Refusal :=
  .next (if halted s then s else dropEmpty { s with svp := { s.svp with grants := s.svp.grants.map (fun (c : GrantClient) =>
    if c.index = index then { c with
      announce := liveGrant s.datum c.announce, sync := liveGrant s.datum c.sync, delayResp := liveGrant s.datum c.delayResp }
    else c) } })

/-! ## Service values (R86, R87) and Announce values (R104) -/

/-- Divide and round up. -/
def ceilDiv (a b : Nat) : Nat := (a + b - 1) / b

/-- ns to the NTP short format's fraction, rounded up. -/
def shortNs (ns : Nat) : Nat := ceilDiv (ns * 65536) 1000000000

/-- Stratum, reference ID and root delay of the active domain's source (R86); the last ones while it selects none. DESIGN CHOICE (assumption log 99): a mean path delay
below 0 is sent as 0. -/
def sourceValues (s : State) : Nat × Nat × Nat :=
  let pcRow := fun (c : PtpClient) (n : Nat) =>
    match c.announce with
    | none => s.svp.lastSource
    | some a =>
      let st := if 15 < a.steps + 2 then 15 else a.steps + 2
      let id := if pcTransport s n = 1 then a.addr else if pcTransport s n = 2 then beNat ((md5 (natBE 16 a.addr)).take 4) else 0x50545000
      (st, id, ceilDiv c.delay.toNat 1000000000)
  match s.domSrc s.active with
  | 0 =>
    let i := s.get (F.TRV_CH_SELSTAT_SELECTED 0)
    if 11 < i then s.svp.lastSource
    else
      let typ := if i < 8 then s.get (F.TRV_REF_CFG_TYPE i) else 0
      if typ = 1 then (1, 0x474E5353, 0) else if typ = 2 then (1, 0x41544F4D, 0) else (s.get F.SVP_NTP_CFG_OTHSTRAT, 0x50505300, 0)
  | 1 => pcRow s.dtm.pc0 0
  | 2 => pcRow s.dtm.pc1 1
  | _ => s.svp.lastSource

/-- The phase of a hand-off still to be slewed, in NTP short format rounded up (R87). -/
def slewDispersion (s : State) : Nat :=
  if s.dtm.handoff.isSome then ceilDiv (s.dtm.slewLeft.natAbs) (2 ^ 48 * 1000000000) else 0

/-- The Datum state that the service values follow: ACQUIRE entered from HOLDOVER keeps the state that it left (R87). -/
def servedState (s : State) : Nat := if s.dtm.under = 1 ∧ s.svp.heldState ≠ 0 then s.svp.heldState else s.dtm.under

/-- The service values of the present Datum state (R87). -/
def serviceValues (s : State) : ServiceValues :=
  let disp0 := s.get F.SVP_NTP_CFG_DISP0
  let bound := shortNs (if s.dtm.under = 1 then s.svp.heldBound else s.get F.TRV_BM_BOUND_VALUE)
  let l := s.svp.lastSource
  let v : ServiceValues := match servedState s with
    | 2 => ⟨false, l.1, l.2.1, l.2.2, disp0⟩
    | 3 => ⟨false, l.1, l.2.1, l.2.2, disp0 + slewDispersion s⟩
    | 4 => ⟨false, l.1, l.2.1, l.2.2, disp0 + bound⟩
    | 5 => ⟨true, if s.on F.SVP_CFG_OOS16 then 16 else l.1, l.2.1, l.2.2, disp0 + bound⟩
    | _ => ⟨true, 16, 0x494E4954, 0, disp0⟩
  if s.mode = 1 then { v with li3 := true, stratum := 16, refId := 0x494E4954, rootDelay := 0 } else v

/-- Bring the service values up to date; a change takes effect on the present edge, and the set before it is kept for the requests that arrived before (R88). -/
def refreshValues (s : State) : State :=
  let s := if s.dtm.under = 2 ∨ s.dtm.under = 3 then { s with svp := { s.svp with lastSource := sourceValues s } } else s
  let v := serviceValues s
  if v = s.svp.values then s
  else { s with svp := { s.svp with values := v, valuesLog := stillNeeded s s.svp.valuesLog ++ [(s.datum, s.svp.values)] } }

/-- The selected client instance of the active domain, where its source is one. -/
def activePc (s : State) : Option PtpClient :=
  match s.domSrc s.active with
  | 1 => some s.dtm.pc0
  | 2 => some s.dtm.pc1
  | _ => none

/-- clockClass, clockAccuracy, offsetScaledLogVariance, timeSource and stepsRemoved (R104). -/
def announceQuality (s : State) : Nat × Nat × Nat × Nat × Nat :=
  let p0 := s.get F.SVP_PTP_CFG_PROFILE = 0
  match servedState s with
  | 2 | 3 =>
    match activePc s with
    | some c => match c.announce with
      | some a => (a.clockClass, a.accuracy, a.variance, a.timeSource, a.steps + 1)
      | none => (6, 0x21, 0x4E5D, 0x10, 0)
    | none =>
      let i := s.get (F.TRV_CH_SELSTAT_SELECTED 0)
      (6, 0x21, 0x4E5D, if i < 8 ∧ s.get (F.TRV_REF_CFG_TYPE i) = 1 then 0x20 else 0x10, 0)
  | 4 => (7, 0xFE, 0x4E5D, 0xA0, 0)
  | 5 => (if p0 then 52 else 140, 0xFE, 0xFFFF, 0xA0, 0)
  | _ => (248, 0xFE, 0xFFFF, 0xA0, 0)

/-- An Announce (R58, R62, R104): PTP timescale, the leap flags and the offset in use, and the values of the Datum state. -/
def announceMessage (s : State) (p : Nat) (v : Envelope) (seq log : Nat) : Bytes :=
  let q := announceQuality s
  let lp := leapPtp s s.datum
  let tr := Config.traceable s.dtm.under % 4
  let flags := uniFlag v + 0x0008 + (if lp = 1 then 1 else if lp = 2 then 2 else 0) + (if s.get F.DTM_UTC_STAT_SRC < 2 then 4 else 0) + 16 * tr
  ptpMessage 11 (s.get F.SVP_PTP_CFG_DOMAIN) flags 0 (Config.serverIdentity p) seq log
    (ptpStamp s.datum ++ natBE 2 (ofSigned 16 (s.getI F.DTM_UTC_STAT_OFFSET)) ++ zeros 1 ++ natBE 1 (s.get F.SVP_PTP_CFG_PRIO1)
      ++ natBE 1 q.1 ++ natBE 1 q.2.1 ++ natBE 2 q.2.2.1 ++ natBE 1 (s.get F.SVP_PTP_CFG_PRIO2) ++ natBE 8 (Config.grandmasterIdentity p)
      ++ natBE 2 q.2.2.2.2 ++ natBE 1 q.2.2.2.1)

/-! ## Issue instants (R101, R103, R126) -/

/-- A Sync that states its staked departure (R101). -/
def syncMessage (s : State) (p : Nat) (v : Envelope) (seq log flags : Nat) (t : Instant) (corr : Int) : Bytes :=
  ptpMessage 0 (s.get F.SVP_PTP_CFG_DOMAIN) (uniFlag v + flags) corr (Config.serverIdentity p) seq log (ptpStamp t)

/-- Issue a Sync or an Announce on a main port at an issue instant: staked, or counted without a ticket (R101, R126). -/
def issueStaked (p : Fin 4) (v : Envelope) (announce : Bool) (seq log : Nat) (base : Instant) (s : State) : State :=
  let kind : RespKind := if announce then .announce else .sync
  let v := if announce then v else { v with srcPort := 319, dstPort := 319 }
  match assignTicket p ⟨kind, stakeLatency s p kind, base, v, if announce then 64 else 44, none⟩ s with
  | (none, s) => s
  | (some t, s) =>
    loadResponse p t.1 (if announce then announceMessage s p v seq log else syncMessage s p v seq log 0 t.2 (instFrac t.2)) none s

/-- Issue a Sync or an Announce of the two-step server on F0, F1 or MGT: a Sync asks for its egress record (R58, R139). -/
def issueTwoStep (p : Fin 7) (v : Envelope) (announce : Bool) (seq log : Nat) (s : State) : State :=
  if announce then txDevice p (v.frame (announceMessage s p v seq log)) s
  else
    let v := { v with srcPort := 319, dstPort := 319 }
    let u := s.stkUnit p
    let m := syncMessage s p v seq log 0x0200 s.datum 0
    let s := s.setStk p { u with syncs := u.syncs ++ [⟨u.nextTag, v, m⟩], nextTag := (u.nextTag + 1) % 65536 }
    txEnqueue p ⟨v.frame m, controlClass s p, .twoStep u.nextTag⟩ s

/-- The next message of a grant that runs, whose issue instant has come (R106, R126). The last one departs, as scheduled, before the expiry, where no renewal is decided. Outside SERVE
nothing is sent and the schedule goes on (R81). -/
def issueGrant (index : Nat) (announce : Bool) (s : State) : State :=
  match s.svp.grants.find? (fun c => decide (c.index = index)) with
  | none => s
  | some c =>
    let kind := if announce then 11 else 0
    match c.grant kind with
    | none => s
    | some g =>
      let t := issueInstant index g
      if g.live = false ∨ after t s.datum = true then s
      else
        let g' := { g with next := g.next + 1, seq := (g.seq + 1) % 65536 }
        let s := { s with svp := { s.svp with grants := s.svp.grants.map (fun x => if x.index = index then x.setGrant kind (some g') else x) } }
        let lat := if h : c.port.val < 4 then stakeLatency s ⟨c.port.val, h⟩ .sync else 0
        if s.mode ≠ 2 ∨ (g.waiting = 0 ∧ after g.expiry (instAdd t (nsUnits lat)) = false) then s
        else if h : c.port.val < 4 then issueStaked ⟨c.port.val, h⟩ c.env announce g.seq (ofSigned 8 g.log) t s
        else issueTwoStep c.port c.env announce g.seq (ofSigned 8 g.log) s

/-- The lowest enabled service address with PTP of a main port (R103). -/
def multicastSa (s : State) (p : Nat) : Option Nat := (saList s p).find? (fun n => s.on (F.SVP_SA_CTL_PTP n))

/-- The next multicast message of a main port under PROFILE 1, at a whole multiple of its period in Datum time (R103, R126). -/
def issueMulticast (p : Fin 4) (announce : Bool) (s : State) : State :=
  let log : Int := if announce then -3 else -4
  let t := grantPeriod log
  let sched := if announce then s.svp.mcAnnounce[p] else s.svp.mcSync[p]
  let k := s.datum / t
  if k < sched.1 ∨ s.mode ≠ 2 ∨ s.get F.SVP_PTP_CFG_PROFILE ≠ 1 ∨ s.on F.SVP_CFG_PTPEN = false then s
  else match multicastSa s p with
    | none => s
    | some n =>
      let next := (k + 1, (sched.2 + 1) % 65536)
      let s := { s with svp := if announce then { s.svp with mcAnnounce := s.svp.mcAnnounce.set p next }
        else { s.svp with mcSync := s.svp.mcSync.set p next } }
      let v : Envelope := { dstMac := ptpMac0, srcMac := saMac s n, tag := vidTag (saVid s n), l2 := true, v6 := false, srcIp := 0, dstIp := 0,
                            srcPort := 0, dstPort := 0, hop := 0 }
      issueStaked p v announce sched.2 (ofSigned 8 log) (k * t) s

/-- PTP_ISSUE: an issue instant of a grant or of a multicast schedule arrives (R126). -/
def execPtpIssue (schedule : Schedule) (announce : Bool) (s : State) : Host.Outcome State Fault Refusal :=
  .next (if halted s then s else match schedule with
    | .grant index => issueGrant index announce s
    | .multicast port => issueMulticast port announce s)

/-! ## Announcement series (R81) -/

/-- ANNOUNCEMENT_REPEAT: the next frame of a series, 1 s after the one before. The series stops outside the answering modes, for a disabled
address, and on a paired path that is no longer active. -/
def execAnnouncementRepeat (sa : Fin 272) (s : State) : Host.Outcome State Fault Refusal :=
  .next (if halted s then s else match s.svp.series.find? (fun x => decide (x.sa = sa.val)) with
    | none => s
    | some x =>
      let others := s.svp.series.filter (fun y => decide (y.sa ≠ sa.val))
      let stop := fun (s : State) => { s with svp := { s.svp with series := others } }
      if answering s = false ∨ s.on (F.SVP_SA_CTL_EN sa) = false ∨ saCounts s sa = false then stop s
      else if after x.due s.datum then s
      else
        let s := announceSend sa s
        if x.left ≤ 1 then stop s
        else { s with svp := { s.svp with series := others ++ [⟨sa, x.left - 1, instAdd x.due secUnits⟩] } })

end Sys2Proof.Machine
end

