-- ==== Sys2Proof/Machine/Pair.lean ====
section
/-! DEFINITION. What pairing keeps and sends: the ephemeral key, the pair key, the client-table keys and the digest of R316. -/
namespace Sys2Proof.Machine

/-- Show a phase of R315. -/
def phaseSet (n : Nat) (s : State) : State :=
  if s.get F.DVL_STAT_PHASE = n then s else irqSet 7 A.DVL_IRQ_STAT 7 (s.set F.DVL_STAT_PHASE n)

/-- Nothing of a pairing is left: the ephemeral keys and the pair key are erased (R316). -/
def pairErase (rejected : Option Nat) (done : Bool) (s : State) : State :=
  { s with dvl := { s.dvl with pair := { scalar := [], key := [], rejectedAt := rejected, done := done } } }

/-- Registers of the service addresses and of the ACL, in ascending order of address (R316). -/
def digestRegs : List Nat :=
  (List.range 256).flatMap (fun n => (List.range 5).map (fun k => A.SVP_ACL_ADDR_W0 n + 4 * k))
    ++ (List.range 272).flatMap (fun n => (List.range 7).map (fun k => A.SVP_SA_ADDR_W0 n + 4 * k))

/-- The SHA-384 digest of the service-address and ACL registers (R316), each word little-endian (assumption log 22). -/
def pairDigest (s : State) : Bytes := sha384 (digestRegs.flatMap (fun a => natLE 4 (s.rd a).toNat))

/-- Once the pair key stands, the active unit sends its client-table keys, wrapped under it, and the digest; it becomes READY and starts BULK (R315, R316). A unit
that is not active waits. -/
def pairSend (s : State) : State :=
  if s.on F.DVL_STAT_ACTIVE && decide (s.get F.DVL_STAT_PHASE = 1) && decide (s.dvl.pair.key ≠ []) then
    let s := s.emit (.dvl (.pair (.keys (kwWrap s.dvl.pair.key (natBE 16 s.svp.key1 ++ natBE 16 s.svp.key2)) (pairDigest s))))
    let s := pairErase none true s
    phaseSet 4 { s with dvl := { s.dvl with bulkNext := some 0 } }
  else s

end Sys2Proof.Machine
end

