-- ==== Sys2Proof/Machine/Modes.lean ====
section
/-! DEFINITION. Modes and power domains, and the claim of a pair, whose fall and rise move the device between SERVE and SHADOW
(R41, R42, R296-R302, R314, R363-R373). -/
namespace Sys2Proof.Machine

/-! ## Power domains (R363, R364) -/

/-- The domains that carry power in a mode, bit n for PDn (R363). -/
def domainsOf (s : State) (mode : Nat) : Nat :=
  let a := if s.on (F.PRT_P_CFG_EN 0) || s.on (F.PRT_P_CFG_EN 1) then 2 ^ 4 else 0
  let b := if s.on (F.PRT_P_CFG_EN 2) || s.on (F.PRT_P_CFG_EN 3) then 2 ^ 5 else 0
  if mode = 7 then 0x001
  else if mode = 6 then 0x003
  else if mode = 4 then 0xFFF - 2 ^ 4 - 2 ^ 5 - 2 ^ 9
  else if mode = 0 ∨ mode = 5 then 0xFFF
  else 0xFFF - 2 ^ 4 - 2 ^ 5 + a + b

/-- The power domain of a register that can be off while the host has access (R363; the register map of the architecture chapter). -/
def regDomain (a : Nat) : Option Nat :=
  let blk := a / 0x10000
  if blk = 0x10 ∨ blk = 0x11 then some 4
  else if blk = 0x12 ∨ blk = 0x13 then some 5
  else if 0x38 ≤ blk ∧ blk < 0x40 then some 9
  else none

/-- A register of the image (R15). -/
def isImage (a : Nat) : Bool := (findRow a).any (·.image)

/-- A live register whose domain is off reads 0 and takes no write (R364). -/
def liveOff (s : State) (a : Nat) : Bool :=
  (regDomain a).any (fun d => !(domainOn s d)) && !(isImage a)

/-- The live registers of a domain lose what they held (R364). -/
def dropLive (d : Nat) (s : State) : State :=
  { s with regs := s.regs.filter (fun e => decide (regDomain e.1 ≠ some d) || isImage e.1) }

/-- A domain of the main ports goes off: links down, then state lost. -/
def portsOff (d : Nat) (s : State) : State :=
  let ps : List (Fin 7) := if d = 4 then [0, 1] else [2, 3]
  dropLive d (ps.foldl (fun (s : State) (p : Fin 7) => if linkUp s p then linkDown p s else s) s)

/-- PD9 goes off: every operation is aborted (R181), and the key store is empty (R183). -/
def pkeOff (s : State) : State :=
  let s := abortAll s
  crlRekey (dropLive 9 { s with pke := { s.pke with slots := [], turn := 0 } })

/-- Bring the domains to what the mode needs (R363, R364). -/
def powerUpdate (s : State) : State :=
  let want := domainsOf s s.mode
  let off := fun (d : Nat) => domainOn s d && !(want.testBit d)
  let s1 := if off 4 then portsOff 4 s else s
  let s2 := if off 5 then portsOff 5 s1 else s1
  let s3 := if off 9 then pkeOff s2 else s2
  s3.set F.SYS_PWR_STAT_ON want

/-! ## Modes (R41, R42, R368) -/

/-- Codes of SYS_MODE_STAT.MODE. -/
abbrev mBoot : Nat := 0
abbrev mSurvey : Nat := 1
abbrev mServe : Nat := 2
abbrev mShadow : Nat := 3
abbrev mSafe : Nat := 4
abbrev mMaint : Nat := 5
abbrev mMonument : Nat := 6
abbrev mDormant : Nat := 7

/-- SAFE is left: the Datum state underneath shows again, and the alarm clears (R70, R385). -/
def leaveSafe (s : State) : State := alarmClear 13 (setDatumState s.dtm.under (s.set F.SYS_MODE_STAT_SAFECAUSE 0))

/-- One hour in DCLK periods. -/
def hourPeriods : Nat := 4320000000000

/-- SAFE is entered, with its cause (R70, R181, R385). An automatic restart that led back to SAFE within 1 h is counted (R372). -/
def enterSafe (cause : Nat) (s : State) : State :=
  let n := s.get F.SYS_MODE_STAT_ARCNT
  let s := if s.sys.autoRestarted = true ∧ s.now ≤ s.sys.releasedAt + hourPeriods ∧ n < 3 then s.set F.SYS_MODE_STAT_ARCNT (n + 1) else s
  let s := { s with sys := { s.sys with autoRestarted := false } }
  abortAll (alarmRaise 13 (setDatumState 6 (s.set F.SYS_MODE_STAT_SAFECAUSE cause)))

/-- Entry to SAFE, SHADOW or MAINT: Stakeout discards every ticket, and the key-establishment server every session (R42, R157). -/
def stopService (s : State) : State := discardSessions (freezeAll s)

/-- The device takes mode `m`: the record of the transition with its trigger, and what R42, R81, R157 and R181 give for the entry. `cause` is
SAFECAUSE where the mode is SAFE. SAFE admits register writes, also where a fault led to it from BOOT (R41; assumption log 106). -/
def enterMode (m trigger arg cause : Nat) (s : State) : State :=
  let old := s.mode
  if old = m then s
  else
    let s := record 0x0004 (old + 256 * m) trigger arg 0 s
    let s := (s.set F.SYS_MODE_STAT_MODE m).set F.SYS_MODE_STAT_SECS 0
    let s := { s with sys := { s.sys with modeTicks := 0, surveyDone := false, writesOpen := s.sys.writesOpen || decide (m = mSafe),
                                          serviceTicks := if m = 2 ∨ m = 3 then s.sys.serviceTicks else 0 } }
    let s := if old = mSafe then leaveSafe s else s
    let s := if m = mSafe ∨ m = mShadow ∨ m = mMaint then stopService s else s
    let s := if m = mSafe then enterSafe cause s else s
    let s := if m = mMaint then abortRunning s else s
    let s := stopSeries s
    let s := if m = mServe then { s with svp := { s.svp with serveEdge := s.datum } } else s
    let s := if m = mSurvey then { s with svp := { s.svp with answerEdge := if old = mServe then s.svp.serveEdge else s.datum } } else s
    let s := refreshValues (powerUpdate s)
    if m = mServe ∨ (m = mSurvey ∧ answering s = true) then announceAll s else s

/-! ## The claim (R296-R299) -/

/-- This unit is one of a pair (R295). -/
def inPair (s : State) : Bool := s.on F.DVL_CFG_EN

/-- A main port that carries an enabled service address is down, and no paired path carries those addresses (R297). -/
def serviceCut (s : State) : Bool :=
  (List.range 256).any (fun n =>
    s.on (F.SVP_SA_CTL_EN n) && saCounts s n && !(linkUp s (n / 64))
      && !(paired s (n / 64) && linkUp s (pairBackup s (n / 128))))

/-- The fault manager has isolated a unit (R297, R383). -/
def isolated (s : State) : Bool :=
  decide (s.flt.isoLanes ≠ 0) || decide (s.flt.isoSpus ≠ 0) || decide (s.flt.isoSyns ≠ 0) || s.on F.PKE_ISOL_ISOL
    || s.trn.chans.toList.any (fun c => c.convs.toList.any (·.isolated))

/-- The unit is degraded (R297). -/
def degraded (s : State) : Bool := decide (s.get F.DVL_STAT_PHASE ≠ 4) || serviceCut s || isolated s

/-- The health class (R297). -/
def healthOf (s : State) : Nat :=
  if (s.mode ≠ 1 ∧ s.mode ≠ 2 ∧ s.mode ≠ 3) ∨ s.on F.DVL_STAT_HANDED = true ∨ s.dvl.idConflict = true ∨ s.dvl.bothOff = true then 0
  else if s.on F.DVL_CTL_YIELD then 1
  else if s.on F.DVL_STAT_LOSER then 2
  else
    let d := if degraded s then 1 else 0
    match servedState s with
    | 2 | 3 => 12 - d
    | 4 => 9 - d
    | 5 => 6 - d
    | _ => 4 - d

/-- The own claim: zero at health class 0, whatever its other fields hold (R296). -/
def claimOf (s : State) : Nat :=
  let h := healthOf s
  if h = 0 then 0
  else h * 4096 + (if s.on F.DVL_STAT_ACTIVE || !s.dvl.everActive then s.get F.DVL_CFG_PRIO else 0) * 16 + s.get F.SYS_ID_UNIT

/-- Show the health class and the own claim. Outside a pair both stay 0 (R295). -/
def showClaim (s : State) : State :=
  if inPair s then (s.set F.DVL_STAT_HEALTH (healthOf s)).set F.DVL_CLAIM_OWN (claimOf s) else s

/-- The drive condition: O above P, and P stale or E above P (R299). -/
def driveCond (s : State) : Bool :=
  decide (s.get F.DVL_CLAIM_PARTNER < s.get F.DVL_CLAIM_OWN)
    && (s.on F.DVL_STAT_STALE || decide (s.get F.DVL_CLAIM_PARTNER < s.get F.DVL_ECHO_ECHO))

/-- 2 us in DCLK periods (R298). -/
def stalePeriods : Nat := 2400

/-- What the partner claim rests on: 1 the claim bus, 2 the link alone, 3 nothing (R299). -/
def guardKind (s : State) : Nat :=
  if s.on F.DVL_STAT_STALE then 3 else if s.dvl.busAt.any (fun t => decide (s.now < t + stalePeriods)) then 1 else 2

/-- The guard G in DCLK periods: 120 ns, or 2.5 us while only the link refreshes P (R299). -/
def guardPeriods (kind : Nat) : Nat := if kind = 2 then 3000 else 144

/-- ACTIVE falls, on the edge on which the condition fails: the outputs go high-impedance and SERVE becomes SHADOW (R299, R302). -/
def activeFall (s : State) : State :=
  let own := s.get F.DVL_CLAIM_OWN
  let ptn := s.get F.DVL_CLAIM_PARTNER
  let s := irqSet 7 A.DVL_IRQ_STAT 0 (s.set F.DVL_STAT_ACTIVE 0)
  let s := { s with dvl := { s.dvl with take := some ⟨false, s.recordTime, own, ptn⟩, slewing := false } }
  showClaim (if s.mode = mServe then enterMode mShadow 3 0 0 s else s)

/-- Weigh the drive condition again after anything that it rests on has changed: ACTIVE falls at once, and the guard runs, restarts or ends
(R297, R299). -/
def claimUpdate (s : State) : State :=
  if inPair s then
    let s := showClaim s
    let s := if s.on F.DVL_STAT_ACTIVE && !(driveCond s) then activeFall s else s
    let k := guardKind s
    let g : Option GuardRun := if driveCond s then
        (match s.dvl.guard with
          | some r => if r.kind = k then some r else some ⟨k, s.now⟩
          | none => some ⟨k, s.now⟩)
      else none
    { s with dvl := { s.dvl with guard := g } }
  else s

/-- A change of mode, and what it does to the claim (R297). -/
def setMode (m trigger arg cause : Nat) (s : State) : State := claimUpdate (enterMode m trigger arg cause s)

/-- ACTIVE rises: the count, the record of the next tick, the alignment offset frozen and slewed from here, SHADOW to SERVE, every session discarded, and a transfer of
keys that waited (R157, R299, R302, R311, R316). -/
def activeRise (s : State) : State :=
  let s := irqSet 7 A.DVL_IRQ_STAT 0 (s.set F.DVL_STAT_ACTIVE 1)
  let s := s.addSat F.DVL_TAKEOVER_CNT_COUNT 1
  let s := { s with dvl := { s.dvl with
    activeAt := s.now, everActive := true, slewing := true
    take := some ⟨true, s.recordTime, s.get F.DVL_CLAIM_OWN, s.get F.DVL_CLAIM_PARTNER⟩ } }
  let s := pairSend (discardSessions s)
  showClaim (if s.mode = mShadow then enterMode mServe 3 0 0 s else s)

/-- ACTIVE_GAIN: the drive condition has held for the guard (R299). Before that, the event does not happen. -/
def execActiveGain (s : State) : Host.Outcome State Fault Refusal :=
  .next (let s := claimUpdate s
    if s.on F.DVL_STAT_ACTIVE = false ∧ s.dvl.guard.any (fun g => decide (g.since + guardPeriods g.kind ≤ s.now)) = true then activeRise s
    else s)

/-- A lasting fault of class `c` whose response is a hand-over: health class 0 on its detection edge, with which ACTIVE falls, and SHADOW (R314). -/
def handOver (c : Nat) (s : State) : State :=
  let s := claimUpdate (s.set F.DVL_STAT_HANDED 1)
  if s.mode = mServe then setMode mShadow 2 c 0 s else s

/-! ## Releases, and the states with less power (R364-R374) -/

/-- Entries that wait in block queues reach retention before the power of their blocks goes (R371, R373, R388, R393). -/
def drainQueues (s : State) : State :=
  let q := s.fbk.queued
  q.foldl (fun s e => retain unplaced e.entry s) { s with fbk := { s.fbk with queued := [] } }

/-- What the Field Book keeps without PD2 to PD11: how many entries no seal covers, retention in PD0, and the chain head while PD1 has power (R393, R394). -/
def FbkState.kept (f : FbkState) (pd1 : Bool) : FbkState :=
  { FbkState.empty with
    retained := f.retained, headHash := if pd1 then f.headHash else [], headKept := pd1 && f.headKept
    openLost := if f.resumed then f.openSeg.length + 4096 * (f.segs.filter (fun x => x.2.sealBlk.isNone)).length else f.openLost }

/-- What the Datum keeps: the Monument counter, while PD1 has power (R365). -/
def DatumState.kept (d : DatumState) (pd1 : Bool) : DatumState :=
  if pd1 then { DatumState.empty with mon := d.mon, monRate := d.monRate, monHolds := d.monHolds } else DatumState.empty

/-- Registers that every reset leaves: the fused ones, the supplies, and those that PD1 holds while it has power (R365, R372, R393). -/
def keptRegs (s : State) (pd1 : Bool) : Map Word :=
  let fused := [A.SYS_SERIAL_W0, A.SYS_SERIAL_W0 + 4, A.SYS_OTP_STAT, A.SYS_SUPPLY]
  let head := [A.FBK_CHAINID_W0, A.FBK_CHAINID_W0 + 4, A.FBK_SEALED_W0, A.FBK_SEALED_W0 + 4]
  let m := (if pd1 then fused ++ head else fused).foldl (fun m a => regPut m a (s.rd a)) []
  let m := regPut m A.SYS_PWR_STAT (fieldSet (fieldSet (s.rd A.SYS_PWR_STAT) 0 12 0xFFF) 12 18 0)
  if pd1 then regPut m A.SYS_MODE_STAT (fieldSet 0 12 2 (s.get F.SYS_MODE_STAT_ARCNT)) else m

/-- Benchmark when the Datum goes: with time in the Monument counter, E goes on from its value in holdover, and from the bound of an entry to holdover
otherwise, with the terms of the crystal model (R269, R271). -/
def bmKept (s : State) : BmState :=
  if s.dtm.monHolds = false ∨ s.bm.follow = true then s.bm
  else
    let e := if s.dtm.under = 4 ∨ s.dtm.under = 5 then s.bm.bound else holdStart s
    (followMonument { s with bm := { s.bm with bound := e } }).bm

/-- The device with only PD0, and PD1 where it stays on: everything else returns to its reset state (R364, R371, R373). -/
def stripped (pd1 : Bool) (s : State) : State :=
  { State.reset with
    pending := s.pending, now := s.now, fresh := s.fresh, out := s.out, regs := keptRegs s pd1
    sys := { SysState.empty with
      phase := s.sys.phase, bootsel := s.sys.bootsel, unitId := s.sys.unitId, mspiEn := s.sys.mspiEn, porstLow := s.sys.porstLow
      wakeLatched := s.sys.wakeLatched, flash := s.sys.flash, releasedAt := s.sys.releasedAt, ticks := s.sys.ticks }
    fbk := s.fbk.kept pd1
    dtm := s.dtm.kept pd1
    bm := if pd1 then bmKept s else BmState.empty }

/-- The registers of the image, which the system controller holds in PD0 (R364). -/
def heldImage (s : State) (m : Map Word) : Map Word := (s.regs.filter (fun e => isImage e.1)).foldl (fun m e => regPut m e.1 e.2) m

/-- MONUMENT or DORMANT is entered: everything outside PD0 and PD1 is lost, and the copies of the image registers stay (R363, R364, R371, R373). -/
def shed (pd1 : Bool) (mode : Nat) (s : State) : State :=
  let t := stripped pd1 s
  let t := { t with regs := heldImage s t.regs }
  (t.set F.SYS_MODE_STAT_MODE mode).set F.SYS_PWR_STAT_ON (domainsOf t mode)

/-- The slots in the order in which BOOTSEL tries them (R341). -/
def slotOrder (bootsel : Nat) : List Nat := if bootsel = 3 then [] else if bootsel = 1 then [1, 0] else [0, 1]

/-- A release: BOOT starts with the reset state of R15, the straps are sampled, and PD1 keeps what it holds while it has power (R366, R367,
R372). `old` and `trigger` are those of the MODE_CHANGE record, `cause` SYS_RST_CAUSE. -/
def release (pd1 : Bool) (old trigger cause bootsel : Nat) (unitId mspiEn : Bool) (s : State) : State :=
  let hold := s.dtm.monHolds && pd1
  let wake := s.rd A.PRT_WAKE_STAT
  let s := stripped pd1 s
  let s := { s with sys := { s.sys with
    phase := .running, bootsel := bootsel, unitId := unitId, mspiEn := mspiEn, porstLow := false, wakeLatched := false
    releasedAt := s.now, ticks := 0, tickPhase := 0, autoRestarted := decide (cause = 5)
    boot := { headers := slotOrder bootsel, bodies := [], slot := none, since := s.now, stage := if bootsel = 3 then .keys else .header } } }
  let s := (((s.set F.SYS_RST_CAUSE_CAUSE cause).setB F.SYS_MODE_STAT_MONVALID hold).set F.SYS_BOOT_STAT_BOOTSEL bootsel).setB
    F.SYS_ID_UNIT unitId
  let s := if bootsel = 3 then s.set F.SYS_BOOT_STAT_SLOT 3 else s
  let s := if cause = 5 then s else s.set F.SYS_MODE_STAT_ARCNT 0
  let s := if cause = 6 then s.wr A.PRT_WAKE_STAT wake else s
  record 0x0004 old trigger (if trigger = 5 then cause else 0) 0 s

/-- The code of the present state in a MODE_CHANGE record: 0xFF for OFF and RESET (R455). -/
def modeCode (s : State) : Nat := match s.sys.phase with | .running => s.mode | _ => 0xFF

/-- A restart by host request or by the device itself: a release that keeps PD1 (R372). The straps are sampled again (R367). -/
def restart (trigger cause : Nat) (s : State) : State :=
  release true s.mode trigger cause s.sys.bootsel s.sys.unitId s.sys.mspiEn (drainQueues s)

end Sys2Proof.Machine
end

