-- ==== Sys2Proof/Machine/Loops.lean ====
section
/-! DEFINITION. The DPLL channels: phase samples, lock, states, history and holdover (R254-R263). -/
namespace Sys2Proof.Machine

/-! ## Units: a stamp counts 2^-16 DCLK of the Transit timebase (R217) -/

/-- One second of the timebase. -/
def secStamp : Nat := 1200000000 * 65536

/-- Nanoseconds as a stamp difference. -/
def nsStamp (n : Nat) : Frac := .of (n * 65536 * 6) 5

/-- A stamp difference in ps, rounded to nearest. -/
def stampToPs (x : Frac) : Int := (x.mul (.of 2500 196608)).round

/-- The nominal period of an input (R238, R248). -/
def periodOf (s : State) (i : Nat) : Frac := .of (secStamp * 10) (nominalDeci s i)

/-- An input of Traverse. -/
def State.input (s : State) (i : Fin 12) : TrvInput := s.trv.inputs[i]

/-- Replace an input. -/
def State.setInput (s : State) (i : Fin 12) (x : TrvInput) : State := { s with trv := { s.trv with inputs := s.trv.inputs.set i x } }

/-- A channel's loop. -/
def State.loop (s : State) (c : Fin 8) : TrvChan := s.trv.chans[c]

/-- Replace a channel's loop. -/
def State.setLoop (s : State) (c : Fin 8) (x : TrvChan) : State := { s with trv := { s.trv with chans := s.trv.chans.set c x } }

/-- The selected input of a channel; none for code 15. -/
def selected (s : State) (c : Fin 8) : Option (Fin 12) :=
  let n := s.get (F.TRV_CH_SELSTAT_SELECTED c)
  if h : n < 12 then some ⟨n, h⟩ else none

/-- TRV_CHn_STATE.STATE: 0 FREERUN, 1 ACQUIRE, 2 LOCKED, 3 HOLDOVER (R259). -/
def loopState (s : State) (c : Fin 8) : Nat := s.get (F.TRV_CH_STATE_STATE c)

/-- A switch slew of the channel is in progress (R248). -/
def switching (s : State) (c : Fin 8) : Bool := s.on (F.TRV_CH_SELSTAT_SWITCHING c)

/-- Change a channel's state and set its interrupt (R259). -/
def loopGoto (c : Fin 8) (n : Nat) (s : State) : State :=
  if loopState s c = n then s else irqSet 4 A.TRV_CH_IRQ_STAT c (s.set (F.TRV_CH_STATE_STATE c) n)

/-! ## The frequency word (R254) -/

/-- Show a 40-bit signed value in a register pair. -/
def setWord40 (w0 : Nat) (x : Int) (s : State) : State := s.set64 w0 (ofSigned 40 x)

/-- Announce the word of CH1 to CH7 to the synthesizers, 24 us ahead (R115, R281). -/
def announceWord (c : Nat) (w : Int) (s : State) : State :=
  if c = 0 then s
  else { s with syn := { s.syn with words := s.syn.words.put c ((s.syn.words.get c).getD [] ++ [(instAdd s.datum announceLead, w)]) } }

/-- The part of Δ still to be applied at a stamp (R248). The slope is in ns/s, and 0 leaves nothing. -/
def TrvChan.rest (x : TrvChan) (t : Int) : Frac :=
  let d := Frac.of (x.slope * (t - x.outAt).toNat) 1000000000
  if x.slope = 0 ∨ x.slewLeft.abs.le d = true then .zero
  else if x.slewLeft.num < 0 then x.slewLeft.add d else x.slewLeft.sub d

/-- The instant of an output event near a stamp: the output runs at 1 + word of the timebase, and carries what the slew has applied of Δ (R248, R254, R255). -/
def TrvChan.outputAt (x : TrvChan) (t : Int) : Frac :=
  (x.outPos.sub (.of (x.word * (t - x.outAt)) (2 ^ 48))).add (x.slewLeft.sub (x.rest t))

/-- The output phase and what is left of Δ, told from a stamp on. -/
def TrvChan.moveTo (x : TrvChan) (t : Int) : TrvChan := { x with outPos := x.outputAt t, slewLeft := x.rest t, outAt := t }

/-- The stamp of the present DCLK edge. -/
def nowStamp (s : State) : Int := (s.trn.coarse : Int) * 65536

/-- What is left of a channel's Δ now. -/
def slewNow (s : State) (c : Fin 8) : Frac := (s.loop c).rest (nowStamp s)

/-- A new frequency word: clamped to 500 ppm, with CLAMP while the clamp acts (R254). The output phase goes on from where it is (R257). -/
def setLoopWord (c : Fin 8) (w : Int) (s : State) : State :=
  let v := clampInt (-rateLimit) rateLimit w
  let s := s.setB (F.TRV_CH_STATE_CLAMP c) (decide (v ≠ w))
  if v = (s.loop c).word then s
  else announceWord c v (setWord40 (A.TRV_CH_FREQ_W0 c) v (s.setLoop c { (s.loop c).moveTo (nowStamp s) with word := v }))

/-! ## Phase samples (R248, R255, R258) -/

/-- The time that CH0 gives: its reference minus the Datum at an output second (R254, R65), in units of 2^-16 ns. -/
def ch0Estimate (s : State) (i : Fin 12) (e : TrnEdge) (lead : Frac) : Int :=
  let out := instAdd e.datum (-(lead.mul (.of 5 6)).round)
  let near := (out + secUnits / 2) / secUnits
  let sec := match (s.input i).todLast with
    | some (l, d) => if inputKind s i = 1 then ((l : Int) + roundDiv (instDiff e.datum d) secUnits).toNat else near
    | none => near
  instDiff (sec * secUnits) out

/-- CH0 delivers to the domains that take it as their source; in FREERUN and HOLDOVER it is no input (R65, R66). -/
def ch0Deliver (est : Int) (s : State) : State :=
  let st := s.get (F.TRV_CH_STATE_STATE 0)
  if st = 1 ∨ st = 2 then
    [0, 1].foldl (fun s d => if s.domSrc d = 0 then domainInput d est s else s) s
  else s

/-- One phase-detector sample of a channel at an edge of its reference (R255). The loop gains are not stated, so the word that follows is a free
value (assumption log 2). The samples of a switch slew do not reach lock detection (R258). -/
def phaseSample (c : Fin 8) (i : Fin 12) (e : TrnEdge) (s : State) : State :=
  let x := s.loop c
  let rest := x.rest e.stamp
  let err := (((Frac.int e.stamp).sub rest).sub (x.outputAt e.stamp)).wrap (periodOf s i)
  let s := s.setLoop c { x with samples := if switching s c then x.samples else x.samples ++ [err] }
  let s := s.setI (F.TRV_CH_PHERR_PHERR c) (clampInt (-2147483647) 2147483647 (stampToPs err))
  let r := s.draw 40
  let s := pmcEvent 9 0x02 c 1 (setLoopWord c (toSigned 40 r.1) r.2)
  if c.val = 0 then ch0Deliver (ch0Estimate s i e (rest.add err)) s else s

/-- The first events of an acquisition: the output takes the phase of the first, and its frequency from the first two (R259). -/
def acquireSample (c : Fin 8) (i : Fin 12) (e : TrnEdge) (cycles : Nat) (s : State) : State :=
  let x := s.loop c
  let s := s.setI (F.TRV_CH_PHERR_PHERR c) 0
  let s := match x.acq with
    | none => s.setLoop c { x with acq := some (e.stamp, cycles), outAt := e.stamp, outPos := .int e.stamp }
    | some (t, n) =>
      let dt := e.stamp - t
      let w := if dt ≤ 0 then 0
        else ((((periodOf s i).mul (.int (cycles - n : Nat))).div (.int dt)).sub (.int 1)).mul (.int (2 ^ 48)) |>.round
      setLoopWord c w (s.setLoop c { x with acq := none, phased := true, outAt := e.stamp, outPos := .int e.stamp })
  let s := pmcEvent 9 0x02 c 1 (s.setLoop c { s.loop c with samples := (s.loop c).samples ++ [.zero] })
  if c.val = 0 then ch0Deliver (ch0Estimate s i e .zero) s else s

/-- An edge of an input reaches the channels that have selected it (R255). `cycles` counts the cycles of the input up to the edge. -/
def loopEdge (i : Fin 12) (e : TrnEdge) (cycles : Nat) (s : State) : State :=
  (List.finRange 8).foldl (fun s c =>
    if selected s c = some i then
      if (s.loop c).phased then phaseSample c i e s else acquireSample c i e cycles s
    else s) s

/-! ## Bandwidth (R256) -/

/-- The bandwidths of the codes 0 to 18 in mHz. -/
def bwTable : List Nat :=
  [1, 2, 5, 10, 20, 50, 100, 200, 500, 1000, 2000, 5000, 10000, 20000, 50000, 100000, 200000, 500000, 1000000]

/-- One tenth of the converted-edge rate of an input in mHz (R239, R256). -/
def bwLimit (s : State) (i : Fin 12) : Nat :=
  let n := channelOf i
  nominalDeci s i * 10 / (2 ^ chPresc s n * chDecim s n)

/-- The largest code at or below a limit. -/
def bwBelow (mhz : Nat) : Nat := ((List.range 19).reverse.find? (fun k => decide (bwTable.getD k 0 ≤ mhz))).getD 0

/-- The bandwidth of a standard channel by its input: code and mHz. -/
def standardBw (s : State) (i : Fin 12) : Nat × Nat :=
  match inputKind s i with
  | 2 => if nominalDeci s i ≤ 250000000 then (9, 1000) else (31, 25000)
  | 3 => (12, 10000)
  | _ => (4, 20)

/-- Show the bandwidth in use (R256). -/
def showBandwidth (c : Fin 8) (s : State) : State :=
  let own : Nat × Nat :=
    let k := if loopState s c = 2 then s.get (F.TRV_CH_CFG_BW c) else s.get (F.TRV_CH_CFG_ACQBW c)
    (k, bwTable.getD k 1000000)
  match selected s c with
  | some i =>
    let w := if c.val < 2 then own else standardBw s i
    let lim := bwLimit s i
    let act := decide (lim < w.2)
    (s.setB (F.TRV_CH_STATE_BWLIM c) act).set (F.TRV_CH_STATE_BWEFF c) (if act then bwBelow lim else w.1)
  | none =>
    let s := s.set (F.TRV_CH_STATE_BWLIM c) 0
    if c.val < 2 then s.set (F.TRV_CH_STATE_BWEFF c) (s.get (F.TRV_CH_CFG_ACQBW c)) else s

/-! ## History and holdover (R259-R261) -/

/-- The history seconds of the holdover window at the present tick: those that end in it (R260). -/
def holdWindow (s : State) (c : Fin 8) : List Int :=
  let g := s.get (F.TRV_CH_LOCK_GUARD c) * 1000
  let w := s.get (F.TRV_CH_CFG_AVGWIN c) * 1000
  ((s.loop c).history.filter (fun r => decide (r.1 + g ≤ s.sys.ticks ∧ s.sys.ticks < r.1 + g + w))).map (·.2)

/-- Entry to HOLDOVER: fho is the mean of the window, or the most recent history second (R260). -/
def loopHold (c : Fin 8) (s : State) : State :=
  let x := s.loop c
  let l := (holdWindow s c).map Frac.int
  let fho := if l = [] then Frac.int ((x.history.head?).map (·.2) |>.getD 0) else meanOf l
  let s := s.setLoop c { x with fho := fho, bEntry := bNow s, xEntry := bXtal s, hoTicks := 0, samples := [], okTicks := none, lossRun := 0 }
  let s := setWord40 (A.TRV_CH_HOFREQ_W0 c) fho.round (s.set (F.TRV_CH_HOTIME_COUNT c) 0)
  setLoopWord c fho.round (loopGoto c 3 s)

/-- FREERUN: the word is 0 (R259). -/
def loopFree (c : Fin 8) (s : State) : State :=
  let s := s.set (F.TRV_CH_HOTIME_COUNT c) 0
  setLoopWord c 0 (loopGoto c 0 (s.setLoop c { s.loop c with samples := [], okTicks := none, lossRun := 0, secTicks := 0 }))

/-- The channel's reference was released and no switch started in the same tick (R259). -/
def loopReleased (c : Fin 8) (s : State) : State :=
  match loopState s c with
  | 1 => if (holdWindow s c) = [] then loopFree c s else loopHold c s
  | 2 => if (s.loop c).history = [] then loopFree c s else loopHold c s
  | _ => s

/-- Entry to ACQUIRE with a selected reference (R259). -/
def loopAcquire (c : Fin 8) (s : State) : State :=
  let s := s.set (F.TRV_CH_HOTIME_COUNT c) 0
  loopGoto c 1 (s.setLoop c { s.loop c with samples := [], okTicks := none, lossRun := 0, secTicks := 0 })

/-- The word of a channel in HOLDOVER at a tick (R260): at most one change per tick. -/
def loopHoldTick (c : Fin 8) (s : State) : State :=
  let x := { s.loop c with hoTicks := (s.loop c).hoTicks + 1 }
  let s := (s.setLoop c x).set (F.TRV_CH_HOTIME_COUNT c) (x.hoTicks / 1000)
  let w := if s.on (F.TRV_CH_CFG_BMCOMP c) then x.fho.sub (((bNow s).sub x.bEntry).mul (.int (2 ^ 48))) else x.fho
  setLoopWord c w.round s

/-- An oscillator fallback: each channel in HOLDOVER takes the difference of the two models into fho, and the crystal model from then on (R261). -/
def loopsFallback (s : State) : State :=
  (List.finRange 8).foldl (fun s c =>
    if loopState s c = 3 then
      let x := s.loop c
      let f := x.fho.add (((bOsc s).sub (bXtal s)).mul (.int (2 ^ 48)))
      setWord40 (A.TRV_CH_HOFREQ_W0 c) f.round (s.setLoop c { x with fho := f, bEntry := x.xEntry })
    else s) s

/-! ## The tick of a channel (R258, R259) -/

/-- The lock threshold of a channel. -/
def lockTh (s : State) (c : Fin 8) : Frac := nsStamp (s.get (F.TRV_CH_LOCK_LOCKTH c))

/-- How long every sample has met the criterion, after a tick with its samples; the tick counts `d` ms: 0 in a slew or a freeze. -/
def okAfter (d : Nat) (th : Frac) (l : List Frac) (ok : Option Nat) : Option Nat :=
  match l.getLast? with
  | none => ok.map (· + d)
  | some e =>
    if l.all (fun x => x.abs.le th) then some ((ok.map (· + d)).getD 0)
    else if e.abs.le th then some 0 else none

/-- Consecutive samples beyond four times the threshold, and whether LOSSN of them were met. -/
def lossAfter (th4 : Frac) (n : Nat) (l : List Frac) (run : Nat) : Nat × Bool :=
  l.foldl (fun (p : Nat × Bool) x =>
    let r := if th4.lt x.abs then p.1 + 1 else 0
    (r, p.2 || decide (n ≤ r))) (run, false)

/-- Loss of lock (R259). -/
def loseLock (c : Fin 8) (s : State) : State :=
  irqSet 4 A.TRV_CH_IRQ_STAT (8 + c) (loopAcquire c (s.addSat (F.TRV_CH_LOSS_CNT_COUNT c) 1))

/-- Lock detection over the samples since the last tick (R258). A slew takes no samples and a freeze none, and the time of a tick with either does not count. -/
def lockDetect (c : Fin 8) (s : State) : State :=
  let st := loopState s c
  let ls := (s.loop c).samples
  let s := s.setLoop c { s.loop c with samples := [] }
  if st = 1 ∨ st = 2 then
    let th := lockTh s c
    let d := if switching s c || s.on F.SYN_STAT_FROZEN || s.trv.froze then 0 else 1
    let x := { s.loop c with okTicks := okAfter d th ls (s.loop c).okTicks }
    if st = 2 then
      let r := lossAfter (th.mul (.int 4)) (s.get (F.TRV_CH_LOCK_LOSSN c)) ls x.lossRun
      let s := s.setLoop c { x with lossRun := r.1 }
      if r.2 then loseLock c s else s
    else s.setLoop c x
  else s

/-- TRV_CHn_STATE.HIST: the history seconds in the window (R260). -/
def showHist (c : Fin 8) (s : State) : State :=
  let n := (holdWindow s c).length
  s.set (F.TRV_CH_STATE_HIST c) (if n < 10000 then n else 10000)

/-- The tick of an enabled channel: lock detection, history, holdover (R258-R260). `held` says that it was in HOLDOVER before the tick. -/
def loopTick (held : Bool) (s : State) (c : Fin 8) : State :=
  let s := lockDetect c s
  let s := if loopState s c = 2 && !(switching s c) then
      let y := s.loop c
      let n := y.secTicks + 1
      if 1000 ≤ n then
        s.setLoop c { y with secTicks := 0, history := (s.sys.ticks, y.word) :: y.history.take 10060 }
      else s.setLoop c { y with secTicks := n }
    else s.setLoop c { s.loop c with secTicks := 0 }
  showBandwidth c (showHist c (if held && decide (loopState s c = 3) then loopHoldTick c s else s))

/-! ## Commands -/

/-- CHANNEL_LOCK: the samples of LOCKT seconds have met the lock criterion (R258, R259). -/
def execChannelLock (c : Fin 8) (s : State) : Host.Outcome State Fault Refusal :=
  .next (let x := s.loop c
    if loopState s c = 1 && !(switching s c) && !(s.on F.SYN_STAT_FROZEN) &&
        x.okTicks.any (fun n => decide (1000 * s.get (F.TRV_CH_LOCK_LOCKT c) ≤ n)) then
      showBandwidth c (loopGoto c 2 (s.setLoop c { x with lossRun := 0, secTicks := 0 }))
    else s)

/-- HOLDOVER_TIMEOUT: HOMAX has elapsed since the entry to HOLDOVER (R259). -/
def execHoldoverTimeout (c : Fin 8) (s : State) : Host.Outcome State Fault Refusal :=
  .next (let m := s.get (F.TRV_CH_HOMAX_HOMAX c)
    if loopState s c = 3 ∧ m ≠ 0 ∧ 1000 * m ≤ (s.loop c).hoTicks then
      let s := loopFree c s
      s.setLoop c { s.loop c with history := [] }
    else s)

end Sys2Proof.Machine
end

