-- ==== Sys2Proof/Machine/Traverse.lean ====
section
/-! DEFINITION. Traverse: inputs, their monitors and states, time-of-day labels, selection and switches, and closure (R237-R253, R456). -/
namespace Sys2Proof.Machine

/-! ## Monitors (R242, R456) -/

/-- An input with no history: at its enabling, and after a change of its settings (R250). -/
def TrvInput.fresh (glitches : Nat) (ever : Bool) : TrvInput :=
  { everAvailable := ever, timer := 0, last := none, cycles := 0, anchored := false, goods := [], period := .zero, missed := 0, bad := 0,
    rebase := none, freqs := [], freqFail := false, glitchFrom := glitches, glitchFail := false, todLast := none, todPrev := none,
    todPulse := none, todLabel := none, todWell := false, todUndo := none, todJudged := false, todInvalid := false, todNext := [], todBad := 0, todFail := true, phases := [],
    demotedBy := none, agree := 0 }

/-- A fraction in units of 10^-12 as a signed field of 32 bits that saturates. -/
def ppt (x : Frac) : Int := sat32 x (10 ^ 12)

/-- PPSWIN as a stamp difference. -/
def ppsWin (s : State) (i : Nat) : Frac := nsStamp (s.get (F.TRV_REF_PPSWIN_PPSWIN i))

/-- FLIM in ppb. -/
def flim (s : State) (i : Nat) : Nat := s.get (F.TRV_REF_MON_FLIM i)

/-- The pulse monitor fails: it has no anchor until two pulses give it one (R456). -/
def TrvInput.unanchor (x : TrvInput) : TrvInput := { x with anchored := false, goods := [], missed := 0, bad := 0, rebase := none }

/-- A missing or bad pulse (R456): counted, and the last of MISSN fails PULSE. -/
def pulseBad (i : Fin 12) (s : State) : State :=
  let s := s.addSat (F.TRV_REF_PULSE_CNT_COUNT i) 1
  let x := { s.input i with bad := (s.input i).bad + 1 }
  s.setInput i (if s.get (F.TRV_REF_CFG_MISSN i) ≤ x.bad then x.unanchor else x)

/-- A good pulse: the last good pulse, the mean period and the run of bad ones move (R456). -/
def TrvInput.good (x : TrvInput) (t : Int) (n : Nat) : TrvInput :=
  let g := ((t, n) :: x.goods).take 16
  let p := match g.getLast? with
    | some (t0, n0) => if n0 < n then Frac.of (t - t0) (n - n0) else x.period
    | none => x.period
  { x with goods := g, period := p, missed := 0, bad := 0 }

/-- The first pulse after a freeze: it takes the place of the last good pulse, so that the interval over the freeze stays out of the mean period (R243). -/
def TrvInput.rebased (x : TrvInput) (t : Int) : TrvInput :=
  match x.goods with
  | [] => { x with goods := [(t, 0)], rebase := none }
  | (t0, _) :: _ => { x with goods := x.goods.map (fun g => (g.1 + (t - t0), g.2)), rebase := none, missed := 0 }

/-- A pulse reaches the pulse monitor (R456). -/
def pulseEdge (i : Fin 12) (t : Int) (s : State) : State :=
  let x := s.input i
  match x.goods with
  | [] => s.setInput i { x with goods := [(t, 0)], rebase := none }
  | (t0, n0) :: _ =>
    if x.rebase.isSome then s.setInput i (x.rebased t)
    else if x.anchored then
      let d := Frac.int (t - t0)
      let k := (d.div x.period).round
      let n := if k < 1 then 1 else k.toNat
      if (d.sub (x.period.mul (.int n))).abs.le (ppsWin s i) then s.setInput i (x.good t (n0 + n))
      else pulseBad i s
    else
      let gap := t - t0 - secStamp
      if (Frac.int gap).abs.le ((nsStamp (flim s i)).add (ppsWin s i)) then
        s.setInput i { x with anchored := true, goods := [(t, 1), (t0, 0)], period := .int (t - t0), missed := 0, bad := 0 }
      else s.setInput i { x with goods := [(t, 0)] }

/-- PULSE_MISSING: the next expected instant has passed by more than PPSWIN with no pulse near it (R456). Pulses of a freeze are not missing: after one, a pulse is
expected in each mean period from the restart on (R243; assumption log 73). -/
def execPulseMissing (i : Fin 8) (s : State) : Host.Outcome State Fault Refusal :=
  .next (let j : Fin 12 := ⟨i.val, by omega⟩
    let x := s.input j
    match x.goods with
    | (t0, _) :: _ =>
      let due := ((Frac.int (x.rebase.getD t0)).add (x.period.mul (.int (x.missed + 1)))).add (ppsWin s j)
      if chOwner s i = 1 && isPps s j && x.anchored && dclkRuns s && due.lt (.int (nowStamp s)) then
        pulseBad j (s.setInput j { x with missed := x.missed + 1 })
      else s
    | [] => s)

/-- Edges back to the first one that lies a second or more before a stamp. -/
def lastSecond (t : Int) : List (Int × Nat) → List (Int × Nat)
  | [] => []
  | q :: l => if (secStamp : Int) ≤ t - q.1 then [q] else q :: lastSecond t l

/-- The edge from which the last second is measured: on a PPS kind the pulse before, and otherwise the latest edge that lies a second or more back (R242; assumption log
102). -/
def freqBase (s : State) (i : Nat) (t : Int) (l : List (Int × Nat)) : Option (Int × Nat) :=
  if isPps s i then l.head? else l.find? (fun q => decide ((secStamp : Int) ≤ t - q.1))

/-- The edges kept for the next measurement: the pulse itself on a PPS kind, and otherwise one for each ms of the last second. -/
def freqKeep (s : State) (i : Nat) (t : Int) (cycles : Nat) (l : List (Int × Nat)) : List (Int × Nat) :=
  if isPps s i then [(t, cycles)]
  else if l.head?.any (fun q => decide (t - q.1 < (msStamp : Int))) then l
  else (t, cycles) :: lastSecond t l

/-- The frequency limit over the last second (R242): it fails above FLIM and passes again at or below 7/8 of it. -/
def freqEdge (i : Fin 12) (t : Int) (cycles : Nat) (s : State) : State :=
  let x := s.input i
  let y := { x with freqs := freqKeep s i t cycles x.freqs }
  match freqBase s i t x.freqs with
  | none => s.setInput i y
  | some (t0, n0) =>
    let off := if t ≤ t0 then Frac.zero else (((periodOf s i).mul (.int (cycles - n0 : Nat))).div (.int (t - t0))).sub (.int 1)
    let lim := Frac.of (flim s i) 1000000000
    let fail := lim.lt off.abs || (x.freqFail && (lim.mul (.of 7 8)).lt off.abs)
    (s.setInput i { y with freqFail := fail }).setI (F.TRV_REF_FOFF1_FOFF i) (ppt off)

/-! ## Time-of-day labels (R240, R241) -/

/-- The enabled ports that name an input. -/
def portsOf (s : State) (i : Nat) : List (Fin 4) :=
  (List.finRange 4).filter (fun (p : Fin 4) => s.on (F.TRV_TOD_CFG_EN p) && decide (s.get (F.TRV_TOD_CFG_REF p) = i))

/-- The port that labels an input: the only one that names it, where the input's kind is PPS with time of day (R240). -/
def portOf (s : State) (i : Nat) : Option (Fin 4) :=
  if i < 8 ∧ inputKind s i = 1 then (match portsOf s i with | [p] => some p | _ => none) else none

/-- The input that a port labels. -/
def labels (s : State) (p : Fin 4) : Option (Fin 12) :=
  let i := s.get (F.TRV_TOD_CFG_REF p)
  if h : i < 12 then (if portOf s i = some p then some ⟨i, h⟩ else none) else none

/-- Ports that name one input are ignored, and show it (R240). -/
def showConflict (s : State) (p : Fin 4) : State :=
  s.setB (F.TRV_TOD_STAT_CONFLICT p) (s.on (F.TRV_TOD_CFG_EN p) && decide (1 < (portsOf s (s.get (F.TRV_TOD_CFG_REF p))).length))

/-- The reference label of a pulse with a given Datum stamp (R241). -/
def TrvInput.refLabel (x : TrvInput) (d : Instant) : Option Int :=
  x.todLast.map (fun p => (p.1 : Int) + roundDiv (instDiff d p.2) secUnits)

/-- Whether a label of the pulse at `d` is consistent (R241). -/
def TrvInput.consistent (x : TrvInput) (label : Nat) (d : Instant) : Bool :=
  match x.refLabel d with
  | some r => decide ((label : Int) = r)
  | none => x.todPrev.any (fun p => decide (label = p + 1))

/-- A well-labelled pulse (R241). What it replaces is kept until the next pulse. -/
def pulseWell (i : Fin 12) (p : Fin 4) (label : Nat) (d : Instant) (s : State) : State :=
  let x := s.input i
  let u : TodUndo := ⟨x.todLast, x.todBad, x.todFail, s.get64 (A.TRV_TOD_LABEL_W0 p) % 2 ^ 48⟩
  let s := s.setInput i { x with todWell := true, todUndo := some u, todLast := some (label % 2 ^ 48, d), todBad := 0, todFail := false }
  (s.set64 (A.TRV_TOD_LABEL_W0 p) (label % 2 ^ 48)).set (F.TRV_TOD_STAT_VALID p) 1

/-- A badly labelled pulse: the third in a row sets cause TOD and takes every earlier label out of use (R241). An ignored port counts nothing (R240). -/
def pulseIll (i : Fin 12) (p : Option (Fin 4)) (s : State) : State :=
  let s := p.elim s (fun p => (s.addSat (F.TRV_TOD_ERR_CNT_COUNT p) 1).set (F.TRV_TOD_STAT_VALID p) 0)
  let x : TrvInput := { s.input i with todBad := (s.input i).todBad + 1, todJudged := true }
  s.setInput i (if 3 ≤ x.todBad then { x with todFail := true, todBad := 0, todLast := none, todPrev := none, todLabel := none } else x)

/-- A message makes the time of the last pulse invalid: it is no well-labelled pulse (R240, R241). -/
def labelInvalid (i : Fin 12) (p : Fin 4) (s : State) : State :=
  let x : TrvInput := { s.input i with todLabel := none, todWell := false, todInvalid := true, todUndo := none }
  let s := s.set (F.TRV_TOD_STAT_VALID p) 0
  match (s.input i).todUndo with
  | some u => (s.setInput i { x with todLast := u.last, todBad := u.bad, todFail := u.fail }).set64 (A.TRV_TOD_LABEL_W0 p) u.shown
  | none => s.setInput i x

/-- A valid label, or an invalid time, names the last pulse (R241). -/
def labelPulse (i : Fin 12) (p : Fin 4) (l : Option Nat) (s : State) : State :=
  let x := s.input i
  match x.todPulse with
  | none => s
  | some d =>
    match l with
    | none => labelInvalid i p s
    | some n =>
      if x.todInvalid || x.todWell then s
      else
        let s := s.setInput i { x with todLabel := some n }
        if x.consistent n d then pulseWell i p n d s else s

/-- The last pulse is judged: it is badly labelled unless a message has labelled it well, and once only (R241). -/
def judgePulse (i : Fin 12) (p : Option (Fin 4)) (s : State) : State :=
  let x := s.input i
  if x.todPulse.isSome && !x.todWell && !x.todJudged then pulseIll i p s else s

/-- A pulse of an input with time of day: the pulse before it is judged, and the messages that named this one in advance label it (R241). Without a port that labels it,
every pulse is badly labelled. -/
def todEdge (i : Fin 12) (d : Instant) (s : State) : State :=
  let p := portOf s i
  let s := judgePulse i p s
  let x := s.input i
  let s := s.setInput i { x with todPulse := some d, todPrev := x.todLabel, todLabel := none, todWell := false, todUndo := none, todJudged := false,
                                 todInvalid := false, todNext := [] }
  match p with
  | none => s
  | some q =>
    if s.get (F.TRV_TOD_CFG_LABEL q) = 1 then
      judgePulse i p ((x.todNext.filter (fun m => decide ((10000000 * 65536 : Nat) ≤ instDiff d m.2))).foldl (fun (t : State) m => labelPulse i q m.1 t) s)
    else s

/-- The message window of a port: TODWIN as an interval of the Datum (R241). -/
def todWindow (s : State) (p : Fin 4) : Nat := s.get (F.TRV_TOD_CFG_TODWIN p) * 1000000 * 65536

/-- With LABEL 0, the last pulse is judged at the end of its message window (R241). -/
def todWindowEnd (i : Fin 12) (s : State) : State :=
  match portOf s i with
  | some p =>
    if s.get (F.TRV_TOD_CFG_LABEL p) = 0 ∧ (s.input i).todPulse.any (fun d => decide ((todWindow s p : Int) < instDiff s.datum d)) = true then
      judgePulse i (some p) s
    else s
  | none => s

/-- The port of an input is enabled: no pulse is well labelled yet, and cause TOD is set (R241). -/
def todRestart (i : Fin 12) (p : Fin 4) (s : State) : State :=
  (s.setInput i { s.input i with todLast := none, todPrev := none, todLabel := none, todWell := false, todUndo := none, todBad := 0, todFail := true,
                                 todNext := [] }).set (F.TRV_TOD_STAT_VALID p) 0

/-- A message gives a label, or an invalid time, at its end (R241). -/
def todLabel (p : Fin 4) (l : Option Nat) (s : State) : State :=
  match labels s p with
  | none => s
  | some i =>
    let x := s.input i
    if s.get (F.TRV_TOD_CFG_LABEL p) = 1 then s.setInput i { x with todNext := x.todNext ++ [(l, s.datum)] }
    else if x.todPulse.any (fun d => decide (instDiff s.datum d ≤ (todWindow s p : Int))) then labelPulse i p l s
    else s

/-- A message is discarded (R240). -/
def todDiscard (p : Fin 4) (s : State) : State := s.addSat (F.TRV_TOD_ERR_CNT_COUNT p) 1

/-! ### NMEA 0183 (R240) -/

/-- Split bytes at a separator. -/
def splitAtByte (sep : Byte) : Bytes → List Bytes
  | [] => [[]]
  | b :: bs =>
    let r := splitAtByte sep bs
    if b = sep then [] :: r else match r with
      | x :: xs => (b :: x) :: xs
      | [] => [[b]]

/-- The value of a hexadecimal digit. -/
def hexVal (b : Byte) : Option Nat :=
  let n := b.toNat
  if 48 ≤ n ∧ n ≤ 57 then some (n - 48) else if 65 ≤ n ∧ n ≤ 70 then some (n - 55) else if 97 ≤ n ∧ n ≤ 102 then some (n - 87) else none

/-- The fields of a sentence whose checksum is right; none for a sentence to discard. -/
def nmeaFields (t : Bytes) : Option (List Bytes) :=
  match t with
  | [] => none
  | b :: body =>
    let text := body.takeWhile (fun c => decide (c ≠ 0x2A))
    let tail := body.drop text.length
    match tail with
    | _ :: h :: l :: _ =>
      match hexVal h, hexVal l with
      | some x, some y =>
        if t.length ≤ 82 ∧ b = 0x24 ∧ text.foldl (fun n c => n ^^^ c.toNat) 0 = 16 * x + y then some (splitAtByte 0x2C text) else none
      | _, _ => none
    | _ => none

/-- The decimal number of the first n characters of a field. -/
def decAt (b : Bytes) (o n : Nat) : Nat := (slice b o n).foldl (fun x c => 10 * x + (c.toNat - 48)) 0

/-- The UTC second of a date and a time field "hhmmss". -/
def utcOf (y m d : Nat) (hms : Bytes) : Nat := civilDays y m d * 86400 + decAt hms 0 2 * 3600 + decAt hms 2 2 * 60 + decAt hms 4 2

/-- The last three letters of the first field: the type of a sentence. -/
def sentence (fs : List Bytes) : Bytes := (fs.headD []).drop 2

/-- A UTC second as a TAI label, by the offset in use (R241). -/
def taiLabel (s : State) (utc : Nat) : Nat := ((utc : Int) + s.utcOffset).toNat

/-- Every byte of a field is a decimal digit, and it has n of them at least. -/
def digits (n : Nat) (b : Bytes) : Bool := decide (n ≤ b.length) && (b.take n).all (fun c => decide (48 ≤ c.toNat ∧ c.toNat ≤ 57))

/-- The label of a date and a time; a sentence with an empty field gives none. -/
def todDate (p : Fin 4) (dd mm yy hms : Bytes) (y : Nat) (s : State) : State :=
  if digits 2 dd && digits 2 mm && digits 2 yy && digits 6 hms then todLabel p (some (taiLabel s (utcOf y (decAt mm 0 2) (decAt dd 0 2) hms))) s else s

/-- An NMEA sentence: ZDA and RMC give the date and time; RMC status V and a GGA quality of 0 make the time invalid (R240). -/
def nmeaMessage (p : Fin 4) (text : Bytes) (s : State) : State :=
  match nmeaFields text with
  | none => todDiscard p s
  | some fs =>
    let f := fun k => fs.getD k []
    let on := fun k => s.bit (A.TRV_TOD_CFG p) (23 + k)
    if (sentence fs) = [0x5A, 0x44, 0x41] then
      if on 0 && digits 4 (f 4) then todDate p (f 2) (f 3) (f 4) (f 1) (decAt (f 4) 0 4) s else s
    else if (sentence fs) = [0x52, 0x4D, 0x43] then
      if on 1 then
        if f 2 = [0x56] then todLabel p none s
        else todDate p (f 9) (slice (f 9) 2 2) (slice (f 9) 4 2) (f 1) (2000 + decAt (f 9) 4 2) s
      else s
    else if (sentence fs) = [0x47, 0x47, 0x41] then
      if on 2 && decide (f 6 = [0x30]) then todLabel p none s else s
    else s

/-! ### Messages -/

/-- What CH0 supplies of TAI-UTC and leaps: the last message of the port that labels its selected reference (R59). -/
def ch0Utc (s : State) : State :=
  let u := s.dtm.utcCh0
  let r := match selected s 0 with
    | some i =>
      match portOf s i with
      | some p =>
        u.report (s.on (F.TRV_TOD_STAT_OFFV p)) (s.getI (F.TRV_TOD_STAT_OFFSET p)) (s.get (F.TRV_TOD_STAT_LEAP p)) none
      | none => u.report false 0 0 none
    | none => u.report false 0 0 none
  let s := s.setUtcSource 0 r
  if s.domSrc s.active = 0 then leapEvaluate (utcResolve s) else s

/-! ### ITU-T G.8271 time of day (R240; assumption log 103) -/

/-- One step of CRC-8 with the polynomial x^8 + x^5 + x^4 + 1 for the bits of a byte. -/
def todCrcBits : Nat → Nat → Nat
  | 0, r => r
  | k + 1, r => todCrcBits k (if r.testBit 7 then (2 * r % 256) ^^^ 0x31 else 2 * r)

/-- The checksum of a message. -/
def todCrc (b : Bytes) : Nat := b.foldl (fun r c => todCrcBits 8 (r ^^^ c.toNat)) 0xFF

/-- A message with the right header, length and checksum: class, ID and payload. -/
def todFrame (b : Bytes) : Option (Nat × Nat × Bytes) :=
  let n := beAt b 4 2
  if beAt b 0 2 = 0x434D ∧ b.length = n + 7 ∧ todCrc (slice b 2 (n + 4)) = beAt b (n + 6) 1 then some (beAt b 2 1, beAt b 3 1, slice b 6 n) else none

/-- A time event: the TAI second of the pulse, the leap flags, the UTC offset and its validity. -/
def todEvent (p : Fin 4) (b : Bytes) (s : State) : State :=
  let f := beAt b 7 1
  let leap := if f.testBit 0 then 1 else if f.testBit 1 then 2 else 0
  let s := ((s.set (F.TRV_TOD_STAT_LEAP p) leap).setB (F.TRV_TOD_STAT_OFFV p) (f.testBit 2)).set (F.TRV_TOD_STAT_OFFSET p) (beAt b 8 2)
  todLabel p (if s.trv.untraceable.testBit p then none else some (beAt b 0 6)) s

/-- A time announce: whether the source is traceable. One that is not makes the time invalid. -/
def todAnnounce (p : Fin 4) (b : Bytes) (s : State) : State :=
  let ok := (beAt b 3 1).testBit 4
  let m := s.trv.untraceable
  let s := { s with trv := { s.trv with untraceable := if ok = m.testBit p then m ^^^ 2 ^ p.val else m } }
  if ok then s else todLabel p none s

/-- A G.8271 message: the time event and the time announce are decoded, and every other one is ignored. -/
def todG8271 (p : Fin 4) (b : Bytes) (s : State) : State :=
  match todFrame b with
  | none => todDiscard p s
  | some (c, k, d) =>
    if c = 1 ∧ k = 1 then (if d.length = 14 then todEvent p d s else todDiscard p s)
    else if c = 1 ∧ k = 2 then (if 4 ≤ d.length then todAnnounce p d s else todDiscard p s)
    else s

/-- NMEA carries neither TAI-UTC nor leaps (R240). -/
def todNmea (p : Fin 4) (b : Bytes) (s : State) : State :=
  nmeaMessage p b (((s.set (F.TRV_TOD_STAT_LEAP p) 0).set (F.TRV_TOD_STAT_OFFV p) 0).set (F.TRV_TOD_STAT_OFFSET p) 0)

/-- TOD_MESSAGE: a port takes the whole message (R240). A port that is disabled, whose input carries no time of day, or that shares its input with
another port is ignored. -/
def execTodMessage (port : Fin 4) (bytes : Bytes) (s : State) : Host.Outcome State Fault Refusal :=
  .next (if (labels s port).isNone ∨ dclkRuns s = false then s
    else ch0Utc (if s.on (F.TRV_TOD_CFG_FORMAT port) then todG8271 port bytes s else todNmea port bytes s))

/-! ## Edges of an input -/

/-- An accepted edge of an input's Transit channel (R237, R242, R255). -/
def inputEdge (i : Fin 12) (e : TrnEdge) (s : State) : State :=
  let x := s.input i
  let pps := isPps s i
  let n := match x.last with
    | none => 0
    | some l =>
      if pps then (let k := roundDiv (e.stamp - l.stamp) secStamp; if k < 1 then 1 else k.toNat)
      else (e.total - l.total) * 2 ^ chPresc s (channelOf i)
  let cycles := x.cycles + n
  let clean := x.last.isSome
  let s := s.setInput i { x with last := some e, cycles := cycles }
  let s := if pps then pulseEdge i e.stamp s else s
  let s := freqEdge i e.stamp cycles s
  let s := if inputKind s i = 1 then todEdge i e.datum s else s
  if clean then loopEdge i e cycles s else s


/-! ## States of an input (R244) -/

/-- The counted edges of an input's channel in this tick. -/
def tickEdgesOf (s : State) (i : Fin 12) : Nat :=
  if h : channelOf i < 24 then (s.chan ⟨channelOf i, h⟩).tickEdges else 0

/-- The glitches of an input's channel since the release. -/
def glitchesOf (s : State) (i : Fin 12) : Nat :=
  if h : channelOf i < 24 then (s.chan ⟨channelOf i, h⟩).glitches else 0

/-- Every interval that spans a freeze is left out (R243, R255): the next edge of each input starts afresh, and so does the second of its glitch monitor. -/
def inputThaw (s : State) (i : Fin 12) : State :=
  s.setInput i { s.input i with last := none, rebase := some (nowStamp s), missed := 0, freqs := [], glitchFrom := glitchesOf s i, phases := [] }

/-- The inputs after a freeze. -/
def traverseThaw (s : State) : State :=
  let s := (List.finRange 12).foldl inputThaw { s with trv := { s.trv with froze := true } }
  (List.finRange 8).foldl (fun s c => s.setLoop c { s.loop c with acq := none }) s

/-- What an input keeps of Datum values, on the scale after a step of the Datum by `d`: a step fails no monitor (R50, R243; assumption log 81). -/
def TrvInput.stepped (x : TrvInput) (d : Int) : TrvInput :=
  { x with todLast := x.todLast.map (fun l => (l.1, instAdd l.2 d)), todPulse := x.todPulse.map (instAdd · d),
           todUndo := x.todUndo.map (fun u => { u with last := u.last.map (fun l => (l.1, instAdd l.2 d)) }),
           todNext := x.todNext.map (fun m => (m.1, instAdd m.2 d)) }

/-- Whether LOS fails in this tick (R242). -/
def losFails (s : State) (i : Fin 12) : Bool :=
  !(isPps s i) && (decide (tickEdgesOf s i = 0) || (decide (8 ≤ i.val) && !(s.on (F.PRT_P_STAT_LINK (i - 8)))))

/-- The expected converted edges of an input in one second (R239). -/
def expectedEdges (s : State) (i : Fin 12) : Nat :=
  nominalDeci s i / (10 * 2 ^ chPresc s (channelOf i) * chDecim s (channelOf i))

/-- The glitch monitor at the end of a second (R242). -/
def glitchSecond (i : Fin 12) (s : State) : State :=
  let g := glitchesOf s i
  let x := s.input i
  let d := g - x.glitchFrom
  s.setInput i { x with glitchFrom := g, glitchFail := if isPps s i then decide (2 ≤ d) else decide (expectedEdges s i < 100 * d) }

/-- The failing monitors of an input: bit 0 LOS, 1 FREQ, 2 PULSE, 3 GLITCH, 4 RANGE, 5 TOD, 6 CLOSURE, 7 HOST, 8 CAL (R242). -/
def causes (s : State) (i : Fin 12) : Nat :=
  let x := s.input i
  let bit := fun (k : Nat) (b : Bool) => if b then 2 ^ k else 0
  bit 0 (losFails s i) + bit 1 x.freqFail + bit 2 (isPps s i && !x.anchored) + bit 3 x.glitchFail
    + bit 4 (s.on (F.TRN_CH_STAT_RANGE (channelOf i))) + bit 5 (decide (inputKind s i = 1) && x.todFail) + bit 6 x.demotedBy.isSome
    + bit 7 (s.on (F.TRV_REF_CTL_DIS i)) + bit 8 (!(s.on F.TRN_STAT_CALOK))

/-- TRV_REFn_STAT.STATE: 0 DISABLED, 1 FAILED, 2 QUALIFYING, 3 WTR, 4 AVAILABLE. -/
def refState (s : State) (i : Fin 12) : Nat := s.get (F.TRV_REF_STAT_STATE i)

/-- An input in WTR or AVAILABLE is qualified (R244). -/
def qualified (s : State) (i : Fin 12) : Bool := decide (3 ≤ refState s i)

/-- An input changes state (R244). -/
def refGoto (i : Fin 12) (n : Nat) (s : State) : State :=
  if refState s i = n then s
  else
    let s := s.setInput i { s.input i with timer := 0, everAvailable := (s.input i).everAvailable || decide (n = 4) }
    pmcEvent 9 0x05 i 1 (irqSet 3 A.TRV_REF_IRQ_STAT i (s.set (F.TRV_REF_STAT_STATE i) n))

/-- Seconds that remain of a timer (R244). -/
def showTimer (i : Fin 12) (s : State) : State :=
  let t := (s.input i).timer
  let lim := match refState s i with
    | 2 => 1000 * s.get (F.TRV_REF_CFG_QUALT i)
    | 3 => 1000 * s.get (F.TRV_REF_WTR_WTR i)
    | _ => t
  s.set (F.TRV_REF_STAT_TIMER i) ((lim - t) / 1000)

/-- A change of an input's CFG, NOM or monitor settings returns it to FAILED, clears its timers and restarts its closure estimate; a demotion stands until R253 ends it
(R250). `signal` says that the change is of the signal that it takes: the monitors then start anew. -/
def refChanged (i : Fin 12) (signal : Bool) (s : State) : State :=
  if refState s i = 0 then s
  else
    let x := s.input i
    let y := if signal then TrvInput.fresh (glitchesOf s i) x.everAvailable else x
    let s := refGoto i 1 (s.setInput i { y with phases := [], timer := 0, demotedBy := x.demotedBy, agree := 0 })
    s.set (F.TRV_REF_STAT_TIMER i) 0

/-- An input fails (R244). -/
def refFail (i : Fin 12) (cause : Nat) (s : State) : State :=
  let s := if 3 ≤ refState s i then recordUnit 0x0502 i cause 0 0 0 s else s
  let s := if cause / 32 % 2 = 1 then irqSet 3 A.TRV_REF_IRQ_STAT 26 s else s
  refGoto i 1 s

/-- The failing monitors with loss of signal as it was: over a freeze nothing is measured (R243). -/
def heldCauses (s : State) (i : Fin 12) : Nat := causes s i / 2 * 2 + s.get (F.TRV_REF_STAT_CAUSE i) % 2

/-- A loss of signal breaks the count of cycles, and the closure estimate starts anew (R251; assumption log 102). -/
def lossTake (i : Fin 12) (c : Nat) (s : State) : State :=
  if c % 2 = 1 then s.setInput i { s.input i with phases := [] } else s

/-- The tick of an input (R242, R244). A freeze fails no monitor (R243). -/
def refTick (s : State) (i : Fin 12) : State :=
  if s.on (F.TRV_REF_CFG_EN i) then
    let s := if refState s i = 0 then
        refGoto i 1 ((s.setInput i (TrvInput.fresh (glitchesOf s i) (s.input i).everAvailable)).set (F.TRV_REF_STAT_CAUSE i) (causes s i))
      else if s.sys.ticks % 1000 = 0 && !(s.on F.SYN_STAT_FROZEN) then glitchSecond i s else s
    let s := if inputKind s i = 1 then todWindowEnd i s else s
    let c := if s.on F.SYN_STAT_FROZEN || s.trv.froze then heldCauses s i else causes s i
    let s := lossTake i c (s.set (F.TRV_REF_STAT_CAUSE i) c)
    let s := match refState s i with
      | 1 => if c = 0 then refGoto i 2 s else s
      | 4 => if c = 0 then s else refFail i c s
      | _ => if c = 0 then s.setInput i { s.input i with timer := (s.input i).timer + 1 } else refFail i c s
    showTimer i s
  else if refState s i = 0 then s
  else (refGoto i 0 (s.set (F.TRV_REF_STAT_CAUSE i) 0)).set (F.TRV_REF_STAT_TIMER i) 0

/-! ## Selection and switches (R245-R250) -/

/-- The priority of an input on a channel; on CH0 an input of kind 2 or 3 has none (R238). -/
def prio (s : State) (c : Fin 8) (i : Fin 12) : Nat :=
  if c.val = 0 && !(isPps s i) then 0
  else if i.val < 8 then fieldGet (s.rd (A.TRV_CH_PRIO c)) (4 * i) 4 else fieldGet (s.rd (A.TRV_CH_PRIOSE c)) (4 * (i - 8)) 4

/-- An input is a member of an unresolved pair on a channel (R245, R252). -/
def unresolvedOn (s : State) (c : Fin 8) (i : Fin 12) : Bool :=
  s.trv.unresolved.any (fun u => decide (u.1 = c.val) && (decide (u.2.1 = i.val) || decide (u.2.2 = i.val)))

/-- Usable on a channel that has `sel` selected (R245). A selected input that was taken in WTR stays usable there (assumption log 73); one that has failed since its
selection does not, whatever its state at the end of the slew (R249). -/
def usable (s : State) (c : Fin 8) (sel : Option (Fin 12)) (i : Fin 12) : Bool :=
  decide (prio s c i ≠ 0) && (decide (refState s i = 4) || (decide (refState s i = 3) && (sel.isNone || decide (sel = some i))))
    && (!(unresolvedOn s c i) || decide (sel = some i)) && !((s.loop c).lost && decide (sel = some i))

/-- The best of some inputs: the lowest priority number, then the selected one, then the lowest index (R245). -/
def bestOf (s : State) (c : Fin 8) (sel : Option (Fin 12)) (l : List (Fin 12)) : Option (Fin 12) :=
  l.foldl (fun b i => match b with
    | none => some i
    | some j => if prio s c i < prio s c j ∨ (prio s c i = prio s c j ∧ sel = some i) then some i else some j) none

/-- The best usable input. -/
def bestUsable (s : State) (c : Fin 8) (sel : Option (Fin 12)) : Option (Fin 12) :=
  bestOf s c sel ((List.finRange 12).filter (usable s c sel))

/-- The settle condition: SETTLE s have passed since the last switch ended, which is between two ticks (R7, R247). -/
def settled (s : State) (c : Fin 8) : Bool :=
  (s.loop c).switchEnd.all (fun t => decide (t + 1000 * s.get (F.TRV_CH_SEL_SETTLE c) < s.sys.ticks))

/-- Whole seconds by which a new reference lies behind an old one, from their labels (R248). -/
def labelSeconds (s : State) (old new : Option (Fin 12)) (d : Frac) : Int :=
  match old, new with
  | some a, some b =>
    match (s.input a).todLast, (s.input b).todLast with
    | some x, some y =>
      if inputKind s a = 1 ∧ inputKind s b = 1 then
        let full := (instDiff y.2 (y.1 * secUnits)) - (instDiff x.2 (x.1 * secUnits))
        roundDiv (full - (d.mul (.of 5 6)).round) secUnits
      else 0
    | _, _ => 0
  | _, _ => 0

/-- The phase difference Δ of a switch, as a stamp difference (R248): to the old reference where it is usable, and otherwise to the output. -/
def switchDelta (s : State) (c : Fin 8) (old : Option (Fin 12)) (oldUsable : Bool) (new : Fin 12) : Frac :=
  match (s.input new).last with
  | none => .zero
  | some e =>
    let p := periodOf s new
    let was := match old, oldUsable with
      | some o, true => ((s.input o).last.map (fun l => Frac.int l.stamp)).getD ((s.loop c).outputAt e.stamp)
      | _, _ => (s.loop c).outputAt e.stamp
    let d := ((Frac.int e.stamp).sub was).wrap p
    d.add (.int (labelSeconds s old (some new) d * secStamp))

/-- Acquire an input: the first selection since the channel was enabled (R246). -/
def acquire (c : Fin 8) (i : Fin 12) (s : State) : State :=
  let s := s.setLoop c { s.loop c with everSelected := true, acq := none, phased := false, slewLeft := .zero, lost := false }
  loopAcquire c (s.set (F.TRV_CH_SELSTAT_SELECTED c) i)

/-- A switch starts (R246, R248, R249): Δ is fixed, counted, recorded and slewed. -/
def startSwitch (c : Fin 8) (old : Option (Fin 12)) (oldUsable : Bool) (new : Fin 12) (s : State) : State :=
  let d := switchDelta s c old oldUsable new
  let ps := ofSigned 64 (stampToPs d)
  let s := s.setLoop c { (s.loop c).moveTo (nowStamp s) with slewLeft := d, slope := s.get (F.TRV_CH_SEL_SLOPE c), phased := true, acq := none, lost := false }
  let s := ((s.set (F.TRV_CH_SELSTAT_SELECTED c) new).set (F.TRV_CH_SELSTAT_SWITCHING c) 1).addSat (F.TRV_CH_SWITCH_CNT_COUNT c) 1
  let s := s.setI (F.TRV_CH_SWDELTA_DELTA c) (clampInt (-2147483647) 2147483647 (stampToPs d))
  let s := pmcEvent 9 0x04 c 1 (irqSet 3 A.TRV_REF_IRQ_STAT (16 + c) s)
  let o := match old with | some o => o.val | none => 15
  let s := recordUnit 0x0503 c (c + 256 * o + 65536 * new) ps (ps / 2 ^ 32) 0 s
  let s := if loopState s c = 0 ∨ loopState s c = 3 then loopAcquire c s else s
  if c.val = 0 ∧ s.domSrc s.active = 0 ∧ s.dtm.under = 2 then datumGoto 3 s else s

/-- The channel has no selected reference (R247 rule 4). -/
def unselect (c : Fin 8) (s : State) : State := s.set (F.TRV_CH_SELSTAT_SELECTED c) 15

/-- Rules 5 to 7 of R247 and rule 8, for a channel with `sel` selected. -/
def chooseTail (c : Fin 8) (sel : Option (Fin 12)) (s : State) : State :=
  match sel with
  | none =>
    match bestUsable s c none with
    | none => s
    | some i =>
      if (s.loop c).everSelected = false then acquire c i s
      else if settled s c then startSwitch c none false i s else s
  | some o =>
    if s.on (F.TRV_CH_SEL_REVERT c) && settled s c then
      match bestOf s c sel ((List.finRange 12).filter (fun (i : Fin 12) => usable s c sel i && decide (refState s i = 4) && decide (prio s c i < prio s c o))) with
      | some i => startSwitch c sel true i s
      | none => s
    else s

/-- Rule 4 of R247 and what follows it. -/
def chooseRules (c : Fin 8) (s : State) : State :=
  let sel := selected s c
  match sel with
  | some o =>
    if usable s c sel o then chooseTail c sel s
    else
      let t := unselect c s
      match (if settled t c then bestUsable t c none else none) with
      | some i => startSwitch c sel false i t
      | none => loopReleased c t
  | none => chooseTail c none s

/-- The input that FORCE names; none for 0 and for 13 to 15. -/
def forced (s : State) (c : Fin 8) : Option (Fin 12) :=
  let f := s.get (F.TRV_CH_FORCE_FORCE c)
  if h : 1 ≤ f ∧ f ≤ 12 then some ⟨f - 1, by omega⟩ else none

/-- The decision of a channel on a tick (R247). -/
def choose (c : Fin 8) (s : State) : State :=
  if switching s c then s
  else
    let sel := selected s c
    match forced s c with
    | some i =>
      if usable s c sel i then
        let s := s.set (F.TRV_CH_SELSTAT_FORCEFAIL c) 0
        if sel = some i then s
        else if (s.loop c).everSelected = false then acquire c i s
        else if settled s c then startSwitch c sel (sel.any (fun o => usable s c sel o)) i s
        else s
      else chooseRules c (s.set (F.TRV_CH_SELSTAT_FORCEFAIL c) 1)
    | none => chooseRules c (s.set (F.TRV_CH_SELSTAT_FORCEFAIL c) 0)

/-- PENDING: rule 7 would choose an input but for its wait-to-restore or the settle condition (R247). -/
def pendingBetter (s : State) (c : Fin 8) : Bool :=
  match selected s c with
  | none => false
  | some o =>
    s.on (F.TRV_CH_SEL_REVERT c) && ((forced s c).all (fun i => !(usable s c (some o) i)))
      && (List.finRange 12).any (fun (i : Fin 12) => decide (prio s c i ≠ 0) && decide (prio s c i < prio s c o) && !(unresolvedOn s c i)
        && (decide (refState s i = 3) || decide (refState s i = 4)))

/-- What TRV_CHn_SELSTAT shows beside the selection. -/
def showSelstat (c : Fin 8) (s : State) : State :=
  let s := s.setB (F.TRV_CH_SELSTAT_PENDING c) (pendingBetter s c)
  s.setB (F.TRV_CH_SELSTAT_SETTLE c) (!(settled s c))

/-- A channel whose enable bit was cleared (R259). -/
def loopDisable (c : Fin 8) (s : State) : State :=
  let s := ((unselect c s).set (F.TRV_CH_SELSTAT_SWITCHING c) 0).set (F.TRV_CH_SELSTAT_FORCEFAIL c) 0
  let s := s.setLoop c { s.loop c with enabled := false, everSelected := false, slewLeft := .zero, switchEnd := none, acq := none, phased := false, lost := false }
  let s := loopFree c s
  showHist c (showSelstat c (s.setLoop c { s.loop c with history := [] }))

/-- What the tick finds of a channel before it decides: SLOPE as it stands from this tick on (R250), and whether the selected reference has failed (R249). -/
def loopLook (c : Fin 8) (s : State) : State :=
  let x := (s.loop c).moveTo (nowStamp s)
  s.setLoop c { x with slope := s.get (F.TRV_CH_SEL_SLOPE c), lost := x.lost || (selected s c).any (fun i => !(qualified s i)) }

/-- The tick of a channel: selection, then its loop (R247, R259). -/
def channelSelect (s : State) (c : Fin 8) : State :=
  if s.on (F.TRV_CH_CFG_EN c) then
    let s := if (s.loop c).enabled then s
      else (s.setLoop c { s.loop c with enabled := true }).set (F.TRV_CH_STATE_BWEFF c) 0
    let held := decide (loopState s c = 3)
    loopTick held (showSelstat c (choose c (loopLook c s))) c
  else showBandwidth c (if (s.loop c).enabled then loopDisable c s else s)

/-- Every channel decides (R247). -/
def selectAll (s : State) : State := ch0Utc ((List.finRange 8).foldl channelSelect s)

/-- REF_SWITCH_DONE: the slew has applied all of Δ (R248, R249). -/
def execRefSwitchDone (c : Fin 8) (s : State) : Host.Outcome State Fault Refusal :=
  .next (if switching s c && decide (slewNow s c = .zero) then
      let s := s.setLoop c { (s.loop c).moveTo (nowStamp s) with slewLeft := .zero, switchEnd := some s.sys.ticks }
      let s := recordUnit 0x0504 c 0 0 0 0 (s.set (F.TRV_CH_SELSTAT_SWITCHING c) 0)
      let s := showSelstat c s
      if c.val = 0 ∧ s.dtm.under = 3 ∧ s.on F.DTM_STATE_SLEW = false then datumGoto 2 s else s
    else s)

/-- REF_QUALIFY_TIMER: QUALT has elapsed in QUALIFYING (R244). -/
def execRefQualifyTimer (i : Fin 12) (s : State) : Host.Outcome State Fault Refusal :=
  .next (let x := s.input i
    if refState s i = 2 ∧ 1000 * s.get (F.TRV_REF_CFG_QUALT i) ≤ x.timer then
      if x.everAvailable = false ∨ s.get (F.TRV_REF_WTR_WTR i) = 0 then showTimer i (recordUnit 0x0501 i 0 0 0 0 (refGoto i 4 s))
      else showTimer i (refGoto i 3 s)
    else s)

/-- REF_WTR_EXPIRY: WTR has elapsed in WTR (R244). -/
def execRefWtrExpiry (i : Fin 12) (s : State) : Host.Outcome State Fault Refusal :=
  .next (if refState s i = 3 ∧ 1000 * s.get (F.TRV_REF_WTR_WTR i) ≤ (s.input i).timer then
      showTimer i (recordUnit 0x0501 i 0 0 0 0 (refGoto i 4 s))
    else s)

/-! ## Closure (R251-R253) -/

/-- A phase sample of a qualified input, and of a demoted one, each second; samples older than CLWIN leave (R251). -/
def phaseTake (s : State) (i : Fin 12) : State :=
  let x := s.input i
  match x.last with
  | some e =>
    if qualified s i || x.demotedBy.isSome then
      let w : Int := s.get F.TRV_CLOSURE_CFG_CLWIN * secStamp
      let lead := ((periodOf s i).mul (.int x.cycles)).sub (.int e.stamp)
      let fresh := x.phases.all (fun q => decide (q.1 ≠ e.stamp))
      let l := if fresh then (e.stamp, lead) :: x.phases else x.phases
      s.setInput i { x with phases := l.filter (fun q => decide (e.stamp - q.1 ≤ w)) }
    else s
  | none => s

/-- The least-squares slope of the phase: the fractional offset from nominal (R251). -/
def slopeOf (l : List (Int × Frac)) : Option Frac :=
  let t0 := (l.head?.map (·.1)).getD 0
  match leastSquares 2 (l.map (fun q => [Frac.int 1, Frac.int (q.1 - t0)])) (l.map (·.2)) with
  | some (b, _) => b[1]?
  | none => none

/-- The frequency estimate of an input; none while it covers less than 10 % of CLWIN (R251). -/
def estimate (s : State) (i : Fin 12) : Option Frac :=
  let l := (s.input i).phases
  if 10 * (l.length - 1) < s.get F.TRV_CLOSURE_CFG_CLWIN then none else slopeOf l

/-- The mean phase difference of two PPS inputs over the last 10 s, as a stamp difference: each pulse of the one against the pulse of the other that lies nearest. -/
def phaseDiff (s : State) (a b : Fin 12) : Frac :=
  meanOf (((s.input a).phases.filter (fun x => decide (nowStamp s - x.1 ≤ 10 * (secStamp : Int)))).filterMap (fun (x : Int × Frac) =>
    ((s.input b).phases.find? (fun y => decide (2 * (x.1 - y.1).natAbs ≤ secStamp))).map (fun y => (Frac.int (x.1 - y.1)).wrap (.int secStamp))))

/-- Two inputs disagree (R251). -/
def disagree (s : State) (a b : Fin 12) (fa fb : Frac) : Bool :=
  let atom := fun (i : Fin 12) => decide (s.get (F.TRV_REF_CFG_TYPE i) = 2)
  let tol := Frac.of (if atom a && atom b then s.get F.TRV_CLOSURE_TOL_ATOMTOL else s.get F.TRV_CLOSURE_TOL_OTHTOL) (10 ^ 12)
  let ph := s.get F.TRV_CLOSURE_PH_PHTOL
  tol.lt (fa.sub fb).abs || (isPps s a && isPps s b && decide (ph ≠ 0) && (nsStamp ph).lt (phaseDiff s a b).abs)

/-- The estimates of an evaluation. -/
abbrev Estimates := List (Fin 12 × Frac)

/-- The estimate of an input in an evaluation. -/
def estOf (es : Estimates) (i : Fin 12) : Frac := ((es.find? (fun e => decide (e.1 = i))).map (·.2)).getD .zero

/-- The key of a pair on a channel. -/
def pairKey (c : Fin 8) (a b : Fin 12) : Nat := c.val * 144 + a.val * 12 + b.val

/-- A pair's counts. -/
def pairOf (s : State) (c : Fin 8) (a b : Fin 12) : TrvPair := (s.trv.pairs.get (pairKey c a b)).getD ⟨0, 0, false⟩

/-- Store a pair's counts; a pair that starts afresh has no entry. -/
def setPair (c : Fin 8) (a b : Fin 12) (p : TrvPair) (s : State) : State :=
  { s with trv := { s.trv with pairs := if p = ⟨0, 0, false⟩ then s.trv.pairs.del (pairKey c a b) else s.trv.pairs.put (pairKey c a b) p } }

/-- The pairs of a list, in ascending order. -/
def pairsUp : List (Fin 12) → List (Fin 12 × Fin 12)
  | [] => []
  | a :: l => l.map (fun b => (a, b)) ++ pairsUp l

/-- A pair is counted (R252). -/
def countPair (c : Fin 8) (es : Estimates) (s : State) (q : Fin 12 × Fin 12) : State :=
  if prio s c q.1 = prio s c q.2 then
    let p := pairOf s c q.1 q.2
    let n := s.get F.TRV_CLOSURE_CFG_CLCONF
    if disagree s q.1 q.2 (estOf es q.1) (estOf es q.2) then
      let p' : TrvPair := ⟨p.bad + 1, 0, p.disputed || decide (n ≤ p.bad + 1)⟩
      let s := setPair c q.1 q.2 p' s
      if p'.disputed && !p.disputed then recordUnit 0x0506 c 0 0 0 0 s else s
    else setPair c q.1 q.2 ⟨0, p.good + 1, p.disputed && decide (p.good + 1 < n)⟩ s
  else s

/-- An input is demoted (R253). -/
def demote (c : Fin 8) (i w : Fin 12) (es : Estimates) (s : State) : State :=
  let e := ppt ((estOf es i).sub (estOf es w))
  let s := (s.setInput i { s.input i with demotedBy := some w, agree := 0 }).setI (F.TRV_REF_CLERR_FOFF i) e
  irqSet 3 A.TRV_REF_IRQ_STAT 25 (recordUnit 0x0505 i (c + 256 * i + 65536 * w) (ofSigned 32 e) 0 0 s)

/-- A disputed pair is resolved by the other inputs, or is unresolved (R252). `q` is Q and `u` the pairs of the previous evaluation. -/
def judgePair (c : Fin 8) (es : Estimates) (q : List (Fin 12)) (u : List (Nat × Nat × Nat)) (s : State) (p : Fin 12 × Fin 12) : State :=
  let a := p.1
  let b := p.2
  if !(pairOf s c a b).disputed || (s.input a).demotedBy.isSome || (s.input b).demotedBy.isSome then s
  else
    let t := q.filter (fun (i : Fin 12) => decide (i ≠ a) && decide (i ≠ b) && (s.input i).demotedBy.isNone
      && !(u.any (fun v => decide (v.1 = c.val) && (decide (v.2.1 = i.val) || decide (v.2.2 = i.val)))))
    let agrees := fun (x : Fin 12) => (t.filter (fun (i : Fin 12) => !(disagree s x i (estOf es x) (estOf es i)))).length
    if agrees b < agrees a then demote c b a es s
    else if agrees a < agrees b then demote c a b es s
    else
      let fresh := !(u.any (fun v => decide (v = (c.val, a.val, b.val))))
      let s := { s with trv := { s.trv with unresolved := s.trv.unresolved ++ [(c.val, a.val, b.val)] } }
      if fresh then recordUnit 0x0507 c 0 0 0 0 (irqSet 3 A.TRV_REF_IRQ_STAT 24 s) else s

/-- Closure on one channel (R252). -/
def closureChannel (es : Estimates) (u : List (Nat × Nat × Nat)) (s : State) (c : Fin 8) : State :=
  if s.on (F.TRV_CH_CFG_EN c) then
    let q := (es.map (·.1)).filter (fun i => qualified s i && decide (prio s c i ≠ 0))
    let s := (pairsUp q).foldl (countPair c es) s
    (pairsUp q).foldl (judgePair c es q u) s
  else s

/-- Every pair of an input starts afresh on every channel (R253). -/
def freshPairs (i : Fin 12) (s : State) : State :=
  { s with trv := { s.trv with pairs := s.trv.pairs.filter (fun e => decide (e.1 % 144 / 12 ≠ i.val) && decide (e.1 % 12 ≠ i.val)) } }

/-- An input has an estimate in an evaluation. -/
def hasEst (es : Estimates) (i : Fin 12) : Bool := es.any (fun e => decide (e.1 = i))

/-- The cause CLOSURE of a demoted input clears (R253). Without both estimates an evaluation finds no agreement. -/
def demotedTick (es : Estimates) (s : State) (i : Fin 12) : State :=
  match (s.input i).demotedBy with
  | none => s
  | some w =>
    let clear := fun (s : State) => freshPairs i (s.setInput i { s.input i with demotedBy := none, agree := 0 })
    if !(qualified s w) then clear s
    else
      let n := if hasEst es i && hasEst es w && !(disagree s i w (estOf es i) (estOf es w)) then (s.input i).agree + 1 else 0
      if s.get F.TRV_CLOSURE_CFG_CLCONF ≤ n then clear s else s.setInput i { s.input i with agree := n }

/-- An input is a member of a disputed pair on some channel. -/
def disputedInput (s : State) (i : Fin 12) : Bool :=
  s.trv.pairs.any (fun e => e.2.disputed && (decide (e.1 % 144 / 12 = i.val) || decide (e.1 % 12 = i.val)))

/-- Show the disputes (R252). -/
def showDisputes (s : State) : State :=
  let s := (List.finRange 12).foldl (fun s i => s.setB (F.TRV_REF_STAT_DISPUTED i) (disputedInput s i)) s
  let on := fun (c : Fin 8) => s.trv.unresolved.any (fun u => decide (u.1 = c.val))
  let mask := (List.finRange 8).foldl (fun n c => if on c then n + 2 ^ c.val else n) 0
  let s := (List.finRange 8).foldl (fun s c => s.setB (F.TRV_CH_SELSTAT_DISPUTE c) (on c)) (s.set F.TRV_DISPUTE_STAT_DISPUTE mask)
  alarmSet 2 (decide (mask ≠ 0)) s

/-- The estimates in force: of every input that is qualified or demoted and covers enough of CLWIN. -/
def estimates (s : State) : Estimates :=
  (List.finRange 12).filterMap (fun i => if qualified s i || (s.input i).demotedBy.isSome then (estimate s i).map (fun f => (i, f)) else none)

/-- CLOSURE_EVALUATION: every 1,000 ticks (R251-R253). -/
def execClosureEvaluation (s : State) : Host.Outcome State Fault Refusal :=
  .next (if s.trv.evalTicks < 1000 then s
    else
      let s := (List.finRange 12).foldl phaseTake { s with trv := { s.trv with evalTicks := 0 } }
      let es := estimates s
      let s := es.foldl (fun s e => s.setI (F.TRV_REF_FOFF_FOFF e.1) (ppt e.2)) s
      let s := (List.finRange 12).foldl (demotedTick es) s
      let u := s.trv.unresolved
      let s := { s with trv := { s.trv with unresolved := [] } }
      showDisputes ((List.finRange 8).foldl (closureChannel es u) s))

/-- Traverse on a tick: inputs, then channels (R244, R247, R258). -/
def traverseTick (s : State) : State :=
  let s := { s with trv := { s.trv with evalTicks := s.trv.evalTicks + 1 } }
  let s := (List.finRange 4).foldl showConflict s
  let s := selectAll ((List.finRange 12).foldl refTick s)
  { s with trv := { s.trv with froze := false } }

end Sys2Proof.Machine
end

