-- ==== Sys2Proof/Machine/Synth.lean ====
section
/-! DEFINITION. Output synthesizers, ramps, outputs and their limiter (R280-R294), and the changes of rate that reach them. -/
namespace Sys2Proof.Machine

/-! ## Synthesizers. `n` counts from 0 for SYN1; the registers count from 1 -/

/-- A synthesizer. -/
def State.synth (s : State) (n : Fin 6) : Synth := s.syn.synths[n]

/-- Replace a synthesizer. -/
def State.setSynth (s : State) (n : Fin 6) (x : Synth) : State := { s with syn := { s.syn with synths := s.syn.synths.set n x } }

/-- All six. -/
def allSynths : List (Fin 6) := List.finRange 6

/-- The ratio that a synthesizer uses for a written NUM and DEN, and whether the written ratio lies outside 1/19.2 to 1/9.6 (R280). -/
def ratioInUse (num den : Nat) : Nat × Nat × Bool :=
  let lo := (5 * den + 95) / 96
  let hi := 5 * den / 48
  if num < lo then (if lo ≤ hi then (lo, den, true) else (1, 12, true))
  else if hi < num then (if lo ≤ hi then (hi, den, true) else (1, 12, true))
  else (num, den, false)

/-- The ratio in use as a fraction of 9.6 GHz. -/
def Synth.ratio (x : Synth) : Frac := .of x.num x.den

/-- Coarse counts in a millisecond. -/
def msCounts : Nat := 1200000

/-- How far an offset moves towards a target at a slope in ppb/ms (R283). -/
def moveTo (start target : Frac) (slope counts : Nat) : Frac :=
  let step := Frac.of (slope * counts) (1000000000 * msCounts)
  let d := target.sub start
  if d.abs.le step then target
  else if d.num < 0 then start.sub step else start.add step

/-- The ramp offset at a coarse count (R283, R286). -/
def Synth.offsetAt (x : Synth) (coarse : Nat) : Frac :=
  match x.profile with
  | (t, slope) :: _ => moveTo x.offset t slope (coarse - x.segAt)
  | [] => x.offset

/-- What is left at a coarse count of the step that a change of STEER caused: it goes at 1,000 ppb/ms (R286). -/
def Synth.adjAt' (x : Synth) (coarse : Nat) : Frac := moveTo x.adj .zero 1000 (coarse - x.adjAt)

/-- The rate of change of the alignment offset A, in units of 2^-48: the filter of R311 in SHADOW, DTM_SLOPE.SLOPE while A is slewed. -/
def alignRate (s : State) : Int :=
  if s.dvl.slewing then
    let r : Int := (s.get F.DTM_SLOPE_SLOPE * 2 ^ 48 / 1000000000 : Nat)
    if s.dvl.align.num = 0 then 0 else if s.dvl.align.num < 0 then r else -r
  else if inPair s && decide (s.mode = mShadow) then
    let lim := Frac.int (s.get F.DVL_CMP_CFG_DISTH * 1000)
    let a := s.dvl.align
    let d := s.dvl.d.sub a
    if (a.abs.lt lim || (decide (a.num < 0) != decide (d.num < 0))) then (d.mul (.of (2 ^ 48) (10 ^ 11))).round else 0
  else 0

/-- The steering word of a STEER code in units of 2^-48 (R281): CH1 to CH7 as applied, or the Datum rate with the rate of change of A (R311). -/
def steerWord (s : State) (code : Nat) : Int :=
  if code = 0 then 0 else if 8 ≤ code then s.dtm.y + alignRate s else (s.syn.applied.get code).getD 0

/-- The steering of a synthesizer, and whether the clamp of SYN1 and SYN2 to 100 ppm acts (R281). -/
def steering (s : State) (n : Fin 6) : Frac × Bool :=
  let x := s.synth n
  let w := steerWord s x.steer
  let c := if n.val < 2 then clampSteer w else w
  ((Frac.of c (2 ^ 48)).add (x.adjAt' s.trn.coarse), decide (c ≠ w))

/-- 2,000 ppm (R285). -/
def tuneLimit : Frac := .of 2 1000

/-- y of R280: ramp offset plus steering, with the steering clamped so that the oscillator stays within 2,000 ppm of the lock centre (R285). -/
def synthY (s : State) (n : Fin 6) : Frac × Bool :=
  let (st, c) := steering s n
  let y := ((s.synth n).offsetAt s.trn.coarse).add st
  if tuneLimit.lt y then (tuneLimit, true) else if y.lt tuneLimit.neg then (tuneLimit.neg, true) else (y, c)

/-- FS in mHz at the nominal system oscillator (R280). -/
def synthFreq (s : State) (n : Fin 6) : Frac :=
  ((s.synth n).ratio.mul (.int 9600000000000)).mul ((Frac.int 1).add (synthY s n).1)

/-- The synthesizer is locked and outside a settle interval, and not isolated (R282, R285, R383). -/
def synthGood (s : State) (n : Fin 6) : Bool :=
  s.on (F.SYN_SYN_STAT_LOCKED (n.val + 1)) && !(s.on (F.SYN_SYN_STAT_SETTLING (n.val + 1))) && !(s.flt.isoSyns.testBit (n.val + 1))

/-- Show SYN_SYNn_STAT.CLAMP (R280, R281, R285). -/
def showSynth (s : State) (n : Fin 6) : State :=
  let i := n.val + 1
  s.setB (F.SYN_SYN_STAT_CLAMP i)
    ((ratioInUse (s.get (F.SYN_SYN_NUM_VALUE i)) (s.get (F.SYN_SYN_DEN_VALUE i))).2.2 || (synthY s n).2)

/-! ## Outputs -/

/-- All twelve. -/
def allOuts : List (Fin 12) := List.finRange 12

/-- The synthesizer of an output (R287). -/
def outSynth (s : State) (o : Nat) : Fin 6 := ⟨2 + s.get (F.SYN_OUT_CFG_SYNSEL o) % 4, by omega⟩

/-- The range of DIV for FS in mHz and a format: at least 1 Hz, and at most the limit of R287 (R288). -/
def divRange (fmt : Nat) (fs : Frac) : Nat × Nat :=
  let top := if fmt = 0 then 250000000000 else 1000000000000
  let lo := (fs.div (.int top)).ceil.toNat
  (if lo = 0 then 1 else lo, (fs.div (.int 1000)).floor.toNat)

/-- The nominal FS of a synthesizer in mHz, without steering and ramp (R280). -/
def nominalFreq (s : State) (n : Fin 6) : Frac := (s.synth n).ratio.mul (.int 9600000000000)

/-- The divider in effect, and whether it is clamped (R288). -/
def effDiv (s : State) (o : Nat) : Nat × Bool :=
  let d := s.get (F.SYN_OUT_DIV_DIV o)
  let (lo, hi) := divRange (s.get (F.SYN_OUT_CFG_FMT o)) (nominalFreq s (outSynth s o))
  (clampNat lo hi d, decide (d < lo ∨ hi < d))

/-- The synthesizer mutes the output: unlocked, relocking, settling or isolated, or HOLD with HOLDMUTE (R277, R282, R285, R292). -/
def synMutes (s : State) (o : Nat) : Bool :=
  let n := outSynth s o
  !(synthGood s n) || (s.on (F.SYN_SYN_STAT_HOLD (n.val + 1)) && s.on F.SYN_CTL_HOLDMUTE)

/-- The mode mutes the output (R292). -/
def modeMutes (s : State) (o : Nat) : Bool :=
  decide (s.mode = mBoot ∨ s.mode = mSafe ∨ s.mode = mMaint) || (decide (s.mode = mSurvey) && !(s.on (F.SYN_OUT_CFG_SURVEYEN o)))

/-- The mute causes of an output, in the bits of SYN_OUTn_STAT (R292). -/
def outCauses (s : State) (o : Nat) : Nat :=
  (if modeMutes s o then 1 else 0) + (if synMutes s o then 2 else 0) + (if s.on (F.SYN_OUT_STAT_LIMIT o) then 4 else 0)
    + (if s.on (F.SYN_OUT_CTL_HOSTMUTE o) then 8 else 0)

/-- The bank of an output's LVCMOS supply: BK5 for OUT0 to OUT5, BK6 for the others (R424). -/
def outBank (o : Nat) : Nat := if o < 6 then 5 else 6

/-- A TAP instruction drives the balls from the boundary cells (R427). -/
def scanDrives (s : State) : Bool := decide (s.mode = mMaint) && decide (3 ≤ s.sys.tap)

/-- The state of an output stage: 0 high-impedance, 1 muted, 2 driving, 3 boundary scan (R292, R301, R375, R425). -/
def outState (s : State) (o : Nat) : Nat :=
  if s.sys.phase ≠ .running ∨ s.mode = mMonument ∨ s.mode = mDormant ∨ s.sys.banksSet = false
      ∨ (s.get (F.SYN_OUT_CFG_FMT o) = 0 ∧ s.sys.bankSettling.testBit (outBank o) = true) then 0
  else if scanDrives s then 3
  else if inPair s && (!(s.on F.DVL_STAT_ACTIVE) || s.dvl.forced.testBit o) then 0
  else if s.on (F.SYN_OUT_CFG_EN o) then (if outCauses s o = 0 then 2 else 1)
  else 0

/-- LAT of an output in ps: 12 DCLK, the fused path delay of the format, and TRIM (R289). -/
def outLat (s : State) (o : Nat) : Int :=
  10000 + Config.fusedOutput o (s.get (F.SYN_OUT_CFG_FMT o)) + s.getI (F.SYN_OUT_TRIM_TRIM o)

/-- Clear ALIGNED of the outputs of a synthesizer (R291). -/
def unalign (n : Fin 6) (s : State) : State :=
  allOuts.foldl (fun (s : State) (o : Fin 12) => if outSynth s o = n then s.set (F.SYN_OUT_STAT_ALIGNED o) 0 else s) s

/-- Clear ALIGNED of every output of a Datum-steered synthesizer: a Datum step (R281, R291). -/
def unalignDatum (s : State) : State := allSynths.foldl (fun s n => if 8 ≤ (s.synth n).steer then unalign n s else s) s

/-! ## The limiter (R294) -/

/-- CEIL of an output in mHz. -/
def outCeil (s : State) (o : Nat) : Nat := s.get64 (A.SYN_OUT_CEIL_W0 o) % 2 ^ 40

/-- The period of a compare unit in units of 2^-16 ns. -/
def cmpPeriod (s : State) (n : Nat) : Nat :=
  (s.get (F.DTM_CMP_PER_W2_SECLO n) * 1000000000 + s.get (F.DTM_CMP_PER_W1_NS n)) * 65536 + s.get (F.DTM_CMP_PER_W0_FRAC n)

/-- Compare units that drive an output. -/
def outUnits (s : State) (o : Nat) : List Nat :=
  (List.range 16).filter (fun n => s.on (F.DTM_CMP_CTL_EN n) && s.on (F.DTM_CMP_CTL_OUTEN n) && decide (s.get (F.DTM_CMP_CTL_OUTSEL n) = o))

/-- The output frequency that the command check weighs, in mHz: FS / DIV, or that of the shortest period of a PULSE output's compare
units; a period of 0 passes (R294). -/
def checkedFreq (s : State) (o : Nat) : Frac :=
  if s.on (F.SYN_OUT_CFG_MODE o) then
    let ps := ((outUnits s o).map (cmpPeriod s)).filter (fun p => decide (p ≠ 0))
    match ps with
    | [] => .zero
    | p :: rest => .of (1000 * secUnits) (rest.foldl (fun a b => if a ≤ b then a else b) p)
  else (synthFreq s (outSynth s o)).div (.int (effDiv s o).1)

/-- The command check fails: the frequency with 10 ppm added exceeds CEIL (R294). -/
def commandOver (s : State) (o : Nat) : Bool :=
  decide (outCeil s o ≠ 0) && (Frac.int (outCeil s o)).lt ((checkedFreq s o).mul (.of 1000010 1000000))

/-- A trip of the limiter (R294), by the command check (0) or the measured one (1), with the frequency found in mHz. -/
def limitTrip (o freq check : Nat) (s : State) : State :=
  let s := { s with syn := { s.syn with passTicks := s.syn.passTicks.setIfInBounds o 0 } }
  if s.on (F.SYN_OUT_STAT_LIMIT o) then s
  else faultSend .outLimit o (freq % 2 ^ 32) (freq / 2 ^ 32 % 256 + check * 2 ^ 31) 0
    (irqSet 6 A.SYN_IRQ_STAT 10 (s.set (F.SYN_OUT_STAT_LIMIT o) 1))

/-- The command check of one output, on the edge on which a value takes effect. -/
def limitCheck (s : State) (o : Fin 12) : State :=
  if commandOver s o then limitTrip o ((checkedFreq s o).floor.toNat) 0 s else s

/-- A new ratio, ramp step, steering value or period has reached Synthesis: the command check of every output (R294), and the CLAMP bits. -/
def synthChanged (s : State) : State := allOuts.foldl limitCheck (allSynths.foldl showSynth s)

/-- OUTPUT_LIMIT_MEASURE: a 1 ms window ends with the frequency that it measured (R294). -/
def execOutputLimitMeasure (out : Fin 12) (mhz : BitVec 40) (s : State) : Host.Outcome State Fault Refusal :=
  .next (let f := mhz.toNat
    let s := s.set64 (A.SYN_OUT_FMEAS_W0 out) f
    let above := decide (outCeil s out ≠ 0) && (Frac.of (outCeil s out * 1000050) 1000000).lt (.int f)
    let m := s.syn.overMeasured
    let s := { s with syn := { s.syn with overMeasured := if above then m ||| 2 ^ out.val else m &&& (0xFFF ^^^ 2 ^ out.val) } }
    if above then limitTrip out f 1 s else s)

/-- LIMIT_CLEAR: a write of LIMCLR releases a trip; HOSTMUTE takes the value written with it (R294). -/
def outCtlWrite (o : Nat) (value : Word) (s : State) : State :=
  let s := regWrite (A.SYN_OUT_CTL o) value s
  if value.getLsbD 1 then s.set (F.SYN_OUT_STAT_LIMIT o) 0 else s

/-- LIMIT_AUTO_RELEASE: with AUTOREL = 1, both checks have passed for 100 ms: at more than 100 ticks in a row, since the first may follow the trip at once
(R7, R294). -/
def execLimitAutoRelease (out : Fin 12) (s : State) : Host.Outcome State Fault Refusal :=
  .next (if s.on (F.SYN_OUT_CFG_AUTOREL out) && s.on (F.SYN_OUT_STAT_LIMIT out) && decide (100 < s.syn.passTicks[out]) then
      s.set (F.SYN_OUT_STAT_LIMIT out) 0
    else s)

/-- One tick of the limiters: both checks of a tripped output pass, or do not (R294). -/
def limitTick (s : State) : State :=
  let s := synthChanged s
  allOuts.foldl (fun (s : State) (o : Fin 12) =>
    let ok := !(commandOver s o) && !(s.syn.overMeasured.testBit o)
    let n := if s.on (F.SYN_OUT_STAT_LIMIT o) && ok then s.syn.passTicks[o] + 1 else 0
    { s with syn := { s.syn with passTicks := s.syn.passTicks.set o n } }) s

/-! ## Lock and relock (R282, R285) -/

/-- The ports that a synthesizer's reference serves (R35). -/
def synPorts (n : Fin 6) : List (Fin 7) := if n.val = 0 then [0, 1] else if n.val = 1 then [2, 3] else []

/-- The links of the ports that SYN1 or SYN2 serves go down (R282, R285). -/
def synPortsDown (n : Fin 6) (s : State) : State :=
  (synPorts n).foldl (fun (s : State) (p : Fin 7) => if linkUp s p then linkDown p s else s) s

/-- A synthesizer is no longer locked: LOCKED and SYNLOCK fall. -/
def synUnlock (n : Fin 6) (s : State) : State :=
  let s := (s.set (F.SYN_SYN_STAT_LOCKED (n.val + 1)) 0).clrBit A.SYN_STAT (n.val + 1)
  synPortsDown n (unalign n s)

/-- SYN_LOL: a loss of lock outside HOLD; the synthesizer relocks (R282). -/
def execSynLol (n : Fin 6) (s : State) : Host.Outcome State Fault Refusal :=
  .next (let i := n.val + 1
    if s.on (F.SYN_SYN_STAT_LOCKED i) && !(s.on (F.SYN_SYN_STAT_HOLD i)) then
      let s := pmcEvent 11 0x03 i 1 (irqSet 6 A.SYN_IRQ_STAT (3 + i) (s.addSat (F.SYN_SYN_LOL_CNT_COUNT i) 1))
      (synUnlock n (faultSend .synLol i 0 0 0 s)).set (F.SYN_SYN_STAT_SETTLING i) 1
    else s)

/-- SYN_LOCK: an enabled synthesizer locks to the root: the lock centre is its ratio, and SETTLE starts (R282, R283, R285). -/
def execSynLock (n : Fin 6) (s : State) : Host.Outcome State Fault Refusal :=
  .next (let i := n.val + 1
    if s.on (F.SYN_SYN_CFG_EN i) && !(s.flt.isoSyns.testBit i) && s.on F.SYN_STAT_SYN0LOCK && !(s.on F.SYN_STAT_FROZEN)
        && !(s.on (F.SYN_SYN_STAT_LOCKED i)) then
      let x := s.synth n
      let s := s.setSynth n { x with centre := some x.ratio, lockedAt := s.now }
      ((s.set (F.SYN_SYN_STAT_LOCKED i) 1).set (F.SYN_SYN_STAT_SETTLING i) 1).setBit A.SYN_STAT i
    else s)

/-- SYN_SETTLE_DONE: SETTLE has passed since the lock, and the outputs unmute (R285). -/
def execSynSettleDone (n : Fin 6) (s : State) : Host.Outcome State Fault Refusal :=
  .next (let i := n.val + 1
    if s.on (F.SYN_SYN_STAT_LOCKED i) && s.on (F.SYN_SYN_STAT_SETTLING i)
        && decide ((s.synth n).lockedAt + s.get (F.SYN_SYN_CFG_SETTLE i) * 1200 ≤ s.now) then
      s.set (F.SYN_SYN_STAT_SETTLING i) 0
    else s)

/-- A relock change: the outputs mute before the oscillator moves to the ratio of the registers; any ramp and its offset end (R285). In HOLD it waits for the
restart edge (R277). -/
def relock (n : Fin 6) (s : State) : State :=
  let i := n.val + 1
  if s.on F.SYN_STAT_FROZEN then s.setSynth n { s.synth n with relockDue := true }
  else
    let r := ratioInUse (s.get (F.SYN_SYN_NUM_VALUE i)) (s.get (F.SYN_SYN_DEN_VALUE i))
    let x : Synth := { s.synth n with
      num := r.1, den := r.2.1, offset := .zero, profile := [], seg := 0, goNext := [], stopNext := false, relockDue := false,
      bends := [] }
    let s := s.setSynth n x
    let s := ((s.set (F.SYN_SYN_STAT_RAMP i) 0).set (F.SYN_SYN_STAT_SEG i) 0).set (F.SYN_SYN_STAT_SETTLING i) (s.get (F.SYN_SYN_CFG_EN i))
    synthChanged (synUnlock n s)

/-- The DIV that a load leaves in the register: within the range of R288 for the nominal FS, with CLAMP while that load was clamped. -/
def divLoad (o : Nat) (s : State) : State :=
  let e := effDiv s o
  let m := s.syn.divClamped
  let s := { s with syn := { s.syn with divClamped := if e.2 then m ||| 2 ^ o else m &&& (0xFFF ^^^ 2 ^ o) } }
  s.set (F.SYN_OUT_DIV_DIV o) e.1

/-! ## Steering (R281, R286) -/

/-- SYN_STEER_APPLY: the words of a channel that are due, 24 us after they were produced, reach the synthesizers, not in HOLD (R115, R277, R281). Stakeout keeps the changes of CH1,
which steers SYN1 and SYN2. -/
def execSynSteerApply (c : Fin 8) (s : State) : Host.Outcome State Fault Refusal :=
  .next (let l := (s.syn.words.get c).getD []
    let due := l.filter (fun x => dclkRuns s && decide (0 ≤ instDiff s.datum x.1))
    match due.getLast? with
    | some x =>
      let rest := l.filter (fun x => decide (instDiff s.datum x.1 < 0))
      let w := if rest = [] then s.syn.words.del c else s.syn.words.put c rest
      let a := if x.2 = 0 then s.syn.applied.del c else s.syn.applied.put c x.2
      let l := s.syn.wordSteps ++ (if c.val = 1 then [⟨s.datum, (s.syn.applied.get 1).getD 0, x.2⟩] else [])
      synthChanged { s with syn := { s.syn with words := w, applied := a, wordSteps := l.drop (l.length - 64) } }
    | none => s)

/-- DATUM_RATE_APPLY: the oldest announced change takes effect, 24 us after its announcement (R115). Datum-steered synthesizers follow on the same
edge (R281). -/
def execDatumRateApply (s : State) : Host.Outcome State Fault Refusal :=
  .next (match s.dtm.announced with
    | r :: rest =>
      if dclkRuns s = true ∧ 0 ≤ instDiff s.datum r.due then
        synthChanged (applyRate r.base (if s.dtm.slewLeft = 0 then 0 else r.slew) { s with dtm := { s.dtm with announced := rest } }) else s
    | [] => s)

/-- A change of STEER takes effect on the tick, and on none in HOLD (R277); the step that it causes goes through the ramp generator (R286). -/
def steerTick (s : State) (n : Fin 6) : State :=
  let i := n.val + 1
  let new := if n.val < 2 then 1 else s.get (F.SYN_SYN_CFG_STEER i)
  let x := s.synth n
  if new = x.steer ∨ s.on F.SYN_STAT_FROZEN = true then s
  else
    let step := Frac.of (steerWord s x.steer - steerWord s new) (2 ^ 48)
    unalign n (s.setSynth n { x with steer := new, adj := (x.adjAt' s.trn.coarse).add step, adjAt := s.trn.coarse })

/-! ## Ramps (R283, R286) -/

/-- The profile of the segment registers: targets as offsets from the ratio in use, with slopes (R283). -/
def readProfile (s : State) (n : Fin 6) : List (Frac × Nat) :=
  let i := n.val + 1
  let den := s.get (F.SYN_SYN_DEN_VALUE i)
  (List.range (s.get (F.SYN_SYN_RAMPCTL_NSEG i))).map (fun k =>
    (((Frac.of (s.get (F.SYN_SYN_SEG_NUM_NUM i k)) den).div (s.synth n).ratio).sub (.int 1), s.get (F.SYN_SYN_SEG_SLOPE_SLOPE i k)))

/-- A ramp runs, or one that GO accepted waits for its tick. -/
def ramping (s : State) (n : Fin 6) : Bool := s.on (F.SYN_SYN_STAT_RAMP (n.val + 1)) || decide ((s.synth n).goNext ≠ [])

/-- A target lies more than 1,000 ppm from the lock centre (R283). Before the first lock the centre is the ratio in use. -/
def farTarget (x : Synth) (t : Frac) : Bool :=
  let c := x.centre.getD x.ratio
  (Frac.of 1 1000).lt ((((x.ratio.mul ((Frac.int 1).add t)).div c).sub (.int 1)).abs)

/-- A write of SYN_SYNn_RAMPCTL: NSEG is loaded, GO checks the profile and starts it on the next tick, STOP ends a ramp there (R283, R286). -/
def rampWrite (n : Fin 6) (value : Word) (s : State) : State :=
  let i := n.val + 1
  let s := regWrite (A.SYN_SYN_RAMPCTL i) value s
  let s := if value.getLsbD 31 then
      (if ramping s n then s.strike (F.SYN_SYN_STAT_RAMPBUSY i)
        else
          let p := readProfile s n
          if p.any (fun e => farTarget (s.synth n) e.1) then s.strike (F.SYN_SYN_STAT_RAMPERR i)
          else s.setSynth n { s.synth n with goNext := p })
    else s
  if value.getLsbD 30 then s.setSynth n { s.synth n with stopNext := true } else s

/-- How long after a tick a change of a ramp reaches the frequency, in coarse counts: SYN1 and SYN2 announce it to Stakeout on the tick, 24 us before
(R115; assumption log 80). -/
def rampLead (n : Fin 6) : Nat := if n.val < 2 then 28800 else 0

/-- The part of a profile that runs up to a count, from a count and an offset on: what a STOP leaves of it (R286). -/
def profileUntil (stop : Nat) : Frac → Frac → List (Frac × Nat) → List (Frac × Nat)
  | _, _, [] => []
  | c, o, (t, slope) :: r =>
    let c' := c.add (((t.sub o).abs.mul (.int (1000000000 * msCounts))).div (.int slope))
    if c'.lt (.int stop) then (t, slope) :: profileUntil stop c' t r
    else
      let step := (((Frac.int stop).sub c).mul (.int slope)).div (.int (1000000000 * msCounts))
      let step := if step.num < 0 then Frac.zero else step
      [(if t.lt o then o.sub step else o.add step, slope)]

/-- Keep the point at which the running segment started, for the grid points behind it (R115). -/
def Synth.bend (x : Synth) : List (Nat × Frac) := ((x.segAt, x.offset) :: x.bends).take 32

/-- The tick of a synthesizer's ramp: STOP keeps the frequency reached, GO starts segment 0 (R283, R286). Nothing of it happens in HOLD (R277). -/
def rampTick (s : State) (n : Fin 6) : State :=
  let i := n.val + 1
  if s.on F.SYN_STAT_FROZEN then s
  else
    let x := s.synth n
    let s := if x.stopNext then
        let y : Synth := if rampLead n = 0 then { x with offset := x.offsetAt s.trn.coarse, profile := [], segAt := s.trn.coarse }
          else { x with profile := profileUntil (s.trn.coarse + rampLead n) (.int x.segAt) x.offset x.profile }
        let y : Synth := { y with seg := 0, stopNext := false, goNext := [] }
        ((s.setSynth n y).set (F.SYN_SYN_STAT_RAMP i) 0).set (F.SYN_SYN_STAT_SEG i) 0
      else s
    let x := s.synth n
    if x.goNext = [] then s
    else
      let y : Synth := { x with
        offset := x.offsetAt s.trn.coarse, profile := x.goNext, seg := 0, segAt := s.trn.coarse + rampLead n, goNext := [], bends := x.bend }
      unalign n (((s.setSynth n y).set (F.SYN_SYN_STAT_RAMP i) 1).set (F.SYN_SYN_STAT_SEG i) 0)

/-- RAMP_SEGMENT_DONE: the segment reaches its target: the next starts, or the ramp ends with its last target in force (R283). What a STOP left of a ramp ends
with neither event nor interrupt (R286). -/
def execRampSegmentDone (n : Fin 6) (s : State) : Host.Outcome State Fault Refusal :=
  .next (let i := n.val + 1
    let x := s.synth n
    match x.profile with
    | (t, _) :: rest =>
      if s.on F.SYN_STAT_FROZEN = false ∧ x.offsetAt s.trn.coarse = t then
        let y : Synth := { x with
          offset := t, profile := rest, seg := if rest = [] then 0 else x.seg + 1, segAt := s.trn.coarse, bends := x.bend }
        let runs := s.on (F.SYN_SYN_STAT_RAMP i)
        let s := s.setSynth n y
        let s := if runs then pmcEvent 11 0x05 i 1 (s.set (F.SYN_SYN_STAT_SEG i) y.seg) else s
        synthChanged (if rest = [] ∧ runs = true then irqSet 6 A.SYN_IRQ_STAT (16 + i) (s.set (F.SYN_SYN_STAT_RAMP i) 0) else s)
      else s
    | [] => s)

/-- SYNC_IN_EDGE: a sampled rising edge of SYNC_IN resets the dividers of CLOCK outputs with SYNCEN; the first edge leaves 7 DCLK plus LAT - 10,000 ps after
the sampling edge (R291). An edge in a freeze is not sampled. -/
def execSyncInEdge (s : State) : Host.Outcome State Fault Refusal :=
  .next (if dclkRuns s then
      allOuts.foldl (fun (s : State) (o : Fin 12) =>
        if s.on (F.SYN_OUT_CFG_SYNCEN o) && !(s.on (F.SYN_OUT_CFG_MODE o)) then
          (s.set (F.SYN_OUT_STAT_ALIGNED o) 1).emit (.restart o ((roundDiv (7 * 2500) 3) + outLat s o - 10000))
        else s) s
    else s)

/-- A ramp or the step of a change of STEER moves a frequency on this edge (R283, R286). -/
def rampMoves (s : State) : Bool :=
  allSynths.any (fun n => let x := s.synth n
    (x.profile ≠ [] : Bool) || decide ((x.adjAt' s.trn.coarse).num ≠ 0))

/-- One DCLK edge of Synthesis: each step of a ramp passes the limiters before it reaches the synthesizer (R294). -/
def synthEdge (s : State) : State := if rampMoves s then synthChanged s else s

/-- One tick of Synthesis: changes of STEER, ramps, limiters. -/
def synthTick (s : State) : State := limitTick (allSynths.foldl rampTick (allSynths.foldl steerTick s))

end Sys2Proof.Machine
end

