-- ==== Sys2Proof/Machine/Compare.lean ====
section
/-! DEFINITION. The Datum compare units, and the edges that they place on outputs (R46, R71, R72, R289-R291, R454). -/
namespace Sys2Proof.Machine

/-! ## Higher words that wait for their commit (R12) -/

/-- The pending copies of a path. -/
def State.copies (s : State) (p : Path) : Map Word := match p with | .mw0 => s.copyMw0 | .mspi => s.copyMspi

/-- Replace the pending copies of a path. -/
def State.setCopies (s : State) (p : Path) (m : Map Word) : State :=
  match p with | .mw0 => { s with copyMw0 := m } | .mspi => { s with copyMspi := m }

/-- A higher word of a commit: the pending copy where the path has written one, and the committed word otherwise (R12). -/
def State.copyOr (s : State) (p : Path) (a : Nat) : Word := ((s.copies p).get a).getD (s.rd a)

/-- Empty the pending copies of a path for the words of one value. -/
def dropCopies (p : Path) (as : List Nat) (s : State) : State := s.setCopies p (as.foldl (fun m a => m.del a) (s.copies p))

/-! ## Targets -/

/-- A target or another Datum value in the four words of R43. -/
def wordsInstant (w0 w1 w2 w3 : Word) : Instant :=
  ((w2.toNat + 2 ^ 32 * (w3.toNat % 2 ^ 16)) * 1000000000 + w1.toNat % 2 ^ 30) * 65536 + w0.toNat % 2 ^ 16

/-- The output timescale: the Datum plus A (R311). -/
def outTime (s : State) : Instant := instAdd s.datum (s.dvl.align.mul (.of 65536 1000)).floor

/-- The target of a compare unit. -/
def cmpTarget (s : State) (n : Nat) : Instant := s.getDatum (A.DTM_CMP_TGT_W0 n)

/-- The target of a unit is reached: its signed difference is zero or positive (R71). -/
def cmpReached (s : State) (n : Nat) : Bool := decide (0 ≤ instDiff (outTime s) (cmpTarget s n))

/-- Mark the armed units whose target is already reached: their next firing is late (R50, R54, R72). -/
def markLate (s : State) : State :=
  let m := (List.range 16).foldl (fun m n => if s.on (F.DTM_CMP_CTL_ARMED n) && cmpReached s n then m ||| 2 ^ n else m) s.dtm.cmpLate
  { s with dtm := { s.dtm with cmpLate := m } }

/-- Mark or clear the lateness of one unit. -/
def setLate (n : Nat) (b : Bool) (s : State) : State :=
  let m := s.dtm.cmpLate
  { s with dtm := { s.dtm with cmpLate := if b then m ||| 2 ^ n else m &&& (0xFFFF ^^^ 2 ^ n) } }

/-- The Dvorgo link owns CMP15 in a pair (R454). -/
def cmpOwned (s : State) (n : Nat) : Bool := decide (n = 15) && inPair s

/-- What a commit loads: the target and the period, unless the NS of either is out of range (R46, R72); a period below 1 us is raised. The unit is armed when EN is 1. -/
def cmpLoad (p : Path) (n : Nat) (w0 : Word) (s : State) : State :=
  let t := A.DTM_CMP_TGT_W0 n
  let q := A.DTM_CMP_PER_W0 n
  let t1 := s.copyOr p (t + 4)
  let t2 := s.copyOr p (t + 8)
  let t3 := s.copyOr p (t + 12)
  let q0 := s.copyOr p q
  let q1 := s.copyOr p (q + 4)
  let q2 := s.copyOr p (q + 8)
  let s := dropCopies p [t + 4, t + 8, t + 12, q, q + 4, q + 8] s
  if 1000000000 ≤ t1.toNat % 2 ^ 30 ∨ 1000000000 ≤ q1.toNat % 2 ^ 30 then s.strike (F.DTM_CMP_CTL_BADVAL n)
  else
    let per := wordsInstant q0 q1 (q2 &&& 0xFFFF) 0
    let short := decide (0 < per ∧ per < 1000 * 65536)
    let s := s.setDatum t (wordsInstant w0 t1 t2 t3)
    let s := if short then ((s.wr q 0).wr (q + 4) 1000).wr (q + 8) 0
      else ((s.wr q (q0 &&& 0xFFFF)).wr (q + 4) (q1 &&& 0x3FFFFFFF)).wr (q + 8) (q2 &&& 0xFFFF)
    let s := if short then s.strike (F.DTM_CMP_CTL_PERCLAMP n) else s
    let s := if s.on (F.DTM_CMP_CTL_EN n) then s.set (F.DTM_CMP_CTL_ARMED n) 1 else s
    synthChanged (setLate n (cmpReached s n) s)

/-- A write of DTM_CMPn_CTL: EN = 0 disarms the unit at once (R71). -/
def cmpCtlWrite (n : Nat) (v : Word) (s : State) : State :=
  if cmpOwned s n then s
  else
    let s := regWrite (A.DTM_CMP_CTL n) v s
    synthChanged (if s.on (F.DTM_CMP_CTL_EN n) then s else s.set (F.DTM_CMP_CTL_ARMED n) 0)

/-! ## Firing -/

/-- The pulse width in whole DCLK, rounded to nearest, and 0 for a CLOCK output (R289). -/
def pulseWidth (s : State) (o : Nat) : Nat :=
  if s.on (F.SYN_OUT_CFG_MODE o) then (s.get (F.SYN_OUT_PW_PW o) * 12 + 5) / 10 else 0

/-- The edge of a firing, less the delay that every edge of an output has, in units of 2^-64 ns / 6 of coarse time: E minus the remainder (R289). -/
def fireAt (s : State) (r : Nat) : Int := (s.trn.coarse * (5 * 2 ^ 64) : Nat) - (6 * r : Nat)

/-- A PULSE output emits a pulse, or goes on with the one that is high: PW counts from the new edge (R289). -/
def firePulse (o : Nat) (target : Instant) (r : Nat) (s : State) : State :=
  let w := pulseWidth s o
  let at_ := fireAt s r
  let again := decide (0 < w ∧ at_ < s.syn.pulseEnd.toList.getD o 0)
  { s with syn := { s.syn with pulseEnd := s.syn.pulseEnd.setIfInBounds o (at_ + (w * (5 * 2 ^ 64) : Nat)) } }.emit (.pulse o target r w again)

/-- A firing reaches an output: a late one is counted and gives no edge under LATEDROP (R290); otherwise a PULSE output emits its pulse and the divider of a
CLOCK output is reset and aligned (R289, R291). Only a driving stage emits an edge; a pulse once begun has its width, muted or not (R292, R293). -/
def fireOutput (o : Nat) (late : Bool) (target : Instant) (r : Nat) (s : State) : State :=
  let s := if late then s.addSat ⟨A.SYN_OUT_LATE_CNT o, 0, 32⟩ 1 else s
  if late && s.on (F.SYN_OUT_CFG_LATEDROP o) then s
  else
    let s := if s.on (F.SYN_OUT_CFG_MODE o) then s else s.set (F.SYN_OUT_STAT_ALIGNED o) 1
    if outState s o = 2 then firePulse o target r s else s

/-- The remainder of a firing: the output timescale minus the target, in units of 2^-64 ns (R71). -/
def cmpRemainder (s : State) (n : Nat) : Nat :=
  let a := (s.dvl.align.mul (.of (2 ^ 64) 1000)).floor
  (((s.dtm.vote : Int) + a - (cmpTarget s n * 2 ^ 48 : Nat)) % (counterMod : Int)).toNat

/-- A firing of a compare unit (R71, R72): a late one passes over every target that the Datum has passed. -/
def cmpFire (n : Nat) (s : State) : State :=
  let late := s.dtm.cmpLate.testBit n
  let target := cmpTarget s n
  let r := cmpRemainder s n
  let per := cmpPeriod s n
  let s := if late then s.strike (F.DTM_CMP_CTL_LATE n) else s
  let past := (instDiff (outTime s) target).toNat
  let s := setLate n false s
  let s := if per = 0 then s.set (F.DTM_CMP_CTL_ARMED n) 0
    else s.setDatum (A.DTM_CMP_TGT_W0 n) (instAdd target (if late then per * (past / per + 1) else per))
  let s := pmcEvent 8 0x04 n 1 s
  let s := if s.on (F.DTM_CMP_CTL_IRQ n) then irqSet 2 A.DTM_IRQ_STAT (16 + n) s else s
  let s := if s.on (F.DTM_CMP_CTL_FBK n) then recordUnit 0x070C n 0 0 0 0 s else s
  if s.on (F.DTM_CMP_CTL_OUTEN n) && decide (s.get (F.DTM_CMP_CTL_OUTSEL n) < 12) then fireOutput (s.get (F.DTM_CMP_CTL_OUTSEL n)) late target r s
  else s

/-- A unit fires on this edge: it is armed, DCLK runs, and its target is reached (R71). -/
def cmpDue (s : State) (n : Nat) : Bool := s.on (F.DTM_CMP_CTL_ARMED n) && dclkRuns s && cmpReached s n

/-- The commit of a compare unit: the write of TGT_W0 (R72). One on the edge of a firing applies from the following edge, so that the firing uses the old target. -/
def cmpCommit (p : Path) (n : Nat) (w0 : Word) (s : State) : State :=
  if cmpOwned s n then s else cmpLoad p n w0 (if cmpDue s n then cmpFire n s else s)

/-- CMP_FIRED: an armed unit fires on the first DCLK edge at which its target is reached (R71). Before that, and while DCLK is stopped, it does not. -/
def execCmpFired (n : Fin 16) (s : State) : Host.Outcome State Fault Refusal :=
  .next (if cmpDue s n then cmpFire n s else s)

/-- CMP15 in a pair: a PPS on the whole seconds of the output timescale, less LAT of the output that feeds the partner (R454). -/
def xppsTick (s : State) : State :=
  if inPair s && dclkRuns s then
    let o := s.get F.DVL_CFG_XPPSOUT
    let lat := (Frac.of (outLat s o * 65536) 1000).round
    let t := cmpTarget s 15
    if s.on (F.DTM_CMP_CTL_ARMED 15) && decide (s.get (F.DTM_CMP_CTL_OUTSEL 15) = o) && decide (instAdd t lat % secUnits = 0) then s
    else
      let next := (instAdd (outTime s) lat / secUnits + 1) * secUnits
      let s := (((s.wr (A.DTM_CMP_CTL 15) 0).set (F.DTM_CMP_CTL_EN 15) 1).set (F.DTM_CMP_CTL_ARMED 15) 1).set (F.DTM_CMP_CTL_OUTEN 15) 1
      let s := (s.set (F.DTM_CMP_CTL_OUTSEL 15) o).setDatum (A.DTM_CMP_TGT_W0 15) (instAdd next (-lat))
      setLate 15 false (((s.wr (A.DTM_CMP_PER_W0 15) 0).wr (A.DTM_CMP_PER_W0 15 + 4) 0).wr (A.DTM_CMP_PER_W0 15 + 8) 1)
  else s

end Sys2Proof.Machine
end

