-- ==== Sys2Proof/Machine/Freeze.lean ====
section
/-! DEFINITION. The root and auxiliary synthesizers, freeze and restart of the clock domains, OSCIN, and the Datum's load and step (R34, R50-R55, R226,
R271-R279). -/
namespace Sys2Proof.Machine

/-- A fault event that carries a Datum value of its own. -/
def faultSendAt (t : Instant) (code : FaultCode) (source : Nat) (s : State) : State :=
  { s with flt := { s.flt with queue := s.flt.queue ++ [⟨code, source, t, 0, 0, 0⟩] } }

/-- A fault that is lasting on its first occurrence, of class `c` (R382): in a pair the hand-over takes effect on the detection edge (R314). -/
def lastingFault (code : FaultCode) (c : Nat) (s : State) : State :=
  let s := faultSend code 0 0 0 0 s
  if inPair s && decide (s.mode ≠ mSafe) && decide (s.mode ≠ mMaint) then handOver c s else s

/-! ## The Datum's load and step -/

/-- Load the Datum from the Monument counter plus the last DTM_MONDIFF (R52, R54, R55). -/
def loadMonument (s : State) : State := { s with dtm := s.dtm.load s.monumentValue }

/-- DTM_NOVOTE: all three copies differ; they are reloaded from the Monument counter, and the fault is lasting (R52, R382). -/
def execDtmNovote (s : State) : Host.Outcome State Fault Refusal := .next (lastingFault .dtmNovote 4 (loadMonument s))

/-- A window of exchanges after a step: its offsets move by the step. -/
def Domain.stepped (x : Domain) (d : Int) : Domain := { x with est := x.est - d, window := x.window.map (fun e => (e.1, e.2 - d)) }

/-- A rate step of the past on the scale after a step of the Datum. -/
def RateStep.shift (d : Int) (r : RateStep) : RateStep := { r with at_ := instAdd r.at_ d }

/-- Rates and steering words keep their distance from the Datum over a step: those announced, and those that a grid point behind an older anchor needs (R115). -/
def shiftRates (d : Int) (s : State) : State :=
  { s with dtm := { s.dtm with announced := s.dtm.announced.map (fun r => { r with due := instAdd r.due d }), steps := s.dtm.steps.map (·.shift d) },
           syn := { s.syn with words := s.syn.words.map (fun e => (e.1, e.2.map (fun x => (instAdd x.1 d, x.2)))),
                               wordSteps := s.syn.wordSteps.map (·.shift d) } }

/-- Grid models and changes of compensation on the scale after a step (R50, R111, R137). -/
def shiftGrid (d : Int) (s : State) : State :=
  { s with
    sko := s.sko.map (fun q => { q with model := { q.model with anchor := ((q.model.anchor : Int) + d * 2 ^ 16).toNat } })
    stk := s.stk.map (fun u => { u with changes := u.changes.map (fun c => { c with edge := instAdd c.edge d }) }) }

/-- The edges of the service on the scale after a step: live changes, service values, mode entries and announcements (R29, R42, R81, R88). -/
def shiftService (d : Int) (s : State) : State :=
  { s with svp := { s.svp with
    history := s.svp.history.map (fun e => (instAdd e.1 d, e.2)), valuesLog := s.svp.valuesLog.map (fun e => (instAdd e.1 d, e.2))
    leaps := s.svp.leaps.map (fun e => (instAdd e.1 d, e.2))
    serveEdge := instAdd s.svp.serveEdge d, answerEdge := instAdd s.svp.answerEdge d
    series := s.svp.series.map (fun x => { x with due := instAdd x.due d }) } }

/-- What a port waits for on the scale after a step: pauses, flow control, pairs, backoff, the end of a frame (R202-R207). -/
def shiftPorts (d : Int) (s : State) : State :=
  { s with prt := { s.prt with
    pauses := s.prt.pauses.map (fun x => { x with from_ := instAdd x.from_ d, to_ := instAdd x.to_ d })
    onsets := s.prt.onsets.map (fun x => { x with sentAt := instAdd x.sentAt d })
    txNow := s.prt.txNow.map (fun x => x.map (fun y => (y.1, instAdd y.2 d)))
    pairs := s.prt.pairs.map (fun x => { hold := x.hold.map (instAdd · d), lastSwitch := x.lastSwitch.map (instAdd · d),
                                         primaryUp := x.primaryUp.map (instAdd · d) })
    field := s.prt.field.map (fun x => { x with backoff := instAdd x.backoff d }) } }

/-- What Transit, Traverse and the Dvorgo link keep of Datum values on the scale after a step: ends of holdoffs, pulses and their labels, the partner's last message
(R219, R241, R243, R309). -/
def shiftInputs (d : Int) (s : State) : State :=
  { s with trn := { s.trn with chans := s.trn.chans.map (fun (c : TrnChan) => { c with holdEnd := c.holdEnd.map (instAdd · d) }) }
           trv := { s.trv with inputs := s.trv.inputs.map (·.stepped d) }
           dvl := { s.dvl with hbIn := s.dvl.hbIn.map (fun h => (h.1, instAdd h.2 d)) } }

/-- Instants that wait or that are kept move with the Datum over a step: a step is no passage of time (R50; assumption log 81). -/
def shiftWaiting (d : Int) (s : State) : State := shiftInputs d (shiftPorts d (shiftService d (shiftGrid d (shiftRates d s))))

/-- A step of the Datum by `d` units of 2^-16 ns on one DCLK edge (R50): tickets discarded, passed targets late, alignment lost (R281), the first record of
each Transit channel marked (R217), and the record of R455. -/
def datumStep (d : Int) (s : State) : State :=
  let s := { s with dtm := s.dtm.load (counterAdd s.dtm.vote (d * (2 ^ 48 : Int))) }
  let s := { s with dtm := { s.dtm with fs := s.dtm.fs.stepped d, bs := s.dtm.bs.stepped d } }
  let s := transitStep (unalignDatum (markLate (freezeAll (shiftWaiting d s))))
  let m := d.natAbs
  record 0x0701 (instFrac m) (instNs m) (instSec m) (instSec m / 2 ^ 32 % 2 ^ 16 + (if d < 0 then 2 ^ 31 else 0)) s

/-! ## Freeze and restart (R275-R279) -/

/-- Tickets in SENDING end with the freeze (R124). -/
def sendingTicket (t : Ticket) : Bool := decide (t.state = .sending)

/-- Do something on every main port. -/
def eachMain (f : Fin 4 → State → State) (s : State) : State := f 3 (f 2 (f 1 (f 0 s)))

/-- The declaration of a SYN0 loss of lock (R276): the clocks stop, MCLK goes to SYN_AUX, the synthesizers enter HOLD, frames on the wire end, and the
DRAM goes to self-refresh with the rings paused (R320). -/
def freeze (s : State) : State :=
  let s := (s.set F.SYN_STAT_SYN0LOCK 0).set F.SYN_STAT_FROZEN 1
  let s := if s.on F.SYN_STAT_AUXLOCK then s.set F.SYN_STAT_MCLKAUX 1 else s
  let s := { s with syn := { s.syn with frozenAt := s.now, frozenDatum := s.datum, lasting := false } }
  let s := pmcEvent 11 0x03 0 1 (irqSet 6 A.SYN_IRQ_STAT 0 s)
  let s := allSynths.foldl (fun s n => unalign n (s.set (F.SYN_SYN_STAT_HOLD (n.val + 1)) 1)) s
  let s := eachMain (fun p s => freezeTickets p sendingTicket s) s
  let s := s.set F.HMI_MEM_STAT_SELFREF 1
  { s with hmi := { s.hmi with dmaPaused := some (s.hmi.dmaPaused.getD s.now) } }

/-- SYN0_LOSS_OF_LOCK (R276). -/
def execSyn0LossOfLock (s : State) : Host.Outcome State Fault Refusal :=
  .next (if s.on F.SYN_STAT_SYN0LOCK then freeze s else s)

/-- 1 ms in DCLK periods (R278). -/
def msPeriods : Nat := 1200000

/-- The loss becomes lasting (R278). -/
def declareLasting (s : State) : State :=
  lastingFault .syn0Lasting 5 (irqSet 6 A.SYN_IRQ_STAT 2 { s with syn := { s.syn with lasting := true } })

/-- SYN0_LASTING: SYN0 is still unlocked 1 ms after the declaration (R278). -/
def execSyn0Lasting (s : State) : Host.Outcome State Fault Refusal :=
  .next (if s.on F.SYN_STAT_FROZEN = true ∧ s.syn.lasting = false ∧ s.syn.frozenAt + msPeriods ≤ s.now then declareLasting s else s)

/-- A ticket that the restart discards: its departure lies before the restart edge plus 2 us (R124). -/
def staleTicket (s : State) (t : Ticket) : Bool := outstanding t && decide (instDiff t.dep (instAdd s.datum (nsUnits 2000)) < 0)

/-- Stakeout of a port at the restart edge (R124): the model starts anew, and its record is invalid until the first refresh. -/
def portThaw (p : Fin 4) (s : State) : State :=
  let s := freezeTickets p (staleTicket s) s
  let s := s.setPort p { s.port p with suspended := true, checkSurvivors := true, model := { (s.port p).model with valid := false } }
  s.set (F.SKO_P_PERIOD_W1_VALID p) 0

/-- What counts DCLK periods of the stopped clocks goes on from its held value: the SIV lanes, the sessions' timers, the operations on the cores, and completions that are under way
(R33, R157, R176, R182). -/
def shiftHeld (d : Nat) (s : State) : State :=
  { s with
    svp := { s.svp with lanes := s.svp.lanes.map (fun (l : SivLane) => { l with free := l.free + d }), keUntil := s.svp.keUntil + d }
    ke := { s.ke with sessions := s.ke.sessions.map (fun (x : KeSession) => { x with since := x.since + d }) }
    pke := { s.pke with cores := s.pke.cores.map (fun (c : Option PkeOp) => c.map (fun o => { o with start := o.start + d })) }
    hmi := { s.hmi with rings := s.hmi.rings.map (fun (e : Nat × Ring) =>
      (e.1, { e.2 with cmds := e.2.cmds.map (fun (c : HostCmd) => { c with ready := c.ready + d }) })) } }

/-- Grid models start anew at the restart, so that no rate of the time before it is needed (R115, R124). -/
def forgetRates (s : State) : State :=
  { s with dtm := { s.dtm with steps := [] }
           syn := { s.syn with wordSteps := [], synths := s.syn.synths.map (fun (x : Synth) => { x with bends := [] }) } }

/-- The restart edge (R276): SYN0 is locked again, the Datum is loaded from the Monument counter (R54), and every block does what it does there. -/
def clockRestart (s : State) : State :=
  let s := if s.syn.lasting = false ∧ s.syn.frozenAt + msPeriods < s.now then declareLasting s else s
  let dur := (s.now - s.syn.frozenAt) / 12
  let dur := if dur < 2 ^ 32 then dur else 2 ^ 32 - 1
  let s := ((s.set F.SYN_STAT_SYN0LOCK 1).set F.SYN_STAT_FROZEN 0).set F.SYN_STAT_MCLKAUX 0
  let s := forgetRates (shiftHeld (s.now - s.syn.frozenAt) s)
  let s := markLate (loadMonument { s with syn := { s.syn with mclkStopped := false } })
  let s := if s.dtm.under = 4 ∨ s.dtm.under = 5 then { s with bm := { s.bm with freezes := s.bm.freezes + 1 } } else s
  let s := { s with bm := { s.bm with clean := false } }
  let s := traverseThaw (transitThaw (eachMain portThaw s))
  let s := allSynths.foldl (fun s n =>
    let s := s.set (F.SYN_SYN_STAT_HOLD (n.val + 1)) 0
    if (s.synth n).relockDue then relock n s else s) s
  let s := setQuality (!(s.on F.SYN_STAT_REF)) s
  let s := record 0x0401 dur 0 0 0 ((s.set F.SYN_FRZ_LAST_COUNT dur).addSat F.SYN_FRZ_CNT_COUNT 1)
  let s := irqSet 6 A.SYN_IRQ_STAT 1 s
  if s.syn.lasting then s else faultSendAt s.syn.frozenDatum .syn0Lol 0 s

/-- CLOCK_RESTART (R276). -/
def execClockRestart (s : State) : Host.Outcome State Fault Refusal := .next (if s.on F.SYN_STAT_FROZEN then clockRestart s else s)

/-- The timers of a ring go on after a pause of `d` DCLK periods (R320). -/
def Ring.shift (q : Ring) (d : Nat) : Ring :=
  { q with waitFrom := q.waitFrom.map (· + d), firstAt := if q.unsignalled = 0 then q.firstAt else q.firstAt + d,
           buf := q.buf.map (fun b => { b with since := b.since + d }) }

/-- DRAM_RESUME: after the restart edge the DRAM leaves self-refresh, and the rings go on (R276, R320). -/
def execDramResume (s : State) : Host.Outcome State Fault Refusal :=
  .next (if s.on F.HMI_MEM_STAT_SELFREF && !(s.on F.SYN_STAT_FROZEN) then
      let s := s.set F.HMI_MEM_STAT_SELFREF 0
      let s := match s.hmi.dmaPaused with
        | some t => { s with hmi := { s.hmi with dmaPaused := none, rings := s.hmi.rings.map (fun e => (e.1, e.2.shift (s.now - t))) } }
        | none => s
      if journalReady s then placeRetained s else s
    else s)

/-- SYN_AUX_LOL: SYN_AUX loses lock: the PCIe and MGT links go down until it relocks (R279, R35). -/
def execSynAuxLol (s : State) : Host.Outcome State Fault Refusal :=
  .next (if s.on F.SYN_STAT_AUXLOCK then
      let s := pmcEvent 11 0x03 7 1 (irqSet 6 A.SYN_IRQ_STAT 3 (s.set F.SYN_STAT_AUXLOCK 0))
      let s := faultSend .synAuxLol 0 0 0 0 s
      let s := if linkUp s 6 then linkDown 6 s else s
      if s.on F.HMI_STAT_LINK then hostReset true s else s
    else s)

/-- CLK_DOUBLE_LOSS: both synthesizers are unlocked, MCLK has no source, and the fault is lasting (R279, R382). -/
def execClkDoubleLoss (s : State) : Host.Outcome State Fault Refusal :=
  .next (if s.dtm.started = true ∧ mclkRuns s = false ∧ s.syn.mclkStopped = false then
      lastingFault .clkDoubleLoss 6 { s with syn := { s.syn with mclkStopped := true } }
    else s)

/-- SYN_AUX_LOCK: SYN_AUX locks; it is the source of MCLK while SYN0 is unlocked (R274, R279). -/
def execSynAuxLock (s : State) : Host.Outcome State Fault Refusal :=
  .next (if s.on F.SYN_STAT_AUXLOCK then s
    else
      let s := { s with syn := { s.syn with mclkStopped := false } }.set F.SYN_STAT_AUXLOCK 1
      if s.on F.SYN_STAT_SYN0LOCK then s else s.set F.SYN_STAT_MCLKAUX 1)

/-! ## The system oscillator (R34, R226, R273) -/

/-- OSCIN_DETECT: channel 16 counts the edges of one tick of BOOT; ten ticks in a row decide presence and frequency (R226). -/
def execOscinDetect (count : Nat) (s : State) : Host.Outcome State Fault Refusal :=
  .next (if s.mode = mBoot ∧ s.dtm.started = false then
      let l := (count :: s.syn.oscCounts).take 10
      let s := { s with syn := { s.syn with oscCounts := l } }
      let f := oscFits count
      s.set F.TRN_STAT_OSCFREQ (if l.length = 10 ∧ l.all (fun c => decide (oscFits c = f)) = true then f else 0)
    else s)

/-- SYN0 runs on the crystal from here: REF, and Benchmark's model of the system oscillator (R34, R264). -/
def useCrystal (s : State) : State := showModel ((s.set F.SYN_STAT_REF 1).set F.TRV_BM_STAT_MODEL 1)

/-- OSC_FALLBACK shows the phase of the crystal model: a change of PHASE like any other (R34, R265). -/
def fallBack (s : State) : State := phaseChange (bmModel s).phase (useCrystal s)

/-- OSCIN_LOSS: no OSCIN edge for 400 ns while SYN0 uses it: the reference switches to the crystal, which the clocks see as a loss of lock (R34, R226); holdovers
go on by the crystal model (R261, R271). -/
def execOscinLoss (s : State) : Host.Outcome State Fault Refusal :=
  .next (if s.dtm.started = true ∧ s.on F.SYN_STAT_REF = false then
      let s := record 0x0009 0 0 0 0 (fallBack (loopsFallback s))
      let s := if s.dtm.under = 4 ∨ s.dtm.under = 5 then followMonument s else s
      if s.on F.SYN_STAT_SYN0LOCK then freeze s else s
    else s)

/-- The Datum starts (R55, R348): loaded from the Monument counter, in HOLDOVER with the bound that it has reached, where that counter holds time; otherwise
in FREERUN at 0. -/
def startDatum (s : State) : State :=
  if s.dtm.monHolds then
    let s := { s with dtm := { (s.dtm.load s.dtm.mon) with started := true, fromMonument := true, offsetDue := true } }
    let s := { s with bm := { s.bm with held := s.getI F.DTM_MONDIFF_DIFF } }.set F.TRV_BM_STAT_MONFOLLOW 1
    refreshValues (showBound (datumGoto 4 s))
  else refreshValues { s with dtm := { (s.dtm.load 0) with started := true } }

/-- SYN0_LOCK: SYN0 first locks after a release, to OSCIN where it was detected and FORCEXO does not forbid it; the clocks run and the Datum starts (R34, R55,
R273, R348). -/
def execSyn0Lock (s : State) : Host.Outcome State Fault Refusal :=
  .next (if s.dtm.started = false ∧ s.sys.phase = .running ∧ s.mode ≠ mMonument ∧ s.mode ≠ mDormant then
      let x := s.on F.SYN_CTL_FORCEXO || decide (s.get F.TRN_STAT_OSCFREQ = 0)
      let s := (s.set F.SYN_STAT_SYN0LOCK 1).set F.SYN_STAT_MCLKAUX 0
      let s := showModel ((s.setB F.SYN_STAT_REF x).setB F.TRV_BM_STAT_MODEL x)
      setQuality (!x) (startDatum s)
    else s)

end Sys2Proof.Machine
end

