-- ==== Sys2Proof/Machine/FaultMgr.lean ====
section
/-! DEFINITION. The fault manager (R379-R383), the acknowledgement of alarms (R385) and the end-of-interrupt register (R414). -/
namespace Sys2Proof.Machine

/-! ## Events (R379-R381) -/

/-- The class of an event (R381, R382). -/
def faultClass : FaultCode → Nat
  | .eccDramSbe => 0
  | .eccDramDbe => 1
  | .eccSramSbe => 2
  | .eccSramDbe => 3
  | .dtmVote | .dtmNovote => 4
  | .syn0Lol | .syn0Lasting => 5
  | .synAuxLol | .clkDoubleLoss => 6
  | .synLol => 7
  | .outLimit => 8
  | .stkDeviation => 9
  | .stkCal => 10
  | .prtFec => 11
  | .trnCal => 12
  | .laneFail | .coreFail | .spuFail => 13
  | .rngFail => 14
  | .dvlCmpMismatch => 15

/-- CODE of an event's record (R387). -/
def faultRecord : FaultCode → Nat
  | .eccDramSbe => 0x4804
  | .eccDramDbe => 0x4805
  | .eccSramSbe => 0x4806
  | .eccSramDbe => 0x4807
  | .dtmVote => 0x070D
  | .dtmNovote => 0x070E
  | .syn0Lol => 0x0403
  | .syn0Lasting => 0x0402
  | .synAuxLol => 0x0404
  | .clkDoubleLoss => 0x000E
  | .synLol => 0x0405
  | .outLimit => 0x0406
  | .stkDeviation => 0x1801
  | .stkCal => 0x1802
  | .prtFec => 0x1004
  | .trnCal => 0x0601
  | .laneFail => 0x3005
  | .coreFail => 0x3801
  | .spuFail => 0x4003
  | .rngFail => 0x3004
  | .dvlCmpMismatch => 0x0308

/-- A fault of a whole block, which has no unit index (R387). -/
def faultOfBlock : FaultCode → Bool
  | .dtmVote | .dtmNovote | .syn0Lol | .syn0Lasting | .synAuxLol | .clkDoubleLoss => true
  | .eccDramSbe | .eccDramDbe | .eccSramSbe | .eccSramDbe | .synLol | .outLimit | .stkDeviation | .stkCal | .prtFec | .trnCal | .laneFail
  | .coreFail | .spuFail | .rngFail | .dvlCmpMismatch => false

/-- Lasting on the first occurrence, whatever the class holds (R382). -/
def faultAtOnce : FaultCode → Bool
  | .dtmNovote | .syn0Lasting | .clkDoubleLoss => true
  | .eccDramSbe | .eccDramDbe | .eccSramSbe | .eccSramDbe | .dtmVote | .syn0Lol | .synAuxLol | .synLol | .outLimit | .stkDeviation | .stkCal
  | .prtFec | .trnCal | .laneFail | .coreFail | .spuFail | .rngFail | .dvlCmpMismatch => false

/-- The key of a source's bucket. -/
def bucketKey (e : FaultEv) : Nat := faultRecord e.code * 65536 + e.source

/-- The bucket of a source; one that is not listed is empty. -/
def State.bucket (s : State) (k : Nat) : Bucket := (s.flt.buckets.get k).getD ⟨0, 0, false⟩

/-- Replace a bucket. The map lists no empty one. -/
def State.setBucket (s : State) (k : Nat) (b : Bucket) : State :=
  { s with flt := { s.flt with buckets := if b = ⟨0, 0, false⟩ then s.flt.buckets.del k else s.flt.buckets.put k b } }

/-- W of a class in ms (R380, R381). -/
def classWindow (s : State) (c : Nat) : Nat := 10 * s.get (F.SYS_FLT_CFG_WIN c)

/-- The record of an event with its fault fields (R387, R455). Each deviation has a record of its own with DEVFBK (R455). -/
def faultWrite (e : FaultEv) (lasting : Bool) (s : State) : State :=
  let k := bucketKey e
  let b := s.bucket k
  let every := decide (e.code = .stkDeviation) && s.on F.SKO_CTL_DEVFBK
  if lasting || every || !b.seenThisTick then
    let blk := faultRecord e.code / 256
    let src := if faultOfBlock e.code then srcBlock blk else srcUnit blk e.source
    let arg := (if lasting then 2 ^ 31 else 0) + faultClass e.code * 2 ^ 24 + (if every then 0 else b.unrecorded)
    recordAt e.datum (faultRecord e.code) src arg e.a1 e.a2 e.a3 (s.setBucket k { b with unrecorded := 0, seenThisTick := true })
  else s.setBucket k { b with unrecorded := if b.unrecorded < 0xFFFFFF then b.unrecorded + 1 else 0xFFFFFF }

/-! ## Responses (R383) -/

/-- A mode response waits for the tick; the strongest applies once (R383). -/
def noteResponse (r c : Nat) (s : State) : State :=
  match s.flt.resp with
  | some (q, _) => if q < r then { s with flt := { s.flt with resp := some (r, c) } } else s
  | none => { s with flt := { s.flt with resp := some (r, c) } }

/-- SIV lanes 0 to 11 by R400. -/
def sivLanes : Nat := 0xFFF

/-- SHA lanes 16 and 17 by R400. -/
def shaLanes : Nat := 0x30000

/-- Bits of a mask below 32. -/
def bitCount (m : Nat) : Nat := ((List.range 32).filter (fun i => m.testBit i)).length

/-- Isolate the source of an event until the next BOOT, and tell whether the rest can carry on; none where it cannot, so that response 2 applies
instead (R383). The operation of a core is aborted (R181). A source that no rule can isolate stays as it is. -/
def isolate (e : FaultEv) (s : State) : Option State :=
  match e.code with
  | .laneFail =>
    let m := s.flt.isoLanes ||| 2 ^ e.source
    if m &&& sivLanes = sivLanes ∨ m &&& shaLanes = shaLanes then none else some { s with flt := { s.flt with isoLanes := m } }
  | .coreFail =>
    let t := (abortCore (Fin.ofNat 16 e.source) s).setBit A.PKE_ISOL e.source
    if t.get F.PKE_ISOL_ISOL = 0xFFFF then none else some (irqSet 16 A.PKE_IRQ_STAT 2 t)
  | .spuFail =>
    let m := s.flt.isoSpus ||| 2 ^ e.source
    if 8 < bitCount m + 2 then none else some { s with flt := { s.flt with isoSpus := m } }
  | .synLol =>
    if e.source = 1 ∨ e.source = 2 then none else some { s with flt := { s.flt with isoSyns := s.flt.isoSyns ||| 2 ^ e.source } }
  | .trnCal =>
    let ch : Fin 24 := Fin.ofNat 24 (e.source / 3)
    let cv : Fin 3 := Fin.ofNat 3 e.source
    let t := isolateConverter ch cv s
    if chOwner s ch = 1 ∧ (t.chan ch).convs.toList.all (·.isolated) = true then none else some t
  | .eccDramSbe | .eccDramDbe | .eccSramSbe | .eccSramDbe | .dtmVote | .dtmNovote | .syn0Lol | .syn0Lasting | .synAuxLol | .clkDoubleLoss
  | .outLimit | .stkDeviation | .stkCal | .prtFec | .rngFail | .dvlCmpMismatch => some s

/-- A response that changes the mode: it waits for the tick, but for the hand-over of a pair, whose claim falls at once (R297, R314, R383). A fault of R382 has
handed over on its detection edge. -/
def modeResponse (e : FaultEv) (r : Nat) (s : State) : State :=
  let c := faultClass e.code
  let s := if r = 2 ∧ inPair s = true ∧ faultAtOnce e.code = false ∧ s.mode ≠ mSafe ∧ s.mode ≠ mMaint then handOver c s else s
  noteResponse r c s

/-- The response of a lasting fault (R383). -/
def respond (e : FaultEv) (r : Nat) (s : State) : State :=
  if r = 0 then s
  else if r = 1 then
    match isolate e s with
    | some t => claimUpdate t
    | none => modeResponse e 2 { s with dvl := { s.dvl with causeHeld := true } }
  else modeResponse e r s

/-- A fault is lasting: latch, count, record and response (R382, R383). -/
def lasting (e : FaultEv) (r : Nat) (s : State) : State :=
  let c := faultClass e.code
  let s := withGroup 0 (fun s => s.setBit A.SYS_FLT_LATCH c) s
  let s := pmcEvent 0 0x04 0x80 1 (s.addSat (F.SYS_FLT_CNT_COUNT c) 1)
  respond e r (faultWrite e true (alarmRaise 14 s))

/-- Count one event in its bucket and judge it (R380, R382). -/
def judge (e : FaultEv) (s : State) : State :=
  let s := pmcEvent 0 0x03 0x80 1 s
  let c := faultClass e.code
  if faultAtOnce e.code then lasting e 2 s
  else
    let k := bucketKey e
    let b := s.bucket k
    let w := classWindow s c
    let l := b.level + w
    if (s.get (F.SYS_FLT_CFG_N c) - 1) * w < l then lasting e (s.get (F.SYS_FLT_CFG_RESP c)) (s.setBucket k { b with level := 0 })
    else faultWrite e false (s.setBucket k { b with level := l })

/-- Put an event into a list that rises by Datum value; equal values keep their order (R379). -/
def sortEvent (e : FaultEv) : List FaultEv → List FaultEv
  | [] => [e]
  | x :: xs => if instDiff e.datum x.datum < 0 then e :: x :: xs else x :: sortEvent e xs

/-- The waiting events in the order of their Datum values (R379). -/
def eventOrder (s : State) : List FaultEv := s.flt.queue.foldl (fun l e => sortEvent e l) []

/-- FAULT_EVENT: the fault manager takes the earliest waiting event and judges it (R379, R380). -/
def execFaultEvent (s : State) : Host.Outcome State Fault Refusal :=
  .next (match eventOrder s with
    | [] => s
    | e :: rest => judge e { s with flt := { s.flt with queue := rest } })

/-- A unit failed its known-answer test in BOOT: it is isolated at once, as for a lasting fault (R350, R382). -/
def knownAnswerFail (code : FaultCode) (source : Nat) (s : State) : State := lasting ⟨code, source, s.recordTime, 0, 0, 0⟩ 1 s

/-- One tick of the fault manager: the events that wait are judged, and every bucket loses 1 ms (R28, R380). -/
def faultTick (s : State) : State :=
  let l := eventOrder s
  let s := l.foldl (fun s e => judge e s) { s with flt := { s.flt with queue := [] } }
  let old := s.flt.buckets
  let s := { s with flt := { s.flt with buckets := [], raised := 0 } }
  old.foldl (fun s e => s.setBucket e.1 { e.2 with level := e.2.level - 1, seenThisTick := false }) s

/-! ## Acknowledgements (R385, R414) -/

/-- Acknowledge one of the latched alarms; one that was raised in the same tick stays (R385). -/
def ackAlarm (v : Word) (s : State) (n : Nat) : State :=
  if v.getLsbD n && !(s.flt.raised.testBit n) then alarmClear n s else s

/-- ALARM_ACK: a write of SYS_ALARM_ACK acts on bits 10, 11 and 15 (R385). -/
def ackAlarms (v : Word) (s : State) : State := [10, 11, 15].foldl (ackAlarm v) s

/-- IRQ_EOI: each group written with 1 that is still pending and enabled is signalled again (R414). -/
def eoiWrite (v : Word) (s : State) : State :=
  (List.range 18).foldl (fun s g => if v.getLsbD g && groupEnabled s g then signalVector (32 + g) s else s) s

end Sys2Proof.Machine
end

