-- ==== Sys2Proof/Machine/Dvl.lean ====
section
/-! DEFINITION. Redundant pairs: the claim bus, the Dvorgo link, the comparison of the Datums, arbitration, the journal and pairing (R148, R295-R316). -/
namespace Sys2Proof.Machine

/-! ## The claim bus (R298, R299) -/

/-- The reference of the Dvorgo link, SYN2, runs (R35, R304). -/
def dvlRuns (s : State) : Bool := inPair s && s.on (F.SYN_SYN_STAT_LOCKED 2)

/-- CRC-16 with polynomial 0x1021 of a frame's first six bytes (R298; assumption log 40). -/
def claimCrc (b : Bytes) : Nat := crcMsb 16 0x1021 0 b

/-- The first 48 bits of a claim frame (R298). -/
def claimHead (s : State) : Nat :=
  0xD5 * 2 ^ 40 + s.dvl.seqTx % 16 * 2 ^ 36
    + ((if s.on F.DVL_STAT_ACTIVE then 1 else 0) + (if s.get F.DVL_STAT_PHASE = 4 then 2 else 0)) * 2 ^ 32
    + s.get F.DVL_CLAIM_OWN * 2 ^ 16 + s.get F.DVL_CLAIM_PARTNER

/-- CLAIM_FRAME_SEND: a frame leaves on CLAIM_TX, clocked from SYN_AUX (R298). -/
def execClaimFrameSend (s : State) : Host.Outcome State Fault Refusal :=
  .next (if inPair s && s.on F.SYN_STAT_AUXLOCK then
      let s := claimUpdate s
      let h := claimHead s
      let s := s.emit (.claim (BitVec.ofNat 64 (h * 2 ^ 16 + claimCrc (natBE 6 h))))
      { s with dvl := { s.dvl with seqTx := (s.dvl.seqTx + 1) % 16 } }
    else s)

/-- The claim bus has stopped refreshing for 2 us, or refreshes again (R298). -/
def busWatch (s : State) : State :=
  let b := s.dvl.busAt.any (fun t => decide (s.now < t + stalePeriods))
  if s.on F.DVL_STAT_CLAIMBUS = b then s else irqSet 7 A.DVL_IRQ_STAT 1 (s.setB F.DVL_STAT_CLAIMBUS b)

/-- A refreshing frame carries this unit's own ID: health class 0 from here on (R299). A claim of 0 carries no ID. -/
def idCheck (claim : Nat) (s : State) : State :=
  if claim ≠ 0 ∧ claim % 2 = s.get F.SYS_ID_UNIT ∧ s.dvl.idConflict = false then
    record 0x0306 0 0 0 0 (alarmRaise 10 (irqSet 7 A.DVL_IRQ_STAT 5 { s with dvl := { s.dvl with idConflict := true } }))
  else s

/-- A frame of either path refreshes the partner claim (R298, R299). -/
def refresh (claim echo : Nat) (active ready : Bool) (s : State) : State :=
  let s := { s with dvl := { s.dvl with partner := claim, everActive := s.dvl.everActive || active } }
  let s := ((s.set F.DVL_CLAIM_PARTNER claim).set F.DVL_ECHO_ECHO echo).set F.DVL_STAT_STALE 0
  claimUpdate (busWatch (idCheck claim (s.setB F.DVL_STAT_PTNREADY ready)))

/-- CLAIM_FRAME_RECEIVE: a frame with a correct CRC refreshes when its SEQ follows the previous one, or after silence (R298). -/
def execClaimFrameReceive (bits : BitVec 64) (s : State) : Host.Outcome State Fault Refusal :=
  .next (let h := bits.toNat / 2 ^ 16
    if inPair s && decide (h / 2 ^ 40 = 0xD5) && decide (claimCrc (natBE 6 h) = bits.toNat % 2 ^ 16) then
      let seq := h / 2 ^ 36 % 16
      let silent := !(s.dvl.heardAt.any (fun t => decide (s.now < t + stalePeriods)))
      let ok := silent || decide (s.dvl.seqRx.any (fun q => decide ((q + 1) % 16 = seq)) = true)
      let s := { s with dvl := { s.dvl with seqRx := some seq, heardAt := some s.now } }
      if ok then
        refresh (h / 2 ^ 16 % 2 ^ 16) (h % 2 ^ 16) (h.testBit 32) (h.testBit 33) { s with dvl := { s.dvl with busAt := some s.now } }
      else s
    else s)

/-- The period of the last refresh of either path, or of the release. -/
def lastRefresh (s : State) : Nat := max (max (s.dvl.busAt.getD 0) (s.dvl.linkAt.getD 0)) s.sys.releasedAt

/-- CLAIM_STALE: neither path has refreshed the partner claim for 2 us: it counts as 0, and the guard counts from that instant (R298, R299). -/
def execClaimStale (s : State) : Host.Outcome State Fault Refusal :=
  .next (if inPair s then
      let s := busWatch s
      let t := lastRefresh s + stalePeriods
      if s.on F.DVL_STAT_STALE = false ∧ t ≤ s.now then
        let s := claimUpdate ((s.set F.DVL_CLAIM_PARTNER 0).set F.DVL_STAT_STALE 1)
        { s with dvl := { s.dvl with guard := s.dvl.guard.map (fun g => { g with since := if g.kind = 3 then t else g.since }) } }
      else s
    else s)

/-- DVL_CMP_MISMATCH: the comparator of an output stage differs from ACTIVE for more than 20 ns, and the stage is forced to high-impedance (R301). -/
def execDvlCmpMismatch (out : Fin 12) (s : State) : Host.Outcome State Fault Refusal :=
  .next (if inPair s then
      faultSend .dvlCmpMismatch out 0 0 0 { s with dvl := { s.dvl with forced := s.dvl.forced ||| 2 ^ out.val } }
    else s)

/-- A write of DVL_CTL: YIELD takes its value, and REJOIN releases a hand-over whose lasting cause has cleared (R297, R314). -/
def dvlCtlWrite (v : Word) (s : State) : State :=
  let s := s.setB F.DVL_CTL_YIELD (v.getLsbD 0)
  let persists := s.on F.SYN_STAT_FROZEN || !(mclkRuns s) || s.dvl.causeHeld
  let s := if v.getLsbD 1 && !persists then { s with dvl := { s.dvl with bothOff := false } }.set F.DVL_STAT_HANDED 0 else s
  claimUpdate s

/-! ## Comparing the Datums (R307-R309) -/

/-- Saturate to 32 bits signed and show in one of the registers of DVL_DIFF's layout. -/
def showPs (f : Fld) (x : Frac) (s : State) : State := s.setI f (clampInt (-2147483647) 2147483647 x.round)

/-- DISTH in ps. -/
def disthPs (s : State) : Frac := .int (s.get F.DVL_CMP_CFG_DISTH * 1000)

/-- Bad cycles among the last W of the map (R309). -/
def badCount (s : State) : Nat := ((List.range (s.get F.DVL_CMP_CFG_W)).filter (fun i => s.bit A.DVL_BADMAP i)).length

/-- The disagreement becomes lasting: the alarm, the record, and arbitration on the next tick (R309). -/
def declareDisagree (s : State) : State :=
  let s := irqSet 7 A.DVL_IRQ_STAT 3 (s.set F.DVL_STAT_LASTING 1)
  let s := record 0x0303 0 0 0 0 (alarmRaise 7 s)
  { s with dvl := { s.dvl with arbitrate := true } }

/-- The lasting flag clears, and with it class 2 and PAIR_DISPUTE (R309, R310). -/
def clearDisagree (s : State) : State :=
  let s := ((s.set F.DVL_STAT_LASTING 0).set F.DVL_STAT_LOSER 0).set F.DVL_STAT_DISPUTE 0
  claimUpdate (alarmClear 8 (alarmClear 7 { s with dvl := { s.dvl with arbitrate := false } }))

/-- The standby judges the cycle that ends: bad or not, and lasting or not (R309). -/
def judgeCycle (bad : Bool) (s : State) : State :=
  let s := s.set F.DVL_BADMAP_MAP (s.get F.DVL_BADMAP_MAP * 2 + (if bad then 1 else 0))
  let n := s.dvl.evaluated
  let s := { s with dvl := { s.dvl with evaluated := if n < 32 then n + 1 else n } }
  let s := if bad then { s with dvl := { s.dvl with lastBad := s.now, trackTicks := 0 } }.addSat F.DVL_BADCYC_CNT_COUNT 1 else s
  if s.get F.DVL_CMP_CFG_K ≤ badCount s ∧ s.on F.DVL_STAT_LASTING = false then declareDisagree s else s

/-- A cycle ends (R307-R309): D is the mean of its exchanges plus c, and each XPPS edge in it moves c by a quarter of Dx minus D. A cycle without a complete
exchange is not evaluated. -/
def closeCycle (next : Nat) (s : State) : State :=
  let v := s.dvl
  let s := { s with dvl := { v with sumCycle := next, sumD := 0, nD := 0, dxs := [] } }
  if v.nD = 0 then s
  else
    let d := (Frac.of (v.sumD * 1000) (v.nD * 131072)).add v.cal
    let c := v.dxs.foldl (fun c x => c.add (((Frac.int x).sub d).mul (.of 1 4))) v.cal
    let s := showPs F.DVL_DIFF_VALUE d { s with dvl := { s.dvl with d := d, cal := c, calAt := if v.dxs = [] then v.calAt else some s.now } }
    let s := if v.dxs = [] then s else (showPs F.DVL_LINKCAL_VALUE c s).set F.DVL_STAT_CALOK 1
    if s.on F.DVL_STAT_ACTIVE then s
    else judgeCycle ((disthPs s).lt d.abs || v.dxs.any (fun x => (disthPs s).lt (Frac.int x).abs)) s

/-- An accepted edge on XPPS_IN (R300, R308): on a standby it gives Dx; on a unit that has been active for more than 1 us it proves that the partner drives too. -/
def xppsEdge (e : TrnEdge) (s : State) : State :=
  if inPair s = false then s
  else if s.on F.DVL_STAT_ACTIVE then
    if s.dvl.activeAt + 1200 + (s.trn.coarse - e.coarse) < s.now then
      let s := record 0x0307 0 0 0 0 (alarmRaise 11 (irqSet 7 A.DVL_IRQ_STAT 6 (s.addSat F.DVL_BOTH_CNT_COUNT 1)))
      if s.on F.SYS_ID_UNIT then claimUpdate { s with dvl := { s.dvl with bothOff := true } } else s
    else s
  else
    let sec := (e.datum + secUnits / 2) / secUnits * secUnits
    let dx := Frac.of (instDiff sec e.datum * 1000) 65536
    showPs F.DVL_XPPSDIFF_VALUE dx { s with dvl := { s.dvl with dxs := s.dvl.dxs ++ [dx.round] } }

/-! ## The link (R304, R315) -/

/-- A phase of R315, and what it does to the claim (R297). -/
def setPhase (n : Nat) (s : State) : State := claimUpdate (phaseSet n s)

/-- PAIRING starts: an ephemeral key pair, and its statement with the chain of slot 511 (R316). The challenge, which no command gives, is a free value. -/
def pairStart (s : State) : State :=
  let r := s.drawScalar p384.n
  let m := natBE 48 r.1
  let c := r.2.drawBytes 32
  let body := attestBody c.2 0xFFFF ⟨3, 2, 384, 2, m, publicHalf 3 384 m⟩ c.1
  let g := attestSign (sha384 body) c.2
  let sig := match g.1 with | some (a, b) => natBE 48 a ++ natBE 48 b | none => []
  let s := { g.2 with dvl := { g.2.dvl with pair := { scalar := m, key := [], rejectedAt := none, done := false } } }
  setPhase 1 (s.emit (.dvl (.pair (.attest (body ++ sig) Config.attestChain))))

/-- The link goes down: the alarm, and DOWN (R304, R315). A link-down alone changes no claim but for the phase that R297 weighs. -/
def linkLost (s : State) : State :=
  let s := irqSet 7 A.DVL_IRQ_STAT 2 ((s.set F.DVL_STAT_LINK 0).set F.DVL_STAT_LANES 0)
  let s := pairErase s.dvl.pair.rejectedAt false { s with dvl := { s.dvl with bulkNext := none, bulkLast := false, bulkHole := false, hbIn := none } }
  setPhase 0 (record 0x030B 0 0 0 0 (alarmRaise 5 s))

/-- DVL_LINK_DOWN: no valid frame for 4 us (R304). -/
def execDvlLinkDown (s : State) : Host.Outcome State Fault Refusal :=
  .next (if s.on F.DVL_STAT_LINK = true ∧ s.dvl.frameAt + 4800 ≤ s.now then linkLost s else s)

/-- One lane is down: half capacity, and the alarm (R304). -/
def laneAlarm (s : State) : State := if s.bit A.SYS_ALARM_STAT 6 then s else record 0x030C 0 0 0 0 (alarmRaise 6 s)

/-- DVL_LANE_DOWN: a lane goes down while the other stays up (R304). -/
def execDvlLaneDown (lane : Fin 2) (s : State) : Host.Outcome State Fault Refusal :=
  .next (if s.get F.DVL_STAT_LANES = 3 then laneAlarm (s.set F.DVL_STAT_LANES (if lane.val = 0 then 2 else 1)) else s)

/-- A valid HB shows the lanes that carried it, and brings the link up (R304, R315). -/
def linkSeen (lanes : BitVec 2) (s : State) : State :=
  let s := { s with dvl := { s.dvl with frameAt := s.now } }.set F.DVL_STAT_LANES lanes.toNat
  let s := if lanes = 3 then alarmClear 6 s else laneAlarm s
  if s.on F.DVL_STAT_LINK then s
  else
    let s := { s with dvl := { s.dvl with everActive := s.on F.DVL_STAT_ACTIVE } }
    alarmClear 5 (irqSet 7 A.DVL_IRQ_STAT 2 (s.set F.DVL_STAT_LINK 1))

/-- The exchange that an HB completes (R307), in units of 2^-17 ns: t1 and t4 are the partner's stamps, t2 and t3 this unit's.
The cycle is counted on the active unit (R304), which ends its own with its record. -/
def exchange (hb : Heartbeat) (t2 : Nat) (s : State) : State :=
  let s := if hb.cycle = s.dvl.sumCycle ∨ s.on F.DVL_STAT_ACTIVE = true then s else closeCycle hb.cycle s
  let s := { s with dvl := { s.dvl with hbIn := some (hb.tx, t2) } }
  match hb.rx with
  | some (t4, t3) => { s with dvl := { s.dvl with sumD := s.dvl.sumD + instDiff hb.tx t2 + instDiff t4 t3, nD := s.dvl.nD + 1 } }
  | none => s

/-- HEARTBEAT_RECEIVE: a damaged frame is counted; a valid one keeps the link up, refreshes the claim, feeds D, and leaves DOWN (R298, R304, R307, R315). -/
def execHeartbeatReceive (good : Bool) (lanes : BitVec 2) (hb : Heartbeat) (stamp : Nat) (s : State) : Host.Outcome State Fault Refusal :=
  .next (if dvlRuns s = false then s
    else if good = false then s.addSat F.DVL_RECERR_CNT_COUNT 1
    else
      let s := linkSeen lanes s
      let s := refresh hb.claim.toNat hb.echo.toNat hb.active hb.ready { s with dvl := { s.dvl with linkAt := some s.now } }
      let s := exchange hb stamp s
      if s.get F.DVL_STAT_PHASE = 0 ∧ s.dvl.pair.rejectedAt = none then pairStart s else s)

/-- HEARTBEAT_SEND (R304). -/
def execHeartbeatSend (s : State) : Host.Outcome State Fault Refusal :=
  .next (if dvlRuns s then
      let s := claimUpdate s
      s.emit (.dvl (.hb {
        claim := BitVec.ofNat 16 (s.get F.DVL_CLAIM_OWN), echo := BitVec.ofNat 16 (s.get F.DVL_CLAIM_PARTNER)
        active := s.on F.DVL_STAT_ACTIVE, ready := decide (s.get F.DVL_STAT_PHASE = 4), cycle := s.dvl.cycle, tx := s.datum
        rx := s.dvl.hbIn.map (fun x => (x.2, x.1)) }))
    else s)

/-! ## Pairing (R316) -/

/-- A failure ends pairing: DOWN, and the next attempt after one second (R316). -/
def pairReject (s : State) : State :=
  setPhase 0 (record 0x0305 0 0 0 0 (irqSet 7 A.DVL_IRQ_STAT 8 (pairErase (some s.now) false s)))

/-- PART and STEP of the statement equal this unit's, and the partner's ID bit differs (R316). -/
def statementFits (s : State) (st : Bytes) : Bool :=
  decide (beAt st 2 3 = (s.rd A.SYS_ID).toNat / 2 ^ 8)
    && !(decide (s.get F.DVL_CLAIM_PARTNER ≠ 0) && decide (s.get F.DVL_CLAIM_PARTNER % 2 = s.get F.SYS_ID_UNIT))

/-- The pair key of two ephemeral keys; empty where the point gives no shared value (R316). -/
def sharedKey (scalar st : Bytes) : Bytes :=
  let x := beAt st 65 48
  let y := beAt st 113 48
  if p384.has x y then
    match p384.mul (beNat scalar) (some (x, y)) with
    | some (z, _) => hkdf (natBE 48 z) (label "FX4860 pair") 32
    | none => []
  else []

/-- The standby adopts the client-table keys, clears its table, and compares the digests (R316). -/
def pairAdopt (wrapped digest : Bytes) (s : State) : State :=
  match kwUnwrap s.dvl.pair.key wrapped with
  | none => pairReject s
  | some k =>
    let s := { s with svp := { s.svp with key1 := beAt k 0 16, key2 := beAt k 16 16, keysDerived := false, table := [], cached := [], dirty := [] } }
    let s := if digest = pairDigest s then alarmClear 9 s else record 0x0309 0 0 0 0 (alarmRaise 9 (irqSet 7 A.DVL_IRQ_STAT 9 s))
    let s := pairErase none true s
    setPhase 2 { s with dvl := { s.dvl with bulkLast := false, bulkHole := false } }

/-- PAIR_ATTESTATION: a message of PAIRING (R316). `chainOk` is whether the chain verifies to the Zomal root and the statement's signature under it. -/
def execPairAttestation (msg : PairMsg) (chainOk : Bool) (s : State) : Host.Outcome State Fault Refusal :=
  .next (if dvlRuns s = true ∧ s.get F.DVL_STAT_PHASE = 1 then
      match msg with
      | .attest st _ =>
        let k := sharedKey s.dvl.pair.scalar st
        if chainOk && statementFits s st && decide (k ≠ []) then
          claimUpdate (pairSend { s with dvl := { s.dvl with pair := { s.dvl.pair with key := k } } })
        else pairReject s
      | .keys w d => if s.dvl.pair.key = [] ∨ s.on F.DVL_STAT_ACTIVE = true then s else pairAdopt w d s
    else s)

/-- One second in DCLK periods. -/
def retryPeriods : Nat := 1200000000

/-- PAIRING_RETRY: one second after a rejection the next attempt starts (R316). -/
def execPairingRetry (s : State) : Host.Outcome State Fault Refusal :=
  .next (if s.dvl.pair.rejectedAt.any (fun t => decide (t + retryPeriods ≤ s.now)) then
      let s := pairErase none false s
      if inPair s && s.on F.DVL_STAT_LINK && decide (s.get F.DVL_STAT_PHASE = 0) then pairStart s else s
    else s)

/-! ## The records of a cycle (R305, R306, R310) -/

/-- The reference offsets of this unit (R310): qualified CH0 inputs of a PPS kind by index, and PTP clients in SLAVE as 12 and 13; reference minus Datum in
units of 2^-16 ns. The offset of an instance is the estimate of the domain that it feeds, and that of its latest exchange where it feeds none (assumption log 104). -/
def ownRefs (s : State) : List (Nat × Int) :=
  let ins := (List.finRange 12).filterMap (fun (i : Fin 12) =>
    if decide (prio s 0 i ≠ 0) && isPps s i && qualified s i then
      (s.input i).last.map (fun e => (i.val, instDiff ((e.datum + secUnits / 2) / secUnits * secUnits) e.datum))
    else none)
  let pcs := [0, 1].filterMap (fun (n : Nat) =>
    if s.get (F.DTM_PC_STAT_STATE n) = 5 then
      (if s.domSrc 0 = n + 1 then some (12 + n, s.dtm.fs.est) else if s.domSrc 1 = n + 1 then some (12 + n, s.dtm.bs.est)
        else if h : n < 2 then (s.pc ⟨n, h⟩).lastSync.map (fun t => (12 + n, instDiff t.2 t.1 + (s.pc ⟨n, h⟩).delay)) else none)
    else none)
  ins ++ pcs

/-- A grant as the journal carries it. -/
def Grant.wire (g : Grant) : WireGrant := ⟨g.log, g.start, g.expiry, g.next, g.seq⟩

/-- A journalled grant. -/
def Grant.ofWire (w : WireGrant) : Grant := ⟨w.log, w.start, w.expiry, w.next, w.seq, w.log, true, 0⟩

/-- A client of the grant table as the journal carries it (R305). -/
def GrantClient.wire (c : GrantClient) : GrantChange :=
  { index := c.index, identity := c.identity, port := c.port, dstMac := c.env.dstMac, srcMac := c.env.srcMac, tag := c.env.tag, l2 := c.env.l2
    v6 := c.env.v6, srcIp := c.env.srcIp, dstIp := c.env.dstIp, srcPort := c.env.srcPort, dstPort := c.env.dstPort, hop := c.env.hop
    announce := (c.announce.filter (·.live)).map Grant.wire, sync := (c.sync.filter (·.live)).map Grant.wire
    delayResp := (c.delayResp.filter (·.live)).map Grant.wire }

/-- A journalled client of the grant table. -/
def clientOfWire (g : GrantChange) : GrantClient :=
  { index := g.index, identity := g.identity, port := g.port
    env := { dstMac := g.dstMac, srcMac := g.srcMac, tag := g.tag, l2 := g.l2, v6 := g.v6, srcIp := g.srcIp, dstIp := g.dstIp
             srcPort := g.srcPort, dstPort := g.dstPort, hop := g.hop }
    announce := g.announce.map Grant.ofWire, sync := g.sync.map Grant.ofWire, delayResp := g.delayResp.map Grant.ofWire }

/-- The entry of a client without grants: it has left the table. -/
def GrantClient.gone (c : GrantClient) : GrantClient := { c with announce := none, sync := none, delayResp := none }

/-- Grant-table changes since the journal last sent them (R305). -/
def grantChanges (s : State) : List GrantClient :=
  s.svp.grants.filter (fun c => !(s.dvl.sentGrants.any (fun d => decide (d = c))))
    ++ (s.dvl.sentGrants.filter (fun d => !(s.svp.grants.any (fun c => decide (c.index = d.index))))).map GrantClient.gone

/-- Put changes into a copy of the grant table. -/
def grantMerge (old changes : List GrantClient) : List GrantClient :=
  (changes.foldl (fun l c => l.filter (fun d => decide (d.index ≠ c.index)) ++ [c]) old).filter
    (fun c => c.announce.isSome || c.sync.isSome || c.delayResp.isSome)

/-- The 32 bytes of a client entry (R94). -/
def Client.bytes (c : Client) : Bytes :=
  natLE 8 c.tag ++ natLE 4 c.last ++ natLE 2 c.tokens
    ++ natLE 2 (2 ^ 15 + (if c.v6 then 2 ^ 14 else 0) + (if c.ix then 2 ^ 13 else 0) + (if c.kodv then 2 ^ 12 else 0) + c.kodsec % 256 * 16 + c.cls % 16)
    ++ natLE 8 c.prevRx ++ natLE 8 c.prevTx

/-- A client entry from its 32 bytes; none where VALID is 0 (R94). -/
def clientOfBytes (b : Bytes) : Option Client :=
  let f := leAt b 14 2
  if f.testBit 15 then
    some { tag := leAt b 0 8, last := leAt b 8 4, tokens := leAt b 12 2, v6 := f.testBit 14, ix := f.testBit 13, kodv := f.testBit 12
           kodsec := f / 16 % 256, cls := f % 16, prevRx := leAt b 16 8, prevTx := leAt b 24 8 }
  else none

/-- The entry at a position, or an empty one. -/
def entryBytes (s : State) (k : Nat) : Bytes := match s.svp.table.get k with | some c => c.bytes | none => zeros 32

/-- Bytes of a cycle's record for the journal: 32 KiB less the fixed parts, and 20 KiB with one lane down (R304, R305). -/
def journalRoom (s : State) : Nat := if s.get F.DVL_STAT_LANES = 1 ∨ s.get F.DVL_STAT_LANES = 2 then 20480 else 31760

/-- The words of Traverse in the record: of each channel its selection, state and frequency word, of each input its state and CAUSE (R305). -/
def traverseWords (s : State) : List Word :=
  (List.range 8).flatMap (fun c => [s.rd (A.TRV_CH_SELSTAT c), s.rd (A.TRV_CH_STATE c), s.rd (A.TRV_CH_FREQ_W0 c), s.rd (A.TRV_CH_FREQ_W1 c)])
    ++ (List.range 12).map (fun n => s.rd (A.TRV_REF_STAT n))

/-- Of each domain its state, offset and rate estimates (R305). -/
def domainWords (s : State) : List (Nat × Int × Int) := [(s.domState 0, s.dtm.fs.est, s.dtm.fs.rate), (s.domState 1, s.dtm.bs.est, s.dtm.bs.rate)]

/-- The state record of the running cycle with its part of the journal (R305). -/
def stateRecord (s : State) (refs : List (Nat × Int)) (grants : List GrantClient) (keys : List Nat) : StateRecord :=
  { cycle := s.dvl.cycle, datum := s.datum, dtmState := s.get F.DTM_STATE_STATE, dtmActive := s.active, rate := s.dtm.y, utc := s.utcOffset
    leap := s.get F.DTM_UTC_STAT_PENDING, leapDay := s.dtm.leapDay, smear := s.on F.DTM_UTC_CFG_SMEAR, domains := domainWords s
    traverse := traverseWords s, epoch := s.get F.CRL_NTS_EPOCH_EPOCH, kcv := s.get64 A.CRL_NTS_KCV_W0, refs := refs
    grants := grants.map GrantClient.wire, clients := keys.map (fun k => (k, entryBytes s k)) }

/-- Buckets that BULK sends beside a state record: 16 Gb/s for 8 us (R315; assumption log 41). -/
def bulkShare : Nat := 62

/-- The client-table buckets of R36. -/
def bucketCount : Nat := 25165824

/-- A BULK frame of the next buckets; the last carries the grant table (R315). -/
def bulkSend (s : State) : State :=
  match s.dvl.bulkNext with
  | none => s
  | some b =>
    let e := b + bulkShare
    let last := decide (bucketCount ≤ e)
    let cs := (s.svp.table.filter (fun x => decide (b ≤ x.1 / 8) && decide (x.1 / 8 < e))).map (fun x => (x.1, x.2.bytes))
    { s.emit (.dvl (.bulk cs (if last then s.svp.grants.map GrantClient.wire else []) last)) with
      dvl := { s.dvl with bulkNext := if last then none else some e } }

/-- STATE_RECORD_SEND: the active unit ends its cycle with the record: grant changes first, then client entries as they stand now (R304-R306). -/
def execStateRecordSend (s : State) : Host.Outcome State Fault Refusal :=
  .next (if dvlRuns s && s.on F.DVL_STAT_ACTIVE && dclkRuns s then
      let n := s.dvl.cycle + 1
      let s := closeCycle n { s with dvl := { s.dvl with cycle := n } }
      let room := journalRoom s
      let gs := (grantChanges s).take (room / 48)
      let ks := s.dvl.journal.take ((room - 48 * gs.length) / 36)
      let refs := ownRefs s
      let s := s.emit (.dvl (.state (stateRecord s refs gs ks)))
      bulkSend { s with dvl := { s.dvl with
        journal := s.dvl.journal.drop ks.length, sentGrants := grantMerge s.dvl.sentGrants gs, sentRefs := refs } }
    else s)

/-- Write copied client entries to their bucket and way (R306). -/
def clientsApply (l : List (Nat × Bytes)) (s : State) : State :=
  l.foldl (fun s e =>
    if e.1 < 8 * bucketCount then
      { s with svp := { s.svp with table := match clientOfBytes e.2 with | some c => s.svp.table.put e.1 c | none => s.svp.table.del e.1 } }
    else s) s

/-- Write copied grants (R303, R305). -/
def grantsApply (l : List GrantChange) (s : State) : State :=
  showGrants { s with svp := { s.svp with grants := grantMerge s.svp.grants (l.map clientOfWire) } }

/-- The key mismatch of R148: the standby compares the epoch and the key check value of every cycle with its own. -/
def ntsCompare (epoch kcv : Nat) (s : State) : State :=
  let from_ := if epoch = s.get F.CRL_NTS_EPOCH_EPOCH then none else some (s.crl.epochDiffers.getD s.now)
  let s := { s with crl := { s.crl with epochDiffers := from_ } }
  let bad := decide (kcv ≠ s.get64 A.CRL_NTS_KCV_W0) || from_.any (fun t => decide (t + msPeriods < s.now))
  if bad = s.on F.CRL_NTS_STAT_MISMATCH then s
  else if bad then record 0x3003 0 0 0 0 (alarmRaise 3 (irqSet 15 A.CRL_NTS_IRQ_STAT 1 (s.set F.CRL_NTS_STAT_MISMATCH 1)))
  else alarmClear 3 (s.set F.CRL_NTS_STAT_MISMATCH 0)

/-- The snapshot's TAI-UTC or leap state differs from this unit's (R305). -/
def snapDiffers (r : StateRecord) (s : State) : Bool :=
  decide (r.utc ≠ s.utcOffset) || decide (r.leap ≠ s.get F.DTM_UTC_STAT_PENDING) || (decide (r.leap ≠ 0) && decide (r.leapDay ≠ s.dtm.leapDay))

/-- STATE_RECORD_APPLY: the standby applies a record whose every frame arrived intact, and discards any other whole (R305, R306). -/
def execStateRecordApply (damaged : Nat) (missing : Bool) (r : StateRecord) (s : State) : Host.Outcome State Fault Refusal :=
  .next (if dvlRuns s = false then s
    else
      let s := s.addSat F.DVL_RECERR_CNT_COUNT damaged
      if decide (damaged ≠ 0) || missing || s.on F.DVL_STAT_ACTIVE then s
      else
        let s := { s with dvl := { s.dvl with frameAt := s.now, lastApplied := r.cycle, ptnRefs := r.refs, cycle := r.cycle } }
        let s := ntsCompare r.epoch r.kcv (s.setB F.DVL_STAT_SNAPDIFF (snapDiffers r s))
        if 2 ≤ s.get F.DVL_STAT_PHASE then clientsApply r.clients (grantsApply r.grants s) else s)

/-- STATUS_RECORD_SEND: the standby's frame of each cycle (R304). -/
def execStatusRecordSend (s : State) : Host.Outcome State Fault Refusal :=
  .next (if dvlRuns s && !(s.on F.DVL_STAT_ACTIVE) then
      let refs := ownRefs s
      let s := { s with dvl := { s.dvl with sentRefs := refs } }
      s.emit (.dvl (.status ⟨s.dvl.lastApplied, s.get F.DTM_STATE_STATE, refs, s.get F.CRL_NTS_EPOCH_EPOCH, s.get64 A.CRL_NTS_KCV_W0,
        s.on F.DVL_STAT_LASTING⟩))
    else s)

/-- STATUS_RECORD_RECEIVE: the active unit takes the standby's reference offsets and lasting flag (R309, R310). -/
def execStatusRecordReceive (good : Bool) (r : StatusRecord) (s : State) : Host.Outcome State Fault Refusal :=
  .next (if dvlRuns s = false then s
    else if good = false then s.addSat F.DVL_RECERR_CNT_COUNT 1
    else
      let s := { s with dvl := { s.dvl with frameAt := s.now } }
      if s.on F.DVL_STAT_ACTIVE then
        let s := { s with dvl := { s.dvl with ptnRefs := r.refs, ptnLasting := r.lasting } }
        if r.lasting = s.on F.DVL_STAT_LASTING then s else if r.lasting then declareDisagree s else clearDisagree s
      else s)

/-- BULK_FRAME_RECEIVE: the standby writes the buckets and grants of a BULK frame (R315). -/
def execBulkFrameReceive (good : Bool) (clients : List (Nat × Bytes)) (grants : List GrantChange) (last : Bool) (s : State) :
    Host.Outcome State Fault Refusal :=
  .next (if dvlRuns s = false then s
    else if good = false then { s with dvl := { s.dvl with bulkHole := true } }.addSat F.DVL_RECERR_CNT_COUNT 1
    else
      let s := { s with dvl := { s.dvl with frameAt := s.now } }
      if s.get F.DVL_STAT_PHASE = 2 ∧ s.on F.DVL_STAT_ACTIVE = false then
        let s := clientsApply clients (grantsApply grants s)
        { s with dvl := { s.dvl with bulkLast := s.dvl.bulkLast || last } }
      else s)

/-- BULK_COMPLETE: every bucket and grant entry has been received (R315). -/
def execBulkComplete (s : State) : Host.Outcome State Fault Refusal :=
  .next (if s.get F.DVL_STAT_PHASE = 2 ∧ s.dvl.bulkLast = true ∧ s.dvl.bulkHole = false then
      setPhase 3 { s with dvl := { s.dvl with trackTicks := 0 } }
    else s)

/-- TRACK_COMPLETE: LOCKED with no bad cycle for TRACKT seconds (R315): k ticks in a row cover more than k - 1 ms (R7). -/
def execTrackComplete (s : State) : Host.Outcome State Fault Refusal :=
  .next (if s.get F.DVL_STAT_PHASE = 3 ∧ 1000 * s.get F.DVL_RESYNC_CFG_TRACKT < s.dvl.trackTicks then setPhase 4 s else s)

/-! ## One tick of the pair -/

/-- References within DISTH of the list that both units carry (R310). -/
def closeRefs (s : State) (l other : List (Nat × Int)) : Nat :=
  (l.filter (fun r => other.any (fun q => decide (q.1 = r.1)) && decide (r.2.natAbs ≤ s.get F.DVL_CMP_CFG_DISTH * 65536))).length

/-- Arbitration (R310), with the link up. -/
def arbitration (s : State) : State :=
  let s := { s with dvl := { s.dvl with arbitrate := false } }
  if s.on F.DVL_STAT_LINK then
    let s := irqSet 7 A.DVL_IRQ_STAT 4 (s.addSat F.DVL_ARB_CNT_COUNT 1)
    let own := closeRefs s s.dvl.sentRefs s.dvl.ptnRefs
    let ptn := closeRefs s s.dvl.ptnRefs s.dvl.sentRefs
    if own < ptn then claimUpdate (record 0x0304 0 0 0 0 (s.set F.DVL_STAT_LOSER 1))
    else if own = ptn then record 0x030A 0 0 0 0 (alarmRaise 8 (s.set F.DVL_STAT_DISPUTE 1))
    else s
  else s

/-- One tick of the alignment offset A (R311): the filter of 100 ms in SHADOW, the slew to 0 after ACTIVE rose, and 0 outside a pair. -/
def alignTick (s : State) : State :=
  let a := s.dvl.align
  let step := Frac.int (s.get F.DTM_SLOPE_SLOPE)
  let lim := disthPs s
  let n := if inPair s = false then Frac.zero
    else if s.dvl.slewing then (if a.abs.le step then Frac.zero else if a.num < 0 then a.add step else a.sub step)
    else if s.mode = mShadow then ((a.add ((s.dvl.d.sub a).mul (.of 1 100))).max lim.neg).min lim
    else a
  showPs F.DVL_ALIGN_VALUE n { s with dvl := { s.dvl with align := n, slewing := s.dvl.slewing && decide (n.num ≠ 0) } }

/-- TAKEOVER and HANDOVER on the tick after the edge, with its Datum value and the claims (R302, R455). -/
def takeRecord (s : State) : State :=
  match s.dvl.take with
  | none => s
  | some t =>
    recordAt t.datum (if t.gained then 0x0301 else 0x0302) (srcBlock 3) (t.own + t.partner * 65536) 0 0 0
      { s with dvl := { s.dvl with take := none } }

/-- One tick of the pair: records, arbitration, the end of a disagreement, the age of c, the track time and A. -/
def dvlTick (s : State) : State :=
  let s := alignTick (takeRecord s)
  if inPair s then
    let s := busWatch s
    let s := if s.dvl.arbitrate then arbitration s else s
    let s := if s.on F.DVL_STAT_LASTING = true ∧ s.on F.DVL_STAT_ACTIVE = false ∧ s.dvl.lastBad + retryPeriods ≤ s.now then clearDisagree s else s
    let s := s.setB F.DVL_STAT_CALOK (s.dvl.calAt.any (fun t => decide (s.now ≤ t + 10 * retryPeriods)))
    let ok := decide (s.get F.DVL_STAT_PHASE = 3) && decide (s.get F.DTM_STATE_STATE = 2)
    claimUpdate { s with dvl := { s.dvl with trackTicks := if ok then s.dvl.trackTicks + 1 else 0 } }
  else s

end Sys2Proof.Machine
end

