-- ==== Sys2Proof/Machine/Power.lean ====
section
/-! DEFINITION. Supplies, reset and release, wake-up, host mode requests, the mode decisions of the tick, bank voltages and the test access port (R360-R377,
R424-R427). -/
namespace Sys2Proof.Machine

/-! ## Supplies (R360, R368, R371) -/

/-- The device without any power: only what is fused, or stands outside it, is left (R368). -/
def powerOff (s : State) : State :=
  let t := stripped false s
  let vin := s.on F.SYS_PWR_STAT_VINGOOD
  let vao := s.on F.SYS_PWR_STAT_VAOGOOD
  let t := { t with fbk := FbkState.empty, sys := { t.sys with phase := .off, wakeLatched := false } }
  ((t.setB F.SYS_PWR_STAT_VINGOOD vin).setB F.SYS_PWR_STAT_VAOGOOD vao).set F.SYS_PWR_STAT_ON 0

/-- A powered mode: every mode but DORMANT and MONUMENT (R368). -/
def powered (s : State) : Bool := decide (s.sys.phase = .running) && decide (s.mode ≠ mMonument) && decide (s.mode ≠ mDormant)

/-- MONUMENT from a powered mode: the records reach retention, and PD2 to PD11 go off (R371). -/
def enterMonument (s : State) : State :=
  let s := record 0x0004 (s.mode + 256 * mMonument) 4 0 0 s
  shed true mMonument (drainQueues (record 0x0007 0 0 0 0 s))

/-- VIN_LOST: VIN has been below its falling threshold for 1 us (R360, R368, R371). -/
def execVinLost (s : State) : Host.Outcome State Fault Refusal :=
  .next (if s.on F.SYS_PWR_STAT_VINGOOD then
      let s := s.set F.SYS_PWR_STAT_VINGOOD 0
      let vao := s.on F.SYS_PWR_STAT_VAOGOOD
      match s.sys.phase with
      | .off => s
      | .reset =>
        if vao && s.on F.SYS_MODE_CFG_MONEN then shed true mMonument { s with sys := { s.sys with phase := .running } } else powerOff s
      | .running =>
        if s.mode = mDormant then (if vao then s else powerOff s)
        else if s.mode = mMonument then (if vao then s else powerOff s)
        else if vao && s.on F.SYS_MODE_CFG_MONEN then enterMonument s
        else powerOff s
    else s)

/-- VIN_GOOD: VIN has been above its rising threshold for 1 us (R360). With PORST_N low the device stands in RESET; otherwise a release follows from OFF and
MONUMENT, and from DORMANT where a wake was latched (R366, R368, R374). -/
def execVinGood (porstLow : Bool) (s : State) : Host.Outcome State Fault Refusal :=
  .next (if s.on F.SYS_PWR_STAT_VINGOOD then s
    else
      let s := s.set F.SYS_PWR_STAT_VINGOOD 1
      let s := { s with sys := { s.sys with porstLow := porstLow, nextCause :=
        (match s.sys.phase with
          | .running => if s.mode = mMonument then 3 else 2
          | .off | .reset => 1) } }
      if s.sys.phase = .off then (if porstLow then { s with sys := { s.sys with phase := .reset } } else s)
      else if porstLow then { (stripped true s) with sys := { (stripped true s).sys with phase := .reset, nextCause := s.sys.nextCause } }
      else s)

/-- VAO_GOOD: VAO has been above its rising threshold for 1 us; with VIN not good an OFF device enters MONUMENT with no time (R360, R368). -/
def execVaoGood (s : State) : Host.Outcome State Fault Refusal :=
  .next (if s.on F.SYS_PWR_STAT_VAOGOOD then s
    else
      let s := s.set F.SYS_PWR_STAT_VAOGOOD 1
      if s.sys.phase = .off ∧ s.on F.SYS_PWR_STAT_VINGOOD = false then
        let t := shed true mMonument { s with sys := { s.sys with phase := .running } }
        drainQueues (record 0x0004 (0xFF + 256 * mMonument) 0 0 0 t)
      else s)

/-- VAO_LOST: VAO has been below its falling threshold for 1 us; MONUMENT, and DORMANT without VIN, end in OFF (R360, R368). -/
def execVaoLost (s : State) : Host.Outcome State Fault Refusal :=
  .next (if s.on F.SYS_PWR_STAT_VAOGOOD then
      let s := { s with sys := { s.sys with vaoLow := false } }.set F.SYS_PWR_STAT_VAOGOOD 0
      if s.sys.phase = .running ∧ (s.mode = mMonument ∨ s.mode = mDormant) ∧ s.on F.SYS_PWR_STAT_VINGOOD = false then powerOff s else s
    else s)

/-- VAOLOW: in MONUMENT, VAO has been below 2.90 V for 1 us (R360). The spec names no register that shows it. -/
def execVaolow (s : State) : Host.Outcome State Fault Refusal :=
  .next (if s.sys.phase = .running ∧ s.mode = mMonument then { s with sys := { s.sys with vaoLow := true } } else s)

/-! ## Reset and release (R365-R367) -/

/-- PORST_ASSERT: the 20th consecutive low sample of PORST_N with VIN good: PD0 and PD2 to PD11 are held in reset, and PD1 is not (R365, R368). The entry that
would record the transition is in the part that is reset, and is lost. -/
def execPorstAssert (s : State) : Host.Outcome State Fault Refusal :=
  .next (if s.on F.SYS_PWR_STAT_VINGOOD = true ∧ s.sys.phase ≠ .reset then
      let c := if s.sys.phase = .off then 1 else if s.mode = mMonument then 3 else 2
      let t := stripped true s
      { t with sys := { t.sys with phase := .reset, porstLow := true, nextCause := c, wakeLatched := false } }.set F.SYS_PWR_STAT_ON 2
    else s)

/-- RELEASE: PORST_N rises, VIN becomes good with PORST_N high, or a wake ends DORMANT (R366). In a powered mode none of these is a release. -/
def execRelease (bootsel : Fin 4) (unitId mspiEn : Bool) (s : State) : Host.Outcome State Fault Refusal :=
  .next (if s.on F.SYS_PWR_STAT_VINGOOD = true ∧ powered s = false ∧ (s.sys.phase = .running ∧ s.mode = mDormant → s.sys.wakeLatched = true) then
      let c := match s.sys.phase with
        | .off | .reset => s.sys.nextCause
        | .running => if s.mode = mMonument then 3 else 6
      release true (modeCode s) (if c = 6 then 7 else 5) c bootsel unitId mspiEn s
    else s)

/-! ## Wake-up (R211, R374) -/

/-- The MAC of the magic pattern, first byte first (R211). -/
def wakeMac (s : State) : Bytes := natBE 6 (s.get F.PRT_WAKE_MAC_W1_MAC * 2 ^ 32 + s.get F.PRT_WAKE_MAC_W0_MAC)

/-- Whether a pattern starts at some place of a string. -/
def isInfix (p : Bytes) : Bytes → Bool
  | [] => decide (p = [])
  | x :: xs => decide (p.length ≤ (x :: xs).length) && decide ((x :: xs).take p.length = p) || isInfix p xs

/-- The magic pattern, anywhere after the source address (R211). -/
def magicMatch (s : State) (b : Bytes) : Bool :=
  isInfix (List.replicate 6 0xFF ++ (List.range 16).flatMap (fun _ => wakeMac s)) (b.drop 12)

/-- Masked pattern n (R211). -/
def patternMatch (s : State) (n : Nat) (b : Bytes) : Bool :=
  (List.range 128).all (fun i =>
    !(s.bit (A.PRT_WAKEP_MASK n (i / 32)) (i % 32))
      || decide ((b[i]?).map (·.toNat) = some (fieldGet (s.rd (A.PRT_WAKEP_DATA n (i / 4))) (8 * (i % 4)) 8)))

/-- What the wake detector finds in a frame on a port of the set (0 F0, 1 F1, 2 MGT): source and pattern of PRT_WAKE_STAT (R211). -/
def wakeFrame (s : State) (p : Nat) (b : Bytes) : Option (Nat × Nat) :=
  if s.on F.PRT_WAKE_CFG_MAGICEN && (s.get F.PRT_WAKE_CFG_MAGICPORTS).testBit p && magicMatch s b then some (2, 0)
  else
    ((List.range 8).find? (fun n =>
      (s.get F.PRT_WAKE_CFG_PATEN).testBit n && (s.get (F.PRT_WAKEP_CTL_PORTS n)).testBit p && patternMatch s n b)).map (fun n => (3, n))

/-- A wake source is recorded, and a release is due once VIN is good (R211, R374). -/
def wakeTake (src port pattern : Nat) (s : State) : State :=
  let s := ((s.happen F.PRT_WAKE_STAT_SRC (fun _ => src)).happen F.PRT_WAKE_STAT_PORT (fun _ => port)).happen F.PRT_WAKE_STAT_PATTERN
    (fun _ => pattern)
  { s with sys := { s.sys with wakeLatched := true, nextCause := 6 } }

/-- WAKE_EVENT: an enabled source in DORMANT; a frame counts only when it passes rows 2 to 5 of R198 (R211). -/
def execWakeEvent (input : WakeInput) (s : State) : Host.Outcome State Fault Refusal :=
  .next (if s.sys.phase = .running ∧ s.mode = mDormant ∧ s.sys.wakeLatched = false then
      match input with
      | .pin => if s.on F.PRT_WAKE_CFG_PINEN then wakeTake 1 0 0 s else s
      | .frame port bytes error =>
        if port.val < 4 ∨ error = true ∨ fcsGood bytes = false ∨ bytes.length < 64 ∨ maxFrame s port < bytes.length then s
        else
          match wakeFrame s (port.val - 4) bytes with
          | some (src, n) => wakeTake src (port.val - 4) n s
          | none => s
    else s)

/-! ## Host requests (R369, R372, R373) -/

/-- A refused request (R372, R455). -/
def denyRequest (req reason : Nat) (s : State) : State :=
  record 0x0005 req s.mode reason 0 (withGroup 0 (fun s => s.strike F.SYS_MODE_STAT_REFUSED) s)

/-- The requests that R368 lists for the current mode: 1 MAINT, 2 SAFE, 3 DORMANT, 4 RESTART. -/
def requestListed (m req : Nat) : Bool :=
  match req with
  | 1 => decide (m = mSurvey ∨ m = mServe ∨ m = mShadow ∨ m = mSafe)
  | 2 => decide (m = mSurvey ∨ m = mServe ∨ m = mShadow ∨ m = mMaint)
  | 3 | 4 => decide (m = mSurvey ∨ m = mServe ∨ m = mShadow ∨ m = mSafe ∨ m = mMaint)
  | _ => false

/-- PRT_WAKE_CFG enables a wake source (R373). -/
def wakeEnabled (s : State) : Bool := s.on F.PRT_WAKE_CFG_PINEN || s.on F.PRT_WAKE_CFG_MAGICEN || decide (s.get F.PRT_WAKE_CFG_PATEN ≠ 0)

/-- A write of SYS_MODE_CTL (R372). A second request before the tick is refused: the first has the tick (R369). -/
def modeCtlWrite (v : Word) (s : State) : State :=
  let req := fieldGet v 0 3
  if fieldGet v 16 16 ≠ 0x4D44 ∨ req = 0 then s
  else if 5 ≤ req then denyRequest req 1 s
  else if s.mode = mBoot then denyRequest req 3 s
  else if requestListed s.mode req = false then denyRequest req 2 s
  else if req = 3 ∧ wakeEnabled s = false then denyRequest req 5 s
  else if s.sys.request.isSome then denyRequest req 4 s
  else { s with sys := { s.sys with request := some req } }

/-- The word of a request row: REQ is the row's. -/
def requestWord (v : Word) (req : Nat) : Word := fieldSet v 0 3 req

/-- DORMANT: the records reach retention in PD0, and PD1 to PD11 go off (R373). -/
def enterDormant (s : State) : State :=
  let s := record 0x0004 (s.mode + 256 * mDormant) 1 0 0 s
  shed false mDormant (drainQueues (record 0x0008 0 0 0 0 s))

/-- Carry out an admitted request (R372). -/
def requestRun (req : Nat) (s : State) : State :=
  if requestListed s.mode req = false then denyRequest req 2 s
  else if req = 3 ∧ wakeEnabled s = false then denyRequest req 5 s
  else match req with
    | 1 => setMode mMaint 1 0 0 s
    | 2 => setMode mSafe 1 0 3 s
    | 3 => enterDormant s
    | _ => restart 1 4 s

/-! ## The mode decisions of the tick (R368-R370) -/

/-- The service condition (R370). -/
def serviceCondition (s : State) : Bool :=
  let d := s.get F.DTM_STATE_STATE
  decide (d = 2 ∨ d = 3) || (decide (d = 4) && s.on F.SYS_MODE_CFG_HOSERVE) || s.sys.surveyDone

/-- A lasting fault's response, and whether it takes the tick (R368, R383). The hand-over of a pair has lowered the claim already (R314); it puts a unit in SURVEY into
SHADOW, too (R368). -/
def faultDecision (s : State) : Bool × State :=
  let r := s.flt.resp
  let s := { s with flt := { s.flt with resp := none } }
  match r with
  | none => (false, s)
  | some (r, c) =>
    if s.mode = mSafe ∨ s.mode = mMaint then (false, s)
    else if r = 2 ∧ inPair s = true then (true, if s.mode = mSurvey then setMode mShadow 2 c 0 s else s)
    else (true, setMode mSafe 2 c 1 s)

/-- What the end of BOOT leads to (R341, R352, R368). -/
def bootDecision (s : State) : State :=
  match s.get F.SYS_BOOT_STAT_SLOT with
  | 2 => setMode mSafe 0 0 2 s
  | 3 => setMode mMaint 0 0 0 s
  | _ => setMode mSurvey 0 0 0 s

/-- The mode transitions of one tick, by the order of R369. -/
def modeTick (s : State) : State :=
  let (took, s) := faultDecision s
  let q := s.sys.request
  let s := { s with sys := { s.sys with request := none } }
  match q with
  | some req => if took then denyRequest req 4 s else requestRun req s
  | none =>
    if took then s
    else if s.mode = mBoot ∧ s.sys.boot.stage = .ended then bootDecision s
    else if s.mode = mSurvey ∧ serviceCondition s = true then
      setMode (if inPair s && !(s.on F.DVL_STAT_ACTIVE) then mShadow else mServe) 0 0 0 s
    else s

/-- The clocks of the mode: SECS, and ARCNT after 1 h of service (R372). -/
def modeClock (s : State) : State :=
  let n := s.sys.modeTicks + 1
  let k := if s.mode = mServe ∨ s.mode = mShadow then s.sys.serviceTicks + 1 else 0
  let s := { s with sys := { s.sys with modeTicks := n, serviceTicks := k } }
  let s := s.set F.SYS_MODE_STAT_SECS (if n / 1000 < 0xFFFF then n / 1000 else 0xFFFF)
  if k = 3600000 then s.set F.SYS_MODE_STAT_ARCNT 0 else s

/-- SURVEY_TIMEOUT: SURVEYMAX seconds in SURVEY (R370). -/
def execSurveyTimeout (s : State) : Host.Outcome State Fault Refusal :=
  .next (if s.mode = mSurvey ∧ s.sys.phase = .running ∧ s.get F.SYS_MODE_CFG_SURVEYMAX ≠ 0 ∧ 1000 * s.get F.SYS_MODE_CFG_SURVEYMAX ≤ s.sys.modeTicks then
      { s with sys := { s.sys with surveyDone := true } }
    else s)

/-- SAFE_AUTORST: AUTORST minutes in SAFE, and fewer than three automatic restarts counted (R372). -/
def execSafeAutorst (s : State) : Host.Outcome State Fault Refusal :=
  .next (let a := s.get F.SYS_MODE_CFG_AUTORST
    let n := s.get F.SYS_MODE_STAT_ARCNT
    if s.mode = mSafe ∧ s.sys.phase = .running ∧ a ≠ 0 ∧ n ≠ 3 ∧ 60000 * a ≤ s.sys.modeTicks then restart 6 5 (record 0x0006 n a 0 0 s) else s)

/-! ## Bank voltages (R424, R425) -/

/-- A bank's voltage field: 1 is 2.5 V, 2 is 3.3 V, and anything else 1.8 V; BK0 is fixed. -/
def bankField (w : Word) (b : Nat) : Nat := fieldGet w (2 * b) 2

/-- SYS_IOBANK has taken a new value: the outputs of a bank that changed are high-impedance for 2 ms (R425). -/
def bankMove (old : Word) (s : State) : State :=
  let new := s.rd A.SYS_IOBANK
  let m := (List.range 7).foldl (fun m b => if bankField old b = bankField new b then m else m ||| 2 ^ b) 0
  if m = 0 then s else { s with sys := { s.sys with bankSettling := s.sys.bankSettling ||| m, bankAt := s.now } }

/-- IOBANK_SETTLE: 2 ms after the write the outputs resume (R425). -/
def execIobankSettle (s : State) : Host.Outcome State Fault Refusal :=
  .next (if s.sys.bankSettling ≠ 0 ∧ s.sys.bankAt + 2400000 ≤ s.now then { s with sys := { s.sys with bankSettling := 0 } } else s)

/-! ## The test access port (R427) -/

/-- The TAP takes an instruction while VIN is good. Outside MAINT all but BYPASS, IDCODE and SAMPLE/PRELOAD act as BYPASS. -/
def tapTake (n : Nat) (s : State) : State :=
  if s.on F.SYS_PWR_STAT_VINGOOD then
    { s with sys := { s.sys with tap := if 3 ≤ n ∧ ¬(s.sys.phase = .running ∧ s.mode = mMaint) then 0 else n } }
  else s

/-- The identification register: 0xB, 0x4860, the JEDEC code and 1. -/
def idcode : Nat := 0xB * 2 ^ 28 + 0x4860 * 2 ^ 12 + Config.jedecCode % 2 ^ 11 * 2 + 1

/-- IDCODE: the identification register leaves on TDO, which drives only once the voltage of BK1 is set. -/
def execIdcode (s : State) : Host.Outcome State Fault Refusal :=
  .next (let t := tapTake 1 s
    if s.on F.SYS_PWR_STAT_VINGOOD && s.sys.banksSet then t.emit (.tdo (natLE 4 idcode)) else t)

/-- BYPASS. -/
def execBypass (s : State) : Host.Outcome State Fault Refusal := .next (tapTake 0 s)

/-- SAMPLE/PRELOAD. -/
def execSamplePreload (s : State) : Host.Outcome State Fault Refusal := .next (tapTake 2 s)

/-- EXTEST. -/
def execExtest (s : State) : Host.Outcome State Fault Refusal := .next (tapTake 3 s)

/-- EXTEST_PULSE. -/
def execExtestPulse (s : State) : Host.Outcome State Fault Refusal := .next (tapTake 4 s)

/-- EXTEST_TRAIN. -/
def execExtestTrain (s : State) : Host.Outcome State Fault Refusal := .next (tapTake 5 s)

/-- HIGHZ. -/
def execHighz (s : State) : Host.Outcome State Fault Refusal := .next (tapTake 6 s)

/-- CLAMP. -/
def execClamp (s : State) : Host.Outcome State Fault Refusal := .next (tapTake 7 s)

end Sys2Proof.Machine
end

