-- ==== Sys2Proof/Machine/Clamp.lean ====
section
/-! DEFINITION. The field dictionary's check of an image register: ranges, dependent ranges, and the entries of the clamp report (R354, R356, R359). -/
namespace Sys2Proof.Machine

/-- A clamp entry: counted, held in the report while that has room, and written to the Field Book (R356). -/
def addClamp (w0 w1 w2 w3 : Nat) (s : State) : State :=
  let s := s.addSat F.SYS_CLAMP_CNT_COUNT 1
  let l := s.sys.clamps
  let s := if l.length < 4096 then { s with sys := { s.sys with clamps := l ++ [⟨w0 % 2 ^ 32, w1 % 2 ^ 32, w2 % 2 ^ 32, w3 % 2 ^ 32⟩] } } else s
  record 0x000C w0 w1 w2 w3 s

/-- W0 of a clamp entry: kind and address or tag. -/
def clampHead (kind addr : Nat) : Nat := kind * 2 ^ 24 + addr % 2 ^ 24

/-- W1 of a clamp entry: source, field width and field lsb. -/
def clampPlace (src width lsb : Nat) : Nat := src * 2 ^ 16 + width * 2 ^ 8 + lsb

/-- Clamp a field of `w` bits that is signed. -/
def clampSigned (w : Nat) (lo hi : Int) (x : Nat) : Nat := ofSigned w (clampInt lo hi (toSigned w x))

/-- The largest ring count code that keeps the rings of a port below U16 (SVP_HOSTMAPp). -/
def spreadTop (base : Nat) : Nat := if base + 8 ≤ 16 then 3 else if base + 4 ≤ 16 then 2 else if base + 2 ≤ 16 then 1 else 0

/-- The FS in mHz that the written NUM and DEN of an output synthesizer give, limited by R280. -/
def writtenFreq (s : State) (n : Fin 6) : Frac :=
  let r := ratioInUse (s.get (F.SYN_SYN_NUM_VALUE (n.val + 1))) (s.get (F.SYN_SYN_DEN_VALUE (n.val + 1)))
  (Frac.of r.1 r.2.1).mul (.int 9600000000000)

/-- The range of DIV of an output (R288). -/
def divBounds (s : State) (o : Nat) : Nat × Nat := divRange (s.get (F.SYN_OUT_CFG_FMT o)) (writtenFreq s (outSynth s o))

/-- The value that a field of register `a` loads where the dictionary finds `x`: the nearest bound of its range, or what its description states. The first
cases are those whose rule is more than a pair of bounds. -/
def fieldBound (s : State) (a : Nat) (r : RegRow) (f : FieldRow) (x : Nat) : Nat :=
  if r.base = A.PRT_P_FCTH 0 ∧ f.lsb = 0 then clampNat 0 (fieldGet (s.rd a) 16 9 - 1) x
  else if a = A.DVL_CMP_CFG ∧ f.lsb = 0 then clampNat 1 (s.get F.DVL_CMP_CFG_W) x
  else if a = A.PKE_CFG ∧ f.lsb = 16 then clampNat 0 (s.get F.PKE_CFG_HOSTCORES) x
  else if a = A.SVP_PTP_CFG ∧ f.lsb = 8 then
    (match s.get F.SVP_PTP_CFG_PROFILE with | 1 => clampNat 24 43 x | 2 => clampNat 44 63 x | _ => x)
  else if a = A.SVP_PTP_GRANT ∧ f.lsb = 12 then clampNat 10 (s.get F.SVP_PTP_GRANT_MAXDUR) x
  else if a = A.SVP_PTP_GRANT ∧ f.lsb = 4 then clampSigned 4 (-7) 0 x
  else if a = A.SVP_PTP_GRANT ∧ f.lsb = 0 then clampSigned 4 (-3) 4 x
  else if A.SVP_HOSTMAP 0 ≤ a ∧ a ≤ A.SVP_HOSTMAP 6 ∧ f.lsb = 6 then clampNat 0 (spreadTop (fieldGet (s.rd a) 0 4)) x
  else if r.base = A.SVP_ACL_CTL 0 ∧ f.lsb = 0 then clampNat 0 (if (s.rd a).getLsbD 30 then 128 else 32) x
  else if r.base = A.SVP_SA_CTL 0 ∧ f.lsb = 27 then
    (if a < A.SVP_SA_CTL 256 ∨ x = 4 ∨ x = 5 ∨ x = 6 then x else 6)
  else if r.base = A.SYN_OUT_DIV 0 then
    let b := divBounds s ((a - r.base) / r.stride1)
    clampNat b.1 b.2 x
  else if r.base = A.SYN_OUT_CFG 0 ∧ f.lsb = 29 then (if x = 3 then 1 else x)
  else if a = A.DTM_LEAP_DAY ∧ f.lsb = 20 then (if x = 3 then 0 else x)
  else if a = A.SPU_KE_CFG ∧ f.lsb = 4 then (if x = 0 ∧ s.get F.SPU_KE_CFG_AES256 = 0 then 1 else x)
  else if a = A.SPU_KE_GRP ∧ f.lsb = 0 then (if (s.rd A.SPU_KE_GRP).toNat % 64 = 0 then 1 else x)
  else clampNat f.lo f.hi x

/-- Put a field into a list that rises by bit position. -/
def sortField (f : FieldRow) : List FieldRow → List FieldRow
  | [] => [f]
  | g :: gs => if f.lsb < g.lsb then f :: g :: gs else g :: sortField f gs

/-- The fields that a load writes, from bit 0 upward, with a field on which another's range depends before that one (R354). -/
def checkOrder (a : Nat) (r : RegRow) : List FieldRow :=
  let l := (r.fields.filter (fun f => decide (f.acc = .rw))).foldl (fun l f => sortField f l) []
  let first := if r.base = A.PRT_P_FCTH 0 then 16 else if a = A.DVL_CMP_CFG then 8 else if a = A.PKE_CFG then 24
    else if a = A.SVP_PTP_CFG then 4 else if a = A.SVP_PTP_GRANT then 22 else 32
  let last := if r.base = A.PRT_P_FCTH 0 ∨ a = A.DVL_CMP_CFG then 0 else if a = A.PKE_CFG then 16
    else if a = A.SVP_PTP_CFG then 8 else if a = A.SVP_PTP_GRANT then 12 else 32
  let early := l.filter (fun f => decide (f.lsb < last) && decide (f.lsb ≠ first))
  let dep := l.filter (fun f => decide (f.lsb = first))
  early ++ dep ++ l.filter (fun f => decide (last ≤ f.lsb) && decide (f.lsb ≠ first))

/-- Check one field of a register that has been loaded. -/
def checkField (src a : Nat) (r : RegRow) (s : State) (f : FieldRow) : State :=
  let x := fieldGet (s.rd a) f.lsb f.width
  let v := fieldBound s a r f x
  if v = x then s
  else addClamp (clampHead 0 a) (clampPlace src f.width f.lsb) x v (s.wr a (fieldSet (s.rd a) f.lsb f.width v))

/-- SYN_OUTn_STAT.CLAMP follows whether the last load of DIV was clamped (R288). -/
def divShow (a : Nat) (r : RegRow) (old : Word) (s : State) : State :=
  if r.base = A.SYN_OUT_DIV 0 then
    let o := (a - r.base) / r.stride1
    let m := s.syn.divClamped
    { s with syn := { s.syn with divClamped := if s.rd a = old then m &&& (0xFFF ^^^ 2 ^ o) else m ||| 2 ^ o } }
  else s

/-- Check a register that has been loaded, with source 0 slot A, 1 slot B or 2 live write (R354, R359). -/
def checkReg (src a : Nat) (s : State) : State :=
  match findRow a with
  | some r => divShow a r (s.rd a) ((checkOrder a r).foldl (checkField src a r) s)
  | none => s

/-- The word with the rw fields of a register taken from a written value as it stands, before any check. -/
def RegRow.raw (r : RegRow) (old v : Word) : Word :=
  r.fields.foldl (fun w f => match f.acc with
    | .rw => fieldSet w f.lsb f.width (fieldGet v f.lsb f.width)
    | .ro | .w1c | .wo | .rc | .ws => w) old

/-- The bits of a register that belong to a field. -/
def RegRow.bits (r : RegRow) : Word := r.fields.foldl (fun m f => m ||| fieldMask f.lsb f.width) 0

/-- Load an image register: the raw value, then the check (R353, R354, R359). -/
def loadReg (src a : Nat) (v : Word) (s : State) : State :=
  match findRow a with
  | some r => checkReg src a (s.wr a (r.raw (s.rd a) v))
  | none => s

end Sys2Proof.Machine
end

