-- ==== Sys2Proof/Machine/Pmc.lean ====
section
/-! DEFINITION. The performance-monitor hub: its counters, snapshots, page and tags (R397-R410). -/
namespace Sys2Proof.Machine

/-! ## Counters (R398-R403) -/

/-- DCLK periods of one MCLK cycle. -/
def mclkPeriods : Nat := 12

/-- PMC_SEL_WRITE: a write of PMC_u_SELk stops the counter for two MCLK cycles and clears it unless PRESERVE is set (R403). -/
def selWrite (u : Fin 13) (k : Fin 8) (value : Word) (s : State) : State :=
  let s := regWrite (A.PMC_SEL u k) value s
  let s := { s with pmc := { s.pmc with stopped := s.pmc.stopped.put (8 * u.val + k.val) (s.now + 2 * mclkPeriods) } }
  if s.on (F.PMC_SEL_PRESERVE u k) then s else s.set64 (A.PMC_CTR_W0 u k) 0

/-- Every event counter of every unit is cleared (R403). CYC, OVF and SEL stay. -/
def clearAll (s : State) : State := (List.range 13).foldl (fun s u => s.clear64s (A.PMC_CTR_W0 u 0) 8) s

/-! ## Snapshots (R404, R405, R410) -/

/-- The block of unit u in the counter page (R405). -/
def pageBlock (s : State) (u : Nat) : Bytes :=
  if (s.get F.PMC_USERMAP_UNIT).testBit u then
    natLE 8 (s.get64 (A.PMC_CYC_W0 u))
      ++ (List.range 8).flatMap (fun k => natLE 8 (s.get64 (A.PMC_CTR_W0 u k) % 2 ^ 48 + (if s.bit (A.PMC_OVF u) k then 2 ^ 63 else 0)))
      ++ (List.range 8).flatMap (fun k => natLE 4 (s.rd (A.PMC_SEL u k)).toNat) ++ zeros 24
  else zeros 128

/-- The 4 KiB counter page as a snapshot writes it (R405). -/
def pageBytes (s : State) : Bytes :=
  let t := s.datum
  padTo 4096 (natLE 8 (2 * (s.rd A.PMC_SNAP_SEQ).toNat)
    ++ (natLE 4 (instFrac t) ++ natLE 4 (instNs t) ++ natLE 4 (instSec t) ++ natLE 4 (instSec t / 2 ^ 32))
    ++ natLE 4 (if s.on F.SYN_STAT_FROZEN then 1 else 0) ++ natLE 4 (s.rd A.PMC_USERMAP).toNat ++ zeros 32
    ++ (List.range 13).flatMap (pageBlock s))

/-- What MW2 reads of the page: zero while PMC_USERMAP.EN is 0 and before the first snapshot (R405). -/
def counterPage (s : State) : Bytes :=
  if s.on F.PMC_USERMAP_EN then padTo 4096 s.pmc.page else zeros 4096

/-- The telemetry record of unit u (R410). -/
def telemetry (s : State) (u : Nat) : Bytes :=
  natLE 1 0x12 ++ natLE 1 u ++ natLE 2 (s.rd (A.PMC_OVF u)).toNat ++ natLE 4 (s.rd A.PMC_SNAP_SEQ).toNat ++ instBytes s.datum ++ zeros 4
    ++ natLE 8 (s.get64 (A.PMC_CYC_W0 u)) ++ (List.range 8).flatMap (fun k => natLE 8 (s.get64 (A.PMC_CTR_W0 u k)))

/-- A snapshot at the DCLK edge E, which is the present instant: the page, the sequence number, the interrupt, the telemetry records. -/
def snapshot (s : State) : State :=
  let s := s.wr A.PMC_SNAP_SEQ (BitVec.ofNat 32 ((s.rd A.PMC_SNAP_SEQ).toNat + 1))
  let s := { s with pmc := { s.pmc with page := pageBytes s } }
  let s := irqSet 17 A.PMC_IRQ_STAT 14 s
  if s.on F.PMC_CFG_SNAPREC then
    let x := s
    (List.range 13).foldl (fun s u => if (x.get F.PMC_USERMAP_UNIT).testBit u then pmcRecord (telemetry x u) s else s) s
  else s

/-- PMC_SNAP_PERIOD: SNAPPER ms have passed since the last periodic snapshot, or since SNAPPER was set: p + 1 ticks cover p ms from any instant on (R7, R404). -/
def execPmcSnapPeriod (s : State) : Host.Outcome State Fault Refusal :=
  .next (let p := s.get F.PMC_CFG_SNAPPER
    if p ≠ 0 ∧ p < s.pmc.snapTicks then snapshot { s with pmc := { s.pmc with snapTicks := s.pmc.snapTicks - p } } else s)

/-! ## Tags (R406, R409) -/

/-- The seed of one LFSR: PMC_TAG_SEED, or a draw of the entropy source where it is 0 (R406). -/
def tagSeed (s : State) : Nat × State :=
  if s.get F.PMC_TAG_SEED_SEED = 0 then s.draw 32 else (s.get F.PMC_TAG_SEED_SEED, s)

/-- Seed the LFSR of pipeline n. -/
def seedLane (s : State) (n : Fin 4) : State :=
  let x := tagSeed s
  { x.2 with pmc := { x.2.pmc with lfsr := x.2.pmc.lfsr.set n x.1 } }

/-- Seed the LFSR of service processor n. -/
def seedSpu (s : State) (n : Fin 8) : State :=
  let x := tagSeed s
  { x.2 with pmc := { x.2.pmc with spuLfsr := x.2.pmc.spuLfsr.set n x.1 } }

/-- A load of EN = 1 into PMC_TAG_CFG seeds the packet LFSRs (R406). -/
def tagSeedAll (s : State) : State := if s.on F.PMC_TAG_CFG_EN then (List.finRange 4).foldl seedLane s else s

/-- A load of EN = 1 into PMC_SPU_CFG seeds the instruction LFSRs (R409). -/
def spuSeedAll (s : State) : State := if s.on F.PMC_SPU_CFG_EN then (List.finRange 8).foldl seedSpu s else s

/-- Advance an LFSR by `n` retired instructions, and count the selections among them (R409). -/
def lfsrRun (k : Nat) : Nat → Nat → Nat → Nat × Nat
  | 0, x, c => (x, c)
  | n + 1, x, c =>
    let y := lfsrNext x
    lfsrRun k n y (if y % 2 ^ k = 0 then c + 1 else c)

/-- The record of a tagged instruction (R409). -/
def spuRecord (spu source stall pc fetch issue exec : Nat) : Bytes :=
  natLE 1 0x11 ++ natLE 1 spu ++ natLE 1 source ++ natLE 1 stall ++ natLE 4 pc ++ natLE 8 fetch ++ natLE 4 issue ++ natLE 4 exec ++ zeros 8

/-- SPU_INSTRUCTION_TAG: `offered` instructions have retired on a processor since its last tagged one, and the last of them is tagged when the
LFSR selects it. Selections before it found an instruction in flight and are counted as skipped (R409). -/
def execSpuInstructionTag (spu : Fin 8) (offered : Nat) (source : Fin 4) (stall : Fin 5) (pc fetch issue exec : Nat) (s : State) :
    Host.Outcome State Fault Refusal :=
  .next (if s.on F.PMC_SPU_CFG_EN && (s.get F.PMC_SPU_CFG_SPUS).testBit spu then
      let k := s.get F.PMC_SPU_CFG_K
      let r := lfsrRun k offered s.pmc.spuLfsr[spu] 0
      let hit := decide (r.1 % 2 ^ k = 0 ∧ 0 < offered)
      let skipped := if hit then r.2 - 1 else r.2
      let s := { s with pmc := { s.pmc with spuLfsr := s.pmc.spuLfsr.set spu r.1 } }
      let s := pmcEvent 7 0x02 spu offered s
      let s := if skipped = 0 then s else irqSet 17 A.PMC_IRQ_STAT 15 (s.addSat F.PMC_TAG_SKIP_CNT_COUNT skipped)
      if hit then pmcRecord (spuRecord spu source stall pc fetch issue exec) s else s
    else s)

end Sys2Proof.Machine
end

