-- ==== Sys2Proof/Machine/Boot.lean ====
section
/-! DEFINITION. The Opnida image: slots, whole-image checks, the load of registers, keys, certificates and PTP masters, the end of BOOT, and the flash
registers (R340-R357). -/
namespace Sys2Proof.Machine

/-! ## Reading the image (R340-R344) -/

/-- Bytes of a slot. -/
def slotSize : Nat := 0x8000000

/-- A flash byte: 0xFF where nothing was programmed. -/
def flashByte (s : State) (a : Nat) : Byte := (s.sys.flash.get a).getD 0xFF

/-- `n` bytes of a slot from offset `o`. -/
def imgBytes (s : State) (slot o n : Nat) : Bytes := (List.range n).map (fun i => flashByte s (slot * slotSize + o + i))

/-- A little-endian number of the image. -/
def imgLE (s : State) (slot o n : Nat) : Nat := leNat (imgBytes s slot o n)

/-- One section as its table entry gives it: where it starts, the bytes available from there, and what its own header says (R343). -/
structure Section where
  tag : Nat
  off : Nat
  crc : Nat
  avail : Nat
  ownTag : Nat
  length : Nat
deriving DecidableEq, Repr

/-- Number of sections. -/
def sectCount (s : State) (slot : Nat) : Nat := imgLE s slot 6 2

/-- Image length. -/
def imgLen (s : State) (slot : Nat) : Nat := imgLE s slot 8 4

/-- The section of table entry k (R343). -/
def sectionAt (s : State) (slot k : Nat) : Section :=
  let e := 64 + 16 * k
  let off := imgLE s slot (e + 4) 4
  let next := if k + 1 < sectCount s slot then imgLE s slot (e + 20) 4 else imgLen s slot
  ⟨imgLE s slot e 2, off, imgLE s slot (e + 8) 4, next - off, imgLE s slot off 2, imgLE s slot (off + 4) 4⟩

/-- The section table. -/
def sections (s : State) (slot : Nat) : List Section := (List.range (sectCount s slot)).map (sectionAt s slot)

/-- Bytes of value present: LENGTH, or what the bytes available leave (R343). -/
def Section.present (x : Section) : Nat := if x.length ≤ x.avail - 8 then x.length else x.avail - 8

/-- LENGTH runs past the bytes available. -/
def Section.truncated (x : Section) : Bool := decide (x.avail - 8 < x.length)

/-- A firmware section (R344). -/
def Section.firmware (x : Section) : Bool := decide (0x0100 ≤ x.tag) && decide (x.tag ≤ 0x01FF)

/-- Header and value of a section as present. -/
def sectBytes (s : State) (slot : Nat) (x : Section) : Bytes := imgBytes s slot x.off ((if x.avail < 8 then x.avail else 8) + x.present)

/-- The value of a section as present. -/
def sectValue (s : State) (slot : Nat) (x : Section) : Bytes := imgBytes s slot (x.off + 8) x.present

/-! ## Whole-image checks (R345, R346) -/

/-- Checks 2 and 3. Answers the reason, 0 where the header passes. -/
def headerReason (s : State) (slot : Nat) : Nat :=
  if imgLE s slot 0 4 ≠ 0x4F504E44 then 3
  else
    let n := sectCount s slot
    let len := imgLen s slot
    if imgLE s slot 4 2 ≠ 1 ∨ imgLE s slot 16 2 ≠ 0x4860 ∨ fieldGet (s.rd A.SYS_ID) 8 8 < imgLE s slot 18 1 ∨ len < 4096 ∨ slotSize < len
        ∨ imgLE s slot 60 4 ≠ crc32c (imgBytes s slot 0 60 ++ imgBytes s slot 64 (16 * n)) then 4
    else 0

/-- Offsets are aligned, rise strictly, and lie within the image (R346). -/
def offsetsGood (lo hi : Nat) : List Section → Bool
  | [] => true
  | x :: xs => decide (x.off % 4 = 0) && decide (lo ≤ x.off) && decide (x.off + 8 < hi) && offsetsGood (x.off + 1) hi xs

/-- No firmware tag twice (R346). -/
def firmwareOnce : List Section → Bool
  | [] => true
  | x :: xs => !(x.firmware && xs.any (fun y => decide (y.tag = x.tag))) && firmwareOnce xs

/-- SIG stands only as the last entry, whole (R346). -/
def sigLast : List Section → Bool
  | [] => false
  | [x] => decide (x.tag = 0xFFFF) && decide (x.length = 288) && !x.truncated
  | x :: xs => decide (x.tag ≠ 0xFFFF) && sigLast xs

/-- Check 4. -/
def tableGood (s : State) (slot : Nat) : Bool :=
  let n := sectCount s slot
  decide (2 ≤ n) && decide (n ≤ 64)
    && (let l := sections s slot
        offsetsGood (64 + 16 * n) (imgLen s slot) l && l.all (fun x => decide (x.ownTag = x.tag))
          && l.any (fun x => decide (x.tag = 0x0100)) && firmwareOnce l && sigLast l)

/-- Checks 1 to 4: the reason, 0 where they pass. -/
def slotHeader (readable : Bool) (s : State) (slot : Nat) : Nat :=
  if readable = false then 2
  else
    let r := headerReason s slot
    if r ≠ 0 then r else if tableGood s slot then 0 else 5

/-- The SIG section's fields: 96 bytes each of CUSTKEY, SIGZ and SIGC (R344). -/
def sigField (s : State) (slot i : Nat) : Bytes :=
  match (sections s slot).getLast? with
  | some x => imgBytes s slot (x.off + 8 + 96 * i) 96
  | none => []

/-- An ECDSA P-384 signature over a message, r and s in 96 bytes. -/
def p384Good (key : Nat × Nat) (sig msg : Bytes) : Bool :=
  let r := beAt sig 0 48
  let t := beAt sig 48 48
  let q := p384.has key.1 key.2
  q && decide (0 < r) && decide (r < p384.n) && decide (0 < t) && decide (t < p384.n)
    && p384.verify (some key) (p384.hashInt 384 (beNat (sha384 msg))) r t

/-- SIGZ over the firmware sections (R345). -/
def sigzGood (s : State) (slot : Nat) : Bool :=
  p384Good Config.zomalKey (sigField s slot 1) (((sections s slot).filter (fun x => x.firmware)).flatMap (sectBytes s slot))

/-- No customer key hash is programmed (R345). -/
def otpOpen (s : State) : Bool := decide (s.get F.SYS_OTP_STAT_PROG = 0)

/-- CUSTKEY equals an unrevoked programmed hash, or none is programmed (R345). -/
def custkeyGood (s : State) (slot : Nat) : Bool :=
  otpOpen s || (List.range 4).any (fun i =>
    (s.get F.SYS_OTP_STAT_PROG).testBit i && !((s.get F.SYS_OTP_STAT_REVOKED).testBit i)
      && decide (sha384 (sigField s slot 0) = Config.customerHash i))

/-- SIGC over everything before the SIG section (R345). -/
def sigcGood (s : State) (slot : Nat) : Bool :=
  let k := sigField s slot 0
  match (sections s slot).getLast? with
  | some x => p384Good (beAt k 0 48, beAt k 48 48) (sigField s slot 2) (imgBytes s slot 0 x.off)
  | none => false

/-! ## The slots in turn (R341, R346, R352) -/

/-- The device is in BOOT. -/
def inBoot (s : State) : Bool := decide (s.sys.phase = .running) && decide (s.mode = mBoot)

/-- BOOT is under way and not yet over. -/
def booting (s : State) (st : BootStage) : Bool := inBoot s && decide (s.sys.boot.stage = st)

/-- Change the boot controller. -/
def State.setBoot (s : State) (b : BootRun) : State := { s with sys := { s.sys with boot := b } }

/-- The stage is reached. -/
def bootStage (st : BootStage) (s : State) : State := s.setBoot { s.sys.boot with stage := st }

/-- The mask-ROM configuration: image registers at reset, but PRT_MGT_CFG.EN = 1 (R352). -/
def maskRom (s : State) : State := { s with regs := s.regs.filter (fun e => !(isImage e.1)) }.set F.PRT_MGT_CFG_EN 1

/-- No slot is left (R352). -/
def noImage (s : State) : State := bootStage .finish ((maskRom s).set F.SYS_BOOT_STAT_SLOT 2)

/-- Two slots whose headers passed, in the order in which BOOTSEL 0b10 tries them: the higher SEQ first, A on a tie (R341). -/
def seqOrder (s : State) (l : List Nat) : List Nat :=
  if l = [0, 1] ∧ 0 < toSigned 32 (imgLE s 1 12 4 + 2 ^ 32 - imgLE s 0 12 4) then [1, 0] else l

/-- Go on to the next header or body, or to the mask-ROM configuration. Under 0b10 both headers are read before either body. -/
def bootNext (s : State) : State :=
  let b := s.sys.boot
  let both := decide (s.sys.bootsel = 2)
  if both && !b.headers.isEmpty then s.setBoot { b with slot := none, stage := .header }
  else
    match b.bodies with
    | k :: rest => s.setBoot { b with bodies := rest, slot := some k, stage := .body, since := if both then s.now else b.since }
    | [] => if b.headers.isEmpty then noImage (s.setBoot { b with slot := none }) else s.setBoot { b with slot := none, stage := .header, since := s.now }

/-- A slot is rejected whole: its outcome, IMG_REJECT, and on to the next (R346). The clamp report describes the booted slot alone (R351). -/
def bootReject (slot reason tag : Nat) (s : State) : State :=
  let s := s.set (if slot = 0 then F.SYS_BOOT_STAT_RESA else F.SYS_BOOT_STAT_RESB) reason
  let s := { s with sys := { s.sys with clamps := [] } }.set F.SYS_CLAMP_CNT_COUNT 0
  bootNext (record 0x000B slot reason tag 0 s)

/-- BOOT_SLOT_HEADER: the next slot's header and section table are read and checked (R341, R346). -/
def execBootSlotHeader (readable : Bool) (s : State) : Host.Outcome State Fault Refusal :=
  .next (match booting s .header, s.sys.boot.headers with
    | true, k :: rest =>
      let b := s.sys.boot
      let r := slotHeader readable s k
      if r = 0 then bootNext (s.setBoot { b with headers := rest, bodies := seqOrder s (b.bodies ++ [k]) })
      else bootReject k r 0 (s.setBoot { b with headers := rest })
    | _, _ => s)

/-- The first section whose CRC fails (R346). -/
def badSection (s : State) (slot : Nat) : Option Section := (sections s slot).find? (fun x => decide (crc32c (sectBytes s slot x) ≠ x.crc))

/-- BOOT_SLOT_BODY_READ: the slot has been read to its end, or a section's CRC failed (R346, check 5). -/
def execBootSlotBodyRead (s : State) : Host.Outcome State Fault Refusal :=
  .next (match booting s .body, s.sys.boot.slot with
    | true, some k =>
      match badSection s k with
      | some x => bootReject k 6 x.tag s
      | none => bootStage .signatures s
    | _, _ => s)

/-- BOOT_SIGNATURE_VERIFY: SIGZ, then CUSTKEY and SIGC (R345, R346). -/
def execBootSignatureVerify (s : State) : Host.Outcome State Fault Refusal :=
  .next (match booting s .signatures, s.sys.boot.slot with
    | true, some k =>
      if sigzGood s k = false then bootReject k 7 0 s
      else
        let s := if otpOpen s then record 0x000A 0 0 0 0 (s.set F.SYS_BOOT_STAT_OPEN 1) else s
        if custkeyGood s k && sigcGood s k then bootStage .firmware s else bootReject k 8 0 s
    | _, _ => s)

/-- 2 s in DCLK periods. -/
def bootLimit : Nat := 2400000000

/-- Every power domain but PD0 and PD1 returns to its reset state in BOOT (R346). The Field Book, the fault manager and the system controller stay. -/
def resetDomains (s : State) : State :=
  let s := drainQueues s
  let t := stripped true s
  let own := s.regs.filter (fun e => decide (e.1 < 0x10000) && !(isImage e.1))
  { t with regs := own.foldl (fun m e => regPut m e.1 e.2) t.regs, sys := s.sys, flt := s.flt }

/-- BOOT_TIMEOUT: a slot has not reached the end of BOOT within 2 s of the start of its read (R346, check 8). -/
def execBootTimeout (s : State) : Host.Outcome State Fault Refusal :=
  .next (match s.sys.boot.slot with
    | some k =>
      if inBoot s = true ∧ s.sys.boot.stage ≠ .ended ∧ s.sys.boot.stage ≠ .header ∧ s.sys.boot.since + bootLimit ≤ s.now then
        bootReject k 9 0 (resetDomains s)
      else s
    | none => s)

/-! ## Firmware and known-answer tests (R350) -/

/-- Isolate each unit of a mask. -/
def answerTests (code : FaultCode) (n mask : Nat) (s : State) : State :=
  (List.range n).foldl (fun s i => if mask.testBit i then knownAnswerFail code i s else s) s

/-- The entropy source fails its start-up tests, as under R169. -/
def entropyTest (ok : Bool) (s : State) : State :=
  if ok || rngFailed s then s
  else faultSend .rngFail 18 0 0 0 (pmcEvent 5 0x06 18 1 (irqSet 15 A.CRL_NTS_IRQ_STAT 3 (s.set F.CRL_NTS_STAT_NORNG 1)))

/-- The first section with a tag, as present (R344). -/
def sectionOf (s : State) (slot tag : Nat) : Bytes := (((sections s slot).find? (fun x => decide (x.tag = tag))).map (sectValue s slot)).getD []

/-- The firmware of the accepted slot is loaded (R38, R348). -/
def loadFirmware (s : State) : State :=
  match s.sys.boot.slot with
  | some k => { s with ke := { s.ke with firmware := sectionOf s k 0x0100, fwData := sectionOf s k 0x0101 } }
  | none => s

/-- BOOT_FIRMWARE_START: the firmware is loaded, the service processors start, and the tests of R350 report (R348). -/
def execBootFirmwareStart (laneFail : BitVec 18) (coreFail : BitVec 16) (rngOk : Bool) (s : State) : Host.Outcome State Fault Refusal :=
  .next (if inBoot s = true ∧ s.sys.boot.stage ≠ .ended then
      let s := entropyTest rngOk (answerTests .coreFail 16 coreFail.toNat (answerTests .laneFail 18 laneFail.toNat s))
      if s.sys.boot.stage = .firmware then bootStage .regs (loadFirmware s) else s
    else s)

/-! ## Registers (R343, R347, R353, R354) -/

/-- Tags of configuration sections (R344). -/
def knownTag (t : Nat) : Bool := decide (t = 0x0200) || decide (t = 0x0201) || decide (t = 0x0202) || decide (t = 0x0203) || decide (t = 0x02F0)

/-- The clamp entries of the sections themselves: TRUNCATED, UNKNOWN and DUPLICATE, in table order (R343, R347). -/
def sectionClamps (src : Nat) (s : State) : List Nat → List Section → State
  | _, [] => s
  | seen, x :: xs =>
    let w1 := clampPlace src 0 0
    let s := if x.truncated then addClamp (clampHead 3 x.tag) w1 x.length x.present s else s
    if x.firmware || decide (x.tag = 0xFFFF) then sectionClamps src s seen xs
    else if knownTag x.tag = false then sectionClamps src (addClamp (clampHead 6 x.tag) w1 x.length 0 s) seen xs
    else if seen.contains x.tag then sectionClamps src (addClamp (clampHead 5 x.tag) w1 x.length 0 s) seen xs
    else sectionClamps src s (x.tag :: seen) xs

/-- The value of the first section with a tag; empty where there is none. -/
def valueOf (s : State) (slot tag : Nat) : Bytes :=
  match (sections s slot).find? (fun x => decide (x.tag = tag)) with
  | some x => sectValue s slot x
  | none => []

/-- The whole REGS records of the section: address and value (R353, R355). -/
def regRecords (b : Bytes) : List (Nat × Nat) :=
  let n := leAt b 0 4
  let whole := (b.length - 4) / 8
  (List.range (if n < whole then n else whole)).map (fun k => (leAt b (4 + 8 * k) 4, leAt b (8 + 8 * k) 4))

/-- Apply one REGS record (R353). `seen` holds the value of the last record of each register. -/
def applyRecord (src : Nat) (p : State × Map Nat) (e : Nat × Nat) : State × Map Nat :=
  let (s, seen) := p
  let (a, v) := e
  let w1 := clampPlace src 0 0
  match (if a % 4 = 0 ∧ a < 2 ^ 24 then findRow a else none) with
  | some r =>
    if r.image then
      let s := match seen.get a with | some old => addClamp (clampHead 5 a) w1 old 0 s | none => s
      let w := BitVec.ofNat 32 v
      let extra := w &&& ~~~ r.bits
      let s := if extra = 0 then s else addClamp (clampHead 1 a) w1 extra.toNat 0 s
      (s.wr a (r.raw (s.rd a) w), seen.put a v)
    else (addClamp (clampHead 2 a) w1 v 0 s, seen)
  | none => (addClamp (clampHead 2 a) w1 v 0 s, seen)

/-- An output synthesizer takes its ratio and STEER from the registers of the image (R280, R281). -/
def imageSynth (s : State) (n : Fin 6) : State :=
  if n.val < 2 then s
  else
    let x : Synth := s.synth n
    let steer := s.get (F.SYN_SYN_CFG_STEER (n.val + 1))
    relock n (s.setSynth n { x with steer := steer })

/-- The Datum takes the start domain from the image (DTM_CFG.START). -/
def imageDatum (s : State) : State := s.set F.DTM_STATE_ACTIVE (s.get F.DTM_CFG_START)

/-- After a loss of PD1, the model of OSCIN starts from the seeds of the image, once (R267). -/
def imageSeeds (s : State) : State :=
  if s.bm.unseeded then { s with bm := { s.bm with osc := seedModel s, unseeded := false } } else s

/-- What the blocks take from the image registers when they are in force: bank voltages, synthesizers, oscillator choice, field ports, Datum, and the seeds (R206, R267,
R273, R424). -/
def imageInForce (s : State) : State :=
  let s := allSynths.foldl imageSynth { s with sys := { s.sys with banksSet := true } }
  let s := if s.on F.SYN_CTL_FORCEXO && !(s.on F.SYN_STAT_REF) && s.dtm.started then setQuality false (fallBack s) else s
  claimUpdate (showModel (imageSeeds (imageDatum (fieldSettle 1 (fieldSettle 0 s)))))

/-- BOOT_REGS_APPLY: the records in order, then the check of every field (R353, R354). -/
def execBootRegsApply (s : State) : Host.Outcome State Fault Refusal :=
  .next (match booting s .regs, s.sys.boot.slot with
    | true, some k =>
      let s := sectionClamps k s [] (sections s k)
      let r := (regRecords (valueOf s k 0x0200)).foldl (applyRecord k) (s, [])
      let s := r.2.foldl (fun (s : State) (e : Nat × Nat) => checkReg k e.1 s) r.1
      bootStage .keys (imageInForce s)
    | _, _ => s)

/-! ## Keys (R144, R185, R188, R355) -/

/-- COUNT within the capacity and the whole entries present; one that is not is clamped and reported (R355). -/
def countClamp (src tag cap whole : Nat) (b : Bytes) (s : State) : Nat × State :=
  let n := leAt b 0 4
  let m := if cap < whole then cap else whole
  if m < n then (m, addClamp (clampHead 4 tag) (clampPlace src 0 0) n m s) else (n, s)

/-- Round up to a multiple of 4. -/
def pad4 (n : Nat) : Nat := (n + 3) / 4 * 4

/-- The whole entries of a section whose entries have a 4-byte header that ends in a length: header, then that many bytes padded to 4 (R344). `fuel` bounds the
entries. -/
def lengthEntries : Nat → Bytes → List (Bytes × Bytes)
  | 0, _ => []
  | fuel + 1, b =>
    let n := leAt b 2 2
    if b.length < 4 ∨ b.length < 4 + n then []
    else (b.take 4, slice b 4 n) :: lengthEntries fuel (b.drop (4 + pad4 n))

/-- Load one KEYS entry (R188). -/
def loadKey (s : State) (e : Bytes × Bytes) : State :=
  let n := leAt e.1 0 2
  let fail := fun (st : Nat) => record 0x3C01 n st 0 0 s
  if n = 510 ∨ n = 511 then fail 0x15
  else if 512 ≤ n then fail 0x10
  else if (s.pke.slots.get n).isSome then fail 0x14
  else if blobLen e.2 = 0 ∨ blobLen e.2 ≠ e.2.length then fail 0x0A
  else match openBlob e.2 with
    | some k => fillSlot 0x3C02 n k 0 s
    | none => fail 0x0A

/-- Slots 510 and 511 are derived (R185). -/
def deriveReserved (s : State) : State :=
  let s := storeSlot 510 (some (reservedSlot 510 "FX4860 transport")) s
  let s := storeSlot 511 (some (reservedSlot 511 "FX4860 attest")) s
  (s.set F.KST_STAT_ATTOK 1).set F.KST_STAT_PUFOK 1

/-- The generated root key of ROOTSRC = 1 (R144). -/
def generateRoot (s : State) : State :=
  let n := s.get F.CRL_NTS_CFG_ROOTSLOT
  if s.on F.CRL_NTS_CFG_ROOTSRC = false ∨ n = 510 ∨ n = 511 then s
  else
    let s := eraseSlot n 0 s
    if rngFailed s then s
    else
      let d := drawKey 1 4 2 s
      fillSlot 0x3C03 n d.1 0 d.2

/-- BOOT_KEYS_LOAD: slots 510 and 511, the KEYS entries, and the generated root key (R144, R185, R188). Under BOOTSEL 0b11 the reserved slots alone (R352). -/
def execBootKeysLoad (s : State) : Host.Outcome State Fault Refusal :=
  .next (if booting s .keys then
      let s := deriveReserved s
      match s.sys.boot.slot with
      | some k =>
        let b := valueOf s k 0x0201
        let es := lengthEntries b.length (b.drop 4)
        let c := countClamp k 0x0201 510 es.length b s
        let s := (es.take c.1).foldl loadKey c.2
        bootStage .certs (crlRekey (generateRoot s))
      | none => bootStage .finish (maskRom s)
    else s)

/-! ## Certificates and PTP masters (R159, R344, R355) -/

/-- The whole certificates at the front of a string: each is one DER element with a definite length. -/
def wholeCerts : Nat → Bytes → Bytes
  | 0, _ => []
  | fuel + 1, b =>
    let l0 := beAt b 1 1
    let k := if l0 < 128 then 0 else l0 - 128
    let n := 2 + k + (if l0 < 128 then l0 else beAt b 2 k)
    if b.length < 2 ∨ b.length < n then [] else b.take n ++ wholeCerts fuel (b.drop n)

/-- Take one CERTS entry: INDEX and CLEN are clamped, a cut certificate is dropped, and a repeated INDEX replaces the earlier chain (R355). -/
def loadChain (src : Nat) (s : State) (e : Bytes × Bytes) : State :=
  let i := leAt e.1 0 1
  let n := leAt e.1 2 2
  let s := if 3 < i then addClamp (clampHead 0 0x0202) (clampPlace src 8 0) i 3 s else s
  let s := if 12288 < n then addClamp (clampHead 0 0x0202) (clampPlace src 16 16) n 12288 s else s
  let c := if 12288 < n then wholeCerts 12288 (e.2.take 12288) else e.2
  { s with ke := { s.ke with chains := s.ke.chains.put (if 3 < i then 3 else i) c } }

/-- One PTPMASTERS entry of 24 bytes: INSTANCE and FAMILY are clamped (R344, R355). -/
def loadMaster (src : Nat) (s : State) (e : Bytes) : State :=
  let i := leAt e 0 1
  let f := leAt e 1 1
  let s := if 1 < i then addClamp (clampHead 0 0x0203) (clampPlace src 8 0) i 1 s else s
  let s := if 2 < f then addClamp (clampHead 0 0x0203) (clampPlace src 8 8) f 2 s else s
  let f := if 2 < f then 2 else f
  let i := if 1 < i then 1 else i
  let n := if f = 0 then 6 else if f = 1 then 4 else 16
  if 8 ≤ (s.dtm.masters.filter (fun m => decide (m.inst = i))).length then s
  else { s with dtm := { s.dtm with masters := s.dtm.masters ++ [⟨i, f, leAt e 2 1, leAt e 4 n⟩] } }

/-- The clamp entry of an instance whose list has more than eight entries (R355). -/
def mastersOver (src : Nat) (es : List Bytes) (s : State) (i : Nat) : State :=
  let n := (es.filter (fun e => decide ((if 1 < leAt e 0 1 then 1 else leAt e 0 1) = i))).length
  if 8 < n then addClamp (clampHead 4 0x0203) (clampPlace src 0 0) n 8 s else s

/-- BOOT_CERTS_CHECK: the chains against their slots, and the PTPMASTERS lists to PC0 and PC1 (R159, R348). -/
def execBootCertsCheck (s : State) : Host.Outcome State Fault Refusal :=
  .next (match booting s .certs, s.sys.boot.slot with
    | true, some k =>
      let b := valueOf s k 0x0202
      let es := lengthEntries b.length (b.drop 4)
      let c := countClamp k 0x0202 4 es.length b s
      let s := checkCerts ((es.take c.1).foldl (loadChain k) c.2)
      let p := valueOf s k 0x0203
      let d := countClamp k 0x0203 16 ((p.length - 4) / 24) p s
      let ms := (List.range d.1).map (fun j => slice p (4 + 24 * j) 24)
      bootStage .finish ([0, 1].foldl (mastersOver k ms) (ms.foldl (loadMaster k) d.2))
    | _, _ => s)

/-! ## The end of BOOT (R348, R352) -/

/-- The fallback of TAI-UTC is loaded at the end of BOOT (R59). -/
def loadFallback (s : State) : State := utcResolve { s with dtm := { s.dtm with fallback := s.getI F.DTM_UTC_CFG_OFFSET } }

/-- The client-table keys where the entropy source has failed: derived from the device-unique key with the Datum at the end of BOOT (R95). DESIGN CHOICE (assumption log
87): the info is the 12-byte layout of that instant, and the first 16 bytes are the first key. -/
def deriveClientKeys (s : State) : State :=
  let k := hkdf Config.deviceKey (instBytes s.datum) 32
  clearClients { s with svp := { s.svp with key1 := beAt k 0 16, key2 := beAt k 16 16, keysDerived := true } }

/-- BOOT_END: the image is loaded, register writes are admitted, the fallback of TAI-UTC is loaded, and the client-table keys are drawn, or derived where the entropy source
has failed (R59, R95, R169, R348). The next mode follows on the tick (R368). -/
def execBootEnd (s : State) : Host.Outcome State Fault Refusal :=
  .next (if booting s .finish then
      let s := { s with sys := { s.sys with writesOpen := true, banksSet := true } }
      let s := match s.sys.boot.slot with
        | some k =>
          let s := (s.set F.SYS_BOOT_STAT_SLOT k).set (if k = 0 then F.SYS_BOOT_STAT_RESA else F.SYS_BOOT_STAT_RESB) 1
          s.set F.SYS_BOOT_SEQ_SEQ (imgLE s k 12 4)
        | none => s
      let s := s.set F.SYS_BOOT_TIME_TIME ((s.now - s.sys.releasedAt) / 1200000)
      let s := loadFallback (if rngFailed s then deriveClientKeys s else drawClientKeys s)
      let s := spuSeedAll (tagSeedAll (pairsAtBootEnd s))
      let s := (List.finRange 4).foldl (fun (s : State) (p : Fin 4) => showConflict s p) s
      bootStage .ended (claimUpdate (refreshValues s))
    else s)

/-- DRAM_TRAINING_DONE: the DRAM is trained, and the retained entries move to the journal (R348, R394). -/
def execDramTrainingDone (s : State) : Host.Outcome State Fault Refusal :=
  .next (if powered s = true ∧ s.on F.SYN_STAT_SYN0LOCK = true ∧ s.on F.HMI_MEM_STAT_TRAINED = false then
      let s := s.set F.HMI_MEM_STAT_TRAINED 1
      if s.fbk.resumed then s else chainResume s
    else s)

/-! ## The flash registers (R357) -/

/-- Whether R357 permits an operation at an address. -/
def flashPermitted (s : State) (a : Nat) : Bool :=
  let m := s.mode
  let k := s.get F.SYS_BOOT_STAT_SLOT
  if m = mMaint ∨ (m = mSafe ∧ s.get F.SYS_MODE_STAT_SAFECAUSE = 2) then true
  else if m = mSurvey ∨ m = mServe ∨ m = mShadow ∨ m = mSafe then
    s.on F.SYS_LIVECTL_FLASH && !(s.bit A.SYS_LIVELOCK 31) && decide (k ≠ a / slotSize)
  else false

/-- The 256 bytes of the buffer. -/
def flashBuffer (s : State) : Bytes := (List.range 64).flatMap (fun k => natLE 4 (s.rd (A.SYS_FL_BUF k)).toNat)

/-- A write of SYS_FL_CTL with GO (R357). GO clears ERR; while BUSY it is ignored. -/
def flashGo (p : Path) (v : Word) (s : State) : State :=
  if s.sys.flashOp.isSome then s
  else
    let op := fieldGet v 28 2
    let s := (s.set F.SYS_FL_CTL_OP op).set F.SYS_FL_CTL_ERR 0
    let a := s.get F.SYS_FL_ADDR_ADDR
    if flashPermitted s a = false then
      record 0x0002 A.SYS_FL_CTL v.toNat 3 (match p with | .mw0 => 0 | .mspi => 1) (s.set F.SYS_FL_CTL_ERR 1)
    else if a % (if op = 2 then 65536 else 256) ≠ 0 then s.set F.SYS_FL_CTL_ERR 3
    else
      let s := { s with sys := { s.sys with flashOp := some (if op = 3 then 0 else op, a, if op = 1 then flashBuffer s else []) } }
      let s := s.set F.SYS_FL_CTL_BUSY 1
      if op = 2 ∧ a % slotSize = 0 then record 0x000D a 0 0 0 s else s

/-- A write of SYS_FL_CTL: OP, and with GO the start of the operation. -/
def flashCtlWrite (p : Path) (v : Word) (s : State) : State :=
  if v.getLsbD 31 then flashGo p v s else s.set F.SYS_FL_CTL_OP (fieldGet v 28 2)

/-- Store a flash byte. The map lists no byte that reads as erased. -/
def flashPut (m : Map Byte) (a : Nat) (b : Byte) : Map Byte := if b = 0xFF then m.del a else m.put a b

/-- Store bytes from an address on. -/
def flashStore : Nat → Bytes → Map Byte → Map Byte
  | _, [], m => m
  | a, b :: bs, m => flashStore (a + 1) bs (flashPut m a b)

/-- Program bytes: an erased byte takes the buffer's. What a byte holds that was not erased before is not stated, and is free (assumption log 5). -/
def flashProgram : Nat → Bytes → State → State
  | _, [], s => s
  | a, b :: bs, s =>
    let d : Byte × State := if flashByte s a = 0xFF then (b, s) else (let r := s.draw 8; (BitVec.ofNat 8 r.1, r.2))
    flashProgram (a + 1) bs { d.2 with sys := { d.2.sys with flash := flashPut d.2.sys.flash a d.1 } }

/-- Bytes of free value over a part of the flash: what a failed program or erase leaves is not stated (assumption log 5). -/
def flashScramble (a n : Nat) (s : State) : State :=
  let d := s.drawBytes n
  { d.2 with sys := { d.2.sys with flash := flashStore a d.1 d.2.sys.flash } }

/-- Fill the buffer from the flash. -/
def flashFetch (a : Nat) (s : State) : State :=
  (List.range 64).foldl (fun (s : State) (k : Nat) =>
    s.wr (A.SYS_FL_BUF k) (BitVec.ofNat 32 (leNat ((List.range 4).map (fun i => flashByte s (a + 4 * k + i)))))) s

/-- FLASH_OP_DONE: the operation completes, or fails (R357). -/
def execFlashOpDone (failed : Bool) (s : State) : Host.Outcome State Fault Refusal :=
  .next (match s.sys.flashOp with
    | none => s
    | some (op, a, buf) =>
      let s := { s with sys := { s.sys with flashOp := none } }.set F.SYS_FL_CTL_BUSY 0
      if failed then
        let s := s.set F.SYS_FL_CTL_ERR 2
        if op = 0 then s else flashScramble a (if op = 2 then 65536 else 256) s
      else if op = 0 then flashFetch a s
      else if op = 1 then flashProgram a buf s
      else { s with sys := { s.sys with flash := flashStore a (List.replicate 65536 0xFF) s.sys.flash } })

end Sys2Proof.Machine
end

