-- ==== Sys2Proof/Machine/Stake.lean ====
section
/-! DEFINITION. Stake units: compensation changes, the self-test, variable latencies, and the two-step server's Follow_Up (R128-R143). -/
namespace Sys2Proof.Machine

/-- A change of compensation takes effect on the present edge E (R137): what was captured before it keeps the compensation that software had set before, that
of `pre`; and a main port assigns no ticket until the next model refresh. Tickets keep the compensation that they were staked with. -/
def compChanged (pre : State) (n : Fin 7) (s : State) : State :=
  let u := s.stkUnit n
  let l := u.changes ++ [⟨s.datum, setRx pre n, setTx pre n⟩]
  let s := s.setStk n { u with changes := l.drop (l.length - 64) }
  if h : n.val < 4 then s.setPort ⟨n.val, h⟩ { s.port ⟨n.val, h⟩ with suspended := true } else s

/-- Whether a port that has a self-test is administratively down (R143). -/
def calAllowed (s : State) (n : Nat) : Bool :=
  if n < 4 then !(s.on (F.PRT_P_CFG_EN n)) else decide (n = 6) && !(s.on F.PRT_MGT_CFG_EN)

/-- A write of STK_n_CAL (R143). -/
def calWrite (n : Fin 7) (v : Word) (s : State) : State :=
  if v.getLsbD 0 && calAllowed s n && !(s.on (F.STK_CAL_BUSY n)) then
    ((s.set (F.STK_CAL_BUSY n) 1).set (F.STK_CAL_FAIL n) 0).setStk n { s.stkUnit n with calFrom := s.sys.ticks }
  else s

/-- Enabling the port while the self-test runs abandons it (R143): RES and FAIL keep their values, and CALDONE is not set. -/
def calAbandon (n : Nat) (s : State) : State := s.set (F.STK_CAL_BUSY n) 0

/-- The limit on the residual in ps (R143). -/
def calLimit (s : State) (n : Nat) : Nat :=
  if n = 6 then 400 else if 2 ≤ s.get (F.PRT_P_CFG_SPEED n) then 80 else 200

/-- STAKE_SELF_TEST_DONE: 2 ms after the start, with the loop latency measured, in ps (R143). The third tick after the start is the first that 2 ms lie
before (R7). -/
def execStakeSelfTestDone (n : Fin 7) (loopPs : Int) (s : State) : Host.Outcome State Fault Refusal :=
  .next (if s.on (F.STK_CAL_BUSY n) && decide ((s.stkUnit n).calFrom + 3 ≤ s.sys.ticks) then
      let sp := stakeSpeed s n
      let u := s.stkUnit n
      let t := s.bm.dieTemp
      let res := loopPs - ((Config.fixedRx n sp t + Config.fixedTx n sp t + u.vrx + u.vtx : Nat) : Int)
      let bad := decide (calLimit s n < res.natAbs)
      let s := ((s.set (F.STK_CAL_BUSY n) 0).setI (F.STK_CAL_RES n) (clampInt (-32768) 32767 res)).setB (F.STK_CAL_FAIL n) bad
      let s := irqSet 9 (A.STK_IRQ_STAT n) 1 s
      if bad then faultSend .stkCal n 0 0 0 s else s
    else s)

/-- VARIABLE_LATENCY_MEASURE: the unit of a main port or MGT has measured its variable latencies in ps (R132). F0 and F1 have none. -/
def execVariableLatencyMeasure (n : Fin 7) (vrx vtx : Nat) (s : State) : Host.Outcome State Fault Refusal :=
  .next (if (n.val < 4 ∨ n.val = 6) ∧ halted s = false then
      pmcEvent 2 0x05 n 1 ((s.set (F.STK_STAT_ALIGNED n) 1).setStk n { s.stkUnit n with vrx := vrx, vtx := vtx })
    else s)

/-- The Follow_Up of a Sync with its egress instant (R58, R139). -/
def followUp (x : TwoStepSync) (t : Instant) : Bytes :=
  let h := parsePtp x.header
  ptpMessage 8 h.domain (h.flags &&& 0xFDFF) (instFrac t) h.port h.seq h.logInt (ptpStamp t)

/-- FOLLOW_UP_SEND: the two-step server takes the oldest egress record of F0, F1 or MGT and follows up its Sync (R139, R140). A record with
status ABANDONED, and a Sync whose record was lost, has none. In a freeze the service processors stand (R33). -/
def execFollowUpSend (n : Fin 7) (s : State) : Host.Outcome State Fault Refusal :=
  .next (let u := s.stkUnit n
    match (if halted s then [] else u.queue) with
    | [] => s
    | r :: rest =>
      let s := (s.setStk n { u with queue := rest, syncs := u.syncs.filter (fun x => decide (x.tag ≠ r.tag)) }).set
        (F.STK_STAT_QLEVEL n) rest.length
      match r.inst, u.syncs.find? (fun x => decide (x.tag = r.tag)) with
      | some t, some x => txDevice n ({ x.env with srcPort := 320, dstPort := 320 }.frame (followUp x t)) s
      | _, _ => s)

end Sys2Proof.Machine
end

