-- ==== Sys2Proof/Machine/Register.lean ====
section
/-! DEFINITION. Register access through MW0 and MSPI: what a read returns and does, which writes are admitted, and what a write that is admitted does at
once (R8-R17, R339, R349, R358, R359, R412); the commands that are writes or reads of a named register. -/
namespace Sys2Proof.Machine

/-! ## What a read returns (R9, R10) -/

/-- The number of a path in records and emissions: 0 MW0, 1 MSPI (R387). -/
def pathCode (p : Path) : Nat := match p with | .mw0 => 0 | .mspi => 1

/-- The index of address `a` in `count` registers at `base` that lie `stride` apart. -/
def idxAt (base stride count a : Nat) : Option Nat :=
  if base ≤ a ∧ (a - base) % stride = 0 ∧ (a - base) / stride < count then some ((a - base) / stride) else none

/-- The MSI-X table (R412). -/
def inMsix (a : Nat) : Bool := decide (0x484000 ≤ a) && decide (a < 0x484400)

/-- The Pending Bit Array (R412). -/
def inPba (a : Nat) : Bool := decide (0x485000 ≤ a) && decide (a < 0x485008)

/-- Entry v of the MSI-X table. One that nothing has written is zero and masked (PRESUMED, assumption log 42: the base specification's value). -/
def msixEntry (s : State) (v : Nat) : MsixEntry := (s.hmi.msix.get v).getD ⟨0, 0, true⟩

/-- A word of the MSI-X table: address low and high, data, vector control with the mask in bit 0. -/
def msixWord (s : State) (a : Nat) : Word :=
  let e := msixEntry s ((a - 0x484000) / 16)
  match (a - 0x484000) / 4 % 4 with
  | 0 => BitVec.ofNat 32 e.addr
  | 1 => BitVec.ofNat 32 (e.addr / 2 ^ 32)
  | 2 => BitVec.ofNat 32 e.data
  | _ => if e.masked then 1 else 0

/-- The pending bits of the source groups (R413). -/
def irqWord (s : State) : Word :=
  (List.range 18).foldl (fun (w : Word) (g : Nat) => if groupPending s g then fieldSet w g 1 1 else w) 0

/-- Word k of the clamp report entry that SYS_CLAMP_IDX names; 0 beyond the entries held (R356). -/
def clampWord (s : State) (k : Nat) : Word :=
  match s.sys.clamps[s.get F.SYS_CLAMP_IDX_IDX]? with
  | some e => BitVec.ofNat 32 (match k with | 0 => e.w0 | 1 => e.w1 | 2 => e.w2 | _ => e.w3)
  | none => 0

/-- Word k of the Datum (R43). -/
def datumWord (s : State) (k : Nat) : Word :=
  let t := s.datum
  BitVec.ofNat 32 (match k with
    | 0 => instFrac t
    | 1 => instNs t
    | 2 => instSec t
    | _ => instSec t / 2 ^ 32 % 2 ^ 16)

/-- SIV lanes with a job in flight (R163, R164, R167). -/
def sivBusy (s : State) : Nat := (s.svp.lanes.toList.filter (fun l => decide (l.jobs ≠ []))).length

/-- What a ring register reads: fields that do not apply to a ring read 0, and D16 to D23 do not exist (R323). -/
def ringView (r off : Nat) (v : Word) : Word :=
  if ringExists r = false then 0
  else match off with
    | 0x20 => fieldSet (fieldSet v 18 14 (if r < 16 then fieldGet v 18 14 else 0)) 0 14 (if r < 32 then fieldGet v 0 14 else 0)
    | 0x24 => if 16 ≤ r ∧ r < 24 then v else 0
    | 0x2C | 0x30 => if r < 32 then v else 0
    | _ => v

/-- A wo field reads 0 (R9). -/
def dropWo (r : RegRow) (v : Word) : Word :=
  r.fields.foldl (fun w f => match f.acc with
    | .wo => fieldSet w f.lsb f.width 0
    | .ro | .rw | .w1c | .rc | .ws => w) v

/-- A word that follows the state of the machine and has no store of its own. -/
def liveView (s : State) (a : Nat) (v : Word) : Word :=
  if a = A.SYS_IRQ_STAT then irqWord s
  else if (idxAt (A.PRT_P_PAUSE_STAT 0) 0x10000 4 a).isSome then (showPaused ((a - A.PRT_P_PAUSE_STAT 0) / 0x10000) s).rd a
  else if a = A.CRL_NTS_STAT then fieldSet v 0 4 (sivBusy s)
  else match idxAt (A.SYS_CLAMP_W 0) 4 4 a, idxAt A.DTM_TIME_W0 4 4 a, idxAt (A.SYN_SYN_CUR 1) 0x40 6 a, idxAt (A.SYN_OUT_STAT 0) 0x40 12 a,
      idxAt (A.SYN_OUT_LAT 0) 0x40 12 a with
    | some k, _, _, _, _ => clampWord s k
    | none, some k, _, _, _ => datumWord s k
    | none, none, some k, _, _ =>
      if h : k < 6 then BitVec.ofNat 32 (ofSigned 32 (((synthY s ⟨k, h⟩).1.mul (.int 1000000000)).round)) else v
    | none, none, none, some o, _ =>
      let w := fieldSet (fieldSet v 30 2 (outState s o)) 0 4 (outCauses s o)
      fieldSet w 28 1 (if s.syn.divClamped.testBit o then 1 else 0)
    | none, none, none, none, some o => BitVec.ofNat 32 (ofSigned 32 (outLat s o))
    | none, none, none, none, none => ownedView s a v

/-- What the word at a register address holds, seen through a register path. A live register of a domain that is off reads 0 (R364), and so does an address with
no register (R10). -/
def viewWord (s : State) (a : Nat) : Word :=
  if inMsix a then msixWord s a
  else if inPba a then BitVec.ofNat 32 (s.hmi.pba / (if a = 0x485000 then 1 else 2 ^ 32))
  else if liveOff s a then 0
  else match findRow a with
    | none => 0
    | some r =>
      let v := dropWo r (liveView s a (s.rd a))
      match idxAt 0x481000 4 1024 a with
      | some _ => ringView ((a - 0x481000) / 0x40) ((a - 0x481000) % 0x40) v
      | none => v

/-! ## Reading (R9, R12, R13) -/

/-- The latches of a path. -/
def State.latches (s : State) (p : Path) : Map Word := match p with | .mw0 => s.latchMw0 | .mspi => s.latchMspi

/-- Replace the latches of a path. -/
def State.setLatches (s : State) (p : Path) (m : Map Word) : State :=
  match p with | .mw0 => { s with latchMw0 := m } | .mspi => { s with latchMspi := m }

/-- A read of the lowest-order word latches the higher words of the value (R12). -/
def latchWords (p : Path) (r : RegRow) (a : Nat) (s : State) : State :=
  if 1 < r.words ∧ r.word = 0 then
    s.setLatches p ((List.range (r.words - 1)).foldl (fun (m : Map Word) (k : Nat) => m.put (a + 4 * (k + 1)) (viewWord s (a + 4 * (k + 1)))) (s.latches p))
  else s

/-- What a read of address `a` returns on a path: a higher word comes from the latch where the path has one (R12). -/
def readWord (p : Path) (a : Nat) (s : State) : Word :=
  match findRow a with
  | some r =>
    if liveOff s a = true ∨ r.word = 0 then viewWord s a
    else ((s.latches p).get a).getD (viewWord s a)
  | none => viewWord s a

/-- A read of TRN_CHn_RES_SEQ latches the result set of its channel first (R232). -/
def readPrepare (a : Nat) (s : State) : State :=
  match idxAt (A.TRN_CH_RES_SEQ 0) 0x100 24 a with
  | some n => if h : n < 24 then resLatch n (s.chan ⟨n, h⟩).latest s else s
  | none => s

/-- The effects of a read of address `a` on a path after its word is taken: the latch, and the clearing of rc fields (R9, R12). -/
def readEffect (p : Path) (a : Nat) (s : State) : State :=
  if liveOff s a then s
  else match findRow a with
    | none => s
    | some r =>
      let t := latchWords p r a s
      t.wr a (r.cleared (t.brought a) (t.rd a))

/-- An access on a path is an event of unit SYS (R400). -/
def countAccess (p : Path) (s : State) : State := pmcEvent 0 (match p with | .mw0 => 0x06 | .mspi => 0x07) 0x80 1 s

/-- A register read on a path: the word, and the state after it. -/
def hostRead (p : Path) (a : Nat) (s : State) : Word × State :=
  let s := readPrepare a s
  (readWord p a s, countAccess p (readEffect p a s))

/-! ## The MSI-X table (R321, R412) -/

/-- A write of a word of the MSI-X table. A vector that is unmasked while its bit is pending sends its message (R321). -/
def msixWrite (a : Nat) (v : Word) (s : State) : State :=
  let n := (a - 0x484000) / 16
  let e := msixEntry s n
  let e' : MsixEntry := match (a - 0x484000) / 4 % 4 with
    | 0 => { e with addr := e.addr / 2 ^ 32 * 2 ^ 32 + v.toNat / 4 * 4 }
    | 1 => { e with addr := v.toNat * 2 ^ 32 + e.addr % 2 ^ 32 }
    | 2 => { e with data := v.toNat }
    | _ => { e with masked := v.getLsbD 0 }
  let s := { s with hmi := { s.hmi with msix := s.hmi.msix.put n e' } }
  if e.masked && !e'.masked && s.hmi.pba.testBit n && s.on F.HMI_STAT_MSIX then
    signalVector n { s with hmi := { s.hmi with pba := s.hmi.pba ^^^ 2 ^ n } }
  else s

/-! ## Live registers -/

/-- Do `f`, then signal the vector of every group whose enabled pending bit rose (R414). For register writes, which set no bit of a block themselves. -/
def withAllGroups (f : State → State) (s : State) : State :=
  let t := f s
  (List.range 18).foldl (fun (u : State) (g : Nat) => if groupEnabled t g && !groupEnabled s g then signalVector (32 + g) u else u) t

/-- A write that does no more than its access codes say (R9). -/
def plainWrite (a : Nat) (v : Word) (s : State) : State := withAllGroups (regWrite a v) s

/-- SYS_LIVELOCK takes the first write after the release (R9, R358). -/
def livelockWrite (v : Word) (s : State) : State :=
  if s.sys.liveLocked then s
  else { (s.wr A.SYS_LIVELOCK (v &&& 0x80007FFF)) with sys := { s.sys with liveLocked := true } }

/-- FLT_CLEAR: ones clear SYS_FLT_LATCH; the alarm FLT_LASTING ends when nothing is left (R385). -/
def latchWrite (v : Word) (s : State) : State :=
  let s := regWrite A.SYS_FLT_LATCH v s
  if s.rd A.SYS_FLT_LATCH = 0 then alarmClear 14 s else s

/-- A ring's BASE or WB takes a committed value while EN and ACTIVE are 0 (R326). -/
def ringAddrCommit (p : Path) (r a : Nat) (v : Word) (s : State) : State :=
  let hi := s.copyOr p (a + 4)
  let s := dropCopies p [a + 4] s
  if ringExists r && !(ringOn s r) && !(s.on (F.HMI_R_STAT_ACTIVE r)) then regWrite (a + 4) hi (regWrite a v s) else s

/-- A write of LIM, COAL, IRQ or STAT of a ring: a field that does not apply to the ring ignores it (R323). An interrupt that IRQ enables
fires when its completions have been written (R321). -/
def ringPlain (r off a : Nat) (v : Word) (s : State) : State :=
  if ringExists r = false then s
  else match off with
    | 0x20 =>
      let old := s.rd a
      let v := if r < 16 then v else fieldSet v 18 14 (fieldGet old 18 14)
      regWrite a (if r < 32 then v else fieldSet v 0 14 (fieldGet old 0 14)) s
    | 0x24 => if 16 ≤ r ∧ r < 24 then regWrite a v s else s
    | 0x1C => ringCheck r (regWrite a v s)
    | _ => regWrite a v s

/-- A write of a ring register (R323-R326). -/
def ringWrite (p : Path) (a : Nat) (v : Word) (s : State) : State :=
  let r := (a - 0x481000) / 0x40
  match (a - 0x481000) % 0x40 with
  | 0x00 | 0x08 => ringAddrCommit p r a v s
  | 0x10 => ringCfgWrite r v s
  | 0x14 => ringTailWrite r v s
  | off => ringPlain r off a v s

/-- A write of PMC_CTL: SNAP, then CLRALL (R403, R404). -/
def pmcCtlWrite (v : Word) (s : State) : State :=
  let s := if v.getLsbD 0 then snapshot s else s
  if v.getLsbD 1 then clearAll s else s

/-- A live register whose write does more than its access codes say: registers from an address on, and the action on one of them. -/
structure LiveHook where
  base : Nat
  stride : Nat
  count : Nat
  act : Nat → Word → State → State

/-- Those registers. -/
def liveHooks (p : Path) : List LiveHook := [
  ⟨A.SYS_IRQ_EOI, 4, 1, fun _ v => eoiWrite v⟩,
  ⟨A.SYS_MODE_CTL, 4, 1, fun _ v => modeCtlWrite v⟩,
  ⟨A.SYS_LIVELOCK, 4, 1, fun _ v => livelockWrite v⟩,
  ⟨A.SYS_FL_CTL, 4, 1, fun _ v => flashCtlWrite p v⟩,
  ⟨A.SYS_FLT_LATCH, 4, 1, fun _ v => latchWrite v⟩,
  ⟨A.SYS_ALARM_ACK, 4, 1, fun _ v => ackAlarms v⟩,
  ⟨A.PMC_CTL, 4, 1, fun _ v => pmcCtlWrite v⟩,
  ⟨A.DVL_CTL, 4, 1, fun _ v => dvlCtlWrite v⟩,
  ⟨A.SYN_SYN_RAMPCTL 1, 0x40, 6, fun n v s => if h : n < 6 then rampWrite ⟨n, h⟩ v s else s⟩,
  ⟨A.SYN_OUT_CTL 0, 0x40, 12, fun o v => outCtlWrite o v⟩,
  ⟨A.TRN_EVQ_POP, 4, 1, fun _ v s => if v.getLsbD 0 then evqPop s else s⟩,
  ⟨A.DTM_DOMCTL, 4, 1, fun _ v => domctlWrite (fieldGet v 1 2) (v.getLsbD 0)⟩,
  ⟨A.DTM_CMP_CTL 0, 0x20, 16, fun n v => cmpCtlWrite n v⟩,
  ⟨A.DTM_CMP_TGT_W0 0, 0x20, 16, fun n v => cmpCommit p n v⟩,
  ⟨A.PRT_CNTCLR 0, 0x10000, 7, fun n v s => if v.getLsbD 0 then prtCounterClear n s else s⟩,
  ⟨A.PRT_MDIO_CMD, 4, 1, fun _ v => mdioWrite v⟩,
  ⟨A.STK_CAL 0, 0x1000, 7, fun n v s => if h : n < 7 then calWrite ⟨n, h⟩ v s else s⟩,
  ⟨A.SVP_PL_CNTCLR 0, 0x10, 5, fun n v s => if v.getLsbD 0 then svpCounterClear n s else s⟩,
  ⟨A.SKO_P_CNTCLR 0, 0x100, 4, fun n v s => if h : n < 4 then (if v.getLsbD 0 then skoCounterClear ⟨n, h⟩ s else s) else s⟩,
  ⟨A.CRL_NTS_CNTCLR, 4, 1, fun _ v s => if v.getLsbD 0 then crlCounterClear s else s⟩,
  ⟨A.SPU_KE_CNTCLR, 4, 1, fun _ v s => if v.getLsbD 0 then s.clear64s (A.SPU_KE_CNT_W0 0) 8 else s⟩,
  ⟨A.PKE_ABORT, 4, 1, fun _ v => abortWrite (v.extractLsb' 0 8)⟩,
  ⟨A.PKE_CNTCLR, 4, 1, fun _ v s => if v.getLsbD 0 then pkeCounterClear s else s⟩,
  ⟨0x481000, 4, 1024, fun k v => ringWrite p (0x481000 + 4 * k) v⟩]

/-- PMC_u_SELk at an address (R403). -/
def selAt (a : Nat) : Option (Fin 13 × Fin 8) :=
  let u := (a - A.PMC_SEL 0 0) / 0x100
  let o := (a - A.PMC_SEL 0 0) % 0x100
  if h : u < 13 then (if g : o / 4 < 8 then (if A.PMC_SEL 0 0 ≤ a ∧ o % 4 = 0 then some (⟨u, h⟩, ⟨o / 4, g⟩) else none) else none) else none

/-- A write of a live register that the access rules admit. -/
def liveWrite (p : Path) (a : Nat) (v : Word) (s : State) : State :=
  (selAt a).elim
    (((liveHooks p).find? (fun h => (idxAt h.base h.stride h.count a).isSome)).elim (plainWrite a v s) (fun h => h.act ((a - h.base) / h.stride) v s))
    (fun u => selWrite u.1 u.2 v s)

/-! ## Image registers at run time (R14, R358, R359) -/

/-- The bit of SYS_LIVECTL.BLOCK that covers an address; none for a SYS register. -/
def blockBit (a : Nat) : Option Nat :=
  let b := a / 0x10000
  if b = 0 then none
  else if b < 8 then some (b - 1)
  else if b < 0x10 then none
  else some (7 + (b - 0x10) / 8)

/-- SYS_LIVECTL grants a live change of the block, and SYS_LIVELOCK has not withdrawn it (R358). -/
def granted (s : State) (a : Nat) : Bool :=
  match blockBit a with
  | some k => decide (k < 15) && s.bit A.SYS_LIVECTL k && !(s.bit A.SYS_LIVELOCK k)
  | none => false

/-- Why a write of an image register is not permitted (R14, R358, R387): 1 no grant, 2 never writable at run time. -/
def denyReason (s : State) (a : Nat) (v : Word) : Option Nat :=
  if s.mode = mMaint then none
  else if a = A.SYS_LIVECTL then some 2
  else if A.SPU_KE_CERT 0 ≤ a ∧ a ≤ A.SPU_KE_CERT 3 then some 2
  else if a = A.DVL_CFG ∧ v.getLsbD 31 ≠ (s.rd a).getLsbD 31 then some 2
  else if granted s a then none
  else some 1

/-- The words of a value from its lowest on, with what a commit loads into each (R12). -/
def commitWords (p : Path) (r : RegRow) (a : Nat) (v : Word) (s : State) : List (Nat × Word) :=
  (a, v) :: (List.range (r.words - 1)).map (fun k => (a + 4 * (k + 1), s.copyOr p (a + 4 * (k + 1))))

/-- Load one word of a permitted write, and record it (R214, R359). -/
def loadLive (p : Path) (s : State) (e : Nat × Word) : State :=
  let old := s.rd e.1
  let s := withAllGroups (loadReg 2 e.1 (ownedMask s e.1 old e.2)) s
  record 0x0003 e.1 old.toNat (s.rd e.1).toNat (pathCode p) s

/-- What a Transit channel measures with, and which owner has it (R214, R233). -/
def chSettings (s : State) (n : Nat) : List Nat :=
  [chOwner s n, chEdge s n, chPresc s n, chDecim s n, chMinw s n, chHoldoff s n, (s.rd (A.TRN_CH_CFG n)).toNat, (s.rd (A.TRN_CH_GATE n)).toNat,
    (s.rd (A.TRN_CH_STATN n)).toNat, (s.rd (A.TRN_CH_DLY n)).toNat]

/-- Channels whose settings changed restart (R233). -/
def transitSettle (pre s : State) : State :=
  (List.finRange 24).foldl (fun (t : State) (n : Fin 24) =>
    showOwner (if chSettings pre n = chSettings s n then t else transitRestart n t) n) s

/-- A write of EN = 1 to STATN starts a new block, whatever it changes (R231). -/
def statStart (a : Nat) (s : State) : State :=
  match idxAt (A.TRN_CH_STATN 0) 0x100 24 a with
  | some n => if h : n < 24 then (if s.on (F.TRN_CH_STATN_EN n) then s.setChan ⟨n, h⟩ { s.chan ⟨n, h⟩ with stats := TrnStats.empty } else s) else s
  | none => s

/-- Inputs whose CFG, NOM or monitor settings changed fail and qualify anew (R250). One that is disabled does so at the tick (R244). -/
def refSettle (pre s : State) : State :=
  (List.finRange 12).foldl (fun (t : State) (i : Fin 12) =>
    if [A.TRV_REF_CFG i, A.TRV_REF_NOM i, A.TRV_REF_MON i, A.TRV_REF_PPSWIN i].all (fun a => decide (pre.rd a = s.rd a)) || !(s.on (F.TRV_REF_CFG_EN i)) then t
    else
      refChanged i (decide (inputKind pre i ≠ inputKind s i ∨ nominalDeci pre i ≠ nominalDeci s i ∨ chEdge pre (channelOf i) ≠ chEdge s (channelOf i))) t) s

/-- Inputs that a port labels from now on (R241). -/
def todSettle (pre s : State) : State :=
  (List.finRange 12).foldl (fun (t : State) (i : Fin 12) =>
    match portOf s i with
    | some p => if portOf pre i = some p then t else todRestart i p t
    | none => t) s

/-- A change of PRT_Pn_CFG or PRT_MGT_CFG: a port that is enabled abandons its self-test (R143), one that is disabled or changes its speed loses its link, and the
power domains follow (R363). -/
def portSettle (p : Fin 7) (en0 en1 changed : Bool) (s : State) : State :=
  let s := if en1 && !en0 && s.on (F.STK_CAL_BUSY p) then calAbandon p s else s
  let s := if changed || !en1 then (if linkUp s p then linkDown p s else pathLost p s) else s
  powerUpdate (if p.val = 6 ∧ en1 = false then s.set F.PRT_MGT_STAT_SPDREJ 0 else s)

/-- A change of PRT_Fn_CFG or of PLCA node of a field port: enabled, it abandons its self-test (R143) and comes up with its clock; disabled, it goes down; and another
PLCA setting starts its cycle anew (R206, R208). -/
def fieldPortSettle (pre : State) (n : Fin 2) (s : State) : State :=
  let on := s.on (F.PRT_F_CFG_EN n)
  let s := if on && !(pre.on (F.PRT_F_CFG_EN n)) && s.on (F.STK_CAL_BUSY (n.val + 4)) then calAbandon (fieldPort n) s else s
  powerUpdate (if pre.on (F.PRT_F_CFG_EN n) ≠ on then (if on then fieldSettle n s else fieldDown n s)
    else if pre.get (F.PRT_F_CFG_PLCAEN n) ≠ s.get (F.PRT_F_CFG_PLCAEN n) ∨ pre.get (F.PRT_F_PLCA0_NODEID n) ≠ s.get (F.PRT_F_PLCA0_NODEID n) then
      fieldSettle n s
    else s)

/-- A change of a domain's source: its estimate starts anew (R66). -/
def domainRestart (fs : Bool) (s : State) : State :=
  let f := fun (d : Domain) => { d with window := [], withinTicks := 0, lockedTicks := 0, fed := false }
  { s with dtm := if fs then { s.dtm with fs := f s.dtm.fs } else { s.dtm with bs := f s.dtm.bs } }

/-- What a change of a Synthesis register does at once (R280, R285, R288, R294). -/
def synSettle (pre : State) (a : Nat) (s : State) : State :=
  match (List.finRange 6).find? (fun (n : Fin 6) => decide (a = A.SYN_SYN_NUM (n.val + 1) ∨ a = A.SYN_SYN_DEN (n.val + 1)
      ∨ (a = A.SYN_SYN_CFG (n.val + 1) ∧ pre.on (F.SYN_SYN_CFG_EN (n.val + 1)) ≠ s.on (F.SYN_SYN_CFG_EN (n.val + 1))))) with
  | some n => allOuts.foldl (fun (t : State) (o : Fin 12) => if outSynth t o = n ∧ (effDiv t o).2 = true then divLoad o t else t) (relock n s)
  | none =>
    match idxAt (A.SYN_OUT_DIV 0) 0x40 12 a with
    | some o => relock (outSynth s o) s
    | none => synthChanged (allOuts.foldl (fun (t : State) (o : Fin 12) => if (effDiv t o).2 then divLoad o t else t) s)

/-- What a change of a DTM register does at once (R59, R66). -/
def dtmSettle (pre : State) (a : Nat) (s : State) : State :=
  if a = A.DTM_UTC_CFG then utcResolve { s with dtm := { s.dtm with fallback := s.getI F.DTM_UTC_CFG_OFFSET } }
  else if a = A.DTM_FS_CFG ∧ pre.get F.DTM_FS_CFG_SRC ≠ s.get F.DTM_FS_CFG_SRC then domainRestart true s
  else if a = A.DTM_BS_CFG ∧ pre.get F.DTM_BS_CFG_SRC ≠ s.get F.DTM_BS_CFG_SRC then domainRestart false s
  else s

/-- The compensation registers of Stake unit n, and whether a write has changed one (R137). -/
def compensation (pre s : State) (n : Fin 7) : Bool :=
  [A.STK_TRIM n, A.STK_BRD n, A.STK_PHYRX n, A.STK_PHYTX n].any (fun a => decide (pre.rd a ≠ s.rd a))
    || decide (pre.get (F.STK_CFG_PLANE n) ≠ s.get (F.STK_CFG_PLANE n))

/-- What an image register that has taken a new value does at once. A parameter that is applied per request or per tick needs nothing here (R28, R29). -/
def imageHook (pre : State) (a : Nat) (s : State) : State :=
  let s := keepHistory pre.regs s
  match a / 0x10000 with
  | 0x00 => if a = A.SYS_IOBANK then bankMove (pre.rd a) s else s
  | 0x02 => if a = A.PMC_TAG_CFG then tagSeedAll s else if a = A.PMC_SPU_CFG then spuSeedAll s else s
  | 0x03 => claimUpdate (transitSettle pre s)
  | 0x04 => synSettle pre a s
  | 0x05 =>
    let s := transitSettle pre (todSettle pre (refSettle pre s))
    showModel ((List.finRange 4).foldl (fun (t : State) (p : Fin 4) => showConflict t p) s)
  | 0x06 => statStart a (transitSettle pre s)
  | 0x07 => dtmSettle pre a s
  | 0x16 => if a = A.PRT_MGT_CFG then
      portSettle 6 (pre.on F.PRT_MGT_CFG_EN) (s.on F.PRT_MGT_CFG_EN) (decide (pre.get F.PRT_MGT_CFG_MODE ≠ s.get F.PRT_MGT_CFG_MODE)) s else s
  | 0x20 | 0x21 => stopSeries s
  | 0x30 => if a = A.CRL_NTS_CFG then crlRekey s else s
  | b =>
    if h : 0x10 ≤ b ∧ b < 0x14 then
      let p : Fin 7 := ⟨b - 0x10, by omega⟩
      if a = A.PRT_P_CFG p then
        transitSettle pre (portSettle p (pre.on (F.PRT_P_CFG_EN p)) (s.on (F.PRT_P_CFG_EN p))
          (decide (pre.get (F.PRT_P_CFG_SPEED p) ≠ s.get (F.PRT_P_CFG_SPEED p))) s)
      else if a = A.PRT_P_FC p ∨ a = A.PRT_P_FCTH p ∨ a = A.PRT_P_PCPMAP p then flowControl p s
      else s
    else if b = 0x14 then fieldPortSettle pre 0 s
    else if b = 0x15 then fieldPortSettle pre 1 s
    else if b = 0x18 then
      (List.finRange 7).foldl (fun (t : State) (n : Fin 7) => if compensation pre s n then compChanged pre n t else t) s
    else s

/-- A register of an owned Transit channel that its owner sets: whole, TRIG and HOLDOFF, or in part, CFG (R214). -/
def ownedWhole (s : State) (a : Nat) : Bool :=
  decide (0x61000 ≤ a) && decide (a < 0x62800) && decide (chOwner s ((a - 0x61000) / 0x100) ≠ 0) && [4, 8].contains ((a - 0x61000) % 0x100)
def ownedPart (s : State) (a : Nat) : Bool :=
  decide (0x61000 ≤ a) && decide (a < 0x62800) && decide (chOwner s ((a - 0x61000) / 0x100) ≠ 0) && decide ((a - 0x61000) % 0x100 = 0)

/-- A write of an image register, or the commit of a value that is wider than 32 bits: refused with its record, or loaded, checked and recorded (R12, R14,
R358, R359). What a Transit channel's owner sets takes no host write, and such a write leaves no record (R214). The number is the status that MSPI returns. -/
def imageWrite (p : Path) (r : RegRow) (a : Nat) (v : Word) (s : State) : Nat × State :=
  let ws := commitWords p r a v s
  let t := dropCopies p (ws.tail.map (·.1)) s
  if ownedWhole s a then (0, t)
  else match denyReason s a v with
  | some k => if ownedPart s a = true ∧ ownedMask s a (s.rd a) v = s.rd a then (0, t) else (3, pmcEvent 0 0x08 0x80 1 (record 0x0002 a v.toNat k (pathCode p) t))
  | none => (0, imageHook s a (ws.foldl (loadLive p) t))

/-! ## Writing (R13, R349) -/

/-- Some field of the register can be written with a value: its higher words wait for the commit of R12. -/
def RegRow.wide (r : RegRow) : Bool := decide (1 < r.words) && r.fields.any (fun f => decide (f.acc = .rw))

/-- The word waits in a pending copy: a higher word of a writable value, or the lowest word of a compare unit's period, which its target commits (R12, R72). -/
def waits (r : RegRow) (a : Nat) : Bool :=
  (r.wide && decide (r.word ≠ 0)) || (idxAt (A.DTM_CMP_PER_W0 0) 0x20 16 a).isSome

/-- A register write that reaches the device, with the byte enables of a PCIe write: the status that MSPI returns, and the state after it. -/
def writeAccess (p : Path) (a be : Nat) (v : Word) (s : State) : Nat × State :=
  if s.sys.writesOpen = false then (3, withGroup 0 (fun s => s.strike F.SYS_BOOT_STAT_WDROP) s)
  else if p = .mw0 ∧ be ≠ 15 ∧ ((findRow a).isSome = true ∨ inMsix a = true) then (0, record 0x0001 a be 0 0 s)
  else if inMsix a || inPba a then (match p with | .mw0 => (0, if inMsix a then msixWrite a v s else s) | .mspi => (3, s))
  else match findRow a with
    | none => (0, s)
    | some r =>
      if liveOff s a then (0, s)
      else if waits r a then (0, s.setCopies p ((s.copies p).put a v))
      else if r.image then imageWrite p r a v s
      else (0, liveWrite p a v s)

/-- A register access is performed: the device has power, and MCLK runs (R279, R339, R363). -/
def accessible (s : State) : Bool := powered s && mclkRuns s

/-- A register write on a path. Without power, or with MCLK stopped, nothing is written (R279, R363). -/
def hostWrite (p : Path) (a be : Nat) (v : Word) (s : State) : Nat × State :=
  if accessible s = false then (0, s) else writeAccess p a be v (countAccess p s)

/-- A write of one register as a command. -/
def regCommand (p : Path) (a : Nat) (v : Word) (s : State) : Host.Outcome State Fault Refusal := .next (hostWrite p a 15 v s).2

/-- The bits of a word whose bytes are enabled. -/
def byteMask (be : Nat) : Word :=
  [0, 1, 2, 3].foldl (fun (w : Word) (i : Nat) => if be.testBit i then fieldSet w (8 * i) 8 0xFF else w) 0

/-- A read of one register as a command: the whole register is read, and the bytes that the byte enables address leave on its path (R13). MSPI reads whole
words. -/
def readCommand (p : Path) (a be : Nat) (s : State) : Host.Outcome State Fault Refusal :=
  .next (if accessible s then
      let x := hostRead p a s
      x.2.emit (.read (pathCode p) a be (x.1 &&& byteMask be))
    else s)

/-! ## The commands -/

/-- REGISTER_WRITE (R8-R14, R359). PCIe addresses whole words; the byte enables say which bytes. -/
def execRegisterWrite (path : Path) (addr : BitVec 24) (be : BitVec 4) (value : Word) (s : State) : Host.Outcome State Fault Refusal :=
  .next (hostWrite path (addr.toNat / 4 * 4) be.toNat value s).2

/-- READ_CLEAR: a register read, which clears the rc fields (R9). A read of fewer than four bytes is a full read and returns the addressed bytes (R13). -/
def execReadClear (reader : ReadBy) (addr : BitVec 24) (s : State) : Host.Outcome State Fault Refusal :=
  readCommand reader.path (addr.toNat / 4 * 4) reader.be.toNat s

/-- WIDE_VALUE_LATCH_READ: a read of the lowest-order word of a value, which latches the higher words (R12). -/
def execWideValueLatchRead (reader : ReadBy) (addr : BitVec 24) (s : State) : Host.Outcome State Fault Refusal :=
  readCommand reader.path (addr.toNat / 4 * 4) reader.be.toNat s

/-- TRN_RES_SEQ_READ: a read of TRN_CHn_RES_SEQ (R232). -/
def execTrnResSeqRead (reader : ReadBy) (ch : Fin 24) (s : State) : Host.Outcome State Fault Refusal :=
  readCommand reader.path (A.TRN_CH_RES_SEQ ch) reader.be.toNat s

/-- LIVELOCK_WRITE (R358). -/
def execLivelockWrite (path : Path) (value : Word) (s : State) : Host.Outcome State Fault Refusal := regCommand path A.SYS_LIVELOCK value s

/-- STAKE_COMPENSATION_CHANGE: a write of a compensation register of unit n (R137). -/
def execStakeCompensationChange (n : Fin 7) (addr : BitVec 24) (value : Word) (path : Path) (s : State) : Host.Outcome State Fault Refusal :=
  if [A.STK_CFG n, A.STK_TRIM n, A.STK_BRD n, A.STK_PHYRX n, A.STK_PHYTX n].contains addr.toNat then regCommand path addr.toNat value s else .next s

/-- TRANSIT_SETTING_CHANGE: a write of CFG, TRIG, HOLDOFF, GATE, STATN or DLY of a channel (R233). -/
def execTransitSettingChange (ch : Fin 24) (addr : BitVec 24) (value : Word) (path : Path) (s : State) : Host.Outcome State Fault Refusal :=
  if (idxAt (A.TRN_CH_CFG ch) 4 6 addr.toNat).isSome then regCommand path addr.toNat value s else .next s

/-- SYN_RELOCK_CHANGE: a write of NUM or DEN of a synthesizer or DIV of an output (R285). -/
def execSynRelockChange (path : Path) (addr : BitVec 24) (value : Word) (s : State) : Host.Outcome State Fault Refusal :=
  if (idxAt (A.SYN_SYN_NUM 3) 0x40 4 addr.toNat).isSome ∨ (idxAt (A.SYN_SYN_DEN 3) 0x40 4 addr.toNat).isSome
      ∨ (idxAt (A.SYN_OUT_DIV 0) 0x40 12 addr.toNat).isSome then regCommand path addr.toNat value s
  else .next s

/-- HANDOFF_REQUEST: a write of DTM_DOMCTL with HANDOFF set (R67). -/
def execHandoffRequest (force : Fin 4) (s : State) : Host.Outcome State Fault Refusal :=
  regCommand .mw0 A.DTM_DOMCTL (BitVec.ofNat 32 (2 * force.val + 1)) s

/-- CMP_COMMIT: a write of DTM_CMPn_TGT_W0 (R72). -/
def execCmpCommit (path : Path) (n : Fin 16) (w0 : Word) (s : State) : Host.Outcome State Fault Refusal := regCommand path (A.DTM_CMP_TGT_W0 n) w0 s

/-- CMP_DISABLE: a write of DTM_CMPn_CTL with EN = 0 (R71). -/
def execCmpDisable (n : Fin 16) (value : Word) (s : State) : Host.Outcome State Fault Refusal :=
  regCommand .mw0 (A.DTM_CMP_CTL n) (value &&& 0xFFFFFFFE) s

/-- FLASH_READ (R357): OP 0, and 3, which acts as 0. -/
def execFlashRead (path : Path) (value : Word) (s : State) : Host.Outcome State Fault Refusal :=
  regCommand path A.SYS_FL_CTL (fieldSet (value ||| 0x80000000) 28 2 (if fieldGet value 28 2 = 3 then 3 else 0)) s

/-- FLASH_PROGRAM (R357). -/
def execFlashProgram (path : Path) (value : Word) (s : State) : Host.Outcome State Fault Refusal :=
  regCommand path A.SYS_FL_CTL (fieldSet (value ||| 0x80000000) 28 2 1) s

/-- FLASH_ERASE (R357). -/
def execFlashErase (path : Path) (value : Word) (s : State) : Host.Outcome State Fault Refusal :=
  regCommand path A.SYS_FL_CTL (fieldSet (value ||| 0x80000000) 28 2 2) s

/-- MODE_REQUEST_MAINT: REQ 1 (R372). -/
def execModeRequestMaint (path : Path) (value : Word) (s : State) : Host.Outcome State Fault Refusal :=
  regCommand path A.SYS_MODE_CTL (requestWord value 1) s

/-- MODE_REQUEST_SAFE: REQ 2 (R372). -/
def execModeRequestSafe (path : Path) (value : Word) (s : State) : Host.Outcome State Fault Refusal :=
  regCommand path A.SYS_MODE_CTL (requestWord value 2) s

/-- MODE_REQUEST_DORMANT: REQ 3 (R373). -/
def execModeRequestDormant (path : Path) (value : Word) (s : State) : Host.Outcome State Fault Refusal :=
  regCommand path A.SYS_MODE_CTL (requestWord value 3) s

/-- MODE_REQUEST_RESTART: REQ 4 (R372). -/
def execModeRequestRestart (path : Path) (value : Word) (s : State) : Host.Outcome State Fault Refusal :=
  regCommand path A.SYS_MODE_CTL (requestWord value 4) s

/-- IOBANK_CHANGE: a write of SYS_IOBANK (R425). -/
def execIobankChange (path : Path) (value : Word) (s : State) : Host.Outcome State Fault Refusal := regCommand path A.SYS_IOBANK value s

/-- MDIO_COMMAND: a write of PRT_MDIO_CMD (R210). -/
def execMdioCommand (path : Path) (value : Word) (s : State) : Host.Outcome State Fault Refusal := regCommand path A.PRT_MDIO_CMD value s

/-- PRT_COUNTER_CLEAR (R213). -/
def execPrtCounterClear (port : Fin 7) (s : State) : Host.Outcome State Fault Refusal := regCommand .mw0 (A.PRT_CNTCLR port) 1 s

/-- SVP_COUNTER_CLEAR (R108). -/
def execSvpCounterClear (pl : Fin 5) (s : State) : Host.Outcome State Fault Refusal := regCommand .mw0 (A.SVP_PL_CNTCLR pl) 1 s

/-- SKO_COUNTER_CLEAR (R127). -/
def execSkoCounterClear (port : Fin 4) (s : State) : Host.Outcome State Fault Refusal := regCommand .mw0 (A.SKO_P_CNTCLR port) 1 s

/-- CRL_COUNTER_CLEAR (R170). -/
def execCrlCounterClear (s : State) : Host.Outcome State Fault Refusal := regCommand .mw0 A.CRL_NTS_CNTCLR 1 s

/-- PKE_COUNTER_CLEAR (R193). -/
def execPkeCounterClear (s : State) : Host.Outcome State Fault Refusal := regCommand .mw0 A.PKE_CNTCLR 1 s

/-- PKE_ABORT: a write of PKE_ABORT.RINGS (R181). -/
def execPkeAbort (rings : BitVec 8) (s : State) : Host.Outcome State Fault Refusal :=
  regCommand .mw0 A.PKE_ABORT (BitVec.ofNat 32 rings.toNat) s

/-- RING_TAIL_WRITE (R324). Ring r of R323: U0 to U31, then D0 to D31. -/
def execRingTailWrite (ring : Fin 64) (value : Word) (s : State) : Host.Outcome State Fault Refusal := regCommand .mw0 (A.HMI_R_TAIL ring) value s

/-- RING_ENABLE: a write of CFG with EN = 1 (R326). -/
def execRingEnable (ring : Fin 64) (value : Word) (s : State) : Host.Outcome State Fault Refusal :=
  regCommand .mw0 (A.HMI_R_CFG ring) (fieldSet value 31 1 1) s

/-- RING_DISABLE: a write of CFG with EN = 0 (R326). -/
def execRingDisable (ring : Fin 64) (value : Word) (s : State) : Host.Outcome State Fault Refusal :=
  regCommand .mw0 (A.HMI_R_CFG ring) (fieldSet value 31 1 0) s

/-- PMC_SEL_WRITE (R403). -/
def execPmcSelWrite (u : Fin 13) (k : Fin 8) (value : Word) (s : State) : Host.Outcome State Fault Refusal := regCommand .mw0 (A.PMC_SEL u k) value s

/-- PMC_CLEAR_ALL: a write of PMC_CTL.CLRALL (R403). -/
def execPmcClearAll (s : State) : Host.Outcome State Fault Refusal := regCommand .mw0 A.PMC_CTL 2 s

/-- PMC_SNAPSHOT: a write of PMC_CTL.SNAP (R404). -/
def execPmcSnapshot (s : State) : Host.Outcome State Fault Refusal := regCommand .mw0 A.PMC_CTL 1 s

/-- TAG_ENABLE: a write of PMC_TAG_CFG (R406). -/
def execTagEnable (value : Word) (s : State) : Host.Outcome State Fault Refusal := regCommand .mw0 A.PMC_TAG_CFG value s

/-- LIMIT_CLEAR: a write of SYN_OUTn_CTL with LIMCLR (R294). -/
def execLimitClear (out : Fin 12) (value : Word) (s : State) : Host.Outcome State Fault Refusal := regCommand .mw0 (A.SYN_OUT_CTL out) value s

/-- RAMP_GO: a write of SYN_SYNn_RAMPCTL with GO (R283). Synthesizer n is SYN(n+1). -/
def execRampGo (n : Fin 6) (value : Word) (s : State) : Host.Outcome State Fault Refusal :=
  regCommand .mw0 (A.SYN_SYN_RAMPCTL (n.val + 1)) (value ||| 0x80000000) s

/-- RAMP_STOP: a write of SYN_SYNn_RAMPCTL with STOP (R286). -/
def execRampStop (n : Fin 6) (value : Word) (s : State) : Host.Outcome State Fault Refusal :=
  regCommand .mw0 (A.SYN_SYN_RAMPCTL (n.val + 1)) (value ||| 0x40000000) s

/-- EVQ_POP: a write of TRN_EVQ_POP.POP (R236). -/
def execEvqPop (s : State) : Host.Outcome State Fault Refusal := regCommand .mw0 A.TRN_EVQ_POP 1 s

/-- STAKE_SELF_TEST_START: a write of STK_n_CAL with START (R143). -/
def execStakeSelfTestStart (n : Fin 7) (s : State) : Host.Outcome State Fault Refusal := regCommand .mw0 (A.STK_CAL n) 1 s

/-- DVL_YIELD: a write of DVL_CTL (R297). -/
def execDvlYield (value : Word) (s : State) : Host.Outcome State Fault Refusal := regCommand .mw0 A.DVL_CTL value s

/-- DVL_REJOIN: a write of DVL_CTL with REJOIN (R314). -/
def execDvlRejoin (value : Word) (s : State) : Host.Outcome State Fault Refusal := regCommand .mw0 A.DVL_CTL (value ||| 2) s

/-- ALARM_ACK: a write of SYS_ALARM_ACK (R385). -/
def execAlarmAck (value : Word) (s : State) : Host.Outcome State Fault Refusal := regCommand .mw0 A.SYS_ALARM_ACK value s

/-- IRQ_EOI: a write of SYS_IRQ_EOI (R414). -/
def execIrqEoi (value : Word) (s : State) : Host.Outcome State Fault Refusal := regCommand .mw0 A.SYS_IRQ_EOI value s

end Sys2Proof.Machine
end

