-- ==== Sys2Proof/Machine/Mspi.lean ====
section
/-! DEFINITION. The serial register path: requests, checks and responses (R337, R338). -/
namespace Sys2Proof.Machine

/-- The CRC-8 of R337. -/
def crc8 (b : Bytes) : Byte := BitVec.ofNat 8 (crcMsb 8 0x07 0 b)

/-- The response of a read or a write (R337): the start byte, DATA for a read, STATUS, and the CRC-8. -/
def mspiReply (data : Bytes) (status : Nat) : Bytes :=
  let b := 0xA5 :: data ++ natBE 1 status
  b ++ [crc8 b]

/-- The length of a request by its CMD: a write carries four bytes of data. For a CMD that is neither, the request is taken to have no data (assumption
log 43). -/
def mspiLen (cmd : Nat) : Nat := if cmd = 0x57 then 9 else 5

/-- One transaction: the bytes that the host shifts in before chip select rises; what follows the request only clocks out the response. A request that is cut
short is discarded (R338). -/
def mspiTransaction (bytes : Bytes) (s : State) : State :=
  let cmd := beAt bytes 0 1
  let n := mspiLen cmd
  if accessible s = false ∨ s.sys.mspiEn = false ∨ bytes.length < n then s
  else
    let req := bytes.take (n - 1)
    let addr := beAt bytes 1 3
    let write := decide (cmd = 0x57)
    let fail := fun (st : Nat) => s.emit (.mspi (mspiReply (if write then [] else zeros 4) st))
    if beAt bytes (n - 1) 1 ≠ (crc8 req).toNat then fail 1
    else if (cmd ≠ 0x52 ∧ cmd ≠ 0x57) ∨ addr % 4 ≠ 0 then fail 2
    else if write then
      let x := hostWrite .mspi addr 15 (BitVec.ofNat 32 (beAt bytes 4 4)) s
      x.2.emit (.mspi (mspiReply [] x.1))
    else
      let x := hostRead .mspi addr s
      x.2.emit (.mspi (mspiReply (natBE 4 x.1.toNat) 0))

/-- MSPI_READ (R337). -/
def execMspiRead (bytes : Bytes) (s : State) : Host.Outcome State Fault Refusal := .next (mspiTransaction bytes s)

/-- MSPI_WRITE (R337). -/
def execMspiWrite (bytes : Bytes) (s : State) : Host.Outcome State Fault Refusal := .next (mspiTransaction bytes s)

end Sys2Proof.Machine
end

