-- ==== Sys2Proof/Machine/Stamp.lean ====
section
/-! DEFINITION. Accepted Transit stamps reach their owners (R219, R220, R31). -/
namespace Sys2Proof.Machine

/-- An accepted edge reaches the unit that owns its channel: Traverse, Benchmark on channel 16, the Dvorgo link on channel 17 (R214). -/
def ownerEdge (ch : Fin 24) (e : TrnEdge) (s : State) : State :=
  let i := inputOf ch
  if h : i < 12 then
    if chOwner s ch = 1 then inputEdge ⟨i, h⟩ e s else s
  else if ch.val = 16 then { s with bm := { s.bm with oscLast := some (e.datum, e.total * 2 ^ chPresc s 16) } }
  else if ch.val = 17 then xppsEdge e s
  else s

/-- The MINW cycles after an edge have passed (R219). -/
def heldLong (s : State) (ch : Nat) (e : TrnEdge) : Bool := decide (e.coarse + chMinw s ch ≤ s.trn.coarse)

/-- TRANSIT_STAMP_ACCEPT: the oldest converted edge of a channel passes its MINW check, MINW cycles after the edge, or the input left its level before that, and it is
a glitch (R219). -/
def execTransitStampAccept (ch : Fin 24) (held : Bool) (s : State) : Host.Outcome State Fault Refusal :=
  .next (let c := s.chan ch
    match c.waiting with
    | [] => s
    | e :: rest =>
      if dclkRuns s = false ∨ held ≠ heldLong s ch e then s
      else if held then ownerEdge ch e (acceptEdge ch e (s.setChan ch { c with waiting := rest }))
      else glitch ch (s.setChan ch { c with waiting := rest }))

end Sys2Proof.Machine
end

