-- ==== Sys2Proof/Machine/Tick.lean ====
section
/-! DEFINITION. The management tick: the PTP clients, the domains, hand-off and the Datum state (R26, R53, R66-R70), and the order in which the management
plane evaluates its functions (R27). -/
namespace Sys2Proof.Machine

/-! ## The Monument counter (R53) -/

/-- Datum minus Monument in units of 20 ps, rounded to nearest, within the field (R53). -/
def monumentDiff (s : State) : Int :=
  let m : Int := counterMod
  let d := ((s.dtm.vote : Int) - (s.dtm.mon : Int)) % m
  let d := if d < m / 2 then d else d - m
  clampInt (-2147483648) 2147483647 ((d * 50 + 2 ^ 63) / 2 ^ 64)

/-- The rate of the Monument counter: the crystal's model, and what removes the difference with a time constant of 10 s while the steering acts (R53;
assumption log 44). -/
def monumentRate (s : State) (diff : Int) : Int :=
  clampInt (-rateLimit) rateLimit (((bXtal s).neg.mul (.int (2 ^ 48))).round + diff * 2 * 2 ^ 48 / 1000000000000)

/-- The phase comparator and the steering, once per tick (R53). While DCLK is stopped, DTM_MONDIFF keeps its last value (R54). While the Datum follows the
Monument counter, the steering is suspended (R271). -/
def monumentTick (s : State) : State :=
  if dclkRuns s then
    let d := monumentDiff s
    let s := s.setI F.DTM_MONDIFF_DIFF d
    { s with dtm := { s.dtm with monRate := monumentRate s (if s.bm.follow then 0 else d) } }
  else s

/-! ## PTP client instances (R73, R75) -/

/-- An instance that does not run: its state is that after a restart, and it reports nothing (R59, R73). -/
def pcIdle (n : Fin 2) (st : Nat) (s : State) : State :=
  let s := (s.setPc n .empty).set (F.DTM_PC_STAT_MASTER n) 0
  (pcState n st s).setUtcSource (n.val + 1) .none

/-- An instance without a master listens. -/
def pcLose (n : Fin 2) (s : State) : State :=
  let c := s.pc n
  let s := s.setPc n { c with master := 0, announce := none, lastSync := none, syncs := [], quietTicks := 0 }
  pcState n 3 ((s.set (F.DTM_PC_STAT_MASTER n) 0).setUtcSource (n.val + 1) .none)

/-- One tick of a client instance: INITIALIZING in BOOT, DISABLED, FAULTY, or running (R75). A selected master that has given no time for four response timeouts is
lost (assumption log 30). -/
def pcTick (s : State) (n : Fin 2) : State :=
  if s.mode = mBoot then pcIdle n 0 s
  else if s.on (F.DTM_PC_CFG_EN n) = false then pcIdle n 2 s
  else if pcFaulty s n then pcIdle n 1 s
  else
    let c := s.pc n
    let s := s.setPc n { c with quietTicks := c.quietTicks + 1 }
    if c.master = 0 ∨ 4 * s.get (F.DTM_PC_CFG_TIMEOUT n) < c.quietTicks then pcLose n s else s

/-! ## The domains (R66) -/

/-- A domain's source delivers something valid: CH0 in ACQUIRE or LOCKED, or a client instance in SLAVE (R66). -/
def sourceValid (s : State) (k : Nat) : Bool :=
  match k with
  | 0 => s.on (F.TRV_CH_CFG_EN 0) && decide (s.get (F.TRV_CH_STATE_STATE 0) = 1 ∨ s.get (F.TRV_CH_STATE_STATE 0) = 2)
  | 1 => decide (s.get (F.DTM_PC_STAT_STATE 0) = 5)
  | 2 => decide (s.get (F.DTM_PC_STAT_STATE 1) = 5)
  | _ => false

/-- The offset estimate of a domain lies within LOCKTH (R66). -/
def withinLock (s : State) (x : Domain) : Bool := x.fed && decide (x.est.natAbs ≤ s.get F.DTM_CFG_LOCKTH * 655360)

/-- Show a domain's state. -/
def showDomain (i v : Nat) (s : State) : State := if i = 0 then s.set F.DTM_STATE_FS_ST v else s.set F.DTM_STATE_BS_ST v

/-- One tick of a domain: NOINPUT, ACQUIRE or LOCKED (R66). An estimate within LOCKTH counts from the tick that first finds it so. -/
def domainTick (s : State) (i : Nat) : State :=
  let x := s.dtm.dom i
  let was := s.domState i
  if sourceValid s (s.domSrc i) = false then
    showDomain i 0 { s with dtm := s.dtm.setDom i { x with withinTicks := 0, lockedTicks := 0, window := [], fed := false } }
  else
    let w := if withinLock s x then x.withinTicks + 1 else 0
    let locked := decide (1000 * s.get F.DTM_CFG_LOCKTIME < w)
    let t := if locked && decide (was = 2) then x.lockedTicks + 1 else 0
    showDomain i (if locked then 2 else 1) { s with dtm := s.dtm.setDom i { x with withinTicks := w, lockedTicks := t } }

/-- A difference of estimates in ps, within the register (R65, R69). -/
def domDiffPs (d : Int) : Int := clampInt (-2147483647) 2147483647 ((d * 2000 + 65536) / 131072)

/-- The disagreement of the domains (R69): DTM_DOMDIFF, and the ticks above SPLIT. Without input of either, the difference is held and the count starts
again. -/
def splitTick (s : State) : State :=
  if s.domState 0 = 0 ∨ s.domState 1 = 0 then
    alarmClear 1 ({ s with dtm := { s.dtm with splitTicks := 0 } }.set F.DTM_STATE_SPLIT 0)
  else
    let d := domDiffPs (s.dtm.fs.est - s.dtm.bs.est)
    let limit := s.get F.DTM_SLOPE_SPLIT * 10000
    let s := s.setI F.DTM_DOMDIFF_DIFF d
    let s := { s with dtm := { s.dtm with splitTicks := if limit < d.natAbs then s.dtm.splitTicks + 1 else 0 } }
    if d.natAbs < limit then alarmClear 1 (s.set F.DTM_STATE_SPLIT 0) else s

/-! ## Hand-off (R67, R68) -/

/-- SETTLE in ticks. -/
def settleTicks (s : State) : Nat := 1000 * s.get F.DTM_CFG_SETTLE

/-- The domain that FORCE selects, unless it is NOINPUT. -/
def forcedDomain (s : State) : Option Nat :=
  let f := s.get F.DTM_DOMCTL_FORCE
  if f = 1 ∧ s.domState 0 ≠ 0 then some 0 else if f = 2 ∧ s.domState 1 ≠ 0 then some 1 else none

/-- Whether the table of R67 hands off to the other domain on this tick. -/
def handoffWanted (s : State) : Bool :=
  let a := s.active
  let o := 1 - a
  let locked := decide (s.domState o = 2)
  match forcedDomain s with
  | some f => decide (f = o) && locked
  | none =>
    (decide (s.domState a = 0) && locked)
      || (decide (s.domState a = 1) && locked && decide (settleTicks s ≤ (s.dtm.dom o).lockedTicks))
      || (s.on F.DTM_CFG_REVERT && decide (a = 1) && decide (s.domState 0 = 2) && decide (1000 * s.get F.DTM_CFG_WTR ≤ s.dtm.fs.lockedTicks))
      || (s.dtm.handoffPending && locked)

/-- A hand-off starts (R68): the rate of the new domain and the slew of its estimate are announced, and a pending request is consumed. -/
def handoffStart (s : State) : State :=
  let old := s.active
  let new := 1 - old
  let x := s.dtm.dom new
  let s := irqSet 2 A.DTM_IRQ_STAT 1 (s.set F.DTM_STATE_ACTIVE new)
  let s := { s with dtm := { s.dtm with handoff := some (old, new, x.est), handoffPending := false, settleLeft := settleTicks s } }
  let s := leapEvaluate (utcResolve (startSlew x.rate x.est s))
  if s.dtm.slewLeft = 0 then slewEnd s else s

/-- The hand-off decision of one tick (R67): whether a hand-off starts, and the state after it. -/
def handoffTick (s : State) : Bool × State :=
  let n := s.dtm.settleLeft - 1
  let s := { s with dtm := { s.dtm with settleLeft := n } }
  if s.dtm.handoff.isSome ∨ n ≠ 0 then (false, s)
  else if handoffWanted s then (true, handoffStart s)
  else if s.dtm.handoffPending then
    (false, record 0x0705 0 0 0 0 { s with dtm := { s.dtm with handoffPending := false } })
  else (false, s)

/-! ## The Datum state (R50, R70) -/

/-- R50 permits a step: the mode is BOOT or SURVEY, and the estimate of the active domain exceeds STEPTH. -/
def stepDue (s : State) : Bool :=
  decide (s.mode = mBoot ∨ s.mode = mSurvey) && (s.dtm.dom s.active).fed && s.dtm.handoff.isNone
    && decide (s.get F.DTM_STEPTH_STEPTH * 65536 < (s.dtm.dom s.active).est.natAbs)

/-- A step by the estimate of the active domain (R50). What is left of a slew ends with it (assumption log 45). -/
def stepNow (s : State) : State :=
  let x := s.dtm.dom s.active
  let s := datumStep x.est { s with dtm := { s.dtm with slewLeft := 0 } }
  announceRate x.rate 0 (s.set F.DTM_STATE_SLEW 0)

/-- An offset of a domain is slewed out (R49). What is due has been treated. -/
def slewOffset (base : Int) (i : Nat) (s : State) : State :=
  startSlew base (s.dtm.dom i).est { s with dtm := { s.dtm with offsetDue := false } }

/-- The next offset of the active domain is to be stepped or slewed (R50, R70). -/
def dueOffset (s : State) : State := { s with dtm := { s.dtm with offsetDue := true } }

/-- In ACQUIRE, the offset of the active domain is stepped where R50 permits it; the first one that the domain delivers is slewed otherwise (R49, R50, R70). -/
def takeOffset (s : State) : State :=
  if s.dtm.handoff.isSome then s
  else if stepDue s then stepNow { s with dtm := { s.dtm with offsetDue := false } }
  else if s.dtm.offsetDue && (s.dtm.dom s.active).fed then slewOffset (s.dtm.dom s.active).rate s.active s
  else s

/-- In HOLDOVER after a load from the Monument counter, the next offset that a domain delivers, the active one first, is slewed: R50 permits no step there (R50, R55;
assumption log 86). -/
def holdoverOffset (s : State) : State :=
  if s.dtm.offsetDue && s.dtm.handoff.isNone then
    if (s.dtm.dom s.active).fed then slewOffset s.dtm.lastRate.1 s.active s
    else if (s.dtm.dom (1 - s.active)).fed then slewOffset s.dtm.lastRate.1 (1 - s.active) s
    else s
  else s

/-- The Datum is LOCKED, and LOCKED with switch where a hand-off is under way (R68-R70). -/
def datumLock (s : State) : State :=
  let s := clearBound (record 0x0702 0 0 0 0 (datumGoto 2 s))
  if s.dtm.handoff.isSome then datumGoto 3 s else s

/-- CH0 is on a switch while it feeds the active domain. -/
def ch0Switching (s : State) : Bool := decide (s.domSrc s.active = 0) && s.on (F.TRV_CH_SELSTAT_SWITCHING 0)

/-- In holdover: a domain that became LOCKED on this tick becomes active, and its offset is slewed (R70); and an offset after a load from the Monument counter is
treated (R55). -/
def holdoverTake (s : State) (before : Nat × Nat) : State :=
  let a := s.active
  let b := fun (i : Nat) => if i = 0 then before.1 else before.2
  let fresh := fun (i : Nat) => decide (s.domState i = 2) && decide (b i ≠ 2)
  let take := fun (s : State) => slewOffset (s.dtm.dom s.active).rate s.active s
  if fresh a then take (leaveHoldover s)
  else if fresh (1 - a) && s.dtm.handoff.isNone then
    take (leapEvaluate (utcResolve (leaveHoldover (s.set F.DTM_STATE_ACTIVE (1 - a)))))
  else holdoverOffset s

/-- One tick of the state table of R70. `started` says that a hand-off starts on this tick, and `before` gives the states of the domains before it. -/
def datumTick (started : Bool) (before : Nat × Nat) (s : State) : State :=
  let d := s.domState s.active
  match s.dtm.under with
  | 0 => if d = 0 then s else takeOffset (dueOffset (datumGoto 1 s))
  | 1 =>
    if d = 2 then datumLock (takeOffset s)
    else if d = 0 then
      if started then s
      else if s.dtm.lockedSinceBoot || s.dtm.fromMonument then enterHoldover s
      else announceRate 0 s.dtm.lastRate.2 (datumGoto 0 s)
    else takeOffset s
  | 2 =>
    if started then datumGoto 3 s
    else if d = 0 then enterHoldover s
    else if ch0Switching s then datumGoto 3 s
    else s
  | 3 =>
    if d = 0 ∧ started = false then enterHoldover s
    else if s.on F.DTM_STATE_SLEW = false ∧ s.dtm.handoff = none ∧ s.get (F.TRV_CH_SELSTAT_SWITCHING 0) = 0 then datumGoto 2 s
    else s
  | 4 | 5 => if started then leaveHoldover s else holdoverTake s before
  | _ => s

/-- The Datum's part of a tick. DTM stops with DCLK (R33); the holdover bound goes on. -/
def domainsTick (s : State) : State :=
  let s := if dclkRuns s then
      let before := (s.domState 0, s.domState 1)
      let s := domainTick (domainTick s 0) 1
      let h := handoffTick s
      splitTick (datumTick h.1 before h.2)
    else s
  if s.dtm.started = true ∧ (s.dtm.under = 4 ∨ s.dtm.under = 5) then holdTick s else s

/-! ## TAI-UTC (R59, R60, R385) -/

/-- One tick of a source's report. -/
def UtcSource.tick (u : UtcSource) : UtcSource := if u.valid then { u with ticks := u.ticks + 1 } else u

/-- One tick of TAI-UTC: the reports age, the source in use is chosen, announcements are weighed, and UTC_DISAGREE clears when the inactive domain reports no
other offset. -/
def utcTick (s : State) : State :=
  let s := { s with dtm := { s.dtm with utcCh0 := s.dtm.utcCh0.tick, utcPc0 := s.dtm.utcPc0.tick, utcPc1 := s.dtm.utcPc1.tick } }
  let s := leapEvaluate (utcResolve s)
  let u := s.utcSource (s.domSrc (1 - s.active))
  if u.valid = false ∨ u.offset = s.utcOffset then alarmClear 0 s else s

/-! ## The tick (R26) -/

/-- The counters of ticks. Those of the periodic seal and the periodic snapshot run while their periods are not 0 (R391, R404). -/
def countTick (s : State) : State :=
  let s := pmcEvent 0 0x02 0x80 1 s
  { s with sys := { s.sys with ticks := s.sys.ticks + 1 }, svp := { s.svp with kodUsed := Vector.replicate 5 0 },
           pmc := { s.pmc with snapTicks := if s.get F.PMC_CFG_SNAPPER = 0 then 0 else s.pmc.snapTicks + 1 },
           fbk := { s.fbk with sealTicks := if s.get F.FBK_CFG_SEALPER = 0 then 0 else s.fbk.sealTicks + 1 } }

/-- Before the Datum starts, and without power in PD2 to PD11, PD1 goes on with Benchmark and its bound (R271, R371). -/
def alwaysOnTick (s : State) : State :=
  if s.dtm.monHolds then
    let s := { s with bm := { s.bm with ticks := s.bm.ticks + 1 } }
    let s := boundStep s
    { s with dtm := { s.dtm with monRate := monumentRate s 0 } }
  else s

/-- A tick of a powered device. Timekeeping comes first, so that Traverse, the fault manager and the modes see the states of the same tick (assumption log 46). -/
def fullTick (s : State) : State :=
  let s := countTick s
  let s := if s.dtm.started then
      let s := monumentTick (benchTick s)
      utcTick (domainsTick ([0, 1].foldl pcTick s))
    else alwaysOnTick s
  let s := transitTick (traverseTick s)
  let s := xppsTick (synthTick s)
  let s := dvlTick s
  refreshValues (claimUpdate (modeTick (modeClock (faultTick s))))

/-- The tick counter advances with this period: MCLK runs, or PD1 keeps the count without it (R26, R371). -/
def tickClock (s : State) : Bool := if powered s then mclkRuns s else decide (s.sys.phase ≠ .off)

/-- A tick in DCLK periods: MCLK divided by 100,000 (R26, R33). -/
def tickPeriods : Nat := 1200000

/-- The tick is due: its 100,000 MCLK cycles have passed since the last one (R26). -/
def tickDue (s : State) : Bool := tickClock s && decide (tickPeriods ≤ s.sys.tickPhase)

/-- A tick, from which the next one is counted. -/
def tickNow (s : State) : State :=
  let s := { s with sys := { s.sys with tickPhase := 0 } }
  if powered s then fullTick s else alwaysOnTick s

/-- MANAGEMENT_TICK (R26): the tick that is due. Before its time there is none; once its time has come, it happens before the next DCLK period, commanded or not (assumption
log 1). -/
def execManagementTick (s : State) : Host.Outcome State Fault Refusal := .next (if tickDue s then tickNow s else s)

end Sys2Proof.Machine
end

