-- ==== Sys2Proof/Machine/Dispatch.lean ====
section
/-! DEFINITION. What each command does: one arm for each constructor, one direct call each. -/
namespace Sys2Proof.Machine

def exec (i : Instr) (s : State) : Host.Outcome State Fault Refusal :=
  match i with
  | .registerWrite path addr be value => Sys2Proof.Machine.execRegisterWrite path addr be value s
  | .readClear reader addr => Sys2Proof.Machine.execReadClear reader addr s
  | .wideValueLatchRead reader addr => Sys2Proof.Machine.execWideValueLatchRead reader addr s
  | .livelockWrite path value => Sys2Proof.Machine.execLivelockWrite path value s
  | .managementTick => Sys2Proof.Machine.execManagementTick s
  | .handoffRequest force => Sys2Proof.Machine.execHandoffRequest force s
  | .slewComplete => Sys2Proof.Machine.execSlewComplete s
  | .datumRateApply => Sys2Proof.Machine.execDatumRateApply s
  | .domainSplit => Sys2Proof.Machine.execDomainSplit s
  | .dtmVote copy => Sys2Proof.Machine.execDtmVote copy s
  | .dtmNovote => Sys2Proof.Machine.execDtmNovote s
  | .leapApplied => Sys2Proof.Machine.execLeapApplied s
  | .utcOffsetChange => Sys2Proof.Machine.execUtcOffsetChange s
  | .utcDisagree => Sys2Proof.Machine.execUtcDisagree s
  | .cmpCommit path n w0 => Sys2Proof.Machine.execCmpCommit path n w0 s
  | .cmpDisable n value => Sys2Proof.Machine.execCmpDisable n value s
  | .cmpFired n => Sys2Proof.Machine.execCmpFired n s
  | .ptpClientDelayReq n => Sys2Proof.Machine.execPtpClientDelayReq n s
  | .ptpClientMessage n => Sys2Proof.Machine.execPtpClientMessage n s
  | .frameReceive port bytes capture error fecCorrected => Sys2Proof.Machine.execFrameReceive port bytes capture error fecCorrected s
  | .pipelineRequest pl table buffer => Sys2Proof.Machine.execPipelineRequest pl table buffer s
  | .clientBucketFill bucket => Sys2Proof.Machine.execClientBucketFill bucket s
  | .ntsCookieVerify lane => Sys2Proof.Machine.execNtsCookieVerify lane s
  | .ntsResponseEncrypt port ticket => Sys2Proof.Machine.execNtsResponseEncrypt port ticket s
  | .ticketLoadDeadline port ticket => Sys2Proof.Machine.execTicketLoadDeadline port ticket s
  | .lateToleranceExpiry port ticket => Sys2Proof.Machine.execLateToleranceExpiry port ticket s
  | .gateRelease port ticket => Sys2Proof.Machine.execGateRelease port ticket s
  | .txFrameDone port ticket => Sys2Proof.Machine.execTxFrameDone port ticket s
  | .egressCrossingReport port ticket capture => Sys2Proof.Machine.execEgressCrossingReport port ticket capture s
  | .unstakedFrameSend port => Sys2Proof.Machine.execUnstakedFrameSend port s
  | .gridModelRefresh port anchor spacing codePos byte4 => Sys2Proof.Machine.execGridModelRefresh port anchor spacing codePos byte4 s
  | .ptpIssue schedule announce => Sys2Proof.Machine.execPtpIssue schedule announce s
  | .grantRequest => Sys2Proof.Machine.execGrantRequest s
  | .grantCancel => Sys2Proof.Machine.execGrantCancel s
  | .grantExpiry index => Sys2Proof.Machine.execGrantExpiry index s
  | .announcementRepeat sa => Sys2Proof.Machine.execAnnouncementRepeat sa s
  | .svpCounterClear pl => Sys2Proof.Machine.execSvpCounterClear pl s
  | .skoCounterClear port => Sys2Proof.Machine.execSkoCounterClear port s
  | .stakeCompensationChange n addr value path => Sys2Proof.Machine.execStakeCompensationChange n addr value path s
  | .stakeSelfTestStart n => Sys2Proof.Machine.execStakeSelfTestStart n s
  | .stakeSelfTestDone n loopPs => Sys2Proof.Machine.execStakeSelfTestDone n loopPs s
  | .followUpSend n => Sys2Proof.Machine.execFollowUpSend n s
  | .variableLatencyMeasure n vrx vtx => Sys2Proof.Machine.execVariableLatencyMeasure n vrx vtx s
  | .linkUp port report => Sys2Proof.Machine.execLinkUp port report s
  | .linkDown port sigdet lf rf feclock => Sys2Proof.Machine.execLinkDown port sigdet lf rf feclock s
  | .pauseEnd port tc => Sys2Proof.Machine.execPauseEnd port tc s
  | .flowControlRefresh port cls => Sys2Proof.Machine.execFlowControlRefresh port cls s
  | .pathSwitch pair => Sys2Proof.Machine.execPathSwitch pair s
  | .pathRevert pair => Sys2Proof.Machine.execPathRevert pair s
  | .prtCounterClear port => Sys2Proof.Machine.execPrtCounterClear port s
  | .fieldTxAttempt n quiet => Sys2Proof.Machine.execFieldTxAttempt n quiet s
  | .fieldCollision n level => Sys2Proof.Machine.execFieldCollision n level s
  | .beaconLost n => Sys2Proof.Machine.execBeaconLost n s
  | .mdioCommand path value => Sys2Proof.Machine.execMdioCommand path value s
  | .mdioDone data => Sys2Proof.Machine.execMdioDone data s
  | .wakeEvent input => Sys2Proof.Machine.execWakeEvent input s
  | .transitEdge ch falling code narrow => Sys2Proof.Machine.execTransitEdge ch falling code narrow s
  | .transitStampAccept ch held => Sys2Proof.Machine.execTransitStampAccept ch held s
  | .transitRecordOut => Sys2Proof.Machine.execTransitRecordOut s
  | .evqPop => Sys2Proof.Machine.execEvqPop s
  | .trnResSeqRead reader ch => Sys2Proof.Machine.execTrnResSeqRead reader ch s
  | .transitSettingChange ch addr value path => Sys2Proof.Machine.execTransitSettingChange ch addr value path s
  | .transitStartOverflow ch => Sys2Proof.Machine.execTransitStartOverflow ch s
  | .converterCalibrationDone ch conv hist => Sys2Proof.Machine.execConverterCalibrationDone ch conv hist s
  | .converterRotate ch conv => Sys2Proof.Machine.execConverterRotate ch conv s
  | .oscinDetect count => Sys2Proof.Machine.execOscinDetect count s
  | .oscinLoss => Sys2Proof.Machine.execOscinLoss s
  | .todMessage port bytes => Sys2Proof.Machine.execTodMessage port bytes s
  | .pulseMissing n => Sys2Proof.Machine.execPulseMissing n s
  | .refQualifyTimer n => Sys2Proof.Machine.execRefQualifyTimer n s
  | .refWtrExpiry n => Sys2Proof.Machine.execRefWtrExpiry n s
  | .refSwitchDone c => Sys2Proof.Machine.execRefSwitchDone c s
  | .closureEvaluation => Sys2Proof.Machine.execClosureEvaluation s
  | .channelLock c => Sys2Proof.Machine.execChannelLock c s
  | .holdoverTimeout c => Sys2Proof.Machine.execHoldoverTimeout c s
  | .benchmarkSample temp => Sys2Proof.Machine.execBenchmarkSample temp s
  | .benchmarkRefit => Sys2Proof.Machine.execBenchmarkRefit s
  | .benchmarkTempRead reply => Sys2Proof.Machine.execBenchmarkTempRead reply s
  | .syn0LossOfLock => Sys2Proof.Machine.execSyn0LossOfLock s
  | .clockRestart => Sys2Proof.Machine.execClockRestart s
  | .dramResume => Sys2Proof.Machine.execDramResume s
  | .syn0Lasting => Sys2Proof.Machine.execSyn0Lasting s
  | .synAuxLol => Sys2Proof.Machine.execSynAuxLol s
  | .clkDoubleLoss => Sys2Proof.Machine.execClkDoubleLoss s
  | .synLol n => Sys2Proof.Machine.execSynLol n s
  | .synLock n => Sys2Proof.Machine.execSynLock n s
  | .synSettleDone n => Sys2Proof.Machine.execSynSettleDone n s
  | .synRelockChange path addr value => Sys2Proof.Machine.execSynRelockChange path addr value s
  | .synSteerApply c => Sys2Proof.Machine.execSynSteerApply c s
  | .rampGo n value => Sys2Proof.Machine.execRampGo n value s
  | .rampSegmentDone n => Sys2Proof.Machine.execRampSegmentDone n s
  | .rampStop n value => Sys2Proof.Machine.execRampStop n value s
  | .syncInEdge => Sys2Proof.Machine.execSyncInEdge s
  | .outputLimitMeasure out mhz => Sys2Proof.Machine.execOutputLimitMeasure out mhz s
  | .limitClear out value => Sys2Proof.Machine.execLimitClear out value s
  | .limitAutoRelease out => Sys2Proof.Machine.execLimitAutoRelease out s
  | .claimFrameSend => Sys2Proof.Machine.execClaimFrameSend s
  | .claimFrameReceive bits => Sys2Proof.Machine.execClaimFrameReceive bits s
  | .claimStale => Sys2Proof.Machine.execClaimStale s
  | .activeGain => Sys2Proof.Machine.execActiveGain s
  | .dvlCmpMismatch out => Sys2Proof.Machine.execDvlCmpMismatch out s
  | .heartbeatSend => Sys2Proof.Machine.execHeartbeatSend s
  | .heartbeatReceive good lanes hb stamp => Sys2Proof.Machine.execHeartbeatReceive good lanes hb stamp s
  | .dvlLinkDown => Sys2Proof.Machine.execDvlLinkDown s
  | .stateRecordSend => Sys2Proof.Machine.execStateRecordSend s
  | .stateRecordApply damaged missing r => Sys2Proof.Machine.execStateRecordApply damaged missing r s
  | .statusRecordSend => Sys2Proof.Machine.execStatusRecordSend s
  | .pairAttestation msg chainOk => Sys2Proof.Machine.execPairAttestation msg chainOk s
  | .pairingRetry => Sys2Proof.Machine.execPairingRetry s
  | .bulkComplete => Sys2Proof.Machine.execBulkComplete s
  | .trackComplete => Sys2Proof.Machine.execTrackComplete s
  | .dvlYield value => Sys2Proof.Machine.execDvlYield value s
  | .dvlRejoin value => Sys2Proof.Machine.execDvlRejoin value s
  | .ringTailWrite ring value => Sys2Proof.Machine.execRingTailWrite ring value s
  | .ringEnable ring value => Sys2Proof.Machine.execRingEnable ring value s
  | .ringDisable ring value => Sys2Proof.Machine.execRingDisable ring value s
  | .ringStopComplete ring => Sys2Proof.Machine.execRingStopComplete ring s
  | .upRingFrameDeliver ring slots => Sys2Proof.Machine.execUpRingFrameDeliver ring slots s
  | .ringWaitExpiry ring => Sys2Proof.Machine.execRingWaitExpiry ring s
  | .upRingRecord ring slots => Sys2Proof.Machine.execUpRingRecord ring slots s
  | .recordBufferCoalesce ring => Sys2Proof.Machine.execRecordBufferCoalesce ring s
  | .hostTxFrame ring slots data => Sys2Proof.Machine.execHostTxFrame ring slots data s
  | .commandFetch k desc block => Sys2Proof.Machine.execCommandFetch k desc block s
  | .commandCompletion k => Sys2Proof.Machine.execCommandCompletion k s
  | .ringIrqTimer ring => Sys2Proof.Machine.execRingIrqTimer ring s
  | .hostReset linkDown => Sys2Proof.Machine.execHostReset linkDown s
  | .busMasterDisable d3 => Sys2Proof.Machine.execBusMasterDisable d3 s
  | .mspiRead bytes => Sys2Proof.Machine.execMspiRead bytes s
  | .mspiWrite bytes => Sys2Proof.Machine.execMspiWrite bytes s
  | .modAdd core => Sys2Proof.Machine.execModAdd core s
  | .modSub core => Sys2Proof.Machine.execModSub core s
  | .modMul core => Sys2Proof.Machine.execModMul core s
  | .modRed core => Sys2Proof.Machine.execModRed core s
  | .modExp core => Sys2Proof.Machine.execModExp core s
  | .modInv core => Sys2Proof.Machine.execModInv core s
  | .rsaPub core => Sys2Proof.Machine.execRsaPub core s
  | .rsaPriv core => Sys2Proof.Machine.execRsaPriv core s
  | .ecValidate core => Sys2Proof.Machine.execEcValidate core s
  | .ecMul core => Sys2Proof.Machine.execEcMul core s
  | .ecKeygen core => Sys2Proof.Machine.execEcKeygen core s
  | .ecDh core => Sys2Proof.Machine.execEcDh core s
  | .ecdsaSign core => Sys2Proof.Machine.execEcdsaSign core s
  | .ecdsaVerify core => Sys2Proof.Machine.execEcdsaVerify core s
  | .x25519 core => Sys2Proof.Machine.execX25519 core s
  | .x25519Keygen core => Sys2Proof.Machine.execX25519Keygen core s
  | .ed25519Keygen core => Sys2Proof.Machine.execEd25519Keygen core s
  | .ed25519Sign core => Sys2Proof.Machine.execEd25519Sign core s
  | .ed25519Verify core => Sys2Proof.Machine.execEd25519Verify core s
  | .ksImport core => Sys2Proof.Machine.execKsImport core s
  | .ksGenerate core => Sys2Proof.Machine.execKsGenerate core s
  | .ksPublic core => Sys2Proof.Machine.execKsPublic core s
  | .ksAttest core => Sys2Proof.Machine.execKsAttest core s
  | .ksErase core => Sys2Proof.Machine.execKsErase core s
  | .pkeDispatch core => Sys2Proof.Machine.execPkeDispatch core s
  | .pkeOpComplete core => Sys2Proof.Machine.execPkeOpComplete core s
  | .pkeAbort rings => Sys2Proof.Machine.execPkeAbort rings s
  | .pkeCounterClear => Sys2Proof.Machine.execPkeCounterClear s
  | .ntsKeyDerive => Sys2Proof.Machine.execNtsKeyDerive s
  | .ntsEpoch => Sys2Proof.Machine.execNtsEpoch s
  | .crlCounterClear => Sys2Proof.Machine.execCrlCounterClear s
  | .rngFail => Sys2Proof.Machine.execRngFail s
  | .rngRecover => Sys2Proof.Machine.execRngRecover s
  | .ntskeSyn sa => Sys2Proof.Machine.execNtskeSyn sa s
  | .tlsClientHello session records => Sys2Proof.Machine.execTlsClientHello session records s
  | .tlsKeyUpdate session records => Sys2Proof.Machine.execTlsKeyUpdate session records s
  | .ntskeRequest session input => Sys2Proof.Machine.execNtskeRequest session input s
  | .ntskeSessionTimeout session => Sys2Proof.Machine.execNtskeSessionTimeout session s
  | .ntskeSessionEnd session => Sys2Proof.Machine.execNtskeSessionEnd session s
  | .certExpiry => Sys2Proof.Machine.execCertExpiry s
  | .release bootsel unitId mspiEn => Sys2Proof.Machine.execRelease bootsel unitId mspiEn s
  | .porstAssert => Sys2Proof.Machine.execPorstAssert s
  | .vinGood porstLow => Sys2Proof.Machine.execVinGood porstLow s
  | .vinLost => Sys2Proof.Machine.execVinLost s
  | .vaoGood => Sys2Proof.Machine.execVaoGood s
  | .vaoLost => Sys2Proof.Machine.execVaoLost s
  | .bootSlotHeader readable => Sys2Proof.Machine.execBootSlotHeader readable s
  | .bootSlotBodyRead => Sys2Proof.Machine.execBootSlotBodyRead s
  | .bootSignatureVerify => Sys2Proof.Machine.execBootSignatureVerify s
  | .bootFirmwareStart laneFail coreFail rngOk => Sys2Proof.Machine.execBootFirmwareStart laneFail coreFail rngOk s
  | .bootRegsApply => Sys2Proof.Machine.execBootRegsApply s
  | .bootKeysLoad => Sys2Proof.Machine.execBootKeysLoad s
  | .bootCertsCheck => Sys2Proof.Machine.execBootCertsCheck s
  | .bootEnd => Sys2Proof.Machine.execBootEnd s
  | .bootTimeout => Sys2Proof.Machine.execBootTimeout s
  | .dramTrainingDone => Sys2Proof.Machine.execDramTrainingDone s
  | .flashRead path value => Sys2Proof.Machine.execFlashRead path value s
  | .flashProgram path value => Sys2Proof.Machine.execFlashProgram path value s
  | .flashErase path value => Sys2Proof.Machine.execFlashErase path value s
  | .flashOpDone failed => Sys2Proof.Machine.execFlashOpDone failed s
  | .modeRequestMaint path value => Sys2Proof.Machine.execModeRequestMaint path value s
  | .modeRequestSafe path value => Sys2Proof.Machine.execModeRequestSafe path value s
  | .modeRequestDormant path value => Sys2Proof.Machine.execModeRequestDormant path value s
  | .modeRequestRestart path value => Sys2Proof.Machine.execModeRequestRestart path value s
  | .surveyTimeout => Sys2Proof.Machine.execSurveyTimeout s
  | .safeAutorst => Sys2Proof.Machine.execSafeAutorst s
  | .iobankChange path value => Sys2Proof.Machine.execIobankChange path value s
  | .iobankSettle => Sys2Proof.Machine.execIobankSettle s
  | .faultEvent => Sys2Proof.Machine.execFaultEvent s
  | .patrolScrub ecc => Sys2Proof.Machine.execPatrolScrub ecc s
  | .alarmAck value => Sys2Proof.Machine.execAlarmAck value s
  | .irqEoi value => Sys2Proof.Machine.execIrqEoi value s
  | .fbkEntryAccept => Sys2Proof.Machine.execFbkEntryAccept s
  | .fbkSealSigned seg => Sys2Proof.Machine.execFbkSealSigned seg s
  | .fbkSealPeriod => Sys2Proof.Machine.execFbkSealPeriod s
  | .fbkChainResume => Sys2Proof.Machine.execFbkChainResume s
  | .fbkSeal k => Sys2Proof.Machine.execFbkSeal k s
  | .fbkReadseg k ecc => Sys2Proof.Machine.execFbkReadseg k ecc s
  | .fbkReadtail k => Sys2Proof.Machine.execFbkReadtail k s
  | .fbkMark k => Sys2Proof.Machine.execFbkMark k s
  | .fbkHead k => Sys2Proof.Machine.execFbkHead k s
  | .pmcSelWrite u k value => Sys2Proof.Machine.execPmcSelWrite u k value s
  | .pmcClearAll => Sys2Proof.Machine.execPmcClearAll s
  | .pmcSnapshot => Sys2Proof.Machine.execPmcSnapshot s
  | .pmcSnapPeriod => Sys2Proof.Machine.execPmcSnapPeriod s
  | .tagEnable value => Sys2Proof.Machine.execTagEnable value s
  | .spuInstructionTag spu offered source stall pc fetch issue exec => Sys2Proof.Machine.execSpuInstructionTag spu offered source stall pc fetch issue exec s
  | .extest => Sys2Proof.Machine.execExtest s
  | .idcode => Sys2Proof.Machine.execIdcode s
  | .samplePreload => Sys2Proof.Machine.execSamplePreload s
  | .extestPulse => Sys2Proof.Machine.execExtestPulse s
  | .extestTrain => Sys2Proof.Machine.execExtestTrain s
  | .highz => Sys2Proof.Machine.execHighz s
  | .clamp => Sys2Proof.Machine.execClamp s
  | .bypass => Sys2Proof.Machine.execBypass s
  | .syn0Lock => Sys2Proof.Machine.execSyn0Lock s
  | .synAuxLock => Sys2Proof.Machine.execSynAuxLock s
  | .pcieLinkUp speed width => Sys2Proof.Machine.execPcieLinkUp speed width s
  | .busMasterEnable d3 msix => Sys2Proof.Machine.execBusMasterEnable d3 msix s
  | .beaconReceive n => Sys2Proof.Machine.execBeaconReceive n s
  | .beaconSend n => Sys2Proof.Machine.execBeaconSend n s
  | .fieldRxClkChange n running => Sys2Proof.Machine.execFieldRxClkChange n running s
  | .bulkFrameReceive good clients grants last => Sys2Proof.Machine.execBulkFrameReceive good clients grants last s
  | .statusRecordReceive good r => Sys2Proof.Machine.execStatusRecordReceive good r s
  | .hostFrameSent port capture => Sys2Proof.Machine.execHostFrameSent port capture s
  | .vaolow => Sys2Proof.Machine.execVaolow s
  | .dvlLaneDown lane => Sys2Proof.Machine.execDvlLaneDown lane s

end Sys2Proof.Machine
end

