-- ==== Sys2Proof/Machine/Idle.lean ====
section
/-! DEFINITION. What one DCLK period does by itself: the Datum, the coarse counter, the Monument counter, and the cycle counters of the performance monitor
(R33, R47, R53, R217, R398-R400). -/
namespace Sys2Proof.Machine

/-- PD1 has power: the Monument counter runs (R53, R363). -/
def pd1On (s : State) : Bool := decide (s.sys.phase ≠ .off) && decide (s.mode ≠ mDormant)

/-- DCLK edges drive the Datum and the coarse counter, and the steps of ramps (R47, R217, R294). -/
def dclkEdge (s : State) : State :=
  if dclkRuns s then synthEdge { s with dtm := s.dtm.edge, trn := { s.trn with coarse := s.trn.coarse + 1 } } else s

/-- The crystal has an edge every 60 DCLK periods (R33, R53). -/
def crystalEdge (s : State) : State := if pd1On s && decide (s.now % 60 = 0) then { s with dtm := s.dtm.monEdge } else s

/-- Whether the domain clock of a counter unit has an edge in this period (R33, R400): MCLK for SYS, SYN and HMI, KCLK for CRL and PKE, SCLK for SPU, DCLK for the
others. -/
def unitClock (s : State) (u : Nat) : Bool :=
  if u = 0 ∨ u = 11 ∨ u = 12 then mclkRuns s && decide (s.now % 12 = 0)
  else if u = 5 ∨ u = 6 then dclkRuns s && decide (s.trn.coarse % 2 = 0)
  else if u = 7 then dclkRuns s && decide (s.trn.coarse % 3 ≠ 2)
  else dclkRuns s

/-- How many instances a unit has (R400). -/
def unitInsts (u : Nat) : Nat := [0, 7, 7, 5, 4, 19, 17, 8, 0, 12, 24, 8, 64].getD u 0

/-- One amount for each instance of a list, of those that are not 0. -/
def perInst (evt : Nat) (l : List Nat) (f : Nat → Nat) : List (Nat × Nat × Nat) :=
  (l.map (fun i => (evt, i, f i))).filter (fun e => decide (e.2.2 ≠ 0))

/-- 1 where a condition holds. -/
def oneIf (b : Bool) : Nat := if b then 1 else 0

/-- The events that are amounts of one clock edge: event, instance, amount (R400). -/
def edgeEvents (s : State) (u : Nat) : List (Nat × Nat × Nat) :=
  match u with
  | 1 => perInst 0x07 [0, 1, 2, 3] (fun p => oneIf ((List.range 8).any (fun tc => if h : p < 4 then classPaused s ⟨p, h⟩ tc s.datum else false)))
  | 3 =>
    let q := fun (i : Nat) => if h : i < 5 then (s.svp.queues[i]).length else 0
    perInst 0x08 [0, 1, 2, 3, 4] (fun i => oneIf (decide (q i ≠ 0))) ++ perInst 0x09 [0, 1, 2, 3, 4] q
      ++ perInst 0x0A [0, 1, 2, 3] (fun i => oneIf ((wantsEncrypt s i).isSome || (wantsVerify s i).isSome))
  | 5 => perInst 0x03 (List.range 12) (fun n => oneIf (if h : n < 12 then !(s.svp.lanes[n]).jobs.isEmpty || decide (s.now < (s.svp.lanes[n]).free) else false))
  | 4 =>
    let ts := fun (p : Nat) => if h : p < 4 then (s.port ⟨p, h⟩).tickets else []
    let on := fun (t : Ticket) => decide (t.resFrom < t.resTo) && decide (0 ≤ instDiff s.datum t.resFrom) && decide (instDiff s.datum t.resTo < 0)
    perInst 0x05 [0, 1, 2, 3] (fun p => (ts p).length) ++ perInst 0x06 [0, 1, 2, 3] (fun p => oneIf ((ts p).any on))
  | 6 => perInst 0x03 (List.range 16) (fun k => oneIf (if h : k < 16 then (s.pke.cores[k]).isSome else false))
  | 8 => perInst 0x03 [0x80] (fun _ => oneIf (s.on F.DTM_STATE_SLEW))
  | 9 => perInst 0x03 (List.range 8) (fun c => oneIf (decide (s.get (F.TRV_CH_STATE_STATE c) = 2)))
  | 11 =>
    let muted := fun (n : Nat) => allOuts.any (fun (o : Fin 12) => decide ((outSynth s o).val + 1 = n) && decide (outState s o = 1))
    perInst 0x02 (List.range 8) (fun n => oneIf (if n = 0 then s.on F.SYN_STAT_SYN0LOCK else if n = 7 then s.on F.SYN_STAT_AUXLOCK
        else s.on (F.SYN_SYN_STAT_LOCKED n)))
      ++ perInst 0x04 (List.range 8) (fun n => oneIf (muted n))
  | 12 => perInst 0x09 [0, 1] (fun _ => oneIf (s.on F.HMI_MEM_STAT_SELFREF))
  | _ => []

/-- Event 0x01 of a counter counts the edges of the unit's clock (R399). -/
def countEdge (u : Nat) (s : State) (k : Nat) : State :=
  let i := s.get (F.PMC_SEL_INST u k)
  if i = 0x7F ∨ i < unitInsts u then pmcCount u 0x01 i 1 s k else s

/-- One edge of a unit's clock: CYC, the counters of edges, and the amounts of the edge (R398, R399). -/
def unitEdge (s : State) (u : Nat) : State :=
  if unitClock s u then
    let t := s.add64 (A.PMC_CYC_W0 u) 1
    let t := withGroup 17 (fun t => [0, 1, 2, 3, 4, 5, 6, 7].foldl (countEdge u) t) t
    if [0, 1, 2, 3, 4, 5, 6, 7].any (fun k => t.on (F.PMC_SEL_EN u k)) then
      (edgeEvents s u).foldl (fun (t : State) (e : Nat × Nat × Nat) => pmcEvent u e.1 e.2.1 e.2.2 t) t
    else t
  else s

/-- The DCLK periods are counted, and with them those of the tick (R26). On an MCLK edge the events of the last cycle are over (R11). -/
def countPeriod (s : State) : State :=
  let s := { s with now := s.now + 1, sys := { s.sys with tickPhase := if tickClock s then s.sys.tickPhase + 1 else s.sys.tickPhase } }
  if mclkRuns s && decide (s.now % 12 = 0) then { s with mclk := [] } else s

/-- One DCLK period passes with no command: a tick that is due, the edges of the clocks, the grants of the SIV lanes, and in a pair the
claim, which changes on the edge on which its cause changes (R297; assumption log 1). -/
def idle (s : State) : State :=
  let s := crystalEdge (countPeriod (if tickDue s then tickNow s else s))
  if powered s then
    let s := (List.range 13).foldl unitEdge (dclkEdge s)
    claimUpdate (if lanesWanted s then lanesRun s else s)
  else s

end Sys2Proof.Machine
end

