-- ==== Sys2Proof/Machine/Flags.lean ====
section
/-! DEFINITION. The levels that the device drives on its status pins, computed from the state (R262, R322, R376, R377, R386). -/
namespace Sys2Proof.Machine

/-- The level of an output pin. -/
inductive PinLevel where
  /-- Not driven: high-impedance, or an open-drain pin that is released. -/
  | released
  | low
  | high
deriving DecidableEq, Repr

/-- A driven level. -/
def PinLevel.of (b : Bool) : PinLevel := if b then .high else .low

/-- The pins of BK4 are driven: the device runs in a mode that powers them, the voltage of BK4 is set and does not move (R375-R377, R425). -/
def statusDriven (s : State) : Bool :=
  decide (s.sys.phase = .running) && decide (s.mode ≠ mMonument) && decide (s.mode ≠ mDormant) && s.sys.banksSet && !(s.sys.bankSettling.testBit 4)

/-- TSTATE[i]: bit i of the Datum state (R262, R377). -/
def pinTstate (s : State) (i : Fin 3) : PinLevel :=
  if statusDriven s then .of ((s.get F.DTM_STATE_STATE).testBit i.val) else .released

/-- READY: high in SERVE and SHADOW (R377). -/
def pinReady (s : State) : PinLevel := if statusDriven s then .of (decide (s.mode = mServe ∨ s.mode = mShadow)) else .released

/-- ALARM_N: low while an enabled alarm stands (R386). -/
def pinAlarm (s : State) : PinLevel :=
  if statusDriven s && decide (s.rd A.SYS_ALARM_STAT &&& s.rd A.SYS_ALARM_EN ≠ 0) then .low else .released

/-- A ring's interrupt is pending and HMI_CFG.IRQPIN lets it drive IRQ_N (R322). -/
def ringPin (s : State) : Bool := s.on F.HMI_CFG_IRQPIN && decide (s.rd A.HMI_IRQ_PEND_W0 ≠ 0 ∨ s.rd A.HMI_IRQ_PEND_W1 ≠ 0)

/-- IRQ_N: low while a ring's interrupt drives it or an enabled source group is pending (R322). -/
def pinIrq (s : State) : PinLevel :=
  if statusDriven s && (ringPin s || (List.range 18).any (fun g => groupEnabled s g)) then .low else .released

end Sys2Proof.Machine
end

