-- ==== Sys2Proof/Safety.lean ====
section
/-! DEFINITION. What counts as a safe state and a safe run of the device, in the terms that claims use. -/
namespace Sys2Proof.Machine

/-- The form of the boot flash: rising addresses, and no byte listed that reads as erased. -/
def flashWf (m : Map Byte) : Bool := m.sorted && m.all (fun e => decide (e.2 ≠ 0xFF))

/-- The two address spaces of the device are in their canonical forms: equal contents are equal data. -/
def Canonical (s : State) : Prop := regsWf s.regs = true ∧ flashWf s.sys.flash = true

/-- A run of `n` steps that stops nowhere. -/
def runsFor : Nat → State → Bool
  | 0, _ => true
  | n + 1, s =>
    match step s with
    | .next t => runsFor n t
    | .fault _ => false
    | .refused _ => false

/-- No output stage of a unit of a pair drives its pin while the claims do not give the unit the right to drive (R292). -/
def outputsSafe (s : State) : Bool :=
  !(inPair s) || s.on F.DVL_STAT_ACTIVE || (List.range 12).all (fun o => decide (outState s o ≠ 1 ∧ outState s o ≠ 2))

/-- A register that an event may touch on its way: the performance monitor's, SYS_ALARM_STAT, and FBK_LOST_CNT (R385, R388, R397). -/
def eventReg (a : Nat) : Bool := decide (0x20000 ≤ a ∧ a < 0x21000) || decide (a = A.SYS_ALARM_STAT) || decide (a = A.FBK_LOST_CNT)

/-- `t` is `s` but for registers of `R`, and but for what events leave on their way: the registers of `eventReg`, the alarms raised since the last tick, the entries
that wait for the Field Book, the MSI-X messages sent and their pending bits. -/
structure ChangesOnly (R : Nat → Bool) (s t : State) : Prop where
  rest : t = { s with
    regs := t.regs, mclk := t.mclk, out := t.out, flt := { s.flt with raised := t.flt.raised }
    fbk := { s.fbk with queued := t.fbk.queued, lost := t.fbk.lost }, hmi := { s.hmi with pba := t.hmi.pba } }
  regs : ∀ a, R a = false → eventReg a = false → t.rd a = s.rd a
  mclk : ∀ a, R a = false → eventReg a = false → t.brought a = s.brought a

/-- A block's queue to the Field Book has room for one more entry (R388). -/
def hasRoom (s : State) (blk : Nat) : Prop := (s.fbk.queued.filter (fun q => decide (q.block = blk))).length < 64

/-- An entry of the code with the arguments waits for the Field Book. -/
def recorded (t : State) (code a0 a1 a2 a3 : Nat) : Prop :=
  ∃ q ∈ t.fbk.queued, q.entry.code = code ∧ q.entry.a0 = a0 ∧ q.entry.a1 = a1 ∧ q.entry.a2 = a2 ∧ q.entry.a3 = a3

/-- The device admits register writes: it has power, MCLK runs, and BOOT has reached its end (R279, R349, R363). -/
structure Admits (s : State) : Prop where
  power : powered s = true
  clock : mclkRuns s = true
  opened : s.sys.writesOpen = true

/-- The place of the hook of a live register in `liveHooks`. -/
def hookIndex (p : Path) (a : Nat) : Option Nat :=
  if (selAt a).isSome then none else (liveHooks p).findIdx? (fun h => (idxAt h.base h.stride h.count a).isSome)

/-- The register at an address, and that a write of its one word acts at once. -/
def liveRow (a : Nat) : Bool := (findRow a).any (fun r => !r.image && !waits r a) && !inMsix a && !inPba a

/-- The register at an address, and that a permitted write of its one word is a live change (R14, R359). -/
def imageRow (a : Nat) : Bool := (findRow a).any (fun r => r.image && decide (r.words = 1) && !waits r a) && !inMsix a && !inPba a

end Sys2Proof.Machine
end

