-- ==== Sys2Proof/WellFormed.lean ====
section
/-! DEFINITION. Which commands the world can form: a command is well formed when its operands are what its event carries. The meanings answer a next state for
every command, well formed or not. -/
namespace Sys2Proof
open Sys2Proof.Machine

/-- The fields of a descriptor are as wide as R327 makes them. -/
def Desc.wellFormed (d : Desc) : Bool :=
  decide (d.addr < 2 ^ 64 ∧ d.len < 2 ^ 32 ∧ d.id < 2 ^ 16 ∧ d.hflags < 2 ^ 16 ∧ d.addr2 < 2 ^ 64 ∧ d.len2 < 2 ^ 32 ∧ d.port < 2 ^ 8)

/-- A corrected error names one of the two DRAM channels or one of the four SRAM regions, and a double-bit error one of the five regions of the DRAM or of those four
(R36, R38, R381). -/
def EccHit.wellFormed : EccHit → Bool
  | .none => true
  | .single sram source => sram || decide (source.val < 2)
  | .double sram region _ => !sram || decide (region.val < 4)

/-- The bytes a path can address: PCIe any but none, the SPI port whole words only (R13, R359). -/
def Path.addresses (path : Path) (be : BitVec 4) : Bool :=
  match path with
  | .mw0 => decide (be ≠ 0)
  | .mspi => decide (be = 15)

/-- A read addresses bytes that its path can address. -/
def ReadBy.wellFormed (r : ReadBy) : Bool := r.path.addresses r.be

/-- A write of SYS_MODE_CTL with its key and request `req` (R372). -/
def modeWord (value : Word) (req : Nat) : Bool := decide (value.extractLsb' 16 16 = 0x4D44) && decide ((value.extractLsb' 0 3).toNat = req)

/-- The conditions on the operands of each command. -/
def Instr.wellFormed : Instr → Bool
  | .registerWrite path addr be _ => decide (addr.toNat % 4 = 0) && path.addresses be
  | .readClear reader addr => decide (addr.toNat % 4 = 0) && reader.wellFormed
  | .wideValueLatchRead reader addr => decide (addr.toNat % 4 = 0) && reader.wellFormed
  | .livelockWrite _ _ => true
  | .managementTick => true
  | .handoffRequest _ => true
  | .slewComplete => true
  | .datumRateApply => true
  | .domainSplit => true
  | .dtmVote _ => true
  | .dtmNovote => true
  | .leapApplied => true
  | .utcOffsetChange => true
  | .utcDisagree => true
  | .cmpCommit _ _ _ => true
  | .cmpDisable _ value => !(value.getLsbD 0)
  | .cmpFired _ => true
  | .ptpClientDelayReq _ => true
  | .ptpClientMessage _ => true
  | .frameReceive _ _ _ _ _ => true
  | .pipelineRequest _ table buffer => table.wellFormed && buffer.wellFormed
  | .clientBucketFill bucket => decide (bucket < 25165824)
  | .ntsCookieVerify _ => true
  | .ntsResponseEncrypt _ _ => true
  | .ticketLoadDeadline _ _ => true
  | .lateToleranceExpiry _ _ => true
  | .gateRelease _ _ => true
  | .txFrameDone _ _ => true
  | .egressCrossingReport _ _ _ => true
  | .unstakedFrameSend _ => true
  | .gridModelRefresh _ _ spacing _ _ => decide (0 < spacing)
  | .ptpIssue schedule _ => (match schedule with | .grant index => decide (index < 262144) | .multicast _ => true)
  | .grantRequest => true
  | .grantCancel => true
  | .grantExpiry index => decide (index < 262144)
  | .announcementRepeat _ => true
  | .svpCounterClear _ => true
  | .skoCounterClear _ => true
  | .stakeCompensationChange n addr _ _ => [A.STK_CFG n, A.STK_TRIM n, A.STK_BRD n, A.STK_PHYRX n, A.STK_PHYTX n].contains addr.toNat
  | .stakeSelfTestStart _ => true
  | .stakeSelfTestDone _ _ => true
  | .followUpSend _ => true
  | .variableLatencyMeasure _ _ _ => true
  | .linkUp _ _ => true
  | .linkDown _ _ _ _ _ => true
  | .pauseEnd _ _ => true
  | .flowControlRefresh _ _ => true
  | .pathSwitch _ => true
  | .pathRevert _ => true
  | .prtCounterClear _ => true
  | .fieldTxAttempt _ _ => true
  | .fieldCollision _ _ => true
  | .beaconLost _ => true
  | .mdioCommand _ value => value.getLsbD 30
  | .mdioDone _ => true
  | .wakeEvent _ => true
  | .transitEdge _ _ _ _ => true
  | .transitStampAccept _ _ => true
  | .transitRecordOut => true
  | .evqPop => true
  | .trnResSeqRead reader _ => reader.wellFormed
  | .transitSettingChange ch addr _ _ => (List.range 6).any (fun k => decide (addr.toNat = A.TRN_CH_CFG ch + 4 * k))
  | .transitStartOverflow _ => true
  | .converterCalibrationDone _ _ hist => decide (hist.length = 16384)
  | .converterRotate _ _ => true
  | .oscinDetect _ => true
  | .oscinLoss => true
  | .todMessage _ _ => true
  | .pulseMissing _ => true
  | .refQualifyTimer _ => true
  | .refWtrExpiry _ => true
  | .refSwitchDone _ => true
  | .closureEvaluation => true
  | .channelLock _ => true
  | .holdoverTimeout _ => true
  | .benchmarkSample _ => true
  | .benchmarkRefit => true
  | .benchmarkTempRead _ => true
  | .syn0LossOfLock => true
  | .clockRestart => true
  | .dramResume => true
  | .syn0Lasting => true
  | .synAuxLol => true
  | .clkDoubleLoss => true
  | .synLol _ => true
  | .synLock _ => true
  | .synSettleDone _ => true
  | .synRelockChange _ addr _ => (List.range 4).any (fun n => decide (addr.toNat = A.SYN_SYN_NUM (n + 3) ∨ addr.toNat = A.SYN_SYN_DEN (n + 3)))
      || (List.range 12).any (fun o => decide (addr.toNat = A.SYN_OUT_DIV o))
  | .synSteerApply _ => true
  | .rampGo _ value => value.getLsbD 31
  | .rampSegmentDone _ => true
  | .rampStop _ value => value.getLsbD 30
  | .syncInEdge => true
  | .outputLimitMeasure _ _ => true
  | .limitClear _ value => value.getLsbD 1
  | .limitAutoRelease _ => true
  | .claimFrameSend => true
  | .claimFrameReceive _ => true
  | .claimStale => true
  | .activeGain => true
  | .dvlCmpMismatch _ => true
  | .heartbeatSend => true
  | .heartbeatReceive _ _ hb _ => decide (hb.cycle < 2 ^ 32)
  | .dvlLinkDown => true
  | .stateRecordSend => true
  | .stateRecordApply _ _ _ => true
  | .statusRecordSend => true
  | .pairAttestation _ _ => true
  | .pairingRetry => true
  | .bulkComplete => true
  | .trackComplete => true
  | .dvlYield _ => true
  | .dvlRejoin value => value.getLsbD 1
  | .ringTailWrite _ _ => true
  | .ringEnable _ value => value.getLsbD 31
  | .ringDisable _ value => !(value.getLsbD 31)
  | .ringStopComplete _ => true
  | .upRingFrameDeliver _ slots => slots.all Desc.wellFormed
  | .ringWaitExpiry _ => true
  | .upRingRecord _ slots => slots.all Desc.wellFormed
  | .recordBufferCoalesce _ => true
  | .hostTxFrame _ slots _ => slots.all Desc.wellFormed
  | .commandFetch _ desc _ => desc.wellFormed
  | .commandCompletion _ => true
  | .ringIrqTimer _ => true
  | .hostReset _ => true
  | .busMasterDisable _ => true
  | .mspiRead _ => true
  | .mspiWrite _ => true
  | .modAdd _ => true
  | .modSub _ => true
  | .modMul _ => true
  | .modRed _ => true
  | .modExp _ => true
  | .modInv _ => true
  | .rsaPub _ => true
  | .rsaPriv _ => true
  | .ecValidate _ => true
  | .ecMul _ => true
  | .ecKeygen _ => true
  | .ecDh _ => true
  | .ecdsaSign _ => true
  | .ecdsaVerify _ => true
  | .x25519 _ => true
  | .x25519Keygen _ => true
  | .ed25519Keygen _ => true
  | .ed25519Sign _ => true
  | .ed25519Verify _ => true
  | .ksImport _ => true
  | .ksGenerate _ => true
  | .ksPublic _ => true
  | .ksAttest _ => true
  | .ksErase _ => true
  | .pkeDispatch _ => true
  | .pkeOpComplete _ => true
  | .pkeAbort _ => true
  | .pkeCounterClear => true
  | .ntsKeyDerive => true
  | .ntsEpoch => true
  | .crlCounterClear => true
  | .rngFail => true
  | .rngRecover => true
  | .ntskeSyn _ => true
  | .tlsClientHello _ _ => true
  | .tlsKeyUpdate _ _ => true
  | .ntskeRequest _ _ => true
  | .ntskeSessionTimeout _ => true
  | .ntskeSessionEnd _ => true
  | .certExpiry => true
  | .release _ _ _ => true
  | .porstAssert => true
  | .vinGood _ => true
  | .vinLost => true
  | .vaoGood => true
  | .vaoLost => true
  | .bootSlotHeader _ => true
  | .bootSlotBodyRead => true
  | .bootSignatureVerify => true
  | .bootFirmwareStart _ _ _ => true
  | .bootRegsApply => true
  | .bootKeysLoad => true
  | .bootCertsCheck => true
  | .bootEnd => true
  | .bootTimeout => true
  | .dramTrainingDone => true
  | .flashRead _ value => value.getLsbD 31 && (decide (value.extractLsb' 28 2 = 0) || decide (value.extractLsb' 28 2 = 3))
  | .flashProgram _ value => value.getLsbD 31 && decide (value.extractLsb' 28 2 = 1)
  | .flashErase _ value => value.getLsbD 31 && decide (value.extractLsb' 28 2 = 2)
  | .flashOpDone _ => true
  | .modeRequestMaint _ value => modeWord value 1
  | .modeRequestSafe _ value => modeWord value 2
  | .modeRequestDormant _ value => modeWord value 3
  | .modeRequestRestart _ value => modeWord value 4
  | .surveyTimeout => true
  | .safeAutorst => true
  | .iobankChange _ _ => true
  | .iobankSettle => true
  | .faultEvent => true
  | .patrolScrub ecc => ecc.wellFormed
  | .alarmAck _ => true
  | .irqEoi _ => true
  | .fbkEntryAccept => true
  | .fbkSealSigned _ => true
  | .fbkSealPeriod => true
  | .fbkChainResume => true
  | .fbkSeal _ => true
  | .fbkReadseg _ ecc => ecc.wellFormed
  | .fbkReadtail _ => true
  | .fbkMark _ => true
  | .fbkHead _ => true
  | .pmcSelWrite _ _ _ => true
  | .pmcClearAll => true
  | .pmcSnapshot => true
  | .pmcSnapPeriod => true
  | .tagEnable value => value.getLsbD 31
  | .spuInstructionTag _ _ _ _ _ _ _ _ => true
  | .extest => true
  | .idcode => true
  | .samplePreload => true
  | .extestPulse => true
  | .extestTrain => true
  | .highz => true
  | .clamp => true
  | .bypass => true
  | .syn0Lock => true
  | .synAuxLock => true
  | .pcieLinkUp _ _ => true
  | .busMasterEnable _ _ => true
  | .beaconReceive _ => true
  | .beaconSend _ => true
  | .fieldRxClkChange _ _ => true
  | .bulkFrameReceive _ _ _ _ => true
  | .statusRecordReceive _ _ => true
  | .hostFrameSent _ _ => true
  | .vaolow => true
  | .dvlLaneDown _ => true

end Sys2Proof
end

