-- ==== Sys2Proof/Certificates/Slice0/Obligations.lean ====
section
/-! DEFINITION. The statements for the provers. -/
open Sys2Proof Sys2Proof.Machine

/-- For every command c, queue rest and state s: the step of s with c in front of rest is exec of c on s with the queue rest. (98_reader.md) -/
def Obligations.StepRunsTheFrontCommand : Prop :=
  ∀ (c : Instr) (rest : List Instr) (s : State), step { s with pending := c :: rest } = exec c { s with pending := rest }

/-- The model's choice (assumption log 1): on an empty queue a step answers the state after one idle DCLK period, after which the queue is still empty.
(01_architecture.md, 02_datum_timescale.md) -/
def Obligations.EmptyQueueLetsOnePeriodPass : Prop :=
  ∀ s : State, s.pending = [] →
    step s = .next (idle s) ∧ (idle s).pending = []

/-- Whatever a command does, it adds nothing to the queue, takes nothing from it and reorders nothing: after a step that answers a next state, the queue is the
queue before it without its front command. (98_reader.md) -/
def Obligations.StepTakesExactlyOneCommand : Prop :=
  ∀ s t : State, step s = .next t → t.pending = s.pending.tail

/-- Every command, with any operands, in any state, answers a next state: the model stops at no command. (98_reader.md, opcode_table.json) -/
def Obligations.EveryCommandAnswersANextState : Prop :=
  ∀ (c : Instr) (s : State), ∃ t : State, exec c s = .next t

/-- For every state whose register file and boot flash are in their canonical forms (rising addresses, no listed entry that reads as an unlisted one), every
step that answers a next state answers one whose register file and flash are in that form: equal contents stay equal data. (19_register_index.md,
15_opnida_image.md) -/
def Obligations.EveryStepKeepsTheCanonicalForm : Prop :=
  ∀ s t : State, Canonical s → step s = .next t → Canonical t

/-- State.reset is canonical; its queue is empty; the device is powered and in BOOT (mode 0); no register write is admitted; the Datum has not started; the
pipelines, the ticket queues of the ports and the fault manager hold nothing; every register of the Register Index reads its reset value. The serial
number, the straps, the OTP and the erased flash are the model's values (assumption logs 3 and 5). (16_modes_power_reset.md, 19_register_index.md,
15_opnida_image.md) -/
def Obligations.ResetIsCanonicalAndInBoot : Prop :=
  Canonical State.reset ∧ State.reset.pending = [] ∧ powered State.reset = true ∧ State.reset.mode = 0 ∧ State.reset.sys.writesOpen = false
    ∧ State.reset.dtm.started = false ∧ State.reset.sys.flash = [] ∧ State.reset.flt.queue = [] ∧ (∀ p : Fin 4, (State.reset.port p).tickets = [])
    ∧ (∀ pl : Fin 5, State.reset.svp.queues[pl] = []) ∧ ∀ a : Nat, State.reset.rd a = resetWord a

/-- With power, MCLK running, and before the end of BOOT, a register write through either path is discarded: REGISTER_WRITE answers the state in which only the
access is counted and SYS_BOOT_STAT.WDROP is set (with its interrupt), MSPI's status is 3, and a read through either path returns what it would return at
any time. (R349, 15_opnida_image.md) -/
def Obligations.WriteBeforeBootEndSetsOnlyWdrop : Prop :=
  ∀ (p : Path) (addr : BitVec 24) (be : BitVec 4) (v : Word) (s : State), accessible s = true → s.sys.writesOpen = false →
    exec (.registerWrite p addr be v) s = .next (withGroup 0 (fun s => s.strike F.SYS_BOOT_STAT_WDROP) (countAccess p s))
    ∧ (hostWrite p (addr.toNat / 4 * 4) be.toNat v s).1 = 3

/-- At an address with no register, outside the MSI-X table and its pending bits, a read through either path returns 0 and changes nothing but the count of
accesses, and a full write that the device admits changes nothing but that count. (R10, 00_scope.md) -/
def Obligations.UnassignedAddressReadsZeroAndIgnoresWrites : Prop :=
  ∀ (p : Path) (a : Nat) (v : Word) (s : State), findRow a = none → inMsix a = false → inPba a = false → readPrepare a s = s →
    (hostRead p a s).1 = 0 ∧ (hostRead p a s).2 = countAccess p s ∧ (Admits s → (hostWrite p a 15 v s).2 = countAccess p s)

/-- A write through MW0 whose byte enables do not cover all four bytes of a register answers the state in which the access is counted and a PARTIAL_WRITE
record is written; no register outside those that events touch changes its value. (R13, 00_scope.md) -/
def Obligations.PartialPcieWriteIsDiscardedAndRecorded : Prop :=
  ∀ (addr : BitVec 24) (be : BitVec 4) (v : Word) (s : State), Admits s → (findRow (addr.toNat / 4 * 4)).isSome = true → be ≠ 15 →
    exec (.registerWrite .mw0 addr be v) s = .next (record 0x0001 (addr.toNat / 4 * 4) be.toNat 0 0 (countAccess .mw0 s))
    ∧ ∀ t, exec (.registerWrite .mw0 addr be v) s = .next t → ChangesOnly (fun _ => false) s t

/-- A write that the device admits, of a live register of one word that no rule gives an action of its own, answers a next state in which that register holds
what its access codes make of the old value, the value written and the events of the running MCLK cycle (which keep a w1c bit set), and every other
register (but those that events touch) keeps its value; nothing else of the device changes but what interrupts leave. (R9, R10, R11, 00_scope.md) -/
def Obligations.LiveRegisterWriteActsByItsAccessCodes : Prop :=
  ∀ (p : Path) (addr : BitVec 24) (v : Word) (s : State) (r : RegRow), Admits s → Canonical s → addr.toNat % 4 = 0 → findRow addr.toNat = some r →
    liveRow addr.toNat = true → liveOff s addr.toNat = false → hookIndex p addr.toNat = none → selAt addr.toNat = none → eventReg addr.toNat = false →
    ∃ t, exec (.registerWrite p addr 15 v) s = .next t ∧ t.rd addr.toNat = r.written (s.brought addr.toNat) (s.rd addr.toNat) v
      ∧ ChangesOnly (fun a => decide (a = addr.toNat)) s t

/-- Outside MAINT and without a live grant of its block (SYS_LIVECTL and not SYS_LIVELOCK), a full write of a one-word image register that no owner of a
Transit channel sets is discarded: the next state is that of the counted access with a LIVE_DENIED record of the address, the value and the path and the
event that counts it; the register keeps its value. (R14, R358, 00_scope.md) -/
def Obligations.ImageWriteNeedsMaintOrAGrant : Prop :=
  ∀ (p : Path) (addr : BitVec 24) (v : Word) (s : State) (r : RegRow), Admits s → addr.toNat % 4 = 0 → findRow addr.toNat = some r → r.image = true → r.words = 1 →
    waits r addr.toNat = false → inMsix addr.toNat = false → inPba addr.toNat = false → s.mode ≠ mMaint → granted s addr.toNat = false →
    ownedWhole (countAccess p s) addr.toNat = false → ownedPart (countAccess p s) addr.toNat = false → eventReg addr.toNat = false →
    ∃ t reason, exec (.registerWrite p addr 15 v) s = .next t ∧ (reason = 1 ∨ reason = 2) ∧
      t = pmcEvent 0 0x08 0x80 1 (record 0x0002 addr.toNat v.toNat reason (pathCode p) (dropCopies p [] (countAccess p s)))
      ∧ t.rd addr.toNat = s.rd addr.toNat

/-- A write of SYS_LIVELOCK that the device admits is taken when none has been since the release, and from then on SYS_LIVELOCK is locked; a later write
changes nothing but the count of accesses. (R9, R358, 15_opnida_image.md) -/
def Obligations.LivelockTakesItsFirstWriteOnly : Prop :=
  ∀ (p : Path) (v : Word) (s : State), Admits s → Canonical s →
    (s.sys.liveLocked = false → ∃ t, exec (.livelockWrite p v) s = .next t ∧ t.rd A.SYS_LIVELOCK = v &&& 0x80007FFF ∧ t.sys.liveLocked = true)
    ∧ (s.sys.liveLocked = true → exec (.livelockWrite p v) s = .next (countAccess p s))

/-- With power and MCLK running, in every canonical state. READ_CLEAR of a one-word register sends what the register shows, cut to the bytes addressed, on the
path that asked; its rc fields are cleared but for what events of the running MCLK cycle have brought, and no other register changes but those that events
touch. WIDE_VALUE_LATCH_READ of the lowest word of a wider value sends that word, and every higher word is latched for the path as it then reads.
TRN_RES_SEQ_READ sends the sequence number of the latest statistics block, and the result registers hold that block. (R9, R11, R12, R13, R232, 00_scope.md) -/
def Obligations.ReadsAnswerOnTheirPath : Prop :=
  ∀ (p : Path) (addr : BitVec 24) (be : BitVec 4) (s : State), accessible s = true → Canonical s →
    (∀ (a : Nat) (r : RegRow), a = addr.toNat / 4 * 4 → findRow a = some r → r.word = 0 → inMsix a = false → inPba a = false → liveOff s a = false → readPrepare a s = s →
      eventReg a = false →
      (r.words = 1 → ∃ t, exec (.readClear ⟨p, be⟩ addr) s = .next t ∧ t.out.head? = some (.read (pathCode p) a be.toNat (viewWord s a &&& byteMask be.toNat))
        ∧ t.rd a = r.cleared (s.brought a) (s.rd a) ∧ ChangesOnly (fun i => decide (i = a)) s t)
      ∧ (1 < r.words → ∃ t, exec (.wideValueLatchRead ⟨p, be⟩ addr) s = .next t
        ∧ t.out.head? = some (.read (pathCode p) a be.toNat (viewWord s a &&& byteMask be.toNat))
        ∧ (∀ k, 1 ≤ k → k < r.words → (t.latches p).get (a + 4 * k) = some (viewWord s (a + 4 * k)))))
    ∧ (∀ ch : Fin 24,
        ∃ t, exec (.trnResSeqRead ⟨p, be⟩ ch) s = .next t
        ∧ t.out.head? = some (.read (pathCode p) (A.TRN_CH_RES_SEQ ch) be.toNat (viewWord (resLatch ch (s.chan ch).latest s) (A.TRN_CH_RES_SEQ ch) &&& byteMask be.toNat))
        ∧ t.get (F.TRN_CH_RES_SEQ_SEQ ch) = (s.chan ch).latest.seq % 2 ^ 32 ∧ t.get (F.TRN_CH_RES_N_N ch) = (s.chan ch).latest.n % 2 ^ 25
        ∧ t.get64 (A.TRN_CH_RES_MEAN_W0 ch) = ofSigned 64 (s.chan ch).latest.mean)

/-- After a read of the lowest-order word of a two-word live value through a path, a read of its higher word through that path returns what the higher word
held at that first read, whatever registers change in between. (R12, R401, 00_scope.md) -/
def Obligations.WideReadIsConsistent : Prop :=
  ∀ (p : Path) (a : Nat) (s u : State) (r r' : RegRow), findRow a = some r → findRow (a + 4) = some r' → r.words = 2 → r.word = 0 → r'.word = 1 →
    liveOff s a = false → readPrepare a s = s → liveOff u (a + 4) = false → u.latches p = (hostRead p a s).2.latches p →
    readWord p (a + 4) u = viewWord s (a + 4)

/-- MODE_REQUEST_MAINT, SAFE, DORMANT and RESTART, written when the device admits writes: with the key, outside BOOT, in a mode that lists the request, with no
request pending and (for DORMANT) a wake source enabled, the request waits for the tick and nothing else but the counted access changes; with another key
nothing changes. (R372, R373, R368, 16_modes_power_reset.md) -/
def Obligations.ModeRequestsWaitForTheTick : Prop :=
  ∀ (p : Path) (v : Word) (s : State), Admits s → ∀ c ∈ [(1, Instr.modeRequestMaint p v), (2, .modeRequestSafe p v), (3, .modeRequestDormant p v), (4, .modeRequestRestart p v)],
    let u := countAccess p s
    (fieldGet v 16 16 = 0x4D44 → s.mode ≠ mBoot → requestListed s.mode c.1 = true → (c.1 = 3 → wakeEnabled s = true) → s.sys.request = none →
      exec c.2 s = .next { u with sys := { u.sys with request := some c.1 } })
    ∧ (fieldGet v 16 16 ≠ 0x4D44 → exec c.2 s = .next u)

/-- PRT_COUNTER_CLEAR clears the 23 counters of its port, SVP_COUNTER_CLEAR the 32 of its pipeline, SKO_COUNTER_CLEAR the 8 of its port, CRL_COUNTER_CLEAR the
ten NTS counters and PKE_COUNTER_CLEAR the six of the PKE; every counter then reads 0, and no other register but those that events touch changes. (R213,
R108, R127, R170, R193, 08_network_ports.md, 07_pke_keystore.md) -/
def Obligations.CounterClearCommandsZeroTheirCounters : Prop :=
  ∀ s : State, Admits s → Canonical s →
    let clears := fun (c : Instr) (a n : Nat) => ∃ t, exec c s = .next t ∧ (∀ k, k < n → t.get64 (a + 8 * k) = 0)
      ∧ ChangesOnly (fun i => decide (a ≤ i ∧ i < a + 8 * n)) s t
    (∀ port : Fin 7, liveOff s (A.PRT_CNTCLR port) = false → clears (.prtCounterClear port) (A.PRT_CNT_W0 port 0) 23)
    ∧ (∀ pl : Fin 5, clears (.svpCounterClear pl) (A.SVP_PL_CNT_W0 pl 0) 32)
    ∧ (∀ port : Fin 4, clears (.skoCounterClear port) (skoCnt port 0) 8)
    ∧ clears .crlCounterClear (A.CRL_NTS_CNT_W0 0) 10
    ∧ (domainOn s 9 = true → clears .pkeCounterClear (A.PKE_CNT_W0 0) 6)

/-- Once its condition holds: SLEW_COMPLETE takes the slew out of the announced rates and of the rate in force, and records the hand-off; DATUM_RATE_APPLY puts
the oldest announced rate in force while DCLK runs, without a slew rate where nothing of the slew is left; DOMAIN_SPLIT sets SPLIT with its interrupt,
alarm 1 and record; LEAP_APPLIED moves TAI-UTC and the fallback offset by the leap and weighs the announcements again; UTC_OFFSET_CHANGE takes the reported
offset with its interrupt and record; UTC_DISAGREE raises interrupt 8, alarm 0 and its record; DTM_NOVOTE outside a pair loads the three copies from the
Monument counter and sends its fault. (R47, R49, R52, R59, R60, R61, R68, R69, R115) -/
def Obligations.DatumEventsTakeEffect : Prop :=
  (∀ (s : State) (old new : Nat) (d : Int), s.on F.DTM_STATE_SLEW = true → s.dtm.slewLeft = 0 → s.dtm.handoff = some (old, new, d) → s.dtm.under = 2 → (let v := s.set F.DTM_STATE_SLEW 0
      let u := applyRate s.dtm.base 0 { v with dtm := { v.dtm with announced := s.dtm.announced.map (fun (c : RateChange) => { c with slew := 0 }) } }
      let ps := ofSigned 64 (d * 1000 / 65536)
      exec .slewComplete s = .next (record 0x0704 (old + 256 * new) ps (ps / 2 ^ 32) 0 { u with dtm := { u.dtm with handoff := none } })))
  ∧ (∀ (s : State) (r : RateChange) (rest : List RateChange), s.dtm.announced = r :: rest → dclkRuns s = true → 0 ≤ instDiff s.datum r.due → exec .datumRateApply s = .next (synthChanged (applyRate r.base (if s.dtm.slewLeft = 0 then 0 else r.slew) { s with dtm := { s.dtm with announced := rest } })))
  ∧ (∀ (s : State), 3 ≤ s.dtm.splitTicks → s.on F.DTM_STATE_SPLIT = false → exec .domainSplit s = .next (record 0x070F 0 0 0 0 (alarmRaise 1 (irqSet 2 A.DTM_IRQ_STAT 2 (s.set F.DTM_STATE_SPLIT 1)))))
  ∧ (∀ (s : State) (d : Int), Canonical s → s.get F.DTM_UTC_STAT_PENDING ≠ 0 → leapSec s.dtm.leapDay (s.get F.DTM_UTC_STAT_PENDING) s.utcOffset ≤ ((instSec s.datum : Nat) : Int) → d = (if s.get F.DTM_UTC_STAT_PENDING = 1 then 1 else -1) → -32768 ≤ s.utcOffset + d → s.utcOffset + d ≤ 32767 → exec .leapApplied s = .next (leapEvaluate (leapApply s))
      ∧ ∃ t, exec .leapApplied s = .next t ∧ t.utcOffset = s.utcOffset + d ∧ t.dtm.fallback = s.dtm.fallback + d)
  ∧ (∀ (s : State), (s.utcSource (s.domSrc s.active)).stood = true → (s.utcSource (s.domSrc s.active)).offset ≠ s.utcOffset → (let v := (s.utcSource (s.domSrc s.active)).offset
      let u := s.set F.DTM_UTC_STAT_SRC (utcSrcCode (s.domSrc s.active))
      u.utcOffset ≠ v → exec .utcOffsetChange s = .next (record 0x0706 0 0 0 0 (irqSet 2 A.DTM_IRQ_STAT 5 (noteLeap (fun s => s.setI F.DTM_UTC_STAT_OFFSET v) u)))))
  ∧ (∀ (s : State), (s.utcSource (s.domSrc (1 - s.active))).stood = true → (s.utcSource (s.domSrc (1 - s.active))).offset ≠ s.utcOffset → exec .utcDisagree s = .next (record 0x0707 0 0 0 0 (alarmRaise 0 (irqSet 2 A.DTM_IRQ_STAT 8 s))))
  ∧ (∀ (s : State), inPair s = false → exec .dtmNovote s = .next (faultSend .dtmNovote 0 0 0 0 { s with dtm := s.dtm.load s.monumentValue }))

/-- Where the two other copies agree, DTM_VOTE makes all three equal and leaves the value of the Datum, its rate, its slew and everything else of the Datum as
they were; DTM_VOTE_CNT counts one up to its maximum, bit 6 of DTM_IRQ_STAT is set, one DTM_VOTE fault waits for the fault manager, and no other register
changes but those that events touch. (R51, R52) -/
def Obligations.OneDisagreeingCopyIsMasked : Prop :=
  ∀ (copy : Fin 3) (s : State), Canonical s →
    (copy = 0 → s.dtm.c1 = s.dtm.c2) → (copy = 1 → s.dtm.c0 = s.dtm.c2) → (copy = 2 → s.dtm.c0 = s.dtm.c1) →
    ∃ t, exec (.dtmVote copy) s = .next t
      ∧ t.dtm = { s.dtm with c0 := t.dtm.c0, c1 := t.dtm.c0, c2 := t.dtm.c0 } ∧ t.datum = s.datum
      ∧ t.get F.DTM_VOTE_CNT_COUNT = satAdd32 (s.get F.DTM_VOTE_CNT_COUNT) 1 ∧ t.bit A.DTM_IRQ_STAT 6 = true
      ∧ (∀ i, i ≠ 6 → t.bit A.DTM_IRQ_STAT i = s.bit A.DTM_IRQ_STAT i)
      ∧ t.flt.queue.length = s.flt.queue.length + 1 ∧ (t.flt.queue.getLast?).map (·.code) = some .dtmVote
      ∧ ∀ a, a ≠ A.DTM_VOTE_CNT → a ≠ A.DTM_IRQ_STAT → eventReg a = false → t.rd a = s.rd a

/-- When the device admits writes: CMP_COMMIT of a unit that the pair does not own loads the target and the period from the written word and the pending
copies, drops those copies and arms an enabled unit, or, where an NS word is out of range, sets BADVAL and loads nothing; CMP_DISABLE writes CTL with EN 0
and disarms the unit; an armed unit whose target is reached while DCLK runs fires: in time and with no output, interrupt or record asked for, it counts its
event and its target moves on by its period, or it is disarmed where it has none; before that CMP_FIRED changes nothing. (R12, R46, R71, R72,
02_datum_timescale.md) -/
def Obligations.CompareUnitCommandsTakeEffect : Prop :=
  (∀ (s : State) (p : Path) (n : Fin 16) (w0 : Word), Admits s → exec (.cmpCommit p n w0) s = .next (cmpCommit p n w0 (countAccess p s)))
  ∧ (∀ (s : State) (p : Path) (n : Fin 16) (w0 : Word), Admits s → (let c := countAccess p s
      let g := A.DTM_CMP_TGT_W0 n
      let q := A.DTM_CMP_PER_W0 n
      let per := wordsInstant (c.copyOr p q) (c.copyOr p (q + 4)) (c.copyOr p (q + 8) &&& 0xFFFF) 0
      let d := dropCopies p [g + 4, g + 8, g + 12, q, q + 4, q + 8] c
      cmpOwned c n = false → cmpDue c n = false →
      (((c.copyOr p (g + 4)).toNat % 2 ^ 30 ≥ 1000000000 ∨ (c.copyOr p (q + 4)).toNat % 2 ^ 30 ≥ 1000000000) →
        exec (.cmpCommit p n w0) s = .next (d.strike (F.DTM_CMP_CTL_BADVAL n)))
      ∧ ((c.copyOr p (g + 4)).toNat % 2 ^ 30 < 1000000000 → (c.copyOr p (q + 4)).toNat % 2 ^ 30 < 1000000000 → per = 0 ∨ 65536000 ≤ per →
        (let e := (((d.setDatum g (wordsInstant w0 (c.copyOr p (g + 4)) (c.copyOr p (g + 8)) (c.copyOr p (g + 12)))).wr q (c.copyOr p q &&& 0xFFFF)).wr (q + 4)
          (c.copyOr p (q + 4) &&& 0x3FFFFFFF)).wr (q + 8) (c.copyOr p (q + 8) &&& 0xFFFF)
         let a := if e.on (F.DTM_CMP_CTL_EN n) then e.set (F.DTM_CMP_CTL_ARMED n) 1 else e
         exec (.cmpCommit p n w0) s = .next (synthChanged (setLate n (cmpReached a n) a))))))
  ∧ (∀ (s : State) (n : Fin 16) (v : Word), Admits s → exec (.cmpDisable n v) s = .next (cmpCtlWrite n (v &&& 0xFFFFFFFE) (countAccess .mw0 s)))
  ∧ (∀ (s : State) (n : Fin 16), cmpDue s n = true → s.dtm.cmpLate.testBit n = false → (s.on (F.DTM_CMP_CTL_OUTEN n) && decide (s.get (F.DTM_CMP_CTL_OUTSEL n) < 12)) = false → s.on (F.DTM_CMP_CTL_IRQ n) = false → s.on (F.DTM_CMP_CTL_FBK n) = false → Canonical s → exec (.cmpFired n) s = .next (pmcEvent 8 0x04 n 1 (if cmpPeriod s n = 0 then (setLate n false s).set (F.DTM_CMP_CTL_ARMED n) 0
        else (setLate n false s).setDatum (A.DTM_CMP_TGT_W0 n) (instAdd (cmpTarget s n) (cmpPeriod s n)))))
  ∧ (∀ (s : State) (n : Fin 16), cmpDue s n = false → exec (.cmpFired n) s = .next s)

/-- When the device admits writes, CMP_DISABLE of a unit that the pair does not own leaves EN and ARMED of its CTL register 0, whatever was written with it, so
that the unit does not fire. (R71) -/
def Obligations.DisabledCompareUnitIsDisarmed : Prop :=
  ∀ (s : State) (n : Fin 16) (v : Word), Admits s → Canonical s → cmpOwned s n = false → ∃ t, exec (.cmpDisable n v) s = .next t ∧ t.on (F.DTM_CMP_CTL_EN n) = false ∧ t.on (F.DTM_CMP_CTL_ARMED n) = false ∧ exec (.cmpFired n) t = .next t

/-- A running client instance with a selected master and a started sequence queues a Delay_Req with the next sequenceId for its port, shows it, and keeps it
outstanding; a message of the inbox leaves it, and one of the instance's domain goes to the rule of its type (Sync, Follow_Up, Delay_Resp, Announce). A
Sync of the selected master is kept, a one-step one with its time, a two-step one until the Follow_Up of its port and sequenceId; one of another port is
not. A Delay_Resp that answers no outstanding Delay_Req is counted late; one that answers the latest in time ends its wait. (R58, R73, R74, R75) -/
def Obligations.PtpClientCommandsTakeEffect : Prop :=
  (∀ (s : State) (n : Fin 2) (a : Announced), halted s = false → (s.pc n).announce = some a → (s.pc n).started = true → pcRuns s n = true → (hp : pcPort s n < 7) → (let c := s.pc n
      let seq := c.nextSeq
      let p : Fin 7 := ⟨pcPort s n, hp⟩
      let m := ptpMessage 1 (s.get (F.DTM_PC_CFG_DOMAIN n)) (if s.get (F.DTM_PC_CFG_PROFILE n) = 1 then 0 else 0x0400) 0 (pcIdentity s n) seq 0x7F (ptpStamp s.datum)
      let u := s.setPc n { c with started := true, nextSeq := (seq + 1) % 65536, outstanding := c.outstanding ++ [⟨seq, none⟩] }
      exec (.ptpClientDelayReq n) s = .next (txEnqueue p ⟨(pcEnv u n a).frame m, controlClass u p, .client n seq⟩ (u.set (F.DTM_PC_STAT_SEQ n) seq))))
  ∧ (∀ (s : State) (n : Fin 2), (s.pc n).inbox = [] → exec (.ptpClientMessage n) s = .next s)
  ∧ (∀ (s : State) (n : Fin 2) (m : PcMsg) (rest : List PcMsg), (s.pc n).inbox = m :: rest → halted s = false → pcRuns s n = true → (parsePtp m.bytes).version = 2 → (parsePtp m.bytes).length ≤ m.bytes.length → ptpLength (parsePtp m.bytes).kind ≤ (parsePtp m.bytes).length → (parsePtp m.bytes).domain = s.get (F.DTM_PC_CFG_DOMAIN n) → (let c : PtpClient := { s.pc n with inbox := rest }
      let u := s.setPc n c
      let h := parsePtp m.bytes
      let syncs := c.syncs.filter (fun x => decide (x.port ≠ h.port))
      (h.kind = 0 → c.master = h.port → h.flags / 512 % 2 = 0 → exec (.ptpClientMessage n) s = .next (u.setPc n { c with
        syncs := syncs ++ [⟨h.port, h.seq, m.inst, h.corr, false⟩], quietTicks := 0, lastSync := some (m.inst, ptpInstant h.body 0 h.corr) }))
      ∧ (h.kind = 0 → c.master = h.port → h.flags / 512 % 2 = 1 → exec (.ptpClientMessage n) s = .next (u.setPc n { c with
        syncs := syncs ++ [⟨h.port, h.seq, m.inst, h.corr, true⟩] }))
      ∧ (h.kind = 0 → c.master ≠ h.port → exec (.ptpClientMessage n) s = .next u)
      ∧ (∀ x, h.kind = 8 → c.syncs.find? (fun x => decide (x.port = h.port)) = some x → x.seq = h.seq → x.twoStep = true →
        exec (.ptpClientMessage n) s = .next (u.setPc n { c with lastSync := some (x.rx, ptpInstant h.body 0 (x.corr + h.corr)), quietTicks := 0 }))
      ∧ (h.kind = 9 → c.outstanding.reverse.find? (fun d => decide (d.seq = h.seq)) = none →
        exec (.ptpClientMessage n) s = .next (irqSet 2 A.DTM_IRQ_STAT 7 (u.addSat (F.DTM_PC_LATE_CNT_COUNT n) 1)))
      ∧ (∀ d t3, h.kind = 9 → c.outstanding.reverse.find? (fun d => decide (d.seq = h.seq)) = some d → d.left = some t3 → beAt h.body 10 10 = pcIdentity u n →
        instDiff m.inst t3 < u.get (F.DTM_PC_CFG_TIMEOUT n) * 1000000 * 65536 → c.lastSync = none →
        exec (.ptpClientMessage n) s = .next (u.setPc n { c with outstanding := c.outstanding.filter (fun x => decide (x.seq ≠ h.seq)) }))))

/-- A Delay_Req of a started instance carries the instance's next sequenceId, which is then 1 higher modulo 65,536; DTM_PCn_STAT.SEQ shows it; it is the latest
outstanding one; and the other instance is unchanged. (R73) -/
def Obligations.DelayReqSequenceAdvancesByOne : Prop :=
  ∀ (s : State) (n : Fin 2) (a : Announced), Canonical s → halted s = false → (s.pc n).announce = some a → (s.pc n).started = true → (s.pc n).nextSeq < 65536 → pcRuns s n = true → pcPort s n < 7 → ∃ t, exec (.ptpClientDelayReq n) s = .next t ∧ (t.pc n).nextSeq = ((s.pc n).nextSeq + 1) % 65536 ∧ t.get (F.DTM_PC_STAT_SEQ n) = (s.pc n).nextSeq
      ∧ (t.pc n).outstanding = (s.pc n).outstanding ++ [⟨(s.pc n).nextSeq, none⟩] ∧ ∀ k : Fin 2, k ≠ n → t.pc k = s.pc k

/-- A request in front of the Signaling queue that no row of R105 denies is stored with its duration clamped and answered with it; a denied one is counted and
answered with duration 0; a cancel removes the grant and is acknowledged; an expiry keeps only what has not expired; an issue instant of a grant or of a
multicast schedule issues its message; a due series in an answering mode sends its frame and goes on one second later while frames are left. (R33, R81,
R103, R105, R106, R126) -/
def Obligations.GrantCommandsTakeEffect : Prop :=
  (∀ (s : State) (m : SigMsg) (v : Bytes) (tl : List (Nat × Bytes)) (ms : List SigMsg), halted s = false → s.svp.signaling = m :: ms → m.tlvs = (4, v) :: tl → (let u := sigTake m s
      let kind := beAt v 0 1 / 16
      let log := toSigned 8 (beAt v 1 1)
      let reply := fun (dur : Nat) => natBE 2 5 ++ natBE 2 8 ++ natBE 1 (kind * 16) ++ natBE 1 (ofSigned 8 log) ++ natBE 4 dur ++ zeros 1 ++ natBE 1 (Config.renewalInvited % 2)
      let dur := clampNat (u.get F.SVP_PTP_GRANT_MINDUR) (u.get F.SVP_PTP_GRANT_MAXDUR) (beAt v 2 4)
      let answer := fun (owner : TxOwner) (tlv : Bytes) (x : State) => txEnqueue m.port ⟨m.env.frame (ptpMessage 12 m.domain (uniFlag m.env) 0 (Config.serverIdentity m.port)
        (x.draw 16).1 0x7F (natBE 10 m.identity ++ tlv)), controlClass (x.draw 16).2 m.port, owner⟩ (x.draw 16).2
      let w := (u.draw 16).2
      let c := (clientOf w m.port m.identity).getD ⟨freeIndex w, m.identity, m.port, m.env, none, none, none⟩
      let c' := { c with env := m.env }.setGrant kind (some (grantDecided (c.grant kind) log w.datum (u.draw 16).1))
      (grantDenied u m kind log = false → exec .grantRequest s = .next (answer (.grant m.identity kind log dur) (reply dur) (showGrants { w with svp := { w.svp with
        grants := w.svp.grants.filter (fun x => decide (¬(x.identity = m.identity ∧ x.port = m.port))) ++ [c'] } })))
      ∧ (grantDenied u m kind log = true → exec .grantRequest s = .next (answer .device (reply 0) (u.addSat F.SVP_GRANT_DENY_CNT_COUNT 1)))))
  ∧ (∀ (s : State) (m : SigMsg) (v : Bytes) (tl : List (Nat × Bytes)) (ms : List SigMsg), halted s = false → s.svp.signaling = m :: ms → m.tlvs = (6, v) :: tl → (let u := sigTake m s
      let kind := beAt v 0 1 / 16
      let w := dropEmpty { u with svp := { u.svp with grants := u.svp.grants.map (fun (c : GrantClient) =>
        if c.identity = m.identity ∧ c.port = m.port ∧ (kind = 11 ∨ kind = 0 ∨ kind = 9) then c.setGrant kind none else c) } }
      exec .grantCancel s = .next (txEnqueue m.port ⟨m.env.frame (ptpMessage 12 m.domain (uniFlag m.env) 0 (Config.serverIdentity m.port) (w.draw 16).1 0x7F
        (natBE 10 m.identity ++ (natBE 2 7 ++ natBE 2 2 ++ natBE 1 (kind * 16) ++ zeros 1))), controlClass (w.draw 16).2 m.port, .device⟩ (w.draw 16).2)))
  ∧ (∀ (s : State) (i : Nat), halted s = false → exec (.grantExpiry i) s = .next (dropEmpty { s with svp := { s.svp with grants := s.svp.grants.map (fun (c : GrantClient) =>
        if c.index = i then { c with announce := liveGrant s.datum c.announce, sync := liveGrant s.datum c.sync, delayResp := liveGrant s.datum c.delayResp } else c) } }))
  ∧ (∀ (s : State) (i : Nat) (c : GrantClient) (g : Grant), halted s = false → s.mode = 2 → s.svp.grants.find? (fun c => decide (c.index = i)) = some c → c.sync = some g → g.live = true → g.waiting ≠ 0 → after (issueInstant i g) s.datum = false → (hp : 4 ≤ c.port.val) → (let x : State := { s with svp := { s.svp with grants := s.svp.grants.map (fun (x : GrantClient) => if x.index = i then x.setGrant 0 (some { g with next := g.next + 1, seq := (g.seq + 1) % 65536 }) else x) } }
      let v : Envelope := { c.env with srcPort := 319, dstPort := 319 }
      let m := ptpMessage 0 (x.get F.SVP_PTP_CFG_DOMAIN) (uniFlag v + 0x0200) 0 (Config.serverIdentity c.port) g.seq (ofSigned 8 g.log) (ptpStamp x.datum)
      let k := x.stkUnit c.port
      let y := x.setStk c.port { k with syncs := k.syncs ++ [⟨k.nextTag, v, m⟩], nextTag := (k.nextTag + 1) % 65536 }
      exec (.ptpIssue (.grant i) false) s = .next (txEnqueue c.port ⟨v.frame m, controlClass y c.port, .twoStep k.nextTag⟩ y)))
  ∧ (∀ (s : State) (p : Fin 4) (a : Bool), halted s = false → s.get F.SVP_PTP_CFG_PROFILE ≠ 1 → exec (.ptpIssue (.multicast p) a) s = .next s)
  ∧ (∀ (s : State) (sa : Fin 272) (x : Series), halted s = false → s.svp.series.find? (fun x => decide (x.sa = sa.val)) = some x → answering s = true → s.on (F.SVP_SA_CTL_EN sa) = true → saCounts s sa = true → after x.due s.datum = false → 1 < x.left → (hp : saPort s sa < 7) → exec (.announcementRepeat sa) s = .next (
        let b := if s.on (F.SVP_SA_CTL_V6 sa) then neighbourAdv allNodesMac (saMac s sa) (vidTag (saVid s sa)) allNodes (saAddr s sa) 1
          else gratuitousArp (vidTag (saVid s sa)) (saMac s sa) (saAddr s sa)
        let t := txDevice ⟨saPort s sa, hp⟩ b s
        { t with svp := { t.svp with series := s.svp.series.filter (fun y => decide (y.sa ≠ sa.val)) ++ [⟨sa, x.left - 1, instAdd x.due secUnits⟩] } }))
  ∧ (∀ (s : State) (i : Nat) (p : Fin 4) (a : Bool) (sa : Fin 272), halted s = true → exec .grantRequest s = .next s ∧ exec .grantCancel s = .next s ∧ exec (.grantExpiry i) s = .next s ∧ exec (.ptpIssue (.grant i) a) s = .next s ∧ exec (.ptpIssue (.multicast p) a) s = .next s ∧ exec (.announcementRepeat sa) s = .next s)

/-- On a port whose link is up a whole frame of an allowed length within the buffer share is counted, stamped and queued for its pipeline, or dropped and
counted in FRZDROP where its capture point crossed while DCLK stood; one with an error, too short or too long is counted and discarded; an uncorrectable
codeword of RS-FEC is counted. PIPELINE_REQUEST takes the oldest frame of the queue to its class unless a time request waits for the grid. A completed
bucket read puts the bucket into the cache, and the waiting requests resume in order. (R24, R29, R33, R97, R124, R131, R138, R142, R194, R198, R213,
03_service_pipeline.md) -/
def Obligations.PipelineCommandsTakeEffect : Prop :=
  (∀ (s : State) (port : Fin 7) (b : Bytes) (cap : Nat), linkUp s port = true → hasFec s port = false → plcaHeard port s = s → fcsGood b = true → 64 ≤ b.length → b.length ≤ maxFrame s port → itemBytes (bufferItems s port) + b.length ≤ bufferShare port → (let c := pmcEvent 1 0x04 port b.length (pmcEvent 1 0x02 port 1 (portCount port 1 b.length (portCount port 0 1 s)))
      let r := ingressStamp port cap (ptpEvent b) c
      let q := r.2.svp.queues[pipeOf port]
      let i : PlItem := ⟨port, dropFcs b, r.1, none⟩
      let v : State := { r.2 with svp := { r.2.svp with queues := r.2.svp.queues.set (pipeOf port) (q ++ [i]) } }
      (exec (.frameReceive port b none .clean 0) s = .next (irqSet 9 (A.STK_IRQ_STAT port) 2 (s.addSat (F.STK_FRZDROP_CNT_COUNT port) 1)))
      ∧ ((parseEth b).etype ≠ 0x8808 → standbyPath r.2 port = true → exec (.frameReceive port b (some cap) .clean 0) s = .next (portCount port 17 1 r.2))
      ∧ ((parseEth b).etype ≠ 0x8808 → standbyPath r.2 port = false → 4096 ≤ q.length →
          exec (.frameReceive port b (some cap) .clean 0) s = .next (pmcEvent 3 0x05 (pipeOf port) 1 (r.2.add64 (A.SVP_PL_CNT_W0 (pipeOf port) 24) 1)))
      ∧ ((parseEth b).etype ≠ 0x8808 → standbyPath r.2 port = false → q.length < 4096 →
          exec (.frameReceive port b (some cap) .clean 0) s = .next (flowControl port (v.set (F.SVP_PL_STAT_QDEPTH (pipeOf port)) (q.length + 1))))))
  ∧ (∀ (s : State) (port : Fin 7) (b : Bytes) (cap : Option Nat), linkUp s port = true → hasFec s port = false → plcaHeard port s = s → exec (.frameReceive port b cap .coding 0) s = .next (pmcEvent 1 0x06 port 1 (portCount port 4 1 s))
      ∧ (fcsGood b = false → exec (.frameReceive port b cap .clean 0) s = .next (pmcEvent 1 0x06 port 1 (portCount port 4 1 s)))
      ∧ (fcsGood b = true → b.length < 64 → exec (.frameReceive port b cap .clean 0) s = .next (pmcEvent 1 0x06 port 1 (portCount port 5 1 s)))
      ∧ (fcsGood b = true → 64 ≤ b.length → maxFrame s port < b.length → exec (.frameReceive port b cap .clean 0) s = .next (pmcEvent 1 0x06 port 1 (portCount port 6 1 s))))
  ∧ (∀ (s : State) (port : Fin 7) (b : Bytes) (cap : Option Nat), linkUp s port = true → hasFec s port = true → exec (.frameReceive port b cap (.fec 1) 0) s = .next (pmcEvent 1 0x06 port 1 (portCount port 4 1
        (faultSend .prtFec port 0 0 0 (irqSet (portGroup port) (A.PRT_IRQ_STAT port) 3 (portCount port 16 1 s))))))
  ∧ (∀ (s : State) (port : Fin 7) (b : Bytes) (cap : Option Nat) (e : RxError) (k : Nat), linkUp s port = false → exec (.frameReceive port b cap e k) s = .next s)
  ∧ (∀ (s : State) (pl : Fin 5) (i : PlItem) (rest : List PlItem), halted s = false → s.svp.queues[pl] = i :: rest → (wantsTicket (classify (s.asOf i.inst) i.port i.bytes) && waitsForGrid s i.port) = false → exec (.pipelineRequest pl .none .none) s = .next (
        let u : State := { s with svp := { s.svp with queues := s.svp.queues.set pl rest } }
        lanesRun (flowControl i.port (pipelineFrame i (classify (s.asOf i.inst) i.port i.bytes) (pmcEvent 3 0x02 pl 1 (u.set (F.SVP_PL_STAT_QDEPTH pl) rest.length))))))
  ∧ (∀ (s : State) (pl : Fin 5), s.svp.queues[pl] = [] → exec (.pipelineRequest pl .none .none) s = .next s)
  ∧ (∀ (s u : State) (b : Nat) (w : List PlItem), halted s = false → s.svp.fills.find? (fun f => decide (f.bucket = b)) = some ⟨b, w⟩ → w.any (fun i => waitsForGrid s i.port) = false → s.svp.cached.length < cacheBuckets → u = dramEvent 0x07 s → exec (.clientBucketFill b) s = .next (lanesRun (w.foldl fillResume { u with svp := { u.svp with
        fills := s.svp.fills.filter (fun x => decide (x.bucket ≠ b)), cached := s.svp.cached ++ [b] } })))
  ∧ (∀ (s : State) (i : PlItem) (p : Fin 4) (sa : Nat), i.port.val = p.val → classify (s.asOf i.inst) i.port i.bytes = .ntp sa → serves s i.inst = true → (let r := askOf i p sa
      fillResume s i = flowControl i.port (admitted (s.asOf i.inst) r (aclVerdict (s.asOf i.inst) r.ip.v6 r.ip.src).2 (decide (askClass r = 1)) s)))
  ∧ (∀ (s : State) (b : Nat) (pl : Fin 5), halted s = true → exec (.clientBucketFill b) s = .next s ∧ exec (.pipelineRequest pl .none .none) s = .next s)

/-- A lane that ends the checks of a request gives it its kiss-of-death where one is due, and else stakes it with as many cookies as it asked for, at most
eight; a failed check 4 to 6 gives NTSN and its count, a failed check 7 or 8 a drop. A lane that completes a response seals its fields over a fresh nonce
and the response reaches the gate. Key derivation holds the keys of the epochs in use, a new epoch is shown and recorded, and a failure of the entropy
source sets NORNG, raises its interrupt and reports the fault; a recovery clears it. (R162, R163, R164, R165, R166, R167, R168, R169, 06_nts_service.md) -/
def Obligations.NtsCommandsTakeEffect : Prop :=
  (∀ (s : State) (n : Fin 12) (v : NtsRequest), laneRequest s n = some v → waitsForGrid s v.item.port = false → halted s = false → serves (laneDone n (.verify v) s) v.item.inst = true → (let u := laneDone n (.verify v) s
      let r := askOf v.item v.pl v.sa
      let a := u.asOf v.item.inst
      let l := (requestFields r).1
      let uid := ((fieldsOf 0x0104 l).head?.map (·.bytes)).getD []
      let w := pmcEvent 5 0x05 n r.msg.length u
      exec (.ntsCookieVerify n) s = .next (lanesRun (flowControl v.item.port (match ntsVerify a r.msg v.item.inst l with
        | .ntsn k => kissSend a r 4 none uid none (crlCount k 1 (laneFail n w))
        | .drop k => crlDrop k v.item.tag (laneFail n w)
        | .pass c2s s2c q =>
          let x := traceStage v.item.tag 5 (crlCount 0 1 w)
          if v.kod ≠ 0 then kissSend a r v.kod v.client uid (some ⟨s2c, c2s, 0, 48 + uid.length, none⟩) x
          else ntpRespond a r (v.client.getD (0, 0)) v.found uid (some ⟨s2c, c2s, 1 + (if 7 < q then 7 else q), 48 + uid.length, none⟩) x)))))
  ∧ (∀ (s : State) (p : Fin 4) (id : Nat) (n : Fin 12) (t : Ticket) (j : NtsJob) (plain : Bytes), laneOf s (.encrypt p id) = some n → halted s = false → rngFailed s = false → laneTicket s (p, id) = some (t, j) → j.plain = some plain → (let w := pmcEvent 5 0x05 n t.payload.length (laneDone n (.encrypt p id) s)
      let r := w.drawBytes 16
      let u := { t with nts := some { j with plain := some plain }, payload := sealResponse j (t.payload.take j.clear) plain r.1 }
      exec (.ntsResponseEncrypt p id) s = .next (lanesRun (gateLoad p t.id (r.2.setPort p ((r.2.port p).putTicket u))))))
  ∧ (∀ (s : State), s.crl.root.isSome = true → exec .ntsKeyDerive s = .next { s with crl := { s.crl with held := heldEpochs s s.datum } })
  ∧ (∀ (s : State), s.get F.CRL_NTS_EPOCH_EPOCH ≠ epochOf s s.datum → s.crl.root.isSome = true → (let e := epochOf s s.datum
      let u := s.set F.CRL_NTS_EPOCH_EPOCH e
      exec .ntsEpoch s = .next (record 0x3001 e 0 0 0 (irqSet 15 A.CRL_NTS_IRQ_STAT 0 { u with crl := { u.crl with held := heldEpochs u u.datum } }))))
  ∧ (∀ (s : State), rngFailed s = false → exec .rngFail s = .next (faultSend .rngFail 18 0 0 0 (pmcEvent 5 0x06 18 1 (irqSet 15 A.CRL_NTS_IRQ_STAT 3 (s.set F.CRL_NTS_STAT_NORNG 1)))))
  ∧ (∀ (s : State), rngFailed s = true → s.svp.keysDerived = false → exec .rngRecover s = .next (s.set F.CRL_NTS_STAT_NORNG 0))

/-- A STAKED ticket past its load deadline is LATE when LATETOL is not 0 and it was not re-staked, and is discarded late otherwise; a LATE ticket past LATETOL
is discarded; a READY ticket whose departure is reached is SENDING and its frame starts at its departure, or is discarded when its class is paused; at the
end of the frame it is CHECK; the crossing report keeps the largest deviation, reports one above 1 ns as a fault, and frees it; a model refresh of a port
with link stores the model, anchored at the timestamp reference plane, shows its period and ends the suspension. (R111, R118, R119, R120, R122, R124, R125,
04_stakeout_departure.md) -/
def Obligations.TicketCommandsTakeEffect : Prop :=
  (∀ (s : State) (p : Fin 4) (id : Nat) (t : Ticket), (s.port p).ticket id = some t → t.state = .staked → after s.datum t.deadline = true → halted s = false → ((s.get (F.SKO_P_LAT1_LATETOL p) = 0 ∨ t.restaked = true) →
          exec (.ticketLoadDeadline p id) s = .next (traceEnd t.tag 2 0 (pmcEvent 4 0x04 p 1 (skoCount p 1 (freeTicket p t.id s)))))
      ∧ (s.get (F.SKO_P_LAT1_LATETOL p) ≠ 0 → t.restaked = false →
          exec (.ticketLoadDeadline p id) s = .next (s.setPort p ((s.port p).putTicket { t with state := .late, resTo := t.resFrom }))))
  ∧ (∀ (s : State) (p : Fin 4) (id : Nat) (t : Ticket), (s.port p).ticket id = some t → t.state = .late → after s.datum (instAdd t.deadline (nsUnits (s.get (F.SKO_P_LAT1_LATETOL p)))) = true → halted s = false → exec (.lateToleranceExpiry p id) s = .next (traceEnd t.tag 2 0 (pmcEvent 4 0x04 p 1 (skoCount p 1 (freeTicket p t.id s)))))
  ∧ (∀ (s : State) (p : Fin 4) (id : Nat) (t : Ticket), (s.port p).ticket id = some t → t.state = .ready → after t.dep s.datum = false → halted s = false → (classPaused s p (s.get (F.SKO_P_CFG_TC p)) t.dep = false → exec (.gateRelease p id) s =
        .next ((s.setPort p ((s.port p).putTicket { t with state := .sending })).emit (.frame p (withFcs (t.env.frame t.payload)) t.dep)))
      ∧ (classPaused s p (s.get (F.SKO_P_CFG_TC p)) t.dep = true → exec (.gateRelease p id) s = .next (traceEnd t.tag 3 0 (pmcEvent 4 0x04 p 1 (skoCount p 2 (freeTicket p t.id s))))))
  ∧ (∀ (s : State) (p : Fin 4) (id : Nat) (t : Ticket), (s.port p).ticket id = some t → t.state = .sending → exec (.txFrameDone p id) s = .next (portSent p (t.env.length t.payload.length) (s.setPort p ((s.port p).putTicket { t with state := .check, resTo := t.resFrom }))))
  ∧ (∀ (s : State) (p : Fin 4) (id cap : Nat) (t : Ticket), (s.port p).ticket id = some t → t.state = .check → halted s = false → (let r := egressStamp ⟨p.val, by omega⟩ cap t.comp ((decide (t.kind = .sync) || decide (t.kind = .delayResp)) && decide (t.kind = .sync)) s
      let d := instDiff r.1 t.dep
      let ps := d.natAbs * 1000 / 65536
      let u := r.2.happen (F.SKO_P_DEVMAX_DEV p) (fun m => if m < ps then (if 2 ^ 32 ≤ ps then 2 ^ 32 - 1 else ps) else m)
      let done := fun x => freeTicket p id (traceEnd t.tag 0 0 (traceAt t.tag 9 r.1 (pmcEvent 4 0x03 p 1 x)))
      (d.natAbs ≤ 65536 → exec (.egressCrossingReport p id cap) s = .next (done u))
      ∧ (65536 < d.natAbs → exec (.egressCrossingReport p id cap) s = .next (done (skoCount p 7 { u with flt := { u.flt with queue := u.flt.queue ++ [⟨.stkDeviation, p, r.1, ofSigned 32 (clampInt (-(2 ^ 31)) (2 ^ 31 - 1) d), instNs t.dep, instSec t.dep % 2 ^ 32⟩] } })))))
  ∧ (∀ (s : State) (p : Fin 4) (a sp k : Nat) (c : Fin 80) (b : Bool), s.on (F.PRT_P_STAT_LINK p) = true → 0 < sp → dclkRuns s = true → (s.port p).checkSurvivors = false → exec (.gridModelRefresh p ⟨a, k⟩ sp c b) s = .next ((((s.setPort p { s.port p with model := ⟨true, gridAnchor s p a, sp, c, b⟩, suspended := false, checkSurvivors := false, tickets := (s.port p).tickets.map (fun t => { t with moved := t.moved + k }) }).set
        (F.SKO_P_PERIOD_W0_PERIOD p) (sp % 2 ^ 37)).set (F.SKO_P_PERIOD_W1_PERIOD p) (sp % 2 ^ 37 / 2 ^ 32)).set (F.SKO_P_PERIOD_W1_VALID p) 1))

/-- GATE_RELEASE of a READY ticket of a class that is not paused, once its departure is reached, sends exactly one frame, with the departure as its start
instant; the ticket is then SENDING, a second GATE_RELEASE changes nothing, and no other ticket, port, register or counter changes. (R118, R119) -/
def Obligations.StakedFrameStartsOnceAtItsDeparture : Prop :=
  ∀ (s : State) (p : Fin 4) (id : Nat) (t : Ticket), (s.port p).ticket id = some t → t.state = .ready → after t.dep s.datum = false → halted s = false → classPaused s p (s.get (F.SKO_P_CFG_TC p)) t.dep = false → ∃ u, exec (.gateRelease p id) s = .next u ∧ u.out = .frame p (withFcs (t.env.frame t.payload)) t.dep :: s.out
      ∧ (u.port p).ticket id = some { t with state := .sending } ∧ exec (.gateRelease p id) u = .next u
      ∧ (∀ q : Fin 4, q ≠ p → u.port q = s.port q) ∧ (∀ k, k ≠ id → (u.port p).ticket k = (s.port p).ticket k)
      ∧ u = { s with out := u.out, sko := u.sko }

/-- FOLLOW_UP_SEND takes the oldest egress record and, for a Sync of the two-step server, queues its Follow_Up; a compensation change loads the register and
settles the blocks; a measured latency is stored with ALIGNED; the self-test starts while its port is down, and on the third tick after its start its
residual, its verdict and its interrupt are shown, with a fault where it exceeds the limit. (R130, R131, R137, R139, R143, R359, 05_stake_timestamping.md) -/
def Obligations.StakeUnitCommandsTakeEffect : Prop :=
  (∀ (s : State) (n : Fin 7) (r : EgressRec) (rest : List EgressRec) (x : TwoStepSync) (t : Instant), halted s = false → (s.stkUnit n).queue = r :: rest → r.inst = some t → (s.stkUnit n).syncs.find? (fun x => decide (x.tag = r.tag)) = some x → exec (.followUpSend n) s = .next (txDevice n ({ x.env with srcPort := 320, dstPort := 320 }.frame (followUp x t))
        ((s.setStk n { s.stkUnit n with queue := rest, syncs := (s.stkUnit n).syncs.filter (fun x => decide (x.tag ≠ r.tag)) }).set (F.STK_STAT_QLEVEL n) rest.length)))
  ∧ (∀ (s : State) (n : Fin 7), (s.stkUnit n).queue = [] → exec (.followUpSend n) s = .next s)
  ∧ (∀ (s : State) (n : Fin 7) (vrx vtx : Nat), (n.val < 4 ∨ n.val = 6) → halted s = false → exec (.variableLatencyMeasure n vrx vtx) s = .next (pmcEvent 2 0x05 n 1 ((s.set (F.STK_STAT_ALIGNED n) 1).setStk n { s.stkUnit n with vrx := vrx, vtx := vtx })))
  ∧ (∀ (s : State) (n : Fin 7), Admits s → liveOff s (A.STK_CAL n) = false → calAllowed (countAccess .mw0 s) n = true → (countAccess .mw0 s).on (F.STK_CAL_BUSY n) = false → (let u := countAccess .mw0 s
      exec (.stakeSelfTestStart n) s = .next (((u.set (F.STK_CAL_BUSY n) 1).set (F.STK_CAL_FAIL n) 0).setStk n { u.stkUnit n with calFrom := u.sys.ticks })))
  ∧ (∀ (s : State) (n : Fin 7) (loop : Int), s.on (F.STK_CAL_BUSY n) = true → (s.stkUnit n).calFrom + 3 ≤ s.sys.ticks → (let sp := stakeSpeed s n
      let res := loop - ((Config.fixedRx n sp s.bm.dieTemp + Config.fixedTx n sp s.bm.dieTemp + (s.stkUnit n).vrx + (s.stkUnit n).vtx : Nat) : Int)
      let bad := decide (calLimit s n < res.natAbs)
      let u := irqSet 9 (A.STK_IRQ_STAT n) 1 (((s.set (F.STK_CAL_BUSY n) 0).setI (F.STK_CAL_RES n) (clampInt (-32768) 32767 res)).setB (F.STK_CAL_FAIL n) bad)
      exec (.stakeSelfTestDone n loop) s = .next (if bad then faultSend .stkCal n 0 0 0 u else u)))
  ∧ (∀ (s : State) (n : Fin 7) (a : BitVec 24) (v : Word) (p : Path), Admits s → [A.STK_CFG n, A.STK_TRIM n, A.STK_BRD n, A.STK_PHYRX n, A.STK_PHYTX n].contains a.toNat = true → denyReason (countAccess p s) a.toNat v = none → (let u := countAccess p s
      let w := keepHistory u.regs (loadLive p u (a.toNat, v))
      exec (.stakeCompensationChange n a v p) s = .next ((List.finRange 7).foldl (fun (t : State) (m : Fin 7) => if compensation u w m then compChanged u m t else t) w)))

/-- An enabled, aligned main port or MGT with its reference and, where the medium asks for it, its training comes up and shows what it found; a link that goes
down loses what was in flight, is counted and recorded, and shows what was found; an ended pause leaves the class; a refresh due at half of QUANTA repeats
the PAUSE; a HOLD that ends switches to the other path if it alone is up; a primary up for WTR takes the path back; the next frame that fits starts now; a
frame that has left pays what it owes. (R114, R139, R195, R196, R197, R198, R202, R203, R205, R209, R210, 08_network_ports.md) -/
def Obligations.PortCommandsTakeEffect : Prop :=
  (∀ (s : State) (p : Fin 4) (tr : Bool), s.on (F.PRT_P_CFG_EN p) = true → s.on (F.STK_STAT_ALIGNED p) = true → refRuns s p = true → s.on (F.PRT_P_STAT_LINK p) = false → (tr || !(needsTraining s p)) = true → ∀ (n : Fin 7) (ph : Fin 4), n.val = p.val → exec (.linkUp n ⟨ph, tr⟩) s = .next (
        let code := s.get (F.PRT_P_CFG_SPEED p)
        let a := (((s.setB (F.PRT_P_STAT_TRAINED p) (needsTraining s p)).set (F.PRT_P_STAT_LINK p) 1).set (F.PRT_P_STAT_LF p) 0).set (F.PRT_P_STAT_RF p) 0
        let b := (a.set (F.PRT_P_STAT_SIGDET p) (usedLanes code)).setB (F.PRT_P_STAT_FECLOCK p) (decide (code = 4))
        let c := b.set (F.STK_STAT_SPEED n) (stakeSpeed b n)
        pairUp p (recordUnit 0x1002 n 0 0 0 0 (irqSet (portGroup n) (A.PRT_IRQ_STAT n) 1 c))))
  ∧ (∀ (s : State) (ph : Fin 4) (tr : Bool), s.on F.PRT_MGT_CFG_EN = true → s.on (F.STK_STAT_ALIGNED 6) = true → refRuns s 6 = true → s.on F.PRT_MGT_STAT_LINK = false → s.on F.PRT_MGT_CFG_MODE = false → s.on F.PRT_MGT_CFG_AN37 = true → (let a := (s.set F.PRT_MGT_STAT_PHYSPEED ph).setB F.PRT_MGT_STAT_ANDONE true
      let q := (6 : Fin 7).val
      let b := (a.set F.PRT_MGT_STAT_SPDREJ 0).set F.PRT_MGT_STAT_LINK 1
      (ph.val = 2 → exec (.linkUp 6 ⟨ph, tr⟩) s = .next (recordUnit 0x1002 q 0 0 0 0 (irqSet (portGroup q) (A.PRT_IRQ_STAT q) 1 (b.set (F.STK_STAT_SPEED q) (stakeSpeed b q)))))
      ∧ (ph.val ≠ 2 → exec (.linkUp 6 ⟨ph, tr⟩) s = .next (a.set F.PRT_MGT_STAT_SPDREJ 1))))
  ∧ (∀ (s : State) (n : Fin 4) (sd : BitVec 4) (lf rf fl : Bool), linkUp s n = true → ∀ p : Fin 7, p.val = n.val → exec (.linkDown p sd lf rf fl) s = .next (
        let d := pairDown n (portDownCommon n (signalLost n (dropReceived p (s.set (F.PRT_P_STAT_LINK n) 0))))
        let w := recordUnit 0x1001 p 0 0 0 0 (irqSet (portGroup p) (A.PRT_IRQ_STAT p) 0 (portCount p 14 1 (dropTx p ((pathLost p d).set (F.STK_STAT_SPEED p) 0))))
        let on := w.on (F.PRT_P_CFG_EN p)
        let code := w.get (F.PRT_P_CFG_SPEED p)
        (((w.set (F.PRT_P_STAT_SIGDET p) (if on then sd.toNat &&& usedLanes code else 0)).setB (F.PRT_P_STAT_LF p) (on && lf)).setB
          (F.PRT_P_STAT_RF p) (on && rf)).setB (F.PRT_P_STAT_FECLOCK p) (on && fl && decide (code = 4))))
  ∧ (∀ (s : State) (sd : BitVec 4) (lf rf fl : Bool), linkUp s 6 = true → exec (.linkDown 6 sd lf rf fl) s = .next (
        let d := { (s.set F.PRT_MGT_STAT_LINK 0) with prt := { s.prt with pauses := s.prt.pauses.filter (fun x => decide (x.port ≠ 6)) } }
        recordUnit 0x1001 6 0 0 0 0 (irqSet (portGroup 6) (A.PRT_IRQ_STAT 6) 0 (portCount 6 14 1 (dropTx 6 (((d.set (F.STK_STAT_ALIGNED 6) 0).set F.PRT_MGT_STAT_ANDONE 0).set (F.STK_STAT_SPEED 6) 0))))))
  ∧ (∀ (s : State) (n : Fin 7) (tc : Fin 8), exec (.pauseEnd n tc) s = .next (showPaused n { s with prt := { s.prt with
        pauses := s.prt.pauses.filter (fun x => decide (¬(x.port = n.val ∧ x.tc = tc.val)) || after x.to_ s.datum) } }))
  ∧ (∀ (s : State) (n : Fin 4) (c : Option (Fin 8)) (o : Onset), halted s = false → s.prt.onsets.find? (fun o => decide (o.port = n.val ∧ o.cls = c.map (·.val))) = some o → flowEnabled s n (c.map (·.val)) = true → s.get (F.PRT_P_FCTH_XON n) * 16384 < occupancy s n (c.map (·.val)) → after (instAdd o.sentAt (bitTimes s n (s.get (F.PRT_P_FC_QUANTA n) * 256))) s.datum = false → exec (.flowControlRefresh n c) s = .next (txEnqueue ⟨n.val, by omega⟩ ⟨pauseFrame s n (c.map (·.val)) (s.get (F.PRT_P_FC_QUANTA n)), 0, .control⟩ { s with prt := { s.prt with
        onsets := s.prt.onsets.map (fun x => if x.port = n.val ∧ x.cls = c.map (·.val) then { x with sentAt := s.datum } else x) } }))
  ∧ (∀ (s : State) (k : Fin 2) (t : Instant), (s.prt.pairs[k]).hold = some t → after t s.datum = false → (let u := { s with prt := { s.prt with pairs := s.prt.pairs.set k { s.prt.pairs[k] with hold := none } } }
      let act := pairActive u k
      let oth := pairPrimary u k + pairBackup u k - act
      let b := decide (oth = pairBackup u k)
      let w := (u.setB (F.PRT_PAIR_STAT_ACTIVE k) b).happen (F.PRT_PAIR_STAT_SWITCHES k) (fun n => if n = 0xFFFF then n else n + 1)
      let x := { w with prt := { w.prt with pairs := w.prt.pairs.set k { w.prt.pairs[k] with hold := none, lastSwitch := some w.datum } } }
      let y := recordUnit 0x1003 k k (if b then 1 else 0) 0 0 x
      (pathUp u act = true → exec (.pathSwitch k) s = .next u)
      ∧ (pathUp u act = false → pathUp u oth = true → exec (.pathSwitch k) s = .next (if answering y then
          (((List.range 64).map (64 * pairPrimary y k + ·)).filter (fun n => y.on (F.SVP_SA_CTL_EN n))).foldl announceStart y else y))
      ∧ (pathUp u act = false → pathUp u oth = false → exec (.pathSwitch k) s = .next (u.set (F.PRT_PAIR_STAT_BOTHDOWN k) 1))))
  ∧ (∀ (s : State) (k : Fin 2) (t : Instant), (s.prt.pairs[k]).primaryUp = some t → s.on (F.PRT_PAIR_CFG_EN k) = true → s.on (F.PRT_PAIR_CFG_REVERT k) = true → s.on (F.PRT_PAIR_STAT_ACTIVE k) = true → (s.prt.pairs[k]).lastSwitch.any (fun u => after (instAdd u secUnits) s.datum) = false → after (instAdd t (secUnits * s.get (F.PRT_PAIR_CFG_WTR k))) s.datum = false → (let w := (s.setB (F.PRT_PAIR_STAT_ACTIVE k) false).happen (F.PRT_PAIR_STAT_SWITCHES k) (fun n => if n = 0xFFFF then n else n + 1)
      let x := { w with prt := { w.prt with pairs := w.prt.pairs.set k { w.prt.pairs[k] with hold := none, lastSwitch := some w.datum } } }
      let y := recordUnit 0x1003 k k 0 1 0 x
      exec (.pathRevert k) s = .next (if answering y then
        (((List.range 64).map (64 * pairPrimary y k + ·)).filter (fun n => y.on (F.SVP_SA_CTL_EN n))).foldl announceStart y else y)))
  ∧ (∀ (s : State) (n : Fin 7) (f : TxFrame), n.val ≠ 4 → n.val ≠ 5 → linkUp s n = true → s.prt.txNow[n] = none → halted s = false → txPick s n = some f → txFits s n f = true → exec (.unstakedFrameSend n) s = .next (
        let u := { s with prt := { s.prt with tx := s.prt.tx.set n (s.prt.tx[n].erase f), txNow := s.prt.txNow.set n (some (f, instAdd s.datum (txTime s n f))) } }
        let w := if f.owner = .control then portCount n (if beAt f.bytes 14 2 = 1 then 12 else 13) 1 u else u
        w.emit (.frame n (withFcs f.bytes) w.datum)))
  ∧ (∀ (s : State) (n : Fin 7) (cap : Nat) (x : TxFrame × Instant), n.val ≠ 4 → n.val ≠ 5 → s.prt.txNow[n] = some x → (let u := { s with prt := { s.prt with txNow := s.prt.txNow.set n none } }
      let start := instAdd x.2 (-(txTime u n x.1 : Int))
      let r := egressStamp n cap (compTxAt u n cap) (ptpEvent x.1.bytes) u
      exec (.hostFrameSent n (some cap)) s = .next (showPaused n (txOwed n x.1.owner start r.1 (portSent n (x.1.bytes.length + 4) r.2)))
      ∧ exec (.hostFrameSent n none) s = .next (showPaused n (txUnstamped n x.1.owner start (portSent n (x.1.bytes.length + 4) u)))))

/-- Under CSMA/CD the head of a field port's queue starts when the wire has been quiet for 96 bit times and its backoff is over; a collision is counted, cuts
the frame and puts it back behind a backoff, and the sixteenth abandons it, while a fall of Fn_COL changes nothing; under PLCA the frame waits for the next
opportunity. A BEACON that is missing for BTO counts and falls back, a received one opens a cycle, and the coordinator sends one when all nodes have had
their turn; a stopped clock drops the queue; an MDIO write loads its fields and, with GO, starts a frame that shows BUSY, whose end places what a read
returned. (R141, R206, R207, R208, R210, 08_network_ports.md) -/
def Obligations.FieldPortCommandsTakeEffect : Prop :=
  (∀ (s : State) (n : Fin 2) (q : Nat) (x : TxFrame) (rest : List TxFrame), s.prt.tx[fieldPort n] = x :: rest → linkUp s (fieldPort n) = true → (s.prt.field[n]).sending = false → fieldSilent s = false → halted s = false → plcaRules s n = false → 96 ≤ q → after (s.prt.field[n]).backoff s.datum = false → exec (.fieldTxAttempt n (some q)) s = .next (
        let u := s.setField n { s.prt.field[n] with sending := true }
        { u with prt := { u.prt with tx := u.prt.tx.set (fieldPort n) rest, txNow := u.prt.txNow.set (fieldPort n) (some (x, instAdd u.datum (txTime u (fieldPort n) x))) } }.emit
          (.frame (fieldPort n) (withFcs x.bytes) u.datum)))
  ∧ (∀ (s : State) (n : Fin 2) (q : Nat) (x : TxFrame) (rest : List TxFrame), s.prt.tx[fieldPort n] = x :: rest → linkUp s (fieldPort n) = true → (s.prt.field[n]).sending = false → fieldSilent s = false → halted s = false → plcaRules s n = true → (ownTurn s n = false → exec (.fieldTxAttempt n (some q)) s = .next s)
      ∧ (ownTurn s n = true → exec (.fieldTxAttempt n (some q)) s = .next (
        let u := s.setField n { s.prt.field[n] with curId := s.get (F.PRT_F_PLCA0_NODEID n), burst := (s.prt.field[n]).burst + 1, sending := true }
        { u with prt := { u.prt with tx := u.prt.tx.set (fieldPort n) rest, txNow := u.prt.txNow.set (fieldPort n) (some (x, instAdd u.datum (txTime u (fieldPort n) x))) } }.emit
          (.frame (fieldPort n) (withFcs x.bytes) u.datum))))
  ∧ (∀ (s : State) (n : Fin 2) (x : TxFrame × Instant), s.prt.txNow[fieldPort n] = some x → lateCollision s n x = false → (let p := fieldPort n
      let u := portCount p 18 1 s
      let w := { u with prt := { u.prt with txNow := u.prt.txNow.set p none } }.emit (.cut p u.datum)
      (plcaRules w n = true → exec (.fieldCollision n true) s = .next (
          let y := w.setField n { s.prt.field[n] with sending := false, burstEnd := w.now }
          { y with prt := { y.prt with tx := y.prt.tx.set p (x.1 :: y.prt.tx[p]) } }))
      ∧ (plcaRules w n = false → 15 ≤ (s.prt.field[n]).collisions → exec (.fieldCollision n true) s =
        .next (fieldAbandon n x.1 (w.setField n { s.prt.field[n] with collisions := 0, sending := false, deferred := false })))
      ∧ (plcaRules w n = false → (s.prt.field[n]).collisions < 15 → exec (.fieldCollision n true) s = .next (
          let c := (s.prt.field[n]).collisions + 1
          let r := w.draw (if c < 10 then c else 10)
          let y := r.2.setField n { s.prt.field[n] with collisions := c, sending := false, backoff := instAdd r.2.datum (nsUnits (51200 * r.1)) }
          { y with prt := { y.prt with tx := y.prt.tx.set p (x.1 :: y.prt.tx[p]) } }))))
  ∧ (∀ (s : State) (n : Fin 2), plcaRules s n = true → plcaLeads s n = false → linkUp s (n.val + 4) = true → (s.prt.field[n]).beaconAt + s.get (F.PRT_F_PLCA1_BTO n) * 1200000 ≤ s.now → exec (.beaconLost n) s = .next (irqSet (portGroup (fieldPort n)) (A.PRT_IRQ_STAT (fieldPort n)) 5 (portCount (fieldPort n) 22 1
        ((s.set (F.PRT_F_STAT_PLCAOK n) 0).setField n { s.prt.field[n] with fallback := true, cycling := false }))))
  ∧ (∀ (s : State) (n : Fin 2), plcaOn s n = true → plcaLeads s n = false → linkUp s (n.val + 4) = true → exec (.beaconReceive n) s = .next ((s.set (F.PRT_F_STAT_PLCAOK n) 1).setField n { s.prt.field[n] with
        cycling := true, fallback := false, beaconAt := s.now, curId := 0, toFrom := s.now, burst := 0, burstEnd := 0 }))
  ∧ (∀ (s : State) (n : Fin 2), plcaLeads s n = true → linkUp s (n.val + 4) = true → fieldSilent s = false → halted s = false → (s.prt.field[n]).sending = false → ((s.prt.field[n]).cycling = false ∨ s.get (F.PRT_F_PLCA0_NCOUNT n) ≤ plcaNode s n) → exec (.beaconSend n) s = .next ((((s.set (F.PRT_F_STAT_COORD n) 1).set (F.PRT_F_STAT_PLCAOK n) 1).setField n { s.prt.field[n] with
        cycling := true, fallback := false, beaconAt := s.now, curId := 0, toFrom := s.now + 2400, burst := 0, burstEnd := 0 }).emit (.frame (n.val + 4) [] s.datum)))
  ∧ (∀ (s : State) (n : Fin 2), s.on (F.PRT_F_STAT_CLKOK n) = false → (let a := s.setB (F.PRT_F_STAT_CLKOK n) true
      let up := linkUp a (n.val + 4)
      let lead := up && plcaLeads a n
      let b := ((a.setB (F.PRT_F_STAT_COORD n) lead).setB (F.PRT_F_STAT_PLCAOK n) lead).set (F.STK_STAT_SPEED (n.val + 4)) (if up then 1 else 0)
      exec (.fieldRxClkChange n true) s = .next (b.setField n { b.prt.field[n] with
        fallback := false, cycling := false, beaconAt := b.now, curId := 0, toFrom := 0, burst := 0, burstEnd := 0 })))
  ∧ (∀ (s : State) (n : Fin 2), s.on (F.PRT_F_STAT_CLKOK n) = true → (s.prt.field[n]).sending = false → (let a := s.setB (F.PRT_F_STAT_CLKOK n) false
      exec (.fieldRxClkChange n false) s = .next (fieldSettle n (dropTx (fieldPort n) (a.setField n .empty)))))
  ∧ (∀ (s : State) (p : Path) (v : Word), Admits s → (let c := countAccess p s
      let u := (c.wr A.PRT_MDIO_CMD (v &&& 0x3FFEFFFF)).setB F.PRT_MDIO_CMD_BUSY (c.on F.PRT_MDIO_CMD_BUSY || v.getLsbD 30)
      (v.getLsbD 30 = true → c.on F.PRT_MDIO_CMD_BUSY = false → exec (.mdioCommand p v) s =
        .next ({ u with prt := { u.prt with mdioRead := decide (2 ≤ fieldGet v 27 2) } }.emit (.mdio (mdioFrame v))))
      ∧ (v.getLsbD 30 = false ∨ c.on F.PRT_MDIO_CMD_BUSY = true → exec (.mdioCommand p v) s = .next u)))
  ∧ (∀ (s : State) (d : BitVec 16), s.on F.PRT_MDIO_CMD_BUSY = true → (s.prt.mdioRead = true → exec (.mdioDone d) s = .next ((s.set F.PRT_MDIO_CMD_BUSY 0).set F.PRT_MDIO_CMD_DATA d.toNat))
      ∧ (s.prt.mdioRead = false → exec (.mdioDone d) s = .next (s.set F.PRT_MDIO_CMD_BUSY 0)))
  ∧ (∀ (s : State) (n : Fin 2), exec (.fieldCollision n false) s = .next s)

/-- A selected edge that the prescaler passes counts, and where the trigger's conditions hold it fires a converter and waits for its MINW check with the stamps
of its code; once MINW has passed it starts the holdoff and reaches its channel's mode and its owner, and an edge whose level was left before is a glitch;
the next channel with a record sends it to its ring and to the event queue; a start 2^40 DCLK old is discarded, counted and recorded with OVF; a converter
whose histogram passes becomes ready; a rotation swaps the ready converter for the one that has served longest; EVQ_POP loads the oldest record; a setting
change loads the register and restarts the channel; each tick of BOOT is judged for OSCIN. (R214, R219, R220, R222, R223, R226, R230, R233, R236,
09_transit_measurement.md) -/
def Obligations.TransitCommandsTakeEffect : Prop :=
  (∀ (s : State) (n : Fin 24) (f : Bool) (k : Fin 16384) (w : Bool), (dclkRuns s && chEnabled s n && edgesArrive s n && edgeSelected s n f) = false → exec (.transitEdge n f k w) s = .next s)
  ∧ (∀ (s : State) (n : Fin 24) (f : Bool) (k : Fin 16384), (dclkRuns s && chEnabled s n && edgesArrive s n && edgeSelected s n f) = true → (let c := s.chan n
      let d := { c with div := 0, edges := c.edges + 1, total := c.total + 1, tickEdges := c.tickEdges + 1 }
      (c.div + 1 < 2 ^ chPresc s n → exec (.transitEdge n f k false) s = .next (s.setChan n { c with div := c.div + 1 }))
      ∧ (2 ^ chPresc s n ≤ c.div + 1 → c.narrow = false → c.tickEdges < 300000 →
        (c.edges + 1 < chDecim s n ∨ holdoffOver s d = false → exec (.transitEdge n f k false) s = .next (s.setChan n d))
        ∧ ∀ j, chDecim s n ≤ c.edges + 1 → holdoffOver s d = true → d.free s.trn.coarse = true → d.pick = some j →
          exec (.transitEdge n f k false) s = .next (let x := tauDelay s n d.convs[j].hist k
            let e : TrnEdge := ⟨s.trn.coarse, timebaseStamp s.trn.coarse x, datumStamp s.datum s.dtm.y x, d.edges, d.total, f⟩
            pmcEvent 10 0x02 n 1 (s.setChan n { d with edges := 0, lastConv := some s.trn.coarse, nextConv := (j.val + 1) % 3, waiting := d.waiting ++ [e] })))))
  ∧ (∀ (s : State) (n : Fin 24) (e : TrnEdge) (rest : List TrnEdge), (s.chan n).waiting = e :: rest → dclkRuns s = true → (let c := { s.chan n with waiting := rest }
      let u := s.setChan n c
      let h := chHoldoff u n
      let v := if h = 0 then u else u.setChan n { u.chan n with holdEnd := some (instAdd e.datum (h * 1000 * 65536)) }
      (heldLong s n e = true → exec (.transitStampAccept n true) s = .next (ownerEdge n e (modeEdge n e v)))
      ∧ (heldLong s n e = true → 12 ≤ inputOf n → n.val ≠ 16 → n.val ≠ 17 → exec (.transitStampAccept n true) s = .next (modeEdge n e v))
      ∧ (heldLong s n e = false → exec (.transitStampAccept n false) s =
          .next (pmcEvent 10 0x04 n 1 ((u.setChan n { u.chan n with glitches := (u.chan n).glitches + 1 }).addSat (F.TRN_CH_GLITCH_CNT_COUNT n) 1)))
      ∧ (heldLong s n e = false → exec (.transitStampAccept n true) s = .next s)))
  ∧ (∀ (s : State) (n : Fin 24) (b : Bool), (s.chan n).waiting = [] → exec (.transitStampAccept n b) s = .next s)
  ∧ (∀ (s : State) (n : Fin 24) (r : TrnRecord), halted s = false → (pathOrder s).findSome? (fun n => ((s.chan n).queue.head?).map (fun r => (n, r))) = some (n, r) → (let c := s.chan n
      let b := r.bytes n c.lostNext
      let u := (s.setChan n { c with queue := c.queue.tail, lostNext := false }).set (F.TRN_CH_STAT_QLEVEL n) c.queue.tail.length
      let v := pmcEvent 10 0x05 n 1 { u with trn := { u.trn with outTick := u.trn.outTick + 1, turn := if chOwner u n = 0 then (n.val + 1) % 24 else u.trn.turn } }
      let w := if r.host then upEnqueue (20 + v.get F.TRN_CFG_RING) ⟨b, true, 0, 0, 0⟩ v else v
      exec .transitRecordOut s = .next (if r.queue then (if 256 ≤ w.trn.evq.length then irqSet 5 A.TRN_IRQ_STAT 29 (w.addSat F.TRN_EVQ_LOST_CNT_COUNT 1)
        else { w with trn := { w.trn with evq := w.trn.evq ++ [b] } }.set F.TRN_EVQ_STAT_LEVEL (w.trn.evq.length + 1)) else w)))
  ∧ (∀ (s : State) (n : Fin 24) (st : TrnEdge) (rest : List TrnEdge), (s.chan n).starts = st :: rest → wrapStamp ≤ (s.trn.coarse : Int) * 65536 - st.stamp → exec (.transitStartOverflow n) s = .next (produce n 2 st.edges 0 st.datum st.falling true ((s.setChan n { s.chan n with starts := rest }).addSat (F.TRN_CH_OVF_CNT_COUNT n) 1)))
  ∧ (∀ (s : State) (n : Fin 24) (k : Fin 3) (hist : List Nat), ((s.chan n).convs[k]).serving = false → ((s.chan n).convs[k]).isolated = false → dclkRuns s = true → s.on F.TRN_STAT_CALOK = true → (let u := s.setConv n k { (s.chan n).convs[k] with ready := true, ended := true, hist := hist, built := s.sys.ticks, builtTemp := s.bm.dieTemp }
      calFails hist = false → exec (.converterCalibrationDone n k hist) s = .next (if (u.chan n).serving.length < 2 then fillService n u else u)))
  ∧ (∀ (s : State) (n : Fin 24) (k l : Fin 3), ((s.chan n).convs[k]).spare = true → longest (s.chan n) = some l → s.on F.TRN_STAT_CALOK = true → dclkRuns s = true → rotateDue s (s.chan n) = true → exec (.converterRotate n k) s = .next (showDegraded n (((s.setChan n { s.chan n with rotated := s.sys.ticks }).setConv n l
        { (s.chan n).convs[l] with serving := false, ready := false }).setConv n k { (s.chan n).convs[k] with serving := true, since := s.now })))
  ∧ (∀ (s : State), Admits s → exec (.evqPop) s = .next (evqPop (countAccess .mw0 s)))
  ∧ (∀ (s : State) (n : Fin 24) (a : BitVec 24) (v : Word) (p : Path), Admits s → (idxAt (A.TRN_CH_CFG n) 4 6 a.toNat).isSome = true → ownedWhole (countAccess p s) a.toNat = false → denyReason (countAccess p s) a.toNat v = none → (let u := countAccess p s
      let w := keepHistory u.regs (loadLive p u (a.toNat, v))
      exec (.transitSettingChange n a v p) s = .next (statStart a.toNat ((List.finRange 24).foldl (fun (t : State) (m : Fin 24) =>
        showOwner (if chSettings u m = chSettings w m then t else (t.setChan m (t.chan m).drop).strike (F.TRN_CH_STAT_RESTART m)) m) w))))
  ∧ (∀ (s : State) (c : Nat), s.mode = mBoot → s.dtm.started = false → exec (.oscinDetect c) s = .next (
        let l := (c :: s.syn.oscCounts).take 10
        let u := { s with syn := { s.syn with oscCounts := l } }
        u.set F.TRN_STAT_OSCFREQ (if l.length = 10 ∧ l.all (fun x => decide (oscFits x = oscFits c)) = true then oscFits c else 0)))

/-- When the device admits writes, EVQ_POP takes the oldest record from the event queue: TRN_EVQ_W0 to W7 hold its 32 bytes, low byte first, or zeros from an
empty queue; LEVEL shows what is left, and no other register changes but those that events touch. (R236) -/
def Obligations.EventQueuePopLoadsTheOldestRecord : Prop :=
  ∀ (s : State), Admits s → Canonical s → s.trn.evq.length ≤ 256 → ∃ t, exec .evqPop s = .next t ∧ t.trn.evq = s.trn.evq.tail ∧ t.get F.TRN_EVQ_STAT_LEVEL = s.trn.evq.length - 1
      ∧ (∀ k, k < 8 → t.rd (A.TRN_EVQ_W k) = BitVec.ofNat 32 (leAt ((s.trn.evq.head?).getD (zeros 32)) (4 * k) 4))
      ∧ ∀ a, (∀ k, k < 8 → a ≠ A.TRN_EVQ_W k) → a ≠ A.TRN_EVQ_STAT → eventReg a = false → t.rd a = s.rd a

/-- A loss of lock of SYN0 that held freezes the clocks: MCLK goes to SYN_AUX, the synthesizers hold, the frames of staked tickets on the wire are lost and the
DRAM goes to self-refresh; one still there after 1 ms is lasting; at the restart edge the clocks run again, the Datum is loaded from the Monument counter
and every block restarts; the DRAM then leaves self-refresh, every paused ring going on; a loss of SYN_AUX takes down the PCIe and MGT links; with both
synthesizers unlocked the double-loss fault is lasting; a lock of SYN_AUX gives MCLK a source again; a lost OSCIN falls back to the crystal model and
freezes; the first lock of SYN0 starts the Datum. (R34, R67, R274, R276, R278, R279, R320, R382, 12_synthesis_clocks.md) -/
def Obligations.ClockCommandsTakeEffect : Prop :=
  (∀ (s : State), s.on F.SYN_STAT_SYN0LOCK = true → exec .syn0LossOfLock s = .next (
        let a := (s.set F.SYN_STAT_SYN0LOCK 0).set F.SYN_STAT_FROZEN 1
        let b := if a.on F.SYN_STAT_AUXLOCK then a.set F.SYN_STAT_MCLKAUX 1 else a
        let c := { b with syn := { b.syn with frozenAt := b.now, frozenDatum := b.datum, lasting := false } }
        let d := allSynths.foldl (fun s n => unalign n (s.set (F.SYN_SYN_STAT_HOLD (n.val + 1)) 1)) (pmcEvent 11 0x03 0 1 (irqSet 6 A.SYN_IRQ_STAT 0 c))
        let e := (eachMain (fun p s => freezeTickets p sendingTicket s) d).set F.HMI_MEM_STAT_SELFREF 1
        { e with hmi := { e.hmi with dmaPaused := some (e.hmi.dmaPaused.getD e.now) } }))
  ∧ (∀ (s : State), s.on F.SYN_STAT_FROZEN = true → s.syn.lasting = false → s.syn.frozenAt + msPeriods ≤ s.now → (let u := faultSend .syn0Lasting 0 0 0 0 (irqSet 6 A.SYN_IRQ_STAT 2 { s with syn := { s.syn with lasting := true } })
      (inPair u = false → exec .syn0Lasting s = .next u)
      ∧ (inPair u = true → u.mode ≠ mSafe → u.mode ≠ mMaint → exec .syn0Lasting s = .next (handOver 5 u))))
  ∧ (∀ (s : State), s.on F.SYN_STAT_FROZEN = true → exec .clockRestart s = .next (
        let a := if s.syn.lasting = false ∧ s.syn.frozenAt + msPeriods < s.now then declareLasting s else s
        let dur := if (a.now - a.syn.frozenAt) / 12 < 2 ^ 32 then (a.now - a.syn.frozenAt) / 12 else 2 ^ 32 - 1
        let b := forgetRates (shiftHeld (a.now - a.syn.frozenAt) (((a.set F.SYN_STAT_SYN0LOCK 1).set F.SYN_STAT_FROZEN 0).set F.SYN_STAT_MCLKAUX 0))
        let c := markLate (loadMonument { b with syn := { b.syn with mclkStopped := false } })
        let d := if c.dtm.under = 4 ∨ c.dtm.under = 5 then { c with bm := { c.bm with freezes := c.bm.freezes + 1 } } else c
        let e := traverseThaw (transitThaw (eachMain portThaw { d with bm := { d.bm with clean := false } }))
        let f := allSynths.foldl (fun s n =>
          let s := s.set (F.SYN_SYN_STAT_HOLD (n.val + 1)) 0
          if (s.synth n).relockDue then relock n s else s) e
        let g := setQuality (!(f.on F.SYN_STAT_REF)) f
        let h := irqSet 6 A.SYN_IRQ_STAT 1 (record 0x0401 dur 0 0 0 ((g.set F.SYN_FRZ_LAST_COUNT dur).addSat F.SYN_FRZ_CNT_COUNT 1))
        if h.syn.lasting then h else faultSendAt h.syn.frozenDatum .syn0Lol 0 h))
  ∧ (∀ (s : State), s.on F.SYN_STAT_FROZEN = false → exec .clockRestart s = .next s)
  ∧ (∀ (s : State) (t : Nat), s.on F.HMI_MEM_STAT_SELFREF = true → s.on F.SYN_STAT_FROZEN = false → s.hmi.dmaPaused = some t → exec .dramResume s = .next (
        let u := s.set F.HMI_MEM_STAT_SELFREF 0
        let v := { u with hmi := { u.hmi with dmaPaused := none, rings := u.hmi.rings.map (fun e => (e.1, e.2.shift (u.now - t))) } }
        if journalReady v then placeRetained v else v))
  ∧ (∀ (s : State), s.on F.SYN_STAT_AUXLOCK = true → exec .synAuxLol s = .next (
        let u := faultSend .synAuxLol 0 0 0 0 (pmcEvent 11 0x03 7 1 (irqSet 6 A.SYN_IRQ_STAT 3 (s.set F.SYN_STAT_AUXLOCK 0)))
        let v := if linkUp u 6 then linkDown 6 u else u
        if v.on F.HMI_STAT_LINK then hostReset true v else v))
  ∧ (∀ (s : State), s.dtm.started = true → mclkRuns s = false → s.syn.mclkStopped = false → (let u := faultSend .clkDoubleLoss 0 0 0 0 { s with syn := { s.syn with mclkStopped := true } }
      exec .clkDoubleLoss s = .next (if inPair u && decide (u.mode ≠ mSafe) && decide (u.mode ≠ mMaint) then handOver 6 u else u)))
  ∧ (∀ (s : State), s.on F.SYN_STAT_AUXLOCK = false → (let u := { s with syn := { s.syn with mclkStopped := false } }.set F.SYN_STAT_AUXLOCK 1
      (u.on F.SYN_STAT_SYN0LOCK = true → exec .synAuxLock s = .next u)
      ∧ (u.on F.SYN_STAT_SYN0LOCK = false → exec .synAuxLock s = .next (u.set F.SYN_STAT_MCLKAUX 1))))
  ∧ (∀ (s : State), s.dtm.started = true → s.on F.SYN_STAT_REF = false → exec .oscinLoss s = .next (
        let u := record 0x0009 0 0 0 0 (fallBack (loopsFallback s))
        let v := if u.dtm.under = 4 ∨ u.dtm.under = 5 then followMonument u else u
        if v.on F.SYN_STAT_SYN0LOCK then freeze v else v))
  ∧ (∀ (s : State), s.dtm.started = false → s.sys.phase = .running → s.mode ≠ mMonument → s.mode ≠ mDormant → exec .syn0Lock s = .next (
        let x := s.on F.SYN_CTL_FORCEXO || decide (s.get F.TRN_STAT_OSCFREQ = 0)
        let u := (s.set F.SYN_STAT_SYN0LOCK 1).set F.SYN_STAT_MCLKAUX 0
        setQuality (!x) (startDatum (showModel ((u.setB F.SYN_STAT_REF x).setB F.TRV_BM_STAT_MODEL x)))))
  ∧ (∀ (s : State) (force : Fin 4), Admits s → (let u := (countAccess .mw0 s).set F.DTM_DOMCTL_FORCE force.val
      exec (.handoffRequest force) s = .next { u with dtm := { u.dtm with handoffPending := true } }))

/-- A time-of-day message of the port's format is decoded, a broken one is discarded and counted, and a G.8271 message of another class or kind is ignored; a
missing pulse counts as a bad one, and MISSN in a row lose the anchor; an input that has qualified becomes available, or waits to restore; a loop at the
end of its acquisition locks; a loop at the end of its holdover free-runs with no history; a switch whose slew is over ends; the closures are evaluated
once a second; a sample once a second takes the die temperature, restarts the count of OSCIN, adds the clean offsets to both models and shows the model in
use; the hourly refit closes the hour, refits outside holdover, and reports a change of phase; a board temperature reading is used and, after 60 good ones,
ends the fallback, and a third failure in a row starts it. (R240, R241, R242, R244, R249, R251, R252, R258, R259, R264, R266,
11_traverse_loops_holdover.md) -/
def Obligations.TraverseCommandsTakeEffect : Prop :=
  (∀ (s : State) (port : Fin 4) (b : Bytes), (labels s port).isSome = true → dclkRuns s = true → (let g := s.on (F.TRV_TOD_CFG_FORMAT port)
      (g = true → todFrame b = none → exec (.todMessage port b) s = .next (ch0Utc (s.addSat (F.TRV_TOD_ERR_CNT_COUNT port) 1)))
      ∧ (∀ c k d, g = true → todFrame b = some (c, k, d) → ¬(c = 1 ∧ (k = 1 ∨ k = 2)) → exec (.todMessage port b) s = .next (ch0Utc s))
      ∧ (∀ d, g = true → todFrame b = some (1, 1, d) → d.length = 14 → exec (.todMessage port b) s = .next (ch0Utc (todEvent port d s)))
      ∧ (∀ d, g = true → todFrame b = some (1, 2, d) → 4 ≤ d.length → exec (.todMessage port b) s = .next (ch0Utc (todAnnounce port d s)))
      ∧ (g = false → exec (.todMessage port b) s = .next (ch0Utc (nmeaMessage port b
          (((s.set (F.TRV_TOD_STAT_LEAP port) 0).set (F.TRV_TOD_STAT_OFFV port) 0).set (F.TRV_TOD_STAT_OFFSET port) 0))))))
  ∧ (∀ (s : State) (i : Fin 8) (j : Fin 12) (t0 : Int) (n : Nat) (rest : List (Int × Nat)), j.val = i.val → (s.input j).goods = (t0, n) :: rest → (chOwner s i = 1 && isPps s j && (s.input j).anchored && dclkRuns s) = true → (((Frac.int ((s.input j).rebase.getD t0)).add ((s.input j).period.mul (.int ((s.input j).missed + 1)))).add (ppsWin s j)).lt (.int (nowStamp s)) = true → exec (.pulseMissing i) s = .next (
        let u := (s.setInput j { s.input j with missed := (s.input j).missed + 1 }).addSat (F.TRV_REF_PULSE_CNT_COUNT j) 1
        let x := { u.input j with bad := (u.input j).bad + 1 }
        u.setInput j (if u.get (F.TRV_REF_CFG_MISSN j) ≤ x.bad then x.unanchor else x)))
  ∧ (∀ (s : State) (i : Fin 12), refState s i = 2 → 1000 * s.get (F.TRV_REF_CFG_QUALT i) ≤ (s.input i).timer → (let go := fun (k : Nat) => pmcEvent 9 0x05 i 1 (irqSet 3 A.TRV_REF_IRQ_STAT i ((s.setInput i { s.input i with timer := 0, everAvailable := (s.input i).everAvailable || decide (k = 4) }).set (F.TRV_REF_STAT_STATE i) k))
      ((s.input i).everAvailable = false ∨ s.get (F.TRV_REF_WTR_WTR i) = 0 → exec (.refQualifyTimer i) s = .next (showTimer i (recordUnit 0x0501 i 0 0 0 0 (go 4))))
      ∧ ((s.input i).everAvailable = true → s.get (F.TRV_REF_WTR_WTR i) ≠ 0 → exec (.refQualifyTimer i) s = .next (showTimer i (go 3)))))
  ∧ (∀ (s : State) (i : Fin 12), refState s i = 3 → 1000 * s.get (F.TRV_REF_WTR_WTR i) ≤ (s.input i).timer → exec (.refWtrExpiry i) s = .next (showTimer i (recordUnit 0x0501 i 0 0 0 0 (pmcEvent 9 0x05 i 1 (irqSet 3 A.TRV_REF_IRQ_STAT i
        ((s.setInput i { s.input i with timer := 0, everAvailable := (s.input i).everAvailable || true }).set (F.TRV_REF_STAT_STATE i) 4))))))
  ∧ (∀ (s : State) (c : Fin 8), switching s c = true → slewNow s c = .zero → exec (.refSwitchDone c) s = .next (
        let u := showSelstat c (recordUnit 0x0504 c 0 0 0 0 ((s.setLoop c { (s.loop c).moveTo (nowStamp s) with slewLeft := .zero, switchEnd := some s.sys.ticks }).set (F.TRV_CH_SELSTAT_SWITCHING c) 0))
        if c.val = 0 ∧ u.dtm.under = 3 ∧ u.on F.DTM_STATE_SLEW = false then datumGoto 2 u else u))
  ∧ (∀ (s : State), 1000 ≤ s.trv.evalTicks → exec .closureEvaluation s = .next (
        let a := (List.finRange 12).foldl phaseTake { s with trv := { s.trv with evalTicks := 0 } }
        let es := estimates a
        let b := (List.finRange 12).foldl (demotedTick es) (es.foldl (fun t e => t.setI (F.TRV_REF_FOFF_FOFF e.1) (ppt e.2)) a)
        let d := { b with trv := { b.trv with unresolved := [] } }
        showDisputes ((List.finRange 8).foldl (closureChannel es b.trv.unresolved) d)))
  ∧ (∀ (s : State) (c : Fin 8), loopState s c = 1 → switching s c = false → s.on F.SYN_STAT_FROZEN = false → (s.loop c).okTicks.any (fun n => decide (1000 * s.get (F.TRV_CH_LOCK_LOCKT c) ≤ n)) = true → exec (.channelLock c) s = .next (showBandwidth c (loopGoto c 2 (s.setLoop c { s.loop c with lossRun := 0, secTicks := 0 }))))
  ∧ (∀ (s : State) (c : Fin 8), loopState s c = 3 → s.get (F.TRV_CH_HOMAX_HOMAX c) ≠ 0 → 1000 * s.get (F.TRV_CH_HOMAX_HOMAX c) ≤ (s.loop c).hoTicks → exec (.holdoverTimeout c) s = .next ((loopFree c s).setLoop c { (loopFree c s).loop c with history := [] }))
  ∧ (∀ (s : State) (temp : BitVec 16), 1000 ≤ s.bm.secTicks → exec (.benchmarkSample temp) s = .next (
        let b := { s.bm with secTicks := 0, dieTemp := toSigned 16 temp.toNat, oscFrom := s.bm.oscLast, clean := true, cleanOsc := true }
        let off := match s.bm.oscFrom, s.bm.oscLast with
          | some x, some y => oscOffset s x y
          | _, _ => none
        let u := { s with bm := b }
        let v := match off with
          | some o => if s.bm.clean && s.bm.cleanOsc then { u with bm := { u.bm with osc := u.bm.osc.sample o (oscTemp u) } } else u
          | none => u
        showModel (if s.bm.clean then
          { v with bm := { v.bm with xtal := v.bm.xtal.sample (.of (-v.dtm.monRate) (2 ^ 48)) (degrees v.bm.dieTemp) } } else v)))
  ∧ (∀ (s : State), 3600000 ≤ s.bm.hourTicks → (let days := s.get F.TRV_BM_CFG_LEARNDAYS
      let hold := decide (s.dtm.under = 4 ∨ s.dtm.under = 5)
      let next := fun (m : BmModel) => if hold then m.closeHour (daysOf s.bm.ticks) days else (m.closeHour (daysOf s.bm.ticks) days).refit (daysOf s.bm.ticks) days
      let u := showModel { s with bm := { s.bm with hourTicks := 0, osc := next s.bm.osc, xtal := next s.bm.xtal } }
      ((bmModel u).phase = (bmModel s).phase → exec .benchmarkRefit s = .next u)
      ∧ ((bmModel u).phase ≠ (bmModel s).phase → exec .benchmarkRefit s = .next (record 0x0508 0 0 0 0 (irqSet 4 A.TRV_CH_IRQ_STAT 16 u)))))
  ∧ (∀ (s : State) (v : BitVec 16), s.on F.TRV_BM_CFG_TEMPSRC = true → exec (.benchmarkTempRead (some v)) s = .next (
        let u := { s with bm := { s.bm with boardTemp := toSigned 16 v.toNat, i2cFails := 0, i2cGood := s.bm.i2cGood + 1 } }
        showModel (if 60 ≤ u.bm.i2cGood then u.set F.TRV_BM_STAT_TEMPFALL 0 else u)))
  ∧ (∀ (s : State), s.on F.TRV_BM_CFG_TEMPSRC = true → (let u := { s with bm := { s.bm with i2cFails := s.bm.i2cFails + 1, i2cGood := 0 } }
      (3 ≤ s.bm.i2cFails + 1 ∧ s.on F.TRV_BM_STAT_TEMPFALL = false →
        exec (.benchmarkTempRead none) s = .next (showModel (record 0x0509 0 0 0 0 (irqSet 4 A.TRV_CH_IRQ_STAT 17 (u.set F.TRV_BM_STAT_TEMPFALL 1)))))
      ∧ (s.bm.i2cFails < 2 → exec (.benchmarkTempRead none) s = .next u)))

/-- An unlocked, enabled synthesizer locks and settles, and the end of SETTLE clears SETTLING; a loss of lock outside HOLD counts, raises its interrupt and its
fault, and unlocks; a steering word in force at its instant is applied; GO and STOP act on the ramp; the end of a segment goes on to the next, or ends the
ramp; a SYNC_IN edge aligns the outputs with SYNCEN; a change of NUM, DEN or DIV loads the register; a write of an output's control register acts by its
bits, LIMCLR releasing its limiter, which releases itself with AUTOREL after 100 ms of passed checks. (R115, R281, R282, R283, R285, R286, R291, R294,
R359, 12_synthesis_clocks.md) -/
def Obligations.SynthesisCommandsTakeEffect : Prop :=
  (∀ (s : State) (n : Fin 6), s.on (F.SYN_SYN_STAT_LOCKED (n.val + 1)) = true → s.on (F.SYN_SYN_STAT_HOLD (n.val + 1)) = false → (let u := faultSend .synLol (n.val + 1) 0 0 0 (
        pmcEvent 11 0x03 (n.val + 1) 1 (irqSet 6 A.SYN_IRQ_STAT (3 + (n.val + 1)) (s.addSat (F.SYN_SYN_LOL_CNT_COUNT (n.val + 1)) 1)));
      exec (.synLol n) s = .next ((synPortsDown n (unalign n ((u.set (F.SYN_SYN_STAT_LOCKED (n.val + 1)) 0).clrBit A.SYN_STAT (n.val + 1)))).set
        (F.SYN_SYN_STAT_SETTLING (n.val + 1)) 1)))
  ∧ (∀ (s : State) (n : Fin 6), s.on (F.SYN_SYN_CFG_EN (n.val + 1)) = true → s.flt.isoSyns.testBit (n.val + 1) = false → s.on F.SYN_STAT_SYN0LOCK = true → s.on F.SYN_STAT_FROZEN = false → s.on (F.SYN_SYN_STAT_LOCKED (n.val + 1)) = false → exec (.synLock n) s = .next ((((s.setSynth n { s.synth n with centre := some (s.synth n).ratio, lockedAt := s.now }).set
        (F.SYN_SYN_STAT_LOCKED (n.val + 1)) 1).set (F.SYN_SYN_STAT_SETTLING (n.val + 1)) 1).setBit A.SYN_STAT (n.val + 1)))
  ∧ (∀ (s : State) (n : Fin 6), s.on (F.SYN_SYN_STAT_LOCKED (n.val + 1)) = true → s.on (F.SYN_SYN_STAT_SETTLING (n.val + 1)) = true → (s.synth n).lockedAt + s.get (F.SYN_SYN_CFG_SETTLE (n.val + 1)) * 1200 ≤ s.now → exec (.synSettleDone n) s = .next (s.set (F.SYN_SYN_STAT_SETTLING (n.val + 1)) 0))
  ∧ (∀ (s : State) (a : BitVec 24) (v : Word) (p : Path), Admits s → denyReason (countAccess p s) a.toNat v = none → (let u := countAccess p s
      let w := keepHistory u.regs (loadLive p u (a.toNat, v))
      let move := fun (n : Fin 6) =>
        let r := ratioInUse (w.get (F.SYN_SYN_NUM_VALUE (n.val + 1))) (w.get (F.SYN_SYN_DEN_VALUE (n.val + 1)))
        let y : Synth := { w.synth n with num := r.1, den := r.2.1, offset := .zero, profile := [], seg := 0, goNext := [], stopNext := false, relockDue := false, bends := [] }
        let x := w.setSynth n y
        synthChanged (synUnlock n (((x.set (F.SYN_SYN_STAT_RAMP (n.val + 1)) 0).set (F.SYN_SYN_STAT_SEG (n.val + 1)) 0).set (F.SYN_SYN_STAT_SETTLING (n.val + 1))
          (x.get (F.SYN_SYN_CFG_EN (n.val + 1)))))
      w.on F.SYN_STAT_FROZEN = false →
        (∀ n : Fin 6, 2 ≤ n.val → (a.toNat = A.SYN_SYN_NUM (n.val + 1) ∨ a.toNat = A.SYN_SYN_DEN (n.val + 1)) →
          exec (.synRelockChange p a v) s = .next (allOuts.foldl (fun (t : State) (o : Fin 12) => if outSynth t o = n ∧ (effDiv t o).2 = true then divLoad o t else t) (move n)))
        ∧ (∀ o : Fin 12, a.toNat = A.SYN_OUT_DIV o → exec (.synRelockChange p a v) s = .next (move (outSynth w o)))))
  ∧ (∀ (s : State) (c : Fin 8) (x : Instant × Int), dclkRuns s = true → (((s.syn.words.get c).getD []).filter (fun x => decide (0 ≤ instDiff s.datum x.1))).getLast? = some x → exec (.synSteerApply c) s = .next (
        let rest := ((s.syn.words.get c).getD []).filter (fun x => decide (instDiff s.datum x.1 < 0))
        let l := s.syn.wordSteps ++ (if c.val = 1 then [⟨s.datum, (s.syn.applied.get 1).getD 0, x.2⟩] else [])
        let u : State := { s with syn := { s.syn with words := if rest = [] then s.syn.words.del c else s.syn.words.put c rest, applied := if x.2 = 0 then s.syn.applied.del c else s.syn.applied.put c x.2, wordSteps := l.drop (l.length - 64) } }
        allOuts.foldl limitCheck (allSynths.foldl showSynth u)))
  ∧ (∀ (s : State) (n : Fin 6) (v : Word), Admits s → exec (.rampGo n v) s = .next (let w := regWrite (A.SYN_SYN_RAMPCTL (n.val + 1)) (v ||| 0x80000000) (countAccess .mw0 s)
        let p := readProfile w n
        let g := if ramping w n then w.strike (F.SYN_SYN_STAT_RAMPBUSY (n.val + 1))
          else if p.any (fun e => farTarget (w.synth n) e.1) then w.strike (F.SYN_SYN_STAT_RAMPERR (n.val + 1))
          else w.setSynth n { w.synth n with goNext := p }
        if (v ||| 0x80000000).getLsbD 30 then g.setSynth n { g.synth n with stopNext := true } else g))
  ∧ (∀ (s : State) (n : Fin 6) (v : Word), Admits s → v.getLsbD 31 = false → exec (.rampStop n v) s = .next (let w := regWrite (A.SYN_SYN_RAMPCTL (n.val + 1)) (v ||| 0x40000000) (countAccess .mw0 s)
        w.setSynth n { w.synth n with stopNext := true }))
  ∧ (∀ (s : State) (n : Fin 6) (t : Frac) (sl : Nat) (rest : List (Frac × Nat)), (s.synth n).profile = (t, sl) :: rest → s.on F.SYN_STAT_FROZEN = false → (s.synth n).offsetAt s.trn.coarse = t → (let y : Synth := { s.synth n with offset := t, profile := rest, seg := if rest = [] then 0 else (s.synth n).seg + 1, segAt := s.trn.coarse, bends := (s.synth n).bend }
      let q := s.setSynth n y
      let u := pmcEvent 11 0x05 (n.val + 1) 1 (q.set (F.SYN_SYN_STAT_SEG (n.val + 1)) y.seg)
      (s.on (F.SYN_SYN_STAT_RAMP (n.val + 1)) = false → exec (.rampSegmentDone n) s = .next (synthChanged q))
      ∧ (s.on (F.SYN_SYN_STAT_RAMP (n.val + 1)) = true → rest = [] →
        exec (.rampSegmentDone n) s = .next (synthChanged (irqSet 6 A.SYN_IRQ_STAT (16 + (n.val + 1)) (u.set (F.SYN_SYN_STAT_RAMP (n.val + 1)) 0))))
      ∧ (s.on (F.SYN_SYN_STAT_RAMP (n.val + 1)) = true → rest ≠ [] → exec (.rampSegmentDone n) s = .next (synthChanged u))))
  ∧ (∀ (s : State), dclkRuns s = true → exec .syncInEdge s = .next (allOuts.foldl (fun (s : State) (o : Fin 12) =>
        if s.on (F.SYN_OUT_CFG_SYNCEN o) && !(s.on (F.SYN_OUT_CFG_MODE o)) then
          (s.set (F.SYN_OUT_STAT_ALIGNED o) 1).emit (.restart o ((roundDiv (7 * 2500) 3) + outLat s o - 10000))
        else s) s))
  ∧ (∀ (s : State) (n : Fin 12) (v : Word), Admits s → exec (.limitClear n v) s = .next (let w := regWrite (A.SYN_OUT_CTL n) v (countAccess .mw0 s)
        if v.getLsbD 1 then w.set (F.SYN_OUT_STAT_LIMIT n) 0 else w))
  ∧ (∀ (s : State) (o : Fin 12), s.on (F.SYN_OUT_CFG_AUTOREL o) = true → s.on (F.SYN_OUT_STAT_LIMIT o) = true → 100 < s.syn.passTicks[o] → exec (.limitAutoRelease o) s = .next (s.set (F.SYN_OUT_STAT_LIMIT o) 0))

/-- For every output with a CEIL that is not zero and every window that measures f mHz: f is shown in SYN_OUTn_FMEAS, and the limiter trips with f exactly when
f > CEIL × (1 + 50 ppm), computed exactly; with CEIL zero it never trips. (R294) -/
def Obligations.MeasuredCheckTripsAboveCeilPlus50Ppm : Prop :=
  ∀ (s : State) (o : Fin 12) (f : BitVec 40), (let u := s.set64 (A.SYN_OUT_FMEAS_W0 o) f.toNat
      (outCeil u o = 0 ∨ f.toNat * 1000000 ≤ outCeil u o * 1000050 →
        exec (.outputLimitMeasure o f) s = .next { u with syn := { u.syn with overMeasured := u.syn.overMeasured &&& (0xFFF ^^^ 2 ^ o.val) } })
      ∧ (outCeil u o ≠ 0 → outCeil u o * 1000050 < f.toNat * 1000000 →
        exec (.outputLimitMeasure o f) s = .next (limitTrip o f.toNat 1 { u with syn := { u.syn with overMeasured := u.syn.overMeasured ||| 2 ^ o.val } })))

/-- A unit of a pair whose SYN_AUX runs sends a claim frame; a claim that neither path refreshed for 2 us counts as 0; an output stage that differs is forced
to high-impedance and reported; the end of the guard gives ACTIVE; YIELD and REJOIN act through DVL_CTL. (R297, R298, R299, R301, R314,
13_redundancy_pairs.md) -/
def Obligations.ClaimCommandsTakeEffect : Prop :=
  (∀ (s : State), inPair s = true → s.on F.SYN_STAT_AUXLOCK = true → exec .claimFrameSend s = .next (
        let u := claimUpdate s
        let v := u.emit (.claim (BitVec.ofNat 64 (claimHead u * 2 ^ 16 + claimCrc (natBE 6 (claimHead u)))))
        { v with dvl := { v.dvl with seqTx := (v.dvl.seqTx + 1) % 16 } }))
  ∧ (∀ (s : State), inPair s = true → (let u := busWatch s
      let t := lastRefresh u + stalePeriods
      u.on F.DVL_STAT_STALE = false → t ≤ u.now → exec .claimStale s = .next (
        let v := claimUpdate ((u.set F.DVL_CLAIM_PARTNER 0).set F.DVL_STAT_STALE 1)
        { v with dvl := { v.dvl with guard := v.dvl.guard.map (fun g => { g with since := if g.kind = 3 then t else g.since }) } })))
  ∧ (∀ (s : State) (out : Fin 12), inPair s = true → exec (.dvlCmpMismatch out) s = .next (faultSend .dvlCmpMismatch out 0 0 0 { s with dvl := { s.dvl with forced := s.dvl.forced ||| 2 ^ out.val } }))
  ∧ (∀ (s : State), (claimUpdate s).on F.DVL_STAT_ACTIVE = false → (claimUpdate s).dvl.guard.any (fun g => decide (g.since + guardPeriods g.kind ≤ (claimUpdate s).now)) = true → exec .activeGain s = .next (
        let r := irqSet 7 A.DVL_IRQ_STAT 0 ((claimUpdate s).set F.DVL_STAT_ACTIVE 1)
        let u := r.addSat F.DVL_TAKEOVER_CNT_COUNT 1
        let k : TakeEdge := ⟨true, u.recordTime, u.get F.DVL_CLAIM_OWN, u.get F.DVL_CLAIM_PARTNER⟩
        let v := pairSend (discardSessions { u with dvl := { u.dvl with activeAt := u.now, everActive := true, slewing := true, take := some k } })
        showClaim (if v.mode = mShadow then enterMode mServe 3 0 0 v else v)))
  ∧ (∀ (s : State) (v : Word), Admits s → v.getLsbD 1 = false → exec (.dvlYield v) s = .next (claimUpdate ((countAccess .mw0 s).setB F.DVL_CTL_YIELD (v.getLsbD 0))))
  ∧ (∀ (s : State) (v : Word), Admits s → exec (.dvlRejoin v) s = .next (let w := (countAccess .mw0 s).setB F.DVL_CTL_YIELD (v.getLsbD 0)
        claimUpdate (if w.on F.SYN_STAT_FROZEN || !(mclkRuns w) || w.dvl.causeHeld then w
          else { w with dvl := { w.dvl with bothOff := false } }.set F.DVL_STAT_HANDED 0)))

/-- The 64 bits that CLAIM_FRAME_SEND puts on CLAIM_TX in any state, received by any unit of a pair that has heard no frame for 2 us, or whose last SEQ was the
one before, pass the checks and refresh the partner claim with exactly the sender's claim, its echo, its ACTIVE and its READY. (The CRC's initial value is
the model's: assumption log 40.) (R298) -/
def Obligations.ClaimFrameIsReadAsItWasSent : Prop :=
  ∀ (s r : State), inPair s = true → s.on F.SYN_STAT_AUXLOCK = true → inPair r = true → (let u := claimUpdate s
      let bits := BitVec.ofNat 64 (claimHead u * 2 ^ 16 + claimCrc (natBE 6 (claimHead u)))
      (∃ t, exec .claimFrameSend s = .next t ∧ t.out = .claim bits :: u.out)
      ∧ ((∀ h, r.dvl.heardAt = some h → h + stalePeriods ≤ r.now) ∨ r.dvl.seqRx = some ((u.dvl.seqTx + 15) % 16) →
        exec (.claimFrameReceive bits) r = .next (refresh (u.get F.DVL_CLAIM_OWN) (u.get F.DVL_CLAIM_PARTNER) (u.on F.DVL_STAT_ACTIVE)
          (decide (u.get F.DVL_STAT_PHASE = 4))
          { r with dvl := { r.dvl with seqRx := some (u.dvl.seqTx % 16), heardAt := some r.now, busAt := some r.now } })))

/-- A link with no valid frame for 4 us goes down; a lane down leaves half the capacity and the alarm; a heartbeat refreshes the claim and is compared, a
damaged one only counts; a unit whose link runs sends heartbeats, and its STATE or STATUS record once a cycle; a record received is applied by the unit it
concerns; the bulk and track phases end when the copy is whole and TRACKT has passed; an attestation whose chain and signature verify, that fits, and that
gives a shared key is answered, any other rejects the pairing; the wrapped master keys are adopted by the unit that is not active; a rejected pairing
starts again after its wait. (R304, R305, R307, R308, R309, R310, R315, R316) -/
def Obligations.LinkCommandsTakeEffect : Prop :=
  (∀ (s : State), s.on F.DVL_STAT_LINK = true → s.dvl.frameAt + 4800 ≤ s.now → exec .dvlLinkDown s = .next (
        let u := irqSet 7 A.DVL_IRQ_STAT 2 ((s.set F.DVL_STAT_LINK 0).set F.DVL_STAT_LANES 0)
        let v := pairErase u.dvl.pair.rejectedAt false { u with dvl := { u.dvl with bulkNext := none, bulkLast := false, bulkHole := false, hbIn := none } }
        claimUpdate (phaseSet 0 (record 0x030B 0 0 0 0 (alarmRaise 5 v)))))
  ∧ (∀ (s : State) (lane : Fin 2), s.get F.DVL_STAT_LANES = 3 → exec (.dvlLaneDown lane) s = .next (laneAlarm (s.set F.DVL_STAT_LANES (if lane.val = 0 then 2 else 1))))
  ∧ (∀ (s : State) (lanes : BitVec 2) (hb : Heartbeat) (t : Nat), dvlRuns s = true → exec (.heartbeatReceive false lanes hb t) s = .next (s.addSat F.DVL_RECERR_CNT_COUNT 1)
      ∧ exec (.heartbeatReceive true lanes hb t) s = .next (
        let u := linkSeen lanes s
        let v := exchange hb t (refresh hb.claim.toNat hb.echo.toNat hb.active hb.ready { u with dvl := { u.dvl with linkAt := some u.now } })
        if v.get F.DVL_STAT_PHASE = 0 ∧ v.dvl.pair.rejectedAt = none then pairStart v else v))
  ∧ (∀ (s : State), dvlRuns s = true → exec .heartbeatSend s = .next ((claimUpdate s).emit (.dvl (.hb {
        claim := BitVec.ofNat 16 ((claimUpdate s).get F.DVL_CLAIM_OWN), echo := BitVec.ofNat 16 ((claimUpdate s).get F.DVL_CLAIM_PARTNER)
        active := (claimUpdate s).on F.DVL_STAT_ACTIVE, ready := decide ((claimUpdate s).get F.DVL_STAT_PHASE = 4), cycle := (claimUpdate s).dvl.cycle
        tx := (claimUpdate s).datum, rx := (claimUpdate s).dvl.hbIn.map (fun x => (x.2, x.1)) }))))
  ∧ (∀ (s : State), dvlRuns s = true → s.on F.DVL_STAT_ACTIVE = true → dclkRuns s = true → exec .stateRecordSend s = .next (
        let u := closeCycle (s.dvl.cycle + 1) { s with dvl := { s.dvl with cycle := s.dvl.cycle + 1 } }
        let room := journalRoom u
        let gs := (grantChanges u).take (room / 48)
        let ks := u.dvl.journal.take ((room - 48 * gs.length) / 36)
        let v := u.emit (.dvl (.state (stateRecord u (ownRefs u) gs ks)))
        bulkSend { v with dvl := { v.dvl with
          journal := v.dvl.journal.drop ks.length, sentGrants := grantMerge v.dvl.sentGrants gs, sentRefs := ownRefs u } }))
  ∧ (∀ (s a : State) (r : StateRecord) (damaged : Nat) (missing : Bool), dvlRuns s = true → a = s.addSat F.DVL_RECERR_CNT_COUNT damaged → (damaged ≠ 0 ∨ missing = true ∨ a.on F.DVL_STAT_ACTIVE = true → exec (.stateRecordApply damaged missing r) s = .next a)
      ∧ (∀ u v : State, u = { a with dvl := { a.dvl with frameAt := a.now, lastApplied := r.cycle, ptnRefs := r.refs, cycle := r.cycle } } →
        v = ntsCompare r.epoch r.kcv (u.setB F.DVL_STAT_SNAPDIFF (snapDiffers r u)) → damaged = 0 → missing = false → a.on F.DVL_STAT_ACTIVE = false →
        exec (.stateRecordApply damaged missing r) s = .next (if 2 ≤ v.get F.DVL_STAT_PHASE then clientsApply r.clients (grantsApply r.grants v) else v)))
  ∧ (∀ (s : State), dvlRuns s = true → s.on F.DVL_STAT_ACTIVE = false → exec .statusRecordSend s = .next (
        let u := { s with dvl := { s.dvl with sentRefs := ownRefs s } }
        u.emit (.dvl (.status ⟨u.dvl.lastApplied, u.get F.DTM_STATE_STATE, ownRefs s, u.get F.CRL_NTS_EPOCH_EPOCH, u.get64 A.CRL_NTS_KCV_W0, u.on F.DVL_STAT_LASTING⟩))))
  ∧ (∀ (s : State) (r : StatusRecord), dvlRuns s = true → (let u := { s with dvl := { s.dvl with frameAt := s.now } }
      (u.on F.DVL_STAT_ACTIVE = false → exec (.statusRecordReceive true r) s = .next u)
      ∧ (u.on F.DVL_STAT_ACTIVE = true → exec (.statusRecordReceive true r) s = .next (
          let v := { u with dvl := { u.dvl with ptnRefs := r.refs, ptnLasting := r.lasting } }
          if r.lasting = v.on F.DVL_STAT_LASTING then v else if r.lasting then declareDisagree v else clearDisagree v))))
  ∧ (∀ (s : State) (cs : List (Nat × Bytes)) (gs : List GrantChange) (last : Bool), dvlRuns s = true → exec (.bulkFrameReceive false cs gs last) s = .next ({ s with dvl := { s.dvl with bulkHole := true } }.addSat F.DVL_RECERR_CNT_COUNT 1)
      ∧ (let u := { s with dvl := { s.dvl with frameAt := s.now } }
        u.get F.DVL_STAT_PHASE = 2 → u.on F.DVL_STAT_ACTIVE = false → exec (.bulkFrameReceive true cs gs last) s = .next (
          let v := clientsApply cs (grantsApply gs u)
          { v with dvl := { v.dvl with bulkLast := v.dvl.bulkLast || last } })))
  ∧ (∀ (s : State), s.get F.DVL_STAT_PHASE = 2 → s.dvl.bulkLast = true → s.dvl.bulkHole = false → exec .bulkComplete s = .next (claimUpdate (phaseSet 3 { s with dvl := { s.dvl with trackTicks := 0 } })))
  ∧ (∀ (s : State), s.get F.DVL_STAT_PHASE = 3 → 1000 * s.get F.DVL_RESYNC_CFG_TRACKT < s.dvl.trackTicks → exec .trackComplete s = .next (claimUpdate (phaseSet 4 s)))
  ∧ (∀ (s : State) (st chain : Bytes) (ok : Bool), dvlRuns s = true → s.get F.DVL_STAT_PHASE = 1 → (let k := sharedKey s.dvl.pair.scalar st
      exec (.pairAttestation (.attest st chain) ok) s = .next (if ok = true ∧ statementFits s st = true ∧ k ≠ [] then
        claimUpdate (pairSend { s with dvl := { s.dvl with pair := { s.dvl.pair with key := k } } })
        else claimUpdate (phaseSet 0 (record 0x0305 0 0 0 0 (irqSet 7 A.DVL_IRQ_STAT 8 (pairErase (some s.now) false s)))))))
  ∧ (∀ (s : State) (w d : Bytes) (chainOk : Bool), dvlRuns s = true → s.get F.DVL_STAT_PHASE = 1 → s.dvl.pair.key ≠ [] → s.on F.DVL_STAT_ACTIVE = false → (∀ k, kwUnwrap s.dvl.pair.key w = some k → exec (.pairAttestation (.keys w d) chainOk) s = .next (
        let a : State := { s with svp := { s.svp with key1 := beAt k 0 16, key2 := beAt k 16 16, keysDerived := false, table := [], cached := [], dirty := [] } }
        let b := pairErase none true (if d = pairDigest a then alarmClear 9 a else record 0x0309 0 0 0 0 (alarmRaise 9 (irqSet 7 A.DVL_IRQ_STAT 9 a)))
        claimUpdate (phaseSet 2 { b with dvl := { b.dvl with bulkLast := false, bulkHole := false } })))
      ∧ (kwUnwrap s.dvl.pair.key w = none → exec (.pairAttestation (.keys w d) chainOk) s = .next (
        claimUpdate (phaseSet 0 (record 0x0305 0 0 0 0 (irqSet 7 A.DVL_IRQ_STAT 8 (pairErase (some s.now) false s)))))))
  ∧ (∀ (s u : State) (t : Nat), s.dvl.pair.rejectedAt = some t → t + retryPeriods ≤ s.now → u = pairErase none false s → exec .pairingRetry s = .next (if inPair u && u.on F.DVL_STAT_LINK && decide (u.get F.DVL_STAT_PHASE = 0) then pairStart u else u))

/-- A write of TAIL of a ring that exists hands slots over or sets TAILERR; a write of CFG with EN = 1 starts an idle ring, one with EN = 0 stops it: what it
queued is dropped and counted, its commands end; a ring that does not exist ignores them; the stop of a ring that is off completes; a host reset stops
every ring and clears the MSI-X state; bus mastering and D3 follow the host; a PCIe link comes up with the lesser of its and the configured speed and
width; a good MSPI request is served and answered, a bad one answered with its status. (R35, R317, R318, R319, R323, R324, R326, R337, R338,
14_host_dma.md) -/
def Obligations.HostInterfaceCommandsTakeEffect : Prop :=
  (∀ (s : State) (n : Fin 64) (v : Word), Admits s → ringExists n = true → (let u := countAccess .mw0 s
      exec (.ringTailWrite n v) s = .next (if ringSize u n ≤ v.toNat % 65536 then u.strike (F.HMI_R_STAT_TAILERR n) else u.set (F.HMI_R_TAIL_TAIL n) (v.toNat % 65536))))
  ∧ (∀ (s : State) (n : Fin 64) (v : Word), Admits s → ringExists n = false → exec (.ringTailWrite n v) s = .next (countAccess .mw0 s))
  ∧ (∀ (s : State) (n : Fin 64) (v : Word), Admits s → ringExists n = true → (let u := countAccess .mw0 s
      ringOn u n = false → u.on (F.HMI_R_STAT_ACTIVE n) = false → exec (.ringEnable n v) s = .next (
        let a := u.wr (A.HMI_R_CFG n) (fieldSet (ringCfgClamp (fieldSet v 31 1 1)) 31 1 0)
        let b := ((((a.set (F.HMI_R_HEAD_HEAD n) 0).set (F.HMI_R_TAIL_TAIL n) 0).setRing n Ring.empty).set (F.HMI_R_CFG_EN n) 1).set (F.HMI_R_STAT_ACTIVE n) 1
        if dmaOk b then writeBack n b else b)))
  ∧ (∀ (s : State) (n : Fin 64) (v : Word), Admits s → ringExists n = false → exec (.ringEnable n v) s = .next (countAccess .mw0 s))
  ∧ (∀ (s : State) (n : Fin 64) (v : Word), Admits s → ringExists n = true → (let u := countAccess .mw0 s
      ringOn u n = true → (let w := (if fieldSet (ringCfgClamp (fieldSet v 31 1 0)) 31 1 0 = fieldSet (u.rd (A.HMI_R_CFG n)) 31 1 0 then u
          else u.strike (F.HMI_R_STAT_CFGERR n)).set (F.HMI_R_CFG_EN n) 0
      (n.val < 24 → exec (.ringDisable n v) s = .next (
        let a := if dmaOk w then completeBuffer n w else bufferLost n w
        let b := (a.ring n).queue.foldl (fun (t : State) (i : UpItem) => undelivered i t) a
        (List.replicate (a.ring n).queue.length ()).foldl (fun (t : State) (_ : Unit) => dropQuiet n t) (b.setRing n { b.ring n with queue := [], waitFrom := none })))
      ∧ (24 ≤ n.val → n.val < 56 → exec (.ringDisable n v) s = .next w)
      ∧ (56 ≤ n.val → exec (.ringDisable n v) s = .next (
        let a := abortRing (n.val - 56) w
        a.setRing n { a.ring n with cmds := [] })))))
  ∧ (∀ (s : State) (n : Fin 64) (v : Word), Admits s → ringExists n = false → exec (.ringDisable n v) s = .next (countAccess .mw0 s))
  ∧ (∀ (s : State) (n : Fin 64), ringOn s n = false → exec (.ringStopComplete n) s = .next ((s.set (F.HMI_R_STAT_ACTIVE n) 0).setRing n { s.ring n with frames := [] }))
  ∧ (∀ (s : State) (d : Bool), (let a := (List.range 64).foldl (fun (t : State) (r : Nat) => if ringOn t r then ringStop r t else t) (((s.set F.HMI_STAT_BME 0).set F.HMI_STAT_MSIX 0).set F.HMI_STAT_D3 0)
        let b := ({ a with hmi := { a.hmi with msix := [], pba := 0 } }.wr A.HMI_IRQ_PEND_W0 0).wr A.HMI_IRQ_PEND_W1 0
        let c := if d then ((b.set F.HMI_STAT_LINK 0).set F.HMI_STAT_SPEED 0).set F.HMI_STAT_WIDTH 0 else b
        exec (.hostReset d) s = .next (record 0x4801 0 0 0 0 (c.addSat F.HMI_RST_CNT_COUNT 1))))
  ∧ (∀ (s : State), exec (.busMasterDisable false) s = .next (s.set F.HMI_STAT_BME 0) ∧ exec (.busMasterDisable true) s = .next (s.set F.HMI_STAT_D3 1))
  ∧ (∀ (s : State) (m : Bool), s.on F.HMI_STAT_LINK = true → exec (.busMasterEnable false m) s = .next (sendPending ((s.setB F.HMI_STAT_MSIX m).set F.HMI_STAT_BME 1))
      ∧ exec (.busMasterEnable true m) s = .next (sendPending ((s.setB F.HMI_STAT_MSIX m).set F.HMI_STAT_D3 0)))
  ∧ (∀ (s : State) (sp : Fin 4) (w : Fin 3), s.on F.SYN_STAT_AUXLOCK = true → exec (.pcieLinkUp sp w) s = .next (((s.set F.HMI_STAT_LINK 1).set F.HMI_STAT_SPEED (min (s.get F.HMI_CFG_MAXSPD) sp.val + 1)).set F.HMI_STAT_WIDTH (2 ^ min (s.get F.HMI_CFG_MAXW) w.val)))
  ∧ (∀ (s : State) (b : Bytes), accessible s = true → s.sys.mspiEn = true → 5 ≤ b.length → beAt b 0 1 = 0x52 → (let crc := decide (beAt b 4 1 = (crc8 (b.take 4)).toNat)
      let x := hostRead .mspi (beAt b 1 3) s
      (crc = true → beAt b 1 3 % 4 = 0 → exec (.mspiRead b) s = .next (x.2.emit (.mspi (let r := 0xA5 :: natBE 4 x.1.toNat ++ natBE 1 0; r ++ [crc8 r]))))
      ∧ (crc = true → beAt b 1 3 % 4 ≠ 0 → exec (.mspiRead b) s = .next (s.emit (.mspi (let r := 0xA5 :: zeros 4 ++ natBE 1 2; r ++ [crc8 r]))))
      ∧ (crc = false → exec (.mspiRead b) s = .next (s.emit (.mspi (let r := 0xA5 :: zeros 4 ++ natBE 1 1; r ++ [crc8 r]))))))
  ∧ (∀ (s : State) (b : Bytes), accessible s = true → s.sys.mspiEn = true → 9 ≤ b.length → beAt b 0 1 = 0x57 → (let crc := decide (beAt b 8 1 = (crc8 (b.take 8)).toNat)
      let x := hostWrite .mspi (beAt b 1 3) 15 (BitVec.ofNat 32 (beAt b 4 4)) s
      (crc = true → beAt b 1 3 % 4 = 0 → exec (.mspiWrite b) s = .next (x.2.emit (.mspi (let r := 0xA5 :: natBE 1 x.1; r ++ [crc8 r]))))
      ∧ (crc = true → beAt b 1 3 % 4 ≠ 0 → exec (.mspiWrite b) s = .next (s.emit (.mspi (let r := 0xA5 :: natBE 1 2; r ++ [crc8 r]))))
      ∧ (crc = false → exec (.mspiWrite b) s = .next (s.emit (.mspi (let r := 0xA5 :: natBE 1 1; r ++ [crc8 r]))))))

/-- For every ring that exists, in every canonical state that admits writes: a TAIL write whose value is below 2^SIZE sets TAIL to it and leaves STAT; any
other sets TAILERR and leaves TAIL. In each case no other register changes but those that events touch, and the rings' queues stay as they are. (R323,
R324) -/
def Obligations.TailWriteHandsOverOrSetsTailerr : Prop :=
  ∀ (s : State) (n : Fin 64) (v : Word), Admits s → Canonical s → ringExists n = true → ∃ t, exec (.ringTailWrite n v) s = .next t ∧ t.hmi.rings = s.hmi.rings
      ∧ (v.toNat % 65536 < ringSize s n → t.get (F.HMI_R_TAIL_TAIL n) = v.toNat % 65536 ∧ t.rd (A.HMI_R_STAT n) = s.rd (A.HMI_R_STAT n))
      ∧ (ringSize s n ≤ v.toNat % 65536 → t.get (F.HMI_R_STAT_TAILERR n) = 1 ∧ t.rd (A.HMI_R_TAIL n) = s.rd (A.HMI_R_TAIL n))
      ∧ ∀ a, a ≠ A.HMI_R_TAIL n → a ≠ A.HMI_R_STAT n → eventReg a = false → t.rd a = s.rd a

/-- The frame at the head of an up-ring's queue is delivered into the slots the host wrote, or waits without bus mastering; a record ring places its records; a
head that waited past WAIT is dropped and counted; a buffer with records older than COALESCE completes; the interrupt timer of a ring with unsignalled
completions fires; a frame fetched from a down-ring is checked, counted and queued at its port, or completes with its status; a command fetched is checked,
dispatched, or ends with its status; the oldest command that is done and whose time has come completes in the up-ring of the pair. (R319, R320, R321, R327,
R328, R330, R331, R332, R333, R334, R335, R336) -/
def Obligations.RingCommandsTakeEffect : Prop :=
  (∀ (s : State) (r : Fin 16) (slots : List Desc) (f : UpItem) (rest : List UpItem), ringOn s r = true → s.hmi.dmaPaused = none → (s.ring r).queue = f :: rest → (∀ span, dmaOk s = true → reserveSpan s r 0 f.bytes.length (slots.take (ringOwned s r)) = some span → exec (.upRingFrameDeliver r slots) s = .next (
        ringCompleted r span.length (writeSpan r f span true f.bytes (s.setRing r { s.ring r with queue := rest, waitFrom := none }))))
      ∧ (dmaOk s = true → reserveSpan s r 0 f.bytes.length (slots.take (ringOwned s r)) = none → s.get (F.HMI_R_LIM_WAIT r) ≠ 0 → (s.ring r).waitFrom = none →
        exec (.upRingFrameDeliver r slots) s = .next (s.setRing r { s.ring r with waitFrom := some s.now }))
      ∧ (dmaOk s = true → reserveSpan s r 0 f.bytes.length (slots.take (ringOwned s r)) = none → s.get (F.HMI_R_LIM_WAIT r) = 0 →
        exec (.upRingFrameDeliver r slots) s = .next (dropItem r false f.bytes.length (popQueue r (undelivered f s)))))
  ∧ (∀ (s : State) (k : Fin 8) (slots : List Desc) (i : UpItem) (rest : List UpItem), ringOn s (16 + k.val) = true → s.hmi.dmaPaused = none → (s.ring (16 + k.val)).queue = i :: rest → (let r := 16 + k.val
      let u := s.setRing r { s.ring r with queue := rest, waitFrom := none }
      (∀ b, dmaOk s = true → (s.ring r).buf = some b → b.bytes + i.bytes.length ≤ b.room → exec (.upRingRecord k slots) s = .next (
        let w := dmaWrite r (b.addr + b.bytes) i.bytes u
        w.setRing r { u.ring r with buf := some { b with bytes := b.bytes + i.bytes.length, records := b.records + 1 } }))
      ∧ (∀ b, dmaOk s = true → (s.ring r).buf = some b → b.room < b.bytes + i.bytes.length → exec (.upRingRecord k slots) s = .next (
        let p := placeRecord r i.bytes slots (completeBuffer r s)
        if p.2 then popQueue r p.1 else waitHead r i.bytes.length p.1))
      ∧ (dmaOk s = true → (s.ring r).buf = none → exec (.upRingRecord k slots) s = .next (
        let p := placeRecord r i.bytes slots s
        if p.2 then popQueue r p.1 else waitHead r i.bytes.length p.1))
      ∧ (dmaOk s = false → s.get (F.HMI_R_LIM_WAIT r) ≠ 0 → (s.ring r).waitFrom = none →
        exec (.upRingRecord k slots) s = .next (s.setRing r { s.ring r with waitFrom := some s.now }))))
  ∧ (∀ (s : State) (r : Fin 24) (t : Nat) (i : UpItem) (rest : List UpItem), (s.ring r).waitFrom = some t → (s.ring r).queue = i :: rest → s.hmi.dmaPaused = none → t + usPeriods * s.get (F.HMI_R_LIM_WAIT r) ≤ s.now → exec (.ringWaitExpiry r) s = .next (dropItem r false i.bytes.length (popQueue r (undelivered i s))))
  ∧ (∀ (s : State) (k : Fin 8) (b : RecBuf), (s.ring (16 + k.val)).buf = some b → dmaOk s = true → 0 < b.records → b.since + usPeriods * s.get (F.HMI_R_COAL_COALESCE (16 + k.val)) ≤ s.now → exec (.recordBufferCoalesce k) s = .next (
        let r := 16 + k.val
        let c := natLE 4 b.bytes ++ natLE 2 (cflags false false false b.clamped false) ++ natLE 2 b.records ++ natLE 4 (s.ring r).drops ++ zeros 20
        let w := dmaWrite r (slotAddr s r b.slot) c s
        ringCompleted r 1 (w.setRing r { w.ring r with buf := none, drops := 0 })))
  ∧ (∀ (s : State) (r : Fin 56), s.on (F.HMI_R_IRQ_EN r) = true → s.get (F.HMI_R_IRQ_TMR r) ≠ 0 → 0 < (s.ring r).unsignalled → s.hmi.dmaPaused = none → (s.ring r).firstAt + usPeriods * s.get (F.HMI_R_IRQ_TMR r) ≤ s.now → exec (.ringIrqTimer r) s = .next (
        let w := s.setBit (if r.val < 32 then A.HMI_IRQ_PEND_W0 else A.HMI_IRQ_PEND_W1) (r.val % 32)
        signalVector (w.get (F.HMI_R_IRQ_VEC r)) (w.setRing r { w.ring r with unsignalled := 0 })))
  ∧ (∀ (s : State) (k : Fin 16) (slots : List Desc) (data : Bytes) (d : Desc), ringOn s (32 + k.val) = true → dmaOk s = true → oneFrame slots = true → slotsFetched s (32 + k.val) + slots.length ≤ ringOwned s (32 + k.val) → slots.find? (fun d => d.len != 0) = some d → (let r := 32 + k.val
      let len := frameBytes s r slots
      let b := ethPad ((padTo len data).take (if len < 9600 then len else 9600))
      let sl := frameSlots s r (slotsFetched s r) slots
      let st := txStatus s d.port len b
      let u := pmcEvent 12 0x04 r (if len < 9600 then len else 9600) s
      let v := u.setRing r { u.ring r with frames := (u.ring r).frames ++ [⟨sl, d.id, d.port, descTsreq d, st, none⟩] }
      (∀ p : Fin 7, p.val = d.port → st = none → exec (.hostTxFrame k slots data) s = .next (
        txEnqueue p ⟨b, hostClass v d.port b, .host r ((sl.head?.map (·.1)).getD 0)⟩ v))
      ∧ (∀ c, st = some c → exec (.hostTxFrame k slots data) s = .next (flushDown r (v.ring r).frames v))))
  ∧ (∀ (s : State) (k : Fin 8) (desc : Desc) (block : Bytes), ringOn s (56 + k.val) = true → ringOn s (24 + k.val) = true → dmaOk s = true → 0 < ringOwned s (56 + k.val) → commandsHeld s k < ringOwned s (24 + k.val) → exec (.commandFetch k desc block) s = .next (
        let r := 56 + k.val
        let invalid := decide (desc.len = 0)
        let l := slotLen s r desc
        let b := padTo l.1 (block.take l.1)
        let seq := s.pke.nextSeq
        let c : HostCmd := ⟨seq, desc.id, ringHead s r, if invalid then [] else b, desc.addr2, desc.len2, l.2 && !invalid, invalid, false,
          commandKey s b, none, 0⟩
        let u := { s with pke := { s.pke with nextSeq := seq + 1 } }
        let v := u.setRing r { u.ring r with cmds := (u.ring r).cmds ++ [c] }
        let w := writeBack r (headAdvance r 1 (noteSlot r c.clamped invalid (pmcEvent 12 0x04 r (32 + l.1) v)))
        let op := beAt b 0 1
        if invalid then modCmd k seq (fun c => { c with done := some (0x11, []), ready := w.now }) w
        else if 0x40 ≤ op ∧ op ≤ 0x44 then w
        else if op = 0 ∨ 0x34 < op then modCmd k seq (fun c => { c with done := some (0x10, []), ready := w.now + 100 }) w
        else
          let st := dispatchStatus w true b desc.len2
          if st = 0 then w else endHost k seq st [] (w.now + 100) (if st = 0x17 then irqSet 16 A.PKE_IRQ_STAT 1 (pmcEvent 6 0x05 0 1 w) else pmcEvent 6 0x05 0 1 w)))
  ∧ (∀ (s : State) (k : Fin 8) (c : HostCmd) (rest : List HostCmd) (st : Nat) (res : Bytes), (s.ring (56 + k.val)).cmds = c :: rest → c.done = some (st, res) → c.ready ≤ s.now → ringOn s (24 + k.val) = true → dmaOk s = true → 0 < ringOwned s (24 + k.val) → exec (.commandCompletion k) s = .next (
        let u := 24 + k.val
        let a := s.setRing (56 + k.val) { s.ring (56 + k.val) with cmds := rest }
        let d := if res = [] then a else dmaWrite u c.resAddr res a
        let cf := (if c.invalid then 4 else 0) + (if c.clamped then 8 else 0)
        let b := natLE 2 c.id ++ natLE 2 c.pos ++ natLE 1 st ++ natLE 1 cf ++ zeros 2 ++ natLE 4 res.length ++ zeros 4 ++ stampBytes d.datum
        ringCompleted u 1 (dmaWrite u (slotAddr d u (ringHead d u)) b d)))

/-- For a core that runs the operation, with the operands m, x, y of LEN words: MOD_ADD gives (x + y) mod m, MOD_SUB the r below m with (r + y) mod m = x,
MOD_MUL x · y mod m, MOD_EXP x^y mod m, MOD_INV the i below m with x · i mod m = 1 mod m exactly when gcd(x, m) = 1, RSA_PUB x^e mod n; a zero modulus, or
an even one where an odd one is needed, is MODULUS_INVALID, an operand not below m is OPERAND_RANGE, and a missing inverse is NOT_INVERTIBLE. The outcome
of that core is all that changes. (R175, R179, R180) -/
def Obligations.ModularResultsAreExact : Prop :=
  (∀ (s : State) (c : Fin 16) (o : PkeOp) (w m x y : Nat), s.core c = some o → beAt o.block 0 1 = 0x01 → (o.outcome = none ∧ kclkRuns s = true) → w = 8 * (cmdHead o.block).len → m = opndNat o.block 0 w → x = opndNat o.block w w → y = opndNat o.block (2 * w) w → ((m = 0 → exec (.modAdd c) s = .next (s.setCore c (some { o with outcome := some ((2, [])) })))
      ∧ (m ≠ 0 → m ≤ x ∨ m ≤ y → exec (.modAdd c) s = .next (s.setCore c (some { o with outcome := some ((1, [])) })))
      ∧ (m ≠ 0 → x < m → y < m → exec (.modAdd c) s = .next (s.setCore c (some { o with outcome := some ((0, natBE w ((x + y) % m))) })))))
  ∧ (∀ (s : State) (c : Fin 16) (o : PkeOp) (w m x y : Nat), s.core c = some o → beAt o.block 0 1 = 0x02 → (o.outcome = none ∧ kclkRuns s = true) → w = 8 * (cmdHead o.block).len → m = opndNat o.block 0 w → x = opndNat o.block w w → y = opndNat o.block (2 * w) w → (m ≠ 0 → x < m → y < m → ∃ r, r < m ∧ (r + y) % m = x ∧ exec (.modSub c) s = .next (s.setCore c (some { o with outcome := some ((0, natBE w r)) })))
      ∧ (m ≠ 0 → m ≤ x ∨ m ≤ y → exec (.modSub c) s = .next (s.setCore c (some { o with outcome := some ((1, [])) }))) ∧ (m = 0 → exec (.modSub c) s = .next (s.setCore c (some { o with outcome := some ((2, [])) }))))
  ∧ (∀ (s : State) (c : Fin 16) (o : PkeOp) (w m x y : Nat), s.core c = some o → beAt o.block 0 1 = 0x03 → (o.outcome = none ∧ kclkRuns s = true) → w = 8 * (cmdHead o.block).len → m = opndNat o.block 0 w → x = opndNat o.block w w → y = opndNat o.block (2 * w) w → ((m % 2 = 0 → exec (.modMul c) s = .next (s.setCore c (some { o with outcome := some ((2, [])) })))
      ∧ (m % 2 = 1 → m ≤ x ∨ m ≤ y → exec (.modMul c) s = .next (s.setCore c (some { o with outcome := some ((1, [])) })))
      ∧ (m % 2 = 1 → x < m → y < m → exec (.modMul c) s = .next (s.setCore c (some { o with outcome := some ((0, natBE w (x * y % m))) })))))
  ∧ (∀ (s : State) (c : Fin 16) (o : PkeOp) (w m : Nat), s.core c = some o → beAt o.block 0 1 = 0x04 → (o.outcome = none ∧ kclkRuns s = true) → w = 8 * (cmdHead o.block).len → m = opndNat o.block 0 w → (m ≠ 0 → exec (.modRed c) s = .next (s.setCore c (some { o with outcome := some ((0, natBE w (opndNat o.block w (2 * w) % m))) }))) ∧ (m = 0 → exec (.modRed c) s = .next (s.setCore c (some { o with outcome := some ((2, [])) }))))
  ∧ (∀ (s : State) (c : Fin 16) (o : PkeOp) (w m x y : Nat), s.core c = some o → beAt o.block 0 1 = 0x05 → (o.outcome = none ∧ kclkRuns s = true) → w = 8 * (cmdHead o.block).len → m = opndNat o.block 0 w → x = opndNat o.block w w → y = opndNat o.block (2 * w) w → ((m % 2 = 0 → exec (.modExp c) s = .next (s.setCore c (some { o with outcome := some ((2, [])) })))
      ∧ (m % 2 = 1 → m ≤ x → exec (.modExp c) s = .next (s.setCore c (some { o with outcome := some ((1, [])) })))
      ∧ (m % 2 = 1 → x < m → exec (.modExp c) s = .next (s.setCore c (some { o with outcome := some ((0, natBE w (x ^ y % m))) })))))
  ∧ (∀ (s : State) (c : Fin 16) (o : PkeOp) (w m x : Nat), s.core c = some o → beAt o.block 0 1 = 0x06 → (o.outcome = none ∧ kclkRuns s = true) → w = 8 * (cmdHead o.block).len → m = opndNat o.block 0 w → x = opndNat o.block w w → (m % 2 = 1 → x < m → Nat.gcd x m = 1 → ∃ i, i < m ∧ x * i % m = 1 % m ∧ exec (.modInv c) s = .next (s.setCore c (some { o with outcome := some ((0, natBE w i)) })))
      ∧ (m % 2 = 1 → x < m → Nat.gcd x m ≠ 1 → exec (.modInv c) s = .next (s.setCore c (some { o with outcome := some ((6, [])) })))
      ∧ (m % 2 = 1 → m ≤ x → exec (.modInv c) s = .next (s.setCore c (some { o with outcome := some ((1, [])) }))) ∧ (m % 2 = 0 → exec (.modInv c) s = .next (s.setCore c (some { o with outcome := some ((2, [])) }))))
  ∧ (∀ (s : State) (c : Fin 16) (o : PkeOp) (w m x y : Nat), s.core c = some o → beAt o.block 0 1 = 0x07 → (o.outcome = none ∧ kclkRuns s = true) → w = 8 * (cmdHead o.block).len → m = opndNat o.block 0 w → x = opndNat o.block w w → y = opndNat o.block (2 * w) w → ((m % 2 = 0 → exec (.rsaPub c) s = .next (s.setCore c (some { o with outcome := some ((2, [])) })))
      ∧ (m % 2 = 1 → m ≤ x → exec (.rsaPub c) s = .next (s.setCore c (some { o with outcome := some ((1, [])) })))
      ∧ (m % 2 = 1 → x < m → exec (.rsaPub c) s = .next (s.setCore c (some { o with outcome := some ((0, natBE w (x ^ opndNat o.block (2 * w) 8 % m))) })))))

/-- A core that runs RSA_PRIV, EC_VALIDATE, EC_MUL, EC_KEYGEN, EC_DH, ECDSA_SIGN, ECDSA_VERIFY, X25519, ED25519_SIGN, ED25519_VERIFY or a key generation sets
its outcome to the status and the result of the operation named, and draws what the operation draws; nothing else happens. (R175, R179, R180, R189, R390) -/
def Obligations.CurveAndPrivateOperationsTakeEffect : Prop :=
  (∀ (s : State) (c : Fin 16) (o : PkeOp), s.core c = some o → beAt o.block 0 1 = 0x08 → (o.outcome = none ∧ kclkRuns s = true) → exec (.rsaPriv c) s = .next (s.setCore c (some { o with outcome := some (rsaPriv (cmdHead o.block) o.block o.key) })))
  ∧ (∀ (s : State) (c : Fin 16) (o : PkeOp), s.core c = some o → beAt o.block 0 1 = 0x10 → (o.outcome = none ∧ kclkRuns s = true) → exec (.ecValidate c) s = .next (s.setCore c (some { o with outcome := some (ecValidate (cmdHead o.block) o.block) })))
  ∧ (∀ (s : State) (c : Fin 16) (o : PkeOp), s.core c = some o → beAt o.block 0 1 = 0x11 → (o.outcome = none ∧ kclkRuns s = true) → exec (.ecMul c) s = .next (s.setCore c (some { o with outcome := some (ecMul (cmdHead o.block) o.block) })))
  ∧ (∀ (s : State) (c : Fin 16) (o : PkeOp), s.core c = some o → beAt o.block 0 1 = 0x12 → (o.outcome = none ∧ kclkRuns s = true) → exec (.ecKeygen c) s = .next (let h := cmdHead o.block
        let cv := curveOf h o.block none
        let r := if cv.2 ≠ 0 then ((cv.2, []), s)
          else
            let d := s.drawScalar cv.1.n
            let m := natBE (8 * h.len) d.1
            let q := pointBytes h.len (cv.1.mul d.1 cv.1.g)
            if h.curve = 15 then keepKey h o 8 (Nat.log2 (max cv.1.p cv.1.n) + 1) (cv.1.material d.1) q m d.2
            else keepKey h o (h.curve + 1) (typeBits (h.curve + 1)) m q m d.2
        r.2.setCore c (some { o with outcome := some r.1 })))
  ∧ (∀ (s : State) (c : Fin 16) (o : PkeOp), s.core c = some o → beAt o.block 0 1 = 0x13 → (o.outcome = none ∧ kclkRuns s = true) → exec (.ecDh c) s = .next (s.setCore c (some { o with outcome := some (ecDh (cmdHead o.block) o.block o.key) })))
  ∧ (∀ (s : State) (c : Fin 16) (o : PkeOp), s.core c = some o → beAt o.block 0 1 = 0x14 → (o.outcome = none ∧ kclkRuns s = true) → (∀ k, o.owner ≠ .seal k) → exec (.ecdsaSign c) s = .next (let r := ecdsaSign (cmdHead o.block) o.block o.key s
        r.2.setCore c (some { o with outcome := some r.1 })))
  ∧ (∀ (s : State) (c : Fin 16) (o : PkeOp) (k : Nat), s.core c = some o → beAt o.block 0 1 = 0x14 → (o.outcome = none ∧ kclkRuns s = true) → o.owner = .seal k → exec (.ecdsaSign c) s = .next (let r := attestSign (opnd o.block 0 48) s
        r.2.setCore c (some { o with outcome := some (match r.1 with | some (a, b) => (0, natBE 48 a ++ natBE 48 b) | none => (6, [])) })))
  ∧ (∀ (s : State) (c : Fin 16) (o : PkeOp), s.core c = some o → beAt o.block 0 1 = 0x15 → (o.outcome = none ∧ kclkRuns s = true) → exec (.ecdsaVerify c) s = .next (s.setCore c (some { o with outcome := some (ecdsaVerify (cmdHead o.block) o.block) })))
  ∧ (∀ (s : State) (c : Fin 16) (o : PkeOp), s.core c = some o → beAt o.block 0 1 = 0x18 → (o.outcome = none ∧ kclkRuns s = true) → exec (.x25519 c) s = .next (s.setCore c (some { o with outcome := some (x25519Op (cmdHead o.block) o.block o.key) })))
  ∧ (∀ (s : State) (c : Fin 16) (o : PkeOp), s.core c = some o → beAt o.block 0 1 = 0x19 → (o.outcome = none ∧ kclkRuns s = true) → exec (.x25519Keygen c) s = .next (let k := s.drawBytes 32
        let r := keepKey (cmdHead o.block) o 5 256 k.1 (x25519 k.1 x25519Base) k.1 k.2
        r.2.setCore c (some { o with outcome := some r.1 })))
  ∧ (∀ (s : State) (c : Fin 16) (o : PkeOp), s.core c = some o → beAt o.block 0 1 = 0x1A → (o.outcome = none ∧ kclkRuns s = true) → exec (.ed25519Keygen c) s = .next (let k := s.drawBytes 32
        let r := keepKey (cmdHead o.block) o 6 256 k.1 (edPublic k.1) k.1 k.2
        r.2.setCore c (some { o with outcome := some r.1 })))
  ∧ (∀ (s : State) (c : Fin 16) (o : PkeOp), s.core c = some o → beAt o.block 0 1 = 0x1B → (o.outcome = none ∧ kclkRuns s = true) → exec (.ed25519Sign c) s = .next (s.setCore c (some { o with outcome := some (0, edSign (seedOf (cmdHead o.block) o.block o.key) (opnd o.block (if (cmdHead o.block).fromSlot then 0 else 32) (cmdHead o.block).xarg)) })))
  ∧ (∀ (s : State) (c : Fin 16) (o : PkeOp), s.core c = some o → beAt o.block 0 1 = 0x1C → (o.outcome = none ∧ kclkRuns s = true) → exec (.ed25519Verify c) s = .next (s.setCore c (some { o with outcome := some (ed25519VerifyOp (cmdHead o.block) o.block) })))

/-- KS_IMPORT of a blob that opens fills an empty slot, with a form D blob for a form T import, and is SLOT_OCCUPIED for one in use; KS_GENERATE fills an empty
slot with a drawn key; KS_PUBLIC returns the public half of the slot; KS_ATTEST returns the signed statement; KS_ERASE empties an occupied slot and is
SLOT_EMPTY for another; a blob that does not open is BLOB_INVALID. (R175, R186, R189, R190, R192) -/
def Obligations.KeyStoreOperationsTakeEffect : Prop :=
  (∀ (s : State) (c : Fin 16) (o : PkeOp), s.core c = some o → beAt o.block 0 1 = 0x30 → (o.outcome = none ∧ kclkRuns s = true) → exec (.ksImport c) s = .next (match openBlob (o.block.drop 16) with
        | none => s.setCore c (some { o with outcome := some (0x0A, []) })
        | some k =>
          if (s.pke.slots.get (cmdHead o.block).slot).isSome = true then s.setCore c (some { o with outcome := some (0x14, []) })
          else (pmcEvent 6 0x07 16 1 (fillSlot 0x3C02 (cmdHead o.block).slot k o.requester s)).setCore c
            (some { o with outcome := some (0, if beAt o.block 16 2 = 2 then blobD k else []) })))
  ∧ (∀ (s : State) (c : Fin 16) (o : PkeOp) (k : KeySlot × State), s.core c = some o → beAt o.block 0 1 = 0x31 → (o.outcome = none ∧ kclkRuns s = true) → s.pke.slots.get (cmdHead o.block).slot = none → k = drawKey ((cmdHead o.block).xarg % 256) ((cmdHead o.block).xarg / 256 % 256) 2 s → exec (.ksGenerate c) s = .next ((pmcEvent 6 0x07 16 1 (fillSlot 0x3C03 (cmdHead o.block).slot k.1 o.requester k.2)).setCore c (some { o with outcome := some (0, k.1.pub ++ blobD k.1) })))
  ∧ (∀ (s : State) (c : Fin 16) (o : PkeOp), s.core c = some o → beAt o.block 0 1 = 0x31 → (o.outcome = none ∧ kclkRuns s = true) → (s.pke.slots.get (cmdHead o.block).slot).isSome = true → exec (.ksGenerate c) s = .next (s.setCore c (some { o with outcome := some (0x14, []) })))
  ∧ (∀ (s : State) (c : Fin 16) (o : PkeOp) (k : KeySlot), s.core c = some o → beAt o.block 0 1 = 0x32 → (o.outcome = none ∧ kclkRuns s = true) → o.key = some k → exec (.ksPublic c) s = .next ((pmcEvent 6 0x07 16 1 s).setCore c
        (some { o with outcome := some (0, k.pub ++ (if (cmdHead o.block).slot = 511 then Config.attestChain else [])) })))
  ∧ (∀ (s : State) (c : Fin 16) (o : PkeOp), s.core c = some o → beAt o.block 0 1 = 0x32 → (o.outcome = none ∧ kclkRuns s = true) → o.key = none → exec (.ksPublic c) s = .next (s.setCore c (some { o with outcome := some (0x13, []) })))
  ∧ (∀ (s : State) (c : Fin 16) (o : PkeOp) (k : KeySlot) (body : Bytes) (r : Option (Nat × Nat) × State), s.core c = some o → beAt o.block 0 1 = 0x33 → (o.outcome = none ∧ kclkRuns s = true) → o.key = some k → body = attestBody s (cmdHead o.block).slot k (opnd o.block 0 32) → r = attestSign (sha384 body) s → exec (.ksAttest c) s = .next ((pmcEvent 6 0x07 16 1 r.2).setCore c
        (some { o with outcome := some (match r.1 with | some (a, b) => (0, body ++ natBE 48 a ++ natBE 48 b) | none => (6, [])) })))
  ∧ (∀ (s : State) (c : Fin 16) (o : PkeOp), s.core c = some o → beAt o.block 0 1 = 0x34 → (o.outcome = none ∧ kclkRuns s = true) → (s.pke.slots.get (cmdHead o.block).slot).isSome = true → exec (.ksErase c) s = .next ((pmcEvent 6 0x07 16 1 (eraseSlot (cmdHead o.block).slot o.requester s)).setCore c (some { o with outcome := some (0, []) })))
  ∧ (∀ (s : State) (c : Fin 16) (o : PkeOp), s.core c = some o → beAt o.block 0 1 = 0x34 → (o.outcome = none ∧ kclkRuns s = true) → s.pke.slots.get (cmdHead o.block).slot = none → exec (.ksErase c) s = .next (s.setCore c (some { o with outcome := some (0x13, []) })))

/-- A free, usable core takes the next command: of the host on a reserved core while one waits, else of the service processors, else of the host while fewer
than HOSTCORES run; an operation that has run its duration is scrubbed from its core and its outcome goes to its owner; an abort ends the operations of the
rings written. (R172, R173, R176, R181, R182) -/
def Obligations.ClusterCommandsTakeEffect : Prop :=
  (∀ (s : State) (c : Fin 16), (usableCores s).contains c = true → s.core c = none → kclkRuns s = true → (let reserved := ((enabledCores s).take (s.get F.PKE_CFG_HOSTRES)).contains c
      let running := (allCores.filter (fun c => (s.core c).any PkeOp.host)).length
      let bars := fun (b : Bytes) => needsRng (cmdHead b).op && rngFailed s
      let host := fun (k : Nat) (x : HostCmd) =>
        let a := modCmd k x.seq (fun y => { y with running := true }) s
        let b := { a with pke := { a.pke with turn := (k + 1) % 8 } }
        let d := showCores (b.setCore c (some ⟨.host k x.seq, x.block, x.key, none, b.now⟩))
        pmcEvent 6 0x02 c 1 d
      (∀ k x, (reserved = true ∨ (s.pke.spuQueue = [] ∧ running < s.get F.PKE_CFG_HOSTCORES)) → nextHost s = some (k, x) → bars x.block = false →
        exec (.pkeDispatch c) s = .next (host k x))
      ∧ (∀ k x, (reserved = true ∨ (s.pke.spuQueue = [] ∧ running < s.get F.PKE_CFG_HOSTCORES)) → nextHost s = some (k, x) → bars x.block = true →
        exec (.pkeDispatch c) s = .next (endHost k x.seq 0x17 [] (s.now + 100) (irqSet 16 A.PKE_IRQ_STAT 1 (pmcEvent 6 0x05 0 1 s))))
      ∧ (∀ o rest, (reserved = false ∨ nextHost s = none) → s.pke.spuQueue = o :: rest → bars o.block = false → exec (.pkeDispatch c) s = .next (
        let b := { s with pke := { s.pke with spuQueue := rest } }
        pmcEvent 6 0x02 c 1 (showCores (b.setCore c (some { o with start := b.now })))))
      ∧ (s.pke.spuQueue = [] → nextHost s = none → exec (.pkeDispatch c) s = .next s)))
  ∧ (∀ (s : State) (c : Fin 16) (o : PkeOp) (r : Nat × Bytes), s.core c = some o → o.outcome = some r → kclkRuns s = true → o.start + 2 * o.duration ≤ s.now → exec (.pkeOpComplete c) s = .next (
        let u := scrub c s
        let v := if r.1 ≠ 0 ∧ r.1 < 0x10 then pmcEvent 6 0x04 c 1 u else u
        match o.owner with
        | .host k seq => endHost k seq r.1 r.2 v.now v
        | .session id => sessionStep id r.1 r.2 (countDone false r.1 v)
        | .seal seg => sealStep seg r.1 o r.2 (countDone false r.1 v)))
  ∧ (∀ (s : State) (v : BitVec 8), Admits s → domainOn s 9 = true → exec (.pkeAbort v) s = .next ((List.range 8).foldl (fun (t : State) (k : Nat) => if v.getLsbD k then abortRing k t else t) (countAccess .mw0 s)))

/-- With a root key, a derivation sets the held epochs; a new epoch is shown, derived, recorded and raises its interrupt; a failed entropy source sets NORNG,
raises its interrupt and fault; a recovered one clears it and draws the client keys anew where they were derived. (R144, R145, R146, R169,
06_nts_service.md) -/
def Obligations.NtsKeyCommandsTakeEffect : Prop :=
  (∀ (s : State), s.crl.root.isSome = true → exec .ntsKeyDerive s = .next { s with crl := { s.crl with held := heldEpochs s s.datum } })
  ∧ (∀ (s : State), s.get F.CRL_NTS_EPOCH_EPOCH ≠ epochOf s s.datum → exec .ntsEpoch s = .next (
        let u := s.set F.CRL_NTS_EPOCH_EPOCH (epochOf s s.datum)
        let v := if u.crl.root.isSome then { u with crl := { u.crl with held := heldEpochs u u.datum } } else u
        record 0x3001 (epochOf s s.datum) 0 0 0 (irqSet 15 A.CRL_NTS_IRQ_STAT 0 v)))
  ∧ (∀ (s : State), rngFailed s = false → exec .rngFail s = .next (faultSend .rngFail 18 0 0 0 (pmcEvent 5 0x06 18 1 (irqSet 15 A.CRL_NTS_IRQ_STAT 3 (s.set F.CRL_NTS_STAT_NORNG 1)))))
  ∧ (∀ (s : State), rngFailed s = true → (let u := s.set F.CRL_NTS_STAT_NORNG 0
      (u.svp.keysDerived = false → exec .rngRecover s = .next u)
      ∧ (u.svp.keysDerived = true → exec .rngRecover s = .next (let t := drawClientKeys u; { t with svp := { t.svp with keysDerived := false } }))))

/-- A SYN that a pipeline delivered opens a session, or is counted as refused; octets that end no record wait; a whole ClientHello is answered by the first
suite, certificate and group that fit, by a retry, or by an alert; a KeyUpdate moves the keys of the client on, and the server's where it asks; a request
is answered by its row of R154 and the session closed, or waits for a lane to seal its cookies; a session ends at its timeout or at its close; an old
certificate raises the alarm once a day. (R23, R151, R152, R153, R154, R155, R156, R157, R159, R160, 06_nts_service.md) -/
def Obligations.KeyEstablishmentCommandsTakeEffect : Prop :=
  (∀ (s : State) (sa : Fin 272) (e : Nat × PlItem), s.ke.segments.find? (fun e => decide (e.1 = sa.val) && isSyn e.2) = some e → halted s = false → (let u := { s with ke := { s.ke with segments := s.ke.segments.erase e } }
      (answering u = false → exec (.ntskeSyn sa) s = .next u)
      ∧ (answering u = true → (∀ n, n < 4 → certValid u n = false) → exec (.ntskeSyn sa) s = .next (keCount 6 1 u))
      ∧ (∀ n, answering u = true → n < 4 → certValid u n = true → u.ke.sessions.any (fun x => x.owns sa e.2) = true → exec (.ntskeSyn sa) s = .next u)
      ∧ (∀ n, answering u = true → n < 4 → certValid u n = true → u.ke.sessions.any (fun x => x.owns sa e.2) = false → u.get F.SPU_KE_CFG_MAXSESS ≤ u.ke.sessions.length →
          exec (.ntskeSyn sa) s = .next (keCount 5 1 u))
      ∧ (∀ n, answering u = true → n < 4 → certValid u n = true → u.ke.sessions.any (fun x => x.owns sa e.2) = false → u.ke.sessions.length < u.get F.SPU_KE_CFG_MAXSESS →
          exec (.ntskeSyn sa) s = .next (showSessions { u with ke := { u.ke with
            sessions := u.ke.sessions ++ [KeSession.start u.ke.nextId e.2.port sa (segmentPeer e.2) u.now], nextId := u.ke.nextId + 1 } }))))
  ∧ (∀ (s : State) (id : Nat) (b : Bytes) (x : KeSession), s.session id = some x → halted s = false → (x.stream ++ b).length < 5 → (let seen := { s with ke := { s.ke with segments := s.ke.segments.filter (fun e => isSyn e.2 || !(x.owns e.1 e.2)) } }
      (x.phase = 0 → exec (.tlsClientHello id b) s = .next (putSession { x with stream := x.stream ++ b } seen))
      ∧ (x.finished = true → exec (.tlsKeyUpdate id b) s = .next (putSession { x with stream := x.stream ++ b } seen))))
  ∧ (∀ (s : State) (id : Nat) (m : Bytes) (x : KeSession) (h : Hello), s.session id = some x → halted s = false → x.phase = 0 → x.stream = [] → x.part = [] → beAt m 0 1 = 1 → 4 ≤ m.length → m.length = 4 + beAt m 1 3 → m.length ≤ 16384 → parseHello (m.drop 4) = .ok h → (let b := tlsHead 22 m.length ++ m
      let seen := { s with ke := { s.ke with segments := s.ke.segments.filter (fun e => isSyn e.2 || !(x.owns e.1 e.2)) } }
      let t := putSession { x with stream := b } seen
      let cert := ([0, 1, 2, 3] : List Nat).find? (fun n => certValid t n && h.schemes.contains (t.get (F.SPU_KE_CERT_SCHEME n)))
      let suite := (if x.retried then [x.suite] else suiteOrder t).find? (fun u => h.suites.contains u)
      let group := (if x.retried then [x.group] else groupOrder t).find? (fun g => h.shares.any (fun e => decide (e.1 = g)))
      let other := (if x.retried then [x.group] else groupOrder t).find? (fun g => h.groups.contains g)
      let alpn := h.alpn.contains (label "ntske/1")
      (alpn = false → exec (.tlsClientHello id b) s = .next (keAlert id 120 t))
      ∧ (alpn = true → (suite = none ∨ cert = none) → exec (.tlsClientHello id b) s = .next (keAlert id 40 t))
      ∧ (∀ u n g k, alpn = true → suite = some u → cert = some n → group = some g →
          shareKey g (((h.shares.find? (fun e => decide (e.1 = g))).map (·.2)).getD []) = some k →
          exec (.tlsClientHello id b) s = .next (
            let y : KeSession := { x with phase := 1, suite := u, group := g, cert := n, share := k, legacy := h.legacy, transcript := x.transcript ++ m, early := if h.early then 16384 else x.early }
            spuRequest (.session id) (keygenBlock g) none (putSession y t)))
      ∧ (∀ u n g, alpn = true → suite = some u → cert = some n → group = some g →
          shareKey g (((h.shares.find? (fun e => decide (e.1 = g))).map (·.2)).getD []) = none → exec (.tlsClientHello id b) s = .next (keAlert id 47 t))
      ∧ (∀ u n g, alpn = true → suite = some u → cert = some n → group = none → other = some g → x.retried = false →
          exec (.tlsClientHello id b) s = .next (
            let q := serverHello retryRandom h.legacy u (natBE 2 (groupName g))
            let y : KeSession := { x with retried := true, suite := u, group := g, legacy := h.legacy, transcript := handshake 254 (tlsHash u m) ++ q, early := if h.early then 16384 else 0 }
            let r := tlsSend y 22 q t
            if h.legacy = [] then r.2 else (tlsSend r.1 20 [1] r.2).2))
      ∧ (∀ u n, alpn = true → suite = some u → cert = some n → group = none → (other = none ∨ x.retried = true) →
          exec (.tlsClientHello id b) s = .next (keAlert id 40 t))))
  ∧ (∀ (s : State) (id : Nat) (c : Bytes) (a : Byte) (x : KeSession), s.session id = some x → halted s = false → x.finished = true → 4 ≤ x.phase → x.stream = [] → x.part = [] → c.length ≤ 16640 → gcmOpen (x.rx.key x.suite) (x.rx.nonce x.suite) (tlsHead 23 c.length) c = some [24, 0, 0, 1, a, 22] → (let b := tlsHead 23 c.length ++ c
      let seen := { s with ke := { s.ke with segments := s.ke.segments.filter (fun e => isSyn e.2 || !(x.owns e.1 e.2)) } }
      let t := putSession { x with stream := b } seen
      let y : KeSession := { x with rx := ⟨tlsDerive x.suite x.rx.secret "traffic upd" [], 0⟩ }
      (1 < a.toNat → exec (.tlsKeyUpdate id b) s = .next (keAlert id 47 t))
      ∧ (a.toNat ≤ 1 → (a.toNat = 0 ∨ x.phase = 5) → exec (.tlsKeyUpdate id b) s = .next (putSession y t))
      ∧ (a.toNat = 1 → x.phase ≠ 5 → exec (.tlsKeyUpdate id b) s = .next (
          let r := tlsSend y 22 (handshake 24 [0]) t
          putSession { r.1 with tx := ⟨tlsDerive x.suite x.tx.secret "traffic upd" [], 0⟩ } r.2))))
  ∧ (∀ (s : State) (id : Nat) (b : Bytes) (closed : Bool) (x : KeSession), s.session id = some x → halted s = false → x.phase = 4 → (let t := tlsInput x b closed s
      (t.session id = none → exec (.ntskeRequest id ⟨b, closed⟩) s = .next (lanesRun t))
      ∧ ∀ y, t.session id = some y →
        (y.finished = false → y.closed = true → exec (.ntskeRequest id ⟨b, closed⟩) s = .next (lanesRun (dropSession id t)))
        ∧ (y.finished = false → y.closed = false → exec (.ntskeRequest id ⟨b, closed⟩) s = .next (lanesRun t))
        ∧ (y.finished = true → keVerdict y.data y.closed t = .wait → exec (.ntskeRequest id ⟨b, closed⟩) s = .next (lanesRun t))
        ∧ (∀ code, y.finished = true → keVerdict y.data y.closed t = .error code → exec (.ntskeRequest id ⟨b, closed⟩) s = .next (lanesRun (
            let r := tlsSend y 23 (keError code) (keCount 2 1 t)
            (tlsSend { r.1 with phase := 5, secret := [], data := [] } 21 [1, 0] r.2).2)))
        ∧ (∀ q, y.finished = true → keVerdict y.data y.closed t = .empty q → exec (.ntskeRequest id ⟨b, closed⟩) s = .next (lanesRun (
            let r := tlsSend y 23 q (keCount 1 1 t)
            (tlsSend { r.1 with phase := 5, secret := [], data := [] } 21 [1, 0] r.2).2)))
        ∧ (y.finished = true → keVerdict y.data y.closed t = .full → exec (.ntskeRequest id ⟨b, closed⟩) s = .next (lanesRun (
            let u := putSession { y with phase := 6, data := [] } t
            { u with ke := { u.ke with sealing := u.ke.sealing ++ [id] } })))))
  ∧ (∀ (s : State) (id : Nat) (x : KeSession), s.session id = some x → x.phase ≠ 5 → x.since + secPeriods * s.get F.SPU_KE_CFG_TIMEOUT ≤ s.now → halted s = false → exec (.ntskeSessionTimeout id) s = .next ((keCount 4 1 (abortSession id (dropSession id s))).emit (.tls id [])))
  ∧ (∀ (s : State) (id : Nat) (x : KeSession), s.session id = some x → x.phase = 5 → halted s = false → exec (.ntskeSessionEnd id) s = .next (dropSession id s))
  ∧ (∀ (s : State), exec .certExpiry s = .next (([0, 1, 2, 3] : List Nat).foldl (fun s n =>
        if certAged s n && decide (s.ke.expiryDay.get n ≠ some (utcSeconds s / 86400).toNat) then
          record 0x4002 0 0 0 0 (alarmRaise 4 { s with ke := { s.ke with expiryDay := s.ke.expiryDay.put n (utcSeconds s / 86400).toNat } })
        else s) s))

/-- A header that passes leaves its slot for the body, one that fails rejects it; a body with a bad section, a bad signature or a bad key is rejected, else
BOOT goes on; a slot that took longer than its limit is rejected; the self tests are answered and firmware starts; the records are applied and checked; the
keys are loaded; the certificates and PTP masters are loaded and checked; at the end writes open and BOOT is over; DRAM training done resumes the journal;
a write of SYS_FL_CTL with GO starts a read, a program or an erase, as its OP says, and a failed operation shows FLASH and leaves free bytes where it had
begun to change them (assumption log 5). (R341, R345, R346, R348, R349, R350, R352, R353, R354, R355, R357, R394) -/
def Obligations.BootCommandsTakeEffect : Prop :=
  (∀ (s : State) (rd : Bool) (k : Nat) (rest : List Nat), booting s .header = true → s.sys.boot.headers = k :: rest → exec (.bootSlotHeader rd) s = .next (if slotHeader rd s k = 0 then
          bootNext (s.setBoot { s.sys.boot with headers := rest, bodies := seqOrder s (s.sys.boot.bodies ++ [k]) })
        else bootReject k (slotHeader rd s k) 0 (s.setBoot { s.sys.boot with headers := rest })))
  ∧ (∀ (s : State) (k : Nat), booting s .body = true → s.sys.boot.slot = some k → exec .bootSlotBodyRead s = .next (match badSection s k with | some x => bootReject k 6 x.tag s | none => bootStage .signatures s))
  ∧ (∀ (s : State) (k : Nat), booting s .signatures = true → s.sys.boot.slot = some k → (let u := if otpOpen s then record 0x000A 0 0 0 0 (s.set F.SYS_BOOT_STAT_OPEN 1) else s
      exec .bootSignatureVerify s = .next (if sigzGood s k = false then bootReject k 7 0 s
        else if custkeyGood u k = true ∧ sigcGood u k = true then bootStage .firmware u else bootReject k 8 0 u)))
  ∧ (∀ (s : State) (k : Nat), s.sys.boot.slot = some k → inBoot s = true → s.sys.boot.stage ≠ .ended → s.sys.boot.stage ≠ .header → s.sys.boot.since + bootLimit ≤ s.now → exec .bootTimeout s = .next (
        let t := (resetDomains s).set (if k = 0 then F.SYS_BOOT_STAT_RESA else F.SYS_BOOT_STAT_RESB) 9
        bootNext (record 0x000B k 9 0 0 ({ t with sys := { t.sys with clamps := [] } }.set F.SYS_CLAMP_CNT_COUNT 0))))
  ∧ (∀ (s : State) (l : BitVec 18) (c : BitVec 16) (r : Bool), inBoot s = true → s.sys.boot.stage ≠ .ended → (let u := entropyTest r (answerTests .coreFail 16 c.toNat (answerTests .laneFail 18 l.toNat s))
      (u.sys.boot.stage = .firmware → exec (.bootFirmwareStart l c r) s = .next (bootStage .regs (loadFirmware u)))
      ∧ (u.sys.boot.stage ≠ .firmware → exec (.bootFirmwareStart l c r) s = .next u)))
  ∧ (∀ (s : State) (k : Nat), booting s .regs = true → s.sys.boot.slot = some k → exec .bootRegsApply s = .next (
        let u := sectionClamps k s [] (sections s k)
        let r := (regRecords (valueOf u k 0x0200)).foldl (applyRecord k) (u, [])
        bootStage .keys (imageInForce (r.2.foldl (fun (s : State) (e : Nat × Nat) => checkReg k e.1 s) r.1))))
  ∧ (∀ (s : State), booting s .keys = true → exec .bootKeysLoad s = .next (let u := deriveReserved s
        match u.sys.boot.slot with
        | some k =>
          let b := valueOf u k 0x0201
          let es := lengthEntries b.length (b.drop 4)
          let c := countClamp k 0x0201 510 es.length b u
          bootStage .certs (crlRekey (generateRoot ((es.take c.1).foldl loadKey c.2)))
        | none => bootStage .finish (maskRom u)))
  ∧ (∀ (s : State) (k : Nat), booting s .certs = true → s.sys.boot.slot = some k → exec .bootCertsCheck s = .next (
        let b := valueOf s k 0x0202
        let es := lengthEntries b.length (b.drop 4)
        let c := countClamp k 0x0202 4 es.length b s
        let u := checkCerts ((es.take c.1).foldl (loadChain k) c.2)
        let p := valueOf u k 0x0203
        let d := countClamp k 0x0203 16 ((p.length - 4) / 24) p u
        let ms := (List.range d.1).map (fun j => slice p (4 + 24 * j) 24)
        bootStage .finish ([0, 1].foldl (mastersOver k ms) (ms.foldl (loadMaster k) d.2))))
  ∧ (∀ (s u v w : State), booting s .finish = true → u = { s with sys := { s.sys with writesOpen := true, banksSet := true } } → v = (match s.sys.boot.slot with | some k => (((u.set F.SYS_BOOT_STAT_SLOT k).set (if k = 0 then F.SYS_BOOT_STAT_RESA else F.SYS_BOOT_STAT_RESB) 1).set F.SYS_BOOT_SEQ_SEQ (imgLE ((u.set F.SYS_BOOT_STAT_SLOT k).set (if k = 0 then F.SYS_BOOT_STAT_RESA else F.SYS_BOOT_STAT_RESB) 1) k 12 4)) | none => u) → w = v.set F.SYS_BOOT_TIME_TIME ((v.now - v.sys.releasedAt) / 1200000) → exec .bootEnd s = .next (
        let k := hkdf Config.deviceKey (instBytes w.datum) 32
        let x := if rngFailed w then { w with svp := { w.svp with key1 := beAt k 0 16, key2 := beAt k 16 16, keysDerived := true, table := [], cached := [], dirty := [] } } else drawClientKeys w
        let y := loadFallback x
        bootStage .ended (claimUpdate (refreshValues ((List.finRange 4).foldl (fun (s : State) (p : Fin 4) => showConflict s p) (spuSeedAll (tagSeedAll (pairsAtBootEnd y))))))))
  ∧ (∀ (s : State), powered s = true → s.on F.SYN_STAT_SYN0LOCK = true → s.on F.HMI_MEM_STAT_TRAINED = false → (let u := s.set F.HMI_MEM_STAT_TRAINED 1
      (u.fbk.resumed = false → exec .dramTrainingDone s = .next (chainResume u)) ∧ (u.fbk.resumed = true → exec .dramTrainingDone s = .next u)))
  ∧ (∀ (s : State) (p : Path) (v : Word), Admits s → (let u := countAccess p s
      let a := s.get F.SYS_FL_ADDR_ADDR
      ∀ c ∈ [(if fieldGet v 28 2 = 3 then 3 else 0, Instr.flashRead p v), (1, .flashProgram p v), (2, .flashErase p v)],
        let w := (u.set F.SYS_FL_CTL_OP c.1).set F.SYS_FL_CTL_ERR 0;
        (s.sys.flashOp.isSome = true → exec c.2 s = .next u)
        ∧ (s.sys.flashOp.isSome = false → flashPermitted s a = false →
            exec c.2 s = .next (record 0x0002 A.SYS_FL_CTL (fieldSet (v ||| 0x80000000) 28 2 c.1).toNat 3 (if p = .mw0 then 0 else 1) (w.set F.SYS_FL_CTL_ERR 1)))
        ∧ (s.sys.flashOp.isSome = false → flashPermitted s a = true → a % (if c.1 = 2 then 65536 else 256) ≠ 0 → exec c.2 s = .next (w.set F.SYS_FL_CTL_ERR 3))
        ∧ (s.sys.flashOp.isSome = false → flashPermitted s a = true → a % (if c.1 = 2 then 65536 else 256) = 0 → exec c.2 s = .next (
            let x := { w with sys := { w.sys with flashOp := some (if c.1 = 3 then 0 else c.1, a, if c.1 = 1 then flashBuffer w else []) } }.set F.SYS_FL_CTL_BUSY 1
            if c.1 = 2 ∧ a % slotSize = 0 then record 0x000D a 0 0 0 x else x))))
  ∧ (∀ (s u : State) (op a : Nat) (b : Bytes), s.sys.flashOp = some (op, a, b) → u = ({ s with sys := { s.sys with flashOp := none } }.set F.SYS_FL_CTL_BUSY 0).set F.SYS_FL_CTL_ERR 2 → exec (.flashOpDone true) s = .next (if op = 0 then u else flashScramble a (if op = 2 then 65536 else 256) u))

/-- For every canonical state: a completed erase leaves 0xFF in the 65,536 bytes of its sector and every other byte of the flash as it was; a completed program
gives every erased byte among its own the buffer's byte and leaves every byte outside its own as it was; a completed read leaves the flash as it was and
fills SYS_FL_BUF_W0 to W63 with the 256 bytes, low byte first. In each case BUSY reads 0, the operation is over, and no register changes but SYS_FL_CTL
and, for a read, the buffer. (R357) -/
def Obligations.FlashOperationsChangeOnlyTheirBytes : Prop :=
  (∀ (s : State) (a : Nat) (b : Bytes), Canonical s → s.sys.flashOp = some (2, a, b) → ∃ t, exec (.flashOpDone false) s = .next t ∧ t.sys.flashOp = none ∧ t.get F.SYS_FL_CTL_BUSY = 0
      ∧ (∀ x, flashByte t x = if a ≤ x ∧ x < a + 65536 then 0xFF else flashByte s x) ∧ ∀ r, r ≠ A.SYS_FL_CTL → t.rd r = s.rd r)
  ∧ (∀ (s : State) (a : Nat) (b : Bytes), Canonical s → s.sys.flashOp = some (1, a, b) → ∃ t, exec (.flashOpDone false) s = .next t ∧ t.sys.flashOp = none ∧ t.get F.SYS_FL_CTL_BUSY = 0
      ∧ (∀ x, ¬(a ≤ x ∧ x < a + b.length) → flashByte t x = flashByte s x)
      ∧ (∀ x, a ≤ x ∧ x < a + b.length → flashByte s x = 0xFF → flashByte t x = b.getD (x - a) 0xFF) ∧ ∀ r, r ≠ A.SYS_FL_CTL → t.rd r = s.rd r)
  ∧ (∀ (s : State) (a : Nat) (b : Bytes), Canonical s → s.sys.flashOp = some (0, a, b) → ∃ t, exec (.flashOpDone false) s = .next t ∧ t.sys.flashOp = none ∧ t.get F.SYS_FL_CTL_BUSY = 0 ∧ (∀ x, flashByte t x = flashByte s x)
      ∧ (∀ k, k < 64 → t.rd (A.SYS_FL_BUF k) = BitVec.ofNat 32 (leNat ((List.range 4).map (fun i => flashByte s (a + 4 * k + i)))))
      ∧ ∀ r, r ≠ A.SYS_FL_CTL → (∀ k, k < 64 → r ≠ A.SYS_FL_BUF k) → t.rd r = s.rd r)

/-- VIN lost takes a powered device to MONUMENT, recorded, where VAO is good and MONEN is 1, and else off; VIN good is shown and readies the release, or the
reset where PORST_N is low; VAO good shows and starts MONUMENT on a device that was off; VAO lost ends a mode that lived on it; VAOLOW is noted in
MONUMENT; PORST_N low resets at once, with the cause that it will have; a release is a power-on, reset or wake release; a wake source that is enabled is
latched in DORMANT. (R211, R360, R363, R365, R366, R368, R371, R373, R374, 16_modes_power_reset.md) -/
def Obligations.PowerCommandsTakeEffect : Prop :=
  (∀ (s u : State), s.on F.SYS_PWR_STAT_VINGOOD = true → u = s.set F.SYS_PWR_STAT_VINGOOD 0 → ((u.sys.phase = .off → exec .vinLost s = .next u)
      ∧ (u.sys.phase = .reset → u.on F.SYS_PWR_STAT_VAOGOOD = true ∧ u.on F.SYS_MODE_CFG_MONEN = true →
          exec .vinLost s = .next (shed true mMonument { u with sys := { u.sys with phase := .running } }))
      ∧ (u.sys.phase = .reset → u.on F.SYS_PWR_STAT_VAOGOOD = false ∨ u.on F.SYS_MODE_CFG_MONEN = false → exec .vinLost s = .next (powerOff u))
      ∧ (u.sys.phase = .running → u.mode = mDormant ∨ u.mode = mMonument → u.on F.SYS_PWR_STAT_VAOGOOD = true → exec .vinLost s = .next u)
      ∧ (u.sys.phase = .running → u.mode = mDormant ∨ u.mode = mMonument → u.on F.SYS_PWR_STAT_VAOGOOD = false → exec .vinLost s = .next (powerOff u))
      ∧ (u.sys.phase = .running → u.mode ≠ mDormant → u.mode ≠ mMonument → u.on F.SYS_PWR_STAT_VAOGOOD = true ∧ u.on F.SYS_MODE_CFG_MONEN = true →
          exec .vinLost s = .next (enterMonument u))
      ∧ (u.sys.phase = .running → u.mode ≠ mDormant → u.mode ≠ mMonument → u.on F.SYS_PWR_STAT_VAOGOOD = false ∨ u.on F.SYS_MODE_CFG_MONEN = false →
          exec .vinLost s = .next (powerOff u))))
  ∧ (∀ (s u v : State) (low : Bool), s.on F.SYS_PWR_STAT_VINGOOD = false → u = s.set F.SYS_PWR_STAT_VINGOOD 1 → v = { u with sys := { u.sys with porstLow := low, nextCause := (match u.sys.phase with | .running => if u.mode = mMonument then 3 else 2 | .off | .reset => 1) } } → ((low = false → exec (.vinGood low) s = .next v)
      ∧ (low = true → v.sys.phase = .off → exec (.vinGood low) s = .next { v with sys := { v.sys with phase := .reset } })
      ∧ (low = true → v.sys.phase ≠ .off → exec (.vinGood low) s = .next { stripped true v with sys := { (stripped true v).sys with phase := .reset, nextCause := v.sys.nextCause } })))
  ∧ (∀ (s u : State), s.on F.SYS_PWR_STAT_VAOGOOD = false → u = s.set F.SYS_PWR_STAT_VAOGOOD 1 → (u.sys.phase = .off ∧ u.on F.SYS_PWR_STAT_VINGOOD = false → exec .vaoGood s = .next (drainQueues (record 0x0004 (0xFF + 256 * mMonument) 0 0 0
          (shed true mMonument { u with sys := { u.sys with phase := .running } }))))
      ∧ (¬(u.sys.phase = .off ∧ u.on F.SYS_PWR_STAT_VINGOOD = false) → exec .vaoGood s = .next u))
  ∧ (∀ (s u : State), s.on F.SYS_PWR_STAT_VAOGOOD = true → u = { s with sys := { s.sys with vaoLow := false } }.set F.SYS_PWR_STAT_VAOGOOD 0 → exec .vaoLost s = .next (if u.sys.phase = .running ∧ (u.mode = mMonument ∨ u.mode = mDormant) ∧ u.on F.SYS_PWR_STAT_VINGOOD = false then powerOff u else u))
  ∧ (∀ (s : State), s.sys.phase = .running → s.mode = mMonument → exec .vaolow s = .next { s with sys := { s.sys with vaoLow := true } })
  ∧ (∀ (s : State), s.on F.SYS_PWR_STAT_VINGOOD = true → s.sys.phase ≠ .reset → exec .porstAssert s = .next (
        let c := if s.sys.phase = .off then 1 else if s.mode = mMonument then 3 else 2
        let t := stripped true s
        { t with sys := { t.sys with phase := .reset, porstLow := true, nextCause := c, wakeLatched := false } }.set F.SYS_PWR_STAT_ON 2))
  ∧ (∀ (s : State) (b : Fin 4) (un ms : Bool) (c : Nat), s.on F.SYS_PWR_STAT_VINGOOD = true → powered s = false → (s.sys.phase = .running ∧ s.mode = mDormant → s.sys.wakeLatched = true) → c = (if s.sys.phase = .running then (if s.mode = mMonument then 3 else 6) else s.sys.nextCause) → exec (.release b un ms) s = .next (
        let t := stripped true s
        let u := { t with sys := { t.sys with
          phase := .running, bootsel := b, unitId := un, mspiEn := ms, porstLow := false, wakeLatched := false
          releasedAt := t.now, ticks := 0, tickPhase := 0, autoRestarted := decide (c = 5)
          boot := { headers := slotOrder b, bodies := [], slot := none, since := t.now, stage := if b.val = 3 then .keys else .header } } }
        let v := (((u.set F.SYS_RST_CAUSE_CAUSE c).setB F.SYS_MODE_STAT_MONVALID (s.dtm.monHolds && true)).set F.SYS_BOOT_STAT_BOOTSEL b).setB F.SYS_ID_UNIT un
        let w := if b.val = 3 then v.set F.SYS_BOOT_STAT_SLOT 3 else v
        let x := if c = 5 then w else w.set F.SYS_MODE_STAT_ARCNT 0
        let y := if c = 6 then x.wr A.PRT_WAKE_STAT (s.rd A.PRT_WAKE_STAT) else x
        record 0x0004 (modeCode s) (if c = 6 then 7 else 5) (if (if c = 6 then 7 else 5) = 5 then c else 0) 0 y))
  ∧ (∀ (s : State), s.sys.phase = .running → s.mode = mDormant → s.sys.wakeLatched = false → (let taken := fun (src port n : Nat) =>
        let t := ((s.happen F.PRT_WAKE_STAT_SRC (fun _ => src)).happen F.PRT_WAKE_STAT_PORT (fun _ => port)).happen F.PRT_WAKE_STAT_PATTERN (fun _ => n)
        { t with sys := { t.sys with wakeLatched := true, nextCause := 6 } }
      (s.on F.PRT_WAKE_CFG_PINEN = true → exec (.wakeEvent .pin) s = .next (taken 1 0 0))
      ∧ ∀ (port : Fin 7) (b : Bytes), 4 ≤ port.val → fcsGood b = true → 64 ≤ b.length → b.length ≤ maxFrame s port →
        let magic := s.on F.PRT_WAKE_CFG_MAGICEN = true ∧ (s.get F.PRT_WAKE_CFG_MAGICPORTS).testBit (port.val - 4) = true ∧ magicMatch s b = true
        let fits := fun (n : Nat) => (s.get F.PRT_WAKE_CFG_PATEN).testBit n && (s.get (F.PRT_WAKEP_CTL_PORTS n)).testBit (port.val - 4) && patternMatch s n b
        (magic → exec (.wakeEvent (.frame port b false)) s = .next (taken 2 (port.val - 4) 0))
        ∧ (∀ n, ¬magic → (List.range 8).find? fits = some n → exec (.wakeEvent (.frame port b false)) s = .next (taken 3 (port.val - 4) n))))

/-- A tick of a powered device whose MCLK runs is a full tick, one in DORMANT, MONUMENT or reset is that of the always-on domain; the end of SURVEYMAX is
noted; SAFE restarts by itself at AUTORST, three times at most; a change of SYS_IOBANK loads the register, and a bank settles 2 ms later; a test
instruction is taken while VIN is good, one that drives the balls only in MAINT, and IDCODE leaves on TDO. (R26, R341, R368, R370, R375, R424, R427,
16_modes_power_reset.md, 20_package_balls.md) -/
def Obligations.SystemCommandsTakeEffect : Prop :=
  (∀ (s : State), (s.sys.tickPhase ≥ 1200000 →
        let z := { s with sys := { s.sys with tickPhase := 0 } }
        (powered s = true → mclkRuns s = true → exec .managementTick s = .next (
          let a := countTick z
          let b := if a.dtm.started then utcTick (domainsTick ([0, 1].foldl pcTick (monumentTick (benchTick a)))) else alwaysOnTick a
          refreshValues (claimUpdate (modeTick (modeClock (faultTick (dvlTick (xppsTick (synthTick (transitTick (traverseTick b)))))))))))
        ∧ (powered s = false → s.sys.phase ≠ .off → exec .managementTick s = .next (
          if z.dtm.monHolds then
            let w := boundStep { z with bm := { z.bm with ticks := z.bm.ticks + 1 } }
            { w with dtm := { w.dtm with monRate := monumentRate w 0 } }
          else z))))
  ∧ (∀ (s : State), s.mode = mSurvey → s.sys.phase = .running → s.get F.SYS_MODE_CFG_SURVEYMAX ≠ 0 → 1000 * s.get F.SYS_MODE_CFG_SURVEYMAX ≤ s.sys.modeTicks → exec .surveyTimeout s = .next { s with sys := { s.sys with surveyDone := true } })
  ∧ (∀ (s : State), s.mode = mSafe → s.sys.phase = .running → s.get F.SYS_MODE_CFG_AUTORST ≠ 0 → s.get F.SYS_MODE_STAT_ARCNT ≠ 3 → 60000 * s.get F.SYS_MODE_CFG_AUTORST ≤ s.sys.modeTicks → exec .safeAutorst s = .next (restart 6 5 (record 0x0006 (s.get F.SYS_MODE_STAT_ARCNT) (s.get F.SYS_MODE_CFG_AUTORST) 0 0 s)))
  ∧ (∀ (s : State) (v : Word) (p : Path), Admits s → denyReason (countAccess p s) A.SYS_IOBANK v = none → exec (.iobankChange p v) s = .next (
        let u := countAccess p s
        let w := loadLive p u (A.SYS_IOBANK, v)
        let x := keepHistory u.regs w
        let m := (List.range 7).foldl (fun m b => if bankField (u.rd A.SYS_IOBANK) b = bankField (x.rd A.SYS_IOBANK) b then m else m ||| 2 ^ b) 0
        if m = 0 then x else { x with sys := { x.sys with bankSettling := x.sys.bankSettling ||| m, bankAt := x.now } }))
  ∧ (∀ (s : State), s.sys.bankSettling ≠ 0 → s.sys.bankAt + 2400000 ≤ s.now → exec .iobankSettle s = .next { s with sys := { s.sys with bankSettling := 0 } })
  ∧ (∀ (s : State), s.on F.SYS_PWR_STAT_VINGOOD = true → (∀ x ∈ [(Instr.bypass, 0), (Instr.samplePreload, 2), (Instr.extest, 3), (Instr.extestPulse, 4), (Instr.extestTrain, 5), (Instr.highz, 6), (Instr.clamp, 7)],
        exec x.1 s = .next { s with sys := { s.sys with tap := if 3 ≤ x.2 ∧ ¬(s.sys.phase = .running ∧ s.mode = mMaint) then 0 else x.2 } })
      ∧ exec .idcode s = .next { s with sys := { s.sys with tap := 1 }, out := if s.sys.banksSet = true then .tdo (natLE 4 idcode) :: s.out else s.out })

/-- The fault manager judges the earliest waiting event; a patrol scrub applies what it found; an alarm acknowledgement and an end of interrupt act by their
bits; the next entry of the block queues is accepted, after a gap entry where the block lost entries; a signature is written to its seal; a period ends in
an early seal; the chain resumes once the DRAM is trained; FBK_SEAL, READSEG, READTAIL, MARK and HEAD end with their result, or with the status of the
check that failed. (R379, R380, R384, R385, R388, R390, R391, R394, R396, R414) -/
def Obligations.FaultAndBookCommandsTakeEffect : Prop :=
  (∀ (s t : State) (e : FaultEv) (rest : List FaultEv), eventOrder s = e :: rest → t = pmcEvent 0 0x03 0x80 1 { s with flt := { s.flt with queue := rest } } → (let c := faultClass e.code
      let b := t.bucket (bucketKey e)
      let w := classWindow t c
      let cross := (t.get (F.SYS_FLT_CFG_N c) - 1) * w < b.level + w
      let lasts := fun (r : Nat) (u : State) =>
        respond e r (faultWrite e true (alarmRaise 14 (pmcEvent 0 0x04 0x80 1 ((withGroup 0 (fun s => s.setBit A.SYS_FLT_LATCH c) u).addSat (F.SYS_FLT_CNT_COUNT c) 1))))
      (faultAtOnce e.code = true → exec .faultEvent s = .next (lasts 2 t))
      ∧ (faultAtOnce e.code = false → cross → exec .faultEvent s = .next (lasts (t.get (F.SYS_FLT_CFG_RESP c)) (t.setBucket (bucketKey e) { b with level := 0 })))
      ∧ (faultAtOnce e.code = false → ¬cross → exec .faultEvent s = .next (faultWrite e false (t.setBucket (bucketKey e) { b with level := b.level + w })))))
  ∧ (∀ (s : State), (exec (.patrolScrub .none) s = .next s
      ∧ (∀ sram n, exec (.patrolScrub (.single sram n)) s = .next (faultSend (if sram then .eccSramSbe else .eccDramSbe) n 0 0 0 s))
      ∧ ∀ sram n x, exec (.patrolScrub (.double sram n x)) s = .next (faultSend (if sram then .eccSramDbe else .eccDramDbe) n 0 0 0 (loseHeld x s))))
  ∧ (∀ (s : State) (v : Word), Admits s → exec (.alarmAck v) s = .next ([10, 11, 15].foldl (fun (s : State) n => if v.getLsbD n && !(s.flt.raised.testBit n) then alarmClear n s else s) (countAccess .mw0 s)))
  ∧ (∀ (s : State) (v : Word), Admits s → exec (.irqEoi v) s = .next ((List.range 18).foldl (fun (s : State) g => if v.getLsbD g && groupEnabled s g then signalVector (32 + g) s else s) (countAccess .mw0 s)))
  ∧ (∀ (s u : State) (q : QEntry), firstHead (queueHeads [] s.fbk.queued) = some q → u = { s with fbk := { s.fbk with queued := s.fbk.queued.erase q } } → (let n := (u.fbk.lost.get q.block).getD 0
      let v := if n = 0 then u else acceptEntry { fbkEntry u 3 n 0 0 0 with src := srcBlock q.block } { u with fbk := { u.fbk with lost := u.fbk.lost.del q.block } }
      exec .fbkEntryAccept s = .next (acceptEntry (if v.dtm.started then q.entry else { q.entry with datum := v.recordTime }) v)))
  ∧ (∀ (s u : State) (seg : Nat) (sig : Bytes), s.fbk.sigs.get seg = some sig → u = { s with fbk := { s.fbk with sigs := s.fbk.sigs.del seg } } → ((u.fbk.segs.get seg = none → exec (.fbkSealSigned seg) s = .next u)
      ∧ ∀ x, u.fbk.segs.get seg = some x → exec (.fbkSealSigned seg) s = .next (
        let b : Seal := ⟨u.recordTime, sig.isEmpty, decide (0 < x.padCount), seg, u.get64 A.FBK_CHAINID_W0, x.hash, sig, x.padCount⟩
        let r := u.fbk.retained.map (fun (p : Nat × Entry) => if p.1 / 4096 = seg ∧ p.1 < unplaced then (inSealed, p.2) else p)
        let v := { u with fbk := { u.fbk with segs := u.fbk.segs.put seg { x with sealBlk := some b }, headHash := x.hash, headKept := true, retained := r, sigs := u.fbk.sigs.del seg } }
        deliver seg b.bytes ((v.set64 A.FBK_SEALED_W0 seg).setB F.FBK_STAT_SIGNOK (signOk v)))))
  ∧ (∀ (s u : State), s.get F.FBK_CFG_SEALPER ≠ 0 → s.get F.FBK_CFG_SEALPER * 60000 < s.fbk.sealTicks → u = { s with fbk := { s.fbk with sealTicks := s.fbk.sealTicks - s.get F.FBK_CFG_SEALPER * 60000 } } → ((journalReady u = true → u.fbk.openSeg ≠ [] → exec .fbkSealPeriod s = .next (
          let n := 4096 - u.fbk.openSeg.length
          fbkShow (padSegment n n u)))
      ∧ (journalReady u = false ∨ u.fbk.openSeg = [] → exec .fbkSealPeriod s = .next u)))
  ∧ (∀ (s u : State) (cause : Nat) (again : List Entry), s.fbk.resumed = false → s.on F.HMI_MEM_STAT_TRAINED = true → again = (s.fbk.retained.filter (fun p => decide (p.1 ≠ inSealed))).map (·.2) → cause = (s.rd A.SYS_RST_CAUSE).toNat → u = { s with fbk := { s.fbk with resumed := true, openSeg := [], openUndelivered := false, retained := s.fbk.retained.filter (fun p => decide (p.1 = inSealed)), segs := [] } } → ((s.fbk.headKept = true → exec .fbkChainResume s = .next (
          let sealed := s.get64 A.FBK_SEALED_W0
          let v := { u with fbk := { u.fbk with prevHash := u.fbk.headHash } }.set64 A.FBK_NEXT_W0 (if sealed = 2 ^ 64 - 1 then 0 else (sealed + 1) * 4096)
          let e := fbkEntry v 2 v.fbk.openLost (s.fbk.retained.filter (fun p => decide (p.1 < unplaced))).length cause 0
          fbkShow (journalAll (e :: again) v)))
      ∧ (s.fbk.headKept = false → exec .fbkChainResume s = .next (
          let d := u.draw 64
          let v := { d.2 with fbk := { d.2.fbk with prevHash := zeros 48, headHash := zeros 48, headKept := true } }
          let w := ((v.set64 A.FBK_CHAINID_W0 d.1).set64 A.FBK_SEALED_W0 (2 ^ 64 - 1)).set64 A.FBK_NEXT_W0 0
          fbkShow (journalAll (fbkEntry w 1 cause 0 0 0 :: again) w)))))
  ∧ (∀ (s : State) (k : Fin 8) (c : HostCmd), fbkFront s k = some c → beAt c.block 0 1 = 0x40 → ((fbkCheck c 16 (8) ≠ 0 → exec (.fbkSeal k) s = .next (fbkEnd k c (fbkCheck c 16 (8)) [] s))
      ∧ (fbkCheck c 16 (8) = 0 → exec (.fbkSeal k) s = .next (fbkEnd k c 0 (natLE 8 (fbkNext s / 4096)) (sealEarly s)))))
  ∧ (∀ (s : State) (k : Fin 8) (c : HostCmd) (x : EccHit), fbkFront s k = some c → beAt c.block 0 1 = 0x41 → ((fbkCheck c 16 (131264) ≠ 0 → exec (.fbkReadseg k x) s = .next (fbkEnd k c (fbkCheck c 16 (131264)) [] s))
      ∧ (fbkCheck c 16 (131264) = 0 → exec (.fbkReadseg k x) s = .next (let g := leAt c.block 8 8
          let u := if segStatus s g = 0 then eccApply x s else s
          fbkEnd k c (segStatus s g) (segBytes u g) u))))
  ∧ (∀ (s : State) (k : Fin 8) (c : HostCmd), fbkFront s k = some c → beAt c.block 0 1 = 0x42 → ((fbkCheck c 16 (32 * s.fbk.retained.length) ≠ 0 → exec (.fbkReadtail k) s = .next (fbkEnd k c (fbkCheck c 16 (32 * s.fbk.retained.length)) [] s))
      ∧ (fbkCheck c 16 (32 * s.fbk.retained.length) = 0 → exec (.fbkReadtail k) s = .next (fbkEnd k c 0 (s.fbk.retained.flatMap (fun p => p.2.bytes)) s))))
  ∧ (∀ (s : State) (k : Fin 8) (c : HostCmd), fbkFront s k = some c → beAt c.block 0 1 = 0x43 → ((fbkCheck c 24 (8) ≠ 0 → exec (.fbkMark k) s = .next (fbkEnd k c (fbkCheck c 24 (8)) [] s))
      ∧ (fbkCheck c 24 (8) = 0 → exec (.fbkMark k) s = .next (fbkEnd k c 0 (natLE 8 (fbkNext s))
          (acceptEntry (fbkEntry s 4 (leAt c.block 8 4) (leAt c.block 12 4) (leAt c.block 16 4) (leAt c.block 20 4)) s)))))
  ∧ (∀ (s : State) (k : Fin 8) (c : HostCmd), fbkFront s k = some c → beAt c.block 0 1 = 0x44 → ((fbkCheck c 16 (72) ≠ 0 → exec (.fbkHead k) s = .next (fbkEnd k c (fbkCheck c 16 (72)) [] s))
      ∧ (fbkCheck c 16 (72) = 0 → exec (.fbkHead k) s = .next (fbkEnd k c 0 (natLE 8 (s.get64 A.FBK_CHAINID_W0) ++ natLE 8 (s.get64 A.FBK_SEALED_W0) ++ s.fbk.headHash ++ natLE 8 (fbkNext s)) s))))

/-- For every canonical state that admits writes, whose system queue has room for the three records, and every value v: after ALARM_ACK with v, SYS_ALARM_STAT
bit n is cleared when n is 10, 11 or 15, v has the bit, and the alarm was not raised since the last tick; every other bit of SYS_ALARM_STAT stays. No other
register but those that events touch changes, and neither do the alarms raised since the tick and the faults that wait. (R385) -/
def Obligations.AcknowledgementClearsOnlyWhatMayBeAcknowledged : Prop :=
  ∀ (s : State) (v : Word), Admits s → Canonical s → (s.fbk.queued.filter (fun q => decide (q.block = 0))).length + 3 ≤ 64 → ∃ t, exec (.alarmAck v) s = .next t
      ∧ (∀ n, t.bit A.SYS_ALARM_STAT n = (s.bit A.SYS_ALARM_STAT n && !(decide (n = 10 ∨ n = 11 ∨ n = 15) && v.getLsbD n && !(s.flt.raised.testBit n))))
      ∧ ChangesOnly (fun _ => false) s t ∧ t.flt = s.flt

/-- A write of PMC_u_SELk loads it, stops the counter for two MCLK cycles and clears the counter unless PRESERVE is written 1; CLRALL clears every event
counter; SNAP takes a snapshot; the snapshot period does so when it ends; a permitted write of PMC_TAG_CFG loads it; an instruction run offered by a
processor that is sampled advances its generator, counts what it skipped and records a hit. (R397, R400, R403, R404, R406, R409,
18_performance_counters.md) -/
def Obligations.CounterCommandsTakeEffect : Prop :=
  (∀ (s : State) (u : Fin 13) (k : Fin 8) (v : Word), Admits s → exec (.pmcSelWrite u k v) s = .next (
        let x := regWrite (A.PMC_SEL u k) v (countAccess .mw0 s)
        let y := { x with pmc := { x.pmc with stopped := x.pmc.stopped.put (8 * u.val + k.val) (x.now + 24) } }
        if y.on (F.PMC_SEL_PRESERVE u k) then y else y.set64 (A.PMC_CTR_W0 u k) 0))
  ∧ (∀ (s : State), Admits s → exec (.pmcClearAll) s = .next ((List.range 13).foldl (fun (s : State) u => s.clear64s (A.PMC_CTR_W0 u 0) 8) (countAccess .mw0 s)))
  ∧ (∀ (s : State), Admits s → exec (.pmcSnapshot) s = .next ((
        let v := (countAccess .mw0 s)
        let a := v.wr A.PMC_SNAP_SEQ (BitVec.ofNat 32 ((v.rd A.PMC_SNAP_SEQ).toNat + 1))
        let b := irqSet 17 A.PMC_IRQ_STAT 14 { a with pmc := { a.pmc with page := pageBytes a } }
        if b.on F.PMC_CFG_SNAPREC then (List.range 13).foldl (fun (s : State) u => if (b.get F.PMC_USERMAP_UNIT).testBit u then pmcRecord (telemetry b u) s else s) b else b)))
  ∧ (∀ (s : State), s.get F.PMC_CFG_SNAPPER ≠ 0 → s.get F.PMC_CFG_SNAPPER < s.pmc.snapTicks → exec .pmcSnapPeriod s = .next (
        let v := { s with pmc := { s.pmc with snapTicks := s.pmc.snapTicks - s.get F.PMC_CFG_SNAPPER } }
        let a := v.wr A.PMC_SNAP_SEQ (BitVec.ofNat 32 ((v.rd A.PMC_SNAP_SEQ).toNat + 1))
        let b := irqSet 17 A.PMC_IRQ_STAT 14 { a with pmc := { a.pmc with page := pageBytes a } }
        if b.on F.PMC_CFG_SNAPREC then (List.range 13).foldl (fun (s : State) u => if (b.get F.PMC_USERMAP_UNIT).testBit u then pmcRecord (telemetry b u) s else s) b else b))
  ∧ (∀ (s : State) (v : Word), Admits s → denyReason (countAccess .mw0 s) A.PMC_TAG_CFG v = none → (let u := countAccess .mw0 s
      let w := keepHistory u.regs (loadLive .mw0 u (A.PMC_TAG_CFG, v))
      (w.on F.PMC_TAG_CFG_EN = false → exec (.tagEnable v) s = .next w)
      ∧ (w.on F.PMC_TAG_CFG_EN = true → exec (.tagEnable v) s = .next ((List.finRange 4).foldl (fun (s : State) (n : Fin 4) =>
          let x := tagSeed s
          { x.2 with pmc := { x.2.pmc with lfsr := x.2.pmc.lfsr.set n x.1 } }) w))))
  ∧ (∀ (s u : State) (spu : Fin 8) (offered : Nat) (source : Fin 4) (stall : Fin 5) (pc fetch issue ex k : Nat) (r : Nat × Nat), s.on F.PMC_SPU_CFG_EN = true → (s.get F.PMC_SPU_CFG_SPUS).testBit spu = true → k = s.get F.PMC_SPU_CFG_K → r = lfsrRun k offered s.pmc.spuLfsr[spu] 0 → u = pmcEvent 7 0x02 spu offered { s with pmc := { s.pmc with spuLfsr := s.pmc.spuLfsr.set spu r.1 } } → 0 < offered → ((r.1 % 2 ^ k ≠ 0 → exec (.spuInstructionTag spu offered source stall pc fetch issue ex) s =
          .next (if r.2 = 0 then u else irqSet 17 A.PMC_IRQ_STAT 15 (u.addSat F.PMC_TAG_SKIP_CNT_COUNT r.2)))
      ∧ (r.1 % 2 ^ k = 0 → exec (.spuInstructionTag spu offered source stall pc fetch issue ex) s =
          .next (pmcRecord (spuRecord spu source stall pc fetch issue ex)
            (if r.2 - 1 = 0 then u else irqSet 17 A.PMC_IRQ_STAT 15 (u.addSat F.PMC_TAG_SKIP_CNT_COUNT (r.2 - 1)))))))

/-- When the device admits writes, for every path and every compare unit that the pair does not own and that does not fire on the edge of the write: the commit
(CMP_COMMIT, the write of TGT_W0) where the NS of the target or of the period, as the copies of the path or the registers hold it, is 1,000,000,000 or more
answers a next state in which BADVAL of the unit is 1, every other bit of its CTL (EN and ARMED among them) is as before, and every register but that CTL
and those that counted accesses touch, the target and the period among them, is as before. (R46) -/
def Obligations.RefusedCommitKeepsTheUnitAndSetsBadval : Prop :=
  ∀ (s : State) (p : Path) (n : Fin 16) (w0 : Word), Admits s → Canonical s → cmpOwned s n = false → cmpDue (countAccess p s) n = false →
    (1000000000 ≤ (s.copyOr p (A.DTM_CMP_TGT_W0 n + 4)).toNat % 2 ^ 30 ∨ 1000000000 ≤ (s.copyOr p (A.DTM_CMP_PER_W0 n + 4)).toNat % 2 ^ 30) →
    ∃ t, exec (.cmpCommit p n w0) s = .next t ∧ t.on (F.DTM_CMP_CTL_BADVAL n) = true
      ∧ (∀ j, j ≠ (F.DTM_CMP_CTL_BADVAL n).lsb → t.bit (A.DTM_CMP_CTL n) j = s.bit (A.DTM_CMP_CTL n) j)
      ∧ (∀ a, a ≠ A.DTM_CMP_CTL n → eventReg a = false → t.rd a = s.rd a) ∧ t.dtm = s.dtm ∧ t.pending = s.pending

/-- For every state in which leap smear does not apply and every Datum value t: there is a count q of 2^-32 s such that q is nearest to t, a tie upward (q -
1/2 <= t / (2^-32 s) < q + 1/2), and the NTP timestamp of t has the seconds (floor of q / 2^32, less TAI-UTC, plus 2,208,988,800) modulo 2^32 and the
fraction q modulo 2^32; it has 64 bits and no era number. (R56) -/
def Obligations.NtpTimestampIsTheDatumRounded : Prop :=
  ∀ (s : State) (t : Instant), smearing s (s.leapAt t) = false →
    ∃ q : Nat, (2 * (q : Int) - 1) * secUnits ≤ 2 ^ 33 * (t : Int) ∧ 2 ^ 33 * (t : Int) < (2 * (q : Int) + 1) * secUnits
      ∧ ((ntpTime s t / 2 ^ 32 : Nat) : Int) = (((q / 2 ^ 32 : Nat) : Int) - ntpOffset (s.leapAt t) t + 2208988800) % 2 ^ 32
      ∧ ntpTime s t % 2 ^ 32 = q % 2 ^ 32 ∧ ntpTime s t < 2 ^ 64

/-- For every state: before the bank voltages are set ALARM_N is released; in a running device outside DORMANT and MONUMENT whose BK4 is set and settled,
ALARM_N is low exactly while SYS_ALARM_STAT AND SYS_ALARM_EN is not zero, and released otherwise, whatever the mode; and it goes low with the very change
that raises an enabled alarm. (R386) -/
def Obligations.AlarmPinFollowsTheEnabledAlarms : Prop :=
  (∀ s : State, s.sys.banksSet = false → pinAlarm s = .released)
  ∧ (∀ s : State, s.sys.phase = .running → s.mode ≠ mDormant → s.mode ≠ mMonument → s.sys.banksSet = true → s.sys.bankSettling.testBit 4 = false →
      (s.rd A.SYS_ALARM_STAT &&& s.rd A.SYS_ALARM_EN ≠ 0 → pinAlarm s = .low) ∧ (s.rd A.SYS_ALARM_STAT &&& s.rd A.SYS_ALARM_EN = 0 → pinAlarm s = .released))
  ∧ (∀ (s : State) (n : Nat), n < 32 → Canonical s → statusDriven s = true → s.bit A.SYS_ALARM_EN n = true → pinAlarm (alarmRaise n s) = .low)

/-- For every entry whose stored copy is readable, with a Datum value in range and fields of their widths: its bytes are 32; FRAC, NS and SEC of the Datum
value lie at offsets 0, 2 and 6, SOURCE at 12, CODE at 14, and ARG0 to ARG3 at 16, 20, 24 and 28, each little-endian; the Datum value is made up of the
three; and an entry with an uncorrectable error shows SOURCE and CODE 0xFFFE. (R43, R387, R396) -/
def Obligations.RecordIsThirtyTwoLittleEndianBytes : Prop :=
  (∀ e : Entry, e.datum < datumMod → e.src < 2 ^ 16 → e.code < 2 ^ 16 → e.a0 < 2 ^ 32 → e.a1 < 2 ^ 32 → e.a2 < 2 ^ 32 → e.a3 < 2 ^ 32 →
      e.bytes.length = 32
      ∧ (leAt e.bytes 6 6 * 1000000000 + leAt e.bytes 2 4) * 65536 + leAt e.bytes 0 2 = e.datum ∧ leAt e.bytes 2 4 < 1000000000
      ∧ (e.bad = false → leAt e.bytes 12 2 = e.src ∧ leAt e.bytes 14 2 = e.code)
      ∧ (e.bad = true → leAt e.bytes 12 2 = 0xFFFE ∧ leAt e.bytes 14 2 = 0xFFFE)
      ∧ leAt e.bytes 16 4 = e.a0 ∧ leAt e.bytes 20 4 = e.a1 ∧ leAt e.bytes 24 4 = e.a2 ∧ leAt e.bytes 28 4 = e.a3)

/-- For all Datum values a and b: the difference that comparisons use is a - b modulo 2^48 s, read in the range -2^47 s to 2^47 s - 2^-16 ns; it is the true
difference when that lies in the range, and of the wrong sign when the true difference is 2^47 s or more, or below -2^47 s, and less than 2^48 s in
magnitude; an instant is after another, and a compare unit has reached its target, by this difference. (R45, R71) -/
def Obligations.DatumComparisonIsASignedDifference : Prop :=
  (∀ a b : Instant, a < datumMod → b < datumMod → (instDiff a b - ((a : Int) - b)) % datumMod = 0
      ∧ -(2 ^ 47 * (secUnits : Int)) ≤ instDiff a b ∧ instDiff a b ≤ 2 ^ 47 * (secUnits : Int) - 1
      ∧ (-(2 ^ 47 * (secUnits : Int)) ≤ (a : Int) - b → (a : Int) - b < 2 ^ 47 * (secUnits : Int) → instDiff a b = (a : Int) - b)
      ∧ (2 ^ 47 * (secUnits : Int) ≤ (a : Int) - b → instDiff a b < 0) ∧ ((a : Int) - b < -(2 ^ 47 * (secUnits : Int)) → 0 ≤ instDiff a b)
      ∧ (after a b = true ↔ 0 < instDiff a b))
  ∧ (∀ (s : State) (n : Nat), cmpReached s n = true ↔ 0 ≤ instDiff (outTime s) (cmpTarget s n))
end

