-- ==== Sys2Proof/Laws/Map.lean ====
section
/-! SUPPORT. Laws of the sparse maps: a read after a write, and the canonical form that every operation keeps. -/
namespace Sys2Proof.Machine

theorem Map.get_put_same {α : Type} (m : Map α) (k : Nat) (v : α) : (m.put k v).get k = some v := by
  induction m with
  | nil => simp [Map.put, Map.get]
  | cons e m ih =>
    obtain ⟨j, w⟩ := e
    simp only [Map.put]
    split
    · simp [Map.get]
    · split
      · simp [Map.get]
      · rename_i h1 h2
        simp [Map.get, ih, Ne.symm h2]

theorem Map.get_put_other {α : Type} (m : Map α) (k i : Nat) (v : α) (h : i ≠ k) : (m.put k v).get i = m.get i := by
  induction m with
  | nil => simp [Map.put, Map.get, Ne.symm h]
  | cons e m ih =>
    obtain ⟨j, w⟩ := e
    simp only [Map.put]
    split
    · simp [Map.get, Ne.symm h]
    · split
      · rename_i h1 h2
        subst h2
        simp [Map.get, Ne.symm h]
      · simp [Map.get, ih]

theorem Map.get_del_other {α : Type} (m : Map α) (k i : Nat) (h : i ≠ k) : (m.del k).get i = m.get i := by
  induction m with
  | nil => rfl
  | cons e m ih =>
    obtain ⟨j, w⟩ := e
    simp only [Map.del]
    split
    · rename_i h1
      subst h1
      simp [Map.get, Ne.symm h]
    · simp [Map.get, ih]

theorem Map.above_mono {α : Type} {lo lo' : Nat} {m : Map α} (h : lo' ≤ lo) (hm : Map.above lo m = true) : Map.above lo' m = true := by
  cases m with
  | nil => rfl
  | cons e m =>
    obtain ⟨j, w⟩ := e
    simp only [Map.above, Bool.and_eq_true, decide_eq_true_eq] at hm ⊢
    exact ⟨by omega, hm.2⟩

theorem Map.get_above {α : Type} {lo k : Nat} {m : Map α} (hm : Map.above lo m = true) (h : k ≤ lo) : m.get k = none := by
  induction m generalizing lo with
  | nil => rfl
  | cons e m ih =>
    obtain ⟨j, w⟩ := e
    simp only [Map.above, Bool.and_eq_true, decide_eq_true_eq] at hm
    simp only [Map.get]
    rw [if_neg (by omega)]
    exact ih hm.2 (by omega)

theorem Map.above_put {α : Type} {lo k : Nat} {m : Map α} (v : α) (h : lo < k) (hm : Map.above lo m = true) :
    Map.above lo (m.put k v) = true := by
  induction m generalizing lo with
  | nil => simp [Map.put, Map.above, h]
  | cons e m ih =>
    obtain ⟨j, w⟩ := e
    simp only [Map.above, Bool.and_eq_true, decide_eq_true_eq] at hm
    simp only [Map.put]
    split
    · rename_i h1
      simp [Map.above, h, h1, hm.2]
    · split
      · rename_i h1 h2
        subst h2
        simp [Map.above, h, hm.2]
      · rename_i h1 h2
        simp only [Map.above, Bool.and_eq_true, decide_eq_true_eq]
        exact ⟨hm.1, ih (by omega) hm.2⟩

theorem Map.above_del {α : Type} {lo k : Nat} {m : Map α} (hm : Map.above lo m = true) : Map.above lo (m.del k) = true := by
  induction m generalizing lo with
  | nil => rfl
  | cons e m ih =>
    obtain ⟨j, w⟩ := e
    simp only [Map.above, Bool.and_eq_true, decide_eq_true_eq] at hm
    simp only [Map.del]
    split
    · exact Map.above_mono (by omega) hm.2
    · simp only [Map.above, Bool.and_eq_true, decide_eq_true_eq]
      exact ⟨hm.1, ih hm.2⟩

theorem Map.sorted_put {α : Type} {m : Map α} (k : Nat) (v : α) (hm : m.sorted = true) : (m.put k v).sorted = true := by
  cases m with
  | nil => rfl
  | cons e m =>
    obtain ⟨j, w⟩ := e
    simp only [Map.sorted] at hm
    simp only [Map.put]
    split
    · rename_i h1
      simp [Map.sorted, Map.above, h1, hm]
    · split
      · rename_i h1 h2
        subst h2
        simpa [Map.sorted] using hm
      · rename_i h1 h2
        simp only [Map.sorted]
        exact Map.above_put v (by omega) hm

theorem Map.sorted_of_above {α : Type} {lo : Nat} {m : Map α} (hm : Map.above lo m = true) : m.sorted = true := by
  cases m with
  | nil => rfl
  | cons e m =>
    obtain ⟨j, w⟩ := e
    simp only [Map.above, Bool.and_eq_true, decide_eq_true_eq] at hm
    exact hm.2

theorem Map.sorted_del {α : Type} {m : Map α} (k : Nat) (hm : m.sorted = true) : (m.del k).sorted = true := by
  cases m with
  | nil => rfl
  | cons e m =>
    obtain ⟨j, w⟩ := e
    simp only [Map.sorted] at hm
    simp only [Map.del]
    split
    · exact Map.sorted_of_above hm
    · simp only [Map.sorted]
      exact Map.above_del hm

theorem Map.get_del_same {α : Type} {m : Map α} (k : Nat) (hm : m.sorted = true) : (m.del k).get k = none := by
  induction m with
  | nil => rfl
  | cons e m ih =>
    obtain ⟨j, w⟩ := e
    simp only [Map.sorted] at hm
    simp only [Map.del]
    split
    · rename_i h1
      subst h1
      exact Map.get_above hm (Nat.le_refl _)
    · rename_i h1
      simp only [Map.get]
      rw [if_neg h1]
      exact ih (Map.sorted_of_above hm)

theorem Map.above_filter {α : Type} {lo : Nat} {m : Map α} (p : Nat × α → Bool) (hm : Map.above lo m = true) :
    Map.above lo (m.filter p : Map α) = true := by
  induction m generalizing lo with
  | nil => rfl
  | cons e m ih =>
    obtain ⟨j, w⟩ := e
    simp only [Map.above, Bool.and_eq_true, decide_eq_true_eq] at hm
    simp only [List.filter]
    split
    · simp only [Map.above, Bool.and_eq_true, decide_eq_true_eq]
      exact ⟨hm.1, ih hm.2⟩
    · exact Map.above_mono (by omega) (ih hm.2)

theorem Map.sorted_filter {α : Type} {m : Map α} (p : Nat × α → Bool) (hm : m.sorted = true) : Map.sorted (m.filter p : Map α) = true := by
  cases m with
  | nil => rfl
  | cons e m =>
    obtain ⟨j, w⟩ := e
    simp only [Map.sorted] at hm
    simp only [List.filter]
    split
    · simp only [Map.sorted]
      exact Map.above_filter p hm
    · exact Map.sorted_of_above (Map.above_filter p hm)

theorem Map.all_put {α : Type} {m : Map α} {p : Nat × α → Bool} (k : Nat) (v : α) (hv : p (k, v) = true) (hm : m.all p = true) :
    (m.put k v).all p = true := by
  induction m with
  | nil => simp [Map.put, hv]
  | cons e m ih =>
    obtain ⟨j, w⟩ := e
    simp only [List.all_cons, Bool.and_eq_true] at hm
    simp only [Map.put]
    split
    · simp [hv, hm.1, hm.2]
    · split
      · simp [hv, hm.2]
      · simp [hm.1, ih hm.2]

theorem Map.all_del {α : Type} {m : Map α} {p : Nat × α → Bool} (k : Nat) (hm : m.all p = true) : (m.del k).all p = true := by
  induction m with
  | nil => rfl
  | cons e m ih =>
    obtain ⟨j, w⟩ := e
    simp only [List.all_cons, Bool.and_eq_true] at hm
    simp only [Map.del]
    split
    · exact hm.2
    · simp [hm.1, ih hm.2]

end Sys2Proof.Machine
end

