-- ==== Sys2Proof/Laws/Regs.lean ====
section
/-! SUPPORT. Laws of the register file: fields of a word, a read after a write, and the canonical form that a write keeps. -/
namespace Sys2Proof.Machine

/-! ## Fields of a word -/

theorem fieldMask_bit (lsb w i : Nat) (hw : lsb + w ≤ 32) : (fieldMask lsb w).getLsbD i = decide (lsb ≤ i ∧ i < lsb + w) := by
  simp only [fieldMask, BitVec.getLsbD_shiftLeft, BitVec.getLsbD_ofNat, Nat.testBit_two_pow_sub_one]
  rw [Bool.eq_iff_iff]
  simp only [Bool.and_eq_true, Bool.not_eq_true', decide_eq_true_eq, decide_eq_false_iff_not]
  omega

theorem fieldSet_bit (v : Word) (lsb w x i : Nat) (hw : lsb + w ≤ 32) :
    (fieldSet v lsb w x).getLsbD i = if lsb ≤ i ∧ i < lsb + w then x.testBit (i - lsb) else v.getLsbD i := by
  simp only [fieldSet, BitVec.getLsbD_or, BitVec.getLsbD_and, BitVec.getLsbD_not, BitVec.getLsbD_shiftLeft, BitVec.getLsbD_ofNat,
    fieldMask_bit lsb w i hw]
  by_cases h : lsb ≤ i ∧ i < lsb + w
  · have h1 : i < 32 := by omega
    have h2 : ¬ i < lsb := by omega
    have h3 : i - lsb < 32 := by omega
    simp [h, h1, h2, h3]
  · by_cases h1 : i < 32
    · simp [h, h1]
    · have h0 : v.getLsbD i = false := BitVec.getLsbD_of_ge v i (by omega)
      simp [h, h1, h0]

/-- A field reads what was written to it, cut to its width. -/
theorem fieldGet_set_same (v : Word) (lsb w x : Nat) (hw : lsb + w ≤ 32) : fieldGet (fieldSet v lsb w x) lsb w = x % 2 ^ w := by
  apply Nat.eq_of_testBit_eq
  intro i
  simp only [fieldGet, BitVec.testBit_toNat, BitVec.getLsbD_extractLsb', fieldSet_bit v lsb w x _ hw, Nat.testBit_mod_two_pow]
  by_cases h : i < w <;> simp [h]

/-- A field keeps its value when another field of the word is written. -/
theorem fieldGet_set_other (v : Word) (lsb w x lsb' w' : Nat) (hw : lsb + w ≤ 32) (hd : lsb' + w' ≤ lsb ∨ lsb + w ≤ lsb') :
    fieldGet (fieldSet v lsb w x) lsb' w' = fieldGet v lsb' w' := by
  apply Nat.eq_of_testBit_eq
  intro i
  simp only [fieldGet, BitVec.testBit_toNat, BitVec.getLsbD_extractLsb', fieldSet_bit v lsb w x _ hw]
  by_cases h : i < w'
  · simp only [h, decide_true, Bool.true_and]
    rw [if_neg (by omega)]
  · simp [h]

theorem fieldGet_lt (v : Word) (lsb w : Nat) : fieldGet v lsb w < 2 ^ w := by
  simpa [fieldGet] using (v.extractLsb' lsb w).isLt

/-! ## Reads after writes -/

theorem regGet_put_same (m : Map Word) (a : Nat) (v : Word) (hm : m.sorted = true) : regGet (regPut m a v) a = v := by
  unfold regPut regGet
  split
  · rename_i h
    rw [Map.get_del_same a hm, h]; rfl
  · rw [Map.get_put_same]; rfl

theorem regGet_put_other (m : Map Word) (a i : Nat) (v : Word) (h : i ≠ a) : regGet (regPut m a v) i = regGet m i := by
  unfold regPut regGet
  split
  · rw [Map.get_del_other m a i h]
  · rw [Map.get_put_other m a i v h]

theorem State.rd_wr_other (s : State) (a i : Nat) (v : Word) (h : i ≠ a) : (s.wr a v).rd i = s.rd i :=
  regGet_put_other s.regs a i v h

theorem State.rd_wr_same (s : State) (a : Nat) (v : Word) (hm : s.regs.sorted = true) : (s.wr a v).rd a = v :=
  regGet_put_same s.regs a v hm

theorem State.rd_set_other (s : State) (f : Fld) (x i : Nat) (h : i ≠ f.addr) : (s.set f x).rd i = s.rd i :=
  State.rd_wr_other s f.addr i _ h

/-- A field reads what was written to it. -/
theorem State.get_set_same (s : State) (f : Fld) (x : Nat) (hm : s.regs.sorted = true) (hw : f.lsb + f.width ≤ 32) :
    (s.set f x).get f = x % 2 ^ f.width := by
  unfold State.get State.set
  rw [State.rd_wr_same _ _ _ hm]
  exact fieldGet_set_same _ _ _ _ hw

/-- A field of another register keeps its value. -/
theorem State.get_set_addr (s : State) (f g : Fld) (x : Nat) (h : g.addr ≠ f.addr) : (s.set f x).get g = s.get g := by
  unfold State.get
  rw [State.rd_set_other s f x g.addr h]

/-- Another field of the same register keeps its value. -/
theorem State.get_set_bits (s : State) (f g : Fld) (x : Nat) (hm : s.regs.sorted = true) (ha : g.addr = f.addr) (hw : f.lsb + f.width ≤ 32)
    (hd : g.lsb + g.width ≤ f.lsb ∨ f.lsb + f.width ≤ g.lsb) : (s.set f x).get g = s.get g := by
  unfold State.get State.set
  rw [ha, State.rd_wr_same _ _ _ hm]
  exact fieldGet_set_other _ _ _ _ _ _ hw hd

theorem State.get_lt (s : State) (f : Fld) : s.get f < 2 ^ f.width := fieldGet_lt _ _ _

/-! ## Sortedness and single bits -/

theorem State.wr_sorted (s : State) (a : Nat) (v : Word) (hm : s.regs.sorted = true) : (s.wr a v).regs.sorted = true := by
  simp only [State.wr, regPut]
  split
  · exact Map.sorted_del _ hm
  · exact Map.sorted_put _ _ hm

theorem State.set_sorted (s : State) (f : Fld) (x : Nat) (hm : s.regs.sorted = true) : (s.set f x).regs.sorted = true := State.wr_sorted s _ _ hm

/-- What an event does to the register words is what the write of the field does. -/
@[simp] theorem State.happen_rd (s : State) (f : Fld) (g : Nat → Nat) (j : Nat) : (s.happen f g).rd j = (s.set f (g (s.get f))).rd j := rfl

theorem State.happen_get (s : State) (f : Fld) (g : Nat → Nat) (k : Fld) : (s.happen f g).get k = (s.set f (g (s.get f))).get k := rfl

/-- Setting a bit sets it and leaves the others. -/
theorem State.bit_setBit (s : State) (a i j : Nat) (hi : i < 32) (hm : s.regs.sorted = true) :
    (s.setBit a i).bit a j = if j = i then true else s.bit a j := by
  unfold State.bit State.setBit State.strike
  rw [State.happen_rd]
  unfold State.set
  rw [State.rd_wr_same _ _ _ hm, fieldSet_bit _ _ _ _ _ (show i + 1 ≤ 32 by omega)]
  by_cases h : j = i
  · subst h; simp
  · rw [if_neg (show ¬ (i ≤ j ∧ j < i + 1) by omega), if_neg h]

/-- A saturating 32-bit count. -/
theorem State.get_addSat (s : State) (f : Fld) (k : Nat) (hm : s.regs.sorted = true) (hw : f.lsb + f.width ≤ 32) (h32 : f.width = 32) :
    (s.addSat f k).get f = satAdd32 (s.get f) k := by
  unfold State.addSat
  rw [State.happen_get, State.get_set_same s f _ hm hw, h32]
  unfold satAdd32
  split <;> omega

/-! ## The canonical form -/

theorem regsWf_sorted {m : Map Word} (h : regsWf m = true) : m.sorted = true := by
  simp only [regsWf, Bool.and_eq_true] at h
  exact h.1

theorem regsWf_put {m : Map Word} (a : Nat) (v : Word) (h : regsWf m = true) : regsWf (regPut m a v) = true := by
  simp only [regsWf, Bool.and_eq_true] at h
  unfold regPut regsWf
  split
  · rw [Map.sorted_del a h.1, Map.all_del a h.2]; rfl
  · rename_i hv
    rw [Map.sorted_put a v h.1, Map.all_put a v (by simpa using hv) h.2]; rfl

theorem regsWf_filter {m : Map Word} (p : Nat × Word → Bool) (h : regsWf m = true) : regsWf (m.filter p : Map Word) = true := by
  simp only [regsWf, Bool.and_eq_true] at h ⊢
  refine ⟨Map.sorted_filter p h.1, ?_⟩
  rw [List.all_eq_true] at *
  intro e he
  exact h.2 e (List.mem_filter.mp he).1

theorem regsWf_nil : regsWf [] = true := rfl

end Sys2Proof.Machine
end

