-- ==== Sys2Proof/Laws/Frame.lean ====
section
/-! SUPPORT. Frames: what the shared operations change at most, and what such a change leaves alone. Each law extends a change from `b` to `s` by one more operation. -/
namespace Sys2Proof.Machine

theorem ChangesOnly.refl (R : Nat → Bool) (s : State) : ChangesOnly R s s := ⟨rfl, fun _ _ _ => rfl, fun _ _ _ => rfl⟩

theorem ChangesOnly.mono {R R' : Nat → Bool} {s t : State} (h : ChangesOnly R s t) (hR : ∀ a, R' a = false → R a = false) : ChangesOnly R' s t :=
  ⟨h.rest, fun a ha he => h.regs a (hR a ha) he, fun a ha he => h.mclk a (hR a ha) he⟩

theorem ChangesOnly.trans {R : Nat → Bool} {b s t : State} (h : ChangesOnly R b s) (g : ChangesOnly R s t) : ChangesOnly R b t := by
  refine ⟨?_, fun a ha he => (g.regs a ha he).trans (h.regs a ha he), fun a ha he => (g.mclk a ha he).trans (h.mclk a ha he)⟩
  rw [g.rest, h.rest]

theorem ChangesOnly.pending {R : Nat → Bool} {s t : State} (h : ChangesOnly R s t) : t.pending = s.pending := by rw [h.rest]
theorem ChangesOnly.now {R : Nat → Bool} {s t : State} (h : ChangesOnly R s t) : t.now = s.now := by rw [h.rest]
theorem ChangesOnly.fresh {R : Nat → Bool} {s t : State} (h : ChangesOnly R s t) : t.fresh = s.fresh := by rw [h.rest]
theorem ChangesOnly.latchMw0 {R : Nat → Bool} {s t : State} (h : ChangesOnly R s t) : t.latchMw0 = s.latchMw0 := by rw [h.rest]
theorem ChangesOnly.latchMspi {R : Nat → Bool} {s t : State} (h : ChangesOnly R s t) : t.latchMspi = s.latchMspi := by rw [h.rest]
theorem ChangesOnly.copyMw0 {R : Nat → Bool} {s t : State} (h : ChangesOnly R s t) : t.copyMw0 = s.copyMw0 := by rw [h.rest]
theorem ChangesOnly.copyMspi {R : Nat → Bool} {s t : State} (h : ChangesOnly R s t) : t.copyMspi = s.copyMspi := by rw [h.rest]
theorem ChangesOnly.sys {R : Nat → Bool} {s t : State} (h : ChangesOnly R s t) : t.sys = s.sys := by rw [h.rest]
theorem ChangesOnly.dtm {R : Nat → Bool} {s t : State} (h : ChangesOnly R s t) : t.dtm = s.dtm := by rw [h.rest]
theorem ChangesOnly.sko {R : Nat → Bool} {s t : State} (h : ChangesOnly R s t) : t.sko = s.sko := by rw [h.rest]
theorem ChangesOnly.stk {R : Nat → Bool} {s t : State} (h : ChangesOnly R s t) : t.stk = s.stk := by rw [h.rest]
theorem ChangesOnly.svp {R : Nat → Bool} {s t : State} (h : ChangesOnly R s t) : t.svp = s.svp := by rw [h.rest]
theorem ChangesOnly.pke {R : Nat → Bool} {s t : State} (h : ChangesOnly R s t) : t.pke = s.pke := by rw [h.rest]
theorem ChangesOnly.crl {R : Nat → Bool} {s t : State} (h : ChangesOnly R s t) : t.crl = s.crl := by rw [h.rest]
theorem ChangesOnly.ke {R : Nat → Bool} {s t : State} (h : ChangesOnly R s t) : t.ke = s.ke := by rw [h.rest]
theorem ChangesOnly.prt {R : Nat → Bool} {s t : State} (h : ChangesOnly R s t) : t.prt = s.prt := by rw [h.rest]
theorem ChangesOnly.syn {R : Nat → Bool} {s t : State} (h : ChangesOnly R s t) : t.syn = s.syn := by rw [h.rest]
theorem ChangesOnly.dvl {R : Nat → Bool} {s t : State} (h : ChangesOnly R s t) : t.dvl = s.dvl := by rw [h.rest]
theorem ChangesOnly.trn {R : Nat → Bool} {s t : State} (h : ChangesOnly R s t) : t.trn = s.trn := by rw [h.rest]
theorem ChangesOnly.trv {R : Nat → Bool} {s t : State} (h : ChangesOnly R s t) : t.trv = s.trv := by rw [h.rest]
theorem ChangesOnly.bm {R : Nat → Bool} {s t : State} (h : ChangesOnly R s t) : t.bm = s.bm := by rw [h.rest]
theorem ChangesOnly.pmc {R : Nat → Bool} {s t : State} (h : ChangesOnly R s t) : t.pmc = s.pmc := by rw [h.rest]
theorem ChangesOnly.msix {R : Nat → Bool} {s t : State} (h : ChangesOnly R s t) : t.hmi.msix = s.hmi.msix := by rw [h.rest]
theorem ChangesOnly.rings {R : Nat → Bool} {s t : State} (h : ChangesOnly R s t) : t.hmi.rings = s.hmi.rings := by rw [h.rest]
theorem ChangesOnly.dmaPaused {R : Nat → Bool} {s t : State} (h : ChangesOnly R s t) : t.hmi.dmaPaused = s.hmi.dmaPaused := by rw [h.rest]
theorem ChangesOnly.faults {R : Nat → Bool} {s t : State} (h : ChangesOnly R s t) : t.flt.queue = s.flt.queue := by rw [h.rest]

/-- A field of a register that the change leaves alone. -/
theorem ChangesOnly.get {R : Nat → Bool} {s t : State} (h : ChangesOnly R s t) (f : Fld) (hf : R f.addr = false) (he : eventReg f.addr = false) :
    t.get f = s.get f := by
  unfold State.get; rw [h.regs _ hf he]

theorem ChangesOnly.on {R : Nat → Bool} {s t : State} (h : ChangesOnly R s t) (f : Fld) (hf : R f.addr = false) (he : eventReg f.addr = false) :
    t.on f = s.on f := by
  unfold State.on; rw [h.get f hf he]

/-! ## One more operation -/

section ops
variable {R : Nat → Bool} {b s : State}

theorem ChangesOnly.wr (h : ChangesOnly R b s) (a : Nat) (v : Word) (ha : R a = true ∨ eventReg a = true) : ChangesOnly R b (s.wr a v) := by
  refine h.trans ⟨rfl, fun i hi he => State.rd_wr_other s a i v ?_, fun _ _ _ => rfl⟩
  rintro rfl
  simp [hi, he] at ha

theorem ChangesOnly.set (h : ChangesOnly R b s) (f : Fld) (x : Nat) (ha : R f.addr = true ∨ eventReg f.addr = true) : ChangesOnly R b (s.set f x) :=
  h.wr f.addr _ ha

theorem ChangesOnly.setB (h : ChangesOnly R b s) (f : Fld) (x : Bool) (ha : R f.addr = true ∨ eventReg f.addr = true) : ChangesOnly R b (s.setB f x) :=
  h.set f _ ha

theorem ChangesOnly.setI (h : ChangesOnly R b s) (f : Fld) (x : Int) (ha : R f.addr = true ∨ eventReg f.addr = true) : ChangesOnly R b (s.setI f x) :=
  h.set f _ ha

theorem ChangesOnly.happen (h : ChangesOnly R b s) (f : Fld) (g : Nat → Nat) (ha : R f.addr = true ∨ eventReg f.addr = true) :
    ChangesOnly R b (s.happen f g) := by
  refine h.trans ⟨rfl, fun i hi he => State.rd_wr_other s f.addr i _ ?_, fun i hi he => ?_⟩
  · rintro rfl
    simp [hi, he] at ha
  · unfold State.brought State.happen
    rw [Map.get_put_other]
    rintro rfl
    simp [hi, he] at ha

theorem ChangesOnly.setBit (h : ChangesOnly R b s) (a i : Nat) (ha : R a = true ∨ eventReg a = true) : ChangesOnly R b (s.setBit a i) :=
  h.happen ⟨a, i, 1⟩ (fun _ => 1) ha

theorem ChangesOnly.clrBit (h : ChangesOnly R b s) (a i : Nat) (ha : R a = true ∨ eventReg a = true) : ChangesOnly R b (s.clrBit a i) := h.set ⟨a, i, 1⟩ 0 ha

theorem ChangesOnly.addSat (h : ChangesOnly R b s) (f : Fld) (k : Nat) (ha : R f.addr = true ∨ eventReg f.addr = true) : ChangesOnly R b (s.addSat f k) :=
  h.happen f _ ha

theorem ChangesOnly.set64 (h : ChangesOnly R b s) (a v : Nat) (h0 : R a = true ∨ eventReg a = true) (h4 : R (a + 4) = true ∨ eventReg (a + 4) = true) :
    ChangesOnly R b (s.set64 a v) := (h.wr a _ h0).wr (a + 4) _ h4

theorem ChangesOnly.emit (h : ChangesOnly R b s) (e : Emission) : ChangesOnly R b (s.emit e) := h.trans ⟨rfl, fun _ _ _ => rfl, fun _ _ _ => rfl⟩

theorem ChangesOnly.ite {x y : State} {c : Prop} [Decidable c] (hx : ChangesOnly R b x) (hy : ChangesOnly R b y) : ChangesOnly R b (if c then x else y) := by
  split <;> assumption

theorem ChangesOnly.foldl {α : Type} {g : State → α → State} {l : List α} (hg : ∀ t, ∀ x ∈ l, ChangesOnly R b t → ChangesOnly R b (g t x))
    (h : ChangesOnly R b s) : ChangesOnly R b (l.foldl g s) := by
  induction l generalizing s with
  | nil => exact h
  | cons x l ih => exact ih (fun t y hy => hg t y (List.mem_cons_of_mem x hy)) (hg s x List.mem_cons_self h)

theorem ChangesOnly.pmcCount (h : ChangesOnly R b s) (u evt inst amt k : Nat) (hu : u < 13) (hk : k < 8) : ChangesOnly R b (pmcCount u evt inst amt s k) := by
  have e : ∀ a, 0x20000 ≤ a → a < 0x21000 → R a = true ∨ eventReg a = true := fun a h0 h1 => .inr (by simp [eventReg, h0, h1])
  unfold Sys2Proof.Machine.pmcCount
  split
  · extract_lets old sum t
    have ht : ChangesOnly R b t := h.set64 _ _ (e _ (by simp [A.PMC_CTR_W0]; omega) (by simp [A.PMC_CTR_W0]; omega))
      (e _ (by simp [A.PMC_CTR_W0]; omega) (by simp [A.PMC_CTR_W0]; omega))
    clear_value t
    split
    · exact ht
    · split
      · exact ht
      · exact (ht.setBit _ _ (e _ (by simp [A.PMC_OVF]; omega) (by simp [A.PMC_OVF]; omega))).setBit _ _ (e _ (by decide) (by decide))
  · exact h

theorem ChangesOnly.pmcRaw (h : ChangesOnly R b s) (u evt inst amt : Nat) (hu : u < 13) : ChangesOnly R b (pmcRaw u evt inst amt s) :=
  ChangesOnly.foldl (fun t k hk ht => ht.pmcCount u evt inst amt k hu (by
    simp only [List.mem_cons, List.not_mem_nil, or_false] at hk; omega)) h

theorem ChangesOnly.signalVector (h : ChangesOnly R b s) (v : Nat) : ChangesOnly R b (signalVector v s) := by
  have p : ChangesOnly R b { s with hmi := { s.hmi with pba := s.hmi.pba ||| 2 ^ v } } := h.trans ⟨rfl, fun _ _ _ => rfl, fun _ _ _ => rfl⟩
  unfold Sys2Proof.Machine.signalVector
  split
  · split
    · split
      · exact p
      · exact (h.emit _).pmcRaw 12 _ _ _ (by decide)
    · exact p
  · exact h

theorem ChangesOnly.withGroup (g : Nat) {f : State → State} (h : ChangesOnly R b (f s)) : ChangesOnly R b (withGroup g f s) := by
  unfold Sys2Proof.Machine.withGroup
  extract_lets t
  split
  · exact h.signalVector _
  · exact h

theorem ChangesOnly.irqSet (h : ChangesOnly R b s) (g a i : Nat) (ha : R a = true ∨ eventReg a = true) : ChangesOnly R b (irqSet g a i s) :=
  ChangesOnly.withGroup g (h.setBit a i ha)

theorem ChangesOnly.pmcEvent (h : ChangesOnly R b s) (u evt inst amt : Nat) (hu : u < 13) : ChangesOnly R b (pmcEvent u evt inst amt s) :=
  ChangesOnly.withGroup 17 (h.pmcRaw u evt inst amt hu)

theorem ChangesOnly.alarmRaise (h : ChangesOnly R b s) (n : Nat) : ChangesOnly R b (alarmRaise n s) := by
  unfold Sys2Proof.Machine.alarmRaise
  extract_lets _ t
  have ht : ChangesOnly R b t := h.trans ⟨rfl, fun _ _ _ => rfl, fun _ _ _ => rfl⟩
  clear_value t
  split
  · exact ht
  · exact (ht.irqSet 1 _ _ (.inr (by decide))).pmcEvent 0 _ _ _ (by decide)

theorem ChangesOnly.enqueueEntry (h : ChangesOnly R b s) (e : Entry) : ChangesOnly R b (enqueueEntry e s) := by
  unfold Sys2Proof.Machine.enqueueEntry
  extract_lets blk _ t
  have ht : ChangesOnly R b t := h.trans ⟨rfl, fun _ _ _ => rfl, fun _ _ _ => rfl⟩
  clear_value t
  split
  · exact h.trans ⟨rfl, fun _ _ _ => rfl, fun _ _ _ => rfl⟩
  · exact (ht.addSat _ _ (.inr (by decide))).alarmRaise 15

theorem ChangesOnly.recordAt (h : ChangesOnly R b s) (d : Instant) (code src a0 a1 a2 a3 : Nat) : ChangesOnly R b (recordAt d code src a0 a1 a2 a3 s) :=
  h.enqueueEntry _

theorem ChangesOnly.record (h : ChangesOnly R b s) (code a0 a1 a2 a3 : Nat) : ChangesOnly R b (record code a0 a1 a2 a3 s) := h.enqueueEntry _

theorem ChangesOnly.recordUnit (h : ChangesOnly R b s) (code unit a0 a1 a2 a3 : Nat) : ChangesOnly R b (recordUnit code unit a0 a1 a2 a3 s) := h.enqueueEntry _

theorem ChangesOnly.alarmClear (h : ChangesOnly R b s) (n : Nat) : ChangesOnly R b (alarmClear n s) := by
  unfold Sys2Proof.Machine.alarmClear
  split
  · exact (h.clrBit _ _ (.inr (by decide))).record _ _ _ _ _
  · exact h

theorem ChangesOnly.alarmSet (h : ChangesOnly R b s) (n : Nat) (c : Bool) : ChangesOnly R b (alarmSet n c s) := by
  unfold Sys2Proof.Machine.alarmSet
  exact .ite (h.alarmRaise n) (h.alarmClear n)

end ops

end Sys2Proof.Machine
end

