-- ==== Sys2Proof/Laws/Access.lean ====
section
/-! SUPPORT. Register access: what a write that the device admits does, register by register. -/
namespace Sys2Proof.Machine

theorem find?_of_findIdx? {α : Type} {q : α → Bool} : ∀ {l : List α} {i : Nat}, l.findIdx? q = some i → l.find? q = l[i]?
  | [], _, h => by simp at h
  | x :: l, i, h => by
    rw [List.findIdx?_cons] at h
    by_cases hx : q x = true
    · simp only [hx, if_true, Option.some.injEq] at h
      subst h; simp [hx]
    · simp only [hx] at h
      cases i with
      | zero => simp at h
      | succ i =>
        have : l.findIdx? q = some i := by simpa using h
        simp [hx, find?_of_findIdx? this]

/-- A live register with a hook does what its hook says. -/
theorem liveWrite_hook {p : Path} {a i : Nat} {h : LiveHook} (v : Word) (s : State) (hi : hookIndex p a = some i) (hh : (liveHooks p)[i]? = some h) :
    liveWrite p a v s = h.act ((a - h.base) / h.stride) v s := by
  unfold hookIndex at hi
  split at hi
  · cases hi
  · rename_i hs
    unfold liveWrite
    generalize liveHooks p = l at hi hh ⊢
    generalize selAt a = o at hs ⊢
    cases o with
    | some _ => simp at hs
    | none =>
      rw [Option.elim_none, find?_of_findIdx? hi, hh, Option.elim_some]

/-- A live register without a hook takes its plain write. -/
theorem liveWrite_plain {p : Path} {a : Nat} (v : Word) (s : State) (hs : selAt a = none) (hi : hookIndex p a = none) :
    liveWrite p a v s = plainWrite a v s := by
  unfold hookIndex at hi
  rw [hs] at hi
  unfold liveWrite
  rw [hs]
  generalize liveHooks p = l at hi ⊢
  have : l.find? (fun h => (idxAt h.base h.stride h.count a).isSome) = none := by
    simpa [List.findIdx?_eq_none_iff] using hi
  rw [Option.elim_none, this, Option.elim_none]

theorem countAccess_frame (R : Nat → Bool) (p : Path) (s : State) : ChangesOnly R s (countAccess p s) := by
  unfold countAccess
  exact (ChangesOnly.refl R s).pmcEvent 0 _ _ _ (by decide)

theorem countAccess_liveOff (p : Path) (s : State) (a : Nat) : liveOff (countAccess p s) a = liveOff s a := by
  have h := (countAccess_frame (fun _ => false) p s).regs A.SYS_PWR_STAT rfl (by decide)
  unfold liveOff domainOn State.bit
  rw [h]

theorem Admits.accessible {s : State} (h : Admits s) : accessible s = true := by
  unfold Sys2Proof.Machine.accessible; rw [h.power, h.clock]; rfl

/-- A write of a live register that the device admits. -/
theorem hostWrite_live {s : State} (p : Path) (a : Nat) (v : Word) (h : Admits s) (ha : liveRow a = true) (hl : liveOff s a = false) :
    hostWrite p a 15 v s = (0, liveWrite p a v (countAccess p s)) := by
  unfold liveRow at ha
  simp only [Bool.and_eq_true, Bool.not_eq_true'] at ha
  obtain ⟨⟨hr, hm⟩, hb⟩ := ha
  have ho : (countAccess p s).sys.writesOpen = true := by rw [(countAccess_frame (fun _ => false) p s).sys, h.opened]
  have hl' := countAccess_liveOff p s a
  rw [hl] at hl'
  unfold hostWrite
  rw [h.accessible]
  generalize countAccess p s = t at ho hl' ⊢
  unfold writeAccess
  generalize hf : findRow a = r at hr
  cases r with
  | none => simp at hr
  | some r =>
    simp only [Option.any_some, Bool.and_eq_true, Bool.not_eq_true'] at hr
    simp [ho, hm, hb, hl', hr.1, hr.2]

theorem regCommand_live {s : State} (p : Path) (a : Nat) (v : Word) (h : Admits s) (ha : liveRow a = true) (hl : liveOff s a = false) :
    regCommand p a v s = .next (liveWrite p a v (countAccess p s)) := by
  unfold regCommand
  rw [hostWrite_live p a v h ha hl]

/-- A command that writes a live register with an action of its own. -/
theorem regCommand_hook {s : State} {p : Path} {a i : Nat} {k : LiveHook} (v : Word) (h : Admits s) (ha : liveRow a = true) (hl : liveOff s a = false)
    (hi : hookIndex p a = some i) (hk : (liveHooks p)[i]? = some k) :
    regCommand p a v s = .next (k.act ((a - k.base) / k.stride) v (countAccess p s)) := by
  rw [regCommand_live p a v h ha hl, liveWrite_hook v _ hi hk]

/-- A register of no domain that can be off is never off. -/
theorem liveOff_none (s : State) {a : Nat} (h : regDomain a = none) : liveOff s a = false := by unfold liveOff; rw [h]; rfl

theorem liveOff_on (s : State) {a d : Nat} (h : regDomain a = some d) (hd : domainOn s d = true) : liveOff s a = false := by
  unfold liveOff; rw [h]; simp [hd]

/-- Outside the Transit channels no register is the owner's to set. -/
theorem ownedWhole_outside (s : State) {a : Nat} (h : a < 0x61000 ∨ 0x62800 ≤ a) : ownedWhole s a = false := by
  unfold ownedWhole
  rcases h with h | h
  · rw [decide_eq_false (show ¬ 0x61000 ≤ a by omega)]; rfl
  · rw [decide_eq_false (show ¬ a < 0x62800 by omega), Bool.and_false]; rfl

/-- A permitted write of an image register of one word. -/
theorem regCommand_image {s : State} (p : Path) (a : Nat) (v : Word) (h : Admits s) (ha : imageRow a = true)
    (hw : ownedWhole (countAccess p s) a = false) (hd : denyReason (countAccess p s) a v = none) :
    regCommand p a v s = .next (imageHook (countAccess p s) a (loadLive p (countAccess p s) (a, v))) := by
  have hl : liveOff s a = false := by
    unfold liveOff
    have : isImage a = true := by
      unfold imageRow at ha; unfold isImage
      cases hf : findRow a with
      | none => rw [hf] at ha; simp at ha
      | some r => rw [hf] at ha; simp at ha; simp [ha.1.1.1.1]
    rw [this]; simp
  unfold imageRow at ha
  simp only [Bool.and_eq_true, Bool.not_eq_true'] at ha
  obtain ⟨⟨hr, hm⟩, hb⟩ := ha
  have ho : (countAccess p s).sys.writesOpen = true := by rw [(countAccess_frame (fun _ => false) p s).sys, h.opened]
  have hl' := countAccess_liveOff p s a
  rw [hl] at hl'
  have hi : ∀ r : RegRow, r.words = 1 → (imageWrite p r a v (countAccess p s)).2 = imageHook (countAccess p s) a (loadLive p (countAccess p s) (a, v)) := by
    intro r hr
    have ht : ∀ u : State, dropCopies p [] u = u := by intro u; cases p <;> rfl
    have hc : commitWords p r a v (countAccess p s) = [(a, v)] := by unfold commitWords; rw [hr]; rfl
    unfold imageWrite
    rw [hc, hd, hw]
    simp only [Bool.false_eq_true, if_false, List.tail_cons, List.map_nil, ht, List.foldl_cons, List.foldl_nil]
  unfold regCommand hostWrite
  rw [h.accessible]
  generalize countAccess p s = t at ho hl' hi
  unfold writeAccess
  generalize findRow a = o at hr
  cases o with
  | none => simp at hr
  | some r =>
    simp only [Option.any_some, Bool.and_eq_true, Bool.not_eq_true', decide_eq_true_eq] at hr
    have := hi r hr.1.2
    simp [ho, hm, hb, hl', hr.1.1, hr.2, this]

/-- A write where there is no register changes nothing but the count of the access (R10). -/
theorem regCommand_none {s : State} (p : Path) {a : Nat} (v : Word) (h : Admits s) (hf : findRow a = none) (hm : inMsix a = false) (hb : inPba a = false) :
    regCommand p a v s = .next (countAccess p s) := by
  have ho : (countAccess p s).sys.writesOpen = true := by rw [(countAccess_frame (fun _ => false) p s).sys, h.opened]
  unfold regCommand hostWrite
  rw [h.accessible]
  generalize countAccess p s = t at ho ⊢
  unfold writeAccess
  rw [hf, hm, hb, ho]
  simp

/-! ## 64-bit counters -/

theorem State.set64_get64 (s : State) (a v : Nat) (hm : s.regs.sorted = true) : (s.set64 a v).get64 a = v % 2 ^ 64 := by
  have h1 : ((s.set64 a v).rd a).toNat = v % 2 ^ 32 := by
    unfold State.set64
    rw [State.rd_wr_other _ _ _ _ (by omega), State.rd_wr_same _ _ _ hm]; simp
  have h2 : ((s.set64 a v).rd (a + 4)).toNat = v / 2 ^ 32 % 2 ^ 32 := by
    unfold State.set64
    rw [State.rd_wr_same]
    · simp
    · simp only [State.wr, regPut]
      split
      · exact Map.sorted_del _ hm
      · exact Map.sorted_put _ _ hm
  unfold State.get64
  rw [h1, h2]
  omega

theorem State.set64_get64_other (s : State) (a b v : Nat) (h : b + 4 < a ∨ a + 4 < b) : (s.set64 a v).get64 b = s.get64 b := by
  unfold State.get64 State.set64
  rw [State.rd_wr_other _ _ _ _ (by omega), State.rd_wr_other _ _ _ _ (by omega), State.rd_wr_other _ _ _ _ (by omega),
    State.rd_wr_other _ _ _ _ (by omega)]

theorem State.set64_sorted (s : State) (a v : Nat) (hm : s.regs.sorted = true) : (s.set64 a v).regs.sorted = true := by
  have key : ∀ (m : Map Word) (i : Nat) (w : Word), m.sorted = true → (regPut m i w).sorted = true := by
    intro m i w h
    unfold regPut
    split
    · exact Map.sorted_del _ h
    · exact Map.sorted_put _ _ h
  exact key _ _ _ (key _ _ _ hm)

/-- Counters that were cleared read 0. -/
theorem clear64s_get64 (s : State) (a n k : Nat) (hk : k < n) (hm : s.regs.sorted = true) : (s.clear64s a n).get64 (a + 8 * k) = 0 := by
  have sorted : ∀ n, (s.clear64s a n).regs.sorted = true := by
    intro n
    induction n with
    | zero => exact hm
    | succ n ih => exact State.set64_sorted _ _ _ ih
  induction n with
  | zero => omega
  | succ n ih =>
    show ((s.clear64s a n).set64 (a + 8 * n) 0).get64 (a + 8 * k) = 0
    by_cases h : k = n
    · subst h; exact (State.set64_get64 _ _ _ (sorted k)).trans (Nat.zero_mod _)
    · rw [State.set64_get64_other _ _ _ _ (by omega)]
      exact ih (by omega)

theorem clear64s_frame {R : Nat → Bool} (s : State) (a n : Nat) (h : ∀ i, a ≤ i → i < a + 8 * n → R i = true ∨ eventReg i = true) :
    ChangesOnly R s (s.clear64s a n) := by
  induction n with
  | zero => exact .refl R s
  | succ n ih =>
    exact (ih (fun i h0 h1 => h i h0 (by omega))).set64 _ _ (h _ (by omega) (by omega)) (h _ (by omega) (by omega))

/-- A write at a ring's offset of TAIL. -/
theorem ringWrite_tail {p : Path} {a r : Nat} (v : Word) (s : State) (hr : (a - 0x481000) / 0x40 = r) (ho : (a - 0x481000) % 0x40 = 0x14) :
    ringWrite p a v s = ringTailWrite r v s := by
  unfold ringWrite
  simp only [ho, hr]

/-- A write at a ring's offset of CFG. -/
theorem ringWrite_cfg {p : Path} {a r : Nat} (v : Word) (s : State) (hr : (a - 0x481000) / 0x40 = r) (ho : (a - 0x481000) % 0x40 = 0x10) :
    ringWrite p a v s = ringCfgWrite r v s := by
  unfold ringWrite
  simp only [ho, hr]

/-- EN of a CFG value survives the clamping of its fields. -/
theorem ringCfgClamp_en (v : Word) (b : Nat) : (ringCfgClamp (fieldSet v 31 1 b)).getLsbD 31 = decide (b % 2 = 1) := by
  have hs : clampNat 6 16 (fieldGet (fieldSet v 31 1 b) 24 5) ≤ 16 := by unfold clampNat; (repeat' split) <;> omega
  have hf : clampNat 1 256 (fieldGet (fieldSet v 31 1 b) 8 9) ≤ 256 := by unfold clampNat; (repeat' split) <;> omega
  unfold ringCfgClamp
  dsimp only
  rw [fieldGet_set_same _ _ _ _ (by decide), BitVec.getLsbD_ofNat, Nat.testBit_eq_decide_div_mod_eq]
  simp only [show (31 < 32) = True by simp, decide_true, Bool.true_and]
  exact decide_eq_decide.mpr (by omega)

end Sys2Proof.Machine
end

