-- ==== Sys2Proof/Laws/Alarms.lean ====
section
/-! SUPPORT. Alarms: what a counted event leaves alone, and what an acknowledgement clears. -/
namespace Sys2Proof.Machine

/-- `t` is `s` but for the registers of the performance monitor and what is signalled outward. -/
structure PmcOnly (s t : State) : Prop where
  regs : ∀ a, ¬(0x20000 ≤ a ∧ a < 0x21000) → t.rd a = s.rd a
  flt : t.flt = s.flt
  fbk : t.fbk = s.fbk
  sorted : s.regs.sorted = true → t.regs.sorted = true

theorem PmcOnly.refl (s : State) : PmcOnly s s := ⟨fun _ _ => rfl, rfl, rfl, id⟩

theorem PmcOnly.trans {s t u : State} (h : PmcOnly s t) (g : PmcOnly t u) : PmcOnly s u :=
  ⟨fun a ha => (g.regs a ha).trans (h.regs a ha), g.flt.trans h.flt, g.fbk.trans h.fbk, fun k => g.sorted (h.sorted k)⟩

theorem PmcOnly.wr (s : State) (a : Nat) (v : Word) (ha : 0x20000 ≤ a ∧ a < 0x21000) : PmcOnly s (s.wr a v) :=
  ⟨fun i hi => State.rd_wr_other s a i v (by rintro rfl; exact hi ha), rfl, rfl, State.wr_sorted s a v⟩

theorem PmcOnly.setBit (s : State) (a i : Nat) (ha : 0x20000 ≤ a ∧ a < 0x21000) : PmcOnly s (s.setBit a i) :=
  ⟨fun j hj => State.rd_wr_other s a j _ (by rintro rfl; exact hj ha), rfl, rfl, State.wr_sorted s a _⟩

theorem PmcOnly.count (u evt inst amt : Nat) (s : State) (k : Nat) (hu : u < 13) (hk : k < 8) : PmcOnly s (pmcCount u evt inst amt s k) := by
  unfold pmcCount
  split
  · extract_lets old sum t
    have ht : PmcOnly s t := (PmcOnly.wr s _ _ (by simp [A.PMC_CTR_W0]; omega)).trans (.wr _ _ _ (by simp [A.PMC_CTR_W0]; omega))
    clear_value t
    split
    · exact ht
    · split
      · exact ht
      · exact (ht.trans (.setBit _ _ _ (by simp [A.PMC_OVF]; omega))).trans (.setBit _ _ _ ⟨(by decide : 0x20000 ≤ A.PMC_IRQ_STAT), (by decide : A.PMC_IRQ_STAT < 0x21000)⟩)
  · exact .refl s

theorem PmcOnly.raw (u evt inst amt : Nat) (s : State) (hu : u < 13) : PmcOnly s (pmcRaw u evt inst amt s) := by
  unfold pmcRaw
  have c : ∀ k, k < 8 → ∀ t, PmcOnly t (pmcCount u evt inst amt t k) := fun k hk t => .count u evt inst amt t k hu hk
  exact (((((((c 0 (by decide) s).trans (c 1 (by decide) _)).trans (c 2 (by decide) _)).trans (c 3 (by decide) _)).trans (c 4 (by decide) _)).trans
    (c 5 (by decide) _)).trans (c 6 (by decide) _)).trans (c 7 (by decide) _)

theorem PmcOnly.signal (v : Nat) (s : State) : PmcOnly s (signalVector v s) := by
  unfold signalVector
  split
  · split
    · split
      · exact ⟨fun _ _ => rfl, rfl, rfl, id⟩
      · exact PmcOnly.trans (t := s.emit _) ⟨fun _ _ => rfl, rfl, rfl, id⟩ (.raw 12 _ _ _ _ (by decide))
    · exact ⟨fun _ _ => rfl, rfl, rfl, id⟩
  · exact .refl s

/-- A counted event changes the performance monitor alone. -/
theorem PmcOnly.event (u evt inst amt : Nat) (s : State) (hu : u < 13) : PmcOnly s (pmcEvent u evt inst amt s) := by
  unfold pmcEvent withGroup
  extract_lets t
  split
  · exact (PmcOnly.raw u evt inst amt s hu).trans (.signal _ _)
  · exact .raw u evt inst amt s hu

theorem countAccess_pmcOnly (p : Path) (s : State) : PmcOnly s (countAccess p s) := .event 0 _ _ _ s (by decide)

/-- A raised alarm stands. -/
theorem alarmRaise_bit (n : Nat) (s : State) (hn : n < 32) (hm : s.regs.sorted = true) : (alarmRaise n s).bit A.SYS_ALARM_STAT n = true := by
  unfold alarmRaise
  extract_lets _ u
  have hu : u.regs = s.regs := rfl
  clear_value u
  split
  · assumption
  · have p : ∀ w, (pmcEvent 0 0x09 0x80 1 w).bit A.SYS_ALARM_STAT n = w.bit A.SYS_ALARM_STAT n := fun w => by
      unfold State.bit; rw [(PmcOnly.event 0 _ _ _ w (by decide)).regs _ (by decide)]
    rw [p]
    have g : ∀ w, (signalVector (32 + 1) w).bit A.SYS_ALARM_STAT n = w.bit A.SYS_ALARM_STAT n := fun w => by
      unfold State.bit; rw [(PmcOnly.signal _ w).regs _ (by decide)]
    have b : (u.setBit A.SYS_ALARM_STAT n).bit A.SYS_ALARM_STAT n = true := by
      rw [State.bit_setBit u _ n n hn (by rw [hu]; exact hm), if_pos rfl]
    unfold irqSet withGroup
    extract_lets t
    split
    · rw [g]; exact b
    · exact b

/-- The entries that wait in a block's queue. -/
def waiting (s : State) (blk : Nat) : Nat := (s.fbk.queued.filter (fun q => decide (q.block = blk))).length

theorem State.bit_clrBit (s : State) (a i j : Nat) (hi : i < 32) (hm : s.regs.sorted = true) :
    (s.clrBit a i).bit a j = (s.bit a j && !decide (j = i)) := by
  unfold State.bit State.clrBit State.set
  rw [State.rd_wr_same _ _ _ hm, fieldSet_bit _ _ _ _ _ (show i + 1 ≤ 32 by omega)]
  by_cases h : j = i
  · subst h; simp
  · rw [if_neg (show ¬ (i ≤ j ∧ j < i + 1) by omega)]; simp [h]

/-- An entry whose block's queue has room joins it, and nothing else changes. -/
theorem enqueueEntry_room (e : Entry) (s : State) (h : waiting s (e.code / 256) < 64) :
    (enqueueEntry e s).regs = s.regs ∧ (enqueueEntry e s).flt = s.flt ∧ ∀ blk, waiting (enqueueEntry e s) blk ≤ waiting s blk + 1 := by
  have k : enqueueEntry e s = { s with fbk := { s.fbk with queued := s.fbk.queued ++ [⟨e.code / 256, s.now, e⟩] } } := if_pos h
  rw [k]
  refine ⟨rfl, rfl, fun blk => ?_⟩
  unfold waiting
  rw [List.filter_append, List.length_append]
  have h1 : ∀ q : QEntry, (List.filter (fun q => decide (q.block = blk)) [q]).length ≤ 1 := fun q => List.length_filter_le _ [q]
  exact Nat.add_le_add_left (h1 _) _

theorem record_room (code a0 a1 a2 a3 : Nat) (s : State) (h : waiting s (code / 256) < 64) :
    (record code a0 a1 a2 a3 s).regs = s.regs ∧ (record code a0 a1 a2 a3 s).flt = s.flt ∧ ∀ blk, waiting (record code a0 a1 a2 a3 s) blk ≤ waiting s blk + 1 :=
  enqueueEntry_room _ s h

/-- One acknowledgement, in a state whose system queue has room for its record. -/
theorem ackAlarm_spec (v : Word) (s : State) (n : Nat) (hn : n < 32) (hm : s.regs.sorted = true) (hq : waiting s 0 < 64) :
    (ackAlarm v s n).regs.sorted = true ∧ (ackAlarm v s n).flt = s.flt ∧ waiting (ackAlarm v s n) 0 ≤ waiting s 0 + 1
    ∧ ∀ j, (ackAlarm v s n).bit A.SYS_ALARM_STAT j = (s.bit A.SYS_ALARM_STAT j && !(decide (j = n) && v.getLsbD n && !(s.flt.raised.testBit n))) := by
  unfold ackAlarm
  cases hc : (v.getLsbD n && !(s.flt.raised.testBit n)) with
  | false => simp [hm, Bool.and_assoc, hc]
  | true =>
    rw [if_pos rfl]
    unfold alarmClear
    cases hb : s.bit A.SYS_ALARM_STAT n with
    | false =>
      refine ⟨hm, rfl, Nat.le_succ _, fun j => ?_⟩
      by_cases h : j = n
      · subst h; simp [hb]
      · simp [h]
    | true =>
      rw [if_pos rfl]
      have hw : waiting (s.clrBit A.SYS_ALARM_STAT n) 0 = waiting s 0 := rfl
      obtain ⟨r, f, q⟩ := record_room 0x000F n 0 0 0 (s.clrBit A.SYS_ALARM_STAT n) (hw ▸ hq)
      refine ⟨?_, f, hw ▸ q 0, fun j => ?_⟩
      · rw [r]; exact State.set_sorted _ _ _ hm
      · rw [Bool.and_assoc, hc, Bool.and_true, ← State.bit_clrBit s A.SYS_ALARM_STAT n j hn hm]
        unfold State.bit State.rd
        rw [r]

/-- What the acknowledgement of the three latched alarms leaves. -/
theorem ackAlarms_bit (v : Word) (s : State) (hm : s.regs.sorted = true) (hq : waiting s 0 + 3 ≤ 64) :
    (ackAlarms v s).flt = s.flt ∧ ∀ j, (ackAlarms v s).bit A.SYS_ALARM_STAT j
      = (s.bit A.SYS_ALARM_STAT j && !(decide (j = 10 ∨ j = 11 ∨ j = 15) && v.getLsbD j && !(s.flt.raised.testBit j))) := by
  obtain ⟨m1, f1, q1, b1⟩ := ackAlarm_spec v s 10 (by decide) hm (by omega)
  obtain ⟨m2, f2, q2, b2⟩ := ackAlarm_spec v _ 11 (by decide) m1 (by omega)
  obtain ⟨m3, f3, -, b3⟩ := ackAlarm_spec v _ 15 (by decide) m2 (by omega)
  refine ⟨f3.trans (f2.trans f1), fun j => ?_⟩
  refine (b3 j).trans ?_
  rw [b2 j, b1 j, f2, f1]
  by_cases h10 : j = 10
  · subst h10; simp
  · by_cases h11 : j = 11
    · subst h11; simp
    · by_cases h15 : j = 15
      · subst h15; simp
      · simp [h10, h11, h15]

end Sys2Proof.Machine
end

