-- ==== Sys2Proof/Laws/Arith.lean ====
section
/-! SUPPORT. Modular arithmetic: what the shared operations compute. -/
namespace Sys2Proof.Machine

theorem powModBits_eq (m : Nat) : ∀ n b e r : Nat, e < 2 ^ n → r % m = r → powModBits m n b e r = r * b ^ e % m
  | 0, b, e, r, he, hr => by
    have : e = 0 := by simpa using he
    simp [powModBits, this, hr]
  | n + 1, b, e, r, he, hr => by
    unfold powModBits
    have hd : e / 2 < 2 ^ n := by omega
    have hsq : (b * b) ^ (e / 2) = b ^ (2 * (e / 2)) := by rw [← Nat.pow_two, ← Nat.pow_mul]
    have key : ∀ x : Nat, x * (b * b % m) ^ (e / 2) % m = x * b ^ (2 * (e / 2)) % m := by
      intro x
      rw [Nat.mul_mod, ← Nat.pow_mod, ← Nat.mul_mod, hsq]
    split
    · rename_i h
      rw [powModBits_eq m n _ _ _ hd (Nat.mod_mod _ _), key, Nat.mod_mul_mod, Nat.mul_assoc, ← Nat.pow_succ', show (2 * (e / 2)).succ = e by omega]
    · rename_i h
      rw [powModBits_eq m n _ _ _ hd hr, key, show 2 * (e / 2) = e by omega]

/-- Square and multiply computes the power. -/
theorem powMod_eq (b e m : Nat) : powMod b e m = b ^ e % m := by
  unfold powMod
  rw [powModBits_eq m _ _ _ _ Nat.lt_log2_self (Nat.mod_mod 1 m), Nat.mod_mul_mod, Nat.one_mul, ← Nat.pow_mod]

theorem egcd_gcd : ∀ (n r0 r1 : Nat) (s0 s1 : Int), r1 ≤ r0 → r0 * r1 < 2 ^ n → (egcd (n + 1) r0 r1 s0 s1).1 = Nat.gcd r0 r1
  | 0, r0, r1, s0, s1, hle, hp => by
    have : r1 = 0 := by
      rcases Nat.eq_zero_or_pos r1 with h | h
      · exact h
      · have := Nat.mul_pos (Nat.lt_of_lt_of_le h hle) h
        omega
    simp [egcd, this]
  | n + 1, r0, r1, s0, s1, hle, hp => by
    unfold egcd
    split
    · rename_i h; simp [h]
    · rename_i h
      have hr := Nat.mod_lt r0 (Nat.pos_of_ne_zero h)
      have h2 : r0 % r1 * 2 ≤ r0 := by
        have h1 : r1 * 1 ≤ r1 * (r0 / r1) := Nat.mul_le_mul_left r1 (Nat.div_pos hle (Nat.pos_of_ne_zero h))
        have h3 := Nat.div_add_mod r0 r1
        omega
      rw [egcd_gcd n r1 (r0 % r1) _ _ (Nat.le_of_lt hr) ?_, Nat.gcd_comm r1, ← Nat.gcd_rec, Nat.gcd_comm]
      have := Nat.mul_le_mul_left r1 h2
      have e : r1 * (r0 % r1 * 2) = r1 * (r0 % r1) * 2 := (Nat.mul_assoc _ _ _).symm
      have e' : r1 * r0 = r0 * r1 := Nat.mul_comm _ _
      have e'' : 2 ^ (n + 1) = 2 ^ n * 2 := Nat.pow_succ ..
      omega

theorem egcd_coeff (a m : Int) : ∀ (n r0 r1 : Nat) (s0 s1 : Int), m ∣ r0 - s0 * a → m ∣ r1 - s1 * a →
    m ∣ (egcd n r0 r1 s0 s1).1 - (egcd n r0 r1 s0 s1).2 * a
  | 0, r0, r1, s0, s1, h0, h1 => h0
  | n + 1, r0, r1, s0, s1, h0, h1 => by
    unfold egcd
    split
    · exact h0
    · refine egcd_coeff a m n _ _ _ _ h1 ?_
      have e : ((r0 % r1 : Nat) : Int) - (s0 - (r0 / r1 : Nat) * s1) * a = (r0 - s0 * a) - (r0 / r1 : Nat) * (r1 - s1 * a) := by
        have h3 : (r0 : Int) = r1 * (r0 / r1 : Nat) + (r0 % r1 : Nat) := by exact_mod_cast (Nat.div_add_mod r0 r1).symm
        rw [Int.sub_mul, Int.mul_sub, Int.mul_assoc]
        have h4 : (r1 : Int) * (r0 / r1 : Nat) = (r0 / r1 : Nat) * r1 := Int.mul_comm _ _
        omega
      rw [e]
      exact Int.dvd_sub h0 (Int.dvd_mul_of_dvd_right h1)

/-- The inverse of an operand below the modulus, where there is one. -/
theorem invMod_spec {a m : Nat} (ha : a < m) :
    (Nat.gcd a m = 1 → ∃ i, invMod a m = some i ∧ i < m ∧ a * i % m = 1 % m) ∧ (Nat.gcd a m ≠ 1 → m ≠ 1 → invMod a m = none) := by
  have hm : m ≠ 0 := by omega
  have hlog : m < 2 ^ (Nat.log2 m + 1) := Nat.lt_log2_self
  have hstep : egcd (2 * Nat.log2 m + 4) a m 1 0 = egcd (2 * Nat.log2 m + 2 + 1) m a 0 1 := by
    rw [show 2 * Nat.log2 m + 4 = (2 * Nat.log2 m + 2 + 1) + 1 by omega]
    conv => lhs; unfold egcd
    rw [if_neg hm, Nat.mod_eq_of_lt ha, Nat.div_eq_of_lt ha]
    simp
  have hprod : m * a < 2 ^ (2 * Nat.log2 m + 2) := by
    have h1 : m * a < m * m := Nat.mul_lt_mul_of_pos_left ha (by omega)
    have h2 : m * m ≤ 2 ^ (Nat.log2 m + 1) * 2 ^ (Nat.log2 m + 1) := Nat.mul_le_mul (Nat.le_of_lt hlog) (Nat.le_of_lt hlog)
    rw [← Nat.pow_add, show Nat.log2 m + 1 + (Nat.log2 m + 1) = 2 * Nat.log2 m + 2 by omega] at h2
    omega
  have hg : (egcd (2 * Nat.log2 m + 4) a m 1 0).1 = Nat.gcd a m := by
    rw [hstep, egcd_gcd _ _ _ _ _ (Nat.le_of_lt ha) hprod, Nat.gcd_comm]
  have hc : (m : Int) ∣ (egcd (2 * Nat.log2 m + 4) a m 1 0).1 - (egcd (2 * Nat.log2 m + 4) a m 1 0).2 * a :=
    egcd_coeff a m _ a m 1 0 (by simp) (by simp)
  unfold invMod
  rw [if_neg hm]
  generalize egcd (2 * Nat.log2 m + 4) a m 1 0 = g at hg hc ⊢
  refine ⟨fun h => ?_, fun h h1 => ?_⟩
  · rw [if_pos (hg.trans h)]
    rw [hg, h] at hc
    have hpos : (0 : Int) < m := by omega
    have h0 := Int.emod_nonneg g.2 (by omega : (m : Int) ≠ 0)
    have h1 := Int.emod_lt_of_pos g.2 hpos
    refine ⟨_, rfl, by omega, ?_⟩
    have e : ((a * (g.2 % (m : Int)).toNat : Nat) : Int) = a * (g.2 % m) := by rw [Int.natCast_mul, Int.toNat_of_nonneg h0]
    apply Int.ofNat.inj
    show ((a * (g.2 % (m : Int)).toNat % m : Nat) : Int) = ((1 % m : Nat) : Int)
    rw [Int.natCast_emod, e, Int.natCast_emod, Int.mul_emod, Int.emod_emod, ← Int.mul_emod, Int.mul_comm]
    refine Int.emod_eq_emod_iff_emod_sub_eq_zero.mpr ?_
    obtain ⟨k, hk⟩ := hc
    have h2 : g.2 * (a : Int) - ((1 : Nat) : Int) = m * (-k) := by rw [Int.mul_neg]; omega
    rw [h2]
    exact Int.mul_emod_right _ _
  · rw [if_neg (by rw [hg]; exact h), if_neg h1]

end Sys2Proof.Machine
end

