-- ==== Sys2Proof/Laws/Bits.lean ====
section
/-! SUPPORT. The laws of the bit operations that frames and images rest on. -/
namespace Sys2Proof.Machine

theorem crcStep_lt (w poly crc : Nat) (bit : Bool) (hp : poly < 2 ^ w) : crcStep w poly crc bit < 2 ^ w := by
  unfold crcStep
  extract_lets _ sh
  have h : sh < 2 ^ w := Nat.mod_lt _ (Nat.two_pow_pos w)
  split
  · exact Nat.xor_lt_two_pow h hp
  · exact h

/-- A CRC of width `w` has `w` bits. -/
theorem crcMsb_lt (w poly init : Nat) (bs : Bytes) (hp : poly < 2 ^ w) (hi : init < 2 ^ w) : crcMsb w poly init bs < 2 ^ w := by
  unfold crcMsb
  have bits : ∀ (l : List Bool) (c : Nat), c < 2 ^ w → l.foldl (crcStep w poly) c < 2 ^ w := by
    intro l
    induction l with
    | nil => exact fun c h => h
    | cons b l ih => exact fun c _ => ih _ (crcStep_lt w poly c b hp)
  induction bs generalizing init with
  | nil => exact hi
  | cons b l ih => exact ih _ (bits _ _ hi)

/-! ## Little-endian fields -/

theorem natLE_length (n v : Nat) : (natLE n v).length = n := by
  induction n generalizing v with
  | zero => rfl
  | succ n ih => simp [natLE, ih]

/-- The bytes of a number read back as the number, cut to their width. -/
theorem leNat_natLE (n v : Nat) : leNat (natLE n v) = v % 256 ^ n := by
  induction n generalizing v with
  | zero => simp [natLE, leNat, Nat.mod_one]
  | succ n ih =>
    simp only [natLE, leNat, ih, BitVec.toNat_ofNat]
    rw [show 256 ^ (n + 1) = 256 * 256 ^ n by rw [Nat.pow_succ, Nat.mul_comm], Nat.mod_mul]

/-- A field that follows `a` and precedes `c` lies at the length of `a`. -/
theorem leAt_append (a c : Bytes) (n v o : Nat) (ho : a.length = o) : leAt (a ++ natLE n v ++ c) o n = v % 256 ^ n := by
  subst ho
  unfold leAt slice
  rw [List.append_assoc, List.drop_left, List.take_append_of_le_length (Nat.le_of_eq (natLE_length n v).symm)]
  rw [List.take_of_length_le (Nat.le_of_eq (natLE_length n v)), leNat_natLE]

end Sys2Proof.Machine
end

