-- ==== Sys2Proof/Laws/Crypto.lean ====
section
/-! SUPPORT. Lengths in AES-128, SHA-256 and HKDF-Expand-Label, and that what AES-GCM seals under a traffic secret it opens again (R151). -/
namespace Sys2Proof.Machine

@[simp] theorem natBE_length (n v : Nat) : (natBE n v).length = n := by
  have : ∀ n v, (natLE n v).length = n := by
    intro n
    induction n with
    | zero => intro v; rfl
    | succ n ih => intro v; simp [natLE, ih]
  simp [natBE, this]

@[simp] theorem zeros_length (n : Nat) : (zeros n).length = n := by simp [zeros]

@[simp] theorem xorBytes_length (a b : Bytes) : (xorBytes a b).length = min a.length b.length := by simp [xorBytes]

/-- The same pad twice gives the string back. -/
theorem xorBytes_twice : ∀ (p k : Bytes), p.length ≤ k.length → xorBytes (xorBytes p k) k = p
  | [], k, _ => by simp [xorBytes]
  | x :: p, [], h => by simp at h
  | x :: p, y :: k, h => by
    have ih := xorBytes_twice p k (by simpa using h)
    simp only [xorBytes, List.zipWith_cons_cons] at ih ⊢
    rw [ih, BitVec.xor_assoc, BitVec.xor_self, BitVec.xor_zero]

theorem chunks_length {w : Nat} (hw : 0 < w) : ∀ (n : Nat) (b : Bytes), w ∣ b.length → ∀ x ∈ chunks w n b, x.length = w
  | 0, _, _, x, h => by simp [chunks] at h
  | n + 1, b, hb, x, h => by
    unfold chunks at h
    split at h
    · simp at h
    · rename_i g
      have hl : w ≤ b.length := Nat.le_of_dvd (by cases b with | nil => simp at g | cons => simp) hb
      rcases List.mem_cons.mp h with rfl | h
      · simp [hl]
      · exact chunks_length hw n (b.drop w) (by rw [List.length_drop]; exact Nat.dvd_sub hb (dvd_refl w)) x h

theorem chunks_count {w : Nat} (hw : 0 < w) : ∀ (n : Nat) (b : Bytes) (k : Nat), b.length = w * k → k ≤ n → (chunks w n b).length = k
  | 0, _, k, _, h => by simp [chunks]; omega
  | n + 1, b, k, hb, h => by
    unfold chunks
    cases k with
    | zero => have : b = [] := List.eq_nil_of_length_eq_zero (by simpa using hb); subst this; simp
    | succ k =>
      have : b.isEmpty = false := by cases b with | nil => simp at hb; omega | cons => rfl
      rw [this]
      simp only [Bool.false_eq_true, if_false, List.length_cons]
      rw [chunks_count hw n (b.drop w) k (by rw [List.length_drop, hb, Nat.mul_succ]; omega) (by omega)]

theorem keyExtend_words {nk : Nat} (h0 : 0 < nk) : ∀ (n i : Nat) (rc : Byte) (w : List Bytes), nk ≤ w.length → (∀ x ∈ w, x.length = 4) →
    (∀ x ∈ keyExtend nk n i rc w, x.length = 4) ∧ (keyExtend nk n i rc w).length = w.length + n
  | 0, _, _, w, _, h => ⟨h, rfl⟩
  | n + 1, i, rc, w, hl, h => by
    have ht : (w.headD []).length = 4 := by
      cases w with
      | nil => simp at hl; omega
      | cons x w => exact h x (by simp)
    have hg : (w.getD (nk - 1) []).length = 4 := by
      have : nk - 1 < w.length := by omega
      rw [List.getD_eq_getElem _ _ this]
      exact h _ (List.getElem_mem this)
    have := keyExtend_words h0 n (i + 1) (if i % nk = 0 then xtime rc else rc)
      (xorBytes (w.getD (nk - 1) []) (if i % nk = 0 then xorBytes (((w.headD []).drop 1 ++ (w.headD []).take 1).map sbox) [rc, 0, 0, 0]
        else if nk = 8 ∧ i % nk = 4 then (w.headD []).map sbox else w.headD []) :: w) (by simp; omega) (by
        intro x hx
        rcases List.mem_cons.mp hx with rfl | hx
        · rw [xorBytes_length, hg]
          split
          · simp [-List.headD_eq_head?_getD, ht]
          · split <;> simp [-List.headD_eq_head?_getD, ht]
        · exact h x hx)
    refine ⟨this.1, this.2.trans ?_⟩
    simp; omega

theorem flatten_length_four {l : List Bytes} (h : ∀ x ∈ l, x.length = 4) : l.flatten.length = 4 * l.length := by
  induction l with
  | nil => rfl
  | cons x l ih => simp [ih (fun y hy => h y (by simp [hy])), h x (by simp)]; omega

/-- The round keys of AES-128 are blocks. -/
theorem aesKeys_length {k : Bytes} (hk : k.length = 16) : ∀ x ∈ aesKeys k, x.length = 16 := by
  have hp : (pieces 4 k).length = 4 := chunks_count (by omega) _ k 4 (by omega) (by omega)
  have hw := keyExtend_words (nk := 4) (by omega) 40 4 1 (pieces 4 k).reverse (by simp [hp])
    (fun x hx => chunks_length (by omega) _ k ⟨4, by omega⟩ x (List.mem_reverse.mp hx))
  unfold aesKeys
  simp only [hk]
  refine chunks_length (by omega) _ _ ?_
  rw [flatten_length_four (fun x hx => hw.1 x (List.mem_reverse.mp hx)), List.length_reverse]
  have : (keyExtend 4 40 4 1 (pieces 4 k).reverse).length = 44 := by rw [hw.2]; simp [hp]
  exact ⟨11, by omega⟩

theorem aesRounds_length : ∀ (ks : List Bytes) (b : Bytes), (∀ x ∈ ks, x.length = 16) → b.length = 16 → (aesRounds ks b).length = 16
  | [], _, _, hb => hb
  | [k], b, h, _ => by simp [aesRounds, shiftRows, h k (by simp)]
  | k :: l :: ks, b, h, _ => by
    unfold aesRounds
    exact aesRounds_length (l :: ks) _ (fun x hx => h x (by simp [List.mem_cons.mp hx])) (by simp [mixColumns, h k (by simp)])

/-- A block of AES-128 is a block. -/
theorem aesEnc_length {k b : Bytes} (hk : k.length = 16) (hb : b.length = 16) : (aesEnc k b).length = 16 := by
  have h := aesKeys_length hk
  unfold aesEnc
  split
  · exact hb
  · rename_i x xs e
    rw [e] at h
    exact aesRounds_length xs _ (fun y hy => h y (by simp [hy])) (by simp [h x (by simp), hb])

theorem gcmTag_length {key iv : Bytes} (a c : Bytes) (hk : key.length = 16) (hi : iv.length = 12) : (gcmTag key iv a c).length = 16 := by
  simp [gcmTag, ghash, aesEnc_length hk (show (iv ++ natBE 4 1).length = 16 by simp [hi])]

theorem ctr_pad_length {key : Bytes} (iv : Bytes) (n : Nat) (hk : key.length = 16) :
    ((List.range n).flatMap (fun i => aesEnc key (natBE 16 ((beNat iv + i) % 2 ^ 128)))).length = 16 * n := by
  rw [List.length_flatMap]
  simp only [aesEnc_length hk (natBE_length 16 _)]
  simp; omega

theorem ctr_length {key : Bytes} (iv p : Bytes) (hk : key.length = 16) : (ctr key iv p).length = p.length := by
  rw [ctr, xorBytes_length, ctr_pad_length iv _ hk]; omega

theorem gcmSeal_length {key iv : Bytes} (a p : Bytes) (hk : key.length = 16) (hi : iv.length = 12) : (gcmSeal key iv a p).length = p.length + 16 := by
  simp [gcmSeal, ctr_length _ _ hk, gcmTag_length _ _ hk hi]

/-- What AES-128-GCM seals it opens (R151). -/
theorem gcmOpen_seal {key iv : Bytes} (a p : Bytes) (hk : key.length = 16) (hi : iv.length = 12) : gcmOpen key iv a (gcmSeal key iv a p) = some p := by
  have hl := gcmSeal_length a p hk hi
  have hc : (ctr key (iv ++ natBE 4 2) p).length = p.length := ctr_length _ _ hk
  have e : ((gcmSeal key iv a p).length - 16) = (ctr key (iv ++ natBE 4 2) p).length := by omega
  unfold gcmOpen
  simp only
  have ht : (gcmSeal key iv a p).take ((gcmSeal key iv a p).length - 16) = ctr key (iv ++ natBE 4 2) p := by rw [e, gcmSeal]; simp
  have hd : (gcmSeal key iv a p).drop ((gcmSeal key iv a p).length - 16) = gcmTag key iv a (ctr key (iv ++ natBE 4 2) p) := by rw [e, gcmSeal]; simp
  rw [ht, hd, if_pos ⟨by omega, rfl⟩]
  refine congrArg some ?_
  unfold ctr
  rw [show (xorBytes p _).length = p.length from hc]
  exact xorBytes_twice _ _ (by rw [ctr_pad_length _ _ hk]; omega)

theorem sha256_length (b : Bytes) : (sha256 b).length = 32 := by
  have round : ∀ (ks : List (BitVec 32)) (v : List (BitVec 32)), v.length = 8 → (ks.foldl sha256Round v).length = 8 := by
    intro ks
    induction ks with
    | nil => intro v h; exact h
    | cons k ks ih => intro v h; exact ih _ rfl
  have blocks : ∀ (l : List Bytes) (h : List (BitVec 32)), h.length = 8 → (l.foldl sha256Block h).length = 8 := by
    intro l
    induction l with
    | nil => intro h e; exact e
    | cons x l ih => intro h e; exact ih _ (by simp [sha256Block, round _ _ e, e])
  have flat : ∀ l : List (BitVec 32), (l.flatMap (fun x => natBE 4 x.toNat)).length = 4 * l.length := by
    intro l
    induction l with
    | nil => rfl
    | cons x l ih => simp [ih]; omega
  rw [sha256, flat, blocks _ _ (by decide +kernel)]

/-- HKDF-Expand-Label gives the length asked of it, up to that of SHA-256. -/
theorem tlsExpand_length {suite n : Nat} (secret : Bytes) (name : String) (ctx : Bytes) (hs : suite384 suite = false) (hn : n ≤ 32) :
    (tlsExpand suite secret name ctx n).length = n := by
  have hb : ∀ k i t info, 32 ≤ (tlsBlocks suite secret info (k + 1) i t).length := by
    intro k i t info
    show 32 ≤ (tlsHmac suite secret (t ++ info ++ natBE 1 i) ++ _).length
    have : (tlsHmac suite secret (t ++ info ++ natBE 1 i)).length = 32 := by
      unfold tlsHmac
      rw [hs]
      exact sha256_length _
    rw [List.length_append]; omega
  simp only [tlsExpand, List.length_take]
  have := hb (n / tlsHashLen suite) 1 [] (natBE 2 n ++ natBE 1 (label ("tls13 " ++ name)).length ++ label ("tls13 " ++ name) ++ natBE 1 ctx.length ++ ctx)
  omega

theorem TlsDir.key_length (d : TlsDir) {suite : Nat} (hs : suite384 suite = false) : (d.key suite).length = 16 := by
  unfold TlsDir.key
  rw [hs]
  exact tlsExpand_length _ _ _ hs (by decide)

theorem TlsDir.nonce_length (d : TlsDir) {suite : Nat} (hs : suite384 suite = false) : (d.nonce suite).length = 12 := by
  simp [TlsDir.nonce, tlsExpand_length (n := 12) d.secret "iv" [] hs (by omega)]

/-- A record sealed under a traffic secret of the suite 0x1301 is opened under it (R151). -/
theorem record_opens (d : TlsDir) {suite : Nat} (hs : suite384 suite = false) (a p : Bytes) :
    gcmOpen (d.key suite) (d.nonce suite) a (gcmSeal (d.key suite) (d.nonce suite) a p) = some p :=
  gcmOpen_seal a p (d.key_length hs) (d.nonce_length hs)

theorem record_length (d : TlsDir) {suite : Nat} (hs : suite384 suite = false) (a p : Bytes) :
    (gcmSeal (d.key suite) (d.nonce suite) a p).length = p.length + 16 :=
  gcmSeal_length a p (d.key_length hs) (d.nonce_length hs)

end Sys2Proof.Machine
end

