-- ==== Sys2Proof/Laws/Flash.lean ====
section
/-! SUPPORT. The boot flash: what a store, a program and a buffer load change, byte by byte. -/
namespace Sys2Proof.Machine

theorem flashPut_sorted {m : Map Byte} (a : Nat) (b : Byte) (h : m.sorted = true) : (flashPut m a b).sorted = true := by
  unfold flashPut
  split
  · exact Map.sorted_del a h
  · exact Map.sorted_put a b h

theorem flashPut_read {m : Map Byte} (a x : Nat) (b : Byte) (h : m.sorted = true) :
    ((flashPut m a b).get x).getD 0xFF = if x = a then b else (m.get x).getD 0xFF := by
  unfold flashPut
  by_cases hx : x = a
  · subst hx
    split
    · rename_i hb; rw [Map.get_del_same x h, if_pos rfl, hb]; rfl
    · rw [Map.get_put_same, if_pos rfl]; rfl
  · rw [if_neg hx]
    split
    · rw [Map.get_del_other _ _ _ hx]
    · rw [Map.get_put_other _ _ _ _ hx]

/-- A store changes its own bytes and no other. -/
theorem flashStore_read : ∀ (bs : Bytes) (a x : Nat) (m : Map Byte), m.sorted = true →
    ((flashStore a bs m).get x).getD 0xFF = if a ≤ x ∧ x < a + bs.length then bs.getD (x - a) 0xFF else (m.get x).getD 0xFF
  | [], a, x, m, _ => by
    unfold flashStore
    rw [if_neg (by simp only [List.length_nil]; omega)]
  | b :: bs, a, x, m, h => by
    unfold flashStore
    rw [flashStore_read bs (a + 1) x _ (flashPut_sorted a b h), flashPut_read a x b h]
    by_cases hx : x = a
    · subst hx
      rw [if_neg (by omega), if_pos rfl, if_pos (by simp only [List.length_cons]; omega), Nat.sub_self]
      rfl
    · by_cases hi : a + 1 ≤ x ∧ x < a + 1 + bs.length
      · rw [if_pos hi, if_pos (by simp only [List.length_cons]; omega), show x - a = (x - (a + 1)) + 1 by omega]
        rfl
      · rw [if_neg hi, if_neg hx, if_neg (by simp only [List.length_cons]; omega)]

/-- A store of erased bytes. -/
theorem flashErase_read (n a x : Nat) {m : Map Byte} (h : m.sorted = true) :
    ((flashStore a (List.replicate n 0xFF) m).get x).getD 0xFF = if a ≤ x ∧ x < a + n then 0xFF else (m.get x).getD 0xFF := by
  rw [flashStore_read _ _ _ _ h, List.length_replicate]
  split
  · rename_i hx
    rw [List.getD_eq_getElem?_getD, List.getElem?_replicate, if_pos (by omega)]
    rfl
  · rfl

/-- A program leaves every byte outside its own as it was, and gives an erased byte of its own the buffer's. -/
theorem flashProgram_read : ∀ (bs : Bytes) (a x : Nat) (s : State), s.sys.flash.sorted = true →
    (¬(a ≤ x ∧ x < a + bs.length) → flashByte (flashProgram a bs s) x = flashByte s x)
    ∧ (a ≤ x ∧ x < a + bs.length → flashByte s x = 0xFF → flashByte (flashProgram a bs s) x = bs.getD (x - a) 0xFF)
  | [], a, x, s, _ => ⟨fun _ => rfl, fun h => absurd h (by simp only [List.length_nil]; omega)⟩
  | b :: bs, a, x, s, h => by
    unfold flashProgram
    extract_lets r d _ _
    have hd : d.2.sys.flash = s.sys.flash := by
      simp only [d]
      split <;> rfl
    have key : ∀ u : State, u.sys.flash = flashPut s.sys.flash a d.1 →
        (¬(a ≤ x ∧ x < a + (b :: bs).length) → flashByte (flashProgram (a + 1) bs u) x = flashByte s x)
        ∧ (a ≤ x ∧ x < a + (b :: bs).length → flashByte s x = 0xFF → flashByte (flashProgram (a + 1) bs u) x = (b :: bs).getD (x - a) 0xFF) := by
      intro u hu
      have hs : u.sys.flash.sorted = true := by rw [hu]; exact flashPut_sorted a d.1 h
      have hr : ∀ y, flashByte u y = if y = a then d.1 else flashByte s y := by
        intro y
        unfold flashByte
        rw [hu, flashPut_read a y d.1 h]
      have ih := flashProgram_read bs (a + 1) x u hs
      refine ⟨fun ho => ?_, fun hi he => ?_⟩
      · simp only [List.length_cons] at ho
        rw [ih.1 (by omega), hr, if_neg (by omega)]
      · simp only [List.length_cons] at hi
        by_cases hx : x = a
        · subst hx
          rw [ih.1 (by omega), hr, if_pos rfl, Nat.sub_self]
          simp only [d]
          rw [if_pos he]; rfl
        · rw [ih.2 (by omega) (by rw [hr, if_neg hx]; exact he), show x - a = (x - (a + 1)) + 1 by omega]
          rfl
    exact key _ (by rw [← hd])

theorem flashFetch_other (a i : Nat) (s : State) (hi : ∀ k, k < 64 → i ≠ A.SYS_FL_BUF k) : (flashFetch a s).rd i = s.rd i := by
  unfold flashFetch
  have : ∀ (l : List Nat) (u : State), (∀ k ∈ l, k < 64) → (l.foldl (fun (s : State) (k : Nat) =>
      s.wr (A.SYS_FL_BUF k) (BitVec.ofNat 32 (leNat ((List.range 4).map (fun i => flashByte s (a + 4 * k + i)))))) u).rd i = u.rd i := by
    intro l
    induction l with
    | nil => intros; rfl
    | cons k l ih =>
      intro u hl
      rw [List.foldl_cons, ih _ (fun j hj => hl j (List.mem_cons_of_mem k hj))]
      exact State.rd_wr_other _ _ _ _ (hi k (hl k List.mem_cons_self))
  exact this _ s (fun k hk => List.mem_range.mp hk)

theorem flashFetch_flash (a : Nat) (s : State) : (flashFetch a s).sys = s.sys := by
  unfold flashFetch
  have : ∀ (l : List Nat) (u : State), (l.foldl (fun (s : State) (k : Nat) =>
      s.wr (A.SYS_FL_BUF k) (BitVec.ofNat 32 (leNat ((List.range 4).map (fun i => flashByte s (a + 4 * k + i)))))) u).sys = u.sys := by
    intro l
    induction l with
    | nil => intros; rfl
    | cons k l ih => intro u; rw [List.foldl_cons, ih]; rfl
  exact this _ s

/-- The buffer holds the bytes of the flash, four to a word, low byte first. -/
theorem flashFetch_buffer (a k : Nat) (s : State) (hk : k < 64) (hs : s.regs.sorted = true) :
    (flashFetch a s).rd (A.SYS_FL_BUF k) = BitVec.ofNat 32 (leNat ((List.range 4).map (fun i => flashByte s (a + 4 * k + i)))) := by
  unfold flashFetch
  have : ∀ (n : Nat), ((List.range n).foldl (fun (s : State) (k : Nat) =>
      s.wr (A.SYS_FL_BUF k) (BitVec.ofNat 32 (leNat ((List.range 4).map (fun i => flashByte s (a + 4 * k + i)))))) s).regs.sorted = true
      ∧ ((List.range n).foldl (fun (s : State) (k : Nat) =>
      s.wr (A.SYS_FL_BUF k) (BitVec.ofNat 32 (leNat ((List.range 4).map (fun i => flashByte s (a + 4 * k + i)))))) s).sys = s.sys
      ∧ (k < n → ((List.range n).foldl (fun (s : State) (k : Nat) =>
      s.wr (A.SYS_FL_BUF k) (BitVec.ofNat 32 (leNat ((List.range 4).map (fun i => flashByte s (a + 4 * k + i)))))) s).rd (A.SYS_FL_BUF k)
        = BitVec.ofNat 32 (leNat ((List.range 4).map (fun i => flashByte s (a + 4 * k + i))))) := by
    intro n
    induction n with
    | zero => exact ⟨hs, rfl, fun h => absurd h (by omega)⟩
    | succ n ih =>
      have e : List.range (n + 1) = List.range n ++ [n] := List.range_succ
      rw [e, List.foldl_append]
      simp only [List.foldl_cons, List.foldl_nil]
      generalize (List.range n).foldl _ s = u at ih ⊢
      refine ⟨State.wr_sorted _ _ _ ih.1, ih.2.1, fun h => ?_⟩
      have hf : ∀ y, flashByte u y = flashByte s y := by intro y; unfold flashByte; rw [ih.2.1]
      by_cases hkn : k = n
      · subst hkn
        rw [State.rd_wr_same _ _ _ ih.1]
        simp only [hf]
      · rw [State.rd_wr_other _ _ _ _ (by simp only [A.SYS_FL_BUF]; omega)]
        exact ih.2.2 (by omega)
  exact (this 64).2.2 hk

theorem flashWf_sorted {m : Map Byte} (h : flashWf m = true) : m.sorted = true := by
  unfold flashWf at h
  exact (Bool.and_eq_true_iff.mp h).1

/-- The end of a flash operation, in terms of the state in which it is over and BUSY reads 0. -/
theorem flashOpDone_eq {s u : State} {op a : Nat} {b : Bytes} (f : Bool) (h : s.sys.flashOp = some (op, a, b))
    (hu : { s with sys := { s.sys with flashOp := none } }.set F.SYS_FL_CTL_BUSY 0 = u) :
    execFlashOpDone f s = .next (if f = true then (if op = 0 then u.set F.SYS_FL_CTL_ERR 2
        else flashScramble a (if op = 2 then 65536 else 256) (u.set F.SYS_FL_CTL_ERR 2))
      else if op = 0 then flashFetch a u else if op = 1 then flashProgram a b u
      else { u with sys := { u.sys with flash := flashStore a (List.replicate 65536 0xFF) u.sys.flash } }) := by
  unfold execFlashOpDone
  rw [h]
  subst hu
  rfl

/-- A store of the flash leaves the registers alone. -/
theorem setFlash_rd (s : State) (m : Map Byte) (i : Nat) : State.rd { s with sys := { s.sys with flash := m } } i = s.rd i := rfl

theorem setFlash_flashByte (s : State) (m : Map Byte) (x : Nat) : flashByte { s with sys := { s.sys with flash := m } } x = (m.get x).getD 0xFF := rfl

theorem setFlash_flashOp (s : State) (m : Map Byte) : ({ s with sys := { s.sys with flash := m } } : State).sys.flashOp = s.sys.flashOp := rfl

end Sys2Proof.Machine
end

