-- ==== Sys2Proof/Laws/State.lean ====
section
/-! SUPPORT. What the named updates of the state leave alone: one lemma for each field and each update, true by definition. -/
namespace Sys2Proof.Machine

/-! ## State.wr -/

@[simp] theorem State.wr_pending (s : State) (a : Nat) (v : Word) : (s.wr a v).pending = s.pending := rfl
@[simp] theorem State.wr_now (s : State) (a : Nat) (v : Word) : (s.wr a v).now = s.now := rfl
@[simp] theorem State.wr_fresh (s : State) (a : Nat) (v : Word) : (s.wr a v).fresh = s.fresh := rfl
@[simp] theorem State.wr_out (s : State) (a : Nat) (v : Word) : (s.wr a v).out = s.out := rfl
@[simp] theorem State.wr_mclk (s : State) (a : Nat) (v : Word) : (s.wr a v).mclk = s.mclk := rfl
@[simp] theorem State.wr_latchMw0 (s : State) (a : Nat) (v : Word) : (s.wr a v).latchMw0 = s.latchMw0 := rfl
@[simp] theorem State.wr_latchMspi (s : State) (a : Nat) (v : Word) : (s.wr a v).latchMspi = s.latchMspi := rfl
@[simp] theorem State.wr_copyMw0 (s : State) (a : Nat) (v : Word) : (s.wr a v).copyMw0 = s.copyMw0 := rfl
@[simp] theorem State.wr_copyMspi (s : State) (a : Nat) (v : Word) : (s.wr a v).copyMspi = s.copyMspi := rfl
@[simp] theorem State.wr_sys (s : State) (a : Nat) (v : Word) : (s.wr a v).sys = s.sys := rfl
@[simp] theorem State.wr_flt (s : State) (a : Nat) (v : Word) : (s.wr a v).flt = s.flt := rfl
@[simp] theorem State.wr_fbk (s : State) (a : Nat) (v : Word) : (s.wr a v).fbk = s.fbk := rfl
@[simp] theorem State.wr_dtm (s : State) (a : Nat) (v : Word) : (s.wr a v).dtm = s.dtm := rfl
@[simp] theorem State.wr_sko (s : State) (a : Nat) (v : Word) : (s.wr a v).sko = s.sko := rfl
@[simp] theorem State.wr_stk (s : State) (a : Nat) (v : Word) : (s.wr a v).stk = s.stk := rfl
@[simp] theorem State.wr_svp (s : State) (a : Nat) (v : Word) : (s.wr a v).svp = s.svp := rfl
@[simp] theorem State.wr_pke (s : State) (a : Nat) (v : Word) : (s.wr a v).pke = s.pke := rfl
@[simp] theorem State.wr_crl (s : State) (a : Nat) (v : Word) : (s.wr a v).crl = s.crl := rfl
@[simp] theorem State.wr_ke (s : State) (a : Nat) (v : Word) : (s.wr a v).ke = s.ke := rfl
@[simp] theorem State.wr_prt (s : State) (a : Nat) (v : Word) : (s.wr a v).prt = s.prt := rfl
@[simp] theorem State.wr_syn (s : State) (a : Nat) (v : Word) : (s.wr a v).syn = s.syn := rfl
@[simp] theorem State.wr_dvl (s : State) (a : Nat) (v : Word) : (s.wr a v).dvl = s.dvl := rfl
@[simp] theorem State.wr_trn (s : State) (a : Nat) (v : Word) : (s.wr a v).trn = s.trn := rfl
@[simp] theorem State.wr_trv (s : State) (a : Nat) (v : Word) : (s.wr a v).trv = s.trv := rfl
@[simp] theorem State.wr_bm (s : State) (a : Nat) (v : Word) : (s.wr a v).bm = s.bm := rfl
@[simp] theorem State.wr_hmi (s : State) (a : Nat) (v : Word) : (s.wr a v).hmi = s.hmi := rfl
@[simp] theorem State.wr_pmc (s : State) (a : Nat) (v : Word) : (s.wr a v).pmc = s.pmc := rfl

/-! ## State.set -/

@[simp] theorem State.set_pending (s : State) (f : Fld) (x : Nat) : (s.set f x).pending = s.pending := by simp only [State.set, State.wr_pending]
@[simp] theorem State.set_now (s : State) (f : Fld) (x : Nat) : (s.set f x).now = s.now := by simp only [State.set, State.wr_now]
@[simp] theorem State.set_fresh (s : State) (f : Fld) (x : Nat) : (s.set f x).fresh = s.fresh := by simp only [State.set, State.wr_fresh]
@[simp] theorem State.set_out (s : State) (f : Fld) (x : Nat) : (s.set f x).out = s.out := by simp only [State.set, State.wr_out]
@[simp] theorem State.set_mclk (s : State) (f : Fld) (x : Nat) : (s.set f x).mclk = s.mclk := by simp only [State.set, State.wr_mclk]
@[simp] theorem State.set_latchMw0 (s : State) (f : Fld) (x : Nat) : (s.set f x).latchMw0 = s.latchMw0 := by simp only [State.set, State.wr_latchMw0]
@[simp] theorem State.set_latchMspi (s : State) (f : Fld) (x : Nat) : (s.set f x).latchMspi = s.latchMspi := by simp only [State.set, State.wr_latchMspi]
@[simp] theorem State.set_copyMw0 (s : State) (f : Fld) (x : Nat) : (s.set f x).copyMw0 = s.copyMw0 := by simp only [State.set, State.wr_copyMw0]
@[simp] theorem State.set_copyMspi (s : State) (f : Fld) (x : Nat) : (s.set f x).copyMspi = s.copyMspi := by simp only [State.set, State.wr_copyMspi]
@[simp] theorem State.set_sys (s : State) (f : Fld) (x : Nat) : (s.set f x).sys = s.sys := by simp only [State.set, State.wr_sys]
@[simp] theorem State.set_flt (s : State) (f : Fld) (x : Nat) : (s.set f x).flt = s.flt := by simp only [State.set, State.wr_flt]
@[simp] theorem State.set_fbk (s : State) (f : Fld) (x : Nat) : (s.set f x).fbk = s.fbk := by simp only [State.set, State.wr_fbk]
@[simp] theorem State.set_dtm (s : State) (f : Fld) (x : Nat) : (s.set f x).dtm = s.dtm := by simp only [State.set, State.wr_dtm]
@[simp] theorem State.set_sko (s : State) (f : Fld) (x : Nat) : (s.set f x).sko = s.sko := by simp only [State.set, State.wr_sko]
@[simp] theorem State.set_stk (s : State) (f : Fld) (x : Nat) : (s.set f x).stk = s.stk := by simp only [State.set, State.wr_stk]
@[simp] theorem State.set_svp (s : State) (f : Fld) (x : Nat) : (s.set f x).svp = s.svp := by simp only [State.set, State.wr_svp]
@[simp] theorem State.set_pke (s : State) (f : Fld) (x : Nat) : (s.set f x).pke = s.pke := by simp only [State.set, State.wr_pke]
@[simp] theorem State.set_crl (s : State) (f : Fld) (x : Nat) : (s.set f x).crl = s.crl := by simp only [State.set, State.wr_crl]
@[simp] theorem State.set_ke (s : State) (f : Fld) (x : Nat) : (s.set f x).ke = s.ke := by simp only [State.set, State.wr_ke]
@[simp] theorem State.set_prt (s : State) (f : Fld) (x : Nat) : (s.set f x).prt = s.prt := by simp only [State.set, State.wr_prt]
@[simp] theorem State.set_syn (s : State) (f : Fld) (x : Nat) : (s.set f x).syn = s.syn := by simp only [State.set, State.wr_syn]
@[simp] theorem State.set_dvl (s : State) (f : Fld) (x : Nat) : (s.set f x).dvl = s.dvl := by simp only [State.set, State.wr_dvl]
@[simp] theorem State.set_trn (s : State) (f : Fld) (x : Nat) : (s.set f x).trn = s.trn := by simp only [State.set, State.wr_trn]
@[simp] theorem State.set_trv (s : State) (f : Fld) (x : Nat) : (s.set f x).trv = s.trv := by simp only [State.set, State.wr_trv]
@[simp] theorem State.set_bm (s : State) (f : Fld) (x : Nat) : (s.set f x).bm = s.bm := by simp only [State.set, State.wr_bm]
@[simp] theorem State.set_hmi (s : State) (f : Fld) (x : Nat) : (s.set f x).hmi = s.hmi := by simp only [State.set, State.wr_hmi]
@[simp] theorem State.set_pmc (s : State) (f : Fld) (x : Nat) : (s.set f x).pmc = s.pmc := by simp only [State.set, State.wr_pmc]

/-! ## State.setB -/

@[simp] theorem State.setB_pending (s : State) (f : Fld) (x : Bool) : (s.setB f x).pending = s.pending := by simp only [State.setB, State.set_pending]
@[simp] theorem State.setB_now (s : State) (f : Fld) (x : Bool) : (s.setB f x).now = s.now := by simp only [State.setB, State.set_now]
@[simp] theorem State.setB_fresh (s : State) (f : Fld) (x : Bool) : (s.setB f x).fresh = s.fresh := by simp only [State.setB, State.set_fresh]
@[simp] theorem State.setB_out (s : State) (f : Fld) (x : Bool) : (s.setB f x).out = s.out := by simp only [State.setB, State.set_out]
@[simp] theorem State.setB_mclk (s : State) (f : Fld) (x : Bool) : (s.setB f x).mclk = s.mclk := by simp only [State.setB, State.set_mclk]
@[simp] theorem State.setB_latchMw0 (s : State) (f : Fld) (x : Bool) : (s.setB f x).latchMw0 = s.latchMw0 := by simp only [State.setB, State.set_latchMw0]
@[simp] theorem State.setB_latchMspi (s : State) (f : Fld) (x : Bool) : (s.setB f x).latchMspi = s.latchMspi := by simp only [State.setB, State.set_latchMspi]
@[simp] theorem State.setB_copyMw0 (s : State) (f : Fld) (x : Bool) : (s.setB f x).copyMw0 = s.copyMw0 := by simp only [State.setB, State.set_copyMw0]
@[simp] theorem State.setB_copyMspi (s : State) (f : Fld) (x : Bool) : (s.setB f x).copyMspi = s.copyMspi := by simp only [State.setB, State.set_copyMspi]
@[simp] theorem State.setB_sys (s : State) (f : Fld) (x : Bool) : (s.setB f x).sys = s.sys := by simp only [State.setB, State.set_sys]
@[simp] theorem State.setB_flt (s : State) (f : Fld) (x : Bool) : (s.setB f x).flt = s.flt := by simp only [State.setB, State.set_flt]
@[simp] theorem State.setB_fbk (s : State) (f : Fld) (x : Bool) : (s.setB f x).fbk = s.fbk := by simp only [State.setB, State.set_fbk]
@[simp] theorem State.setB_dtm (s : State) (f : Fld) (x : Bool) : (s.setB f x).dtm = s.dtm := by simp only [State.setB, State.set_dtm]
@[simp] theorem State.setB_sko (s : State) (f : Fld) (x : Bool) : (s.setB f x).sko = s.sko := by simp only [State.setB, State.set_sko]
@[simp] theorem State.setB_stk (s : State) (f : Fld) (x : Bool) : (s.setB f x).stk = s.stk := by simp only [State.setB, State.set_stk]
@[simp] theorem State.setB_svp (s : State) (f : Fld) (x : Bool) : (s.setB f x).svp = s.svp := by simp only [State.setB, State.set_svp]
@[simp] theorem State.setB_pke (s : State) (f : Fld) (x : Bool) : (s.setB f x).pke = s.pke := by simp only [State.setB, State.set_pke]
@[simp] theorem State.setB_crl (s : State) (f : Fld) (x : Bool) : (s.setB f x).crl = s.crl := by simp only [State.setB, State.set_crl]
@[simp] theorem State.setB_ke (s : State) (f : Fld) (x : Bool) : (s.setB f x).ke = s.ke := by simp only [State.setB, State.set_ke]
@[simp] theorem State.setB_prt (s : State) (f : Fld) (x : Bool) : (s.setB f x).prt = s.prt := by simp only [State.setB, State.set_prt]
@[simp] theorem State.setB_syn (s : State) (f : Fld) (x : Bool) : (s.setB f x).syn = s.syn := by simp only [State.setB, State.set_syn]
@[simp] theorem State.setB_dvl (s : State) (f : Fld) (x : Bool) : (s.setB f x).dvl = s.dvl := by simp only [State.setB, State.set_dvl]
@[simp] theorem State.setB_trn (s : State) (f : Fld) (x : Bool) : (s.setB f x).trn = s.trn := by simp only [State.setB, State.set_trn]
@[simp] theorem State.setB_trv (s : State) (f : Fld) (x : Bool) : (s.setB f x).trv = s.trv := by simp only [State.setB, State.set_trv]
@[simp] theorem State.setB_bm (s : State) (f : Fld) (x : Bool) : (s.setB f x).bm = s.bm := by simp only [State.setB, State.set_bm]
@[simp] theorem State.setB_hmi (s : State) (f : Fld) (x : Bool) : (s.setB f x).hmi = s.hmi := by simp only [State.setB, State.set_hmi]
@[simp] theorem State.setB_pmc (s : State) (f : Fld) (x : Bool) : (s.setB f x).pmc = s.pmc := by simp only [State.setB, State.set_pmc]

/-! ## State.setI -/

@[simp] theorem State.setI_pending (s : State) (f : Fld) (x : Int) : (s.setI f x).pending = s.pending := by simp only [State.setI, State.set_pending]
@[simp] theorem State.setI_now (s : State) (f : Fld) (x : Int) : (s.setI f x).now = s.now := by simp only [State.setI, State.set_now]
@[simp] theorem State.setI_fresh (s : State) (f : Fld) (x : Int) : (s.setI f x).fresh = s.fresh := by simp only [State.setI, State.set_fresh]
@[simp] theorem State.setI_out (s : State) (f : Fld) (x : Int) : (s.setI f x).out = s.out := by simp only [State.setI, State.set_out]
@[simp] theorem State.setI_mclk (s : State) (f : Fld) (x : Int) : (s.setI f x).mclk = s.mclk := by simp only [State.setI, State.set_mclk]
@[simp] theorem State.setI_latchMw0 (s : State) (f : Fld) (x : Int) : (s.setI f x).latchMw0 = s.latchMw0 := by simp only [State.setI, State.set_latchMw0]
@[simp] theorem State.setI_latchMspi (s : State) (f : Fld) (x : Int) : (s.setI f x).latchMspi = s.latchMspi := by simp only [State.setI, State.set_latchMspi]
@[simp] theorem State.setI_copyMw0 (s : State) (f : Fld) (x : Int) : (s.setI f x).copyMw0 = s.copyMw0 := by simp only [State.setI, State.set_copyMw0]
@[simp] theorem State.setI_copyMspi (s : State) (f : Fld) (x : Int) : (s.setI f x).copyMspi = s.copyMspi := by simp only [State.setI, State.set_copyMspi]
@[simp] theorem State.setI_sys (s : State) (f : Fld) (x : Int) : (s.setI f x).sys = s.sys := by simp only [State.setI, State.set_sys]
@[simp] theorem State.setI_flt (s : State) (f : Fld) (x : Int) : (s.setI f x).flt = s.flt := by simp only [State.setI, State.set_flt]
@[simp] theorem State.setI_fbk (s : State) (f : Fld) (x : Int) : (s.setI f x).fbk = s.fbk := by simp only [State.setI, State.set_fbk]
@[simp] theorem State.setI_dtm (s : State) (f : Fld) (x : Int) : (s.setI f x).dtm = s.dtm := by simp only [State.setI, State.set_dtm]
@[simp] theorem State.setI_sko (s : State) (f : Fld) (x : Int) : (s.setI f x).sko = s.sko := by simp only [State.setI, State.set_sko]
@[simp] theorem State.setI_stk (s : State) (f : Fld) (x : Int) : (s.setI f x).stk = s.stk := by simp only [State.setI, State.set_stk]
@[simp] theorem State.setI_svp (s : State) (f : Fld) (x : Int) : (s.setI f x).svp = s.svp := by simp only [State.setI, State.set_svp]
@[simp] theorem State.setI_pke (s : State) (f : Fld) (x : Int) : (s.setI f x).pke = s.pke := by simp only [State.setI, State.set_pke]
@[simp] theorem State.setI_crl (s : State) (f : Fld) (x : Int) : (s.setI f x).crl = s.crl := by simp only [State.setI, State.set_crl]
@[simp] theorem State.setI_ke (s : State) (f : Fld) (x : Int) : (s.setI f x).ke = s.ke := by simp only [State.setI, State.set_ke]
@[simp] theorem State.setI_prt (s : State) (f : Fld) (x : Int) : (s.setI f x).prt = s.prt := by simp only [State.setI, State.set_prt]
@[simp] theorem State.setI_syn (s : State) (f : Fld) (x : Int) : (s.setI f x).syn = s.syn := by simp only [State.setI, State.set_syn]
@[simp] theorem State.setI_dvl (s : State) (f : Fld) (x : Int) : (s.setI f x).dvl = s.dvl := by simp only [State.setI, State.set_dvl]
@[simp] theorem State.setI_trn (s : State) (f : Fld) (x : Int) : (s.setI f x).trn = s.trn := by simp only [State.setI, State.set_trn]
@[simp] theorem State.setI_trv (s : State) (f : Fld) (x : Int) : (s.setI f x).trv = s.trv := by simp only [State.setI, State.set_trv]
@[simp] theorem State.setI_bm (s : State) (f : Fld) (x : Int) : (s.setI f x).bm = s.bm := by simp only [State.setI, State.set_bm]
@[simp] theorem State.setI_hmi (s : State) (f : Fld) (x : Int) : (s.setI f x).hmi = s.hmi := by simp only [State.setI, State.set_hmi]
@[simp] theorem State.setI_pmc (s : State) (f : Fld) (x : Int) : (s.setI f x).pmc = s.pmc := by simp only [State.setI, State.set_pmc]

/-! ## State.happen -/

@[simp] theorem State.happen_pending (s : State) (f : Fld) (g : Nat → Nat) : (s.happen f g).pending = s.pending := rfl
@[simp] theorem State.happen_now (s : State) (f : Fld) (g : Nat → Nat) : (s.happen f g).now = s.now := rfl
@[simp] theorem State.happen_fresh (s : State) (f : Fld) (g : Nat → Nat) : (s.happen f g).fresh = s.fresh := rfl
@[simp] theorem State.happen_out (s : State) (f : Fld) (g : Nat → Nat) : (s.happen f g).out = s.out := rfl
@[simp] theorem State.happen_latchMw0 (s : State) (f : Fld) (g : Nat → Nat) : (s.happen f g).latchMw0 = s.latchMw0 := rfl
@[simp] theorem State.happen_latchMspi (s : State) (f : Fld) (g : Nat → Nat) : (s.happen f g).latchMspi = s.latchMspi := rfl
@[simp] theorem State.happen_copyMw0 (s : State) (f : Fld) (g : Nat → Nat) : (s.happen f g).copyMw0 = s.copyMw0 := rfl
@[simp] theorem State.happen_copyMspi (s : State) (f : Fld) (g : Nat → Nat) : (s.happen f g).copyMspi = s.copyMspi := rfl
@[simp] theorem State.happen_sys (s : State) (f : Fld) (g : Nat → Nat) : (s.happen f g).sys = s.sys := rfl
@[simp] theorem State.happen_flt (s : State) (f : Fld) (g : Nat → Nat) : (s.happen f g).flt = s.flt := rfl
@[simp] theorem State.happen_fbk (s : State) (f : Fld) (g : Nat → Nat) : (s.happen f g).fbk = s.fbk := rfl
@[simp] theorem State.happen_dtm (s : State) (f : Fld) (g : Nat → Nat) : (s.happen f g).dtm = s.dtm := rfl
@[simp] theorem State.happen_sko (s : State) (f : Fld) (g : Nat → Nat) : (s.happen f g).sko = s.sko := rfl
@[simp] theorem State.happen_stk (s : State) (f : Fld) (g : Nat → Nat) : (s.happen f g).stk = s.stk := rfl
@[simp] theorem State.happen_svp (s : State) (f : Fld) (g : Nat → Nat) : (s.happen f g).svp = s.svp := rfl
@[simp] theorem State.happen_pke (s : State) (f : Fld) (g : Nat → Nat) : (s.happen f g).pke = s.pke := rfl
@[simp] theorem State.happen_crl (s : State) (f : Fld) (g : Nat → Nat) : (s.happen f g).crl = s.crl := rfl
@[simp] theorem State.happen_ke (s : State) (f : Fld) (g : Nat → Nat) : (s.happen f g).ke = s.ke := rfl
@[simp] theorem State.happen_prt (s : State) (f : Fld) (g : Nat → Nat) : (s.happen f g).prt = s.prt := rfl
@[simp] theorem State.happen_syn (s : State) (f : Fld) (g : Nat → Nat) : (s.happen f g).syn = s.syn := rfl
@[simp] theorem State.happen_dvl (s : State) (f : Fld) (g : Nat → Nat) : (s.happen f g).dvl = s.dvl := rfl
@[simp] theorem State.happen_trn (s : State) (f : Fld) (g : Nat → Nat) : (s.happen f g).trn = s.trn := rfl
@[simp] theorem State.happen_trv (s : State) (f : Fld) (g : Nat → Nat) : (s.happen f g).trv = s.trv := rfl
@[simp] theorem State.happen_bm (s : State) (f : Fld) (g : Nat → Nat) : (s.happen f g).bm = s.bm := rfl
@[simp] theorem State.happen_hmi (s : State) (f : Fld) (g : Nat → Nat) : (s.happen f g).hmi = s.hmi := rfl
@[simp] theorem State.happen_pmc (s : State) (f : Fld) (g : Nat → Nat) : (s.happen f g).pmc = s.pmc := rfl

/-! ## State.strike -/

@[simp] theorem State.strike_pending (s : State) (f : Fld) : (s.strike f).pending = s.pending := by simp only [State.strike, State.happen_pending]
@[simp] theorem State.strike_now (s : State) (f : Fld) : (s.strike f).now = s.now := by simp only [State.strike, State.happen_now]
@[simp] theorem State.strike_fresh (s : State) (f : Fld) : (s.strike f).fresh = s.fresh := by simp only [State.strike, State.happen_fresh]
@[simp] theorem State.strike_out (s : State) (f : Fld) : (s.strike f).out = s.out := by simp only [State.strike, State.happen_out]
@[simp] theorem State.strike_latchMw0 (s : State) (f : Fld) : (s.strike f).latchMw0 = s.latchMw0 := by simp only [State.strike, State.happen_latchMw0]
@[simp] theorem State.strike_latchMspi (s : State) (f : Fld) : (s.strike f).latchMspi = s.latchMspi := by simp only [State.strike, State.happen_latchMspi]
@[simp] theorem State.strike_copyMw0 (s : State) (f : Fld) : (s.strike f).copyMw0 = s.copyMw0 := by simp only [State.strike, State.happen_copyMw0]
@[simp] theorem State.strike_copyMspi (s : State) (f : Fld) : (s.strike f).copyMspi = s.copyMspi := by simp only [State.strike, State.happen_copyMspi]
@[simp] theorem State.strike_sys (s : State) (f : Fld) : (s.strike f).sys = s.sys := by simp only [State.strike, State.happen_sys]
@[simp] theorem State.strike_flt (s : State) (f : Fld) : (s.strike f).flt = s.flt := by simp only [State.strike, State.happen_flt]
@[simp] theorem State.strike_fbk (s : State) (f : Fld) : (s.strike f).fbk = s.fbk := by simp only [State.strike, State.happen_fbk]
@[simp] theorem State.strike_dtm (s : State) (f : Fld) : (s.strike f).dtm = s.dtm := by simp only [State.strike, State.happen_dtm]
@[simp] theorem State.strike_sko (s : State) (f : Fld) : (s.strike f).sko = s.sko := by simp only [State.strike, State.happen_sko]
@[simp] theorem State.strike_stk (s : State) (f : Fld) : (s.strike f).stk = s.stk := by simp only [State.strike, State.happen_stk]
@[simp] theorem State.strike_svp (s : State) (f : Fld) : (s.strike f).svp = s.svp := by simp only [State.strike, State.happen_svp]
@[simp] theorem State.strike_pke (s : State) (f : Fld) : (s.strike f).pke = s.pke := by simp only [State.strike, State.happen_pke]
@[simp] theorem State.strike_crl (s : State) (f : Fld) : (s.strike f).crl = s.crl := by simp only [State.strike, State.happen_crl]
@[simp] theorem State.strike_ke (s : State) (f : Fld) : (s.strike f).ke = s.ke := by simp only [State.strike, State.happen_ke]
@[simp] theorem State.strike_prt (s : State) (f : Fld) : (s.strike f).prt = s.prt := by simp only [State.strike, State.happen_prt]
@[simp] theorem State.strike_syn (s : State) (f : Fld) : (s.strike f).syn = s.syn := by simp only [State.strike, State.happen_syn]
@[simp] theorem State.strike_dvl (s : State) (f : Fld) : (s.strike f).dvl = s.dvl := by simp only [State.strike, State.happen_dvl]
@[simp] theorem State.strike_trn (s : State) (f : Fld) : (s.strike f).trn = s.trn := by simp only [State.strike, State.happen_trn]
@[simp] theorem State.strike_trv (s : State) (f : Fld) : (s.strike f).trv = s.trv := by simp only [State.strike, State.happen_trv]
@[simp] theorem State.strike_bm (s : State) (f : Fld) : (s.strike f).bm = s.bm := by simp only [State.strike, State.happen_bm]
@[simp] theorem State.strike_hmi (s : State) (f : Fld) : (s.strike f).hmi = s.hmi := by simp only [State.strike, State.happen_hmi]
@[simp] theorem State.strike_pmc (s : State) (f : Fld) : (s.strike f).pmc = s.pmc := by simp only [State.strike, State.happen_pmc]

/-! ## State.setBit -/

@[simp] theorem State.setBit_pending (s : State) (a i : Nat) : (s.setBit a i).pending = s.pending := by simp only [State.setBit, State.strike_pending]
@[simp] theorem State.setBit_now (s : State) (a i : Nat) : (s.setBit a i).now = s.now := by simp only [State.setBit, State.strike_now]
@[simp] theorem State.setBit_fresh (s : State) (a i : Nat) : (s.setBit a i).fresh = s.fresh := by simp only [State.setBit, State.strike_fresh]
@[simp] theorem State.setBit_out (s : State) (a i : Nat) : (s.setBit a i).out = s.out := by simp only [State.setBit, State.strike_out]
@[simp] theorem State.setBit_latchMw0 (s : State) (a i : Nat) : (s.setBit a i).latchMw0 = s.latchMw0 := by simp only [State.setBit, State.strike_latchMw0]
@[simp] theorem State.setBit_latchMspi (s : State) (a i : Nat) : (s.setBit a i).latchMspi = s.latchMspi := by simp only [State.setBit, State.strike_latchMspi]
@[simp] theorem State.setBit_copyMw0 (s : State) (a i : Nat) : (s.setBit a i).copyMw0 = s.copyMw0 := by simp only [State.setBit, State.strike_copyMw0]
@[simp] theorem State.setBit_copyMspi (s : State) (a i : Nat) : (s.setBit a i).copyMspi = s.copyMspi := by simp only [State.setBit, State.strike_copyMspi]
@[simp] theorem State.setBit_sys (s : State) (a i : Nat) : (s.setBit a i).sys = s.sys := by simp only [State.setBit, State.strike_sys]
@[simp] theorem State.setBit_flt (s : State) (a i : Nat) : (s.setBit a i).flt = s.flt := by simp only [State.setBit, State.strike_flt]
@[simp] theorem State.setBit_fbk (s : State) (a i : Nat) : (s.setBit a i).fbk = s.fbk := by simp only [State.setBit, State.strike_fbk]
@[simp] theorem State.setBit_dtm (s : State) (a i : Nat) : (s.setBit a i).dtm = s.dtm := by simp only [State.setBit, State.strike_dtm]
@[simp] theorem State.setBit_sko (s : State) (a i : Nat) : (s.setBit a i).sko = s.sko := by simp only [State.setBit, State.strike_sko]
@[simp] theorem State.setBit_stk (s : State) (a i : Nat) : (s.setBit a i).stk = s.stk := by simp only [State.setBit, State.strike_stk]
@[simp] theorem State.setBit_svp (s : State) (a i : Nat) : (s.setBit a i).svp = s.svp := by simp only [State.setBit, State.strike_svp]
@[simp] theorem State.setBit_pke (s : State) (a i : Nat) : (s.setBit a i).pke = s.pke := by simp only [State.setBit, State.strike_pke]
@[simp] theorem State.setBit_crl (s : State) (a i : Nat) : (s.setBit a i).crl = s.crl := by simp only [State.setBit, State.strike_crl]
@[simp] theorem State.setBit_ke (s : State) (a i : Nat) : (s.setBit a i).ke = s.ke := by simp only [State.setBit, State.strike_ke]
@[simp] theorem State.setBit_prt (s : State) (a i : Nat) : (s.setBit a i).prt = s.prt := by simp only [State.setBit, State.strike_prt]
@[simp] theorem State.setBit_syn (s : State) (a i : Nat) : (s.setBit a i).syn = s.syn := by simp only [State.setBit, State.strike_syn]
@[simp] theorem State.setBit_dvl (s : State) (a i : Nat) : (s.setBit a i).dvl = s.dvl := by simp only [State.setBit, State.strike_dvl]
@[simp] theorem State.setBit_trn (s : State) (a i : Nat) : (s.setBit a i).trn = s.trn := by simp only [State.setBit, State.strike_trn]
@[simp] theorem State.setBit_trv (s : State) (a i : Nat) : (s.setBit a i).trv = s.trv := by simp only [State.setBit, State.strike_trv]
@[simp] theorem State.setBit_bm (s : State) (a i : Nat) : (s.setBit a i).bm = s.bm := by simp only [State.setBit, State.strike_bm]
@[simp] theorem State.setBit_hmi (s : State) (a i : Nat) : (s.setBit a i).hmi = s.hmi := by simp only [State.setBit, State.strike_hmi]
@[simp] theorem State.setBit_pmc (s : State) (a i : Nat) : (s.setBit a i).pmc = s.pmc := by simp only [State.setBit, State.strike_pmc]

/-! ## State.clrBit -/

@[simp] theorem State.clrBit_pending (s : State) (a i : Nat) : (s.clrBit a i).pending = s.pending := by simp only [State.clrBit, State.set_pending]
@[simp] theorem State.clrBit_now (s : State) (a i : Nat) : (s.clrBit a i).now = s.now := by simp only [State.clrBit, State.set_now]
@[simp] theorem State.clrBit_fresh (s : State) (a i : Nat) : (s.clrBit a i).fresh = s.fresh := by simp only [State.clrBit, State.set_fresh]
@[simp] theorem State.clrBit_out (s : State) (a i : Nat) : (s.clrBit a i).out = s.out := by simp only [State.clrBit, State.set_out]
@[simp] theorem State.clrBit_mclk (s : State) (a i : Nat) : (s.clrBit a i).mclk = s.mclk := by simp only [State.clrBit, State.set_mclk]
@[simp] theorem State.clrBit_latchMw0 (s : State) (a i : Nat) : (s.clrBit a i).latchMw0 = s.latchMw0 := by simp only [State.clrBit, State.set_latchMw0]
@[simp] theorem State.clrBit_latchMspi (s : State) (a i : Nat) : (s.clrBit a i).latchMspi = s.latchMspi := by simp only [State.clrBit, State.set_latchMspi]
@[simp] theorem State.clrBit_copyMw0 (s : State) (a i : Nat) : (s.clrBit a i).copyMw0 = s.copyMw0 := by simp only [State.clrBit, State.set_copyMw0]
@[simp] theorem State.clrBit_copyMspi (s : State) (a i : Nat) : (s.clrBit a i).copyMspi = s.copyMspi := by simp only [State.clrBit, State.set_copyMspi]
@[simp] theorem State.clrBit_sys (s : State) (a i : Nat) : (s.clrBit a i).sys = s.sys := by simp only [State.clrBit, State.set_sys]
@[simp] theorem State.clrBit_flt (s : State) (a i : Nat) : (s.clrBit a i).flt = s.flt := by simp only [State.clrBit, State.set_flt]
@[simp] theorem State.clrBit_fbk (s : State) (a i : Nat) : (s.clrBit a i).fbk = s.fbk := by simp only [State.clrBit, State.set_fbk]
@[simp] theorem State.clrBit_dtm (s : State) (a i : Nat) : (s.clrBit a i).dtm = s.dtm := by simp only [State.clrBit, State.set_dtm]
@[simp] theorem State.clrBit_sko (s : State) (a i : Nat) : (s.clrBit a i).sko = s.sko := by simp only [State.clrBit, State.set_sko]
@[simp] theorem State.clrBit_stk (s : State) (a i : Nat) : (s.clrBit a i).stk = s.stk := by simp only [State.clrBit, State.set_stk]
@[simp] theorem State.clrBit_svp (s : State) (a i : Nat) : (s.clrBit a i).svp = s.svp := by simp only [State.clrBit, State.set_svp]
@[simp] theorem State.clrBit_pke (s : State) (a i : Nat) : (s.clrBit a i).pke = s.pke := by simp only [State.clrBit, State.set_pke]
@[simp] theorem State.clrBit_crl (s : State) (a i : Nat) : (s.clrBit a i).crl = s.crl := by simp only [State.clrBit, State.set_crl]
@[simp] theorem State.clrBit_ke (s : State) (a i : Nat) : (s.clrBit a i).ke = s.ke := by simp only [State.clrBit, State.set_ke]
@[simp] theorem State.clrBit_prt (s : State) (a i : Nat) : (s.clrBit a i).prt = s.prt := by simp only [State.clrBit, State.set_prt]
@[simp] theorem State.clrBit_syn (s : State) (a i : Nat) : (s.clrBit a i).syn = s.syn := by simp only [State.clrBit, State.set_syn]
@[simp] theorem State.clrBit_dvl (s : State) (a i : Nat) : (s.clrBit a i).dvl = s.dvl := by simp only [State.clrBit, State.set_dvl]
@[simp] theorem State.clrBit_trn (s : State) (a i : Nat) : (s.clrBit a i).trn = s.trn := by simp only [State.clrBit, State.set_trn]
@[simp] theorem State.clrBit_trv (s : State) (a i : Nat) : (s.clrBit a i).trv = s.trv := by simp only [State.clrBit, State.set_trv]
@[simp] theorem State.clrBit_bm (s : State) (a i : Nat) : (s.clrBit a i).bm = s.bm := by simp only [State.clrBit, State.set_bm]
@[simp] theorem State.clrBit_hmi (s : State) (a i : Nat) : (s.clrBit a i).hmi = s.hmi := by simp only [State.clrBit, State.set_hmi]
@[simp] theorem State.clrBit_pmc (s : State) (a i : Nat) : (s.clrBit a i).pmc = s.pmc := by simp only [State.clrBit, State.set_pmc]

/-! ## State.set64 -/

@[simp] theorem State.set64_pending (s : State) (a v : Nat) : (s.set64 a v).pending = s.pending := by simp only [State.set64, State.wr_pending]
@[simp] theorem State.set64_now (s : State) (a v : Nat) : (s.set64 a v).now = s.now := by simp only [State.set64, State.wr_now]
@[simp] theorem State.set64_fresh (s : State) (a v : Nat) : (s.set64 a v).fresh = s.fresh := by simp only [State.set64, State.wr_fresh]
@[simp] theorem State.set64_out (s : State) (a v : Nat) : (s.set64 a v).out = s.out := by simp only [State.set64, State.wr_out]
@[simp] theorem State.set64_mclk (s : State) (a v : Nat) : (s.set64 a v).mclk = s.mclk := by simp only [State.set64, State.wr_mclk]
@[simp] theorem State.set64_latchMw0 (s : State) (a v : Nat) : (s.set64 a v).latchMw0 = s.latchMw0 := by simp only [State.set64, State.wr_latchMw0]
@[simp] theorem State.set64_latchMspi (s : State) (a v : Nat) : (s.set64 a v).latchMspi = s.latchMspi := by simp only [State.set64, State.wr_latchMspi]
@[simp] theorem State.set64_copyMw0 (s : State) (a v : Nat) : (s.set64 a v).copyMw0 = s.copyMw0 := by simp only [State.set64, State.wr_copyMw0]
@[simp] theorem State.set64_copyMspi (s : State) (a v : Nat) : (s.set64 a v).copyMspi = s.copyMspi := by simp only [State.set64, State.wr_copyMspi]
@[simp] theorem State.set64_sys (s : State) (a v : Nat) : (s.set64 a v).sys = s.sys := by simp only [State.set64, State.wr_sys]
@[simp] theorem State.set64_flt (s : State) (a v : Nat) : (s.set64 a v).flt = s.flt := by simp only [State.set64, State.wr_flt]
@[simp] theorem State.set64_fbk (s : State) (a v : Nat) : (s.set64 a v).fbk = s.fbk := by simp only [State.set64, State.wr_fbk]
@[simp] theorem State.set64_dtm (s : State) (a v : Nat) : (s.set64 a v).dtm = s.dtm := by simp only [State.set64, State.wr_dtm]
@[simp] theorem State.set64_sko (s : State) (a v : Nat) : (s.set64 a v).sko = s.sko := by simp only [State.set64, State.wr_sko]
@[simp] theorem State.set64_stk (s : State) (a v : Nat) : (s.set64 a v).stk = s.stk := by simp only [State.set64, State.wr_stk]
@[simp] theorem State.set64_svp (s : State) (a v : Nat) : (s.set64 a v).svp = s.svp := by simp only [State.set64, State.wr_svp]
@[simp] theorem State.set64_pke (s : State) (a v : Nat) : (s.set64 a v).pke = s.pke := by simp only [State.set64, State.wr_pke]
@[simp] theorem State.set64_crl (s : State) (a v : Nat) : (s.set64 a v).crl = s.crl := by simp only [State.set64, State.wr_crl]
@[simp] theorem State.set64_ke (s : State) (a v : Nat) : (s.set64 a v).ke = s.ke := by simp only [State.set64, State.wr_ke]
@[simp] theorem State.set64_prt (s : State) (a v : Nat) : (s.set64 a v).prt = s.prt := by simp only [State.set64, State.wr_prt]
@[simp] theorem State.set64_syn (s : State) (a v : Nat) : (s.set64 a v).syn = s.syn := by simp only [State.set64, State.wr_syn]
@[simp] theorem State.set64_dvl (s : State) (a v : Nat) : (s.set64 a v).dvl = s.dvl := by simp only [State.set64, State.wr_dvl]
@[simp] theorem State.set64_trn (s : State) (a v : Nat) : (s.set64 a v).trn = s.trn := by simp only [State.set64, State.wr_trn]
@[simp] theorem State.set64_trv (s : State) (a v : Nat) : (s.set64 a v).trv = s.trv := by simp only [State.set64, State.wr_trv]
@[simp] theorem State.set64_bm (s : State) (a v : Nat) : (s.set64 a v).bm = s.bm := by simp only [State.set64, State.wr_bm]
@[simp] theorem State.set64_hmi (s : State) (a v : Nat) : (s.set64 a v).hmi = s.hmi := by simp only [State.set64, State.wr_hmi]
@[simp] theorem State.set64_pmc (s : State) (a v : Nat) : (s.set64 a v).pmc = s.pmc := by simp only [State.set64, State.wr_pmc]

/-! ## State.add64 -/

@[simp] theorem State.add64_pending (s : State) (a k : Nat) : (s.add64 a k).pending = s.pending := by simp only [State.add64, State.set64_pending]
@[simp] theorem State.add64_now (s : State) (a k : Nat) : (s.add64 a k).now = s.now := by simp only [State.add64, State.set64_now]
@[simp] theorem State.add64_fresh (s : State) (a k : Nat) : (s.add64 a k).fresh = s.fresh := by simp only [State.add64, State.set64_fresh]
@[simp] theorem State.add64_out (s : State) (a k : Nat) : (s.add64 a k).out = s.out := by simp only [State.add64, State.set64_out]
@[simp] theorem State.add64_mclk (s : State) (a k : Nat) : (s.add64 a k).mclk = s.mclk := by simp only [State.add64, State.set64_mclk]
@[simp] theorem State.add64_latchMw0 (s : State) (a k : Nat) : (s.add64 a k).latchMw0 = s.latchMw0 := by simp only [State.add64, State.set64_latchMw0]
@[simp] theorem State.add64_latchMspi (s : State) (a k : Nat) : (s.add64 a k).latchMspi = s.latchMspi := by simp only [State.add64, State.set64_latchMspi]
@[simp] theorem State.add64_copyMw0 (s : State) (a k : Nat) : (s.add64 a k).copyMw0 = s.copyMw0 := by simp only [State.add64, State.set64_copyMw0]
@[simp] theorem State.add64_copyMspi (s : State) (a k : Nat) : (s.add64 a k).copyMspi = s.copyMspi := by simp only [State.add64, State.set64_copyMspi]
@[simp] theorem State.add64_sys (s : State) (a k : Nat) : (s.add64 a k).sys = s.sys := by simp only [State.add64, State.set64_sys]
@[simp] theorem State.add64_flt (s : State) (a k : Nat) : (s.add64 a k).flt = s.flt := by simp only [State.add64, State.set64_flt]
@[simp] theorem State.add64_fbk (s : State) (a k : Nat) : (s.add64 a k).fbk = s.fbk := by simp only [State.add64, State.set64_fbk]
@[simp] theorem State.add64_dtm (s : State) (a k : Nat) : (s.add64 a k).dtm = s.dtm := by simp only [State.add64, State.set64_dtm]
@[simp] theorem State.add64_sko (s : State) (a k : Nat) : (s.add64 a k).sko = s.sko := by simp only [State.add64, State.set64_sko]
@[simp] theorem State.add64_stk (s : State) (a k : Nat) : (s.add64 a k).stk = s.stk := by simp only [State.add64, State.set64_stk]
@[simp] theorem State.add64_svp (s : State) (a k : Nat) : (s.add64 a k).svp = s.svp := by simp only [State.add64, State.set64_svp]
@[simp] theorem State.add64_pke (s : State) (a k : Nat) : (s.add64 a k).pke = s.pke := by simp only [State.add64, State.set64_pke]
@[simp] theorem State.add64_crl (s : State) (a k : Nat) : (s.add64 a k).crl = s.crl := by simp only [State.add64, State.set64_crl]
@[simp] theorem State.add64_ke (s : State) (a k : Nat) : (s.add64 a k).ke = s.ke := by simp only [State.add64, State.set64_ke]
@[simp] theorem State.add64_prt (s : State) (a k : Nat) : (s.add64 a k).prt = s.prt := by simp only [State.add64, State.set64_prt]
@[simp] theorem State.add64_syn (s : State) (a k : Nat) : (s.add64 a k).syn = s.syn := by simp only [State.add64, State.set64_syn]
@[simp] theorem State.add64_dvl (s : State) (a k : Nat) : (s.add64 a k).dvl = s.dvl := by simp only [State.add64, State.set64_dvl]
@[simp] theorem State.add64_trn (s : State) (a k : Nat) : (s.add64 a k).trn = s.trn := by simp only [State.add64, State.set64_trn]
@[simp] theorem State.add64_trv (s : State) (a k : Nat) : (s.add64 a k).trv = s.trv := by simp only [State.add64, State.set64_trv]
@[simp] theorem State.add64_bm (s : State) (a k : Nat) : (s.add64 a k).bm = s.bm := by simp only [State.add64, State.set64_bm]
@[simp] theorem State.add64_hmi (s : State) (a k : Nat) : (s.add64 a k).hmi = s.hmi := by simp only [State.add64, State.set64_hmi]
@[simp] theorem State.add64_pmc (s : State) (a k : Nat) : (s.add64 a k).pmc = s.pmc := by simp only [State.add64, State.set64_pmc]

/-! ## State.addSat -/

@[simp] theorem State.addSat_pending (s : State) (f : Fld) (k : Nat) : (s.addSat f k).pending = s.pending := by simp only [State.addSat, State.happen_pending]
@[simp] theorem State.addSat_now (s : State) (f : Fld) (k : Nat) : (s.addSat f k).now = s.now := by simp only [State.addSat, State.happen_now]
@[simp] theorem State.addSat_fresh (s : State) (f : Fld) (k : Nat) : (s.addSat f k).fresh = s.fresh := by simp only [State.addSat, State.happen_fresh]
@[simp] theorem State.addSat_out (s : State) (f : Fld) (k : Nat) : (s.addSat f k).out = s.out := by simp only [State.addSat, State.happen_out]
@[simp] theorem State.addSat_latchMw0 (s : State) (f : Fld) (k : Nat) : (s.addSat f k).latchMw0 = s.latchMw0 := by simp only [State.addSat, State.happen_latchMw0]
@[simp] theorem State.addSat_latchMspi (s : State) (f : Fld) (k : Nat) : (s.addSat f k).latchMspi = s.latchMspi := by simp only [State.addSat, State.happen_latchMspi]
@[simp] theorem State.addSat_copyMw0 (s : State) (f : Fld) (k : Nat) : (s.addSat f k).copyMw0 = s.copyMw0 := by simp only [State.addSat, State.happen_copyMw0]
@[simp] theorem State.addSat_copyMspi (s : State) (f : Fld) (k : Nat) : (s.addSat f k).copyMspi = s.copyMspi := by simp only [State.addSat, State.happen_copyMspi]
@[simp] theorem State.addSat_sys (s : State) (f : Fld) (k : Nat) : (s.addSat f k).sys = s.sys := by simp only [State.addSat, State.happen_sys]
@[simp] theorem State.addSat_flt (s : State) (f : Fld) (k : Nat) : (s.addSat f k).flt = s.flt := by simp only [State.addSat, State.happen_flt]
@[simp] theorem State.addSat_fbk (s : State) (f : Fld) (k : Nat) : (s.addSat f k).fbk = s.fbk := by simp only [State.addSat, State.happen_fbk]
@[simp] theorem State.addSat_dtm (s : State) (f : Fld) (k : Nat) : (s.addSat f k).dtm = s.dtm := by simp only [State.addSat, State.happen_dtm]
@[simp] theorem State.addSat_sko (s : State) (f : Fld) (k : Nat) : (s.addSat f k).sko = s.sko := by simp only [State.addSat, State.happen_sko]
@[simp] theorem State.addSat_stk (s : State) (f : Fld) (k : Nat) : (s.addSat f k).stk = s.stk := by simp only [State.addSat, State.happen_stk]
@[simp] theorem State.addSat_svp (s : State) (f : Fld) (k : Nat) : (s.addSat f k).svp = s.svp := by simp only [State.addSat, State.happen_svp]
@[simp] theorem State.addSat_pke (s : State) (f : Fld) (k : Nat) : (s.addSat f k).pke = s.pke := by simp only [State.addSat, State.happen_pke]
@[simp] theorem State.addSat_crl (s : State) (f : Fld) (k : Nat) : (s.addSat f k).crl = s.crl := by simp only [State.addSat, State.happen_crl]
@[simp] theorem State.addSat_ke (s : State) (f : Fld) (k : Nat) : (s.addSat f k).ke = s.ke := by simp only [State.addSat, State.happen_ke]
@[simp] theorem State.addSat_prt (s : State) (f : Fld) (k : Nat) : (s.addSat f k).prt = s.prt := by simp only [State.addSat, State.happen_prt]
@[simp] theorem State.addSat_syn (s : State) (f : Fld) (k : Nat) : (s.addSat f k).syn = s.syn := by simp only [State.addSat, State.happen_syn]
@[simp] theorem State.addSat_dvl (s : State) (f : Fld) (k : Nat) : (s.addSat f k).dvl = s.dvl := by simp only [State.addSat, State.happen_dvl]
@[simp] theorem State.addSat_trn (s : State) (f : Fld) (k : Nat) : (s.addSat f k).trn = s.trn := by simp only [State.addSat, State.happen_trn]
@[simp] theorem State.addSat_trv (s : State) (f : Fld) (k : Nat) : (s.addSat f k).trv = s.trv := by simp only [State.addSat, State.happen_trv]
@[simp] theorem State.addSat_bm (s : State) (f : Fld) (k : Nat) : (s.addSat f k).bm = s.bm := by simp only [State.addSat, State.happen_bm]
@[simp] theorem State.addSat_hmi (s : State) (f : Fld) (k : Nat) : (s.addSat f k).hmi = s.hmi := by simp only [State.addSat, State.happen_hmi]
@[simp] theorem State.addSat_pmc (s : State) (f : Fld) (k : Nat) : (s.addSat f k).pmc = s.pmc := by simp only [State.addSat, State.happen_pmc]

/-! ## State.setDatum -/

@[simp] theorem State.setDatum_pending (s : State) (a : Nat) (t : Instant) : (s.setDatum a t).pending = s.pending := by simp only [State.setDatum, State.wr_pending]
@[simp] theorem State.setDatum_now (s : State) (a : Nat) (t : Instant) : (s.setDatum a t).now = s.now := by simp only [State.setDatum, State.wr_now]
@[simp] theorem State.setDatum_fresh (s : State) (a : Nat) (t : Instant) : (s.setDatum a t).fresh = s.fresh := by simp only [State.setDatum, State.wr_fresh]
@[simp] theorem State.setDatum_out (s : State) (a : Nat) (t : Instant) : (s.setDatum a t).out = s.out := by simp only [State.setDatum, State.wr_out]
@[simp] theorem State.setDatum_mclk (s : State) (a : Nat) (t : Instant) : (s.setDatum a t).mclk = s.mclk := by simp only [State.setDatum, State.wr_mclk]
@[simp] theorem State.setDatum_latchMw0 (s : State) (a : Nat) (t : Instant) : (s.setDatum a t).latchMw0 = s.latchMw0 := by simp only [State.setDatum, State.wr_latchMw0]
@[simp] theorem State.setDatum_latchMspi (s : State) (a : Nat) (t : Instant) : (s.setDatum a t).latchMspi = s.latchMspi := by simp only [State.setDatum, State.wr_latchMspi]
@[simp] theorem State.setDatum_copyMw0 (s : State) (a : Nat) (t : Instant) : (s.setDatum a t).copyMw0 = s.copyMw0 := by simp only [State.setDatum, State.wr_copyMw0]
@[simp] theorem State.setDatum_copyMspi (s : State) (a : Nat) (t : Instant) : (s.setDatum a t).copyMspi = s.copyMspi := by simp only [State.setDatum, State.wr_copyMspi]
@[simp] theorem State.setDatum_sys (s : State) (a : Nat) (t : Instant) : (s.setDatum a t).sys = s.sys := by simp only [State.setDatum, State.wr_sys]
@[simp] theorem State.setDatum_flt (s : State) (a : Nat) (t : Instant) : (s.setDatum a t).flt = s.flt := by simp only [State.setDatum, State.wr_flt]
@[simp] theorem State.setDatum_fbk (s : State) (a : Nat) (t : Instant) : (s.setDatum a t).fbk = s.fbk := by simp only [State.setDatum, State.wr_fbk]
@[simp] theorem State.setDatum_dtm (s : State) (a : Nat) (t : Instant) : (s.setDatum a t).dtm = s.dtm := by simp only [State.setDatum, State.wr_dtm]
@[simp] theorem State.setDatum_sko (s : State) (a : Nat) (t : Instant) : (s.setDatum a t).sko = s.sko := by simp only [State.setDatum, State.wr_sko]
@[simp] theorem State.setDatum_stk (s : State) (a : Nat) (t : Instant) : (s.setDatum a t).stk = s.stk := by simp only [State.setDatum, State.wr_stk]
@[simp] theorem State.setDatum_svp (s : State) (a : Nat) (t : Instant) : (s.setDatum a t).svp = s.svp := by simp only [State.setDatum, State.wr_svp]
@[simp] theorem State.setDatum_pke (s : State) (a : Nat) (t : Instant) : (s.setDatum a t).pke = s.pke := by simp only [State.setDatum, State.wr_pke]
@[simp] theorem State.setDatum_crl (s : State) (a : Nat) (t : Instant) : (s.setDatum a t).crl = s.crl := by simp only [State.setDatum, State.wr_crl]
@[simp] theorem State.setDatum_ke (s : State) (a : Nat) (t : Instant) : (s.setDatum a t).ke = s.ke := by simp only [State.setDatum, State.wr_ke]
@[simp] theorem State.setDatum_prt (s : State) (a : Nat) (t : Instant) : (s.setDatum a t).prt = s.prt := by simp only [State.setDatum, State.wr_prt]
@[simp] theorem State.setDatum_syn (s : State) (a : Nat) (t : Instant) : (s.setDatum a t).syn = s.syn := by simp only [State.setDatum, State.wr_syn]
@[simp] theorem State.setDatum_dvl (s : State) (a : Nat) (t : Instant) : (s.setDatum a t).dvl = s.dvl := by simp only [State.setDatum, State.wr_dvl]
@[simp] theorem State.setDatum_trn (s : State) (a : Nat) (t : Instant) : (s.setDatum a t).trn = s.trn := by simp only [State.setDatum, State.wr_trn]
@[simp] theorem State.setDatum_trv (s : State) (a : Nat) (t : Instant) : (s.setDatum a t).trv = s.trv := by simp only [State.setDatum, State.wr_trv]
@[simp] theorem State.setDatum_bm (s : State) (a : Nat) (t : Instant) : (s.setDatum a t).bm = s.bm := by simp only [State.setDatum, State.wr_bm]
@[simp] theorem State.setDatum_hmi (s : State) (a : Nat) (t : Instant) : (s.setDatum a t).hmi = s.hmi := by simp only [State.setDatum, State.wr_hmi]
@[simp] theorem State.setDatum_pmc (s : State) (a : Nat) (t : Instant) : (s.setDatum a t).pmc = s.pmc := by simp only [State.setDatum, State.wr_pmc]

/-! ## State.emit -/

@[simp] theorem State.emit_pending (s : State) (e : Emission) : (s.emit e).pending = s.pending := rfl
@[simp] theorem State.emit_now (s : State) (e : Emission) : (s.emit e).now = s.now := rfl
@[simp] theorem State.emit_fresh (s : State) (e : Emission) : (s.emit e).fresh = s.fresh := rfl
@[simp] theorem State.emit_regs (s : State) (e : Emission) : (s.emit e).regs = s.regs := rfl
@[simp] theorem State.emit_mclk (s : State) (e : Emission) : (s.emit e).mclk = s.mclk := rfl
@[simp] theorem State.emit_latchMw0 (s : State) (e : Emission) : (s.emit e).latchMw0 = s.latchMw0 := rfl
@[simp] theorem State.emit_latchMspi (s : State) (e : Emission) : (s.emit e).latchMspi = s.latchMspi := rfl
@[simp] theorem State.emit_copyMw0 (s : State) (e : Emission) : (s.emit e).copyMw0 = s.copyMw0 := rfl
@[simp] theorem State.emit_copyMspi (s : State) (e : Emission) : (s.emit e).copyMspi = s.copyMspi := rfl
@[simp] theorem State.emit_sys (s : State) (e : Emission) : (s.emit e).sys = s.sys := rfl
@[simp] theorem State.emit_flt (s : State) (e : Emission) : (s.emit e).flt = s.flt := rfl
@[simp] theorem State.emit_fbk (s : State) (e : Emission) : (s.emit e).fbk = s.fbk := rfl
@[simp] theorem State.emit_dtm (s : State) (e : Emission) : (s.emit e).dtm = s.dtm := rfl
@[simp] theorem State.emit_sko (s : State) (e : Emission) : (s.emit e).sko = s.sko := rfl
@[simp] theorem State.emit_stk (s : State) (e : Emission) : (s.emit e).stk = s.stk := rfl
@[simp] theorem State.emit_svp (s : State) (e : Emission) : (s.emit e).svp = s.svp := rfl
@[simp] theorem State.emit_pke (s : State) (e : Emission) : (s.emit e).pke = s.pke := rfl
@[simp] theorem State.emit_crl (s : State) (e : Emission) : (s.emit e).crl = s.crl := rfl
@[simp] theorem State.emit_ke (s : State) (e : Emission) : (s.emit e).ke = s.ke := rfl
@[simp] theorem State.emit_prt (s : State) (e : Emission) : (s.emit e).prt = s.prt := rfl
@[simp] theorem State.emit_syn (s : State) (e : Emission) : (s.emit e).syn = s.syn := rfl
@[simp] theorem State.emit_dvl (s : State) (e : Emission) : (s.emit e).dvl = s.dvl := rfl
@[simp] theorem State.emit_trn (s : State) (e : Emission) : (s.emit e).trn = s.trn := rfl
@[simp] theorem State.emit_trv (s : State) (e : Emission) : (s.emit e).trv = s.trv := rfl
@[simp] theorem State.emit_bm (s : State) (e : Emission) : (s.emit e).bm = s.bm := rfl
@[simp] theorem State.emit_hmi (s : State) (e : Emission) : (s.emit e).hmi = s.hmi := rfl
@[simp] theorem State.emit_pmc (s : State) (e : Emission) : (s.emit e).pmc = s.pmc := rfl
@[simp] theorem State.emit_rd (s : State) (e : Emission) (j : Nat) : (s.emit e).rd j = s.rd j := rfl
@[simp] theorem State.emit_get (s : State) (e : Emission) (g : Fld) : (s.emit e).get g = s.get g := rfl

/-! ## State.setRing -/

@[simp] theorem State.setRing_pending (s : State) (r : Nat) (q : Ring) : (s.setRing r q).pending = s.pending := rfl
@[simp] theorem State.setRing_now (s : State) (r : Nat) (q : Ring) : (s.setRing r q).now = s.now := rfl
@[simp] theorem State.setRing_fresh (s : State) (r : Nat) (q : Ring) : (s.setRing r q).fresh = s.fresh := rfl
@[simp] theorem State.setRing_out (s : State) (r : Nat) (q : Ring) : (s.setRing r q).out = s.out := rfl
@[simp] theorem State.setRing_regs (s : State) (r : Nat) (q : Ring) : (s.setRing r q).regs = s.regs := rfl
@[simp] theorem State.setRing_mclk (s : State) (r : Nat) (q : Ring) : (s.setRing r q).mclk = s.mclk := rfl
@[simp] theorem State.setRing_latchMw0 (s : State) (r : Nat) (q : Ring) : (s.setRing r q).latchMw0 = s.latchMw0 := rfl
@[simp] theorem State.setRing_latchMspi (s : State) (r : Nat) (q : Ring) : (s.setRing r q).latchMspi = s.latchMspi := rfl
@[simp] theorem State.setRing_copyMw0 (s : State) (r : Nat) (q : Ring) : (s.setRing r q).copyMw0 = s.copyMw0 := rfl
@[simp] theorem State.setRing_copyMspi (s : State) (r : Nat) (q : Ring) : (s.setRing r q).copyMspi = s.copyMspi := rfl
@[simp] theorem State.setRing_sys (s : State) (r : Nat) (q : Ring) : (s.setRing r q).sys = s.sys := rfl
@[simp] theorem State.setRing_flt (s : State) (r : Nat) (q : Ring) : (s.setRing r q).flt = s.flt := rfl
@[simp] theorem State.setRing_fbk (s : State) (r : Nat) (q : Ring) : (s.setRing r q).fbk = s.fbk := rfl
@[simp] theorem State.setRing_dtm (s : State) (r : Nat) (q : Ring) : (s.setRing r q).dtm = s.dtm := rfl
@[simp] theorem State.setRing_sko (s : State) (r : Nat) (q : Ring) : (s.setRing r q).sko = s.sko := rfl
@[simp] theorem State.setRing_stk (s : State) (r : Nat) (q : Ring) : (s.setRing r q).stk = s.stk := rfl
@[simp] theorem State.setRing_svp (s : State) (r : Nat) (q : Ring) : (s.setRing r q).svp = s.svp := rfl
@[simp] theorem State.setRing_pke (s : State) (r : Nat) (q : Ring) : (s.setRing r q).pke = s.pke := rfl
@[simp] theorem State.setRing_crl (s : State) (r : Nat) (q : Ring) : (s.setRing r q).crl = s.crl := rfl
@[simp] theorem State.setRing_ke (s : State) (r : Nat) (q : Ring) : (s.setRing r q).ke = s.ke := rfl
@[simp] theorem State.setRing_prt (s : State) (r : Nat) (q : Ring) : (s.setRing r q).prt = s.prt := rfl
@[simp] theorem State.setRing_syn (s : State) (r : Nat) (q : Ring) : (s.setRing r q).syn = s.syn := rfl
@[simp] theorem State.setRing_dvl (s : State) (r : Nat) (q : Ring) : (s.setRing r q).dvl = s.dvl := rfl
@[simp] theorem State.setRing_trn (s : State) (r : Nat) (q : Ring) : (s.setRing r q).trn = s.trn := rfl
@[simp] theorem State.setRing_trv (s : State) (r : Nat) (q : Ring) : (s.setRing r q).trv = s.trv := rfl
@[simp] theorem State.setRing_bm (s : State) (r : Nat) (q : Ring) : (s.setRing r q).bm = s.bm := rfl
@[simp] theorem State.setRing_pmc (s : State) (r : Nat) (q : Ring) : (s.setRing r q).pmc = s.pmc := rfl
@[simp] theorem State.setRing_rd (s : State) (r : Nat) (q : Ring) (j : Nat) : (s.setRing r q).rd j = s.rd j := rfl
@[simp] theorem State.setRing_get (s : State) (r : Nat) (q : Ring) (g : Fld) : (s.setRing r q).get g = s.get g := rfl

/-! ## State.setChan -/

@[simp] theorem State.setChan_pending (s : State) (n : Fin 24) (c : TrnChan) : (s.setChan n c).pending = s.pending := rfl
@[simp] theorem State.setChan_now (s : State) (n : Fin 24) (c : TrnChan) : (s.setChan n c).now = s.now := rfl
@[simp] theorem State.setChan_fresh (s : State) (n : Fin 24) (c : TrnChan) : (s.setChan n c).fresh = s.fresh := rfl
@[simp] theorem State.setChan_out (s : State) (n : Fin 24) (c : TrnChan) : (s.setChan n c).out = s.out := rfl
@[simp] theorem State.setChan_regs (s : State) (n : Fin 24) (c : TrnChan) : (s.setChan n c).regs = s.regs := rfl
@[simp] theorem State.setChan_mclk (s : State) (n : Fin 24) (c : TrnChan) : (s.setChan n c).mclk = s.mclk := rfl
@[simp] theorem State.setChan_latchMw0 (s : State) (n : Fin 24) (c : TrnChan) : (s.setChan n c).latchMw0 = s.latchMw0 := rfl
@[simp] theorem State.setChan_latchMspi (s : State) (n : Fin 24) (c : TrnChan) : (s.setChan n c).latchMspi = s.latchMspi := rfl
@[simp] theorem State.setChan_copyMw0 (s : State) (n : Fin 24) (c : TrnChan) : (s.setChan n c).copyMw0 = s.copyMw0 := rfl
@[simp] theorem State.setChan_copyMspi (s : State) (n : Fin 24) (c : TrnChan) : (s.setChan n c).copyMspi = s.copyMspi := rfl
@[simp] theorem State.setChan_sys (s : State) (n : Fin 24) (c : TrnChan) : (s.setChan n c).sys = s.sys := rfl
@[simp] theorem State.setChan_flt (s : State) (n : Fin 24) (c : TrnChan) : (s.setChan n c).flt = s.flt := rfl
@[simp] theorem State.setChan_fbk (s : State) (n : Fin 24) (c : TrnChan) : (s.setChan n c).fbk = s.fbk := rfl
@[simp] theorem State.setChan_dtm (s : State) (n : Fin 24) (c : TrnChan) : (s.setChan n c).dtm = s.dtm := rfl
@[simp] theorem State.setChan_sko (s : State) (n : Fin 24) (c : TrnChan) : (s.setChan n c).sko = s.sko := rfl
@[simp] theorem State.setChan_stk (s : State) (n : Fin 24) (c : TrnChan) : (s.setChan n c).stk = s.stk := rfl
@[simp] theorem State.setChan_svp (s : State) (n : Fin 24) (c : TrnChan) : (s.setChan n c).svp = s.svp := rfl
@[simp] theorem State.setChan_pke (s : State) (n : Fin 24) (c : TrnChan) : (s.setChan n c).pke = s.pke := rfl
@[simp] theorem State.setChan_crl (s : State) (n : Fin 24) (c : TrnChan) : (s.setChan n c).crl = s.crl := rfl
@[simp] theorem State.setChan_ke (s : State) (n : Fin 24) (c : TrnChan) : (s.setChan n c).ke = s.ke := rfl
@[simp] theorem State.setChan_prt (s : State) (n : Fin 24) (c : TrnChan) : (s.setChan n c).prt = s.prt := rfl
@[simp] theorem State.setChan_syn (s : State) (n : Fin 24) (c : TrnChan) : (s.setChan n c).syn = s.syn := rfl
@[simp] theorem State.setChan_dvl (s : State) (n : Fin 24) (c : TrnChan) : (s.setChan n c).dvl = s.dvl := rfl
@[simp] theorem State.setChan_trv (s : State) (n : Fin 24) (c : TrnChan) : (s.setChan n c).trv = s.trv := rfl
@[simp] theorem State.setChan_bm (s : State) (n : Fin 24) (c : TrnChan) : (s.setChan n c).bm = s.bm := rfl
@[simp] theorem State.setChan_hmi (s : State) (n : Fin 24) (c : TrnChan) : (s.setChan n c).hmi = s.hmi := rfl
@[simp] theorem State.setChan_pmc (s : State) (n : Fin 24) (c : TrnChan) : (s.setChan n c).pmc = s.pmc := rfl
@[simp] theorem State.setChan_rd (s : State) (n : Fin 24) (c : TrnChan) (j : Nat) : (s.setChan n c).rd j = s.rd j := rfl
@[simp] theorem State.setChan_get (s : State) (n : Fin 24) (c : TrnChan) (g : Fld) : (s.setChan n c).get g = s.get g := rfl

/-! ## State.setConv -/

@[simp] theorem State.setConv_pending (s : State) (n : Fin 24) (k : Fin 3) (v : TrnConv) : (s.setConv n k v).pending = s.pending := rfl
@[simp] theorem State.setConv_now (s : State) (n : Fin 24) (k : Fin 3) (v : TrnConv) : (s.setConv n k v).now = s.now := rfl
@[simp] theorem State.setConv_fresh (s : State) (n : Fin 24) (k : Fin 3) (v : TrnConv) : (s.setConv n k v).fresh = s.fresh := rfl
@[simp] theorem State.setConv_out (s : State) (n : Fin 24) (k : Fin 3) (v : TrnConv) : (s.setConv n k v).out = s.out := rfl
@[simp] theorem State.setConv_regs (s : State) (n : Fin 24) (k : Fin 3) (v : TrnConv) : (s.setConv n k v).regs = s.regs := rfl
@[simp] theorem State.setConv_mclk (s : State) (n : Fin 24) (k : Fin 3) (v : TrnConv) : (s.setConv n k v).mclk = s.mclk := rfl
@[simp] theorem State.setConv_latchMw0 (s : State) (n : Fin 24) (k : Fin 3) (v : TrnConv) : (s.setConv n k v).latchMw0 = s.latchMw0 := rfl
@[simp] theorem State.setConv_latchMspi (s : State) (n : Fin 24) (k : Fin 3) (v : TrnConv) : (s.setConv n k v).latchMspi = s.latchMspi := rfl
@[simp] theorem State.setConv_copyMw0 (s : State) (n : Fin 24) (k : Fin 3) (v : TrnConv) : (s.setConv n k v).copyMw0 = s.copyMw0 := rfl
@[simp] theorem State.setConv_copyMspi (s : State) (n : Fin 24) (k : Fin 3) (v : TrnConv) : (s.setConv n k v).copyMspi = s.copyMspi := rfl
@[simp] theorem State.setConv_sys (s : State) (n : Fin 24) (k : Fin 3) (v : TrnConv) : (s.setConv n k v).sys = s.sys := rfl
@[simp] theorem State.setConv_flt (s : State) (n : Fin 24) (k : Fin 3) (v : TrnConv) : (s.setConv n k v).flt = s.flt := rfl
@[simp] theorem State.setConv_fbk (s : State) (n : Fin 24) (k : Fin 3) (v : TrnConv) : (s.setConv n k v).fbk = s.fbk := rfl
@[simp] theorem State.setConv_dtm (s : State) (n : Fin 24) (k : Fin 3) (v : TrnConv) : (s.setConv n k v).dtm = s.dtm := rfl
@[simp] theorem State.setConv_sko (s : State) (n : Fin 24) (k : Fin 3) (v : TrnConv) : (s.setConv n k v).sko = s.sko := rfl
@[simp] theorem State.setConv_stk (s : State) (n : Fin 24) (k : Fin 3) (v : TrnConv) : (s.setConv n k v).stk = s.stk := rfl
@[simp] theorem State.setConv_svp (s : State) (n : Fin 24) (k : Fin 3) (v : TrnConv) : (s.setConv n k v).svp = s.svp := rfl
@[simp] theorem State.setConv_pke (s : State) (n : Fin 24) (k : Fin 3) (v : TrnConv) : (s.setConv n k v).pke = s.pke := rfl
@[simp] theorem State.setConv_crl (s : State) (n : Fin 24) (k : Fin 3) (v : TrnConv) : (s.setConv n k v).crl = s.crl := rfl
@[simp] theorem State.setConv_ke (s : State) (n : Fin 24) (k : Fin 3) (v : TrnConv) : (s.setConv n k v).ke = s.ke := rfl
@[simp] theorem State.setConv_prt (s : State) (n : Fin 24) (k : Fin 3) (v : TrnConv) : (s.setConv n k v).prt = s.prt := rfl
@[simp] theorem State.setConv_syn (s : State) (n : Fin 24) (k : Fin 3) (v : TrnConv) : (s.setConv n k v).syn = s.syn := rfl
@[simp] theorem State.setConv_dvl (s : State) (n : Fin 24) (k : Fin 3) (v : TrnConv) : (s.setConv n k v).dvl = s.dvl := rfl
@[simp] theorem State.setConv_trv (s : State) (n : Fin 24) (k : Fin 3) (v : TrnConv) : (s.setConv n k v).trv = s.trv := rfl
@[simp] theorem State.setConv_bm (s : State) (n : Fin 24) (k : Fin 3) (v : TrnConv) : (s.setConv n k v).bm = s.bm := rfl
@[simp] theorem State.setConv_hmi (s : State) (n : Fin 24) (k : Fin 3) (v : TrnConv) : (s.setConv n k v).hmi = s.hmi := rfl
@[simp] theorem State.setConv_pmc (s : State) (n : Fin 24) (k : Fin 3) (v : TrnConv) : (s.setConv n k v).pmc = s.pmc := rfl
@[simp] theorem State.setConv_rd (s : State) (n : Fin 24) (k : Fin 3) (v : TrnConv) (j : Nat) : (s.setConv n k v).rd j = s.rd j := rfl
@[simp] theorem State.setConv_get (s : State) (n : Fin 24) (k : Fin 3) (v : TrnConv) (g : Fld) : (s.setConv n k v).get g = s.get g := rfl

/-! ## State.setPort -/

@[simp] theorem State.setPort_pending (s : State) (p : Fin 4) (q : SkoPort) : (s.setPort p q).pending = s.pending := rfl
@[simp] theorem State.setPort_now (s : State) (p : Fin 4) (q : SkoPort) : (s.setPort p q).now = s.now := rfl
@[simp] theorem State.setPort_fresh (s : State) (p : Fin 4) (q : SkoPort) : (s.setPort p q).fresh = s.fresh := rfl
@[simp] theorem State.setPort_out (s : State) (p : Fin 4) (q : SkoPort) : (s.setPort p q).out = s.out := rfl
@[simp] theorem State.setPort_regs (s : State) (p : Fin 4) (q : SkoPort) : (s.setPort p q).regs = s.regs := rfl
@[simp] theorem State.setPort_mclk (s : State) (p : Fin 4) (q : SkoPort) : (s.setPort p q).mclk = s.mclk := rfl
@[simp] theorem State.setPort_latchMw0 (s : State) (p : Fin 4) (q : SkoPort) : (s.setPort p q).latchMw0 = s.latchMw0 := rfl
@[simp] theorem State.setPort_latchMspi (s : State) (p : Fin 4) (q : SkoPort) : (s.setPort p q).latchMspi = s.latchMspi := rfl
@[simp] theorem State.setPort_copyMw0 (s : State) (p : Fin 4) (q : SkoPort) : (s.setPort p q).copyMw0 = s.copyMw0 := rfl
@[simp] theorem State.setPort_copyMspi (s : State) (p : Fin 4) (q : SkoPort) : (s.setPort p q).copyMspi = s.copyMspi := rfl
@[simp] theorem State.setPort_sys (s : State) (p : Fin 4) (q : SkoPort) : (s.setPort p q).sys = s.sys := rfl
@[simp] theorem State.setPort_flt (s : State) (p : Fin 4) (q : SkoPort) : (s.setPort p q).flt = s.flt := rfl
@[simp] theorem State.setPort_fbk (s : State) (p : Fin 4) (q : SkoPort) : (s.setPort p q).fbk = s.fbk := rfl
@[simp] theorem State.setPort_dtm (s : State) (p : Fin 4) (q : SkoPort) : (s.setPort p q).dtm = s.dtm := rfl
@[simp] theorem State.setPort_stk (s : State) (p : Fin 4) (q : SkoPort) : (s.setPort p q).stk = s.stk := rfl
@[simp] theorem State.setPort_svp (s : State) (p : Fin 4) (q : SkoPort) : (s.setPort p q).svp = s.svp := rfl
@[simp] theorem State.setPort_pke (s : State) (p : Fin 4) (q : SkoPort) : (s.setPort p q).pke = s.pke := rfl
@[simp] theorem State.setPort_crl (s : State) (p : Fin 4) (q : SkoPort) : (s.setPort p q).crl = s.crl := rfl
@[simp] theorem State.setPort_ke (s : State) (p : Fin 4) (q : SkoPort) : (s.setPort p q).ke = s.ke := rfl
@[simp] theorem State.setPort_prt (s : State) (p : Fin 4) (q : SkoPort) : (s.setPort p q).prt = s.prt := rfl
@[simp] theorem State.setPort_syn (s : State) (p : Fin 4) (q : SkoPort) : (s.setPort p q).syn = s.syn := rfl
@[simp] theorem State.setPort_dvl (s : State) (p : Fin 4) (q : SkoPort) : (s.setPort p q).dvl = s.dvl := rfl
@[simp] theorem State.setPort_trn (s : State) (p : Fin 4) (q : SkoPort) : (s.setPort p q).trn = s.trn := rfl
@[simp] theorem State.setPort_trv (s : State) (p : Fin 4) (q : SkoPort) : (s.setPort p q).trv = s.trv := rfl
@[simp] theorem State.setPort_bm (s : State) (p : Fin 4) (q : SkoPort) : (s.setPort p q).bm = s.bm := rfl
@[simp] theorem State.setPort_hmi (s : State) (p : Fin 4) (q : SkoPort) : (s.setPort p q).hmi = s.hmi := rfl
@[simp] theorem State.setPort_pmc (s : State) (p : Fin 4) (q : SkoPort) : (s.setPort p q).pmc = s.pmc := rfl
@[simp] theorem State.setPort_rd (s : State) (p : Fin 4) (q : SkoPort) (j : Nat) : (s.setPort p q).rd j = s.rd j := rfl
@[simp] theorem State.setPort_get (s : State) (p : Fin 4) (q : SkoPort) (g : Fld) : (s.setPort p q).get g = s.get g := rfl

/-! ## State.setStk -/

@[simp] theorem State.setStk_pending (s : State) (n : Fin 7) (u : StkUnit) : (s.setStk n u).pending = s.pending := rfl
@[simp] theorem State.setStk_now (s : State) (n : Fin 7) (u : StkUnit) : (s.setStk n u).now = s.now := rfl
@[simp] theorem State.setStk_fresh (s : State) (n : Fin 7) (u : StkUnit) : (s.setStk n u).fresh = s.fresh := rfl
@[simp] theorem State.setStk_out (s : State) (n : Fin 7) (u : StkUnit) : (s.setStk n u).out = s.out := rfl
@[simp] theorem State.setStk_regs (s : State) (n : Fin 7) (u : StkUnit) : (s.setStk n u).regs = s.regs := rfl
@[simp] theorem State.setStk_mclk (s : State) (n : Fin 7) (u : StkUnit) : (s.setStk n u).mclk = s.mclk := rfl
@[simp] theorem State.setStk_latchMw0 (s : State) (n : Fin 7) (u : StkUnit) : (s.setStk n u).latchMw0 = s.latchMw0 := rfl
@[simp] theorem State.setStk_latchMspi (s : State) (n : Fin 7) (u : StkUnit) : (s.setStk n u).latchMspi = s.latchMspi := rfl
@[simp] theorem State.setStk_copyMw0 (s : State) (n : Fin 7) (u : StkUnit) : (s.setStk n u).copyMw0 = s.copyMw0 := rfl
@[simp] theorem State.setStk_copyMspi (s : State) (n : Fin 7) (u : StkUnit) : (s.setStk n u).copyMspi = s.copyMspi := rfl
@[simp] theorem State.setStk_sys (s : State) (n : Fin 7) (u : StkUnit) : (s.setStk n u).sys = s.sys := rfl
@[simp] theorem State.setStk_flt (s : State) (n : Fin 7) (u : StkUnit) : (s.setStk n u).flt = s.flt := rfl
@[simp] theorem State.setStk_fbk (s : State) (n : Fin 7) (u : StkUnit) : (s.setStk n u).fbk = s.fbk := rfl
@[simp] theorem State.setStk_dtm (s : State) (n : Fin 7) (u : StkUnit) : (s.setStk n u).dtm = s.dtm := rfl
@[simp] theorem State.setStk_sko (s : State) (n : Fin 7) (u : StkUnit) : (s.setStk n u).sko = s.sko := rfl
@[simp] theorem State.setStk_svp (s : State) (n : Fin 7) (u : StkUnit) : (s.setStk n u).svp = s.svp := rfl
@[simp] theorem State.setStk_pke (s : State) (n : Fin 7) (u : StkUnit) : (s.setStk n u).pke = s.pke := rfl
@[simp] theorem State.setStk_crl (s : State) (n : Fin 7) (u : StkUnit) : (s.setStk n u).crl = s.crl := rfl
@[simp] theorem State.setStk_ke (s : State) (n : Fin 7) (u : StkUnit) : (s.setStk n u).ke = s.ke := rfl
@[simp] theorem State.setStk_prt (s : State) (n : Fin 7) (u : StkUnit) : (s.setStk n u).prt = s.prt := rfl
@[simp] theorem State.setStk_syn (s : State) (n : Fin 7) (u : StkUnit) : (s.setStk n u).syn = s.syn := rfl
@[simp] theorem State.setStk_dvl (s : State) (n : Fin 7) (u : StkUnit) : (s.setStk n u).dvl = s.dvl := rfl
@[simp] theorem State.setStk_trn (s : State) (n : Fin 7) (u : StkUnit) : (s.setStk n u).trn = s.trn := rfl
@[simp] theorem State.setStk_trv (s : State) (n : Fin 7) (u : StkUnit) : (s.setStk n u).trv = s.trv := rfl
@[simp] theorem State.setStk_bm (s : State) (n : Fin 7) (u : StkUnit) : (s.setStk n u).bm = s.bm := rfl
@[simp] theorem State.setStk_hmi (s : State) (n : Fin 7) (u : StkUnit) : (s.setStk n u).hmi = s.hmi := rfl
@[simp] theorem State.setStk_pmc (s : State) (n : Fin 7) (u : StkUnit) : (s.setStk n u).pmc = s.pmc := rfl
@[simp] theorem State.setStk_rd (s : State) (n : Fin 7) (u : StkUnit) (j : Nat) : (s.setStk n u).rd j = s.rd j := rfl
@[simp] theorem State.setStk_get (s : State) (n : Fin 7) (u : StkUnit) (g : Fld) : (s.setStk n u).get g = s.get g := rfl

/-! ## State.setSynth -/

@[simp] theorem State.setSynth_pending (s : State) (n : Fin 6) (x : Synth) : (s.setSynth n x).pending = s.pending := rfl
@[simp] theorem State.setSynth_now (s : State) (n : Fin 6) (x : Synth) : (s.setSynth n x).now = s.now := rfl
@[simp] theorem State.setSynth_fresh (s : State) (n : Fin 6) (x : Synth) : (s.setSynth n x).fresh = s.fresh := rfl
@[simp] theorem State.setSynth_out (s : State) (n : Fin 6) (x : Synth) : (s.setSynth n x).out = s.out := rfl
@[simp] theorem State.setSynth_regs (s : State) (n : Fin 6) (x : Synth) : (s.setSynth n x).regs = s.regs := rfl
@[simp] theorem State.setSynth_mclk (s : State) (n : Fin 6) (x : Synth) : (s.setSynth n x).mclk = s.mclk := rfl
@[simp] theorem State.setSynth_latchMw0 (s : State) (n : Fin 6) (x : Synth) : (s.setSynth n x).latchMw0 = s.latchMw0 := rfl
@[simp] theorem State.setSynth_latchMspi (s : State) (n : Fin 6) (x : Synth) : (s.setSynth n x).latchMspi = s.latchMspi := rfl
@[simp] theorem State.setSynth_copyMw0 (s : State) (n : Fin 6) (x : Synth) : (s.setSynth n x).copyMw0 = s.copyMw0 := rfl
@[simp] theorem State.setSynth_copyMspi (s : State) (n : Fin 6) (x : Synth) : (s.setSynth n x).copyMspi = s.copyMspi := rfl
@[simp] theorem State.setSynth_sys (s : State) (n : Fin 6) (x : Synth) : (s.setSynth n x).sys = s.sys := rfl
@[simp] theorem State.setSynth_flt (s : State) (n : Fin 6) (x : Synth) : (s.setSynth n x).flt = s.flt := rfl
@[simp] theorem State.setSynth_fbk (s : State) (n : Fin 6) (x : Synth) : (s.setSynth n x).fbk = s.fbk := rfl
@[simp] theorem State.setSynth_dtm (s : State) (n : Fin 6) (x : Synth) : (s.setSynth n x).dtm = s.dtm := rfl
@[simp] theorem State.setSynth_sko (s : State) (n : Fin 6) (x : Synth) : (s.setSynth n x).sko = s.sko := rfl
@[simp] theorem State.setSynth_stk (s : State) (n : Fin 6) (x : Synth) : (s.setSynth n x).stk = s.stk := rfl
@[simp] theorem State.setSynth_svp (s : State) (n : Fin 6) (x : Synth) : (s.setSynth n x).svp = s.svp := rfl
@[simp] theorem State.setSynth_pke (s : State) (n : Fin 6) (x : Synth) : (s.setSynth n x).pke = s.pke := rfl
@[simp] theorem State.setSynth_crl (s : State) (n : Fin 6) (x : Synth) : (s.setSynth n x).crl = s.crl := rfl
@[simp] theorem State.setSynth_ke (s : State) (n : Fin 6) (x : Synth) : (s.setSynth n x).ke = s.ke := rfl
@[simp] theorem State.setSynth_prt (s : State) (n : Fin 6) (x : Synth) : (s.setSynth n x).prt = s.prt := rfl
@[simp] theorem State.setSynth_dvl (s : State) (n : Fin 6) (x : Synth) : (s.setSynth n x).dvl = s.dvl := rfl
@[simp] theorem State.setSynth_trn (s : State) (n : Fin 6) (x : Synth) : (s.setSynth n x).trn = s.trn := rfl
@[simp] theorem State.setSynth_trv (s : State) (n : Fin 6) (x : Synth) : (s.setSynth n x).trv = s.trv := rfl
@[simp] theorem State.setSynth_bm (s : State) (n : Fin 6) (x : Synth) : (s.setSynth n x).bm = s.bm := rfl
@[simp] theorem State.setSynth_hmi (s : State) (n : Fin 6) (x : Synth) : (s.setSynth n x).hmi = s.hmi := rfl
@[simp] theorem State.setSynth_pmc (s : State) (n : Fin 6) (x : Synth) : (s.setSynth n x).pmc = s.pmc := rfl
@[simp] theorem State.setSynth_rd (s : State) (n : Fin 6) (x : Synth) (j : Nat) : (s.setSynth n x).rd j = s.rd j := rfl
@[simp] theorem State.setSynth_get (s : State) (n : Fin 6) (x : Synth) (g : Fld) : (s.setSynth n x).get g = s.get g := rfl

/-! ## State.setInput -/

@[simp] theorem State.setInput_pending (s : State) (i : Fin 12) (x : TrvInput) : (s.setInput i x).pending = s.pending := rfl
@[simp] theorem State.setInput_now (s : State) (i : Fin 12) (x : TrvInput) : (s.setInput i x).now = s.now := rfl
@[simp] theorem State.setInput_fresh (s : State) (i : Fin 12) (x : TrvInput) : (s.setInput i x).fresh = s.fresh := rfl
@[simp] theorem State.setInput_out (s : State) (i : Fin 12) (x : TrvInput) : (s.setInput i x).out = s.out := rfl
@[simp] theorem State.setInput_regs (s : State) (i : Fin 12) (x : TrvInput) : (s.setInput i x).regs = s.regs := rfl
@[simp] theorem State.setInput_mclk (s : State) (i : Fin 12) (x : TrvInput) : (s.setInput i x).mclk = s.mclk := rfl
@[simp] theorem State.setInput_latchMw0 (s : State) (i : Fin 12) (x : TrvInput) : (s.setInput i x).latchMw0 = s.latchMw0 := rfl
@[simp] theorem State.setInput_latchMspi (s : State) (i : Fin 12) (x : TrvInput) : (s.setInput i x).latchMspi = s.latchMspi := rfl
@[simp] theorem State.setInput_copyMw0 (s : State) (i : Fin 12) (x : TrvInput) : (s.setInput i x).copyMw0 = s.copyMw0 := rfl
@[simp] theorem State.setInput_copyMspi (s : State) (i : Fin 12) (x : TrvInput) : (s.setInput i x).copyMspi = s.copyMspi := rfl
@[simp] theorem State.setInput_sys (s : State) (i : Fin 12) (x : TrvInput) : (s.setInput i x).sys = s.sys := rfl
@[simp] theorem State.setInput_flt (s : State) (i : Fin 12) (x : TrvInput) : (s.setInput i x).flt = s.flt := rfl
@[simp] theorem State.setInput_fbk (s : State) (i : Fin 12) (x : TrvInput) : (s.setInput i x).fbk = s.fbk := rfl
@[simp] theorem State.setInput_dtm (s : State) (i : Fin 12) (x : TrvInput) : (s.setInput i x).dtm = s.dtm := rfl
@[simp] theorem State.setInput_sko (s : State) (i : Fin 12) (x : TrvInput) : (s.setInput i x).sko = s.sko := rfl
@[simp] theorem State.setInput_stk (s : State) (i : Fin 12) (x : TrvInput) : (s.setInput i x).stk = s.stk := rfl
@[simp] theorem State.setInput_svp (s : State) (i : Fin 12) (x : TrvInput) : (s.setInput i x).svp = s.svp := rfl
@[simp] theorem State.setInput_pke (s : State) (i : Fin 12) (x : TrvInput) : (s.setInput i x).pke = s.pke := rfl
@[simp] theorem State.setInput_crl (s : State) (i : Fin 12) (x : TrvInput) : (s.setInput i x).crl = s.crl := rfl
@[simp] theorem State.setInput_ke (s : State) (i : Fin 12) (x : TrvInput) : (s.setInput i x).ke = s.ke := rfl
@[simp] theorem State.setInput_prt (s : State) (i : Fin 12) (x : TrvInput) : (s.setInput i x).prt = s.prt := rfl
@[simp] theorem State.setInput_syn (s : State) (i : Fin 12) (x : TrvInput) : (s.setInput i x).syn = s.syn := rfl
@[simp] theorem State.setInput_dvl (s : State) (i : Fin 12) (x : TrvInput) : (s.setInput i x).dvl = s.dvl := rfl
@[simp] theorem State.setInput_trn (s : State) (i : Fin 12) (x : TrvInput) : (s.setInput i x).trn = s.trn := rfl
@[simp] theorem State.setInput_bm (s : State) (i : Fin 12) (x : TrvInput) : (s.setInput i x).bm = s.bm := rfl
@[simp] theorem State.setInput_hmi (s : State) (i : Fin 12) (x : TrvInput) : (s.setInput i x).hmi = s.hmi := rfl
@[simp] theorem State.setInput_pmc (s : State) (i : Fin 12) (x : TrvInput) : (s.setInput i x).pmc = s.pmc := rfl
@[simp] theorem State.setInput_rd (s : State) (i : Fin 12) (x : TrvInput) (j : Nat) : (s.setInput i x).rd j = s.rd j := rfl
@[simp] theorem State.setInput_get (s : State) (i : Fin 12) (x : TrvInput) (g : Fld) : (s.setInput i x).get g = s.get g := rfl

/-! ## State.setLoop -/

@[simp] theorem State.setLoop_pending (s : State) (c : Fin 8) (x : TrvChan) : (s.setLoop c x).pending = s.pending := rfl
@[simp] theorem State.setLoop_now (s : State) (c : Fin 8) (x : TrvChan) : (s.setLoop c x).now = s.now := rfl
@[simp] theorem State.setLoop_fresh (s : State) (c : Fin 8) (x : TrvChan) : (s.setLoop c x).fresh = s.fresh := rfl
@[simp] theorem State.setLoop_out (s : State) (c : Fin 8) (x : TrvChan) : (s.setLoop c x).out = s.out := rfl
@[simp] theorem State.setLoop_regs (s : State) (c : Fin 8) (x : TrvChan) : (s.setLoop c x).regs = s.regs := rfl
@[simp] theorem State.setLoop_mclk (s : State) (c : Fin 8) (x : TrvChan) : (s.setLoop c x).mclk = s.mclk := rfl
@[simp] theorem State.setLoop_latchMw0 (s : State) (c : Fin 8) (x : TrvChan) : (s.setLoop c x).latchMw0 = s.latchMw0 := rfl
@[simp] theorem State.setLoop_latchMspi (s : State) (c : Fin 8) (x : TrvChan) : (s.setLoop c x).latchMspi = s.latchMspi := rfl
@[simp] theorem State.setLoop_copyMw0 (s : State) (c : Fin 8) (x : TrvChan) : (s.setLoop c x).copyMw0 = s.copyMw0 := rfl
@[simp] theorem State.setLoop_copyMspi (s : State) (c : Fin 8) (x : TrvChan) : (s.setLoop c x).copyMspi = s.copyMspi := rfl
@[simp] theorem State.setLoop_sys (s : State) (c : Fin 8) (x : TrvChan) : (s.setLoop c x).sys = s.sys := rfl
@[simp] theorem State.setLoop_flt (s : State) (c : Fin 8) (x : TrvChan) : (s.setLoop c x).flt = s.flt := rfl
@[simp] theorem State.setLoop_fbk (s : State) (c : Fin 8) (x : TrvChan) : (s.setLoop c x).fbk = s.fbk := rfl
@[simp] theorem State.setLoop_dtm (s : State) (c : Fin 8) (x : TrvChan) : (s.setLoop c x).dtm = s.dtm := rfl
@[simp] theorem State.setLoop_sko (s : State) (c : Fin 8) (x : TrvChan) : (s.setLoop c x).sko = s.sko := rfl
@[simp] theorem State.setLoop_stk (s : State) (c : Fin 8) (x : TrvChan) : (s.setLoop c x).stk = s.stk := rfl
@[simp] theorem State.setLoop_svp (s : State) (c : Fin 8) (x : TrvChan) : (s.setLoop c x).svp = s.svp := rfl
@[simp] theorem State.setLoop_pke (s : State) (c : Fin 8) (x : TrvChan) : (s.setLoop c x).pke = s.pke := rfl
@[simp] theorem State.setLoop_crl (s : State) (c : Fin 8) (x : TrvChan) : (s.setLoop c x).crl = s.crl := rfl
@[simp] theorem State.setLoop_ke (s : State) (c : Fin 8) (x : TrvChan) : (s.setLoop c x).ke = s.ke := rfl
@[simp] theorem State.setLoop_prt (s : State) (c : Fin 8) (x : TrvChan) : (s.setLoop c x).prt = s.prt := rfl
@[simp] theorem State.setLoop_syn (s : State) (c : Fin 8) (x : TrvChan) : (s.setLoop c x).syn = s.syn := rfl
@[simp] theorem State.setLoop_dvl (s : State) (c : Fin 8) (x : TrvChan) : (s.setLoop c x).dvl = s.dvl := rfl
@[simp] theorem State.setLoop_trn (s : State) (c : Fin 8) (x : TrvChan) : (s.setLoop c x).trn = s.trn := rfl
@[simp] theorem State.setLoop_bm (s : State) (c : Fin 8) (x : TrvChan) : (s.setLoop c x).bm = s.bm := rfl
@[simp] theorem State.setLoop_hmi (s : State) (c : Fin 8) (x : TrvChan) : (s.setLoop c x).hmi = s.hmi := rfl
@[simp] theorem State.setLoop_pmc (s : State) (c : Fin 8) (x : TrvChan) : (s.setLoop c x).pmc = s.pmc := rfl
@[simp] theorem State.setLoop_rd (s : State) (c : Fin 8) (x : TrvChan) (j : Nat) : (s.setLoop c x).rd j = s.rd j := rfl
@[simp] theorem State.setLoop_get (s : State) (c : Fin 8) (x : TrvChan) (g : Fld) : (s.setLoop c x).get g = s.get g := rfl

/-! ## State.setCore -/

@[simp] theorem State.setCore_pending (s : State) (c : Fin 16) (o : Option PkeOp) : (s.setCore c o).pending = s.pending := rfl
@[simp] theorem State.setCore_now (s : State) (c : Fin 16) (o : Option PkeOp) : (s.setCore c o).now = s.now := rfl
@[simp] theorem State.setCore_fresh (s : State) (c : Fin 16) (o : Option PkeOp) : (s.setCore c o).fresh = s.fresh := rfl
@[simp] theorem State.setCore_out (s : State) (c : Fin 16) (o : Option PkeOp) : (s.setCore c o).out = s.out := rfl
@[simp] theorem State.setCore_regs (s : State) (c : Fin 16) (o : Option PkeOp) : (s.setCore c o).regs = s.regs := rfl
@[simp] theorem State.setCore_mclk (s : State) (c : Fin 16) (o : Option PkeOp) : (s.setCore c o).mclk = s.mclk := rfl
@[simp] theorem State.setCore_latchMw0 (s : State) (c : Fin 16) (o : Option PkeOp) : (s.setCore c o).latchMw0 = s.latchMw0 := rfl
@[simp] theorem State.setCore_latchMspi (s : State) (c : Fin 16) (o : Option PkeOp) : (s.setCore c o).latchMspi = s.latchMspi := rfl
@[simp] theorem State.setCore_copyMw0 (s : State) (c : Fin 16) (o : Option PkeOp) : (s.setCore c o).copyMw0 = s.copyMw0 := rfl
@[simp] theorem State.setCore_copyMspi (s : State) (c : Fin 16) (o : Option PkeOp) : (s.setCore c o).copyMspi = s.copyMspi := rfl
@[simp] theorem State.setCore_sys (s : State) (c : Fin 16) (o : Option PkeOp) : (s.setCore c o).sys = s.sys := rfl
@[simp] theorem State.setCore_flt (s : State) (c : Fin 16) (o : Option PkeOp) : (s.setCore c o).flt = s.flt := rfl
@[simp] theorem State.setCore_fbk (s : State) (c : Fin 16) (o : Option PkeOp) : (s.setCore c o).fbk = s.fbk := rfl
@[simp] theorem State.setCore_dtm (s : State) (c : Fin 16) (o : Option PkeOp) : (s.setCore c o).dtm = s.dtm := rfl
@[simp] theorem State.setCore_sko (s : State) (c : Fin 16) (o : Option PkeOp) : (s.setCore c o).sko = s.sko := rfl
@[simp] theorem State.setCore_stk (s : State) (c : Fin 16) (o : Option PkeOp) : (s.setCore c o).stk = s.stk := rfl
@[simp] theorem State.setCore_svp (s : State) (c : Fin 16) (o : Option PkeOp) : (s.setCore c o).svp = s.svp := rfl
@[simp] theorem State.setCore_crl (s : State) (c : Fin 16) (o : Option PkeOp) : (s.setCore c o).crl = s.crl := rfl
@[simp] theorem State.setCore_ke (s : State) (c : Fin 16) (o : Option PkeOp) : (s.setCore c o).ke = s.ke := rfl
@[simp] theorem State.setCore_prt (s : State) (c : Fin 16) (o : Option PkeOp) : (s.setCore c o).prt = s.prt := rfl
@[simp] theorem State.setCore_syn (s : State) (c : Fin 16) (o : Option PkeOp) : (s.setCore c o).syn = s.syn := rfl
@[simp] theorem State.setCore_dvl (s : State) (c : Fin 16) (o : Option PkeOp) : (s.setCore c o).dvl = s.dvl := rfl
@[simp] theorem State.setCore_trn (s : State) (c : Fin 16) (o : Option PkeOp) : (s.setCore c o).trn = s.trn := rfl
@[simp] theorem State.setCore_trv (s : State) (c : Fin 16) (o : Option PkeOp) : (s.setCore c o).trv = s.trv := rfl
@[simp] theorem State.setCore_bm (s : State) (c : Fin 16) (o : Option PkeOp) : (s.setCore c o).bm = s.bm := rfl
@[simp] theorem State.setCore_hmi (s : State) (c : Fin 16) (o : Option PkeOp) : (s.setCore c o).hmi = s.hmi := rfl
@[simp] theorem State.setCore_pmc (s : State) (c : Fin 16) (o : Option PkeOp) : (s.setCore c o).pmc = s.pmc := rfl
@[simp] theorem State.setCore_rd (s : State) (c : Fin 16) (o : Option PkeOp) (j : Nat) : (s.setCore c o).rd j = s.rd j := rfl
@[simp] theorem State.setCore_get (s : State) (c : Fin 16) (o : Option PkeOp) (g : Fld) : (s.setCore c o).get g = s.get g := rfl

/-! ## State.setBoot -/

@[simp] theorem State.setBoot_pending (s : State) (x : BootRun) : (s.setBoot x).pending = s.pending := rfl
@[simp] theorem State.setBoot_now (s : State) (x : BootRun) : (s.setBoot x).now = s.now := rfl
@[simp] theorem State.setBoot_fresh (s : State) (x : BootRun) : (s.setBoot x).fresh = s.fresh := rfl
@[simp] theorem State.setBoot_out (s : State) (x : BootRun) : (s.setBoot x).out = s.out := rfl
@[simp] theorem State.setBoot_regs (s : State) (x : BootRun) : (s.setBoot x).regs = s.regs := rfl
@[simp] theorem State.setBoot_mclk (s : State) (x : BootRun) : (s.setBoot x).mclk = s.mclk := rfl
@[simp] theorem State.setBoot_latchMw0 (s : State) (x : BootRun) : (s.setBoot x).latchMw0 = s.latchMw0 := rfl
@[simp] theorem State.setBoot_latchMspi (s : State) (x : BootRun) : (s.setBoot x).latchMspi = s.latchMspi := rfl
@[simp] theorem State.setBoot_copyMw0 (s : State) (x : BootRun) : (s.setBoot x).copyMw0 = s.copyMw0 := rfl
@[simp] theorem State.setBoot_copyMspi (s : State) (x : BootRun) : (s.setBoot x).copyMspi = s.copyMspi := rfl
@[simp] theorem State.setBoot_flt (s : State) (x : BootRun) : (s.setBoot x).flt = s.flt := rfl
@[simp] theorem State.setBoot_fbk (s : State) (x : BootRun) : (s.setBoot x).fbk = s.fbk := rfl
@[simp] theorem State.setBoot_dtm (s : State) (x : BootRun) : (s.setBoot x).dtm = s.dtm := rfl
@[simp] theorem State.setBoot_sko (s : State) (x : BootRun) : (s.setBoot x).sko = s.sko := rfl
@[simp] theorem State.setBoot_stk (s : State) (x : BootRun) : (s.setBoot x).stk = s.stk := rfl
@[simp] theorem State.setBoot_svp (s : State) (x : BootRun) : (s.setBoot x).svp = s.svp := rfl
@[simp] theorem State.setBoot_pke (s : State) (x : BootRun) : (s.setBoot x).pke = s.pke := rfl
@[simp] theorem State.setBoot_crl (s : State) (x : BootRun) : (s.setBoot x).crl = s.crl := rfl
@[simp] theorem State.setBoot_ke (s : State) (x : BootRun) : (s.setBoot x).ke = s.ke := rfl
@[simp] theorem State.setBoot_prt (s : State) (x : BootRun) : (s.setBoot x).prt = s.prt := rfl
@[simp] theorem State.setBoot_syn (s : State) (x : BootRun) : (s.setBoot x).syn = s.syn := rfl
@[simp] theorem State.setBoot_dvl (s : State) (x : BootRun) : (s.setBoot x).dvl = s.dvl := rfl
@[simp] theorem State.setBoot_trn (s : State) (x : BootRun) : (s.setBoot x).trn = s.trn := rfl
@[simp] theorem State.setBoot_trv (s : State) (x : BootRun) : (s.setBoot x).trv = s.trv := rfl
@[simp] theorem State.setBoot_bm (s : State) (x : BootRun) : (s.setBoot x).bm = s.bm := rfl
@[simp] theorem State.setBoot_hmi (s : State) (x : BootRun) : (s.setBoot x).hmi = s.hmi := rfl
@[simp] theorem State.setBoot_pmc (s : State) (x : BootRun) : (s.setBoot x).pmc = s.pmc := rfl
@[simp] theorem State.setBoot_rd (s : State) (x : BootRun) (j : Nat) : (s.setBoot x).rd j = s.rd j := rfl
@[simp] theorem State.setBoot_get (s : State) (x : BootRun) (g : Fld) : (s.setBoot x).get g = s.get g := rfl

/-! ## State.setField -/

@[simp] theorem State.setField_pending (s : State) (n : Fin 2) (f : FieldPort) : (s.setField n f).pending = s.pending := rfl
@[simp] theorem State.setField_now (s : State) (n : Fin 2) (f : FieldPort) : (s.setField n f).now = s.now := rfl
@[simp] theorem State.setField_fresh (s : State) (n : Fin 2) (f : FieldPort) : (s.setField n f).fresh = s.fresh := rfl
@[simp] theorem State.setField_out (s : State) (n : Fin 2) (f : FieldPort) : (s.setField n f).out = s.out := rfl
@[simp] theorem State.setField_regs (s : State) (n : Fin 2) (f : FieldPort) : (s.setField n f).regs = s.regs := rfl
@[simp] theorem State.setField_mclk (s : State) (n : Fin 2) (f : FieldPort) : (s.setField n f).mclk = s.mclk := rfl
@[simp] theorem State.setField_latchMw0 (s : State) (n : Fin 2) (f : FieldPort) : (s.setField n f).latchMw0 = s.latchMw0 := rfl
@[simp] theorem State.setField_latchMspi (s : State) (n : Fin 2) (f : FieldPort) : (s.setField n f).latchMspi = s.latchMspi := rfl
@[simp] theorem State.setField_copyMw0 (s : State) (n : Fin 2) (f : FieldPort) : (s.setField n f).copyMw0 = s.copyMw0 := rfl
@[simp] theorem State.setField_copyMspi (s : State) (n : Fin 2) (f : FieldPort) : (s.setField n f).copyMspi = s.copyMspi := rfl
@[simp] theorem State.setField_sys (s : State) (n : Fin 2) (f : FieldPort) : (s.setField n f).sys = s.sys := rfl
@[simp] theorem State.setField_flt (s : State) (n : Fin 2) (f : FieldPort) : (s.setField n f).flt = s.flt := rfl
@[simp] theorem State.setField_fbk (s : State) (n : Fin 2) (f : FieldPort) : (s.setField n f).fbk = s.fbk := rfl
@[simp] theorem State.setField_dtm (s : State) (n : Fin 2) (f : FieldPort) : (s.setField n f).dtm = s.dtm := rfl
@[simp] theorem State.setField_sko (s : State) (n : Fin 2) (f : FieldPort) : (s.setField n f).sko = s.sko := rfl
@[simp] theorem State.setField_stk (s : State) (n : Fin 2) (f : FieldPort) : (s.setField n f).stk = s.stk := rfl
@[simp] theorem State.setField_svp (s : State) (n : Fin 2) (f : FieldPort) : (s.setField n f).svp = s.svp := rfl
@[simp] theorem State.setField_pke (s : State) (n : Fin 2) (f : FieldPort) : (s.setField n f).pke = s.pke := rfl
@[simp] theorem State.setField_crl (s : State) (n : Fin 2) (f : FieldPort) : (s.setField n f).crl = s.crl := rfl
@[simp] theorem State.setField_ke (s : State) (n : Fin 2) (f : FieldPort) : (s.setField n f).ke = s.ke := rfl
@[simp] theorem State.setField_syn (s : State) (n : Fin 2) (f : FieldPort) : (s.setField n f).syn = s.syn := rfl
@[simp] theorem State.setField_dvl (s : State) (n : Fin 2) (f : FieldPort) : (s.setField n f).dvl = s.dvl := rfl
@[simp] theorem State.setField_trn (s : State) (n : Fin 2) (f : FieldPort) : (s.setField n f).trn = s.trn := rfl
@[simp] theorem State.setField_trv (s : State) (n : Fin 2) (f : FieldPort) : (s.setField n f).trv = s.trv := rfl
@[simp] theorem State.setField_bm (s : State) (n : Fin 2) (f : FieldPort) : (s.setField n f).bm = s.bm := rfl
@[simp] theorem State.setField_hmi (s : State) (n : Fin 2) (f : FieldPort) : (s.setField n f).hmi = s.hmi := rfl
@[simp] theorem State.setField_pmc (s : State) (n : Fin 2) (f : FieldPort) : (s.setField n f).pmc = s.pmc := rfl
@[simp] theorem State.setField_rd (s : State) (n : Fin 2) (f : FieldPort) (j : Nat) : (s.setField n f).rd j = s.rd j := rfl
@[simp] theorem State.setField_get (s : State) (n : Fin 2) (f : FieldPort) (g : Fld) : (s.setField n f).get g = s.get g := rfl

/-! ## State.setBucket -/

@[simp] theorem State.setBucket_pending (s : State) (k : Nat) (x : Bucket) : (s.setBucket k x).pending = s.pending := rfl
@[simp] theorem State.setBucket_now (s : State) (k : Nat) (x : Bucket) : (s.setBucket k x).now = s.now := rfl
@[simp] theorem State.setBucket_fresh (s : State) (k : Nat) (x : Bucket) : (s.setBucket k x).fresh = s.fresh := rfl
@[simp] theorem State.setBucket_out (s : State) (k : Nat) (x : Bucket) : (s.setBucket k x).out = s.out := rfl
@[simp] theorem State.setBucket_regs (s : State) (k : Nat) (x : Bucket) : (s.setBucket k x).regs = s.regs := rfl
@[simp] theorem State.setBucket_mclk (s : State) (k : Nat) (x : Bucket) : (s.setBucket k x).mclk = s.mclk := rfl
@[simp] theorem State.setBucket_latchMw0 (s : State) (k : Nat) (x : Bucket) : (s.setBucket k x).latchMw0 = s.latchMw0 := rfl
@[simp] theorem State.setBucket_latchMspi (s : State) (k : Nat) (x : Bucket) : (s.setBucket k x).latchMspi = s.latchMspi := rfl
@[simp] theorem State.setBucket_copyMw0 (s : State) (k : Nat) (x : Bucket) : (s.setBucket k x).copyMw0 = s.copyMw0 := rfl
@[simp] theorem State.setBucket_copyMspi (s : State) (k : Nat) (x : Bucket) : (s.setBucket k x).copyMspi = s.copyMspi := rfl
@[simp] theorem State.setBucket_sys (s : State) (k : Nat) (x : Bucket) : (s.setBucket k x).sys = s.sys := rfl
@[simp] theorem State.setBucket_fbk (s : State) (k : Nat) (x : Bucket) : (s.setBucket k x).fbk = s.fbk := rfl
@[simp] theorem State.setBucket_dtm (s : State) (k : Nat) (x : Bucket) : (s.setBucket k x).dtm = s.dtm := rfl
@[simp] theorem State.setBucket_sko (s : State) (k : Nat) (x : Bucket) : (s.setBucket k x).sko = s.sko := rfl
@[simp] theorem State.setBucket_stk (s : State) (k : Nat) (x : Bucket) : (s.setBucket k x).stk = s.stk := rfl
@[simp] theorem State.setBucket_svp (s : State) (k : Nat) (x : Bucket) : (s.setBucket k x).svp = s.svp := rfl
@[simp] theorem State.setBucket_pke (s : State) (k : Nat) (x : Bucket) : (s.setBucket k x).pke = s.pke := rfl
@[simp] theorem State.setBucket_crl (s : State) (k : Nat) (x : Bucket) : (s.setBucket k x).crl = s.crl := rfl
@[simp] theorem State.setBucket_ke (s : State) (k : Nat) (x : Bucket) : (s.setBucket k x).ke = s.ke := rfl
@[simp] theorem State.setBucket_prt (s : State) (k : Nat) (x : Bucket) : (s.setBucket k x).prt = s.prt := rfl
@[simp] theorem State.setBucket_syn (s : State) (k : Nat) (x : Bucket) : (s.setBucket k x).syn = s.syn := rfl
@[simp] theorem State.setBucket_dvl (s : State) (k : Nat) (x : Bucket) : (s.setBucket k x).dvl = s.dvl := rfl
@[simp] theorem State.setBucket_trn (s : State) (k : Nat) (x : Bucket) : (s.setBucket k x).trn = s.trn := rfl
@[simp] theorem State.setBucket_trv (s : State) (k : Nat) (x : Bucket) : (s.setBucket k x).trv = s.trv := rfl
@[simp] theorem State.setBucket_bm (s : State) (k : Nat) (x : Bucket) : (s.setBucket k x).bm = s.bm := rfl
@[simp] theorem State.setBucket_hmi (s : State) (k : Nat) (x : Bucket) : (s.setBucket k x).hmi = s.hmi := rfl
@[simp] theorem State.setBucket_pmc (s : State) (k : Nat) (x : Bucket) : (s.setBucket k x).pmc = s.pmc := rfl
@[simp] theorem State.setBucket_rd (s : State) (k : Nat) (x : Bucket) (j : Nat) : (s.setBucket k x).rd j = s.rd j := rfl
@[simp] theorem State.setBucket_get (s : State) (k : Nat) (x : Bucket) (g : Fld) : (s.setBucket k x).get g = s.get g := rfl

end Sys2Proof.Machine
end

