-- ==== Sys2Proof/Laws/Ke.lean ====
section
/-! SUPPORT. Sessions of the key-establishment server: reading one after a change, and what taking the octets of one whole record comes to (R151-R153). -/
namespace Sys2Proof.Machine

/-! ## Sessions -/

theorem session_id {s : State} {id : Nat} {x : KeSession} (h : s.session id = some x) : x.id = id := by
  unfold State.session at h
  simpa using List.find?_some h

theorem session_ke {s t : State} (h : t.ke = s.ke) (id : Nat) : t.session id = s.session id := by unfold State.session; rw [h]

/-- A session that is put is the only one of its number. -/
theorem session_put_some {s : State} {y z : KeSession} (h : (putSession y s).session y.id = some z) : z = y := by
  have hm := List.mem_of_find?_eq_some h
  have hi := session_id h
  simp only [putSession, List.mem_map] at hm
  obtain ⟨w, -, hw⟩ := hm
  by_cases g : w.id = y.id
  · rw [if_pos g] at hw; exact hw.symm
  · rw [if_neg g] at hw; subst hw; exact absurd hi g

theorem session_put {s : State} {y x : KeSession} (h : s.session y.id = some x) : (putSession y s).session y.id = some y := by
  have : ((putSession y s).session y.id).isSome = true := by
    have hm := List.mem_of_find?_eq_some h
    have hi := session_id h
    unfold State.session
    rw [List.find?_isSome]
    refine ⟨y, ?_, by simp⟩
    simp only [putSession, List.mem_map]
    exact ⟨x, hm, if_pos hi⟩
  obtain ⟨z, hz⟩ := Option.isSome_iff_exists.mp this
  rw [hz, session_put_some hz]

theorem session_drop (s : State) (id : Nat) : (dropSession id s).session id = none := by
  unfold State.session
  rw [List.find?_eq_none]
  intro x hx
  have hx : x ∈ s.ke.sessions.filter (fun x => decide (x.id ≠ id)) := hx
  simpa using (List.mem_filter.mp hx).2

/-- A session that exists has fewer octets than the head of a record. -/
def Quiet (id : Nat) (s : State) : Prop := ∀ y, s.session id = some y → y.stream.length < 5

theorem Quiet.put {y : KeSession} (s : State) (h : y.stream.length < 5) : Quiet y.id (putSession y s) := by
  intro z hz
  rw [session_put_some hz]; exact h

theorem Quiet.ke {s t : State} {id : Nat} (h : Quiet id s) (g : t.ke = s.ke) : Quiet id t := by
  intro y hy
  rw [session_ke g] at hy
  exact h y hy

theorem Quiet.drop (s : State) (id : Nat) : Quiet id (dropSession id s) := by
  intro y hy
  rw [session_drop] at hy
  exact absurd hy (by simp)

theorem Quiet.alert (id code : Nat) (s : State) : Quiet id (keAlert id code s) := by
  unfold keAlert
  cases h : s.session id with
  | none => intro y hy; simp [h] at hy
  | some x => exact Quiet.drop _ _

theorem Quiet.send {x : KeSession} (kind : Nat) (b : Bytes) (s : State) (h : x.stream.length < 5) : Quiet x.id (tlsSend x kind b s).2 :=
  Quiet.put (y := { x with tx := (TlsDir.records x.suite kind (pieces 16384 b) x.tx).2 }) _ h

theorem Quiet.ccs {x : KeSession} {s : State} (h : x.stream.length < 5) (g : Quiet x.id s) : Quiet x.id (sendCcs x s).2 := by
  unfold sendCcs
  split
  · exact g
  · exact Quiet.send 20 [1] s h

theorem Quiet.request {s : State} {id : Nat} (block : Bytes) (key : Option KeySlot) (h : Quiet id s) : Quiet id (spuRequest (.session id) block key s) := by
  have he : (pmcEvent 7 0x07 0 1 s).ke = s.ke := ((ChangesOnly.refl (fun _ => true) s).pmcEvent 7 7 0 1 (by decide)).ke
  unfold spuRequest
  simp only
  split
  · exact (h.ke he).ke rfl
  · exact Quiet.alert _ _ _

/-- With no whole head of a record no record is taken. -/
theorem takeRecords_quiet {n id : Nat} {s : State} (h : Quiet id s) : takeRecords n id s = s := by
  cases n with
  | zero => rfl
  | succ n =>
    unfold takeRecords
    cases g : s.session id with
    | none => rfl
    | some x => simp only; rw [if_pos (.inr (h x g))]

/-- What octets that end no record come to. -/
theorem tlsInput_wait (x : KeSession) (b : Bytes) (closed : Bool) (s : State) (h : (x.stream ++ b).length < 5) :
    tlsInput x b closed s = putSession { x with stream := x.stream ++ b, closed := x.closed || closed }
      { s with ke := { s.ke with segments := s.ke.segments.filter (fun e => isSyn e.2 || !(x.owns e.1 e.2)) } } :=
  takeRecords_quiet (Quiet.put (y := { x with stream := x.stream ++ b, closed := x.closed || closed }) _ h)

/-- Sending leaves the traffic secret as it was; only the count of records moves. -/
theorem TlsDir.records_secret (suite kind : Nat) (l : List Bytes) (d : TlsDir) : (TlsDir.records suite kind l d).2.secret = d.secret := by
  induction l generalizing d with
  | nil => rfl
  | cons b r ih =>
    show (TlsDir.records suite kind r (d.record suite kind b).2).2.secret = _
    rw [ih]
    unfold TlsDir.record
    split <;> rfl

theorem tlsSend_next (x : KeSession) (kind : Nat) (b : Bytes) (s : State) : (tlsSend x kind b s).1.tx.next x.suite = x.tx.next x.suite := by
  show (TlsDir.records x.suite kind (pieces 16384 b) x.tx).2.next x.suite = _
  unfold TlsDir.next
  rw [TlsDir.records_secret]

/-! ## One whole record -/

theorem tlsHead_kind (kind n : Nat) (m : Bytes) (h : kind < 256) : beAt (tlsHead kind n ++ m) 0 1 = kind := by
  show (0 * 256 + (BitVec.ofNat 8 kind).toNat) = kind
  rw [BitVec.toNat_ofNat]; omega

theorem tlsHead_len (kind n : Nat) (m : Bytes) (h : n < 65536) : beAt (tlsHead kind n ++ m) 3 2 = n := by
  show ((0 * 256 + (BitVec.ofNat 8 (n / 256)).toNat) * 256 + (BitVec.ofNat 8 n).toNat) = n
  rw [BitVec.toNat_ofNat, BitVec.toNat_ofNat]; omega

theorem tlsHead_length (kind n : Nat) : (tlsHead kind n).length = 5 := rfl

theorem tlsHead_body (kind : Nat) (m : Bytes) : slice (tlsHead kind m.length ++ m) 5 m.length = m := by
  show m.take m.length = m
  exact List.take_length

/-- What one whole record on a connection that holds no octets comes to. -/
theorem tlsInput_record {s : State} {x y : KeSession} {m : Bytes} {kind : Nat} (hk : kind < 256) (hm : m.length ≤ recordLimit kind) (hx : s.session x.id = some y)
    (hs : x.stream = []) (hp : x.phase = 0 ∨ 4 ≤ x.phase) (b : Bytes) (hb : b = tlsHead kind m.length ++ m) (t w : State)
    (ht : t = putSession { x with stream := b } { s with ke := { s.ke with segments := s.ke.segments.filter (fun e => isSyn e.2 || !(x.owns e.1 e.2)) } })
    (hw : w = if x.phase = 0 then clearRecord kind m x t else sealedRecord kind (tlsHead kind m.length) m x t) (hq : Quiet x.id w) :
    tlsInput x b false s = w := by
  have hl : recordLimit kind < 65536 := by unfold recordLimit; split <;> omega
  have hlen : b.length = 5 + m.length := by rw [hb, List.length_append, tlsHead_length]
  have hg : t.session x.id = some { x with stream := b } := by
    rw [ht]
    exact session_put (y := { x with stream := b }) (x := y) hx
  have hdrop : b.drop (5 + m.length) = [] := by rw [← hlen]; exact List.drop_length
  unfold tlsInput
  rw [hs, Bool.or_false, List.nil_append]
  dsimp only
  rw [← ht, List.length_nil, Nat.zero_add, hlen, show 5 + m.length = (4 + m.length) + 1 by omega]
  unfold takeRecords
  rw [hg]
  dsimp only
  have hph : ¬((x.phase ≠ 0 ∧ x.phase < 4) ∨ b.length < 5) := by rw [hlen]; omega
  have hkd : beAt b 0 1 = kind := by rw [hb, tlsHead_kind _ _ _ hk]
  have hln : beAt b 3 2 = m.length := by rw [hb, tlsHead_len _ _ _ (by omega)]
  have htk : b.take 5 = tlsHead kind m.length := by rw [hb]; rfl
  have hbd : slice b 5 m.length = m := by rw [hb, tlsHead_body]
  have hx0 : { x with stream := [] } = x := by cases x; simp only at hs; rw [hs]
  rw [if_neg hph, hkd, hln, if_neg (by omega), if_neg (by omega), hdrop, hbd, htk]
  rw [show (⟨x.id, x.port, x.phase, x.since, x.retried, x.suite, x.group, x.cert, x.share, x.scalar, x.secret, x.sa, x.peer, x.legacy, x.transcript, x.hello,
    x.flight, x.rx, x.tx, x.clientNext, x.finished, x.early, [], x.part, x.data, x.closed⟩ : KeSession) = x from hx0, ← hw]
  exact takeRecords_quiet hq

theorem Quiet.taken {x : KeSession} (h : Hello) (m share : Bytes) (suite g cert : Nat) (s : State) (hx : x.stream.length < 5) :
    Quiet x.id (helloTaken x h m share suite g cert s) :=
  Quiet.request _ _ (Quiet.put (y := { x with
    phase := 1, suite := suite, group := g, cert := cert, share := share, legacy := h.legacy, transcript := x.transcript ++ m
    early := if h.early then 16384 else x.early }) s hx)

theorem Quiet.retry {x : KeSession} (h : Hello) (m : Bytes) (suite g : Nat) (s : State) (hx : x.stream.length < 5) : Quiet x.id (helloRetry x h m suite g s) := by
  unfold helloRetry
  dsimp only
  generalize hy : ({ x with
    retried := true, suite := suite, group := g, legacy := h.legacy, transcript := handshake 254 (tlsHash suite m) ++ serverHello retryRandom h.legacy suite (natBE 2 (groupName g))
    early := if h.early then 16384 else 0 } : KeSession) = y
  have hi : y.id = x.id := by rw [← hy]
  have hs : y.stream.length < 5 := by rw [← hy]; exact hx
  rw [← hi]
  exact Quiet.ccs (x := (tlsSend y 22 _ s).1) hs (Quiet.send 22 _ s hs)

/-- The choices of R152 leave a session quiet, or none. -/
theorem Quiet.choose {x : KeSession} (h : Hello) (m : Bytes) (s : State) (hx : x.stream.length < 5) : Quiet x.id (chooseHello x h m s) := by
  unfold chooseHello
  dsimp only
  generalize (if x.retried = true then [x.suite] else suiteOrder s) = l1
  generalize (if x.retried = true then [x.group] else groupOrder s) = l2
  repeat' first
    | exact Quiet.alert _ _ _
    | exact Quiet.taken _ _ _ _ _ _ _ hx
    | exact Quiet.retry _ _ _ _ _ hx
    | split

/-- A whole ClientHello in one record. -/
theorem tlsInput_hello {s : State} {x y : KeSession} {m : Bytes} {h : Hello} (hx : s.session x.id = some y) (hs : x.stream = []) (hp : x.phase = 0)
    (hpart : x.part = []) (h1 : beAt m 0 1 = 1) (h4 : 4 ≤ m.length) (hn : m.length = 4 + beAt m 1 3) (hm : m.length ≤ 16384)
    (hh : parseHello (m.drop 4) = .ok h) (b : Bytes) (hb : b = tlsHead 22 m.length ++ m) (t : State)
    (ht : t = putSession { x with stream := b } { s with ke := { s.ke with segments := s.ke.segments.filter (fun e => isSyn e.2 || !(x.owns e.1 e.2)) } }) :
    tlsInput x b false s = chooseHello x h m t := by
  refine tlsInput_record (kind := 22) (by decide) hm hx hs (.inl hp) b hb t _ ht ?_ (Quiet.choose h m t (by rw [hs]; decide))
  have hx0 : { x with part := [] } = x := by cases x; simp only at hpart; rw [hpart]
  rw [if_pos hp]
  unfold clearRecord
  rw [if_pos rfl, hpart, List.nil_append]
  unfold helloBytes
  dsimp only
  rw [if_neg (by rw [h1]; simp), if_neg (by omega), if_neg (by omega), if_neg (by omega), hh]
  exact congrArg (fun z => chooseHello z h m t) hx0.symm

/-- A whole KeyUpdate in one record that verifies. -/
theorem tlsInput_keyUpdate {s : State} {x y : KeSession} {c : Bytes} {a : Byte} (hx : s.session x.id = some y) (hs : x.stream = []) (hp : 4 ≤ x.phase)
    (hpart : x.part = []) (hf : x.finished = true) (hm : c.length ≤ 16384 + 256)
    (ho : gcmOpen (x.rx.key x.suite) (x.rx.nonce x.suite) (tlsHead 23 c.length) c = some [24, 0, 0, 1, a, 22]) (b : Bytes)
    (hb : b = tlsHead 23 c.length ++ c) (t : State)
    (ht : t = putSession { x with stream := b } { s with ke := { s.ke with segments := s.ke.segments.filter (fun e => isSyn e.2 || !(x.owns e.1 e.2)) } }) :
    tlsInput x b false s = keyUpdate x a.toNat t := by
  have hq : Quiet x.id (keyUpdate x a.toNat t) := by
    unfold keyUpdate
    dsimp only
    split
    · exact Quiet.alert _ _ _
    · have h5 : x.stream.length < 5 := by rw [hs]; decide
      split
      · exact Quiet.put (y := { x with rx := x.rx.next x.suite, part := [] }) t h5
      · exact Quiet.put (y := { (tlsSend { x with rx := x.rx.next x.suite, part := [] } 22 (handshake 24 [0]) t).1 with
          tx := (tlsSend { x with rx := x.rx.next x.suite, part := [] } 22 (handshake 24 [0]) t).1.tx.next x.suite }) _ h5
  refine tlsInput_record (kind := 23) (by decide) hm hx hs (.inr hp) b hb t _ ht ?_ hq
  have hr : (([24, 0, 0, 1, a, 22] : Bytes).reverse.dropWhile (fun v => decide (v = 0))).reverse = [24, 0, 0, 1, a, 22] := rfl
  rw [if_neg (by omega)]
  unfold sealedRecord
  rw [if_neg (by simp), if_neg (by simp), if_neg (by simp), ho]
  dsimp only
  rw [hr, if_neg (by simp)]
  show _ = sealedContent 22 [24, 0, 0, 1, a] { x with rx := { x.rx with seq := x.rx.seq + 1 } } t
  unfold sealedContent
  rw [if_neg (by simp), if_pos rfl]
  dsimp only
  rw [hpart, List.nil_append]
  unfold sealedHandshake
  have hn : beAt ([24, 0, 0, 1, a] : Bytes) 1 3 = 1 := rfl
  have hk : beAt ([24, 0, 0, 1, a] : Bytes) 0 1 = 24 := rfl
  have ha : beAt ([24, 0, 0, 1, a] : Bytes) 4 1 = a.toNat := by
    show 0 * 256 + a.toNat = a.toNat
    omega
  dsimp only
  rw [hn, hk, ha, if_neg (by simp), if_neg (by simp), if_neg (by simp), if_neg (by simp), if_pos ⟨hf, rfl⟩, if_pos rfl]
  rfl

end Sys2Proof.Machine
end

