-- ==== Sys2Proof/Laws/Keeps.lean ====
section
/-! SUPPORT. What every operation keeps: the queue of commands, and the canonical form of the register file and the flash. `Keeps b t` says so of a state `t`
that was reached from `b`. -/
namespace Sys2Proof.Machine
set_option linter.unusedTactic false
set_option linter.unreachableTactic false

/-- The queue is that of `b`, and the canonical forms hold if they held in `b`, for the parts of a state. -/
structure KeepsParts (b : State) (q : List Instr) (regs : Map Word) (flash : Map Byte) : Prop where
  queue : q = b.pending
  canon : Canonical b → regsWf regs = true ∧ flashWf flash = true

/-- The same for a state. -/
def Keeps (b t : State) : Prop := KeepsParts b t.pending t.regs t.sys.flash

theorem Keeps.refl (b : State) : Keeps b b := ⟨rfl, id⟩

/-- A state in its fields. -/
theorem keeps_mk {b : State} {pending : List Instr} {now fresh : Nat} {out : List Emission} {regs mclk : Map Word}
    {latchMw0 latchMspi copyMw0 copyMspi : WordMap} {sys : SysState} {flt : FltState} {fbk : FbkState} {dtm : DatumState} {sko : Vector SkoPort 4}
    {stk : Vector StkUnit 7} {svp : SvpState} {pke : PkeState} {crl : CrlState} {ke : KeState} {prt : PrtState} {syn : SynState} {dvl : DvlState}
    {trn : TrnState} {trv : TrvState} {bm : BmState} {hmi : HmiState} {pmc : PmcState} :
    Keeps b ⟨pending, now, fresh, out, regs, mclk, latchMw0, latchMspi, copyMw0, copyMspi, sys, flt, fbk, dtm, sko, stk, svp, pke, crl, ke, prt, syn, dvl, trn,
      trv, bm, hmi, pmc⟩ = KeepsParts b pending regs sys.flash := rfl

/-- Changes of any field but the queue, the registers and the flash. -/
theorem keeps_parts {b s : State} (h : Keeps b s) : KeepsParts b s.pending s.regs s.sys.flash := h

theorem keeps_ite {b x y : State} {c : Prop} [Decidable c] (hx : Keeps b x) (hy : Keeps b y) : Keeps b (if c then x else y) := by
  split <;> assumption

theorem keeps_elim {b s : State} {α : Type} {g : α → State} {o : Option α} (h : Keeps b s) (hg : ∀ x, Keeps b (g x)) : Keeps b (o.elim s g) := by
  cases o
  · exact h
  · exact hg _

theorem keeps_foldl {b s : State} {α : Type} {g : State → α → State} {l : List α} (hg : ∀ t x, Keeps b t → Keeps b (g t x)) (h : Keeps b s) :
    Keeps b (l.foldl g s) := by
  induction l generalizing s with
  | nil => exact h
  | cons x l ih => exact ih (hg s x h)

/-- The state of a pair whose parts a match names. -/
theorem keeps_snd {b t : State} {α : Type} {x : α × State} {a : α} (e : x = (a, t)) (h : Keeps b x.2) : Keeps b t := by
  subst e; exact h

theorem keeps_wr {b s : State} (a : Nat) (v : Word) (h : Keeps b s) : Keeps b (s.wr a v) :=
  ⟨h.queue, fun hb => ⟨regsWf_put a v (h.canon hb).1, (h.canon hb).2⟩⟩

end Sys2Proof.Machine
end

