-- ==== Sys2Proof/Laws/KeepOps.lean ====
section
/-! SUPPORT. The operations of Machine/Ops.lean keep the queue and the canonical forms. -/
namespace Sys2Proof.Machine
set_option linter.unusedTactic false
set_option linter.unreachableTactic false

theorem State.wr_keeps {b : State} {s : State} (a : Nat) (v : Word) (h : Keeps b s) : Keeps b (State.wr s a v) := keeps_wr a v h

theorem State.set_keeps {b : State} {s : State} (f : Sys2Proof.Machine.Fld) (x : ℕ) (h : Keeps b s) : Keeps b (State.set s f x) := by
  unfold State.set
  repeat' first
    | with_reducible assumption
    | with_reducible apply State.wr_keeps
    | with_reducible apply keeps_foldl
    | with_reducible apply keeps_ite
    | (simp -zeta only [keeps_mk]; with_reducible refine keeps_parts ?_)
    | (with_reducible refine fun _ _ t ht => ?_)
    | (with_reducible refine fun t x ht => ?_)
    | (with_reducible refine fun t ht => ?_)
    | (extract_lets +onlyGivenNames -underBinder t; first | (refine have ht : Keeps b t := ?_; ?_; dsimp -zeta only [t]; rotate_left; clear_value t) | (refine have ht : Keeps b t.2 := ?_; ?_; dsimp -zeta only [t]; rotate_left; clear_value t) | (refine have ht : Keeps b t.1 := ?_; ?_; dsimp -zeta only [t]; rotate_left; clear_value t) | (refine have ht : ∀ x y, Keeps b y → Keeps b (t x y) := ?_; ?_; dsimp -zeta only [t]; rotate_left; clear_value t) | (refine have ht : ∀ y, Keeps b y → Keeps b (t y) := ?_; ?_; dsimp -zeta only [t]; rotate_left; clear_value t) | (refine have ht : Keeps b t.2.2 := ?_; ?_; dsimp -zeta only [t]; rotate_left; clear_value t) | (clear_value t) | skip)
    | split
    | (with_reducible refine keeps_snd (by assumption) ?_)
    | (dsimp -zeta only)
    | (with_reducible apply_assumption)

theorem State.setB_keeps {b : State} {s : State} (f : Sys2Proof.Machine.Fld) (b0 : Bool) (h : Keeps b s) : Keeps b (State.setB s f b0) := by
  unfold State.setB
  repeat' first
    | with_reducible assumption
    | with_reducible apply State.set_keeps
    | with_reducible apply keeps_foldl
    | with_reducible apply keeps_ite
    | (simp -zeta only [keeps_mk]; with_reducible refine keeps_parts ?_)
    | (with_reducible refine fun _ _ t ht => ?_)
    | (with_reducible refine fun t x ht => ?_)
    | (with_reducible refine fun t ht => ?_)
    | (extract_lets +onlyGivenNames -underBinder t; first | (refine have ht : Keeps b t := ?_; ?_; dsimp -zeta only [t]; rotate_left; clear_value t) | (refine have ht : Keeps b t.2 := ?_; ?_; dsimp -zeta only [t]; rotate_left; clear_value t) | (refine have ht : Keeps b t.1 := ?_; ?_; dsimp -zeta only [t]; rotate_left; clear_value t) | (refine have ht : ∀ x y, Keeps b y → Keeps b (t x y) := ?_; ?_; dsimp -zeta only [t]; rotate_left; clear_value t) | (refine have ht : ∀ y, Keeps b y → Keeps b (t y) := ?_; ?_; dsimp -zeta only [t]; rotate_left; clear_value t) | (refine have ht : Keeps b t.2.2 := ?_; ?_; dsimp -zeta only [t]; rotate_left; clear_value t) | (clear_value t) | skip)
    | split
    | (with_reducible refine keeps_snd (by assumption) ?_)
    | (dsimp -zeta only)
    | (with_reducible apply_assumption)

theorem State.setI_keeps {b : State} {s : State} (f : Sys2Proof.Machine.Fld) (x : ℤ) (h : Keeps b s) : Keeps b (State.setI s f x) := by
  unfold State.setI
  repeat' first
    | with_reducible assumption
    | with_reducible apply State.set_keeps
    | with_reducible apply keeps_foldl
    | with_reducible apply keeps_ite
    | (simp -zeta only [keeps_mk]; with_reducible refine keeps_parts ?_)
    | (with_reducible refine fun _ _ t ht => ?_)
    | (with_reducible refine fun t x ht => ?_)
    | (with_reducible refine fun t ht => ?_)
    | (extract_lets +onlyGivenNames -underBinder t; first | (refine have ht : Keeps b t := ?_; ?_; dsimp -zeta only [t]; rotate_left; clear_value t) | (refine have ht : Keeps b t.2 := ?_; ?_; dsimp -zeta only [t]; rotate_left; clear_value t) | (refine have ht : Keeps b t.1 := ?_; ?_; dsimp -zeta only [t]; rotate_left; clear_value t) | (refine have ht : ∀ x y, Keeps b y → Keeps b (t x y) := ?_; ?_; dsimp -zeta only [t]; rotate_left; clear_value t) | (refine have ht : ∀ y, Keeps b y → Keeps b (t y) := ?_; ?_; dsimp -zeta only [t]; rotate_left; clear_value t) | (refine have ht : Keeps b t.2.2 := ?_; ?_; dsimp -zeta only [t]; rotate_left; clear_value t) | (clear_value t) | skip)
    | split
    | (with_reducible refine keeps_snd (by assumption) ?_)
    | (dsimp -zeta only)
    | (with_reducible apply_assumption)

theorem State.happen_keeps {b : State} {s : State} (f : Sys2Proof.Machine.Fld) (g : ℕ → ℕ) (h : Keeps b s) : Keeps b (State.happen s f g) := by
  unfold State.happen
  repeat' first
    | with_reducible assumption
    | with_reducible apply State.set_keeps
    | with_reducible apply keeps_foldl
    | with_reducible apply keeps_ite
    | (simp -zeta only [keeps_mk]; with_reducible refine keeps_parts ?_)
    | (with_reducible refine fun _ _ t ht => ?_)
    | (with_reducible refine fun t x ht => ?_)
    | (with_reducible refine fun t ht => ?_)
    | (extract_lets +onlyGivenNames -underBinder t; first | (refine have ht : Keeps b t := ?_; ?_; dsimp -zeta only [t]; rotate_left; clear_value t) | (refine have ht : Keeps b t.2 := ?_; ?_; dsimp -zeta only [t]; rotate_left; clear_value t) | (refine have ht : Keeps b t.1 := ?_; ?_; dsimp -zeta only [t]; rotate_left; clear_value t) | (refine have ht : ∀ x y, Keeps b y → Keeps b (t x y) := ?_; ?_; dsimp -zeta only [t]; rotate_left; clear_value t) | (refine have ht : ∀ y, Keeps b y → Keeps b (t y) := ?_; ?_; dsimp -zeta only [t]; rotate_left; clear_value t) | (refine have ht : Keeps b t.2.2 := ?_; ?_; dsimp -zeta only [t]; rotate_left; clear_value t) | (clear_value t) | skip)
    | split
    | (with_reducible refine keeps_snd (by assumption) ?_)
    | (dsimp -zeta only)
    | (with_reducible apply_assumption)

theorem State.strike_keeps {b : State} {s : State} (f : Sys2Proof.Machine.Fld) (h : Keeps b s) : Keeps b (State.strike s f) := by
  unfold State.strike
  repeat' first
    | with_reducible assumption
    | with_reducible apply State.happen_keeps
    | with_reducible apply keeps_foldl
    | with_reducible apply keeps_ite
    | (simp -zeta only [keeps_mk]; with_reducible refine keeps_parts ?_)
    | (with_reducible refine fun _ _ t ht => ?_)
    | (with_reducible refine fun t x ht => ?_)
    | (with_reducible refine fun t ht => ?_)
    | (extract_lets +onlyGivenNames -underBinder t; first | (refine have ht : Keeps b t := ?_; ?_; dsimp -zeta only [t]; rotate_left; clear_value t) | (refine have ht : Keeps b t.2 := ?_; ?_; dsimp -zeta only [t]; rotate_left; clear_value t) | (refine have ht : Keeps b t.1 := ?_; ?_; dsimp -zeta only [t]; rotate_left; clear_value t) | (refine have ht : ∀ x y, Keeps b y → Keeps b (t x y) := ?_; ?_; dsimp -zeta only [t]; rotate_left; clear_value t) | (refine have ht : ∀ y, Keeps b y → Keeps b (t y) := ?_; ?_; dsimp -zeta only [t]; rotate_left; clear_value t) | (refine have ht : Keeps b t.2.2 := ?_; ?_; dsimp -zeta only [t]; rotate_left; clear_value t) | (clear_value t) | skip)
    | split
    | (with_reducible refine keeps_snd (by assumption) ?_)
    | (dsimp -zeta only)
    | (with_reducible apply_assumption)

theorem State.setBit_keeps {b : State} {s : State} (a : ℕ) (i : ℕ) (h : Keeps b s) : Keeps b (State.setBit s a i) := by
  unfold State.setBit
  repeat' first
    | with_reducible assumption
    | with_reducible apply State.strike_keeps
    | with_reducible apply keeps_foldl
    | with_reducible apply keeps_ite
    | (simp -zeta only [keeps_mk]; with_reducible refine keeps_parts ?_)
    | (with_reducible refine fun _ _ t ht => ?_)
    | (with_reducible refine fun t x ht => ?_)
    | (with_reducible refine fun t ht => ?_)
    | (extract_lets +onlyGivenNames -underBinder t; first | (refine have ht : Keeps b t := ?_; ?_; dsimp -zeta only [t]; rotate_left; clear_value t) | (refine have ht : Keeps b t.2 := ?_; ?_; dsimp -zeta only [t]; rotate_left; clear_value t) | (refine have ht : Keeps b t.1 := ?_; ?_; dsimp -zeta only [t]; rotate_left; clear_value t) | (refine have ht : ∀ x y, Keeps b y → Keeps b (t x y) := ?_; ?_; dsimp -zeta only [t]; rotate_left; clear_value t) | (refine have ht : ∀ y, Keeps b y → Keeps b (t y) := ?_; ?_; dsimp -zeta only [t]; rotate_left; clear_value t) | (refine have ht : Keeps b t.2.2 := ?_; ?_; dsimp -zeta only [t]; rotate_left; clear_value t) | (clear_value t) | skip)
    | split
    | (with_reducible refine keeps_snd (by assumption) ?_)
    | (dsimp -zeta only)
    | (with_reducible apply_assumption)

theorem State.clrBit_keeps {b : State} {s : State} (a : ℕ) (i : ℕ) (h : Keeps b s) : Keeps b (State.clrBit s a i) := by
  unfold State.clrBit
  repeat' first
    | with_reducible assumption
    | with_reducible apply State.set_keeps
    | with_reducible apply keeps_foldl
    | with_reducible apply keeps_ite
    | (simp -zeta only [keeps_mk]; with_reducible refine keeps_parts ?_)
    | (with_reducible refine fun _ _ t ht => ?_)
    | (with_reducible refine fun t x ht => ?_)
    | (with_reducible refine fun t ht => ?_)
    | (extract_lets +onlyGivenNames -underBinder t; first | (refine have ht : Keeps b t := ?_; ?_; dsimp -zeta only [t]; rotate_left; clear_value t) | (refine have ht : Keeps b t.2 := ?_; ?_; dsimp -zeta only [t]; rotate_left; clear_value t) | (refine have ht : Keeps b t.1 := ?_; ?_; dsimp -zeta only [t]; rotate_left; clear_value t) | (refine have ht : ∀ x y, Keeps b y → Keeps b (t x y) := ?_; ?_; dsimp -zeta only [t]; rotate_left; clear_value t) | (refine have ht : ∀ y, Keeps b y → Keeps b (t y) := ?_; ?_; dsimp -zeta only [t]; rotate_left; clear_value t) | (refine have ht : Keeps b t.2.2 := ?_; ?_; dsimp -zeta only [t]; rotate_left; clear_value t) | (clear_value t) | skip)
    | split
    | (with_reducible refine keeps_snd (by assumption) ?_)
    | (dsimp -zeta only)
    | (with_reducible apply_assumption)

theorem State.set64_keeps {b : State} {s : State} (a : ℕ) (v : ℕ) (h : Keeps b s) : Keeps b (State.set64 s a v) := by
  unfold State.set64
  repeat' first
    | with_reducible assumption
    | with_reducible apply State.wr_keeps
    | with_reducible apply keeps_foldl
    | with_reducible apply keeps_ite
    | (simp -zeta only [keeps_mk]; with_reducible refine keeps_parts ?_)
    | (with_reducible refine fun _ _ t ht => ?_)
    | (with_reducible refine fun t x ht => ?_)
    | (with_reducible refine fun t ht => ?_)
    | (extract_lets +onlyGivenNames -underBinder t; first | (refine have ht : Keeps b t := ?_; ?_; dsimp -zeta only [t]; rotate_left; clear_value t) | (refine have ht : Keeps b t.2 := ?_; ?_; dsimp -zeta only [t]; rotate_left; clear_value t) | (refine have ht : Keeps b t.1 := ?_; ?_; dsimp -zeta only [t]; rotate_left; clear_value t) | (refine have ht : ∀ x y, Keeps b y → Keeps b (t x y) := ?_; ?_; dsimp -zeta only [t]; rotate_left; clear_value t) | (refine have ht : ∀ y, Keeps b y → Keeps b (t y) := ?_; ?_; dsimp -zeta only [t]; rotate_left; clear_value t) | (refine have ht : Keeps b t.2.2 := ?_; ?_; dsimp -zeta only [t]; rotate_left; clear_value t) | (clear_value t) | skip)
    | split
    | (with_reducible refine keeps_snd (by assumption) ?_)
    | (dsimp -zeta only)
    | (with_reducible apply_assumption)

theorem State.add64_keeps {b : State} {s : State} (a : ℕ) (k : ℕ) (h : Keeps b s) : Keeps b (State.add64 s a k) := by
  unfold State.add64
  repeat' first
    | with_reducible assumption
    | with_reducible apply State.set64_keeps
    | with_reducible apply keeps_foldl
    | with_reducible apply keeps_ite
    | (simp -zeta only [keeps_mk]; with_reducible refine keeps_parts ?_)
    | (with_reducible refine fun _ _ t ht => ?_)
    | (with_reducible refine fun t x ht => ?_)
    | (with_reducible refine fun t ht => ?_)
    | (extract_lets +onlyGivenNames -underBinder t; first | (refine have ht : Keeps b t := ?_; ?_; dsimp -zeta only [t]; rotate_left; clear_value t) | (refine have ht : Keeps b t.2 := ?_; ?_; dsimp -zeta only [t]; rotate_left; clear_value t) | (refine have ht : Keeps b t.1 := ?_; ?_; dsimp -zeta only [t]; rotate_left; clear_value t) | (refine have ht : ∀ x y, Keeps b y → Keeps b (t x y) := ?_; ?_; dsimp -zeta only [t]; rotate_left; clear_value t) | (refine have ht : ∀ y, Keeps b y → Keeps b (t y) := ?_; ?_; dsimp -zeta only [t]; rotate_left; clear_value t) | (refine have ht : Keeps b t.2.2 := ?_; ?_; dsimp -zeta only [t]; rotate_left; clear_value t) | (clear_value t) | skip)
    | split
    | (with_reducible refine keeps_snd (by assumption) ?_)
    | (dsimp -zeta only)
    | (with_reducible apply_assumption)

theorem State.addSat_keeps {b : State} {s : State} (f : Sys2Proof.Machine.Fld) (k : ℕ) (h : Keeps b s) : Keeps b (State.addSat s f k) := by
  unfold State.addSat
  repeat' first
    | with_reducible assumption
    | with_reducible apply State.happen_keeps
    | with_reducible apply keeps_foldl
    | with_reducible apply keeps_ite
    | (simp -zeta only [keeps_mk]; with_reducible refine keeps_parts ?_)
    | (with_reducible refine fun _ _ t ht => ?_)
    | (with_reducible refine fun t x ht => ?_)
    | (with_reducible refine fun t ht => ?_)
    | (extract_lets +onlyGivenNames -underBinder t; first | (refine have ht : Keeps b t := ?_; ?_; dsimp -zeta only [t]; rotate_left; clear_value t) | (refine have ht : Keeps b t.2 := ?_; ?_; dsimp -zeta only [t]; rotate_left; clear_value t) | (refine have ht : Keeps b t.1 := ?_; ?_; dsimp -zeta only [t]; rotate_left; clear_value t) | (refine have ht : ∀ x y, Keeps b y → Keeps b (t x y) := ?_; ?_; dsimp -zeta only [t]; rotate_left; clear_value t) | (refine have ht : ∀ y, Keeps b y → Keeps b (t y) := ?_; ?_; dsimp -zeta only [t]; rotate_left; clear_value t) | (refine have ht : Keeps b t.2.2 := ?_; ?_; dsimp -zeta only [t]; rotate_left; clear_value t) | (clear_value t) | skip)
    | split
    | (with_reducible refine keeps_snd (by assumption) ?_)
    | (dsimp -zeta only)
    | (with_reducible apply_assumption)

theorem State.clear64s_keeps {b : State} {s : State} (a n : Nat) (h : Keeps b s) : Keeps b (State.clear64s s a n) := by
  induction n with
  | zero => exact h
  | succ n ih => exact State.set64_keeps _ _ ih

theorem State.setDatum_keeps {b : State} {s : State} (a : ℕ) (t : Sys2Proof.Instant) (h : Keeps b s) : Keeps b (State.setDatum s a t) := by
  unfold State.setDatum
  repeat' first
    | with_reducible assumption
    | with_reducible apply State.wr_keeps
    | with_reducible apply keeps_foldl
    | with_reducible apply keeps_ite
    | (simp -zeta only [keeps_mk]; with_reducible refine keeps_parts ?_)
    | (with_reducible refine fun _ _ t ht => ?_)
    | (with_reducible refine fun t x ht => ?_)
    | (with_reducible refine fun t ht => ?_)
    | (extract_lets +onlyGivenNames -underBinder t; first | (refine have ht : Keeps b t := ?_; ?_; dsimp -zeta only [t]; rotate_left; clear_value t) | (refine have ht : Keeps b t.2 := ?_; ?_; dsimp -zeta only [t]; rotate_left; clear_value t) | (refine have ht : Keeps b t.1 := ?_; ?_; dsimp -zeta only [t]; rotate_left; clear_value t) | (refine have ht : ∀ x y, Keeps b y → Keeps b (t x y) := ?_; ?_; dsimp -zeta only [t]; rotate_left; clear_value t) | (refine have ht : ∀ y, Keeps b y → Keeps b (t y) := ?_; ?_; dsimp -zeta only [t]; rotate_left; clear_value t) | (refine have ht : Keeps b t.2.2 := ?_; ?_; dsimp -zeta only [t]; rotate_left; clear_value t) | (clear_value t) | skip)
    | split
    | (with_reducible refine keeps_snd (by assumption) ?_)
    | (dsimp -zeta only)
    | (with_reducible apply_assumption)

theorem State.emit_keeps {b : State} {s : State} (e : Sys2Proof.Machine.Emission) (h : Keeps b s) : Keeps b (State.emit s e) := by
  unfold State.emit
  repeat' first
    | with_reducible assumption
    | with_reducible apply keeps_foldl
    | with_reducible apply keeps_ite
    | (simp -zeta only [keeps_mk]; with_reducible refine keeps_parts ?_)
    | (with_reducible refine fun _ _ t ht => ?_)
    | (with_reducible refine fun t x ht => ?_)
    | (with_reducible refine fun t ht => ?_)
    | (extract_lets +onlyGivenNames -underBinder t; first | (refine have ht : Keeps b t := ?_; ?_; dsimp -zeta only [t]; rotate_left; clear_value t) | (refine have ht : Keeps b t.2 := ?_; ?_; dsimp -zeta only [t]; rotate_left; clear_value t) | (refine have ht : Keeps b t.1 := ?_; ?_; dsimp -zeta only [t]; rotate_left; clear_value t) | (refine have ht : ∀ x y, Keeps b y → Keeps b (t x y) := ?_; ?_; dsimp -zeta only [t]; rotate_left; clear_value t) | (refine have ht : ∀ y, Keeps b y → Keeps b (t y) := ?_; ?_; dsimp -zeta only [t]; rotate_left; clear_value t) | (refine have ht : Keeps b t.2.2 := ?_; ?_; dsimp -zeta only [t]; rotate_left; clear_value t) | (clear_value t) | skip)
    | split
    | (with_reducible refine keeps_snd (by assumption) ?_)
    | (dsimp -zeta only)
    | (with_reducible apply_assumption)

theorem State.draw_keeps {b : State} {s : State} (w : ℕ) (h : Keeps b s) : Keeps b (State.draw s w).2 := by
  unfold State.draw
  repeat' first
    | with_reducible assumption
    | with_reducible apply keeps_foldl
    | with_reducible apply keeps_ite
    | (simp -zeta only [keeps_mk]; with_reducible refine keeps_parts ?_)
    | (with_reducible refine fun _ _ t ht => ?_)
    | (with_reducible refine fun t x ht => ?_)
    | (with_reducible refine fun t ht => ?_)
    | (extract_lets +onlyGivenNames -underBinder t; first | (refine have ht : Keeps b t := ?_; ?_; dsimp -zeta only [t]; rotate_left; clear_value t) | (refine have ht : Keeps b t.2 := ?_; ?_; dsimp -zeta only [t]; rotate_left; clear_value t) | (refine have ht : Keeps b t.1 := ?_; ?_; dsimp -zeta only [t]; rotate_left; clear_value t) | (refine have ht : ∀ x y, Keeps b y → Keeps b (t x y) := ?_; ?_; dsimp -zeta only [t]; rotate_left; clear_value t) | (refine have ht : ∀ y, Keeps b y → Keeps b (t y) := ?_; ?_; dsimp -zeta only [t]; rotate_left; clear_value t) | (refine have ht : Keeps b t.2.2 := ?_; ?_; dsimp -zeta only [t]; rotate_left; clear_value t) | (clear_value t) | skip)
    | split
    | (with_reducible refine keeps_snd (by assumption) ?_)
    | (dsimp -zeta only)
    | (with_reducible apply_assumption)

theorem pmcCount_keeps {b : State} (u : ℕ) (evt : ℕ) (inst : ℕ) (amt : ℕ) {s : State} (k : ℕ) (h : Keeps b s) : Keeps b (pmcCount u evt inst amt s k) := by
  unfold pmcCount
  repeat' first
    | with_reducible assumption
    | with_reducible apply State.set64_keeps
    | with_reducible apply State.setBit_keeps
    | with_reducible apply keeps_foldl
    | with_reducible apply keeps_ite
    | (simp -zeta only [keeps_mk]; with_reducible refine keeps_parts ?_)
    | (with_reducible refine fun _ _ t ht => ?_)
    | (with_reducible refine fun t x ht => ?_)
    | (with_reducible refine fun t ht => ?_)
    | (extract_lets +onlyGivenNames -underBinder t; first | (refine have ht : Keeps b t := ?_; ?_; dsimp -zeta only [t]; rotate_left; clear_value t) | (refine have ht : Keeps b t.2 := ?_; ?_; dsimp -zeta only [t]; rotate_left; clear_value t) | (refine have ht : Keeps b t.1 := ?_; ?_; dsimp -zeta only [t]; rotate_left; clear_value t) | (refine have ht : ∀ x y, Keeps b y → Keeps b (t x y) := ?_; ?_; dsimp -zeta only [t]; rotate_left; clear_value t) | (refine have ht : ∀ y, Keeps b y → Keeps b (t y) := ?_; ?_; dsimp -zeta only [t]; rotate_left; clear_value t) | (refine have ht : Keeps b t.2.2 := ?_; ?_; dsimp -zeta only [t]; rotate_left; clear_value t) | (clear_value t) | skip)
    | split
    | (with_reducible refine keeps_snd (by assumption) ?_)
    | (dsimp -zeta only)
    | (with_reducible apply_assumption)

theorem pmcRaw_keeps {b : State} (u : ℕ) (evt : ℕ) (inst : ℕ) (amt : ℕ) {s : State} (h : Keeps b s) : Keeps b (pmcRaw u evt inst amt s) := by
  unfold pmcRaw
  repeat' first
    | with_reducible assumption
    | with_reducible apply pmcCount_keeps
    | with_reducible apply keeps_foldl
    | with_reducible apply keeps_ite
    | (simp -zeta only [keeps_mk]; with_reducible refine keeps_parts ?_)
    | (with_reducible refine fun _ _ t ht => ?_)
    | (with_reducible refine fun t x ht => ?_)
    | (with_reducible refine fun t ht => ?_)
    | (extract_lets +onlyGivenNames -underBinder t; first | (refine have ht : Keeps b t := ?_; ?_; dsimp -zeta only [t]; rotate_left; clear_value t) | (refine have ht : Keeps b t.2 := ?_; ?_; dsimp -zeta only [t]; rotate_left; clear_value t) | (refine have ht : Keeps b t.1 := ?_; ?_; dsimp -zeta only [t]; rotate_left; clear_value t) | (refine have ht : ∀ x y, Keeps b y → Keeps b (t x y) := ?_; ?_; dsimp -zeta only [t]; rotate_left; clear_value t) | (refine have ht : ∀ y, Keeps b y → Keeps b (t y) := ?_; ?_; dsimp -zeta only [t]; rotate_left; clear_value t) | (refine have ht : Keeps b t.2.2 := ?_; ?_; dsimp -zeta only [t]; rotate_left; clear_value t) | (clear_value t) | skip)
    | split
    | (with_reducible refine keeps_snd (by assumption) ?_)
    | (dsimp -zeta only)
    | (with_reducible apply_assumption)

theorem signalVector_keeps {b : State} (v : ℕ) {s : State} (h : Keeps b s) : Keeps b (signalVector v s) := by
  unfold signalVector
  repeat' first
    | with_reducible assumption
    | with_reducible apply pmcRaw_keeps
    | with_reducible apply State.emit_keeps
    | with_reducible apply keeps_foldl
    | with_reducible apply keeps_ite
    | (simp -zeta only [keeps_mk]; with_reducible refine keeps_parts ?_)
    | (with_reducible refine fun _ _ t ht => ?_)
    | (with_reducible refine fun t x ht => ?_)
    | (with_reducible refine fun t ht => ?_)
    | (extract_lets +onlyGivenNames -underBinder t; first | (refine have ht : Keeps b t := ?_; ?_; dsimp -zeta only [t]; rotate_left; clear_value t) | (refine have ht : Keeps b t.2 := ?_; ?_; dsimp -zeta only [t]; rotate_left; clear_value t) | (refine have ht : Keeps b t.1 := ?_; ?_; dsimp -zeta only [t]; rotate_left; clear_value t) | (refine have ht : ∀ x y, Keeps b y → Keeps b (t x y) := ?_; ?_; dsimp -zeta only [t]; rotate_left; clear_value t) | (refine have ht : ∀ y, Keeps b y → Keeps b (t y) := ?_; ?_; dsimp -zeta only [t]; rotate_left; clear_value t) | (refine have ht : Keeps b t.2.2 := ?_; ?_; dsimp -zeta only [t]; rotate_left; clear_value t) | (clear_value t) | skip)
    | split
    | (with_reducible refine keeps_snd (by assumption) ?_)
    | (dsimp -zeta only)
    | (with_reducible apply_assumption)

theorem withGroup_keeps {b : State} (g : ℕ) (f : Sys2Proof.Machine.State → Sys2Proof.Machine.State) {s : State} (hf : ∀ t, Keeps b t → Keeps b (f t)) (h : Keeps b s) : Keeps b (withGroup g f s) := by
  unfold withGroup
  repeat' first
    | with_reducible assumption
    | with_reducible apply signalVector_keeps
    | with_reducible apply hf
    | with_reducible apply keeps_foldl
    | with_reducible apply keeps_ite
    | (simp -zeta only [keeps_mk]; with_reducible refine keeps_parts ?_)
    | (with_reducible refine fun _ _ t ht => ?_)
    | (with_reducible refine fun t x ht => ?_)
    | (with_reducible refine fun t ht => ?_)
    | (extract_lets +onlyGivenNames -underBinder t; first | (refine have ht : Keeps b t := ?_; ?_; dsimp -zeta only [t]; rotate_left; clear_value t) | (refine have ht : Keeps b t.2 := ?_; ?_; dsimp -zeta only [t]; rotate_left; clear_value t) | (refine have ht : Keeps b t.1 := ?_; ?_; dsimp -zeta only [t]; rotate_left; clear_value t) | (refine have ht : ∀ x y, Keeps b y → Keeps b (t x y) := ?_; ?_; dsimp -zeta only [t]; rotate_left; clear_value t) | (refine have ht : ∀ y, Keeps b y → Keeps b (t y) := ?_; ?_; dsimp -zeta only [t]; rotate_left; clear_value t) | (refine have ht : Keeps b t.2.2 := ?_; ?_; dsimp -zeta only [t]; rotate_left; clear_value t) | (clear_value t) | skip)
    | split
    | (with_reducible refine keeps_snd (by assumption) ?_)
    | (dsimp -zeta only)
    | (with_reducible apply_assumption)

theorem irqSet_keeps {b : State} (g : ℕ) (stat : ℕ) (i : ℕ) {s : State} (h : Keeps b s) : Keeps b (irqSet g stat i s) := by
  unfold irqSet
  repeat' first
    | with_reducible assumption
    | with_reducible apply withGroup_keeps
    | with_reducible apply State.setBit_keeps
    | with_reducible apply keeps_foldl
    | with_reducible apply keeps_ite
    | (simp -zeta only [keeps_mk]; with_reducible refine keeps_parts ?_)
    | (with_reducible refine fun _ _ t ht => ?_)
    | (with_reducible refine fun t x ht => ?_)
    | (with_reducible refine fun t ht => ?_)
    | (extract_lets +onlyGivenNames -underBinder t; first | (refine have ht : Keeps b t := ?_; ?_; dsimp -zeta only [t]; rotate_left; clear_value t) | (refine have ht : Keeps b t.2 := ?_; ?_; dsimp -zeta only [t]; rotate_left; clear_value t) | (refine have ht : Keeps b t.1 := ?_; ?_; dsimp -zeta only [t]; rotate_left; clear_value t) | (refine have ht : ∀ x y, Keeps b y → Keeps b (t x y) := ?_; ?_; dsimp -zeta only [t]; rotate_left; clear_value t) | (refine have ht : ∀ y, Keeps b y → Keeps b (t y) := ?_; ?_; dsimp -zeta only [t]; rotate_left; clear_value t) | (refine have ht : Keeps b t.2.2 := ?_; ?_; dsimp -zeta only [t]; rotate_left; clear_value t) | (clear_value t) | skip)
    | split
    | (with_reducible refine keeps_snd (by assumption) ?_)
    | (dsimp -zeta only)
    | (with_reducible apply_assumption)

theorem pmcEvent_keeps {b : State} (u : ℕ) (evt : ℕ) (inst : ℕ) (amt : ℕ) {s : State} (h : Keeps b s) : Keeps b (pmcEvent u evt inst amt s) := by
  unfold pmcEvent
  repeat' first
    | with_reducible assumption
    | with_reducible apply withGroup_keeps
    | with_reducible apply pmcRaw_keeps
    | with_reducible apply keeps_foldl
    | with_reducible apply keeps_ite
    | (simp -zeta only [keeps_mk]; with_reducible refine keeps_parts ?_)
    | (with_reducible refine fun _ _ t ht => ?_)
    | (with_reducible refine fun t x ht => ?_)
    | (with_reducible refine fun t ht => ?_)
    | (extract_lets +onlyGivenNames -underBinder t; first | (refine have ht : Keeps b t := ?_; ?_; dsimp -zeta only [t]; rotate_left; clear_value t) | (refine have ht : Keeps b t.2 := ?_; ?_; dsimp -zeta only [t]; rotate_left; clear_value t) | (refine have ht : Keeps b t.1 := ?_; ?_; dsimp -zeta only [t]; rotate_left; clear_value t) | (refine have ht : ∀ x y, Keeps b y → Keeps b (t x y) := ?_; ?_; dsimp -zeta only [t]; rotate_left; clear_value t) | (refine have ht : ∀ y, Keeps b y → Keeps b (t y) := ?_; ?_; dsimp -zeta only [t]; rotate_left; clear_value t) | (refine have ht : Keeps b t.2.2 := ?_; ?_; dsimp -zeta only [t]; rotate_left; clear_value t) | (clear_value t) | skip)
    | split
    | (with_reducible refine keeps_snd (by assumption) ?_)
    | (dsimp -zeta only)
    | (with_reducible apply_assumption)

theorem dramEvent_keeps {b : State} (evt : ℕ) {s : State} (h : Keeps b s) : Keeps b (dramEvent evt s) := by
  unfold dramEvent
  repeat' first
    | with_reducible assumption
    | with_reducible apply State.draw_keeps
    | with_reducible apply pmcEvent_keeps
    | with_reducible apply keeps_foldl
    | with_reducible apply keeps_ite
    | (simp -zeta only [keeps_mk]; with_reducible refine keeps_parts ?_)
    | (with_reducible refine fun _ _ t ht => ?_)
    | (with_reducible refine fun t x ht => ?_)
    | (with_reducible refine fun t ht => ?_)
    | (extract_lets +onlyGivenNames -underBinder t; first | (refine have ht : Keeps b t := ?_; ?_; dsimp -zeta only [t]; rotate_left; clear_value t) | (refine have ht : Keeps b t.2 := ?_; ?_; dsimp -zeta only [t]; rotate_left; clear_value t) | (refine have ht : Keeps b t.1 := ?_; ?_; dsimp -zeta only [t]; rotate_left; clear_value t) | (refine have ht : ∀ x y, Keeps b y → Keeps b (t x y) := ?_; ?_; dsimp -zeta only [t]; rotate_left; clear_value t) | (refine have ht : ∀ y, Keeps b y → Keeps b (t y) := ?_; ?_; dsimp -zeta only [t]; rotate_left; clear_value t) | (refine have ht : Keeps b t.2.2 := ?_; ?_; dsimp -zeta only [t]; rotate_left; clear_value t) | (clear_value t) | skip)
    | split
    | (with_reducible refine keeps_snd (by assumption) ?_)
    | (dsimp -zeta only)
    | (with_reducible apply_assumption)

theorem alarmRaise_keeps {b : State} (n : ℕ) {s : State} (h : Keeps b s) : Keeps b (alarmRaise n s) := by
  unfold alarmRaise
  repeat' first
    | with_reducible assumption
    | with_reducible apply pmcEvent_keeps
    | with_reducible apply irqSet_keeps
    | with_reducible apply keeps_foldl
    | with_reducible apply keeps_ite
    | (simp -zeta only [keeps_mk]; with_reducible refine keeps_parts ?_)
    | (with_reducible refine fun _ _ t ht => ?_)
    | (with_reducible refine fun t x ht => ?_)
    | (with_reducible refine fun t ht => ?_)
    | (extract_lets +onlyGivenNames -underBinder t; first | (refine have ht : Keeps b t := ?_; ?_; dsimp -zeta only [t]; rotate_left; clear_value t) | (refine have ht : Keeps b t.2 := ?_; ?_; dsimp -zeta only [t]; rotate_left; clear_value t) | (refine have ht : Keeps b t.1 := ?_; ?_; dsimp -zeta only [t]; rotate_left; clear_value t) | (refine have ht : ∀ x y, Keeps b y → Keeps b (t x y) := ?_; ?_; dsimp -zeta only [t]; rotate_left; clear_value t) | (refine have ht : ∀ y, Keeps b y → Keeps b (t y) := ?_; ?_; dsimp -zeta only [t]; rotate_left; clear_value t) | (refine have ht : Keeps b t.2.2 := ?_; ?_; dsimp -zeta only [t]; rotate_left; clear_value t) | (clear_value t) | skip)
    | split
    | (with_reducible refine keeps_snd (by assumption) ?_)
    | (dsimp -zeta only)
    | (with_reducible apply_assumption)

theorem enqueueEntry_keeps {b : State} (e : Sys2Proof.Machine.Entry) {s : State} (h : Keeps b s) : Keeps b (enqueueEntry e s) := by
  unfold enqueueEntry
  repeat' first
    | with_reducible assumption
    | with_reducible apply alarmRaise_keeps
    | with_reducible apply State.addSat_keeps
    | with_reducible apply keeps_foldl
    | with_reducible apply keeps_ite
    | (simp -zeta only [keeps_mk]; with_reducible refine keeps_parts ?_)
    | (with_reducible refine fun _ _ t ht => ?_)
    | (with_reducible refine fun t x ht => ?_)
    | (with_reducible refine fun t ht => ?_)
    | (extract_lets +onlyGivenNames -underBinder t; first | (refine have ht : Keeps b t := ?_; ?_; dsimp -zeta only [t]; rotate_left; clear_value t) | (refine have ht : Keeps b t.2 := ?_; ?_; dsimp -zeta only [t]; rotate_left; clear_value t) | (refine have ht : Keeps b t.1 := ?_; ?_; dsimp -zeta only [t]; rotate_left; clear_value t) | (refine have ht : ∀ x y, Keeps b y → Keeps b (t x y) := ?_; ?_; dsimp -zeta only [t]; rotate_left; clear_value t) | (refine have ht : ∀ y, Keeps b y → Keeps b (t y) := ?_; ?_; dsimp -zeta only [t]; rotate_left; clear_value t) | (refine have ht : Keeps b t.2.2 := ?_; ?_; dsimp -zeta only [t]; rotate_left; clear_value t) | (clear_value t) | skip)
    | split
    | (with_reducible refine keeps_snd (by assumption) ?_)
    | (dsimp -zeta only)
    | (with_reducible apply_assumption)

theorem recordAt_keeps {b : State} (t : Sys2Proof.Instant) (code : ℕ) (src : ℕ) (a0 : ℕ) (a1 : ℕ) (a2 : ℕ) (a3 : ℕ) {s : State} (h : Keeps b s) : Keeps b (recordAt t code src a0 a1 a2 a3 s) := by
  unfold recordAt
  repeat' first
    | with_reducible assumption
    | with_reducible apply enqueueEntry_keeps
    | with_reducible apply keeps_foldl
    | with_reducible apply keeps_ite
    | (simp -zeta only [keeps_mk]; with_reducible refine keeps_parts ?_)
    | (with_reducible refine fun _ _ t ht => ?_)
    | (with_reducible refine fun t x ht => ?_)
    | (with_reducible refine fun t ht => ?_)
    | (extract_lets +onlyGivenNames -underBinder t; first | (refine have ht : Keeps b t := ?_; ?_; dsimp -zeta only [t]; rotate_left; clear_value t) | (refine have ht : Keeps b t.2 := ?_; ?_; dsimp -zeta only [t]; rotate_left; clear_value t) | (refine have ht : Keeps b t.1 := ?_; ?_; dsimp -zeta only [t]; rotate_left; clear_value t) | (refine have ht : ∀ x y, Keeps b y → Keeps b (t x y) := ?_; ?_; dsimp -zeta only [t]; rotate_left; clear_value t) | (refine have ht : ∀ y, Keeps b y → Keeps b (t y) := ?_; ?_; dsimp -zeta only [t]; rotate_left; clear_value t) | (refine have ht : Keeps b t.2.2 := ?_; ?_; dsimp -zeta only [t]; rotate_left; clear_value t) | (clear_value t) | skip)
    | split
    | (with_reducible refine keeps_snd (by assumption) ?_)
    | (dsimp -zeta only)
    | (with_reducible apply_assumption)

theorem record_keeps {b : State} (code : ℕ) (a0 : ℕ) (a1 : ℕ) (a2 : ℕ) (a3 : ℕ) {s : State} (h : Keeps b s) : Keeps b (record code a0 a1 a2 a3 s) := by
  unfold record
  repeat' first
    | with_reducible assumption
    | with_reducible apply recordAt_keeps
    | with_reducible apply keeps_foldl
    | with_reducible apply keeps_ite
    | (simp -zeta only [keeps_mk]; with_reducible refine keeps_parts ?_)
    | (with_reducible refine fun _ _ t ht => ?_)
    | (with_reducible refine fun t x ht => ?_)
    | (with_reducible refine fun t ht => ?_)
    | (extract_lets +onlyGivenNames -underBinder t; first | (refine have ht : Keeps b t := ?_; ?_; dsimp -zeta only [t]; rotate_left; clear_value t) | (refine have ht : Keeps b t.2 := ?_; ?_; dsimp -zeta only [t]; rotate_left; clear_value t) | (refine have ht : Keeps b t.1 := ?_; ?_; dsimp -zeta only [t]; rotate_left; clear_value t) | (refine have ht : ∀ x y, Keeps b y → Keeps b (t x y) := ?_; ?_; dsimp -zeta only [t]; rotate_left; clear_value t) | (refine have ht : ∀ y, Keeps b y → Keeps b (t y) := ?_; ?_; dsimp -zeta only [t]; rotate_left; clear_value t) | (refine have ht : Keeps b t.2.2 := ?_; ?_; dsimp -zeta only [t]; rotate_left; clear_value t) | (clear_value t) | skip)
    | split
    | (with_reducible refine keeps_snd (by assumption) ?_)
    | (dsimp -zeta only)
    | (with_reducible apply_assumption)

theorem recordUnit_keeps {b : State} (code : ℕ) (unit : ℕ) (a0 : ℕ) (a1 : ℕ) (a2 : ℕ) (a3 : ℕ) {s : State} (h : Keeps b s) : Keeps b (recordUnit code unit a0 a1 a2 a3 s) := by
  unfold recordUnit
  repeat' first
    | with_reducible assumption
    | with_reducible apply recordAt_keeps
    | with_reducible apply keeps_foldl
    | with_reducible apply keeps_ite
    | (simp -zeta only [keeps_mk]; with_reducible refine keeps_parts ?_)
    | (with_reducible refine fun _ _ t ht => ?_)
    | (with_reducible refine fun t x ht => ?_)
    | (with_reducible refine fun t ht => ?_)
    | (extract_lets +onlyGivenNames -underBinder t; first | (refine have ht : Keeps b t := ?_; ?_; dsimp -zeta only [t]; rotate_left; clear_value t) | (refine have ht : Keeps b t.2 := ?_; ?_; dsimp -zeta only [t]; rotate_left; clear_value t) | (refine have ht : Keeps b t.1 := ?_; ?_; dsimp -zeta only [t]; rotate_left; clear_value t) | (refine have ht : ∀ x y, Keeps b y → Keeps b (t x y) := ?_; ?_; dsimp -zeta only [t]; rotate_left; clear_value t) | (refine have ht : ∀ y, Keeps b y → Keeps b (t y) := ?_; ?_; dsimp -zeta only [t]; rotate_left; clear_value t) | (refine have ht : Keeps b t.2.2 := ?_; ?_; dsimp -zeta only [t]; rotate_left; clear_value t) | (clear_value t) | skip)
    | split
    | (with_reducible refine keeps_snd (by assumption) ?_)
    | (dsimp -zeta only)
    | (with_reducible apply_assumption)

theorem alarmClear_keeps {b : State} (n : ℕ) {s : State} (h : Keeps b s) : Keeps b (alarmClear n s) := by
  unfold alarmClear
  repeat' first
    | with_reducible assumption
    | with_reducible apply record_keeps
    | with_reducible apply State.clrBit_keeps
    | with_reducible apply keeps_foldl
    | with_reducible apply keeps_ite
    | (simp -zeta only [keeps_mk]; with_reducible refine keeps_parts ?_)
    | (with_reducible refine fun _ _ t ht => ?_)
    | (with_reducible refine fun t x ht => ?_)
    | (with_reducible refine fun t ht => ?_)
    | (extract_lets +onlyGivenNames -underBinder t; first | (refine have ht : Keeps b t := ?_; ?_; dsimp -zeta only [t]; rotate_left; clear_value t) | (refine have ht : Keeps b t.2 := ?_; ?_; dsimp -zeta only [t]; rotate_left; clear_value t) | (refine have ht : Keeps b t.1 := ?_; ?_; dsimp -zeta only [t]; rotate_left; clear_value t) | (refine have ht : ∀ x y, Keeps b y → Keeps b (t x y) := ?_; ?_; dsimp -zeta only [t]; rotate_left; clear_value t) | (refine have ht : ∀ y, Keeps b y → Keeps b (t y) := ?_; ?_; dsimp -zeta only [t]; rotate_left; clear_value t) | (refine have ht : Keeps b t.2.2 := ?_; ?_; dsimp -zeta only [t]; rotate_left; clear_value t) | (clear_value t) | skip)
    | split
    | (with_reducible refine keeps_snd (by assumption) ?_)
    | (dsimp -zeta only)
    | (with_reducible apply_assumption)

theorem alarmSet_keeps {b : State} (n : ℕ) (b0 : Bool) {s : State} (h : Keeps b s) : Keeps b (alarmSet n b0 s) := by
  unfold alarmSet
  repeat' first
    | with_reducible assumption
    | with_reducible apply alarmRaise_keeps
    | with_reducible apply alarmClear_keeps
    | with_reducible apply keeps_foldl
    | with_reducible apply keeps_ite
    | (simp -zeta only [keeps_mk]; with_reducible refine keeps_parts ?_)
    | (with_reducible refine fun _ _ t ht => ?_)
    | (with_reducible refine fun t x ht => ?_)
    | (with_reducible refine fun t ht => ?_)
    | (extract_lets +onlyGivenNames -underBinder t; first | (refine have ht : Keeps b t := ?_; ?_; dsimp -zeta only [t]; rotate_left; clear_value t) | (refine have ht : Keeps b t.2 := ?_; ?_; dsimp -zeta only [t]; rotate_left; clear_value t) | (refine have ht : Keeps b t.1 := ?_; ?_; dsimp -zeta only [t]; rotate_left; clear_value t) | (refine have ht : ∀ x y, Keeps b y → Keeps b (t x y) := ?_; ?_; dsimp -zeta only [t]; rotate_left; clear_value t) | (refine have ht : ∀ y, Keeps b y → Keeps b (t y) := ?_; ?_; dsimp -zeta only [t]; rotate_left; clear_value t) | (refine have ht : Keeps b t.2.2 := ?_; ?_; dsimp -zeta only [t]; rotate_left; clear_value t) | (clear_value t) | skip)
    | split
    | (with_reducible refine keeps_snd (by assumption) ?_)
    | (dsimp -zeta only)
    | (with_reducible apply_assumption)

theorem faultSend_keeps {b : State} (code : Sys2Proof.FaultCode) (source : ℕ) (a1 : ℕ) (a2 : ℕ) (a3 : ℕ) {s : State} (h : Keeps b s) : Keeps b (faultSend code source a1 a2 a3 s) := by
  unfold faultSend
  repeat' first
    | with_reducible assumption
    | with_reducible apply keeps_foldl
    | with_reducible apply keeps_ite
    | (simp -zeta only [keeps_mk]; with_reducible refine keeps_parts ?_)
    | (with_reducible refine fun _ _ t ht => ?_)
    | (with_reducible refine fun t x ht => ?_)
    | (with_reducible refine fun t ht => ?_)
    | (extract_lets +onlyGivenNames -underBinder t; first | (refine have ht : Keeps b t := ?_; ?_; dsimp -zeta only [t]; rotate_left; clear_value t) | (refine have ht : Keeps b t.2 := ?_; ?_; dsimp -zeta only [t]; rotate_left; clear_value t) | (refine have ht : Keeps b t.1 := ?_; ?_; dsimp -zeta only [t]; rotate_left; clear_value t) | (refine have ht : ∀ x y, Keeps b y → Keeps b (t x y) := ?_; ?_; dsimp -zeta only [t]; rotate_left; clear_value t) | (refine have ht : ∀ y, Keeps b y → Keeps b (t y) := ?_; ?_; dsimp -zeta only [t]; rotate_left; clear_value t) | (refine have ht : Keeps b t.2.2 := ?_; ?_; dsimp -zeta only [t]; rotate_left; clear_value t) | (clear_value t) | skip)
    | split
    | (with_reducible refine keeps_snd (by assumption) ?_)
    | (dsimp -zeta only)
    | (with_reducible apply_assumption)

theorem noteLeap_keeps {b : State} (f : Sys2Proof.Machine.State → Sys2Proof.Machine.State) {s : State} (hf : ∀ t, Keeps b t → Keeps b (f t)) (h : Keeps b s) : Keeps b (noteLeap f s) := by
  unfold noteLeap
  repeat' first
    | with_reducible assumption
    | with_reducible apply hf
    | with_reducible apply keeps_foldl
    | with_reducible apply keeps_ite
    | (simp -zeta only [keeps_mk]; with_reducible refine keeps_parts ?_)
    | (with_reducible refine fun _ _ t ht => ?_)
    | (with_reducible refine fun t x ht => ?_)
    | (with_reducible refine fun t ht => ?_)
    | (extract_lets +onlyGivenNames -underBinder t; first | (refine have ht : Keeps b t := ?_; ?_; dsimp -zeta only [t]; rotate_left; clear_value t) | (refine have ht : Keeps b t.2 := ?_; ?_; dsimp -zeta only [t]; rotate_left; clear_value t) | (refine have ht : Keeps b t.1 := ?_; ?_; dsimp -zeta only [t]; rotate_left; clear_value t) | (refine have ht : ∀ x y, Keeps b y → Keeps b (t x y) := ?_; ?_; dsimp -zeta only [t]; rotate_left; clear_value t) | (refine have ht : ∀ y, Keeps b y → Keeps b (t y) := ?_; ?_; dsimp -zeta only [t]; rotate_left; clear_value t) | (refine have ht : Keeps b t.2.2 := ?_; ?_; dsimp -zeta only [t]; rotate_left; clear_value t) | (clear_value t) | skip)
    | split
    | (with_reducible refine keeps_snd (by assumption) ?_)
    | (dsimp -zeta only)
    | (with_reducible apply_assumption)

end Sys2Proof.Machine
end

