-- ==== Sys2Proof/Laws/KeepHub.lean ====
section
/-! SUPPORT. The operations of Machine/Hub.lean keep the queue and the canonical forms. -/
namespace Sys2Proof.Machine
set_option linter.unusedTactic false
set_option linter.unreachableTactic false

theorem State.setRing_keeps {b : State} {s : State} (r : ℕ) (q : Sys2Proof.Machine.Ring) (h : Keeps b s) : Keeps b (State.setRing s r q) := by
  unfold State.setRing
  repeat' first
    | with_reducible assumption
    | with_reducible apply keeps_foldl
    | with_reducible apply keeps_ite
    | (simp -zeta only [keeps_mk]; with_reducible refine keeps_parts ?_)
    | (with_reducible refine fun _ _ t ht => ?_)
    | (with_reducible refine fun t x ht => ?_)
    | (with_reducible refine fun t ht => ?_)
    | (extract_lets +onlyGivenNames -underBinder t; first | (refine have ht : Keeps b t := ?_; ?_; dsimp -zeta only [t]; rotate_left; clear_value t) | (refine have ht : Keeps b t.2 := ?_; ?_; dsimp -zeta only [t]; rotate_left; clear_value t) | (refine have ht : Keeps b t.1 := ?_; ?_; dsimp -zeta only [t]; rotate_left; clear_value t) | (refine have ht : ∀ x y, Keeps b y → Keeps b (t x y) := ?_; ?_; dsimp -zeta only [t]; rotate_left; clear_value t) | (refine have ht : ∀ y, Keeps b y → Keeps b (t y) := ?_; ?_; dsimp -zeta only [t]; rotate_left; clear_value t) | (refine have ht : Keeps b t.2.2 := ?_; ?_; dsimp -zeta only [t]; rotate_left; clear_value t) | (clear_value t) | skip)
    | split
    | (with_reducible refine keeps_snd (by assumption) ?_)
    | (dsimp -zeta only)
    | (with_reducible apply_assumption)

theorem dropQuiet_keeps {b : State} (r : ℕ) {s : State} (h : Keeps b s) : Keeps b (dropQuiet r s) := by
  unfold dropQuiet
  repeat' first
    | with_reducible assumption
    | with_reducible apply pmcEvent_keeps
    | with_reducible apply State.setRing_keeps
    | with_reducible apply State.addSat_keeps
    | with_reducible apply keeps_foldl
    | with_reducible apply keeps_ite
    | (simp -zeta only [keeps_mk]; with_reducible refine keeps_parts ?_)
    | (with_reducible refine fun _ _ t ht => ?_)
    | (with_reducible refine fun t x ht => ?_)
    | (with_reducible refine fun t ht => ?_)
    | (extract_lets +onlyGivenNames -underBinder t; first | (refine have ht : Keeps b t := ?_; ?_; dsimp -zeta only [t]; rotate_left; clear_value t) | (refine have ht : Keeps b t.2 := ?_; ?_; dsimp -zeta only [t]; rotate_left; clear_value t) | (refine have ht : Keeps b t.1 := ?_; ?_; dsimp -zeta only [t]; rotate_left; clear_value t) | (refine have ht : ∀ x y, Keeps b y → Keeps b (t x y) := ?_; ?_; dsimp -zeta only [t]; rotate_left; clear_value t) | (refine have ht : ∀ y, Keeps b y → Keeps b (t y) := ?_; ?_; dsimp -zeta only [t]; rotate_left; clear_value t) | (refine have ht : Keeps b t.2.2 := ?_; ?_; dsimp -zeta only [t]; rotate_left; clear_value t) | (clear_value t) | skip)
    | split
    | (with_reducible refine keeps_snd (by assumption) ?_)
    | (dsimp -zeta only)
    | (with_reducible apply_assumption)

theorem dropItem_keeps {b : State} (r : ℕ) (big : Bool) (len : ℕ) {s : State} (h : Keeps b s) : Keeps b (dropItem r big len s) := by
  unfold dropItem
  repeat' first
    | with_reducible assumption
    | with_reducible apply dropQuiet_keeps
    | with_reducible apply State.addSat_keeps
    | with_reducible apply State.setRing_keeps
    | with_reducible apply recordUnit_keeps
    | with_reducible apply keeps_foldl
    | with_reducible apply keeps_ite
    | (simp -zeta only [keeps_mk]; with_reducible refine keeps_parts ?_)
    | (with_reducible refine fun _ _ t ht => ?_)
    | (with_reducible refine fun t x ht => ?_)
    | (with_reducible refine fun t ht => ?_)
    | (extract_lets +onlyGivenNames -underBinder t; first | (refine have ht : Keeps b t := ?_; ?_; dsimp -zeta only [t]; rotate_left; clear_value t) | (refine have ht : Keeps b t.2 := ?_; ?_; dsimp -zeta only [t]; rotate_left; clear_value t) | (refine have ht : Keeps b t.1 := ?_; ?_; dsimp -zeta only [t]; rotate_left; clear_value t) | (refine have ht : ∀ x y, Keeps b y → Keeps b (t x y) := ?_; ?_; dsimp -zeta only [t]; rotate_left; clear_value t) | (refine have ht : ∀ y, Keeps b y → Keeps b (t y) := ?_; ?_; dsimp -zeta only [t]; rotate_left; clear_value t) | (refine have ht : Keeps b t.2.2 := ?_; ?_; dsimp -zeta only [t]; rotate_left; clear_value t) | (clear_value t) | skip)
    | split
    | (with_reducible refine keeps_snd (by assumption) ?_)
    | (dsimp -zeta only)
    | (with_reducible apply_assumption)

theorem undelivered_keeps {b : State} (i : Sys2Proof.Machine.UpItem) {s : State} (h : Keeps b s) : Keeps b (undelivered i s) := by
  unfold undelivered
  repeat' first
    | with_reducible assumption
    | with_reducible apply keeps_foldl
    | with_reducible apply keeps_ite
    | (simp -zeta only [keeps_mk]; with_reducible refine keeps_parts ?_)
    | (with_reducible refine fun _ _ t ht => ?_)
    | (with_reducible refine fun t x ht => ?_)
    | (with_reducible refine fun t ht => ?_)
    | (extract_lets +onlyGivenNames -underBinder t; first | (refine have ht : Keeps b t := ?_; ?_; dsimp -zeta only [t]; rotate_left; clear_value t) | (refine have ht : Keeps b t.2 := ?_; ?_; dsimp -zeta only [t]; rotate_left; clear_value t) | (refine have ht : Keeps b t.1 := ?_; ?_; dsimp -zeta only [t]; rotate_left; clear_value t) | (refine have ht : ∀ x y, Keeps b y → Keeps b (t x y) := ?_; ?_; dsimp -zeta only [t]; rotate_left; clear_value t) | (refine have ht : ∀ y, Keeps b y → Keeps b (t y) := ?_; ?_; dsimp -zeta only [t]; rotate_left; clear_value t) | (refine have ht : Keeps b t.2.2 := ?_; ?_; dsimp -zeta only [t]; rotate_left; clear_value t) | (clear_value t) | skip)
    | split
    | (with_reducible refine keeps_snd (by assumption) ?_)
    | (dsimp -zeta only)
    | (with_reducible apply_assumption)

theorem upEnqueue_keeps {b : State} (r : ℕ) (i : Sys2Proof.Machine.UpItem) {s : State} (h : Keeps b s) : Keeps b (upEnqueue r i s) := by
  unfold upEnqueue
  repeat' first
    | with_reducible assumption
    | with_reducible apply undelivered_keeps
    | with_reducible apply dropItem_keeps
    | with_reducible apply State.setRing_keeps
    | with_reducible apply record_keeps
    | with_reducible apply keeps_foldl
    | with_reducible apply keeps_ite
    | (simp -zeta only [keeps_mk]; with_reducible refine keeps_parts ?_)
    | (with_reducible refine fun _ _ t ht => ?_)
    | (with_reducible refine fun t x ht => ?_)
    | (with_reducible refine fun t ht => ?_)
    | (extract_lets +onlyGivenNames -underBinder t; first | (refine have ht : Keeps b t := ?_; ?_; dsimp -zeta only [t]; rotate_left; clear_value t) | (refine have ht : Keeps b t.2 := ?_; ?_; dsimp -zeta only [t]; rotate_left; clear_value t) | (refine have ht : Keeps b t.1 := ?_; ?_; dsimp -zeta only [t]; rotate_left; clear_value t) | (refine have ht : ∀ x y, Keeps b y → Keeps b (t x y) := ?_; ?_; dsimp -zeta only [t]; rotate_left; clear_value t) | (refine have ht : ∀ y, Keeps b y → Keeps b (t y) := ?_; ?_; dsimp -zeta only [t]; rotate_left; clear_value t) | (refine have ht : Keeps b t.2.2 := ?_; ?_; dsimp -zeta only [t]; rotate_left; clear_value t) | (clear_value t) | skip)
    | split
    | (with_reducible refine keeps_snd (by assumption) ?_)
    | (dsimp -zeta only)
    | (with_reducible apply_assumption)

theorem pmcRecord_keeps {b : State} (b0 : Sys2Proof.Bytes) {s : State} (h : Keeps b s) : Keeps b (pmcRecord b0 s) := by
  unfold pmcRecord
  repeat' first
    | with_reducible assumption
    | with_reducible apply upEnqueue_keeps
    | with_reducible apply keeps_foldl
    | with_reducible apply keeps_ite
    | (simp -zeta only [keeps_mk]; with_reducible refine keeps_parts ?_)
    | (with_reducible refine fun _ _ t ht => ?_)
    | (with_reducible refine fun t x ht => ?_)
    | (with_reducible refine fun t ht => ?_)
    | (extract_lets +onlyGivenNames -underBinder t; first | (refine have ht : Keeps b t := ?_; ?_; dsimp -zeta only [t]; rotate_left; clear_value t) | (refine have ht : Keeps b t.2 := ?_; ?_; dsimp -zeta only [t]; rotate_left; clear_value t) | (refine have ht : Keeps b t.1 := ?_; ?_; dsimp -zeta only [t]; rotate_left; clear_value t) | (refine have ht : ∀ x y, Keeps b y → Keeps b (t x y) := ?_; ?_; dsimp -zeta only [t]; rotate_left; clear_value t) | (refine have ht : ∀ y, Keeps b y → Keeps b (t y) := ?_; ?_; dsimp -zeta only [t]; rotate_left; clear_value t) | (refine have ht : Keeps b t.2.2 := ?_; ?_; dsimp -zeta only [t]; rotate_left; clear_value t) | (clear_value t) | skip)
    | split
    | (with_reducible refine keeps_snd (by assumption) ?_)
    | (dsimp -zeta only)
    | (with_reducible apply_assumption)

theorem offerTag_keeps {b : State} (port : Fin 4) (cls : ℕ) (arrive : Sys2Proof.Instant) {s : State} (h : Keeps b s) : Keeps b (offerTag port cls arrive s).2 := by
  unfold offerTag
  repeat' first
    | with_reducible assumption
    | with_reducible apply irqSet_keeps
    | with_reducible apply State.addSat_keeps
    | with_reducible apply State.set_keeps
    | with_reducible apply keeps_foldl
    | with_reducible apply keeps_ite
    | (simp -zeta only [keeps_mk]; with_reducible refine keeps_parts ?_)
    | (with_reducible refine fun _ _ t ht => ?_)
    | (with_reducible refine fun t x ht => ?_)
    | (with_reducible refine fun t ht => ?_)
    | (extract_lets +onlyGivenNames -underBinder t; first | (refine have ht : Keeps b t := ?_; ?_; dsimp -zeta only [t]; rotate_left; clear_value t) | (refine have ht : Keeps b t.2 := ?_; ?_; dsimp -zeta only [t]; rotate_left; clear_value t) | (refine have ht : Keeps b t.1 := ?_; ?_; dsimp -zeta only [t]; rotate_left; clear_value t) | (refine have ht : ∀ x y, Keeps b y → Keeps b (t x y) := ?_; ?_; dsimp -zeta only [t]; rotate_left; clear_value t) | (refine have ht : ∀ y, Keeps b y → Keeps b (t y) := ?_; ?_; dsimp -zeta only [t]; rotate_left; clear_value t) | (refine have ht : Keeps b t.2.2 := ?_; ?_; dsimp -zeta only [t]; rotate_left; clear_value t) | (clear_value t) | skip)
    | split
    | (with_reducible refine keeps_snd (by assumption) ?_)
    | (dsimp -zeta only)
    | (with_reducible apply_assumption)

theorem traceMod_keeps {b : State} (g : Sys2Proof.Machine.Tag) (f : Sys2Proof.Machine.Traced → Sys2Proof.Machine.Traced) {s : State} (h : Keeps b s) : Keeps b (traceMod g f s) := by
  unfold traceMod
  repeat' first
    | with_reducible assumption
    | with_reducible apply keeps_foldl
    | with_reducible apply keeps_ite
    | (simp -zeta only [keeps_mk]; with_reducible refine keeps_parts ?_)
    | (with_reducible refine fun _ _ t ht => ?_)
    | (with_reducible refine fun t x ht => ?_)
    | (with_reducible refine fun t ht => ?_)
    | (extract_lets +onlyGivenNames -underBinder t; first | (refine have ht : Keeps b t := ?_; ?_; dsimp -zeta only [t]; rotate_left; clear_value t) | (refine have ht : Keeps b t.2 := ?_; ?_; dsimp -zeta only [t]; rotate_left; clear_value t) | (refine have ht : Keeps b t.1 := ?_; ?_; dsimp -zeta only [t]; rotate_left; clear_value t) | (refine have ht : ∀ x y, Keeps b y → Keeps b (t x y) := ?_; ?_; dsimp -zeta only [t]; rotate_left; clear_value t) | (refine have ht : ∀ y, Keeps b y → Keeps b (t y) := ?_; ?_; dsimp -zeta only [t]; rotate_left; clear_value t) | (refine have ht : Keeps b t.2.2 := ?_; ?_; dsimp -zeta only [t]; rotate_left; clear_value t) | (clear_value t) | skip)
    | split
    | (with_reducible refine keeps_snd (by assumption) ?_)
    | (dsimp -zeta only)
    | (with_reducible apply_assumption)

theorem traceAt_keeps {b : State} (g : Sys2Proof.Machine.Tag) (stage : ℕ) (t : Sys2Proof.Instant) {s : State} (h : Keeps b s) : Keeps b (traceAt g stage t s) := by
  unfold traceAt
  repeat' first
    | with_reducible assumption
    | with_reducible apply traceMod_keeps
    | with_reducible apply keeps_foldl
    | with_reducible apply keeps_ite
    | (simp -zeta only [keeps_mk]; with_reducible refine keeps_parts ?_)
    | (with_reducible refine fun _ _ t ht => ?_)
    | (with_reducible refine fun t x ht => ?_)
    | (with_reducible refine fun t ht => ?_)
    | (extract_lets +onlyGivenNames -underBinder t; first | (refine have ht : Keeps b t := ?_; ?_; dsimp -zeta only [t]; rotate_left; clear_value t) | (refine have ht : Keeps b t.2 := ?_; ?_; dsimp -zeta only [t]; rotate_left; clear_value t) | (refine have ht : Keeps b t.1 := ?_; ?_; dsimp -zeta only [t]; rotate_left; clear_value t) | (refine have ht : ∀ x y, Keeps b y → Keeps b (t x y) := ?_; ?_; dsimp -zeta only [t]; rotate_left; clear_value t) | (refine have ht : ∀ y, Keeps b y → Keeps b (t y) := ?_; ?_; dsimp -zeta only [t]; rotate_left; clear_value t) | (refine have ht : Keeps b t.2.2 := ?_; ?_; dsimp -zeta only [t]; rotate_left; clear_value t) | (clear_value t) | skip)
    | split
    | (with_reducible refine keeps_snd (by assumption) ?_)
    | (dsimp -zeta only)
    | (with_reducible apply_assumption)

theorem traceStage_keeps {b : State} (g : Sys2Proof.Machine.Tag) (stage : ℕ) {s : State} (h : Keeps b s) : Keeps b (traceStage g stage s) := by
  unfold traceStage
  repeat' first
    | with_reducible assumption
    | with_reducible apply traceAt_keeps
    | with_reducible apply keeps_foldl
    | with_reducible apply keeps_ite
    | (simp -zeta only [keeps_mk]; with_reducible refine keeps_parts ?_)
    | (with_reducible refine fun _ _ t ht => ?_)
    | (with_reducible refine fun t x ht => ?_)
    | (with_reducible refine fun t ht => ?_)
    | (extract_lets +onlyGivenNames -underBinder t; first | (refine have ht : Keeps b t := ?_; ?_; dsimp -zeta only [t]; rotate_left; clear_value t) | (refine have ht : Keeps b t.2 := ?_; ?_; dsimp -zeta only [t]; rotate_left; clear_value t) | (refine have ht : Keeps b t.1 := ?_; ?_; dsimp -zeta only [t]; rotate_left; clear_value t) | (refine have ht : ∀ x y, Keeps b y → Keeps b (t x y) := ?_; ?_; dsimp -zeta only [t]; rotate_left; clear_value t) | (refine have ht : ∀ y, Keeps b y → Keeps b (t y) := ?_; ?_; dsimp -zeta only [t]; rotate_left; clear_value t) | (refine have ht : Keeps b t.2.2 := ?_; ?_; dsimp -zeta only [t]; rotate_left; clear_value t) | (clear_value t) | skip)
    | split
    | (with_reducible refine keeps_snd (by assumption) ?_)
    | (dsimp -zeta only)
    | (with_reducible apply_assumption)

theorem traceEnd_keeps {b : State} (g : Sys2Proof.Machine.Tag) (outcome : ℕ) (reason : ℕ) {s : State} (h : Keeps b s) : Keeps b (traceEnd g outcome reason s) := by
  unfold traceEnd
  repeat' first
    | with_reducible assumption
    | with_reducible apply pmcRecord_keeps
    | with_reducible apply keeps_foldl
    | with_reducible apply keeps_ite
    | (simp -zeta only [keeps_mk]; with_reducible refine keeps_parts ?_)
    | (with_reducible refine fun _ _ t ht => ?_)
    | (with_reducible refine fun t x ht => ?_)
    | (with_reducible refine fun t ht => ?_)
    | (extract_lets +onlyGivenNames -underBinder t; first | (refine have ht : Keeps b t := ?_; ?_; dsimp -zeta only [t]; rotate_left; clear_value t) | (refine have ht : Keeps b t.2 := ?_; ?_; dsimp -zeta only [t]; rotate_left; clear_value t) | (refine have ht : Keeps b t.1 := ?_; ?_; dsimp -zeta only [t]; rotate_left; clear_value t) | (refine have ht : ∀ x y, Keeps b y → Keeps b (t x y) := ?_; ?_; dsimp -zeta only [t]; rotate_left; clear_value t) | (refine have ht : ∀ y, Keeps b y → Keeps b (t y) := ?_; ?_; dsimp -zeta only [t]; rotate_left; clear_value t) | (refine have ht : Keeps b t.2.2 := ?_; ?_; dsimp -zeta only [t]; rotate_left; clear_value t) | (clear_value t) | skip)
    | split
    | (with_reducible refine keeps_snd (by assumption) ?_)
    | (dsimp -zeta only)
    | (with_reducible apply_assumption)

end Sys2Proof.Machine
end

