-- ==== Sys2Proof/Laws/KeepRings.lean ====
section
/-! SUPPORT. The operations of Machine/Rings.lean keep the queue and the canonical forms. -/
namespace Sys2Proof.Machine
set_option linter.unusedTactic false
set_option linter.unreachableTactic false

theorem dmaWrite_keeps {b : State} (r : ℕ) (addr : ℕ) (b0 : Sys2Proof.Bytes) {s : State} (h : Keeps b s) : Keeps b (dmaWrite r addr b0 s) := by
  unfold dmaWrite
  repeat' first
    | with_reducible assumption
    | with_reducible apply pmcEvent_keeps
    | with_reducible apply State.emit_keeps
    | with_reducible apply keeps_foldl
    | with_reducible apply keeps_ite
    | (simp -zeta only [keeps_mk]; with_reducible refine keeps_parts ?_)
    | (with_reducible refine fun _ _ t ht => ?_)
    | (with_reducible refine fun t x ht => ?_)
    | (with_reducible refine fun t ht => ?_)
    | (extract_lets +onlyGivenNames -underBinder t; first | (refine have ht : Keeps b t := ?_; ?_; dsimp -zeta only [t]; rotate_left; clear_value t) | (refine have ht : Keeps b t.2 := ?_; ?_; dsimp -zeta only [t]; rotate_left; clear_value t) | (refine have ht : Keeps b t.1 := ?_; ?_; dsimp -zeta only [t]; rotate_left; clear_value t) | (refine have ht : ∀ x y, Keeps b y → Keeps b (t x y) := ?_; ?_; dsimp -zeta only [t]; rotate_left; clear_value t) | (refine have ht : ∀ y, Keeps b y → Keeps b (t y) := ?_; ?_; dsimp -zeta only [t]; rotate_left; clear_value t) | (refine have ht : Keeps b t.2.2 := ?_; ?_; dsimp -zeta only [t]; rotate_left; clear_value t) | (clear_value t) | skip)
    | split
    | (with_reducible refine keeps_snd (by assumption) ?_)
    | (dsimp -zeta only)
    | (with_reducible apply_assumption)

theorem writeBack_keeps {b : State} (r : ℕ) {s : State} (h : Keeps b s) : Keeps b (writeBack r s) := by
  unfold writeBack
  repeat' first
    | with_reducible assumption
    | with_reducible apply dmaWrite_keeps
    | with_reducible apply keeps_foldl
    | with_reducible apply keeps_ite
    | (simp -zeta only [keeps_mk]; with_reducible refine keeps_parts ?_)
    | (with_reducible refine fun _ _ t ht => ?_)
    | (with_reducible refine fun t x ht => ?_)
    | (with_reducible refine fun t ht => ?_)
    | (extract_lets +onlyGivenNames -underBinder t; first | (refine have ht : Keeps b t := ?_; ?_; dsimp -zeta only [t]; rotate_left; clear_value t) | (refine have ht : Keeps b t.2 := ?_; ?_; dsimp -zeta only [t]; rotate_left; clear_value t) | (refine have ht : Keeps b t.1 := ?_; ?_; dsimp -zeta only [t]; rotate_left; clear_value t) | (refine have ht : ∀ x y, Keeps b y → Keeps b (t x y) := ?_; ?_; dsimp -zeta only [t]; rotate_left; clear_value t) | (refine have ht : ∀ y, Keeps b y → Keeps b (t y) := ?_; ?_; dsimp -zeta only [t]; rotate_left; clear_value t) | (refine have ht : Keeps b t.2.2 := ?_; ?_; dsimp -zeta only [t]; rotate_left; clear_value t) | (clear_value t) | skip)
    | split
    | (with_reducible refine keeps_snd (by assumption) ?_)
    | (dsimp -zeta only)
    | (with_reducible apply_assumption)

theorem headAdvance_keeps {b : State} (r : ℕ) (n : ℕ) {s : State} (h : Keeps b s) : Keeps b (headAdvance r n s) := by
  unfold headAdvance
  repeat' first
    | with_reducible assumption
    | with_reducible apply State.setRing_keeps
    | with_reducible apply State.set_keeps
    | with_reducible apply keeps_foldl
    | with_reducible apply keeps_ite
    | (simp -zeta only [keeps_mk]; with_reducible refine keeps_parts ?_)
    | (with_reducible refine fun _ _ t ht => ?_)
    | (with_reducible refine fun t x ht => ?_)
    | (with_reducible refine fun t ht => ?_)
    | (extract_lets +onlyGivenNames -underBinder t; first | (refine have ht : Keeps b t := ?_; ?_; dsimp -zeta only [t]; rotate_left; clear_value t) | (refine have ht : Keeps b t.2 := ?_; ?_; dsimp -zeta only [t]; rotate_left; clear_value t) | (refine have ht : Keeps b t.1 := ?_; ?_; dsimp -zeta only [t]; rotate_left; clear_value t) | (refine have ht : ∀ x y, Keeps b y → Keeps b (t x y) := ?_; ?_; dsimp -zeta only [t]; rotate_left; clear_value t) | (refine have ht : ∀ y, Keeps b y → Keeps b (t y) := ?_; ?_; dsimp -zeta only [t]; rotate_left; clear_value t) | (refine have ht : Keeps b t.2.2 := ?_; ?_; dsimp -zeta only [t]; rotate_left; clear_value t) | (clear_value t) | skip)
    | split
    | (with_reducible refine keeps_snd (by assumption) ?_)
    | (dsimp -zeta only)
    | (with_reducible apply_assumption)

theorem ringFire_keeps {b : State} (r : ℕ) {s : State} (h : Keeps b s) : Keeps b (ringFire r s) := by
  unfold ringFire
  repeat' first
    | with_reducible assumption
    | with_reducible apply State.setBit_keeps
    | with_reducible apply signalVector_keeps
    | with_reducible apply State.setRing_keeps
    | with_reducible apply keeps_foldl
    | with_reducible apply keeps_ite
    | (simp -zeta only [keeps_mk]; with_reducible refine keeps_parts ?_)
    | (with_reducible refine fun _ _ t ht => ?_)
    | (with_reducible refine fun t x ht => ?_)
    | (with_reducible refine fun t ht => ?_)
    | (extract_lets +onlyGivenNames -underBinder t; first | (refine have ht : Keeps b t := ?_; ?_; dsimp -zeta only [t]; rotate_left; clear_value t) | (refine have ht : Keeps b t.2 := ?_; ?_; dsimp -zeta only [t]; rotate_left; clear_value t) | (refine have ht : Keeps b t.1 := ?_; ?_; dsimp -zeta only [t]; rotate_left; clear_value t) | (refine have ht : ∀ x y, Keeps b y → Keeps b (t x y) := ?_; ?_; dsimp -zeta only [t]; rotate_left; clear_value t) | (refine have ht : ∀ y, Keeps b y → Keeps b (t y) := ?_; ?_; dsimp -zeta only [t]; rotate_left; clear_value t) | (refine have ht : Keeps b t.2.2 := ?_; ?_; dsimp -zeta only [t]; rotate_left; clear_value t) | (clear_value t) | skip)
    | split
    | (with_reducible refine keeps_snd (by assumption) ?_)
    | (dsimp -zeta only)
    | (with_reducible apply_assumption)

theorem ringCheck_keeps {b : State} (r : ℕ) {s : State} (h : Keeps b s) : Keeps b (ringCheck r s) := by
  unfold ringCheck
  repeat' first
    | with_reducible assumption
    | with_reducible apply ringFire_keeps
    | with_reducible apply keeps_foldl
    | with_reducible apply keeps_ite
    | (simp -zeta only [keeps_mk]; with_reducible refine keeps_parts ?_)
    | (with_reducible refine fun _ _ t ht => ?_)
    | (with_reducible refine fun t x ht => ?_)
    | (with_reducible refine fun t ht => ?_)
    | (extract_lets +onlyGivenNames -underBinder t; first | (refine have ht : Keeps b t := ?_; ?_; dsimp -zeta only [t]; rotate_left; clear_value t) | (refine have ht : Keeps b t.2 := ?_; ?_; dsimp -zeta only [t]; rotate_left; clear_value t) | (refine have ht : Keeps b t.1 := ?_; ?_; dsimp -zeta only [t]; rotate_left; clear_value t) | (refine have ht : ∀ x y, Keeps b y → Keeps b (t x y) := ?_; ?_; dsimp -zeta only [t]; rotate_left; clear_value t) | (refine have ht : ∀ y, Keeps b y → Keeps b (t y) := ?_; ?_; dsimp -zeta only [t]; rotate_left; clear_value t) | (refine have ht : Keeps b t.2.2 := ?_; ?_; dsimp -zeta only [t]; rotate_left; clear_value t) | (clear_value t) | skip)
    | split
    | (with_reducible refine keeps_snd (by assumption) ?_)
    | (dsimp -zeta only)
    | (with_reducible apply_assumption)

theorem ringCompleted_keeps {b : State} (r : ℕ) (n : ℕ) {s : State} (h : Keeps b s) : Keeps b (ringCompleted r n s) := by
  unfold ringCompleted
  repeat' first
    | with_reducible assumption
    | with_reducible apply writeBack_keeps
    | with_reducible apply headAdvance_keeps
    | with_reducible apply State.setRing_keeps
    | with_reducible apply ringCheck_keeps
    | with_reducible apply pmcEvent_keeps
    | with_reducible apply keeps_foldl
    | with_reducible apply keeps_ite
    | (simp -zeta only [keeps_mk]; with_reducible refine keeps_parts ?_)
    | (with_reducible refine fun _ _ t ht => ?_)
    | (with_reducible refine fun t x ht => ?_)
    | (with_reducible refine fun t ht => ?_)
    | (extract_lets +onlyGivenNames -underBinder t; first | (refine have ht : Keeps b t := ?_; ?_; dsimp -zeta only [t]; rotate_left; clear_value t) | (refine have ht : Keeps b t.2 := ?_; ?_; dsimp -zeta only [t]; rotate_left; clear_value t) | (refine have ht : Keeps b t.1 := ?_; ?_; dsimp -zeta only [t]; rotate_left; clear_value t) | (refine have ht : ∀ x y, Keeps b y → Keeps b (t x y) := ?_; ?_; dsimp -zeta only [t]; rotate_left; clear_value t) | (refine have ht : ∀ y, Keeps b y → Keeps b (t y) := ?_; ?_; dsimp -zeta only [t]; rotate_left; clear_value t) | (refine have ht : Keeps b t.2.2 := ?_; ?_; dsimp -zeta only [t]; rotate_left; clear_value t) | (clear_value t) | skip)
    | split
    | (with_reducible refine keeps_snd (by assumption) ?_)
    | (dsimp -zeta only)
    | (with_reducible apply_assumption)

theorem noteSlot_keeps {b : State} (r : ℕ) (clamped : Bool) (invalid : Bool) {s : State} (h : Keeps b s) : Keeps b (noteSlot r clamped invalid s) := by
  unfold noteSlot
  repeat' first
    | with_reducible assumption
    | with_reducible apply State.strike_keeps
    | with_reducible apply keeps_foldl
    | with_reducible apply keeps_ite
    | (simp -zeta only [keeps_mk]; with_reducible refine keeps_parts ?_)
    | (with_reducible refine fun _ _ t ht => ?_)
    | (with_reducible refine fun t x ht => ?_)
    | (with_reducible refine fun t ht => ?_)
    | (extract_lets +onlyGivenNames -underBinder t; first | (refine have ht : Keeps b t := ?_; ?_; dsimp -zeta only [t]; rotate_left; clear_value t) | (refine have ht : Keeps b t.2 := ?_; ?_; dsimp -zeta only [t]; rotate_left; clear_value t) | (refine have ht : Keeps b t.1 := ?_; ?_; dsimp -zeta only [t]; rotate_left; clear_value t) | (refine have ht : ∀ x y, Keeps b y → Keeps b (t x y) := ?_; ?_; dsimp -zeta only [t]; rotate_left; clear_value t) | (refine have ht : ∀ y, Keeps b y → Keeps b (t y) := ?_; ?_; dsimp -zeta only [t]; rotate_left; clear_value t) | (refine have ht : Keeps b t.2.2 := ?_; ?_; dsimp -zeta only [t]; rotate_left; clear_value t) | (clear_value t) | skip)
    | split
    | (with_reducible refine keeps_snd (by assumption) ?_)
    | (dsimp -zeta only)
    | (with_reducible apply_assumption)

theorem writeSpan_keeps {b : State} (r : ℕ) (f : Sys2Proof.Machine.UpItem) (x2 : List Sys2Proof.Machine.SpanSlot) (x3 : Bool) (x4 : Sys2Proof.Bytes) {s : State} (h : Keeps b s) : Keeps b (writeSpan r f x2 x3 x4 s) := by
  revert h
  fun_induction writeSpan r f x2 x3 x4 s <;> intro h <;> repeat' first
    | with_reducible assumption
    | with_reducible apply State.setRing_keeps
    | with_reducible apply dmaWrite_keeps
    | with_reducible apply noteSlot_keeps
    | with_reducible apply keeps_foldl
    | with_reducible apply keeps_ite
    | (simp -zeta only [keeps_mk]; with_reducible refine keeps_parts ?_)
    | (with_reducible refine fun _ _ t ht => ?_)
    | (with_reducible refine fun t x ht => ?_)
    | (with_reducible refine fun t ht => ?_)
    | (extract_lets +onlyGivenNames -underBinder t; first | (refine have ht : Keeps b t := ?_; ?_; dsimp -zeta only [t]; rotate_left; clear_value t) | (refine have ht : Keeps b t.2 := ?_; ?_; dsimp -zeta only [t]; rotate_left; clear_value t) | (refine have ht : Keeps b t.1 := ?_; ?_; dsimp -zeta only [t]; rotate_left; clear_value t) | (refine have ht : ∀ x y, Keeps b y → Keeps b (t x y) := ?_; ?_; dsimp -zeta only [t]; rotate_left; clear_value t) | (refine have ht : ∀ y, Keeps b y → Keeps b (t y) := ?_; ?_; dsimp -zeta only [t]; rotate_left; clear_value t) | (refine have ht : Keeps b t.2.2 := ?_; ?_; dsimp -zeta only [t]; rotate_left; clear_value t) | (clear_value t) | skip)
    | split
    | (with_reducible refine keeps_snd (by assumption) ?_)
    | (dsimp -zeta only)
    | (with_reducible apply_assumption)

theorem popQueue_keeps {b : State} (r : ℕ) {s : State} (h : Keeps b s) : Keeps b (popQueue r s) := by
  unfold popQueue
  repeat' first
    | with_reducible assumption
    | with_reducible apply State.setRing_keeps
    | with_reducible apply keeps_foldl
    | with_reducible apply keeps_ite
    | (simp -zeta only [keeps_mk]; with_reducible refine keeps_parts ?_)
    | (with_reducible refine fun _ _ t ht => ?_)
    | (with_reducible refine fun t x ht => ?_)
    | (with_reducible refine fun t ht => ?_)
    | (extract_lets +onlyGivenNames -underBinder t; first | (refine have ht : Keeps b t := ?_; ?_; dsimp -zeta only [t]; rotate_left; clear_value t) | (refine have ht : Keeps b t.2 := ?_; ?_; dsimp -zeta only [t]; rotate_left; clear_value t) | (refine have ht : Keeps b t.1 := ?_; ?_; dsimp -zeta only [t]; rotate_left; clear_value t) | (refine have ht : ∀ x y, Keeps b y → Keeps b (t x y) := ?_; ?_; dsimp -zeta only [t]; rotate_left; clear_value t) | (refine have ht : ∀ y, Keeps b y → Keeps b (t y) := ?_; ?_; dsimp -zeta only [t]; rotate_left; clear_value t) | (refine have ht : Keeps b t.2.2 := ?_; ?_; dsimp -zeta only [t]; rotate_left; clear_value t) | (clear_value t) | skip)
    | split
    | (with_reducible refine keeps_snd (by assumption) ?_)
    | (dsimp -zeta only)
    | (with_reducible apply_assumption)

theorem waitHead_keeps {b : State} (r : ℕ) (len : ℕ) {s : State} (h : Keeps b s) : Keeps b (waitHead r len s) := by
  unfold waitHead
  repeat' first
    | with_reducible assumption
    | with_reducible apply dropItem_keeps
    | with_reducible apply popQueue_keeps
    | with_reducible apply undelivered_keeps
    | with_reducible apply State.setRing_keeps
    | with_reducible apply keeps_foldl
    | with_reducible apply keeps_ite
    | (simp -zeta only [keeps_mk]; with_reducible refine keeps_parts ?_)
    | (with_reducible refine fun _ _ t ht => ?_)
    | (with_reducible refine fun t x ht => ?_)
    | (with_reducible refine fun t ht => ?_)
    | (extract_lets +onlyGivenNames -underBinder t; first | (refine have ht : Keeps b t := ?_; ?_; dsimp -zeta only [t]; rotate_left; clear_value t) | (refine have ht : Keeps b t.2 := ?_; ?_; dsimp -zeta only [t]; rotate_left; clear_value t) | (refine have ht : Keeps b t.1 := ?_; ?_; dsimp -zeta only [t]; rotate_left; clear_value t) | (refine have ht : ∀ x y, Keeps b y → Keeps b (t x y) := ?_; ?_; dsimp -zeta only [t]; rotate_left; clear_value t) | (refine have ht : ∀ y, Keeps b y → Keeps b (t y) := ?_; ?_; dsimp -zeta only [t]; rotate_left; clear_value t) | (refine have ht : Keeps b t.2.2 := ?_; ?_; dsimp -zeta only [t]; rotate_left; clear_value t) | (clear_value t) | skip)
    | split
    | (with_reducible refine keeps_snd (by assumption) ?_)
    | (dsimp -zeta only)
    | (with_reducible apply_assumption)

theorem deliverFrame_keeps {b : State} (r : ℕ) (slots : List Sys2Proof.Desc) {s : State} (h : Keeps b s) : Keeps b (deliverFrame r slots s) := by
  unfold deliverFrame
  repeat' first
    | with_reducible assumption
    | with_reducible apply waitHead_keeps
    | with_reducible apply ringCompleted_keeps
    | with_reducible apply writeSpan_keeps
    | with_reducible apply popQueue_keeps
    | with_reducible apply keeps_foldl
    | with_reducible apply keeps_ite
    | (simp -zeta only [keeps_mk]; with_reducible refine keeps_parts ?_)
    | (with_reducible refine fun _ _ t ht => ?_)
    | (with_reducible refine fun t x ht => ?_)
    | (with_reducible refine fun t ht => ?_)
    | (extract_lets +onlyGivenNames -underBinder t; first | (refine have ht : Keeps b t := ?_; ?_; dsimp -zeta only [t]; rotate_left; clear_value t) | (refine have ht : Keeps b t.2 := ?_; ?_; dsimp -zeta only [t]; rotate_left; clear_value t) | (refine have ht : Keeps b t.1 := ?_; ?_; dsimp -zeta only [t]; rotate_left; clear_value t) | (refine have ht : ∀ x y, Keeps b y → Keeps b (t x y) := ?_; ?_; dsimp -zeta only [t]; rotate_left; clear_value t) | (refine have ht : ∀ y, Keeps b y → Keeps b (t y) := ?_; ?_; dsimp -zeta only [t]; rotate_left; clear_value t) | (refine have ht : Keeps b t.2.2 := ?_; ?_; dsimp -zeta only [t]; rotate_left; clear_value t) | (clear_value t) | skip)
    | split
    | (with_reducible refine keeps_snd (by assumption) ?_)
    | (dsimp -zeta only)
    | (with_reducible apply_assumption)

theorem completeBuffer_keeps {b : State} (r : ℕ) {s : State} (h : Keeps b s) : Keeps b (completeBuffer r s) := by
  unfold completeBuffer
  repeat' first
    | with_reducible assumption
    | with_reducible apply dmaWrite_keeps
    | with_reducible apply ringCompleted_keeps
    | with_reducible apply State.setRing_keeps
    | with_reducible apply keeps_foldl
    | with_reducible apply keeps_ite
    | (simp -zeta only [keeps_mk]; with_reducible refine keeps_parts ?_)
    | (with_reducible refine fun _ _ t ht => ?_)
    | (with_reducible refine fun t x ht => ?_)
    | (with_reducible refine fun t ht => ?_)
    | (extract_lets +onlyGivenNames -underBinder t; first | (refine have ht : Keeps b t := ?_; ?_; dsimp -zeta only [t]; rotate_left; clear_value t) | (refine have ht : Keeps b t.2 := ?_; ?_; dsimp -zeta only [t]; rotate_left; clear_value t) | (refine have ht : Keeps b t.1 := ?_; ?_; dsimp -zeta only [t]; rotate_left; clear_value t) | (refine have ht : ∀ x y, Keeps b y → Keeps b (t x y) := ?_; ?_; dsimp -zeta only [t]; rotate_left; clear_value t) | (refine have ht : ∀ y, Keeps b y → Keeps b (t y) := ?_; ?_; dsimp -zeta only [t]; rotate_left; clear_value t) | (refine have ht : Keeps b t.2.2 := ?_; ?_; dsimp -zeta only [t]; rotate_left; clear_value t) | (clear_value t) | skip)
    | split
    | (with_reducible refine keeps_snd (by assumption) ?_)
    | (dsimp -zeta only)
    | (with_reducible apply_assumption)

theorem completeInvalid_keeps {b : State} (r : ℕ) {s : State} (h : Keeps b s) : Keeps b (completeInvalid r s) := by
  unfold completeInvalid
  repeat' first
    | with_reducible assumption
    | with_reducible apply dmaWrite_keeps
    | with_reducible apply noteSlot_keeps
    | with_reducible apply ringCompleted_keeps
    | with_reducible apply State.setRing_keeps
    | with_reducible apply keeps_foldl
    | with_reducible apply keeps_ite
    | (simp -zeta only [keeps_mk]; with_reducible refine keeps_parts ?_)
    | (with_reducible refine fun _ _ t ht => ?_)
    | (with_reducible refine fun t x ht => ?_)
    | (with_reducible refine fun t ht => ?_)
    | (extract_lets +onlyGivenNames -underBinder t; first | (refine have ht : Keeps b t := ?_; ?_; dsimp -zeta only [t]; rotate_left; clear_value t) | (refine have ht : Keeps b t.2 := ?_; ?_; dsimp -zeta only [t]; rotate_left; clear_value t) | (refine have ht : Keeps b t.1 := ?_; ?_; dsimp -zeta only [t]; rotate_left; clear_value t) | (refine have ht : ∀ x y, Keeps b y → Keeps b (t x y) := ?_; ?_; dsimp -zeta only [t]; rotate_left; clear_value t) | (refine have ht : ∀ y, Keeps b y → Keeps b (t y) := ?_; ?_; dsimp -zeta only [t]; rotate_left; clear_value t) | (refine have ht : Keeps b t.2.2 := ?_; ?_; dsimp -zeta only [t]; rotate_left; clear_value t) | (clear_value t) | skip)
    | split
    | (with_reducible refine keeps_snd (by assumption) ?_)
    | (dsimp -zeta only)
    | (with_reducible apply_assumption)

theorem appendRecord_keeps {b : State} (r : ℕ) (b0 : Sys2Proof.Machine.RecBuf) (x : Sys2Proof.Bytes) {s : State} (h : Keeps b s) : Keeps b (appendRecord r b0 x s) := by
  unfold appendRecord
  repeat' first
    | with_reducible assumption
    | with_reducible apply State.setRing_keeps
    | with_reducible apply dmaWrite_keeps
    | with_reducible apply keeps_foldl
    | with_reducible apply keeps_ite
    | (simp -zeta only [keeps_mk]; with_reducible refine keeps_parts ?_)
    | (with_reducible refine fun _ _ t ht => ?_)
    | (with_reducible refine fun t x ht => ?_)
    | (with_reducible refine fun t ht => ?_)
    | (extract_lets +onlyGivenNames -underBinder t; first | (refine have ht : Keeps b t := ?_; ?_; dsimp -zeta only [t]; rotate_left; clear_value t) | (refine have ht : Keeps b t.2 := ?_; ?_; dsimp -zeta only [t]; rotate_left; clear_value t) | (refine have ht : Keeps b t.1 := ?_; ?_; dsimp -zeta only [t]; rotate_left; clear_value t) | (refine have ht : ∀ x y, Keeps b y → Keeps b (t x y) := ?_; ?_; dsimp -zeta only [t]; rotate_left; clear_value t) | (refine have ht : ∀ y, Keeps b y → Keeps b (t y) := ?_; ?_; dsimp -zeta only [t]; rotate_left; clear_value t) | (refine have ht : Keeps b t.2.2 := ?_; ?_; dsimp -zeta only [t]; rotate_left; clear_value t) | (clear_value t) | skip)
    | split
    | (with_reducible refine keeps_snd (by assumption) ?_)
    | (dsimp -zeta only)
    | (with_reducible apply_assumption)

theorem placeRecord_keeps {b : State} (r : ℕ) (x : Sys2Proof.Bytes) (x2 : List Sys2Proof.Desc) {s : State} (h : Keeps b s) : Keeps b (placeRecord r x x2 s).1 := by
  revert h
  fun_induction placeRecord r x x2 s <;> intro h <;> repeat' first
    | with_reducible assumption
    | with_reducible apply State.setRing_keeps
    | with_reducible apply appendRecord_keeps
    | with_reducible apply noteSlot_keeps
    | with_reducible apply completeBuffer_keeps
    | with_reducible apply completeInvalid_keeps
    | with_reducible apply keeps_foldl
    | with_reducible apply keeps_ite
    | (simp -zeta only [keeps_mk]; with_reducible refine keeps_parts ?_)
    | (with_reducible refine fun _ _ t ht => ?_)
    | (with_reducible refine fun t x ht => ?_)
    | (with_reducible refine fun t ht => ?_)
    | (extract_lets +onlyGivenNames -underBinder t; first | (refine have ht : Keeps b t := ?_; ?_; dsimp -zeta only [t]; rotate_left; clear_value t) | (refine have ht : Keeps b t.2 := ?_; ?_; dsimp -zeta only [t]; rotate_left; clear_value t) | (refine have ht : Keeps b t.1 := ?_; ?_; dsimp -zeta only [t]; rotate_left; clear_value t) | (refine have ht : ∀ x y, Keeps b y → Keeps b (t x y) := ?_; ?_; dsimp -zeta only [t]; rotate_left; clear_value t) | (refine have ht : ∀ y, Keeps b y → Keeps b (t y) := ?_; ?_; dsimp -zeta only [t]; rotate_left; clear_value t) | (refine have ht : Keeps b t.2.2 := ?_; ?_; dsimp -zeta only [t]; rotate_left; clear_value t) | (clear_value t) | skip)
    | split
    | (with_reducible refine keeps_snd (by assumption) ?_)
    | (dsimp -zeta only)
    | (with_reducible apply_assumption)

theorem deliverRecord_keeps {b : State} (r : ℕ) (slots : List Sys2Proof.Desc) {s : State} (h : Keeps b s) : Keeps b (deliverRecord r slots s) := by
  unfold deliverRecord
  repeat' first
    | with_reducible assumption
    | with_reducible apply appendRecord_keeps
    | with_reducible apply popQueue_keeps
    | with_reducible apply placeRecord_keeps
    | with_reducible apply completeBuffer_keeps
    | with_reducible apply waitHead_keeps
    | with_reducible apply keeps_foldl
    | with_reducible apply keeps_ite
    | (simp -zeta only [keeps_mk]; with_reducible refine keeps_parts ?_)
    | (with_reducible refine fun _ _ t ht => ?_)
    | (with_reducible refine fun t x ht => ?_)
    | (with_reducible refine fun t ht => ?_)
    | (extract_lets +onlyGivenNames -underBinder t; first | (refine have ht : Keeps b t := ?_; ?_; dsimp -zeta only [t]; rotate_left; clear_value t) | (refine have ht : Keeps b t.2 := ?_; ?_; dsimp -zeta only [t]; rotate_left; clear_value t) | (refine have ht : Keeps b t.1 := ?_; ?_; dsimp -zeta only [t]; rotate_left; clear_value t) | (refine have ht : ∀ x y, Keeps b y → Keeps b (t x y) := ?_; ?_; dsimp -zeta only [t]; rotate_left; clear_value t) | (refine have ht : ∀ y, Keeps b y → Keeps b (t y) := ?_; ?_; dsimp -zeta only [t]; rotate_left; clear_value t) | (refine have ht : Keeps b t.2.2 := ?_; ?_; dsimp -zeta only [t]; rotate_left; clear_value t) | (clear_value t) | skip)
    | split
    | (with_reducible refine keeps_snd (by assumption) ?_)
    | (dsimp -zeta only)
    | (with_reducible apply_assumption)

theorem writeDown_keeps {b : State} (r : ℕ) (f : Sys2Proof.Machine.DownFrame) (status : ℕ) (x3 : List (ℕ × Bool × Bool)) {s : State} (h : Keeps b s) : Keeps b (writeDown r f status x3 s) := by
  revert h
  fun_induction writeDown r f status x3 s <;> intro h <;> repeat' first
    | with_reducible assumption
    | with_reducible apply dmaWrite_keeps
    | with_reducible apply noteSlot_keeps
    | with_reducible apply keeps_foldl
    | with_reducible apply keeps_ite
    | (simp -zeta only [keeps_mk]; with_reducible refine keeps_parts ?_)
    | (with_reducible refine fun _ _ t ht => ?_)
    | (with_reducible refine fun t x ht => ?_)
    | (with_reducible refine fun t ht => ?_)
    | (extract_lets +onlyGivenNames -underBinder t; first | (refine have ht : Keeps b t := ?_; ?_; dsimp -zeta only [t]; rotate_left; clear_value t) | (refine have ht : Keeps b t.2 := ?_; ?_; dsimp -zeta only [t]; rotate_left; clear_value t) | (refine have ht : Keeps b t.1 := ?_; ?_; dsimp -zeta only [t]; rotate_left; clear_value t) | (refine have ht : ∀ x y, Keeps b y → Keeps b (t x y) := ?_; ?_; dsimp -zeta only [t]; rotate_left; clear_value t) | (refine have ht : ∀ y, Keeps b y → Keeps b (t y) := ?_; ?_; dsimp -zeta only [t]; rotate_left; clear_value t) | (refine have ht : Keeps b t.2.2 := ?_; ?_; dsimp -zeta only [t]; rotate_left; clear_value t) | (clear_value t) | skip)
    | split
    | (with_reducible refine keeps_snd (by assumption) ?_)
    | (dsimp -zeta only)
    | (with_reducible apply_assumption)

theorem flushDown_keeps {b : State} (r : ℕ) (x1 : List Sys2Proof.Machine.DownFrame) {s : State} (h : Keeps b s) : Keeps b (flushDown r x1 s) := by
  revert h
  fun_induction flushDown r x1 s <;> intro h <;> repeat' first
    | with_reducible assumption
    | with_reducible apply State.setRing_keeps
    | with_reducible apply ringCompleted_keeps
    | with_reducible apply writeDown_keeps
    | with_reducible apply keeps_foldl
    | with_reducible apply keeps_ite
    | (simp -zeta only [keeps_mk]; with_reducible refine keeps_parts ?_)
    | (with_reducible refine fun _ _ t ht => ?_)
    | (with_reducible refine fun t x ht => ?_)
    | (with_reducible refine fun t ht => ?_)
    | (extract_lets +onlyGivenNames -underBinder t; first | (refine have ht : Keeps b t := ?_; ?_; dsimp -zeta only [t]; rotate_left; clear_value t) | (refine have ht : Keeps b t.2 := ?_; ?_; dsimp -zeta only [t]; rotate_left; clear_value t) | (refine have ht : Keeps b t.1 := ?_; ?_; dsimp -zeta only [t]; rotate_left; clear_value t) | (refine have ht : ∀ x y, Keeps b y → Keeps b (t x y) := ?_; ?_; dsimp -zeta only [t]; rotate_left; clear_value t) | (refine have ht : ∀ y, Keeps b y → Keeps b (t y) := ?_; ?_; dsimp -zeta only [t]; rotate_left; clear_value t) | (refine have ht : Keeps b t.2.2 := ?_; ?_; dsimp -zeta only [t]; rotate_left; clear_value t) | (clear_value t) | skip)
    | split
    | (with_reducible refine keeps_snd (by assumption) ?_)
    | (dsimp -zeta only)
    | (with_reducible apply_assumption)

theorem endHostFrame_keeps {b : State} (r : ℕ) (slot : ℕ) (status : ℕ) (inst : Option Sys2Proof.Instant) {s : State} (h : Keeps b s) : Keeps b (endHostFrame r slot status inst s) := by
  unfold endHostFrame
  repeat' first
    | with_reducible assumption
    | with_reducible apply flushDown_keeps
    | with_reducible apply keeps_foldl
    | with_reducible apply keeps_ite
    | (simp -zeta only [keeps_mk]; with_reducible refine keeps_parts ?_)
    | (with_reducible refine fun _ _ t ht => ?_)
    | (with_reducible refine fun t x ht => ?_)
    | (with_reducible refine fun t ht => ?_)
    | (extract_lets +onlyGivenNames -underBinder t; first | (refine have ht : Keeps b t := ?_; ?_; dsimp -zeta only [t]; rotate_left; clear_value t) | (refine have ht : Keeps b t.2 := ?_; ?_; dsimp -zeta only [t]; rotate_left; clear_value t) | (refine have ht : Keeps b t.1 := ?_; ?_; dsimp -zeta only [t]; rotate_left; clear_value t) | (refine have ht : ∀ x y, Keeps b y → Keeps b (t x y) := ?_; ?_; dsimp -zeta only [t]; rotate_left; clear_value t) | (refine have ht : ∀ y, Keeps b y → Keeps b (t y) := ?_; ?_; dsimp -zeta only [t]; rotate_left; clear_value t) | (refine have ht : Keeps b t.2.2 := ?_; ?_; dsimp -zeta only [t]; rotate_left; clear_value t) | (clear_value t) | skip)
    | split
    | (with_reducible refine keeps_snd (by assumption) ?_)
    | (dsimp -zeta only)
    | (with_reducible apply_assumption)

end Sys2Proof.Machine
end

