-- ==== Sys2Proof/Laws/KeepAddress.lean ====
section
/-! SUPPORT. The operations of Machine/Address.lean keep the queue and the canonical forms. -/
namespace Sys2Proof.Machine
set_option linter.unusedTactic false
set_option linter.unreachableTactic false

theorem stopSeries_keeps {b : State} {s : State} (h : Keeps b s) : Keeps b (stopSeries s) := by
  unfold stopSeries
  repeat' first
    | with_reducible assumption
    | with_reducible apply keeps_foldl
    | with_reducible apply keeps_ite
    | (simp -zeta only [keeps_mk]; with_reducible refine keeps_parts ?_)
    | (with_reducible refine fun _ _ t ht => ?_)
    | (with_reducible refine fun t x ht => ?_)
    | (with_reducible refine fun t ht => ?_)
    | (extract_lets +onlyGivenNames -underBinder t; first | (refine have ht : Keeps b t := ?_; ?_; dsimp -zeta only [t]; rotate_left; clear_value t) | (refine have ht : Keeps b t.2 := ?_; ?_; dsimp -zeta only [t]; rotate_left; clear_value t) | (refine have ht : Keeps b t.1 := ?_; ?_; dsimp -zeta only [t]; rotate_left; clear_value t) | (refine have ht : ∀ x y, Keeps b y → Keeps b (t x y) := ?_; ?_; dsimp -zeta only [t]; rotate_left; clear_value t) | (refine have ht : ∀ y, Keeps b y → Keeps b (t y) := ?_; ?_; dsimp -zeta only [t]; rotate_left; clear_value t) | (refine have ht : Keeps b t.2.2 := ?_; ?_; dsimp -zeta only [t]; rotate_left; clear_value t) | (clear_value t) | skip)
    | split
    | (with_reducible refine keeps_snd (by assumption) ?_)
    | (dsimp -zeta only)
    | (with_reducible apply_assumption)

theorem portCount_keeps {b : State} (p : ℕ) (k : ℕ) (amt : ℕ) {s : State} (h : Keeps b s) : Keeps b (portCount p k amt s) := by
  unfold portCount
  repeat' first
    | with_reducible assumption
    | with_reducible apply State.add64_keeps
    | with_reducible apply keeps_foldl
    | with_reducible apply keeps_ite
    | (simp -zeta only [keeps_mk]; with_reducible refine keeps_parts ?_)
    | (with_reducible refine fun _ _ t ht => ?_)
    | (with_reducible refine fun t x ht => ?_)
    | (with_reducible refine fun t ht => ?_)
    | (extract_lets +onlyGivenNames -underBinder t; first | (refine have ht : Keeps b t := ?_; ?_; dsimp -zeta only [t]; rotate_left; clear_value t) | (refine have ht : Keeps b t.2 := ?_; ?_; dsimp -zeta only [t]; rotate_left; clear_value t) | (refine have ht : Keeps b t.1 := ?_; ?_; dsimp -zeta only [t]; rotate_left; clear_value t) | (refine have ht : ∀ x y, Keeps b y → Keeps b (t x y) := ?_; ?_; dsimp -zeta only [t]; rotate_left; clear_value t) | (refine have ht : ∀ y, Keeps b y → Keeps b (t y) := ?_; ?_; dsimp -zeta only [t]; rotate_left; clear_value t) | (refine have ht : Keeps b t.2.2 := ?_; ?_; dsimp -zeta only [t]; rotate_left; clear_value t) | (clear_value t) | skip)
    | split
    | (with_reducible refine keeps_snd (by assumption) ?_)
    | (dsimp -zeta only)
    | (with_reducible apply_assumption)

theorem portSent_keeps {b : State} (p : ℕ) (n : ℕ) {s : State} (h : Keeps b s) : Keeps b (portSent p n s) := by
  unfold portSent
  repeat' first
    | with_reducible assumption
    | with_reducible apply pmcEvent_keeps
    | with_reducible apply portCount_keeps
    | with_reducible apply keeps_foldl
    | with_reducible apply keeps_ite
    | (simp -zeta only [keeps_mk]; with_reducible refine keeps_parts ?_)
    | (with_reducible refine fun _ _ t ht => ?_)
    | (with_reducible refine fun t x ht => ?_)
    | (with_reducible refine fun t ht => ?_)
    | (extract_lets +onlyGivenNames -underBinder t; first | (refine have ht : Keeps b t := ?_; ?_; dsimp -zeta only [t]; rotate_left; clear_value t) | (refine have ht : Keeps b t.2 := ?_; ?_; dsimp -zeta only [t]; rotate_left; clear_value t) | (refine have ht : Keeps b t.1 := ?_; ?_; dsimp -zeta only [t]; rotate_left; clear_value t) | (refine have ht : ∀ x y, Keeps b y → Keeps b (t x y) := ?_; ?_; dsimp -zeta only [t]; rotate_left; clear_value t) | (refine have ht : ∀ y, Keeps b y → Keeps b (t y) := ?_; ?_; dsimp -zeta only [t]; rotate_left; clear_value t) | (refine have ht : Keeps b t.2.2 := ?_; ?_; dsimp -zeta only [t]; rotate_left; clear_value t) | (clear_value t) | skip)
    | split
    | (with_reducible refine keeps_snd (by assumption) ?_)
    | (dsimp -zeta only)
    | (with_reducible apply_assumption)

theorem txEnqueue_keeps {b : State} (p : Fin 7) (f : Sys2Proof.Machine.TxFrame) {s : State} (h : Keeps b s) : Keeps b (txEnqueue p f s) := by
  unfold txEnqueue
  repeat' first
    | with_reducible assumption
    | with_reducible apply State.set_keeps
    | with_reducible apply keeps_foldl
    | with_reducible apply keeps_ite
    | (simp -zeta only [keeps_mk]; with_reducible refine keeps_parts ?_)
    | (with_reducible refine fun _ _ t ht => ?_)
    | (with_reducible refine fun t x ht => ?_)
    | (with_reducible refine fun t ht => ?_)
    | (extract_lets +onlyGivenNames -underBinder t; first | (refine have ht : Keeps b t := ?_; ?_; dsimp -zeta only [t]; rotate_left; clear_value t) | (refine have ht : Keeps b t.2 := ?_; ?_; dsimp -zeta only [t]; rotate_left; clear_value t) | (refine have ht : Keeps b t.1 := ?_; ?_; dsimp -zeta only [t]; rotate_left; clear_value t) | (refine have ht : ∀ x y, Keeps b y → Keeps b (t x y) := ?_; ?_; dsimp -zeta only [t]; rotate_left; clear_value t) | (refine have ht : ∀ y, Keeps b y → Keeps b (t y) := ?_; ?_; dsimp -zeta only [t]; rotate_left; clear_value t) | (refine have ht : Keeps b t.2.2 := ?_; ?_; dsimp -zeta only [t]; rotate_left; clear_value t) | (clear_value t) | skip)
    | split
    | (with_reducible refine keeps_snd (by assumption) ?_)
    | (dsimp -zeta only)
    | (with_reducible apply_assumption)

theorem txDevice_keeps {b : State} (p : Fin 7) (b0 : Sys2Proof.Bytes) {s : State} (h : Keeps b s) : Keeps b (txDevice p b0 s) := by
  unfold txDevice
  repeat' first
    | with_reducible assumption
    | with_reducible apply txEnqueue_keeps
    | with_reducible apply keeps_foldl
    | with_reducible apply keeps_ite
    | (simp -zeta only [keeps_mk]; with_reducible refine keeps_parts ?_)
    | (with_reducible refine fun _ _ t ht => ?_)
    | (with_reducible refine fun t x ht => ?_)
    | (with_reducible refine fun t ht => ?_)
    | (extract_lets +onlyGivenNames -underBinder t; first | (refine have ht : Keeps b t := ?_; ?_; dsimp -zeta only [t]; rotate_left; clear_value t) | (refine have ht : Keeps b t.2 := ?_; ?_; dsimp -zeta only [t]; rotate_left; clear_value t) | (refine have ht : Keeps b t.1 := ?_; ?_; dsimp -zeta only [t]; rotate_left; clear_value t) | (refine have ht : ∀ x y, Keeps b y → Keeps b (t x y) := ?_; ?_; dsimp -zeta only [t]; rotate_left; clear_value t) | (refine have ht : ∀ y, Keeps b y → Keeps b (t y) := ?_; ?_; dsimp -zeta only [t]; rotate_left; clear_value t) | (refine have ht : Keeps b t.2.2 := ?_; ?_; dsimp -zeta only [t]; rotate_left; clear_value t) | (clear_value t) | skip)
    | split
    | (with_reducible refine keeps_snd (by assumption) ?_)
    | (dsimp -zeta only)
    | (with_reducible apply_assumption)

theorem announceSend_keeps {b : State} (n : ℕ) {s : State} (h : Keeps b s) : Keeps b (announceSend n s) := by
  unfold announceSend
  repeat' first
    | with_reducible assumption
    | with_reducible apply txDevice_keeps
    | with_reducible apply keeps_foldl
    | with_reducible apply keeps_ite
    | (simp -zeta only [keeps_mk]; with_reducible refine keeps_parts ?_)
    | (with_reducible refine fun _ _ t ht => ?_)
    | (with_reducible refine fun t x ht => ?_)
    | (with_reducible refine fun t ht => ?_)
    | (extract_lets +onlyGivenNames -underBinder t; first | (refine have ht : Keeps b t := ?_; ?_; dsimp -zeta only [t]; rotate_left; clear_value t) | (refine have ht : Keeps b t.2 := ?_; ?_; dsimp -zeta only [t]; rotate_left; clear_value t) | (refine have ht : Keeps b t.1 := ?_; ?_; dsimp -zeta only [t]; rotate_left; clear_value t) | (refine have ht : ∀ x y, Keeps b y → Keeps b (t x y) := ?_; ?_; dsimp -zeta only [t]; rotate_left; clear_value t) | (refine have ht : ∀ y, Keeps b y → Keeps b (t y) := ?_; ?_; dsimp -zeta only [t]; rotate_left; clear_value t) | (refine have ht : Keeps b t.2.2 := ?_; ?_; dsimp -zeta only [t]; rotate_left; clear_value t) | (clear_value t) | skip)
    | split
    | (with_reducible refine keeps_snd (by assumption) ?_)
    | (dsimp -zeta only)
    | (with_reducible apply_assumption)

theorem announceStart_keeps {b : State} {s : State} (n : ℕ) (h : Keeps b s) : Keeps b (announceStart s n) := by
  unfold announceStart
  repeat' first
    | with_reducible assumption
    | with_reducible apply announceSend_keeps
    | with_reducible apply keeps_foldl
    | with_reducible apply keeps_ite
    | (simp -zeta only [keeps_mk]; with_reducible refine keeps_parts ?_)
    | (with_reducible refine fun _ _ t ht => ?_)
    | (with_reducible refine fun t x ht => ?_)
    | (with_reducible refine fun t ht => ?_)
    | (extract_lets +onlyGivenNames -underBinder t; first | (refine have ht : Keeps b t := ?_; ?_; dsimp -zeta only [t]; rotate_left; clear_value t) | (refine have ht : Keeps b t.2 := ?_; ?_; dsimp -zeta only [t]; rotate_left; clear_value t) | (refine have ht : Keeps b t.1 := ?_; ?_; dsimp -zeta only [t]; rotate_left; clear_value t) | (refine have ht : ∀ x y, Keeps b y → Keeps b (t x y) := ?_; ?_; dsimp -zeta only [t]; rotate_left; clear_value t) | (refine have ht : ∀ y, Keeps b y → Keeps b (t y) := ?_; ?_; dsimp -zeta only [t]; rotate_left; clear_value t) | (refine have ht : Keeps b t.2.2 := ?_; ?_; dsimp -zeta only [t]; rotate_left; clear_value t) | (clear_value t) | skip)
    | split
    | (with_reducible refine keeps_snd (by assumption) ?_)
    | (dsimp -zeta only)
    | (with_reducible apply_assumption)

theorem announceAll_keeps {b : State} {s : State} (h : Keeps b s) : Keeps b (announceAll s) := by
  unfold announceAll
  repeat' first
    | with_reducible assumption
    | with_reducible apply announceStart_keeps
    | with_reducible apply keeps_foldl
    | with_reducible apply keeps_ite
    | (simp -zeta only [keeps_mk]; with_reducible refine keeps_parts ?_)
    | (with_reducible refine fun _ _ t ht => ?_)
    | (with_reducible refine fun t x ht => ?_)
    | (with_reducible refine fun t ht => ?_)
    | (extract_lets +onlyGivenNames -underBinder t; first | (refine have ht : Keeps b t := ?_; ?_; dsimp -zeta only [t]; rotate_left; clear_value t) | (refine have ht : Keeps b t.2 := ?_; ?_; dsimp -zeta only [t]; rotate_left; clear_value t) | (refine have ht : Keeps b t.1 := ?_; ?_; dsimp -zeta only [t]; rotate_left; clear_value t) | (refine have ht : ∀ x y, Keeps b y → Keeps b (t x y) := ?_; ?_; dsimp -zeta only [t]; rotate_left; clear_value t) | (refine have ht : ∀ y, Keeps b y → Keeps b (t y) := ?_; ?_; dsimp -zeta only [t]; rotate_left; clear_value t) | (refine have ht : Keeps b t.2.2 := ?_; ?_; dsimp -zeta only [t]; rotate_left; clear_value t) | (clear_value t) | skip)
    | split
    | (with_reducible refine keeps_snd (by assumption) ?_)
    | (dsimp -zeta only)
    | (with_reducible apply_assumption)

end Sys2Proof.Machine
end

