-- ==== Sys2Proof/Laws/KeepDatum.lean ====
section
/-! SUPPORT. The operations of Machine/Datum.lean keep the queue and the canonical forms. -/
namespace Sys2Proof.Machine
set_option linter.unusedTactic false
set_option linter.unreachableTactic false

theorem showRate_keeps {b : State} {s : State} (h : Keeps b s) : Keeps b (showRate s) := by
  unfold showRate
  repeat' first
    | with_reducible assumption
    | with_reducible apply State.set_keeps
    | with_reducible apply keeps_foldl
    | with_reducible apply keeps_ite
    | (simp -zeta only [keeps_mk]; with_reducible refine keeps_parts ?_)
    | (with_reducible refine fun _ _ t ht => ?_)
    | (with_reducible refine fun t x ht => ?_)
    | (with_reducible refine fun t ht => ?_)
    | (extract_lets +onlyGivenNames -underBinder t; first | (refine have ht : Keeps b t := ?_; ?_; dsimp -zeta only [t]; rotate_left; clear_value t) | (refine have ht : Keeps b t.2 := ?_; ?_; dsimp -zeta only [t]; rotate_left; clear_value t) | (refine have ht : Keeps b t.1 := ?_; ?_; dsimp -zeta only [t]; rotate_left; clear_value t) | (refine have ht : ∀ x y, Keeps b y → Keeps b (t x y) := ?_; ?_; dsimp -zeta only [t]; rotate_left; clear_value t) | (refine have ht : ∀ y, Keeps b y → Keeps b (t y) := ?_; ?_; dsimp -zeta only [t]; rotate_left; clear_value t) | (refine have ht : Keeps b t.2.2 := ?_; ?_; dsimp -zeta only [t]; rotate_left; clear_value t) | (clear_value t) | skip)
    | split
    | (with_reducible refine keeps_snd (by assumption) ?_)
    | (dsimp -zeta only)
    | (with_reducible apply_assumption)

theorem applyRate_keeps {b : State} (base : ℤ) (slew : ℤ) {s : State} (h : Keeps b s) : Keeps b (applyRate base slew s) := by
  unfold applyRate
  repeat' first
    | with_reducible assumption
    | with_reducible apply pmcEvent_keeps
    | with_reducible apply showRate_keeps
    | with_reducible apply keeps_foldl
    | with_reducible apply keeps_ite
    | (simp -zeta only [keeps_mk]; with_reducible refine keeps_parts ?_)
    | (with_reducible refine fun _ _ t ht => ?_)
    | (with_reducible refine fun t x ht => ?_)
    | (with_reducible refine fun t ht => ?_)
    | (extract_lets +onlyGivenNames -underBinder t; first | (refine have ht : Keeps b t := ?_; ?_; dsimp -zeta only [t]; rotate_left; clear_value t) | (refine have ht : Keeps b t.2 := ?_; ?_; dsimp -zeta only [t]; rotate_left; clear_value t) | (refine have ht : Keeps b t.1 := ?_; ?_; dsimp -zeta only [t]; rotate_left; clear_value t) | (refine have ht : ∀ x y, Keeps b y → Keeps b (t x y) := ?_; ?_; dsimp -zeta only [t]; rotate_left; clear_value t) | (refine have ht : ∀ y, Keeps b y → Keeps b (t y) := ?_; ?_; dsimp -zeta only [t]; rotate_left; clear_value t) | (refine have ht : Keeps b t.2.2 := ?_; ?_; dsimp -zeta only [t]; rotate_left; clear_value t) | (clear_value t) | skip)
    | split
    | (with_reducible refine keeps_snd (by assumption) ?_)
    | (dsimp -zeta only)
    | (with_reducible apply_assumption)

theorem announceRate_keeps {b : State} (base : ℤ) (slew : ℤ) {s : State} (h : Keeps b s) : Keeps b (announceRate base slew s) := by
  unfold announceRate
  repeat' first
    | with_reducible assumption
    | with_reducible apply keeps_foldl
    | with_reducible apply keeps_ite
    | (simp -zeta only [keeps_mk]; with_reducible refine keeps_parts ?_)
    | (with_reducible refine fun _ _ t ht => ?_)
    | (with_reducible refine fun t x ht => ?_)
    | (with_reducible refine fun t ht => ?_)
    | (extract_lets +onlyGivenNames -underBinder t; first | (refine have ht : Keeps b t := ?_; ?_; dsimp -zeta only [t]; rotate_left; clear_value t) | (refine have ht : Keeps b t.2 := ?_; ?_; dsimp -zeta only [t]; rotate_left; clear_value t) | (refine have ht : Keeps b t.1 := ?_; ?_; dsimp -zeta only [t]; rotate_left; clear_value t) | (refine have ht : ∀ x y, Keeps b y → Keeps b (t x y) := ?_; ?_; dsimp -zeta only [t]; rotate_left; clear_value t) | (refine have ht : ∀ y, Keeps b y → Keeps b (t y) := ?_; ?_; dsimp -zeta only [t]; rotate_left; clear_value t) | (refine have ht : Keeps b t.2.2 := ?_; ?_; dsimp -zeta only [t]; rotate_left; clear_value t) | (clear_value t) | skip)
    | split
    | (with_reducible refine keeps_snd (by assumption) ?_)
    | (dsimp -zeta only)
    | (with_reducible apply_assumption)

theorem startSlew_keeps {b : State} (base : ℤ) (d : ℤ) {s : State} (h : Keeps b s) : Keeps b (startSlew base d s) := by
  unfold startSlew
  repeat' first
    | with_reducible assumption
    | with_reducible apply announceRate_keeps
    | with_reducible apply State.setB_keeps
    | with_reducible apply keeps_foldl
    | with_reducible apply keeps_ite
    | (simp -zeta only [keeps_mk]; with_reducible refine keeps_parts ?_)
    | (with_reducible refine fun _ _ t ht => ?_)
    | (with_reducible refine fun t x ht => ?_)
    | (with_reducible refine fun t ht => ?_)
    | (extract_lets +onlyGivenNames -underBinder t; first | (refine have ht : Keeps b t := ?_; ?_; dsimp -zeta only [t]; rotate_left; clear_value t) | (refine have ht : Keeps b t.2 := ?_; ?_; dsimp -zeta only [t]; rotate_left; clear_value t) | (refine have ht : Keeps b t.1 := ?_; ?_; dsimp -zeta only [t]; rotate_left; clear_value t) | (refine have ht : ∀ x y, Keeps b y → Keeps b (t x y) := ?_; ?_; dsimp -zeta only [t]; rotate_left; clear_value t) | (refine have ht : ∀ y, Keeps b y → Keeps b (t y) := ?_; ?_; dsimp -zeta only [t]; rotate_left; clear_value t) | (refine have ht : Keeps b t.2.2 := ?_; ?_; dsimp -zeta only [t]; rotate_left; clear_value t) | (clear_value t) | skip)
    | split
    | (with_reducible refine keeps_snd (by assumption) ?_)
    | (dsimp -zeta only)
    | (with_reducible apply_assumption)

theorem setDatumState_keeps {b : State} (n : ℕ) {s : State} (h : Keeps b s) : Keeps b (setDatumState n s) := by
  unfold setDatumState
  repeat' first
    | with_reducible assumption
    | with_reducible apply irqSet_keeps
    | with_reducible apply State.set_keeps
    | with_reducible apply keeps_foldl
    | with_reducible apply keeps_ite
    | (simp -zeta only [keeps_mk]; with_reducible refine keeps_parts ?_)
    | (with_reducible refine fun _ _ t ht => ?_)
    | (with_reducible refine fun t x ht => ?_)
    | (with_reducible refine fun t ht => ?_)
    | (extract_lets +onlyGivenNames -underBinder t; first | (refine have ht : Keeps b t := ?_; ?_; dsimp -zeta only [t]; rotate_left; clear_value t) | (refine have ht : Keeps b t.2 := ?_; ?_; dsimp -zeta only [t]; rotate_left; clear_value t) | (refine have ht : Keeps b t.1 := ?_; ?_; dsimp -zeta only [t]; rotate_left; clear_value t) | (refine have ht : ∀ x y, Keeps b y → Keeps b (t x y) := ?_; ?_; dsimp -zeta only [t]; rotate_left; clear_value t) | (refine have ht : ∀ y, Keeps b y → Keeps b (t y) := ?_; ?_; dsimp -zeta only [t]; rotate_left; clear_value t) | (refine have ht : Keeps b t.2.2 := ?_; ?_; dsimp -zeta only [t]; rotate_left; clear_value t) | (clear_value t) | skip)
    | split
    | (with_reducible refine keeps_snd (by assumption) ?_)
    | (dsimp -zeta only)
    | (with_reducible apply_assumption)

theorem datumGoto_keeps {b : State} (n : ℕ) {s : State} (h : Keeps b s) : Keeps b (datumGoto n s) := by
  unfold datumGoto
  repeat' first
    | with_reducible assumption
    | with_reducible apply setDatumState_keeps
    | with_reducible apply keeps_foldl
    | with_reducible apply keeps_ite
    | (simp -zeta only [keeps_mk]; with_reducible refine keeps_parts ?_)
    | (with_reducible refine fun _ _ t ht => ?_)
    | (with_reducible refine fun t x ht => ?_)
    | (with_reducible refine fun t ht => ?_)
    | (extract_lets +onlyGivenNames -underBinder t; first | (refine have ht : Keeps b t := ?_; ?_; dsimp -zeta only [t]; rotate_left; clear_value t) | (refine have ht : Keeps b t.2 := ?_; ?_; dsimp -zeta only [t]; rotate_left; clear_value t) | (refine have ht : Keeps b t.1 := ?_; ?_; dsimp -zeta only [t]; rotate_left; clear_value t) | (refine have ht : ∀ x y, Keeps b y → Keeps b (t x y) := ?_; ?_; dsimp -zeta only [t]; rotate_left; clear_value t) | (refine have ht : ∀ y, Keeps b y → Keeps b (t y) := ?_; ?_; dsimp -zeta only [t]; rotate_left; clear_value t) | (refine have ht : Keeps b t.2.2 := ?_; ?_; dsimp -zeta only [t]; rotate_left; clear_value t) | (clear_value t) | skip)
    | split
    | (with_reducible refine keeps_snd (by assumption) ?_)
    | (dsimp -zeta only)
    | (with_reducible apply_assumption)

theorem State.setUtcSource_keeps {b : State} {s : State} (k : ℕ) (u : Sys2Proof.Machine.UtcSource) (h : Keeps b s) : Keeps b (State.setUtcSource s k u) := by
  unfold State.setUtcSource
  repeat' first
    | with_reducible assumption
    | with_reducible apply keeps_foldl
    | with_reducible apply keeps_ite
    | (simp -zeta only [keeps_mk]; with_reducible refine keeps_parts ?_)
    | (with_reducible refine fun _ _ t ht => ?_)
    | (with_reducible refine fun t x ht => ?_)
    | (with_reducible refine fun t ht => ?_)
    | (extract_lets +onlyGivenNames -underBinder t; first | (refine have ht : Keeps b t := ?_; ?_; dsimp -zeta only [t]; rotate_left; clear_value t) | (refine have ht : Keeps b t.2 := ?_; ?_; dsimp -zeta only [t]; rotate_left; clear_value t) | (refine have ht : Keeps b t.1 := ?_; ?_; dsimp -zeta only [t]; rotate_left; clear_value t) | (refine have ht : ∀ x y, Keeps b y → Keeps b (t x y) := ?_; ?_; dsimp -zeta only [t]; rotate_left; clear_value t) | (refine have ht : ∀ y, Keeps b y → Keeps b (t y) := ?_; ?_; dsimp -zeta only [t]; rotate_left; clear_value t) | (refine have ht : Keeps b t.2.2 := ?_; ?_; dsimp -zeta only [t]; rotate_left; clear_value t) | (clear_value t) | skip)
    | split
    | (with_reducible refine keeps_snd (by assumption) ?_)
    | (dsimp -zeta only)
    | (with_reducible apply_assumption)

theorem utcChange_keeps {b : State} (v : ℤ) {s : State} (h : Keeps b s) : Keeps b (utcChange v s) := by
  unfold utcChange
  repeat' first
    | with_reducible assumption
    | with_reducible apply record_keeps
    | with_reducible apply irqSet_keeps
    | with_reducible apply noteLeap_keeps
    | with_reducible apply State.setI_keeps
    | with_reducible apply keeps_foldl
    | with_reducible apply keeps_ite
    | (simp -zeta only [keeps_mk]; with_reducible refine keeps_parts ?_)
    | (with_reducible refine fun _ _ t ht => ?_)
    | (with_reducible refine fun t x ht => ?_)
    | (with_reducible refine fun t ht => ?_)
    | (extract_lets +onlyGivenNames -underBinder t; first | (refine have ht : Keeps b t := ?_; ?_; dsimp -zeta only [t]; rotate_left; clear_value t) | (refine have ht : Keeps b t.2 := ?_; ?_; dsimp -zeta only [t]; rotate_left; clear_value t) | (refine have ht : Keeps b t.1 := ?_; ?_; dsimp -zeta only [t]; rotate_left; clear_value t) | (refine have ht : ∀ x y, Keeps b y → Keeps b (t x y) := ?_; ?_; dsimp -zeta only [t]; rotate_left; clear_value t) | (refine have ht : ∀ y, Keeps b y → Keeps b (t y) := ?_; ?_; dsimp -zeta only [t]; rotate_left; clear_value t) | (refine have ht : Keeps b t.2.2 := ?_; ?_; dsimp -zeta only [t]; rotate_left; clear_value t) | (clear_value t) | skip)
    | split
    | (with_reducible refine keeps_snd (by assumption) ?_)
    | (dsimp -zeta only)
    | (with_reducible apply_assumption)

theorem utcResolve_keeps {b : State} {s : State} (h : Keeps b s) : Keeps b (utcResolve s) := by
  unfold utcResolve
  repeat' first
    | with_reducible assumption
    | with_reducible apply State.set_keeps
    | with_reducible apply utcChange_keeps
    | with_reducible apply keeps_foldl
    | with_reducible apply keeps_ite
    | (simp -zeta only [keeps_mk]; with_reducible refine keeps_parts ?_)
    | (with_reducible refine fun _ _ t ht => ?_)
    | (with_reducible refine fun t x ht => ?_)
    | (with_reducible refine fun t ht => ?_)
    | (extract_lets +onlyGivenNames -underBinder t; first | (refine have ht : Keeps b t := ?_; ?_; dsimp -zeta only [t]; rotate_left; clear_value t) | (refine have ht : Keeps b t.2 := ?_; ?_; dsimp -zeta only [t]; rotate_left; clear_value t) | (refine have ht : Keeps b t.1 := ?_; ?_; dsimp -zeta only [t]; rotate_left; clear_value t) | (refine have ht : ∀ x y, Keeps b y → Keeps b (t x y) := ?_; ?_; dsimp -zeta only [t]; rotate_left; clear_value t) | (refine have ht : ∀ y, Keeps b y → Keeps b (t y) := ?_; ?_; dsimp -zeta only [t]; rotate_left; clear_value t) | (refine have ht : Keeps b t.2.2 := ?_; ?_; dsimp -zeta only [t]; rotate_left; clear_value t) | (clear_value t) | skip)
    | split
    | (with_reducible refine keeps_snd (by assumption) ?_)
    | (dsimp -zeta only)
    | (with_reducible apply_assumption)

theorem leapAccept_keeps {b : State} (kind : ℕ) (day : ℕ) (src : ℕ) {s : State} (h : Keeps b s) : Keeps b (leapAccept kind day src s) := by
  unfold leapAccept
  repeat' first
    | with_reducible assumption
    | with_reducible apply noteLeap_keeps
    | with_reducible apply State.set_keeps
    | with_reducible apply record_keeps
    | with_reducible apply irqSet_keeps
    | with_reducible apply keeps_foldl
    | with_reducible apply keeps_ite
    | (simp -zeta only [keeps_mk]; with_reducible refine keeps_parts ?_)
    | (with_reducible refine fun _ _ t ht => ?_)
    | (with_reducible refine fun t x ht => ?_)
    | (with_reducible refine fun t ht => ?_)
    | (extract_lets +onlyGivenNames -underBinder t; first | (refine have ht : Keeps b t := ?_; ?_; dsimp -zeta only [t]; rotate_left; clear_value t) | (refine have ht : Keeps b t.2 := ?_; ?_; dsimp -zeta only [t]; rotate_left; clear_value t) | (refine have ht : Keeps b t.1 := ?_; ?_; dsimp -zeta only [t]; rotate_left; clear_value t) | (refine have ht : ∀ x y, Keeps b y → Keeps b (t x y) := ?_; ?_; dsimp -zeta only [t]; rotate_left; clear_value t) | (refine have ht : ∀ y, Keeps b y → Keeps b (t y) := ?_; ?_; dsimp -zeta only [t]; rotate_left; clear_value t) | (refine have ht : Keeps b t.2.2 := ?_; ?_; dsimp -zeta only [t]; rotate_left; clear_value t) | (clear_value t) | skip)
    | split
    | (with_reducible refine keeps_snd (by assumption) ?_)
    | (dsimp -zeta only)
    | (with_reducible apply_assumption)

theorem leapCancel_keeps {b : State} {s : State} (h : Keeps b s) : Keeps b (leapCancel s) := by
  unfold leapCancel
  repeat' first
    | with_reducible assumption
    | with_reducible apply record_keeps
    | with_reducible apply irqSet_keeps
    | with_reducible apply noteLeap_keeps
    | with_reducible apply State.set_keeps
    | with_reducible apply keeps_foldl
    | with_reducible apply keeps_ite
    | (simp -zeta only [keeps_mk]; with_reducible refine keeps_parts ?_)
    | (with_reducible refine fun _ _ t ht => ?_)
    | (with_reducible refine fun t x ht => ?_)
    | (with_reducible refine fun t ht => ?_)
    | (extract_lets +onlyGivenNames -underBinder t; first | (refine have ht : Keeps b t := ?_; ?_; dsimp -zeta only [t]; rotate_left; clear_value t) | (refine have ht : Keeps b t.2 := ?_; ?_; dsimp -zeta only [t]; rotate_left; clear_value t) | (refine have ht : Keeps b t.1 := ?_; ?_; dsimp -zeta only [t]; rotate_left; clear_value t) | (refine have ht : ∀ x y, Keeps b y → Keeps b (t x y) := ?_; ?_; dsimp -zeta only [t]; rotate_left; clear_value t) | (refine have ht : ∀ y, Keeps b y → Keeps b (t y) := ?_; ?_; dsimp -zeta only [t]; rotate_left; clear_value t) | (refine have ht : Keeps b t.2.2 := ?_; ?_; dsimp -zeta only [t]; rotate_left; clear_value t) | (clear_value t) | skip)
    | split
    | (with_reducible refine keeps_snd (by assumption) ?_)
    | (dsimp -zeta only)
    | (with_reducible apply_assumption)

theorem leapEvaluate_keeps {b : State} {s : State} (h : Keeps b s) : Keeps b (leapEvaluate s) := by
  unfold leapEvaluate
  repeat' first
    | with_reducible assumption
    | with_reducible apply leapAccept_keeps
    | with_reducible apply leapCancel_keeps
    | with_reducible apply keeps_foldl
    | with_reducible apply keeps_ite
    | (simp -zeta only [keeps_mk]; with_reducible refine keeps_parts ?_)
    | (with_reducible refine fun _ _ t ht => ?_)
    | (with_reducible refine fun t x ht => ?_)
    | (with_reducible refine fun t ht => ?_)
    | (extract_lets +onlyGivenNames -underBinder t; first | (refine have ht : Keeps b t := ?_; ?_; dsimp -zeta only [t]; rotate_left; clear_value t) | (refine have ht : Keeps b t.2 := ?_; ?_; dsimp -zeta only [t]; rotate_left; clear_value t) | (refine have ht : Keeps b t.1 := ?_; ?_; dsimp -zeta only [t]; rotate_left; clear_value t) | (refine have ht : ∀ x y, Keeps b y → Keeps b (t x y) := ?_; ?_; dsimp -zeta only [t]; rotate_left; clear_value t) | (refine have ht : ∀ y, Keeps b y → Keeps b (t y) := ?_; ?_; dsimp -zeta only [t]; rotate_left; clear_value t) | (refine have ht : Keeps b t.2.2 := ?_; ?_; dsimp -zeta only [t]; rotate_left; clear_value t) | (clear_value t) | skip)
    | split
    | (with_reducible refine keeps_snd (by assumption) ?_)
    | (dsimp -zeta only)
    | (with_reducible apply_assumption)

theorem domctlWrite_keeps {b : State} (force : ℕ) (go : Bool) {s : State} (h : Keeps b s) : Keeps b (domctlWrite force go s) := by
  unfold domctlWrite
  repeat' first
    | with_reducible assumption
    | with_reducible apply State.set_keeps
    | with_reducible apply keeps_foldl
    | with_reducible apply keeps_ite
    | (simp -zeta only [keeps_mk]; with_reducible refine keeps_parts ?_)
    | (with_reducible refine fun _ _ t ht => ?_)
    | (with_reducible refine fun t x ht => ?_)
    | (with_reducible refine fun t ht => ?_)
    | (extract_lets +onlyGivenNames -underBinder t; first | (refine have ht : Keeps b t := ?_; ?_; dsimp -zeta only [t]; rotate_left; clear_value t) | (refine have ht : Keeps b t.2 := ?_; ?_; dsimp -zeta only [t]; rotate_left; clear_value t) | (refine have ht : Keeps b t.1 := ?_; ?_; dsimp -zeta only [t]; rotate_left; clear_value t) | (refine have ht : ∀ x y, Keeps b y → Keeps b (t x y) := ?_; ?_; dsimp -zeta only [t]; rotate_left; clear_value t) | (refine have ht : ∀ y, Keeps b y → Keeps b (t y) := ?_; ?_; dsimp -zeta only [t]; rotate_left; clear_value t) | (refine have ht : Keeps b t.2.2 := ?_; ?_; dsimp -zeta only [t]; rotate_left; clear_value t) | (clear_value t) | skip)
    | split
    | (with_reducible refine keeps_snd (by assumption) ?_)
    | (dsimp -zeta only)
    | (with_reducible apply_assumption)

theorem dropSlew_keeps {b : State} {s : State} (h : Keeps b s) : Keeps b (dropSlew s) := by
  unfold dropSlew
  repeat' first
    | with_reducible assumption
    | with_reducible apply applyRate_keeps
    | with_reducible apply keeps_foldl
    | with_reducible apply keeps_ite
    | (simp -zeta only [keeps_mk]; with_reducible refine keeps_parts ?_)
    | (with_reducible refine fun _ _ t ht => ?_)
    | (with_reducible refine fun t x ht => ?_)
    | (with_reducible refine fun t ht => ?_)
    | (extract_lets +onlyGivenNames -underBinder t; first | (refine have ht : Keeps b t := ?_; ?_; dsimp -zeta only [t]; rotate_left; clear_value t) | (refine have ht : Keeps b t.2 := ?_; ?_; dsimp -zeta only [t]; rotate_left; clear_value t) | (refine have ht : Keeps b t.1 := ?_; ?_; dsimp -zeta only [t]; rotate_left; clear_value t) | (refine have ht : ∀ x y, Keeps b y → Keeps b (t x y) := ?_; ?_; dsimp -zeta only [t]; rotate_left; clear_value t) | (refine have ht : ∀ y, Keeps b y → Keeps b (t y) := ?_; ?_; dsimp -zeta only [t]; rotate_left; clear_value t) | (refine have ht : Keeps b t.2.2 := ?_; ?_; dsimp -zeta only [t]; rotate_left; clear_value t) | (clear_value t) | skip)
    | split
    | (with_reducible refine keeps_snd (by assumption) ?_)
    | (dsimp -zeta only)
    | (with_reducible apply_assumption)

theorem handoffEnd_keeps {b : State} {s : State} (h : Keeps b s) : Keeps b (handoffEnd s) := by
  unfold handoffEnd
  repeat' first
    | with_reducible assumption
    | with_reducible apply record_keeps
    | with_reducible apply keeps_foldl
    | with_reducible apply keeps_ite
    | (simp -zeta only [keeps_mk]; with_reducible refine keeps_parts ?_)
    | (with_reducible refine fun _ _ t ht => ?_)
    | (with_reducible refine fun t x ht => ?_)
    | (with_reducible refine fun t ht => ?_)
    | (extract_lets +onlyGivenNames -underBinder t; first | (refine have ht : Keeps b t := ?_; ?_; dsimp -zeta only [t]; rotate_left; clear_value t) | (refine have ht : Keeps b t.2 := ?_; ?_; dsimp -zeta only [t]; rotate_left; clear_value t) | (refine have ht : Keeps b t.1 := ?_; ?_; dsimp -zeta only [t]; rotate_left; clear_value t) | (refine have ht : ∀ x y, Keeps b y → Keeps b (t x y) := ?_; ?_; dsimp -zeta only [t]; rotate_left; clear_value t) | (refine have ht : ∀ y, Keeps b y → Keeps b (t y) := ?_; ?_; dsimp -zeta only [t]; rotate_left; clear_value t) | (refine have ht : Keeps b t.2.2 := ?_; ?_; dsimp -zeta only [t]; rotate_left; clear_value t) | (clear_value t) | skip)
    | split
    | (with_reducible refine keeps_snd (by assumption) ?_)
    | (dsimp -zeta only)
    | (with_reducible apply_assumption)

theorem slewEnd_keeps {b : State} {s : State} (h : Keeps b s) : Keeps b (slewEnd s) := by
  unfold slewEnd
  repeat' first
    | with_reducible assumption
    | with_reducible apply handoffEnd_keeps
    | with_reducible apply dropSlew_keeps
    | with_reducible apply State.set_keeps
    | with_reducible apply datumGoto_keeps
    | with_reducible apply keeps_foldl
    | with_reducible apply keeps_ite
    | (simp -zeta only [keeps_mk]; with_reducible refine keeps_parts ?_)
    | (with_reducible refine fun _ _ t ht => ?_)
    | (with_reducible refine fun t x ht => ?_)
    | (with_reducible refine fun t ht => ?_)
    | (extract_lets +onlyGivenNames -underBinder t; first | (refine have ht : Keeps b t := ?_; ?_; dsimp -zeta only [t]; rotate_left; clear_value t) | (refine have ht : Keeps b t.2 := ?_; ?_; dsimp -zeta only [t]; rotate_left; clear_value t) | (refine have ht : Keeps b t.1 := ?_; ?_; dsimp -zeta only [t]; rotate_left; clear_value t) | (refine have ht : ∀ x y, Keeps b y → Keeps b (t x y) := ?_; ?_; dsimp -zeta only [t]; rotate_left; clear_value t) | (refine have ht : ∀ y, Keeps b y → Keeps b (t y) := ?_; ?_; dsimp -zeta only [t]; rotate_left; clear_value t) | (refine have ht : Keeps b t.2.2 := ?_; ?_; dsimp -zeta only [t]; rotate_left; clear_value t) | (clear_value t) | skip)
    | split
    | (with_reducible refine keeps_snd (by assumption) ?_)
    | (dsimp -zeta only)
    | (with_reducible apply_assumption)

theorem execSlewComplete_keeps {b t : State} {s : State} (e : execSlewComplete s = .next t) (h : Keeps b s) : Keeps b t := by
  unfold execSlewComplete at e; cases e
  repeat' first
    | with_reducible assumption
    | with_reducible apply slewEnd_keeps
    | with_reducible apply keeps_foldl
    | with_reducible apply keeps_ite
    | (simp -zeta only [keeps_mk]; with_reducible refine keeps_parts ?_)
    | (with_reducible refine fun _ _ t ht => ?_)
    | (with_reducible refine fun t x ht => ?_)
    | (with_reducible refine fun t ht => ?_)
    | (extract_lets +onlyGivenNames -underBinder t; first | (refine have ht : Keeps b t := ?_; ?_; dsimp -zeta only [t]; rotate_left; clear_value t) | (refine have ht : Keeps b t.2 := ?_; ?_; dsimp -zeta only [t]; rotate_left; clear_value t) | (refine have ht : Keeps b t.1 := ?_; ?_; dsimp -zeta only [t]; rotate_left; clear_value t) | (refine have ht : ∀ x y, Keeps b y → Keeps b (t x y) := ?_; ?_; dsimp -zeta only [t]; rotate_left; clear_value t) | (refine have ht : ∀ y, Keeps b y → Keeps b (t y) := ?_; ?_; dsimp -zeta only [t]; rotate_left; clear_value t) | (refine have ht : Keeps b t.2.2 := ?_; ?_; dsimp -zeta only [t]; rotate_left; clear_value t) | (clear_value t) | skip)
    | split
    | (with_reducible refine keeps_snd (by assumption) ?_)
    | (dsimp -zeta only)
    | (with_reducible apply_assumption)

theorem execDomainSplit_keeps {b t : State} {s : State} (e : execDomainSplit s = .next t) (h : Keeps b s) : Keeps b t := by
  unfold execDomainSplit at e; cases e
  repeat' first
    | with_reducible assumption
    | with_reducible apply record_keeps
    | with_reducible apply alarmRaise_keeps
    | with_reducible apply irqSet_keeps
    | with_reducible apply State.set_keeps
    | with_reducible apply keeps_foldl
    | with_reducible apply keeps_ite
    | (simp -zeta only [keeps_mk]; with_reducible refine keeps_parts ?_)
    | (with_reducible refine fun _ _ t ht => ?_)
    | (with_reducible refine fun t x ht => ?_)
    | (with_reducible refine fun t ht => ?_)
    | (extract_lets +onlyGivenNames -underBinder t; first | (refine have ht : Keeps b t := ?_; ?_; dsimp -zeta only [t]; rotate_left; clear_value t) | (refine have ht : Keeps b t.2 := ?_; ?_; dsimp -zeta only [t]; rotate_left; clear_value t) | (refine have ht : Keeps b t.1 := ?_; ?_; dsimp -zeta only [t]; rotate_left; clear_value t) | (refine have ht : ∀ x y, Keeps b y → Keeps b (t x y) := ?_; ?_; dsimp -zeta only [t]; rotate_left; clear_value t) | (refine have ht : ∀ y, Keeps b y → Keeps b (t y) := ?_; ?_; dsimp -zeta only [t]; rotate_left; clear_value t) | (refine have ht : Keeps b t.2.2 := ?_; ?_; dsimp -zeta only [t]; rotate_left; clear_value t) | (clear_value t) | skip)
    | split
    | (with_reducible refine keeps_snd (by assumption) ?_)
    | (dsimp -zeta only)
    | (with_reducible apply_assumption)

theorem execDtmVote_keeps {b t : State} (copy : Fin 3) {s : State} (e : execDtmVote copy s = .next t) (h : Keeps b s) : Keeps b t := by
  unfold execDtmVote at e; cases e
  repeat' first
    | with_reducible assumption
    | with_reducible apply faultSend_keeps
    | with_reducible apply pmcEvent_keeps
    | with_reducible apply irqSet_keeps
    | with_reducible apply State.addSat_keeps
    | with_reducible apply keeps_foldl
    | with_reducible apply keeps_ite
    | (simp -zeta only [keeps_mk]; with_reducible refine keeps_parts ?_)
    | (with_reducible refine fun _ _ t ht => ?_)
    | (with_reducible refine fun t x ht => ?_)
    | (with_reducible refine fun t ht => ?_)
    | (extract_lets +onlyGivenNames -underBinder t; first | (refine have ht : Keeps b t := ?_; ?_; dsimp -zeta only [t]; rotate_left; clear_value t) | (refine have ht : Keeps b t.2 := ?_; ?_; dsimp -zeta only [t]; rotate_left; clear_value t) | (refine have ht : Keeps b t.1 := ?_; ?_; dsimp -zeta only [t]; rotate_left; clear_value t) | (refine have ht : ∀ x y, Keeps b y → Keeps b (t x y) := ?_; ?_; dsimp -zeta only [t]; rotate_left; clear_value t) | (refine have ht : ∀ y, Keeps b y → Keeps b (t y) := ?_; ?_; dsimp -zeta only [t]; rotate_left; clear_value t) | (refine have ht : Keeps b t.2.2 := ?_; ?_; dsimp -zeta only [t]; rotate_left; clear_value t) | (clear_value t) | skip)
    | split
    | (with_reducible refine keeps_snd (by assumption) ?_)
    | (dsimp -zeta only)
    | (with_reducible apply_assumption)

theorem leapApply_keeps {b : State} {s : State} (h : Keeps b s) : Keeps b (leapApply s) := by
  unfold leapApply
  repeat' first
    | with_reducible assumption
    | with_reducible apply noteLeap_keeps
    | with_reducible apply State.set_keeps
    | with_reducible apply State.setI_keeps
    | with_reducible apply record_keeps
    | with_reducible apply irqSet_keeps
    | with_reducible apply keeps_foldl
    | with_reducible apply keeps_ite
    | (simp -zeta only [keeps_mk]; with_reducible refine keeps_parts ?_)
    | (with_reducible refine fun _ _ t ht => ?_)
    | (with_reducible refine fun t x ht => ?_)
    | (with_reducible refine fun t ht => ?_)
    | (extract_lets +onlyGivenNames -underBinder t; first | (refine have ht : Keeps b t := ?_; ?_; dsimp -zeta only [t]; rotate_left; clear_value t) | (refine have ht : Keeps b t.2 := ?_; ?_; dsimp -zeta only [t]; rotate_left; clear_value t) | (refine have ht : Keeps b t.1 := ?_; ?_; dsimp -zeta only [t]; rotate_left; clear_value t) | (refine have ht : ∀ x y, Keeps b y → Keeps b (t x y) := ?_; ?_; dsimp -zeta only [t]; rotate_left; clear_value t) | (refine have ht : ∀ y, Keeps b y → Keeps b (t y) := ?_; ?_; dsimp -zeta only [t]; rotate_left; clear_value t) | (refine have ht : Keeps b t.2.2 := ?_; ?_; dsimp -zeta only [t]; rotate_left; clear_value t) | (clear_value t) | skip)
    | split
    | (with_reducible refine keeps_snd (by assumption) ?_)
    | (dsimp -zeta only)
    | (with_reducible apply_assumption)

theorem execLeapApplied_keeps {b t : State} {s : State} (e : execLeapApplied s = .next t) (h : Keeps b s) : Keeps b t := by
  unfold execLeapApplied at e; cases e
  repeat' first
    | with_reducible assumption
    | with_reducible apply leapEvaluate_keeps
    | with_reducible apply leapApply_keeps
    | with_reducible apply keeps_foldl
    | with_reducible apply keeps_ite
    | (simp -zeta only [keeps_mk]; with_reducible refine keeps_parts ?_)
    | (with_reducible refine fun _ _ t ht => ?_)
    | (with_reducible refine fun t x ht => ?_)
    | (with_reducible refine fun t ht => ?_)
    | (extract_lets +onlyGivenNames -underBinder t; first | (refine have ht : Keeps b t := ?_; ?_; dsimp -zeta only [t]; rotate_left; clear_value t) | (refine have ht : Keeps b t.2 := ?_; ?_; dsimp -zeta only [t]; rotate_left; clear_value t) | (refine have ht : Keeps b t.1 := ?_; ?_; dsimp -zeta only [t]; rotate_left; clear_value t) | (refine have ht : ∀ x y, Keeps b y → Keeps b (t x y) := ?_; ?_; dsimp -zeta only [t]; rotate_left; clear_value t) | (refine have ht : ∀ y, Keeps b y → Keeps b (t y) := ?_; ?_; dsimp -zeta only [t]; rotate_left; clear_value t) | (refine have ht : Keeps b t.2.2 := ?_; ?_; dsimp -zeta only [t]; rotate_left; clear_value t) | (clear_value t) | skip)
    | split
    | (with_reducible refine keeps_snd (by assumption) ?_)
    | (dsimp -zeta only)
    | (with_reducible apply_assumption)

theorem execUtcOffsetChange_keeps {b t : State} {s : State} (e : execUtcOffsetChange s = .next t) (h : Keeps b s) : Keeps b t := by
  unfold execUtcOffsetChange at e; cases e
  repeat' first
    | with_reducible assumption
    | with_reducible apply utcChange_keeps
    | with_reducible apply State.set_keeps
    | with_reducible apply keeps_foldl
    | with_reducible apply keeps_ite
    | (simp -zeta only [keeps_mk]; with_reducible refine keeps_parts ?_)
    | (with_reducible refine fun _ _ t ht => ?_)
    | (with_reducible refine fun t x ht => ?_)
    | (with_reducible refine fun t ht => ?_)
    | (extract_lets +onlyGivenNames -underBinder t; first | (refine have ht : Keeps b t := ?_; ?_; dsimp -zeta only [t]; rotate_left; clear_value t) | (refine have ht : Keeps b t.2 := ?_; ?_; dsimp -zeta only [t]; rotate_left; clear_value t) | (refine have ht : Keeps b t.1 := ?_; ?_; dsimp -zeta only [t]; rotate_left; clear_value t) | (refine have ht : ∀ x y, Keeps b y → Keeps b (t x y) := ?_; ?_; dsimp -zeta only [t]; rotate_left; clear_value t) | (refine have ht : ∀ y, Keeps b y → Keeps b (t y) := ?_; ?_; dsimp -zeta only [t]; rotate_left; clear_value t) | (refine have ht : Keeps b t.2.2 := ?_; ?_; dsimp -zeta only [t]; rotate_left; clear_value t) | (clear_value t) | skip)
    | split
    | (with_reducible refine keeps_snd (by assumption) ?_)
    | (dsimp -zeta only)
    | (with_reducible apply_assumption)

theorem execUtcDisagree_keeps {b t : State} {s : State} (e : execUtcDisagree s = .next t) (h : Keeps b s) : Keeps b t := by
  unfold execUtcDisagree at e; cases e
  repeat' first
    | with_reducible assumption
    | with_reducible apply record_keeps
    | with_reducible apply alarmRaise_keeps
    | with_reducible apply irqSet_keeps
    | with_reducible apply keeps_foldl
    | with_reducible apply keeps_ite
    | (simp -zeta only [keeps_mk]; with_reducible refine keeps_parts ?_)
    | (with_reducible refine fun _ _ t ht => ?_)
    | (with_reducible refine fun t x ht => ?_)
    | (with_reducible refine fun t ht => ?_)
    | (extract_lets +onlyGivenNames -underBinder t; first | (refine have ht : Keeps b t := ?_; ?_; dsimp -zeta only [t]; rotate_left; clear_value t) | (refine have ht : Keeps b t.2 := ?_; ?_; dsimp -zeta only [t]; rotate_left; clear_value t) | (refine have ht : Keeps b t.1 := ?_; ?_; dsimp -zeta only [t]; rotate_left; clear_value t) | (refine have ht : ∀ x y, Keeps b y → Keeps b (t x y) := ?_; ?_; dsimp -zeta only [t]; rotate_left; clear_value t) | (refine have ht : ∀ y, Keeps b y → Keeps b (t y) := ?_; ?_; dsimp -zeta only [t]; rotate_left; clear_value t) | (refine have ht : Keeps b t.2.2 := ?_; ?_; dsimp -zeta only [t]; rotate_left; clear_value t) | (clear_value t) | skip)
    | split
    | (with_reducible refine keeps_snd (by assumption) ?_)
    | (dsimp -zeta only)
    | (with_reducible apply_assumption)

end Sys2Proof.Machine
end

