-- ==== Sys2Proof/Laws/KeepRegister.lean ====
section
/-! SUPPORT. The operations of Machine/Register.lean keep the queue and the canonical forms. -/
namespace Sys2Proof.Machine
set_option linter.unusedTactic false
set_option linter.unreachableTactic false

theorem State.setLatches_keeps {b : State} {s : State} (p : Sys2Proof.Path) (m : Sys2Proof.Machine.Map Sys2Proof.Word) (h : Keeps b s) : Keeps b (State.setLatches s p m) := by
  unfold State.setLatches
  repeat' first
    | with_reducible assumption
    | with_reducible apply keeps_foldl
    | with_reducible apply keeps_ite
    | (simp -zeta only [keeps_mk]; with_reducible refine keeps_parts ?_)
    | (with_reducible refine fun _ _ t ht => ?_)
    | (with_reducible refine fun t x ht => ?_)
    | (with_reducible refine fun t ht => ?_)
    | (extract_lets +onlyGivenNames -underBinder t; first | (refine have ht : Keeps b t := ?_; ?_; dsimp -zeta only [t]; rotate_left; clear_value t) | (refine have ht : Keeps b t.2 := ?_; ?_; dsimp -zeta only [t]; rotate_left; clear_value t) | (refine have ht : Keeps b t.1 := ?_; ?_; dsimp -zeta only [t]; rotate_left; clear_value t) | (refine have ht : ∀ x y, Keeps b y → Keeps b (t x y) := ?_; ?_; dsimp -zeta only [t]; rotate_left; clear_value t) | (refine have ht : ∀ y, Keeps b y → Keeps b (t y) := ?_; ?_; dsimp -zeta only [t]; rotate_left; clear_value t) | (refine have ht : Keeps b t.2.2 := ?_; ?_; dsimp -zeta only [t]; rotate_left; clear_value t) | (clear_value t) | skip)
    | split
    | (with_reducible refine keeps_snd (by assumption) ?_)
    | (dsimp -zeta only)
    | (with_reducible apply_assumption)

theorem latchWords_keeps {b : State} (p : Sys2Proof.Path) (r : Sys2Proof.Machine.RegRow) (a : ℕ) {s : State} (h : Keeps b s) : Keeps b (latchWords p r a s) := by
  unfold latchWords
  repeat' first
    | with_reducible assumption
    | with_reducible apply State.setLatches_keeps
    | with_reducible apply keeps_foldl
    | with_reducible apply keeps_ite
    | (simp -zeta only [keeps_mk]; with_reducible refine keeps_parts ?_)
    | (with_reducible refine fun _ _ t ht => ?_)
    | (with_reducible refine fun t x ht => ?_)
    | (with_reducible refine fun t ht => ?_)
    | (extract_lets +onlyGivenNames -underBinder t; first | (refine have ht : Keeps b t := ?_; ?_; dsimp -zeta only [t]; rotate_left; clear_value t) | (refine have ht : Keeps b t.2 := ?_; ?_; dsimp -zeta only [t]; rotate_left; clear_value t) | (refine have ht : Keeps b t.1 := ?_; ?_; dsimp -zeta only [t]; rotate_left; clear_value t) | (refine have ht : ∀ x y, Keeps b y → Keeps b (t x y) := ?_; ?_; dsimp -zeta only [t]; rotate_left; clear_value t) | (refine have ht : ∀ y, Keeps b y → Keeps b (t y) := ?_; ?_; dsimp -zeta only [t]; rotate_left; clear_value t) | (refine have ht : Keeps b t.2.2 := ?_; ?_; dsimp -zeta only [t]; rotate_left; clear_value t) | (clear_value t) | skip)
    | split
    | (with_reducible refine keeps_snd (by assumption) ?_)
    | (dsimp -zeta only)
    | (with_reducible apply_assumption)

theorem readPrepare_keeps {b : State} (a : ℕ) {s : State} (h : Keeps b s) : Keeps b (readPrepare a s) := by
  unfold readPrepare
  repeat' first
    | with_reducible assumption
    | with_reducible apply resLatch_keeps
    | with_reducible apply keeps_foldl
    | with_reducible apply keeps_ite
    | (simp -zeta only [keeps_mk]; with_reducible refine keeps_parts ?_)
    | (with_reducible refine fun _ _ t ht => ?_)
    | (with_reducible refine fun t x ht => ?_)
    | (with_reducible refine fun t ht => ?_)
    | (extract_lets +onlyGivenNames -underBinder t; first | (refine have ht : Keeps b t := ?_; ?_; dsimp -zeta only [t]; rotate_left; clear_value t) | (refine have ht : Keeps b t.2 := ?_; ?_; dsimp -zeta only [t]; rotate_left; clear_value t) | (refine have ht : Keeps b t.1 := ?_; ?_; dsimp -zeta only [t]; rotate_left; clear_value t) | (refine have ht : ∀ x y, Keeps b y → Keeps b (t x y) := ?_; ?_; dsimp -zeta only [t]; rotate_left; clear_value t) | (refine have ht : ∀ y, Keeps b y → Keeps b (t y) := ?_; ?_; dsimp -zeta only [t]; rotate_left; clear_value t) | (refine have ht : Keeps b t.2.2 := ?_; ?_; dsimp -zeta only [t]; rotate_left; clear_value t) | (clear_value t) | skip)
    | split
    | (with_reducible refine keeps_snd (by assumption) ?_)
    | (dsimp -zeta only)
    | (with_reducible apply_assumption)

theorem readEffect_keeps {b : State} (p : Sys2Proof.Path) (a : ℕ) {s : State} (h : Keeps b s) : Keeps b (readEffect p a s) := by
  unfold readEffect
  repeat' first
    | with_reducible assumption
    | with_reducible apply latchWords_keeps
    | with_reducible apply State.wr_keeps
    | with_reducible apply keeps_foldl
    | with_reducible apply keeps_ite
    | (simp -zeta only [keeps_mk]; with_reducible refine keeps_parts ?_)
    | (with_reducible refine fun _ _ t ht => ?_)
    | (with_reducible refine fun t x ht => ?_)
    | (with_reducible refine fun t ht => ?_)
    | (extract_lets +onlyGivenNames -underBinder t; first | (refine have ht : Keeps b t := ?_; ?_; dsimp -zeta only [t]; rotate_left; clear_value t) | (refine have ht : Keeps b t.2 := ?_; ?_; dsimp -zeta only [t]; rotate_left; clear_value t) | (refine have ht : Keeps b t.1 := ?_; ?_; dsimp -zeta only [t]; rotate_left; clear_value t) | (refine have ht : ∀ x y, Keeps b y → Keeps b (t x y) := ?_; ?_; dsimp -zeta only [t]; rotate_left; clear_value t) | (refine have ht : ∀ y, Keeps b y → Keeps b (t y) := ?_; ?_; dsimp -zeta only [t]; rotate_left; clear_value t) | (refine have ht : Keeps b t.2.2 := ?_; ?_; dsimp -zeta only [t]; rotate_left; clear_value t) | (clear_value t) | skip)
    | split
    | (with_reducible refine keeps_snd (by assumption) ?_)
    | (dsimp -zeta only)
    | (with_reducible apply_assumption)

theorem countAccess_keeps {b : State} (p : Sys2Proof.Path) {s : State} (h : Keeps b s) : Keeps b (countAccess p s) := by
  unfold countAccess
  repeat' first
    | with_reducible assumption
    | with_reducible apply pmcEvent_keeps
    | with_reducible apply keeps_foldl
    | with_reducible apply keeps_ite
    | (simp -zeta only [keeps_mk]; with_reducible refine keeps_parts ?_)
    | (with_reducible refine fun _ _ t ht => ?_)
    | (with_reducible refine fun t x ht => ?_)
    | (with_reducible refine fun t ht => ?_)
    | (extract_lets +onlyGivenNames -underBinder t; first | (refine have ht : Keeps b t := ?_; ?_; dsimp -zeta only [t]; rotate_left; clear_value t) | (refine have ht : Keeps b t.2 := ?_; ?_; dsimp -zeta only [t]; rotate_left; clear_value t) | (refine have ht : Keeps b t.1 := ?_; ?_; dsimp -zeta only [t]; rotate_left; clear_value t) | (refine have ht : ∀ x y, Keeps b y → Keeps b (t x y) := ?_; ?_; dsimp -zeta only [t]; rotate_left; clear_value t) | (refine have ht : ∀ y, Keeps b y → Keeps b (t y) := ?_; ?_; dsimp -zeta only [t]; rotate_left; clear_value t) | (refine have ht : Keeps b t.2.2 := ?_; ?_; dsimp -zeta only [t]; rotate_left; clear_value t) | (clear_value t) | skip)
    | split
    | (with_reducible refine keeps_snd (by assumption) ?_)
    | (dsimp -zeta only)
    | (with_reducible apply_assumption)

theorem hostRead_keeps {b : State} (p : Sys2Proof.Path) (a : ℕ) {s : State} (h : Keeps b s) : Keeps b (hostRead p a s).2 := by
  unfold hostRead
  repeat' first
    | with_reducible assumption
    | with_reducible apply readPrepare_keeps
    | with_reducible apply countAccess_keeps
    | with_reducible apply readEffect_keeps
    | with_reducible apply keeps_foldl
    | with_reducible apply keeps_ite
    | (simp -zeta only [keeps_mk]; with_reducible refine keeps_parts ?_)
    | (with_reducible refine fun _ _ t ht => ?_)
    | (with_reducible refine fun t x ht => ?_)
    | (with_reducible refine fun t ht => ?_)
    | (extract_lets +onlyGivenNames -underBinder t; first | (refine have ht : Keeps b t := ?_; ?_; dsimp -zeta only [t]; rotate_left; clear_value t) | (refine have ht : Keeps b t.2 := ?_; ?_; dsimp -zeta only [t]; rotate_left; clear_value t) | (refine have ht : Keeps b t.1 := ?_; ?_; dsimp -zeta only [t]; rotate_left; clear_value t) | (refine have ht : ∀ x y, Keeps b y → Keeps b (t x y) := ?_; ?_; dsimp -zeta only [t]; rotate_left; clear_value t) | (refine have ht : ∀ y, Keeps b y → Keeps b (t y) := ?_; ?_; dsimp -zeta only [t]; rotate_left; clear_value t) | (refine have ht : Keeps b t.2.2 := ?_; ?_; dsimp -zeta only [t]; rotate_left; clear_value t) | (clear_value t) | skip)
    | split
    | (with_reducible refine keeps_snd (by assumption) ?_)
    | (dsimp -zeta only)
    | (with_reducible apply_assumption)

theorem msixWrite_keeps {b : State} (a : ℕ) (v : Sys2Proof.Word) {s : State} (h : Keeps b s) : Keeps b (msixWrite a v s) := by
  unfold msixWrite
  repeat' first
    | with_reducible assumption
    | with_reducible apply signalVector_keeps
    | with_reducible apply keeps_foldl
    | with_reducible apply keeps_ite
    | (simp -zeta only [keeps_mk]; with_reducible refine keeps_parts ?_)
    | (with_reducible refine fun _ _ t ht => ?_)
    | (with_reducible refine fun t x ht => ?_)
    | (with_reducible refine fun t ht => ?_)
    | (extract_lets +onlyGivenNames -underBinder t; first | (refine have ht : Keeps b t := ?_; ?_; dsimp -zeta only [t]; rotate_left; clear_value t) | (refine have ht : Keeps b t.2 := ?_; ?_; dsimp -zeta only [t]; rotate_left; clear_value t) | (refine have ht : Keeps b t.1 := ?_; ?_; dsimp -zeta only [t]; rotate_left; clear_value t) | (refine have ht : ∀ x y, Keeps b y → Keeps b (t x y) := ?_; ?_; dsimp -zeta only [t]; rotate_left; clear_value t) | (refine have ht : ∀ y, Keeps b y → Keeps b (t y) := ?_; ?_; dsimp -zeta only [t]; rotate_left; clear_value t) | (refine have ht : Keeps b t.2.2 := ?_; ?_; dsimp -zeta only [t]; rotate_left; clear_value t) | (clear_value t) | skip)
    | split
    | (with_reducible refine keeps_snd (by assumption) ?_)
    | (dsimp -zeta only)
    | (with_reducible apply_assumption)

theorem withAllGroups_keeps {b : State} (f : Sys2Proof.Machine.State → Sys2Proof.Machine.State) {s : State} (hf : ∀ t, Keeps b t → Keeps b (f t)) (h : Keeps b s) : Keeps b (withAllGroups f s) := by
  unfold withAllGroups
  repeat' first
    | with_reducible assumption
    | with_reducible apply signalVector_keeps
    | with_reducible apply hf
    | with_reducible apply keeps_foldl
    | with_reducible apply keeps_ite
    | (simp -zeta only [keeps_mk]; with_reducible refine keeps_parts ?_)
    | (with_reducible refine fun _ _ t ht => ?_)
    | (with_reducible refine fun t x ht => ?_)
    | (with_reducible refine fun t ht => ?_)
    | (extract_lets +onlyGivenNames -underBinder t; first | (refine have ht : Keeps b t := ?_; ?_; dsimp -zeta only [t]; rotate_left; clear_value t) | (refine have ht : Keeps b t.2 := ?_; ?_; dsimp -zeta only [t]; rotate_left; clear_value t) | (refine have ht : Keeps b t.1 := ?_; ?_; dsimp -zeta only [t]; rotate_left; clear_value t) | (refine have ht : ∀ x y, Keeps b y → Keeps b (t x y) := ?_; ?_; dsimp -zeta only [t]; rotate_left; clear_value t) | (refine have ht : ∀ y, Keeps b y → Keeps b (t y) := ?_; ?_; dsimp -zeta only [t]; rotate_left; clear_value t) | (refine have ht : Keeps b t.2.2 := ?_; ?_; dsimp -zeta only [t]; rotate_left; clear_value t) | (clear_value t) | skip)
    | split
    | (with_reducible refine keeps_snd (by assumption) ?_)
    | (dsimp -zeta only)
    | (with_reducible apply_assumption)

theorem plainWrite_keeps {b : State} (a : ℕ) (v : Sys2Proof.Word) {s : State} (h : Keeps b s) : Keeps b (plainWrite a v s) := by
  unfold plainWrite
  repeat' first
    | with_reducible assumption
    | with_reducible apply withAllGroups_keeps
    | with_reducible apply regWrite_keeps
    | with_reducible apply keeps_foldl
    | with_reducible apply keeps_ite
    | (simp -zeta only [keeps_mk]; with_reducible refine keeps_parts ?_)
    | (with_reducible refine fun _ _ t ht => ?_)
    | (with_reducible refine fun t x ht => ?_)
    | (with_reducible refine fun t ht => ?_)
    | (extract_lets +onlyGivenNames -underBinder t; first | (refine have ht : Keeps b t := ?_; ?_; dsimp -zeta only [t]; rotate_left; clear_value t) | (refine have ht : Keeps b t.2 := ?_; ?_; dsimp -zeta only [t]; rotate_left; clear_value t) | (refine have ht : Keeps b t.1 := ?_; ?_; dsimp -zeta only [t]; rotate_left; clear_value t) | (refine have ht : ∀ x y, Keeps b y → Keeps b (t x y) := ?_; ?_; dsimp -zeta only [t]; rotate_left; clear_value t) | (refine have ht : ∀ y, Keeps b y → Keeps b (t y) := ?_; ?_; dsimp -zeta only [t]; rotate_left; clear_value t) | (refine have ht : Keeps b t.2.2 := ?_; ?_; dsimp -zeta only [t]; rotate_left; clear_value t) | (clear_value t) | skip)
    | split
    | (with_reducible refine keeps_snd (by assumption) ?_)
    | (dsimp -zeta only)
    | (with_reducible apply_assumption)

theorem livelockWrite_keeps {b : State} (v : Word) {s : State} (h : Keeps b s) : Keeps b (livelockWrite v s) := by
  unfold livelockWrite
  split
  · exact h
  · exact keeps_parts (s := s.wr A.SYS_LIVELOCK (v &&& 0x80007FFF)) (State.wr_keeps _ _ h)

theorem latchWrite_keeps {b : State} (v : Sys2Proof.Word) {s : State} (h : Keeps b s) : Keeps b (latchWrite v s) := by
  unfold latchWrite
  repeat' first
    | with_reducible assumption
    | with_reducible apply regWrite_keeps
    | with_reducible apply alarmClear_keeps
    | with_reducible apply keeps_foldl
    | with_reducible apply keeps_ite
    | (simp -zeta only [keeps_mk]; with_reducible refine keeps_parts ?_)
    | (with_reducible refine fun _ _ t ht => ?_)
    | (with_reducible refine fun t x ht => ?_)
    | (with_reducible refine fun t ht => ?_)
    | (extract_lets +onlyGivenNames -underBinder t; first | (refine have ht : Keeps b t := ?_; ?_; dsimp -zeta only [t]; rotate_left; clear_value t) | (refine have ht : Keeps b t.2 := ?_; ?_; dsimp -zeta only [t]; rotate_left; clear_value t) | (refine have ht : Keeps b t.1 := ?_; ?_; dsimp -zeta only [t]; rotate_left; clear_value t) | (refine have ht : ∀ x y, Keeps b y → Keeps b (t x y) := ?_; ?_; dsimp -zeta only [t]; rotate_left; clear_value t) | (refine have ht : ∀ y, Keeps b y → Keeps b (t y) := ?_; ?_; dsimp -zeta only [t]; rotate_left; clear_value t) | (refine have ht : Keeps b t.2.2 := ?_; ?_; dsimp -zeta only [t]; rotate_left; clear_value t) | (clear_value t) | skip)
    | split
    | (with_reducible refine keeps_snd (by assumption) ?_)
    | (dsimp -zeta only)
    | (with_reducible apply_assumption)

theorem ringAddrCommit_keeps {b : State} (p : Sys2Proof.Path) (r : ℕ) (a : ℕ) (v : Sys2Proof.Word) {s : State} (h : Keeps b s) : Keeps b (ringAddrCommit p r a v s) := by
  unfold ringAddrCommit
  repeat' first
    | with_reducible assumption
    | with_reducible apply dropCopies_keeps
    | with_reducible apply regWrite_keeps
    | with_reducible apply keeps_foldl
    | with_reducible apply keeps_ite
    | (simp -zeta only [keeps_mk]; with_reducible refine keeps_parts ?_)
    | (with_reducible refine fun _ _ t ht => ?_)
    | (with_reducible refine fun t x ht => ?_)
    | (with_reducible refine fun t ht => ?_)
    | (extract_lets +onlyGivenNames -underBinder t; first | (refine have ht : Keeps b t := ?_; ?_; dsimp -zeta only [t]; rotate_left; clear_value t) | (refine have ht : Keeps b t.2 := ?_; ?_; dsimp -zeta only [t]; rotate_left; clear_value t) | (refine have ht : Keeps b t.1 := ?_; ?_; dsimp -zeta only [t]; rotate_left; clear_value t) | (refine have ht : ∀ x y, Keeps b y → Keeps b (t x y) := ?_; ?_; dsimp -zeta only [t]; rotate_left; clear_value t) | (refine have ht : ∀ y, Keeps b y → Keeps b (t y) := ?_; ?_; dsimp -zeta only [t]; rotate_left; clear_value t) | (refine have ht : Keeps b t.2.2 := ?_; ?_; dsimp -zeta only [t]; rotate_left; clear_value t) | (clear_value t) | skip)
    | split
    | (with_reducible refine keeps_snd (by assumption) ?_)
    | (dsimp -zeta only)
    | (with_reducible apply_assumption)

theorem ringPlain_keeps {b : State} (r : ℕ) (off : ℕ) (a : ℕ) (v : Sys2Proof.Word) {s : State} (h : Keeps b s) : Keeps b (ringPlain r off a v s) := by
  unfold ringPlain
  repeat' first
    | with_reducible assumption
    | with_reducible apply regWrite_keeps
    | with_reducible apply ringCheck_keeps
    | with_reducible apply keeps_foldl
    | with_reducible apply keeps_ite
    | (simp -zeta only [keeps_mk]; with_reducible refine keeps_parts ?_)
    | (with_reducible refine fun _ _ t ht => ?_)
    | (with_reducible refine fun t x ht => ?_)
    | (with_reducible refine fun t ht => ?_)
    | (extract_lets +onlyGivenNames -underBinder t; first | (refine have ht : Keeps b t := ?_; ?_; dsimp -zeta only [t]; rotate_left; clear_value t) | (refine have ht : Keeps b t.2 := ?_; ?_; dsimp -zeta only [t]; rotate_left; clear_value t) | (refine have ht : Keeps b t.1 := ?_; ?_; dsimp -zeta only [t]; rotate_left; clear_value t) | (refine have ht : ∀ x y, Keeps b y → Keeps b (t x y) := ?_; ?_; dsimp -zeta only [t]; rotate_left; clear_value t) | (refine have ht : ∀ y, Keeps b y → Keeps b (t y) := ?_; ?_; dsimp -zeta only [t]; rotate_left; clear_value t) | (refine have ht : Keeps b t.2.2 := ?_; ?_; dsimp -zeta only [t]; rotate_left; clear_value t) | (clear_value t) | skip)
    | split
    | (with_reducible refine keeps_snd (by assumption) ?_)
    | (dsimp -zeta only)
    | (with_reducible apply_assumption)

theorem ringWrite_keeps {b : State} (p : Sys2Proof.Path) (a : ℕ) (v : Sys2Proof.Word) {s : State} (h : Keeps b s) : Keeps b (ringWrite p a v s) := by
  unfold ringWrite
  repeat' first
    | with_reducible assumption
    | with_reducible apply ringAddrCommit_keeps
    | with_reducible apply ringCfgWrite_keeps
    | with_reducible apply ringTailWrite_keeps
    | with_reducible apply ringPlain_keeps
    | with_reducible apply keeps_foldl
    | with_reducible apply keeps_ite
    | (simp -zeta only [keeps_mk]; with_reducible refine keeps_parts ?_)
    | (with_reducible refine fun _ _ t ht => ?_)
    | (with_reducible refine fun t x ht => ?_)
    | (with_reducible refine fun t ht => ?_)
    | (extract_lets +onlyGivenNames -underBinder t; first | (refine have ht : Keeps b t := ?_; ?_; dsimp -zeta only [t]; rotate_left; clear_value t) | (refine have ht : Keeps b t.2 := ?_; ?_; dsimp -zeta only [t]; rotate_left; clear_value t) | (refine have ht : Keeps b t.1 := ?_; ?_; dsimp -zeta only [t]; rotate_left; clear_value t) | (refine have ht : ∀ x y, Keeps b y → Keeps b (t x y) := ?_; ?_; dsimp -zeta only [t]; rotate_left; clear_value t) | (refine have ht : ∀ y, Keeps b y → Keeps b (t y) := ?_; ?_; dsimp -zeta only [t]; rotate_left; clear_value t) | (refine have ht : Keeps b t.2.2 := ?_; ?_; dsimp -zeta only [t]; rotate_left; clear_value t) | (clear_value t) | skip)
    | split
    | (with_reducible refine keeps_snd (by assumption) ?_)
    | (dsimp -zeta only)
    | (with_reducible apply_assumption)

theorem pmcCtlWrite_keeps {b : State} (v : Sys2Proof.Word) {s : State} (h : Keeps b s) : Keeps b (pmcCtlWrite v s) := by
  unfold pmcCtlWrite
  repeat' first
    | with_reducible assumption
    | with_reducible apply snapshot_keeps
    | with_reducible apply clearAll_keeps
    | with_reducible apply keeps_foldl
    | with_reducible apply keeps_ite
    | (simp -zeta only [keeps_mk]; with_reducible refine keeps_parts ?_)
    | (with_reducible refine fun _ _ t ht => ?_)
    | (with_reducible refine fun t x ht => ?_)
    | (with_reducible refine fun t ht => ?_)
    | (extract_lets +onlyGivenNames -underBinder t; first | (refine have ht : Keeps b t := ?_; ?_; dsimp -zeta only [t]; rotate_left; clear_value t) | (refine have ht : Keeps b t.2 := ?_; ?_; dsimp -zeta only [t]; rotate_left; clear_value t) | (refine have ht : Keeps b t.1 := ?_; ?_; dsimp -zeta only [t]; rotate_left; clear_value t) | (refine have ht : ∀ x y, Keeps b y → Keeps b (t x y) := ?_; ?_; dsimp -zeta only [t]; rotate_left; clear_value t) | (refine have ht : ∀ y, Keeps b y → Keeps b (t y) := ?_; ?_; dsimp -zeta only [t]; rotate_left; clear_value t) | (refine have ht : Keeps b t.2.2 := ?_; ?_; dsimp -zeta only [t]; rotate_left; clear_value t) | (clear_value t) | skip)
    | split
    | (with_reducible refine keeps_snd (by assumption) ?_)
    | (dsimp -zeta only)
    | (with_reducible apply_assumption)

/-- Every action on a live register keeps the queue and the forms. -/
theorem liveHook_keeps {b : State} (p : Path) :
    ∀ k ∈ liveHooks p, ∀ n v s, Keeps b s → Keeps b (k.act n v s) := by
  unfold liveHooks
  simp only [List.forall_mem_cons]
  refine ⟨?_, ?_, ?_, ?_, ?_, ?_, ?_, ?_, ?_, ?_, ?_, ?_, ?_, ?_, ?_, ?_, ?_, ?_, ?_, ?_, ?_, ?_, ?_, ?_, fun _ h => nomatch h⟩ <;> intro n v s h
  · exact eoiWrite_keeps _ h
  · exact modeCtlWrite_keeps _ h
  · exact livelockWrite_keeps _ h
  · exact flashCtlWrite_keeps _ _ h
  · exact latchWrite_keeps _ h
  · exact ackAlarms_keeps _ h
  · exact pmcCtlWrite_keeps _ h
  · exact dvlCtlWrite_keeps _ h
  · split
    · exact rampWrite_keeps _ _ h
    · exact h
  · exact outCtlWrite_keeps _ _ h
  · exact keeps_ite (evqPop_keeps h) h
  · exact domctlWrite_keeps _ _ h
  · exact cmpCtlWrite_keeps _ _ h
  · exact cmpCommit_keeps _ _ _ h
  · exact keeps_ite (prtCounterClear_keeps _ h) h
  · exact mdioWrite_keeps _ h
  · split
    · exact calWrite_keeps _ _ h
    · exact h
  · exact keeps_ite (svpCounterClear_keeps _ h) h
  · split
    · exact keeps_ite (skoCounterClear_keeps _ h) h
    · exact h
  · exact keeps_ite (crlCounterClear_keeps h) h
  · exact keeps_ite (State.clear64s_keeps _ _ h) h
  · exact abortWrite_keeps _ h
  · exact keeps_ite (pkeCounterClear_keeps h) h
  · exact ringWrite_keeps _ _ _ h

theorem liveWrite_keeps {b : State} (p : Path) (a : Nat) (v : Word) {s : State} (h : Keeps b s) : Keeps b (liveWrite p a v s) := by
  unfold liveWrite
  have hl := liveHook_keeps (b := b) p
  generalize liveHooks p = l at hl ⊢
  generalize selAt a = o
  rcases o with _ | ⟨u, k⟩
  · generalize e : l.find? (fun h => (idxAt h.base h.stride h.count a).isSome) = k
    rcases k with _ | k
    · exact plainWrite_keeps _ _ h
    · exact hl k (List.mem_of_find?_eq_some e) _ _ _ h
  · exact selWrite_keeps _ _ _ h

theorem loadLive_keeps {b : State} (p : Sys2Proof.Path) {s : State} (e : ℕ × Sys2Proof.Word) (h : Keeps b s) : Keeps b (loadLive p s e) := by
  unfold loadLive
  repeat' first
    | with_reducible assumption
    | with_reducible apply withAllGroups_keeps
    | with_reducible apply loadReg_keeps
    | with_reducible apply record_keeps
    | with_reducible apply keeps_foldl
    | with_reducible apply keeps_ite
    | (simp -zeta only [keeps_mk]; with_reducible refine keeps_parts ?_)
    | (with_reducible refine fun _ _ t ht => ?_)
    | (with_reducible refine fun t x ht => ?_)
    | (with_reducible refine fun t ht => ?_)
    | (extract_lets +onlyGivenNames -underBinder t; first | (refine have ht : Keeps b t := ?_; ?_; dsimp -zeta only [t]; rotate_left; clear_value t) | (refine have ht : Keeps b t.2 := ?_; ?_; dsimp -zeta only [t]; rotate_left; clear_value t) | (refine have ht : Keeps b t.1 := ?_; ?_; dsimp -zeta only [t]; rotate_left; clear_value t) | (refine have ht : ∀ x y, Keeps b y → Keeps b (t x y) := ?_; ?_; dsimp -zeta only [t]; rotate_left; clear_value t) | (refine have ht : ∀ y, Keeps b y → Keeps b (t y) := ?_; ?_; dsimp -zeta only [t]; rotate_left; clear_value t) | (refine have ht : Keeps b t.2.2 := ?_; ?_; dsimp -zeta only [t]; rotate_left; clear_value t) | (clear_value t) | skip)
    | split
    | (with_reducible refine keeps_snd (by assumption) ?_)
    | (dsimp -zeta only)
    | (with_reducible apply_assumption)

theorem transitSettle_keeps {b : State} (pre : Sys2Proof.Machine.State) {s : State} (h : Keeps b s) : Keeps b (transitSettle pre s) := by
  unfold transitSettle
  repeat' first
    | with_reducible assumption
    | with_reducible apply showOwner_keeps
    | with_reducible apply transitRestart_keeps
    | with_reducible apply keeps_foldl
    | with_reducible apply keeps_ite
    | (simp -zeta only [keeps_mk]; with_reducible refine keeps_parts ?_)
    | (with_reducible refine fun _ _ t ht => ?_)
    | (with_reducible refine fun t x ht => ?_)
    | (with_reducible refine fun t ht => ?_)
    | (extract_lets +onlyGivenNames -underBinder t; first | (refine have ht : Keeps b t := ?_; ?_; dsimp -zeta only [t]; rotate_left; clear_value t) | (refine have ht : Keeps b t.2 := ?_; ?_; dsimp -zeta only [t]; rotate_left; clear_value t) | (refine have ht : Keeps b t.1 := ?_; ?_; dsimp -zeta only [t]; rotate_left; clear_value t) | (refine have ht : ∀ x y, Keeps b y → Keeps b (t x y) := ?_; ?_; dsimp -zeta only [t]; rotate_left; clear_value t) | (refine have ht : ∀ y, Keeps b y → Keeps b (t y) := ?_; ?_; dsimp -zeta only [t]; rotate_left; clear_value t) | (refine have ht : Keeps b t.2.2 := ?_; ?_; dsimp -zeta only [t]; rotate_left; clear_value t) | (clear_value t) | skip)
    | split
    | (with_reducible refine keeps_snd (by assumption) ?_)
    | (dsimp -zeta only)
    | (with_reducible apply_assumption)

theorem statStart_keeps {b : State} (a : ℕ) {s : State} (h : Keeps b s) : Keeps b (statStart a s) := by
  unfold statStart
  repeat' first
    | with_reducible assumption
    | with_reducible apply State.setChan_keeps
    | with_reducible apply keeps_foldl
    | with_reducible apply keeps_ite
    | (simp -zeta only [keeps_mk]; with_reducible refine keeps_parts ?_)
    | (with_reducible refine fun _ _ t ht => ?_)
    | (with_reducible refine fun t x ht => ?_)
    | (with_reducible refine fun t ht => ?_)
    | (extract_lets +onlyGivenNames -underBinder t; first | (refine have ht : Keeps b t := ?_; ?_; dsimp -zeta only [t]; rotate_left; clear_value t) | (refine have ht : Keeps b t.2 := ?_; ?_; dsimp -zeta only [t]; rotate_left; clear_value t) | (refine have ht : Keeps b t.1 := ?_; ?_; dsimp -zeta only [t]; rotate_left; clear_value t) | (refine have ht : ∀ x y, Keeps b y → Keeps b (t x y) := ?_; ?_; dsimp -zeta only [t]; rotate_left; clear_value t) | (refine have ht : ∀ y, Keeps b y → Keeps b (t y) := ?_; ?_; dsimp -zeta only [t]; rotate_left; clear_value t) | (refine have ht : Keeps b t.2.2 := ?_; ?_; dsimp -zeta only [t]; rotate_left; clear_value t) | (clear_value t) | skip)
    | split
    | (with_reducible refine keeps_snd (by assumption) ?_)
    | (dsimp -zeta only)
    | (with_reducible apply_assumption)

theorem refSettle_keeps {b : State} (pre : Sys2Proof.Machine.State) {s : State} (h : Keeps b s) : Keeps b (refSettle pre s) := by
  unfold refSettle
  repeat' first
    | with_reducible assumption
    | with_reducible apply refChanged_keeps
    | with_reducible apply keeps_foldl
    | with_reducible apply keeps_ite
    | (simp -zeta only [keeps_mk]; with_reducible refine keeps_parts ?_)
    | (with_reducible refine fun _ _ t ht => ?_)
    | (with_reducible refine fun t x ht => ?_)
    | (with_reducible refine fun t ht => ?_)
    | (extract_lets +onlyGivenNames -underBinder t; first | (refine have ht : Keeps b t := ?_; ?_; dsimp -zeta only [t]; rotate_left; clear_value t) | (refine have ht : Keeps b t.2 := ?_; ?_; dsimp -zeta only [t]; rotate_left; clear_value t) | (refine have ht : Keeps b t.1 := ?_; ?_; dsimp -zeta only [t]; rotate_left; clear_value t) | (refine have ht : ∀ x y, Keeps b y → Keeps b (t x y) := ?_; ?_; dsimp -zeta only [t]; rotate_left; clear_value t) | (refine have ht : ∀ y, Keeps b y → Keeps b (t y) := ?_; ?_; dsimp -zeta only [t]; rotate_left; clear_value t) | (refine have ht : Keeps b t.2.2 := ?_; ?_; dsimp -zeta only [t]; rotate_left; clear_value t) | (clear_value t) | skip)
    | split
    | (with_reducible refine keeps_snd (by assumption) ?_)
    | (dsimp -zeta only)
    | (with_reducible apply_assumption)

theorem todSettle_keeps {b : State} (pre : Sys2Proof.Machine.State) {s : State} (h : Keeps b s) : Keeps b (todSettle pre s) := by
  unfold todSettle
  repeat' first
    | with_reducible assumption
    | with_reducible apply todRestart_keeps
    | with_reducible apply keeps_foldl
    | with_reducible apply keeps_ite
    | (simp -zeta only [keeps_mk]; with_reducible refine keeps_parts ?_)
    | (with_reducible refine fun _ _ t ht => ?_)
    | (with_reducible refine fun t x ht => ?_)
    | (with_reducible refine fun t ht => ?_)
    | (extract_lets +onlyGivenNames -underBinder t; first | (refine have ht : Keeps b t := ?_; ?_; dsimp -zeta only [t]; rotate_left; clear_value t) | (refine have ht : Keeps b t.2 := ?_; ?_; dsimp -zeta only [t]; rotate_left; clear_value t) | (refine have ht : Keeps b t.1 := ?_; ?_; dsimp -zeta only [t]; rotate_left; clear_value t) | (refine have ht : ∀ x y, Keeps b y → Keeps b (t x y) := ?_; ?_; dsimp -zeta only [t]; rotate_left; clear_value t) | (refine have ht : ∀ y, Keeps b y → Keeps b (t y) := ?_; ?_; dsimp -zeta only [t]; rotate_left; clear_value t) | (refine have ht : Keeps b t.2.2 := ?_; ?_; dsimp -zeta only [t]; rotate_left; clear_value t) | (clear_value t) | skip)
    | split
    | (with_reducible refine keeps_snd (by assumption) ?_)
    | (dsimp -zeta only)
    | (with_reducible apply_assumption)

theorem portSettle_keeps {b : State} (p : Fin 7) (en0 : Bool) (en1 : Bool) (changed : Bool) {s : State} (h : Keeps b s) : Keeps b (portSettle p en0 en1 changed s) := by
  unfold portSettle
  repeat' first
    | with_reducible assumption
    | with_reducible apply calAbandon_keeps
    | with_reducible apply linkDown_keeps
    | with_reducible apply pathLost_keeps
    | with_reducible apply powerUpdate_keeps
    | with_reducible apply State.set_keeps
    | with_reducible apply keeps_foldl
    | with_reducible apply keeps_ite
    | (simp -zeta only [keeps_mk]; with_reducible refine keeps_parts ?_)
    | (with_reducible refine fun _ _ t ht => ?_)
    | (with_reducible refine fun t x ht => ?_)
    | (with_reducible refine fun t ht => ?_)
    | (extract_lets +onlyGivenNames -underBinder t; first | (refine have ht : Keeps b t := ?_; ?_; dsimp -zeta only [t]; rotate_left; clear_value t) | (refine have ht : Keeps b t.2 := ?_; ?_; dsimp -zeta only [t]; rotate_left; clear_value t) | (refine have ht : Keeps b t.1 := ?_; ?_; dsimp -zeta only [t]; rotate_left; clear_value t) | (refine have ht : ∀ x y, Keeps b y → Keeps b (t x y) := ?_; ?_; dsimp -zeta only [t]; rotate_left; clear_value t) | (refine have ht : ∀ y, Keeps b y → Keeps b (t y) := ?_; ?_; dsimp -zeta only [t]; rotate_left; clear_value t) | (refine have ht : Keeps b t.2.2 := ?_; ?_; dsimp -zeta only [t]; rotate_left; clear_value t) | (clear_value t) | skip)
    | split
    | (with_reducible refine keeps_snd (by assumption) ?_)
    | (dsimp -zeta only)
    | (with_reducible apply_assumption)

theorem fieldPortSettle_keeps {b : State} (pre : Sys2Proof.Machine.State) (n : Fin 2) {s : State} (h : Keeps b s) : Keeps b (fieldPortSettle pre n s) := by
  unfold fieldPortSettle
  repeat' first
    | with_reducible assumption
    | with_reducible apply calAbandon_keeps
    | with_reducible apply powerUpdate_keeps
    | with_reducible apply fieldSettle_keeps
    | with_reducible apply fieldDown_keeps
    | with_reducible apply keeps_foldl
    | with_reducible apply keeps_ite
    | (simp -zeta only [keeps_mk]; with_reducible refine keeps_parts ?_)
    | (with_reducible refine fun _ _ t ht => ?_)
    | (with_reducible refine fun t x ht => ?_)
    | (with_reducible refine fun t ht => ?_)
    | (extract_lets +onlyGivenNames -underBinder t; first | (refine have ht : Keeps b t := ?_; ?_; dsimp -zeta only [t]; rotate_left; clear_value t) | (refine have ht : Keeps b t.2 := ?_; ?_; dsimp -zeta only [t]; rotate_left; clear_value t) | (refine have ht : Keeps b t.1 := ?_; ?_; dsimp -zeta only [t]; rotate_left; clear_value t) | (refine have ht : ∀ x y, Keeps b y → Keeps b (t x y) := ?_; ?_; dsimp -zeta only [t]; rotate_left; clear_value t) | (refine have ht : ∀ y, Keeps b y → Keeps b (t y) := ?_; ?_; dsimp -zeta only [t]; rotate_left; clear_value t) | (refine have ht : Keeps b t.2.2 := ?_; ?_; dsimp -zeta only [t]; rotate_left; clear_value t) | (clear_value t) | skip)
    | split
    | (with_reducible refine keeps_snd (by assumption) ?_)
    | (dsimp -zeta only)
    | (with_reducible apply_assumption)

theorem domainRestart_keeps {b : State} (fs : Bool) {s : State} (h : Keeps b s) : Keeps b (domainRestart fs s) := by
  unfold domainRestart
  repeat' first
    | with_reducible assumption
    | with_reducible apply keeps_foldl
    | with_reducible apply keeps_ite
    | (simp -zeta only [keeps_mk]; with_reducible refine keeps_parts ?_)
    | (with_reducible refine fun _ _ t ht => ?_)
    | (with_reducible refine fun t x ht => ?_)
    | (with_reducible refine fun t ht => ?_)
    | (extract_lets +onlyGivenNames -underBinder t; first | (refine have ht : Keeps b t := ?_; ?_; dsimp -zeta only [t]; rotate_left; clear_value t) | (refine have ht : Keeps b t.2 := ?_; ?_; dsimp -zeta only [t]; rotate_left; clear_value t) | (refine have ht : Keeps b t.1 := ?_; ?_; dsimp -zeta only [t]; rotate_left; clear_value t) | (refine have ht : ∀ x y, Keeps b y → Keeps b (t x y) := ?_; ?_; dsimp -zeta only [t]; rotate_left; clear_value t) | (refine have ht : ∀ y, Keeps b y → Keeps b (t y) := ?_; ?_; dsimp -zeta only [t]; rotate_left; clear_value t) | (refine have ht : Keeps b t.2.2 := ?_; ?_; dsimp -zeta only [t]; rotate_left; clear_value t) | (clear_value t) | skip)
    | split
    | (with_reducible refine keeps_snd (by assumption) ?_)
    | (dsimp -zeta only)
    | (with_reducible apply_assumption)

theorem synSettle_keeps {b : State} (pre : Sys2Proof.Machine.State) (a : ℕ) {s : State} (h : Keeps b s) : Keeps b (synSettle pre a s) := by
  unfold synSettle
  repeat' first
    | with_reducible assumption
    | with_reducible apply divLoad_keeps
    | with_reducible apply relock_keeps
    | with_reducible apply synthChanged_keeps
    | with_reducible apply keeps_foldl
    | with_reducible apply keeps_ite
    | (simp -zeta only [keeps_mk]; with_reducible refine keeps_parts ?_)
    | (with_reducible refine fun _ _ t ht => ?_)
    | (with_reducible refine fun t x ht => ?_)
    | (with_reducible refine fun t ht => ?_)
    | (extract_lets +onlyGivenNames -underBinder t; first | (refine have ht : Keeps b t := ?_; ?_; dsimp -zeta only [t]; rotate_left; clear_value t) | (refine have ht : Keeps b t.2 := ?_; ?_; dsimp -zeta only [t]; rotate_left; clear_value t) | (refine have ht : Keeps b t.1 := ?_; ?_; dsimp -zeta only [t]; rotate_left; clear_value t) | (refine have ht : ∀ x y, Keeps b y → Keeps b (t x y) := ?_; ?_; dsimp -zeta only [t]; rotate_left; clear_value t) | (refine have ht : ∀ y, Keeps b y → Keeps b (t y) := ?_; ?_; dsimp -zeta only [t]; rotate_left; clear_value t) | (refine have ht : Keeps b t.2.2 := ?_; ?_; dsimp -zeta only [t]; rotate_left; clear_value t) | (clear_value t) | skip)
    | split
    | (with_reducible refine keeps_snd (by assumption) ?_)
    | (dsimp -zeta only)
    | (with_reducible apply_assumption)

theorem dtmSettle_keeps {b : State} (pre : Sys2Proof.Machine.State) (a : ℕ) {s : State} (h : Keeps b s) : Keeps b (dtmSettle pre a s) := by
  unfold dtmSettle
  repeat' first
    | with_reducible assumption
    | with_reducible apply utcResolve_keeps
    | with_reducible apply domainRestart_keeps
    | with_reducible apply keeps_foldl
    | with_reducible apply keeps_ite
    | (simp -zeta only [keeps_mk]; with_reducible refine keeps_parts ?_)
    | (with_reducible refine fun _ _ t ht => ?_)
    | (with_reducible refine fun t x ht => ?_)
    | (with_reducible refine fun t ht => ?_)
    | (extract_lets +onlyGivenNames -underBinder t; first | (refine have ht : Keeps b t := ?_; ?_; dsimp -zeta only [t]; rotate_left; clear_value t) | (refine have ht : Keeps b t.2 := ?_; ?_; dsimp -zeta only [t]; rotate_left; clear_value t) | (refine have ht : Keeps b t.1 := ?_; ?_; dsimp -zeta only [t]; rotate_left; clear_value t) | (refine have ht : ∀ x y, Keeps b y → Keeps b (t x y) := ?_; ?_; dsimp -zeta only [t]; rotate_left; clear_value t) | (refine have ht : ∀ y, Keeps b y → Keeps b (t y) := ?_; ?_; dsimp -zeta only [t]; rotate_left; clear_value t) | (refine have ht : Keeps b t.2.2 := ?_; ?_; dsimp -zeta only [t]; rotate_left; clear_value t) | (clear_value t) | skip)
    | split
    | (with_reducible refine keeps_snd (by assumption) ?_)
    | (dsimp -zeta only)
    | (with_reducible apply_assumption)

theorem imageHook_keeps {b : State} (pre : Sys2Proof.Machine.State) (a : ℕ) {s : State} (h : Keeps b s) : Keeps b (imageHook pre a s) := by
  unfold imageHook
  repeat' first
    | with_reducible assumption
    | with_reducible apply keepHistory_keeps
    | with_reducible apply bankMove_keeps
    | with_reducible apply tagSeedAll_keeps
    | with_reducible apply spuSeedAll_keeps
    | with_reducible apply claimUpdate_keeps
    | with_reducible apply transitSettle_keeps
    | with_reducible apply synSettle_keeps
    | with_reducible apply todSettle_keeps
    | with_reducible apply refSettle_keeps
    | with_reducible apply showModel_keeps
    | with_reducible apply showConflict_keeps
    | with_reducible apply statStart_keeps
    | with_reducible apply dtmSettle_keeps
    | with_reducible apply portSettle_keeps
    | with_reducible apply stopSeries_keeps
    | with_reducible apply crlRekey_keeps
    | with_reducible apply flowControl_keeps
    | with_reducible apply fieldPortSettle_keeps
    | with_reducible apply compChanged_keeps
    | with_reducible apply keeps_foldl
    | with_reducible apply keeps_ite
    | (simp -zeta only [keeps_mk]; with_reducible refine keeps_parts ?_)
    | (with_reducible refine fun _ _ t ht => ?_)
    | (with_reducible refine fun t x ht => ?_)
    | (with_reducible refine fun t ht => ?_)
    | (extract_lets +onlyGivenNames -underBinder t; first | (refine have ht : Keeps b t := ?_; ?_; dsimp -zeta only [t]; rotate_left; clear_value t) | (refine have ht : Keeps b t.2 := ?_; ?_; dsimp -zeta only [t]; rotate_left; clear_value t) | (refine have ht : Keeps b t.1 := ?_; ?_; dsimp -zeta only [t]; rotate_left; clear_value t) | (refine have ht : ∀ x y, Keeps b y → Keeps b (t x y) := ?_; ?_; dsimp -zeta only [t]; rotate_left; clear_value t) | (refine have ht : ∀ y, Keeps b y → Keeps b (t y) := ?_; ?_; dsimp -zeta only [t]; rotate_left; clear_value t) | (refine have ht : Keeps b t.2.2 := ?_; ?_; dsimp -zeta only [t]; rotate_left; clear_value t) | (clear_value t) | skip)
    | split
    | (with_reducible refine keeps_snd (by assumption) ?_)
    | (dsimp -zeta only)
    | (with_reducible apply_assumption)

theorem imageWrite_keeps {b : State} (p : Sys2Proof.Path) (r : Sys2Proof.Machine.RegRow) (a : ℕ) (v : Sys2Proof.Word) {s : State} (h : Keeps b s) : Keeps b (imageWrite p r a v s).2 := by
  unfold imageWrite
  repeat' first
    | with_reducible assumption
    | with_reducible apply dropCopies_keeps
    | with_reducible apply pmcEvent_keeps
    | with_reducible apply record_keeps
    | with_reducible apply imageHook_keeps
    | with_reducible apply loadLive_keeps
    | with_reducible apply keeps_foldl
    | with_reducible apply keeps_ite
    | (simp -zeta only [keeps_mk]; with_reducible refine keeps_parts ?_)
    | (with_reducible refine fun _ _ t ht => ?_)
    | (with_reducible refine fun t x ht => ?_)
    | (with_reducible refine fun t ht => ?_)
    | (extract_lets +onlyGivenNames -underBinder t; first | (refine have ht : Keeps b t := ?_; ?_; dsimp -zeta only [t]; rotate_left; clear_value t) | (refine have ht : Keeps b t.2 := ?_; ?_; dsimp -zeta only [t]; rotate_left; clear_value t) | (refine have ht : Keeps b t.1 := ?_; ?_; dsimp -zeta only [t]; rotate_left; clear_value t) | (refine have ht : ∀ x y, Keeps b y → Keeps b (t x y) := ?_; ?_; dsimp -zeta only [t]; rotate_left; clear_value t) | (refine have ht : ∀ y, Keeps b y → Keeps b (t y) := ?_; ?_; dsimp -zeta only [t]; rotate_left; clear_value t) | (refine have ht : Keeps b t.2.2 := ?_; ?_; dsimp -zeta only [t]; rotate_left; clear_value t) | (clear_value t) | skip)
    | split
    | (with_reducible refine keeps_snd (by assumption) ?_)
    | (dsimp -zeta only)
    | (with_reducible apply_assumption)

theorem writeAccess_keeps {b : State} (p : Sys2Proof.Path) (a : ℕ) (be : ℕ) (v : Sys2Proof.Word) {s : State} (h : Keeps b s) : Keeps b (writeAccess p a be v s).2 := by
  unfold writeAccess
  repeat' first
    | with_reducible assumption
    | with_reducible apply withGroup_keeps
    | with_reducible apply State.strike_keeps
    | with_reducible apply record_keeps
    | with_reducible apply msixWrite_keeps
    | with_reducible apply State.setCopies_keeps
    | with_reducible apply imageWrite_keeps
    | with_reducible apply liveWrite_keeps
    | with_reducible apply keeps_foldl
    | with_reducible apply keeps_ite
    | (simp -zeta only [keeps_mk]; with_reducible refine keeps_parts ?_)
    | (with_reducible refine fun _ _ t ht => ?_)
    | (with_reducible refine fun t x ht => ?_)
    | (with_reducible refine fun t ht => ?_)
    | (extract_lets +onlyGivenNames -underBinder t; first | (refine have ht : Keeps b t := ?_; ?_; dsimp -zeta only [t]; rotate_left; clear_value t) | (refine have ht : Keeps b t.2 := ?_; ?_; dsimp -zeta only [t]; rotate_left; clear_value t) | (refine have ht : Keeps b t.1 := ?_; ?_; dsimp -zeta only [t]; rotate_left; clear_value t) | (refine have ht : ∀ x y, Keeps b y → Keeps b (t x y) := ?_; ?_; dsimp -zeta only [t]; rotate_left; clear_value t) | (refine have ht : ∀ y, Keeps b y → Keeps b (t y) := ?_; ?_; dsimp -zeta only [t]; rotate_left; clear_value t) | (refine have ht : Keeps b t.2.2 := ?_; ?_; dsimp -zeta only [t]; rotate_left; clear_value t) | (clear_value t) | skip)
    | split
    | (with_reducible refine keeps_snd (by assumption) ?_)
    | (dsimp -zeta only)
    | (with_reducible apply_assumption)

theorem hostWrite_keeps {b : State} (p : Sys2Proof.Path) (a : ℕ) (be : ℕ) (v : Sys2Proof.Word) {s : State} (h : Keeps b s) : Keeps b (hostWrite p a be v s).2 := by
  unfold hostWrite
  repeat' first
    | with_reducible assumption
    | with_reducible apply writeAccess_keeps
    | with_reducible apply countAccess_keeps
    | with_reducible apply keeps_foldl
    | with_reducible apply keeps_ite
    | (simp -zeta only [keeps_mk]; with_reducible refine keeps_parts ?_)
    | (with_reducible refine fun _ _ t ht => ?_)
    | (with_reducible refine fun t x ht => ?_)
    | (with_reducible refine fun t ht => ?_)
    | (extract_lets +onlyGivenNames -underBinder t; first | (refine have ht : Keeps b t := ?_; ?_; dsimp -zeta only [t]; rotate_left; clear_value t) | (refine have ht : Keeps b t.2 := ?_; ?_; dsimp -zeta only [t]; rotate_left; clear_value t) | (refine have ht : Keeps b t.1 := ?_; ?_; dsimp -zeta only [t]; rotate_left; clear_value t) | (refine have ht : ∀ x y, Keeps b y → Keeps b (t x y) := ?_; ?_; dsimp -zeta only [t]; rotate_left; clear_value t) | (refine have ht : ∀ y, Keeps b y → Keeps b (t y) := ?_; ?_; dsimp -zeta only [t]; rotate_left; clear_value t) | (refine have ht : Keeps b t.2.2 := ?_; ?_; dsimp -zeta only [t]; rotate_left; clear_value t) | (clear_value t) | skip)
    | split
    | (with_reducible refine keeps_snd (by assumption) ?_)
    | (dsimp -zeta only)
    | (with_reducible apply_assumption)

theorem regCommand_keeps {b t : State} (p : Sys2Proof.Path) (a : ℕ) (v : Sys2Proof.Word) {s : State} (e : regCommand p a v s = .next t) (h : Keeps b s) : Keeps b t := by
  unfold regCommand at e; cases e
  repeat' first
    | with_reducible assumption
    | with_reducible apply hostWrite_keeps
    | with_reducible apply keeps_foldl
    | with_reducible apply keeps_ite
    | (simp -zeta only [keeps_mk]; with_reducible refine keeps_parts ?_)
    | (with_reducible refine fun _ _ t ht => ?_)
    | (with_reducible refine fun t x ht => ?_)
    | (with_reducible refine fun t ht => ?_)
    | (extract_lets +onlyGivenNames -underBinder t; first | (refine have ht : Keeps b t := ?_; ?_; dsimp -zeta only [t]; rotate_left; clear_value t) | (refine have ht : Keeps b t.2 := ?_; ?_; dsimp -zeta only [t]; rotate_left; clear_value t) | (refine have ht : Keeps b t.1 := ?_; ?_; dsimp -zeta only [t]; rotate_left; clear_value t) | (refine have ht : ∀ x y, Keeps b y → Keeps b (t x y) := ?_; ?_; dsimp -zeta only [t]; rotate_left; clear_value t) | (refine have ht : ∀ y, Keeps b y → Keeps b (t y) := ?_; ?_; dsimp -zeta only [t]; rotate_left; clear_value t) | (refine have ht : Keeps b t.2.2 := ?_; ?_; dsimp -zeta only [t]; rotate_left; clear_value t) | (clear_value t) | skip)
    | split
    | (with_reducible refine keeps_snd (by assumption) ?_)
    | (dsimp -zeta only)
    | (with_reducible apply_assumption)

theorem readCommand_keeps {b t : State} (p : Sys2Proof.Path) (a : ℕ) (be : ℕ) {s : State} (e : readCommand p a be s = .next t) (h : Keeps b s) : Keeps b t := by
  unfold readCommand at e; cases e
  repeat' first
    | with_reducible assumption
    | with_reducible apply hostRead_keeps
    | with_reducible apply State.emit_keeps
    | with_reducible apply keeps_foldl
    | with_reducible apply keeps_ite
    | (simp -zeta only [keeps_mk]; with_reducible refine keeps_parts ?_)
    | (with_reducible refine fun _ _ t ht => ?_)
    | (with_reducible refine fun t x ht => ?_)
    | (with_reducible refine fun t ht => ?_)
    | (extract_lets +onlyGivenNames -underBinder t; first | (refine have ht : Keeps b t := ?_; ?_; dsimp -zeta only [t]; rotate_left; clear_value t) | (refine have ht : Keeps b t.2 := ?_; ?_; dsimp -zeta only [t]; rotate_left; clear_value t) | (refine have ht : Keeps b t.1 := ?_; ?_; dsimp -zeta only [t]; rotate_left; clear_value t) | (refine have ht : ∀ x y, Keeps b y → Keeps b (t x y) := ?_; ?_; dsimp -zeta only [t]; rotate_left; clear_value t) | (refine have ht : ∀ y, Keeps b y → Keeps b (t y) := ?_; ?_; dsimp -zeta only [t]; rotate_left; clear_value t) | (refine have ht : Keeps b t.2.2 := ?_; ?_; dsimp -zeta only [t]; rotate_left; clear_value t) | (clear_value t) | skip)
    | split
    | (with_reducible refine keeps_snd (by assumption) ?_)
    | (dsimp -zeta only)
    | (with_reducible apply_assumption)

theorem execRegisterWrite_keeps {b t : State} (path : Sys2Proof.Path) (addr : BitVec 24) (be : BitVec 4) (value : Sys2Proof.Word) {s : State} (e : execRegisterWrite path addr be value s = .next t) (h : Keeps b s) : Keeps b t := by
  unfold execRegisterWrite at e; cases e
  repeat' first
    | with_reducible assumption
    | with_reducible apply hostWrite_keeps
    | with_reducible apply keeps_foldl
    | with_reducible apply keeps_ite
    | (simp -zeta only [keeps_mk]; with_reducible refine keeps_parts ?_)
    | (with_reducible refine fun _ _ t ht => ?_)
    | (with_reducible refine fun t x ht => ?_)
    | (with_reducible refine fun t ht => ?_)
    | (extract_lets +onlyGivenNames -underBinder t; first | (refine have ht : Keeps b t := ?_; ?_; dsimp -zeta only [t]; rotate_left; clear_value t) | (refine have ht : Keeps b t.2 := ?_; ?_; dsimp -zeta only [t]; rotate_left; clear_value t) | (refine have ht : Keeps b t.1 := ?_; ?_; dsimp -zeta only [t]; rotate_left; clear_value t) | (refine have ht : ∀ x y, Keeps b y → Keeps b (t x y) := ?_; ?_; dsimp -zeta only [t]; rotate_left; clear_value t) | (refine have ht : ∀ y, Keeps b y → Keeps b (t y) := ?_; ?_; dsimp -zeta only [t]; rotate_left; clear_value t) | (refine have ht : Keeps b t.2.2 := ?_; ?_; dsimp -zeta only [t]; rotate_left; clear_value t) | (clear_value t) | skip)
    | split
    | (with_reducible refine keeps_snd (by assumption) ?_)
    | (dsimp -zeta only)
    | (with_reducible apply_assumption)

theorem execReadClear_keeps {b t : State} (reader : Sys2Proof.ReadBy) (addr : BitVec 24) {s : State} (e : execReadClear reader addr s = .next t) (h : Keeps b s) : Keeps b t := by
  exact readCommand_keeps _ _ _ e h

theorem execWideValueLatchRead_keeps {b t : State} (reader : Sys2Proof.ReadBy) (addr : BitVec 24) {s : State} (e : execWideValueLatchRead reader addr s = .next t) (h : Keeps b s) : Keeps b t := by
  exact readCommand_keeps _ _ _ e h

theorem execTrnResSeqRead_keeps {b t : State} (reader : Sys2Proof.ReadBy) (ch : Fin 24) {s : State} (e : execTrnResSeqRead reader ch s = .next t) (h : Keeps b s) : Keeps b t := by
  exact readCommand_keeps _ _ _ e h

theorem execLivelockWrite_keeps {b t : State} (path : Sys2Proof.Path) (value : Sys2Proof.Word) {s : State} (e : execLivelockWrite path value s = .next t) (h : Keeps b s) : Keeps b t := by
  exact regCommand_keeps _ _ _ e h

theorem execStakeCompensationChange_keeps {b t : State} (n : Fin 7) (addr : BitVec 24) (value : Sys2Proof.Word) (path : Sys2Proof.Path) {s : State} (e : execStakeCompensationChange n addr value path s = .next t) (h : Keeps b s) : Keeps b t := by
  unfold execStakeCompensationChange at e
  split at e
  · exact regCommand_keeps _ _ _ e h
  · cases e; exact h

theorem execTransitSettingChange_keeps {b t : State} (ch : Fin 24) (addr : BitVec 24) (value : Sys2Proof.Word) (path : Sys2Proof.Path) {s : State} (e : execTransitSettingChange ch addr value path s = .next t) (h : Keeps b s) : Keeps b t := by
  unfold execTransitSettingChange at e
  split at e
  · exact regCommand_keeps _ _ _ e h
  · cases e; exact h

theorem execSynRelockChange_keeps {b t : State} (path : Sys2Proof.Path) (addr : BitVec 24) (value : Sys2Proof.Word) {s : State} (e : execSynRelockChange path addr value s = .next t) (h : Keeps b s) : Keeps b t := by
  unfold execSynRelockChange at e
  split at e
  · exact regCommand_keeps _ _ _ e h
  · cases e; exact h

theorem execHandoffRequest_keeps {b t : State} (force : Fin 4) {s : State} (e : execHandoffRequest force s = .next t) (h : Keeps b s) : Keeps b t := by
  exact regCommand_keeps _ _ _ e h

theorem execCmpCommit_keeps {b t : State} (path : Sys2Proof.Path) (n : Fin 16) (w0 : Sys2Proof.Word) {s : State} (e : execCmpCommit path n w0 s = .next t) (h : Keeps b s) : Keeps b t := by
  exact regCommand_keeps _ _ _ e h

theorem execCmpDisable_keeps {b t : State} (n : Fin 16) (value : Sys2Proof.Word) {s : State} (e : execCmpDisable n value s = .next t) (h : Keeps b s) : Keeps b t := by
  exact regCommand_keeps _ _ _ e h

theorem execFlashRead_keeps {b t : State} (path : Sys2Proof.Path) (value : Sys2Proof.Word) {s : State} (e : execFlashRead path value s = .next t) (h : Keeps b s) : Keeps b t := by
  exact regCommand_keeps _ _ _ e h

theorem execFlashProgram_keeps {b t : State} (path : Sys2Proof.Path) (value : Sys2Proof.Word) {s : State} (e : execFlashProgram path value s = .next t) (h : Keeps b s) : Keeps b t := by
  exact regCommand_keeps _ _ _ e h

theorem execFlashErase_keeps {b t : State} (path : Sys2Proof.Path) (value : Sys2Proof.Word) {s : State} (e : execFlashErase path value s = .next t) (h : Keeps b s) : Keeps b t := by
  exact regCommand_keeps _ _ _ e h

theorem execModeRequestMaint_keeps {b t : State} (path : Sys2Proof.Path) (value : Sys2Proof.Word) {s : State} (e : execModeRequestMaint path value s = .next t) (h : Keeps b s) : Keeps b t := by
  exact regCommand_keeps _ _ _ e h

theorem execModeRequestSafe_keeps {b t : State} (path : Sys2Proof.Path) (value : Sys2Proof.Word) {s : State} (e : execModeRequestSafe path value s = .next t) (h : Keeps b s) : Keeps b t := by
  exact regCommand_keeps _ _ _ e h

theorem execModeRequestDormant_keeps {b t : State} (path : Sys2Proof.Path) (value : Sys2Proof.Word) {s : State} (e : execModeRequestDormant path value s = .next t) (h : Keeps b s) : Keeps b t := by
  exact regCommand_keeps _ _ _ e h

theorem execModeRequestRestart_keeps {b t : State} (path : Sys2Proof.Path) (value : Sys2Proof.Word) {s : State} (e : execModeRequestRestart path value s = .next t) (h : Keeps b s) : Keeps b t := by
  exact regCommand_keeps _ _ _ e h

theorem execIobankChange_keeps {b t : State} (path : Sys2Proof.Path) (value : Sys2Proof.Word) {s : State} (e : execIobankChange path value s = .next t) (h : Keeps b s) : Keeps b t := by
  exact regCommand_keeps _ _ _ e h

theorem execMdioCommand_keeps {b t : State} (path : Sys2Proof.Path) (value : Sys2Proof.Word) {s : State} (e : execMdioCommand path value s = .next t) (h : Keeps b s) : Keeps b t := by
  exact regCommand_keeps _ _ _ e h

theorem execPrtCounterClear_keeps {b t : State} (port : Fin 7) {s : State} (e : execPrtCounterClear port s = .next t) (h : Keeps b s) : Keeps b t := by
  exact regCommand_keeps _ _ _ e h

theorem execSvpCounterClear_keeps {b t : State} (pl : Fin 5) {s : State} (e : execSvpCounterClear pl s = .next t) (h : Keeps b s) : Keeps b t := by
  exact regCommand_keeps _ _ _ e h

theorem execSkoCounterClear_keeps {b t : State} (port : Fin 4) {s : State} (e : execSkoCounterClear port s = .next t) (h : Keeps b s) : Keeps b t := by
  exact regCommand_keeps _ _ _ e h

theorem execCrlCounterClear_keeps {b t : State} {s : State} (e : execCrlCounterClear s = .next t) (h : Keeps b s) : Keeps b t := by
  exact regCommand_keeps _ _ _ e h

theorem execPkeCounterClear_keeps {b t : State} {s : State} (e : execPkeCounterClear s = .next t) (h : Keeps b s) : Keeps b t := by
  exact regCommand_keeps _ _ _ e h

theorem execPkeAbort_keeps {b t : State} (rings : BitVec 8) {s : State} (e : execPkeAbort rings s = .next t) (h : Keeps b s) : Keeps b t := by
  exact regCommand_keeps _ _ _ e h

theorem execRingTailWrite_keeps {b t : State} (ring : Fin 64) (value : Sys2Proof.Word) {s : State} (e : execRingTailWrite ring value s = .next t) (h : Keeps b s) : Keeps b t := by
  exact regCommand_keeps _ _ _ e h

theorem execRingEnable_keeps {b t : State} (ring : Fin 64) (value : Sys2Proof.Word) {s : State} (e : execRingEnable ring value s = .next t) (h : Keeps b s) : Keeps b t := by
  exact regCommand_keeps _ _ _ e h

theorem execRingDisable_keeps {b t : State} (ring : Fin 64) (value : Sys2Proof.Word) {s : State} (e : execRingDisable ring value s = .next t) (h : Keeps b s) : Keeps b t := by
  exact regCommand_keeps _ _ _ e h

theorem execPmcSelWrite_keeps {b t : State} (u : Fin 13) (k : Fin 8) (value : Sys2Proof.Word) {s : State} (e : execPmcSelWrite u k value s = .next t) (h : Keeps b s) : Keeps b t := by
  exact regCommand_keeps _ _ _ e h

theorem execPmcClearAll_keeps {b t : State} {s : State} (e : execPmcClearAll s = .next t) (h : Keeps b s) : Keeps b t := by
  exact regCommand_keeps _ _ _ e h

theorem execPmcSnapshot_keeps {b t : State} {s : State} (e : execPmcSnapshot s = .next t) (h : Keeps b s) : Keeps b t := by
  exact regCommand_keeps _ _ _ e h

theorem execTagEnable_keeps {b t : State} (value : Sys2Proof.Word) {s : State} (e : execTagEnable value s = .next t) (h : Keeps b s) : Keeps b t := by
  exact regCommand_keeps _ _ _ e h

theorem execLimitClear_keeps {b t : State} (out : Fin 12) (value : Sys2Proof.Word) {s : State} (e : execLimitClear out value s = .next t) (h : Keeps b s) : Keeps b t := by
  exact regCommand_keeps _ _ _ e h

theorem execRampGo_keeps {b t : State} (n : Fin 6) (value : Sys2Proof.Word) {s : State} (e : execRampGo n value s = .next t) (h : Keeps b s) : Keeps b t := by
  exact regCommand_keeps _ _ _ e h

theorem execRampStop_keeps {b t : State} (n : Fin 6) (value : Sys2Proof.Word) {s : State} (e : execRampStop n value s = .next t) (h : Keeps b s) : Keeps b t := by
  exact regCommand_keeps _ _ _ e h

theorem execEvqPop_keeps {b t : State} {s : State} (e : execEvqPop s = .next t) (h : Keeps b s) : Keeps b t := by
  exact regCommand_keeps _ _ _ e h

theorem execStakeSelfTestStart_keeps {b t : State} (n : Fin 7) {s : State} (e : execStakeSelfTestStart n s = .next t) (h : Keeps b s) : Keeps b t := by
  exact regCommand_keeps _ _ _ e h

theorem execDvlYield_keeps {b t : State} (value : Sys2Proof.Word) {s : State} (e : execDvlYield value s = .next t) (h : Keeps b s) : Keeps b t := by
  exact regCommand_keeps _ _ _ e h

theorem execDvlRejoin_keeps {b t : State} (value : Sys2Proof.Word) {s : State} (e : execDvlRejoin value s = .next t) (h : Keeps b s) : Keeps b t := by
  exact regCommand_keeps _ _ _ e h

theorem execAlarmAck_keeps {b t : State} (value : Sys2Proof.Word) {s : State} (e : execAlarmAck value s = .next t) (h : Keeps b s) : Keeps b t := by
  exact regCommand_keeps _ _ _ e h

theorem execIrqEoi_keeps {b t : State} (value : Sys2Proof.Word) {s : State} (e : execIrqEoi value s = .next t) (h : Keeps b s) : Keeps b t := by
  exact regCommand_keeps _ _ _ e h



end Sys2Proof.Machine
end

