-- ==== Sys2Proof/Laws/KeepExec.lean ====
section
/-! SUPPORT. Every command keeps the queue of commands and the canonical forms: the laws of the meanings, gathered over Instr. -/
namespace Sys2Proof.Machine
set_option linter.unusedTactic false
set_option linter.unreachableTactic false

/-- A command that answers a next state keeps the queue and the canonical forms. -/
theorem exec_keeps {b s t : State} (c : Instr) (e : exec c s = .next t) (h : Keeps b s) : Keeps b t := by
  cases c with
  | registerWrite path addr be value => exact execRegisterWrite_keeps (e := e) (h := h) ..
  | readClear reader addr => exact execReadClear_keeps (e := e) (h := h) ..
  | wideValueLatchRead reader addr => exact execWideValueLatchRead_keeps (e := e) (h := h) ..
  | livelockWrite path value => exact execLivelockWrite_keeps (e := e) (h := h) ..
  | managementTick => exact execManagementTick_keeps (e := e) (h := h) ..
  | handoffRequest force => exact execHandoffRequest_keeps (e := e) (h := h) ..
  | slewComplete => exact execSlewComplete_keeps (e := e) (h := h) ..
  | datumRateApply => exact execDatumRateApply_keeps (e := e) (h := h) ..
  | domainSplit => exact execDomainSplit_keeps (e := e) (h := h) ..
  | dtmVote copy => exact execDtmVote_keeps (e := e) (h := h) ..
  | dtmNovote => exact execDtmNovote_keeps (e := e) (h := h) ..
  | leapApplied => exact execLeapApplied_keeps (e := e) (h := h) ..
  | utcOffsetChange => exact execUtcOffsetChange_keeps (e := e) (h := h) ..
  | utcDisagree => exact execUtcDisagree_keeps (e := e) (h := h) ..
  | cmpCommit path n w0 => exact execCmpCommit_keeps (e := e) (h := h) ..
  | cmpDisable n value => exact execCmpDisable_keeps (e := e) (h := h) ..
  | cmpFired n => exact execCmpFired_keeps (e := e) (h := h) ..
  | ptpClientDelayReq n => exact execPtpClientDelayReq_keeps (e := e) (h := h) ..
  | ptpClientMessage n => exact execPtpClientMessage_keeps (e := e) (h := h) ..
  | frameReceive port bytes capture error fecCorrected => exact execFrameReceive_keeps (e := e) (h := h) ..
  | pipelineRequest pl table buffer => exact execPipelineRequest_keeps (e := e) (h := h) ..
  | clientBucketFill bucket => exact execClientBucketFill_keeps (e := e) (h := h) ..
  | ntsCookieVerify lane => exact execNtsCookieVerify_keeps (e := e) (h := h) ..
  | ntsResponseEncrypt port ticket => exact execNtsResponseEncrypt_keeps (e := e) (h := h) ..
  | ticketLoadDeadline port ticket => exact execTicketLoadDeadline_keeps (e := e) (h := h) ..
  | lateToleranceExpiry port ticket => exact execLateToleranceExpiry_keeps (e := e) (h := h) ..
  | gateRelease port ticket => exact execGateRelease_keeps (e := e) (h := h) ..
  | txFrameDone port ticket => exact execTxFrameDone_keeps (e := e) (h := h) ..
  | egressCrossingReport port ticket capture => exact execEgressCrossingReport_keeps (e := e) (h := h) ..
  | unstakedFrameSend port => exact execUnstakedFrameSend_keeps (e := e) (h := h) ..
  | gridModelRefresh port anchor spacing codePos byte4 => exact execGridModelRefresh_keeps (e := e) (h := h) ..
  | ptpIssue schedule announce => exact execPtpIssue_keeps (e := e) (h := h) ..
  | grantRequest => exact execGrantRequest_keeps (e := e) (h := h) ..
  | grantCancel => exact execGrantCancel_keeps (e := e) (h := h) ..
  | grantExpiry index => exact execGrantExpiry_keeps (e := e) (h := h) ..
  | announcementRepeat sa => exact execAnnouncementRepeat_keeps (e := e) (h := h) ..
  | svpCounterClear pl => exact execSvpCounterClear_keeps (e := e) (h := h) ..
  | skoCounterClear port => exact execSkoCounterClear_keeps (e := e) (h := h) ..
  | stakeCompensationChange n addr value path => exact execStakeCompensationChange_keeps (e := e) (h := h) ..
  | stakeSelfTestStart n => exact execStakeSelfTestStart_keeps (e := e) (h := h) ..
  | stakeSelfTestDone n loopPs => exact execStakeSelfTestDone_keeps (e := e) (h := h) ..
  | followUpSend n => exact execFollowUpSend_keeps (e := e) (h := h) ..
  | variableLatencyMeasure n vrx vtx => exact execVariableLatencyMeasure_keeps (e := e) (h := h) ..
  | linkUp port report => exact execLinkUp_keeps (e := e) (h := h) ..
  | linkDown port sigdet lf rf feclock => exact execLinkDown_keeps (e := e) (h := h) ..
  | pauseEnd port tc => exact execPauseEnd_keeps (e := e) (h := h) ..
  | flowControlRefresh port cls => exact execFlowControlRefresh_keeps (e := e) (h := h) ..
  | pathSwitch pair => exact execPathSwitch_keeps (e := e) (h := h) ..
  | pathRevert pair => exact execPathRevert_keeps (e := e) (h := h) ..
  | prtCounterClear port => exact execPrtCounterClear_keeps (e := e) (h := h) ..
  | fieldTxAttempt n quiet => exact execFieldTxAttempt_keeps (e := e) (h := h) ..
  | fieldCollision n level => exact execFieldCollision_keeps (e := e) (h := h) ..
  | beaconLost n => exact execBeaconLost_keeps (e := e) (h := h) ..
  | mdioCommand path value => exact execMdioCommand_keeps (e := e) (h := h) ..
  | mdioDone data => exact execMdioDone_keeps (e := e) (h := h) ..
  | wakeEvent input => exact execWakeEvent_keeps (e := e) (h := h) ..
  | transitEdge ch falling code narrow => exact execTransitEdge_keeps (e := e) (h := h) ..
  | transitStampAccept ch held => exact execTransitStampAccept_keeps (e := e) (h := h) ..
  | transitRecordOut => exact execTransitRecordOut_keeps (e := e) (h := h) ..
  | evqPop => exact execEvqPop_keeps (e := e) (h := h) ..
  | trnResSeqRead reader ch => exact execTrnResSeqRead_keeps (e := e) (h := h) ..
  | transitSettingChange ch addr value path => exact execTransitSettingChange_keeps (e := e) (h := h) ..
  | transitStartOverflow ch => exact execTransitStartOverflow_keeps (e := e) (h := h) ..
  | converterCalibrationDone ch conv hist => exact execConverterCalibrationDone_keeps (e := e) (h := h) ..
  | converterRotate ch conv => exact execConverterRotate_keeps (e := e) (h := h) ..
  | oscinDetect count => exact execOscinDetect_keeps (e := e) (h := h) ..
  | oscinLoss => exact execOscinLoss_keeps (e := e) (h := h) ..
  | todMessage port bytes => exact execTodMessage_keeps (e := e) (h := h) ..
  | pulseMissing n => exact execPulseMissing_keeps (e := e) (h := h) ..
  | refQualifyTimer n => exact execRefQualifyTimer_keeps (e := e) (h := h) ..
  | refWtrExpiry n => exact execRefWtrExpiry_keeps (e := e) (h := h) ..
  | refSwitchDone c => exact execRefSwitchDone_keeps (e := e) (h := h) ..
  | closureEvaluation => exact execClosureEvaluation_keeps (e := e) (h := h) ..
  | channelLock c => exact execChannelLock_keeps (e := e) (h := h) ..
  | holdoverTimeout c => exact execHoldoverTimeout_keeps (e := e) (h := h) ..
  | benchmarkSample temp => exact execBenchmarkSample_keeps (e := e) (h := h) ..
  | benchmarkRefit => exact execBenchmarkRefit_keeps (e := e) (h := h) ..
  | benchmarkTempRead reply => exact execBenchmarkTempRead_keeps (e := e) (h := h) ..
  | syn0LossOfLock => exact execSyn0LossOfLock_keeps (e := e) (h := h) ..
  | clockRestart => exact execClockRestart_keeps (e := e) (h := h) ..
  | dramResume => exact execDramResume_keeps (e := e) (h := h) ..
  | syn0Lasting => exact execSyn0Lasting_keeps (e := e) (h := h) ..
  | synAuxLol => exact execSynAuxLol_keeps (e := e) (h := h) ..
  | clkDoubleLoss => exact execClkDoubleLoss_keeps (e := e) (h := h) ..
  | synLol n => exact execSynLol_keeps (e := e) (h := h) ..
  | synLock n => exact execSynLock_keeps (e := e) (h := h) ..
  | synSettleDone n => exact execSynSettleDone_keeps (e := e) (h := h) ..
  | synRelockChange path addr value => exact execSynRelockChange_keeps (e := e) (h := h) ..
  | synSteerApply c => exact execSynSteerApply_keeps (e := e) (h := h) ..
  | rampGo n value => exact execRampGo_keeps (e := e) (h := h) ..
  | rampSegmentDone n => exact execRampSegmentDone_keeps (e := e) (h := h) ..
  | rampStop n value => exact execRampStop_keeps (e := e) (h := h) ..
  | syncInEdge => exact execSyncInEdge_keeps (e := e) (h := h) ..
  | outputLimitMeasure out mhz => exact execOutputLimitMeasure_keeps (e := e) (h := h) ..
  | limitClear out value => exact execLimitClear_keeps (e := e) (h := h) ..
  | limitAutoRelease out => exact execLimitAutoRelease_keeps (e := e) (h := h) ..
  | claimFrameSend => exact execClaimFrameSend_keeps (e := e) (h := h) ..
  | claimFrameReceive bits => exact execClaimFrameReceive_keeps (e := e) (h := h) ..
  | claimStale => exact execClaimStale_keeps (e := e) (h := h) ..
  | activeGain => exact execActiveGain_keeps (e := e) (h := h) ..
  | dvlCmpMismatch out => exact execDvlCmpMismatch_keeps (e := e) (h := h) ..
  | heartbeatSend => exact execHeartbeatSend_keeps (e := e) (h := h) ..
  | heartbeatReceive good lanes hb stamp => exact execHeartbeatReceive_keeps (e := e) (h := h) ..
  | dvlLinkDown => exact execDvlLinkDown_keeps (e := e) (h := h) ..
  | stateRecordSend => exact execStateRecordSend_keeps (e := e) (h := h) ..
  | stateRecordApply damaged missing r => exact execStateRecordApply_keeps (e := e) (h := h) ..
  | statusRecordSend => exact execStatusRecordSend_keeps (e := e) (h := h) ..
  | pairAttestation msg chainOk => exact execPairAttestation_keeps (e := e) (h := h) ..
  | pairingRetry => exact execPairingRetry_keeps (e := e) (h := h) ..
  | bulkComplete => exact execBulkComplete_keeps (e := e) (h := h) ..
  | trackComplete => exact execTrackComplete_keeps (e := e) (h := h) ..
  | dvlYield value => exact execDvlYield_keeps (e := e) (h := h) ..
  | dvlRejoin value => exact execDvlRejoin_keeps (e := e) (h := h) ..
  | ringTailWrite ring value => exact execRingTailWrite_keeps (e := e) (h := h) ..
  | ringEnable ring value => exact execRingEnable_keeps (e := e) (h := h) ..
  | ringDisable ring value => exact execRingDisable_keeps (e := e) (h := h) ..
  | ringStopComplete ring => exact execRingStopComplete_keeps (e := e) (h := h) ..
  | upRingFrameDeliver ring slots => exact execUpRingFrameDeliver_keeps (e := e) (h := h) ..
  | ringWaitExpiry ring => exact execRingWaitExpiry_keeps (e := e) (h := h) ..
  | upRingRecord ring slots => exact execUpRingRecord_keeps (e := e) (h := h) ..
  | recordBufferCoalesce ring => exact execRecordBufferCoalesce_keeps (e := e) (h := h) ..
  | hostTxFrame ring slots data => exact execHostTxFrame_keeps (e := e) (h := h) ..
  | commandFetch k desc block => exact execCommandFetch_keeps (e := e) (h := h) ..
  | commandCompletion k => exact execCommandCompletion_keeps (e := e) (h := h) ..
  | ringIrqTimer ring => exact execRingIrqTimer_keeps (e := e) (h := h) ..
  | hostReset linkDown => exact execHostReset_keeps (e := e) (h := h) ..
  | busMasterDisable d3 => exact execBusMasterDisable_keeps (e := e) (h := h) ..
  | mspiRead bytes => exact execMspiRead_keeps (e := e) (h := h) ..
  | mspiWrite bytes => exact execMspiWrite_keeps (e := e) (h := h) ..
  | modAdd core => exact execModAdd_keeps (e := e) (h := h) ..
  | modSub core => exact execModSub_keeps (e := e) (h := h) ..
  | modMul core => exact execModMul_keeps (e := e) (h := h) ..
  | modRed core => exact execModRed_keeps (e := e) (h := h) ..
  | modExp core => exact execModExp_keeps (e := e) (h := h) ..
  | modInv core => exact execModInv_keeps (e := e) (h := h) ..
  | rsaPub core => exact execRsaPub_keeps (e := e) (h := h) ..
  | rsaPriv core => exact execRsaPriv_keeps (e := e) (h := h) ..
  | ecValidate core => exact execEcValidate_keeps (e := e) (h := h) ..
  | ecMul core => exact execEcMul_keeps (e := e) (h := h) ..
  | ecKeygen core => exact execEcKeygen_keeps (e := e) (h := h) ..
  | ecDh core => exact execEcDh_keeps (e := e) (h := h) ..
  | ecdsaSign core => exact execEcdsaSign_keeps (e := e) (h := h) ..
  | ecdsaVerify core => exact execEcdsaVerify_keeps (e := e) (h := h) ..
  | x25519 core => exact execX25519_keeps (e := e) (h := h) ..
  | x25519Keygen core => exact execX25519Keygen_keeps (e := e) (h := h) ..
  | ed25519Keygen core => exact execEd25519Keygen_keeps (e := e) (h := h) ..
  | ed25519Sign core => exact execEd25519Sign_keeps (e := e) (h := h) ..
  | ed25519Verify core => exact execEd25519Verify_keeps (e := e) (h := h) ..
  | ksImport core => exact execKsImport_keeps (e := e) (h := h) ..
  | ksGenerate core => exact execKsGenerate_keeps (e := e) (h := h) ..
  | ksPublic core => exact execKsPublic_keeps (e := e) (h := h) ..
  | ksAttest core => exact execKsAttest_keeps (e := e) (h := h) ..
  | ksErase core => exact execKsErase_keeps (e := e) (h := h) ..
  | pkeDispatch core => exact execPkeDispatch_keeps (e := e) (h := h) ..
  | pkeOpComplete core => exact execPkeOpComplete_keeps (e := e) (h := h) ..
  | pkeAbort rings => exact execPkeAbort_keeps (e := e) (h := h) ..
  | pkeCounterClear => exact execPkeCounterClear_keeps (e := e) (h := h) ..
  | ntsKeyDerive => exact execNtsKeyDerive_keeps (e := e) (h := h) ..
  | ntsEpoch => exact execNtsEpoch_keeps (e := e) (h := h) ..
  | crlCounterClear => exact execCrlCounterClear_keeps (e := e) (h := h) ..
  | rngFail => exact execRngFail_keeps (e := e) (h := h) ..
  | rngRecover => exact execRngRecover_keeps (e := e) (h := h) ..
  | ntskeSyn sa => exact execNtskeSyn_keeps (e := e) (h := h) ..
  | tlsClientHello session records => exact execTlsClientHello_keeps (e := e) (h := h) ..
  | tlsKeyUpdate session records => exact execTlsKeyUpdate_keeps (e := e) (h := h) ..
  | ntskeRequest session input => exact execNtskeRequest_keeps (e := e) (h := h) ..
  | ntskeSessionTimeout session => exact execNtskeSessionTimeout_keeps (e := e) (h := h) ..
  | ntskeSessionEnd session => exact execNtskeSessionEnd_keeps (e := e) (h := h) ..
  | certExpiry => exact execCertExpiry_keeps (e := e) (h := h) ..
  | release bootsel unitId mspiEn => exact execRelease_keeps (e := e) (h := h) ..
  | porstAssert => exact execPorstAssert_keeps (e := e) (h := h) ..
  | vinGood porstLow => exact execVinGood_keeps (e := e) (h := h) ..
  | vinLost => exact execVinLost_keeps (e := e) (h := h) ..
  | vaoGood => exact execVaoGood_keeps (e := e) (h := h) ..
  | vaoLost => exact execVaoLost_keeps (e := e) (h := h) ..
  | bootSlotHeader readable => exact execBootSlotHeader_keeps (e := e) (h := h) ..
  | bootSlotBodyRead => exact execBootSlotBodyRead_keeps (e := e) (h := h) ..
  | bootSignatureVerify => exact execBootSignatureVerify_keeps (e := e) (h := h) ..
  | bootFirmwareStart laneFail coreFail rngOk => exact execBootFirmwareStart_keeps (e := e) (h := h) ..
  | bootRegsApply => exact execBootRegsApply_keeps (e := e) (h := h) ..
  | bootKeysLoad => exact execBootKeysLoad_keeps (e := e) (h := h) ..
  | bootCertsCheck => exact execBootCertsCheck_keeps (e := e) (h := h) ..
  | bootEnd => exact execBootEnd_keeps (e := e) (h := h) ..
  | bootTimeout => exact execBootTimeout_keeps (e := e) (h := h) ..
  | dramTrainingDone => exact execDramTrainingDone_keeps (e := e) (h := h) ..
  | flashRead path value => exact execFlashRead_keeps (e := e) (h := h) ..
  | flashProgram path value => exact execFlashProgram_keeps (e := e) (h := h) ..
  | flashErase path value => exact execFlashErase_keeps (e := e) (h := h) ..
  | flashOpDone failed => exact execFlashOpDone_keeps (e := e) (h := h) ..
  | modeRequestMaint path value => exact execModeRequestMaint_keeps (e := e) (h := h) ..
  | modeRequestSafe path value => exact execModeRequestSafe_keeps (e := e) (h := h) ..
  | modeRequestDormant path value => exact execModeRequestDormant_keeps (e := e) (h := h) ..
  | modeRequestRestart path value => exact execModeRequestRestart_keeps (e := e) (h := h) ..
  | surveyTimeout => exact execSurveyTimeout_keeps (e := e) (h := h) ..
  | safeAutorst => exact execSafeAutorst_keeps (e := e) (h := h) ..
  | iobankChange path value => exact execIobankChange_keeps (e := e) (h := h) ..
  | iobankSettle => exact execIobankSettle_keeps (e := e) (h := h) ..
  | faultEvent => exact execFaultEvent_keeps (e := e) (h := h) ..
  | patrolScrub ecc => exact execPatrolScrub_keeps (e := e) (h := h) ..
  | alarmAck value => exact execAlarmAck_keeps (e := e) (h := h) ..
  | irqEoi value => exact execIrqEoi_keeps (e := e) (h := h) ..
  | fbkEntryAccept => exact execFbkEntryAccept_keeps (e := e) (h := h) ..
  | fbkSealSigned seg => exact execFbkSealSigned_keeps (e := e) (h := h) ..
  | fbkSealPeriod => exact execFbkSealPeriod_keeps (e := e) (h := h) ..
  | fbkChainResume => exact execFbkChainResume_keeps (e := e) (h := h) ..
  | fbkSeal k => exact execFbkSeal_keeps (e := e) (h := h) ..
  | fbkReadseg k ecc => exact execFbkReadseg_keeps (e := e) (h := h) ..
  | fbkReadtail k => exact execFbkReadtail_keeps (e := e) (h := h) ..
  | fbkMark k => exact execFbkMark_keeps (e := e) (h := h) ..
  | fbkHead k => exact execFbkHead_keeps (e := e) (h := h) ..
  | pmcSelWrite u k value => exact execPmcSelWrite_keeps (e := e) (h := h) ..
  | pmcClearAll => exact execPmcClearAll_keeps (e := e) (h := h) ..
  | pmcSnapshot => exact execPmcSnapshot_keeps (e := e) (h := h) ..
  | pmcSnapPeriod => exact execPmcSnapPeriod_keeps (e := e) (h := h) ..
  | tagEnable value => exact execTagEnable_keeps (e := e) (h := h) ..
  | spuInstructionTag spu offered source stall pc fetch issue exec => exact execSpuInstructionTag_keeps (e := e) (h := h) ..
  | extest => exact execExtest_keeps (e := e) (h := h) ..
  | idcode => exact execIdcode_keeps (e := e) (h := h) ..
  | samplePreload => exact execSamplePreload_keeps (e := e) (h := h) ..
  | extestPulse => exact execExtestPulse_keeps (e := e) (h := h) ..
  | extestTrain => exact execExtestTrain_keeps (e := e) (h := h) ..
  | highz => exact execHighz_keeps (e := e) (h := h) ..
  | clamp => exact execClamp_keeps (e := e) (h := h) ..
  | bypass => exact execBypass_keeps (e := e) (h := h) ..
  | syn0Lock => exact execSyn0Lock_keeps (e := e) (h := h) ..
  | synAuxLock => exact execSynAuxLock_keeps (e := e) (h := h) ..
  | pcieLinkUp speed width => exact execPcieLinkUp_keeps (e := e) (h := h) ..
  | busMasterEnable d3 msix => exact execBusMasterEnable_keeps (e := e) (h := h) ..
  | beaconReceive n => exact execBeaconReceive_keeps (e := e) (h := h) ..
  | beaconSend n => exact execBeaconSend_keeps (e := e) (h := h) ..
  | fieldRxClkChange n running => exact execFieldRxClkChange_keeps (e := e) (h := h) ..
  | bulkFrameReceive good clients grants last => exact execBulkFrameReceive_keeps (e := e) (h := h) ..
  | statusRecordReceive good r => exact execStatusRecordReceive_keeps (e := e) (h := h) ..
  | hostFrameSent port capture => exact execHostFrameSent_keeps (e := e) (h := h) ..
  | vaolow => exact execVaolow_keeps (e := e) (h := h) ..
  | dvlLaneDown lane => exact execDvlLaneDown_keeps (e := e) (h := h) ..

end Sys2Proof.Machine
end

