-- ==== Sys2Proof/Laws/Synth.lean ====
section
/-! SUPPORT. What a change of rate, ratio or period leaves alone on its way through the synthesizers and the limiters. -/
namespace Sys2Proof.Machine

/-- A quotient is below a whole number exactly when the products say so. -/
theorem Frac.of_lt_int (n m : Int) {d : Nat} (hd : d ≠ 0) : (Frac.of n d).lt (.int m) = decide (n < m * d) := by
  have hg : Nat.gcd n.natAbs d ∣ d := Nat.gcd_dvd_right _ _
  have hn : ((Nat.gcd n.natAbs d : Nat) : Int) ∣ n := Int.ofNat_dvd_left.mpr (Nat.gcd_dvd_left _ _)
  have hp : 0 < Nat.gcd n.natAbs d := Nat.gcd_pos_of_pos_right _ (by omega)
  unfold Frac.of Frac.lt Frac.int
  rw [if_neg hd]
  dsimp only
  generalize Nat.gcd n.natAbs d = g at hg hn hp
  obtain ⟨k, rfl⟩ := hg
  obtain ⟨q, rfl⟩ := hn
  refine decide_eq_decide.mpr ?_
  rw [Int.mul_ediv_cancel_left q (by omega), Nat.mul_div_cancel_left k hp, Int.natCast_mul, Int.mul_left_comm m g k]
  constructor
  · intro h; exact Int.mul_lt_mul_of_pos_left (by simpa using h) (by omega)
  · intro h; simpa using Int.lt_of_mul_lt_mul_left h (by omega)

/-- The registers of Synthesis. -/
def synReg (a : Nat) : Bool := decide (0x40000 ≤ a ∧ a < 0x50000)

theorem foldl_keeps_rd {α : Type} {g : State → α → State} {l : List α} {a : Nat} (hg : ∀ t, ∀ x ∈ l, (g t x).rd a = t.rd a) (s : State) :
    (l.foldl g s).rd a = s.rd a := by
  induction l generalizing s with
  | nil => rfl
  | cons x l ih =>
    rw [List.foldl_cons, ih (fun t y hy => hg t y (List.mem_cons_of_mem x hy)), hg s x List.mem_cons_self]

theorem limitTrip_rd (o : Fin 12) (freq check : Nat) (s : State) {a : Nat} (h : synReg a = false) (he : eventReg a = false) :
    (limitTrip o freq check s).rd a = s.rd a := by
  unfold limitTrip
  extract_lets _ t
  have ht : t.rd a = s.rd a := rfl
  clear_value t
  split
  · exact ht
  · have c : ChangesOnly synReg t (irqSet 6 A.SYN_IRQ_STAT 10 (t.set (F.SYN_OUT_STAT_LIMIT o) 1)) := by
      refine ((ChangesOnly.refl _ t).set _ _ (.inl ?_)).irqSet 6 _ _ (.inl (by decide))
      have : 0x40000 ≤ A.SYN_OUT_STAT o ∧ A.SYN_OUT_STAT o < 0x50000 := by simp only [A.SYN_OUT_STAT]; omega
      simpa [synReg] using this
    show State.rd _ a = _
    rw [← ht, ← c.regs a h he]
    rfl

/-- Only registers of Synthesis change. -/
theorem synthChanged_rd (s : State) {a : Nat} (h : synReg a = false) (he : eventReg a = false) : (synthChanged s).rd a = s.rd a := by
  unfold synthChanged
  rw [foldl_keeps_rd, foldl_keeps_rd]
  · intro t n _
    unfold showSynth
    extract_lets i
    refine State.rd_set_other t _ _ a ?_
    rintro rfl
    revert h
    have : 0x40000 ≤ A.SYN_SYN_STAT i ∧ A.SYN_SYN_STAT i < 0x50000 := by simp only [A.SYN_SYN_STAT]; omega
    simp [synReg, this]
  · intro t o _
    unfold limitCheck
    split
    · exact limitTrip_rd o _ _ t h he
    · rfl

end Sys2Proof.Machine
end

