-- ==== Sys2Proof/Tests/Slice0.lean ====
section
/-! SUPPORT. Tests: well-formedness, witnesses for the statements, and single steps against worked examples of the spec. -/
namespace Sys2Proof.Tests
open Sys2Proof Sys2Proof.Machine

/-- A powered device in mode m that admits register writes, every domain on, both system clocks locked, its DRAM trained and its Datum started. -/
def device (m : Nat) : State :=
  let s := ((((State.reset.set F.SYS_MODE_STAT_MODE m).set F.SYS_PWR_STAT_ON 0xFFF).set F.SYN_STAT_SYN0LOCK 1).set F.SYN_STAT_AUXLOCK 1).set F.HMI_MEM_STAT_TRAINED 1
  { s with sys := { s.sys with writesOpen := true, banksSet := true }, dtm := { s.dtm with started := true } }

/-- A device whose active domain takes CH0 and whose other domain takes PC0, both with a TAI-UTC of 40 s for a minute. -/
def utcHeard : State :=
  let s := ((device 2).set F.DTM_FS_CFG_SRC 0).set F.DTM_BS_CFG_SRC 1
  { s with dtm := { s.dtm with utcCh0 := ⟨true, 40, 60001, 0, none, false⟩, utcPc0 := ⟨true, 40, 60001, 0, none, false⟩ } }

/-- A master that PC0 has selected. -/
def heard : Announced := ⟨6, 0x21, 0x4E5D, 0x20, 0, 0, 0x020000000001⟩

/-- A device whose PC0 runs on port 0 over Ethernet and has selected a master. -/
def client : State :=
  let s := ((device 2).set (F.DTM_PC_CFG_EN 0) 1).set (F.DTM_PC_CFG_TRANSPORT 0) 0
  { s with dtm := { s.dtm with pc0 := { s.dtm.pc0 with started := true, nextSeq := 7, announce := some heard } } }

/-- A client whose master is the port 0x0A0B, changed, with one message waiting. -/
def clientHeard (f : PtpClient → PtpClient) (m : PcMsg) : State :=
  { client with dtm := { client.dtm with pc0 := { f client.dtm.pc0 with master := 0x0A0B, inbox := [m] } } }

/-- A message of that port with a body, and the Sync that went before it. -/
def ptpMsg (kind flags : Nat) (body : Bytes) : PcMsg := ⟨ptpMessage kind 0 flags 0 0x0A0B 9 0 body, 5, 0x020000000001, 0⟩
def sync0 : SyncSeen := ⟨0x0A0B, 9, 3, 0, true⟩

/-- An envelope between two stations. -/
def env0 : Envelope := ⟨0x020000000001, 0x020000000002, 0, false, false, 0x0A000001, 0x0A000002, 123, 123, 64⟩

/-- A unicast request for Announce messages (kind 11), or for another type, each 2 s, for 300 s. -/
def asking (kind : Nat) : Bytes := natBE 1 (16 * kind) ++ natBE 1 1 ++ natBE 4 300

/-- A device that answers PTP and has a Signaling message with one TLV waiting. -/
def asked (t : Nat) (v : Bytes) : State :=
  let s := (device 2).set F.SVP_CFG_PTPEN 1
  { s with svp := { s.svp with signaling := [⟨0, env0, 0x0A0B, s.get F.SVP_PTP_CFG_DOMAIN, false, [(t, v)]⟩] } }

/-- A frame of 64 bytes with its FCS, of an EtherType. -/
def frame64 (etype : Nat) : Bytes := withFcs (natBE 6 0x0180C2000001 ++ natBE 6 2 ++ natBE 2 etype ++ zeros 46)

/-- A device whose port 0 is up. -/
def linked : State :=
  let s := (device 2).set (F.PRT_P_STAT_LINK 0) 1
  s.setPort 0 { s.port 0 with suspended := false }

/-- An NTP request from 10.0.0.1 to the service address 10.0.0.2 of port 0, without FCS (R77, R82). -/
def ntpAsk : Bytes := env0.frame (natBE 1 0x23 ++ zeros 39 ++ natBE 8 5)

/-- A device that serves NTP on 10.0.0.2, address 0 of port 0. -/
def serving : State :=
  ((((((linked.set F.SVP_CFG_NTPEN 1).set (F.SVP_SA_CTL_EN 0) 1).set (F.SVP_SA_CTL_NTP 0) 1).wr (A.SVP_SA_ADDR_W0 0) 0x0A000002).wr (A.SVP_SA_MAC_W0 0) 1).wr (A.SVP_SA_MAC_W1 0) 0x0200)

/-- An item of a pipeline. -/
def item0 : PlItem := ⟨0, ntpAsk, 5, none⟩

/-- An NTS job with its fields built. -/
def job0 : NtsJob := ⟨zeros 32, zeros 32, 1, 48, some (zeros 8)⟩

/-- A ticket of port 0 in a state, due at 1 ms. -/
def ticket0 (st : TicketState) : Ticket :=
  ⟨7, st, .ntpBasic, 1000000 * 65536, 1, 0, 0, 100, false, 0, 0, 0, env0, zeros 48, none, none, none⟩

/-- A linked device that holds one ticket, with the Datum at an instant. -/
def holding (t : Ticket) (now : Nat) : State :=
  let s := linked.setPort 0 { linked.port 0 with tickets := [t] }
  { s with dtm := s.dtm.load (now * 65536 * 2 ^ 48) }

/-- Port 0 over its flow-control threshold, with an onset sent at instant 0 and the Datum at 1 s. -/
def flowing : State :=
  let s := ((linked.set (F.PRT_P_FCTH_XON 0) 0).set (F.PRT_P_FC_QUANTA 0) 1)
  { s with dtm := s.dtm.load (secUnits * 2 ^ 48), prt := { s.prt with onsets := [⟨0, none, 0⟩] }
           svp := { s.svp with queues := s.svp.queues.set 0 [item0] } }

/-- Pair 1 on its backup path, with its primary up since instant 0 and the Datum past the wait to revert. -/
def reverting : State :=
  let s := ((((device 2).set (F.PRT_PAIR_CFG_EN 1) 1).set (F.PRT_PAIR_CFG_REVERT 1) 1).set (F.PRT_PAIR_STAT_ACTIVE 1) 1).set (F.PRT_PAIR_CFG_WTR 1) 1
  { s with dtm := s.dtm.load (2 * secUnits * 2 ^ 48), prt := { s.prt with pairs := s.prt.pairs.set 1 { s.prt.pairs[1] with primaryUp := some 0 } } }

/-- An edge of the timebase. -/
def edge0 : TrnEdge := ⟨0, 0, 1, 1, 1, false⟩

/-- A record of a channel. -/
def rec0 : TrnRecord := ⟨1, 0, 1, 5, 0, true, true⟩

/-- A device with a Transit channel changed. -/
def withChan (n : Fin 24) (f : TrnChan → TrnChan) : State := (device 2).setChan n (f ((device 2).chan n))

/-- A state with the timebase at a count of DCLK cycles. -/
def atCoarse (c : Nat) (s : State) : State := { s with trn := { s.trn with coarse := c } }

/-- A channel whose converter 0 serves. -/
def oneServing (c : TrnChan) : TrnChan := { c with convs := c.convs.set 0 { c.convs[0] with serving := true } }

/-- A device with an input in a state and a time in it. -/
def atInput (i : Fin 12) (st timer : Nat) (was : Bool) : State :=
  ((device 2).set (F.TRV_REF_STAT_STATE i) st).setInput i { (device 2).input i with timer := timer, everAvailable := was }

/-- A device at the end of an hour, whose models are seeded and not yet in the learning phase that this gives them. -/
def learnt : State :=
  let s := device 2
  { s with bm := { s.bm with hourTicks := 3600000, osc := { s.bm.osc with seeded := true }, xtal := { s.bm.xtal with seeded := true } } }

/-- A unit of a pair whose link runs. -/
def inPairs : State := ((device 2).set F.DVL_CFG_EN 1).set (F.SYN_SYN_STAT_LOCKED 2) 1

/-- A state record and a status record. -/
def stateRec : StateRecord :=
  { cycle := 1, datum := 0, dtmState := 2, dtmActive := 0, rate := 0, utc := 37, leap := 0, leapDay := 0, smear := false, domains := [], traverse := [],
    epoch := 0, kcv := 0, refs := [], grants := [], clients := [] }

/-- A device whose PCIe link and bus mastering are on. -/
def hosted : State := ((device 2).set F.HMI_STAT_LINK 1).set F.HMI_STAT_BME 1

/-- A hosted device whose ring n runs with 2^SIZE slots and has one slot handed over. -/
def withRing (n : Nat) (s : State) : State :=
  (((s.set (F.HMI_R_CFG_EN n) 1).set (F.HMI_R_CFG_SIZE n) 6).set (F.HMI_R_TAIL_TAIL n) 1).set (F.HMI_R_CFG_BUFSZ n) 4

/-- A descriptor of 60 bytes with EOP for a port. -/
def desc (port : Nat) : Desc := ⟨0x1000, 60, 5, 1, 0, 0, port⟩

/-- A host command with a block. -/
def cmd0 (b : Bytes) : HostCmd := ⟨1, 5, 0, b, 0x2000, 131264, false, false, false, none, none, 0⟩

/-- A command block of one word (LEN 1) with three operands. -/
def block3 (op m x y : Nat) : Bytes := natLE 1 op ++ natLE 1 0 ++ natLE 2 1 ++ zeros 12 ++ natBE 8 m ++ natBE 8 x ++ natBE 8 y

/-- An operation that a core has not computed yet. -/
def op0 (b : Bytes) : PkeOp := ⟨.session 1, b, none, none, 0⟩

/-- A device whose core 15 runs it. -/
def running (b : Bytes) : State := (device 2).setCore 15 (some (op0 b))

/-- A key of a slot. -/
def key0 : KeySlot := ⟨1, 0xFF, 256, 2, zeros 32, zeros 65⟩

/-- A unit of a pair with the right to drive. -/
def claiming : State := (inPairs.set F.DVL_STAT_ACTIVE 0).set F.DVL_STAT_STALE 1

/-- A session of the key-establishment server in a phase. -/
def session0 (phase : Nat) : KeSession :=
  { id := 3, port := 0, phase := phase, since := 0, retried := false, suite := 0x1301, group := 1, cert := 0, share := [], scalar := [], secret := [], sa := 0, peer := (5, 6)
    legacy := [], transcript := [], hello := [], flight := [], rx := ⟨[], 0⟩, tx := ⟨[], 0⟩, clientNext := [], finished := false, early := 0, stream := [], part := []
    data := [], closed := false }

/-- A device with a session in a phase, a valid certificate of scheme 1, and an offer of the cipher suite and the group. -/
def keState (phase : Nat) : State :=
  let s := (((((device 2).set (F.SPU_KE_CERT_EN 0) 1).setBit A.SPU_KE_STAT 24).set (F.SPU_KE_CERT_SCHEME 0) 1).set F.SPU_KE_CFG_AES128 1).set F.SPU_KE_GRP_G0 1
  { s with ke := { s.ke with sessions := [session0 phase], nextId := 4 }, now := 10 ^ 12 }

/-- A segment from port 5 of 10.0.0.1 to port 4460 of 10.0.0.2 with the flags of a SYN, and the item of it on port 0. -/
def syn0 : Nat × PlItem :=
  (0, ⟨0, natBE 6 1 ++ natBE 6 2 ++ natBE 2 0x0800 ++ natBE 1 0x45 ++ zeros 1 ++ natBE 2 40 ++ zeros 5 ++ natBE 1 6 ++ zeros 2 ++ natBE 4 0x0A000001 ++ natBE 4 0x0A000002
    ++ natBE 2 5 ++ natBE 2 4460 ++ zeros 8 ++ natBE 2 0x5002 ++ zeros 6, 5, none⟩)

/-- A ClientHello that offers TLS 1.3 with an ALPN name, cipher suites, groups, key shares of x25519 and the scheme 0x0503, and what is read from it. -/
def helloMsg (alpn : String) (suites groups shares : Bytes) : Bytes :=
  handshake 1 (natBE 2 0x0303 ++ zeros 32 ++ lenBytes 1 [] ++ lenBytes 2 suites ++ lenBytes 1 [0]
    ++ lenBytes 2 (tlsExt 43 (lenBytes 1 (natBE 2 0x0304)) ++ tlsExt 16 (lenBytes 2 (lenBytes 1 (label alpn))) ++ tlsExt 10 (lenBytes 2 groups)
      ++ tlsExt 13 (lenBytes 2 (natBE 2 0x0503)) ++ tlsExt 51 (lenBytes 2 shares)))
def helloOf (alpn : String) (suites groups : List Nat) (shares : List (Nat × Bytes)) : Hello := ⟨[], suites, [label alpn], groups, shares, [1], false⟩

/-- A device in a stage of BOOT that reads slot 0. -/
def inStage (st : BootStage) : State := State.reset.setBoot { State.reset.sys.boot with stage := st, slot := some 0, headers := [0, 1], since := 0 }

/-- A fault event. -/
def event0 : FaultEv := ⟨.prtFec, 3, 0, 0, 0, 0⟩

/-- An entry, and the place of one in a queue. -/
def entry0 : Entry := ⟨5, 0x07FF, 0x0703, 1, 2, 3, 4, false⟩
def queued0 : QEntry := ⟨7, 0, entry0⟩

/-- A stored segment of one entry without its seal block. -/
def seg0 : Segment := ⟨[entry0], zeros 48, none, 0, false⟩

set_option maxRecDepth 100000
set_option Elab.async false

/-! ## For every statement with hypotheses, states and operands that meet them -/

/-- States and operands that meet the hypotheses of EmptyQueueLetsOnePeriodPass, clause by clause. -/
theorem witness_EmptyQueueLetsOnePeriodPass : ∃ s : State, s.pending = [] :=
  ⟨State.reset, by decide +kernel⟩

/-- States and operands that meet the hypotheses of StepTakesExactlyOneCommand, clause by clause. -/
theorem witness_StepTakesExactlyOneCommand : ∃ s : State, ∃ t : State, step s = .next t :=
  ⟨{ device 2 with pending := [.idcode, .bypass] }, { (tapTake 1 (device 2)) with pending := [.bypass], out := [.tdo (natLE 4 idcode)] }, rfl⟩

/-- States and operands that meet the hypotheses of EveryStepKeepsTheCanonicalForm, clause by clause. -/
theorem witness_EveryStepKeepsTheCanonicalForm : ∃ s : State, ∃ t : State, Canonical s ∧ step s = .next t :=
  ⟨{ device 2 with pending := [.bypass] }, tapTake 0 (device 2), ⟨by decide +kernel, by decide +kernel⟩, rfl⟩

/-- States and operands that meet the hypotheses of WriteBeforeBootEndSetsOnlyWdrop, clause by clause. -/
theorem witness_WriteBeforeBootEndSetsOnlyWdrop : ∃ s : State, accessible s = true ∧ s.sys.writesOpen = false :=
  ⟨State.reset.set F.SYN_STAT_AUXLOCK 1, by decide +kernel, by decide +kernel⟩

/-- States and operands that meet the hypotheses of UnassignedAddressReadsZeroAndIgnoresWrites, clause by clause. -/
theorem witness_UnassignedAddressReadsZeroAndIgnoresWrites : ∃ a : Nat, ∃ s : State, findRow a = none ∧ inMsix a = false ∧ inPba a = false ∧ readPrepare a s = s ∧ Admits s :=
  ⟨0xFFFFFC, device 2, by decide +kernel, by decide +kernel, by decide +kernel, rfl, ⟨by decide +kernel, by decide +kernel, by decide +kernel⟩⟩

/-- States and operands that meet the hypotheses of PartialPcieWriteIsDiscardedAndRecorded, clause by clause. -/
theorem witness_PartialPcieWriteIsDiscardedAndRecorded : ∃ addr : BitVec 24, ∃ be : BitVec 4, ∃ s : State, Admits s ∧ (findRow (addr.toNat / 4 * 4)).isSome = true ∧ be ≠ 15 :=
  ⟨1610, 14, device 2, ⟨by decide +kernel, by decide +kernel, by decide +kernel⟩, by decide +kernel, by decide +kernel⟩

/-- States and operands that meet the hypotheses of LiveRegisterWriteActsByItsAccessCodes, clause by clause. -/
theorem witness_LiveRegisterWriteActsByItsAccessCodes : ∃ p : Path, ∃ addr : BitVec 24, ∃ s : State, ∃ r : RegRow, Admits s ∧ Canonical s ∧ addr.toNat % 4 = 0 ∧ findRow addr.toNat = some r ∧ liveRow addr.toNat = true ∧ liveOff s addr.toNat = false ∧ hookIndex p addr.toNat = none ∧ selAt addr.toNat = none ∧ eventReg addr.toNat = false :=
  ⟨.mw0, 0x14, device 2, (findRow 0x14).get (by decide +kernel), ⟨by decide +kernel, by decide +kernel, by decide +kernel⟩, ⟨by decide +kernel, by decide +kernel⟩, by decide +kernel, (Option.some_get _).symm, by decide +kernel, by decide +kernel, by decide +kernel, by decide +kernel, by decide +kernel⟩

/-- States and operands that meet the hypotheses of ImageWriteNeedsMaintOrAGrant, clause by clause. -/
theorem witness_ImageWriteNeedsMaintOrAGrant : ∃ p : Path, ∃ addr : BitVec 24, ∃ s : State, ∃ r : RegRow, Admits s ∧ addr.toNat % 4 = 0 ∧ findRow addr.toNat = some r ∧ r.image = true ∧ r.words = 1 ∧ waits r addr.toNat = false ∧ inMsix addr.toNat = false ∧ inPba addr.toNat = false ∧ s.mode ≠ mMaint ∧ granted s addr.toNat = false ∧ ownedWhole (countAccess p s) addr.toNat = false ∧ ownedPart (countAccess p s) addr.toNat = false ∧ eventReg addr.toNat = false :=
  ⟨.mspi, BitVec.ofNat 24 A.SYS_IOBANK, device 2, (findRow A.SYS_IOBANK).get (by decide +kernel), ⟨by decide +kernel, by decide +kernel, by decide +kernel⟩, by decide +kernel, (Option.some_get _).symm, by decide +kernel, by decide +kernel, by decide +kernel, by decide +kernel, by decide +kernel, by decide +kernel, by decide +kernel, by decide +kernel, by decide +kernel, by decide +kernel⟩

/-- States and operands that meet the hypotheses of LivelockTakesItsFirstWriteOnly, clause by clause. -/
theorem witness_LivelockTakesItsFirstWriteOnly :
    (∃ s : State, Admits s ∧ Canonical s ∧ s.sys.liveLocked = false)
    ∧ (∃ s : State, Admits s ∧ Canonical s ∧ s.sys.liveLocked = true) :=
  ⟨⟨device 2, ⟨by decide +kernel, by decide +kernel, by decide +kernel⟩, ⟨by decide +kernel, by decide +kernel⟩, by decide +kernel⟩,
   ⟨{ device 2 with sys := { (device 2).sys with liveLocked := true } }, ⟨by decide +kernel, by decide +kernel, by decide +kernel⟩, ⟨by decide +kernel, by decide +kernel⟩, by decide +kernel⟩⟩

/-- States and operands that meet the hypotheses of ReadsAnswerOnTheirPath, clause by clause. -/
theorem witness_ReadsAnswerOnTheirPath :
    (∃ addr : BitVec 24, ∃ a : Nat, ∃ r : RegRow, ∃ s : State, accessible s = true ∧ Canonical s ∧ a = addr.toNat / 4 * 4 ∧ findRow a = some r ∧ r.word = 0 ∧ inMsix a = false ∧ inPba a = false ∧ liveOff s a = false ∧ readPrepare a s = s ∧ eventReg a = false ∧ r.words = 1)
    ∧ (∃ addr : BitVec 24, ∃ a : Nat, ∃ r : RegRow, ∃ s : State, accessible s = true ∧ Canonical s ∧ a = addr.toNat / 4 * 4 ∧ findRow a = some r ∧ r.word = 0 ∧ inMsix a = false ∧ inPba a = false ∧ liveOff s a = false ∧ readPrepare a s = s ∧ eventReg a = false ∧ 1 < r.words) :=
  ⟨⟨BitVec.ofNat 24 (A.DTM_IRQ_STAT), A.DTM_IRQ_STAT, (findRow (A.DTM_IRQ_STAT)).get (by decide +kernel), device 2, by decide +kernel, ⟨by decide +kernel, by decide +kernel⟩, by decide +kernel, (Option.some_get _).symm, by decide +kernel, by decide +kernel, by decide +kernel, by decide +kernel, rfl, by decide +kernel, by decide +kernel⟩,
   ⟨BitVec.ofNat 24 (A.DTM_CMP_TGT_W0 15), A.DTM_CMP_TGT_W0 15, (findRow (A.DTM_CMP_TGT_W0 15)).get (by decide +kernel), device 2, by decide +kernel, ⟨by decide +kernel, by decide +kernel⟩, by decide +kernel, (Option.some_get _).symm, by decide +kernel, by decide +kernel, by decide +kernel, by decide +kernel, rfl, by decide +kernel, by decide +kernel⟩⟩

/-- States and operands that meet the hypotheses of WideReadIsConsistent, clause by clause. -/
theorem witness_WideReadIsConsistent : ∃ p : Path, ∃ a : Nat, ∃ s : State, ∃ u : State, ∃ r : RegRow, ∃ r' : RegRow, findRow a = some r ∧ findRow (a + 4) = some r' ∧ r.words = 2 ∧ r.word = 0 ∧ r'.word = 1 ∧ liveOff s a = false ∧ readPrepare a s = s ∧ liveOff u (a + 4) = false ∧ u.latches p = (hostRead p a s).2.latches p :=
  ⟨.mw0, 4, device 2, (hostRead .mw0 4 (device 2)).2, (findRow 4).get (by decide +kernel), (findRow 8).get (by decide +kernel), (Option.some_get _).symm, (Option.some_get _).symm, by decide +kernel, by decide +kernel, by decide +kernel, by decide +kernel, rfl, by decide +kernel, rfl⟩

/-- States and operands that meet the hypotheses of ModeRequestsWaitForTheTick, clause by clause. -/
theorem witness_ModeRequestsWaitForTheTick :
    (∃ p : Path, ∃ v : Word, ∃ s : State, ∃ c : Nat × Instr, Admits s ∧ c ∈ [(1, Instr.modeRequestMaint p v), (2, .modeRequestSafe p v), (3, .modeRequestDormant p v), (4, .modeRequestRestart p v)] ∧ fieldGet v 16 16 = 0x4D44 ∧ s.mode ≠ mBoot ∧ requestListed s.mode c.1 = true ∧ (c.1 = 3 → wakeEnabled s = true) ∧ s.sys.request = none)
    ∧ (∃ p : Path, ∃ v : Word, ∃ s : State, ∃ c : Nat × Instr, Admits s ∧ c ∈ [(1, Instr.modeRequestMaint p v), (2, .modeRequestSafe p v), (3, .modeRequestDormant p v), (4, .modeRequestRestart p v)] ∧ fieldGet v 16 16 = 0x4D44 ∧ s.mode ≠ mBoot ∧ requestListed s.mode c.1 = true ∧ (c.1 = 3 → wakeEnabled s = true) ∧ s.sys.request = none)
    ∧ (∃ p : Path, ∃ v : Word, ∃ s : State, ∃ c : Nat × Instr, Admits s ∧ c ∈ [(1, Instr.modeRequestMaint p v), (2, .modeRequestSafe p v), (3, .modeRequestDormant p v), (4, .modeRequestRestart p v)] ∧ fieldGet v 16 16 = 0x4D44 ∧ s.mode ≠ mBoot ∧ requestListed s.mode c.1 = true ∧ (c.1 = 3 → wakeEnabled s = true) ∧ s.sys.request = none)
    ∧ (∃ p : Path, ∃ v : Word, ∃ s : State, ∃ c : Nat × Instr, Admits s ∧ c ∈ [(1, Instr.modeRequestMaint p v), (2, .modeRequestSafe p v), (3, .modeRequestDormant p v), (4, .modeRequestRestart p v)] ∧ fieldGet v 16 16 = 0x4D44 ∧ s.mode ≠ mBoot ∧ requestListed s.mode c.1 = true ∧ (c.1 = 3 → wakeEnabled s = true) ∧ s.sys.request = none)
    ∧ (∃ p : Path, ∃ v : Word, ∃ s : State, ∃ c : Nat × Instr, Admits s ∧ c ∈ [(1, Instr.modeRequestMaint p v), (2, .modeRequestSafe p v), (3, .modeRequestDormant p v), (4, .modeRequestRestart p v)] ∧ fieldGet v 16 16 ≠ 0x4D44) :=
  ⟨⟨.mw0, 0x4D440000, device 2, (1, .modeRequestMaint .mw0 0x4D440000), ⟨by decide +kernel, by decide +kernel, by decide +kernel⟩, by simp, by decide +kernel, by decide +kernel, by decide +kernel, by decide +kernel, by decide +kernel⟩,
   ⟨.mw0, 0x4D440000, device 2, (2, .modeRequestSafe .mw0 0x4D440000), ⟨by decide +kernel, by decide +kernel, by decide +kernel⟩, by simp, by decide +kernel, by decide +kernel, by decide +kernel, by decide +kernel, by decide +kernel⟩,
   ⟨.mw0, 0x4D440000, (device 2).set F.PRT_WAKE_CFG_PINEN 1, (3, .modeRequestDormant .mw0 0x4D440000), ⟨by decide +kernel, by decide +kernel, by decide +kernel⟩, by simp, by decide +kernel, by decide +kernel, by decide +kernel, by decide +kernel, by decide +kernel⟩,
   ⟨.mw0, 0x4D440000, device 2, (4, .modeRequestRestart .mw0 0x4D440000), ⟨by decide +kernel, by decide +kernel, by decide +kernel⟩, by simp, by decide +kernel, by decide +kernel, by decide +kernel, by decide +kernel, by decide +kernel⟩,
   ⟨.mspi, 0x4D450001, device 2, (1, .modeRequestMaint .mspi 0x4D450001), ⟨by decide +kernel, by decide +kernel, by decide +kernel⟩, by simp, by decide +kernel⟩⟩

/-- States and operands that meet the hypotheses of CounterClearCommandsZeroTheirCounters, clause by clause. -/
theorem witness_CounterClearCommandsZeroTheirCounters : ∃ s : State, Admits s ∧ Canonical s ∧ (∀ port : Fin 7, liveOff s (A.PRT_CNTCLR port) = false) ∧ domainOn s 9 = true :=
  ⟨device 2, ⟨by decide +kernel, by decide +kernel, by decide +kernel⟩, ⟨by decide +kernel, by decide +kernel⟩, by decide +kernel, by decide +kernel⟩

/-- States and operands that meet the hypotheses of DatumEventsTakeEffect, clause by clause. -/
theorem witness_DatumEventsTakeEffect :
    (∃ s : State, ∃ old : Nat, ∃ new : Nat, ∃ d : Int, s.on F.DTM_STATE_SLEW = true ∧ s.dtm.slewLeft = 0 ∧ s.dtm.handoff = some (old, new, d) ∧ s.dtm.under = 2)
    ∧ (∃ s : State, ∃ r : RateChange, ∃ rest : List RateChange, s.dtm.announced = r :: rest ∧ dclkRuns s = true ∧ 0 ≤ instDiff s.datum r.due)
    ∧ (∃ s : State, 3 ≤ s.dtm.splitTicks ∧ s.on F.DTM_STATE_SPLIT = false)
    ∧ (∃ s : State, ∃ d : Int, Canonical s ∧ s.get F.DTM_UTC_STAT_PENDING ≠ 0 ∧ leapSec s.dtm.leapDay (s.get F.DTM_UTC_STAT_PENDING) s.utcOffset ≤ ((instSec s.datum : Nat) : Int) ∧ d = (if s.get F.DTM_UTC_STAT_PENDING = 1 then 1 else -1) ∧ -32768 ≤ s.utcOffset + d ∧ s.utcOffset + d ≤ 32767)
    ∧ (∃ s : State, (s.utcSource (s.domSrc s.active)).stood = true ∧ (s.utcSource (s.domSrc s.active)).offset ≠ s.utcOffset ∧ (s.set F.DTM_UTC_STAT_SRC (utcSrcCode (s.domSrc s.active))).utcOffset ≠ (s.utcSource (s.domSrc s.active)).offset)
    ∧ (∃ s : State, (s.utcSource (s.domSrc (1 - s.active))).stood = true ∧ (s.utcSource (s.domSrc (1 - s.active))).offset ≠ s.utcOffset)
    ∧ (∃ s : State, inPair s = false) :=
  ⟨⟨let s := (device 2).set F.DTM_STATE_SLEW 1; { s with dtm := { s.dtm with slewLeft := 0, under := 2, handoff := some (0, 1, -5) } }, 0, 1, -5, by decide +kernel, by decide +kernel, by decide +kernel, by decide +kernel⟩,
   ⟨{ device 2 with dtm := { (device 2).dtm with announced := [⟨0, 7, 3⟩] } }, ⟨0, 7, 3⟩, [], by decide +kernel, by decide +kernel, by decide +kernel⟩,
   ⟨{ device 2 with dtm := { (device 2).dtm with splitTicks := 3 } }, by decide +kernel, by decide +kernel⟩,
   ⟨let s := (device 2).set F.DTM_UTC_STAT_PENDING 1; { s with dtm := { s.dtm.load (90000 * secUnits * 2 ^ 48) with leapDay := 40587 } }, _, ⟨by decide +kernel, by decide +kernel⟩, by decide +kernel, by decide +kernel, rfl, by decide +kernel, by decide +kernel⟩,
   ⟨utcHeard, by decide +kernel, by decide +kernel, by decide +kernel⟩,
   ⟨utcHeard, by decide +kernel, by decide +kernel⟩,
   ⟨device 2, by decide +kernel⟩⟩

/-- States and operands that meet the hypotheses of OneDisagreeingCopyIsMasked, clause by clause. -/
theorem witness_OneDisagreeingCopyIsMasked :
    (∃ copy : Fin 3, ∃ s : State, Canonical s ∧ (copy = 0 → s.dtm.c1 = s.dtm.c2) ∧ (copy = 1 → s.dtm.c0 = s.dtm.c2) ∧ (copy = 2 → s.dtm.c0 = s.dtm.c1))
    ∧ (∃ copy : Fin 3, ∃ s : State, Canonical s ∧ (copy = 0 → s.dtm.c1 = s.dtm.c2) ∧ (copy = 1 → s.dtm.c0 = s.dtm.c2) ∧ (copy = 2 → s.dtm.c0 = s.dtm.c1))
    ∧ (∃ copy : Fin 3, ∃ s : State, Canonical s ∧ (copy = 0 → s.dtm.c1 = s.dtm.c2) ∧ (copy = 1 → s.dtm.c0 = s.dtm.c2) ∧ (copy = 2 → s.dtm.c0 = s.dtm.c1)) :=
  ⟨⟨0, { device 2 with dtm := { (device 2).dtm with c0 := 1 } }, ⟨by decide +kernel, by decide +kernel⟩, by decide +kernel, by decide +kernel, by decide +kernel⟩,
   ⟨1, { device 2 with dtm := { (device 2).dtm with c1 := 1 } }, ⟨by decide +kernel, by decide +kernel⟩, by decide +kernel, by decide +kernel, by decide +kernel⟩,
   ⟨2, { device 2 with dtm := { (device 2).dtm with c2 := 1 } }, ⟨by decide +kernel, by decide +kernel⟩, by decide +kernel, by decide +kernel, by decide +kernel⟩⟩

/-- States and operands that meet the hypotheses of CompareUnitCommandsTakeEffect, clause by clause. -/
theorem witness_CompareUnitCommandsTakeEffect :
    (∃ s : State, Admits s)
    ∧ (∃ s : State, ∃ p : Path, ∃ n : Fin 16, Admits s ∧ (let c := countAccess p s; cmpOwned c n = false) ∧ (let c := countAccess p s; cmpDue c n = false) ∧ (let c := countAccess p s; (c.copyOr p (A.DTM_CMP_TGT_W0 n + 4)).toNat % 2 ^ 30 ≥ 1000000000 ∨ (c.copyOr p (A.DTM_CMP_PER_W0 n + 4)).toNat % 2 ^ 30 ≥ 1000000000))
    ∧ (∃ s : State, ∃ p : Path, ∃ n : Fin 16, Admits s ∧ (let c := countAccess p s; cmpOwned c n = false) ∧ (let c := countAccess p s; cmpDue c n = false) ∧ (let c := countAccess p s; (c.copyOr p (A.DTM_CMP_TGT_W0 n + 4)).toNat % 2 ^ 30 < 1000000000) ∧ (let c := countAccess p s; (c.copyOr p (A.DTM_CMP_PER_W0 n + 4)).toNat % 2 ^ 30 < 1000000000) ∧ (let c := countAccess p s; let q := A.DTM_CMP_PER_W0 n; let per := wordsInstant (c.copyOr p q) (c.copyOr p (q + 4)) (c.copyOr p (q + 8) &&& 0xFFFF) 0; per = 0 ∨ 65536000 ≤ per))
    ∧ (∃ s : State, Admits s)
    ∧ (∃ s : State, ∃ n : Fin 16, cmpDue s n = true ∧ s.dtm.cmpLate.testBit n = false ∧ (s.on (F.DTM_CMP_CTL_OUTEN n) && decide (s.get (F.DTM_CMP_CTL_OUTSEL n) < 12)) = false ∧ s.on (F.DTM_CMP_CTL_IRQ n) = false ∧ s.on (F.DTM_CMP_CTL_FBK n) = false ∧ Canonical s)
    ∧ (∃ s : State, ∃ n : Fin 16, cmpDue s n = false) :=
  ⟨⟨device 2, ⟨by decide +kernel, by decide +kernel, by decide +kernel⟩⟩,
   ⟨(device 2).wr (A.DTM_CMP_TGT_W0 14 + 4) 1000000000, .mspi, 14, ⟨by decide +kernel, by decide +kernel, by decide +kernel⟩, by decide +kernel, by decide +kernel, by decide +kernel⟩,
   ⟨device 2, .mw0, 0, ⟨by decide +kernel, by decide +kernel, by decide +kernel⟩, by decide +kernel, by decide +kernel, by decide +kernel, by decide +kernel, by decide +kernel⟩,
   ⟨device 2, ⟨by decide +kernel, by decide +kernel, by decide +kernel⟩⟩,
   ⟨(device 2).set (F.DTM_CMP_CTL_ARMED 3) 1, 3, by decide +kernel, by decide +kernel, by decide +kernel, by decide +kernel, by decide +kernel, ⟨by decide +kernel, by decide +kernel⟩⟩,
   ⟨(device 2).wr (A.DTM_CMP_TGT_W0 3 + 8) 1, 3, by decide +kernel⟩⟩

/-- States and operands that meet the hypotheses of DisabledCompareUnitIsDisarmed, clause by clause. -/
theorem witness_DisabledCompareUnitIsDisarmed : ∃ s : State, ∃ n : Fin 16, Admits s ∧ Canonical s ∧ cmpOwned s n = false :=
  ⟨(device 2).set (F.DTM_CMP_CTL_ARMED 15) 1, 15, ⟨by decide +kernel, by decide +kernel, by decide +kernel⟩, ⟨by decide +kernel, by decide +kernel⟩, by decide +kernel⟩

/-- States and operands that meet the hypotheses of PtpClientCommandsTakeEffect, clause by clause. -/
theorem witness_PtpClientCommandsTakeEffect :
    (∃ s : State, ∃ n : Fin 2, ∃ a : Announced, halted s = false ∧ (s.pc n).announce = some a ∧ (s.pc n).started = true ∧ pcRuns s n = true ∧ pcPort s n < 7)
    ∧ (∃ s : State, ∃ n : Fin 2, (s.pc n).inbox = [])
    ∧ (∃ s : State, ∃ n : Fin 2, ∃ m : PcMsg, ∃ rest : List PcMsg, (s.pc n).inbox = m :: rest ∧ halted s = false ∧ pcRuns s n = true ∧ (parsePtp m.bytes).version = 2 ∧ (parsePtp m.bytes).length ≤ m.bytes.length ∧ ptpLength (parsePtp m.bytes).kind ≤ (parsePtp m.bytes).length ∧ (parsePtp m.bytes).domain = s.get (F.DTM_PC_CFG_DOMAIN n) ∧ (parsePtp m.bytes).kind = 0 ∧ (s.pc n).master = (parsePtp m.bytes).port ∧ (parsePtp m.bytes).flags / 512 % 2 = 0)
    ∧ (∃ s : State, ∃ n : Fin 2, ∃ m : PcMsg, ∃ rest : List PcMsg, (s.pc n).inbox = m :: rest ∧ halted s = false ∧ pcRuns s n = true ∧ (parsePtp m.bytes).version = 2 ∧ (parsePtp m.bytes).length ≤ m.bytes.length ∧ ptpLength (parsePtp m.bytes).kind ≤ (parsePtp m.bytes).length ∧ (parsePtp m.bytes).domain = s.get (F.DTM_PC_CFG_DOMAIN n) ∧ (parsePtp m.bytes).kind = 0 ∧ (s.pc n).master = (parsePtp m.bytes).port ∧ (parsePtp m.bytes).flags / 512 % 2 = 1)
    ∧ (∃ s : State, ∃ n : Fin 2, ∃ m : PcMsg, ∃ rest : List PcMsg, (s.pc n).inbox = m :: rest ∧ halted s = false ∧ pcRuns s n = true ∧ (parsePtp m.bytes).version = 2 ∧ (parsePtp m.bytes).length ≤ m.bytes.length ∧ ptpLength (parsePtp m.bytes).kind ≤ (parsePtp m.bytes).length ∧ (parsePtp m.bytes).domain = s.get (F.DTM_PC_CFG_DOMAIN n) ∧ (parsePtp m.bytes).kind = 0 ∧ (s.pc n).master ≠ (parsePtp m.bytes).port)
    ∧ (∃ s : State, ∃ n : Fin 2, ∃ m : PcMsg, ∃ rest : List PcMsg, ∃ x : SyncSeen, (s.pc n).inbox = m :: rest ∧ halted s = false ∧ pcRuns s n = true ∧ (parsePtp m.bytes).version = 2 ∧ (parsePtp m.bytes).length ≤ m.bytes.length ∧ ptpLength (parsePtp m.bytes).kind ≤ (parsePtp m.bytes).length ∧ (parsePtp m.bytes).domain = s.get (F.DTM_PC_CFG_DOMAIN n) ∧ (parsePtp m.bytes).kind = 8 ∧ ((s.pc n).syncs.find? (fun x => decide (x.port = (parsePtp m.bytes).port)) = some x) ∧ x.seq = (parsePtp m.bytes).seq ∧ x.twoStep = true)
    ∧ (∃ s : State, ∃ n : Fin 2, ∃ m : PcMsg, ∃ rest : List PcMsg, (s.pc n).inbox = m :: rest ∧ halted s = false ∧ pcRuns s n = true ∧ (parsePtp m.bytes).version = 2 ∧ (parsePtp m.bytes).length ≤ m.bytes.length ∧ ptpLength (parsePtp m.bytes).kind ≤ (parsePtp m.bytes).length ∧ (parsePtp m.bytes).domain = s.get (F.DTM_PC_CFG_DOMAIN n) ∧ (parsePtp m.bytes).kind = 9 ∧ ((s.pc n).outstanding.reverse.find? (fun d => decide (d.seq = (parsePtp m.bytes).seq)) = none))
    ∧ (∃ s : State, ∃ n : Fin 2, ∃ m : PcMsg, ∃ rest : List PcMsg, ∃ d : DelayReq, ∃ t3 : Instant, (s.pc n).inbox = m :: rest ∧ halted s = false ∧ pcRuns s n = true ∧ (parsePtp m.bytes).version = 2 ∧ (parsePtp m.bytes).length ≤ m.bytes.length ∧ ptpLength (parsePtp m.bytes).kind ≤ (parsePtp m.bytes).length ∧ (parsePtp m.bytes).domain = s.get (F.DTM_PC_CFG_DOMAIN n) ∧ (parsePtp m.bytes).kind = 9 ∧ ((s.pc n).outstanding.reverse.find? (fun d => decide (d.seq = (parsePtp m.bytes).seq)) = some d) ∧ d.left = some t3 ∧ (beAt (parsePtp m.bytes).body 10 10 = pcIdentity (s.setPc n { s.pc n with inbox := rest }) n) ∧ instDiff m.inst t3 < s.get (F.DTM_PC_CFG_TIMEOUT n) * 1000000 * 65536 ∧ (s.pc n).lastSync = none) :=
  ⟨⟨client, 0, heard, by decide +kernel, by decide +kernel, by decide +kernel, by decide +kernel, by decide +kernel⟩,
   ⟨client, 1, by decide +kernel⟩,
   ⟨clientHeard (fun c => c) (ptpMsg 0 0 (zeros 10)), 0, ptpMsg 0 0 (zeros 10), [], by decide +kernel, by decide +kernel, by decide +kernel, by decide +kernel, by decide +kernel, by decide +kernel, by decide +kernel, by decide +kernel, by decide +kernel, by decide +kernel⟩,
   ⟨clientHeard (fun c => c) (ptpMsg 0 0x200 (zeros 10)), 0, ptpMsg 0 0x200 (zeros 10), [], by decide +kernel, by decide +kernel, by decide +kernel, by decide +kernel, by decide +kernel, by decide +kernel, by decide +kernel, by decide +kernel, by decide +kernel, by decide +kernel⟩,
   ⟨clientHeard (fun c => c) ({ ptpMsg 0 0 (zeros 10) with bytes := ptpMessage 0 0 0 0 0x0A0C 9 0 (zeros 10) }), 0, { ptpMsg 0 0 (zeros 10) with bytes := ptpMessage 0 0 0 0 0x0A0C 9 0 (zeros 10) }, [], by decide +kernel, by decide +kernel, by decide +kernel, by decide +kernel, by decide +kernel, by decide +kernel, by decide +kernel, by decide +kernel, by decide +kernel⟩,
   ⟨clientHeard (fun c => { c with syncs := [sync0] }) (ptpMsg 8 0 (zeros 10)), 0, ptpMsg 8 0 (zeros 10), [], sync0, by decide +kernel, by decide +kernel, by decide +kernel, by decide +kernel, by decide +kernel, by decide +kernel, by decide +kernel, by decide +kernel, by decide +kernel, by decide +kernel, by decide +kernel⟩,
   ⟨clientHeard (fun c => c) (ptpMsg 9 0 (zeros 20)), 0, ptpMsg 9 0 (zeros 20), [], by decide +kernel, by decide +kernel, by decide +kernel, by decide +kernel, by decide +kernel, by decide +kernel, by decide +kernel, by decide +kernel, by decide +kernel⟩,
   ⟨clientHeard (fun c => { c with outstanding := [⟨9, some 1⟩] }) (ptpMsg 9 0 (zeros 10 ++ natBE 10 (pcIdentity client 0))), 0, ptpMsg 9 0 (zeros 10 ++ natBE 10 (pcIdentity client 0)), [], ⟨9, some 1⟩, 1, by decide +kernel, by decide +kernel, by decide +kernel, by decide +kernel, by decide +kernel, by decide +kernel, by decide +kernel, by decide +kernel, by decide +kernel, by decide +kernel, by decide +kernel, by decide +kernel, by decide +kernel⟩⟩

/-- States and operands that meet the hypotheses of DelayReqSequenceAdvancesByOne, clause by clause. -/
theorem witness_DelayReqSequenceAdvancesByOne : ∃ s : State, ∃ n : Fin 2, ∃ a : Announced, Canonical s ∧ halted s = false ∧ (s.pc n).announce = some a ∧ (s.pc n).started = true ∧ (s.pc n).nextSeq < 65536 ∧ pcRuns s n = true ∧ pcPort s n < 7 :=
  ⟨{ client with dtm := { client.dtm with pc0 := { client.dtm.pc0 with nextSeq := 65535 } } }, 0, heard, ⟨by decide +kernel, by decide +kernel⟩, by decide +kernel, by decide +kernel, by decide +kernel, by decide +kernel, by decide +kernel, by decide +kernel⟩

/-- States and operands that meet the hypotheses of GrantCommandsTakeEffect, clause by clause. -/
theorem witness_GrantCommandsTakeEffect :
    (∃ s : State, ∃ m : SigMsg, ∃ v : Bytes, ∃ tl : List (Nat × Bytes), ∃ ms : List SigMsg, halted s = false ∧ s.svp.signaling = m :: ms ∧ m.tlvs = (4, v) :: tl ∧ grantDenied (sigTake m s) m (beAt v 0 1 / 16) (toSigned 8 (beAt v 1 1)) = false)
    ∧ (∃ s : State, ∃ m : SigMsg, ∃ v : Bytes, ∃ tl : List (Nat × Bytes), ∃ ms : List SigMsg, halted s = false ∧ s.svp.signaling = m :: ms ∧ m.tlvs = (4, v) :: tl ∧ grantDenied (sigTake m s) m (beAt v 0 1 / 16) (toSigned 8 (beAt v 1 1)) = true)
    ∧ (∃ s : State, ∃ m : SigMsg, ∃ v : Bytes, ∃ tl : List (Nat × Bytes), ∃ ms : List SigMsg, halted s = false ∧ s.svp.signaling = m :: ms ∧ m.tlvs = (6, v) :: tl)
    ∧ (∃ s : State, halted s = false)
    ∧ (∃ s : State, ∃ i : Nat, ∃ c : GrantClient, ∃ g : Grant, halted s = false ∧ s.mode = 2 ∧ (s.svp.grants.find? (fun c => decide (c.index = i)) = some c) ∧ c.sync = some g ∧ g.live = true ∧ g.waiting ≠ 0 ∧ after (issueInstant i g) s.datum = false ∧ 4 ≤ c.port.val)
    ∧ (∃ s : State, halted s = false ∧ s.get F.SVP_PTP_CFG_PROFILE ≠ 1)
    ∧ (∃ s : State, ∃ sa : Fin 272, ∃ x : Series, halted s = false ∧ (s.svp.series.find? (fun x => decide (x.sa = sa.val)) = some x) ∧ answering s = true ∧ s.on (F.SVP_SA_CTL_EN sa) = true ∧ saCounts s sa = true ∧ after x.due s.datum = false ∧ 1 < x.left ∧ saPort s sa < 7)
    ∧ (∃ s : State, halted s = true) :=
  ⟨⟨asked 4 (asking 11), ⟨0, env0, 0x0A0B, (asked 4 (asking 11)).get F.SVP_PTP_CFG_DOMAIN, false, [(4, asking 11)]⟩, asking 11, [], [], by decide +kernel, by decide +kernel, by decide +kernel, by decide +kernel⟩,
   ⟨asked 4 (asking 2), ⟨0, env0, 0x0A0B, (asked 4 (asking 2)).get F.SVP_PTP_CFG_DOMAIN, false, [(4, asking 2)]⟩, asking 2, [], [], by decide +kernel, by decide +kernel, by decide +kernel, by decide +kernel⟩,
   ⟨asked 6 (asking 11), ⟨0, env0, 0x0A0B, (asked 6 (asking 11)).get F.SVP_PTP_CFG_DOMAIN, false, [(6, asking 11)]⟩, asking 11, [], [], by decide +kernel, by decide +kernel, by decide +kernel⟩,
   ⟨device 2, by decide +kernel⟩,
   ⟨{ device 2 with svp := { (device 2).svp with grants := [⟨5, 0x0A0B, 4, env0, none, some ⟨0, 0, 1000000, 0, 0, 0, true, 1⟩, none⟩] }, dtm := (device 2).dtm.load (9 * secUnits * 2 ^ 48) }, 5, ⟨5, 0x0A0B, 4, env0, none, some ⟨0, 0, 1000000, 0, 0, 0, true, 1⟩, none⟩, ⟨0, 0, 1000000, 0, 0, 0, true, 1⟩, by decide +kernel, by decide +kernel, by decide +kernel, by decide +kernel, by decide +kernel, by decide +kernel, by decide +kernel, by decide +kernel⟩,
   ⟨device 2, by decide +kernel, by decide +kernel⟩,
   ⟨{ device 2 with regs := ((device 2).set (F.SVP_SA_CTL_EN 271) 1).regs, svp := { (device 2).svp with series := [⟨271, 2, 0⟩] } }, 271, ⟨271, 2, 0⟩, by decide +kernel, by decide +kernel, by decide +kernel, by decide +kernel, by decide +kernel, by decide +kernel, by decide +kernel, by decide +kernel⟩,
   ⟨(device 2).set F.SYN_STAT_FROZEN 1, by decide +kernel⟩⟩

/-- States and operands that meet the hypotheses of PipelineCommandsTakeEffect, clause by clause. -/
theorem witness_PipelineCommandsTakeEffect :
    (∃ s : State, ∃ port : Fin 7, ∃ b : Bytes, linkUp s port = true ∧ hasFec s port = false ∧ plcaHeard port s = s ∧ fcsGood b = true ∧ 64 ≤ b.length ∧ b.length ≤ maxFrame s port ∧ itemBytes (bufferItems s port) + b.length ≤ bufferShare port ∧ (parseEth b).etype ≠ 0x8808 ∧ standbyPath s port = false ∧ (s.svp.queues[pipeOf port]).length < 4096)
    ∧ (∃ s : State, ∃ port : Fin 7, ∃ b : Bytes, linkUp s port = true ∧ hasFec s port = false ∧ plcaHeard port s = s ∧ fcsGood b = true ∧ 64 ≤ b.length ∧ b.length ≤ maxFrame s port ∧ itemBytes (bufferItems s port) + b.length ≤ bufferShare port ∧ (parseEth b).etype ≠ 0x8808 ∧ standbyPath s port = false ∧ 4096 ≤ (s.svp.queues[pipeOf port]).length)
    ∧ (∃ s : State, ∃ port : Fin 7, ∃ b : Bytes, linkUp s port = true ∧ hasFec s port = false ∧ plcaHeard port s = s ∧ fcsGood b = true ∧ 64 ≤ b.length ∧ b.length ≤ maxFrame s port ∧ itemBytes (bufferItems s port) + b.length ≤ bufferShare port ∧ (parseEth b).etype ≠ 0x8808 ∧ standbyPath s port = true)
    ∧ (∃ s : State, ∃ port : Fin 7, ∃ b : Bytes, linkUp s port = true ∧ hasFec s port = false ∧ plcaHeard port s = s ∧ fcsGood b = false)
    ∧ (∃ s : State, ∃ port : Fin 7, ∃ b : Bytes, linkUp s port = true ∧ hasFec s port = false ∧ plcaHeard port s = s ∧ fcsGood b = true ∧ b.length < 64)
    ∧ (∃ s : State, ∃ port : Fin 7, ∃ b : Bytes, linkUp s port = true ∧ hasFec s port = false ∧ plcaHeard port s = s ∧ fcsGood b = true ∧ 64 ≤ b.length ∧ maxFrame s port < b.length)
    ∧ (∃ s : State, ∃ port : Fin 7, linkUp s port = true ∧ hasFec s port = true)
    ∧ (∃ s : State, ∃ port : Fin 7, linkUp s port = false)
    ∧ (∃ s : State, ∃ pl : Fin 5, ∃ i : PlItem, ∃ rest : List PlItem, halted s = false ∧ s.svp.queues[pl] = i :: rest ∧ (wantsTicket (classify (s.asOf i.inst) i.port i.bytes) && waitsForGrid s i.port) = false)
    ∧ (∃ s : State, ∃ pl : Fin 5, s.svp.queues[pl] = [])
    ∧ (∃ s : State, ∃ u : State, ∃ b : Nat, ∃ w : List PlItem, halted s = false ∧ (s.svp.fills.find? (fun f => decide (f.bucket = b)) = some ⟨b, w⟩) ∧ (w.any (fun i => waitsForGrid s i.port) = false) ∧ s.svp.cached.length < cacheBuckets ∧ u = dramEvent 0x07 s)
    ∧ (∃ s : State, ∃ i : PlItem, ∃ p : Fin 4, ∃ sa : Nat, i.port.val = p.val ∧ classify (s.asOf i.inst) i.port i.bytes = .ntp sa ∧ serves s i.inst = true)
    ∧ (∃ s : State, halted s = true) :=
  ⟨⟨linked.set (F.PRT_P_CFG_SPEED 0) 3, 0, frame64 0x0800, by decide +kernel, by decide +kernel, rfl, by decide +kernel, by decide +kernel, by decide +kernel, by decide +kernel, by decide +kernel, by decide +kernel, by decide +kernel⟩,
   ⟨{ linked.set (F.PRT_P_CFG_SPEED 0) 3 with svp := { linked.svp with queues := linked.svp.queues.set 0 (List.replicate 4096 ⟨1, [], 0, none⟩) } }, 0, frame64 0x0800, by decide +kernel, by decide +kernel, rfl, by decide +kernel, by decide +kernel, by decide +kernel, by decide +kernel, by decide +kernel, by decide +kernel, by decide +kernel⟩,
   ⟨(linked.set (F.PRT_P_CFG_SPEED 0) 3).set (F.PRT_PAIR_CFG_EN 0) 1 |>.set (F.PRT_PAIR_STAT_ACTIVE 0) 1, 0, frame64 0x0800, by decide +kernel, by decide +kernel, rfl, by decide +kernel, by decide +kernel, by decide +kernel, by decide +kernel, by decide +kernel, by decide +kernel⟩,
   ⟨linked.set (F.PRT_P_CFG_SPEED 0) 3, 0, zeros 64, by decide +kernel, by decide +kernel, rfl, by decide +kernel⟩,
   ⟨linked.set (F.PRT_P_CFG_SPEED 0) 3, 0, withFcs (zeros 59), by decide +kernel, by decide +kernel, rfl, by decide +kernel, by decide +kernel⟩,
   ⟨(linked.set (F.PRT_P_CFG_SPEED 0) 3).set (F.PRT_MAXFRM_MAXFRM 0) 100, 0, withFcs (zeros 97), by decide +kernel, by decide +kernel, rfl, by decide +kernel, by decide +kernel, by decide +kernel⟩,
   ⟨linked.set (F.PRT_P_CFG_SPEED 0) 4, 0, by decide +kernel, by decide +kernel⟩,
   ⟨device 2, 6, by decide +kernel⟩,
   ⟨{ serving with svp := { serving.svp with queues := serving.svp.queues.set 0 [item0] } }, 0, item0, [], by decide +kernel, by decide +kernel, by decide +kernel⟩,
   ⟨device 2, 4, by decide +kernel⟩,
   ⟨{ serving with svp := { serving.svp with fills := [⟨9, [item0]⟩] } }, _, 9, [item0], by decide +kernel, by decide +kernel, by decide +kernel, by decide +kernel, rfl⟩,
   ⟨serving, item0, 0, 0, by decide +kernel, by decide +kernel, by decide +kernel⟩,
   ⟨(device 2).set F.SYN_STAT_FROZEN 1, by decide +kernel⟩⟩

/-- States and operands that meet the hypotheses of NtsCommandsTakeEffect, clause by clause. -/
theorem witness_NtsCommandsTakeEffect :
    (∃ s : State, ∃ n : Fin 12, ∃ v : NtsRequest, laneRequest s n = some v ∧ waitsForGrid s v.item.port = false ∧ halted s = false ∧ serves (laneDone n (.verify v) s) v.item.inst = true)
    ∧ (∃ s : State, ∃ p : Fin 4, ∃ id : Nat, ∃ n : Fin 12, ∃ t : Ticket, ∃ j : NtsJob, ∃ plain : Bytes, laneOf s (.encrypt p id) = some n ∧ halted s = false ∧ rngFailed s = false ∧ laneTicket s (p, id) = some (t, j) ∧ j.plain = some plain)
    ∧ (∃ s : State, s.crl.root.isSome = true)
    ∧ (∃ s : State, s.get F.CRL_NTS_EPOCH_EPOCH ≠ epochOf s s.datum ∧ s.crl.root.isSome = true)
    ∧ (∃ s : State, rngFailed s = false)
    ∧ (∃ s : State, rngFailed s = true ∧ s.svp.keysDerived = false) :=
  ⟨⟨{ serving with svp := { serving.svp with lanes := serving.svp.lanes.set 11 ⟨[.verify ⟨0, item0, 0, none, false, 0⟩], 0⟩ } }, 11, ⟨0, item0, 0, none, false, 0⟩, by decide +kernel, by decide +kernel, by decide +kernel, by decide +kernel⟩,
   ⟨{ (holding { ticket0 .staked with nts := some job0 } 0) with svp := { serving.svp with lanes := serving.svp.lanes.set 11 ⟨[.encrypt 0 7], 0⟩ } }, 0, 7, 11, { ticket0 .staked with nts := some job0 }, job0, zeros 8, by decide +kernel, by decide +kernel, by decide +kernel, by decide +kernel, by decide +kernel⟩,
   ⟨{ device 2 with crl := { (device 2).crl with root := some (zeros 32, 3) } }, by decide +kernel⟩,
   ⟨{ device 2 with regs := ((device 2).set F.CRL_NTS_EPOCH_EPOCH 1).regs, crl := { (device 2).crl with root := some (zeros 32, 3) } }, by decide +kernel, by decide +kernel⟩,
   ⟨device 2, by decide +kernel⟩,
   ⟨(device 2).set F.CRL_NTS_STAT_NORNG 1, by decide +kernel, by decide +kernel⟩⟩

/-- States and operands that meet the hypotheses of TicketCommandsTakeEffect, clause by clause. -/
theorem witness_TicketCommandsTakeEffect :
    (∃ s : State, ∃ p : Fin 4, ∃ id : Nat, ∃ t : Ticket, (s.port p).ticket id = some t ∧ t.state = .staked ∧ after s.datum t.deadline = true ∧ halted s = false ∧ ((s.get (F.SKO_P_LAT1_LATETOL p) = 0 ∨ t.restaked = true)))
    ∧ (∃ s : State, ∃ p : Fin 4, ∃ id : Nat, ∃ t : Ticket, (s.port p).ticket id = some t ∧ t.state = .staked ∧ after s.datum t.deadline = true ∧ halted s = false ∧ s.get (F.SKO_P_LAT1_LATETOL p) ≠ 0 ∧ t.restaked = false)
    ∧ (∃ s : State, ∃ p : Fin 4, ∃ id : Nat, ∃ t : Ticket, (s.port p).ticket id = some t ∧ t.state = .late ∧ after s.datum (instAdd t.deadline (nsUnits (s.get (F.SKO_P_LAT1_LATETOL p)))) = true ∧ halted s = false)
    ∧ (∃ s : State, ∃ p : Fin 4, ∃ id : Nat, ∃ t : Ticket, (s.port p).ticket id = some t ∧ t.state = .ready ∧ after t.dep s.datum = false ∧ halted s = false ∧ classPaused s p (s.get (F.SKO_P_CFG_TC p)) t.dep = false)
    ∧ (∃ s : State, ∃ p : Fin 4, ∃ id : Nat, ∃ t : Ticket, (s.port p).ticket id = some t ∧ t.state = .ready ∧ after t.dep s.datum = false ∧ halted s = false ∧ classPaused s p (s.get (F.SKO_P_CFG_TC p)) t.dep = true)
    ∧ (∃ s : State, ∃ p : Fin 4, ∃ id : Nat, ∃ t : Ticket, (s.port p).ticket id = some t ∧ t.state = .sending)
    ∧ (∃ s : State, ∃ p : Fin 4, ∃ id : Nat, ∃ cap : Nat, ∃ t : Ticket, (s.port p).ticket id = some t ∧ t.state = .check ∧ halted s = false ∧ (instDiff (egressStamp ⟨p.val, by omega⟩ cap t.comp ((decide (t.kind = .sync) || decide (t.kind = .delayResp)) && decide (t.kind = .sync)) s).1 t.dep).natAbs ≤ 65536)
    ∧ (∃ s : State, ∃ p : Fin 4, ∃ id : Nat, ∃ cap : Nat, ∃ t : Ticket, (s.port p).ticket id = some t ∧ t.state = .check ∧ halted s = false ∧ 65536 < (instDiff (egressStamp ⟨p.val, by omega⟩ cap t.comp ((decide (t.kind = .sync) || decide (t.kind = .delayResp)) && decide (t.kind = .sync)) s).1 t.dep).natAbs)
    ∧ (∃ s : State, ∃ p : Fin 4, ∃ sp : Nat, s.on (F.PRT_P_STAT_LINK p) = true ∧ 0 < sp ∧ dclkRuns s = true ∧ (s.port p).checkSurvivors = false) :=
  ⟨⟨(holding (ticket0 .staked) 999921).set (F.SKO_P_LAT1_LATETOL 0) 0, 0, 7, ticket0 .staked, by decide +kernel, by decide +kernel, by decide +kernel, by decide +kernel, by decide +kernel⟩,
   ⟨(holding (ticket0 .staked) 999921).set (F.SKO_P_LAT1_LATETOL 0) 5, 0, 7, ticket0 .staked, by decide +kernel, by decide +kernel, by decide +kernel, by decide +kernel, by decide +kernel, by decide +kernel⟩,
   ⟨holding (ticket0 .late) 2000000, 0, 7, ticket0 .late, by decide +kernel, by decide +kernel, by decide +kernel, by decide +kernel⟩,
   ⟨holding (ticket0 .ready) 1000000, 0, 7, ticket0 .ready, by decide +kernel, by decide +kernel, by decide +kernel, by decide +kernel, by decide +kernel⟩,
   ⟨(holding (ticket0 .ready) 1000000) |> fun s => { s with prt := { s.prt with pauses := [⟨0, s.get (F.SKO_P_CFG_TC 0), 0, 0, 2000000 * 65536⟩] } }, 0, 7, ticket0 .ready, by decide +kernel, by decide +kernel, by decide +kernel, by decide +kernel, by decide +kernel⟩,
   ⟨holding (ticket0 .sending) 1000001, 0, 7, ticket0 .sending, by decide +kernel, by decide +kernel⟩,
   ⟨holding (ticket0 .check) 1000001, 0, 7, 1000000 * 2 ^ 32, ticket0 .check, by decide +kernel, by decide +kernel, by decide +kernel, by decide +kernel⟩,
   ⟨holding (ticket0 .check) 1000001, 0, 7, 1000002 * 2 ^ 32, ticket0 .check, by decide +kernel, by decide +kernel, by decide +kernel, by decide +kernel⟩,
   ⟨linked, 0, 40, by decide +kernel, by decide +kernel, by decide +kernel, by decide +kernel⟩⟩

/-- States and operands that meet the hypotheses of StakedFrameStartsOnceAtItsDeparture, clause by clause. -/
theorem witness_StakedFrameStartsOnceAtItsDeparture : ∃ s : State, ∃ p : Fin 4, ∃ id : Nat, ∃ t : Ticket, (s.port p).ticket id = some t ∧ t.state = .ready ∧ after t.dep s.datum = false ∧ halted s = false ∧ classPaused s p (s.get (F.SKO_P_CFG_TC p)) t.dep = false :=
  ⟨holding (ticket0 .ready) 1000000, 0, 7, ticket0 .ready, by decide +kernel, by decide +kernel, by decide +kernel, by decide +kernel, by decide +kernel⟩

/-- States and operands that meet the hypotheses of StakeUnitCommandsTakeEffect, clause by clause. -/
theorem witness_StakeUnitCommandsTakeEffect :
    (∃ s : State, ∃ n : Fin 7, ∃ r : EgressRec, ∃ rest : List EgressRec, ∃ x : TwoStepSync, ∃ t : Instant, halted s = false ∧ (s.stkUnit n).queue = r :: rest ∧ r.inst = some t ∧ ((s.stkUnit n).syncs.find? (fun x => decide (x.tag = r.tag)) = some x))
    ∧ (∃ s : State, ∃ n : Fin 7, (s.stkUnit n).queue = [])
    ∧ (∃ s : State, ∃ n : Fin 7, ((n.val < 4 ∨ n.val = 6)) ∧ halted s = false)
    ∧ (∃ s : State, ∃ n : Fin 7, ((n.val < 4 ∨ n.val = 6)) ∧ halted s = false)
    ∧ (∃ s : State, ∃ n : Fin 7, Admits s ∧ liveOff s (A.STK_CAL n) = false ∧ calAllowed (countAccess .mw0 s) n = true ∧ (countAccess .mw0 s).on (F.STK_CAL_BUSY n) = false)
    ∧ (∃ s : State, ∃ n : Fin 7, Admits s ∧ liveOff s (A.STK_CAL n) = false ∧ calAllowed (countAccess .mw0 s) n = true ∧ (countAccess .mw0 s).on (F.STK_CAL_BUSY n) = false)
    ∧ (∃ s : State, ∃ n : Fin 7, s.on (F.STK_CAL_BUSY n) = true ∧ (s.stkUnit n).calFrom + 3 ≤ s.sys.ticks)
    ∧ (∃ s : State, ∃ n : Fin 7, ∃ a : BitVec 24, ∃ v : Word, ∃ p : Path, Admits s ∧ [A.STK_CFG n, A.STK_TRIM n, A.STK_BRD n, A.STK_PHYRX n, A.STK_PHYTX n].contains a.toNat = true ∧ denyReason (countAccess p s) a.toNat v = none)
    ∧ (∃ s : State, ∃ n : Fin 7, ∃ a : BitVec 24, ∃ v : Word, ∃ p : Path, Admits s ∧ [A.STK_CFG n, A.STK_TRIM n, A.STK_BRD n, A.STK_PHYRX n, A.STK_PHYTX n].contains a.toNat = true ∧ denyReason (countAccess p s) a.toNat v = none)
    ∧ (∃ s : State, ∃ n : Fin 7, ∃ a : BitVec 24, ∃ v : Word, ∃ p : Path, Admits s ∧ [A.STK_CFG n, A.STK_TRIM n, A.STK_BRD n, A.STK_PHYRX n, A.STK_PHYTX n].contains a.toNat = true ∧ denyReason (countAccess p s) a.toNat v = none)
    ∧ (∃ s : State, ∃ n : Fin 7, ∃ a : BitVec 24, ∃ v : Word, ∃ p : Path, Admits s ∧ [A.STK_CFG n, A.STK_TRIM n, A.STK_BRD n, A.STK_PHYRX n, A.STK_PHYTX n].contains a.toNat = true ∧ denyReason (countAccess p s) a.toNat v = none)
    ∧ (∃ s : State, ∃ n : Fin 7, ∃ a : BitVec 24, ∃ v : Word, ∃ p : Path, Admits s ∧ [A.STK_CFG n, A.STK_TRIM n, A.STK_BRD n, A.STK_PHYRX n, A.STK_PHYTX n].contains a.toNat = true ∧ denyReason (countAccess p s) a.toNat v = none) :=
  ⟨⟨(device 2).setStk 6 { (device 2).stkUnit 6 with queue := [⟨3, some 9⟩], syncs := [⟨3, env0, zeros 34⟩] }, 6, ⟨3, some 9⟩, [], ⟨3, env0, zeros 34⟩, 9, by decide +kernel, by decide +kernel, by decide +kernel, by decide +kernel⟩,
   ⟨device 2, 0, by decide +kernel⟩,
   ⟨device 2, 3, by decide +kernel, by decide +kernel⟩,
   ⟨device 2, 6, by decide +kernel, by decide +kernel⟩,
   ⟨device 2, 6, ⟨by decide +kernel, by decide +kernel, by decide +kernel⟩, by decide +kernel, by decide +kernel, by decide +kernel⟩,
   ⟨(device 5).set (F.PRT_P_CFG_EN 3) 0, 3, ⟨by decide +kernel, by decide +kernel, by decide +kernel⟩, by decide +kernel, by decide +kernel, by decide +kernel⟩,
   ⟨{ (device 2).set (F.STK_CAL_BUSY 0) 1 with sys := { (device 2).sys with ticks := 3 } }, 0, by decide +kernel, by decide +kernel⟩,
   ⟨device 5, 3, BitVec.ofNat 24 (A.STK_CFG 3), 1, .mw0, ⟨by decide +kernel, by decide +kernel, by decide +kernel⟩, by decide +kernel, by decide +kernel⟩,
   ⟨device 5, 3, BitVec.ofNat 24 (A.STK_TRIM 3), 1, .mw0, ⟨by decide +kernel, by decide +kernel, by decide +kernel⟩, by decide +kernel, by decide +kernel⟩,
   ⟨device 5, 3, BitVec.ofNat 24 (A.STK_BRD 3), 1, .mw0, ⟨by decide +kernel, by decide +kernel, by decide +kernel⟩, by decide +kernel, by decide +kernel⟩,
   ⟨device 5, 3, BitVec.ofNat 24 (A.STK_PHYRX 3), 1, .mw0, ⟨by decide +kernel, by decide +kernel, by decide +kernel⟩, by decide +kernel, by decide +kernel⟩,
   ⟨device 5, 3, BitVec.ofNat 24 (A.STK_PHYTX 3), 1, .mw0, ⟨by decide +kernel, by decide +kernel, by decide +kernel⟩, by decide +kernel, by decide +kernel⟩⟩

/-- States and operands that meet the hypotheses of PortCommandsTakeEffect, clause by clause. -/
theorem witness_PortCommandsTakeEffect :
    (∃ s : State, ∃ p : Fin 4, ∃ tr : Bool, ∃ n : Fin 7, s.on (F.PRT_P_CFG_EN p) = true ∧ s.on (F.STK_STAT_ALIGNED p) = true ∧ refRuns s p = true ∧ s.on (F.PRT_P_STAT_LINK p) = false ∧ (tr || !(needsTraining s p)) = true ∧ n.val = p.val)
    ∧ (∃ s : State, ∃ ph : Fin 4, s.on F.PRT_MGT_CFG_EN = true ∧ s.on (F.STK_STAT_ALIGNED 6) = true ∧ refRuns s 6 = true ∧ s.on F.PRT_MGT_STAT_LINK = false ∧ s.on F.PRT_MGT_CFG_MODE = false ∧ s.on F.PRT_MGT_CFG_AN37 = true ∧ ph.val = 2)
    ∧ (∃ s : State, ∃ ph : Fin 4, s.on F.PRT_MGT_CFG_EN = true ∧ s.on (F.STK_STAT_ALIGNED 6) = true ∧ refRuns s 6 = true ∧ s.on F.PRT_MGT_STAT_LINK = false ∧ s.on F.PRT_MGT_CFG_MODE = false ∧ s.on F.PRT_MGT_CFG_AN37 = true ∧ ph.val ≠ 2)
    ∧ (∃ s : State, ∃ n : Fin 4, linkUp s n = true)
    ∧ (∃ s : State, linkUp s 6 = true)
    ∧ (∃ s : State, ∃ n : Fin 4, ∃ c : Option (Fin 8), ∃ o : Onset, halted s = false ∧ (s.prt.onsets.find? (fun o => decide (o.port = n.val ∧ o.cls = c.map (·.val))) = some o) ∧ flowEnabled s n (c.map (·.val)) = true ∧ s.get (F.PRT_P_FCTH_XON n) * 16384 < occupancy s n (c.map (·.val)) ∧ after (instAdd o.sentAt (bitTimes s n (s.get (F.PRT_P_FC_QUANTA n) * 256))) s.datum = false)
    ∧ (∃ s : State, ∃ k : Fin 2, ∃ t : Instant, (s.prt.pairs[k]).hold = some t ∧ after t s.datum = false ∧ (pathUp ({ s with prt := { s.prt with pairs := s.prt.pairs.set k { s.prt.pairs[k] with hold := none } } }) (pairActive ({ s with prt := { s.prt with pairs := s.prt.pairs.set k { s.prt.pairs[k] with hold := none } } }) k) = true))
    ∧ (∃ s : State, ∃ k : Fin 2, ∃ t : Instant, (s.prt.pairs[k]).hold = some t ∧ after t s.datum = false ∧ (pathUp ({ s with prt := { s.prt with pairs := s.prt.pairs.set k { s.prt.pairs[k] with hold := none } } }) (pairActive ({ s with prt := { s.prt with pairs := s.prt.pairs.set k { s.prt.pairs[k] with hold := none } } }) k) = false) ∧ (pathUp ({ s with prt := { s.prt with pairs := s.prt.pairs.set k { s.prt.pairs[k] with hold := none } } }) (pairPrimary ({ s with prt := { s.prt with pairs := s.prt.pairs.set k { s.prt.pairs[k] with hold := none } } }) k + pairBackup ({ s with prt := { s.prt with pairs := s.prt.pairs.set k { s.prt.pairs[k] with hold := none } } }) k - pairActive ({ s with prt := { s.prt with pairs := s.prt.pairs.set k { s.prt.pairs[k] with hold := none } } }) k) = true))
    ∧ (∃ s : State, ∃ k : Fin 2, ∃ t : Instant, (s.prt.pairs[k]).hold = some t ∧ after t s.datum = false ∧ (pathUp ({ s with prt := { s.prt with pairs := s.prt.pairs.set k { s.prt.pairs[k] with hold := none } } }) (pairActive ({ s with prt := { s.prt with pairs := s.prt.pairs.set k { s.prt.pairs[k] with hold := none } } }) k) = false) ∧ (pathUp ({ s with prt := { s.prt with pairs := s.prt.pairs.set k { s.prt.pairs[k] with hold := none } } }) (pairPrimary ({ s with prt := { s.prt with pairs := s.prt.pairs.set k { s.prt.pairs[k] with hold := none } } }) k + pairBackup ({ s with prt := { s.prt with pairs := s.prt.pairs.set k { s.prt.pairs[k] with hold := none } } }) k - pairActive ({ s with prt := { s.prt with pairs := s.prt.pairs.set k { s.prt.pairs[k] with hold := none } } }) k) = false))
    ∧ (∃ s : State, ∃ k : Fin 2, ∃ t : Instant, (s.prt.pairs[k]).primaryUp = some t ∧ s.on (F.PRT_PAIR_CFG_EN k) = true ∧ s.on (F.PRT_PAIR_CFG_REVERT k) = true ∧ s.on (F.PRT_PAIR_STAT_ACTIVE k) = true ∧ ((s.prt.pairs[k]).lastSwitch.any (fun u => after (instAdd u secUnits) s.datum) = false) ∧ after (instAdd t (secUnits * s.get (F.PRT_PAIR_CFG_WTR k))) s.datum = false)
    ∧ (∃ s : State, ∃ n : Fin 7, ∃ f : TxFrame, n.val ≠ 4 ∧ n.val ≠ 5 ∧ linkUp s n = true ∧ s.prt.txNow[n] = none ∧ halted s = false ∧ txPick s n = some f ∧ txFits s n f = true)
    ∧ (∃ s : State, ∃ n : Fin 7, ∃ x : TxFrame × Instant, n.val ≠ 4 ∧ n.val ≠ 5 ∧ s.prt.txNow[n] = some x) :=
  ⟨⟨((((device 2).set (F.PRT_P_CFG_EN 3) 1).set (F.STK_STAT_ALIGNED 3) 1).set (F.SYN_SYN_STAT_LOCKED 2) 1), 3, true, 3, by decide +kernel, by decide +kernel, by decide +kernel, by decide +kernel, by decide +kernel, by decide +kernel⟩,
   ⟨(((((device 2).set F.PRT_MGT_CFG_EN 1).set (F.STK_STAT_ALIGNED 6) 1).set F.PRT_MGT_CFG_MODE 0).set F.PRT_MGT_CFG_AN37 1), 2, by decide +kernel, by decide +kernel, by decide +kernel, by decide +kernel, by decide +kernel, by decide +kernel, by decide +kernel⟩,
   ⟨(((((device 2).set F.PRT_MGT_CFG_EN 1).set (F.STK_STAT_ALIGNED 6) 1).set F.PRT_MGT_CFG_MODE 0).set F.PRT_MGT_CFG_AN37 1), 1, by decide +kernel, by decide +kernel, by decide +kernel, by decide +kernel, by decide +kernel, by decide +kernel, by decide +kernel⟩,
   ⟨linked, 0, by decide +kernel⟩,
   ⟨(device 2).set F.PRT_MGT_STAT_LINK 1, by decide +kernel⟩,
   ⟨flowing.set (F.PRT_P_FC_TXPAUSE 0) 1, 0, none, ⟨0, none, 0⟩, by decide +kernel, by decide +kernel, by decide +kernel, by decide +kernel, by decide +kernel⟩,
   ⟨{ linked with prt := { (device 2).prt with pairs := (device 2).prt.pairs.set 0 { (device 2).prt.pairs[0] with hold := some 0 } } }, 0, 0, by decide +kernel, by decide +kernel, by decide +kernel⟩,
   ⟨{ ((device 2).set (F.PRT_P_STAT_LINK 1) 1) with prt := { (device 2).prt with pairs := (device 2).prt.pairs.set 0 { (device 2).prt.pairs[0] with hold := some 0 } } }, 0, 0, by decide +kernel, by decide +kernel, by decide +kernel, by decide +kernel⟩,
   ⟨{ device 2 with prt := { (device 2).prt with pairs := (device 2).prt.pairs.set 0 { (device 2).prt.pairs[0] with hold := some 0 } } }, 0, 0, by decide +kernel, by decide +kernel, by decide +kernel, by decide +kernel⟩,
   ⟨reverting, 1, 0, by decide +kernel, by decide +kernel, by decide +kernel, by decide +kernel, by decide +kernel, by decide +kernel⟩,
   ⟨{ linked with prt := { linked.prt with tx := linked.prt.tx.set 0 [⟨zeros 60, 7, .device⟩] } }, 0, ⟨zeros 60, 7, .device⟩, by decide +kernel, by decide +kernel, by decide +kernel, by decide +kernel, by decide +kernel, by decide +kernel, by decide +kernel⟩,
   ⟨{ linked with prt := { linked.prt with txNow := linked.prt.txNow.set 0 (some (⟨zeros 60, 7, .device⟩, 0)) } }, 0, (⟨zeros 60, 7, .device⟩, 0), by decide +kernel, by decide +kernel, by decide +kernel⟩⟩

/-- States and operands that meet the hypotheses of FieldPortCommandsTakeEffect, clause by clause. -/
theorem witness_FieldPortCommandsTakeEffect :
    (∃ s : State, ∃ n : Fin 2, ∃ q : Nat, ∃ x : TxFrame, ∃ rest : List TxFrame, s.prt.tx[fieldPort n] = x :: rest ∧ linkUp s (fieldPort n) = true ∧ (s.prt.field[n]).sending = false ∧ fieldSilent s = false ∧ halted s = false ∧ plcaRules s n = false ∧ 96 ≤ q ∧ after (s.prt.field[n]).backoff s.datum = false)
    ∧ (∃ s : State, ∃ n : Fin 2, ∃ x : TxFrame, ∃ rest : List TxFrame, s.prt.tx[fieldPort n] = x :: rest ∧ linkUp s (fieldPort n) = true ∧ (s.prt.field[n]).sending = false ∧ fieldSilent s = false ∧ halted s = false ∧ plcaRules s n = true ∧ ownTurn s n = true)
    ∧ (∃ s : State, ∃ n : Fin 2, ∃ x : TxFrame, ∃ rest : List TxFrame, s.prt.tx[fieldPort n] = x :: rest ∧ linkUp s (fieldPort n) = true ∧ (s.prt.field[n]).sending = false ∧ fieldSilent s = false ∧ halted s = false ∧ plcaRules s n = true ∧ ownTurn s n = false)
    ∧ (∃ s : State, ∃ n : Fin 2, ∃ x : TxFrame × Instant, s.prt.txNow[fieldPort n] = some x ∧ lateCollision s n x = false ∧ plcaRules s n = true)
    ∧ (∃ s : State, ∃ n : Fin 2, ∃ x : TxFrame × Instant, s.prt.txNow[fieldPort n] = some x ∧ lateCollision s n x = false ∧ plcaRules s n = false ∧ 15 ≤ (s.prt.field[n]).collisions)
    ∧ (∃ s : State, ∃ n : Fin 2, ∃ x : TxFrame × Instant, s.prt.txNow[fieldPort n] = some x ∧ lateCollision s n x = false ∧ plcaRules s n = false ∧ (s.prt.field[n]).collisions < 15)
    ∧ (∃ s : State, ∃ n : Fin 2, plcaRules s n = true ∧ plcaLeads s n = false ∧ linkUp s (n.val + 4) = true ∧ (s.prt.field[n]).beaconAt + s.get (F.PRT_F_PLCA1_BTO n) * 1200000 ≤ s.now)
    ∧ (∃ s : State, ∃ n : Fin 2, plcaOn s n = true ∧ plcaLeads s n = false ∧ linkUp s (n.val + 4) = true)
    ∧ (∃ s : State, ∃ n : Fin 2, plcaLeads s n = true ∧ linkUp s (n.val + 4) = true ∧ fieldSilent s = false ∧ halted s = false ∧ (s.prt.field[n]).sending = false ∧ (((s.prt.field[n]).cycling = false ∨ s.get (F.PRT_F_PLCA0_NCOUNT n) ≤ plcaNode s n)))
    ∧ (∃ s : State, ∃ n : Fin 2, s.on (F.PRT_F_STAT_CLKOK n) = false)
    ∧ (∃ s : State, ∃ n : Fin 2, s.on (F.PRT_F_STAT_CLKOK n) = true ∧ (s.prt.field[n]).sending = false)
    ∧ (∃ s : State, ∃ p : Path, ∃ v : Word, Admits s ∧ v.getLsbD 30 = true ∧ (countAccess p s).on F.PRT_MDIO_CMD_BUSY = false)
    ∧ (∃ s : State, ∃ p : Path, ∃ v : Word, Admits s ∧ ((v.getLsbD 30 = false ∨ (countAccess p s).on F.PRT_MDIO_CMD_BUSY = true)))
    ∧ (∃ s : State, s.on F.PRT_MDIO_CMD_BUSY = true ∧ s.prt.mdioRead = true)
    ∧ (∃ s : State, s.on F.PRT_MDIO_CMD_BUSY = true ∧ s.prt.mdioRead = false) :=
  ⟨⟨{ ((((device 2).set (F.PRT_F_CFG_EN 1) 1).set (F.PRT_F_STAT_CLKOK 1) 1).set (F.PRT_F_CFG_PLCAEN 1) 0) with prt := { (device 2).prt with tx := (device 2).prt.tx.set 5 [⟨zeros 60, 7, .device⟩] } }, 1, 96, ⟨zeros 60, 7, .device⟩, [], by decide +kernel, by decide +kernel, by decide +kernel, by decide +kernel, by decide +kernel, by decide +kernel, by decide +kernel, by decide +kernel⟩,
   ⟨{ (((((device 2).set (F.PRT_F_CFG_EN 1) 1).set (F.PRT_F_STAT_CLKOK 1) 1).set (F.PRT_F_CFG_PLCAEN 1) 1).set (F.PRT_F_PLCA0_NODEID 1) 1).set (F.PRT_F_STAT_PLCAOK 1) 1 with prt := { (device 2).prt with tx := (device 2).prt.tx.set 5 [⟨zeros 60, 7, .device⟩], field := (device 2).prt.field.set 1 { (device 2).prt.field[1] with curId := 1, cycling := true } } }, 1, ⟨zeros 60, 7, .device⟩, [], by decide +kernel, by decide +kernel, by decide +kernel, by decide +kernel, by decide +kernel, by decide +kernel, by decide +kernel⟩,
   ⟨{ (((((device 2).set (F.PRT_F_CFG_EN 1) 1).set (F.PRT_F_STAT_CLKOK 1) 1).set (F.PRT_F_CFG_PLCAEN 1) 1).set (F.PRT_F_PLCA0_NODEID 1) 1).set (F.PRT_F_STAT_PLCAOK 1) 1 with prt := { (device 2).prt with tx := (device 2).prt.tx.set 5 [⟨zeros 60, 7, .device⟩], field := (device 2).prt.field.set 1 { (device 2).prt.field[1] with curId := 0, cycling := true } } }, 1, ⟨zeros 60, 7, .device⟩, [], by decide +kernel, by decide +kernel, by decide +kernel, by decide +kernel, by decide +kernel, by decide +kernel, by decide +kernel⟩,
   ⟨{ (((((device 2).set (F.PRT_F_CFG_EN 1) 1).set (F.PRT_F_STAT_CLKOK 1) 1).set (F.PRT_F_CFG_PLCAEN 1) 1).set (F.PRT_F_PLCA0_NODEID 1) 1).set (F.PRT_F_STAT_PLCAOK 1) 1 with prt := { (device 2).prt with txNow := (device 2).prt.txNow.set 5 (some (⟨zeros 60, 7, .device⟩, 5000000000)), field := (device 2).prt.field.set 1 { (device 2).prt.field[1] with collisions := 0, sending := true } } }, 1, (⟨zeros 60, 7, .device⟩, 5000000000), by decide +kernel, by decide +kernel, by decide +kernel⟩,
   ⟨{ ((((device 2).set (F.PRT_F_CFG_EN 1) 1).set (F.PRT_F_STAT_CLKOK 1) 1).set (F.PRT_F_CFG_PLCAEN 1) 0) with prt := { (device 2).prt with txNow := (device 2).prt.txNow.set 5 (some (⟨zeros 60, 7, .device⟩, 5000000000)), field := (device 2).prt.field.set 1 { (device 2).prt.field[1] with collisions := 15, sending := true } } }, 1, (⟨zeros 60, 7, .device⟩, 5000000000), by decide +kernel, by decide +kernel, by decide +kernel, by decide +kernel⟩,
   ⟨{ ((((device 2).set (F.PRT_F_CFG_EN 1) 1).set (F.PRT_F_STAT_CLKOK 1) 1).set (F.PRT_F_CFG_PLCAEN 1) 0) with prt := { (device 2).prt with txNow := (device 2).prt.txNow.set 5 (some (⟨zeros 60, 7, .device⟩, 5000000000)), field := (device 2).prt.field.set 1 { (device 2).prt.field[1] with collisions := 14, sending := true } } }, 1, (⟨zeros 60, 7, .device⟩, 5000000000), by decide +kernel, by decide +kernel, by decide +kernel, by decide +kernel⟩,
   ⟨{ (((((device 2).set (F.PRT_F_CFG_EN 1) 1).set (F.PRT_F_STAT_CLKOK 1) 1).set (F.PRT_F_CFG_PLCAEN 1) 1).set (F.PRT_F_PLCA0_NODEID 1) 1).set (F.PRT_F_STAT_PLCAOK 1) 1 with now := 10 ^ 12 }, 1, by decide +kernel, by decide +kernel, by decide +kernel, by decide +kernel⟩,
   ⟨(((((device 2).set (F.PRT_F_CFG_EN 1) 1).set (F.PRT_F_STAT_CLKOK 1) 1).set (F.PRT_F_CFG_PLCAEN 1) 1).set (F.PRT_F_PLCA0_NODEID 1) 1).set (F.PRT_F_STAT_PLCAOK 1) 1, 1, by decide +kernel, by decide +kernel, by decide +kernel⟩,
   ⟨(((((device 2).set (F.PRT_F_CFG_EN 1) 1).set (F.PRT_F_STAT_CLKOK 1) 1).set (F.PRT_F_CFG_PLCAEN 1) 1).set (F.PRT_F_PLCA0_NODEID 1) 0).set (F.PRT_F_STAT_PLCAOK 1) 1, 1, by decide +kernel, by decide +kernel, by decide +kernel, by decide +kernel, by decide +kernel, by decide +kernel⟩,
   ⟨device 2, 0, by decide +kernel⟩,
   ⟨((((device 2).set (F.PRT_F_CFG_EN 1) 1).set (F.PRT_F_STAT_CLKOK 1) 1).set (F.PRT_F_CFG_PLCAEN 1) 0), 1, by decide +kernel, by decide +kernel⟩,
   ⟨device 2, .mw0, 0x40000000, ⟨by decide +kernel, by decide +kernel, by decide +kernel⟩, by decide +kernel, by decide +kernel⟩,
   ⟨(device 2).set F.PRT_MDIO_CMD_BUSY 1, .mw0, 0x40000000, ⟨by decide +kernel, by decide +kernel, by decide +kernel⟩, by decide +kernel⟩,
   ⟨{ (device 2).set F.PRT_MDIO_CMD_BUSY 1 with prt := { (device 2).prt with mdioRead := true } }, by decide +kernel, by decide +kernel⟩,
   ⟨{ (device 2).set F.PRT_MDIO_CMD_BUSY 1 with prt := { (device 2).prt with mdioRead := false } }, by decide +kernel, by decide +kernel⟩⟩

/-- States and operands that meet the hypotheses of TransitCommandsTakeEffect, clause by clause. -/
theorem witness_TransitCommandsTakeEffect :
    (∃ s : State, ∃ n : Fin 24, ∃ f : Bool, (dclkRuns s && chEnabled s n && edgesArrive s n && edgeSelected s n f) = false)
    ∧ (∃ s : State, ∃ n : Fin 24, ∃ f : Bool, (dclkRuns s && chEnabled s n && edgesArrive s n && edgeSelected s n f) = true ∧ 2 ^ chPresc s n ≤ (s.chan n).div + 1 ∧ (s.chan n).narrow = false ∧ (s.chan n).tickEdges < 300000 ∧ (s.chan n).edges + 1 < chDecim s n)
    ∧ (∃ s : State, ∃ n : Fin 24, ∃ f : Bool, ∃ j : Fin 3, (dclkRuns s && chEnabled s n && edgesArrive s n && edgeSelected s n f) = true ∧ 2 ^ chPresc s n ≤ (s.chan n).div + 1 ∧ (s.chan n).narrow = false ∧ (s.chan n).tickEdges < 300000 ∧ chDecim s n ≤ (s.chan n).edges + 1 ∧ (holdoffOver s ({ s.chan n with div := 0, edges := (s.chan n).edges + 1, total := (s.chan n).total + 1, tickEdges := (s.chan n).tickEdges + 1 } : TrnChan) = true) ∧ (({ s.chan n with div := 0, edges := (s.chan n).edges + 1, total := (s.chan n).total + 1, tickEdges := (s.chan n).tickEdges + 1 } : TrnChan).free s.trn.coarse = true) ∧ (({ s.chan n with div := 0, edges := (s.chan n).edges + 1, total := (s.chan n).total + 1, tickEdges := (s.chan n).tickEdges + 1 } : TrnChan).pick = some j))
    ∧ (∃ s : State, ∃ n : Fin 24, ∃ f : Bool, (dclkRuns s && chEnabled s n && edgesArrive s n && edgeSelected s n f) = true ∧ (s.chan n).div + 1 < 2 ^ chPresc s n)
    ∧ (∃ s : State, ∃ n : Fin 24, ∃ e : TrnEdge, ∃ rest : List TrnEdge, (s.chan n).waiting = e :: rest ∧ dclkRuns s = true ∧ heldLong s n e = true)
    ∧ (∃ s : State, ∃ n : Fin 24, ∃ e : TrnEdge, ∃ rest : List TrnEdge, (s.chan n).waiting = e :: rest ∧ dclkRuns s = true ∧ heldLong s n e = true ∧ 12 ≤ inputOf n ∧ n.val ≠ 16 ∧ n.val ≠ 17)
    ∧ (∃ s : State, ∃ n : Fin 24, ∃ e : TrnEdge, ∃ rest : List TrnEdge, (s.chan n).waiting = e :: rest ∧ dclkRuns s = true ∧ heldLong s n e = false)
    ∧ (∃ s : State, ∃ n : Fin 24, (s.chan n).waiting = [])
    ∧ (∃ s : State, ∃ n : Fin 24, ∃ r : TrnRecord, halted s = false ∧ ((pathOrder s).findSome? (fun n => ((s.chan n).queue.head?).map (fun r => (n, r))) = some (n, r)))
    ∧ (∃ s : State, ∃ n : Fin 24, ∃ st : TrnEdge, ∃ rest : List TrnEdge, (s.chan n).starts = st :: rest ∧ wrapStamp ≤ (s.trn.coarse : Int) * 65536 - st.stamp)
    ∧ (∃ s : State, ∃ n : Fin 24, ∃ k : Fin 3, ∃ hist : List Nat, ((s.chan n).convs[k]).serving = false ∧ ((s.chan n).convs[k]).isolated = false ∧ dclkRuns s = true ∧ s.on F.TRN_STAT_CALOK = true ∧ calFails hist = false)
    ∧ (∃ s : State, ∃ n : Fin 24, ∃ k : Fin 3, ∃ l : Fin 3, ((s.chan n).convs[k]).spare = true ∧ longest (s.chan n) = some l ∧ s.on F.TRN_STAT_CALOK = true ∧ dclkRuns s = true ∧ rotateDue s (s.chan n) = true)
    ∧ (∃ s : State, Admits s)
    ∧ (∃ s : State, ∃ n : Fin 24, ∃ a : BitVec 24, ∃ v : Word, ∃ p : Path, Admits s ∧ (idxAt (A.TRN_CH_CFG n) 4 6 a.toNat).isSome = true ∧ ownedWhole (countAccess p s) a.toNat = false ∧ denyReason (countAccess p s) a.toNat v = none)
    ∧ (∃ s : State, ∃ n : Fin 24, ∃ a : BitVec 24, ∃ v : Word, ∃ p : Path, Admits s ∧ (idxAt (A.TRN_CH_CFG n) 4 6 a.toNat).isSome = true ∧ ownedWhole (countAccess p s) a.toNat = false ∧ denyReason (countAccess p s) a.toNat v = none)
    ∧ (∃ s : State, ∃ n : Fin 24, ∃ a : BitVec 24, ∃ v : Word, ∃ p : Path, Admits s ∧ (idxAt (A.TRN_CH_CFG n) 4 6 a.toNat).isSome = true ∧ ownedWhole (countAccess p s) a.toNat = false ∧ denyReason (countAccess p s) a.toNat v = none)
    ∧ (∃ s : State, ∃ n : Fin 24, ∃ a : BitVec 24, ∃ v : Word, ∃ p : Path, Admits s ∧ (idxAt (A.TRN_CH_CFG n) 4 6 a.toNat).isSome = true ∧ ownedWhole (countAccess p s) a.toNat = false ∧ denyReason (countAccess p s) a.toNat v = none)
    ∧ (∃ s : State, ∃ n : Fin 24, ∃ a : BitVec 24, ∃ v : Word, ∃ p : Path, Admits s ∧ (idxAt (A.TRN_CH_CFG n) 4 6 a.toNat).isSome = true ∧ ownedWhole (countAccess p s) a.toNat = false ∧ denyReason (countAccess p s) a.toNat v = none)
    ∧ (∃ s : State, ∃ n : Fin 24, ∃ a : BitVec 24, ∃ v : Word, ∃ p : Path, Admits s ∧ (idxAt (A.TRN_CH_CFG n) 4 6 a.toNat).isSome = true ∧ ownedWhole (countAccess p s) a.toNat = false ∧ denyReason (countAccess p s) a.toNat v = none)
    ∧ (∃ s : State, s.mode = mBoot ∧ s.dtm.started = false) :=
  ⟨⟨device 2, 14, true, by decide +kernel⟩,
   ⟨((atCoarse (2 ^ 40) (withChan 14 id)).set (F.TRN_CH_CFG_EN 14) 1).set (F.TRN_CH_TRIG_DECIM 14) 2, 14, false, by decide +kernel, by decide +kernel, by decide +kernel, by decide +kernel, by decide +kernel⟩,
   ⟨((atCoarse (2 ^ 40) (withChan 14 oneServing)).set (F.TRN_CH_CFG_EN 14) 1).set (F.TRN_CH_TRIG_DECIM 14) 1, 14, false, 0, by decide +kernel, by decide +kernel, by decide +kernel, by decide +kernel, by decide +kernel, by decide +kernel, by decide +kernel, by decide +kernel⟩,
   ⟨((atCoarse (2 ^ 40) (withChan 14 id)).set (F.TRN_CH_CFG_EN 14) 1).set (F.TRN_CH_CFG_PRESC 14) 1, 14, false, by decide +kernel, by decide +kernel⟩,
   ⟨{ withChan 0 (fun c => { c with waiting := [edge0] }) with trn := { (withChan 0 (fun c => { c with waiting := [edge0] })).trn with coarse := 2000 } }, 0, edge0, [], by decide +kernel, by decide +kernel, by decide +kernel⟩,
   ⟨{ withChan 14 (fun c => { c with waiting := [edge0] }) with trn := { (withChan 14 (fun c => { c with waiting := [edge0] })).trn with coarse := 2000 } }, 14, edge0, [], by decide +kernel, by decide +kernel, by decide +kernel, by decide +kernel, by decide +kernel, by decide +kernel⟩,
   ⟨({ withChan 14 (fun c => { c with waiting := [edge0] }) with trn := { (withChan 14 (fun c => { c with waiting := [edge0] })).trn with coarse := 0 } }).set (F.TRN_CH_TRIG_MINW 14) 5, 14, edge0, [], by decide +kernel, by decide +kernel, by decide +kernel⟩,
   ⟨device 2, 23, by decide +kernel⟩,
   ⟨withChan 3 (fun c => { c with queue := [rec0] }), 3, rec0, by decide +kernel, by decide +kernel⟩,
   ⟨let s := withChan 0 (fun c => { c with starts := [edge0] }); { s with trn := { s.trn with coarse := 2 ^ 40 } }, 0, edge0, [], by decide +kernel, by decide +kernel⟩,
   ⟨(device 2).set F.TRN_STAT_CALOK 1, 23, 2, List.replicate 4096 1, by decide +kernel, by decide +kernel, by decide +kernel, by decide +kernel, by decide +kernel⟩,
   ⟨let s := withChan 0 (fun c => { c with convs := (c.convs.set 0 { c.convs[0] with ready := true }).set 1 { c.convs[1] with serving := true }, rotated := 0 }); { s.set F.TRN_STAT_CALOK 1 with sys := { s.sys with ticks := 10 ^ 9 } }, 0, 0, 1, by decide +kernel, by decide +kernel, by decide +kernel, by decide +kernel, by decide +kernel⟩,
   ⟨device 2, ⟨by decide +kernel, by decide +kernel, by decide +kernel⟩⟩,
   ⟨device 5, 14, BitVec.ofNat 24 (A.TRN_CH_CFG 14), 1, .mspi, ⟨by decide +kernel, by decide +kernel, by decide +kernel⟩, by decide +kernel, by decide +kernel, by decide +kernel⟩,
   ⟨device 5, 14, BitVec.ofNat 24 (A.TRN_CH_TRIG 14), 1, .mspi, ⟨by decide +kernel, by decide +kernel, by decide +kernel⟩, by decide +kernel, by decide +kernel, by decide +kernel⟩,
   ⟨device 5, 14, BitVec.ofNat 24 (A.TRN_CH_HOLDOFF 14), 1, .mspi, ⟨by decide +kernel, by decide +kernel, by decide +kernel⟩, by decide +kernel, by decide +kernel, by decide +kernel⟩,
   ⟨device 5, 14, BitVec.ofNat 24 (A.TRN_CH_GATE 14), 1, .mspi, ⟨by decide +kernel, by decide +kernel, by decide +kernel⟩, by decide +kernel, by decide +kernel, by decide +kernel⟩,
   ⟨device 5, 14, BitVec.ofNat 24 (A.TRN_CH_STATN 14), 1, .mspi, ⟨by decide +kernel, by decide +kernel, by decide +kernel⟩, by decide +kernel, by decide +kernel, by decide +kernel⟩,
   ⟨device 5, 14, BitVec.ofNat 24 (A.TRN_CH_DLY 14), 1, .mspi, ⟨by decide +kernel, by decide +kernel, by decide +kernel⟩, by decide +kernel, by decide +kernel, by decide +kernel⟩,
   ⟨State.reset, by decide +kernel, by decide +kernel⟩⟩

/-- States and operands that meet the hypotheses of EventQueuePopLoadsTheOldestRecord, clause by clause. -/
theorem witness_EventQueuePopLoadsTheOldestRecord :
    (∃ s : State, Admits s ∧ Canonical s ∧ s.trn.evq.length ≤ 256)
    ∧ (∃ s : State, Admits s ∧ Canonical s ∧ s.trn.evq.length = 256) :=
  ⟨⟨{ device 2 with trn := { (device 2).trn with evq := [zeros 32] } }, ⟨by decide +kernel, by decide +kernel, by decide +kernel⟩, ⟨by decide +kernel, by decide +kernel⟩, by decide +kernel⟩,
   ⟨{ device 2 with trn := { (device 2).trn with evq := List.replicate 256 (zeros 32) } }, ⟨by decide +kernel, by decide +kernel, by decide +kernel⟩, ⟨by decide +kernel, by decide +kernel⟩, by decide +kernel⟩⟩

/-- States and operands that meet the hypotheses of ClockCommandsTakeEffect, clause by clause. -/
theorem witness_ClockCommandsTakeEffect :
    (∃ s : State, s.on F.SYN_STAT_SYN0LOCK = true)
    ∧ (∃ s : State, s.on F.SYN_STAT_FROZEN = true ∧ s.syn.lasting = false ∧ s.syn.frozenAt + msPeriods ≤ s.now ∧ (inPair (faultSend .syn0Lasting 0 0 0 0 (irqSet 6 A.SYN_IRQ_STAT 2 { s with syn := { s.syn with lasting := true } })) = false))
    ∧ (∃ s : State, s.on F.SYN_STAT_FROZEN = true ∧ s.syn.lasting = false ∧ s.syn.frozenAt + msPeriods ≤ s.now ∧ (inPair (faultSend .syn0Lasting 0 0 0 0 (irqSet 6 A.SYN_IRQ_STAT 2 { s with syn := { s.syn with lasting := true } })) = true) ∧ ((faultSend .syn0Lasting 0 0 0 0 (irqSet 6 A.SYN_IRQ_STAT 2 { s with syn := { s.syn with lasting := true } })).mode ≠ mSafe) ∧ ((faultSend .syn0Lasting 0 0 0 0 (irqSet 6 A.SYN_IRQ_STAT 2 { s with syn := { s.syn with lasting := true } })).mode ≠ mMaint))
    ∧ (∃ s : State, s.on F.SYN_STAT_FROZEN = true)
    ∧ (∃ s : State, s.on F.SYN_STAT_FROZEN = false)
    ∧ (∃ s : State, ∃ t : Nat, s.on F.HMI_MEM_STAT_SELFREF = true ∧ s.on F.SYN_STAT_FROZEN = false ∧ s.hmi.dmaPaused = some t)
    ∧ (∃ s : State, s.on F.SYN_STAT_AUXLOCK = true)
    ∧ (∃ s : State, s.dtm.started = true ∧ mclkRuns s = false ∧ s.syn.mclkStopped = false)
    ∧ (∃ s : State, s.on F.SYN_STAT_AUXLOCK = false ∧ (({ s with syn := { s.syn with mclkStopped := false } }.set F.SYN_STAT_AUXLOCK 1).on F.SYN_STAT_SYN0LOCK = true))
    ∧ (∃ s : State, s.on F.SYN_STAT_AUXLOCK = false ∧ (({ s with syn := { s.syn with mclkStopped := false } }.set F.SYN_STAT_AUXLOCK 1).on F.SYN_STAT_SYN0LOCK = false))
    ∧ (∃ s : State, s.dtm.started = true ∧ s.on F.SYN_STAT_REF = false)
    ∧ (∃ s : State, s.dtm.started = false ∧ s.sys.phase = .running ∧ s.mode ≠ mMonument ∧ s.mode ≠ mDormant)
    ∧ (∃ s : State, Admits s) :=
  ⟨⟨device 2, by decide +kernel⟩,
   ⟨{ ((device 2).set F.SYN_STAT_FROZEN 1) with now := 1200000 }, by decide +kernel, by decide +kernel, by decide +kernel, by decide +kernel⟩,
   ⟨{ ((device 2).set F.SYN_STAT_FROZEN 1).set F.DVL_CFG_EN 1 with now := 1200000 }, by decide +kernel, by decide +kernel, by decide +kernel, by decide +kernel, by decide +kernel, by decide +kernel⟩,
   ⟨((device 2).set F.SYN_STAT_FROZEN 1), by decide +kernel⟩,
   ⟨device 2, by decide +kernel⟩,
   ⟨{ (device 2).set F.HMI_MEM_STAT_SELFREF 1 with hmi := { (device 2).hmi with dmaPaused := some 3 } }, 3, by decide +kernel, by decide +kernel, by decide +kernel⟩,
   ⟨device 2, by decide +kernel⟩,
   ⟨((device 2).set F.SYN_STAT_SYN0LOCK 0).set F.SYN_STAT_AUXLOCK 0, by decide +kernel, by decide +kernel, by decide +kernel⟩,
   ⟨(device 2).set F.SYN_STAT_AUXLOCK 0, by decide +kernel, by decide +kernel⟩,
   ⟨((device 2).set F.SYN_STAT_SYN0LOCK 0).set F.SYN_STAT_AUXLOCK 0, by decide +kernel, by decide +kernel⟩,
   ⟨(device 2).set F.SYN_STAT_REF 0, by decide +kernel, by decide +kernel⟩,
   ⟨{ State.reset with sys := { State.reset.sys with phase := .running } }, by decide +kernel, by decide +kernel, by decide +kernel, by decide +kernel⟩,
   ⟨device 2, ⟨by decide +kernel, by decide +kernel, by decide +kernel⟩⟩⟩

/-- States and operands that meet the hypotheses of TraverseCommandsTakeEffect, clause by clause. -/
theorem witness_TraverseCommandsTakeEffect :
    (∃ s : State, ∃ port : Fin 4, (labels s port).isSome = true ∧ dclkRuns s = true ∧ s.on (F.TRV_TOD_CFG_FORMAT port) = false)
    ∧ (∃ s : State, ∃ port : Fin 4, ∃ b : Bytes, (labels s port).isSome = true ∧ dclkRuns s = true ∧ s.on (F.TRV_TOD_CFG_FORMAT port) = true ∧ todFrame b = none)
    ∧ (∃ s : State, ∃ port : Fin 4, ∃ b : Bytes, ∃ c : Nat, ∃ k : Nat, ∃ d : Bytes, (labels s port).isSome = true ∧ dclkRuns s = true ∧ s.on (F.TRV_TOD_CFG_FORMAT port) = true ∧ todFrame b = some (c, k, d) ∧ (¬(c = 1 ∧ (k = 1 ∨ k = 2))))
    ∧ (∃ s : State, ∃ port : Fin 4, ∃ b : Bytes, ∃ c : Nat, ∃ k : Nat, ∃ d : Bytes, (labels s port).isSome = true ∧ dclkRuns s = true ∧ s.on (F.TRV_TOD_CFG_FORMAT port) = true ∧ todFrame b = some (c, k, d) ∧ (¬(c = 1 ∧ (k = 1 ∨ k = 2))))
    ∧ (∃ s : State, ∃ port : Fin 4, ∃ b : Bytes, ∃ d : Bytes, (labels s port).isSome = true ∧ dclkRuns s = true ∧ s.on (F.TRV_TOD_CFG_FORMAT port) = true ∧ todFrame b = some (1, 1, d) ∧ d.length = 14)
    ∧ (∃ s : State, ∃ port : Fin 4, ∃ b : Bytes, ∃ d : Bytes, (labels s port).isSome = true ∧ dclkRuns s = true ∧ s.on (F.TRV_TOD_CFG_FORMAT port) = true ∧ todFrame b = some (1, 2, d) ∧ 4 ≤ d.length)
    ∧ (∃ s : State, ∃ i : Fin 8, ∃ j : Fin 12, ∃ t0 : Int, ∃ n : Nat, ∃ rest : List (Int × Nat), j.val = i.val ∧ (s.input j).goods = (t0, n) :: rest ∧ (chOwner s i = 1 && isPps s j && (s.input j).anchored && dclkRuns s) = true ∧ (((Frac.int ((s.input j).rebase.getD t0)).add ((s.input j).period.mul (.int ((s.input j).missed + 1)))).add (ppsWin s j)).lt (.int (nowStamp s)) = true)
    ∧ (∃ s : State, ∃ i : Fin 12, refState s i = 2 ∧ 1000 * s.get (F.TRV_REF_CFG_QUALT i) ≤ (s.input i).timer ∧ ((s.input i).everAvailable = false ∨ s.get (F.TRV_REF_WTR_WTR i) = 0))
    ∧ (∃ s : State, ∃ i : Fin 12, refState s i = 2 ∧ 1000 * s.get (F.TRV_REF_CFG_QUALT i) ≤ (s.input i).timer ∧ (s.input i).everAvailable = true ∧ s.get (F.TRV_REF_WTR_WTR i) ≠ 0)
    ∧ (∃ s : State, ∃ i : Fin 12, refState s i = 3 ∧ 1000 * s.get (F.TRV_REF_WTR_WTR i) ≤ (s.input i).timer)
    ∧ (∃ s : State, ∃ c : Fin 8, switching s c = true ∧ slewNow s c = .zero)
    ∧ (∃ s : State, 1000 ≤ s.trv.evalTicks)
    ∧ (∃ s : State, ∃ c : Fin 8, loopState s c = 1 ∧ switching s c = false ∧ s.on F.SYN_STAT_FROZEN = false ∧ ((s.loop c).okTicks.any (fun n => decide (1000 * s.get (F.TRV_CH_LOCK_LOCKT c) ≤ n)) = true))
    ∧ (∃ s : State, ∃ c : Fin 8, loopState s c = 3 ∧ s.get (F.TRV_CH_HOMAX_HOMAX c) ≠ 0 ∧ 1000 * s.get (F.TRV_CH_HOMAX_HOMAX c) ≤ (s.loop c).hoTicks)
    ∧ (∃ s : State, 1000 ≤ s.bm.secTicks)
    ∧ (∃ s : State, 3600000 ≤ s.bm.hourTicks ∧ ((let days := s.get F.TRV_BM_CFG_LEARNDAYS; let hold := decide (s.dtm.under = 4 ∨ s.dtm.under = 5); let next := fun (m : BmModel) => if hold then m.closeHour (daysOf s.bm.ticks) days else (m.closeHour (daysOf s.bm.ticks) days).refit (daysOf s.bm.ticks) days; (bmModel (showModel { s with bm := { s.bm with hourTicks := 0, osc := next s.bm.osc, xtal := next s.bm.xtal } })).phase) = (bmModel s).phase))
    ∧ (∃ s : State, 3600000 ≤ s.bm.hourTicks ∧ ((let days := s.get F.TRV_BM_CFG_LEARNDAYS; let hold := decide (s.dtm.under = 4 ∨ s.dtm.under = 5); let next := fun (m : BmModel) => if hold then m.closeHour (daysOf s.bm.ticks) days else (m.closeHour (daysOf s.bm.ticks) days).refit (daysOf s.bm.ticks) days; (bmModel (showModel { s with bm := { s.bm with hourTicks := 0, osc := next s.bm.osc, xtal := next s.bm.xtal } })).phase) ≠ (bmModel s).phase))
    ∧ (∃ s : State, s.on F.TRV_BM_CFG_TEMPSRC = true)
    ∧ (∃ s : State, s.on F.TRV_BM_CFG_TEMPSRC = true ∧ (3 ≤ s.bm.i2cFails + 1 ∧ s.on F.TRV_BM_STAT_TEMPFALL = false))
    ∧ (∃ s : State, s.on F.TRV_BM_CFG_TEMPSRC = true ∧ s.bm.i2cFails < 2) :=
  ⟨⟨((((device 2).set (F.TRV_TOD_CFG_EN 0) 1).set (F.TRV_TOD_CFG_REF 0) 1).set (F.TRV_REF_CFG_KIND 1) 1).set (F.TRV_TOD_CFG_FORMAT 0) 0, 0, by decide +kernel, by decide +kernel, by decide +kernel⟩,
   ⟨((((device 2).set (F.TRV_TOD_CFG_EN 0) 1).set (F.TRV_TOD_CFG_REF 0) 1).set (F.TRV_REF_CFG_KIND 1) 1).set (F.TRV_TOD_CFG_FORMAT 0) 1, 0, [], by decide +kernel, by decide +kernel, by decide +kernel, by decide +kernel⟩,
   ⟨((((device 2).set (F.TRV_TOD_CFG_EN 0) 1).set (F.TRV_TOD_CFG_REF 0) 1).set (F.TRV_REF_CFG_KIND 1) 1).set (F.TRV_TOD_CFG_FORMAT 0) 1, 0, (natBE 2 0x434D ++ (natBE 1 2 ++ natBE 1 1 ++ natBE 2 14 ++ zeros 14) ++ natBE 1 (todCrc (natBE 1 2 ++ natBE 1 1 ++ natBE 2 14 ++ zeros 14))), 2, 1, zeros 14, by decide +kernel, by decide +kernel, by decide +kernel, by decide +kernel, by decide +kernel⟩,
   ⟨((((device 2).set (F.TRV_TOD_CFG_EN 0) 1).set (F.TRV_TOD_CFG_REF 0) 1).set (F.TRV_REF_CFG_KIND 1) 1).set (F.TRV_TOD_CFG_FORMAT 0) 1, 0, (natBE 2 0x434D ++ (natBE 1 1 ++ natBE 1 3 ++ natBE 2 4 ++ zeros 4) ++ natBE 1 (todCrc (natBE 1 1 ++ natBE 1 3 ++ natBE 2 4 ++ zeros 4))), 1, 3, zeros 4, by decide +kernel, by decide +kernel, by decide +kernel, by decide +kernel, by decide +kernel⟩,
   ⟨((((device 2).set (F.TRV_TOD_CFG_EN 0) 1).set (F.TRV_TOD_CFG_REF 0) 1).set (F.TRV_REF_CFG_KIND 1) 1).set (F.TRV_TOD_CFG_FORMAT 0) 1, 0, (natBE 2 0x434D ++ (natBE 1 1 ++ natBE 1 1 ++ natBE 2 14 ++ zeros 14) ++ natBE 1 (todCrc (natBE 1 1 ++ natBE 1 1 ++ natBE 2 14 ++ zeros 14))), zeros 14, by decide +kernel, by decide +kernel, by decide +kernel, by decide +kernel, by decide +kernel⟩,
   ⟨((((device 2).set (F.TRV_TOD_CFG_EN 0) 1).set (F.TRV_TOD_CFG_REF 0) 1).set (F.TRV_REF_CFG_KIND 1) 1).set (F.TRV_TOD_CFG_FORMAT 0) 1, 0, (natBE 2 0x434D ++ (natBE 1 1 ++ natBE 1 2 ++ natBE 2 4 ++ zeros 4) ++ natBE 1 (todCrc (natBE 1 1 ++ natBE 1 2 ++ natBE 2 4 ++ zeros 4))), zeros 4, by decide +kernel, by decide +kernel, by decide +kernel, by decide +kernel, by decide +kernel⟩,
   ⟨let s := (device 2).set (F.TRV_REF_CFG_EN 2) 1; { s.setInput 2 { s.input 2 with goods := [(0, 1)], anchored := true, period := .int 1 } with trn := { s.trn with coarse := 2 ^ 40 } }, 2, 2, 0, 1, [], by decide +kernel, by decide +kernel, by decide +kernel, by decide +kernel⟩,
   ⟨atInput 11 2 3600000 false, 11, by decide +kernel, by decide +kernel, by decide +kernel⟩,
   ⟨(atInput 11 2 3600000 true).set (F.TRV_REF_WTR_WTR 11) 1, 11, by decide +kernel, by decide +kernel, by decide +kernel, by decide +kernel⟩,
   ⟨atInput 0 3 3600000 true, 0, by decide +kernel, by decide +kernel⟩,
   ⟨(device 2).set (F.TRV_CH_SELSTAT_SWITCHING 7) 1, 7, by decide +kernel, by decide +kernel⟩,
   ⟨{ device 2 with trv := { (device 2).trv with evalTicks := 1000 } }, by decide +kernel⟩,
   ⟨((device 2).set (F.TRV_CH_STATE_STATE 1) 1).setLoop 1 { (device 2).loop 1 with okTicks := some 3600000 }, 1, by decide +kernel, by decide +kernel, by decide +kernel, by decide +kernel⟩,
   ⟨(((device 2).set (F.TRV_CH_STATE_STATE 0) 3).set (F.TRV_CH_HOMAX_HOMAX 0) 1).setLoop 0 { (device 2).loop 0 with hoTicks := 1000 }, 0, by decide +kernel, by decide +kernel, by decide +kernel⟩,
   ⟨{ device 2 with bm := { (device 2).bm with secTicks := 1000 } }, by decide +kernel⟩,
   ⟨{ device 2 with bm := { (device 2).bm with hourTicks := 3600000 } }, by decide +kernel, by decide +kernel⟩,
   ⟨learnt, by decide +kernel, by decide +kernel⟩,
   ⟨(device 2).set F.TRV_BM_CFG_TEMPSRC 1, by decide +kernel⟩,
   ⟨{ (device 2).set F.TRV_BM_CFG_TEMPSRC 1 with bm := { (device 2).bm with i2cFails := 2 } }, by decide +kernel, by decide +kernel⟩,
   ⟨(device 2).set F.TRV_BM_CFG_TEMPSRC 1, by decide +kernel, by decide +kernel⟩⟩

/-- States and operands that meet the hypotheses of SynthesisCommandsTakeEffect, clause by clause. -/
theorem witness_SynthesisCommandsTakeEffect :
    (∃ s : State, ∃ n : Fin 6, s.on (F.SYN_SYN_STAT_LOCKED (n.val + 1)) = true ∧ s.on (F.SYN_SYN_STAT_HOLD (n.val + 1)) = false)
    ∧ (∃ s : State, ∃ n : Fin 6, s.on (F.SYN_SYN_CFG_EN (n.val + 1)) = true ∧ s.flt.isoSyns.testBit (n.val + 1) = false ∧ s.on F.SYN_STAT_SYN0LOCK = true ∧ s.on F.SYN_STAT_FROZEN = false ∧ s.on (F.SYN_SYN_STAT_LOCKED (n.val + 1)) = false)
    ∧ (∃ s : State, ∃ n : Fin 6, s.on (F.SYN_SYN_STAT_LOCKED (n.val + 1)) = true ∧ s.on (F.SYN_SYN_STAT_SETTLING (n.val + 1)) = true ∧ (s.synth n).lockedAt + s.get (F.SYN_SYN_CFG_SETTLE (n.val + 1)) * 1200 ≤ s.now)
    ∧ (∃ s : State, ∃ a : BitVec 24, ∃ v : Word, ∃ p : Path, ∃ n : Fin 6, Admits s ∧ denyReason (countAccess p s) a.toNat v = none ∧ (keepHistory (countAccess p s).regs (loadLive p (countAccess p s) (a.toNat, v))).on F.SYN_STAT_FROZEN = false ∧ (2 ≤ n.val ∧ a.toNat = A.SYN_SYN_NUM (n.val + 1)))
    ∧ (∃ s : State, ∃ a : BitVec 24, ∃ v : Word, ∃ p : Path, ∃ n : Fin 6, Admits s ∧ denyReason (countAccess p s) a.toNat v = none ∧ (keepHistory (countAccess p s).regs (loadLive p (countAccess p s) (a.toNat, v))).on F.SYN_STAT_FROZEN = false ∧ (2 ≤ n.val ∧ a.toNat = A.SYN_SYN_DEN (n.val + 1)))
    ∧ (∃ s : State, ∃ a : BitVec 24, ∃ v : Word, ∃ p : Path, ∃ n : Fin 12, Admits s ∧ denyReason (countAccess p s) a.toNat v = none ∧ (keepHistory (countAccess p s).regs (loadLive p (countAccess p s) (a.toNat, v))).on F.SYN_STAT_FROZEN = false ∧ a.toNat = A.SYN_OUT_DIV n)
    ∧ (∃ s : State, ∃ c : Fin 8, ∃ x : Instant × Int, dclkRuns s = true ∧ ((((s.syn.words.get c).getD []).filter (fun x => decide (0 ≤ instDiff s.datum x.1))).getLast? = some x))
    ∧ (∃ s : State, Admits s)
    ∧ (∃ s : State, ∃ v : Word, Admits s ∧ v.getLsbD 31 = false)
    ∧ (∃ s : State, ∃ n : Fin 6, ∃ t : Frac, ∃ sl : Nat, ∃ rest : List (Frac × Nat), (s.synth n).profile = (t, sl) :: rest ∧ s.on F.SYN_STAT_FROZEN = false ∧ (s.synth n).offsetAt s.trn.coarse = t ∧ s.on (F.SYN_SYN_STAT_RAMP (n.val + 1)) = false)
    ∧ (∃ s : State, ∃ n : Fin 6, ∃ t : Frac, ∃ sl : Nat, ∃ rest : List (Frac × Nat), (s.synth n).profile = (t, sl) :: rest ∧ s.on F.SYN_STAT_FROZEN = false ∧ (s.synth n).offsetAt s.trn.coarse = t ∧ s.on (F.SYN_SYN_STAT_RAMP (n.val + 1)) = true ∧ rest = [])
    ∧ (∃ s : State, ∃ n : Fin 6, ∃ t : Frac, ∃ sl : Nat, ∃ rest : List (Frac × Nat), (s.synth n).profile = (t, sl) :: rest ∧ s.on F.SYN_STAT_FROZEN = false ∧ (s.synth n).offsetAt s.trn.coarse = t ∧ s.on (F.SYN_SYN_STAT_RAMP (n.val + 1)) = true ∧ rest ≠ [])
    ∧ (∃ s : State, dclkRuns s = true)
    ∧ (∃ s : State, Admits s)
    ∧ (∃ s : State, ∃ o : Fin 12, s.on (F.SYN_OUT_CFG_AUTOREL o) = true ∧ s.on (F.SYN_OUT_STAT_LIMIT o) = true ∧ 100 < s.syn.passTicks[o]) :=
  ⟨⟨((device 2).set (F.SYN_SYN_STAT_LOCKED 6) 1), 5, by decide +kernel, by decide +kernel⟩,
   ⟨(device 2).set (F.SYN_SYN_CFG_EN 6) 1, 5, by decide +kernel, by decide +kernel, by decide +kernel, by decide +kernel, by decide +kernel⟩,
   ⟨{ ((device 2).set (F.SYN_SYN_STAT_LOCKED 6) 1).set (F.SYN_SYN_STAT_SETTLING 6) 1 with now := 100000000 }, 5, by decide +kernel, by decide +kernel, by decide +kernel⟩,
   ⟨device 5, BitVec.ofNat 24 (A.SYN_SYN_NUM 6), 1, .mw0, 5, ⟨by decide +kernel, by decide +kernel, by decide +kernel⟩, by decide +kernel, by decide +kernel, by decide +kernel⟩,
   ⟨device 5, BitVec.ofNat 24 (A.SYN_SYN_DEN 3), 1, .mw0, 2, ⟨by decide +kernel, by decide +kernel, by decide +kernel⟩, by decide +kernel, by decide +kernel, by decide +kernel⟩,
   ⟨device 5, BitVec.ofNat 24 (A.SYN_OUT_DIV 11), 1, .mw0, 11, ⟨by decide +kernel, by decide +kernel, by decide +kernel⟩, by decide +kernel, by decide +kernel, by decide +kernel⟩,
   ⟨{ device 2 with syn := { (device 2).syn with words := (device 2).syn.words.put 1 [(0, 5)] } }, 1, (0, 5), by decide +kernel, by decide +kernel⟩,
   ⟨device 2, ⟨by decide +kernel, by decide +kernel, by decide +kernel⟩⟩,
   ⟨device 2, 0, ⟨by decide +kernel, by decide +kernel, by decide +kernel⟩, by decide +kernel⟩,
   ⟨((device 2).set (F.SYN_SYN_STAT_RAMP 3) 0).setSynth 2 { (device 2).synth 2 with offset := .zero, profile := (.zero, 1) :: [] }, 2, .zero, 1, [], by decide +kernel, by decide +kernel, by decide +kernel, by decide +kernel⟩,
   ⟨((device 2).set (F.SYN_SYN_STAT_RAMP 3) 1).setSynth 2 { (device 2).synth 2 with offset := .zero, profile := (.zero, 1) :: [] }, 2, .zero, 1, [], by decide +kernel, by decide +kernel, by decide +kernel, by decide +kernel, by decide +kernel⟩,
   ⟨((device 2).set (F.SYN_SYN_STAT_RAMP 3) 1).setSynth 2 { (device 2).synth 2 with offset := .zero, profile := (.zero, 1) :: [(.int 5, 1)] }, 2, .zero, 1, [(.int 5, 1)], by decide +kernel, by decide +kernel, by decide +kernel, by decide +kernel, by decide +kernel⟩,
   ⟨device 2, by decide +kernel⟩,
   ⟨device 2, ⟨by decide +kernel, by decide +kernel, by decide +kernel⟩⟩,
   ⟨{ ((device 2).set (F.SYN_OUT_CFG_AUTOREL 11) 1).set (F.SYN_OUT_STAT_LIMIT 11) 1 with syn := { (device 2).syn with passTicks := (device 2).syn.passTicks.set 11 101 } }, 11, by decide +kernel, by decide +kernel, by decide +kernel⟩⟩

/-- States and operands that meet the hypotheses of MeasuredCheckTripsAboveCeilPlus50Ppm, clause by clause. -/
theorem witness_MeasuredCheckTripsAboveCeilPlus50Ppm :
    (∃ s : State, ∃ o : Fin 12, ∃ f : BitVec 40, outCeil (s.set64 (A.SYN_OUT_FMEAS_W0 o) f.toNat) o = 0)
    ∧ (∃ s : State, ∃ o : Fin 12, ∃ f : BitVec 40, outCeil (s.set64 (A.SYN_OUT_FMEAS_W0 o) f.toNat) o ≠ 0 ∧ f.toNat * 1000000 = outCeil (s.set64 (A.SYN_OUT_FMEAS_W0 o) f.toNat) o * 1000050)
    ∧ (∃ s : State, ∃ o : Fin 12, ∃ f : BitVec 40, outCeil (s.set64 (A.SYN_OUT_FMEAS_W0 o) f.toNat) o ≠ 0 ∧ outCeil (s.set64 (A.SYN_OUT_FMEAS_W0 o) f.toNat) o * 1000050 < f.toNat * 1000000) :=
  ⟨⟨device 2, 0, 5, by decide +kernel⟩,
   ⟨(device 2).set64 (A.SYN_OUT_CEIL_W0 11) 1000000, 11, 1000050, by decide +kernel, by decide +kernel⟩,
   ⟨(device 2).set64 (A.SYN_OUT_CEIL_W0 11) 1000000, 11, 1000051, by decide +kernel, by decide +kernel⟩⟩

/-- States and operands that meet the hypotheses of ClaimCommandsTakeEffect, clause by clause. -/
theorem witness_ClaimCommandsTakeEffect :
    (∃ s : State, inPair s = true ∧ s.on F.SYN_STAT_AUXLOCK = true)
    ∧ (∃ s : State, inPair s = true ∧ (busWatch s).on F.DVL_STAT_STALE = false ∧ lastRefresh (busWatch s) + stalePeriods ≤ (busWatch s).now)
    ∧ (∃ s : State, inPair s = true)
    ∧ (∃ s : State, (claimUpdate s).on F.DVL_STAT_ACTIVE = false ∧ ((claimUpdate s).dvl.guard.any (fun g => decide (g.since + guardPeriods g.kind ≤ (claimUpdate s).now)) = true))
    ∧ (∃ s : State, ∃ v : Word, Admits s ∧ v.getLsbD 1 = false)
    ∧ (∃ s : State, Admits s) :=
  ⟨⟨inPairs, by decide +kernel, by decide +kernel⟩,
   ⟨{ inPairs.set F.DVL_STAT_STALE 0 with now := 2400 }, by decide +kernel, by decide +kernel, by decide +kernel⟩,
   ⟨inPairs, by decide +kernel⟩,
   ⟨{ claiming with now := 3000, dvl := { claiming.dvl with guard := some ⟨guardKind (showClaim { claiming with now := 3000 }), 0⟩ } }, by decide +kernel, by decide +kernel⟩,
   ⟨device 2, 0, ⟨by decide +kernel, by decide +kernel, by decide +kernel⟩, by decide +kernel⟩,
   ⟨device 2, ⟨by decide +kernel, by decide +kernel, by decide +kernel⟩⟩⟩

/-- States and operands that meet the hypotheses of ClaimFrameIsReadAsItWasSent, clause by clause. -/
theorem witness_ClaimFrameIsReadAsItWasSent :
    (∃ s : State, ∃ r : State, inPair s = true ∧ s.on F.SYN_STAT_AUXLOCK = true ∧ inPair r = true ∧ (∀ h, r.dvl.heardAt = some h → h + stalePeriods ≤ r.now))
    ∧ (∃ s : State, ∃ r : State, inPair s = true ∧ s.on F.SYN_STAT_AUXLOCK = true ∧ inPair r = true ∧ r.dvl.seqRx = some (((claimUpdate s).dvl.seqTx + 15) % 16)) :=
  ⟨⟨inPairs, inPairs, by decide +kernel, by decide +kernel, by decide +kernel, fun h e => nomatch (show (none : Option Nat) = some h from e)⟩,
   ⟨inPairs, { inPairs with dvl := { inPairs.dvl with heardAt := some 0, seqRx := some (((claimUpdate inPairs).dvl.seqTx + 15) % 16) } }, by decide +kernel, by decide +kernel, by decide +kernel, by decide +kernel⟩⟩

/-- States and operands that meet the hypotheses of LinkCommandsTakeEffect, clause by clause. -/
theorem witness_LinkCommandsTakeEffect :
    (∃ s : State, s.on F.DVL_STAT_LINK = true ∧ s.dvl.frameAt + 4800 ≤ s.now)
    ∧ (∃ s : State, s.get F.DVL_STAT_LANES = 3)
    ∧ (∃ s : State, dvlRuns s = true)
    ∧ (∃ s : State, dvlRuns s = true)
    ∧ (∃ s : State, dvlRuns s = true ∧ s.on F.DVL_STAT_ACTIVE = true ∧ dclkRuns s = true)
    ∧ (∃ s : State, ∃ a : State, ∃ damaged : Nat, ∃ missing : Bool, dvlRuns s = true ∧ a = s.addSat F.DVL_RECERR_CNT_COUNT damaged ∧ (damaged ≠ 0 ∨ missing = true ∨ a.on F.DVL_STAT_ACTIVE = true))
    ∧ (∃ s : State, ∃ a : State, ∃ r : StateRecord, ∃ damaged : Nat, ∃ missing : Bool, ∃ u : State, ∃ v : State, dvlRuns s = true ∧ a = s.addSat F.DVL_RECERR_CNT_COUNT damaged ∧ (u = { a with dvl := { a.dvl with frameAt := a.now, lastApplied := r.cycle, ptnRefs := r.refs, cycle := r.cycle } }) ∧ v = ntsCompare r.epoch r.kcv (u.setB F.DVL_STAT_SNAPDIFF (snapDiffers r u)) ∧ damaged = 0 ∧ missing = false ∧ a.on F.DVL_STAT_ACTIVE = false)
    ∧ (∃ s : State, dvlRuns s = true ∧ s.on F.DVL_STAT_ACTIVE = false)
    ∧ (∃ s : State, dvlRuns s = true ∧ (({ s with dvl := { s.dvl with frameAt := s.now } }).on F.DVL_STAT_ACTIVE = false))
    ∧ (∃ s : State, dvlRuns s = true ∧ (({ s with dvl := { s.dvl with frameAt := s.now } }).on F.DVL_STAT_ACTIVE = true))
    ∧ (∃ s : State, dvlRuns s = true ∧ (({ s with dvl := { s.dvl with frameAt := s.now } }).get F.DVL_STAT_PHASE = 2) ∧ (({ s with dvl := { s.dvl with frameAt := s.now } }).on F.DVL_STAT_ACTIVE = false))
    ∧ (∃ s : State, s.get F.DVL_STAT_PHASE = 2 ∧ s.dvl.bulkLast = true ∧ s.dvl.bulkHole = false)
    ∧ (∃ s : State, s.get F.DVL_STAT_PHASE = 3 ∧ 1000 * s.get F.DVL_RESYNC_CFG_TRACKT < s.dvl.trackTicks)
    ∧ (∃ s : State, dvlRuns s = true ∧ s.get F.DVL_STAT_PHASE = 1)
    ∧ (∃ s : State, ∃ w : Bytes, ∃ k : Bytes, dvlRuns s = true ∧ s.get F.DVL_STAT_PHASE = 1 ∧ s.dvl.pair.key ≠ [] ∧ s.on F.DVL_STAT_ACTIVE = false ∧ kwUnwrap s.dvl.pair.key w = some k)
    ∧ (∃ s : State, ∃ w : Bytes, dvlRuns s = true ∧ s.get F.DVL_STAT_PHASE = 1 ∧ s.dvl.pair.key ≠ [] ∧ s.on F.DVL_STAT_ACTIVE = false ∧ kwUnwrap s.dvl.pair.key w = none)
    ∧ (∃ s : State, ∃ u : State, ∃ t : Nat, s.dvl.pair.rejectedAt = some t ∧ t + retryPeriods ≤ s.now ∧ u = pairErase none false s) :=
  ⟨⟨{ inPairs.set F.DVL_STAT_LINK 1 with now := 4800, dvl := { inPairs.dvl with frameAt := 0 } }, by decide +kernel, by decide +kernel⟩,
   ⟨inPairs.set F.DVL_STAT_LANES 3, by decide +kernel⟩,
   ⟨inPairs, by decide +kernel⟩,
   ⟨inPairs, by decide +kernel⟩,
   ⟨inPairs.set F.DVL_STAT_ACTIVE 1, by decide +kernel, by decide +kernel, by decide +kernel⟩,
   ⟨inPairs.set F.DVL_STAT_ACTIVE 0, _, 1, false, by decide +kernel, rfl, by decide +kernel⟩,
   ⟨inPairs.set F.DVL_STAT_ACTIVE 0, _, stateRec, 0, false, _, _, by decide +kernel, rfl, rfl, rfl, by decide +kernel, by decide +kernel, by decide +kernel⟩,
   ⟨inPairs.set F.DVL_STAT_ACTIVE 0, by decide +kernel, by decide +kernel⟩,
   ⟨inPairs.set F.DVL_STAT_ACTIVE 0, by decide +kernel, by decide +kernel⟩,
   ⟨inPairs.set F.DVL_STAT_ACTIVE 1, by decide +kernel, by decide +kernel⟩,
   ⟨(inPairs.set F.DVL_STAT_ACTIVE 0).set F.DVL_STAT_PHASE 2, by decide +kernel, by decide +kernel, by decide +kernel⟩,
   ⟨{ inPairs.set F.DVL_STAT_PHASE 2 with dvl := { inPairs.dvl with bulkLast := true, bulkHole := false } }, by decide +kernel, by decide +kernel, by decide +kernel⟩,
   ⟨{ inPairs.set F.DVL_STAT_PHASE 3 with dvl := { inPairs.dvl with trackTicks := 10 ^ 9 } }, by decide +kernel, by decide +kernel⟩,
   ⟨inPairs.set F.DVL_STAT_PHASE 1, by decide +kernel, by decide +kernel⟩,
   ⟨{ (inPairs.set F.DVL_STAT_ACTIVE 0).set F.DVL_STAT_PHASE 1 with dvl := { inPairs.dvl with pair := { inPairs.dvl.pair with key := zeros 32 } } }, natBE 8 0xA6A6A6A6A6A6A6A6, [], by decide +kernel, by decide +kernel, by decide +kernel, by decide +kernel, by decide +kernel⟩,
   ⟨{ (inPairs.set F.DVL_STAT_ACTIVE 0).set F.DVL_STAT_PHASE 1 with dvl := { inPairs.dvl with pair := { inPairs.dvl.pair with key := zeros 32 } } }, [], by decide +kernel, by decide +kernel, by decide +kernel, by decide +kernel, by decide +kernel⟩,
   ⟨{ inPairs with now := 1200000000, dvl := { inPairs.dvl with pair := { inPairs.dvl.pair with rejectedAt := some 0 } } }, _, 0, by decide +kernel, by decide +kernel, rfl⟩⟩

/-- States and operands that meet the hypotheses of HostInterfaceCommandsTakeEffect, clause by clause. -/
theorem witness_HostInterfaceCommandsTakeEffect :
    (∃ s : State, ∃ n : Fin 64, Admits s ∧ ringExists n = true)
    ∧ (∃ s : State, ∃ n : Fin 64, Admits s ∧ ringExists n = false)
    ∧ (∃ s : State, ∃ n : Fin 64, Admits s ∧ ringExists n = false)
    ∧ (∃ s : State, ∃ n : Fin 64, Admits s ∧ ringExists n = false)
    ∧ (∃ s : State, ∃ n : Fin 64, Admits s ∧ ringExists n = true ∧ ringOn (countAccess .mw0 s) n = false ∧ (countAccess .mw0 s).on (F.HMI_R_STAT_ACTIVE n) = false)
    ∧ (∃ s : State, ∃ n : Fin 64, Admits s ∧ ringExists n = true ∧ ringOn (countAccess .mw0 s) n = true ∧ n.val < 24)
    ∧ (∃ s : State, ∃ n : Fin 64, Admits s ∧ ringExists n = true ∧ ringOn (countAccess .mw0 s) n = true ∧ (24 ≤ n.val ∧ n.val < 56))
    ∧ (∃ s : State, ∃ n : Fin 64, Admits s ∧ ringExists n = true ∧ ringOn (countAccess .mw0 s) n = true ∧ 56 ≤ n.val)
    ∧ (∃ s : State, ∃ n : Fin 64, ringOn s n = false)
    ∧ (∃ s : State, s.on F.HMI_STAT_LINK = true)
    ∧ (∃ s : State, s.on F.SYN_STAT_AUXLOCK = true)
    ∧ (∃ s : State, ∃ b : Bytes, accessible s = true ∧ s.sys.mspiEn = true ∧ 5 ≤ b.length ∧ beAt b 0 1 = 0x52 ∧ beAt b 4 1 = (crc8 (b.take 4)).toNat ∧ beAt b 1 3 % 4 = 0)
    ∧ (∃ s : State, ∃ b : Bytes, accessible s = true ∧ s.sys.mspiEn = true ∧ 5 ≤ b.length ∧ beAt b 0 1 = 0x52 ∧ beAt b 4 1 = (crc8 (b.take 4)).toNat ∧ beAt b 1 3 % 4 ≠ 0)
    ∧ (∃ s : State, ∃ b : Bytes, accessible s = true ∧ s.sys.mspiEn = true ∧ 5 ≤ b.length ∧ beAt b 0 1 = 0x52 ∧ beAt b 4 1 ≠ (crc8 (b.take 4)).toNat)
    ∧ (∃ s : State, ∃ b : Bytes, accessible s = true ∧ s.sys.mspiEn = true ∧ 9 ≤ b.length ∧ beAt b 0 1 = 0x57 ∧ beAt b 8 1 = (crc8 (b.take 8)).toNat ∧ beAt b 1 3 % 4 = 0)
    ∧ (∃ s : State, ∃ b : Bytes, accessible s = true ∧ s.sys.mspiEn = true ∧ 9 ≤ b.length ∧ beAt b 0 1 = 0x57 ∧ beAt b 8 1 = (crc8 (b.take 8)).toNat ∧ beAt b 1 3 % 4 ≠ 0)
    ∧ (∃ s : State, ∃ b : Bytes, accessible s = true ∧ s.sys.mspiEn = true ∧ 9 ≤ b.length ∧ beAt b 0 1 = 0x57 ∧ beAt b 8 1 ≠ (crc8 (b.take 8)).toNat) :=
  ⟨⟨device 2, 63, ⟨by decide +kernel, by decide +kernel, by decide +kernel⟩, by decide +kernel⟩,
   ⟨device 2, 48, ⟨by decide +kernel, by decide +kernel, by decide +kernel⟩, by decide +kernel⟩,
   ⟨device 2, 48, ⟨by decide +kernel, by decide +kernel, by decide +kernel⟩, by decide +kernel⟩,
   ⟨device 2, 48, ⟨by decide +kernel, by decide +kernel, by decide +kernel⟩, by decide +kernel⟩,
   ⟨device 2, 63, ⟨by decide +kernel, by decide +kernel, by decide +kernel⟩, by decide +kernel, by decide +kernel, by decide +kernel⟩,
   ⟨withRing 0 hosted, 0, ⟨by decide +kernel, by decide +kernel, by decide +kernel⟩, by decide +kernel, by decide +kernel, by decide +kernel⟩,
   ⟨withRing 24 hosted, 24, ⟨by decide +kernel, by decide +kernel, by decide +kernel⟩, by decide +kernel, by decide +kernel, by decide +kernel⟩,
   ⟨withRing 56 hosted, 56, ⟨by decide +kernel, by decide +kernel, by decide +kernel⟩, by decide +kernel, by decide +kernel, by decide +kernel⟩,
   ⟨device 2, 0, by decide +kernel⟩,
   ⟨hosted, by decide +kernel⟩,
   ⟨device 2, by decide +kernel⟩,
   ⟨{ device 2 with sys := { (device 2).sys with mspiEn := true } }, (natBE 1 0x52 ++ natBE 3 4) ++ [crc8 (natBE 1 0x52 ++ natBE 3 4)], by decide +kernel, by decide +kernel, by decide +kernel, by decide +kernel, by decide +kernel, by decide +kernel⟩,
   ⟨{ device 2 with sys := { (device 2).sys with mspiEn := true } }, (natBE 1 0x52 ++ natBE 3 5) ++ [crc8 (natBE 1 0x52 ++ natBE 3 5)], by decide +kernel, by decide +kernel, by decide +kernel, by decide +kernel, by decide +kernel, by decide +kernel⟩,
   ⟨{ device 2 with sys := { (device 2).sys with mspiEn := true } }, (natBE 1 0x52 ++ natBE 3 4) ++ [crc8 (natBE 1 0x52 ++ natBE 3 4) + 1], by decide +kernel, by decide +kernel, by decide +kernel, by decide +kernel, by decide +kernel⟩,
   ⟨{ device 2 with sys := { (device 2).sys with mspiEn := true } }, (natBE 1 0x57 ++ natBE 3 4 ++ zeros 4) ++ [crc8 (natBE 1 0x57 ++ natBE 3 4 ++ zeros 4)], by decide +kernel, by decide +kernel, by decide +kernel, by decide +kernel, by decide +kernel, by decide +kernel⟩,
   ⟨{ device 2 with sys := { (device 2).sys with mspiEn := true } }, (natBE 1 0x57 ++ natBE 3 5 ++ zeros 4) ++ [crc8 (natBE 1 0x57 ++ natBE 3 5 ++ zeros 4)], by decide +kernel, by decide +kernel, by decide +kernel, by decide +kernel, by decide +kernel, by decide +kernel⟩,
   ⟨{ device 2 with sys := { (device 2).sys with mspiEn := true } }, (natBE 1 0x57 ++ natBE 3 4 ++ zeros 4) ++ [crc8 (natBE 1 0x57 ++ natBE 3 4 ++ zeros 4) + 1], by decide +kernel, by decide +kernel, by decide +kernel, by decide +kernel, by decide +kernel⟩⟩

/-- States and operands that meet the hypotheses of TailWriteHandsOverOrSetsTailerr, clause by clause. -/
theorem witness_TailWriteHandsOverOrSetsTailerr :
    (∃ s : State, ∃ n : Fin 64, ∃ v : Word, Admits s ∧ Canonical s ∧ ringExists n = true ∧ v.toNat % 65536 < ringSize s n)
    ∧ (∃ s : State, ∃ n : Fin 64, ∃ v : Word, Admits s ∧ Canonical s ∧ ringExists n = true ∧ ringSize s n ≤ v.toNat % 65536) :=
  ⟨⟨withRing 0 hosted, 0, 63, ⟨by decide +kernel, by decide +kernel, by decide +kernel⟩, ⟨by decide +kernel, by decide +kernel⟩, by decide +kernel, by decide +kernel⟩,
   ⟨withRing 63 hosted, 63, 64, ⟨by decide +kernel, by decide +kernel, by decide +kernel⟩, ⟨by decide +kernel, by decide +kernel⟩, by decide +kernel, by decide +kernel⟩⟩

/-- States and operands that meet the hypotheses of RingCommandsTakeEffect, clause by clause. -/
theorem witness_RingCommandsTakeEffect :
    (∃ s : State, ∃ r : Fin 16, ∃ slots : List Desc, ∃ f : UpItem, ∃ rest : List UpItem, ringOn s r = true ∧ s.hmi.dmaPaused = none ∧ (s.ring r).queue = f :: rest ∧ dmaOk s = true ∧ (reserveSpan s r 0 f.bytes.length (slots.take (ringOwned s r))).isSome = true)
    ∧ (∃ s : State, ∃ r : Fin 16, ∃ slots : List Desc, ∃ f : UpItem, ∃ rest : List UpItem, ringOn s r = true ∧ s.hmi.dmaPaused = none ∧ (s.ring r).queue = f :: rest ∧ dmaOk s = true ∧ reserveSpan s r 0 f.bytes.length (slots.take (ringOwned s r)) = none ∧ s.get (F.HMI_R_LIM_WAIT r) ≠ 0 ∧ (s.ring r).waitFrom = none)
    ∧ (∃ s : State, ∃ r : Fin 16, ∃ slots : List Desc, ∃ f : UpItem, ∃ rest : List UpItem, ringOn s r = true ∧ s.hmi.dmaPaused = none ∧ (s.ring r).queue = f :: rest ∧ dmaOk s = true ∧ reserveSpan s r 0 f.bytes.length (slots.take (ringOwned s r)) = none ∧ s.get (F.HMI_R_LIM_WAIT r) = 0)
    ∧ (∃ s : State, ∃ k : Fin 8, ∃ i : UpItem, ∃ rest : List UpItem, ∃ b : RecBuf, ringOn s (16 + k.val) = true ∧ s.hmi.dmaPaused = none ∧ (s.ring (16 + k.val)).queue = i :: rest ∧ dmaOk s = true ∧ ((s.ring (16 + k.val)).buf = some b ∧ b.bytes + i.bytes.length ≤ b.room))
    ∧ (∃ s : State, ∃ k : Fin 8, ∃ i : UpItem, ∃ rest : List UpItem, ∃ b : RecBuf, ringOn s (16 + k.val) = true ∧ s.hmi.dmaPaused = none ∧ (s.ring (16 + k.val)).queue = i :: rest ∧ dmaOk s = true ∧ ((s.ring (16 + k.val)).buf = some b ∧ b.room < b.bytes + i.bytes.length))
    ∧ (∃ s : State, ∃ k : Fin 8, ∃ i : UpItem, ∃ rest : List UpItem, ringOn s (16 + k.val) = true ∧ s.hmi.dmaPaused = none ∧ (s.ring (16 + k.val)).queue = i :: rest ∧ dmaOk s = true ∧ (s.ring (16 + k.val)).buf = none)
    ∧ (∃ s : State, ∃ k : Fin 8, ∃ i : UpItem, ∃ rest : List UpItem, ringOn s (16 + k.val) = true ∧ s.hmi.dmaPaused = none ∧ (s.ring (16 + k.val)).queue = i :: rest ∧ dmaOk s = false ∧ s.get (F.HMI_R_LIM_WAIT (16 + k.val)) ≠ 0 ∧ (s.ring (16 + k.val)).waitFrom = none)
    ∧ (∃ s : State, ∃ r : Fin 24, ∃ t : Nat, ∃ i : UpItem, ∃ rest : List UpItem, (s.ring r).waitFrom = some t ∧ (s.ring r).queue = i :: rest ∧ s.hmi.dmaPaused = none ∧ t + usPeriods * s.get (F.HMI_R_LIM_WAIT r) ≤ s.now)
    ∧ (∃ s : State, ∃ k : Fin 8, ∃ b : RecBuf, (s.ring (16 + k.val)).buf = some b ∧ dmaOk s = true ∧ 0 < b.records ∧ b.since + usPeriods * s.get (F.HMI_R_COAL_COALESCE (16 + k.val)) ≤ s.now)
    ∧ (∃ s : State, ∃ r : Fin 56, s.on (F.HMI_R_IRQ_EN r) = true ∧ s.get (F.HMI_R_IRQ_TMR r) ≠ 0 ∧ 0 < (s.ring r).unsignalled ∧ s.hmi.dmaPaused = none ∧ (s.ring r).firstAt + usPeriods * s.get (F.HMI_R_IRQ_TMR r) ≤ s.now)
    ∧ (∃ s : State, ∃ k : Fin 16, ∃ slots : List Desc, ∃ data : Bytes, ∃ d : Desc, ∃ p : Fin 7, ringOn s (32 + k.val) = true ∧ dmaOk s = true ∧ oneFrame slots = true ∧ slotsFetched s (32 + k.val) + slots.length ≤ ringOwned s (32 + k.val) ∧ (slots.find? (fun d => d.len != 0) = some d) ∧ p.val = d.port ∧ txStatus s d.port (frameBytes s (32 + k.val) slots) (ethPad ((padTo (frameBytes s (32 + k.val) slots) data).take (if frameBytes s (32 + k.val) slots < 9600 then frameBytes s (32 + k.val) slots else 9600))) = none)
    ∧ (∃ s : State, ∃ k : Fin 16, ∃ slots : List Desc, ∃ data : Bytes, ∃ d : Desc, ringOn s (32 + k.val) = true ∧ dmaOk s = true ∧ oneFrame slots = true ∧ slotsFetched s (32 + k.val) + slots.length ≤ ringOwned s (32 + k.val) ∧ (slots.find? (fun d => d.len != 0) = some d) ∧ txStatus s d.port (frameBytes s (32 + k.val) slots) (ethPad ((padTo (frameBytes s (32 + k.val) slots) data).take (if frameBytes s (32 + k.val) slots < 9600 then frameBytes s (32 + k.val) slots else 9600))) ≠ none)
    ∧ (∃ s : State, ∃ k : Fin 8, ringOn s (56 + k.val) = true ∧ ringOn s (24 + k.val) = true ∧ dmaOk s = true ∧ 0 < ringOwned s (56 + k.val) ∧ commandsHeld s k < ringOwned s (24 + k.val))
    ∧ (∃ s : State, ∃ k : Fin 8, ∃ c : HostCmd, ∃ rest : List HostCmd, ∃ st : Nat, ∃ res : Bytes, (s.ring (56 + k.val)).cmds = c :: rest ∧ c.done = some (st, res) ∧ c.ready ≤ s.now ∧ ringOn s (24 + k.val) = true ∧ dmaOk s = true ∧ 0 < ringOwned s (24 + k.val)) :=
  ⟨⟨let s := withRing 15 hosted; s.setRing 15 { s.ring 15 with queue := [⟨zeros 60, true, 0, 0, 0⟩] }, 15, [⟨0x1000, 2048, 5, 1, 0, 0, 0⟩], ⟨zeros 60, true, 0, 0, 0⟩, [], by decide +kernel, by decide +kernel, by decide +kernel, by decide +kernel, by decide +kernel⟩,
   ⟨let s := (withRing 15 hosted).set (F.HMI_R_LIM_WAIT 15) 5; s.setRing 15 { s.ring 15 with queue := [⟨zeros 60, true, 0, 0, 0⟩] }, 15, [], ⟨zeros 60, true, 0, 0, 0⟩, [], by decide +kernel, by decide +kernel, by decide +kernel, by decide +kernel, by decide +kernel, by decide +kernel, by decide +kernel⟩,
   ⟨let s := (withRing 15 hosted).set (F.HMI_R_LIM_WAIT 15) 0; s.setRing 15 { s.ring 15 with queue := [⟨zeros 60, true, 0, 0, 0⟩] }, 15, [], ⟨zeros 60, true, 0, 0, 0⟩, [], by decide +kernel, by decide +kernel, by decide +kernel, by decide +kernel, by decide +kernel, by decide +kernel⟩,
   ⟨let s := withRing 16 hosted; s.setRing 16 { s.ring 16 with queue := [⟨zeros 60, true, 0, 0, 0⟩], buf := some ⟨0, 0, 4096, 4036, 1, false, 0⟩ }, 0, ⟨zeros 60, true, 0, 0, 0⟩, [], ⟨0, 0, 4096, 4036, 1, false, 0⟩, by decide +kernel, by decide +kernel, by decide +kernel, by decide +kernel, by decide +kernel⟩,
   ⟨let s := withRing 16 hosted; s.setRing 16 { s.ring 16 with queue := [⟨zeros 60, true, 0, 0, 0⟩], buf := some ⟨0, 0, 4096, 4037, 1, false, 0⟩ }, 0, ⟨zeros 60, true, 0, 0, 0⟩, [], ⟨0, 0, 4096, 4037, 1, false, 0⟩, by decide +kernel, by decide +kernel, by decide +kernel, by decide +kernel, by decide +kernel⟩,
   ⟨let s := withRing 16 hosted; s.setRing 16 { s.ring 16 with queue := [⟨zeros 60, true, 0, 0, 0⟩] }, 0, ⟨zeros 60, true, 0, 0, 0⟩, [], by decide +kernel, by decide +kernel, by decide +kernel, by decide +kernel, by decide +kernel⟩,
   ⟨let s := (withRing 23 (device 2)).set (F.HMI_R_LIM_WAIT 23) 5; s.setRing 23 { s.ring 23 with queue := [⟨zeros 60, true, 0, 0, 0⟩] }, 7, ⟨zeros 60, true, 0, 0, 0⟩, [], by decide +kernel, by decide +kernel, by decide +kernel, by decide +kernel, by decide +kernel, by decide +kernel⟩,
   ⟨let s := withRing 0 hosted; { s.setRing 0 { s.ring 0 with queue := [⟨zeros 60, true, 0, 0, 0⟩], waitFrom := some 0 } with now := 100000000000 }, 0, 0, ⟨zeros 60, true, 0, 0, 0⟩, [], by decide +kernel, by decide +kernel, by decide +kernel, by decide +kernel⟩,
   ⟨let s := withRing 16 hosted; { s.setRing 16 { s.ring 16 with buf := some ⟨0, 0, 4096, 60, 1, false, 0⟩ } with now := 100000000000 }, 0, ⟨0, 0, 4096, 60, 1, false, 0⟩, by decide +kernel, by decide +kernel, by decide +kernel, by decide +kernel⟩,
   ⟨let s := (withRing 55 hosted).set (F.HMI_R_IRQ_EN 55) 1 |>.set (F.HMI_R_IRQ_TMR 55) 5; { s.setRing 55 { s.ring 55 with unsignalled := 1 } with now := 100000000 }, 55, by decide +kernel, by decide +kernel, by decide +kernel, by decide +kernel, by decide +kernel⟩,
   ⟨(withRing 32 (hosted.set (F.PRT_P_STAT_LINK 0) 1)), 0, [desc 0], zeros 60, desc 0, 0, by decide +kernel, by decide +kernel, by decide +kernel, by decide +kernel, by decide +kernel, by decide +kernel, by decide +kernel⟩,
   ⟨(withRing 32 (hosted.set (F.PRT_P_STAT_LINK 0) 1)), 0, [desc 7], zeros 60, desc 7, by decide +kernel, by decide +kernel, by decide +kernel, by decide +kernel, by decide +kernel, by decide +kernel⟩,
   ⟨withRing 63 (withRing 31 hosted), 7, by decide +kernel, by decide +kernel, by decide +kernel, by decide +kernel, by decide +kernel⟩,
   ⟨let s := withRing 56 (withRing 24 hosted); s.setRing 56 { s.ring 56 with cmds := [{ cmd0 (zeros 16) with done := some (0, []) }] }, 0, { cmd0 (zeros 16) with done := some (0, []) }, [], 0, [], by decide +kernel, by decide +kernel, by decide +kernel, by decide +kernel, by decide +kernel, by decide +kernel⟩⟩

/-- States and operands that meet the hypotheses of ModularResultsAreExact, clause by clause. -/
theorem witness_ModularResultsAreExact :
    (∃ s : State, ∃ c : Fin 16, ∃ o : PkeOp, ∃ w : Nat, ∃ m : Nat, ∃ x : Nat, ∃ y : Nat, s.core c = some o ∧ beAt o.block 0 1 = 0x01 ∧ ((o.outcome = none ∧ kclkRuns s = true)) ∧ w = 8 * (cmdHead o.block).len ∧ m = opndNat o.block 0 w ∧ x = opndNat o.block w w ∧ y = opndNat o.block (2 * w) w ∧ m = 0)
    ∧ (∃ s : State, ∃ c : Fin 16, ∃ o : PkeOp, ∃ w : Nat, ∃ m : Nat, ∃ x : Nat, ∃ y : Nat, s.core c = some o ∧ beAt o.block 0 1 = 0x01 ∧ ((o.outcome = none ∧ kclkRuns s = true)) ∧ w = 8 * (cmdHead o.block).len ∧ m = opndNat o.block 0 w ∧ x = opndNat o.block w w ∧ y = opndNat o.block (2 * w) w ∧ m ≠ 0 ∧ (m ≤ x ∨ m ≤ y))
    ∧ (∃ s : State, ∃ c : Fin 16, ∃ o : PkeOp, ∃ w : Nat, ∃ m : Nat, ∃ x : Nat, ∃ y : Nat, s.core c = some o ∧ beAt o.block 0 1 = 0x01 ∧ ((o.outcome = none ∧ kclkRuns s = true)) ∧ w = 8 * (cmdHead o.block).len ∧ m = opndNat o.block 0 w ∧ x = opndNat o.block w w ∧ y = opndNat o.block (2 * w) w ∧ m ≠ 0 ∧ (m ≤ x ∨ m ≤ y))
    ∧ (∃ s : State, ∃ c : Fin 16, ∃ o : PkeOp, ∃ w : Nat, ∃ m : Nat, ∃ x : Nat, ∃ y : Nat, s.core c = some o ∧ beAt o.block 0 1 = 0x01 ∧ ((o.outcome = none ∧ kclkRuns s = true)) ∧ w = 8 * (cmdHead o.block).len ∧ m = opndNat o.block 0 w ∧ x = opndNat o.block w w ∧ y = opndNat o.block (2 * w) w ∧ m ≠ 0 ∧ x < m ∧ y < m)
    ∧ (∃ s : State, ∃ c : Fin 16, ∃ o : PkeOp, ∃ w : Nat, ∃ m : Nat, ∃ x : Nat, ∃ y : Nat, s.core c = some o ∧ beAt o.block 0 1 = 0x02 ∧ ((o.outcome = none ∧ kclkRuns s = true)) ∧ w = 8 * (cmdHead o.block).len ∧ m = opndNat o.block 0 w ∧ x = opndNat o.block w w ∧ y = opndNat o.block (2 * w) w ∧ m = 0)
    ∧ (∃ s : State, ∃ c : Fin 16, ∃ o : PkeOp, ∃ w : Nat, ∃ m : Nat, ∃ x : Nat, ∃ y : Nat, s.core c = some o ∧ beAt o.block 0 1 = 0x02 ∧ ((o.outcome = none ∧ kclkRuns s = true)) ∧ w = 8 * (cmdHead o.block).len ∧ m = opndNat o.block 0 w ∧ x = opndNat o.block w w ∧ y = opndNat o.block (2 * w) w ∧ m ≠ 0 ∧ (m ≤ x ∨ m ≤ y))
    ∧ (∃ s : State, ∃ c : Fin 16, ∃ o : PkeOp, ∃ w : Nat, ∃ m : Nat, ∃ x : Nat, ∃ y : Nat, s.core c = some o ∧ beAt o.block 0 1 = 0x02 ∧ ((o.outcome = none ∧ kclkRuns s = true)) ∧ w = 8 * (cmdHead o.block).len ∧ m = opndNat o.block 0 w ∧ x = opndNat o.block w w ∧ y = opndNat o.block (2 * w) w ∧ m ≠ 0 ∧ (m ≤ x ∨ m ≤ y))
    ∧ (∃ s : State, ∃ c : Fin 16, ∃ o : PkeOp, ∃ w : Nat, ∃ m : Nat, ∃ x : Nat, ∃ y : Nat, s.core c = some o ∧ beAt o.block 0 1 = 0x02 ∧ ((o.outcome = none ∧ kclkRuns s = true)) ∧ w = 8 * (cmdHead o.block).len ∧ m = opndNat o.block 0 w ∧ x = opndNat o.block w w ∧ y = opndNat o.block (2 * w) w ∧ m ≠ 0 ∧ x < m ∧ y < m)
    ∧ (∃ s : State, ∃ c : Fin 16, ∃ o : PkeOp, ∃ w : Nat, ∃ m : Nat, ∃ x : Nat, ∃ y : Nat, s.core c = some o ∧ beAt o.block 0 1 = 0x03 ∧ ((o.outcome = none ∧ kclkRuns s = true)) ∧ w = 8 * (cmdHead o.block).len ∧ m = opndNat o.block 0 w ∧ x = opndNat o.block w w ∧ y = opndNat o.block (2 * w) w ∧ m % 2 = 0)
    ∧ (∃ s : State, ∃ c : Fin 16, ∃ o : PkeOp, ∃ w : Nat, ∃ m : Nat, ∃ x : Nat, ∃ y : Nat, s.core c = some o ∧ beAt o.block 0 1 = 0x03 ∧ ((o.outcome = none ∧ kclkRuns s = true)) ∧ w = 8 * (cmdHead o.block).len ∧ m = opndNat o.block 0 w ∧ x = opndNat o.block w w ∧ y = opndNat o.block (2 * w) w ∧ m % 2 = 1 ∧ (m ≤ x ∨ m ≤ y))
    ∧ (∃ s : State, ∃ c : Fin 16, ∃ o : PkeOp, ∃ w : Nat, ∃ m : Nat, ∃ x : Nat, ∃ y : Nat, s.core c = some o ∧ beAt o.block 0 1 = 0x03 ∧ ((o.outcome = none ∧ kclkRuns s = true)) ∧ w = 8 * (cmdHead o.block).len ∧ m = opndNat o.block 0 w ∧ x = opndNat o.block w w ∧ y = opndNat o.block (2 * w) w ∧ m % 2 = 1 ∧ x < m ∧ y < m)
    ∧ (∃ s : State, ∃ c : Fin 16, ∃ o : PkeOp, ∃ w : Nat, ∃ m : Nat, s.core c = some o ∧ beAt o.block 0 1 = 0x04 ∧ ((o.outcome = none ∧ kclkRuns s = true)) ∧ w = 8 * (cmdHead o.block).len ∧ m = opndNat o.block 0 w ∧ m ≠ 0)
    ∧ (∃ s : State, ∃ c : Fin 16, ∃ o : PkeOp, ∃ w : Nat, ∃ m : Nat, s.core c = some o ∧ beAt o.block 0 1 = 0x04 ∧ ((o.outcome = none ∧ kclkRuns s = true)) ∧ w = 8 * (cmdHead o.block).len ∧ m = opndNat o.block 0 w ∧ m = 0)
    ∧ (∃ s : State, ∃ c : Fin 16, ∃ o : PkeOp, ∃ w : Nat, ∃ m : Nat, ∃ x : Nat, ∃ y : Nat, s.core c = some o ∧ beAt o.block 0 1 = 0x05 ∧ ((o.outcome = none ∧ kclkRuns s = true)) ∧ w = 8 * (cmdHead o.block).len ∧ m = opndNat o.block 0 w ∧ x = opndNat o.block w w ∧ y = opndNat o.block (2 * w) w ∧ m % 2 = 0)
    ∧ (∃ s : State, ∃ c : Fin 16, ∃ o : PkeOp, ∃ w : Nat, ∃ m : Nat, ∃ x : Nat, ∃ y : Nat, s.core c = some o ∧ beAt o.block 0 1 = 0x05 ∧ ((o.outcome = none ∧ kclkRuns s = true)) ∧ w = 8 * (cmdHead o.block).len ∧ m = opndNat o.block 0 w ∧ x = opndNat o.block w w ∧ y = opndNat o.block (2 * w) w ∧ m % 2 = 1 ∧ m ≤ x)
    ∧ (∃ s : State, ∃ c : Fin 16, ∃ o : PkeOp, ∃ w : Nat, ∃ m : Nat, ∃ x : Nat, ∃ y : Nat, s.core c = some o ∧ beAt o.block 0 1 = 0x05 ∧ ((o.outcome = none ∧ kclkRuns s = true)) ∧ w = 8 * (cmdHead o.block).len ∧ m = opndNat o.block 0 w ∧ x = opndNat o.block w w ∧ y = opndNat o.block (2 * w) w ∧ m % 2 = 1 ∧ x < m)
    ∧ (∃ s : State, ∃ c : Fin 16, ∃ o : PkeOp, ∃ w : Nat, ∃ m : Nat, ∃ x : Nat, s.core c = some o ∧ beAt o.block 0 1 = 0x06 ∧ ((o.outcome = none ∧ kclkRuns s = true)) ∧ w = 8 * (cmdHead o.block).len ∧ m = opndNat o.block 0 w ∧ x = opndNat o.block w w ∧ m % 2 = 1 ∧ x < m ∧ Nat.gcd x m = 1)
    ∧ (∃ s : State, ∃ c : Fin 16, ∃ o : PkeOp, ∃ w : Nat, ∃ m : Nat, ∃ x : Nat, s.core c = some o ∧ beAt o.block 0 1 = 0x06 ∧ ((o.outcome = none ∧ kclkRuns s = true)) ∧ w = 8 * (cmdHead o.block).len ∧ m = opndNat o.block 0 w ∧ x = opndNat o.block w w ∧ m % 2 = 1 ∧ x < m ∧ Nat.gcd x m ≠ 1)
    ∧ (∃ s : State, ∃ c : Fin 16, ∃ o : PkeOp, ∃ w : Nat, ∃ m : Nat, ∃ x : Nat, s.core c = some o ∧ beAt o.block 0 1 = 0x06 ∧ ((o.outcome = none ∧ kclkRuns s = true)) ∧ w = 8 * (cmdHead o.block).len ∧ m = opndNat o.block 0 w ∧ x = opndNat o.block w w ∧ m % 2 = 1 ∧ m ≤ x)
    ∧ (∃ s : State, ∃ c : Fin 16, ∃ o : PkeOp, ∃ w : Nat, ∃ m : Nat, ∃ x : Nat, s.core c = some o ∧ beAt o.block 0 1 = 0x06 ∧ ((o.outcome = none ∧ kclkRuns s = true)) ∧ w = 8 * (cmdHead o.block).len ∧ m = opndNat o.block 0 w ∧ x = opndNat o.block w w ∧ m % 2 = 0)
    ∧ (∃ s : State, ∃ c : Fin 16, ∃ o : PkeOp, ∃ w : Nat, ∃ m : Nat, ∃ x : Nat, s.core c = some o ∧ beAt o.block 0 1 = 0x06 ∧ ((o.outcome = none ∧ kclkRuns s = true)) ∧ w = 8 * (cmdHead o.block).len ∧ m = opndNat o.block 0 w ∧ x = opndNat o.block w w ∧ m % 2 = 1 ∧ x < m ∧ Nat.gcd x m = 1)
    ∧ (∃ s : State, ∃ c : Fin 16, ∃ o : PkeOp, ∃ w : Nat, ∃ m : Nat, ∃ x : Nat, ∃ y : Nat, s.core c = some o ∧ beAt o.block 0 1 = 0x07 ∧ ((o.outcome = none ∧ kclkRuns s = true)) ∧ w = 8 * (cmdHead o.block).len ∧ m = opndNat o.block 0 w ∧ x = opndNat o.block w w ∧ y = opndNat o.block (2 * w) w ∧ m % 2 = 0)
    ∧ (∃ s : State, ∃ c : Fin 16, ∃ o : PkeOp, ∃ w : Nat, ∃ m : Nat, ∃ x : Nat, ∃ y : Nat, s.core c = some o ∧ beAt o.block 0 1 = 0x07 ∧ ((o.outcome = none ∧ kclkRuns s = true)) ∧ w = 8 * (cmdHead o.block).len ∧ m = opndNat o.block 0 w ∧ x = opndNat o.block w w ∧ y = opndNat o.block (2 * w) w ∧ m % 2 = 1 ∧ m ≤ x)
    ∧ (∃ s : State, ∃ c : Fin 16, ∃ o : PkeOp, ∃ w : Nat, ∃ m : Nat, ∃ x : Nat, ∃ y : Nat, s.core c = some o ∧ beAt o.block 0 1 = 0x07 ∧ ((o.outcome = none ∧ kclkRuns s = true)) ∧ w = 8 * (cmdHead o.block).len ∧ m = opndNat o.block 0 w ∧ x = opndNat o.block w w ∧ y = opndNat o.block (2 * w) w ∧ m % 2 = 1 ∧ x < m) :=
  ⟨⟨running (block3 1 0 0 0), 15, op0 (block3 1 0 0 0), _, _, _, _, by decide +kernel, by decide +kernel, by decide +kernel, rfl, rfl, rfl, rfl, by decide +kernel⟩,
   ⟨running (block3 1 7 7 0), 15, op0 (block3 1 7 7 0), _, _, _, _, by decide +kernel, by decide +kernel, by decide +kernel, rfl, rfl, rfl, rfl, by decide +kernel, by decide +kernel⟩,
   ⟨running (block3 1 7 0 7), 15, op0 (block3 1 7 0 7), _, _, _, _, by decide +kernel, by decide +kernel, by decide +kernel, rfl, rfl, rfl, rfl, by decide +kernel, by decide +kernel⟩,
   ⟨running (block3 1 7 6 6), 15, op0 (block3 1 7 6 6), _, _, _, _, by decide +kernel, by decide +kernel, by decide +kernel, rfl, rfl, rfl, rfl, by decide +kernel, by decide +kernel, by decide +kernel⟩,
   ⟨running (block3 2 0 0 0), 15, op0 (block3 2 0 0 0), _, _, _, _, by decide +kernel, by decide +kernel, by decide +kernel, rfl, rfl, rfl, rfl, by decide +kernel⟩,
   ⟨running (block3 2 7 7 0), 15, op0 (block3 2 7 7 0), _, _, _, _, by decide +kernel, by decide +kernel, by decide +kernel, rfl, rfl, rfl, rfl, by decide +kernel, by decide +kernel⟩,
   ⟨running (block3 2 7 0 7), 15, op0 (block3 2 7 0 7), _, _, _, _, by decide +kernel, by decide +kernel, by decide +kernel, rfl, rfl, rfl, rfl, by decide +kernel, by decide +kernel⟩,
   ⟨running (block3 2 7 6 6), 15, op0 (block3 2 7 6 6), _, _, _, _, by decide +kernel, by decide +kernel, by decide +kernel, rfl, rfl, rfl, rfl, by decide +kernel, by decide +kernel, by decide +kernel⟩,
   ⟨running (block3 3 6 0 0), 15, op0 (block3 3 6 0 0), _, _, _, _, by decide +kernel, by decide +kernel, by decide +kernel, rfl, rfl, rfl, rfl, by decide +kernel⟩,
   ⟨running (block3 3 7 7 0), 15, op0 (block3 3 7 7 0), _, _, _, _, by decide +kernel, by decide +kernel, by decide +kernel, rfl, rfl, rfl, rfl, by decide +kernel, by decide +kernel⟩,
   ⟨running (block3 3 7 6 6), 15, op0 (block3 3 7 6 6), _, _, _, _, by decide +kernel, by decide +kernel, by decide +kernel, rfl, rfl, rfl, rfl, by decide +kernel, by decide +kernel, by decide +kernel⟩,
   ⟨running (block3 4 7 0 9), 15, op0 (block3 4 7 0 9), _, _, by decide +kernel, by decide +kernel, by decide +kernel, rfl, rfl, by decide +kernel⟩,
   ⟨running (block3 4 0 0 0), 15, op0 (block3 4 0 0 0), _, _, by decide +kernel, by decide +kernel, by decide +kernel, rfl, rfl, by decide +kernel⟩,
   ⟨running (block3 5 6 0 0), 15, op0 (block3 5 6 0 0), _, _, _, _, by decide +kernel, by decide +kernel, by decide +kernel, rfl, rfl, rfl, rfl, by decide +kernel⟩,
   ⟨running (block3 5 7 7 0), 15, op0 (block3 5 7 7 0), _, _, _, _, by decide +kernel, by decide +kernel, by decide +kernel, rfl, rfl, rfl, rfl, by decide +kernel, by decide +kernel⟩,
   ⟨running (block3 5 7 6 9), 15, op0 (block3 5 7 6 9), _, _, _, _, by decide +kernel, by decide +kernel, by decide +kernel, rfl, rfl, rfl, rfl, by decide +kernel, by decide +kernel⟩,
   ⟨running (block3 6 9 2 0), 15, op0 (block3 6 9 2 0), _, _, _, by decide +kernel, by decide +kernel, by decide +kernel, rfl, rfl, rfl, by decide +kernel, by decide +kernel, by decide +kernel⟩,
   ⟨running (block3 6 9 3 0), 15, op0 (block3 6 9 3 0), _, _, _, by decide +kernel, by decide +kernel, by decide +kernel, rfl, rfl, rfl, by decide +kernel, by decide +kernel, by decide +kernel⟩,
   ⟨running (block3 6 9 9 0), 15, op0 (block3 6 9 9 0), _, _, _, by decide +kernel, by decide +kernel, by decide +kernel, rfl, rfl, rfl, by decide +kernel, by decide +kernel⟩,
   ⟨running (block3 6 6 1 0), 15, op0 (block3 6 6 1 0), _, _, _, by decide +kernel, by decide +kernel, by decide +kernel, rfl, rfl, rfl, by decide +kernel⟩,
   ⟨running (block3 6 1 0 0), 15, op0 (block3 6 1 0 0), _, _, _, by decide +kernel, by decide +kernel, by decide +kernel, rfl, rfl, rfl, by decide +kernel, by decide +kernel, by decide +kernel⟩,
   ⟨running (block3 7 6 0 0), 15, op0 (block3 7 6 0 0), _, _, _, _, by decide +kernel, by decide +kernel, by decide +kernel, rfl, rfl, rfl, rfl, by decide +kernel⟩,
   ⟨running (block3 7 7 7 0), 15, op0 (block3 7 7 7 0), _, _, _, _, by decide +kernel, by decide +kernel, by decide +kernel, rfl, rfl, rfl, rfl, by decide +kernel, by decide +kernel⟩,
   ⟨running (block3 7 7 6 9), 15, op0 (block3 7 7 6 9), _, _, _, _, by decide +kernel, by decide +kernel, by decide +kernel, rfl, rfl, rfl, rfl, by decide +kernel, by decide +kernel⟩⟩

/-- States and operands that meet the hypotheses of CurveAndPrivateOperationsTakeEffect, clause by clause. -/
theorem witness_CurveAndPrivateOperationsTakeEffect :
    (∃ s : State, ∃ c : Fin 16, ∃ o : PkeOp, s.core c = some o ∧ beAt o.block 0 1 = 0x08 ∧ ((o.outcome = none ∧ kclkRuns s = true)))
    ∧ (∃ s : State, ∃ c : Fin 16, ∃ o : PkeOp, s.core c = some o ∧ beAt o.block 0 1 = 0x10 ∧ ((o.outcome = none ∧ kclkRuns s = true)))
    ∧ (∃ s : State, ∃ c : Fin 16, ∃ o : PkeOp, s.core c = some o ∧ beAt o.block 0 1 = 0x11 ∧ ((o.outcome = none ∧ kclkRuns s = true)))
    ∧ (∃ s : State, ∃ c : Fin 16, ∃ o : PkeOp, s.core c = some o ∧ beAt o.block 0 1 = 0x12 ∧ ((o.outcome = none ∧ kclkRuns s = true)))
    ∧ (∃ s : State, ∃ c : Fin 16, ∃ o : PkeOp, s.core c = some o ∧ beAt o.block 0 1 = 0x13 ∧ ((o.outcome = none ∧ kclkRuns s = true)))
    ∧ (∃ s : State, ∃ c : Fin 16, ∃ o : PkeOp, s.core c = some o ∧ beAt o.block 0 1 = 0x14 ∧ ((o.outcome = none ∧ kclkRuns s = true)) ∧ ((∀ k, o.owner ≠ .seal k)))
    ∧ (∃ s : State, ∃ c : Fin 16, ∃ o : PkeOp, ∃ k : Nat, s.core c = some o ∧ beAt o.block 0 1 = 0x14 ∧ ((o.outcome = none ∧ kclkRuns s = true)) ∧ o.owner = .seal k)
    ∧ (∃ s : State, ∃ c : Fin 16, ∃ o : PkeOp, s.core c = some o ∧ beAt o.block 0 1 = 0x15 ∧ ((o.outcome = none ∧ kclkRuns s = true)))
    ∧ (∃ s : State, ∃ c : Fin 16, ∃ o : PkeOp, s.core c = some o ∧ beAt o.block 0 1 = 0x18 ∧ ((o.outcome = none ∧ kclkRuns s = true)))
    ∧ (∃ s : State, ∃ c : Fin 16, ∃ o : PkeOp, s.core c = some o ∧ beAt o.block 0 1 = 0x19 ∧ ((o.outcome = none ∧ kclkRuns s = true)))
    ∧ (∃ s : State, ∃ c : Fin 16, ∃ o : PkeOp, s.core c = some o ∧ beAt o.block 0 1 = 0x1A ∧ ((o.outcome = none ∧ kclkRuns s = true)))
    ∧ (∃ s : State, ∃ c : Fin 16, ∃ o : PkeOp, s.core c = some o ∧ beAt o.block 0 1 = 0x1B ∧ ((o.outcome = none ∧ kclkRuns s = true)))
    ∧ (∃ s : State, ∃ c : Fin 16, ∃ o : PkeOp, s.core c = some o ∧ beAt o.block 0 1 = 0x1C ∧ ((o.outcome = none ∧ kclkRuns s = true))) :=
  ⟨⟨running (block3 8 0 0 0), 15, op0 (block3 8 0 0 0), by decide +kernel, by decide +kernel, by decide +kernel⟩,
   ⟨running (block3 16 0 0 0), 15, op0 (block3 16 0 0 0), by decide +kernel, by decide +kernel, by decide +kernel⟩,
   ⟨running (block3 17 0 0 0), 15, op0 (block3 17 0 0 0), by decide +kernel, by decide +kernel, by decide +kernel⟩,
   ⟨running (block3 18 0 0 0), 15, op0 (block3 18 0 0 0), by decide +kernel, by decide +kernel, by decide +kernel⟩,
   ⟨running (block3 19 0 0 0), 15, op0 (block3 19 0 0 0), by decide +kernel, by decide +kernel, by decide +kernel⟩,
   ⟨running (block3 20 0 0 0), 15, op0 (block3 20 0 0 0), by decide +kernel, by decide +kernel, by decide +kernel, fun k h => nomatch (show PkeOwner.session 1 = PkeOwner.seal k from h)⟩,
   ⟨(device 2).setCore 0 (some { op0 (block3 20 0 0 0) with owner := .seal 3 }), 0, { op0 (block3 20 0 0 0) with owner := .seal 3 }, 3, by decide +kernel, by decide +kernel, by decide +kernel, by decide +kernel⟩,
   ⟨running (block3 21 0 0 0), 15, op0 (block3 21 0 0 0), by decide +kernel, by decide +kernel, by decide +kernel⟩,
   ⟨running (block3 24 0 0 0), 15, op0 (block3 24 0 0 0), by decide +kernel, by decide +kernel, by decide +kernel⟩,
   ⟨running (block3 25 0 0 0), 15, op0 (block3 25 0 0 0), by decide +kernel, by decide +kernel, by decide +kernel⟩,
   ⟨running (block3 26 0 0 0), 15, op0 (block3 26 0 0 0), by decide +kernel, by decide +kernel, by decide +kernel⟩,
   ⟨running (block3 27 0 0 0), 15, op0 (block3 27 0 0 0), by decide +kernel, by decide +kernel, by decide +kernel⟩,
   ⟨running (block3 28 0 0 0), 15, op0 (block3 28 0 0 0), by decide +kernel, by decide +kernel, by decide +kernel⟩⟩

/-- States and operands that meet the hypotheses of KeyStoreOperationsTakeEffect, clause by clause. -/
theorem witness_KeyStoreOperationsTakeEffect :
    (∃ s : State, ∃ c : Fin 16, ∃ o : PkeOp, s.core c = some o ∧ beAt o.block 0 1 = 0x30 ∧ ((o.outcome = none ∧ kclkRuns s = true)))
    ∧ (∃ s : State, ∃ c : Fin 16, ∃ o : PkeOp, ∃ k : KeySlot × State, s.core c = some o ∧ beAt o.block 0 1 = 0x31 ∧ ((o.outcome = none ∧ kclkRuns s = true)) ∧ s.pke.slots.get (cmdHead o.block).slot = none ∧ k = drawKey ((cmdHead o.block).xarg % 256) ((cmdHead o.block).xarg / 256 % 256) 2 s)
    ∧ (∃ s : State, ∃ c : Fin 16, ∃ o : PkeOp, s.core c = some o ∧ beAt o.block 0 1 = 0x31 ∧ ((o.outcome = none ∧ kclkRuns s = true)) ∧ (s.pke.slots.get (cmdHead o.block).slot).isSome = true)
    ∧ (∃ s : State, ∃ c : Fin 16, ∃ o : PkeOp, ∃ k : KeySlot, s.core c = some o ∧ beAt o.block 0 1 = 0x32 ∧ ((o.outcome = none ∧ kclkRuns s = true)) ∧ o.key = some k)
    ∧ (∃ s : State, ∃ c : Fin 16, ∃ o : PkeOp, s.core c = some o ∧ beAt o.block 0 1 = 0x32 ∧ ((o.outcome = none ∧ kclkRuns s = true)) ∧ o.key = none)
    ∧ (∃ s : State, ∃ c : Fin 16, ∃ o : PkeOp, ∃ k : KeySlot, ∃ body : Bytes, ∃ r : Option (Nat × Nat) × State, s.core c = some o ∧ beAt o.block 0 1 = 0x33 ∧ ((o.outcome = none ∧ kclkRuns s = true)) ∧ o.key = some k ∧ body = attestBody s (cmdHead o.block).slot k (opnd o.block 0 32) ∧ r = attestSign (sha384 body) s)
    ∧ (∃ s : State, ∃ c : Fin 16, ∃ o : PkeOp, s.core c = some o ∧ beAt o.block 0 1 = 0x34 ∧ ((o.outcome = none ∧ kclkRuns s = true)) ∧ (s.pke.slots.get (cmdHead o.block).slot).isSome = true)
    ∧ (∃ s : State, ∃ c : Fin 16, ∃ o : PkeOp, s.core c = some o ∧ beAt o.block 0 1 = 0x34 ∧ ((o.outcome = none ∧ kclkRuns s = true)) ∧ s.pke.slots.get (cmdHead o.block).slot = none) :=
  ⟨⟨(device 2).setCore 15 (some (op0 (block3 48 0 0 0))), 15, op0 (block3 48 0 0 0), by decide +kernel, by decide +kernel, by decide +kernel⟩,
   ⟨(device 2).setCore 15 (some (op0 (block3 49 0 0 0))), 15, op0 (block3 49 0 0 0), _, by decide +kernel, by decide +kernel, by decide +kernel, by decide +kernel, rfl⟩,
   ⟨let s := (device 2).setCore 15 (some (op0 (block3 49 0 0 0))); { s with pke := { s.pke with slots := s.pke.slots.put 0 key0 } }, 15, op0 (block3 49 0 0 0), by decide +kernel, by decide +kernel, by decide +kernel, by decide +kernel⟩,
   ⟨(device 2).setCore 15 (some ({ op0 (block3 50 0 0 0) with key := some key0 })), 15, { op0 (block3 50 0 0 0) with key := some key0 }, key0, by decide +kernel, by decide +kernel, by decide +kernel, by decide +kernel⟩,
   ⟨(device 2).setCore 15 (some (op0 (block3 50 0 0 0))), 15, op0 (block3 50 0 0 0), by decide +kernel, by decide +kernel, by decide +kernel, by decide +kernel⟩,
   ⟨(device 2).setCore 15 (some ({ op0 (block3 51 0 0 0) with key := some key0 })), 15, { op0 (block3 51 0 0 0) with key := some key0 }, key0, _, _, by decide +kernel, by decide +kernel, by decide +kernel, by decide +kernel, rfl, rfl⟩,
   ⟨let s := (device 2).setCore 15 (some (op0 (block3 52 0 0 0))); { s with pke := { s.pke with slots := s.pke.slots.put 0 key0 } }, 15, op0 (block3 52 0 0 0), by decide +kernel, by decide +kernel, by decide +kernel, by decide +kernel⟩,
   ⟨(device 2).setCore 15 (some (op0 (block3 52 0 0 0))), 15, op0 (block3 52 0 0 0), by decide +kernel, by decide +kernel, by decide +kernel, by decide +kernel⟩⟩

/-- States and operands that meet the hypotheses of ClusterCommandsTakeEffect, clause by clause. -/
theorem witness_ClusterCommandsTakeEffect :
    (∃ s : State, ∃ c : Fin 16, ∃ k : Nat, ∃ x : HostCmd, (usableCores s).contains c = true ∧ s.core c = none ∧ kclkRuns s = true ∧ ((enabledCores s).take (s.get F.PKE_CFG_HOSTRES)).contains c = true ∧ nextHost s = some (k, x) ∧ (needsRng (cmdHead x.block).op && rngFailed s) = false)
    ∧ (∃ s : State, ∃ c : Fin 16, ∃ k : Nat, ∃ x : HostCmd, (usableCores s).contains c = true ∧ s.core c = none ∧ kclkRuns s = true ∧ s.pke.spuQueue = [] ∧ ((allCores.filter (fun c => (s.core c).any PkeOp.host)).length < s.get F.PKE_CFG_HOSTCORES) ∧ nextHost s = some (k, x) ∧ (needsRng (cmdHead x.block).op && rngFailed s) = false)
    ∧ (∃ s : State, ∃ c : Fin 16, ∃ k : Nat, ∃ x : HostCmd, (usableCores s).contains c = true ∧ s.core c = none ∧ kclkRuns s = true ∧ ((enabledCores s).take (s.get F.PKE_CFG_HOSTRES)).contains c = true ∧ nextHost s = some (k, x) ∧ (needsRng (cmdHead x.block).op && rngFailed s) = true)
    ∧ (∃ s : State, ∃ c : Fin 16, ∃ o : PkeOp, ∃ rest : List PkeOp, (usableCores s).contains c = true ∧ s.core c = none ∧ kclkRuns s = true ∧ (((enabledCores s).take (s.get F.PKE_CFG_HOSTRES)).contains c = false ∨ nextHost s = none) ∧ s.pke.spuQueue = o :: rest ∧ (needsRng (cmdHead o.block).op && rngFailed s) = false)
    ∧ (∃ s : State, ∃ c : Fin 16, (usableCores s).contains c = true ∧ s.core c = none ∧ kclkRuns s = true ∧ s.pke.spuQueue = [] ∧ nextHost s = none)
    ∧ (∃ s : State, ∃ c : Fin 16, ∃ o : PkeOp, ∃ r : Nat × Bytes, s.core c = some o ∧ o.outcome = some r ∧ kclkRuns s = true ∧ o.start + 2 * o.duration ≤ s.now)
    ∧ (∃ s : State, Admits s ∧ domainOn s 9 = true) :=
  ⟨⟨let s := (device 2).wr A.PKE_CFG ((device 2).rd A.PKE_CFG ||| 0xFFFF) |>.set F.PKE_CFG_HOSTRES 1 |>.set F.PKE_CFG_HOSTCORES 16; s.setRing 56 { s.ring 56 with cmds := [cmd0 (block3 1 7 1 1)] }, 0, 0, cmd0 (block3 1 7 1 1), by decide +kernel, by decide +kernel, by decide +kernel, by decide +kernel, by decide +kernel, by decide +kernel⟩,
   ⟨let s := (device 2).wr A.PKE_CFG ((device 2).rd A.PKE_CFG ||| 0xFFFF) |>.set F.PKE_CFG_HOSTRES 1 |>.set F.PKE_CFG_HOSTCORES 16; s.setRing 56 { s.ring 56 with cmds := [cmd0 (block3 1 7 1 1)] }, 15, 0, cmd0 (block3 1 7 1 1), by decide +kernel, by decide +kernel, by decide +kernel, by decide +kernel, by decide +kernel, by decide +kernel, by decide +kernel⟩,
   ⟨(let s := (device 2).wr A.PKE_CFG ((device 2).rd A.PKE_CFG ||| 0xFFFF) |>.set F.PKE_CFG_HOSTRES 1 |>.set F.PKE_CFG_HOSTCORES 16; s.setRing 56 { s.ring 56 with cmds := [cmd0 (block3 0x31 7 1 1)] }).set F.CRL_NTS_STAT_NORNG 1, 0, 0, cmd0 (block3 0x31 7 1 1), by decide +kernel, by decide +kernel, by decide +kernel, by decide +kernel, by decide +kernel, by decide +kernel⟩,
   ⟨let s := (device 2).wr A.PKE_CFG ((device 2).rd A.PKE_CFG ||| 0xFFFF) |>.set F.PKE_CFG_HOSTRES 1 |>.set F.PKE_CFG_HOSTCORES 16; { s with pke := { s.pke with spuQueue := [op0 (block3 1 7 1 1)] } }, 15, op0 (block3 1 7 1 1), [], by decide +kernel, by decide +kernel, by decide +kernel, by decide +kernel, by decide +kernel, by decide +kernel⟩,
   ⟨(device 2).wr A.PKE_CFG ((device 2).rd A.PKE_CFG ||| 0xFFFF) |>.set F.PKE_CFG_HOSTRES 1 |>.set F.PKE_CFG_HOSTCORES 16, 15, by decide +kernel, by decide +kernel, by decide +kernel, by decide +kernel, by decide +kernel⟩,
   ⟨{ (device 2).setCore 3 (some { op0 (block3 1 7 1 1) with outcome := some (0, []) }) with now := 1000000000 }, 3, { op0 (block3 1 7 1 1) with outcome := some (0, []) }, (0, []), by decide +kernel, by decide +kernel, by decide +kernel, by decide +kernel⟩,
   ⟨device 2, ⟨by decide +kernel, by decide +kernel, by decide +kernel⟩, by decide +kernel⟩⟩

/-- States and operands that meet the hypotheses of NtsKeyCommandsTakeEffect, clause by clause. -/
theorem witness_NtsKeyCommandsTakeEffect :
    (∃ s : State, s.crl.root.isSome = true)
    ∧ (∃ s : State, s.get F.CRL_NTS_EPOCH_EPOCH ≠ epochOf s s.datum)
    ∧ (∃ s : State, rngFailed s = false)
    ∧ (∃ s : State, rngFailed s = true ∧ s.svp.keysDerived = false)
    ∧ (∃ s : State, rngFailed s = true ∧ s.svp.keysDerived = true) :=
  ⟨⟨{ device 2 with crl := { (device 2).crl with root := some (zeros 32, 3) } }, by decide +kernel⟩,
   ⟨(device 2).set F.CRL_NTS_EPOCH_EPOCH 1, by decide +kernel⟩,
   ⟨device 2, by decide +kernel⟩,
   ⟨(device 2).set F.CRL_NTS_STAT_NORNG 1, by decide +kernel, by decide +kernel⟩,
   ⟨{ (device 2).set F.CRL_NTS_STAT_NORNG 1 with svp := { (device 2).svp with keysDerived := true } }, by decide +kernel, by decide +kernel⟩⟩

/-- States and operands that meet the hypotheses of KeyEstablishmentCommandsTakeEffect, clause by clause. -/
theorem witness_KeyEstablishmentCommandsTakeEffect :
    (∃ s : State, ∃ sa : Fin 272, ∃ e : Nat × PlItem, (s.ke.segments.find? (fun e => decide (e.1 = sa.val) && isSyn e.2) = some e) ∧ halted s = false ∧ (answering ({ s with ke := { s.ke with segments := s.ke.segments.erase e } }) = false))
    ∧ (∃ s : State, ∃ sa : Fin 272, ∃ e : Nat × PlItem, (s.ke.segments.find? (fun e => decide (e.1 = sa.val) && isSyn e.2) = some e) ∧ halted s = false ∧ (answering ({ s with ke := { s.ke with segments := s.ke.segments.erase e } }) = true) ∧ (∀ n, n < 4 → certValid ({ s with ke := { s.ke with segments := s.ke.segments.erase e } }) n = false))
    ∧ (∃ s : State, ∃ sa : Fin 272, ∃ e : Nat × PlItem, ∃ n : Nat, (s.ke.segments.find? (fun e => decide (e.1 = sa.val) && isSyn e.2) = some e) ∧ halted s = false ∧ (answering ({ s with ke := { s.ke with segments := s.ke.segments.erase e } }) = true) ∧ n < 4 ∧ (certValid ({ s with ke := { s.ke with segments := s.ke.segments.erase e } }) n = true) ∧ (({ s with ke := { s.ke with segments := s.ke.segments.erase e } }).ke.sessions.any (fun x => x.owns sa e.2) = true))
    ∧ (∃ s : State, ∃ sa : Fin 272, ∃ e : Nat × PlItem, ∃ n : Nat, (s.ke.segments.find? (fun e => decide (e.1 = sa.val) && isSyn e.2) = some e) ∧ halted s = false ∧ (answering ({ s with ke := { s.ke with segments := s.ke.segments.erase e } }) = true) ∧ n < 4 ∧ (certValid ({ s with ke := { s.ke with segments := s.ke.segments.erase e } }) n = true) ∧ (({ s with ke := { s.ke with segments := s.ke.segments.erase e } }).ke.sessions.any (fun x => x.owns sa e.2) = false) ∧ (({ s with ke := { s.ke with segments := s.ke.segments.erase e } }).get F.SPU_KE_CFG_MAXSESS ≤ ({ s with ke := { s.ke with segments := s.ke.segments.erase e } }).ke.sessions.length))
    ∧ (∃ s : State, ∃ sa : Fin 272, ∃ e : Nat × PlItem, ∃ n : Nat, (s.ke.segments.find? (fun e => decide (e.1 = sa.val) && isSyn e.2) = some e) ∧ halted s = false ∧ (answering ({ s with ke := { s.ke with segments := s.ke.segments.erase e } }) = true) ∧ n < 4 ∧ (certValid ({ s with ke := { s.ke with segments := s.ke.segments.erase e } }) n = true) ∧ (({ s with ke := { s.ke with segments := s.ke.segments.erase e } }).ke.sessions.any (fun x => x.owns sa e.2) = false) ∧ (({ s with ke := { s.ke with segments := s.ke.segments.erase e } }).ke.sessions.length < ({ s with ke := { s.ke with segments := s.ke.segments.erase e } }).get F.SPU_KE_CFG_MAXSESS))
    ∧ (∃ s : State, ∃ id : Nat, ∃ b : Bytes, ∃ x : KeSession, s.session id = some x ∧ halted s = false ∧ (x.stream ++ b).length < 5 ∧ x.phase = 0)
    ∧ (∃ s : State, ∃ id : Nat, ∃ b : Bytes, ∃ x : KeSession, s.session id = some x ∧ halted s = false ∧ (x.stream ++ b).length < 5 ∧ x.finished = true)
    ∧ (∃ s : State, ∃ id : Nat, ∃ m : Bytes, ∃ x : KeSession, ∃ h : Hello, s.session id = some x ∧ halted s = false ∧ x.phase = 0 ∧ x.stream = [] ∧ x.part = [] ∧ beAt m 0 1 = 1 ∧ 4 ≤ m.length ∧ m.length = 4 + beAt m 1 3 ∧ m.length ≤ 16384 ∧ parseHello (m.drop 4) = .ok h ∧ h.alpn.contains (label "ntske/1") = false)
    ∧ (∃ s : State, ∃ id : Nat, ∃ m : Bytes, ∃ x : KeSession, ∃ h : Hello, s.session id = some x ∧ halted s = false ∧ x.phase = 0 ∧ x.stream = [] ∧ x.part = [] ∧ beAt m 0 1 = 1 ∧ 4 ≤ m.length ∧ m.length = 4 + beAt m 1 3 ∧ m.length ≤ 16384 ∧ parseHello (m.drop 4) = .ok h ∧ h.alpn.contains (label "ntske/1") = true ∧ ((if x.retried then [x.suite] else suiteOrder (putSession { x with stream := tlsHead 22 m.length ++ m } { s with ke := { s.ke with segments := s.ke.segments.filter (fun e => isSyn e.2 || !(x.owns e.1 e.2)) } })).find? (fun u => h.suites.contains u) = none))
    ∧ (∃ s : State, ∃ id : Nat, ∃ m : Bytes, ∃ x : KeSession, ∃ h : Hello, s.session id = some x ∧ halted s = false ∧ x.phase = 0 ∧ x.stream = [] ∧ x.part = [] ∧ beAt m 0 1 = 1 ∧ 4 ≤ m.length ∧ m.length = 4 + beAt m 1 3 ∧ m.length ≤ 16384 ∧ parseHello (m.drop 4) = .ok h ∧ h.alpn.contains (label "ntske/1") = true ∧ (([0, 1, 2, 3] : List Nat).find? (fun n => certValid (putSession { x with stream := tlsHead 22 m.length ++ m } { s with ke := { s.ke with segments := s.ke.segments.filter (fun e => isSyn e.2 || !(x.owns e.1 e.2)) } }) n && h.schemes.contains ((putSession { x with stream := tlsHead 22 m.length ++ m } { s with ke := { s.ke with segments := s.ke.segments.filter (fun e => isSyn e.2 || !(x.owns e.1 e.2)) } }).get (F.SPU_KE_CERT_SCHEME n))) = none))
    ∧ (∃ s : State, ∃ id : Nat, ∃ m : Bytes, ∃ x : KeSession, ∃ h : Hello, s.session id = some x ∧ halted s = false ∧ x.phase = 0 ∧ x.stream = [] ∧ x.part = [] ∧ beAt m 0 1 = 1 ∧ 4 ≤ m.length ∧ m.length = 4 + beAt m 1 3 ∧ m.length ≤ 16384 ∧ parseHello (m.drop 4) = .ok h ∧ h.alpn.contains (label "ntske/1") = true ∧ ((if x.retried then [x.suite] else suiteOrder (putSession { x with stream := tlsHead 22 m.length ++ m } { s with ke := { s.ke with segments := s.ke.segments.filter (fun e => isSyn e.2 || !(x.owns e.1 e.2)) } })).find? (fun u => h.suites.contains u) = some 0x1301) ∧ (([0, 1, 2, 3] : List Nat).find? (fun n => certValid (putSession { x with stream := tlsHead 22 m.length ++ m } { s with ke := { s.ke with segments := s.ke.segments.filter (fun e => isSyn e.2 || !(x.owns e.1 e.2)) } }) n && h.schemes.contains ((putSession { x with stream := tlsHead 22 m.length ++ m } { s with ke := { s.ke with segments := s.ke.segments.filter (fun e => isSyn e.2 || !(x.owns e.1 e.2)) } }).get (F.SPU_KE_CERT_SCHEME n))) = some 0) ∧ ((if x.retried then [x.group] else groupOrder (putSession { x with stream := tlsHead 22 m.length ++ m } { s with ke := { s.ke with segments := s.ke.segments.filter (fun e => isSyn e.2 || !(x.owns e.1 e.2)) } })).find? (fun g => h.shares.any (fun e => decide (e.1 = g))) = some 1) ∧ (shareKey 1 (((h.shares.find? (fun e => decide (e.1 = 1))).map (·.2)).getD []) = some (zeros 32)))
    ∧ (∃ s : State, ∃ id : Nat, ∃ m : Bytes, ∃ x : KeSession, ∃ h : Hello, s.session id = some x ∧ halted s = false ∧ x.phase = 0 ∧ x.stream = [] ∧ x.part = [] ∧ beAt m 0 1 = 1 ∧ 4 ≤ m.length ∧ m.length = 4 + beAt m 1 3 ∧ m.length ≤ 16384 ∧ parseHello (m.drop 4) = .ok h ∧ h.alpn.contains (label "ntske/1") = true ∧ ((if x.retried then [x.suite] else suiteOrder (putSession { x with stream := tlsHead 22 m.length ++ m } { s with ke := { s.ke with segments := s.ke.segments.filter (fun e => isSyn e.2 || !(x.owns e.1 e.2)) } })).find? (fun u => h.suites.contains u) = some 0x1301) ∧ (([0, 1, 2, 3] : List Nat).find? (fun n => certValid (putSession { x with stream := tlsHead 22 m.length ++ m } { s with ke := { s.ke with segments := s.ke.segments.filter (fun e => isSyn e.2 || !(x.owns e.1 e.2)) } }) n && h.schemes.contains ((putSession { x with stream := tlsHead 22 m.length ++ m } { s with ke := { s.ke with segments := s.ke.segments.filter (fun e => isSyn e.2 || !(x.owns e.1 e.2)) } }).get (F.SPU_KE_CERT_SCHEME n))) = some 0) ∧ ((if x.retried then [x.group] else groupOrder (putSession { x with stream := tlsHead 22 m.length ++ m } { s with ke := { s.ke with segments := s.ke.segments.filter (fun e => isSyn e.2 || !(x.owns e.1 e.2)) } })).find? (fun g => h.shares.any (fun e => decide (e.1 = g))) = some 1) ∧ (shareKey 1 (((h.shares.find? (fun e => decide (e.1 = 1))).map (·.2)).getD []) = none))
    ∧ (∃ s : State, ∃ id : Nat, ∃ m : Bytes, ∃ x : KeSession, ∃ h : Hello, s.session id = some x ∧ halted s = false ∧ x.phase = 0 ∧ x.stream = [] ∧ x.part = [] ∧ beAt m 0 1 = 1 ∧ 4 ≤ m.length ∧ m.length = 4 + beAt m 1 3 ∧ m.length ≤ 16384 ∧ parseHello (m.drop 4) = .ok h ∧ h.alpn.contains (label "ntske/1") = true ∧ ((if x.retried then [x.suite] else suiteOrder (putSession { x with stream := tlsHead 22 m.length ++ m } { s with ke := { s.ke with segments := s.ke.segments.filter (fun e => isSyn e.2 || !(x.owns e.1 e.2)) } })).find? (fun u => h.suites.contains u) = some 0x1301) ∧ (([0, 1, 2, 3] : List Nat).find? (fun n => certValid (putSession { x with stream := tlsHead 22 m.length ++ m } { s with ke := { s.ke with segments := s.ke.segments.filter (fun e => isSyn e.2 || !(x.owns e.1 e.2)) } }) n && h.schemes.contains ((putSession { x with stream := tlsHead 22 m.length ++ m } { s with ke := { s.ke with segments := s.ke.segments.filter (fun e => isSyn e.2 || !(x.owns e.1 e.2)) } }).get (F.SPU_KE_CERT_SCHEME n))) = some 0) ∧ ((if x.retried then [x.group] else groupOrder (putSession { x with stream := tlsHead 22 m.length ++ m } { s with ke := { s.ke with segments := s.ke.segments.filter (fun e => isSyn e.2 || !(x.owns e.1 e.2)) } })).find? (fun g => h.shares.any (fun e => decide (e.1 = g))) = none) ∧ ((if x.retried then [x.group] else groupOrder (putSession { x with stream := tlsHead 22 m.length ++ m } { s with ke := { s.ke with segments := s.ke.segments.filter (fun e => isSyn e.2 || !(x.owns e.1 e.2)) } })).find? (fun g => h.groups.contains g) = some 1) ∧ x.retried = false)
    ∧ (∃ s : State, ∃ id : Nat, ∃ m : Bytes, ∃ x : KeSession, ∃ h : Hello, s.session id = some x ∧ halted s = false ∧ x.phase = 0 ∧ x.stream = [] ∧ x.part = [] ∧ beAt m 0 1 = 1 ∧ 4 ≤ m.length ∧ m.length = 4 + beAt m 1 3 ∧ m.length ≤ 16384 ∧ parseHello (m.drop 4) = .ok h ∧ h.alpn.contains (label "ntske/1") = true ∧ ((if x.retried then [x.suite] else suiteOrder (putSession { x with stream := tlsHead 22 m.length ++ m } { s with ke := { s.ke with segments := s.ke.segments.filter (fun e => isSyn e.2 || !(x.owns e.1 e.2)) } })).find? (fun u => h.suites.contains u) = some 0x1301) ∧ (([0, 1, 2, 3] : List Nat).find? (fun n => certValid (putSession { x with stream := tlsHead 22 m.length ++ m } { s with ke := { s.ke with segments := s.ke.segments.filter (fun e => isSyn e.2 || !(x.owns e.1 e.2)) } }) n && h.schemes.contains ((putSession { x with stream := tlsHead 22 m.length ++ m } { s with ke := { s.ke with segments := s.ke.segments.filter (fun e => isSyn e.2 || !(x.owns e.1 e.2)) } }).get (F.SPU_KE_CERT_SCHEME n))) = some 0) ∧ ((if x.retried then [x.group] else groupOrder (putSession { x with stream := tlsHead 22 m.length ++ m } { s with ke := { s.ke with segments := s.ke.segments.filter (fun e => isSyn e.2 || !(x.owns e.1 e.2)) } })).find? (fun g => h.shares.any (fun e => decide (e.1 = g))) = none) ∧ ((if x.retried then [x.group] else groupOrder (putSession { x with stream := tlsHead 22 m.length ++ m } { s with ke := { s.ke with segments := s.ke.segments.filter (fun e => isSyn e.2 || !(x.owns e.1 e.2)) } })).find? (fun g => h.groups.contains g) = none))
    ∧ (∃ s : State, ∃ id : Nat, ∃ m : Bytes, ∃ x : KeSession, ∃ h : Hello, s.session id = some x ∧ halted s = false ∧ x.phase = 0 ∧ x.stream = [] ∧ x.part = [] ∧ beAt m 0 1 = 1 ∧ 4 ≤ m.length ∧ m.length = 4 + beAt m 1 3 ∧ m.length ≤ 16384 ∧ parseHello (m.drop 4) = .ok h ∧ h.alpn.contains (label "ntske/1") = true ∧ ((if x.retried then [x.suite] else suiteOrder (putSession { x with stream := tlsHead 22 m.length ++ m } { s with ke := { s.ke with segments := s.ke.segments.filter (fun e => isSyn e.2 || !(x.owns e.1 e.2)) } })).find? (fun u => h.suites.contains u) = some 0x1301) ∧ (([0, 1, 2, 3] : List Nat).find? (fun n => certValid (putSession { x with stream := tlsHead 22 m.length ++ m } { s with ke := { s.ke with segments := s.ke.segments.filter (fun e => isSyn e.2 || !(x.owns e.1 e.2)) } }) n && h.schemes.contains ((putSession { x with stream := tlsHead 22 m.length ++ m } { s with ke := { s.ke with segments := s.ke.segments.filter (fun e => isSyn e.2 || !(x.owns e.1 e.2)) } }).get (F.SPU_KE_CERT_SCHEME n))) = some 0) ∧ ((if x.retried then [x.group] else groupOrder (putSession { x with stream := tlsHead 22 m.length ++ m } { s with ke := { s.ke with segments := s.ke.segments.filter (fun e => isSyn e.2 || !(x.owns e.1 e.2)) } })).find? (fun g => h.shares.any (fun e => decide (e.1 = g))) = none) ∧ x.retried = true)
    ∧ (∃ s : State, ∃ id : Nat, ∃ c : Bytes, ∃ a : Byte, ∃ x : KeSession, s.session id = some x ∧ halted s = false ∧ x.finished = true ∧ 4 ≤ x.phase ∧ x.stream = [] ∧ x.part = [] ∧ c.length ≤ 16640 ∧ gcmOpen (x.rx.key x.suite) (x.rx.nonce x.suite) (tlsHead 23 c.length) c = some [24, 0, 0, 1, a, 22] ∧ 1 < a.toNat)
    ∧ (∃ s : State, ∃ id : Nat, ∃ c : Bytes, ∃ a : Byte, ∃ x : KeSession, s.session id = some x ∧ halted s = false ∧ x.finished = true ∧ 4 ≤ x.phase ∧ x.stream = [] ∧ x.part = [] ∧ c.length ≤ 16640 ∧ gcmOpen (x.rx.key x.suite) (x.rx.nonce x.suite) (tlsHead 23 c.length) c = some [24, 0, 0, 1, a, 22] ∧ a.toNat ≤ 1 ∧ (a.toNat = 0 ∨ x.phase = 5))
    ∧ (∃ s : State, ∃ id : Nat, ∃ c : Bytes, ∃ a : Byte, ∃ x : KeSession, s.session id = some x ∧ halted s = false ∧ x.finished = true ∧ 4 ≤ x.phase ∧ x.stream = [] ∧ x.part = [] ∧ c.length ≤ 16640 ∧ gcmOpen (x.rx.key x.suite) (x.rx.nonce x.suite) (tlsHead 23 c.length) c = some [24, 0, 0, 1, a, 22] ∧ a.toNat ≤ 1 ∧ (a.toNat = 0 ∨ x.phase = 5))
    ∧ (∃ s : State, ∃ id : Nat, ∃ c : Bytes, ∃ a : Byte, ∃ x : KeSession, s.session id = some x ∧ halted s = false ∧ x.finished = true ∧ 4 ≤ x.phase ∧ x.stream = [] ∧ x.part = [] ∧ c.length ≤ 16640 ∧ gcmOpen (x.rx.key x.suite) (x.rx.nonce x.suite) (tlsHead 23 c.length) c = some [24, 0, 0, 1, a, 22] ∧ a.toNat = 1 ∧ x.phase ≠ 5)
    ∧ (∃ s : State, ∃ id : Nat, ∃ b : Bytes, ∃ closed : Bool, ∃ x : KeSession, s.session id = some x ∧ halted s = false ∧ x.phase = 4 ∧ (tlsInput x b closed s).session id = none)
    ∧ (∃ s : State, ∃ id : Nat, ∃ b : Bytes, ∃ closed : Bool, ∃ x : KeSession, ∃ y : KeSession, s.session id = some x ∧ halted s = false ∧ x.phase = 4 ∧ (tlsInput x b closed s).session id = some y ∧ y.finished = false ∧ y.closed = true)
    ∧ (∃ s : State, ∃ id : Nat, ∃ b : Bytes, ∃ closed : Bool, ∃ x : KeSession, ∃ y : KeSession, s.session id = some x ∧ halted s = false ∧ x.phase = 4 ∧ (tlsInput x b closed s).session id = some y ∧ y.finished = false ∧ y.closed = false)
    ∧ (∃ s : State, ∃ id : Nat, ∃ b : Bytes, ∃ closed : Bool, ∃ x : KeSession, ∃ y : KeSession, s.session id = some x ∧ halted s = false ∧ x.phase = 4 ∧ (tlsInput x b closed s).session id = some y ∧ y.finished = true ∧ keVerdict y.data y.closed (tlsInput x b closed s) = .wait)
    ∧ (∃ s : State, ∃ id : Nat, ∃ b : Bytes, ∃ closed : Bool, ∃ x : KeSession, ∃ y : KeSession, s.session id = some x ∧ halted s = false ∧ x.phase = 4 ∧ (tlsInput x b closed s).session id = some y ∧ y.finished = true ∧ keVerdict y.data y.closed (tlsInput x b closed s) = .error 1)
    ∧ (∃ s : State, ∃ id : Nat, ∃ b : Bytes, ∃ closed : Bool, ∃ x : KeSession, ∃ y : KeSession, s.session id = some x ∧ halted s = false ∧ x.phase = 4 ∧ (tlsInput x b closed s).session id = some y ∧ y.finished = true ∧ keVerdict y.data y.closed (tlsInput x b closed s) = .empty (keRec 0x8001 [] ++ keRec 0x8000 []))
    ∧ (∃ s : State, ∃ id : Nat, ∃ b : Bytes, ∃ closed : Bool, ∃ x : KeSession, ∃ y : KeSession, s.session id = some x ∧ halted s = false ∧ x.phase = 4 ∧ (tlsInput x b closed s).session id = some y ∧ y.finished = true ∧ keVerdict y.data y.closed (tlsInput x b closed s) = .full)
    ∧ (∃ s : State, ∃ id : Nat, ∃ x : KeSession, s.session id = some x ∧ x.phase ≠ 5 ∧ x.since + secPeriods * s.get F.SPU_KE_CFG_TIMEOUT ≤ s.now ∧ halted s = false)
    ∧ (∃ s : State, ∃ id : Nat, ∃ x : KeSession, s.session id = some x ∧ x.phase = 5 ∧ halted s = false) :=
  ⟨⟨let s := device 5; { s with ke := { s.ke with segments := [syn0] } }, 0, syn0, by decide +kernel, by decide +kernel, by decide +kernel⟩,
   ⟨let s := device 2; { s with ke := { s.ke with segments := [syn0] } }, 0, syn0, by decide +kernel, by decide +kernel, by decide +kernel, by decide +kernel⟩,
   ⟨let s := keState 0; { s with ke := { s.ke with segments := [syn0], sessions := [{ session0 0 with peer := segmentPeer syn0.2 }] } }, 0, syn0, 0, by decide +kernel, by decide +kernel, by decide +kernel, by decide +kernel, by decide +kernel, by decide +kernel⟩,
   ⟨let s := (keState 0).set F.SPU_KE_CFG_MAXSESS 1; { s with ke := { s.ke with segments := [syn0] } }, 0, syn0, 0, by decide +kernel, by decide +kernel, by decide +kernel, by decide +kernel, by decide +kernel, by decide +kernel, by decide +kernel⟩,
   ⟨let s := (keState 0).set F.SPU_KE_CFG_MAXSESS 2; { s with ke := { s.ke with segments := [syn0] } }, 0, syn0, 0, by decide +kernel, by decide +kernel, by decide +kernel, by decide +kernel, by decide +kernel, by decide +kernel, by decide +kernel⟩,
   ⟨keState 0, 3, zeros 4, session0 0, by decide +kernel, by decide +kernel, by decide +kernel, by decide +kernel⟩,
   ⟨(let s := keState 4; { s with ke := { s.ke with sessions := [{ session0 4 with finished := true }] } }), 3, [], { session0 4 with finished := true }, by decide +kernel, by decide +kernel, by decide +kernel, by decide +kernel⟩,
   ⟨keState 0, 3, helloMsg "http/1.1" (natBE 2 0x1301) (natBE 2 29) (natBE 2 29 ++ lenBytes 2 (zeros 32)), session0 0, helloOf "http/1.1" [4865] [1] [(1, zeros 32)], by decide +kernel, by decide +kernel, by decide +kernel, by decide +kernel, by decide +kernel, by decide +kernel, by decide +kernel, by decide +kernel, by decide +kernel, by decide +kernel, by decide +kernel⟩,
   ⟨((keState 0).set F.SPU_KE_CFG_AES256 0), 3, helloMsg "ntske/1" (natBE 2 0x1302) (natBE 2 29) (natBE 2 29 ++ lenBytes 2 (zeros 32)), session0 0, helloOf "ntske/1" [4866] [1] [(1, zeros 32)], by decide +kernel, by decide +kernel, by decide +kernel, by decide +kernel, by decide +kernel, by decide +kernel, by decide +kernel, by decide +kernel, by decide +kernel, by decide +kernel, by decide +kernel, by decide +kernel⟩,
   ⟨((keState 0).clrBit A.SPU_KE_STAT 24), 3, helloMsg "ntske/1" (natBE 2 0x1301) (natBE 2 29) (natBE 2 29 ++ lenBytes 2 (zeros 32)), session0 0, helloOf "ntske/1" [4865] [1] [(1, zeros 32)], by decide +kernel, by decide +kernel, by decide +kernel, by decide +kernel, by decide +kernel, by decide +kernel, by decide +kernel, by decide +kernel, by decide +kernel, by decide +kernel, by decide +kernel, by decide +kernel⟩,
   ⟨keState 0, 3, helloMsg "ntske/1" (natBE 2 0x1301) (natBE 2 29) (natBE 2 29 ++ lenBytes 2 (zeros 32)), session0 0, helloOf "ntske/1" [4865] [1] [(1, zeros 32)], by decide +kernel, by decide +kernel, by decide +kernel, by decide +kernel, by decide +kernel, by decide +kernel, by decide +kernel, by decide +kernel, by decide +kernel, by decide +kernel, by decide +kernel, by decide +kernel, by decide +kernel, by decide +kernel, by decide +kernel⟩,
   ⟨keState 0, 3, helloMsg "ntske/1" (natBE 2 0x1301) (natBE 2 29) (natBE 2 29 ++ lenBytes 2 (zeros 31)), session0 0, helloOf "ntske/1" [4865] [1] [(1, zeros 31)], by decide +kernel, by decide +kernel, by decide +kernel, by decide +kernel, by decide +kernel, by decide +kernel, by decide +kernel, by decide +kernel, by decide +kernel, by decide +kernel, by decide +kernel, by decide +kernel, by decide +kernel, by decide +kernel, by decide +kernel⟩,
   ⟨keState 0, 3, helloMsg "ntske/1" (natBE 2 0x1301) (natBE 2 29) [], session0 0, helloOf "ntske/1" [4865] [1] [], by decide +kernel, by decide +kernel, by decide +kernel, by decide +kernel, by decide +kernel, by decide +kernel, by decide +kernel, by decide +kernel, by decide +kernel, by decide +kernel, by decide +kernel, by decide +kernel, by decide +kernel, by decide +kernel, by decide +kernel, by decide +kernel⟩,
   ⟨keState 0, 3, helloMsg "ntske/1" (natBE 2 0x1301) ([]) [], session0 0, helloOf "ntske/1" [4865] [] [], by decide +kernel, by decide +kernel, by decide +kernel, by decide +kernel, by decide +kernel, by decide +kernel, by decide +kernel, by decide +kernel, by decide +kernel, by decide +kernel, by decide +kernel, by decide +kernel, by decide +kernel, by decide +kernel, by decide +kernel⟩,
   ⟨(let s := keState 0; { s with ke := { s.ke with sessions := [{ session0 0 with retried := true }] } }), 3, helloMsg "ntske/1" (natBE 2 0x1301) (natBE 2 29) [], { session0 0 with retried := true }, helloOf "ntske/1" [4865] [1] [], by decide +kernel, by decide +kernel, by decide +kernel, by decide +kernel, by decide +kernel, by decide +kernel, by decide +kernel, by decide +kernel, by decide +kernel, by decide +kernel, by decide +kernel, by decide +kernel, by decide +kernel, by decide +kernel, by decide +kernel⟩,
   ⟨(let s := keState 4; { s with ke := { s.ke with sessions := [{ session0 4 with finished := true }] } }), 3, gcmSeal (({ session0 4 with finished := true } : KeSession).rx.key 0x1301) (({ session0 4 with finished := true } : KeSession).rx.nonce 0x1301) (tlsHead 23 22) [24, 0, 0, 1, 2, 22], 2, { session0 4 with finished := true }, by decide +kernel, by decide +kernel, by decide +kernel, by decide +kernel, by decide +kernel, by decide +kernel, by rw [record_length _ (by decide)]; decide, by rw [record_length _ (by decide)]; exact record_opens _ (by decide) _ _, by decide +kernel⟩,
   ⟨(let s := keState 4; { s with ke := { s.ke with sessions := [{ session0 4 with finished := true }] } }), 3, gcmSeal (({ session0 4 with finished := true } : KeSession).rx.key 0x1301) (({ session0 4 with finished := true } : KeSession).rx.nonce 0x1301) (tlsHead 23 22) [24, 0, 0, 1, 0, 22], 0, { session0 4 with finished := true }, by decide +kernel, by decide +kernel, by decide +kernel, by decide +kernel, by decide +kernel, by decide +kernel, by rw [record_length _ (by decide)]; decide, by rw [record_length _ (by decide)]; exact record_opens _ (by decide) _ _, by decide +kernel, by decide +kernel⟩,
   ⟨(let s := keState 4; { s with ke := { s.ke with sessions := [{ session0 5 with finished := true }] } }), 3, gcmSeal (({ session0 5 with finished := true } : KeSession).rx.key 0x1301) (({ session0 5 with finished := true } : KeSession).rx.nonce 0x1301) (tlsHead 23 22) [24, 0, 0, 1, 1, 22], 1, { session0 5 with finished := true }, by decide +kernel, by decide +kernel, by decide +kernel, by decide +kernel, by decide +kernel, by decide +kernel, by rw [record_length _ (by decide)]; decide, by rw [record_length _ (by decide)]; exact record_opens _ (by decide) _ _, by decide +kernel, by decide +kernel⟩,
   ⟨(let s := keState 4; { s with ke := { s.ke with sessions := [{ session0 4 with finished := true }] } }), 3, gcmSeal (({ session0 4 with finished := true } : KeSession).rx.key 0x1301) (({ session0 4 with finished := true } : KeSession).rx.nonce 0x1301) (tlsHead 23 22) [24, 0, 0, 1, 1, 22], 1, { session0 4 with finished := true }, by decide +kernel, by decide +kernel, by decide +kernel, by decide +kernel, by decide +kernel, by decide +kernel, by rw [record_length _ (by decide)]; decide, by rw [record_length _ (by decide)]; exact record_opens _ (by decide) _ _, by decide +kernel, by decide +kernel⟩,
   ⟨(let s := keState 4; { s with ke := { s.ke with sessions := [session0 4] } }), 3, natBE 5 0x1603030001 ++ [1], false, session0 4, by decide +kernel, by decide +kernel, by decide +kernel, by decide +kernel⟩,
   ⟨(let s := keState 4; { s with ke := { s.ke with sessions := [session0 4] } }), 3, [], true, session0 4, { session0 4 with finished := false, data := [], closed := true }, by decide +kernel, by decide +kernel, by decide +kernel, by decide +kernel, by decide +kernel, by decide +kernel⟩,
   ⟨(let s := keState 4; { s with ke := { s.ke with sessions := [session0 4] } }), 3, [], false, session0 4, session0 4, by decide +kernel, by decide +kernel, by decide +kernel, by decide +kernel, by decide +kernel, by decide +kernel⟩,
   ⟨(let s := keState 4; { s with ke := { s.ke with sessions := [{ session0 4 with finished := true, data := [], closed := false }] } }), 3, [], false, { session0 4 with finished := true, data := [], closed := false }, { session0 4 with finished := true, data := [], closed := false }, by decide +kernel, by decide +kernel, by decide +kernel, by decide +kernel, by decide +kernel, by decide +kernel⟩,
   ⟨(let s := keState 4; { s with ke := { s.ke with sessions := [{ session0 4 with finished := true, data := [], closed := true }] } }), 3, [], false, { session0 4 with finished := true, data := [], closed := true }, { session0 4 with finished := true, data := [], closed := true }, by decide +kernel, by decide +kernel, by decide +kernel, by decide +kernel, by decide +kernel, by decide +kernel⟩,
   ⟨(let s := keState 4; { s with ke := { s.ke with sessions := [{ session0 4 with finished := true, data := (natBE 2 0x8001 ++ lenBytes 2 (natBE 2 1) ++ natBE 2 0x8004 ++ lenBytes 2 (natBE 2 15) ++ natBE 4 0x80000000), closed := false }] } }), 3, [], false, { session0 4 with finished := true, data := (natBE 2 0x8001 ++ lenBytes 2 (natBE 2 1) ++ natBE 2 0x8004 ++ lenBytes 2 (natBE 2 15) ++ natBE 4 0x80000000), closed := false }, { session0 4 with finished := true, data := (natBE 2 0x8001 ++ lenBytes 2 (natBE 2 1) ++ natBE 2 0x8004 ++ lenBytes 2 (natBE 2 15) ++ natBE 4 0x80000000), closed := false }, by decide +kernel, by decide +kernel, by decide +kernel, by decide +kernel, by decide +kernel, by decide +kernel⟩,
   ⟨(let s := let s := (keState 4).set F.CRL_NTS_STAT_ROOTOK 1; { s with crl := { s.crl with root := some (zeros 32, 3) } }; { s with ke := { s.ke with sessions := [{ session0 4 with finished := true, data := (natBE 2 0x8001 ++ lenBytes 2 (natBE 2 0) ++ natBE 2 0x8004 ++ lenBytes 2 (natBE 2 15) ++ natBE 4 0x80000000), closed := false }] } }), 3, [], false, { session0 4 with finished := true, data := (natBE 2 0x8001 ++ lenBytes 2 (natBE 2 0) ++ natBE 2 0x8004 ++ lenBytes 2 (natBE 2 15) ++ natBE 4 0x80000000), closed := false }, { session0 4 with finished := true, data := (natBE 2 0x8001 ++ lenBytes 2 (natBE 2 0) ++ natBE 2 0x8004 ++ lenBytes 2 (natBE 2 15) ++ natBE 4 0x80000000), closed := false }, by decide +kernel, by decide +kernel, by decide +kernel, by decide +kernel, by decide +kernel, by decide +kernel⟩,
   ⟨keState 0, 3, session0 0, by decide +kernel, by decide +kernel, by decide +kernel, by decide +kernel⟩,
   ⟨keState 5, 3, session0 5, by decide +kernel, by decide +kernel, by decide +kernel⟩⟩

/-- States and operands that meet the hypotheses of BootCommandsTakeEffect, clause by clause. -/
theorem witness_BootCommandsTakeEffect :
    (∃ s : State, ∃ k : Nat, ∃ rest : List Nat, booting s .header = true ∧ s.sys.boot.headers = k :: rest)
    ∧ (∃ s : State, ∃ k : Nat, booting s .body = true ∧ s.sys.boot.slot = some k)
    ∧ (∃ s : State, ∃ k : Nat, booting s .signatures = true ∧ s.sys.boot.slot = some k)
    ∧ (∃ s : State, ∃ k : Nat, s.sys.boot.slot = some k ∧ inBoot s = true ∧ s.sys.boot.stage ≠ .ended ∧ s.sys.boot.stage ≠ .header ∧ s.sys.boot.since + bootLimit ≤ s.now)
    ∧ (∃ s : State, ∃ l : BitVec 18, ∃ c : BitVec 16, ∃ r : Bool, inBoot s = true ∧ s.sys.boot.stage ≠ .ended ∧ (entropyTest r (answerTests .coreFail 16 c.toNat (answerTests .laneFail 18 l.toNat s))).sys.boot.stage = .firmware)
    ∧ (∃ s : State, ∃ l : BitVec 18, ∃ c : BitVec 16, ∃ r : Bool, inBoot s = true ∧ s.sys.boot.stage ≠ .ended ∧ (entropyTest r (answerTests .coreFail 16 c.toNat (answerTests .laneFail 18 l.toNat s))).sys.boot.stage ≠ .firmware)
    ∧ (∃ s : State, ∃ k : Nat, booting s .regs = true ∧ s.sys.boot.slot = some k)
    ∧ (∃ s : State, booting s .keys = true)
    ∧ (∃ s : State, ∃ k : Nat, booting s .certs = true ∧ s.sys.boot.slot = some k)
    ∧ (∃ s : State, ∃ u : State, ∃ v : State, ∃ w : State, booting s .finish = true ∧ (u = { s with sys := { s.sys with writesOpen := true, banksSet := true } }) ∧ v = (match s.sys.boot.slot with | some k => (((u.set F.SYS_BOOT_STAT_SLOT k).set (if k = 0 then F.SYS_BOOT_STAT_RESA else F.SYS_BOOT_STAT_RESB) 1).set F.SYS_BOOT_SEQ_SEQ (imgLE ((u.set F.SYS_BOOT_STAT_SLOT k).set (if k = 0 then F.SYS_BOOT_STAT_RESA else F.SYS_BOOT_STAT_RESB) 1) k 12 4)) | none => u) ∧ w = v.set F.SYS_BOOT_TIME_TIME ((v.now - v.sys.releasedAt) / 1200000))
    ∧ (∃ s : State, powered s = true ∧ s.on F.SYN_STAT_SYN0LOCK = true ∧ s.on F.HMI_MEM_STAT_TRAINED = false ∧ s.fbk.resumed = false)
    ∧ (∃ s : State, powered s = true ∧ s.on F.SYN_STAT_SYN0LOCK = true ∧ s.on F.HMI_MEM_STAT_TRAINED = false ∧ s.fbk.resumed = true)
    ∧ (∃ s : State, ∃ p : Path, ∃ v : Word, ∃ c : Nat × Instr, Admits s ∧ c ∈ [(if fieldGet v 28 2 = 3 then 3 else 0, Instr.flashRead p v), (1, .flashProgram p v), (2, .flashErase p v)] ∧ s.sys.flashOp.isSome = true)
    ∧ (∃ s : State, ∃ p : Path, ∃ v : Word, ∃ c : Nat × Instr, Admits s ∧ c ∈ [(if fieldGet v 28 2 = 3 then 3 else 0, Instr.flashRead p v), (1, .flashProgram p v), (2, .flashErase p v)] ∧ s.sys.flashOp.isSome = false ∧ flashPermitted s (s.get F.SYS_FL_ADDR_ADDR) = false)
    ∧ (∃ s : State, ∃ p : Path, ∃ v : Word, ∃ c : Nat × Instr, Admits s ∧ c ∈ [(if fieldGet v 28 2 = 3 then 3 else 0, Instr.flashRead p v), (1, .flashProgram p v), (2, .flashErase p v)] ∧ s.sys.flashOp.isSome = false ∧ flashPermitted s (s.get F.SYS_FL_ADDR_ADDR) = true ∧ s.get F.SYS_FL_ADDR_ADDR % (if c.1 = 2 then 65536 else 256) ≠ 0)
    ∧ (∃ s : State, ∃ p : Path, ∃ v : Word, ∃ c : Nat × Instr, Admits s ∧ c ∈ [(if fieldGet v 28 2 = 3 then 3 else 0, Instr.flashRead p v), (1, .flashProgram p v), (2, .flashErase p v)] ∧ s.sys.flashOp.isSome = false ∧ flashPermitted s (s.get F.SYS_FL_ADDR_ADDR) = true ∧ s.get F.SYS_FL_ADDR_ADDR % (if c.1 = 2 then 65536 else 256) = 0)
    ∧ (∃ s : State, ∃ p : Path, ∃ v : Word, ∃ c : Nat × Instr, Admits s ∧ c ∈ [(if fieldGet v 28 2 = 3 then 3 else 0, Instr.flashRead p v), (1, .flashProgram p v), (2, .flashErase p v)] ∧ s.sys.flashOp.isSome = true)
    ∧ (∃ s : State, ∃ p : Path, ∃ v : Word, ∃ c : Nat × Instr, Admits s ∧ c ∈ [(if fieldGet v 28 2 = 3 then 3 else 0, Instr.flashRead p v), (1, .flashProgram p v), (2, .flashErase p v)] ∧ s.sys.flashOp.isSome = false ∧ flashPermitted s (s.get F.SYS_FL_ADDR_ADDR) = false)
    ∧ (∃ s : State, ∃ p : Path, ∃ v : Word, ∃ c : Nat × Instr, Admits s ∧ c ∈ [(if fieldGet v 28 2 = 3 then 3 else 0, Instr.flashRead p v), (1, .flashProgram p v), (2, .flashErase p v)] ∧ s.sys.flashOp.isSome = false ∧ flashPermitted s (s.get F.SYS_FL_ADDR_ADDR) = true ∧ s.get F.SYS_FL_ADDR_ADDR % (if c.1 = 2 then 65536 else 256) ≠ 0)
    ∧ (∃ s : State, ∃ p : Path, ∃ v : Word, ∃ c : Nat × Instr, Admits s ∧ c ∈ [(if fieldGet v 28 2 = 3 then 3 else 0, Instr.flashRead p v), (1, .flashProgram p v), (2, .flashErase p v)] ∧ s.sys.flashOp.isSome = false ∧ flashPermitted s (s.get F.SYS_FL_ADDR_ADDR) = true ∧ s.get F.SYS_FL_ADDR_ADDR % (if c.1 = 2 then 65536 else 256) = 0)
    ∧ (∃ s : State, ∃ p : Path, ∃ v : Word, ∃ c : Nat × Instr, Admits s ∧ c ∈ [(if fieldGet v 28 2 = 3 then 3 else 0, Instr.flashRead p v), (1, .flashProgram p v), (2, .flashErase p v)] ∧ s.sys.flashOp.isSome = true)
    ∧ (∃ s : State, ∃ p : Path, ∃ v : Word, ∃ c : Nat × Instr, Admits s ∧ c ∈ [(if fieldGet v 28 2 = 3 then 3 else 0, Instr.flashRead p v), (1, .flashProgram p v), (2, .flashErase p v)] ∧ s.sys.flashOp.isSome = false ∧ flashPermitted s (s.get F.SYS_FL_ADDR_ADDR) = false)
    ∧ (∃ s : State, ∃ p : Path, ∃ v : Word, ∃ c : Nat × Instr, Admits s ∧ c ∈ [(if fieldGet v 28 2 = 3 then 3 else 0, Instr.flashRead p v), (1, .flashProgram p v), (2, .flashErase p v)] ∧ s.sys.flashOp.isSome = false ∧ flashPermitted s (s.get F.SYS_FL_ADDR_ADDR) = true ∧ s.get F.SYS_FL_ADDR_ADDR % (if c.1 = 2 then 65536 else 256) ≠ 0)
    ∧ (∃ s : State, ∃ p : Path, ∃ v : Word, ∃ c : Nat × Instr, Admits s ∧ c ∈ [(if fieldGet v 28 2 = 3 then 3 else 0, Instr.flashRead p v), (1, .flashProgram p v), (2, .flashErase p v)] ∧ s.sys.flashOp.isSome = false ∧ flashPermitted s (s.get F.SYS_FL_ADDR_ADDR) = true ∧ s.get F.SYS_FL_ADDR_ADDR % (if c.1 = 2 then 65536 else 256) = 0)
    ∧ (∃ s : State, ∃ u : State, ∃ op : Nat, ∃ a : Nat, ∃ b : Bytes, s.sys.flashOp = some (op, a, b) ∧ (u = ({ s with sys := { s.sys with flashOp := none } }.set F.SYS_FL_CTL_BUSY 0).set F.SYS_FL_CTL_ERR 2)) :=
  ⟨⟨inStage .header, 0, [1], by decide +kernel, by decide +kernel⟩,
   ⟨inStage .body, 0, by decide +kernel, by decide +kernel⟩,
   ⟨inStage .signatures, 0, by decide +kernel, by decide +kernel⟩,
   ⟨{ inStage .body with now := 2400000000 }, 0, by decide +kernel, by decide +kernel, by decide +kernel, by decide +kernel, by decide +kernel⟩,
   ⟨inStage .firmware, 1, 0x8000, true, by decide +kernel, by decide +kernel, by decide +kernel⟩,
   ⟨inStage .body, 0, 0, false, by decide +kernel, by decide +kernel, by decide +kernel⟩,
   ⟨inStage .regs, 0, by decide +kernel, by decide +kernel⟩,
   ⟨inStage .keys, by decide +kernel⟩,
   ⟨inStage .certs, 0, by decide +kernel, by decide +kernel⟩,
   ⟨inStage .finish, _, _, _, by decide +kernel, rfl, rfl, rfl⟩,
   ⟨(device 2).set F.HMI_MEM_STAT_TRAINED 0, by decide +kernel, by decide +kernel, by decide +kernel, by decide +kernel⟩,
   ⟨{ (device 2).set F.HMI_MEM_STAT_TRAINED 0 with fbk := { (device 2).fbk with resumed := true } }, by decide +kernel, by decide +kernel, by decide +kernel, by decide +kernel⟩,
   ⟨{ device 2 with sys := { (device 2).sys with flashOp := some (1, 0x10000, [1, 2]) } }, .mw0, 0, (0, .flashRead .mw0 0), ⟨by decide +kernel, by decide +kernel, by decide +kernel⟩, by decide +kernel, by decide +kernel⟩,
   ⟨((device 2).set F.SYS_FL_ADDR_ADDR 65536), .mw0, 0, (0, .flashRead .mw0 0), ⟨by decide +kernel, by decide +kernel, by decide +kernel⟩, by decide +kernel, by decide +kernel, by decide +kernel⟩,
   ⟨((device 5).set F.SYS_FL_ADDR_ADDR 65537), .mw0, 0, (0, .flashRead .mw0 0), ⟨by decide +kernel, by decide +kernel, by decide +kernel⟩, by decide +kernel, by decide +kernel, by decide +kernel, by decide +kernel⟩,
   ⟨((device 5).set F.SYS_FL_ADDR_ADDR 131072), .mw0, 0, (0, .flashRead .mw0 0), ⟨by decide +kernel, by decide +kernel, by decide +kernel⟩, by decide +kernel, by decide +kernel, by decide +kernel, by decide +kernel⟩,
   ⟨{ device 2 with sys := { (device 2).sys with flashOp := some (1, 0x10000, [1, 2]) } }, .mw0, 0, (1, .flashProgram .mw0 0), ⟨by decide +kernel, by decide +kernel, by decide +kernel⟩, by decide +kernel, by decide +kernel⟩,
   ⟨((device 2).set F.SYS_FL_ADDR_ADDR 65536), .mw0, 0, (1, .flashProgram .mw0 0), ⟨by decide +kernel, by decide +kernel, by decide +kernel⟩, by decide +kernel, by decide +kernel, by decide +kernel⟩,
   ⟨((device 5).set F.SYS_FL_ADDR_ADDR 65537), .mw0, 0, (1, .flashProgram .mw0 0), ⟨by decide +kernel, by decide +kernel, by decide +kernel⟩, by decide +kernel, by decide +kernel, by decide +kernel, by decide +kernel⟩,
   ⟨((device 5).set F.SYS_FL_ADDR_ADDR 131072), .mw0, 0, (1, .flashProgram .mw0 0), ⟨by decide +kernel, by decide +kernel, by decide +kernel⟩, by decide +kernel, by decide +kernel, by decide +kernel, by decide +kernel⟩,
   ⟨{ device 2 with sys := { (device 2).sys with flashOp := some (1, 0x10000, [1, 2]) } }, .mw0, 0, (2, .flashErase .mw0 0), ⟨by decide +kernel, by decide +kernel, by decide +kernel⟩, by decide +kernel, by decide +kernel⟩,
   ⟨((device 2).set F.SYS_FL_ADDR_ADDR 65536), .mw0, 0, (2, .flashErase .mw0 0), ⟨by decide +kernel, by decide +kernel, by decide +kernel⟩, by decide +kernel, by decide +kernel, by decide +kernel⟩,
   ⟨((device 5).set F.SYS_FL_ADDR_ADDR 65537), .mw0, 0, (2, .flashErase .mw0 0), ⟨by decide +kernel, by decide +kernel, by decide +kernel⟩, by decide +kernel, by decide +kernel, by decide +kernel, by decide +kernel⟩,
   ⟨((device 5).set F.SYS_FL_ADDR_ADDR 131072), .mw0, 0, (2, .flashErase .mw0 0), ⟨by decide +kernel, by decide +kernel, by decide +kernel⟩, by decide +kernel, by decide +kernel, by decide +kernel, by decide +kernel⟩,
   ⟨{ device 2 with sys := { (device 2).sys with flashOp := some (1, 0x10000, [1, 2]) } }, _, 1, 0x10000, [1, 2], by decide +kernel, rfl⟩⟩

/-- States and operands that meet the hypotheses of FlashOperationsChangeOnlyTheirBytes, clause by clause. -/
theorem witness_FlashOperationsChangeOnlyTheirBytes :
    (∃ s : State, ∃ a : Nat, ∃ b : Bytes, Canonical s ∧ s.sys.flashOp = some (2, a, b))
    ∧ (∃ s : State, ∃ a : Nat, ∃ b : Bytes, Canonical s ∧ s.sys.flashOp = some (1, a, b) ∧ (a ≤ 0x10001 ∧ 0x10001 < a + b.length) ∧ flashByte s 0x10001 = 0xFF)
    ∧ (∃ s : State, ∃ a : Nat, ∃ b : Bytes, Canonical s ∧ s.sys.flashOp = some (0, a, b)) :=
  ⟨⟨{ device 2 with sys := { (device 2).sys with flashOp := some (2, 0x10000, []) } }, 0x10000, [], ⟨by decide +kernel, by decide +kernel⟩, by decide +kernel⟩,
   ⟨{ device 2 with sys := { (device 2).sys with flashOp := some (1, 0x10000, [1, 2]) } }, 0x10000, [1, 2], ⟨by decide +kernel, by decide +kernel⟩, by decide +kernel, by decide +kernel, by decide +kernel⟩,
   ⟨{ device 2 with sys := { (device 2).sys with flashOp := some (0, 0x10000, []) } }, 0x10000, [], ⟨by decide +kernel, by decide +kernel⟩, by decide +kernel⟩⟩

/-- States and operands that meet the hypotheses of PowerCommandsTakeEffect, clause by clause. -/
theorem witness_PowerCommandsTakeEffect :
    (∃ s : State, ∃ u : State, s.on F.SYS_PWR_STAT_VINGOOD = true ∧ u = s.set F.SYS_PWR_STAT_VINGOOD 0 ∧ u.sys.phase = .off)
    ∧ (∃ s : State, ∃ u : State, s.on F.SYS_PWR_STAT_VINGOOD = true ∧ u = s.set F.SYS_PWR_STAT_VINGOOD 0 ∧ u.sys.phase = .reset ∧ u.on F.SYS_PWR_STAT_VAOGOOD = true ∧ u.on F.SYS_MODE_CFG_MONEN = true)
    ∧ (∃ s : State, ∃ u : State, s.on F.SYS_PWR_STAT_VINGOOD = true ∧ u = s.set F.SYS_PWR_STAT_VINGOOD 0 ∧ u.sys.phase = .reset ∧ u.on F.SYS_PWR_STAT_VAOGOOD = false)
    ∧ (∃ s : State, ∃ u : State, s.on F.SYS_PWR_STAT_VINGOOD = true ∧ u = s.set F.SYS_PWR_STAT_VINGOOD 0 ∧ u.sys.phase = .reset ∧ u.on F.SYS_MODE_CFG_MONEN = false)
    ∧ (∃ s : State, ∃ u : State, s.on F.SYS_PWR_STAT_VINGOOD = true ∧ u = s.set F.SYS_PWR_STAT_VINGOOD 0 ∧ u.sys.phase = .running ∧ (u.mode = mDormant ∨ u.mode = mMonument) ∧ u.on F.SYS_PWR_STAT_VAOGOOD = true)
    ∧ (∃ s : State, ∃ u : State, s.on F.SYS_PWR_STAT_VINGOOD = true ∧ u = s.set F.SYS_PWR_STAT_VINGOOD 0 ∧ u.sys.phase = .running ∧ (u.mode = mDormant ∨ u.mode = mMonument) ∧ u.on F.SYS_PWR_STAT_VAOGOOD = false)
    ∧ (∃ s : State, ∃ u : State, s.on F.SYS_PWR_STAT_VINGOOD = true ∧ u = s.set F.SYS_PWR_STAT_VINGOOD 0 ∧ u.sys.phase = .running ∧ u.mode ≠ mDormant ∧ u.mode ≠ mMonument ∧ u.on F.SYS_PWR_STAT_VAOGOOD = true ∧ u.on F.SYS_MODE_CFG_MONEN = true)
    ∧ (∃ s : State, ∃ u : State, s.on F.SYS_PWR_STAT_VINGOOD = true ∧ u = s.set F.SYS_PWR_STAT_VINGOOD 0 ∧ u.sys.phase = .running ∧ u.mode ≠ mDormant ∧ u.mode ≠ mMonument ∧ u.on F.SYS_PWR_STAT_VAOGOOD = false)
    ∧ (∃ s : State, ∃ u : State, ∃ v : State, ∃ low : Bool, s.on F.SYS_PWR_STAT_VINGOOD = false ∧ u = s.set F.SYS_PWR_STAT_VINGOOD 1 ∧ (v = { u with sys := { u.sys with porstLow := low, nextCause := (match u.sys.phase with | .running => if u.mode = mMonument then 3 else 2 | .off | .reset => 1) } }) ∧ low = false)
    ∧ (∃ s : State, ∃ u : State, ∃ v : State, ∃ low : Bool, s.on F.SYS_PWR_STAT_VINGOOD = false ∧ u = s.set F.SYS_PWR_STAT_VINGOOD 1 ∧ (v = { u with sys := { u.sys with porstLow := low, nextCause := (match u.sys.phase with | .running => if u.mode = mMonument then 3 else 2 | .off | .reset => 1) } }) ∧ low = true ∧ v.sys.phase = .off)
    ∧ (∃ s : State, ∃ u : State, ∃ v : State, ∃ low : Bool, s.on F.SYS_PWR_STAT_VINGOOD = false ∧ u = s.set F.SYS_PWR_STAT_VINGOOD 1 ∧ (v = { u with sys := { u.sys with porstLow := low, nextCause := (match u.sys.phase with | .running => if u.mode = mMonument then 3 else 2 | .off | .reset => 1) } }) ∧ low = true ∧ v.sys.phase ≠ .off)
    ∧ (∃ s : State, ∃ u : State, s.on F.SYS_PWR_STAT_VAOGOOD = false ∧ u = s.set F.SYS_PWR_STAT_VAOGOOD 1 ∧ u.sys.phase = .off ∧ u.on F.SYS_PWR_STAT_VINGOOD = false)
    ∧ (∃ s : State, ∃ u : State, s.on F.SYS_PWR_STAT_VAOGOOD = false ∧ u = s.set F.SYS_PWR_STAT_VAOGOOD 1 ∧ u.sys.phase ≠ .off)
    ∧ (∃ s : State, ∃ u : State, s.on F.SYS_PWR_STAT_VAOGOOD = true ∧ (u = { s with sys := { s.sys with vaoLow := false } }.set F.SYS_PWR_STAT_VAOGOOD 0))
    ∧ (∃ s : State, s.sys.phase = .running ∧ s.mode = mMonument)
    ∧ (∃ s : State, s.on F.SYS_PWR_STAT_VINGOOD = true ∧ s.sys.phase ≠ .reset)
    ∧ (∃ s : State, ∃ c : Nat, s.on F.SYS_PWR_STAT_VINGOOD = true ∧ powered s = false ∧ ((s.sys.phase = .running ∧ s.mode = mDormant → s.sys.wakeLatched = true)) ∧ c = (if s.sys.phase = .running then (if s.mode = mMonument then 3 else 6) else s.sys.nextCause))
    ∧ (∃ s : State, ∃ c : Nat, s.on F.SYS_PWR_STAT_VINGOOD = true ∧ powered s = false ∧ ((s.sys.phase = .running ∧ s.mode = mDormant → s.sys.wakeLatched = true)) ∧ c = (if s.sys.phase = .running then (if s.mode = mMonument then 3 else 6) else s.sys.nextCause))
    ∧ (∃ s : State, ∃ c : Nat, s.on F.SYS_PWR_STAT_VINGOOD = true ∧ powered s = false ∧ ((s.sys.phase = .running ∧ s.mode = mDormant → s.sys.wakeLatched = true)) ∧ c = (if s.sys.phase = .running then (if s.mode = mMonument then 3 else 6) else s.sys.nextCause))
    ∧ (∃ s : State, s.sys.phase = .running ∧ s.mode = mDormant ∧ s.sys.wakeLatched = false ∧ s.on F.PRT_WAKE_CFG_PINEN = true)
    ∧ (∃ s : State, ∃ port : Fin 7, ∃ b : Bytes, s.sys.phase = .running ∧ s.mode = mDormant ∧ s.sys.wakeLatched = false ∧ 4 ≤ port.val ∧ fcsGood b = true ∧ 64 ≤ b.length ∧ b.length ≤ maxFrame s port ∧ ((s.on F.PRT_WAKE_CFG_MAGICEN = true ∧ (s.get F.PRT_WAKE_CFG_MAGICPORTS).testBit (port.val - 4) = true ∧ magicMatch s b = true)))
    ∧ (∃ s : State, ∃ port : Fin 7, ∃ b : Bytes, ∃ n : Nat, s.sys.phase = .running ∧ s.mode = mDormant ∧ s.sys.wakeLatched = false ∧ 4 ≤ port.val ∧ fcsGood b = true ∧ 64 ≤ b.length ∧ b.length ≤ maxFrame s port ∧ (¬(s.on F.PRT_WAKE_CFG_MAGICEN = true ∧ (s.get F.PRT_WAKE_CFG_MAGICPORTS).testBit (port.val - 4) = true ∧ magicMatch s b = true)) ∧ ((List.range 8).find? (fun n => (s.get F.PRT_WAKE_CFG_PATEN).testBit n && (s.get (F.PRT_WAKEP_CTL_PORTS n)).testBit (port.val - 4) && patternMatch s n b) = some n)) :=
  ⟨⟨{ (((device 2).set F.SYS_PWR_STAT_VINGOOD 1).set F.SYS_PWR_STAT_VAOGOOD 1).set F.SYS_MODE_CFG_MONEN 1 with sys := { (device 2).sys with phase := .off } }, _, by decide +kernel, rfl, by decide +kernel⟩,
   ⟨{ (((device 2).set F.SYS_PWR_STAT_VINGOOD 1).set F.SYS_PWR_STAT_VAOGOOD 1).set F.SYS_MODE_CFG_MONEN 1 with sys := { (device 2).sys with phase := .reset } }, _, by decide +kernel, rfl, by decide +kernel, by decide +kernel, by decide +kernel⟩,
   ⟨{ (((device 2).set F.SYS_PWR_STAT_VINGOOD 1).set F.SYS_PWR_STAT_VAOGOOD 0).set F.SYS_MODE_CFG_MONEN 1 with sys := { (device 2).sys with phase := .reset } }, _, by decide +kernel, rfl, by decide +kernel, by decide +kernel⟩,
   ⟨{ (((device 2).set F.SYS_PWR_STAT_VINGOOD 1).set F.SYS_PWR_STAT_VAOGOOD 1).set F.SYS_MODE_CFG_MONEN 0 with sys := { (device 2).sys with phase := .reset } }, _, by decide +kernel, rfl, by decide +kernel, by decide +kernel⟩,
   ⟨{ (((device 7).set F.SYS_PWR_STAT_VINGOOD 1).set F.SYS_PWR_STAT_VAOGOOD 1).set F.SYS_MODE_CFG_MONEN 1 with sys := { (device 7).sys with phase := .running } }, _, by decide +kernel, rfl, by decide +kernel, by decide +kernel, by decide +kernel⟩,
   ⟨{ (((device 6).set F.SYS_PWR_STAT_VINGOOD 1).set F.SYS_PWR_STAT_VAOGOOD 0).set F.SYS_MODE_CFG_MONEN 1 with sys := { (device 6).sys with phase := .running } }, _, by decide +kernel, rfl, by decide +kernel, by decide +kernel, by decide +kernel⟩,
   ⟨{ (((device 2).set F.SYS_PWR_STAT_VINGOOD 1).set F.SYS_PWR_STAT_VAOGOOD 1).set F.SYS_MODE_CFG_MONEN 1 with sys := { (device 2).sys with phase := .running } }, _, by decide +kernel, rfl, by decide +kernel, by decide +kernel, by decide +kernel, by decide +kernel, by decide +kernel⟩,
   ⟨{ (((device 2).set F.SYS_PWR_STAT_VINGOOD 1).set F.SYS_PWR_STAT_VAOGOOD 0).set F.SYS_MODE_CFG_MONEN 1 with sys := { (device 2).sys with phase := .running } }, _, by decide +kernel, rfl, by decide +kernel, by decide +kernel, by decide +kernel, by decide +kernel⟩,
   ⟨{ (device 2).set F.SYS_PWR_STAT_VINGOOD 0 with sys := { (device 2).sys with phase := .off } }, _, _, false, by decide +kernel, rfl, rfl, by decide +kernel⟩,
   ⟨{ (device 2).set F.SYS_PWR_STAT_VINGOOD 0 with sys := { (device 2).sys with phase := .off } }, _, _, true, by decide +kernel, rfl, rfl, by decide +kernel, by decide +kernel⟩,
   ⟨{ (device 2).set F.SYS_PWR_STAT_VINGOOD 0 with sys := { (device 2).sys with phase := .running } }, _, _, true, by decide +kernel, rfl, rfl, by decide +kernel, by decide +kernel⟩,
   ⟨{ ((device 2).set F.SYS_PWR_STAT_VINGOOD 0).set F.SYS_PWR_STAT_VAOGOOD 0 with sys := { (device 2).sys with phase := .off } }, _, by decide +kernel, rfl, by decide +kernel, by decide +kernel⟩,
   ⟨(device 2).set F.SYS_PWR_STAT_VAOGOOD 0, _, by decide +kernel, rfl, by decide +kernel⟩,
   ⟨(device 2).set F.SYS_PWR_STAT_VAOGOOD 1, _, by decide +kernel, rfl⟩,
   ⟨device 6, by decide +kernel, by decide +kernel⟩,
   ⟨(device 2).set F.SYS_PWR_STAT_VINGOOD 1, by decide +kernel, by decide +kernel⟩,
   ⟨{ (((device 2).set F.SYS_PWR_STAT_VINGOOD 1).set F.SYS_PWR_STAT_VAOGOOD 1).set F.SYS_MODE_CFG_MONEN 1 with sys := { (device 2).sys with phase := .reset } }, _, by decide +kernel, by decide +kernel, by decide +kernel, rfl⟩,
   ⟨{ (device 7).set F.SYS_PWR_STAT_VINGOOD 1 with sys := { (device 7).sys with wakeLatched := true } }, _, by decide +kernel, by decide +kernel, by decide +kernel, rfl⟩,
   ⟨(device 6).set F.SYS_PWR_STAT_VINGOOD 1, _, by decide +kernel, by decide +kernel, by decide +kernel, rfl⟩,
   ⟨(device 7).set F.PRT_WAKE_CFG_PINEN 1, by decide +kernel, by decide +kernel, by decide +kernel, by decide +kernel⟩,
   ⟨((device 7).set F.PRT_WAKE_CFG_MAGICEN 1).set F.PRT_WAKE_CFG_MAGICPORTS 1, 4, (withFcs (natBE 6 0 ++ natBE 6 2 ++ natBE 2 0x0842 ++ List.replicate 6 0xFF ++ zeros 96)), by decide +kernel, by decide +kernel, by decide +kernel, by decide +kernel, by decide +kernel, by decide +kernel, by decide +kernel, by decide +kernel⟩,
   ⟨((device 7).set F.PRT_WAKE_CFG_PATEN 0x80).set (F.PRT_WAKEP_CTL_PORTS 7) 4, 6, (withFcs (natBE 6 0 ++ natBE 6 2 ++ natBE 2 0x0842 ++ List.replicate 6 0xFF ++ zeros 96)), 7, by decide +kernel, by decide +kernel, by decide +kernel, by decide +kernel, by decide +kernel, by decide +kernel, by decide +kernel, by decide +kernel, by decide +kernel⟩⟩

/-- States and operands that meet the hypotheses of SystemCommandsTakeEffect, clause by clause. -/
theorem witness_SystemCommandsTakeEffect :
    (∃ s : State, 1200000 ≤ s.sys.tickPhase ∧ powered s = true ∧ mclkRuns s = true)
    ∧ (∃ s : State, 1200000 ≤ s.sys.tickPhase ∧ powered s = false ∧ s.sys.phase ≠ .off)
    ∧ (∃ s : State, s.mode = mSurvey ∧ s.sys.phase = .running ∧ s.get F.SYS_MODE_CFG_SURVEYMAX ≠ 0 ∧ 1000 * s.get F.SYS_MODE_CFG_SURVEYMAX ≤ s.sys.modeTicks)
    ∧ (∃ s : State, s.mode = mSafe ∧ s.sys.phase = .running ∧ s.get F.SYS_MODE_CFG_AUTORST ≠ 0 ∧ s.get F.SYS_MODE_STAT_ARCNT ≠ 3 ∧ 60000 * s.get F.SYS_MODE_CFG_AUTORST ≤ s.sys.modeTicks)
    ∧ (∃ s : State, ∃ v : Word, ∃ p : Path, Admits s ∧ denyReason (countAccess p s) A.SYS_IOBANK v = none)
    ∧ (∃ s : State, s.sys.bankSettling ≠ 0 ∧ s.sys.bankAt + 2400000 ≤ s.now)
    ∧ (∃ s : State, s.on F.SYS_PWR_STAT_VINGOOD = true) :=
  ⟨⟨{ device 2 with sys := { (device 2).sys with tickPhase := 1200000, phase := .running } }, by decide +kernel, by decide +kernel, by decide +kernel⟩,
   ⟨{ device 7 with sys := { (device 7).sys with tickPhase := 1200000, phase := .running } }, by decide +kernel, by decide +kernel, by decide +kernel⟩,
   ⟨{ (device 1).set F.SYS_MODE_CFG_SURVEYMAX 1 with sys := { (device 1).sys with modeTicks := 1000 } }, by decide +kernel, by decide +kernel, by decide +kernel, by decide +kernel⟩,
   ⟨{ (device 4).set F.SYS_MODE_CFG_AUTORST 1 with sys := { (device 4).sys with modeTicks := 60000 } }, by decide +kernel, by decide +kernel, by decide +kernel, by decide +kernel, by decide +kernel⟩,
   ⟨device 5, 0, .mw0, ⟨by decide +kernel, by decide +kernel, by decide +kernel⟩, by decide +kernel⟩,
   ⟨{ device 2 with now := 2400000, sys := { (device 2).sys with bankSettling := 16, bankAt := 0 } }, by decide +kernel, by decide +kernel⟩,
   ⟨(device 2).set F.SYS_PWR_STAT_VINGOOD 1, by decide +kernel⟩⟩

/-- States and operands that meet the hypotheses of FaultAndBookCommandsTakeEffect, clause by clause. -/
theorem witness_FaultAndBookCommandsTakeEffect :
    (∃ s : State, ∃ t : State, ∃ e : FaultEv, ∃ rest : List FaultEv, eventOrder s = e :: rest ∧ (t = pmcEvent 0 0x03 0x80 1 { s with flt := { s.flt with queue := rest } }) ∧ faultAtOnce e.code = true)
    ∧ (∃ s : State, ∃ t : State, ∃ e : FaultEv, ∃ rest : List FaultEv, eventOrder s = e :: rest ∧ (t = pmcEvent 0 0x03 0x80 1 { s with flt := { s.flt with queue := rest } }) ∧ faultAtOnce e.code = false ∧ (t.get (F.SYS_FLT_CFG_N (faultClass e.code)) - 1) * classWindow t (faultClass e.code) < (t.bucket (bucketKey e)).level + classWindow t (faultClass e.code))
    ∧ (∃ s : State, ∃ t : State, ∃ e : FaultEv, ∃ rest : List FaultEv, eventOrder s = e :: rest ∧ (t = pmcEvent 0 0x03 0x80 1 { s with flt := { s.flt with queue := rest } }) ∧ faultAtOnce e.code = false ∧ (¬((t.get (F.SYS_FLT_CFG_N (faultClass e.code)) - 1) * classWindow t (faultClass e.code) < (t.bucket (bucketKey e)).level + classWindow t (faultClass e.code))))
    ∧ (∃ s : State, Admits s)
    ∧ (∃ s : State, Admits s)
    ∧ (∃ s : State, ∃ u : State, ∃ q : QEntry, firstHead (queueHeads [] s.fbk.queued) = some q ∧ (u = { s with fbk := { s.fbk with queued := s.fbk.queued.erase q } }))
    ∧ (∃ s : State, ∃ u : State, ∃ seg : Nat, ∃ sig : Bytes, s.fbk.sigs.get seg = some sig ∧ (u = { s with fbk := { s.fbk with sigs := s.fbk.sigs.del seg } }) ∧ u.fbk.segs.get seg = none)
    ∧ (∃ s : State, ∃ u : State, ∃ seg : Nat, ∃ sig : Bytes, ∃ x : Segment, s.fbk.sigs.get seg = some sig ∧ (u = { s with fbk := { s.fbk with sigs := s.fbk.sigs.del seg } }) ∧ u.fbk.segs.get seg = some x)
    ∧ (∃ s : State, ∃ u : State, s.get F.FBK_CFG_SEALPER ≠ 0 ∧ s.get F.FBK_CFG_SEALPER * 60000 < s.fbk.sealTicks ∧ (u = { s with fbk := { s.fbk with sealTicks := s.fbk.sealTicks - s.get F.FBK_CFG_SEALPER * 60000 } }) ∧ journalReady u = true ∧ u.fbk.openSeg ≠ [])
    ∧ (∃ s : State, ∃ u : State, s.get F.FBK_CFG_SEALPER ≠ 0 ∧ s.get F.FBK_CFG_SEALPER * 60000 < s.fbk.sealTicks ∧ (u = { s with fbk := { s.fbk with sealTicks := s.fbk.sealTicks - s.get F.FBK_CFG_SEALPER * 60000 } }) ∧ (journalReady u = false ∨ u.fbk.openSeg = []))
    ∧ (∃ s : State, ∃ u : State, ∃ cause : Nat, ∃ again : List Entry, s.fbk.resumed = false ∧ s.on F.HMI_MEM_STAT_TRAINED = true ∧ (again = (s.fbk.retained.filter (fun p => decide (p.1 ≠ inSealed))).map (·.2)) ∧ cause = (s.rd A.SYS_RST_CAUSE).toNat ∧ (u = { s with fbk := { s.fbk with resumed := true, openSeg := [], openUndelivered := false, retained := s.fbk.retained.filter (fun p => decide (p.1 = inSealed)), segs := [] } }) ∧ s.fbk.headKept = true)
    ∧ (∃ s : State, ∃ u : State, ∃ cause : Nat, ∃ again : List Entry, s.fbk.resumed = false ∧ s.on F.HMI_MEM_STAT_TRAINED = true ∧ (again = (s.fbk.retained.filter (fun p => decide (p.1 ≠ inSealed))).map (·.2)) ∧ cause = (s.rd A.SYS_RST_CAUSE).toNat ∧ (u = { s with fbk := { s.fbk with resumed := true, openSeg := [], openUndelivered := false, retained := s.fbk.retained.filter (fun p => decide (p.1 = inSealed)), segs := [] } }) ∧ s.fbk.headKept = false)
    ∧ (∃ s : State, ∃ k : Fin 8, ∃ c : HostCmd, fbkFront s k = some c ∧ beAt c.block 0 1 = 0x40 ∧ fbkCheck c 16 (8) = 0)
    ∧ (∃ s : State, ∃ k : Fin 8, ∃ c : HostCmd, fbkFront s k = some c ∧ beAt c.block 0 1 = 0x40 ∧ fbkCheck c 16 (8) ≠ 0)
    ∧ (∃ s : State, ∃ k : Fin 8, ∃ c : HostCmd, fbkFront s k = some c ∧ beAt c.block 0 1 = 0x41 ∧ fbkCheck c 16 (131264) = 0)
    ∧ (∃ s : State, ∃ k : Fin 8, ∃ c : HostCmd, fbkFront s k = some c ∧ beAt c.block 0 1 = 0x41 ∧ fbkCheck c 16 (131264) ≠ 0)
    ∧ (∃ s : State, ∃ k : Fin 8, ∃ c : HostCmd, fbkFront s k = some c ∧ beAt c.block 0 1 = 0x42 ∧ fbkCheck c 16 (32 * s.fbk.retained.length) = 0)
    ∧ (∃ s : State, ∃ k : Fin 8, ∃ c : HostCmd, fbkFront s k = some c ∧ beAt c.block 0 1 = 0x42 ∧ fbkCheck c 16 (32 * s.fbk.retained.length) ≠ 0)
    ∧ (∃ s : State, ∃ k : Fin 8, ∃ c : HostCmd, fbkFront s k = some c ∧ beAt c.block 0 1 = 0x43 ∧ fbkCheck c 24 (8) = 0)
    ∧ (∃ s : State, ∃ k : Fin 8, ∃ c : HostCmd, fbkFront s k = some c ∧ beAt c.block 0 1 = 0x43 ∧ fbkCheck c 24 (8) ≠ 0)
    ∧ (∃ s : State, ∃ k : Fin 8, ∃ c : HostCmd, fbkFront s k = some c ∧ beAt c.block 0 1 = 0x44 ∧ fbkCheck c 16 (72) = 0)
    ∧ (∃ s : State, ∃ k : Fin 8, ∃ c : HostCmd, fbkFront s k = some c ∧ beAt c.block 0 1 = 0x44 ∧ fbkCheck c 16 (72) ≠ 0) :=
  ⟨⟨{ (device 2) with flt := { (device 2).flt with queue := [{ event0 with code := .syn0Lasting }] } }, _, { event0 with code := .syn0Lasting }, [], by decide +kernel, rfl, by decide +kernel⟩,
   ⟨{ (device 2).set (F.SYS_FLT_CFG_N (faultClass event0.code)) 1 with flt := { (device 2).flt with queue := [event0] } }, _, event0, [], by decide +kernel, rfl, by decide +kernel, by decide +kernel⟩,
   ⟨{ (device 2).set (F.SYS_FLT_CFG_N (faultClass event0.code)) 9 with flt := { (device 2).flt with queue := [event0] } }, _, event0, [], by decide +kernel, rfl, by decide +kernel, by decide +kernel⟩,
   ⟨device 2, ⟨by decide +kernel, by decide +kernel, by decide +kernel⟩⟩,
   ⟨device 2, ⟨by decide +kernel, by decide +kernel, by decide +kernel⟩⟩,
   ⟨{ device 2 with fbk := { (device 2).fbk with queued := [queued0] } }, _, queued0, by decide +kernel, rfl⟩,
   ⟨{ device 2 with fbk := { (device 2).fbk with sigs := (device 2).fbk.sigs.put 3 (zeros 96) } }, _, 3, zeros 96, by decide +kernel, rfl, by decide +kernel⟩,
   ⟨{ device 2 with fbk := { (device 2).fbk with sigs := (device 2).fbk.sigs.put 3 (zeros 96), segs := (device 2).fbk.segs.put 3 seg0 } }, _, 3, zeros 96, seg0, by decide +kernel, rfl, by decide +kernel⟩,
   ⟨{ (device 2).set F.FBK_CFG_SEALPER 1 with fbk := { (device 2).fbk with sealTicks := 60001, resumed := true, openSeg := [entry0] } }, _, by decide +kernel, by decide +kernel, rfl, by decide +kernel, by decide +kernel⟩,
   ⟨{ (device 2).set F.FBK_CFG_SEALPER 1 with fbk := { (device 2).fbk with sealTicks := 60001 } }, _, by decide +kernel, by decide +kernel, rfl, by decide +kernel⟩,
   ⟨{ device 2 with fbk := { (device 2).fbk with resumed := false, headKept := true } }, _, _, _, by decide +kernel, by decide +kernel, rfl, rfl, rfl, by decide +kernel⟩,
   ⟨{ device 2 with fbk := { (device 2).fbk with resumed := false, headKept := false } }, _, _, _, by decide +kernel, by decide +kernel, rfl, rfl, rfl, by decide +kernel⟩,
   ⟨let s := device 2; s.setRing 63 { s.ring 63 with cmds := [cmd0 (natLE 1 64 ++ zeros 15)] }, 7, cmd0 (natLE 1 64 ++ zeros 15), by decide +kernel, by decide +kernel, by decide +kernel⟩,
   ⟨let s := device 2; s.setRing 63 { s.ring 63 with cmds := [cmd0 (natLE 1 64 ++ zeros 16)] }, 7, cmd0 (natLE 1 64 ++ zeros 16), by decide +kernel, by decide +kernel, by decide +kernel⟩,
   ⟨let s := device 2; s.setRing 63 { s.ring 63 with cmds := [cmd0 (natLE 1 65 ++ zeros 15)] }, 7, cmd0 (natLE 1 65 ++ zeros 15), by decide +kernel, by decide +kernel, by decide +kernel⟩,
   ⟨let s := device 2; s.setRing 63 { s.ring 63 with cmds := [cmd0 (natLE 1 65 ++ zeros 16)] }, 7, cmd0 (natLE 1 65 ++ zeros 16), by decide +kernel, by decide +kernel, by decide +kernel⟩,
   ⟨let s := device 2; s.setRing 63 { s.ring 63 with cmds := [cmd0 (natLE 1 66 ++ zeros 15)] }, 7, cmd0 (natLE 1 66 ++ zeros 15), by decide +kernel, by decide +kernel, by decide +kernel⟩,
   ⟨let s := device 2; s.setRing 63 { s.ring 63 with cmds := [cmd0 (natLE 1 66 ++ zeros 16)] }, 7, cmd0 (natLE 1 66 ++ zeros 16), by decide +kernel, by decide +kernel, by decide +kernel⟩,
   ⟨let s := device 2; s.setRing 63 { s.ring 63 with cmds := [cmd0 (natLE 1 67 ++ zeros 23)] }, 7, cmd0 (natLE 1 67 ++ zeros 23), by decide +kernel, by decide +kernel, by decide +kernel⟩,
   ⟨let s := device 2; s.setRing 63 { s.ring 63 with cmds := [cmd0 (natLE 1 67 ++ zeros 24)] }, 7, cmd0 (natLE 1 67 ++ zeros 24), by decide +kernel, by decide +kernel, by decide +kernel⟩,
   ⟨let s := device 2; s.setRing 63 { s.ring 63 with cmds := [cmd0 (natLE 1 68 ++ zeros 15)] }, 7, cmd0 (natLE 1 68 ++ zeros 15), by decide +kernel, by decide +kernel, by decide +kernel⟩,
   ⟨let s := device 2; s.setRing 63 { s.ring 63 with cmds := [cmd0 (natLE 1 68 ++ zeros 16)] }, 7, cmd0 (natLE 1 68 ++ zeros 16), by decide +kernel, by decide +kernel, by decide +kernel⟩⟩

/-- States and operands that meet the hypotheses of AcknowledgementClearsOnlyWhatMayBeAcknowledged, clause by clause. -/
theorem witness_AcknowledgementClearsOnlyWhatMayBeAcknowledged : ∃ s : State, Admits s ∧ Canonical s ∧ ((s.fbk.queued.filter (fun q => decide (q.block = 0))).length + 3 ≤ 64) :=
  ⟨(device 2).set ⟨A.SYS_ALARM_STAT, 0, 16⟩ 0xFFFF, ⟨by decide +kernel, by decide +kernel, by decide +kernel⟩, ⟨by decide +kernel, by decide +kernel⟩, by decide +kernel⟩

/-- States and operands that meet the hypotheses of CounterCommandsTakeEffect, clause by clause. -/
theorem witness_CounterCommandsTakeEffect :
    (∃ s : State, Admits s)
    ∧ (∃ s : State, Admits s)
    ∧ (∃ s : State, Admits s)
    ∧ (∃ s : State, s.get F.PMC_CFG_SNAPPER ≠ 0 ∧ s.get F.PMC_CFG_SNAPPER < s.pmc.snapTicks)
    ∧ (∃ s : State, ∃ v : Word, Admits s ∧ denyReason (countAccess .mw0 s) A.PMC_TAG_CFG v = none ∧ (keepHistory (countAccess .mw0 s).regs (loadLive .mw0 (countAccess .mw0 s) (A.PMC_TAG_CFG, v))).on F.PMC_TAG_CFG_EN = true)
    ∧ (∃ s : State, ∃ v : Word, Admits s ∧ denyReason (countAccess .mw0 s) A.PMC_TAG_CFG v = none ∧ (keepHistory (countAccess .mw0 s).regs (loadLive .mw0 (countAccess .mw0 s) (A.PMC_TAG_CFG, v))).on F.PMC_TAG_CFG_EN = false)
    ∧ (∃ s : State, ∃ u : State, ∃ spu : Fin 8, ∃ offered : Nat, ∃ k : Nat, ∃ r : Nat × Nat, s.on F.PMC_SPU_CFG_EN = true ∧ (s.get F.PMC_SPU_CFG_SPUS).testBit spu = true ∧ k = s.get F.PMC_SPU_CFG_K ∧ r = lfsrRun k offered s.pmc.spuLfsr[spu] 0 ∧ (u = pmcEvent 7 0x02 spu offered { s with pmc := { s.pmc with spuLfsr := s.pmc.spuLfsr.set spu r.1 } }) ∧ 0 < offered ∧ r.1 % 2 ^ k ≠ 0)
    ∧ (∃ s : State, ∃ u : State, ∃ spu : Fin 8, ∃ offered : Nat, ∃ k : Nat, ∃ r : Nat × Nat, s.on F.PMC_SPU_CFG_EN = true ∧ (s.get F.PMC_SPU_CFG_SPUS).testBit spu = true ∧ k = s.get F.PMC_SPU_CFG_K ∧ r = lfsrRun k offered s.pmc.spuLfsr[spu] 0 ∧ (u = pmcEvent 7 0x02 spu offered { s with pmc := { s.pmc with spuLfsr := s.pmc.spuLfsr.set spu r.1 } }) ∧ 0 < offered ∧ r.1 % 2 ^ k = 0) :=
  ⟨⟨device 2, ⟨by decide +kernel, by decide +kernel, by decide +kernel⟩⟩,
   ⟨device 2, ⟨by decide +kernel, by decide +kernel, by decide +kernel⟩⟩,
   ⟨device 2, ⟨by decide +kernel, by decide +kernel, by decide +kernel⟩⟩,
   ⟨{ (device 2).set F.PMC_CFG_SNAPPER 1 with pmc := { (device 2).pmc with snapTicks := 2 } }, by decide +kernel, by decide +kernel⟩,
   ⟨device 5, 0x80000000, ⟨by decide +kernel, by decide +kernel, by decide +kernel⟩, by decide +kernel, by decide +kernel⟩,
   ⟨device 5, 0, ⟨by decide +kernel, by decide +kernel, by decide +kernel⟩, by decide +kernel, by decide +kernel⟩,
   ⟨{ ((device 2).set F.PMC_SPU_CFG_EN 1).set F.PMC_SPU_CFG_SPUS 0x80 with pmc := { (device 2).pmc with spuLfsr := (device 2).pmc.spuLfsr.set 7 1 } }, _, 7, 1, _, _, by decide +kernel, by decide +kernel, rfl, rfl, rfl, by decide +kernel, by decide +kernel⟩,
   ⟨((device 2).set F.PMC_SPU_CFG_EN 1).set F.PMC_SPU_CFG_SPUS 0x80, _, 7, 1, _, _, by decide +kernel, by decide +kernel, rfl, rfl, rfl, by decide +kernel, by decide +kernel⟩⟩

/-- States and operands that meet the hypotheses of RefusedCommitKeepsTheUnitAndSetsBadval, clause by clause. -/
theorem witness_RefusedCommitKeepsTheUnitAndSetsBadval :
    (∃ s : State, ∃ p : Path, ∃ n : Fin 16, Admits s ∧ Canonical s ∧ cmpOwned s n = false ∧ cmpDue (countAccess p s) n = false ∧ (1000000000 ≤ (s.copyOr p (A.DTM_CMP_TGT_W0 n + 4)).toNat % 2 ^ 30 ∨ 1000000000 ≤ (s.copyOr p (A.DTM_CMP_PER_W0 n + 4)).toNat % 2 ^ 30))
    ∧ (∃ s : State, ∃ p : Path, ∃ n : Fin 16, Admits s ∧ Canonical s ∧ cmpOwned s n = false ∧ cmpDue (countAccess p s) n = false ∧ (1000000000 ≤ (s.copyOr p (A.DTM_CMP_TGT_W0 n + 4)).toNat % 2 ^ 30 ∨ 1000000000 ≤ (s.copyOr p (A.DTM_CMP_PER_W0 n + 4)).toNat % 2 ^ 30)) :=
  ⟨⟨(device 2).wr (A.DTM_CMP_TGT_W0 15 + 4) 1000000000, .mw0, 15, ⟨by decide +kernel, by decide +kernel, by decide +kernel⟩, ⟨by decide +kernel, by decide +kernel⟩, by decide +kernel, by decide +kernel, by decide +kernel⟩,
   ⟨{ device 2 with copyMspi := (device 2).copyMspi.put (A.DTM_CMP_PER_W0 0 + 4) 1000000000 }, .mspi, 0, ⟨by decide +kernel, by decide +kernel, by decide +kernel⟩, ⟨by decide +kernel, by decide +kernel⟩, by decide +kernel, by decide +kernel, by decide +kernel⟩⟩

/-- States and operands that meet the hypotheses of NtpTimestampIsTheDatumRounded, clause by clause. -/
theorem witness_NtpTimestampIsTheDatumRounded : ∃ s : State, ∃ t : Instant, smearing s (s.leapAt t) = false :=
  ⟨device 2, 0, by decide +kernel⟩

/-- States and operands that meet the hypotheses of AlarmPinFollowsTheEnabledAlarms, clause by clause. -/
theorem witness_AlarmPinFollowsTheEnabledAlarms :
    (∃ s : State, s.sys.banksSet = false)
    ∧ (∃ s : State, s.sys.phase = .running ∧ s.mode ≠ mDormant ∧ s.mode ≠ mMonument ∧ s.sys.banksSet = true ∧ s.sys.bankSettling.testBit 4 = false ∧ s.rd A.SYS_ALARM_STAT &&& s.rd A.SYS_ALARM_EN ≠ 0)
    ∧ (∃ s : State, s.sys.phase = .running ∧ s.mode ≠ mDormant ∧ s.mode ≠ mMonument ∧ s.sys.banksSet = true ∧ s.sys.bankSettling.testBit 4 = false ∧ s.rd A.SYS_ALARM_STAT &&& s.rd A.SYS_ALARM_EN = 0)
    ∧ (∃ s : State, ∃ n : Nat, n < 32 ∧ Canonical s ∧ statusDriven s = true ∧ s.bit A.SYS_ALARM_EN n = true) :=
  ⟨⟨State.reset, by decide +kernel⟩,
   ⟨((device 0).wr A.SYS_ALARM_STAT 0x8000).wr A.SYS_ALARM_EN 0xFFFF, by decide +kernel, by decide +kernel, by decide +kernel, by decide +kernel, by decide +kernel, by decide +kernel⟩,
   ⟨device 2, by decide +kernel, by decide +kernel, by decide +kernel, by decide +kernel, by decide +kernel, by decide +kernel⟩,
   ⟨((device 0).wr A.SYS_ALARM_STAT 0x8000).wr A.SYS_ALARM_EN 0xFFFF, 15, by decide +kernel, ⟨by decide +kernel, by decide +kernel⟩, by decide +kernel, by decide +kernel⟩⟩

/-- States and operands that meet the hypotheses of RecordIsThirtyTwoLittleEndianBytes, clause by clause. -/
theorem witness_RecordIsThirtyTwoLittleEndianBytes :
    (∃ e : Entry, e.datum < datumMod ∧ e.src < 2 ^ 16 ∧ e.code < 2 ^ 16 ∧ e.a0 < 2 ^ 32 ∧ e.a1 < 2 ^ 32 ∧ e.a2 < 2 ^ 32 ∧ e.a3 < 2 ^ 32 ∧ e.bad = false)
    ∧ (∃ e : Entry, e.datum < datumMod ∧ e.src < 2 ^ 16 ∧ e.code < 2 ^ 16 ∧ e.a0 < 2 ^ 32 ∧ e.a1 < 2 ^ 32 ∧ e.a2 < 2 ^ 32 ∧ e.a3 < 2 ^ 32 ∧ e.bad = true) :=
  ⟨⟨{ entry0 with datum := datumMod - 1, a3 := 2 ^ 32 - 1 }, by decide +kernel, by decide +kernel, by decide +kernel, by decide +kernel, by decide +kernel, by decide +kernel, by decide +kernel, by decide +kernel⟩,
   ⟨{ entry0 with bad := true }, by decide +kernel, by decide +kernel, by decide +kernel, by decide +kernel, by decide +kernel, by decide +kernel, by decide +kernel, by decide +kernel⟩⟩

/-- States and operands that meet the hypotheses of DatumComparisonIsASignedDifference, clause by clause. -/
theorem witness_DatumComparisonIsASignedDifference :
    (∃ a : Instant, ∃ b : Instant, a < datumMod ∧ b < datumMod ∧ -(2 ^ 47 * (secUnits : Int)) ≤ (a : Int) - b ∧ (a : Int) - b < 2 ^ 47 * (secUnits : Int))
    ∧ (∃ a : Instant, ∃ b : Instant, a < datumMod ∧ b < datumMod ∧ 2 ^ 47 * (secUnits : Int) ≤ (a : Int) - b)
    ∧ (∃ a : Instant, ∃ b : Instant, a < datumMod ∧ b < datumMod ∧ (a : Int) - b < -(2 ^ 47 * (secUnits : Int))) :=
  ⟨⟨0, 2 ^ 47 * secUnits, by decide +kernel, by decide +kernel, by decide +kernel, by decide +kernel⟩,
   ⟨2 ^ 47 * secUnits, 0, by decide +kernel, by decide +kernel, by decide +kernel⟩,
   ⟨0, 2 ^ 47 * secUnits + 1, by decide +kernel, by decide +kernel, by decide +kernel⟩⟩

/-! ## Well-formedness: for each check a command that meets it and one that it refuses -/

theorem test_wellFormed_accesses :
    Instr.wellFormed (.registerWrite .mw0 4 1 0) = true ∧ Instr.wellFormed (.registerWrite .mw0 2 15 0) = false ∧ Instr.wellFormed (.registerWrite .mw0 4 0 0) = false
    ∧ Instr.wellFormed (.registerWrite .mspi 4 3 0) = false ∧ Instr.wellFormed (.readClear ⟨.mw0, 15⟩ 4) = true ∧ Instr.wellFormed (.readClear ⟨.mspi, 15⟩ 5) = false
    ∧ Instr.wellFormed (.wideValueLatchRead ⟨.mw0, 0⟩ 4) = false := by decide

theorem test_wellFormed_controlWords :
    Instr.wellFormed (.cmpDisable 0 0x80000000) = true ∧ Instr.wellFormed (.cmpDisable 0 1) = false ∧ Instr.wellFormed (.mdioCommand .mw0 0) = false
    ∧ Instr.wellFormed (.rampGo 0 0x40000000) = false ∧ Instr.wellFormed (.rampStop 0 0x80000000) = false ∧ Instr.wellFormed (.limitClear 0 1) = false
    ∧ Instr.wellFormed (.dvlRejoin 1) = false ∧ Instr.wellFormed (.tagEnable 1) = false ∧ Instr.wellFormed (.ringEnable 0 0) = false
    ∧ Instr.wellFormed (.ringDisable 0 0x80000000) = false ∧ Instr.wellFormed (.flashRead .mw0 0x80000000) = true ∧ Instr.wellFormed (.flashRead .mw0 0x90000000) = false
    ∧ Instr.wellFormed (.flashProgram .mw0 0x10000000) = false ∧ Instr.wellFormed (.flashErase .mw0 0x90000000) = false := by decide

theorem test_wellFormed_modeRequests :
    Instr.wellFormed (.modeRequestMaint .mw0 0x4D440001) = true ∧ Instr.wellFormed (.modeRequestMaint .mw0 0x4D450001) = false
    ∧ Instr.wellFormed (.modeRequestSafe .mw0 0x4D440001) = false ∧ Instr.wellFormed (.modeRequestDormant .mw0 0x4D440002) = false
    ∧ Instr.wellFormed (.modeRequestRestart .mspi 0x4D440003) = false := by decide

theorem test_wellFormed_ranges :
    Instr.wellFormed (.clientBucketFill 25165824) = false ∧ Instr.wellFormed (.gridModelRefresh 0 ⟨0, 0⟩ 0 0 false) = false ∧ Instr.wellFormed (.ptpIssue (.grant 262144) false) = false
    ∧ Instr.wellFormed (.grantExpiry 262144) = false ∧ Instr.wellFormed (.pipelineRequest 0 (.single false 2) .none) = false ∧ Instr.wellFormed (.patrolScrub (.single false 3)) = false
    ∧ Instr.wellFormed (.fbkReadseg 0 (.double true 4 .nothing)) = false ∧ Instr.wellFormed (.stakeCompensationChange 0 4 0 .mw0) = false
    ∧ Instr.wellFormed (.transitSettingChange 0 4 0 .mw0) = false ∧ Instr.wellFormed (.synRelockChange .mw0 4 0) = false ∧ Instr.wellFormed (.converterCalibrationDone 0 0 [1]) = false
    ∧ Instr.wellFormed (.heartbeatReceive true 3 ⟨0, 0, false, false, 2 ^ 32, 0, none⟩ 0) = false := by decide +kernel

theorem test_wellFormed_descriptors :
    Instr.wellFormed (.hostTxFrame 0 [desc 0] []) = true ∧ Instr.wellFormed (.hostTxFrame 0 [desc 256] []) = false ∧ Instr.wellFormed (.upRingFrameDeliver 0 [desc 256]) = false
    ∧ Instr.wellFormed (.upRingRecord 0 [desc 256]) = false ∧ Instr.wellFormed (.commandFetch 0 (desc 256) []) = false := by decide

/-! ## Single steps and values against the worked examples of the spec -/

/-- The second in which most examples of the spec lie. -/
def exampleSec : Nat := 1893456037

/-- The example of R56: 1893456037:000126000:0 under TAI-UTC 37 s is 0xF486_5700.0x0008_41EE. -/
theorem test_ntpTime : ntpTime ((device 2).set F.DTM_UTC_STAT_OFFSET 37) ((exampleSec * 1000000000 + 126000) * 65536) = 0xF4865700000841EE := by decide +kernel

/-- The example of R99: a burst against RATE 16 and BURST 4 of a client last seen 10 s before, at 400 ms (five times), 430, 470 and 540 ms. -/
def bucketAt (k : Nat) (c : Client) : Client × Bool := rateClient 16 4 ((exampleSec * 1000000000 + k * 1000000) * 65536) c
def client0 : Client := ⟨1, (msOf ((exampleSec * 1000000000 + 400 * 1000000) * 65536) + 2 ^ 32 - 10000) % 2 ^ 32, 0, false, false, false, 0, 3, 0, 0⟩
theorem test_rateClient_full : (bucketAt 400 client0).1.tokens = 96 ∧ (bucketAt 400 client0).2 = false := by decide +kernel
theorem test_rateClient_short : (bucketAt 430 { (bucketAt 400 client0).1 with tokens := 0 }).2 = true
    ∧ (bucketAt 430 { (bucketAt 400 client0).1 with tokens := 0 }).1.tokens = 15 := by decide +kernel

/-- The example of R112: P1 at 10 Gb/s, the anchor at 500 us, a spacing 1 ppm long, and an NTS response of 330 bytes on grid point 1270. A 94-byte response with
a target of ta + 4 us leaves on point 1358, at 504345:39606. -/
def gridState : State :=
  let s := ((device 2).set (F.PRT_P_CFG_SPEED 1) 1).set (F.PRT_P_STAT_LINK 1) 1
  let s := { s with dtm := s.dtm.load ((exampleSec * 1000000000 + 500123) * 65536 * 2 ^ 48) }
  let t := s.setPort 1 { s.port 1 with suspended := false, model := ⟨true, (exampleSec * 1000000000 + 500000) * 2 ^ 32, 13743909091, 0, false⟩ }
  let r := reserve t 1 1270 330
  t.setPort 1 { t.port 1 with tickets := [{ ticket0 .staked with gridK := 1270, resFrom := r.1, resTo := r.2 }] }
def staked : Option (Nat × Instant) × State :=
  assignTicket 1 ⟨.ntpBasic, 4000, (exampleSec * 1000000000 + 500123) * 65536, { env0 with tag := 0 }, 48, none⟩ gridState
theorem test_assignTicket_instant : staked.1.map (fun x => (instSec x.2, instNs x.2, instFrac x.2)) = some (exampleSec, 504345, 39606) := by decide +kernel
theorem test_assignTicket_point : (staked.2.port 1).tickets.map (·.gridK) = [1270, 1358] := by decide +kernel

/-- The example of R145: with PERIOD 24, 1,893,456,037 s lies in epoch 21,915. -/
theorem test_epochOf : epochOf ((device 2).set F.CRL_NTS_CFG_PERIOD 24) (exampleSec * secUnits) = 21915 := by decide +kernel

/-- The example of R380: a third vote event at L = 1,300 is lasting, and one at L = 800 is transient. -/
def voteAt (l : Nat) : State :=
  let e : FaultEv := ⟨.dtmVote, 0, 0, 0, 0, 0⟩
  let s := ((device 2).set (F.SYS_FLT_CFG_N 4) 3).set (F.SYS_FLT_CFG_WIN 4) 100
  let s := s.setBucket (bucketKey e) ⟨l, 0, false⟩
  match exec .faultEvent { s with flt := { s.flt with queue := [e] } } with
  | .next t => t
  | .fault _ => s
  | .refused _ => s
theorem test_faultEvent_lasting : (voteAt 1300).bit A.SYS_FLT_LATCH 4 = true ∧ (voteAt 1300).bucket (bucketKey ⟨.dtmVote, 0, 0, 0, 0, 0⟩) = ⟨0, 0, true⟩ := by decide +kernel
theorem test_faultEvent_transient : (voteAt 800).bit A.SYS_FLT_LATCH 4 = false ∧ ((voteAt 800).bucket (bucketKey ⟨.dtmVote, 0, 0, 0, 0, 0⟩)).level = 1800 := by decide +kernel

/-- The example of R330: U4 with SIZE 6, BUFSZ 8 and two slots; a 5,000-byte frame needs three slots and waits no time, so it is dropped and HEAD stays. -/
def ringU4 (l : Nat) : State :=
  let s := ((hosted.set (F.HMI_R_CFG_SIZE 4) 6).set (F.HMI_R_CFG_BUFSZ 4) 8).set (F.HMI_R_LIM_MAXFRM 4) 9600
  let s := ((s.set (F.HMI_R_CFG_EN 4) 1).set (F.HMI_R_HEAD_HEAD 4) 10).set (F.HMI_R_TAIL_TAIL 4) 12
  s.setRing 4 { s.ring 4 with queue := [⟨List.replicate l 7, false, 1, 0, 0⟩] }
def slot2048 : Desc := ⟨0x1000, 2048, 0, 0, 0, 0, 0⟩
theorem test_deliver_short : (deliverFrame 4 [slot2048, slot2048] (ringU4 5000)).get (F.HMI_R_HEAD_HEAD 4) = 10
    ∧ ((deliverFrame 4 [slot2048, slot2048] (ringU4 5000)).ring 4).queue = [] := by decide +kernel
theorem test_deliver_fits : (deliverFrame 4 [slot2048, slot2048] (ringU4 1500)).get (F.HMI_R_HEAD_HEAD 4) = 11 := by decide +kernel

/-- The example of chapter 22: two degraded units whose Datums are LOCKED claim 0xBC80 and 0xB641. -/
def unitOf (prio id : Nat) : State :=
  let s := ((device 2).set F.DVL_CFG_EN 1).set F.DVL_CFG_PRIO prio
  { (s.set F.SYS_ID_UNIT id) with dtm := { s.dtm with under := 2 } }
theorem test_claimOf_unit0 : claimOf (unitOf 200 0) = 0xBC80 := by decide +kernel
theorem test_claimOf_unit1 : claimOf (unitOf 100 1) = 0xB641 := by decide +kernel

/-- The example of the register index: the host clears LINKDOWN of P2, and LINKUP stays. -/
theorem test_writeOneToClear : (match exec (.registerWrite .mw0 (BitVec.ofNat 24 (A.PRT_IRQ_STAT 2)) 15 1) ((device 2).wr (A.PRT_IRQ_STAT 2) 3) with
    | .next t => t.rd (A.PRT_IRQ_STAT 2)
    | .fault _ => 0
    | .refused _ => 0) = 2 := by decide +kernel

/-- The check value of CRC-32 for "123456789". -/
theorem test_crc32 : crc32 [0x31, 0x32, 0x33, 0x34, 0x35, 0x36, 0x37, 0x38, 0x39] = 0xCBF43926 := by decide +kernel

end Sys2Proof.Tests
end

/-! Register accesses: what the count of an access leaves alone, what each branch of a write does, and what a read answers and leaves (R8-R14, R400). -/
section
namespace Sys2Proof.Machine

/-! ## The count of an access -/

/-- Above the performance monitor's block no event touches a register. -/
theorem eventReg_above {a : Nat} (h : 0x21000 ≤ a) : eventReg a = false := by
  simp only [eventReg, A.SYS_ALARM_STAT, A.FBK_LOST_CNT, Bool.or_eq_false_iff, decide_eq_false_iff_not]
  omega

theorem ChangesOnly.latches {R : Nat → Bool} {s t : State} (h : ChangesOnly R s t) (p : Path) : t.latches p = s.latches p := by
  cases p
  · exact h.latchMw0
  · exact h.latchMspi

/-- A register that no event touches keeps its word over the count of an access. -/
theorem countAccess_rd (p : Path) (s : State) {a : Nat} (h : eventReg a = false) : (countAccess p s).rd a = s.rd a :=
  (countAccess_frame (fun _ => false) p s).regs a rfl h

theorem countAccess_brought (p : Path) (s : State) {a : Nat} (h : eventReg a = false) : (countAccess p s).brought a = s.brought a :=
  (countAccess_frame (fun _ => false) p s).mclk a rfl h

theorem countAccess_bit (p : Path) (s : State) {a : Nat} (i : Nat) (h : eventReg a = false) : (countAccess p s).bit a i = s.bit a i := by
  unfold State.bit; rw [countAccess_rd p s h]

@[simp] theorem countAccess_sys (p : Path) (s : State) : (countAccess p s).sys = s.sys := (countAccess_frame (fun _ => false) p s).sys

@[simp] theorem countAccess_latches (p q : Path) (s : State) : (countAccess p s).latches q = s.latches q :=
  (countAccess_frame (fun _ => false) p s).latches q

@[simp] theorem countAccess_mode (p : Path) (s : State) : (countAccess p s).mode = s.mode :=
  (countAccess_frame (fun _ => false) p s).get _ rfl (by decide)

@[simp] theorem countAccess_granted (p : Path) (s : State) (a : Nat) : granted (countAccess p s) a = granted s a := by
  unfold granted
  split
  · rw [countAccess_bit p s _ (by decide), countAccess_bit p s _ (by decide)]
  · rfl

theorem countAccess_sorted (p : Path) {s : State} (h : s.regs.sorted = true) : (countAccess p s).regs.sorted = true := (countAccess_pmcOnly p s).sorted h

/-! ## Writes that the device admits -/

theorem Admits.opened_counted {s : State} (h : Admits s) (p : Path) : (countAccess p s).sys.writesOpen = true := by
  rw [countAccess_sys, h.opened]

/-- A write that the device admits reaches the registers with its access counted. -/
theorem hostWrite_admitted {s : State} (p : Path) (a be : Nat) (v : Word) (h : Admits s) : hostWrite p a be v s = writeAccess p a be v (countAccess p s) := by
  unfold hostWrite
  rw [h.accessible, if_neg (by decide)]

/-- A PCIe write of less than a whole register (R13). -/
theorem writeAccess_partial {s : State} {a be : Nat} (v : Word) (ho : s.sys.writesOpen = true) (hf : (findRow a).isSome = true) (hb : be ≠ 15) :
    writeAccess .mw0 a be v s = (0, record 0x0001 a be 0 0 s) := by
  unfold writeAccess
  rw [if_neg (by rw [ho]; decide), if_pos ⟨rfl, hb, .inl hf⟩]

theorem liveOff_image (s : State) {a : Nat} {r : RegRow} (hf : findRow a = some r) (hi : r.image = true) : liveOff s a = false := by
  have : isImage a = true := by unfold isImage; rw [hf]; exact hi
  unfold liveOff
  rw [this, Bool.not_true, Bool.and_false]

/-- A full write of a register of the image, of a word that waits for no other. -/
theorem writeAccess_image {s : State} {p : Path} {a : Nat} {r : RegRow} (v : Word) (ho : s.sys.writesOpen = true) (hm : inMsix a = false) (hb : inPba a = false)
    (hf : findRow a = some r) (hi : r.image = true) (hw : waits r a = false) : writeAccess p a 15 v s = imageWrite p r a v s := by
  have hl := liveOff_image s hf hi
  unfold writeAccess
  simp [ho, hm, hb, hf, hi, hw, hl]

@[simp] theorem dropCopies_rd (p : Path) (l : List Nat) (s : State) (a : Nat) : (dropCopies p l s).rd a = s.rd a := by cases p <;> rfl

/-- Outside MAINT and without a grant a write of an image register is not permitted (R14, R358). -/
theorem denyReason_some {s : State} {a : Nat} (v : Word) (hm : s.mode ≠ mMaint) (hg : granted s a = false) :
    ∃ k, (k = 1 ∨ k = 2) ∧ denyReason s a v = some k := by
  unfold denyReason
  rw [if_neg hm, if_neg (show ¬granted s a = true by rw [hg]; decide)]
  split_ifs
  · exact ⟨2, .inr rfl, rfl⟩
  · exact ⟨2, .inr rfl, rfl⟩
  · exact ⟨2, .inr rfl, rfl⟩
  · exact ⟨1, .inl rfl, rfl⟩

/-- A write of a one-word image register that is not permitted, of a register with no owner: its record and its event (R14). -/
theorem imageWrite_denied {s : State} {p : Path} {r : RegRow} {a : Nat} {v : Word} {k : Nat} (hr : r.words = 1) (hw : ownedWhole s a = false)
    (hp : ownedPart s a = false) (hd : denyReason s a v = some k) :
    imageWrite p r a v s = (3, pmcEvent 0 0x08 0x80 1 (record 0x0002 a v.toNat k (pathCode p) (dropCopies p [] s))) := by
  have hc : commitWords p r a v s = [(a, v)] := by unfold commitWords; rw [hr]; rfl
  unfold imageWrite
  rw [hc, hd, hw, hp]
  simp

/-! ## The plain write of a live register -/

/-- The vectors that a register write signals touch only the performance monitor. -/
theorem withAllGroups_pmcOnly (f : State → State) (s : State) : PmcOnly (f s) (withAllGroups f s) := by
  have step : ∀ (l : List Nat) (u : State), PmcOnly (f s) u →
      PmcOnly (f s) (l.foldl (fun (u : State) (g : Nat) => if groupEnabled (f s) g && !groupEnabled s g then signalVector (32 + g) u else u) u) := by
    intro l
    induction l with
    | nil => exact fun _ hu => hu
    | cons g l ih =>
      intro u hu
      refine ih _ ?_
      dsimp only
      split
      · exact hu.trans (.signal _ u)
      · exact hu
  exact step _ _ (.refl _)

theorem ChangesOnly.withAllGroups {R : Nat → Bool} {b s : State} {f : State → State} (h : ChangesOnly R b (f s)) :
    ChangesOnly R b (withAllGroups f s) :=
  ChangesOnly.foldl (fun _ _ _ hu => .ite (hu.signalVector _) hu) h

theorem PmcOnly.rd {s t : State} (h : PmcOnly s t) {a : Nat} (he : eventReg a = false) : t.rd a = s.rd a :=
  h.regs a fun hp => by simp [eventReg, hp] at he

theorem regWrite_row {a : Nat} {r : RegRow} (v : Word) (s : State) (hf : findRow a = some r) :
    regWrite a v s = s.wr a (r.written (s.brought a) (s.rd a) v) := by
  unfold regWrite; rw [hf]

/-- A plain write stores what the access codes make of the written word (R9, R11). -/
theorem plainWrite_rd {a : Nat} {r : RegRow} (v : Word) {s : State} (hf : findRow a = some r) (he : eventReg a = false) (hs : s.regs.sorted = true) :
    (plainWrite a v s).rd a = r.written (s.brought a) (s.rd a) v := by
  unfold plainWrite
  rw [(withAllGroups_pmcOnly _ s).rd he, regWrite_row v s hf, State.rd_wr_same _ _ _ hs]

/-- A plain write changes no other register. -/
theorem plainWrite_frame {a : Nat} {r : RegRow} (v : Word) (s : State) (hf : findRow a = some r) :
    ChangesOnly (fun i => decide (i = a)) s (plainWrite a v s) := by
  refine ChangesOnly.withAllGroups ?_
  rw [regWrite_row v s hf]
  exact (ChangesOnly.refl _ s).wr a _ (.inl (decide_eq_true rfl))

/-! ## The commands that write -/

/-- A full write through REGISTER_WRITE at a word's own address is the write of that register. -/
theorem exec_registerWrite_full (p : Path) {addr : BitVec 24} (v : Word) (s : State) (h : addr.toNat % 4 = 0) :
    exec (.registerWrite p addr 15 v) s = regCommand p addr.toNat v s := by
  show Host.Outcome.next (hostWrite p (addr.toNat / 4 * 4) 15 v s).2 = _
  rw [Nat.div_mul_cancel (Nat.dvd_of_mod_eq_zero h)]
  rfl

/-- The first write of SYS_LIVELOCK after a release stores its bits and locks it (R358). -/
theorem livelockWrite_first (v : Word) {s : State} (h : s.sys.liveLocked = false) :
    livelockWrite v s = { (s.wr A.SYS_LIVELOCK (v &&& 0x80007FFF)) with sys := { s.sys with liveLocked := true } } := by
  unfold livelockWrite
  rw [h]
  rfl

theorem livelockWrite_locked (v : Word) {s : State} (h : s.sys.liveLocked = true) : livelockWrite v s = s := by
  unfold livelockWrite
  rw [if_pos h]

/-- LIVELOCK_WRITE reaches the action of SYS_LIVELOCK. -/
theorem exec_livelockWrite_admitted {s : State} (p : Path) (v : Word) (h : Admits s) : exec (.livelockWrite p v) s = .next (livelockWrite v (countAccess p s)) :=
  regCommand_hook v h (by decide +kernel) (liveOff_none s (by decide)) (i := 2) (by cases p <;> decide +kernel) rfl

/-! ## Reads -/

/-- A read that is performed sends its word, cut to the bytes addressed (R13). -/
theorem readCommand_accessible {p : Path} {a be : Nat} {s : State} (h : accessible s = true) :
    readCommand p a be s = .next ((hostRead p a s).2.emit (.read (pathCode p) a be ((hostRead p a s).1 &&& byteMask be))) := by
  unfold readCommand
  rw [if_pos h]

/-- A read of a word whose read prepares nothing. -/
theorem hostRead_unprepared {p : Path} {a : Nat} {s : State} (h : readPrepare a s = s) :
    hostRead p a s = (readWord p a s, countAccess p (readEffect p a s)) := by
  unfold hostRead; rw [h]

theorem viewWord_unassigned (s : State) {a : Nat} (hf : findRow a = none) (hm : inMsix a = false) (hb : inPba a = false) : viewWord s a = 0 := by
  unfold viewWord
  rw [hm, hb, hf]
  simp

theorem readWord_unassigned (p : Path) (s : State) {a : Nat} (hf : findRow a = none) : readWord p a s = viewWord s a := by
  unfold readWord; rw [hf]

theorem readWord_lowest (p : Path) (s : State) {a : Nat} {r : RegRow} (hf : findRow a = some r) (h0 : r.word = 0) : readWord p a s = viewWord s a := by
  unfold readWord
  rw [hf]
  exact if_pos (.inr h0)

/-- A higher word is read from the latch of its path (R12). -/
theorem readWord_latched {p : Path} {s : State} {a : Nat} {r : RegRow} {w : Word} (hf : findRow a = some r) (h0 : r.word ≠ 0) (hl : liveOff s a = false)
    (hg : (s.latches p).get a = some w) : readWord p a s = w := by
  unfold readWord
  rw [hf]
  dsimp only
  rw [if_neg (by rw [hl]; simp [h0]), hg]
  rfl

theorem readEffect_unassigned (p : Path) (s : State) {a : Nat} (hf : findRow a = none) : readEffect p a s = s := by
  unfold readEffect
  rw [hf]
  simp

@[simp] theorem State.setLatches_latches (s : State) (p : Path) (m : Map Word) : (s.setLatches p m).latches p = m := by cases p <;> rfl
@[simp] theorem State.setLatches_rd (s : State) (p : Path) (m : Map Word) (a : Nat) : (s.setLatches p m).rd a = s.rd a := by cases p <;> rfl
@[simp] theorem State.setLatches_brought (s : State) (p : Path) (m : Map Word) (a : Nat) : (s.setLatches p m).brought a = s.brought a := by cases p <;> rfl
@[simp] theorem State.wr_latches (s : State) (p : Path) (a : Nat) (v : Word) : (s.wr a v).latches p = s.latches p := by cases p <;> rfl
@[simp] theorem State.emit_latches (s : State) (p : Path) (e : Emission) : (s.emit e).latches p = s.latches p := by cases p <;> rfl

@[simp] theorem latchWords_rd (p : Path) (r : RegRow) (a i : Nat) (s : State) : (latchWords p r a s).rd i = s.rd i := by
  unfold latchWords; split <;> simp

@[simp] theorem latchWords_brought (p : Path) (r : RegRow) (a i : Nat) (s : State) : (latchWords p r a s).brought i = s.brought i := by
  unfold latchWords; split <;> simp

/-- A value of one word latches nothing. -/
theorem latchWords_single (p : Path) {r : RegRow} (a : Nat) (s : State) (h : r.words = 1) : latchWords p r a s = s := by
  unfold latchWords
  rw [if_neg (by omega)]

/-- What a fold of stores at distinct keys leaves at each of them. -/
theorem Map.get_foldl_put {α : Type} (key : Nat → Nat) (hk : Function.Injective key) (val : Nat → α) (m : Map α) {n k : Nat} (h : k < n) :
    ((List.range n).foldl (fun (m : Map α) (i : Nat) => m.put (key i) (val i)) m).get (key k) = some (val k) := by
  induction n with
  | zero => omega
  | succ n ih =>
    rw [List.range_succ, List.foldl_append]
    by_cases e : k = n
    · subst e; exact Map.get_put_same _ _ _
    · exact (Map.get_put_other _ _ _ _ fun c => e (hk c)).trans (ih (by omega))

/-- A read of the lowest word latches every higher word as it then reads (R12). -/
theorem latchWords_get (p : Path) {r : RegRow} (a : Nat) (s : State) (h0 : r.word = 0) {k : Nat} (h1 : 1 ≤ k) (hk : k < r.words) :
    ((latchWords p r a s).latches p).get (a + 4 * k) = some (viewWord s (a + 4 * k)) := by
  obtain ⟨j, rfl⟩ : ∃ j, k = j + 1 := ⟨k - 1, by omega⟩
  unfold latchWords
  rw [if_pos ⟨by omega, h0⟩, State.setLatches_latches]
  exact Map.get_foldl_put (fun i => a + 4 * (i + 1)) (fun i j e => by simp only at e; omega) (fun i => viewWord s (a + 4 * (i + 1))) _ (by omega)

/-- What a read leaves: the latched words, and the rc fields cleared (R9, R12). -/
theorem readEffect_row (p : Path) {s : State} {a : Nat} {r : RegRow} (hf : findRow a = some r) (hl : liveOff s a = false) :
    readEffect p a s = (latchWords p r a s).wr a (r.cleared (s.brought a) (s.rd a)) := by
  unfold readEffect
  rw [hl, hf, if_neg (by decide)]
  dsimp only
  rw [latchWords_rd, latchWords_brought]

/-- After a read of the lowest word the path holds every higher word as it was read (R12). -/
theorem hostRead_latches (p : Path) {s : State} {a : Nat} {r : RegRow} (hf : findRow a = some r) (h0 : r.word = 0) (hl : liveOff s a = false)
    (hp : readPrepare a s = s) {k : Nat} (h1 : 1 ≤ k) (hk : k < r.words) :
    ((hostRead p a s).2.latches p).get (a + 4 * k) = some (viewWord s (a + 4 * k)) := by
  rw [hostRead_unprepared hp, countAccess_latches, readEffect_row p hf hl, State.wr_latches]
  exact latchWords_get p a s h0 h1 hk

/-- A row without rc fields is read without effect. -/
theorem RegRow.cleared_of_no_rc {r : RegRow} (h : ∀ f ∈ r.fields, f.acc ≠ .rc) (brought old : Word) : r.cleared brought old = old := by
  unfold RegRow.cleared
  generalize r.fields = l at h
  induction l with
  | nil => rfl
  | cons f l ih =>
    rw [List.foldl_cons]
    have hf := h f List.mem_cons_self
    have hl := ih fun g hg => h g (List.mem_cons_of_mem f hg)
    cases e : f.acc with
    | rc => exact absurd e hf
    | ro | rw | w1c | wo | ws => exact hl

end Sys2Proof.Machine
end

/-! The statistics results that a read of TRN_CHn_RES_SEQ latches, and what a performed read of a row or of RES_SEQ sends (R9, R12, R13, R232). -/
section
namespace Sys2Proof.Machine

/-! ## 64-bit values beside a field -/

theorem State.rd_set64_other (s : State) {a i : Nat} (v : Nat) (h : i ≠ a) (h4 : i ≠ a + 4) : (s.set64 a v).rd i = s.rd i := by
  unfold State.set64
  rw [State.rd_wr_other _ _ _ _ h4, State.rd_wr_other _ _ _ _ h]

theorem State.get_set64_other (s : State) {a : Nat} (v : Nat) (g : Fld) (h : g.addr ≠ a) (h4 : g.addr ≠ a + 4) : (s.set64 a v).get g = s.get g := by
  unfold State.get
  rw [State.rd_set64_other s v h h4]

theorem State.get64_set_other (s : State) (f : Fld) (x : Nat) {a : Nat} (h : a ≠ f.addr) (h4 : a + 4 ≠ f.addr) : (s.set f x).get64 a = s.get64 a := by
  unfold State.get64
  rw [State.rd_set_other s f x a h, State.rd_set_other s f x (a + 4) h4]

theorem ofSigned_lt (w : Nat) (x : Int) : ofSigned w x < 2 ^ w := by
  have h0 := Int.emod_nonneg x (b := ((2 ^ w : Nat) : Int)) (by positivity)
  have h1 := Int.emod_lt_of_pos x (b := ((2 ^ w : Nat) : Int)) (by positivity)
  unfold ofSigned
  omega

/-! ## The result set that a read of RES_SEQ latches (R232) -/

/-- A read of RES_SEQ of a channel prepares its latest result set. -/
theorem readPrepare_resSeq (ch : Fin 24) (s : State) : readPrepare (A.TRN_CH_RES_SEQ ch) s = resLatch ch (s.chan ch).latest s := by
  have hi : idxAt (A.TRN_CH_RES_SEQ 0) 0x100 24 (A.TRN_CH_RES_SEQ ch) = some ch.val := by
    have hb := ch.isLt
    have hd : (A.TRN_CH_RES_SEQ ch - A.TRN_CH_RES_SEQ 0) / 0x100 = ch.val := by simp only [A.TRN_CH_RES_SEQ]; omega
    unfold idxAt
    rw [hd, if_pos ⟨by simp only [A.TRN_CH_RES_SEQ]; omega, by simp only [A.TRN_CH_RES_SEQ]; omega, hb⟩]
  unfold readPrepare
  rw [hi]
  exact dif_pos ch.isLt

theorem resLatch_sorted (n : Nat) (r : TrnResult) {s : State} (h : s.regs.sorted = true) : (resLatch n r s).regs.sorted = true := by
  unfold resLatch
  exact State.set_sorted _ _ _ (State.set64_sorted _ _ _ (State.set64_sorted _ _ _ (State.set64_sorted _ _ _ (State.set_sorted _ _ _ (State.set_sorted _ _ _ h)))))

theorem resLatch_seq (n : Nat) (r : TrnResult) {s : State} (h : s.regs.sorted = true) :
    (resLatch n r s).get (F.TRN_CH_RES_SEQ_SEQ n) = r.seq % 2 ^ 32 := by
  unfold resLatch
  dsimp only
  rw [State.get_set_addr, State.get_set64_other, State.get_set64_other, State.get_set64_other, State.get_set_addr,
    State.get_set_same _ _ _ h (show 0 + 32 ≤ 32 by decide)]
  all_goals simp only [A.TRN_CH_RES_SEQ, A.TRN_CH_RES_DEV, A.TRN_CH_RES_MEAN_W0, A.TRN_CH_RES_MIN_W0, A.TRN_CH_RES_MAX_W0, A.TRN_CH_RES_N]; omega

theorem resLatch_n (n : Nat) (r : TrnResult) {s : State} (h : s.regs.sorted = true) : (resLatch n r s).get (F.TRN_CH_RES_N_N n) = r.n % 2 ^ 25 := by
  unfold resLatch
  exact State.get_set_same _ _ _
    (State.set64_sorted _ _ _ (State.set64_sorted _ _ _ (State.set64_sorted _ _ _ (State.set_sorted _ _ _ (State.set_sorted _ _ _ h)))))
    (show 0 + 25 ≤ 32 by decide)

theorem resLatch_mean (n : Nat) (r : TrnResult) {s : State} (h : s.regs.sorted = true) :
    (resLatch n r s).get64 (A.TRN_CH_RES_MEAN_W0 n) = ofSigned 64 r.mean := by
  unfold resLatch
  dsimp only
  rw [State.get64_set_other, State.set64_get64_other, State.set64_get64_other,
    State.set64_get64 _ _ _ (State.set_sorted _ _ _ (State.set_sorted _ _ _ h)), Nat.mod_eq_of_lt (ofSigned_lt 64 _)]
  all_goals simp only [A.TRN_CH_RES_MEAN_W0, A.TRN_CH_RES_MIN_W0, A.TRN_CH_RES_MAX_W0, A.TRN_CH_RES_N]; omega

/-- RES_SEQ is a register of one word, whose read clears nothing. -/
theorem resSeq_row (ch : Fin 24) : ∃ r, findRow (A.TRN_CH_RES_SEQ ch) = some r ∧ r.word = 0 ∧ r.words = 1 ∧ ∀ f ∈ r.fields, f.acc ≠ .rc := by
  have table : ∀ ch : Fin 24, (findRow (A.TRN_CH_RES_SEQ ch)).any
      (fun r => decide (r.word = 0 ∧ r.words = 1 ∧ ∀ f ∈ r.fields, f.acc ≠ .rc)) = true := by decide +kernel
  obtain ⟨r, hf, hr⟩ := (Option.any_eq_true ..).mp (table ch)
  exact ⟨r, hf, of_decide_eq_true hr⟩

theorem resSeq_liveOff (s : State) (ch : Fin 24) : liveOff s (A.TRN_CH_RES_SEQ ch) = false := by
  have table : ∀ ch : Fin 24, regDomain (A.TRN_CH_RES_SEQ ch) = none := by decide +kernel
  exact liveOff_none s (table ch)

/-! ## Reads as commands -/

/-- A read of one register that is performed: what it sends, and the state that the access leaves. -/
theorem readCommand_row (p : Path) {a be : Nat} {s : State} {r : RegRow} (h : accessible s = true) (hf : findRow a = some r) (h0 : r.word = 0)
    (hl : liveOff s a = false) (hp : readPrepare a s = s) :
    readCommand p a be s = .next ((countAccess p ((latchWords p r a s).wr a (r.cleared (s.brought a) (s.rd a)))).emit
      (.read (pathCode p) a be (viewWord s a &&& byteMask be))) := by
  rw [readCommand_accessible h, hostRead_unprepared hp, readEffect_row p hf hl, readWord_lowest p s hf h0]

/-- A read of RES_SEQ that is performed shows the latest result set. -/
theorem readCommand_resSeq (p : Path) (be : Nat) (ch : Fin 24) {s : State} (h : accessible s = true) :
    readCommand p (A.TRN_CH_RES_SEQ ch) be s
      = let u := resLatch ch (s.chan ch).latest s
        .next ((countAccess p (u.wr (A.TRN_CH_RES_SEQ ch) (u.rd (A.TRN_CH_RES_SEQ ch)))).emit
          (.read (pathCode p) (A.TRN_CH_RES_SEQ ch) be (viewWord u (A.TRN_CH_RES_SEQ ch) &&& byteMask be))) := by
  obtain ⟨r, hf, h0, h1, hrc⟩ := resSeq_row ch
  rw [readCommand_accessible h]
  unfold hostRead
  dsimp only
  rw [readPrepare_resSeq, readEffect_row p hf (resSeq_liveOff _ ch), readWord_lowest p _ hf h0, latchWords_single p _ _ h1, r.cleared_of_no_rc hrc]

/-- A register that is stored with its own word keeps every register. -/
theorem State.rd_wr_self (s : State) (a i : Nat) (hs : s.regs.sorted = true) : (s.wr a (s.rd a)).rd i = s.rd i := by
  by_cases h : i = a
  · subst h; exact State.rd_wr_same s i _ hs
  · exact State.rd_wr_other s a i _ h

end Sys2Proof.Machine
end

/-! Compare units: their commands reach their actions, what a commit loads, and what a quiet firing does (R71, R72). -/
section
namespace Sys2Proof.Machine

/-- CMP_COMMIT reaches the commit of its unit. -/
theorem exec_cmpCommit_admitted {s : State} (p : Path) (n : Fin 16) (w0 : Word) (h : Admits s) :
    exec (.cmpCommit p n w0) s = .next (cmpCommit p n w0 (countAccess p s)) := by
  have hrow : ∀ n : Fin 16, liveRow (A.DTM_CMP_TGT_W0 n) = true := by decide +kernel
  have hdom : ∀ n : Fin 16, regDomain (A.DTM_CMP_TGT_W0 n) = none := by decide +kernel
  have hook : ∀ (p : Path) (n : Fin 16), hookIndex p (A.DTM_CMP_TGT_W0 n) = some 13 := by intro p; cases p <;> decide +kernel
  have hn : (A.DTM_CMP_TGT_W0 n - A.DTM_CMP_TGT_W0 0) / 0x20 = n.val := by simp only [A.DTM_CMP_TGT_W0]; omega
  have key := regCommand_hook w0 h (hrow n) (liveOff_none s (hdom n)) (hook p n) rfl
  rw [hn] at key
  exact key

/-- CMP_DISABLE reaches the write of its unit's CTL, with EN 0. -/
theorem exec_cmpDisable_admitted {s : State} (n : Fin 16) (v : Word) (h : Admits s) :
    exec (.cmpDisable n v) s = .next (cmpCtlWrite n (v &&& 0xFFFFFFFE) (countAccess .mw0 s)) := by
  have hrow : ∀ n : Fin 16, liveRow (A.DTM_CMP_CTL n) = true := by decide +kernel
  have hdom : ∀ n : Fin 16, regDomain (A.DTM_CMP_CTL n) = none := by decide +kernel
  have hook : ∀ n : Fin 16, hookIndex .mw0 (A.DTM_CMP_CTL n) = some 12 := by decide +kernel
  have hn : (A.DTM_CMP_CTL n - A.DTM_CMP_CTL 0) / 0x20 = n.val := by simp only [A.DTM_CMP_CTL]; omega
  have key := regCommand_hook (v &&& 0xFFFFFFFE) h (hrow n) (liveOff_none s (hdom n)) (hook n) rfl
  rw [hn] at key
  exact key

/-- A commit of a unit that the pair does not own and that does not fire on this edge loads its words. -/
theorem cmpCommit_free {s : State} (p : Path) {n : Nat} (w0 : Word) (ho : cmpOwned s n = false) (hd : cmpDue s n = false) :
    cmpCommit p n w0 s = cmpLoad p n w0 s := by
  unfold cmpCommit
  rw [ho, hd, if_neg (by decide), if_neg (by decide)]

/-- A commit with an NS word out of range loads nothing (R46, R72). -/
theorem cmpLoad_badval {s : State} (p : Path) {n : Nat} (w0 : Word)
    (h : 1000000000 ≤ (s.copyOr p (A.DTM_CMP_TGT_W0 n + 4)).toNat % 2 ^ 30 ∨ 1000000000 ≤ (s.copyOr p (A.DTM_CMP_PER_W0 n + 4)).toNat % 2 ^ 30) :
    cmpLoad p n w0 s = (dropCopies p [A.DTM_CMP_TGT_W0 n + 4, A.DTM_CMP_TGT_W0 n + 8, A.DTM_CMP_TGT_W0 n + 12, A.DTM_CMP_PER_W0 n, A.DTM_CMP_PER_W0 n + 4,
      A.DTM_CMP_PER_W0 n + 8] s).strike (F.DTM_CMP_CTL_BADVAL n) := by
  unfold cmpLoad
  exact if_pos h

/-- A period that is 0 or at least 1 us is not raised (R72). -/
theorem period_not_short {per : Nat} (h : per = 0 ∨ 65536000 ≤ per) : decide (0 < per ∧ per < 1000 * 65536) = false :=
  decide_eq_false (by omega)

/-- A commit in range, of a period that is 0 or at least 1 us, loads the target and the period and arms an enabled unit (R72). -/
theorem cmpLoad_inRange {s : State} (p : Path) {n : Nat} (w0 : Word) (ht : (s.copyOr p (A.DTM_CMP_TGT_W0 n + 4)).toNat % 2 ^ 30 < 1000000000)
    (hq : (s.copyOr p (A.DTM_CMP_PER_W0 n + 4)).toNat % 2 ^ 30 < 1000000000) :
    let g := A.DTM_CMP_TGT_W0 n
    let q := A.DTM_CMP_PER_W0 n
    let per := wordsInstant (s.copyOr p q) (s.copyOr p (q + 4)) (s.copyOr p (q + 8) &&& 0xFFFF) 0
    let e := ((((dropCopies p [g + 4, g + 8, g + 12, q, q + 4, q + 8] s).setDatum g
      (wordsInstant w0 (s.copyOr p (g + 4)) (s.copyOr p (g + 8)) (s.copyOr p (g + 12)))).wr q (s.copyOr p q &&& 0xFFFF)).wr (q + 4)
      (s.copyOr p (q + 4) &&& 0x3FFFFFFF)).wr (q + 8) (s.copyOr p (q + 8) &&& 0xFFFF)
    let a := if e.on (F.DTM_CMP_CTL_EN n) then e.set (F.DTM_CMP_CTL_ARMED n) 1 else e
    per = 0 ∨ 65536000 ≤ per → cmpLoad p n w0 s = synthChanged (setLate n (cmpReached a n) a) := by
  intro g q per e a hp
  unfold cmpLoad
  dsimp only
  rw [if_neg (not_or.mpr ⟨Nat.not_le.mpr ht, Nat.not_le.mpr hq⟩), period_not_short hp]
  rfl

/-- What a firing in time does before its output, its interrupt and its record: the target moves on or the unit is disarmed, and the event counts. -/
def cmpMoved (n : Nat) (s : State) : State :=
  pmcEvent 8 0x04 n 1 (if cmpPeriod s n = 0 then (setLate n false s).set (F.DTM_CMP_CTL_ARMED n) 0
    else (setLate n false s).setDatum (A.DTM_CMP_TGT_W0 n) (instAdd (cmpTarget s n) (cmpPeriod s n)))

/-- A register outside the four words of a Datum value keeps its word. -/
theorem State.rd_setDatum_other (s : State) {a i : Nat} (t : Instant) (h : i < a ∨ a + 12 < i) : (s.setDatum a t).rd i = s.rd i := by
  unfold State.setDatum
  dsimp only
  rw [State.rd_wr_other _ _ _ _ (by omega), State.rd_wr_other _ _ _ _ (by omega), State.rd_wr_other _ _ _ _ (by omega),
    State.rd_wr_other _ _ _ _ (by omega)]

/-- A firing leaves the fields of CTL below ARMED as they are. -/
theorem cmpMoved_ctl {s : State} (n : Nat) (hs : s.regs.sorted = true) {f : Fld} (ha : f.addr = A.DTM_CMP_CTL n) (hf : f.lsb + f.width ≤ 15) :
    (cmpMoved n s).get f = s.get f := by
  have he : eventReg f.addr = false := eventReg_above (by rw [ha]; simp only [A.DTM_CMP_CTL]; omega)
  have hpmc : ∀ u, (pmcEvent 8 0x04 n 1 u).get f = u.get f := fun u =>
    ((ChangesOnly.refl (fun _ => false) u).pmcEvent 8 0x04 n 1 (by decide)).get f rfl he
  unfold cmpMoved
  rw [hpmc]
  split
  · exact State.get_set_bits (setLate n false s) (F.DTM_CMP_CTL_ARMED n) f 0 hs ha (show 15 + 1 ≤ 32 by decide) (.inl hf)
  · unfold State.get
    rw [State.rd_setDatum_other _ _ (.inl (by rw [ha]; simp only [A.DTM_CMP_CTL, A.DTM_CMP_TGT_W0]; omega))]
    rfl

/-- A firing in time, with no output, interrupt or record asked for (R71, R72). -/
theorem cmpFire_quiet {s : State} {n : Nat} (hs : s.regs.sorted = true) (hl : s.dtm.cmpLate.testBit n = false)
    (ho : (s.on (F.DTM_CMP_CTL_OUTEN n) && decide (s.get (F.DTM_CMP_CTL_OUTSEL n) < 12)) = false) (hi : s.on (F.DTM_CMP_CTL_IRQ n) = false)
    (hf : s.on (F.DTM_CMP_CTL_FBK n) = false) : cmpFire n s = cmpMoved n s := by
  have on : ∀ f : Fld, f.addr = A.DTM_CMP_CTL n → f.lsb + f.width ≤ 15 → (cmpMoved n s).on f = s.on f := fun f ha hb => by
    unfold State.on; rw [cmpMoved_ctl n hs ha hb]
  rw [← on (F.DTM_CMP_CTL_OUTEN n) rfl (show 12 + 1 ≤ 15 by decide), ← cmpMoved_ctl (f := F.DTM_CMP_CTL_OUTSEL n) n hs rfl (show 8 + 4 ≤ 15 by decide)] at ho
  rw [← on (F.DTM_CMP_CTL_IRQ n) rfl (show 1 + 1 ≤ 15 by decide)] at hi
  rw [← on (F.DTM_CMP_CTL_FBK n) rfl (show 2 + 1 ≤ 15 by decide)] at hf
  unfold cmpFire
  unfold cmpMoved at ho hi hf ⊢
  simp only [hl, ho, hi, hf, Bool.false_eq_true, if_false]

theorem exec_cmpFired (n : Fin 16) (s : State) : exec (.cmpFired n) s = .next (if cmpDue s n then cmpFire n s else s) := rfl

end Sys2Proof.Machine
end

/-! The statements of 00_scope and of the compare units. -/
section
namespace Sys2Proof.Machine

/-- Settles O8: no row, so no view, no effect and no write. -/
theorem unassignedAddressReadsZeroAndIgnoresWrites : Obligations.UnassignedAddressReadsZeroAndIgnoresWrites := by
  intro p a v s hf hm hb hp
  rw [hostRead_unprepared hp]
  have word : readWord p a s = 0 := (readWord_unassigned p s hf).trans (viewWord_unassigned s hf hm hb)
  have effect : countAccess p (readEffect p a s) = countAccess p s := congrArg _ (readEffect_unassigned p s hf)
  exact ⟨word, effect, fun ha => Host.Outcome.next.inj (regCommand_none p v ha hf hm hb)⟩

/-- Settles O9: the branch of R13, and a record's frame. -/
theorem partialPcieWriteIsDiscardedAndRecorded : Obligations.PartialPcieWriteIsDiscardedAndRecorded := by
  intro addr be v s ha hf hb
  have hbe : be.toNat ≠ 15 := fun e => hb (BitVec.eq_of_toNat_eq e)
  have key : exec (.registerWrite .mw0 addr be v) s = .next (record 0x0001 (addr.toNat / 4 * 4) be.toNat 0 0 (countAccess .mw0 s)) := by
    show Host.Outcome.next (hostWrite .mw0 (addr.toNat / 4 * 4) be.toNat v s).2 = _
    rw [hostWrite_admitted _ _ _ v ha, writeAccess_partial v (ha.opened_counted _) hf hbe]
  refine ⟨key, fun t ht => ?_⟩
  obtain rfl := Host.Outcome.next.inj (key.symm.trans ht)
  exact (countAccess_frame _ .mw0 s).record _ _ _ _ _

/-- Settles O10: the counted access keeps the register and what events brought, and the plain write stores what the access codes say. -/
theorem liveRegisterWriteActsByItsAccessCodes : Obligations.LiveRegisterWriteActsByItsAccessCodes := by
  intro p addr v s r ha hc h4 hf hr hl hi hs he
  refine ⟨plainWrite addr.toNat v (countAccess p s), ?_, ?_, ?_⟩
  · rw [exec_registerWrite_full p v s h4, regCommand_live p _ v ha hr hl, liveWrite_plain v _ hs hi]
  · rw [plainWrite_rd v hf he (countAccess_sorted p (regsWf_sorted hc.1)), countAccess_brought p s he, countAccess_rd p s he]
  · exact (countAccess_frame _ p s).trans (plainWrite_frame v _ hf)

/-- Settles O11: neither the mode nor a grant permits the write, so it ends in the record and its event. -/
theorem imageWriteNeedsMaintOrAGrant : Obligations.ImageWriteNeedsMaintOrAGrant := by
  intro p addr v s r ha h4 hf hi h1 hw hm hb hmode hg howned hpart he
  obtain ⟨k, hk, hd⟩ := denyReason_some (s := countAccess p s) v (by rwa [countAccess_mode]) (by rwa [countAccess_granted])
  refine ⟨_, k, ?_, hk, rfl, ?_⟩
  · rw [exec_registerWrite_full p v s h4]
    unfold regCommand
    rw [hostWrite_admitted p _ 15 v ha, writeAccess_image v (ha.opened_counted p) hm hb hf hi hw, imageWrite_denied h1 howned hpart hd]
  · have frame : ChangesOnly (fun _ => false) (dropCopies p [] (countAccess p s)) (pmcEvent 0 0x08 0x80 1
        (record 0x0002 addr.toNat v.toNat k (pathCode p) (dropCopies p [] (countAccess p s)))) :=
      ((ChangesOnly.refl _ _).record _ _ _ _ _).pmcEvent 0 _ _ _ (by decide)
    rw [frame.regs _ rfl he, dropCopies_rd, countAccess_rd p s he]

/-- Settles O12: the action of SYS_LIVELOCK by whether a write has been taken. -/
theorem livelockTakesItsFirstWriteOnly : Obligations.LivelockTakesItsFirstWriteOnly := by
  intro p v s ha hc
  rw [exec_livelockWrite_admitted p v ha, ← countAccess_sys p s]
  refine ⟨fun hl => ?_, fun hl => by rw [livelockWrite_locked v hl]⟩
  rw [livelockWrite_first v hl]
  exact ⟨_, rfl, State.rd_wr_same _ _ _ (countAccess_sorted p (regsWf_sorted hc.1)), rfl⟩

/-- Settles O13: the read of a row by its branch, and the result set that a read of RES_SEQ latches. -/
theorem readsAnswerOnTheirPath : Obligations.ReadsAnswerOnTheirPath := by
  intro p addr be s hacc hc
  refine ⟨fun a r ha hf h0 hm hb hl hp he => ⟨fun h1 => ?_, fun hw => ?_⟩, fun ch => ?_⟩
  · subst ha
    refine ⟨_, readCommand_row p hacc hf h0 hl hp, rfl, ?_, ?_⟩
    · rw [latchWords_single p _ s h1]
      exact (countAccess_rd p _ he).trans (State.rd_wr_same s _ _ (regsWf_sorted hc.1))
    · rw [latchWords_single p _ s h1]
      exact (((ChangesOnly.refl _ s).wr _ _ (.inl (decide_eq_true rfl))).trans (countAccess_frame _ p _)).emit _
  · subst ha
    refine ⟨_, readCommand_row p hacc hf h0 hl hp, rfl, fun k h1 hk => ?_⟩
    rw [State.emit_latches, countAccess_latches, State.wr_latches]
    exact latchWords_get p _ s h0 h1 hk
  · have hs := resLatch_sorted ch (s.chan ch).latest (regsWf_sorted hc.1)
    have keep : ∀ i, 0x21000 ≤ i → (countAccess p ((resLatch ch (s.chan ch).latest s).wr (A.TRN_CH_RES_SEQ ch)
        ((resLatch ch (s.chan ch).latest s).rd (A.TRN_CH_RES_SEQ ch)))).rd i = (resLatch ch (s.chan ch).latest s).rd i :=
      fun i hi => (countAccess_rd p _ (eventReg_above hi)).trans (State.rd_wr_self _ _ i hs)
    refine ⟨_, readCommand_resSeq p be.toNat ch hacc, rfl, ?_, ?_, ?_⟩
    · rw [← resLatch_seq ch _ (regsWf_sorted hc.1)]
      exact congrArg (fun w => fieldGet w 0 32) (keep _ (Nat.le_add_right_of_le (by decide)))
    · rw [← resLatch_n ch _ (regsWf_sorted hc.1)]
      exact congrArg (fun w => fieldGet w 0 25) (keep _ (Nat.le_add_right_of_le (by decide)))
    · rw [← resLatch_mean ch _ (regsWf_sorted hc.1)]
      exact congrArg₂ (fun w w' : Word => w.toNat + 2 ^ 32 * w'.toNat) (keep _ (Nat.le_add_right_of_le (by decide)))
        (keep _ (Nat.le_add_right_of_le (Nat.le_add_right_of_le (by decide))))

/-- Settles O14: the latch of the path answers the read of the higher word. -/
theorem wideReadIsConsistent : Obligations.WideReadIsConsistent := by
  intro p a s u r r' hf hf' h2 h0 h1 hl hp hl' hu
  refine readWord_latched hf' (by omega) hl' ?_
  rw [hu]
  exact hostRead_latches p hf h0 hl hp (k := 1) (Nat.le_refl 1) (by omega)

/-- Settles O19: the two register writes reach their actions; a commit by the range of its NS words; a firing by whether the unit is due. -/
theorem compareUnitCommandsTakeEffect : Obligations.CompareUnitCommandsTakeEffect := by
  refine ⟨fun s p n w0 ha => exec_cmpCommit_admitted p n w0 ha, fun s p n w0 ha => ?_, fun s n v ha => exec_cmpDisable_admitted n v ha,
    fun s n hd hl ho hi hf hc => ?_, fun s n hd => ?_⟩
  · intro c g q per d ho hd
    rw [exec_cmpCommit_admitted p n w0 ha, cmpCommit_free p w0 ho hd]
    exact ⟨fun h => congrArg _ (cmpLoad_badval p w0 h), fun ht hq hp => congrArg _ (cmpLoad_inRange p w0 ht hq hp)⟩
  · rw [exec_cmpFired, if_pos hd, cmpFire_quiet (regsWf_sorted hc.1) hl ho hi hf]
    rfl
  · rw [exec_cmpFired, hd, if_neg (by decide)]

end Sys2Proof.Machine
end

/-! The grant table's commands: a Signaling TLV's answer, the end of a grant, the issue instants and the announcements (R81, R105, R106, R126). -/
section
namespace Sys2Proof.Machine

/-! ## The TLV in front of the Signaling queue (R105) -/

/-- A message in front that still holds a TLV stays. -/
theorem sigClean_of_tlv {s : State} {m : SigMsg} {ms : List SigMsg} {e : Nat × Bytes} {tl : List (Nat × Bytes)} (h : s.svp.signaling = m :: ms)
    (ht : m.tlvs = e :: tl) : sigClean s = s := by
  have keep : s.svp.signaling.dropWhile (fun m => m.tlvs.isEmpty) = s.svp.signaling := by
    rw [h]
    exact List.dropWhile_cons_of_neg (by simp [ht])
  unfold sigClean
  rw [keep]

/-- A request is denied, counted and answered with duration 0. -/
theorem exec_grantRequest_denied {s : State} {m : SigMsg} {v : Bytes} {tl : List (Nat × Bytes)} {ms : List SigMsg} (hh : halted s = false)
    (h : s.svp.signaling = m :: ms) (ht : m.tlvs = (4, v) :: tl) (hd : grantDenied (sigTake m s) m (beAt v 0 1 / 16) (toSigned 8 (beAt v 1 1)) = true) :
    exec .grantRequest s = .next (sigAnswer m .device (natBE 2 5 ++ natBE 2 8 ++ natBE 1 (beAt v 0 1 / 16 * 16)
      ++ natBE 1 (ofSigned 8 (toSigned 8 (beAt v 1 1))) ++ natBE 4 0 ++ zeros 1 ++ natBE 1 (Config.renewalInvited % 2))
      ((sigTake m s).addSat F.SVP_GRANT_DENY_CNT_COUNT 1)) := by
  unfold exec execGrantRequest
  simp only [hh, sigClean_of_tlv h ht, h, ht, hd, Bool.false_eq_true, if_false, if_true]

/-- A request that no row of R105 denies is stored and answered with its clamped duration. -/
theorem exec_grantRequest_granted {s : State} {m : SigMsg} {v : Bytes} {tl : List (Nat × Bytes)} {ms : List SigMsg} (hh : halted s = false)
    (h : s.svp.signaling = m :: ms) (ht : m.tlvs = (4, v) :: tl) (hd : grantDenied (sigTake m s) m (beAt v 0 1 / 16) (toSigned 8 (beAt v 1 1)) = false) :
    let kind := beAt v 0 1 / 16
    let log := toSigned 8 (beAt v 1 1)
    let dur := clampNat ((sigTake m s).get F.SVP_PTP_GRANT_MINDUR) ((sigTake m s).get F.SVP_PTP_GRANT_MAXDUR) (beAt v 2 4)
    exec .grantRequest s = .next (sigAnswer m (.grant m.identity kind log dur) (natBE 2 5 ++ natBE 2 8 ++ natBE 1 (kind * 16)
      ++ natBE 1 (ofSigned 8 log) ++ natBE 4 dur ++ zeros 1 ++ natBE 1 (Config.renewalInvited % 2)) (grantStore m kind log (sigTake m s))) := by
  intro kind log dur
  unfold exec execGrantRequest
  simp only [hh, sigClean_of_tlv h ht, h, ht, hd, Bool.false_eq_true, if_false]
  rfl

/-- A cancel removes the grant of its type and is acknowledged. -/
theorem exec_grantCancel_front {s : State} {m : SigMsg} {v : Bytes} {tl : List (Nat × Bytes)} {ms : List SigMsg} (hh : halted s = false)
    (h : s.svp.signaling = m :: ms) (ht : m.tlvs = (6, v) :: tl) :
    let kind := beAt v 0 1 / 16
    let u := sigTake m s
    exec .grantCancel s = .next (sigAnswer m .device (natBE 2 7 ++ natBE 2 2 ++ natBE 1 (kind * 16) ++ zeros 1)
      (dropEmpty { u with svp := { u.svp with grants := u.svp.grants.map (fun (c : GrantClient) =>
        if c.identity = m.identity ∧ c.port = m.port ∧ (kind = 11 ∨ kind = 0 ∨ kind = 9) then c.setGrant kind none else c) } })) := by
  intro kind u
  unfold exec execGrantCancel
  simp only [hh, sigClean_of_tlv h ht, h, ht, Bool.false_eq_true, if_false]
  rfl

/-! ## Issue instants (R106, R126) -/

/-- The state in which the schedule of a grant has gone on by one message. -/
def grantAdvanced (i kind : Nat) (g : Grant) (s : State) : State :=
  { s with svp := { s.svp with grants := s.svp.grants.map (fun (x : GrantClient) =>
    if x.index = i then x.setGrant kind (some { g with next := g.next + 1, seq := (g.seq + 1) % 65536 }) else x) } }

/-- On a port of the two-step server, a due Sync of a grant whose next response is still to leave is issued. -/
theorem issueGrant_sync_twoStep {s : State} {i : Nat} {c : GrantClient} {g : Grant} (hm : s.mode = 2)
    (hc : s.svp.grants.find? (fun c => decide (c.index = i)) = some c) (hg : c.sync = some g) (hl : g.live = true) (hw : g.waiting ≠ 0)
    (ht : after (issueInstant i g) s.datum = false) (hp : 4 ≤ c.port.val) :
    issueGrant i false s = issueTwoStep c.port c.env false g.seq (ofSigned 8 g.log) (grantAdvanced i 0 g s) := by
  have kind : c.grant 0 = some g := hg
  have due : ¬(g.live = false ∨ after (issueInstant i g) s.datum = true) := by simp [hl, ht]
  have serving : ¬((grantAdvanced i 0 g s).mode ≠ 2
      ∨ (g.waiting = 0 ∧ after g.expiry (instAdd (issueInstant i g) (nsUnits (if h : c.port.val < 4 then
        stakeLatency (grantAdvanced i 0 g s) ⟨c.port.val, h⟩ .sync else 0))) = false)) := by
    rintro (h | ⟨h, -⟩)
    · exact h hm
    · exact hw h
  unfold issueGrant
  simp only [hc, Bool.false_eq_true, if_false, kind, due]
  refine (if_neg serving).trans ?_
  rw [dif_neg (Nat.not_lt.mpr hp)]
  rfl

theorem exec_ptpIssue_grant {s : State} (i : Nat) (a : Bool) (h : halted s = false) : exec (.ptpIssue (.grant i) a) s = .next (issueGrant i a s) :=
  congrArg _ (if_neg (Bool.eq_false_iff.mp h))

theorem exec_ptpIssue_multicast {s : State} (p : Fin 4) (a : Bool) (h : halted s = false) :
    exec (.ptpIssue (.multicast p) a) s = .next (issueMulticast p a s) :=
  congrArg _ (if_neg (Bool.eq_false_iff.mp h))

/-- A multicast schedule issues only with PROFILE 1 (R126). -/
theorem issueMulticast_other_profile {s : State} (p : Fin 4) (a : Bool) (h : s.get F.SVP_PTP_CFG_PROFILE ≠ 1) : issueMulticast p a s = s :=
  if_pos (.inr (.inr (.inl h)))

/-! ## Announcements (R81) -/

/-- A series due in an answering mode sends its frame and, with frames left, goes on a second later. -/
theorem exec_announcementRepeat_due {s : State} {sa : Fin 272} {x : Series} (hh : halted s = false)
    (hx : s.svp.series.find? (fun x => decide (x.sa = sa.val)) = some x) (ha : answering s = true) (he : s.on (F.SVP_SA_CTL_EN sa) = true)
    (hc : saCounts s sa = true) (ht : after x.due s.datum = false) (hl : 1 < x.left) :
    exec (.announcementRepeat sa) s = .next (let t := announceSend sa s
      { t with svp := { t.svp with series := s.svp.series.filter (fun y => decide (y.sa ≠ sa.val)) ++ [⟨sa, x.left - 1, instAdd x.due secUnits⟩] } }) := by
  unfold exec execAnnouncementRepeat
  simp only [hh, hx, ha, he, hc, ht, Nat.not_le.mpr hl, Bool.false_eq_true, Bool.true_eq_false, or_self, if_false]

/-- The frame of an address on a port that exists. -/
theorem announceSend_port {s : State} {n : Nat} (hp : saPort s n < 7) :
    announceSend n s = txDevice ⟨saPort s n, hp⟩ (if s.on (F.SVP_SA_CTL_V6 n) then
      neighbourAdv allNodesMac (saMac s n) (vidTag (saVid s n)) allNodes (saAddr s n) 1
      else gratuitousArp (vidTag (saVid s n)) (saMac s n) (saAddr s n)) s := dif_pos hp

/-- Settles O23: the answer to a TLV by its decision, the issue by its schedule, the series by its due frame; a frozen device does none of it. -/
theorem grantCommandsTakeEffect : Obligations.GrantCommandsTakeEffect := by
  refine ⟨fun s m v tl ms hh h ht => ⟨exec_grantRequest_granted hh h ht, exec_grantRequest_denied hh h ht⟩,
    fun s m v tl ms hh h ht => exec_grantCancel_front hh h ht, fun s i hh => ?_, fun s i c g hh hm hc hg hl hw ht hp => ?_,
    fun s p a hh h => ?_, fun s sa x hh hx ha he hc ht hl hp => ?_, fun s i p a sa hh => ?_⟩
  · exact congrArg _ (if_neg (Bool.eq_false_iff.mp hh))
  · rw [exec_ptpIssue_grant i false hh, issueGrant_sync_twoStep hm hc hg hl hw ht hp]
    rfl
  · rw [exec_ptpIssue_multicast p a hh, issueMulticast_other_profile p a h]
  · rw [exec_announcementRepeat_due hh hx ha he hc ht hl, announceSend_port hp]
  · refine ⟨?_, ?_, ?_, ?_, ?_, ?_⟩ <;> exact congrArg _ (if_pos hh)

end Sys2Proof.Machine
end

/-! The commands of the service pipelines: what becomes of a received frame, the frame that a pipeline takes next, and a completed bucket read
(R97, R109, R124, R131, R138, R142, R194, R198, R213). -/
section
namespace Sys2Proof.Machine

/-! ## Reception (R198, R213) -/

theorem exec_frameReceive_down {s : State} {p : Fin 7} (b : Bytes) (cap : Option Nat) (e : RxError) (k : Nat) (h : linkUp s p = false) :
    exec (.frameReceive p b cap e k) s = .next s := congrArg _ (if_pos h)

theorem exec_frameReceive_up {s : State} {p : Fin 7} (b : Bytes) (cap : Option Nat) (e : RxError) (k : Nat) (h : linkUp s p = true) :
    exec (.frameReceive p b cap e k) s = .next (let u := plcaHeard p (fecCount p e k s)
      if e ≠ .clean ∨ fcsGood b = false then rxDiscard p 4 u
      else if b.length < 64 then rxDiscard p 5 u
      else if maxFrame u p < b.length then rxDiscard p 6 u
      else if bufferShare p < itemBytes (bufferItems u p) + b.length then rxDiscard p 7 u
      else rxPassed p b cap u) := congrArg _ (if_neg (by simp [h]))

/-- Without RS-FEC no codeword is counted. -/
theorem fecCount_of_noFec {s : State} {p : Nat} (e : RxError) (k : Nat) (h : hasFec s p = false) : fecCount p e k s = s := if_neg (Bool.eq_false_iff.mp h)

/-- One uncorrectable codeword of RS-FEC. -/
theorem fecCount_uncorrectable {s : State} {p : Nat} (h : hasFec s p = true) : fecCount p (.fec 1) 0 s = fecUncorrectable p s := if_pos h

/-- PLCA runs on F0 and F1 only. -/
theorem plcaHeard_main {p : Fin 7} (s : State) (h : p.val < 4) : plcaHeard p s = s := dif_neg (by omega)

theorem lt_four_of_hasFec {s : State} {p : Nat} (h : hasFec s p = true) : p < 4 := of_decide_eq_true (Bool.and_eq_true_iff.mp h).1

section clean
variable {s : State} {p : Fin 7} {b : Bytes} {cap : Option Nat} (hl : linkUp s p = true) (hf : hasFec s p = false) (hp : plcaHeard p s = s)
include hl hf hp

/-- Row 1 of R198: an error of the coding or of the FCS. -/
theorem exec_frameReceive_bad {e : RxError} (h : e ≠ .clean ∨ fcsGood b = false) : exec (.frameReceive p b cap e 0) s = .next (rxDiscard p 4 s) := by
  rw [exec_frameReceive_up b cap e 0 hl, fecCount_of_noFec e 0 hf, hp]
  exact congrArg _ (if_pos h)

/-- A frame without an error is judged by its length and by the room that is left (R198). -/
theorem exec_frameReceive_clean (hg : fcsGood b = true) :
    exec (.frameReceive p b cap .clean 0) s = .next (if b.length < 64 then rxDiscard p 5 s
      else if maxFrame s p < b.length then rxDiscard p 6 s
      else if bufferShare p < itemBytes (bufferItems s p) + b.length then rxDiscard p 7 s
      else rxPassed p b cap s) := by
  rw [exec_frameReceive_up b cap .clean 0 hl, fecCount_of_noFec .clean 0 hf, hp]
  exact congrArg _ (if_neg (by simp [hg]))

theorem exec_frameReceive_short (hg : fcsGood b = true) (h : b.length < 64) : exec (.frameReceive p b cap .clean 0) s = .next (rxDiscard p 5 s) := by
  rw [exec_frameReceive_clean hl hf hp hg, if_pos h]

theorem exec_frameReceive_long (hg : fcsGood b = true) (h0 : 64 ≤ b.length) (h : maxFrame s p < b.length) :
    exec (.frameReceive p b cap .clean 0) s = .next (rxDiscard p 6 s) := by
  rw [exec_frameReceive_clean hl hf hp hg, if_neg (Nat.not_lt.mpr h0), if_pos h]

theorem exec_frameReceive_passed (hg : fcsGood b = true) (h0 : 64 ≤ b.length) (h1 : b.length ≤ maxFrame s p)
    (h2 : itemBytes (bufferItems s p) + b.length ≤ bufferShare p) : exec (.frameReceive p b cap .clean 0) s = .next (rxPassed p b cap s) := by
  rw [exec_frameReceive_clean hl hf hp hg, if_neg (Nat.not_lt.mpr h0), if_neg (Nat.not_lt.mpr h1), if_neg (Nat.not_lt.mpr h2)]

end clean

/-- With a capture, a frame that is no MAC control frame is counted and stamped. -/
theorem rxPassed_data {p : Fin 7} {b : Bytes} (c : Nat) (s : State) (h : (parseEth b).etype ≠ 0x8808) : rxPassed p b (some c) s = rxGood p b c s :=
  if_neg h

/-- The state in which a good frame is counted and stamped, before it is queued (R131, R204, R213). -/
def rxStamped (p : Fin 7) (b : Bytes) (c : Nat) (s : State) : Instant × State :=
  ingressStamp p c (ptpEvent b) (pmcEvent 1 0x04 p b.length (pmcEvent 1 0x02 p 1 (portCount p 1 b.length (portCount p 0 1 s))))

theorem rxGood_standby {p : Fin 7} {b : Bytes} {c : Nat} {s : State} (h : standbyPath (rxStamped p b c s).2 p = true) :
    rxGood p b c s = portCount p 17 1 (rxStamped p b c s).2 := if_pos h

theorem rxGood_active {p : Fin 7} {b : Bytes} {c : Nat} {s : State} (h : standbyPath (rxStamped p b c s).2 p = false) :
    rxGood p b c s = pipeEnqueue ⟨p, dropFcs b, (rxStamped p b c s).1, none⟩ (rxStamped p b c s).2 := if_neg (Bool.eq_false_iff.mp h)

/-! ## The next frame of a pipeline (R124) -/

theorem exec_pipelineRequest_running {s : State} (pl : Fin 5) (h : halted s = false) :
    exec (.pipelineRequest pl .none .none) s = .next (pipelineTake pl s) := congrArg _ (if_neg (Bool.eq_false_iff.mp h))

theorem pipelineTake_empty {s : State} {pl : Fin 5} (h : s.svp.queues[pl] = []) : pipelineTake pl s = s := by
  unfold pipelineTake
  rw [h]

theorem pipelineTake_front {s : State} {pl : Fin 5} {i : PlItem} {rest : List PlItem} (h : s.svp.queues[pl] = i :: rest)
    (hw : (wantsTicket (classify (s.asOf i.inst) i.port i.bytes) && waitsForGrid s i.port) = false) :
    pipelineTake pl s = lanesRun (flowControl i.port (pipelineFrame i (classify (s.asOf i.inst) i.port i.bytes) (pmcEvent 3 0x02 pl 1
      (({ s with svp := { s.svp with queues := s.svp.queues.set pl rest } } : State).set (F.SVP_PL_STAT_QDEPTH pl) rest.length)))) := by
  unfold pipelineTake
  simp only [h, hw, Bool.false_eq_true, if_false]

/-! ## A completed bucket read (R97) -/

theorem dramEvent_svp (e : Nat) (s : State) : (dramEvent e s).svp = s.svp :=
  ((ChangesOnly.refl (fun _ => false) (s.draw 1).2).pmcEvent 12 e _ 1 (by decide)).svp

theorem exec_clientBucketFill_halted {s : State} (b : Nat) (h : halted s = true) : exec (.clientBucketFill b) s = .next s := by
  show execClientBucketFill b s = _
  unfold execClientBucketFill
  split
  · rfl
  · exact congrArg _ (if_pos (.inr h))

/-- With room in the cache the bucket enters it, and the requests that wait resume. -/
theorem exec_clientBucketFill_room {s : State} {b : Nat} {w : List PlItem} (hh : halted s = false)
    (hb : s.svp.fills.find? (fun f => decide (f.bucket = b)) = some ⟨b, w⟩) (hw : w.any (fun i => waitsForGrid s i.port) = false)
    (hc : s.svp.cached.length < cacheBuckets) :
    exec (.clientBucketFill b) s = .next (lanesRun (w.foldl fillResume { dramEvent 0x07 s with svp := { s.svp with
      fills := s.svp.fills.filter (fun x => decide (x.bucket ≠ b)), cached := s.svp.cached ++ [b] } })) := by
  unfold exec execClientBucketFill cacheFill
  simp only [hb, hw, hh, hc, Bool.false_eq_true, or_self, if_false, if_true]

/-- A request of a serving port that waited for its bucket goes on to its rate check. -/
theorem fillResume_served {s : State} {i : PlItem} {p : Fin 4} {sa : Nat} (hp : i.port.val = p.val)
    (hk : classify (s.asOf i.inst) i.port i.bytes = .ntp sa) (hs : serves s i.inst = true) :
    fillResume s i = flowControl i.port (admitted (s.asOf i.inst) (askOf i p sa) (aclVerdict (s.asOf i.inst) (askOf i p sa).ip.v6 (askOf i p sa).ip.src).2
      (decide (askClass (askOf i p sa) = 1)) s) := by
  have h4 : i.port.val < 4 := hp ▸ p.isLt
  obtain rfl : p = ⟨i.port.val, h4⟩ := Fin.ext hp.symm
  unfold fillResume
  rw [hk]
  dsimp only
  rw [dif_pos h4, if_pos hs]

/-- Settles O24: the row of R198 that a frame meets, the frame in front of its queue, and the bucket that arrived. -/
theorem pipelineCommandsTakeEffect : Obligations.PipelineCommandsTakeEffect := by
  refine ⟨fun s p b cap hl hf hp hg h0 h1 h2 => ?_, fun s p b cap hl hf hp => ⟨?_, fun h => ?_, fun hg h => ?_, fun hg h0 h => ?_⟩,
    fun s p b cap hl hf => ?_, fun s p b cap e k hl => exec_frameReceive_down b cap e k hl, fun s pl i rest hh hq hw => ?_, fun s pl hq => ?_,
    fun s u b w hh hb hw hc hu => ?_, fun s i p sa hp hk hs => fillResume_served hp hk hs, fun s b pl hh => ⟨exec_clientBucketFill_halted b hh, ?_⟩⟩
  · have passed : ∀ c, exec (.frameReceive p b c .clean 0) s = .next (rxPassed p b c s) := fun c => exec_frameReceive_passed hl hf hp hg h0 h1 h2
    refine ⟨passed none, fun he hs => ?_, fun he hs hq => ?_, fun he hs hq => ?_⟩
    · rw [passed, rxPassed_data cap s he, rxGood_standby hs]
      rfl
    · rw [passed, rxPassed_data cap s he, rxGood_active hs]
      exact congrArg _ (if_pos hq)
    · rw [passed, rxPassed_data cap s he, rxGood_active hs]
      exact congrArg _ (if_neg (Nat.not_le.mpr hq))
  · exact exec_frameReceive_bad hl hf hp (.inl (by decide))
  · exact exec_frameReceive_bad hl hf hp (.inr h)
  · exact exec_frameReceive_short hl hf hp hg h
  · exact exec_frameReceive_long hl hf hp hg h0 h
  · rw [exec_frameReceive_up b cap _ 0 hl, fecCount_uncorrectable hf, plcaHeard_main _ (lt_four_of_hasFec hf)]
    exact congrArg _ (if_pos (.inl (by decide)))
  · rw [exec_pipelineRequest_running pl hh, pipelineTake_front hq hw]
  · cases hh : halted s with
    | true => exact congrArg _ (if_pos hh)
    | false => rw [exec_pipelineRequest_running pl hh, pipelineTake_empty hq]
  · subst hu
    rw [exec_clientBucketFill_room hh hb hw hc, dramEvent_svp]
  · exact congrArg _ (if_pos hh)

end Sys2Proof.Machine
end

/-! The commands of the clock domains: freeze and restart, the auxiliary synthesizer and OSCIN, the first lock, and the hand-off request
(R34, R67, R274, R276, R278, R279, R320, R382). -/
section
namespace Sys2Proof.Machine

/-! ## A fault that is lasting at once (R382) -/

theorem lastingFault_alone {code : FaultCode} {c : Nat} {s : State} (h : inPair (faultSend code 0 0 0 0 s) = false) :
    lastingFault code c s = faultSend code 0 0 0 0 s := if_neg (by simp [h])

/-- In a pair, outside SAFE and MAINT, the outputs are handed over (R314). -/
theorem lastingFault_paired {code : FaultCode} {c : Nat} {s : State} (h : inPair (faultSend code 0 0 0 0 s) = true)
    (hs : (faultSend code 0 0 0 0 s).mode ≠ mSafe) (hm : (faultSend code 0 0 0 0 s).mode ≠ mMaint) :
    lastingFault code c s = handOver c (faultSend code 0 0 0 0 s) := if_pos (by simp [h, hs, hm])

/-! ## Each command under the condition on which it acts -/

theorem exec_syn0LossOfLock_locked {s : State} (h : s.on F.SYN_STAT_SYN0LOCK = true) : exec .syn0LossOfLock s = .next (freeze s) := by
  show execSyn0LossOfLock s = _
  unfold execSyn0LossOfLock
  rw [if_pos h]

theorem exec_clockRestart_frozen {s : State} (h : s.on F.SYN_STAT_FROZEN = true) : exec .clockRestart s = .next (clockRestart s) := by
  show execClockRestart s = _
  unfold execClockRestart
  rw [if_pos h]

theorem exec_clockRestart_running {s : State} (h : s.on F.SYN_STAT_FROZEN = false) : exec .clockRestart s = .next s :=
  congrArg _ (if_neg (Bool.eq_false_iff.mp h))

theorem exec_syn0Lasting_due {s : State} (hf : s.on F.SYN_STAT_FROZEN = true) (hl : s.syn.lasting = false) (ht : s.syn.frozenAt + msPeriods ≤ s.now) :
    exec .syn0Lasting s = .next (declareLasting s) := congrArg _ (if_pos ⟨hf, hl, ht⟩)

/-! ## DRAM and the hand-off -/

/-- After the restart edge the DRAM leaves self-refresh and the rings' timers go on (R276, R320). -/
theorem exec_dramResume_restarted {s : State} {t : Nat} (hr : s.on F.HMI_MEM_STAT_SELFREF = true) (hf : s.on F.SYN_STAT_FROZEN = false)
    (hd : s.hmi.dmaPaused = some t) :
    exec .dramResume s = .next (
      let u := s.set F.HMI_MEM_STAT_SELFREF 0
      let v := { u with hmi := { u.hmi with dmaPaused := none, rings := u.hmi.rings.map (fun e => (e.1, e.2.shift (u.now - t))) } }
      if journalReady v then placeRetained v else v) := by
  have paused : (s.set F.HMI_MEM_STAT_SELFREF 0).hmi.dmaPaused = some t := hd
  show execDramResume s = _
  unfold execDramResume
  rw [if_pos (by simp [hr, hf])]
  dsimp only
  rw [paused]

/-- The word that HANDOFF_REQUEST writes: FORCE and HANDOFF (R67). -/
theorem handoffWord_fields (force : Fin 4) :
    fieldGet (BitVec.ofNat 32 (2 * force.val + 1)) 1 2 = force.val ∧ (BitVec.ofNat 32 (2 * force.val + 1)).getLsbD 0 = true := by
  revert force
  decide

/-- HANDOFF_REQUEST reaches the write of DTM_DOMCTL. -/
theorem exec_handoffRequest_admitted {s : State} (force : Fin 4) (h : Admits s) :
    exec (.handoffRequest force) s = .next (domctlWrite force.val true (countAccess .mw0 s)) := by
  have key := regCommand_hook (p := .mw0) (a := A.DTM_DOMCTL) (i := 11) (BitVec.ofNat 32 (2 * force.val + 1)) h (by decide +kernel)
    (liveOff_none s (by decide)) (by decide +kernel) rfl
  obtain ⟨hforce, hhandoff⟩ := handoffWord_fields force
  rw [← hforce, ← hhandoff]
  exact key

/-- Settles O33: each command under the condition on which it acts. -/
theorem clockCommandsTakeEffect : Obligations.ClockCommandsTakeEffect := by
  refine ⟨fun s h => exec_syn0LossOfLock_locked h, fun s hf hl ht => ⟨fun h => ?_, fun h hs hm => ?_⟩, fun s h => exec_clockRestart_frozen h,
    fun s h => exec_clockRestart_running h, fun s t hr hf hd => exec_dramResume_restarted hr hf hd, fun s h => ?_,
    fun s hs hm hc => ?_, fun s ha => ⟨fun h => ?_, fun h => ?_⟩, fun s hs hr => ?_,
    fun s hs hp hm hd => ?_, fun s force ha => exec_handoffRequest_admitted force ha⟩
  · rw [exec_syn0Lasting_due hf hl ht]
    exact congrArg _ (lastingFault_alone h)
  · rw [exec_syn0Lasting_due hf hl ht]
    exact congrArg _ (lastingFault_paired h hs hm)
  · show execSynAuxLol s = _
    unfold execSynAuxLol
    rw [if_pos h]
  · show execClkDoubleLoss s = _
    unfold execClkDoubleLoss
    rw [if_pos ⟨hs, hm, hc⟩]
    rfl
  · exact congrArg _ ((if_neg (Bool.eq_false_iff.mp ha)).trans (if_pos h))
  · exact congrArg _ ((if_neg (Bool.eq_false_iff.mp ha)).trans (if_neg (Bool.eq_false_iff.mp h)))
  · show execOscinLoss s = _
    unfold execOscinLoss
    rw [if_pos ⟨hs, hr⟩]
  · show execSyn0Lock s = _
    unfold execSyn0Lock
    rw [if_pos ⟨hs, hp, hm, hd⟩]

end Sys2Proof.Machine
end

/-! The commands of the host interface: a ring's TAIL and CFG, the stop of a ring, the state of the PCIe function, and the requests of the serial path
(R35, R317-R319, R323, R324, R326, R337, R338). -/
section
namespace Sys2Proof.Machine

/-! ## A ring's registers -/

/-- A write of a register of the rings' block reaches the block's action. -/
theorem regCommand_ring {s : State} {a : Nat} (v : Word) (h : Admits s) (hr : liveRow a = true) (hd : regDomain a = none)
    (hi : hookIndex .mw0 a = some 23) (ha : 0x481000 + 4 * ((a - 0x481000) / 4) = a) :
    regCommand .mw0 a v s = .next (ringWrite .mw0 a v (countAccess .mw0 s)) := by
  have hk : (liveHooks .mw0)[23]? = some ⟨0x481000, 4, 1024, fun k v => ringWrite .mw0 (0x481000 + 4 * k) v⟩ := rfl
  have key := regCommand_hook v h hr (liveOff_none s hd) hi hk
  dsimp only at key
  rwa [ha] at key

theorem regCommand_ringTail {s : State} {n : Fin 64} (v : Word) (h : Admits s) (he : ringExists n = true) :
    regCommand .mw0 (A.HMI_R_TAIL n) v s = .next (ringTailWrite n v (countAccess .mw0 s)) := by
  have row : ∀ n : Fin 64, ringExists n = true → liveRow (A.HMI_R_TAIL n) = true := by decide +kernel
  have dom : ∀ n : Fin 64, regDomain (A.HMI_R_TAIL n) = none := by decide +kernel
  have hook : ∀ n : Fin 64, hookIndex .mw0 (A.HMI_R_TAIL n) = some 23 := by decide +kernel
  have base : (A.HMI_R_TAIL n - 0x481000) / 0x40 = n.val := by simp only [A.HMI_R_TAIL]; omega
  rw [regCommand_ring v h (row n he) (dom n) (hook n) (by simp only [A.HMI_R_TAIL]; omega), ringWrite_tail v _ base (by simp only [A.HMI_R_TAIL]; omega)]

theorem regCommand_ringCfg {s : State} {n : Fin 64} (v : Word) (h : Admits s) (he : ringExists n = true) :
    regCommand .mw0 (A.HMI_R_CFG n) v s = .next (ringCfgWrite n v (countAccess .mw0 s)) := by
  have row : ∀ n : Fin 64, ringExists n = true → liveRow (A.HMI_R_CFG n) = true := by decide +kernel
  have dom : ∀ n : Fin 64, regDomain (A.HMI_R_CFG n) = none := by decide +kernel
  have hook : ∀ n : Fin 64, hookIndex .mw0 (A.HMI_R_CFG n) = some 23 := by decide +kernel
  have base : (A.HMI_R_CFG n - 0x481000) / 0x40 = n.val := by simp only [A.HMI_R_CFG]; omega
  rw [regCommand_ring v h (row n he) (dom n) (hook n) (by simp only [A.HMI_R_CFG]; omega), ringWrite_cfg v _ base (by simp only [A.HMI_R_CFG]; omega)]

/-- A ring that does not exist has no registers. -/
theorem regCommand_ring_absent {s : State} {n : Fin 64} {a : Nat} (v : Word) (h : Admits s) (he : ringExists n = false)
    (ha : a ∈ [A.HMI_R_TAIL n, A.HMI_R_CFG n]) : regCommand .mw0 a v s = .next (countAccess .mw0 s) := by
  have rows : ∀ n : Fin 64, ringExists n = false → ∀ a ∈ [A.HMI_R_TAIL n, A.HMI_R_CFG n], findRow a = none ∧ inMsix a = false ∧ inPba a = false := by
    decide +kernel
  obtain ⟨hf, hm, hb⟩ := rows n he a ha
  exact regCommand_none .mw0 v h hf hm hb

/-- TAIL hands slots over, or is out of range (R324). -/
theorem ringTailWrite_exists {r : Nat} (v : Word) (s : State) (h : ringExists r = true) :
    ringTailWrite r v s = if ringSize s r ≤ v.toNat % 65536 then s.strike (F.HMI_R_STAT_TAILERR r) else s.set (F.HMI_R_TAIL_TAIL r) (v.toNat % 65536) :=
  if_neg (by simp [h])

/-- A write of CFG with EN = 1 stores the fields of an idle ring and starts it (R323). -/
theorem ringCfgWrite_starts {r : Nat} (v : Word) {s : State} (h : ringExists r = true) (ho : ringOn s r = false)
    (ha : s.on (F.HMI_R_STAT_ACTIVE r) = false) :
    ringCfgWrite r (fieldSet v 31 1 1) s = ringStart r (s.wr (A.HMI_R_CFG r) (fieldSet (ringCfgClamp (fieldSet v 31 1 1)) 31 1 0)) := by
  have en : (ringCfgClamp (fieldSet v 31 1 1)).getLsbD 31 = true := ringCfgClamp_en v 1
  unfold ringCfgWrite
  simp only [h, ho, ha, en, Bool.true_eq_false, if_false, Bool.not_false, Bool.and_self, if_true]

/-- A write of CFG with EN = 0 stops a ring that is on; fields that differ set CFGERR (R323, R326). -/
theorem ringCfgWrite_stops {r : Nat} (v : Word) {s : State} (h : ringExists r = true) (ho : ringOn s r = true) :
    ringCfgWrite r (fieldSet v 31 1 0) s = ringStop r (if fieldSet (ringCfgClamp (fieldSet v 31 1 0)) 31 1 0 = fieldSet (s.rd (A.HMI_R_CFG r)) 31 1 0 then s
      else s.strike (F.HMI_R_STAT_CFGERR r)) := by
  have en : (ringCfgClamp (fieldSet v 31 1 0)).getLsbD 31 = false := ringCfgClamp_en v 0
  unfold ringCfgWrite
  simp only [h, ho, en, Bool.true_eq_false, if_false, Bool.not_true, Bool.not_false, Bool.false_and, Bool.and_self, Bool.false_eq_true, if_true]

/-! ## The stop of a ring, by its direction (R326) -/

theorem ringStop_up {r : Nat} (s : State) (h : r < 24) :
    ringStop r s = (let w := s.set (F.HMI_R_CFG_EN r) 0
      let a := if dmaOk w then completeBuffer r w else bufferLost r w
      let b := (a.ring r).queue.foldl (fun (t : State) (i : UpItem) => undelivered i t) a
      (List.replicate (a.ring r).queue.length ()).foldl (fun (t : State) (_ : Unit) => dropQuiet r t)
        (b.setRing r { b.ring r with queue := [], waitFrom := none })) := if_pos h

theorem ringStop_down {r : Nat} (s : State) (h0 : 24 ≤ r) (h1 : r < 56) : ringStop r s = s.set (F.HMI_R_CFG_EN r) 0 :=
  (if_neg (Nat.not_lt.mpr h0)).trans (if_neg (Nat.not_le.mpr h1))

theorem ringStop_commands {r : Nat} (s : State) (h : 56 ≤ r) :
    ringStop r s = (let a := abortRing (r - 56) (s.set (F.HMI_R_CFG_EN r) 0)
      a.setRing r { a.ring r with cmds := [] }) := by
  unfold ringStop ringAbortCommands
  rw [if_neg (Nat.not_lt.mpr (by omega)), if_pos h, Nat.add_sub_cancel' h]

/-! ## The serial path (R337, R338) -/

section mspi
variable {s : State} {b : Bytes} (hs : accessible s = true) (he : s.sys.mspiEn = true)
include hs he

/-- A whole read request: its CRC, then its address. -/
theorem mspiTransaction_read (hn : 5 ≤ b.length) (hc : beAt b 0 1 = 0x52) :
    mspiTransaction b s = if beAt b 4 1 ≠ (crc8 (b.take 4)).toNat then s.emit (.mspi (mspiReply (zeros 4) 1))
      else if beAt b 1 3 % 4 ≠ 0 then s.emit (.mspi (mspiReply (zeros 4) 2))
      else (hostRead .mspi (beAt b 1 3) s).2.emit (.mspi (mspiReply (natBE 4 (hostRead .mspi (beAt b 1 3) s).1.toNat) 0)) := by
  unfold mspiTransaction mspiLen
  simp [hs, he, hc, Nat.not_lt.mpr hn]

/-- A whole write request: its CRC, then its address. -/
theorem mspiTransaction_write (hn : 9 ≤ b.length) (hc : beAt b 0 1 = 0x57) :
    mspiTransaction b s = if beAt b 8 1 ≠ (crc8 (b.take 8)).toNat then s.emit (.mspi (mspiReply [] 1))
      else if beAt b 1 3 % 4 ≠ 0 then s.emit (.mspi (mspiReply [] 2))
      else (hostWrite .mspi (beAt b 1 3) 15 (BitVec.ofNat 32 (beAt b 4 4)) s).2.emit
        (.mspi (mspiReply [] (hostWrite .mspi (beAt b 1 3) 15 (BitVec.ofNat 32 (beAt b 4 4)) s).1)) := by
  unfold mspiTransaction mspiLen
  simp [hs, he, hc, Nat.not_lt.mpr hn]

end mspi

/-- Settles O40: TAIL and CFG by whether the ring exists and runs, the stop by the ring's direction, the serial request by its CRC and its address. -/
theorem hostInterfaceCommandsTakeEffect : Obligations.HostInterfaceCommandsTakeEffect := by
  refine ⟨fun s n v ha h => ?_, fun s n v ha h => ?_, fun s n v ha h ho hi => ?_, fun s n v ha h => ?_, fun s n v ha h ho => ?_, fun s n v ha h => ?_,
    fun s n h => congrArg _ (if_neg (Bool.eq_false_iff.mp h)), fun s d => rfl, fun s => ⟨rfl, rfl⟩, fun s m h => ⟨congrArg _ (if_pos h), congrArg _ (if_pos h)⟩,
    fun s sp w h => ?_, fun s b hs he hn hc => ?_, fun s b hs he hn hc => ?_⟩
  · exact (regCommand_ringTail v ha h).trans (congrArg _ (ringTailWrite_exists v _ h))
  · exact regCommand_ring_absent v ha h (by simp)
  · exact (regCommand_ringCfg _ ha h).trans (congrArg _ (ringCfgWrite_starts v h ho hi))
  · exact regCommand_ring_absent _ ha h (by simp)
  · have stops := (regCommand_ringCfg _ ha h).trans (congrArg _ (ringCfgWrite_stops v h ho))
    exact ⟨fun h0 => stops.trans (congrArg _ (ringStop_up _ h0)), fun h0 h1 => stops.trans (congrArg _ (ringStop_down _ h0 h1)),
      fun h0 => stops.trans (congrArg _ (ringStop_commands _ h0))⟩
  · exact regCommand_ring_absent _ ha h (by simp)
  · rw [min_def_lt, min_def_lt]
    exact congrArg _ (if_pos h)
  · have serves : exec (.mspiRead b) s = .next (mspiTransaction b s) := rfl
    rw [mspiTransaction_read hs he hn hc] at serves
    refine ⟨fun h ha => ?_, fun h ha => ?_, fun h => ?_⟩
    · exact serves.trans (congrArg _ ((if_neg (not_not.mpr (of_decide_eq_true h))).trans (if_neg (not_not.mpr ha))))
    · exact serves.trans (congrArg _ ((if_neg (not_not.mpr (of_decide_eq_true h))).trans (if_pos ha)))
    · exact serves.trans (congrArg _ (if_pos (of_decide_eq_false h)))
  · have serves : exec (.mspiWrite b) s = .next (mspiTransaction b s) := rfl
    rw [mspiTransaction_write hs he hn hc] at serves
    refine ⟨fun h ha => ?_, fun h ha => ?_, fun h => ?_⟩
    · exact serves.trans (congrArg _ ((if_neg (not_not.mpr (of_decide_eq_true h))).trans (if_neg (not_not.mpr ha))))
    · exact serves.trans (congrArg _ ((if_neg (not_not.mpr (of_decide_eq_true h))).trans (if_pos ha)))
    · exact serves.trans (congrArg _ (if_pos (of_decide_eq_false h)))

end Sys2Proof.Machine
end

/-! The commands of the key-establishment server: a SYN, a ClientHello, a KeyUpdate, a request, and the end of a session
(R23, R151-R157, R159, R160). -/
section
namespace Sys2Proof.Machine

/-! ## A SYN (R151) -/

/-- A SYN that a pipeline delivered is taken, and in an answering mode it asks for a session. -/
theorem exec_ntskeSyn_delivered {s : State} {sa : Fin 272} {e : Nat × PlItem}
    (he : s.ke.segments.find? (fun e => decide (e.1 = sa.val) && isSyn e.2) = some e) (hh : halted s = false) :
    exec (.ntskeSyn sa) s = .next (let u := { s with ke := { s.ke with segments := s.ke.segments.erase e } }
      if answering u then openSession sa e.2 u else u) := by
  show execNtskeSyn sa s = _
  unfold execNtskeSyn
  rw [he]
  dsimp only
  rw [if_neg (Bool.eq_false_iff.mp hh)]

theorem openSession_noCertificate {sa : Nat} {i : PlItem} {s : State} (h : ∀ n, n < 4 → certValid s n = false) : openSession sa i s = keCount 6 1 s :=
  if_pos (by simp [h 0, h 1, h 2, h 3])

/-- With a certificate, a SYN of an open connection opens none, and one over MAXSESS is counted. -/
theorem openSession_certificate {sa n : Nat} {i : PlItem} {s : State} (hn : n < 4) (h : certValid s n = true) :
    openSession sa i s = if s.ke.sessions.any (fun x => x.owns sa i) then s
      else if s.get F.SPU_KE_CFG_MAXSESS ≤ s.ke.sessions.length then keCount 5 1 s
      else showSessions { s with ke := { s.ke with
        sessions := s.ke.sessions ++ [KeSession.start s.ke.nextId i.port sa (segmentPeer i) s.now], nextId := s.ke.nextId + 1 } } := by
  refine if_neg fun hall => ?_
  have hv := List.all_eq_true.mp hall n (by simp; omega)
  rw [h] at hv
  exact absurd hv (by decide)

/-! ## Octets of a session (R152, R153) -/

section session
variable {s : State} {id : Nat} {x : KeSession} (hx : s.session id = some x) (hh : halted s = false)
include hx hh

theorem exec_tlsClientHello_open (b : Bytes) (hp : x.phase = 0) : exec (.tlsClientHello id b) s = .next (tlsInput x b false s) := by
  show execTlsClientHello id b s = _
  unfold execTlsClientHello
  rw [hx]
  exact congrArg _ (if_pos ⟨hp, hh⟩)

theorem exec_tlsKeyUpdate_finished (b : Bytes) (hf : x.finished = true) : exec (.tlsKeyUpdate id b) s = .next (tlsInput x b false s) := by
  show execTlsKeyUpdate id b s = _
  unfold execTlsKeyUpdate
  rw [hx]
  exact congrArg _ (if_pos ⟨hf, hh⟩)

/-- A request whose octets end the session is not judged. -/
theorem exec_ntskeRequest_gone {b : Bytes} {closed : Bool} (hp : x.phase = 4) (hy : (tlsInput x b closed s).session id = none) :
    exec (.ntskeRequest id ⟨b, closed⟩) s = .next (lanesRun (tlsInput x b closed s)) := by
  show execNtskeRequest id ⟨b, closed⟩ s = _
  unfold execNtskeRequest requestInput
  simp only [hh, hx, hp, hy, ne_eq, not_true_eq_false, Bool.false_eq_true, if_false]

/-- The octets of a request are taken, and then the request is judged (R154). -/
theorem exec_ntskeRequest_judged {b : Bytes} {closed : Bool} {y : KeSession} (hp : x.phase = 4) (hy : (tlsInput x b closed s).session id = some y) :
    exec (.ntskeRequest id ⟨b, closed⟩) s = .next (lanesRun (keJudge y (tlsInput x b closed s))) := by
  show execNtskeRequest id ⟨b, closed⟩ s = _
  unfold execNtskeRequest requestInput
  simp only [hh, hx, hp, hy, ne_eq, not_true_eq_false, Bool.false_eq_true, if_false]

theorem exec_ntskeSessionTimeout_due (hp : x.phase ≠ 5) (ht : x.since + secPeriods * s.get F.SPU_KE_CFG_TIMEOUT ≤ s.now) :
    exec (.ntskeSessionTimeout id) s = .next ((keCount 4 1 (abortSession id (dropSession id s))).emit (.tls id [])) := by
  show execNtskeSessionTimeout id s = _
  unfold execNtskeSessionTimeout
  rw [hx]
  exact congrArg _ (if_pos ⟨hp, ht, hh⟩)

theorem exec_ntskeSessionEnd_closed (hp : x.phase = 5) : exec (.ntskeSessionEnd id) s = .next (dropSession id s) := by
  show execNtskeSessionEnd id s = _
  unfold execNtskeSessionEnd
  rw [hx]
  exact congrArg _ (if_pos ⟨hp, hh⟩)

end session

/-! ## The choices for a ClientHello (R152) -/

section hello
variable {x : KeSession} {h : Hello} {m : Bytes} {s : State}

/-- The group's share that a ClientHello holds. -/
def Hello.share (h : Hello) (g : Nat) : Bytes := ((h.shares.find? (fun e => decide (e.1 = g))).map (·.2)).getD []

theorem chooseHello_noAlpn (ha : h.alpn.contains (label "ntske/1") = false) : chooseHello x h m s = keAlert x.id 120 s := if_pos ha

variable (ha : h.alpn.contains (label "ntske/1") = true)
include ha

theorem chooseHello_unfit (hn : (if x.retried then [x.suite] else suiteOrder s).find? (fun u => h.suites.contains u) = none
    ∨ ([0, 1, 2, 3] : List Nat).find? (fun n => certValid s n && h.schemes.contains (s.get (F.SPU_KE_CERT_SCHEME n))) = none) :
    chooseHello x h m s = keAlert x.id 40 s := by
  unfold chooseHello
  rw [if_neg (by rw [ha]; decide)]
  dsimp only
  split
  · next hu hc => rw [hu, hc] at hn; exact absurd hn (by simp)
  · rfl

variable {u n : Nat} (hu : (if x.retried then [x.suite] else suiteOrder s).find? (fun u => h.suites.contains u) = some u)
  (hc : ([0, 1, 2, 3] : List Nat).find? (fun n => certValid s n && h.schemes.contains (s.get (F.SPU_KE_CERT_SCHEME n))) = some n)
include hu hc

theorem chooseHello_taken {g : Nat} {k : Bytes}
    (hg : (if x.retried then [x.group] else groupOrder s).find? (fun g => h.shares.any (fun e => decide (e.1 = g))) = some g)
    (hk : shareKey g (h.share g) = some k) : chooseHello x h m s = helloTaken x h m k u g n s := by
  unfold Hello.share at hk
  simp only [chooseHello, ha, Bool.true_eq_false, if_false, hu, hc, hg, hk]

/-- A share that is no point of its group ends the handshake. -/
theorem chooseHello_badShare {g : Nat}
    (hg : (if x.retried then [x.group] else groupOrder s).find? (fun g => h.shares.any (fun e => decide (e.1 = g))) = some g)
    (hk : shareKey g (h.share g) = none) : chooseHello x h m s = keAlert x.id 47 s := by
  unfold Hello.share at hk
  simp only [chooseHello, ha, Bool.true_eq_false, if_false, hu, hc, hg, hk]

variable (hg : (if x.retried then [x.group] else groupOrder s).find? (fun g => h.shares.any (fun e => decide (e.1 = g))) = none)
include hg

/-- Without a share of a fitting group the client is asked for one, once. -/
theorem chooseHello_retry {g : Nat} (ho : (if x.retried then [x.group] else groupOrder s).find? (fun g => h.groups.contains g) = some g)
    (hr : x.retried = false) : chooseHello x h m s = helloRetry x h m u g s := by
  simp only [hr, Bool.false_eq_true, if_false] at hu hg ho
  simp only [chooseHello, ha, Bool.true_eq_false, Bool.false_eq_true, if_false, hu, hc, hg, ho, hr]

theorem chooseHello_noGroup (ho : (if x.retried then [x.group] else groupOrder s).find? (fun g => h.groups.contains g) = none ∨ x.retried = true) :
    chooseHello x h m s = keAlert x.id 40 s := by
  simp only [chooseHello, ha, Bool.true_eq_false, if_false, hu, hc, hg]
  split
  · next ho' => rw [ho'] at ho; exact if_pos (ho.resolve_left (by simp))
  · rfl

end hello

theorem sendCcs_state (x : KeSession) (s : State) : (sendCcs x s).2 = if x.legacy = [] then s else (tlsSend x 20 [1] s).2 := apply_ite Prod.snd _ _ _

/-- A retry goes out with a change_cipher_spec to a client that gave a session identifier (R152; assumption log 95). -/
theorem helloRetry_eq (x : KeSession) (h : Hello) (m : Bytes) (u g : Nat) (s : State) :
    helloRetry x h m u g s = (let q := serverHello retryRandom h.legacy u (natBE 2 (groupName g))
      let y : KeSession := { x with
        retried := true, suite := u, group := g, legacy := h.legacy, transcript := handshake 254 (tlsHash u m) ++ q, early := if h.early then 16384 else 0 }
      let r := tlsSend y 22 q s
      if h.legacy = [] then r.2 else (tlsSend r.1 20 [1] r.2).2) := sendCcs_state _ _

/-! ## A KeyUpdate (R153) -/

theorem keyUpdate_undefined (x : KeSession) {k : Nat} (s : State) (hk : 1 < k) : keyUpdate x k s = keAlert x.id 47 s := if_pos hk

/-- The keys of the client move on. -/
theorem keyUpdate_client {x : KeSession} {k : Nat} (s : State) (hp : x.part = []) (hk : k ≤ 1) (h : k = 0 ∨ x.phase = 5) :
    keyUpdate x k s = putSession { x with rx := x.rx.next x.suite } s := by
  have keep : { x with rx := x.rx.next x.suite, part := [] } = { x with rx := x.rx.next x.suite } := by rw [hp]
  unfold keyUpdate
  rw [keep, if_neg (Nat.not_lt.mpr hk)]
  exact if_pos h

/-- Where the client asks, a KeyUpdate leaves and the keys of the server move on as well. -/
theorem keyUpdate_both {x : KeSession} (s : State) (hp : x.part = []) (h5 : x.phase ≠ 5) :
    keyUpdate x 1 s = (let r := tlsSend { x with rx := x.rx.next x.suite } 22 (handshake 24 [0]) s
      putSession { r.1 with tx := x.tx.next x.suite } r.2) := by
  have keep : { x with rx := x.rx.next x.suite, part := [] } = { x with rx := x.rx.next x.suite } := by rw [hp]
  unfold keyUpdate
  rw [keep, if_neg (by decide)]
  refine (if_neg (not_or.mpr ⟨by decide, h5⟩)).trans ?_
  rw [← tlsSend_next { x with rx := x.rx.next x.suite } 22 (handshake 24 [0]) s]

/-! ## The judgement of a request (R154) -/

theorem keJudge_unfinished {y : KeSession} (s : State) (h : y.finished = false) : keJudge y s = if y.closed then dropSession y.id s else s := if_pos h

section judge
variable {y : KeSession} {s : State} (h : y.finished = true)
include h

theorem keJudge_wait (hv : keVerdict y.data y.closed s = .wait) : keJudge y s = s := by
  simp only [keJudge, h, hv, Bool.true_eq_false, if_false]

theorem keJudge_error {code : Nat} (hv : keVerdict y.data y.closed s = .error code) : keJudge y s = keReply y (keError code) (keCount 2 1 s) := by
  simp only [keJudge, h, hv, Bool.true_eq_false, if_false, keErrorReply]

theorem keJudge_empty {b : Bytes} (hv : keVerdict y.data y.closed s = .empty b) : keJudge y s = keReply y b (keCount 1 1 s) := by
  simp only [keJudge, h, hv, Bool.true_eq_false, if_false]

theorem keJudge_full (hv : keVerdict y.data y.closed s = .full) :
    keJudge y s = (let t := putSession { y with phase := 6, data := [] } s
      { t with ke := { t.ke with sealing := t.ke.sealing ++ [y.id] } }) := by
  simp only [keJudge, h, hv, Bool.true_eq_false, if_false]

end judge

/-- Settles O48: a SYN by the certificates and the sessions, octets by the record that they end, a ClientHello by what fits, a request by its verdict. -/
theorem keyEstablishmentCommandsTakeEffect : Obligations.KeyEstablishmentCommandsTakeEffect := by
  refine ⟨fun s sa e he hh => ?_, fun s id b x hx hh hb => ⟨fun hp => ?_, fun hf => ?_⟩, fun s id m x h hx hh hp hs hpart h1 h4 hn hm hh' => ?_,
    fun s id c a x hx hh hf hp hs hpart hc ho => ?_, fun s id b closed x hx hh hp => ⟨fun hy => exec_ntskeRequest_gone hx hh hp hy, fun y hy => ?_⟩,
    fun s id x hx hp ht hh => exec_ntskeSessionTimeout_due hx hh hp ht, fun s id x hx hp hh => exec_ntskeSessionEnd_closed hx hh hp, fun s => rfl⟩
  · rw [exec_ntskeSyn_delivered he hh]
    refine ⟨fun ha => ?_, fun ha hn => ?_, fun n ha hn hv hany => ?_, fun n ha hn hv hany hmax => ?_, fun n ha hn hv hany hmax => ?_⟩
    · exact congrArg _ (if_neg (Bool.eq_false_iff.mp ha))
    · exact congrArg _ ((if_pos ha).trans (openSession_noCertificate hn))
    · exact congrArg _ ((if_pos ha).trans ((openSession_certificate hn hv).trans (if_pos hany)))
    · exact congrArg _ ((if_pos ha).trans ((openSession_certificate hn hv).trans ((if_neg (Bool.eq_false_iff.mp hany)).trans (if_pos hmax))))
    · exact congrArg _ ((if_pos ha).trans ((openSession_certificate hn hv).trans ((if_neg (Bool.eq_false_iff.mp hany)).trans
        (if_neg (Nat.not_le.mpr hmax)))))
  · rw [exec_tlsClientHello_open hx hh b hp, tlsInput_wait x b false s hb, Bool.or_false]
  · rw [exec_tlsKeyUpdate_finished hx hh b hf, tlsInput_wait x b false s hb, Bool.or_false]
  · obtain rfl := session_id hx
    have input := (exec_tlsClientHello_open hx hh (tlsHead 22 m.length ++ m) hp).trans
      (congrArg _ (tlsInput_hello hx hs hp hpart h1 h4 hn hm hh' _ rfl _ rfl))
    refine ⟨fun ha => ?_, fun ha hn => ?_, fun u n g k ha hu hc hg hk => ?_, fun u n g ha hu hc hg hk => ?_, fun u n g ha hu hc hg ho hr => ?_,
      fun u n ha hu hc hg ho => ?_⟩
    · exact input.trans (congrArg _ (chooseHello_noAlpn ha))
    · exact input.trans (congrArg _ (chooseHello_unfit ha hn))
    · exact input.trans (congrArg _ (chooseHello_taken ha hu hc hg hk))
    · exact input.trans (congrArg _ (chooseHello_badShare ha hu hc hg hk))
    · exact input.trans (congrArg _ ((chooseHello_retry ha hu hc hg ho hr).trans (helloRetry_eq _ _ _ _ _ _)))
    · exact input.trans (congrArg _ (chooseHello_noGroup ha hu hc hg ho))
  · obtain rfl := session_id hx
    have input := (exec_tlsKeyUpdate_finished hx hh (tlsHead 23 c.length ++ c) hf).trans
      (congrArg _ (tlsInput_keyUpdate hx hs hp hpart hf hc ho _ rfl _ rfl))
    refine ⟨fun ha => ?_, fun ha h => ?_, fun ha h5 => ?_⟩
    · exact input.trans (congrArg _ (keyUpdate_undefined x _ ha))
    · exact input.trans (congrArg _ (keyUpdate_client _ hpart ha h))
    · rw [ha] at input
      exact input.trans (congrArg _ (keyUpdate_both _ hpart h5))
  · have judged := exec_ntskeRequest_judged hx hh hp hy
    obtain rfl := session_id hy
    refine ⟨fun hf hc => ?_, fun hf hc => ?_, fun hf hv => ?_, fun code hf hv => ?_, fun q hf hv => ?_, fun hf hv => ?_⟩
    · rw [judged, keJudge_unfinished _ hf, if_pos hc]
    · rw [judged, keJudge_unfinished _ hf, if_neg (Bool.eq_false_iff.mp hc)]
    · rw [judged, keJudge_wait hf hv]
    · rw [judged, keJudge_error hf hv]
      rfl
    · rw [judged, keJudge_empty hf hv]
      rfl
    · rw [judged, keJudge_full hf hv]

end Sys2Proof.Machine
end

/-! The commands of the system block: the management tick, the timers of SURVEY and SAFE, the bank voltages, and the test access port
(R26, R368, R370, R375, R424, R425, R427). -/
section
namespace Sys2Proof.Machine

/-! ## The management tick (R26) -/

/-- The state in which the tick's period starts anew. -/
def tickTaken (s : State) : State := { s with sys := { s.sys with tickPhase := 0 } }

theorem exec_managementTick_due {s : State} (hc : tickClock s = true) (ht : tickPeriods ≤ s.sys.tickPhase) :
    exec .managementTick s = .next (if powered s then fullTick (tickTaken s) else alwaysOnTick (tickTaken s)) :=
  congrArg _ (if_pos (by simp [tickDue, hc, ht]))

/-- The tick's clock of a powered device is MCLK. -/
theorem tickClock_powered {s : State} (hp : powered s = true) (hm : mclkRuns s = true) : tickClock s = true := (if_pos hp).trans hm

/-- Without power the always-on domain ticks by itself, but for OFF. -/
theorem tickClock_alwaysOn {s : State} (hp : powered s = false) (ho : s.sys.phase ≠ .off) : tickClock s = true :=
  (if_neg (Bool.eq_false_iff.mp hp)).trans (decide_eq_true ho)

/-! ## Bank voltages (R424, R425) -/

/-- A change of SYS_IOBANK that is permitted loads the register and holds the outputs of the banks that moved. -/
theorem exec_iobankChange_permitted {s : State} (p : Path) (v : Word) (h : Admits s) (hd : denyReason (countAccess p s) A.SYS_IOBANK v = none) :
    exec (.iobankChange p v) s = .next (bankMove ((countAccess p s).rd A.SYS_IOBANK)
      (keepHistory (countAccess p s).regs (loadLive p (countAccess p s) (A.SYS_IOBANK, v)))) :=
  regCommand_image p A.SYS_IOBANK v h (by decide +kernel) (ownedWhole_outside _ (.inl (by decide))) hd

/-! ## The test access port (R427) -/

theorem tapTake_powered (n : Nat) {s : State} (h : s.on F.SYS_PWR_STAT_VINGOOD = true) :
    tapTake n s = { s with sys := { s.sys with tap := if 3 ≤ n ∧ ¬(s.sys.phase = .running ∧ s.mode = mMaint) then 0 else n } } := if_pos h

/-- The identification register leaves on TDO once the voltage of BK1 is set. -/
theorem exec_idcode_powered {s : State} (h : s.on F.SYS_PWR_STAT_VINGOOD = true) :
    exec .idcode s = .next { s with sys := { s.sys with tap := 1 }, out := if s.sys.banksSet = true then .tdo (natLE 4 idcode) :: s.out else s.out } := by
  show execIdcode s = _
  unfold execIdcode
  rw [tapTake_powered 1 h, h, if_neg (c := 3 ≤ 1 ∧ _) (fun e => absurd e.1 (by decide))]
  cases s.sys.banksSet <;> rfl

/-- Settles O52: the tick by the power of the device, the timers and the bank by their due time, the test access port by its instruction. -/
theorem systemCommandsTakeEffect : Obligations.SystemCommandsTakeEffect := by
  refine ⟨fun s ht => ⟨fun hp hm => ?_, fun hp ho => ?_⟩, fun s hm hp h0 ht => congrArg _ (if_pos ⟨hm, hp, h0, ht⟩),
    fun s hm hp h0 h3 ht => congrArg _ (if_pos ⟨hm, hp, h0, h3, ht⟩), fun s v p ha hd => exec_iobankChange_permitted p v ha hd,
    fun s h0 ht => congrArg _ (if_pos ⟨h0, ht⟩), fun s h => ⟨?_, exec_idcode_powered h⟩⟩
  · exact (exec_managementTick_due (tickClock_powered hp hm) ht).trans (congrArg _ (if_pos hp))
  · exact (exec_managementTick_due (tickClock_alwaysOn hp ho) ht).trans (congrArg _ (if_neg (Bool.eq_false_iff.mp hp)))
  · simp only [List.forall_mem_cons]
    exact ⟨congrArg _ (tapTake_powered 0 h), congrArg _ (tapTake_powered 2 h), congrArg _ (tapTake_powered 3 h), congrArg _ (tapTake_powered 4 h),
      congrArg _ (tapTake_powered 5 h), congrArg _ (tapTake_powered 6 h), congrArg _ (tapTake_powered 7 h), by simp⟩

end Sys2Proof.Machine
end

/-! Datum values in numbers: their comparison, the NTP format, and the bytes of a record (R43, R45, R56, R387). -/
section
namespace Sys2Proof.Machine

theorem secUnits_eq : secUnits = 65536000000000 := rfl
theorem datumMod_eq : datumMod = 18446744073709551616000000000 := rfl

/-! ## Comparison (R45) -/

/-- The difference of two Datum values is the true one modulo 2^48 s. -/
theorem instDiff_emod (a b : Instant) : (instDiff a b - ((a : Int) - b)) % datumMod = 0 := by
  unfold instDiff
  rw [datumMod_eq]
  dsimp only
  split <;> omega

/-- It lies from -2^47 s up to, and not at, 2^47 s. -/
theorem instDiff_range (a b : Instant) : -(2 ^ 47 * (secUnits : Int)) ≤ instDiff a b ∧ instDiff a b < 2 ^ 47 * (secUnits : Int) := by
  unfold instDiff
  rw [datumMod_eq, secUnits_eq]
  dsimp only
  split <;> omega

theorem after_iff (a b : Instant) : after a b = true ↔ 0 < instDiff a b := decide_eq_true_iff

theorem cmpReached_iff (s : State) (n : Nat) : cmpReached s n = true ↔ 0 ≤ instDiff (outTime s) (cmpTarget s n) := decide_eq_true_iff

/-- Settles O60: the difference by its residue and its range, the comparisons by definition. -/
theorem datumComparisonIsASignedDifference : Obligations.DatumComparisonIsASignedDifference := by
  refine ⟨fun a b ha hb => ?_, cmpReached_iff⟩
  have residue := instDiff_emod a b
  obtain ⟨low, high⟩ := instDiff_range a b
  have below : (a : Int) < datumMod ∧ (b : Int) < datumMod := ⟨Int.ofNat_lt.mpr ha, Int.ofNat_lt.mpr hb⟩
  refine ⟨residue, low, Int.le_sub_one_of_lt high, fun h0 h1 => ?_, fun h => ?_, fun h => ?_, after_iff a b⟩ <;>
  · simp only [secUnits_eq, datumMod_eq] at *
    omega

/-! ## The NTP format (R56) -/

/-- A Datum value in counts of 2^-32 s, rounded to nearest, a tie upward. -/
def ntpCount (t : Nat) : Nat := (t * 2 ^ 33 + secUnits) / (2 * secUnits)

theorem ntpCount_nearest (t : Nat) :
    (2 * (ntpCount t : Int) - 1) * secUnits ≤ 2 ^ 33 * (t : Int) ∧ 2 ^ 33 * (t : Int) < (2 * (ntpCount t : Int) + 1) * secUnits := by
  simp only [ntpCount, secUnits_eq]
  omega

/-- The timestamp counts from 1900, less TAI-UTC, modulo 2^32 s. -/
theorem ntpRound_whole (t : Nat) (off : Int) :
    (ntpRound t 1 off : Int) = ((ntpCount t : Int) + (2208988800 - off) * 2 ^ 32) % 2 ^ 64 := by
  have count : ((t : Int) * 2 ^ 33 + (secUnits : Int) * 1) / (2 * ((secUnits : Int) * 1)) = ntpCount t := by
    rw [mul_one, ntpCount]
    push_cast
    rfl
  unfold ntpRound
  dsimp only
  rw [count]
  exact Int.toNat_of_nonneg (Int.emod_nonneg _ (by decide))

/-- Where leap smear does not apply, TAI-UTC at the instant is taken off. -/
theorem ntpTime_unsmeared {s : State} {t : Instant} (h : smearing s (s.leapAt t) = false) : ntpTime s t = ntpRound t 1 (ntpOffset (s.leapAt t) t) :=
  if_neg (by simp [h])

/-- Settles O57: the count is the rounded Datum value, and the timestamp holds it from 1900 on. -/
theorem ntpTimestampIsTheDatumRounded : Obligations.NtpTimestampIsTheDatumRounded := by
  intro s t h
  obtain ⟨low, high⟩ := ntpCount_nearest t
  refine ⟨ntpCount t, low, high, ?_⟩
  rw [ntpTime_unsmeared h]
  have value := ntpRound_whole t (ntpOffset (s.leapAt t) t)
  generalize ntpRound t 1 (ntpOffset (s.leapAt t) t) = x at value
  generalize ntpOffset (s.leapAt t) t = off at value
  omega

/-! ## The bytes of an entry (R387) -/

/-- A field that ends before the last part is read from what stands before it. -/
theorem leAt_append_left {a c : Bytes} {o n : Nat} (h : o + n ≤ a.length) : leAt (a ++ c) o n = leAt a o n := by
  unfold leAt slice
  rw [List.drop_append_of_le_length (by omega), List.take_append_of_le_length (by rw [List.length_drop]; omega)]

/-- The last field lies at the length of what stands before it. -/
theorem leAt_append_last {a : Bytes} {o n : Nat} (v : Nat) (h : a.length = o) : leAt (a ++ natLE n v) o n = v % 256 ^ n := by
  simpa using leAt_append a [] n v o h

theorem leAt_natLE (n v : Nat) : leAt (natLE n v) 0 n = v % 256 ^ n := leAt_append_last (a := []) v rfl

theorem Entry.bytes_length (e : Entry) : e.bytes.length = 32 := by
  simp [Entry.bytes, instBytes, natLE_length]

/-- The words of the Datum value in an entry. -/
theorem Entry.bytes_datum (e : Entry) :
    leAt e.bytes 0 2 = instFrac e.datum % 256 ^ 2 ∧ leAt e.bytes 2 4 = instNs e.datum % 256 ^ 4 ∧ leAt e.bytes 6 6 = instSec e.datum % 256 ^ 6 := by
  unfold Entry.bytes instBytes
  simp (disch := simp [natLE_length]) only [leAt_append_left, leAt_append_last, leAt_natLE, and_self]

/-- The other fields of an entry. -/
theorem Entry.bytes_fields (e : Entry) :
    leAt e.bytes 12 2 = (if e.bad then 0xFFFE else e.src) % 256 ^ 2
    ∧ leAt e.bytes 14 2 = (if e.bad then 0xFFFE else e.code) % 256 ^ 2
    ∧ leAt e.bytes 16 4 = e.a0 % 256 ^ 4 ∧ leAt e.bytes 20 4 = e.a1 % 256 ^ 4 ∧ leAt e.bytes 24 4 = e.a2 % 256 ^ 4 ∧ leAt e.bytes 28 4 = e.a3 % 256 ^ 4 := by
  unfold Entry.bytes instBytes
  simp (disch := simp [natLE_length]) only [leAt_append_left, leAt_append_last, and_self]

/-- FRAC, NS and SEC make up the Datum value (R43). -/
theorem instant_of_parts (t : Nat) (h : t < datumMod) :
    (instSec t % 256 ^ 6 * 1000000000 + instNs t % 256 ^ 4) * 65536 + instFrac t % 256 ^ 2 = t ∧ instNs t % 256 ^ 4 < 1000000000 := by
  rw [datumMod_eq] at h
  simp only [instSec, instNs, instFrac, secUnits_eq]
  omega

/-- Settles O59: each field at its offset, and the Datum value from its three words. -/
theorem recordIsThirtyTwoLittleEndianBytes : Obligations.RecordIsThirtyTwoLittleEndianBytes := by
  intro e ht hsrc hcode h0 h1 h2 h3
  obtain ⟨frac, ns, sec⟩ := e.bytes_datum
  obtain ⟨src, code, a0, a1, a2, a3⟩ := e.bytes_fields
  obtain ⟨whole, below⟩ := instant_of_parts e.datum ht
  rw [frac, ns, sec, src, code, a0, a1, a2, a3]
  refine ⟨e.bytes_length, whole, below, fun hb => ?_, fun hb => ?_, Nat.mod_eq_of_lt h0, Nat.mod_eq_of_lt h1, Nat.mod_eq_of_lt h2, Nat.mod_eq_of_lt h3⟩
  · rw [hb]
    exact ⟨Nat.mod_eq_of_lt hsrc, Nat.mod_eq_of_lt hcode⟩
  · rw [hb]
    exact ⟨rfl, rfl⟩

end Sys2Proof.Machine
end

/-! The vote of the Datum's copies, and what the commands of a compare unit leave in its CTL (R46, R51, R52, R71). -/
section
namespace Sys2Proof.Machine

/-! ## A bit of an IRQ_STAT, and the last field of a row -/

/-- What a group signals touches only the performance monitor. -/
theorem withGroup_pmcOnly (g : Nat) (f : State → State) (s : State) : PmcOnly (f s) (withGroup g f s) := by
  unfold withGroup
  dsimp only
  split
  · exact .signal _ _
  · exact .refl _

theorem irqSet_pmcOnly (g a i : Nat) (s : State) : PmcOnly (s.setBit a i) (irqSet g a i s) := withGroup_pmcOnly g (fun s => s.setBit a i) s

theorem PmcOnly.bit {s t : State} (h : PmcOnly s t) {a : Nat} (he : eventReg a = false) (j : Nat) : t.bit a j = s.bit a j := by
  unfold State.bit; rw [h.rd he]

theorem PmcOnly.get {s t : State} (h : PmcOnly s t) (f : Fld) (he : eventReg f.addr = false) : t.get f = s.get f := by
  unfold State.get; rw [h.rd he]

/-- An interrupt sets its bit and keeps the others. -/
theorem irqSet_bit (g : Nat) {a i : Nat} (j : Nat) {s : State} (he : eventReg a = false) (hi : i < 32) (hs : s.regs.sorted = true) :
    (irqSet g a i s).bit a j = if j = i then true else s.bit a j := by
  rw [(irqSet_pmcOnly g a i s).bit he, State.bit_setBit s a i j hi hs]

/-- A field of one bit is the bit. -/
theorem fieldGet_bit (v : Word) (i : Nat) : fieldGet v i 1 = (v.getLsbD i).toNat := by
  unfold fieldGet BitVec.getLsbD
  rw [BitVec.extractLsb'_toNat, Nat.shiftRight_eq_div_pow, pow_one, Nat.toNat_testBit]

theorem State.on_bit (s : State) (a i : Nat) : s.on ⟨a, i, 1⟩ = s.bit a i := by
  unfold State.on State.get
  rw [fieldGet_bit]
  show _ = (s.rd a).getLsbD i
  cases (s.rd a).getLsbD i <;> rfl

/-- The last field of a row reads what a write loads into it (R9). -/
theorem RegRow.written_last {r : RegRow} {f : FieldRow} (h : r.fields.getLast? = some f) (ha : f.acc = .rw) (hw : f.lsb + f.width ≤ 32)
    (brought old v : Word) : fieldGet (r.written brought old v) f.lsb f.width = f.loaded v % 2 ^ f.width := by
  obtain ⟨l, hl⟩ := List.getLast?_eq_some_iff.mp h
  unfold RegRow.written
  rw [hl, List.foldl_append, List.foldl_cons, List.foldl_nil]
  generalize l.foldl (writeField brought v) old = w
  unfold writeField
  rw [ha]
  exact fieldGet_set_same w _ _ _ hw

/-! ## The vote (R51, R52) -/

/-- Where the two other copies agree, a reload makes all three equal and leaves the vote as it was. -/
theorem DatumState.reload_agreed {d : DatumState} {copy : Fin 3} (h0 : copy = 0 → d.c1 = d.c2) (h1 : copy = 1 → d.c0 = d.c2)
    (h2 : copy = 2 → d.c0 = d.c1) : d.reload copy = { d with c0 := d.vote, c1 := d.vote, c2 := d.vote } := by
  match copy with
  | 0 =>
    have agreed := h0 rfl
    have : d.vote = d.c1 := by
      by_cases h : d.c0 = d.c1 ∨ d.c0 = d.c2
      · exact (if_pos h).trans (h.elim id fun h => h.trans agreed.symm)
      · exact (if_neg h).trans (if_pos agreed)
    simp [DatumState.reload, this, ← agreed]
  | 1 =>
    have agreed := h1 rfl
    have : d.vote = d.c0 := if_pos (.inr agreed)
    simp [DatumState.reload, this, ← agreed]
  | 2 =>
    have agreed := h2 rfl
    have : d.vote = d.c0 := if_pos (.inl agreed)
    simp [DatumState.reload, this, ← agreed]

theorem DatumState.vote_equal (d : DatumState) (c : Nat) : ({ d with c0 := c, c1 := c, c2 := c } : DatumState).vote = c := if_pos (.inl rfl)

/-- The state in which a copy is reloaded, and its disagreement is counted and signalled. -/
def voteCounted (copy : Nat) (s : State) : State :=
  pmcEvent 8 0x05 0x80 1 (irqSet 2 A.DTM_IRQ_STAT 6 ({ s with dtm := s.dtm.reload copy }.addSat F.DTM_VOTE_CNT_COUNT 1))

theorem exec_dtmVote (copy : Fin 3) (s : State) : exec (.dtmVote copy) s = .next (faultSend .dtmVote 0 0 0 0 (voteCounted copy s)) := rfl

/-- The two registers that a vote changes. -/
def voteReg (a : Nat) : Bool := decide (a = A.DTM_VOTE_CNT ∨ a = A.DTM_IRQ_STAT)

theorem voteCounted_frame (copy : Nat) (s : State) : ChangesOnly voteReg { s with dtm := s.dtm.reload copy } (voteCounted copy s) :=
  (((ChangesOnly.refl voteReg _).addSat F.DTM_VOTE_CNT_COUNT 1 (.inl rfl)).irqSet 2 A.DTM_IRQ_STAT 6 (.inl rfl)).pmcEvent 8 0x05 0x80 1 (by decide)

theorem voteCounted_count (copy : Nat) {s : State} (hs : s.regs.sorted = true) :
    (voteCounted copy s).get F.DTM_VOTE_CNT_COUNT = satAdd32 (s.get F.DTM_VOTE_CNT_COUNT) 1 := by
  unfold voteCounted
  rw [(PmcOnly.event 8 _ _ _ _ (by decide)).get _ (by decide), (irqSet_pmcOnly ..).get _ (by decide)]
  refine (State.get_set_addr _ ⟨A.DTM_IRQ_STAT, 6, 1⟩ _ _ (by decide)).trans ?_
  exact State.get_addSat { s with dtm := s.dtm.reload copy } F.DTM_VOTE_CNT_COUNT 1 hs (by decide) rfl

theorem voteCounted_irq (copy j : Nat) {s : State} (hs : s.regs.sorted = true) :
    (voteCounted copy s).bit A.DTM_IRQ_STAT j = if j = 6 then true else s.bit A.DTM_IRQ_STAT j := by
  have kept : (State.addSat { s with dtm := s.dtm.reload copy } F.DTM_VOTE_CNT_COUNT 1).bit A.DTM_IRQ_STAT j = s.bit A.DTM_IRQ_STAT j :=
    congrArg (·.getLsbD j) (State.rd_set_other { s with dtm := s.dtm.reload copy } F.DTM_VOTE_CNT_COUNT _ _ (by decide))
  unfold voteCounted
  rw [(PmcOnly.event 8 _ _ _ _ (by decide)).bit (by decide), irqSet_bit 2 j (by decide) (by decide), kept]
  exact State.set_sorted { s with dtm := s.dtm.reload copy } F.DTM_VOTE_CNT_COUNT _ hs

/-- Settles O18: the reload keeps the vote, and the count, the interrupt and the fault are the report's. -/
theorem oneDisagreeingCopyIsMasked : Obligations.OneDisagreeingCopyIsMasked := by
  intro copy s hc h0 h1 h2
  have sorted := regsWf_sorted hc.1
  have frame := voteCounted_frame copy s
  have dtm : (voteCounted copy s).dtm = { s.dtm with c0 := s.dtm.vote, c1 := s.dtm.vote, c2 := s.dtm.vote } :=
    frame.dtm.trans (DatumState.reload_agreed h0 h1 h2)
  refine ⟨_, exec_dtmVote copy s, ?_, ?_, voteCounted_count copy sorted, (voteCounted_irq copy 6 sorted).trans (if_pos rfl), fun i hi => ?_, ?_, ?_,
    fun a ha hb he => ?_⟩
  · show (voteCounted copy s).dtm = { s.dtm with c0 := (voteCounted copy s).dtm.c0, c1 := (voteCounted copy s).dtm.c0, c2 := (voteCounted copy s).dtm.c0 }
    rw [dtm]
  · show visible (voteCounted copy s).dtm.vote = visible s.dtm.vote
    rw [dtm, DatumState.vote_equal]
  · exact (voteCounted_irq copy i sorted).trans (if_neg hi)
  · simp [faultSend, frame.faults]
  · simp [faultSend]
  · exact frame.regs a (decide_eq_false (not_or.mpr ⟨ha, hb⟩)) he

/-! ## A refused commit (R46) -/

theorem eventReg_cmp (n : Nat) {a : Nat} (h : A.DTM_CMP_CTL n ≤ a) : eventReg a = false :=
  eventReg_above (Nat.le_trans (by simp only [A.DTM_CMP_CTL]; omega) h)

/-- The count of an access keeps the words that a commit takes. -/
theorem countAccess_copyOr (p : Path) (s : State) {a : Nat} (h : eventReg a = false) : (countAccess p s).copyOr p a = s.copyOr p a := by
  have frame := countAccess_frame (fun _ => false) p s
  have copies : (countAccess p s).copies p = s.copies p := by
    cases p
    · exact frame.copyMw0
    · exact frame.copyMspi
  unfold State.copyOr
  rw [copies, countAccess_rd p s h]

theorem countAccess_cmpOwned (p : Path) (s : State) (n : Nat) : cmpOwned (countAccess p s) n = cmpOwned s n := by
  unfold cmpOwned inPair
  rw [(countAccess_frame (fun _ => false) p s).on F.DVL_CFG_EN rfl (by decide)]

@[simp] theorem dropCopies_regs (p : Path) (l : List Nat) (s : State) : (dropCopies p l s).regs = s.regs := by cases p <;> rfl
@[simp] theorem dropCopies_dtm (p : Path) (l : List Nat) (s : State) : (dropCopies p l s).dtm = s.dtm := by cases p <;> rfl
@[simp] theorem dropCopies_pending (p : Path) (l : List Nat) (s : State) : (dropCopies p l s).pending = s.pending := by cases p <;> rfl

/-- Settles O56: the counted access and the dropped copies change no register of the unit, and BADVAL is one bit of its CTL. -/
theorem refusedCommitKeepsTheUnitAndSetsBadval : Obligations.RefusedCommitKeepsTheUnitAndSetsBadval := by
  intro s p n w0 ha hc ho hd hns
  have tgt : eventReg (A.DTM_CMP_TGT_W0 n + 4) = false := eventReg_cmp n (by simp only [A.DTM_CMP_CTL, A.DTM_CMP_TGT_W0]; omega)
  have per : eventReg (A.DTM_CMP_PER_W0 n + 4) = false := eventReg_cmp n (by simp only [A.DTM_CMP_CTL, A.DTM_CMP_PER_W0]; omega)
  have range := hns
  rw [← countAccess_copyOr p s tgt, ← countAccess_copyOr p s per] at range
  have refused := cmpLoad_badval p w0 range
  generalize hu : dropCopies p _ (countAccess p s) = u at refused
  have sorted : u.regs.sorted = true := by rw [← hu, dropCopies_regs]; exact countAccess_sorted p (regsWf_sorted hc.1)
  have kept : ∀ a, eventReg a = false → u.rd a = s.rd a := fun a he => by rw [← hu, dropCopies_rd, countAccess_rd p s he]
  have struck : ∀ j, (u.strike (F.DTM_CMP_CTL_BADVAL n)).bit (A.DTM_CMP_CTL n) j = if j = 18 then true else u.bit (A.DTM_CMP_CTL n) j := fun j =>
    State.bit_setBit u _ 18 j (by decide) sorted
  refine ⟨_, ?_, (State.on_bit _ _ 18).trans ((struck 18).trans (if_pos rfl)), fun j hj => ?_, fun a hn he => ?_, ?_, ?_⟩
  · rw [exec_cmpCommit_admitted p n w0 ha, cmpCommit_free p w0 ((countAccess_cmpOwned p s n).trans ho) hd, refused]
  · rw [struck, if_neg hj]
    exact congrArg (·.getLsbD j) (kept _ (eventReg_cmp n (Nat.le_refl _)))
  · exact (State.rd_set_other u _ _ a hn).trans (kept a he)
  · show u.dtm = s.dtm
    rw [← hu, dropCopies_dtm, (countAccess_frame (fun _ => false) p s).dtm]
  · show u.pending = s.pending
    rw [← hu, dropCopies_pending, (countAccess_frame (fun _ => false) p s).pending]

/-! ## A disabled unit (R71) -/

/-- EN is the last field of a unit's CTL, and 1 bit wide. -/
theorem cmpCtl_row (n : Fin 16) : ∃ r, findRow (A.DTM_CMP_CTL n) = some r ∧ r.fields.getLast? = some ⟨0, 1, .rw, 0, 0, 1⟩ := by
  have table : ∀ n : Fin 16, (findRow (A.DTM_CMP_CTL n)).any (fun r => decide (r.fields.getLast? = some ⟨0, 1, .rw, 0, 0, 1⟩)) = true := by decide +kernel
  obtain ⟨r, hf, hr⟩ := (Option.any_eq_true ..).mp (table n)
  exact ⟨r, hf, of_decide_eq_true hr⟩

/-- A write of CTL with EN 0 leaves EN 0. -/
theorem regWrite_cmpCtl_en {n : Fin 16} {v : Word} {s : State} (hv : v.getLsbD 0 = false) (hs : s.regs.sorted = true) :
    (regWrite (A.DTM_CMP_CTL n) v s).on (F.DTM_CMP_CTL_EN n) = false := by
  obtain ⟨r, hf, hl⟩ := cmpCtl_row n
  have zero : fieldGet v 0 1 = 0 := by rw [fieldGet_bit, hv]; rfl
  rw [regWrite_row v s hf]
  refine decide_eq_false (not_not.mpr ?_)
  unfold State.get
  rw [State.rd_wr_same _ _ _ hs]
  refine (r.written_last hl rfl (by decide) _ _ v).trans ?_
  simp [FieldRow.loaded, zero, clampNat]

theorem synReg_cmpCtl (n : Fin 16) : synReg (A.DTM_CMP_CTL n) = false := by
  simp only [synReg, A.DTM_CMP_CTL, decide_eq_false_iff_not]
  omega

theorem synthChanged_cmpCtl (n : Fin 16) (s : State) (f : Fld) (h : f.addr = A.DTM_CMP_CTL n) : (synthChanged s).on f = s.on f := by
  unfold State.on State.get
  rw [h, synthChanged_rd s (synReg_cmpCtl n) (eventReg_cmp n (Nat.le_refl _))]

/-- A write of a free unit's CTL with EN 0 leaves the unit disabled and disarmed. -/
theorem cmpCtlWrite_disabled {n : Fin 16} {v : Word} {s : State} (ho : cmpOwned s n = false) (hv : v.getLsbD 0 = false) (hs : s.regs.sorted = true) :
    (cmpCtlWrite n v s).on (F.DTM_CMP_CTL_EN n) = false ∧ (cmpCtlWrite n v s).on (F.DTM_CMP_CTL_ARMED n) = false := by
  have en := regWrite_cmpCtl_en (n := n) hv hs
  have sorted : (regWrite (A.DTM_CMP_CTL n) v s).regs.sorted = true := by
    obtain ⟨r, hf, -⟩ := cmpCtl_row n
    rw [regWrite_row v s hf]
    exact State.wr_sorted s _ _ hs
  unfold cmpCtlWrite
  rw [ho, if_neg (by decide)]
  dsimp only
  rw [en, if_neg (by decide), synthChanged_cmpCtl n _ _ rfl, synthChanged_cmpCtl n _ _ rfl]
  generalize regWrite (A.DTM_CMP_CTL n) v s = w at en sorted
  constructor
  · unfold State.on at en ⊢
    rw [State.get_set_bits w (F.DTM_CMP_CTL_ARMED n) (F.DTM_CMP_CTL_EN n) 0 sorted rfl (show 15 + 1 ≤ 32 by decide) (.inl (show 0 + 1 ≤ 15 by decide))]
    exact en
  · unfold State.on
    rw [State.get_set_same w (F.DTM_CMP_CTL_ARMED n) 0 sorted (show 15 + 1 ≤ 32 by decide)]
    rfl

/-- A unit that is not armed does not fire. -/
theorem cmpDue_unarmed {s : State} {n : Nat} (h : s.on (F.DTM_CMP_CTL_ARMED n) = false) : cmpDue s n = false := by
  unfold cmpDue; rw [h]; rfl

/-- Settles O20: the written word has EN 0, and a unit without EN is disarmed. -/
theorem disabledCompareUnitIsDisarmed : Obligations.DisabledCompareUnitIsDisarmed := by
  intro s n v ha hc ho
  have en : (v &&& 0xFFFFFFFE).getLsbD 0 = false := by simp
  obtain ⟨disabled, disarmed⟩ := cmpCtlWrite_disabled (n := n) ((countAccess_cmpOwned .mw0 s n).trans ho) en (countAccess_sorted .mw0 (regsWf_sorted hc.1))
  refine ⟨_, exec_cmpDisable_admitted n v ha, disabled, disarmed, ?_⟩
  rw [exec_cmpFired, cmpDue_unarmed disarmed, if_neg (by decide)]

end Sys2Proof.Machine
end

/-! The events of the Datum and of TAI-UTC (R47, R49, R52, R59-R61, R68, R69, R115). -/
section
namespace Sys2Proof.Machine

/-! ## The end of a slew (R49, R68) -/

theorem showRate_dtm (s : State) : (showRate s).dtm = s.dtm := by simp [showRate]

/-- A rate put in force leaves the hand-off and the state of R70 as they are. -/
theorem applyRate_kept (base slew : Int) (s : State) :
    (applyRate base slew s).dtm.handoff = s.dtm.handoff ∧ (applyRate base slew s).dtm.under = s.dtm.under := by
  unfold applyRate
  dsimp only
  rw [((ChangesOnly.refl (fun _ => false) _).pmcEvent 8 0x02 0x80 1 (by decide)).dtm, showRate_dtm]
  exact ⟨rfl, rfl⟩

theorem dropSlew_kept (s : State) : (dropSlew s).dtm.handoff = s.dtm.handoff ∧ (dropSlew s).dtm.under = s.dtm.under :=
  applyRate_kept s.dtm.base 0 _

/-- The record of a hand-off leaves the Datum's state as it is. -/
theorem handoffEnd_under (s : State) : (handoffEnd s).dtm.under = s.dtm.under := by
  unfold handoffEnd
  split
  · rw [((ChangesOnly.refl (fun _ => false) _).record ..).dtm]
  · rfl

theorem handoffEnd_some {s : State} {old new : Nat} {d : Int} (h : s.dtm.handoff = some (old, new, d)) :
    handoffEnd s = record 0x0704 (old + 256 * new) (ofSigned 64 (d * 1000 / 65536)) (ofSigned 64 (d * 1000 / 65536) / 2 ^ 32) 0
      { s with dtm := { s.dtm with handoff := none } } := by
  unfold handoffEnd
  rw [h]

/-- In LOCKED the end of a slew changes no state of R70. -/
theorem slewEnd_locked {s : State} (h : s.dtm.under = 2) : slewEnd s = handoffEnd (dropSlew (s.set F.DTM_STATE_SLEW 0)) := by
  have under : (handoffEnd (dropSlew (s.set F.DTM_STATE_SLEW 0))).dtm.under = 2 := by
    rw [handoffEnd_under, (dropSlew_kept _).2, State.set_dtm, h]
  exact if_neg (by rw [under]; simp)

theorem exec_slewComplete_done {s : State} (h : s.on F.DTM_STATE_SLEW = true) (h0 : s.dtm.slewLeft = 0) : exec .slewComplete s = .next (slewEnd s) :=
  congrArg _ (if_pos (by simp [h, h0]))

theorem exec_datumRateApply_due {s : State} {r : RateChange} {rest : List RateChange} (h : s.dtm.announced = r :: rest) (hc : dclkRuns s = true)
    (hd : 0 ≤ instDiff s.datum r.due) : exec .datumRateApply s =
      .next (synthChanged (applyRate r.base (if s.dtm.slewLeft = 0 then 0 else r.slew) { s with dtm := { s.dtm with announced := rest } })) := by
  show execDatumRateApply s = _
  unfold execDatumRateApply
  rw [h]
  exact congrArg _ (if_pos ⟨hc, hd⟩)

/-! ## TAI-UTC and leaps (R59, R61) -/

/-- A two's complement field reads the number that was written to it. -/
theorem toSigned_ofSigned {x : Int} (h0 : -32768 ≤ x) (h1 : x ≤ 32767) : toSigned 16 (ofSigned 16 x) = x := by
  unfold toSigned ofSigned
  split <;> omega

theorem noteLeap_rd (f : State → State) (s : State) (a : Nat) : (noteLeap f s).rd a = (f s).rd a := by
  unfold noteLeap
  dsimp only
  split <;> rfl

theorem noteLeap_dtm (f : State → State) (s : State) : (noteLeap f s).dtm = (f s).dtm := by
  unfold noteLeap
  dsimp only
  split <;> rfl

theorem noteLeap_get (f : State → State) (s : State) (g : Fld) : (noteLeap f s).get g = (f s).get g := by
  unfold State.get; rw [noteLeap_rd]

/-- TAI-UTC in use and the fallback offset are as in `s`. -/
def SameOffset (s t : State) : Prop := t.get F.DTM_UTC_STAT_OFFSET = s.get F.DTM_UTC_STAT_OFFSET ∧ t.dtm.fallback = s.dtm.fallback

theorem SameOffset.of_frame {R : Nat → Bool} {s t u : State} (h : SameOffset s t) (g : ChangesOnly R t u) (hR : R A.DTM_UTC_STAT = false) :
    SameOffset s u := ⟨(g.get _ hR (by decide)).trans h.1, (congrArg DatumState.fallback g.dtm).trans h.2⟩

/-- A change of the pending leap keeps the offsets. -/
theorem SameOffset.pending (s : State) (k : Nat) (hs : s.regs.sorted = true) : SameOffset s (s.set F.DTM_UTC_STAT_PENDING k) :=
  ⟨State.get_set_bits s F.DTM_UTC_STAT_PENDING _ k hs rfl (by decide) (.inl (by decide)), rfl⟩

/-- The interrupts of the Datum. -/
def datumIrq (a : Nat) : Bool := decide (a = A.DTM_IRQ_STAT)

theorem leapCancel_offset {s : State} (hs : s.regs.sorted = true) : SameOffset s (leapCancel s) := by
  have pend := SameOffset.pending s 0 hs
  refine SameOffset.of_frame (t := noteLeap (fun s => s.set F.DTM_UTC_STAT_PENDING 0) s) ⟨?_, ?_⟩
    (((ChangesOnly.refl datumIrq _).irqSet 2 A.DTM_IRQ_STAT 4 (.inl rfl)).record ..) rfl
  · rw [noteLeap_get, pend.1]
  · rw [noteLeap_dtm, pend.2]

theorem leapAccept_offset (kind day src : Nat) {s : State} (hs : s.regs.sorted = true) : SameOffset s (leapAccept kind day src s) := by
  unfold leapAccept
  extract_lets late u v
  have noted : SameOffset s u := by
    have pend := SameOffset.pending { s with dtm := { s.dtm with leapDay := day, leapLate := late, leapFrom := src } } kind hs
    exact ⟨(noteLeap_get ..).trans pend.1, (congrArg DatumState.fallback (noteLeap_dtm ..)).trans pend.2⟩
  have scheduled : SameOffset s v := noted.of_frame (((ChangesOnly.refl datumIrq _).irqSet 2 A.DTM_IRQ_STAT 3 (.inl rfl)).record ..) rfl
  split
  · exact scheduled.of_frame ((ChangesOnly.refl datumIrq _).record ..) rfl
  · exact scheduled

theorem SameOffset.ite {s x y : State} {c : Prop} [Decidable c] (hx : SameOffset s x) (hy : SameOffset s y) : SameOffset s (if c then x else y) := by
  split <;> assumption

/-- Weighing the announcements accepts a leap, cancels one or does neither, and so keeps the offsets. -/
theorem leapEvaluate_offset {s : State} (hs : s.regs.sorted = true) : SameOffset s (leapEvaluate s) := by
  have same : SameOffset s s := ⟨rfl, rfl⟩
  have cancel := leapCancel_offset hs
  have accept := fun kind day src => leapAccept_offset kind day src hs
  unfold leapEvaluate
  dsimp only
  refine .ite (.ite (.ite ?_ same) (.ite cancel same)) (.ite (.ite (accept ..) same) (.ite cancel same))
  split
  · exact .ite (accept ..) same
  · exact accept ..

/-- TAI-UTC and the fallback offset move together by the leap. -/
theorem leapApply_offset {s : State} {d : Int} (hs : s.regs.sorted = true) (hd : d = if s.get F.DTM_UTC_STAT_PENDING = 1 then 1 else -1)
    (h0 : -32768 ≤ s.utcOffset + d) (h1 : s.utcOffset + d ≤ 32767) :
    (leapApply s).utcOffset = s.utcOffset + d ∧ (leapApply s).dtm.fallback = s.dtm.fallback + d := by
  unfold leapApply
  extract_lets kind d' u w v
  have moved : d = d' := hd
  clear_value d'
  subst moved
  have frame : ChangesOnly datumIrq v (record 0x0709 0 0 0 0 (irqSet 2 A.DTM_IRQ_STAT 5 (irqSet 2 A.DTM_IRQ_STAT 4 v))) :=
    (((ChangesOnly.refl datumIrq v).irqSet 2 A.DTM_IRQ_STAT 4 (.inl rfl)).irqSet 2 A.DTM_IRQ_STAT 5 (.inl rfl)).record ..
  have offset : u.get F.DTM_UTC_STAT_OFFSET = ofSigned 16 (s.utcOffset + d) := by
    have stored := State.get_set_same s F.DTM_UTC_STAT_OFFSET (ofSigned 16 (s.utcOffset + d)) hs (by decide)
    rw [Nat.mod_eq_of_lt (ofSigned_lt 16 _)] at stored
    have kept := SameOffset.pending (s.setI F.DTM_UTC_STAT_OFFSET (s.utcOffset + d)) 0 (State.set_sorted _ _ _ hs)
    exact (noteLeap_get ..).trans (kept.1.trans stored)
  have fallback : u.dtm.fallback = s.dtm.fallback := congrArg DatumState.fallback (noteLeap_dtm ..)
  constructor
  · unfold State.utcOffset State.getI
    rw [frame.get F.DTM_UTC_STAT_OFFSET rfl (by decide)]
    exact (congrArg (toSigned 16) offset).trans (toSigned_ofSigned h0 h1)
  · rw [frame.dtm, ← fallback]

theorem exec_leapApplied_due {s : State} (hp : s.get F.DTM_UTC_STAT_PENDING ≠ 0)
    (ht : leapSec s.dtm.leapDay (s.get F.DTM_UTC_STAT_PENDING) s.utcOffset ≤ ((instSec s.datum : Nat) : Int)) :
    exec .leapApplied s = .next (leapEvaluate (leapApply s)) := congrArg _ (if_pos ⟨hp, ht⟩)

theorem exec_utcOffsetChange_stood {s : State} (hs : (s.utcSource (s.domSrc s.active)).stood = true)
    (ho : (s.utcSource (s.domSrc s.active)).offset ≠ s.utcOffset) :
    exec .utcOffsetChange s = .next (utcChange (s.utcSource (s.domSrc s.active)).offset (s.set F.DTM_UTC_STAT_SRC (utcSrcCode (s.domSrc s.active)))) :=
  congrArg _ (if_pos ⟨hs, ho⟩)

/-- Outside a pair a vote without a majority loads the copies and sends its fault (R52). -/
theorem exec_dtmNovote_alone {s : State} (h : inPair s = false) :
    exec .dtmNovote s = .next (faultSend .dtmNovote 0 0 0 0 { s with dtm := s.dtm.load s.monumentValue }) := by
  have alone : inPair (faultSend .dtmNovote 0 0 0 0 (loadMonument s)) = false := h
  show Host.Outcome.next (lastingFault .dtmNovote 4 (loadMonument s)) = _
  rw [lastingFault_alone alone]
  rfl

/-- Settles O17: each event under the condition on which it acts. -/
theorem datumEventsTakeEffect : Obligations.DatumEventsTakeEffect := by
  refine ⟨fun s old new d hs h0 hh hu => ?_, fun s r rest h hc hd => exec_datumRateApply_due h hc hd, fun s ht hs => ?_,
    fun s d hc hp ht hd h0 h1 => ⟨exec_leapApplied_due hp ht, _, exec_leapApplied_due hp ht, ?_⟩, fun s hs ho hu => ?_, fun s hs ho => ?_,
    fun s hp => exec_dtmNovote_alone hp⟩
  · intro v u ps
    have dropped : dropSlew v = u := rfl
    rw [exec_slewComplete_done hs h0, slewEnd_locked hu, handoffEnd_some ((dropSlew_kept v).1.trans hh), dropped]
  · exact congrArg _ (if_pos ⟨ht, hs⟩)
  · obtain ⟨offset, fallback⟩ := leapApply_offset (regsWf_sorted hc.1) hd h0 h1
    have sorted : (leapApply s).regs.sorted = true := regsWf_sorted ((leapApply_keeps (.refl s)).canon hc).1
    have same := leapEvaluate_offset sorted
    exact ⟨(congrArg (toSigned 16) same.1).trans offset, same.2.trans fallback⟩
  · rw [exec_utcOffsetChange_stood hs ho]
    exact congrArg _ (if_neg hu)
  · exact congrArg _ (if_pos ⟨hs, ho⟩)

end Sys2Proof.Machine
end

/-! The PTP clients: the Delay_Req that a client issues, and the messages of its inbox (R73, R74, R75). -/
section
namespace Sys2Proof.Machine

/-! ## The clients of the state -/

@[simp] theorem State.pc_setPc_same (s : State) (n : Fin 2) (c : PtpClient) : (s.setPc n c).pc n = c := by
  unfold State.pc State.setPc
  split <;> rfl

theorem State.pc_setPc_other (s : State) {n k : Fin 2} (c : PtpClient) (h : k ≠ n) : (s.setPc n c).pc k = s.pc k := by
  unfold State.pc State.setPc
  split_ifs with h1 h2 h2
  · exact absurd (Fin.ext (h1.trans h2.symm)) h
  · rfl
  · rfl
  · exact absurd (Fin.ext (by omega)) h

@[simp] theorem State.setPc_regs (s : State) (n : Fin 2) (c : PtpClient) : (s.setPc n c).regs = s.regs := by
  unfold State.setPc; split <;> rfl

@[simp] theorem State.setPc_get (s : State) (n : Fin 2) (c : PtpClient) (f : Fld) : (s.setPc n c).get f = s.get f := by
  unfold State.get State.rd; rw [State.setPc_regs]

theorem State.setPc_pcRuns (s : State) (n k : Fin 2) (c : PtpClient) : pcRuns (s.setPc n c) k = pcRuns s k := by
  unfold State.setPc; split <;> rfl

@[simp] theorem State.set_pc (s : State) (f : Fld) (x : Nat) (k : Fin 2) : (s.set f x).pc k = s.pc k := rfl
@[simp] theorem txEnqueue_pc (p : Fin 7) (f : TxFrame) (s : State) (k : Fin 2) : (txEnqueue p f s).pc k = s.pc k := rfl
@[simp] theorem txEnqueue_get (p : Fin 7) (f : TxFrame) (s : State) (g : Fld) : (txEnqueue p f s).get g = s.get g := rfl

/-! ## Delay_Req (R73) -/

/-- A client whose next Delay_Req, with this sequenceId, is outstanding. -/
def PtpClient.requested (c : PtpClient) (seq : Nat) : PtpClient :=
  { c with started := true, nextSeq := (seq + 1) % 65536, outstanding := c.outstanding ++ [⟨seq, none⟩] }

/-- The Delay_Req of a running client with a selected master and a started sequence. -/
theorem exec_ptpClientDelayReq_started {s : State} {n : Fin 2} {a : Announced} (hh : halted s = false) (ha : (s.pc n).announce = some a)
    (hs : (s.pc n).started = true) (hr : pcRuns s n = true) (hp : pcPort s n < 7) :
    let seq := (s.pc n).nextSeq
    let p : Fin 7 := ⟨pcPort s n, hp⟩
    let m := ptpMessage 1 (s.get (F.DTM_PC_CFG_DOMAIN n)) (if s.get (F.DTM_PC_CFG_PROFILE n) = 1 then 0 else 0x0400) 0 (pcIdentity s n) seq 0x7F
      (ptpStamp s.datum)
    let u := s.setPc n ((s.pc n).requested seq)
    exec (.ptpClientDelayReq n) s = .next (txEnqueue p ⟨(pcEnv u n a).frame m, controlClass u p, .client n seq⟩ (u.set (F.DTM_PC_STAT_SEQ n) seq)) := by
  intro seq p m u
  show execPtpClientDelayReq n s = _
  unfold execPtpClientDelayReq
  rw [hh, if_neg (by decide), ha]
  dsimp only
  rw [dif_neg (by simp [hr, hp])]
  have started : (if (s.pc n).started = true then ((s.pc n).nextSeq, s) else s.draw 16) = (seq, s) := if_pos hs
  simp only [started, Nat.mod_eq_of_lt hp]
  rfl

/-- Settles O22: what the issued Delay_Req leaves. -/
theorem delayReqSequenceAdvancesByOne : Obligations.DelayReqSequenceAdvancesByOne := by
  intro s n a hc hh ha hs hlt hr hp
  refine ⟨_, exec_ptpClientDelayReq_started hh ha hs hr hp, ?_, ?_, ?_, fun k hk => ?_⟩
  · simp [PtpClient.requested]
  · rw [txEnqueue_get, State.get_set_same _ _ _ (by rw [State.setPc_regs]; exact regsWf_sorted hc.1) (show 16 + 16 ≤ 32 by decide)]
    exact Nat.mod_eq_of_lt hlt
  · simp [PtpClient.requested]
  · simp [State.pc_setPc_other s _ hk]

/-! ## The messages of the inbox (R74, R75) -/

/-- The state in which a client has taken the oldest message of its inbox. -/
def inboxTaken (n : Fin 2) (rest : List PcMsg) (s : State) : State := s.setPc n { s.pc n with inbox := rest }

@[simp] theorem inboxTaken_pc (n : Fin 2) (rest : List PcMsg) (s : State) : (inboxTaken n rest s).pc n = { s.pc n with inbox := rest } :=
  State.pc_setPc_same ..

/-- The rule of a message's type (R74, R75). -/
def pcRuled (n : Fin 2) (m : PcMsg) (h : Ptp) (s : State) : State :=
  match h.kind with
  | 0 => pcSync n m h s
  | 8 => pcFollowUp n h s
  | 9 => pcDelayResp n m h s
  | 11 => pcAnnounce n m h s
  | _ => s

theorem pcRuled_sync {n : Fin 2} {m : PcMsg} {h : Ptp} {s : State} (k : h.kind = 0) : pcRuled n m h s = pcSync n m h s := by simp only [pcRuled, k]
theorem pcRuled_followUp {n : Fin 2} {m : PcMsg} {h : Ptp} {s : State} (k : h.kind = 8) : pcRuled n m h s = pcFollowUp n h s := by simp only [pcRuled, k]
theorem pcRuled_delayResp {n : Fin 2} {m : PcMsg} {h : Ptp} {s : State} (k : h.kind = 9) : pcRuled n m h s = pcDelayResp n m h s := by simp only [pcRuled, k]

theorem exec_ptpClientMessage_empty {s : State} {n : Fin 2} (h : (s.pc n).inbox = []) : exec (.ptpClientMessage n) s = .next s := by
  show execPtpClientMessage n s = _
  unfold execPtpClientMessage
  dsimp only
  rw [h]
  exact congrArg _ (ite_self s)

/-- A whole message of the client's domain leaves the inbox and goes to the rule of its type. -/
theorem exec_ptpClientMessage_ruled {s : State} {n : Fin 2} {m : PcMsg} {rest : List PcMsg} (hm : (s.pc n).inbox = m :: rest) (hh : halted s = false)
    (hr : pcRuns s n = true) (hv : (parsePtp m.bytes).version = 2) (hl : (parsePtp m.bytes).length ≤ m.bytes.length)
    (hk : ptpLength (parsePtp m.bytes).kind ≤ (parsePtp m.bytes).length) (hd : (parsePtp m.bytes).domain = s.get (F.DTM_PC_CFG_DOMAIN n)) :
    exec (.ptpClientMessage n) s = .next (pcRuled n m (parsePtp m.bytes) (inboxTaken n rest s)) := by
  have runs : pcRuns (inboxTaken n rest s) n = true := (State.setPc_pcRuns ..).trans hr
  have whole : ¬(pcRuns (inboxTaken n rest s) n = false ∨ (parsePtp m.bytes).version ≠ 2 ∨ m.bytes.length < (parsePtp m.bytes).length
      ∨ (parsePtp m.bytes).length < ptpLength (parsePtp m.bytes).kind) := by
    simp [runs, hv, hl, hk]
  have domain : ¬(parsePtp m.bytes).domain ≠ (inboxTaken n rest s).get (F.DTM_PC_CFG_DOMAIN n) := not_not.mpr (hd.trans (State.setPc_get ..).symm)
  show execPtpClientMessage n s = _
  unfold execPtpClientMessage
  dsimp only
  rw [hh, if_neg (by decide), hm]
  exact congrArg _ ((if_neg whole).trans (if_neg domain))

/-! ## The rules of Sync, Follow_Up and Delay_Resp (R74) -/

section rules
variable {s : State} {n : Fin 2} {m : PcMsg} {h : Ptp}

/-- The Syncs of the other ports. -/
def PtpClient.otherSyncs (c : PtpClient) (port : Nat) : List SyncSeen := c.syncs.filter (fun x => decide (x.port ≠ port))

theorem pcSync_otherPort (hp : (s.pc n).master ≠ h.port) : pcSync n m h s = s := if_pos hp

/-- A one-step Sync gives its time at once. -/
theorem pcSync_oneStep (hp : (s.pc n).master = h.port) (hf : h.flags / 512 % 2 = 0) : pcSync n m h s = s.setPc n { s.pc n with
    syncs := (s.pc n).otherSyncs h.port ++ [⟨h.port, h.seq, m.inst, h.corr, false⟩], quietTicks := 0,
    lastSync := some (m.inst, ptpInstant h.body 0 h.corr) } := by
  unfold pcSync
  dsimp only
  rw [if_neg (not_not.mpr hp), hf]
  rfl

/-- A two-step Sync waits for its Follow_Up. -/
theorem pcSync_twoStep (hp : (s.pc n).master = h.port) (hf : h.flags / 512 % 2 = 1) : pcSync n m h s = s.setPc n { s.pc n with
    syncs := (s.pc n).otherSyncs h.port ++ [⟨h.port, h.seq, m.inst, h.corr, true⟩] } := by
  unfold pcSync
  dsimp only
  rw [if_neg (not_not.mpr hp), hf]
  rfl

/-- A Follow_Up of the kept Sync gives the Sync's time. -/
theorem pcFollowUp_kept {x : SyncSeen} (hx : (s.pc n).syncs.find? (fun x => decide (x.port = h.port)) = some x) (hs : x.seq = h.seq) (ht : x.twoStep = true) :
    pcFollowUp n h s = s.setPc n { s.pc n with lastSync := some (x.rx, ptpInstant h.body 0 (x.corr + h.corr)), quietTicks := 0 } := by
  unfold pcFollowUp
  dsimp only
  rw [hx]
  exact if_pos ⟨hs, ht⟩

/-- A Delay_Resp to no outstanding Delay_Req is late. -/
theorem pcDelayResp_unasked (hd : (s.pc n).outstanding.reverse.find? (fun d => decide (d.seq = h.seq)) = none) : pcDelayResp n m h s = pcLate n s := by
  unfold pcDelayResp
  dsimp only
  rw [hd]

/-- A Delay_Resp in time to a Delay_Req that has left ends the wait, with no Sync to measure against. -/
theorem pcDelayResp_inTime {d : DelayReq} {t3 : Instant} (hd : (s.pc n).outstanding.reverse.find? (fun d => decide (d.seq = h.seq)) = some d)
    (hleft : d.left = some t3) (hid : beAt h.body 10 10 = pcIdentity s n)
    (ht : instDiff m.inst t3 < s.get (F.DTM_PC_CFG_TIMEOUT n) * 1000000 * 65536) (hs : (s.pc n).lastSync = none) :
    pcDelayResp n m h s = s.setPc n { s.pc n with outstanding := (s.pc n).outstanding.filter (fun x => decide (x.seq ≠ h.seq)) } := by
  unfold pcDelayResp
  dsimp only
  rw [hd]
  dsimp only
  rw [hleft]
  dsimp only
  rw [if_neg (not_or.mpr ⟨not_not.mpr hid, Int.not_le.mpr ht⟩), hs]

end rules

/-- Settles O21: the Delay_Req that is due, the empty inbox, and the rule of the message in front. -/
theorem ptpClientCommandsTakeEffect : Obligations.PtpClientCommandsTakeEffect := by
  refine ⟨fun s n a hh ha hs hr hp => exec_ptpClientDelayReq_started hh ha hs hr hp, fun s n h => exec_ptpClientMessage_empty h,
    fun s n m rest hm hh hr hv hl hk hd => ?_⟩
  intro c u h syncs
  have ruled : exec (.ptpClientMessage n) s = .next (pcRuled n m h u) := exec_ptpClientMessage_ruled hm hh hr hv hl hk hd
  have pc : u.pc n = c := State.pc_setPc_same ..
  clear_value u c
  subst pc
  rw [ruled]
  refine ⟨fun k hp hf => ?_, fun k hp hf => ?_, fun k hp => ?_, fun x k hx hs ht => ?_, fun k ho => ?_, fun d t3 k ho hleft hid ht hs => ?_⟩
  · exact congrArg _ ((pcRuled_sync k).trans (pcSync_oneStep hp hf))
  · exact congrArg _ ((pcRuled_sync k).trans (pcSync_twoStep hp hf))
  · exact congrArg _ ((pcRuled_sync k).trans (pcSync_otherPort hp))
  · exact congrArg _ ((pcRuled_followUp k).trans (pcFollowUp_kept hx hs ht))
  · exact congrArg _ ((pcRuled_delayResp k).trans (pcDelayResp_unasked ho))
  · exact congrArg _ ((pcRuled_delayResp k).trans (pcDelayResp_inTime ho hleft hid ht hs))

end Sys2Proof.Machine
end

/-! The tickets of Stakeout: the pool's reads after a replacement, and the commands on the tickets of a port (R111, R117-R125). -/
section
namespace Sys2Proof.Machine

/-! ## The pool of tickets (R117) -/

@[simp] theorem State.port_setPort_same (s : State) (p : Fin 4) (q : SkoPort) : (s.setPort p q).port p = q :=
  Vector.getElem_set_self p.isLt

theorem State.port_setPort_other (s : State) {p k : Fin 4} (q : SkoPort) (h : k ≠ p) : (s.setPort p q).port k = s.port k :=
  Vector.getElem_set_ne p.isLt k.isLt fun e => h (Fin.ext e.symm)

/-- A ticket is found by its own id. -/
theorem SkoPort.ticket_id {q : SkoPort} {id : Nat} {t : Ticket} (h : q.ticket id = some t) : t.id = id := by
  simpa using List.find?_some h

/-- What a read of the pool finds is what the read before the replacement found, replaced. -/
theorem SkoPort.ticket_putTicket (q : SkoPort) (t : Ticket) (k : Nat) :
    (q.putTicket t).ticket k = (q.ticket k).map (fun x => if x.id = t.id then t else x) := by
  have sameId : ((fun x : Ticket => decide (x.id = k)) ∘ fun x => if x.id = t.id then t else x) = fun x => decide (x.id = k) := by
    funext x
    by_cases h : x.id = t.id <;> simp [h]
  unfold SkoPort.ticket SkoPort.putTicket
  rw [List.find?_map, sameId]

theorem SkoPort.ticket_putTicket_same {q : SkoPort} {id : Nat} {t u : Ticket} (h : q.ticket id = some t) (hu : u.id = id) :
    (q.putTicket u).ticket id = some u := by
  rw [SkoPort.ticket_putTicket, h, Option.map_some, if_pos ((SkoPort.ticket_id h).trans hu.symm)]

theorem SkoPort.ticket_putTicket_other (q : SkoPort) {t : Ticket} {k : Nat} (h : k ≠ t.id) : (q.putTicket t).ticket k = q.ticket k := by
  rw [SkoPort.ticket_putTicket]
  cases hk : q.ticket k with
  | none => rfl
  | some x => rw [Option.map_some, if_neg (by rw [SkoPort.ticket_id hk]; exact h)]

/-! ## The commands on one ticket (R118-R125) -/

section commands
variable {s : State} {p : Fin 4} {id : Nat} {t : Ticket}

/-- The ticket's frame goes out with its departure as the start instant, and the ticket is SENDING. -/
def frameStarted (p : Fin 4) (t : Ticket) (s : State) : State :=
  (s.setPort p ((s.port p).putTicket { t with state := .sending })).emit (.frame p (withFcs (t.env.frame t.payload)) t.dep)

/-- A deadline that has passed goes by LATETOL and by whether the response was re-staked. -/
theorem exec_ticketLoadDeadline_passed (ht : (s.port p).ticket id = some t) (hs : t.state = .staked) (hd : after s.datum t.deadline = true)
    (hh : halted s = false) : exec (.ticketLoadDeadline p id) s = .next (deadlinePass p t s) := by
  show execTicketLoadDeadline p id s = _
  unfold execTicketLoadDeadline
  rw [ht]
  exact congrArg _ (if_pos ⟨hs, hd, hh⟩)

theorem exec_lateToleranceExpiry_passed (ht : (s.port p).ticket id = some t) (hs : t.state = .late)
    (hd : after s.datum (instAdd t.deadline (nsUnits (s.get (F.SKO_P_LAT1_LATETOL p)))) = true) (hh : halted s = false) :
    exec (.lateToleranceExpiry p id) s = .next (discardLate p t s) := by
  show execLateToleranceExpiry p id s = _
  unfold execLateToleranceExpiry
  rw [ht]
  exact congrArg _ (if_pos ⟨hs, hd, hh⟩)

/-- A departure that is reached goes by the pause of the timing class. -/
theorem exec_gateRelease_reached (ht : (s.port p).ticket id = some t) (hs : t.state = .ready) (hd : after t.dep s.datum = false)
    (hh : halted s = false) : exec (.gateRelease p id) s =
      .next (if classPaused s p (s.get (F.SKO_P_CFG_TC p)) t.dep then discardTicket p 2 3 t s else frameStarted p t s) := by
  show execGateRelease p id s = _
  unfold execGateRelease
  rw [ht]
  exact congrArg _ (if_pos ⟨hs, hd, hh⟩)

/-- GATE_RELEASE does nothing to a ticket that is not READY. -/
theorem exec_gateRelease_notReady (ht : (s.port p).ticket id = some t) (hs : t.state ≠ .ready) : exec (.gateRelease p id) s = .next s := by
  show execGateRelease p id s = _
  unfold execGateRelease
  rw [ht]
  exact congrArg _ (if_neg fun h => hs h.1)

theorem exec_txFrameDone_sending (ht : (s.port p).ticket id = some t) (hs : t.state = .sending) : exec (.txFrameDone p id) s =
    .next (portSent p (t.env.length t.payload.length) (s.setPort p ((s.port p).putTicket { t with state := .check, resTo := t.resFrom }))) := by
  show execTxFrameDone p id s = _
  unfold execTxFrameDone
  rw [ht]
  exact congrArg _ (if_pos hs)

/-- A crossing is weighed against the departure, and frees the ticket. -/
theorem exec_egressCrossingReport_awaited (cap : Nat) (ht : (s.port p).ticket id = some t) (hs : t.state = .check) (hh : halted s = false) :
    let r := egressStamp ⟨p.val, by omega⟩ cap t.comp ((decide (t.kind = .sync) || decide (t.kind = .delayResp)) && decide (t.kind = .sync)) s
    exec (.egressCrossingReport p id cap) s =
      .next (freeTicket p id (traceEnd t.tag 0 0 (traceAt t.tag 9 r.1 (pmcEvent 4 0x03 p 1 (checkDeviation p t r.1 r.2))))) := by
  intro r
  show execEgressCrossingReport p id cap s = _
  unfold execEgressCrossingReport
  rw [ht]
  exact congrArg _ (if_pos ⟨hs, hh⟩)

/-- The state in which DEVMAX covers a deviation (R125). -/
def deviationKept (p : Fin 4) (d : Int) (s : State) : State :=
  let ps := d.natAbs * 1000 / 65536
  s.happen (F.SKO_P_DEVMAX_DEV p) (fun m => if m < ps then (if 2 ^ 32 ≤ ps then 2 ^ 32 - 1 else ps) else m)

theorem checkDeviation_within {c : Instant} (h : (instDiff c t.dep).natAbs ≤ 65536) :
    checkDeviation p t c s = deviationKept p (instDiff c t.dep) s := if_neg (Nat.not_lt.mpr h)

theorem checkDeviation_above {c : Instant} (h : 65536 < (instDiff c t.dep).natAbs) :
    let u := deviationKept p (instDiff c t.dep) s
    checkDeviation p t c s = skoCount p 7 { u with flt := { u.flt with queue := u.flt.queue ++ [⟨.stkDeviation, p, c,
      ofSigned 32 (clampInt (-(2 ^ 31)) (2 ^ 31 - 1) (instDiff c t.dep)), instNs t.dep, instSec t.dep % 2 ^ 32⟩] } } := if_pos h

end commands

/-- A refresh of a port with link, with no survivors to judge, replaces the model and shows its spacing (R111, R124). -/
theorem exec_gridModelRefresh_linked {s : State} {p : Fin 4} (a k : Nat) {sp : Nat} (c : Fin 80) (b : Bool) (hl : s.on (F.PRT_P_STAT_LINK p) = true)
    (hsp : 0 < sp) (hr : dclkRuns s = true) (hc : (s.port p).checkSurvivors = false) :
    exec (.gridModelRefresh p ⟨a, k⟩ sp c b) s = .next ((((s.setPort p { s.port p with
      model := ⟨true, gridAnchor s p a, sp, c, b⟩, suspended := false, checkSurvivors := false
      tickets := (s.port p).tickets.map (fun t => { t with moved := t.moved + k }) }).set
        (F.SKO_P_PERIOD_W0_PERIOD p) (sp % 2 ^ 37)).set (F.SKO_P_PERIOD_W1_PERIOD p) (sp % 2 ^ 37 / 2 ^ 32)).set (F.SKO_P_PERIOD_W1_VALID p) 1) := by
  show execGridModelRefresh p ⟨a, k⟩ sp c b s = _
  unfold execGridModelRefresh
  rw [if_pos (by simp [hl, hsp, hr])]
  exact congrArg _ (if_neg (by rw [hc]; decide))

/-- Settles O26: each command goes by its ticket's state, and its branches are the two sides of LATETOL, of the pause and of 1 ns. -/
theorem ticketCommandsTakeEffect : Obligations.TicketCommandsTakeEffect := by
  refine ⟨fun s p id t ht hs hd hh => ?_, fun s p id t ht hs hd hh => exec_lateToleranceExpiry_passed ht hs hd hh, fun s p id t ht hs hd hh => ?_,
    fun s p id t ht hs => exec_txFrameDone_sending ht hs, fun s p id cap t ht hs hh => ?_,
    fun s p a sp k c b hl hsp hr hc => exec_gridModelRefresh_linked a k c b hl hsp hr hc⟩
  · rw [exec_ticketLoadDeadline_passed ht hs hd hh]
    exact ⟨fun h => congrArg _ (if_pos h), fun h0 h1 => congrArg _ (if_neg (by simp [h0, h1]))⟩
  · rw [exec_gateRelease_reached ht hs hd hh]
    exact ⟨fun h => congrArg _ (if_neg (by rw [h]; decide)), fun h => congrArg _ (if_pos h)⟩
  · rw [exec_egressCrossingReport_awaited cap ht hs hh]
    exact ⟨fun h => by rw [checkDeviation_within h]; rfl, fun h => by rw [checkDeviation_above h]; rfl⟩

/-- Settles O27: the release replaces the ticket in its pool, and the SENDING ticket is not released again. -/
theorem stakedFrameStartsOnceAtItsDeparture : Obligations.StakedFrameStartsOnceAtItsDeparture := by
  intro s p id t ht hs hd hh hc
  have own : t.id = id := SkoPort.ticket_id ht
  have port : (frameStarted p t s).port p = (s.port p).putTicket { t with state := .sending } := State.port_setPort_same ..
  have sending : ((frameStarted p t s).port p).ticket id = some { t with state := .sending } :=
    (congrArg (·.ticket id) port).trans (SkoPort.ticket_putTicket_same (u := { t with state := .sending }) ht own)
  refine ⟨frameStarted p t s, ?_, rfl, sending, exec_gateRelease_notReady sending nofun, fun q hq => State.port_setPort_other s _ hq, fun k hk => ?_, rfl⟩
  · rw [exec_gateRelease_reached ht hs hd hh, hc, if_neg (by decide)]
  · have other : k ≠ t.id := by rwa [own]
    exact (congrArg (·.ticket k) port).trans (SkoPort.ticket_putTicket_other (t := { t with state := .sending }) _ other)

end Sys2Proof.Machine
end

/-! The main ports and MGT: links, pauses, the paths of a pair, and the frames that are not staked (R195-R205, R209). -/
section
namespace Sys2Proof.Machine

/-! ## Links (R195-R197, R209) -/

/-- What a main port that comes up shows: its training, its link with no fault, its lanes and its codeword lock. -/
def mainShown (p : Fin 4) (s : State) : State :=
  ((((((s.setB (F.PRT_P_STAT_TRAINED p) (needsTraining s p)).set (F.PRT_P_STAT_LINK p) 1).set (F.PRT_P_STAT_LF p) 0).set (F.PRT_P_STAT_RF p) 0).set
    (F.PRT_P_STAT_SIGDET p) (usedLanes (s.get (F.PRT_P_CFG_SPEED p))))).setB (F.PRT_P_STAT_FECLOCK p) (decide (s.get (F.PRT_P_CFG_SPEED p) = 4))

/-- A main port that is enabled, aligned and, where it needs it, trained comes up. -/
theorem exec_linkUp_main {s : State} {p : Fin 4} {n : Fin 7} {r : LinkReport} (hn : n.val = p.val) (he : s.on (F.PRT_P_CFG_EN p) = true)
    (ha : s.on (F.STK_STAT_ALIGNED p) = true) (hr : refRuns s p = true) (hl : s.on (F.PRT_P_STAT_LINK p) = false)
    (ht : (r.trained || !(needsTraining s p)) = true) : exec (.linkUp n r) s = .next (pairUp p (linkComesUp n (mainShown p s))) := by
  have small : p.val < 7 := by omega
  obtain rfl : n = ⟨p.val, small⟩ := Fin.ext hn
  show execLinkUp _ r s = _
  unfold execLinkUp
  rw [dif_pos p.isLt]
  exact congrArg _ (if_pos (by simp [he, ha, hr, hl, ht]))

/-- The speed that the PHY of MGT reports by the in-band negotiation. -/
def mgtReported (ph : Fin 4) (s : State) : State := (s.set F.PRT_MGT_STAT_PHYSPEED ph).setB F.PRT_MGT_STAT_ANDONE true

/-- MGT takes its link at 1 Gb/s, and rejects any other speed (R209). -/
theorem exec_linkUp_mgtReported {s : State} {ph : Fin 4} {tr : Bool} (he : s.on F.PRT_MGT_CFG_EN = true) (ha : s.on (F.STK_STAT_ALIGNED 6) = true)
    (hr : refRuns s 6 = true) (hl : s.on F.PRT_MGT_STAT_LINK = false) (hm : s.on F.PRT_MGT_CFG_MODE = false) (hn : s.on F.PRT_MGT_CFG_AN37 = true) :
    exec (.linkUp 6 ⟨ph, tr⟩) s = .next (if ph.val = 2 then linkComesUp 6 (((mgtReported ph s).set F.PRT_MGT_STAT_SPDREJ 0).set F.PRT_MGT_STAT_LINK 1)
      else (mgtReported ph s).set F.PRT_MGT_STAT_SPDREJ 1) := by
  have negotiated : (s.set F.PRT_MGT_STAT_PHYSPEED ph).on F.PRT_MGT_CFG_AN37 = true := by
    unfold State.on
    rw [State.get_set_addr _ _ _ _ (by decide)]
    exact hn
  have ready : (s.on F.PRT_MGT_CFG_EN && s.on (F.STK_STAT_ALIGNED 6) && refRuns s 6 && !(s.on F.PRT_MGT_STAT_LINK)) = true := by
    simp [he, ha, hr, hl]
  show execLinkUp 6 _ s = _
  unfold execLinkUp
  rw [dif_neg (by decide), if_pos (by decide), if_pos ready]
  simp only [hm, hn, Bool.not_false, Bool.and_self, if_true, negotiated, Bool.true_and, decide_eq_true_eq, ite_not]
  rfl

/-- What a main port without link shows of what was found. -/
def foundShown (p : Fin 7) (sigdet : BitVec 4) (lf rf feclock : Bool) (s : State) : State :=
  let on := s.on (F.PRT_P_CFG_EN p)
  let code := s.get (F.PRT_P_CFG_SPEED p)
  (((s.set (F.PRT_P_STAT_SIGDET p) (if on then sigdet.toNat &&& usedLanes code else 0)).setB (F.PRT_P_STAT_LF p) (on && lf)).setB
    (F.PRT_P_STAT_RF p) (on && rf)).setB (F.PRT_P_STAT_FECLOCK p) (on && feclock && decide (code = 4))

theorem exec_linkDown_main {s : State} {p : Fin 7} {sd : BitVec 4} {lf rf fl : Bool} (hp : p.val < 4) (hl : linkUp s p = true) :
    exec (.linkDown p sd lf rf fl) s = .next (foundShown p sd lf rf fl (linkDown p s)) := by
  show execLinkDown p sd lf rf fl s = _
  unfold execLinkDown
  rw [if_pos (.inl hp), if_pos hl]
  exact congrArg _ (if_pos hp)

theorem exec_linkDown_mgt {s : State} {sd : BitVec 4} {lf rf fl : Bool} (hl : linkUp s 6 = true) :
    exec (.linkDown 6 sd lf rf fl) s = .next (linkDown 6 s) := by
  show execLinkDown 6 sd lf rf fl s = _
  unfold execLinkDown
  rw [if_pos (by decide)]
  exact congrArg _ ((if_neg (by decide)).trans (if_pos hl))

/-- The count, the interrupt and the record of a link that is down, with the unsent frames dropped. -/
def downReported (p : Fin 7) (s : State) : State :=
  recordUnit 0x1001 p 0 0 0 0 (irqSet (portGroup p) (A.PRT_IRQ_STAT p) 0 (portCount p 14 1 (dropTx p ((pathLost p s).set (F.STK_STAT_SPEED p) 0))))

theorem linkDown_main (n : Fin 4) (s : State) : linkDown ⟨n.val, by omega⟩ s = downReported ⟨n.val, by omega⟩
    (pairDown n (portDownCommon n (signalLost n (dropReceived ⟨n.val, by omega⟩ (s.set (F.PRT_P_STAT_LINK n) 0))))) := by
  unfold linkDown
  rw [dif_pos n.isLt]
  rfl

/-! ## Flow control (R203) -/

/-- An onset that lasts is sent once more when half of its QUANTA has passed. -/
theorem exec_flowControlRefresh_due {s : State} {n : Fin 4} {c : Option (Fin 8)} {o : Onset} (hh : halted s = false)
    (ho : s.prt.onsets.find? (fun o => decide (o.port = n.val ∧ o.cls = c.map (·.val))) = some o) (he : flowEnabled s n (c.map (·.val)) = true)
    (hx : s.get (F.PRT_P_FCTH_XON n) * 16384 < occupancy s n (c.map (·.val)))
    (hd : after (instAdd o.sentAt (bitTimes s n (s.get (F.PRT_P_FC_QUANTA n) * 256))) s.datum = false) :
    exec (.flowControlRefresh n c) s = .next (sendPause n (c.map (·.val)) (s.get (F.PRT_P_FC_QUANTA n)) { s with prt := { s.prt with
      onsets := s.prt.onsets.map (fun x => if x.port = n.val ∧ x.cls = c.map (·.val) then { x with sentAt := s.datum } else x) } }) := by
  show execFlowControlRefresh n c s = _
  unfold execFlowControlRefresh
  dsimp only
  rw [ho]
  dsimp only
  rw [hh, if_neg (by decide), if_pos ⟨he, hx⟩, hd, if_neg (by decide)]

/-! ## The paths of a pair (R205) -/

/-- The state in which the HOLD of a pair is over. -/
def holdEnded (k : Fin 2) (s : State) : State := { s with prt := { s.prt with pairs := s.prt.pairs.set k { s.prt.pairs[k] with hold := none } } }

/-- At the end of HOLD the path stays, moves to the other, or both are down. -/
theorem exec_pathSwitch_ended {s : State} {k : Fin 2} {t : Instant} (hk : (s.prt.pairs[k]).hold = some t) (ht : after t s.datum = false) :
    let u := holdEnded k s
    let oth := pairPrimary u k + pairBackup u k - pairActive u k
    exec (.pathSwitch k) s = .next (if pathUp u (pairActive u k) then u
      else if pathUp u oth then switchPath k (decide (oth = pairBackup u k)) 0 u else u.set (F.PRT_PAIR_STAT_BOTHDOWN k) 1) := by
  intro u oth
  show execPathSwitch k s = _
  unfold execPathSwitch
  dsimp only
  rw [hk]
  exact congrArg _ (if_neg (by rw [ht]; decide))

/-- A primary that has been up for WTR takes the path back, at least one second after the last switch. -/
theorem exec_pathRevert_due {s : State} {k : Fin 2} {t : Instant} (hk : (s.prt.pairs[k]).primaryUp = some t) (he : s.on (F.PRT_PAIR_CFG_EN k) = true)
    (hr : s.on (F.PRT_PAIR_CFG_REVERT k) = true) (ha : s.on (F.PRT_PAIR_STAT_ACTIVE k) = true)
    (hl : (s.prt.pairs[k]).lastSwitch.any (fun u => after (instAdd u secUnits) s.datum) = false)
    (ht : after (instAdd t (secUnits * s.get (F.PRT_PAIR_CFG_WTR k))) s.datum = false) :
    exec (.pathRevert k) s = .next (switchPath k false 1 s) := by
  show execPathRevert k s = _
  unfold execPathRevert
  dsimp only
  rw [hk]
  dsimp only
  rw [he, hr, ha, ht]
  cases hs : (s.prt.pairs[k]).lastSwitch with
  | none => rfl
  | some u =>
    have rested : after (instAdd u secUnits) s.datum = false := by rwa [hs] at hl
    exact congrArg _ (if_pos (by simp [rested]))

/-! ## Frames that are not staked (R114, R139) -/

/-- The picked frame is on the wire: it has left the queue, and an own PAUSE or PFC frame counts. -/
def txStarted (n : Fin 7) (f : TxFrame) (s : State) : State :=
  let u := { s with prt := { s.prt with tx := s.prt.tx.set n (s.prt.tx[n].erase f), txNow := s.prt.txNow.set n (some (f, instAdd s.datum (txTime s n f))) } }
  if f.owner = .control then portCount n (if beAt f.bytes 14 2 = 1 then 12 else 13) 1 u else u

theorem exec_unstakedFrameSend_fits {s : State} {n : Fin 7} {f : TxFrame} (h4 : n.val ≠ 4) (h5 : n.val ≠ 5) (hl : linkUp s n = true)
    (hn : s.prt.txNow[n] = none) (hh : halted s = false) (hf : txPick s n = some f) (ht : txFits s n f = true) :
    exec (.unstakedFrameSend n) s = .next ((txStarted n f s).emit (.frame n (withFcs f.bytes) (txStarted n f s).datum)) := by
  show execUnstakedFrameSend n s = _
  unfold execUnstakedFrameSend
  rw [if_neg (by simp [h4, h5, hl, hn, hh]), hf]
  exact congrArg _ (if_pos ht)

/-- The state in which the wire of a port is free again. -/
def wireFree (n : Fin 7) (s : State) : State := { s with prt := { s.prt with txNow := s.prt.txNow.set n none } }

theorem fieldSent_serial {n : Fin 7} (h4 : n.val ≠ 4) (h5 : n.val ≠ 5) (s : State) : fieldSent n s = s :=
  dif_neg (not_or.mpr ⟨h4, h5⟩)

/-- A frame has left a port, whose wire is free: with its capture it pays what it owes with its egress instant, without one it pays without. -/
def frameLeft (n : Fin 7) (x : TxFrame × Instant) (cap : Option Nat) (u : State) : State :=
  let start := instAdd x.2 (-(txTime u n x.1 : Int))
  match cap with
  | some c =>
    let r := egressStamp n c (compTxAt u n c) (ptpEvent x.1.bytes) u
    showPaused n (txOwed n x.1.owner start r.1 (portSent n (x.1.bytes.length + 4) r.2))
  | none => showPaused n (txUnstamped n x.1.owner start (portSent n (x.1.bytes.length + 4) u))

theorem exec_hostFrameSent_serial {s : State} {n : Fin 7} {x : TxFrame × Instant} (cap : Option Nat) (h4 : n.val ≠ 4) (h5 : n.val ≠ 5)
    (hx : s.prt.txNow[n] = some x) : exec (.hostFrameSent n cap) s = .next (frameLeft n x cap (wireFree n s)) := by
  show execHostFrameSent n cap s = _
  unfold execHostFrameSent
  rw [hx]
  dsimp only
  rw [fieldSent_serial h4 h5]
  cases cap <;> rfl

/-- Settles O29: each command under the condition on which it acts. -/
theorem portCommandsTakeEffect : Obligations.PortCommandsTakeEffect := by
  refine ⟨fun s p tr he ha hr hl ht n ph hn => ?_, fun s ph tr he ha hr hl hm hn => ?_, fun s n sd lf rf fl hl p hp => ?_, fun s sd lf rf fl hl => ?_,
    fun s n tc => rfl, fun s n c o hh ho he hx hd => exec_flowControlRefresh_due hh ho he hx hd, fun s k t hk ht => ?_,
    fun s k t hk he hr ha hl ht => exec_pathRevert_due hk he hr ha hl ht,
    fun s n f h4 h5 hl hn hh hf ht => exec_unstakedFrameSend_fits h4 h5 hl hn hh hf ht,
    fun s n cap x h4 h5 hx => ⟨exec_hostFrameSent_serial (some cap) h4 h5 hx, exec_hostFrameSent_serial none h4 h5 hx⟩⟩
  · exact exec_linkUp_main hn he ha hr hl ht
  · rw [exec_linkUp_mgtReported he ha hr hl hm hn]
    exact ⟨fun h => congrArg _ (if_pos h), fun h => congrArg _ (if_neg h)⟩
  · have small : n.val < 7 := by omega
    obtain rfl : p = ⟨n.val, small⟩ := Fin.ext hp
    rw [exec_linkDown_main n.isLt hl, linkDown_main]
    rfl
  · exact exec_linkDown_mgt hl
  · rw [exec_pathSwitch_ended hk ht]
    exact ⟨fun h => congrArg _ (if_pos h), fun h ho => congrArg _ ((if_neg (Bool.eq_false_iff.mp h)).trans (if_pos ho)),
      fun h ho => congrArg _ ((if_neg (Bool.eq_false_iff.mp h)).trans (if_neg (Bool.eq_false_iff.mp ho)))⟩

end Sys2Proof.Machine
end

/-! Synthesis: lock and loss of lock, steering, ramps, the writes that move a ratio, and the limiter's release (R281-R294). -/
section
namespace Sys2Proof.Machine

/-! ## Lock (R282, R285) -/

section lock
variable {s : State} {n : Fin 6}

theorem exec_synLol_locked (hl : s.on (F.SYN_SYN_STAT_LOCKED (n.val + 1)) = true) (hh : s.on (F.SYN_SYN_STAT_HOLD (n.val + 1)) = false) :
    exec (.synLol n) s = .next ((synUnlock n (faultSend .synLol (n.val + 1) 0 0 0 (pmcEvent 11 0x03 (n.val + 1) 1 (irqSet 6 A.SYN_IRQ_STAT (3 + (n.val + 1))
      (s.addSat (F.SYN_SYN_LOL_CNT_COUNT (n.val + 1)) 1))))).set (F.SYN_SYN_STAT_SETTLING (n.val + 1)) 1) :=
  congrArg _ (if_pos (by rw [hl, hh]; rfl))

theorem exec_synLock_free (he : s.on (F.SYN_SYN_CFG_EN (n.val + 1)) = true) (hi : s.flt.isoSyns.testBit (n.val + 1) = false)
    (h0 : s.on F.SYN_STAT_SYN0LOCK = true) (hf : s.on F.SYN_STAT_FROZEN = false) (hl : s.on (F.SYN_SYN_STAT_LOCKED (n.val + 1)) = false) :
    exec (.synLock n) s = .next ((((s.setSynth n { s.synth n with centre := some (s.synth n).ratio, lockedAt := s.now }).set
      (F.SYN_SYN_STAT_LOCKED (n.val + 1)) 1).set (F.SYN_SYN_STAT_SETTLING (n.val + 1)) 1).setBit A.SYN_STAT (n.val + 1)) :=
  congrArg _ (if_pos (by rw [he, hi, h0, hf, hl]; rfl))

theorem exec_synSettleDone_due (hl : s.on (F.SYN_SYN_STAT_LOCKED (n.val + 1)) = true) (hs : s.on (F.SYN_SYN_STAT_SETTLING (n.val + 1)) = true)
    (ht : (s.synth n).lockedAt + s.get (F.SYN_SYN_CFG_SETTLE (n.val + 1)) * 1200 ≤ s.now) :
    exec (.synSettleDone n) s = .next (s.set (F.SYN_SYN_STAT_SETTLING (n.val + 1)) 0) :=
  congrArg _ (if_pos (by rw [hl, hs, decide_eq_true ht]; rfl))

end lock

/-! ## Writes that move a ratio (R280, R285) -/

/-- A list's only element with a property is the one found. -/
theorem find?_unique {α : Type} {q : α → Bool} {l : List α} {x : α} (hx : x ∈ l) (hq : q x = true) (only : ∀ y ∈ l, q y = true → y = x) :
    l.find? q = some x := by
  cases h : l.find? q with
  | none => exact absurd hq (List.find?_eq_none.mp h x hx)
  | some y => exact congrArg some (only y (List.mem_of_find?_eq_some h) (List.find?_some h))

theorem imageHook_syn {pre : State} {a : Nat} (s : State) (h : a / 0x10000 = 0x04) : imageHook pre a s = synSettle pre a (keepHistory pre.regs s) := by
  unfold imageHook
  simp only [h]

/-- A permitted write of an image register of Synthesis. -/
theorem regCommand_syn {s : State} (p : Path) (a : Nat) (v : Word) (h : Admits s) (ha : imageRow a = true) (hb : a / 0x10000 = 0x04)
    (hd : denyReason (countAccess p s) a v = none) : regCommand p a v s =
      .next (synSettle (countAccess p s) a (keepHistory (countAccess p s).regs (loadLive p (countAccess p s) (a, v)))) := by
  rw [regCommand_image p a v h ha (ownedWhole_outside _ (.inl (by omega))) hd, imageHook_syn _ hb]

/-- A write of NUM or DEN relocks its synthesizer, and then loads the dividers whose range moved. -/
theorem synSettle_ratio (pre s : State) {a : Nat} {n : Fin 6} (ha : a = A.SYN_SYN_NUM (n.val + 1) ∨ a = A.SYN_SYN_DEN (n.val + 1)) :
    synSettle pre a s = allOuts.foldl (fun (t : State) (o : Fin 12) => if outSynth t o = n ∧ (effDiv t o).2 = true then divLoad o t else t) (relock n s) := by
  unfold synSettle
  rw [find?_unique (List.mem_finRange n) (decide_eq_true (by rcases ha with h | h <;> simp [h]))]
  intro m _ hm
  have hm := of_decide_eq_true hm
  simp only [A.SYN_SYN_NUM, A.SYN_SYN_DEN, A.SYN_SYN_CFG] at ha hm
  exact Fin.ext (by omega)

theorem idxAt_outDiv (o : Fin 12) : idxAt (A.SYN_OUT_DIV 0) 0x40 12 (A.SYN_OUT_DIV o) = some o.val := by
  revert o
  decide

/-- A write of DIV relocks the output's synthesizer. -/
theorem synSettle_outDiv (pre s : State) (o : Fin 12) : synSettle pre (A.SYN_OUT_DIV o) s = relock (outSynth s o) s := by
  unfold synSettle
  rw [List.find?_eq_none.mpr, idxAt_outDiv]
  intro m _ hm
  have hm := of_decide_eq_true hm
  simp only [A.SYN_OUT_DIV, A.SYN_SYN_NUM, A.SYN_SYN_DEN, A.SYN_SYN_CFG] at hm
  omega

/-- Outside HOLD a relock takes the ratio of the registers at once. -/
theorem relock_running {s : State} (n : Fin 6) (hf : s.on F.SYN_STAT_FROZEN = false) :
    let r := ratioInUse (s.get (F.SYN_SYN_NUM_VALUE (n.val + 1))) (s.get (F.SYN_SYN_DEN_VALUE (n.val + 1)))
    let x := s.setSynth n { s.synth n with
      num := r.1, den := r.2.1, offset := .zero, profile := [], seg := 0, goNext := [], stopNext := false, relockDue := false, bends := [] }
    relock n s = synthChanged (synUnlock n (((x.set (F.SYN_SYN_STAT_RAMP (n.val + 1)) 0).set (F.SYN_SYN_STAT_SEG (n.val + 1)) 0).set
      (F.SYN_SYN_STAT_SETTLING (n.val + 1)) (x.get (F.SYN_SYN_CFG_EN (n.val + 1))))) := if_neg (Bool.eq_false_iff.mp hf)

/-- The registers of SYN3 to SYN6 that SYN_RELOCK_CHANGE writes are one-word registers of the image. -/
theorem imageRow_ratio : ∀ n : Fin 6, 2 ≤ n.val → imageRow (A.SYN_SYN_NUM (n.val + 1)) = true ∧ imageRow (A.SYN_SYN_DEN (n.val + 1)) = true := by
  decide +kernel

theorem imageRow_outDiv : ∀ o : Fin 12, imageRow (A.SYN_OUT_DIV o) = true := by decide +kernel

theorem exec_synRelockChange_ratio {s : State} {p : Path} {a : BitVec 24} {n : Fin 6} (v : Word) (h : Admits s) (hn : 2 ≤ n.val)
    (ha : a.toNat = A.SYN_SYN_NUM (n.val + 1) ∨ a.toNat = A.SYN_SYN_DEN (n.val + 1)) (hd : denyReason (countAccess p s) a.toNat v = none) :
    exec (.synRelockChange p a v) s =
      .next (allOuts.foldl (fun (t : State) (o : Fin 12) => if outSynth t o = n ∧ (effDiv t o).2 = true then divLoad o t else t)
        (relock n (keepHistory (countAccess p s).regs (loadLive p (countAccess p s) (a.toNat, v))))) := by
  have row : imageRow a.toNat = true := by
    rcases ha with ha | ha <;> rw [ha]
    · exact (imageRow_ratio n hn).1
    · exact (imageRow_ratio n hn).2
  have block : a.toNat / 0x10000 = 0x04 := by simp only [A.SYN_SYN_NUM, A.SYN_SYN_DEN] at ha; omega
  have own : (idxAt (A.SYN_SYN_NUM 3) 0x40 4 a.toNat).isSome = true ∨ (idxAt (A.SYN_SYN_DEN 3) 0x40 4 a.toNat).isSome = true
      ∨ (idxAt (A.SYN_OUT_DIV 0) 0x40 12 a.toNat).isSome = true := by
    unfold idxAt
    simp only [A.SYN_SYN_NUM, A.SYN_SYN_DEN] at ha ⊢
    rcases ha with ha | ha
    · rw [if_pos (by omega)]; exact .inl rfl
    · rw [if_pos (c := 0x40104 + 0x40 * 3 ≤ a.toNat ∧ _) (by omega)]; exact .inr (.inl rfl)
  show execSynRelockChange p a v s = _
  unfold execSynRelockChange
  rw [if_pos own, regCommand_syn p a.toNat v h row block hd, synSettle_ratio _ _ ha]

theorem exec_synRelockChange_outDiv {s : State} {p : Path} {a : BitVec 24} {o : Fin 12} (v : Word) (h : Admits s)
    (ha : a.toNat = A.SYN_OUT_DIV o) (hd : denyReason (countAccess p s) a.toNat v = none) :
    let w := keepHistory (countAccess p s).regs (loadLive p (countAccess p s) (a.toNat, v))
    exec (.synRelockChange p a v) s = .next (relock (outSynth w o) w) := by
  have block : A.SYN_OUT_DIV o / 0x10000 = 0x04 := by simp only [A.SYN_OUT_DIV]; omega
  show execSynRelockChange p a v s = _
  unfold execSynRelockChange
  rw [ha] at hd ⊢
  rw [if_pos (.inr (.inr (by rw [idxAt_outDiv]; rfl))), regCommand_syn p _ v h (imageRow_outDiv o) block hd, synSettle_outDiv]

/-! ## Steering (R281, R286) -/

/-- The steering words of a channel. -/
def State.steerWords (s : State) (c : Fin 8) : List (Instant × Int) := (s.syn.words.get c).getD []

/-- The state in which a word of a channel is in force and those after it wait. -/
def steerApplied (c : Fin 8) (x : Instant × Int) (s : State) : State :=
  let rest := (s.steerWords c).filter (fun x => decide (instDiff s.datum x.1 < 0))
  let l := s.syn.wordSteps ++ (if c.val = 1 then [⟨s.datum, (s.syn.applied.get 1).getD 0, x.2⟩] else [])
  { s with syn := { s.syn with
    words := if rest = [] then s.syn.words.del c else s.syn.words.put c rest
    applied := if x.2 = 0 then s.syn.applied.del c else s.syn.applied.put c x.2
    wordSteps := l.drop (l.length - 64) } }

/-- The last word that is due reaches the synthesizers. -/
theorem exec_synSteerApply_due {s : State} {c : Fin 8} {x : Instant × Int} (hr : dclkRuns s = true)
    (hx : ((s.steerWords c).filter (fun x => decide (0 ≤ instDiff s.datum x.1))).getLast? = some x) :
    exec (.synSteerApply c) s = .next (synthChanged (steerApplied c x s)) := by
  have due : ((s.steerWords c).filter (fun x => dclkRuns s && decide (0 ≤ instDiff s.datum x.1))).getLast? = some x := by
    simpa only [hr, Bool.true_and] using hx
  show execSynSteerApply c s = _
  unfold execSynSteerApply
  unfold State.steerWords at due
  dsimp only
  rw [due]
  rfl

/-! ## Ramps (R283, R286) -/

/-- A write of RAMPCTL reaches its synthesizer's ramp. -/
theorem regCommand_rampctl {s : State} (n : Fin 6) (v : Word) (h : Admits s) :
    regCommand .mw0 (A.SYN_SYN_RAMPCTL (n.val + 1)) v s = .next (rampWrite n v (countAccess .mw0 s)) := by
  have hrow : ∀ n : Fin 6, liveRow (A.SYN_SYN_RAMPCTL (n.val + 1)) = true := by decide +kernel
  have hdom : ∀ n : Fin 6, regDomain (A.SYN_SYN_RAMPCTL (n.val + 1)) = none := by decide +kernel
  have hook : ∀ n : Fin 6, hookIndex .mw0 (A.SYN_SYN_RAMPCTL (n.val + 1)) = some 8 := by decide +kernel
  have hn : (A.SYN_SYN_RAMPCTL (n.val + 1) - A.SYN_SYN_RAMPCTL 1) / 0x40 = n.val := by simp only [A.SYN_SYN_RAMPCTL]; omega
  have key := regCommand_hook v h (hrow n) (liveOff_none s (hdom n)) (hook n) rfl
  rw [hn] at key
  exact key.trans (congrArg _ (dif_pos n.isLt))

/-- GO with a profile: busy while a ramp runs, an error with a target too far, else the profile starts on the next tick (R283). -/
def rampStarted (n : Fin 6) (w : State) : State :=
  if ramping w n then w.strike (F.SYN_SYN_STAT_RAMPBUSY (n.val + 1))
  else if (readProfile w n).any (fun e => farTarget (w.synth n) e.1) then w.strike (F.SYN_SYN_STAT_RAMPERR (n.val + 1))
  else w.setSynth n { w.synth n with goNext := readProfile w n }

/-- STOP ends the ramp on the next tick (R286). -/
def rampStopped (n : Fin 6) (w : State) : State := w.setSynth n { w.synth n with stopNext := true }

/-- A write of RAMPCTL loads NSEG, then acts by GO, then by STOP. -/
theorem rampWrite_eq (n : Fin 6) (v : Word) (s : State) :
    let w := regWrite (A.SYN_SYN_RAMPCTL (n.val + 1)) v s
    let g := if v.getLsbD 31 then rampStarted n w else w
    rampWrite n v s = if v.getLsbD 30 then rampStopped n g else g := rfl

theorem exec_rampGo_admitted {s : State} (n : Fin 6) (v : Word) (h : Admits s) :
    let g := rampStarted n (regWrite (A.SYN_SYN_RAMPCTL (n.val + 1)) (v ||| 0x80000000) (countAccess .mw0 s))
    exec (.rampGo n v) s = .next (if (v ||| 0x80000000).getLsbD 30 then rampStopped n g else g) := by
  have go : (v ||| 0x80000000).getLsbD 31 = true := by simp
  refine (regCommand_rampctl n (v ||| 0x80000000) h).trans ?_
  rw [rampWrite_eq, go]
  rfl

theorem exec_rampStop_admitted {s : State} (n : Fin 6) {v : Word} (h : Admits s) (hv : v.getLsbD 31 = false) :
    exec (.rampStop n v) s = .next (rampStopped n (regWrite (A.SYN_SYN_RAMPCTL (n.val + 1)) (v ||| 0x40000000) (countAccess .mw0 s))) := by
  have noGo : (v ||| 0x40000000).getLsbD 31 = false := by simpa using hv
  have stop : (v ||| 0x40000000).getLsbD 30 = true := by simp
  refine (regCommand_rampctl n (v ||| 0x40000000) h).trans ?_
  rw [rampWrite_eq, noGo, stop]
  rfl

/-- The state in which a ramp has reached the target `t` of its segment and goes on with `rest`. -/
def segmentReached (n : Fin 6) (t : Frac) (rest : List (Frac × Nat)) (s : State) : State := s.setSynth n { s.synth n with
  offset := t, profile := rest, seg := if rest = [] then 0 else (s.synth n).seg + 1, segAt := s.trn.coarse, bends := (s.synth n).bend }

/-- The count of a running ramp's segment, which SEG shows. -/
def segmentCounted (n : Fin 6) (rest : List (Frac × Nat)) (s q : State) : State :=
  pmcEvent 11 0x05 (n.val + 1) 1 (q.set (F.SYN_SYN_STAT_SEG (n.val + 1)) (if rest = [] then 0 else (s.synth n).seg + 1))

/-- The end of a segment: what a STOP left ends silently, and a running ramp counts it and ends with its last. -/
theorem exec_rampSegmentDone_reached {s : State} {n : Fin 6} {t : Frac} {sl : Nat} {rest : List (Frac × Nat)}
    (hp : (s.synth n).profile = (t, sl) :: rest) (hf : s.on F.SYN_STAT_FROZEN = false) (ht : (s.synth n).offsetAt s.trn.coarse = t) :
    let q := segmentReached n t rest s
    let runs := s.on (F.SYN_SYN_STAT_RAMP (n.val + 1))
    let u := if runs then segmentCounted n rest s q else q
    exec (.rampSegmentDone n) s = .next (synthChanged (if rest = [] ∧ runs = true
      then irqSet 6 A.SYN_IRQ_STAT (16 + (n.val + 1)) (u.set (F.SYN_SYN_STAT_RAMP (n.val + 1)) 0) else u)) := by
  intro q runs u
  show execRampSegmentDone n s = _
  unfold execRampSegmentDone
  dsimp only
  rw [hp]
  exact congrArg _ (if_pos ⟨hf, ht⟩)

/-! ## Outputs (R291, R294) -/

/-- LIMIT_CLEAR reaches the write of its output's control register. -/
theorem exec_limitClear_admitted {s : State} (n : Fin 12) (v : Word) (h : Admits s) :
    exec (.limitClear n v) s = .next (outCtlWrite n v (countAccess .mw0 s)) := by
  have hrow : ∀ n : Fin 12, liveRow (A.SYN_OUT_CTL n) = true := by decide +kernel
  have hdom : ∀ n : Fin 12, regDomain (A.SYN_OUT_CTL n) = none := by decide +kernel
  have hook : ∀ n : Fin 12, hookIndex .mw0 (A.SYN_OUT_CTL n) = some 9 := by decide +kernel
  have hn : (A.SYN_OUT_CTL n - A.SYN_OUT_CTL 0) / 0x40 = n.val := by simp only [A.SYN_OUT_CTL]; omega
  have key := regCommand_hook v h (hrow n) (liveOff_none s (hdom n)) (hook n) rfl
  rw [hn] at key
  exact key

theorem exec_limitAutoRelease_due {s : State} {o : Fin 12} (ha : s.on (F.SYN_OUT_CFG_AUTOREL o) = true) (hl : s.on (F.SYN_OUT_STAT_LIMIT o) = true)
    (ht : 100 < s.syn.passTicks[o]) : exec (.limitAutoRelease o) s = .next (s.set (F.SYN_OUT_STAT_LIMIT o) 0) :=
  congrArg _ (if_pos (by rw [ha, hl, decide_eq_true ht]; rfl))

/-- Settles O35: each command under the condition on which it acts; a write of NUM, DEN or DIV relocks, and the writes of RAMPCTL and CTL reach their hooks. -/
theorem synthesisCommandsTakeEffect : Obligations.SynthesisCommandsTakeEffect := by
  refine ⟨fun s n hl hh => exec_synLol_locked hl hh, fun s n he hi h0 hf hl => exec_synLock_free he hi h0 hf hl,
    fun s n hl hs ht => exec_synSettleDone_due hl hs ht, fun s a v p h hd => ?_, fun s c x hr hx => exec_synSteerApply_due hr hx,
    fun s n v h => exec_rampGo_admitted n v h, fun s n v h hv => exec_rampStop_admitted n h hv, fun s n t sl rest hp hf ht => ?_,
    fun s hr => congrArg _ (if_pos hr), fun s n v h => exec_limitClear_admitted n v h, fun s o ha hl ht => exec_limitAutoRelease_due ha hl ht⟩
  · intro u w move hf
    have moved : ∀ n, relock n w = move n := fun n => relock_running n hf
    refine ⟨fun n hn ha => ?_, fun o ha => ?_⟩
    · rw [exec_synRelockChange_ratio v h hn ha hd, ← moved]
    · rw [exec_synRelockChange_outDiv v h ha hd, ← moved]
  · rw [exec_rampSegmentDone_reached hp hf ht]
    refine ⟨fun hr => ?_, fun hr he => ?_, fun hr he => ?_⟩
    · rw [hr, if_neg (by simp)]
      rfl
    · rw [hr, if_pos ⟨he, rfl⟩]
      rfl
    · rw [hr, if_neg (fun e => he e.1)]
      rfl

end Sys2Proof.Machine
end

/-! The Stake units: Follow_Up, the variable latencies, the self-test, and the writes that move a compensation (R130-R132, R137, R139, R143). -/
section
namespace Sys2Proof.Machine

/-! ## Follow_Up (R139) -/

/-- The oldest egress record of a two-step Sync leaves the queue, and its Follow_Up waits to be sent. -/
theorem exec_followUpSend_oldest {s : State} {n : Fin 7} {r : EgressRec} {rest : List EgressRec} {x : TwoStepSync} {t : Instant} (hh : halted s = false)
    (hq : (s.stkUnit n).queue = r :: rest) (ht : r.inst = some t) (hx : (s.stkUnit n).syncs.find? (fun x => decide (x.tag = r.tag)) = some x) :
    exec (.followUpSend n) s = .next (txDevice n ({ x.env with srcPort := 320, dstPort := 320 }.frame (followUp x t))
      ((s.setStk n { s.stkUnit n with queue := rest, syncs := (s.stkUnit n).syncs.filter (fun x => decide (x.tag ≠ r.tag)) }).set
        (F.STK_STAT_QLEVEL n) rest.length)) := by
  show execFollowUpSend n s = _
  unfold execFollowUpSend
  dsimp only
  rw [hh, if_neg (by decide), hq]
  dsimp only
  rw [ht, hx]

theorem exec_followUpSend_empty {s : State} {n : Fin 7} (hq : (s.stkUnit n).queue = []) : exec (.followUpSend n) s = .next s := by
  show execFollowUpSend n s = _
  unfold execFollowUpSend
  dsimp only
  rw [hq, ite_self]

/-! ## The self-test (R143) -/

/-- STAKE_SELF_TEST_START reaches the write of its unit's CAL with START. -/
theorem exec_stakeSelfTestStart_admitted {s : State} (n : Fin 7) (h : Admits s) (hl : liveOff s (A.STK_CAL n) = false) :
    exec (.stakeSelfTestStart n) s = .next (calWrite n 1 (countAccess .mw0 s)) := by
  have row : ∀ n : Fin 7, liveRow (A.STK_CAL n) = true := by decide +kernel
  have hook : ∀ n : Fin 7, hookIndex .mw0 (A.STK_CAL n) = some 16 := by decide +kernel
  have place : (A.STK_CAL n - A.STK_CAL 0) / 0x1000 = n.val := by simp only [A.STK_CAL]; omega
  have key := regCommand_hook 1 h (row n) hl (hook n) rfl
  rw [place] at key
  exact key.trans (congrArg _ (dif_pos n.isLt))

/-- START on a port that is down and runs no self-test starts one. -/
theorem calWrite_starts {s : State} {n : Fin 7} (ha : calAllowed s n = true) (hb : s.on (F.STK_CAL_BUSY n) = false) :
    calWrite n 1 s = ((s.set (F.STK_CAL_BUSY n) 1).set (F.STK_CAL_FAIL n) 0).setStk n { s.stkUnit n with calFrom := s.sys.ticks } :=
  if_pos (by rw [ha, hb]; decide)

/-- From the third tick after its start a self-test ends with its report. -/
theorem exec_stakeSelfTestDone_due {s : State} {n : Fin 7} {loop : Int} (hb : s.on (F.STK_CAL_BUSY n) = true)
    (ht : (s.stkUnit n).calFrom + 3 ≤ s.sys.ticks) :
    let sp := stakeSpeed s n
    let res := loop - ((Config.fixedRx n sp s.bm.dieTemp + Config.fixedTx n sp s.bm.dieTemp + (s.stkUnit n).vrx + (s.stkUnit n).vtx : Nat) : Int)
    let bad := decide (calLimit s n < res.natAbs)
    let u := irqSet 9 (A.STK_IRQ_STAT n) 1 (((s.set (F.STK_CAL_BUSY n) 0).setI (F.STK_CAL_RES n) (clampInt (-32768) 32767 res)).setB (F.STK_CAL_FAIL n) bad)
    exec (.stakeSelfTestDone n loop) s = .next (if bad then faultSend .stkCal n 0 0 0 u else u) :=
  congrArg _ (if_pos (by rw [hb, decide_eq_true ht]; rfl))

/-! ## Compensation (R131, R137) -/

theorem imageHook_stk {pre : State} {a : Nat} (s : State) (h : a / 0x10000 = 0x18) : imageHook pre a s =
    (List.finRange 7).foldl (fun (t : State) (m : Fin 7) => if compensation pre (keepHistory pre.regs s) m then compChanged pre m t else t)
      (keepHistory pre.regs s) := by
  unfold imageHook
  simp only [h]
  rfl

/-- The registers of a unit that set its compensation. -/
def compRegs (n : Fin 7) : List Nat := [A.STK_CFG n, A.STK_TRIM n, A.STK_BRD n, A.STK_PHYRX n, A.STK_PHYTX n]

/-- They are one-word registers of the image, in the block of the Stake units. -/
theorem imageRow_compRegs : ∀ n : Fin 7, ∀ a ∈ compRegs n, imageRow a = true ∧ a / 0x10000 = 0x18 := by decide +kernel

/-- A permitted write of a compensation register loads it, and settles every unit whose compensation it moved. -/
theorem exec_stakeCompensationChange_permitted {s : State} {p : Path} {n : Fin 7} {a : BitVec 24} {v : Word} (h : Admits s)
    (ha : (compRegs n).contains a.toNat = true) (hd : denyReason (countAccess p s) a.toNat v = none) :
    let u := countAccess p s
    let w := keepHistory u.regs (loadLive p u (a.toNat, v))
    exec (.stakeCompensationChange n a v p) s =
      .next ((List.finRange 7).foldl (fun (t : State) (m : Fin 7) => if compensation u w m then compChanged u m t else t) w) := by
  intro u w
  obtain ⟨row, block⟩ := imageRow_compRegs n a.toNat (by simpa using ha)
  have written : exec (.stakeCompensationChange n a v p) s = regCommand p a.toNat v s := if_pos ha
  rw [written, regCommand_image p a.toNat v h row (ownedWhole_outside _ (.inr (by omega))) hd, imageHook_stk _ block]

/-- Settles O28: Follow_Up by the oldest record, the self-test by the write of CAL and by its third tick, and the write of a compensation register by its block. -/
theorem stakeUnitCommandsTakeEffect : Obligations.StakeUnitCommandsTakeEffect := by
  refine ⟨fun s n r rest x t hh hq ht hx => exec_followUpSend_oldest hh hq ht hx, fun s n hq => exec_followUpSend_empty hq,
    fun s n vrx vtx hn hh => congrArg _ (if_pos ⟨hn, hh⟩), fun s n h hl ha hb => ?_, fun s n loop hb ht => exec_stakeSelfTestDone_due hb ht,
    fun s n a v p h ha hd => exec_stakeCompensationChange_permitted h ha hd⟩
  exact (exec_stakeSelfTestStart_admitted n h hl).trans (congrArg _ (calWrite_starts ha hb))

end Sys2Proof.Machine
end

/-! The field ports and MDIO: the attempts and the collisions of CSMA/CD and PLCA, BEACONs, the receive clock, and MDIO frames (R206-R208, R210). -/
section
namespace Sys2Proof.Machine

/-! ## The start of a frame (R206-R208) -/

/-- The head of the queue of a port that is up and free goes by the port's rule: in its own opportunity, or after the gap and the backoff. -/
theorem exec_fieldTxAttempt_quiet {s : State} {n : Fin 2} {x : TxFrame} {rest : List TxFrame} (q : Nat) (hq : s.prt.tx[fieldPort n] = x :: rest)
    (hl : linkUp s (fieldPort n) = true) (hs : (s.prt.field[n]).sending = false) (hm : fieldSilent s = false) (hh : halted s = false) :
    exec (.fieldTxAttempt n (some q)) s = .next (if plcaRules s n then (if ownTurn s n then fieldStart n x rest s else s)
      else if 96 ≤ q ∧ after (s.prt.field[n]).backoff s.datum = false then fieldStart n x rest s else s) := by
  show execFieldTxAttempt n (some q) s = _
  unfold execFieldTxAttempt
  dsimp only
  rw [hq]
  exact congrArg _ (if_neg (by rw [hl, hs, hm, hh]; decide))

/-- The queue's head is on the wire, with the state `f` of its port. -/
def fieldOnWire (n : Fin 2) (x : TxFrame) (rest : List TxFrame) (f : FieldPort) (s : State) : State :=
  let u := s.setField n { f with sending := true }
  { u with prt := { u.prt with tx := u.prt.tx.set (fieldPort n) rest
                               txNow := u.prt.txNow.set (fieldPort n) (some (x, instAdd u.datum (txTime u (fieldPort n) x))) } }.emit
    (.frame (fieldPort n) (withFcs x.bytes) u.datum)

theorem fieldStart_csma {s : State} {n : Fin 2} (x : TxFrame) (rest : List TxFrame) (h : plcaRules s n = false) :
    fieldStart n x rest s = fieldOnWire n x rest s.prt.field[n] s := by
  unfold fieldStart
  rw [h]
  rfl

/-- A frame of a PLCA opportunity keeps the port the current node, and counts in its burst. -/
theorem fieldStart_plca {s : State} {n : Fin 2} (x : TxFrame) (rest : List TxFrame) (h : plcaRules s n = true) : fieldStart n x rest s =
    fieldOnWire n x rest { s.prt.field[n] with curId := s.get (F.PRT_F_PLCA0_NODEID n), burst := (s.prt.field[n]).burst + 1 } s := by
  unfold fieldStart
  rw [h]
  rfl

/-! ## Collisions (R141, R207, R208) -/

/-- A collision that is not late counts, and cuts the frame on the wire. -/
theorem exec_fieldCollision_early {s : State} {n : Fin 2} {x : TxFrame × Instant} (hx : s.prt.txNow[fieldPort n] = some x)
    (hl : lateCollision s n x = false) :
    exec (.fieldCollision n true) s = .next (collided n x.1 s.prt.field[n] (cutFrame n (portCount (fieldPort n) 18 1 s))) := by
  show Host.Outcome.next (collide n s) = _
  unfold collide
  rw [hx]
  dsimp only
  rw [hl, if_neg (by decide)]

section collided
variable {n : Fin 2} (x : TxFrame) {f : FieldPort} {s : State}

theorem collided_plca (f : FieldPort) (h : plcaRules s n = true) :
    collided n x f s = fieldReturn n x (s.setField n { f with sending := false, burstEnd := s.now }) := if_pos h

theorem collided_sixteenth (h : plcaRules s n = false) (hc : 15 ≤ f.collisions) :
    collided n x f s = fieldAbandon n x (s.setField n { f with collisions := 0, sending := false, deferred := false }) :=
  (if_neg (Bool.eq_false_iff.mp h)).trans (if_pos hc)

theorem collided_backoff (h : plcaRules s n = false) (hc : f.collisions < 15) :
    let r := s.draw (if f.collisions + 1 < 10 then f.collisions + 1 else 10)
    collided n x f s = fieldReturn n x
      (r.2.setField n { f with collisions := f.collisions + 1, sending := false, backoff := instAdd r.2.datum (nsUnits (51200 * r.1)) }) :=
  (if_neg (Bool.eq_false_iff.mp h)).trans (if_neg (Nat.not_le.mpr hc))

end collided

/-! ## BEACONs (R208) -/

theorem exec_beaconLost_overdue {s : State} {n : Fin 2} (hr : plcaRules s n = true) (hc : plcaLeads s n = false) (hl : linkUp s (n.val + 4) = true)
    (ht : (s.prt.field[n]).beaconAt + s.get (F.PRT_F_PLCA1_BTO n) * 1200000 ≤ s.now) : exec (.beaconLost n) s =
      .next (irqSet (portGroup (fieldPort n)) (A.PRT_IRQ_STAT (fieldPort n)) 5 (portCount (fieldPort n) 22 1
        ((s.set (F.PRT_F_STAT_PLCAOK n) 0).setField n { s.prt.field[n] with fallback := true, cycling := false }))) :=
  congrArg _ (if_pos (by simp only [hr, hc, hl, ht, Bool.not_false, Bool.and_self, decide_true]))

theorem exec_beaconReceive_node {s : State} {n : Fin 2} (hr : plcaOn s n = true) (hc : plcaLeads s n = false) (hl : linkUp s (n.val + 4) = true) :
    exec (.beaconReceive n) s = .next ((s.set (F.PRT_F_STAT_PLCAOK n) 1).setField n ((s.prt.field[n]).cycle s.now s.now)) :=
  congrArg _ (if_pos (by simp only [hr, hc, hl, Bool.not_false, Bool.and_self]))

/-- The coordinator opens a cycle when none runs, or when every node has had its opportunity. -/
theorem exec_beaconSend_due {s : State} {n : Fin 2} (hc : plcaLeads s n = true) (hl : linkUp s (n.val + 4) = true) (hm : fieldSilent s = false)
    (hh : halted s = false) (hs : (s.prt.field[n]).sending = false)
    (ht : (s.prt.field[n]).cycling = false ∨ s.get (F.PRT_F_PLCA0_NCOUNT n) ≤ plcaNode s n) : exec (.beaconSend n) s =
      .next ((((s.set (F.PRT_F_STAT_COORD n) 1).set (F.PRT_F_STAT_PLCAOK n) 1).setField n
        ((s.prt.field[n]).cycle s.now (s.now + beaconBits * fieldBit))).emit (.frame (n.val + 4) [] s.datum)) := by
  have due : (!(s.prt.field[n]).cycling || decide (s.get (F.PRT_F_PLCA0_NCOUNT n) ≤ plcaNode s n)) = true := by simpa using ht
  exact congrArg _ (if_pos (by simp only [hc, hl, hm, hh, hs, due, Bool.not_false, Bool.and_self]))

/-! ## The receive clock (R206) -/

/-- A change of the receive clock is shown, and the port comes up or goes down with it. -/
theorem exec_fieldRxClkChange_changed {s : State} {n : Fin 2} {running : Bool} (h : s.on (F.PRT_F_STAT_CLKOK n) ≠ running) :
    let a := s.setB (F.PRT_F_STAT_CLKOK n) running
    exec (.fieldRxClkChange n running) s = .next (if running then fieldSettle n a else fieldDown n a) := congrArg _ (if_neg h)

/-- A port that sends nothing goes down without a cut. -/
theorem fieldDown_idle {s : State} {n : Fin 2} (h : (s.prt.field[n]).sending = false) :
    fieldDown n s = fieldSettle n (dropTx (fieldPort n) (s.setField n .empty)) := by
  unfold fieldDown
  rw [h]
  rfl

/-! ## MDIO (R210) -/

theorem exec_mdioCommand_admitted {s : State} (p : Path) (v : Word) (h : Admits s) : exec (.mdioCommand p v) s = .next (mdioWrite v (countAccess p s)) :=
  regCommand_hook v h (by decide +kernel) (liveOff_none s (by decide)) (i := 15) (by cases p <;> decide +kernel) rfl

/-- The fields of a write of PRT_MDIO_CMD, with BUSY raised by GO. -/
def mdioLoaded (v : Word) (s : State) : State :=
  (s.wr A.PRT_MDIO_CMD (v &&& 0x3FFEFFFF)).setB F.PRT_MDIO_CMD_BUSY (s.on F.PRT_MDIO_CMD_BUSY || v.getLsbD 30)

/-- GO of a management interface that is not busy starts the frame. -/
theorem mdioWrite_go {v : Word} {s : State} (hg : v.getLsbD 30 = true) (hb : s.on F.PRT_MDIO_CMD_BUSY = false) : mdioWrite v s =
    { mdioLoaded v s with prt := { (mdioLoaded v s).prt with mdioRead := decide (2 ≤ fieldGet v 27 2) } }.emit (.mdio (mdioFrame v)) :=
  if_pos (by rw [hg, hb]; rfl)

theorem mdioWrite_noFrame {v : Word} {s : State} (h : v.getLsbD 30 = false ∨ s.on F.PRT_MDIO_CMD_BUSY = true) : mdioWrite v s = mdioLoaded v s :=
  if_neg (by rcases h with h | h <;> simp only [h, Bool.false_and, Bool.not_true, Bool.and_false, Bool.false_eq_true, not_false_eq_true])

/-- The end of a frame: a read places its data. -/
theorem exec_mdioDone_busy {s : State} (d : BitVec 16) (h : s.on F.PRT_MDIO_CMD_BUSY = true) : exec (.mdioDone d) s =
    .next (if s.prt.mdioRead then (s.set F.PRT_MDIO_CMD_BUSY 0).set F.PRT_MDIO_CMD_DATA d.toNat else s.set F.PRT_MDIO_CMD_BUSY 0) := by
  show execMdioDone d s = _
  unfold execMdioDone
  rw [if_pos h]
  dsimp only
  rw [State.set_prt]

/-- Settles O30: an attempt by the port's rule, a collision by the rule and the count, BEACONs, clock and MDIO by the condition on which each acts. -/
theorem fieldPortCommandsTakeEffect : Obligations.FieldPortCommandsTakeEffect := by
  refine ⟨fun s n q x rest hx hl hs hm hh hr hq hb => ?_, fun s n q x rest hx hl hs hm hh hr => ?_, fun s n x hx hl => ?_,
    fun s n hr hc hl ht => exec_beaconLost_overdue hr hc hl ht, fun s n hr hc hl => exec_beaconReceive_node hr hc hl,
    fun s n hc hl hm hh hs ht => exec_beaconSend_due hc hl hm hh hs ht, fun s n hk => ?_, fun s n hk hs => ?_, fun s p v h => ?_, fun s d hb => ?_,
    fun s n => rfl⟩
  · rw [exec_fieldTxAttempt_quiet q hx hl hs hm hh, hr, if_neg (by decide), if_pos ⟨hq, hb⟩, fieldStart_csma x rest hr]
    rfl
  · rw [exec_fieldTxAttempt_quiet q hx hl hs hm hh, if_pos hr, fieldStart_plca x rest hr]
    exact ⟨fun h => congrArg _ (if_neg (Bool.eq_false_iff.mp h)), fun h => congrArg _ (if_pos h)⟩
  · rw [exec_fieldCollision_early hx hl]
    exact ⟨fun h => congrArg _ (collided_plca x.1 _ h), fun h hc => congrArg _ (collided_sixteenth x.1 h hc),
      fun h hc => congrArg _ (collided_backoff x.1 h hc)⟩
  · exact exec_fieldRxClkChange_changed (by rw [hk]; decide)
  · refine (exec_fieldRxClkChange_changed (by rw [hk]; decide)).trans (congrArg _ (fieldDown_idle ?_))
    rwa [State.setB_prt]
  · rw [exec_mdioCommand_admitted p v h]
    exact ⟨fun hg hb => congrArg _ (mdioWrite_go hg hb), fun hn => congrArg _ (mdioWrite_noFrame hn)⟩
  · rw [exec_mdioDone_busy d hb]
    exact ⟨fun h => congrArg _ (if_pos h), fun h => congrArg _ (if_neg (Bool.eq_false_iff.mp h))⟩

end Sys2Proof.Machine
end

/-! The NTS service: the SIV lanes' completions, the epoch keys, and the entropy source (R145, R162-R169). -/
section
namespace Sys2Proof.Machine

/-! ## Completions of the SIV lanes (R162-R167) -/

/-- The oldest request of a lane leaves it and ends its checks, in a mode that answers it. -/
theorem exec_ntsCookieVerify_serving {s : State} {n : Fin 12} {v : NtsRequest} (hv : laneRequest s n = some v) (hg : waitsForGrid s v.item.port = false)
    (hh : halted s = false) (hs : serves (laneDone n (.verify v) s) v.item.inst = true) :
    exec (.ntsCookieVerify n) s = .next (lanesRun (flowControl v.item.port (cookieVerify n v (laneDone n (.verify v) s)))) := by
  show execNtsCookieVerify n s = _
  unfold execNtsCookieVerify
  rw [hv]
  dsimp only
  rw [hg, hh, if_neg (by decide), if_pos hs]

/-- The response of a ticket leaves its lane and is sealed, while the entropy source gives nonces. -/
theorem exec_ntsResponseEncrypt_held {s : State} {p : Fin 4} {id : Nat} {n : Fin 12} {t : Ticket} {j : NtsJob} (hn : laneOf s (.encrypt p id) = some n)
    (hh : halted s = false) (hr : rngFailed s = false) (ht : laneTicket s (p, id) = some (t, j)) : exec (.ntsResponseEncrypt p id) s =
      .next (lanesRun (responseEncrypt p t j (pmcEvent 5 0x05 n t.payload.length (laneDone n (.encrypt p id) s)))) := by
  show execNtsResponseEncrypt p id s = _
  unfold execNtsResponseEncrypt
  rw [hn]
  dsimp only
  rw [hh, if_neg (by decide), ht]
  dsimp only
  rw [hr, if_neg (by decide)]

/-- Cookies that are already sealed are kept, with or without a root key: the tag alone is made, over a fresh nonce. -/
theorem responseEncrypt_sealed {j : NtsJob} {plain : Bytes} (p : Fin 4) (t : Ticket) (s : State) (h : j.plain = some plain) : responseEncrypt p t j s =
    let r := s.drawBytes 16
    gateLoad p t.id (r.2.setPort p ((r.2.port p).putTicket
      { t with nts := some { j with plain := some plain }, payload := sealResponse j (t.payload.take j.clear) plain r.1 })) := by
  unfold responseEncrypt
  rw [h]

/-! ## Epoch keys (R145) -/

/-- The keys of the epochs in use are held, where there is a root key. -/
def holdEpochs (s : State) : State := if s.crl.root.isSome then { s with crl := { s.crl with held := heldEpochs s s.datum } } else s

theorem exec_ntsKeyDerive (s : State) : exec .ntsKeyDerive s = .next (holdEpochs s) := rfl

theorem holdEpochs_rooted {s : State} (h : s.crl.root.isSome = true) : holdEpochs s = { s with crl := { s.crl with held := heldEpochs s s.datum } } :=
  if_pos h

theorem exec_ntsKeyDerive_rooted {s : State} (h : s.crl.root.isSome = true) :
    exec .ntsKeyDerive s = .next { s with crl := { s.crl with held := heldEpochs s s.datum } } :=
  (exec_ntsKeyDerive s).trans (congrArg _ (holdEpochs_rooted h))

theorem exec_ntsEpoch_changed {s : State} (h : s.get F.CRL_NTS_EPOCH_EPOCH ≠ epochOf s s.datum) : exec .ntsEpoch s =
    .next (record 0x3001 (epochOf s s.datum) 0 0 0 (irqSet 15 A.CRL_NTS_IRQ_STAT 0 (holdEpochs (s.set F.CRL_NTS_EPOCH_EPOCH (epochOf s s.datum))))) :=
  congrArg _ (if_neg h)

/-! ## The entropy source (R169) -/

theorem exec_rngFail_working {s : State} (h : rngFailed s = false) : exec .rngFail s =
    .next (faultSend .rngFail 18 0 0 0 (pmcEvent 5 0x06 18 1 (irqSet 15 A.CRL_NTS_IRQ_STAT 3 (s.set F.CRL_NTS_STAT_NORNG 1)))) :=
  congrArg _ (if_neg (Bool.eq_false_iff.mp h))

/-- A recovery draws the client keys anew where they had been derived. -/
theorem exec_rngRecover_failed {s : State} (h : rngFailed s = true) : exec .rngRecover s = .next (let u := s.set F.CRL_NTS_STAT_NORNG 0
    if u.svp.keysDerived then let t := drawClientKeys u; { t with svp := { t.svp with keysDerived := false } } else u) :=
  congrArg _ (if_pos h)

theorem exec_rngRecover_underived {s : State} (h : rngFailed s = true) (hk : (s.set F.CRL_NTS_STAT_NORNG 0).svp.keysDerived = false) :
    exec .rngRecover s = .next (s.set F.CRL_NTS_STAT_NORNG 0) :=
  (exec_rngRecover_failed h).trans (congrArg _ (if_neg (Bool.eq_false_iff.mp hk)))

/-- Settles O47: each command under the condition on which it acts, and a recovery by whether the client keys had been derived. -/
theorem ntsKeyCommandsTakeEffect : Obligations.NtsKeyCommandsTakeEffect :=
  ⟨fun _ hr => exec_ntsKeyDerive_rooted hr, fun _ he => exec_ntsEpoch_changed he, fun _ hf => exec_rngFail_working hf,
    fun _ hf => ⟨fun hk => exec_rngRecover_underived hf hk, fun hk => (exec_rngRecover_failed hf).trans (congrArg _ (if_pos hk))⟩⟩

/-- Settles O25: a verified request ends as `cookieVerify` says of its verdict, a response with its sealed cookies, and the key commands as in O47. -/
theorem ntsCommandsTakeEffect : Obligations.NtsCommandsTakeEffect := by
  refine ⟨fun s n v hv hg hh hs => exec_ntsCookieVerify_serving hv hg hh hs, fun s p id n t j plain hn hh hr ht hj => ?_,
    fun s hr => exec_ntsKeyDerive_rooted hr, fun s he hr => ?_, fun s hf => exec_rngFail_working hf, fun s hf hk => exec_rngRecover_underived hf ?_⟩
  · rw [exec_ntsResponseEncrypt_held hn hh hr ht, responseEncrypt_sealed p t _ hj]
  · have root_kept : (s.set F.CRL_NTS_EPOCH_EPOCH (epochOf s s.datum)).crl.root.isSome = true := by rwa [State.set_crl]
    rw [exec_ntsEpoch_changed he, holdEpochs_rooted root_kept]
  · rwa [State.set_svp]

end Sys2Proof.Machine
end

/-! The cores of the big-number engine: the computation on a core, the modular, curve and key store operations, dispatch, completion and abort (R172-R192). -/
section
namespace Sys2Proof.Machine

/-! ## The computation on a core (R175, R182) -/

/-- Core `c` runs operation `o` of this code, has not computed it, and KCLK moves it. -/
structure CoreRuns (s : State) (c : Fin 16) (o : PkeOp) (code : Nat) : Prop where
  held : s.core c = some o
  opcode : beAt o.block 0 1 = code
  ready : o.outcome = none ∧ kclkRuns s = true

/-- Core `c`, which runs `o`, holds the outcome `r`. -/
def setOutcome (s : State) (c : Fin 16) (o : PkeOp) (r : Outcome2) : State := s.setCore c (some { o with outcome := some r })

/-- The core sets its outcome, in the state that the operation leaves. -/
theorem coreCompute_runs {s : State} {c : Fin 16} {o : PkeOp} {code : Nat} {f : CmdHead → PkeOp → State → Outcome2 × State} {r : Outcome2} {u : State}
    (h : CoreRuns s c o code) (hf : f (cmdHead o.block) o s = (r, u)) : coreCompute c code f s = setOutcome u c o r := by
  unfold coreCompute
  rw [h.held]
  dsimp only
  rw [if_pos ⟨h.opcode, h.ready⟩, hf]
  rfl

/-- An operation that draws nothing changes its core's outcome alone. -/
theorem coreCompute_pure {s : State} {c : Fin 16} {o : PkeOp} {code : Nat} {f : CmdHead → PkeOp → Outcome2} {r : Outcome2}
    (h : CoreRuns s c o code) (hf : f (cmdHead o.block) o = r) : coreCompute c code (pureOp f) s = setOutcome s c o r :=
  coreCompute_runs (f := pureOp f) h (congrArg (·, s) hf)

/-- A computation that draws nothing, as a command. -/
theorem next_coreCompute_pure {s : State} {c : Fin 16} {o : PkeOp} {code : Nat} (f : CmdHead → PkeOp → Outcome2) (hc : s.core c = some o)
    (hb : beAt o.block 0 1 = code) (hr : o.outcome = none ∧ kclkRuns s = true) :
    (Host.Outcome.next (coreCompute c code (pureOp f) s) : Host.Outcome State Fault Refusal) = .next (setOutcome s c o (f (cmdHead o.block) o)) :=
  congrArg _ (coreCompute_pure ⟨hc, hb, hr⟩ rfl)

/-- A computation that draws, as a command. -/
theorem next_coreCompute_runs {s : State} {c : Fin 16} {o : PkeOp} {code : Nat} (f : CmdHead → PkeOp → State → Outcome2 × State) (hc : s.core c = some o)
    (hb : beAt o.block 0 1 = code) (hr : o.outcome = none ∧ kclkRuns s = true) :
    (Host.Outcome.next (coreCompute c code f s) : Host.Outcome State Fault Refusal) =
      .next (setOutcome (f (cmdHead o.block) o s).2 c o (f (cmdHead o.block) o s).1) :=
  congrArg _ (coreCompute_runs ⟨hc, hb, hr⟩ rfl)

/-! ## The modular operations (R175, R180) -/

/-- The operands of LEN words of a modular operation: the modulus `m`, then `x` and `y`. -/
structure ModOperands (b : Bytes) (w m x y : Nat) : Prop where
  width : w = 8 * (cmdHead b).len
  modulus : m = opndNat b 0 w
  left : x = opndNat b w w
  right : y = opndNat b (2 * w) w

section modular
variable {b : Bytes} {op w m x y : Nat}

theorem modSimple_zeroModulus (p : ModOperands b w m x y) (hm : m = 0) : modSimple op (cmdHead b) b = (2, []) := by
  obtain ⟨rfl, rfl, rfl, rfl⟩ := p
  exact if_pos hm

theorem modRed_reduced (p : ModOperands b w m x y) (hm : m ≠ 0) : modSimple 0x04 (cmdHead b) b = (0, natBE w (opndNat b w (2 * w) % m)) := by
  obtain ⟨rfl, rfl, rfl, rfl⟩ := p
  exact (if_neg hm).trans (if_pos rfl)

theorem modSimple_outOfRange (p : ModOperands b w m x y) (ho : op ≠ 0x04) (hm : m ≠ 0) (hr : m ≤ x ∨ m ≤ y) : modSimple op (cmdHead b) b = (1, []) := by
  obtain ⟨rfl, rfl, rfl, rfl⟩ := p
  exact (if_neg hm).trans ((if_neg ho).trans (if_pos hr))

theorem modSimple_inRange (p : ModOperands b w m x y) (ho : op ≠ 0x04) (hm : m ≠ 0) (hx : x < m) (hy : y < m) :
    modSimple op (cmdHead b) b = (0, natBE w (if op = 0x01 then (x + y) % m else subMod x y m)) := by
  obtain ⟨rfl, rfl, rfl, rfl⟩ := p
  exact (if_neg hm).trans ((if_neg ho).trans (if_neg (by omega)))

theorem modOdd_evenModulus (p : ModOperands b w m x y) (hm : m % 2 = 0) : modOdd op (cmdHead b) b = (2, []) := by
  obtain ⟨rfl, rfl, rfl, rfl⟩ := p
  exact if_pos hm

/-- The second operand of MOD_MUL alone is held to the range: an exponent may be any number. -/
theorem modOdd_outOfRange (p : ModOperands b w m x y) (hm : m % 2 = 1) (hr : m ≤ x ∨ (op = 0x03 ∧ m ≤ y)) : modOdd op (cmdHead b) b = (1, []) := by
  obtain ⟨rfl, rfl, rfl, rfl⟩ := p
  exact (if_neg (by omega)).trans (if_pos hr)

theorem modMul_inRange (p : ModOperands b w m x y) (hm : m % 2 = 1) (hx : x < m) (hy : y < m) :
    modOdd 0x03 (cmdHead b) b = (0, natBE w (x * y % m)) := by
  obtain ⟨rfl, rfl, rfl, rfl⟩ := p
  exact (if_neg (by omega)).trans ((if_neg (by omega)).trans (if_pos rfl))

theorem modExp_inRange (p : ModOperands b w m x y) (hm : m % 2 = 1) (hx : x < m) : modOdd 0x05 (cmdHead b) b = (0, natBE w (x ^ y % m)) := by
  obtain ⟨rfl, rfl, rfl, rfl⟩ := p
  rw [← powMod_eq]
  exact (if_neg (by omega)).trans ((if_neg (by omega)).trans ((if_neg (by decide)).trans (if_pos rfl)))

theorem modInv_inRange (p : ModOperands b w m x y) (hm : m % 2 = 1) (hx : x < m) :
    modOdd 0x06 (cmdHead b) b = match invMod x m with | some i => (0, natBE w i) | none => (6, []) := by
  obtain ⟨rfl, rfl, rfl, rfl⟩ := p
  exact (if_neg (by omega)).trans ((if_neg (by omega)).trans ((if_neg (by decide)).trans (if_neg (by decide))))

/-- An operand that is coprime to the modulus has its inverse; modulo 1 that is 0 (assumption log 34). -/
theorem modInv_coprime (p : ModOperands b w m x y) (hm : m % 2 = 1) (hx : x < m) (hg : Nat.gcd x m = 1) :
    ∃ i, i < m ∧ x * i % m = 1 % m ∧ modOdd 0x06 (cmdHead b) b = (0, natBE w i) := by
  obtain ⟨i, hi, hlt, hinv⟩ := (invMod_spec hx).1 hg
  exact ⟨i, hlt, hinv, by rw [modInv_inRange p hm hx, hi]⟩

/-- Modulo 1 every operand below the modulus is coprime to it, so a missing inverse has another modulus. -/
theorem modInv_notCoprime (p : ModOperands b w m x y) (hm : m % 2 = 1) (hx : x < m) (hg : Nat.gcd x m ≠ 1) : modOdd 0x06 (cmdHead b) b = (6, []) := by
  have modulus_ne_one : m ≠ 1 := fun e => hg (e ▸ Nat.gcd_one_right x)
  rw [modInv_inRange p hm hx, (invMod_spec hx).2 hg modulus_ne_one]

theorem rsaPub_evenModulus (p : ModOperands b w m x y) (hm : m % 2 = 0) : rsaPub (cmdHead b) b = (2, []) := by
  obtain ⟨rfl, rfl, rfl, rfl⟩ := p
  exact if_pos hm

theorem rsaPub_outOfRange (p : ModOperands b w m x y) (hm : m % 2 = 1) (hr : m ≤ x) : rsaPub (cmdHead b) b = (1, []) := by
  obtain ⟨rfl, rfl, rfl, rfl⟩ := p
  exact (if_neg (by omega)).trans (if_pos hr)

theorem rsaPub_inRange (p : ModOperands b w m x y) (hm : m % 2 = 1) (hx : x < m) :
    rsaPub (cmdHead b) b = (0, natBE w (x ^ opndNat b (2 * w) 8 % m)) := by
  obtain ⟨rfl, rfl, rfl, rfl⟩ := p
  rw [← powMod_eq]
  exact (if_neg (by omega)).trans (if_neg (by omega))

end modular

theorem subMod_lt {x y m : Nat} (hm : m ≠ 0) : subMod x y m < m := Nat.mod_lt _ (Nat.pos_of_ne_zero hm)

theorem subMod_add_mod {x y m : Nat} (hx : x < m) (hy : y < m) : (subMod x y m + y) % m = x := by
  unfold subMod
  rw [Nat.mod_eq_of_lt hy, Nat.mod_add_mod, Nat.sub_add_cancel (by omega), Nat.add_mod_right, Nat.mod_eq_of_lt hx]

section outcomes
variable {s : State} {c : Fin 16} {o : PkeOp} {r : Outcome2}

theorem exec_modAdd_runs (h : CoreRuns s c o 0x01) (hf : modSimple 0x01 (cmdHead o.block) o.block = r) : exec (.modAdd c) s = .next (setOutcome s c o r) :=
  congrArg _ (coreCompute_pure h hf)

theorem exec_modSub_runs (h : CoreRuns s c o 0x02) (hf : modSimple 0x02 (cmdHead o.block) o.block = r) : exec (.modSub c) s = .next (setOutcome s c o r) :=
  congrArg _ (coreCompute_pure h hf)

theorem exec_modMul_runs (h : CoreRuns s c o 0x03) (hf : modOdd 0x03 (cmdHead o.block) o.block = r) : exec (.modMul c) s = .next (setOutcome s c o r) :=
  congrArg _ (coreCompute_pure h hf)

theorem exec_modRed_runs (h : CoreRuns s c o 0x04) (hf : modSimple 0x04 (cmdHead o.block) o.block = r) : exec (.modRed c) s = .next (setOutcome s c o r) :=
  congrArg _ (coreCompute_pure h hf)

theorem exec_modExp_runs (h : CoreRuns s c o 0x05) (hf : modOdd 0x05 (cmdHead o.block) o.block = r) : exec (.modExp c) s = .next (setOutcome s c o r) :=
  congrArg _ (coreCompute_pure h hf)

theorem exec_modInv_runs (h : CoreRuns s c o 0x06) (hf : modOdd 0x06 (cmdHead o.block) o.block = r) : exec (.modInv c) s = .next (setOutcome s c o r) :=
  congrArg _ (coreCompute_pure h hf)

theorem exec_rsaPub_runs (h : CoreRuns s c o 0x07) (hf : rsaPub (cmdHead o.block) o.block = r) : exec (.rsaPub c) s = .next (setOutcome s c o r) :=
  congrArg _ (coreCompute_pure h hf)

end outcomes

/-- Settles O43: each operation by its modulus and the range of its operands; the values are those of `powMod_eq` and `invMod_spec`. -/
theorem modularResultsAreExact : Obligations.ModularResultsAreExact := by
  refine ⟨fun s c o w m x y hc hb hr hw hm hx hy => ?modAdd, fun s c o w m x y hc hb hr hw hm hx hy => ?modSub,
    fun s c o w m x y hc hb hr hw hm hx hy => ?modMul, fun s c o w m hc hb hr hw hm => ?modRed, fun s c o w m x y hc hb hr hw hm hx hy => ?modExp,
    fun s c o w m x hc hb hr hw hm hx => ?modInv, fun s c o w m x y hc hb hr hw hm hx hy => ?rsaPub⟩
  case modAdd =>
    have p : ModOperands o.block w m x y := ⟨hw, hm, hx, hy⟩
    have sets {r} := exec_modAdd_runs (r := r) ⟨hc, hb, hr⟩
    exact ⟨fun h0 => sets (modSimple_zeroModulus p h0), fun h0 h => sets (modSimple_outOfRange p (by decide) h0 h),
      fun h0 h1 h2 => sets (modSimple_inRange p (by decide) h0 h1 h2)⟩
  case modSub =>
    have p : ModOperands o.block w m x y := ⟨hw, hm, hx, hy⟩
    have sets {r} := exec_modSub_runs (r := r) ⟨hc, hb, hr⟩
    exact ⟨fun h0 h1 h2 => ⟨subMod x y m, subMod_lt h0, subMod_add_mod h1 h2, sets (modSimple_inRange p (by decide) h0 h1 h2)⟩,
      fun h0 h => sets (modSimple_outOfRange p (by decide) h0 h), fun h0 => sets (modSimple_zeroModulus p h0)⟩
  case modMul =>
    have p : ModOperands o.block w m x y := ⟨hw, hm, hx, hy⟩
    have sets {r} := exec_modMul_runs (r := r) ⟨hc, hb, hr⟩
    exact ⟨fun h0 => sets (modOdd_evenModulus p h0), fun h1 h => sets (modOdd_outOfRange p h1 (h.imp_right fun hy => ⟨rfl, hy⟩)),
      fun h1 hx hy => sets (modMul_inRange p h1 hx hy)⟩
  case modRed =>
    have p : ModOperands o.block w m _ _ := ⟨hw, hm, rfl, rfl⟩
    have sets {r} := exec_modRed_runs (r := r) ⟨hc, hb, hr⟩
    exact ⟨fun h0 => sets (modRed_reduced p h0), fun h0 => sets (modSimple_zeroModulus p h0)⟩
  case modExp =>
    have p : ModOperands o.block w m x y := ⟨hw, hm, hx, hy⟩
    have sets {r} := exec_modExp_runs (r := r) ⟨hc, hb, hr⟩
    exact ⟨fun h0 => sets (modOdd_evenModulus p h0), fun h1 h => sets (modOdd_outOfRange p h1 (.inl h)), fun h1 hx => sets (modExp_inRange p h1 hx)⟩
  case modInv =>
    have p : ModOperands o.block w m x _ := ⟨hw, hm, hx, rfl⟩
    have sets {r} := exec_modInv_runs (r := r) ⟨hc, hb, hr⟩
    refine ⟨fun h1 hx hg => ?_, fun h1 hx hg => sets (modInv_notCoprime p h1 hx hg), fun h1 h => sets (modOdd_outOfRange p h1 (.inl h)),
      fun h0 => sets (modOdd_evenModulus p h0)⟩
    obtain ⟨i, hlt, hinv, hi⟩ := modInv_coprime p h1 hx hg
    exact ⟨i, hlt, hinv, sets hi⟩
  case rsaPub =>
    have p : ModOperands o.block w m x y := ⟨hw, hm, hx, hy⟩
    have sets {r} := exec_rsaPub_runs (r := r) ⟨hc, hb, hr⟩
    exact ⟨fun h0 => sets (rsaPub_evenModulus p h0), fun h1 h => sets (rsaPub_outOfRange p h1 h), fun h1 hx => sets (rsaPub_inRange p h1 hx)⟩

/-! ## The curve and private operations (R175, R179, R180, R189, R390) -/

section draws
variable {s : State} {c : Fin 16} {o : PkeOp}

/-- A signature of the host or of a session draws its nonce and takes its key from the command. -/
theorem exec_ecdsaSign_command (h : CoreRuns s c o 0x14) (ho : ∀ k, o.owner ≠ .seal k) :
    exec (.ecdsaSign c) s = .next (let r := ecdsaSign (cmdHead o.block) o.block o.key s
      setOutcome r.2 c o r.1) := by
  refine congrArg _ (coreCompute_runs h ?_)
  split
  · exact absurd ‹_› (ho _)
  · rfl

/-- The seal of a Field Book segment is the attestation key's signature of its digest (R390). -/
theorem exec_ecdsaSign_seal (h : CoreRuns s c o 0x14) {k : Nat} (ho : o.owner = .seal k) :
    exec (.ecdsaSign c) s = .next (let r := attestSign (opnd o.block 0 48) s
      setOutcome r.2 c o (match r.1 with | some (a, b) => (0, natBE 48 a ++ natBE 48 b) | none => (6, []))) := by
  refine congrArg _ (coreCompute_runs h ?_)
  split
  · rfl
  · rename_i other
    exact absurd ho (other k)

end draws

/-- Settles O44: what each operation computes becomes its core's outcome; the three key generations draw, and a signature goes by who asked for it. -/
theorem curveAndPrivateOperationsTakeEffect : Obligations.CurveAndPrivateOperationsTakeEffect :=
  ⟨fun _ _ _ => next_coreCompute_pure _, fun _ _ _ => next_coreCompute_pure _, fun _ _ _ => next_coreCompute_pure _,
    fun _ _ _ => next_coreCompute_runs _, fun _ _ _ => next_coreCompute_pure _,
    fun _ _ _ hc hb hr ho => exec_ecdsaSign_command ⟨hc, hb, hr⟩ ho, fun _ _ _ _ hc hb hr ho => exec_ecdsaSign_seal ⟨hc, hb, hr⟩ ho,
    fun _ _ _ => next_coreCompute_pure _, fun _ _ _ => next_coreCompute_pure _, fun _ _ _ => next_coreCompute_runs _,
    fun _ _ _ => next_coreCompute_runs _, fun _ _ _ => next_coreCompute_pure _, fun _ _ _ => next_coreCompute_pure _⟩

/-! ## The key store (R186, R189, R190, R192) -/

section store
variable {s : State} {c : Fin 16} {o : PkeOp}

/-- A blob that does not open is UNWRAP_FAIL. -/
theorem exec_ksImport_unopened (h : CoreRuns s c o 0x30) (hk : openBlob (o.block.drop 16) = none) :
    exec (.ksImport c) s = .next (setOutcome s c o (0x0A, [])) := by
  refine congrArg _ (coreCompute_runs h ?_)
  rw [hk]

theorem exec_ksImport_occupied (h : CoreRuns s c o 0x30) {k : KeySlot} (hk : openBlob (o.block.drop 16) = some k)
    (hs : (s.pke.slots.get (cmdHead o.block).slot).isSome = true) : exec (.ksImport c) s = .next (setOutcome s c o (0x14, [])) := by
  refine congrArg _ (coreCompute_runs h ?_)
  rw [hk]
  exact if_pos hs

theorem exec_ksImport_empty (h : CoreRuns s c o 0x30) {k : KeySlot} (hk : openBlob (o.block.drop 16) = some k)
    (hs : ¬(s.pke.slots.get (cmdHead o.block).slot).isSome = true) : exec (.ksImport c) s =
      .next (setOutcome (pmcEvent 6 0x07 16 1 (fillSlot 0x3C02 (cmdHead o.block).slot k o.requester s)) c o
        (0, if beAt o.block 16 2 = 2 then blobD k else [])) := by
  refine congrArg _ (coreCompute_runs h ?_)
  rw [hk]
  exact if_neg hs

theorem exec_ksGenerate_empty (h : CoreRuns s c o 0x31) (hs : s.pke.slots.get (cmdHead o.block).slot = none) : exec (.ksGenerate c) s =
    .next (let k := drawKey ((cmdHead o.block).xarg % 256) ((cmdHead o.block).xarg / 256 % 256) 2 s
      setOutcome (pmcEvent 6 0x07 16 1 (fillSlot 0x3C03 (cmdHead o.block).slot k.1 o.requester k.2)) c o (0, k.1.pub ++ blobD k.1)) :=
  congrArg _ (coreCompute_runs h (if_neg (by rw [hs]; decide)))

theorem exec_ksGenerate_occupied (h : CoreRuns s c o 0x31) (hs : (s.pke.slots.get (cmdHead o.block).slot).isSome = true) :
    exec (.ksGenerate c) s = .next (setOutcome s c o (0x14, [])) :=
  congrArg _ (coreCompute_runs h (if_pos hs))

/-- The public half of a slot; the attestation chain follows for slot 511. -/
theorem exec_ksPublic_held (h : CoreRuns s c o 0x32) {k : KeySlot} (hk : o.key = some k) : exec (.ksPublic c) s =
    .next (setOutcome (pmcEvent 6 0x07 16 1 s) c o (0, k.pub ++ (if (cmdHead o.block).slot = 511 then Config.attestChain else []))) := by
  refine congrArg _ (coreCompute_runs h ?_)
  rw [hk]

theorem exec_ksPublic_empty (h : CoreRuns s c o 0x32) (hk : o.key = none) : exec (.ksPublic c) s = .next (setOutcome s c o (0x13, [])) := by
  refine congrArg _ (coreCompute_runs h ?_)
  rw [hk]

/-- The statement over the slot with its signature; a signature with a zero part is not returned. -/
theorem exec_ksAttest_held (h : CoreRuns s c o 0x33) {k : KeySlot} (hk : o.key = some k) : exec (.ksAttest c) s =
    .next (let body := attestBody s (cmdHead o.block).slot k (opnd o.block 0 32)
      let r := attestSign (sha384 body) s
      setOutcome (pmcEvent 6 0x07 16 1 r.2) c o (match r.1 with | some (a, b) => (0, body ++ natBE 48 a ++ natBE 48 b) | none => (6, []))) := by
  refine congrArg _ (coreCompute_runs h ?_)
  split
  · rename_i empty
    exact absurd (hk.symm.trans empty) (Option.some_ne_none k)
  · rename_i held
    obtain rfl := Option.some.inj (hk.symm.trans held)
    rfl

theorem exec_ksErase_occupied (h : CoreRuns s c o 0x34) (hs : (s.pke.slots.get (cmdHead o.block).slot).isSome = true) : exec (.ksErase c) s =
    .next (setOutcome (pmcEvent 6 0x07 16 1 (eraseSlot (cmdHead o.block).slot o.requester s)) c o (0, [])) :=
  congrArg _ (coreCompute_runs h (if_pos hs))

theorem exec_ksErase_empty (h : CoreRuns s c o 0x34) (hs : s.pke.slots.get (cmdHead o.block).slot = none) :
    exec (.ksErase c) s = .next (setOutcome s c o (0x13, [])) :=
  congrArg _ (coreCompute_runs h (if_neg (by rw [hs]; decide)))

end store

/-- Settles O45: an import by whether its blob opens and its slot is empty, the others by what their slot holds. -/
theorem keyStoreOperationsTakeEffect : Obligations.KeyStoreOperationsTakeEffect := by
  refine ⟨fun s c o hc hb hr => ?_, fun s c o k hc hb hr hs hk => ?_, fun s c o hc hb hr hs => exec_ksGenerate_occupied ⟨hc, hb, hr⟩ hs,
    fun s c o k hc hb hr hk => exec_ksPublic_held ⟨hc, hb, hr⟩ hk, fun s c o hc hb hr hk => exec_ksPublic_empty ⟨hc, hb, hr⟩ hk,
    fun s c o k body r hc hb hr hk hbody hsig => ?_, fun s c o hc hb hr hs => exec_ksErase_occupied ⟨hc, hb, hr⟩ hs,
    fun s c o hc hb hr hs => exec_ksErase_empty ⟨hc, hb, hr⟩ hs⟩
  · cases hk : openBlob (o.block.drop 16) with
    | none => exact exec_ksImport_unopened ⟨hc, hb, hr⟩ hk
    | some k =>
      by_cases hs : (s.pke.slots.get (cmdHead o.block).slot).isSome = true
      · exact (exec_ksImport_occupied ⟨hc, hb, hr⟩ hk hs).trans (congrArg _ (if_pos hs).symm)
      · exact (exec_ksImport_empty ⟨hc, hb, hr⟩ hk hs).trans (congrArg _ (if_neg hs).symm)
  · subst hk
    exact exec_ksGenerate_empty ⟨hc, hb, hr⟩ hs
  · subst hbody hsig
    exact exec_ksAttest_held ⟨hc, hb, hr⟩ hk

/-! ## Dispatch (R172) -/

/-- Core `c` is usable and holds no operation, and KCLK runs. -/
structure CoreFree (s : State) (c : Fin 16) : Prop where
  usable : (usableCores s).contains c = true
  empty : s.core c = none
  clock : kclkRuns s = true

/-- The first HOSTRES enabled cores are reserved for the host. -/
def coreReserved (s : State) (c : Fin 16) : Bool := ((enabledCores s).take (s.get F.PKE_CFG_HOSTRES)).contains c

/-- The number of cores that run operations of the host. -/
def hostRunning (s : State) : Nat := (allCores.filter (fun c => (s.core c).any PkeOp.host)).length

section dispatch
variable {s : State} {c : Fin 16} {k : Nat} {x : HostCmd} {o : PkeOp} {rest : List PkeOp}

theorem CoreFree.admits (h : CoreFree s c) : ((usableCores s).contains c && (s.core c).isNone && kclkRuns s) = true := by
  rw [h.usable, h.empty, h.clock]
  rfl

/-- A core that is reserved, or that finds no request of the service processors and fewer than HOSTCORES host operations, takes from the host. -/
theorem exec_pkeDispatch_host (h : CoreFree s c) (hn : nextHost s = some (k, x))
    (ht : coreReserved s c = true ∨ (s.pke.spuQueue = [] ∧ hostRunning s < s.get F.PKE_CFG_HOSTCORES)) :
    exec (.pkeDispatch c) s = .next (hostTurn c s) := by
  refine congrArg _ ((if_pos h.admits).trans ?_)
  rcases ht with hr | ⟨hq, hlt⟩
  · exact if_pos (Bool.and_eq_true_iff.mpr ⟨hr, by rw [hn]; rfl⟩)
  · rw [hq]
    exact (congrArg _ (if_pos hlt)).trans (ite_self _)

/-- A core that is not reserved, or that no host command waits for, takes the oldest request of the service processors. -/
theorem exec_pkeDispatch_service (h : CoreFree s c) (ht : coreReserved s c = false ∨ nextHost s = none) (hq : s.pke.spuQueue = o :: rest)
    (hb : rngBars s o.block = false) : exec (.pkeDispatch c) s = .next (takeSpu c o rest s) := by
  have no_host : ¬(coreReserved s c && (nextHost s).isSome) = true := by
    rcases ht with hr | hn
    · simp [hr]
    · simp [hn]
  refine congrArg _ ((if_pos h.admits).trans ((if_neg no_host).trans ?_))
  rw [hq]
  exact if_neg (Bool.eq_false_iff.mp hb)

theorem hostTurn_taken (hn : nextHost s = some (k, x)) (hb : rngBars s x.block = false) : hostTurn c s = takeHost c k x s := by
  unfold hostTurn
  rw [hn]
  exact if_neg (Bool.eq_false_iff.mp hb)

/-- A command that the failed entropy source bars is rejected with RNG_FAIL (R169). -/
theorem hostTurn_barred (hn : nextHost s = some (k, x)) (hb : rngBars s x.block = true) : hostTurn c s = rejectHost k x.seq 0x17 s := by
  unfold hostTurn
  rw [hn]
  exact if_pos hb

theorem hostTurn_idle (hn : nextHost s = none) : hostTurn c s = s := by
  unfold hostTurn
  rw [hn]

theorem exec_pkeDispatch_idle (h : CoreFree s c) (hq : s.pke.spuQueue = []) (hn : nextHost s = none) : exec (.pkeDispatch c) s = .next s := by
  refine congrArg _ ((if_pos h.admits).trans ?_)
  rw [hq]
  simp only [hostTurn_idle hn, ite_self]

end dispatch

/-! ## Completion and abort (R173, R176, R181, R182) -/

/-- The outcome of an operation goes to the one that asked for it (R173, R181). -/
def giveOutcome (o : PkeOp) (r : Outcome2) (s : State) : State :=
  match o.owner with
  | .host k seq => endHost k seq r.1 r.2 s.now s
  | .session id => sessionStep id r.1 r.2 (countDone false r.1 s)
  | .seal seg => sealStep seg r.1 o r.2 (countDone false r.1 s)

/-- An operation whose duration has run leaves its core, which is scrubbed; a failure that the operation found is an event. -/
theorem exec_pkeOpComplete_due {s : State} {c : Fin 16} {o : PkeOp} {r : Outcome2} (hc : s.core c = some o) (ho : o.outcome = some r)
    (hk : kclkRuns s = true) (hd : o.start + 2 * o.duration ≤ s.now) :
    exec (.pkeOpComplete c) s = .next (giveOutcome o r (if r.1 ≠ 0 ∧ r.1 < 0x10 then pmcEvent 6 0x04 c 1 (scrub c s) else scrub c s)) := by
  have due : ¬(s.now < o.start + 2 * o.duration ∨ kclkRuns s = false) := by
    rw [hk]
    simp only [Bool.true_eq_false, or_false]
    omega
  show execPkeOpComplete c s = _
  unfold execPkeOpComplete
  simp only [hc, ho, if_neg due]
  rfl

/-- PKE_ABORT reaches the abort of the rings written. -/
theorem exec_pkeAbort_admitted {s : State} (v : BitVec 8) (h : Admits s) (hd : domainOn s 9 = true) :
    exec (.pkeAbort v) s = .next (abortWrite v (countAccess .mw0 s)) := by
  have rings : (BitVec.ofNat 32 v.toNat).extractLsb' 0 8 = v := by
    apply BitVec.eq_of_toNat_eq
    simp only [BitVec.extractLsb'_toNat, BitVec.toNat_ofNat, Nat.shiftRight_zero]
    omega
  have key := regCommand_hook (BitVec.ofNat 32 v.toNat) h (a := A.PKE_ABORT) (by decide +kernel) (liveOff_on s (by decide) hd) (p := .mw0) (i := 21)
    (by decide +kernel) rfl
  exact key.trans (congrArg (fun w => Host.Outcome.next (abortWrite w (countAccess .mw0 s))) rings)

/-- Settles O46: a dispatch by whose turn it is and whether the entropy source bars the command, a completion by its time, an abort by the write of RINGS. -/
theorem clusterCommandsTakeEffect : Obligations.ClusterCommandsTakeEffect := by
  refine ⟨fun s c hu he hk => ?_, fun s c o r hc ho hk hd => exec_pkeOpComplete_due hc ho hk hd, fun s v h hd => exec_pkeAbort_admitted v h hd⟩
  have free : CoreFree s c := ⟨hu, he, hk⟩
  refine ⟨fun k x ht hn hb => ?_, fun k x ht hn hb => ?_, fun o rest ht hq hb => exec_pkeDispatch_service free ht hq hb,
    fun hq hn => exec_pkeDispatch_idle free hq hn⟩
  · rw [exec_pkeDispatch_host free hn ht, hostTurn_taken hn hb]
    rfl
  · rw [exec_pkeDispatch_host free hn ht, hostTurn_barred hn hb]
    rfl

end Sys2Proof.Machine
end

/-! The commands that clear the counters of a unit (R108, R127, R170, R193, R213). -/
section
namespace Sys2Proof.Machine

/-- A write of 1 to a register whose action zeroes the `n` counters from `b` on: every one of them reads 0, and no other register changes but those that events
touch. -/
theorem regCommand_zeroes {s : State} {a i j b n : Nat} {k : LiveHook} (h : Admits s) (hc : Canonical s) (ha : liveRow a = true ∧ hookIndex .mw0 a = some i)
    (hl : liveOff s a = false) (hk : (liveHooks .mw0)[i]? = some k) (hj : (a - k.base) / k.stride = j) (hact : ∀ u, k.act j 1 u = u.clear64s b n) :
    ∃ t, regCommand .mw0 a 1 s = .next t ∧ (∀ m, m < n → t.get64 (b + 8 * m) = 0) ∧ ChangesOnly (fun r => decide (b ≤ r ∧ r < b + 8 * n)) s t := by
  obtain ⟨hrow, hi⟩ := ha
  refine ⟨(countAccess .mw0 s).clear64s b n, ?_, fun m hm => ?_, ?_⟩
  · rw [regCommand_hook 1 h hrow hl hi hk, hj, hact]
  · exact clear64s_get64 _ b n m hm (countAccess_sorted .mw0 (regsWf_sorted hc.1))
  · exact (countAccess_frame _ .mw0 s).trans (clear64s_frame _ b n fun r h0 h1 => .inl (decide_eq_true ⟨h0, h1⟩))

/-! The clear registers among the live registers with an action, each at its place in `liveHooks`. -/

theorem prtCntclr_hook : ∀ port : Fin 7, liveRow (A.PRT_CNTCLR port) = true ∧ hookIndex .mw0 (A.PRT_CNTCLR port) = some 14 := by decide +kernel

theorem svpCntclr_hook : ∀ pl : Fin 5, liveRow (A.SVP_PL_CNTCLR pl) = true ∧ hookIndex .mw0 (A.SVP_PL_CNTCLR pl) = some 17 := by decide +kernel

theorem skoCntclr_hook : ∀ port : Fin 4, liveRow (A.SKO_P_CNTCLR port) = true ∧ hookIndex .mw0 (A.SKO_P_CNTCLR port) = some 18 := by decide +kernel

theorem crlCntclr_hook : liveRow A.CRL_NTS_CNTCLR = true ∧ hookIndex .mw0 A.CRL_NTS_CNTCLR = some 19 := by decide +kernel

theorem pkeCntclr_hook : liveRow A.PKE_CNTCLR = true ∧ hookIndex .mw0 A.PKE_CNTCLR = some 22 := by decide +kernel

theorem prtCntclr_index (port : Nat) : (A.PRT_CNTCLR port - A.PRT_CNTCLR 0) / 0x10000 = port := by simp only [A.PRT_CNTCLR]; omega

theorem svpCntclr_index (pl : Nat) : (A.SVP_PL_CNTCLR pl - A.SVP_PL_CNTCLR 0) / 0x10 = pl := by simp only [A.SVP_PL_CNTCLR]; omega

theorem skoCntclr_index (port : Nat) : (A.SKO_P_CNTCLR port - A.SKO_P_CNTCLR 0) / 0x100 = port := by simp only [A.SKO_P_CNTCLR]; omega

/-! The clear registers of the pipelines and of stakeout stand in no domain that can be off (R363). -/

theorem svpCntclr_regDomain : ∀ pl : Fin 5, regDomain (A.SVP_PL_CNTCLR pl) = none := by decide +kernel

theorem skoCntclr_regDomain : ∀ port : Fin 4, regDomain (A.SKO_P_CNTCLR port) = none := by decide +kernel

/-- Settles O16: each command is a write of 1 to its clear register, whose action zeroes its counters. -/
theorem counterClearCommandsZeroTheirCounters : Obligations.CounterClearCommandsZeroTheirCounters := by
  intro s ha hc
  refine ⟨fun port hl => ?prt, fun pl => ?svp, fun port => ?sko, ?crl, fun hd => ?pke⟩
  case prt => exact regCommand_zeroes ha hc (prtCntclr_hook port) hl rfl (prtCntclr_index port) fun _ => rfl
  case svp => exact regCommand_zeroes ha hc (svpCntclr_hook pl) (liveOff_none s (svpCntclr_regDomain pl)) rfl (svpCntclr_index pl) fun _ => rfl
  case sko =>
    exact regCommand_zeroes ha hc (skoCntclr_hook port) (liveOff_none s (skoCntclr_regDomain port)) rfl (skoCntclr_index port) fun _ => dif_pos port.isLt
  case crl => exact regCommand_zeroes ha hc crlCntclr_hook (liveOff_none s (by decide)) rfl rfl fun _ => rfl
  case pke => exact regCommand_zeroes ha hc pkeCntclr_hook (liveOff_on s (d := 9) (by decide) hd) rfl rfl fun _ => rfl

end Sys2Proof.Machine
end

/-! Supplies, reset, release and wake-up (R211, R360-R374). -/
section
namespace Sys2Proof.Machine

/-! ## VIN lost (R360, R368, R371) -/

/-- MONUMENT can take over from VIN: VAO is good and MONEN is 1. -/
def monumentReady (s : State) : Bool := s.on F.SYS_PWR_STAT_VAOGOOD && s.on F.SYS_MODE_CFG_MONEN

/-- What a device becomes whose VIN has gone. -/
def vinGone (s : State) : State :=
  match s.sys.phase with
  | .off => s
  | .reset => if monumentReady s then shed true mMonument { s with sys := { s.sys with phase := .running } } else powerOff s
  | .running =>
    if s.mode = mDormant then (if s.on F.SYS_PWR_STAT_VAOGOOD then s else powerOff s)
    else if s.mode = mMonument then (if s.on F.SYS_PWR_STAT_VAOGOOD then s else powerOff s)
    else if monumentReady s then enterMonument s
    else powerOff s

theorem exec_vinLost_good {s : State} (h : s.on F.SYS_PWR_STAT_VINGOOD = true) :
    exec .vinLost s = .next (vinGone (s.set F.SYS_PWR_STAT_VINGOOD 0)) := congrArg _ (if_pos h)

section gone
variable {s : State}

theorem monumentReady_true (h : s.on F.SYS_PWR_STAT_VAOGOOD = true ∧ s.on F.SYS_MODE_CFG_MONEN = true) : monumentReady s = true :=
  Bool.and_eq_true_iff.mpr h

theorem monumentReady_false (h : s.on F.SYS_PWR_STAT_VAOGOOD = false ∨ s.on F.SYS_MODE_CFG_MONEN = false) : ¬monumentReady s = true :=
  Bool.eq_false_iff.mp (Bool.and_eq_false_iff.mpr h)

theorem vinGone_off (h : s.sys.phase = .off) : vinGone s = s := by
  unfold vinGone
  rw [h]

theorem vinGone_reset (h : s.sys.phase = .reset) :
    vinGone s = if monumentReady s then shed true mMonument { s with sys := { s.sys with phase := .running } } else powerOff s := by
  unfold vinGone
  rw [h]

/-- DORMANT and MONUMENT live on VAO (R368). -/
theorem vinGone_alwaysOn (h : s.sys.phase = .running) (hm : s.mode = mDormant ∨ s.mode = mMonument) :
    vinGone s = if s.on F.SYS_PWR_STAT_VAOGOOD then s else powerOff s := by
  unfold vinGone
  rw [h]
  rcases hm with hd | hm
  · exact if_pos hd
  · exact (congrArg _ (if_pos hm)).trans (ite_self _)

theorem vinGone_powered (h : s.sys.phase = .running) (hd : s.mode ≠ mDormant) (hm : s.mode ≠ mMonument) :
    vinGone s = if monumentReady s then enterMonument s else powerOff s := by
  unfold vinGone
  rw [h]
  exact (if_neg hd).trans (if_neg hm)

end gone

/-! ## VIN good (R360, R366, R368) -/

/-- What becomes of a device whose VIN is good again: with PORST_N low it stands in RESET, and else it waits for its release. -/
def vinRestored (low : Bool) (s : State) : State :=
  if s.sys.phase = .off then (if low then { s with sys := { s.sys with phase := .reset } } else s)
  else if low then { stripped true s with sys := { (stripped true s).sys with phase := .reset, nextCause := s.sys.nextCause } }
  else s

theorem exec_vinGood_lost {s : State} (low : Bool) (h : s.on F.SYS_PWR_STAT_VINGOOD = false) :
    exec (.vinGood low) s = .next (vinRestored low (let u := s.set F.SYS_PWR_STAT_VINGOOD 1
      { u with sys := { u.sys with porstLow := low, nextCause := match u.sys.phase with
        | .running => if u.mode = mMonument then 3 else 2
        | .off | .reset => 1 } })) :=
  congrArg _ (if_neg (Bool.eq_false_iff.mp h))

theorem vinRestored_high (s : State) : vinRestored false s = s := ite_self s

/-! ## Release (R366, R367) -/

/-- The cause that a release shows: that of the reset, or else the end of MONUMENT or a wake. -/
def releaseCause (s : State) : Nat :=
  match s.sys.phase with
  | .off | .reset => s.sys.nextCause
  | .running => if s.mode = mMonument then 3 else 6

theorem releaseCause_eq (s : State) : releaseCause s = if s.sys.phase = .running then (if s.mode = mMonument then 3 else 6) else s.sys.nextCause := by
  unfold releaseCause
  cases s.sys.phase <;> rfl

theorem exec_release_ready {s : State} (b : Fin 4) (un ms : Bool) (hv : s.on F.SYS_PWR_STAT_VINGOOD = true) (hp : powered s = false)
    (hw : s.sys.phase = .running ∧ s.mode = mDormant → s.sys.wakeLatched = true) : exec (.release b un ms) s =
      .next (release true (modeCode s) (if releaseCause s = 6 then 7 else 5) (releaseCause s) b un ms s) :=
  congrArg _ (if_pos ⟨hv, hp, hw⟩)

/-! ## Wake-up (R211, R374) -/

/-- A device in DORMANT whose wake detector has taken no source yet. -/
structure AwaitsWake (s : State) : Prop where
  running : s.sys.phase = .running
  dormant : s.mode = mDormant
  untaken : s.sys.wakeLatched = false

section wake
variable {s : State}

theorem exec_wakeEvent_pin (h : AwaitsWake s) (hp : s.on F.PRT_WAKE_CFG_PINEN = true) : exec (.wakeEvent .pin) s = .next (wakeTake 1 0 0 s) :=
  congrArg _ ((if_pos ⟨h.running, h.dormant, h.untaken⟩).trans (if_pos hp))

/-- A frame on a port of the set that passes rows 2 to 5 of R198 and that the wake detector knows. -/
theorem exec_wakeEvent_frame (h : AwaitsWake s) {port : Fin 7} {b : Bytes} (hp : 4 ≤ port.val) (hf : fcsGood b = true) (h64 : 64 ≤ b.length)
    (hmax : b.length ≤ maxFrame s port) {src n : Nat} (hw : wakeFrame s (port.val - 4) b = some (src, n)) :
    exec (.wakeEvent (.frame port b false)) s = .next (wakeTake src (port.val - 4) n s) := by
  have good : ¬(port.val < 4 ∨ false = true ∨ fcsGood b = false ∨ b.length < 64 ∨ maxFrame s port < b.length) := by
    simp only [hf, Bool.false_eq_true, Bool.true_eq_false, false_or]
    omega
  refine congrArg _ ((if_pos ⟨h.running, h.dormant, h.untaken⟩).trans ((if_neg good).trans ?_))
  rw [hw]

theorem wakeFrame_magic {p : Nat} {b : Bytes}
    (h : s.on F.PRT_WAKE_CFG_MAGICEN = true ∧ (s.get F.PRT_WAKE_CFG_MAGICPORTS).testBit p = true ∧ magicMatch s b = true) :
    wakeFrame s p b = some (2, 0) := by
  obtain ⟨hen, hports, hmatch⟩ := h
  exact if_pos (by rw [hen, hports, hmatch]; rfl)

theorem wakeFrame_pattern {p n : Nat} {b : Bytes}
    (h : ¬(s.on F.PRT_WAKE_CFG_MAGICEN = true ∧ (s.get F.PRT_WAKE_CFG_MAGICPORTS).testBit p = true ∧ magicMatch s b = true))
    (hn : (List.range 8).find? (fun n => (s.get F.PRT_WAKE_CFG_PATEN).testBit n && (s.get (F.PRT_WAKEP_CTL_PORTS n)).testBit p && patternMatch s n b)
      = some n) : wakeFrame s p b = some (3, n) := by
  unfold wakeFrame
  rw [if_neg (by rwa [Bool.and_eq_true_iff, Bool.and_eq_true_iff, and_assoc]), hn]
  rfl

end wake

/-- Settles O51: each supply by the phase and the mode that it finds, reset and release by their conditions, a wake by what the detector takes. -/
theorem powerCommandsTakeEffect : Obligations.PowerCommandsTakeEffect := by
  refine ⟨fun s u h hu => ?vinLost, fun s u v low h hu hv => ?vinGood, fun s u h hu => ?vaoGood, fun s u h hu => ?vaoLost,
    fun s hp hm => congrArg _ (if_pos ⟨hp, hm⟩), fun s hv hp => congrArg _ (if_pos ⟨hv, hp⟩), fun s b un ms c hv hp hw hc => ?release,
    fun s hp hm hw => ?wake⟩
  case vinLost =>
    have gone : exec .vinLost s = .next (vinGone u) := hu ▸ exec_vinLost_good h
    rw [gone]
    exact ⟨fun hp => congrArg _ (vinGone_off hp), fun hp hm => congrArg _ ((vinGone_reset hp).trans (if_pos (monumentReady_true hm))),
      fun hp hm => congrArg _ ((vinGone_reset hp).trans (if_neg (monumentReady_false hm))),
      fun hp hm ha => congrArg _ ((vinGone_alwaysOn hp hm).trans (if_pos ha)),
      fun hp hm ha => congrArg _ ((vinGone_alwaysOn hp hm).trans (if_neg (Bool.eq_false_iff.mp ha))),
      fun hp hd hm hr => congrArg _ ((vinGone_powered hp hd hm).trans (if_pos (monumentReady_true hr))),
      fun hp hd hm hr => congrArg _ ((vinGone_powered hp hd hm).trans (if_neg (monumentReady_false hr)))⟩
  case vinGood =>
    have restored : exec (.vinGood low) s = .next (vinRestored low v) := by
      subst hu hv
      exact exec_vinGood_lost low h
    rw [restored]
    refine ⟨?_, ?_, ?_⟩
    · rintro rfl
      exact congrArg _ (vinRestored_high v)
    · rintro rfl hp
      exact congrArg _ (if_pos hp)
    · rintro rfl hp
      exact congrArg _ (if_neg hp)
  case vaoGood =>
    subst hu
    exact ⟨fun hc => congrArg _ ((if_neg (Bool.eq_false_iff.mp h)).trans (if_pos hc)),
      fun hc => congrArg _ ((if_neg (Bool.eq_false_iff.mp h)).trans (if_neg hc))⟩
  case vaoLost =>
    subst hu
    exact congrArg _ (if_pos h)
  case release =>
    obtain rfl : releaseCause s = c := (releaseCause_eq s).trans hc.symm
    exact exec_release_ready b un ms hv hp hw
  case wake =>
    have waits : AwaitsWake s := ⟨hp, hm, hw⟩
    exact ⟨fun hpin => exec_wakeEvent_pin waits hpin, fun port b h4 hf h64 hmax =>
      ⟨fun hmagic => exec_wakeEvent_frame waits h4 hf h64 hmax (wakeFrame_magic hmagic),
        fun n hmagic hn => exec_wakeEvent_frame waits h4 hf h64 hmax (wakeFrame_pattern hmagic hn)⟩⟩

end Sys2Proof.Machine
end

/-! The commands of Transit: edges and their MINW check, records and the event queue, converters, settings, and OSCIN (R214-R236). -/
section
namespace Sys2Proof.Machine

/-! ## Edges (R218) -/

section edges
variable {s : State} {n : Fin 24} {f : Bool}

theorem exec_transitEdge_unselected (k : Fin 16384) (w : Bool) (h : (dclkRuns s && chEnabled s n && edgesArrive s n && edgeSelected s n f) = false) :
    exec (.transitEdge n f k w) s = .next s := congrArg _ (if_neg (Bool.eq_false_iff.mp h))

/-- A selected edge that the prescaler holds back. -/
theorem exec_transitEdge_divided (k : Fin 16384) (h : (dclkRuns s && chEnabled s n && edgesArrive s n && edgeSelected s n f) = true)
    (hd : (s.chan n).div + 1 < 2 ^ chPresc s n) :
    exec (.transitEdge n f k false) s = .next (s.setChan n { s.chan n with div := (s.chan n).div + 1 }) :=
  congrArg _ ((if_pos h).trans (if_pos hd))

/-- A channel that has counted an edge which its prescaler passed. -/
def TrnChan.counted (c : TrnChan) : TrnChan :=
  { c with div := 0, edges := c.edges + 1, total := c.total + 1, tickEdges := c.tickEdges + 1 }

/-- A selected edge that the prescaler passes counts and meets the trigger, and within the limits of R221 shows no RANGE. -/
theorem exec_transitEdge_passed (k : Fin 16384) (h : (dclkRuns s && chEnabled s n && edgesArrive s n && edgeSelected s n f) = true)
    (hd : 2 ^ chPresc s n ≤ (s.chan n).div + 1) (hw : (s.chan n).narrow = false) (ht : (s.chan n).tickEdges < 300000) :
    exec (.transitEdge n f k false) s = .next (trigger n f k (s.chan n).counted s) := by
  have inRange : (false || decide (300000 < (s.chan n).tickEdges + 1)) = false := by rw [Bool.false_or, decide_eq_false (by omega)]
  have channel : { (s.chan n).counted with narrow := (s.chan n).narrow || false } = (s.chan n).counted := by
    simp only [TrnChan.counted, hw, Bool.or_false]
  show Host.Outcome.next (transitEdge n f k false s) = _
  unfold transitEdge
  rw [if_pos h, if_neg (Nat.not_lt.mpr hd)]
  dsimp only
  rw [inRange]
  exact congrArg (fun c => Host.Outcome.next (trigger n f k c s)) channel

variable (f : Bool) (k : Nat) {c : TrnChan}

/-- Below DECIM, and within the holdoff, no converter fires. -/
theorem trigger_unmet (h : c.edges < chDecim s n ∨ holdoffOver s c = false) : trigger n f k c s = s.setChan n c := if_pos h

/-- The converted edge of a channel: its stamps by the code and the table of the converter (R216). -/
def convertedEdge (s : State) (n : Fin 24) (f : Bool) (k : Nat) (c : TrnChan) (j : Fin 3) : TrnEdge :=
  let x := tauDelay s n c.convs[j].hist k
  ⟨s.trn.coarse, timebaseStamp s.trn.coarse x, datumStamp s.datum s.dtm.y x, c.edges, c.total, f⟩

/-- Where the trigger's conditions hold, the converter in turn fires, and the edge waits for its MINW check. -/
theorem trigger_fires {j : Fin 3} (hd : chDecim s n ≤ c.edges) (hh : holdoffOver s c = true) (hf : c.free s.trn.coarse = true) (hp : c.pick = some j) :
    trigger n f k c s = pmcEvent 10 0x02 n 1 (s.setChan n { c with
      edges := 0, lastConv := some s.trn.coarse, nextConv := (j.val + 1) % 3, waiting := c.waiting ++ [convertedEdge s n f k c j] }) := by
  unfold trigger
  rw [if_neg (by rw [hh]; simpa using hd), if_pos hf, hp]
  rfl

end edges

/-! ## The MINW check (R219) -/

section check
variable {s : State} {n : Fin 24} {e : TrnEdge} {rest : List TrnEdge}

theorem exec_transitStampAccept_empty (b : Bool) (h : (s.chan n).waiting = []) : exec (.transitStampAccept n b) s = .next s := by
  show execTransitStampAccept n b s = _
  unfold execTransitStampAccept
  dsimp only
  rw [h]

/-- The oldest waiting edge is judged as the level was: accepted, a glitch, or not yet. -/
theorem exec_transitStampAccept_oldest (b : Bool) (h : (s.chan n).waiting = e :: rest) (hr : dclkRuns s = true) :
    let u := s.setChan n { s.chan n with waiting := rest }
    exec (.transitStampAccept n b) s =
      .next (if b = heldLong s n e then (if b then ownerEdge n e (acceptEdge n e u) else glitch n u) else s) := by
  intro u
  show execTransitStampAccept n b s = _
  unfold execTransitStampAccept
  dsimp only
  rw [h]
  dsimp only
  rw [hr]
  by_cases hb : b = heldLong s n e
  · rw [if_pos hb, if_neg (by simp [hb])]
  · rw [if_neg hb, if_pos (.inr hb)]

/-- An edge of a channel that carries no input and is neither Benchmark's nor the link's reaches no other unit. -/
theorem ownerEdge_none (hi : 12 ≤ inputOf n) (h16 : n.val ≠ 16) (h17 : n.val ≠ 17) (u : State) : ownerEdge n e u = u := by
  unfold ownerEdge
  dsimp only
  rw [dif_neg (Nat.not_lt.mpr hi), if_neg h16, if_neg h17]

end check

/-! ## Records (R220, R230, R236) -/

/-- The next channel with a record sends it. -/
theorem exec_transitRecordOut_next {s : State} {n : Fin 24} {r : TrnRecord} (hh : halted s = false)
    (h : (pathOrder s).findSome? (fun n => ((s.chan n).queue.head?).map (fun r => (n, r))) = some (n, r)) :
    exec .transitRecordOut s = .next (recordOut n r s) := by
  show execTransitRecordOut s = _
  unfold execTransitRecordOut
  rw [if_neg (Bool.eq_false_iff.mp hh), h]

/-- A start that has reached 2^40 DCLK of age leaves a record with OVF (R230). -/
theorem exec_transitStartOverflow_old {s : State} {n : Fin 24} {st : TrnEdge} {rest : List TrnEdge} (h : (s.chan n).starts = st :: rest)
    (hw : wrapStamp ≤ (s.trn.coarse : Int) * 65536 - st.stamp) :
    exec (.transitStartOverflow n) s = .next (produce n 2 st.edges 0 st.datum st.falling true
      ((s.setChan n { s.chan n with starts := rest }).addSat (F.TRN_CH_OVF_CNT_COUNT n) 1)) := by
  show execTransitStartOverflow n s = _
  unfold execTransitStartOverflow
  dsimp only
  rw [h]
  exact congrArg _ (if_neg (Int.not_lt.mpr hw))

/-- EVQ_POP reaches the action of TRN_EVQ_POP. -/
theorem exec_evqPop_admitted {s : State} (h : Admits s) : exec .evqPop s = .next (evqPop (countAccess .mw0 s)) :=
  regCommand_hook 1 h (by decide +kernel) (liveOff_none s (by decide)) (i := 10) (by decide +kernel) rfl

/-! ## The event queue's registers (R236) -/

theorem evqShow_sorted (b : Bytes) (k : Nat) {s : State} (h : s.regs.sorted = true) : (evqShow b k s).regs.sorted = true := by
  induction k with
  | zero => exact h
  | succ k ih => exact State.wr_sorted _ _ _ ih

/-- A register that is none of the words loaded keeps its word. -/
theorem evqShow_rd_other (b : Bytes) {k a : Nat} (s : State) (h : ∀ j, j < k → a ≠ A.TRN_EVQ_W j) : (evqShow b k s).rd a = s.rd a := by
  induction k with
  | zero => rfl
  | succ k ih => exact (State.rd_wr_other _ _ _ _ (h k (Nat.lt_succ_self k))).trans (ih fun j hj => h j (Nat.lt_succ_of_lt hj))

/-- Each word loaded holds its four bytes of the record, low byte first. -/
theorem evqShow_rd_word (b : Bytes) {k j : Nat} {s : State} (hs : s.regs.sorted = true) (h : j < k) :
    (evqShow b k s).rd (A.TRN_EVQ_W j) = BitVec.ofNat 32 (leAt b (4 * j) 4) := by
  induction k with
  | zero => exact absurd h (Nat.not_lt_zero j)
  | succ k ih =>
    by_cases e : j = k
    · subst e
      exact State.rd_wr_same _ _ _ (evqShow_sorted b j hs)
    · have apart : A.TRN_EVQ_W j ≠ A.TRN_EVQ_W k := by simp only [A.TRN_EVQ_W]; omega
      exact (State.rd_wr_other _ _ _ _ apart).trans (ih (by omega))

theorem evqShow_trn (b : Bytes) (k : Nat) (s : State) : (evqShow b k s).trn = s.trn := by
  induction k with
  | zero => rfl
  | succ k ih => exact ih

theorem evqPop_evq (s : State) : (evqPop s).trn.evq = s.trn.evq.tail := by
  unfold evqPop
  rw [State.set_trn, evqShow_trn]

/-- A register other than EVQ_STAT reads as the load of the record leaves it. -/
theorem evqPop_rd {s : State} {a : Nat} (h : a ≠ A.TRN_EVQ_STAT) : (evqPop s).rd a = (evqShow ((s.trn.evq.head?).getD (zeros 32)) 8 s).rd a :=
  State.rd_set_other _ _ _ _ h

theorem evqPop_level {s : State} (hs : s.regs.sorted = true) (h : s.trn.evq.length ≤ 256) : (evqPop s).get F.TRN_EVQ_STAT_LEVEL = s.trn.evq.length - 1 := by
  refine (State.get_set_same _ F.TRN_EVQ_STAT_LEVEL _ (evqShow_sorted _ 8 hs) (by decide)).trans ?_
  rw [evqShow_trn, List.length_tail]
  exact Nat.mod_eq_of_lt (show s.trn.evq.length - 1 < 2 ^ 9 by omega)

/-- Settles O32: the words as the load of the record leaves them, LEVEL after it, and the counted access before both. -/
theorem eventQueuePopLoadsTheOldestRecord : Obligations.EventQueuePopLoadsTheOldestRecord := by
  intro s ha hc hl
  have trn : (countAccess .mw0 s).trn = s.trn := (countAccess_frame (fun _ => false) .mw0 s).trn
  have sorted := countAccess_sorted .mw0 (regsWf_sorted hc.1)
  refine ⟨_, exec_evqPop_admitted ha, ?_, ?_, fun k hk => ?_, fun a hw ht he => ?_⟩
  · rw [evqPop_evq, trn]
  · rw [evqPop_level sorted (by rwa [trn]), trn]
  · have apart : A.TRN_EVQ_W k ≠ A.TRN_EVQ_STAT := by simp only [A.TRN_EVQ_W, A.TRN_EVQ_STAT]; omega
    rw [evqPop_rd apart, evqShow_rd_word _ sorted hk, trn]
  · rw [evqPop_rd ht, evqShow_rd_other _ _ hw, countAccess_rd _ s he]

/-! ## Converters (R222, R223) -/

/-- A histogram that passes makes its converter ready; once CALOK is set it may enter service. -/
theorem exec_converterCalibrationDone_passes {s : State} {n : Fin 24} {k : Fin 3} {hist : List Nat} (hv : ((s.chan n).convs[k]).serving = false)
    (hi : ((s.chan n).convs[k]).isolated = false) (hr : dclkRuns s = true) (hk : s.on F.TRN_STAT_CALOK = true) (hf : calFails hist = false) :
    let u := s.setConv n k { (s.chan n).convs[k] with ready := true, ended := true, hist := hist, built := s.sys.ticks, builtTemp := s.bm.dieTemp }
    exec (.converterCalibrationDone n k hist) s = .next (if (u.chan n).serving.length < 2 then fillService n u else u) := by
  intro u
  have calok : u.on F.TRN_STAT_CALOK = true := hk
  show execConverterCalibrationDone n k hist s = _
  unfold execConverterCalibrationDone
  dsimp only
  rw [if_neg (by rw [hv, hi, hr]; decide), if_neg (Bool.eq_false_iff.mp hf), if_pos calok]

/-- A due rotation puts the ready converter in the place of the one that has served longest. -/
theorem exec_converterRotate_due {s : State} {n : Fin 24} {k l : Fin 3} (hp : ((s.chan n).convs[k]).spare = true) (hl : longest (s.chan n) = some l)
    (hk : s.on F.TRN_STAT_CALOK = true) (hr : dclkRuns s = true) (hd : rotateDue s (s.chan n) = true) : exec (.converterRotate n k) s =
      .next (showDegraded n (((s.setChan n { s.chan n with rotated := s.sys.ticks }).setConv n l
        { (s.chan n).convs[l] with serving := false, ready := false }).setConv n k { (s.chan n).convs[k] with serving := true, since := s.now })) := by
  show execConverterRotate n k s = _
  unfold execConverterRotate
  dsimp only
  rw [hl]
  exact congrArg _ (if_pos (by rw [hk, hr, hp, hd]; rfl))

/-! ## Settings (R233) -/

/-- The registers that set a channel are one-word registers of the image, in the block of Transit. -/
theorem imageRow_chSettings : ∀ (n : Fin 24) (k : Fin 6), imageRow (A.TRN_CH_CFG n + 4 * k) = true ∧ (A.TRN_CH_CFG n + 4 * k) / 0x10000 = 0x06 := by
  decide +kernel

theorem idxAt_some {base stride count a : Nat} (h : (idxAt base stride count a).isSome = true) : ∃ k : Fin count, a = base + stride * k := by
  unfold idxAt at h
  split at h
  · next hi => exact ⟨⟨_, hi.2.2⟩, by have := Nat.div_add_mod (a - base) stride; simp only; omega⟩
  · cases h

theorem imageHook_trn {pre : State} {a : Nat} (s : State) (h : a / 0x10000 = 0x06) :
    imageHook pre a s = statStart a (transitSettle pre (keepHistory pre.regs s)) := by
  unfold imageHook
  simp only [h]

/-- A permitted write of a setting loads it, and settles every channel whose settings it changed. -/
theorem exec_transitSettingChange_permitted {s : State} {n : Fin 24} {a : BitVec 24} {v : Word} {p : Path} (h : Admits s)
    (ha : (idxAt (A.TRN_CH_CFG n) 4 6 a.toNat).isSome = true) (ho : ownedWhole (countAccess p s) a.toNat = false)
    (hd : denyReason (countAccess p s) a.toNat v = none) :
    let u := countAccess p s
    exec (.transitSettingChange n a v p) s = .next (statStart a.toNat (transitSettle u (keepHistory u.regs (loadLive p u (a.toNat, v))))) := by
  intro u
  obtain ⟨k, hk⟩ := idxAt_some ha
  obtain ⟨row, block⟩ := imageRow_chSettings n k
  rw [← hk] at row block
  have written : exec (.transitSettingChange n a v p) s = regCommand p a.toNat v s := if_pos ha
  rw [written, regCommand_image p a.toNat v h row ho hd, imageHook_trn _ block]

/-- Settles O31: an edge by the prescaler and the trigger, a waiting edge by its MINW check, a record, a start, a converter and a tick of BOOT by the condition
on which each acts, and the two register writes by their actions. -/
theorem transitCommandsTakeEffect : Obligations.TransitCommandsTakeEffect := by
  refine ⟨fun s n f k w h => exec_transitEdge_unselected k w h, fun s n f k h => ⟨fun hd => exec_transitEdge_divided k h hd, fun hd hw ht => ?passed⟩,
    fun s n e rest h hr => ?check, fun s n b h => exec_transitStampAccept_empty b h, fun s n r hh h => exec_transitRecordOut_next hh h,
    fun s n st rest h hw => exec_transitStartOverflow_old h hw, fun s n k hist hv hi hr hk hf => exec_converterCalibrationDone_passes hv hi hr hk hf,
    fun s n k l hp hl hk hr hd => exec_converterRotate_due hp hl hk hr hd, fun s h => exec_evqPop_admitted h,
    fun s n a v p h ha ho hd => exec_transitSettingChange_permitted h ha ho hd, fun s c hm hs => congrArg _ (if_pos ⟨hm, hs⟩)⟩
  case passed =>
    rw [exec_transitEdge_passed k h hd hw ht]
    exact ⟨fun hu => congrArg _ (trigger_unmet f k hu), fun j hc hh hf hp => congrArg _ (trigger_fires f k hc hh hf hp)⟩
  case check =>
    rw [exec_transitStampAccept_oldest true h hr, exec_transitStampAccept_oldest false h hr]
    refine ⟨fun hl => ?accepted, fun hl hi h16 h17 => ?unowned, fun hl => ?left, fun hl => ?early⟩
    all_goals rw [hl]
    case accepted => rfl
    case unowned => exact congrArg _ (ownerEdge_none hi h16 h17 _)
    case left => rfl
    case early => rfl

end Sys2Proof.Machine
end

/-! The commands of Traverse and Benchmark: time-of-day messages, missing pulses, the states of inputs and loops, closure, and the two models (R240-R266). -/
section
namespace Sys2Proof.Machine

/-! ## Time-of-day messages (R240) -/

section messages
variable {s : State} {port : Fin 4} {b : Bytes}

/-- A port that labels an input takes the message in its format. -/
theorem exec_todMessage_labelled (h : (labels s port).isSome = true) (hr : dclkRuns s = true) : exec (.todMessage port b) s =
    .next (ch0Utc (if s.on (F.TRV_TOD_CFG_FORMAT port) then todG8271 port b s else todNmea port b s)) := by
  have taken : ¬((labels s port).isNone ∨ dclkRuns s = false) := by
    rw [Option.isNone_eq_false_iff.mpr h, hr]
    decide
  exact congrArg _ (if_neg taken)

theorem exec_todMessage_g8271 (h : (labels s port).isSome = true) (hr : dclkRuns s = true) (hg : s.on (F.TRV_TOD_CFG_FORMAT port) = true) :
    exec (.todMessage port b) s = .next (ch0Utc (todG8271 port b s)) := by
  rw [exec_todMessage_labelled h hr, if_pos hg]

theorem exec_todMessage_nmea (h : (labels s port).isSome = true) (hr : dclkRuns s = true) (hg : s.on (F.TRV_TOD_CFG_FORMAT port) = false) :
    exec (.todMessage port b) s = .next (ch0Utc (todNmea port b s)) := by
  rw [exec_todMessage_labelled h hr, if_neg (Bool.eq_false_iff.mp hg)]

variable (s port)

theorem todG8271_broken (h : todFrame b = none) : todG8271 port b s = todDiscard port s := by
  unfold todG8271
  rw [h]

variable {c k : Nat} {d : Bytes}

/-- Of the messages of G.8271, only the time event and the time announce are decoded (assumption log 103). -/
theorem todG8271_other (h : todFrame b = some (c, k, d)) (hn : ¬(c = 1 ∧ (k = 1 ∨ k = 2))) : todG8271 port b s = s := by
  unfold todG8271
  rw [h]
  exact (if_neg fun e => hn ⟨e.1, .inl e.2⟩).trans (if_neg fun a => hn ⟨a.1, .inr a.2⟩)

theorem todG8271_event (h : todFrame b = some (1, 1, d)) (hd : d.length = 14) : todG8271 port b s = todEvent port d s := by
  unfold todG8271
  rw [h]
  exact if_pos hd

theorem todG8271_announce (h : todFrame b = some (1, 2, d)) (hd : 4 ≤ d.length) : todG8271 port b s = todAnnounce port d s := by
  unfold todG8271
  rw [h]
  exact if_pos hd

end messages

/-! ## Inputs (R242, R244, R456) -/

section inputs
variable {s : State} {i : Fin 12}

/-- A pulse that stays away past its window is a bad one, and moves the instant at which the next is due (assumption log 73). -/
theorem exec_pulseMissing_due {n : Fin 8} {t0 : Int} {k : Nat} {rest : List (Int × Nat)} (hn : i.val = n.val) (hg : (s.input i).goods = (t0, k) :: rest)
    (ha : (chOwner s n = 1 && isPps s i && (s.input i).anchored && dclkRuns s) = true)
    (hd : (((Frac.int ((s.input i).rebase.getD t0)).add ((s.input i).period.mul (.int ((s.input i).missed + 1)))).add (ppsWin s i)).lt
      (.int (nowStamp s)) = true) :
    exec (.pulseMissing n) s = .next (pulseBad i (s.setInput i { s.input i with missed := (s.input i).missed + 1 })) := by
  obtain ⟨v, bound⟩ := i
  obtain rfl : v = n.val := hn
  show execPulseMissing n s = _
  unfold execPulseMissing
  dsimp only
  rw [hg]
  dsimp only
  rw [ha, hd]
  rfl

/-- An input that enters another state restarts its timer, and remembers having been AVAILABLE. -/
theorem refGoto_other {n : Nat} (h : refState s i ≠ n) : refGoto i n s = pmcEvent 9 0x05 i 1 (irqSet 3 A.TRV_REF_IRQ_STAT i
    ((s.setInput i { s.input i with timer := 0, everAvailable := (s.input i).everAvailable || decide (n = 4) }).set (F.TRV_REF_STAT_STATE i) n)) :=
  if_neg h

/-- The end of QUALT makes an input available at once where it never was or where WTR is 0. -/
theorem exec_refQualifyTimer_available (hs : refState s i = 2) (ht : 1000 * s.get (F.TRV_REF_CFG_QUALT i) ≤ (s.input i).timer)
    (h : (s.input i).everAvailable = false ∨ s.get (F.TRV_REF_WTR_WTR i) = 0) :
    exec (.refQualifyTimer i) s = .next (showTimer i (recordUnit 0x0501 i 0 0 0 0 (refGoto i 4 s))) :=
  congrArg _ ((if_pos ⟨hs, ht⟩).trans (if_pos h))

theorem exec_refQualifyTimer_waits (hs : refState s i = 2) (ht : 1000 * s.get (F.TRV_REF_CFG_QUALT i) ≤ (s.input i).timer)
    (he : (s.input i).everAvailable = true) (hw : s.get (F.TRV_REF_WTR_WTR i) ≠ 0) :
    exec (.refQualifyTimer i) s = .next (showTimer i (refGoto i 3 s)) :=
  congrArg _ ((if_pos ⟨hs, ht⟩).trans (if_neg (not_or.mpr ⟨ne_false_of_eq_true he, hw⟩)))

theorem exec_refWtrExpiry_due (hs : refState s i = 3) (ht : 1000 * s.get (F.TRV_REF_WTR_WTR i) ≤ (s.input i).timer) :
    exec (.refWtrExpiry i) s = .next (showTimer i (recordUnit 0x0501 i 0 0 0 0 (refGoto i 4 s))) :=
  congrArg _ (if_pos ⟨hs, ht⟩)

end inputs

/-! ## Switches, loops and closure (R249, R251, R258, R259) -/

section loops
variable {s : State} {c : Fin 8}

/-- A switch whose slew is over has ended. -/
theorem switching_and_slewNow_zero (hs : switching s c = true) (hz : slewNow s c = .zero) : (switching s c && decide (slewNow s c = .zero)) = true := by
  rw [hs, decide_eq_true hz]
  rfl

/-- A loop whose samples have met the criterion for LOCKT locks, outside a switch and a freeze. -/
theorem exec_channelLock_met (hs : loopState s c = 1) (hw : switching s c = false) (hf : s.on F.SYN_STAT_FROZEN = false)
    (ht : (s.loop c).okTicks.any (fun n => decide (1000 * s.get (F.TRV_CH_LOCK_LOCKT c) ≤ n)) = true) :
    exec (.channelLock c) s = .next (showBandwidth c (loopGoto c 2 (s.setLoop c { s.loop c with lossRun := 0, secTicks := 0 }))) := by
  refine congrArg _ (if_pos ?_)
  rw [decide_eq_true hs, hw, hf, ht]
  rfl

theorem exec_holdoverTimeout_due (hs : loopState s c = 3) (hm : s.get (F.TRV_CH_HOMAX_HOMAX c) ≠ 0)
    (ht : 1000 * s.get (F.TRV_CH_HOMAX_HOMAX c) ≤ (s.loop c).hoTicks) :
    exec (.holdoverTimeout c) s = .next ((loopFree c s).setLoop c { (loopFree c s).loop c with history := [] }) :=
  congrArg _ (if_pos ⟨hs, hm, ht⟩)

end loops

/-! ## Benchmark (R264-R266) -/

section benchmark
variable {s : State}

theorem phaseChange_same {old : Nat} (h : (bmModel s).phase = old) : phaseChange old s = s := if_pos h

theorem phaseChange_other {old : Nat} (h : (bmModel s).phase ≠ old) : phaseChange old s = record 0x0508 0 0 0 0 (irqSet 4 A.TRV_CH_IRQ_STAT 16 s) := if_neg h

/-- A model after its hour: the means enter its history, and outside holdover it is refitted (R265). -/
def BmModel.afterHour (hold : Bool) (day : Frac) (days : Nat) (m : BmModel) : BmModel :=
  if hold then m.closeHour day days else (m.closeHour day days).refit day days

/-- The hourly refit of both models, with the model in use shown. -/
def refitted (s : State) : State :=
  let next := BmModel.afterHour (decide (s.dtm.under = 4 ∨ s.dtm.under = 5)) (daysOf s.bm.ticks) (s.get F.TRV_BM_CFG_LEARNDAYS)
  showModel { s with bm := { s.bm with hourTicks := 0, osc := next s.bm.osc, xtal := next s.bm.xtal } }

theorem exec_benchmarkRefit_due (h : 3600000 ≤ s.bm.hourTicks) : exec .benchmarkRefit s = .next (phaseChange (bmModel s).phase (refitted s)) :=
  congrArg _ (if_neg (Nat.not_lt.mpr h))

/-- The state of Benchmark after a failed reading of the board's sensor. -/
def tempFailed (s : State) : State := { s with bm := { s.bm with i2cFails := s.bm.i2cFails + 1, i2cGood := 0 } }

theorem exec_benchmarkTempRead_failed (h : s.on F.TRV_BM_CFG_TEMPSRC = true) : exec (.benchmarkTempRead none) s =
    .next (if 3 ≤ s.bm.i2cFails + 1 ∧ s.on F.TRV_BM_STAT_TEMPFALL = false then
      showModel (record 0x0509 0 0 0 0 (irqSet 4 A.TRV_CH_IRQ_STAT 17 ((tempFailed s).set F.TRV_BM_STAT_TEMPFALL 1)))
    else tempFailed s) :=
  congrArg _ (if_pos h)

end benchmark

/-- Settles O34: a message by its format and its kind, an input by the state that its timer ends, the model in use by whether its phase changed, a failed
reading by how many came before it, and every other command by the condition on which it acts. The layouts of the messages and the corners of the pulses are the
model's (assumptions log 32, 73, 103). -/
theorem traverseCommandsTakeEffect : Obligations.TraverseCommandsTakeEffect := by
  refine ⟨fun s port b h hr => ?message, fun s i j t0 n rest hj hg ha hd => exec_pulseMissing_due hj hg ha hd, fun s i hs ht => ?qualified,
    fun s i hs ht => ?restored, fun s c hs hz => congrArg _ (if_pos (switching_and_slewNow_zero hs hz)), fun s h => congrArg _ (if_neg (Nat.not_lt.mpr h)),
    fun s c hs hw hf ht => exec_channelLock_met hs hw hf ht, fun s c hs hm ht => exec_holdoverTimeout_due hs hm ht,
    fun s temp h => congrArg _ (if_neg (Nat.not_lt.mpr h)), fun s h => ?refit, fun s v h => congrArg _ (if_pos h), fun s h => ?failed⟩
  case message =>
    refine ⟨fun hg hb => ?_, fun c k d hg hb hn => ?_, fun d hg hb hd => ?_, fun d hg hb hd => ?_, fun hg => exec_todMessage_nmea h hr hg⟩
    all_goals rw [exec_todMessage_g8271 h hr hg]
    · rw [todG8271_broken s port hb]; rfl
    · rw [todG8271_other s port hb hn]
    · rw [todG8271_event s port hb hd]
    · rw [todG8271_announce s port hb hd]
  case qualified =>
    have available : refState s i ≠ 4 := by omega
    have waits : refState s i ≠ 3 := by omega
    refine ⟨fun h => ?_, fun he hw => ?_⟩
    · rw [exec_refQualifyTimer_available hs ht h, refGoto_other available]
    · rw [exec_refQualifyTimer_waits hs ht he hw, refGoto_other waits]
  case restored =>
    have available : refState s i ≠ 4 := by omega
    rw [exec_refWtrExpiry_due hs ht, refGoto_other available]
    rfl
  case refit =>
    rw [exec_benchmarkRefit_due h]
    exact ⟨fun hp => congrArg _ (phaseChange_same hp), fun hp => congrArg _ (phaseChange_other hp)⟩
  case failed =>
    rw [exec_benchmarkTempRead_failed h]
    exact ⟨fun hf => congrArg _ (if_pos hf), fun hf => congrArg _ (if_neg fun a => absurd a.1 (by omega))⟩

end Sys2Proof.Machine
end

/-! The measured check of the limiter: its comparison with CEIL in whole numbers, and the two ends of a window (R294). -/
section
namespace Sys2Proof.Machine

/-- The quotient that the check compares with `f`, CEIL × (1 + 50 ppm), loses nothing: both sides times 1000000 are whole. -/
theorem measured_above_iff (ceil f : Nat) :
    (decide (ceil ≠ 0) && (Frac.of (ceil * 1000050) 1000000).lt (.int f)) = true ↔ ceil ≠ 0 ∧ ceil * 1000050 < f * 1000000 := by
  rw [Frac.of_lt_int _ _ (by decide), Bool.and_eq_true, decide_eq_true_eq, decide_eq_true_eq]
  exact and_congr_right fun _ => by omega

section window
variable {s : State} {o : Fin 12} {f : BitVec 40}

/-- The state in which FMEAS shows what the window measured. -/
def windowShown (o : Fin 12) (f : BitVec 40) (s : State) : State := s.set64 (A.SYN_OUT_FMEAS_W0 o) f.toNat

/-- The end of a window is the comparison with CEIL: above it the output is marked and trips, else its mark is cleared. -/
theorem exec_outputLimitMeasure :
    let u := windowShown o f s
    let above := decide (outCeil u o ≠ 0) && (Frac.of (outCeil u o * 1000050) 1000000).lt (.int f.toNat)
    exec (.outputLimitMeasure o f) s = .next (
      let m := { u with syn := { u.syn with overMeasured := if above then u.syn.overMeasured ||| 2 ^ o.val else u.syn.overMeasured &&& (0xFFF ^^^ 2 ^ o.val) } }
      if above then limitTrip o f.toNat 1 m else m) := rfl

theorem exec_outputLimitMeasure_above (hc : outCeil (windowShown o f s) o ≠ 0) (hf : outCeil (windowShown o f s) o * 1000050 < f.toNat * 1000000) :
    let u := windowShown o f s
    exec (.outputLimitMeasure o f) s = .next (limitTrip o f.toNat 1 { u with syn := { u.syn with overMeasured := u.syn.overMeasured ||| 2 ^ o.val } }) := by
  have above := (measured_above_iff _ _).mpr ⟨hc, hf⟩
  rw [exec_outputLimitMeasure, above]
  rfl

theorem exec_outputLimitMeasure_within (h : outCeil (windowShown o f s) o = 0 ∨ f.toNat * 1000000 ≤ outCeil (windowShown o f s) o * 1000050) :
    let u := windowShown o f s
    exec (.outputLimitMeasure o f) s = .next { u with syn := { u.syn with overMeasured := u.syn.overMeasured &&& (0xFFF ^^^ 2 ^ o.val) } } := by
  have within := Bool.eq_false_iff.mpr fun above => by
    obtain ⟨hc, hf⟩ := (measured_above_iff _ _).mp above
    exact h.elim hc (Nat.not_le.mpr hf)
  rw [exec_outputLimitMeasure, within]
  rfl

end window

/-- Settles O36: the two ends of a window, on either side of CEIL × (1 + 50 ppm). -/
theorem measuredCheckTripsAboveCeilPlus50Ppm : Obligations.MeasuredCheckTripsAboveCeilPlus50Ppm :=
  fun _ _ _ => ⟨exec_outputLimitMeasure_within, exec_outputLimitMeasure_above⟩

end Sys2Proof.Machine
end

/-! A step: the front command or one idle period, what it leaves of the queue and of the canonical forms, and where it starts from (98_reader.md). -/
section
namespace Sys2Proof.Machine

theorem step_pending (c : Instr) (rest : List Instr) (s : State) : step { s with pending := c :: rest } = exec c { s with pending := rest } := rfl

theorem step_idle {s : State} (h : s.pending = []) : step s = .next (idle s) := by unfold step; rw [h]

theorem step_front {s : State} {c : Instr} {rest : List Instr} (h : s.pending = c :: rest) : step s = exec c { s with pending := rest } := by
  unfold step; rw [h]

/-- What a step runs on: the state without the front command of its queue. -/
def queueTaken (s : State) : State := { s with pending := s.pending.tail }

/-- A step keeps the rest of the queue, and the canonical forms of the state that it took its command from. -/
theorem step_keeps {s t : State} (h : step s = .next t) : Keeps (queueTaken s) t := by
  cases hp : s.pending with
  | nil =>
    have same : queueTaken s = s := by unfold queueTaken; rw [hp, List.tail_nil, ← hp]
    rw [step_idle hp] at h
    cases h
    rw [same]
    exact idle_keeps (.refl s)
  | cons c rest =>
    have taken : queueTaken s = { s with pending := rest } := by unfold queueTaken; rw [hp, List.tail_cons]
    rw [step_front hp, ← taken] at h
    exact exec_keeps c h (.refl _)

/-- Settles O5: the forms hold of the state without its front command, and every command and the idle period keep them. -/
theorem everyStepKeepsTheCanonicalForm : Obligations.EveryStepKeepsTheCanonicalForm := fun _ _ hc h => (step_keeps h).canon hc

/-- Settles O3, by the same law: what a command keeps of the queue is all that was behind it. -/
theorem stepTakesExactlyOneCommand : Obligations.StepTakesExactlyOneCommand := fun _ _ h => (step_keeps h).queue

/-- Settles O1: it is the definition of the step on a queue that is not empty. -/
theorem stepRunsTheFrontCommand : Obligations.StepRunsTheFrontCommand := step_pending

/-- Settles O2: the idle period keeps the queue, which is empty. -/
theorem emptyQueueLetsOnePeriodPass : Obligations.EmptyQueueLetsOnePeriodPass :=
  fun s h => ⟨step_idle h, (idle_keeps (.refl s)).queue.trans h⟩

theorem regCommand_answers (p : Path) (a : Nat) (v : Word) (s : State) : ∃ t, regCommand p a v s = .next t := ⟨_, rfl⟩

/-- A write that acts on registers of one kind only, and does nothing at any other address, answers a next state. -/
theorem guardedWrite_answers {c : Prop} [Decidable c] (p : Path) (a : Nat) (v : Word) (s : State) :
    ∃ t, (if c then regCommand p a v s else .next s) = .next t := by
  by_cases h : c
  · exact if_pos h ▸ regCommand_answers p a v s
  · exact ⟨s, if_neg h⟩

/-- Settles O4: the meanings are next states, but for three writes that first look at their address. -/
theorem everyCommandAnswersANextState : Obligations.EveryCommandAnswersANextState := by
  intro c s
  cases c
  case stakeCompensationChange n addr value path => exact guardedWrite_answers path addr.toNat value s
  case transitSettingChange ch addr value path => exact guardedWrite_answers path addr.toNat value s
  case synRelockChange path addr value => exact guardedWrite_answers path addr.toNat value s
  all_goals exact ⟨_, rfl⟩

theorem reset_canonical : Canonical State.reset := ⟨regsWf_nil, rfl⟩

theorem reset_rd (a : Nat) : State.reset.rd a = resetWord a := rfl

theorem reset_tickets (p : Fin 4) : (State.reset.port p).tickets = [] := by
  have initial : State.reset.port p = .empty := Vector.getElem_replicate ..
  rw [initial]; rfl

/-- Settles O6: the parts of the state after reset, each by its value. -/
theorem resetIsCanonicalAndInBoot : Obligations.ResetIsCanonicalAndInBoot := by
  have idlePipelines : ∀ pl : Fin 5, State.reset.svp.queues[pl] = [] := by decide
  exact ⟨reset_canonical, rfl, by decide, by decide, rfl, rfl, rfl, rfl, reset_tickets, idlePipelines, reset_rd⟩

end Sys2Proof.Machine
end

/-! Register writes that the system block judges: before the image is loaded, the mode requests, and the acknowledgement of alarms; and the pin that the
alarms drive (R349, R372, R385, R386). -/
section
namespace Sys2Proof.Machine

theorem countAccess_get (p : Path) (s : State) (f : Fld) (h : eventReg f.addr = false) : (countAccess p s).get f = s.get f := by
  unfold State.get; rw [countAccess_rd p s h]

theorem countAccess_on (p : Path) (s : State) (f : Fld) (h : eventReg f.addr = false) : (countAccess p s).on f = s.on f := by
  unfold State.on; rw [countAccess_get p s f h]

/-! ## Before the end of BOOT (R349) -/

/-- A write that reaches the device before writes open is counted, sets WDROP, and answers 3. -/
theorem hostWrite_shut {s : State} (p : Path) (a be : Nat) (v : Word) (hs : accessible s = true) (ho : s.sys.writesOpen = false) :
    hostWrite p a be v s = (3, withGroup 0 (fun s => s.strike F.SYS_BOOT_STAT_WDROP) (countAccess p s)) := by
  have reaches : ¬accessible s = false := by rw [hs]; decide
  have shut : (countAccess p s).sys.writesOpen = false := by rw [countAccess_sys, ho]
  exact (if_neg reaches).trans (if_pos shut)

/-- Settles O7: the state and the status of a write that finds the device shut. -/
theorem writeBeforeBootEndSetsOnlyWdrop : Obligations.WriteBeforeBootEndSetsOnlyWdrop := fun p _ _ v _ hs ho =>
  have shut := fun a be => hostWrite_shut p a be v hs ho
  ⟨congrArg (fun x : Nat × State => Host.Outcome.next x.2) (shut _ _), congrArg Prod.fst (shut _ _)⟩

/-! ## Mode requests (R372) -/

/-- A write of SYS_MODE_CTL reaches the judgement of requests. -/
theorem regCommand_modeCtl {s : State} (p : Path) (v : Word) (h : Admits s) :
    regCommand p A.SYS_MODE_CTL v s = .next (modeCtlWrite v (countAccess p s)) := by
  have hook : hookIndex p A.SYS_MODE_CTL = some 1 := by cases p <;> decide +kernel
  exact regCommand_hook v h (by decide +kernel) (liveOff_none s (by decide)) hook rfl

/-- The word of a request row keeps the key, and names the row's request. -/
theorem requestWord_fields (v : Word) {req : Nat} (h : req < 5) :
    fieldGet (requestWord v req) 16 16 = fieldGet v 16 16 ∧ fieldGet (requestWord v req) 0 3 = req :=
  ⟨fieldGet_set_other _ _ _ _ _ _ (by decide) (by decide), (fieldGet_set_same _ _ _ _ (by decide)).trans (Nat.mod_eq_of_lt (by omega))⟩

theorem modeCtlWrite_badKey {v : Word} (s : State) (h : fieldGet v 16 16 ≠ 0x4D44) : modeCtlWrite v s = s := if_pos (Or.inl h)

/-- The counted access touches no register that enables a wake source. -/
theorem countAccess_wakeEnabled (p : Path) (s : State) : wakeEnabled (countAccess p s) = wakeEnabled s := by
  unfold wakeEnabled
  rw [countAccess_on p s _ (by decide), countAccess_on p s _ (by decide), countAccess_get p s _ (by decide)]

/-- A request with the key that no check of R372 refuses waits for the tick. -/
theorem modeCtlWrite_waits {v : Word} {s : State} {req : Nat} (hk : fieldGet v 16 16 = 0x4D44) (hr : fieldGet v 0 3 = req) (h0 : req ≠ 0) (h5 : req < 5)
    (hb : s.mode ≠ mBoot) (hl : requestListed s.mode req = true) (hw : req = 3 → wakeEnabled s = true) (hn : s.sys.request = none) :
    modeCtlWrite v s = { s with sys := { s.sys with request := some req } } := by
  have keyed : ¬(fieldGet v 16 16 ≠ 0x4D44 ∨ req = 0) := fun h => h.elim (fun k => k hk) h0
  have listed : ¬requestListed s.mode req = false := by rw [hl]; decide
  have wakes : ¬(req = 3 ∧ wakeEnabled s = false) := fun ⟨h3, hf⟩ => by rw [hw h3] at hf; exact absurd hf (by decide)
  have free : ¬s.sys.request.isSome = true := by rw [hn]; decide
  unfold modeCtlWrite
  simp only [hr]
  rw [if_neg keyed, if_neg (Nat.not_le.mpr h5), if_neg hb, if_neg listed, if_neg wakes, if_neg free]

/-- Settles O15: each row writes the word of its request, which its key lets through. -/
theorem modeRequestsWaitForTheTick : Obligations.ModeRequestsWaitForTheTick := by
  intro p v s ha c hc u
  have row : c.1 ≠ 0 ∧ c.1 < 5 ∧ exec c.2 s = .next (modeCtlWrite (requestWord v c.1) u) := by
    have written := fun req => regCommand_modeCtl p (requestWord v req) ha
    simp only [List.mem_cons, List.not_mem_nil, or_false] at hc
    obtain rfl | rfl | rfl | rfl := hc
    · exact ⟨Nat.succ_ne_zero _, by simp, written 1⟩
    · exact ⟨Nat.succ_ne_zero _, by simp, written 2⟩
    · exact ⟨Nat.succ_ne_zero _, by simp, written 3⟩
    · exact ⟨Nat.succ_ne_zero _, by simp, written 4⟩
  obtain ⟨h0, h5, runs⟩ := row
  obtain ⟨key, request⟩ := requestWord_fields v h5
  rw [runs]
  refine ⟨fun hk hb hl hw hn => congrArg _ ?_, fun hk => congrArg _ (modeCtlWrite_badKey u (by rwa [key]))⟩
  exact modeCtlWrite_waits (key.trans hk) request h0 h5 (by rwa [countAccess_mode]) (by rwa [countAccess_mode]) (by rwa [countAccess_wakeEnabled])
    (by rw [countAccess_sys, hn])

/-! ## The acknowledgement of alarms (R385) -/

theorem exec_alarmAck_admitted {s : State} (v : Word) (h : Admits s) : exec (.alarmAck v) s = .next (ackAlarms v (countAccess .mw0 s)) :=
  regCommand_hook v h (by decide +kernel) (liveOff_none s (by decide)) (i := 5) (by decide +kernel) rfl

theorem ackAlarms_frame {R : Nat → Bool} {b s : State} (v : Word) (h : ChangesOnly R b s) : ChangesOnly R b (ackAlarms v s) :=
  .foldl (fun _ n _ ht => .ite (ht.alarmClear n) ht) h

/-- Settles O54: the count of the access keeps the alarms and the queues, and the three acknowledgements act one after the other. -/
theorem acknowledgementClearsOnlyWhatMayBeAcknowledged : Obligations.AcknowledgementClearsOnlyWhatMayBeAcknowledged := by
  intro s v ha hc hq
  have counted := countAccess_pmcOnly .mw0 s
  have room : waiting (countAccess .mw0 s) 0 + 3 ≤ 64 := by unfold waiting; rw [counted.fbk]; exact hq
  obtain ⟨flt, bits⟩ := ackAlarms_bit v (countAccess .mw0 s) (countAccess_sorted .mw0 (regsWf_sorted hc.1)) room
  refine ⟨_, exec_alarmAck_admitted v ha, fun n => ?_, ackAlarms_frame v (countAccess_frame _ .mw0 s), flt.trans counted.flt⟩
  have same : (countAccess .mw0 s).bit A.SYS_ALARM_STAT n = s.bit A.SYS_ALARM_STAT n := by unfold State.bit; rw [counted.regs _ (by decide)]
  rw [bits n, counted.flt, same]

/-! ## ALARM_N (R386) -/

theorem pinAlarm_driven {s : State} (h : statusDriven s = true) :
    pinAlarm s = if s.rd A.SYS_ALARM_STAT &&& s.rd A.SYS_ALARM_EN ≠ 0 then .low else .released := by
  unfold pinAlarm
  simp only [h, Bool.true_and, decide_eq_true_eq]

theorem pinAlarm_undriven {s : State} (h : statusDriven s = false) : pinAlarm s = .released := by
  unfold pinAlarm
  simp only [h, Bool.false_and, Bool.false_eq_true, if_false]

/-- A raised alarm moves neither the phase, nor the mode, nor the voltage of the bank. -/
theorem alarmRaise_statusDriven (n : Nat) (s : State) : statusDriven (alarmRaise n s) = statusDriven s := by
  have frame := (ChangesOnly.refl (fun _ => false) s).alarmRaise n
  have mode : (alarmRaise n s).mode = s.mode := frame.get F.SYS_MODE_STAT_MODE rfl (by decide)
  unfold statusDriven
  rw [frame.sys, mode]

/-- A bit that two words have in common. -/
theorem and_ne_zero_of_bits {a b : Word} {n : Nat} (ha : a.getLsbD n = true) (hb : b.getLsbD n = true) : a &&& b ≠ 0 := by
  intro h
  have bit : (a &&& b).getLsbD n = true := by rw [BitVec.getLsbD_and, ha, hb]; rfl
  rw [h] at bit
  exact absurd bit (by simp)

/-- Settles O58: the level by the conditions of R386, and the alarm that is raised among the enabled ones. -/
theorem alarmPinFollowsTheEnabledAlarms : Obligations.AlarmPinFollowsTheEnabledAlarms := by
  refine ⟨fun s h => pinAlarm_undriven (by unfold statusDriven; simp [h]), fun s hp hd hm hb hv => ?_, fun s n hn hc hd he => ?_⟩
  · have driven : statusDriven s = true := by unfold statusDriven; simp [hp, hd, hm, hb, hv]
    rw [pinAlarm_driven driven]
    exact ⟨fun h => if_pos h, fun h => if_neg (not_not.mpr h)⟩
  · have raised : (alarmRaise n s).bit A.SYS_ALARM_STAT n = true := alarmRaise_bit n s hn (regsWf_sorted hc.1)
    have enabled : (alarmRaise n s).bit A.SYS_ALARM_EN n = true := by
      unfold State.bit
      rw [((ChangesOnly.refl (fun _ => false) s).alarmRaise n).regs A.SYS_ALARM_EN rfl (by decide)]
      exact he
    rw [pinAlarm_driven (by rwa [alarmRaise_statusDriven]), if_pos (and_ne_zero_of_bits raised enabled)]

end Sys2Proof.Machine
end

/-! The boot flash and the rings' TAIL: what an operation of the flash changes byte by byte, what its start judges, and what a TAIL write leaves alone
(R323, R324, R357). -/
section
namespace Sys2Proof.Machine

/-! ## The end of a flash operation (R357) -/

/-- The state in which an operation of the flash is over and BUSY reads 0. -/
def flashEnded (s : State) : State := { s with sys := { s.sys with flashOp := none } }.set F.SYS_FL_CTL_BUSY 0

@[simp] theorem flashEnded_sys (s : State) : (flashEnded s).sys = { s.sys with flashOp := none } := by unfold flashEnded; rw [State.set_sys]

theorem flashEnded_flashByte (s : State) (x : Nat) : flashByte (flashEnded s) x = flashByte s x := by unfold flashByte; rw [flashEnded_sys]

theorem flashEnded_rd {s : State} {r : Nat} (h : r ≠ A.SYS_FL_CTL) : (flashEnded s).rd r = s.rd r := State.rd_set_other _ _ _ _ h

theorem flashEnded_busy {s : State} (h : s.regs.sorted = true) : (flashEnded s).get F.SYS_FL_CTL_BUSY = 0 := State.get_set_same _ _ _ h (by decide)

theorem flashEnded_sorted {s : State} (h : s.regs.sorted = true) : (flashEnded s).regs.sorted = true := State.set_sorted _ _ _ h

section ends
variable {s : State} {a : Nat} {b : Bytes}

theorem exec_flashOpDone_erased (h : s.sys.flashOp = some (2, a, b)) : exec (.flashOpDone false) s =
    .next { flashEnded s with sys := { (flashEnded s).sys with flash := flashStore a (List.replicate 65536 0xFF) (flashEnded s).sys.flash } } :=
  (flashOpDone_eq (u := flashEnded s) false h rfl).trans (congrArg _ (((if_neg Bool.false_ne_true).trans (if_neg (by decide))).trans (if_neg (by decide))))

theorem exec_flashOpDone_programmed (h : s.sys.flashOp = some (1, a, b)) : exec (.flashOpDone false) s = .next (flashProgram a b (flashEnded s)) :=
  (flashOpDone_eq (u := flashEnded s) false h rfl).trans (congrArg _ (((if_neg Bool.false_ne_true).trans (if_neg (by decide))).trans (if_pos rfl)))

theorem exec_flashOpDone_read (h : s.sys.flashOp = some (0, a, b)) : exec (.flashOpDone false) s = .next (flashFetch a (flashEnded s)) :=
  (flashOpDone_eq (u := flashEnded s) false h rfl).trans (congrArg _ ((if_neg Bool.false_ne_true).trans (if_pos rfl)))

end ends

/-- The state in which one byte is programmed: an erased one takes the buffer's, another one a free value. -/
def byteProgrammed (a : Nat) (x : Byte) (s : State) : State :=
  let d : Byte × State := if flashByte s a = 0xFF then (x, s) else (BitVec.ofNat 8 (s.draw 8).1, (s.draw 8).2)
  { d.2 with sys := { d.2.sys with flash := flashPut d.2.sys.flash a d.1 } }

theorem flashProgram_cons (a : Nat) (x : Byte) (b : Bytes) (s : State) : flashProgram a (x :: b) s = flashProgram (a + 1) b (byteProgrammed a x s) := rfl

theorem byteProgrammed_frame (a : Nat) (x : Byte) (s : State) :
    (byteProgrammed a x s).regs = s.regs ∧ (byteProgrammed a x s).sys.flashOp = s.sys.flashOp := by
  unfold byteProgrammed
  split <;> exact ⟨rfl, rfl⟩

/-- Programming leaves the registers and the operation as they are. -/
theorem flashProgram_frame (b : Bytes) (a : Nat) (s : State) :
    (flashProgram a b s).regs = s.regs ∧ (flashProgram a b s).sys.flashOp = s.sys.flashOp := by
  induction b generalizing a s with
  | nil => exact ⟨rfl, rfl⟩
  | cons x b ih =>
    obtain ⟨regs, op⟩ := byteProgrammed_frame a x s
    obtain ⟨regs', op'⟩ := ih (a + 1) (byteProgrammed a x s)
    rw [flashProgram_cons]
    exact ⟨regs'.trans regs, op'.trans op⟩

/-- Settles O50: the bytes by the laws of the flash's map, the registers by the end of the operation, which writes SYS_FL_CTL alone. -/
theorem flashOperationsChangeOnlyTheirBytes : Obligations.FlashOperationsChangeOnlyTheirBytes := by
  refine ⟨fun s a b hc h => ?_, fun s a b hc h => ?_, fun s a b hc h => ?_⟩
  all_goals
    obtain ⟨hregs, hflash⟩ := hc
    have sorted : (flashEnded s).sys.flash.sorted = true := by rw [flashEnded_sys]; exact flashWf_sorted hflash
    have busy := flashEnded_busy (regsWf_sorted hregs)
    have done : (flashEnded s).sys.flashOp = none := by rw [flashEnded_sys]
  · refine ⟨_, exec_flashOpDone_erased h, by rw [setFlash_flashOp, done], ?_, fun x => ?_, fun r hr => (setFlash_rd _ _ r).trans (flashEnded_rd hr)⟩
    · unfold State.get at busy ⊢
      rw [setFlash_rd, busy]
    · rw [setFlash_flashByte, flashErase_read _ _ _ sorted]
      exact if_congr Iff.rfl rfl (flashEnded_flashByte s x)
  · obtain ⟨regs, op⟩ := flashProgram_frame b a (flashEnded s)
    have rd : ∀ r, (flashProgram a b (flashEnded s)).rd r = (flashEnded s).rd r := fun r => by unfold State.rd; rw [regs]
    have bytes := fun x => flashProgram_read b a x (flashEnded s) sorted
    simp only [flashEnded_flashByte] at bytes
    refine ⟨_, exec_flashOpDone_programmed h, op.trans done, ?_, fun x => (bytes x).1, fun x => (bytes x).2, fun r hr => (rd r).trans (flashEnded_rd hr)⟩
    unfold State.get at busy ⊢
    rw [rd, busy]
  · have sys := flashFetch_flash a (flashEnded s)
    refine ⟨_, exec_flashOpDone_read h, by rw [sys, done], ?_, fun x => ?_, fun k hk => ?_, fun r hr hb => ?_⟩
    · have apart : ∀ k, k < 64 → A.SYS_FL_CTL ≠ A.SYS_FL_BUF k := fun k _ => by simp only [A.SYS_FL_CTL, A.SYS_FL_BUF]; omega
      unfold State.get at busy ⊢
      rw [flashFetch_other a _ _ apart, busy]
    · rw [← flashEnded_flashByte s]
      unfold flashByte
      rw [sys]
    · rw [flashFetch_buffer a k _ hk (flashEnded_sorted (regsWf_sorted hregs))]
      simp only [flashEnded_flashByte]
    · rw [flashFetch_other a r _ hb, flashEnded_rd hr]

/-! ## TAIL (R324) -/

/-- A flag that an event has set reads 1. -/
theorem State.get_strike (s : State) (f : Fld) (hs : s.regs.sorted = true) (hf : f.lsb + f.width ≤ 32 ∧ f.width = 1) : (s.strike f).get f = 1 := by
  unfold State.strike
  rw [State.happen_get, State.get_set_same _ _ _ hs hf.1, hf.2]
  rfl

theorem State.rd_strike_other (s : State) (f : Fld) {i : Nat} (h : i ≠ f.addr) : (s.strike f).rd i = s.rd i := by
  unfold State.strike
  rw [State.happen_rd, State.rd_set_other _ _ _ _ h]

/-- No register of the rings is one that events touch. -/
theorem eventReg_ringStat (n : Fin 64) : eventReg (A.HMI_R_STAT n) = false := by revert n; decide +kernel

theorem eventReg_ringTail (n : Fin 64) : eventReg (A.HMI_R_TAIL n) = false := by revert n; decide +kernel

theorem eventReg_ringCfg (n : Fin 64) : eventReg (A.HMI_R_CFG n) = false := by revert n; decide +kernel

theorem countAccess_ringSize (p : Path) (s : State) (n : Fin 64) : ringSize (countAccess p s) n = ringSize s n :=
  congrArg (2 ^ ·) (countAccess_get p s (F.HMI_R_CFG_SIZE n) (eventReg_ringCfg n))

theorem exec_ringTailWrite_admitted {s : State} {n : Fin 64} (v : Word) (h : Admits s) (he : ringExists n = true) :
    exec (.ringTailWrite n v) s = .next (if ringSize s n ≤ v.toNat % 65536 then (countAccess .mw0 s).strike (F.HMI_R_STAT_TAILERR n)
      else (countAccess .mw0 s).set (F.HMI_R_TAIL_TAIL n) (v.toNat % 65536)) := by
  refine (regCommand_ringTail v h he).trans (congrArg _ ?_)
  rw [ringTailWrite_exists v _ he, countAccess_ringSize]

/-- Settles O41: the two sides of 2^SIZE, each writing one register of the ring. -/
theorem tailWriteHandsOverOrSetsTailerr : Obligations.TailWriteHandsOverOrSetsTailerr := by
  intro s n v ha hc he
  have runs := exec_ringTailWrite_admitted v ha he
  have sorted := countAccess_sorted .mw0 (regsWf_sorted hc.1)
  have rings : (countAccess .mw0 s).hmi.rings = s.hmi.rings := (countAccess_frame (fun _ => false) .mw0 s).rings
  have apart : A.HMI_R_STAT n ≠ A.HMI_R_TAIL n := by simp only [A.HMI_R_STAT, A.HMI_R_TAIL]; omega
  by_cases hv : ringSize s n ≤ v.toNat % 65536
  · rw [if_pos hv] at runs
    refine ⟨_, runs, rings, fun h => absurd hv (Nat.not_le.mpr h), fun _ => ⟨?_, ?_⟩, fun a _ hs hev => ?_⟩
    · exact State.get_strike _ _ sorted ⟨show 2 + 1 ≤ 32 by decide, rfl⟩
    · rw [State.rd_strike_other _ _ apart.symm, countAccess_rd .mw0 s (eventReg_ringTail n)]
    · rw [State.rd_strike_other _ _ hs, countAccess_rd .mw0 s hev]
  · rw [if_neg hv] at runs
    refine ⟨_, runs, rings, fun _ => ⟨?_, ?_⟩, fun h => absurd h hv, fun a ht _ hev => ?_⟩
    · have fits : v.toNat % 65536 < 2 ^ (F.HMI_R_TAIL_TAIL n).width := Nat.mod_lt _ (by decide)
      rw [State.get_set_same _ _ _ sorted (show 0 + 16 ≤ 32 by decide), Nat.mod_eq_of_lt fits]
    · rw [State.rd_set_other _ _ _ _ apart, countAccess_rd .mw0 s (eventReg_ringStat n)]
    · rw [State.rd_set_other _ _ _ _ ht, countAccess_rd .mw0 s hev]

end Sys2Proof.Machine
end

/-! The claim bus: a frame on its way from one unit to the other, the commands of the claims, and the writes of DVL_CTL (R297-R301, R314). -/
section
namespace Sys2Proof.Machine

/-! ## The frame (R298) -/

/-- The first 48 bits of a claim frame, by its fields. -/
def claimBits (seq flags own ptn : Nat) : Nat := 0xD5 * 2 ^ 40 + seq * 2 ^ 36 + flags * 2 ^ 32 + own * 2 ^ 16 + ptn

/-- The field of ACTIVE and READY. -/
def claimFlags (active ready : Bool) : Nat := active.toNat + 2 * ready.toNat

theorem claimFlags_lt (active ready : Bool) : claimFlags active ready < 4 := by revert active ready; decide

section fields
variable {seq own ptn : Nat} (active ready : Bool)

theorem claimBits_echo (f : Nat) (hp : ptn < 2 ^ 16) : claimBits seq f own ptn % 2 ^ 16 = ptn := by unfold claimBits; omega

theorem claimBits_own (f : Nat) (ho : own < 2 ^ 16) (hp : ptn < 2 ^ 16) : claimBits seq f own ptn / 2 ^ 16 % 2 ^ 16 = own := by unfold claimBits; omega

theorem claimBits_flags (ho : own < 2 ^ 16) (hp : ptn < 2 ^ 16) :
    claimBits seq (claimFlags active ready) own ptn / 2 ^ 32 % 16 = claimFlags active ready := by
  have := claimFlags_lt active ready
  unfold claimBits; omega

theorem claimBits_active (ho : own < 2 ^ 16) (hp : ptn < 2 ^ 16) : (claimBits seq (claimFlags active ready) own ptn).testBit 32 = active := by
  have flags := claimBits_flags (seq := seq) active ready ho hp
  have bit : claimBits seq (claimFlags active ready) own ptn / 2 ^ 32 % 2 = claimFlags active ready % 2 := by omega
  rw [Nat.testBit_eq_decide_div_mod_eq, bit]
  cases active <;> cases ready <;> rfl

theorem claimBits_ready (ho : own < 2 ^ 16) (hp : ptn < 2 ^ 16) : (claimBits seq (claimFlags active ready) own ptn).testBit 33 = ready := by
  have flags := claimBits_flags (seq := seq) active ready ho hp
  have bit : claimBits seq (claimFlags active ready) own ptn / 2 ^ 33 % 2 = claimFlags active ready / 2 % 2 := by omega
  rw [Nat.testBit_eq_decide_div_mod_eq, bit]
  cases active <;> cases ready <;> rfl

section whole
variable (hs : seq < 16) (ho : own < 2 ^ 16) (hp : ptn < 2 ^ 16)
include hs ho hp

theorem claimBits_lt : claimBits seq (claimFlags active ready) own ptn < 2 ^ 48 := by
  have := claimFlags_lt active ready
  unfold claimBits; omega

theorem claimBits_type : claimBits seq (claimFlags active ready) own ptn / 2 ^ 40 = 0xD5 := by
  have := claimFlags_lt active ready
  unfold claimBits; omega

theorem claimBits_seq : claimBits seq (claimFlags active ready) own ptn / 2 ^ 36 % 16 = seq := by
  have := claimFlags_lt active ready
  unfold claimBits; omega

end whole

end fields

/-- A frame of 48 bits and their CRC, on the wire. -/
def claimWire (h : Nat) : BitVec 64 := BitVec.ofNat 64 (h * 2 ^ 16 + claimCrc (natBE 6 h))

theorem claimCrc_lt (b : Bytes) : claimCrc b < 2 ^ 16 := crcMsb_lt 16 0x1021 0 b (by decide) (by decide)

/-- The wire carries the 48 bits, and the CRC that the receiver computes from them. -/
theorem claimWire_fields {h : Nat} (hh : h < 2 ^ 48) :
    (claimWire h).toNat / 2 ^ 16 = h ∧ (claimWire h).toNat % 2 ^ 16 = claimCrc (natBE 6 h) := by
  have crc := claimCrc_lt (natBE 6 h)
  unfold claimWire
  rw [BitVec.toNat_ofNat, Nat.mod_eq_of_lt (by omega)]
  exact ⟨by omega, by omega⟩

/-- The unit has heard no frame for 2 us, or the last one was the one before (R298). -/
def expects (r : State) (seq : Nat) : Prop :=
  (∀ h, r.dvl.heardAt = some h → h + stalePeriods ≤ r.now) ∨ ∃ q, r.dvl.seqRx = some q ∧ (q + 1) % 16 = seq

/-- The state in which a frame with the sequence number has been heard on the bus. -/
def busHeard (seq : Nat) (r : State) : State :=
  { r with dvl := { r.dvl with seqRx := some seq, heardAt := some r.now, busAt := some r.now } }

/-- A frame that its receiver expects passes the checks and refreshes. -/
theorem exec_claimFrameReceive_expected {r : State} {seq own ptn : Nat} {active ready : Bool} (hr : inPair r = true) (hs : seq < 16) (ho : own < 2 ^ 16)
    (hp : ptn < 2 ^ 16) (he : expects r seq) : exec (.claimFrameReceive (claimWire (claimBits seq (claimFlags active ready) own ptn))) r =
      .next (refresh own ptn active ready (busHeard seq r)) := by
  obtain ⟨head, crc⟩ := claimWire_fields (claimBits_lt active ready hs ho hp)
  have heard : (!(r.dvl.heardAt.any (fun t => decide (r.now < t + stalePeriods))) || decide (r.dvl.seqRx.any (fun q => decide ((q + 1) % 16 = seq)) = true)) = true := by
    rcases he with silent | ⟨q, hq, hn⟩
    · cases ht : r.dvl.heardAt with
      | none => rfl
      | some t => simp [silent t ht]
    · rw [hq]
      simp [hn]
  show execClaimFrameReceive _ r = _
  unfold execClaimFrameReceive
  simp only [head, crc, hr, claimBits_type active ready hs ho hp, claimBits_seq active ready hs ho hp, claimBits_own _ ho hp,
    claimBits_echo _ hp, claimBits_active active ready ho hp, claimBits_ready active ready ho hp, heard, decide_true, Bool.and_self, if_true]
  rfl

/-- The 48 bits that a unit sends are its fields. -/
theorem claimHead_eq (u : State) : claimHead u =
    claimBits (u.dvl.seqTx % 16) (claimFlags (u.on F.DVL_STAT_ACTIVE) (decide (u.get F.DVL_STAT_PHASE = 4))) (u.get F.DVL_CLAIM_OWN) (u.get F.DVL_CLAIM_PARTNER) := by
  unfold claimHead claimBits claimFlags
  by_cases hp : u.get F.DVL_STAT_PHASE = 4 <;> cases u.on F.DVL_STAT_ACTIVE <;> simp [hp]

/-- The state in which a claim frame has left. -/
def claimSent (u : State) : State :=
  let v := u.emit (.claim (claimWire (claimHead u)))
  { v with dvl := { v.dvl with seqTx := (v.dvl.seqTx + 1) % 16 } }

theorem exec_claimFrameSend_running {s : State} (h : inPair s = true) (ha : s.on F.SYN_STAT_AUXLOCK = true) :
    exec .claimFrameSend s = .next (claimSent (claimUpdate s)) :=
  congrArg _ (if_pos (by rw [h, ha]; rfl))

/-- Settles O38: the fields of the frame, read back from the wire, and the receiver's two ways to expect it. -/
theorem claimFrameIsReadAsItWasSent : Obligations.ClaimFrameIsReadAsItWasSent := by
  intro s r hs ha hr u bits
  refine ⟨⟨_, exec_claimFrameSend_running hs ha, rfl⟩, fun heard => ?_⟩
  have expected : expects r (u.dvl.seqTx % 16) := heard.imp id fun h => ⟨_, h, by omega⟩
  have frame : bits = claimWire (claimBits (u.dvl.seqTx % 16) _ _ _) := congrArg claimWire (claimHead_eq u)
  rw [frame]
  exact exec_claimFrameReceive_expected hr (Nat.mod_lt _ (by decide)) (State.get_lt u F.DVL_CLAIM_OWN) (State.get_lt u F.DVL_CLAIM_PARTNER) expected

/-! ## The commands of the claims -/

/-- A claim that no path refreshed for 2 us counts as 0, and a guard that rests on nothing counts from then on. -/
theorem exec_claimStale_due {s : State} (h : inPair s = true) (hs : (busWatch s).on F.DVL_STAT_STALE = false)
    (ht : lastRefresh (busWatch s) + stalePeriods ≤ (busWatch s).now) : exec .claimStale s =
      .next (let v := claimUpdate (((busWatch s).set F.DVL_CLAIM_PARTNER 0).set F.DVL_STAT_STALE 1)
        { v with dvl := { v.dvl with
          guard := v.dvl.guard.map (fun g => { g with since := if g.kind = 3 then lastRefresh (busWatch s) + stalePeriods else g.since }) } }) :=
  congrArg _ ((if_pos h).trans (if_pos ⟨hs, ht⟩))

theorem exec_activeGain_due {s : State} (ha : (claimUpdate s).on F.DVL_STAT_ACTIVE = false)
    (hg : (claimUpdate s).dvl.guard.any (fun g => decide (g.since + guardPeriods g.kind ≤ (claimUpdate s).now)) = true) :
    exec .activeGain s = .next (activeRise (claimUpdate s)) :=
  congrArg _ (if_pos ⟨ha, hg⟩)

/-- A write of DVL_CTL reaches YIELD and REJOIN. -/
theorem regCommand_dvlCtl {s : State} (v : Word) (h : Admits s) : regCommand .mw0 A.DVL_CTL v s = .next (dvlCtlWrite v (countAccess .mw0 s)) :=
  regCommand_hook v h (by decide +kernel) (liveOff_none s (by decide)) (i := 7) (by decide +kernel) rfl

/-- The lasting cause of a hand-over has not cleared (R314). -/
def causePersists (w : State) : Bool := w.on F.SYN_STAT_FROZEN || !(mclkRuns w) || w.dvl.causeHeld

theorem dvlCtlWrite_yield {v : Word} (s : State) (h : v.getLsbD 1 = false) :
    dvlCtlWrite v s = claimUpdate (s.setB F.DVL_CTL_YIELD (v.getLsbD 0)) := by
  unfold dvlCtlWrite
  rw [h]
  rfl

theorem dvlCtlWrite_rejoin {v : Word} (s : State) (h : v.getLsbD 1 = true) :
    let w := s.setB F.DVL_CTL_YIELD (v.getLsbD 0)
    dvlCtlWrite v s = claimUpdate (if causePersists w then w else { w with dvl := { w.dvl with bothOff := false } }.set F.DVL_STAT_HANDED 0) := by
  intro w
  have acts : dvlCtlWrite v s =
      claimUpdate (if v.getLsbD 1 && !(causePersists w) then { w with dvl := { w.dvl with bothOff := false } }.set F.DVL_STAT_HANDED 0 else w) := rfl
  rw [acts, h]
  cases causePersists w <;> rfl

/-- The word of DVL_REJOIN asks for REJOIN, and keeps YIELD. -/
theorem rejoinWord_bits (v : Word) : (v ||| 2).getLsbD 1 = true ∧ (v ||| 2).getLsbD 0 = v.getLsbD 0 := by
  constructor <;> simp

theorem exec_dvlRejoin_admitted {s : State} (v : Word) (h : Admits s) :
    let w := (countAccess .mw0 s).setB F.DVL_CTL_YIELD (v.getLsbD 0)
    exec (.dvlRejoin v) s =
      .next (claimUpdate (if causePersists w then w else { w with dvl := { w.dvl with bothOff := false } }.set F.DVL_STAT_HANDED 0)) := by
  obtain ⟨rejoin, yield⟩ := rejoinWord_bits v
  refine (regCommand_dvlCtl (v ||| 2) h).trans ?_
  rw [dvlCtlWrite_rejoin _ rejoin, yield]

/-- Settles O37: each command under the condition on which it acts, and DVL_CTL by whether REJOIN is written. -/
theorem claimCommandsTakeEffect : Obligations.ClaimCommandsTakeEffect :=
  ⟨fun _ h ha => exec_claimFrameSend_running h ha, fun _ h hs ht => exec_claimStale_due h hs ht, fun _ _ h => congrArg _ (if_pos h),
    fun _ ha hg => exec_activeGain_due ha hg,
    fun _ v ha hv => (regCommand_dvlCtl v ha).trans (congrArg _ (dvlCtlWrite_yield _ hv)), fun _ v ha => exec_dvlRejoin_admitted v ha⟩

end Sys2Proof.Machine
end

/-! The Dvorgo link: its frames, the records of a cycle, the copy of the tables, and pairing (R304-R310, R315, R316). -/
section
namespace Sys2Proof.Machine

section link
variable {s : State}

/-! ## The link and its frames (R304) -/

theorem exec_dvlLinkDown_due (h : s.on F.DVL_STAT_LINK = true) (ht : s.dvl.frameAt + 4800 ≤ s.now) : exec .dvlLinkDown s = .next (linkLost s) :=
  congrArg _ (if_pos ⟨h, ht⟩)

theorem exec_heartbeatReceive_damaged (lanes : BitVec 2) (hb : Heartbeat) (t : Nat) (hr : dvlRuns s = true) :
    exec (.heartbeatReceive false lanes hb t) s = .next (s.addSat F.DVL_RECERR_CNT_COUNT 1) :=
  congrArg _ ((if_neg (ne_false_of_eq_true hr)).trans (if_pos rfl))

/-- The state in which a valid heartbeat has kept the link up, refreshed the claim and completed an exchange. -/
def heartbeatTaken (lanes : BitVec 2) (hb : Heartbeat) (t : Nat) (s : State) : State :=
  let u := linkSeen lanes s
  exchange hb t (refresh hb.claim.toNat hb.echo.toNat hb.active hb.ready { u with dvl := { u.dvl with linkAt := some u.now } })

theorem exec_heartbeatReceive_valid (lanes : BitVec 2) (hb : Heartbeat) (t : Nat) (hr : dvlRuns s = true) :
    let v := heartbeatTaken lanes hb t s
    exec (.heartbeatReceive true lanes hb t) s = .next (if v.get F.DVL_STAT_PHASE = 0 ∧ v.dvl.pair.rejectedAt = none then pairStart v else v) :=
  congrArg _ ((if_neg (ne_false_of_eq_true hr)).trans (if_neg (ne_false_of_eq_true rfl)))

/-! ## The records of a cycle (R305, R306, R309, R310) -/

theorem exec_stateRecordSend_active (hr : dvlRuns s = true) (ha : s.on F.DVL_STAT_ACTIVE = true) (hd : dclkRuns s = true) :
    exec .stateRecordSend s = .next (
      let u := closeCycle (s.dvl.cycle + 1) { s with dvl := { s.dvl with cycle := s.dvl.cycle + 1 } }
      let gs := (grantChanges u).take (journalRoom u / 48)
      let ks := u.dvl.journal.take ((journalRoom u - 48 * gs.length) / 36)
      let v := u.emit (.dvl (.state (stateRecord u (ownRefs u) gs ks)))
      bulkSend { v with dvl := { v.dvl with
        journal := v.dvl.journal.drop ks.length, sentGrants := grantMerge v.dvl.sentGrants gs, sentRefs := ownRefs u } }) :=
  congrArg _ (if_pos (by rw [hr, ha, hd]; rfl))

/-- The standby discards a record of which a frame is damaged or missing; the active unit applies none. -/
theorem exec_stateRecordApply_discarded {damaged : Nat} {missing : Bool} (r : StateRecord) (hr : dvlRuns s = true)
    (h : damaged ≠ 0 ∨ missing = true ∨ (s.addSat F.DVL_RECERR_CNT_COUNT damaged).on F.DVL_STAT_ACTIVE = true) :
    exec (.stateRecordApply damaged missing r) s = .next (s.addSat F.DVL_RECERR_CNT_COUNT damaged) := by
  refine congrArg _ ((if_neg (ne_false_of_eq_true hr)).trans (if_pos ?_))
  simpa [or_assoc] using h

/-- The standby applies a whole record: the comparison of the keys, and from BULK on the copies of clients and grants. -/
theorem exec_stateRecordApply_whole (r : StateRecord) (hr : dvlRuns s = true) (h : (s.addSat F.DVL_RECERR_CNT_COUNT 0).on F.DVL_STAT_ACTIVE = false) :
    let a := s.addSat F.DVL_RECERR_CNT_COUNT 0
    let u := { a with dvl := { a.dvl with frameAt := a.now, lastApplied := r.cycle, ptnRefs := r.refs, cycle := r.cycle } }
    let v := ntsCompare r.epoch r.kcv (u.setB F.DVL_STAT_SNAPDIFF (snapDiffers r u))
    exec (.stateRecordApply 0 false r) s = .next (if 2 ≤ v.get F.DVL_STAT_PHASE then clientsApply r.clients (grantsApply r.grants v) else v) :=
  congrArg _ ((if_neg (ne_false_of_eq_true hr)).trans (if_neg (by rw [h]; decide)))

theorem exec_statusRecordSend_standby (hr : dvlRuns s = true) (ha : s.on F.DVL_STAT_ACTIVE = false) :
    let u := { s with dvl := { s.dvl with sentRefs := ownRefs s } }
    exec .statusRecordSend s = .next (u.emit (.dvl (.status ⟨u.dvl.lastApplied, u.get F.DTM_STATE_STATE, ownRefs s, u.get F.CRL_NTS_EPOCH_EPOCH,
      u.get64 A.CRL_NTS_KCV_W0, u.on F.DVL_STAT_LASTING⟩))) :=
  congrArg _ (if_pos (by rw [hr, ha]; rfl))

/-- The state in which a frame of the partner has been seen. -/
def frameSeen (s : State) : State := { s with dvl := { s.dvl with frameAt := s.now } }

theorem exec_statusRecordReceive_valid (r : StatusRecord) (hr : dvlRuns s = true) : exec (.statusRecordReceive true r) s = .next (
    if (frameSeen s).on F.DVL_STAT_ACTIVE then
      let v := { frameSeen s with dvl := { (frameSeen s).dvl with ptnRefs := r.refs, ptnLasting := r.lasting } }
      if r.lasting = v.on F.DVL_STAT_LASTING then v else if r.lasting then declareDisagree v else clearDisagree v
    else frameSeen s) :=
  congrArg _ ((if_neg (ne_false_of_eq_true hr)).trans (if_neg (ne_false_of_eq_true rfl)))

/-! ## The copy of the tables (R315) -/

theorem exec_bulkFrameReceive_damaged (cs : List (Nat × Bytes)) (gs : List GrantChange) (last : Bool) (hr : dvlRuns s = true) :
    exec (.bulkFrameReceive false cs gs last) s = .next ({ s with dvl := { s.dvl with bulkHole := true } }.addSat F.DVL_RECERR_CNT_COUNT 1) :=
  congrArg _ ((if_neg (ne_false_of_eq_true hr)).trans (if_pos rfl))

theorem exec_bulkFrameReceive_copied (cs : List (Nat × Bytes)) (gs : List GrantChange) (last : Bool) (hr : dvlRuns s = true)
    (hp : (frameSeen s).get F.DVL_STAT_PHASE = 2) (ha : (frameSeen s).on F.DVL_STAT_ACTIVE = false) :
    let v := clientsApply cs (grantsApply gs (frameSeen s))
    exec (.bulkFrameReceive true cs gs last) s = .next { v with dvl := { v.dvl with bulkLast := v.dvl.bulkLast || last } } :=
  congrArg _ (((if_neg (ne_false_of_eq_true hr)).trans (if_neg (ne_false_of_eq_true rfl))).trans (if_pos ⟨hp, ha⟩))

theorem exec_bulkComplete_whole (hp : s.get F.DVL_STAT_PHASE = 2) (hl : s.dvl.bulkLast = true) (hh : s.dvl.bulkHole = false) :
    exec .bulkComplete s = .next (setPhase 3 { s with dvl := { s.dvl with trackTicks := 0 } }) :=
  congrArg _ (if_pos ⟨hp, hl, hh⟩)

theorem exec_trackComplete_due (hp : s.get F.DVL_STAT_PHASE = 3) (ht : 1000 * s.get F.DVL_RESYNC_CFG_TRACKT < s.dvl.trackTicks) :
    exec .trackComplete s = .next (setPhase 4 s) :=
  congrArg _ (if_pos ⟨hp, ht⟩)

/-! ## Pairing (R316) -/

/-- An attestation is answered with the pair key, or rejects the pairing. -/
theorem exec_pairAttestation_attest (st chain : Bytes) (ok : Bool) (hr : dvlRuns s = true) (hp : s.get F.DVL_STAT_PHASE = 1) :
    let k := sharedKey s.dvl.pair.scalar st
    exec (.pairAttestation (.attest st chain) ok) s = .next (if ok = true ∧ statementFits s st = true ∧ k ≠ [] then
      claimUpdate (pairSend { s with dvl := { s.dvl with pair := { s.dvl.pair with key := k } } }) else pairReject s) := by
  refine congrArg _ ((if_pos ⟨hr, hp⟩).trans (if_congr ?_ rfl rfl))
  simp [and_assoc]

/-- A unit that is not active and has a pair key takes the wrapped master keys. -/
theorem exec_pairAttestation_keys (w d : Bytes) (ok : Bool) (hr : dvlRuns s = true) (hp : s.get F.DVL_STAT_PHASE = 1) (hk : s.dvl.pair.key ≠ [])
    (ha : s.on F.DVL_STAT_ACTIVE = false) : exec (.pairAttestation (.keys w d) ok) s = .next (pairAdopt w d s) :=
  congrArg _ ((if_pos ⟨hr, hp⟩).trans (if_neg (not_or.mpr ⟨hk, ne_true_of_eq_false ha⟩)))

theorem pairAdopt_unwrapped {w : Bytes} (d : Bytes) {k : Bytes} (h : kwUnwrap s.dvl.pair.key w = some k) :
    let a : State := { s with svp := { s.svp with
      key1 := beAt k 0 16, key2 := beAt k 16 16, keysDerived := false, table := [], cached := [], dirty := [] } }
    let b := pairErase none true (if d = pairDigest a then alarmClear 9 a else record 0x0309 0 0 0 0 (alarmRaise 9 (irqSet 7 A.DVL_IRQ_STAT 9 a)))
    pairAdopt w d s = setPhase 2 { b with dvl := { b.dvl with bulkLast := false, bulkHole := false } } := by
  unfold pairAdopt
  rw [h]

theorem pairAdopt_damaged {w : Bytes} (d : Bytes) (h : kwUnwrap s.dvl.pair.key w = none) : pairAdopt w d s = pairReject s := by
  unfold pairAdopt
  rw [h]

theorem exec_pairingRetry_due {t : Nat} (h : s.dvl.pair.rejectedAt = some t) (ht : t + retryPeriods ≤ s.now) :
    let u := pairErase none false s
    exec .pairingRetry s = .next (if inPair u && u.on F.DVL_STAT_LINK && decide (u.get F.DVL_STAT_PHASE = 0) then pairStart u else u) :=
  have due : s.dvl.pair.rejectedAt.any (fun t => decide (t + retryPeriods ≤ s.now)) = true := by rw [h, Option.any_some, decide_eq_true ht]
  congrArg _ (if_pos due)

end link

/-- Settles O39: each command under the condition on which it acts; a frame by whether it is whole, and a message of the pairing by its kind. -/
theorem linkCommandsTakeEffect : Obligations.LinkCommandsTakeEffect := by
  refine ⟨fun s h ht => exec_dvlLinkDown_due h ht, fun s lane h => congrArg _ (if_pos h),
    fun s lanes hb t hr => ⟨exec_heartbeatReceive_damaged lanes hb t hr, exec_heartbeatReceive_valid lanes hb t hr⟩, fun s hr => congrArg _ (if_pos hr),
    fun s hr ha hd => exec_stateRecordSend_active hr ha hd, fun s a r damaged missing hr ha => ⟨fun h => ?_, fun u v hu hv hd hm h => ?_⟩,
    fun s hr ha => exec_statusRecordSend_standby hr ha,
    fun s r hr => ⟨fun h => (exec_statusRecordReceive_valid r hr).trans (congrArg _ (if_neg (ne_true_of_eq_false h))),
      fun h => (exec_statusRecordReceive_valid r hr).trans (congrArg _ (if_pos h))⟩,
    fun s cs gs last hr => ⟨exec_bulkFrameReceive_damaged cs gs last hr, fun hp ha => exec_bulkFrameReceive_copied cs gs last hr hp ha⟩,
    fun s hp hl hh => exec_bulkComplete_whole hp hl hh, fun s hp ht => exec_trackComplete_due hp ht,
    fun s st chain ok hr hp => exec_pairAttestation_attest st chain ok hr hp, fun s w d ok hr hp hk ha => ⟨fun k h => ?_, fun h => ?_⟩,
    fun s u t h ht hu => ?_⟩
  · subst ha
    exact exec_stateRecordApply_discarded r hr h
  · subst hd hm ha hu hv
    exact exec_stateRecordApply_whole r hr h
  · exact (exec_pairAttestation_keys w d ok hr hp hk ha).trans (congrArg _ (pairAdopt_unwrapped d h))
  · exact (exec_pairAttestation_keys w d ok hr hp hk ha).trans (congrArg _ (pairAdopt_damaged d h))
  · subst hu
    exact exec_pairingRetry_due h ht

end Sys2Proof.Machine
end

/-! The up-rings and the down-rings: delivery, coalescing, transmit frames, commands and their completions (R319-R336). -/
section
namespace Sys2Proof.Machine

section rings
variable {s : State}

/-! ## Delivery (R319, R330, R331) -/

theorem popQueue_cons {r : Nat} {i : UpItem} {rest : List UpItem} (h : (s.ring r).queue = i :: rest) :
    popQueue r s = s.setRing r { s.ring r with queue := rest, waitFrom := none } := by
  unfold popQueue; rw [h]; rfl

/-- The item at the head begins to wait where WAIT is not 0. -/
theorem waitHead_waits {r : Nat} (n : Nat) (hw : s.get (F.HMI_R_LIM_WAIT r) ≠ 0) (hn : (s.ring r).waitFrom = none) :
    waitHead r n s = s.setRing r { s.ring r with waitFrom := some s.now } :=
  (if_neg hw).trans (if_pos hn)

/-- The item at the head is dropped at once where WAIT is 0. -/
theorem waitHead_drops {r : Nat} {i : UpItem} {rest : List UpItem} (n : Nat) (h : (s.ring r).queue = i :: rest)
    (hw : s.get (F.HMI_R_LIM_WAIT r) = 0) : waitHead r n s = dropItem r false n (popQueue r (undelivered i s)) := by
  refine (if_pos hw).trans ?_
  rw [h]; rfl

/-- The frame at the head goes into the span that the owned slots give. -/
theorem deliverFrame_span {r : Nat} {f : UpItem} {rest : List UpItem} {slots : List Desc} {span : List SpanSlot} (hq : (s.ring r).queue = f :: rest)
    (hs : reserveSpan s r 0 f.bytes.length (slots.take (ringOwned s r)) = some span) :
    deliverFrame r slots s = ringCompleted r span.length (writeSpan r f span true f.bytes (popQueue r s)) := by
  unfold deliverFrame; rw [hq]; dsimp only; rw [hs]

/-- The frame at the head finds too few owned slots. -/
theorem deliverFrame_short {r : Nat} {f : UpItem} {rest : List UpItem} {slots : List Desc} (hq : (s.ring r).queue = f :: rest)
    (hs : reserveSpan s r 0 f.bytes.length (slots.take (ringOwned s r)) = none) : deliverFrame r slots s = waitHead r f.bytes.length s := by
  unfold deliverFrame; rw [hq]; dsimp only; rw [hs]

theorem exec_upRingFrameDeliver_mastering (r : Fin 16) (slots : List Desc) (ho : ringOn s r = true) (hp : s.hmi.dmaPaused = none)
    (hd : dmaOk s = true) : exec (.upRingFrameDeliver r slots) s = .next (deliverFrame r slots s) := by
  refine congrArg _ ((if_neg ?_).trans ?_)
  · rw [ho, hp]; decide
  · rw [if_pos hd]

theorem exec_upRingRecord_mastering (k : Fin 8) (slots : List Desc) (ho : ringOn s (16 + k.val) = true) (hp : s.hmi.dmaPaused = none)
    (hd : dmaOk s = true) : exec (.upRingRecord k slots) s = .next (deliverRecord (16 + k.val) slots s) := by
  refine congrArg _ ((if_neg ?_).trans (if_pos hd))
  rw [ho, hp]; decide

theorem exec_upRingRecord_waits (k : Fin 8) (slots : List Desc) {i : UpItem} {rest : List UpItem} (ho : ringOn s (16 + k.val) = true)
    (hp : s.hmi.dmaPaused = none) (hd : dmaOk s = false) (hq : (s.ring (16 + k.val)).queue = i :: rest) :
    exec (.upRingRecord k slots) s = .next (waitHead (16 + k.val) i.bytes.length s) := by
  refine congrArg _ ((if_neg ?_).trans ((if_neg (ne_true_of_eq_false hd)).trans ?_))
  · rw [ho, hp]; decide
  · rw [hq]

/-- The record is placed in the open buffer where it fits. -/
theorem deliverRecord_fits {r : Nat} {i : UpItem} {rest : List UpItem} {b : RecBuf} (slots : List Desc) (hq : (s.ring r).queue = i :: rest)
    (hb : (s.ring r).buf = some b) (hf : b.bytes + i.bytes.length ≤ b.room) :
    deliverRecord r slots s = appendRecord r b i.bytes (popQueue r s) := by
  unfold deliverRecord; rw [hq]; dsimp only; rw [hb]; exact if_pos hf

/-- The open buffer is completed where the record does not fit, and the record goes into a slot that follows. -/
theorem deliverRecord_full {r : Nat} {i : UpItem} {rest : List UpItem} {b : RecBuf} (slots : List Desc) (hq : (s.ring r).queue = i :: rest)
    (hb : (s.ring r).buf = some b) (hf : b.room < b.bytes + i.bytes.length) :
    deliverRecord r slots s =
      let p := placeRecord r i.bytes slots (completeBuffer r s)
      if p.2 then popQueue r p.1 else waitHead r i.bytes.length p.1 := by
  unfold deliverRecord; rw [hq]; dsimp only; rw [hb]; exact if_neg (Nat.not_le.mpr hf)

theorem deliverRecord_unopened {r : Nat} {i : UpItem} {rest : List UpItem} (slots : List Desc) (hq : (s.ring r).queue = i :: rest)
    (hb : (s.ring r).buf = none) :
    deliverRecord r slots s =
      let p := placeRecord r i.bytes slots s
      if p.2 then popQueue r p.1 else waitHead r i.bytes.length p.1 := by
  unfold deliverRecord; rw [hq]; dsimp only; rw [hb]

/-! ## The timers of a ring (R321, R330, R331) -/

theorem exec_ringWaitExpiry_due (r : Fin 24) {t : Nat} {i : UpItem} {rest : List UpItem} (ht : (s.ring r).waitFrom = some t)
    (hq : (s.ring r).queue = i :: rest) (hp : s.hmi.dmaPaused = none) (hd : t + usPeriods * s.get (F.HMI_R_LIM_WAIT r) ≤ s.now) :
    exec (.ringWaitExpiry r) s = .next (dropItem r false i.bytes.length (popQueue r (undelivered i s))) := by
  show execRingWaitExpiry r s = _
  unfold execRingWaitExpiry
  rw [ht, hq]
  exact congrArg _ (if_pos ⟨hp, hd⟩)

theorem completeBuffer_open {r : Nat} {b : RecBuf} (hb : (s.ring r).buf = some b) :
    completeBuffer r s =
      let c := natLE 4 b.bytes ++ natLE 2 (cflags false false false b.clamped false) ++ natLE 2 b.records ++ natLE 4 (s.ring r).drops ++ zeros 20
      let w := dmaWrite r (slotAddr s r b.slot) c s
      ringCompleted r 1 (w.setRing r { w.ring r with buf := none, drops := 0 }) := by
  unfold completeBuffer; rw [hb]

theorem exec_recordBufferCoalesce_due (k : Fin 8) {b : RecBuf} (hb : (s.ring (16 + k.val)).buf = some b) (hd : dmaOk s = true) (hr : 0 < b.records)
    (ht : b.since + usPeriods * s.get (F.HMI_R_COAL_COALESCE (16 + k.val)) ≤ s.now) :
    exec (.recordBufferCoalesce k) s = .next (completeBuffer (16 + k.val) s) := by
  show execRecordBufferCoalesce k s = _
  unfold execRecordBufferCoalesce
  dsimp only
  rw [hb]
  exact congrArg _ (if_pos (by rw [hd, decide_eq_true hr, decide_eq_true ht]; rfl))

theorem exec_ringIrqTimer_due (r : Fin 56) (he : s.on (F.HMI_R_IRQ_EN r) = true) (ht : s.get (F.HMI_R_IRQ_TMR r) ≠ 0) (hu : 0 < (s.ring r).unsignalled)
    (hp : s.hmi.dmaPaused = none) (hd : (s.ring r).firstAt + usPeriods * s.get (F.HMI_R_IRQ_TMR r) ≤ s.now) :
    exec (.ringIrqTimer r) s = .next (ringFire r s) :=
  congrArg _ (if_pos (by rw [he, decide_eq_true ht, decide_eq_true hu, hp, decide_eq_true hd]; rfl))

/-! ## Host transmit frames (R333, R334) -/

/-- The data of the frame that slots of down ring `r` name, padded to a frame and cut to the buffer of 9,600 bytes. -/
def downData (s : State) (r : Nat) (slots : List Desc) (data : Bytes) : Bytes :=
  ethPad ((padTo (frameBytes s r slots) data).take (if frameBytes s r slots < 9600 then frameBytes s r slots else 9600))

/-- The outcome of the checks of a frame fetched from down ring `r`. -/
def downStatus (s : State) (r : Nat) (slots : List Desc) (data : Bytes) (d : Desc) : Option Nat :=
  txStatus s d.port (frameBytes s r slots) (downData s r slots data)

/-- The state in which a frame fetched from down ring `r` has been counted and holds its slots. -/
def downHeld (s : State) (r : Nat) (slots : List Desc) (data : Bytes) (d : Desc) : State :=
  let u := pmcEvent 12 0x04 r (if frameBytes s r slots < 9600 then frameBytes s r slots else 9600) s
  u.setRing r { u.ring r with
    frames := (u.ring r).frames ++ [⟨frameSlots s r (slotsFetched s r) slots, d.id, d.port, descTsreq d, downStatus s r slots data d, none⟩] }

/-- A frame whose slots are handed over is counted, then queued at its port or completed with the status of the check that failed. -/
theorem exec_hostTxFrame_fetched (k : Fin 16) (slots : List Desc) (data : Bytes) {d : Desc} (ho : ringOn s (32 + k.val) = true)
    (hd : dmaOk s = true) (h1 : oneFrame slots = true) (hs : slotsFetched s (32 + k.val) + slots.length ≤ ringOwned s (32 + k.val))
    (hf : slots.find? (fun d => d.len != 0) = some d) :
    exec (.hostTxFrame k slots data) s = .next (
      let v := downHeld s (32 + k.val) slots data d
      if h : downStatus s (32 + k.val) slots data d = none ∧ d.port < 7 then
        txEnqueue ⟨d.port, h.2⟩ ⟨downData s (32 + k.val) slots data, hostClass v d.port (downData s (32 + k.val) slots data),
          .host (32 + k.val) (((frameSlots s (32 + k.val) (slotsFetched s (32 + k.val)) slots).head?.map (·.1)).getD 0)⟩ v
      else flushDown (32 + k.val) (v.ring (32 + k.val)).frames v) := by
  refine congrArg _ ((if_pos ?_).trans ?_)
  · rw [ho, hd, h1, decide_eq_true hs]; rfl
  · rw [hf]; rfl

/-! ## Commands (R329, R335, R336) -/

/-- A command whose slot and completion slot are there is fetched. -/
theorem exec_commandFetch_ready (k : Fin 8) (desc : Desc) (block : Bytes) (ho : ringOn s (56 + k.val) = true) (hu : ringOn s (24 + k.val) = true)
    (hd : dmaOk s = true) (h0 : 0 < ringOwned s (56 + k.val)) (hc : commandsHeld s k < ringOwned s (24 + k.val)) :
    exec (.commandFetch k desc block) s = .next (
      let r := 56 + k.val
      let invalid := decide (desc.len = 0)
      let l := slotLen s r desc
      let b := padTo l.1 (block.take l.1)
      let seq := s.pke.nextSeq
      let c : HostCmd := ⟨seq, desc.id, ringHead s r, if invalid then [] else b, desc.addr2, desc.len2, l.2 && !invalid, invalid, false,
        commandKey s b, none, 0⟩
      let u := { s with pke := { s.pke with nextSeq := seq + 1 } }
      let v := u.setRing r { u.ring r with cmds := (u.ring r).cmds ++ [c] }
      let w := writeBack r (headAdvance r 1 (noteSlot r c.clamped invalid (pmcEvent 12 0x04 r (32 + l.1) v)))
      let op := beAt b 0 1
      if invalid then modCmd k seq (fun c => { c with done := some (0x11, []), ready := w.now }) w
      else if 0x40 ≤ op ∧ op ≤ 0x44 then w
      else if op = 0 ∨ 0x34 < op then modCmd k seq (fun c => { c with done := some (0x10, []), ready := w.now + 100 }) w
      else if dispatchStatus w true b desc.len2 = 0 then w else rejectHost k seq (dispatchStatus w true b desc.len2) w) :=
  congrArg _ (if_pos (by rw [ho, hu, hd, decide_eq_true h0, decide_eq_true hc]; rfl))

theorem exec_commandCompletion_due (k : Fin 8) {c : HostCmd} {rest : List HostCmd} {st : Nat} {res : Bytes}
    (hq : (s.ring (56 + k.val)).cmds = c :: rest) (hc : c.done = some (st, res)) (hr : c.ready ≤ s.now) (ho : ringOn s (24 + k.val) = true)
    (hd : dmaOk s = true) (h0 : 0 < ringOwned s (24 + k.val)) :
    exec (.commandCompletion k) s = .next (
      let u := 24 + k.val
      let a := s.setRing (56 + k.val) { s.ring (56 + k.val) with cmds := rest }
      let d := if res = [] then a else dmaWrite u c.resAddr res a
      let cf := (if c.invalid then 4 else 0) + (if c.clamped then 8 else 0)
      let b := natLE 2 c.id ++ natLE 2 c.pos ++ natLE 1 st ++ natLE 1 cf ++ zeros 2 ++ natLE 4 res.length ++ zeros 4 ++ stampBytes d.datum
      ringCompleted u 1 (dmaWrite u (slotAddr d u (ringHead d u)) b d)) := by
  show execCommandCompletion k s = _
  unfold execCommandCompletion
  dsimp only
  rw [hq]; dsimp only
  rw [hc]; dsimp only
  rw [if_pos ⟨hr, ho, hd, h0⟩]

end rings

/-- Settles O42: each command of the rings takes the case whose conditions the clause states; the queue's head is known, so delivery, the
fetch of a frame or a command, and a completion reduce to the effect on that head. -/
theorem ringCommandsTakeEffect : Obligations.RingCommandsTakeEffect := by
  unfold Obligations.RingCommandsTakeEffect
  refine ⟨?_, ?_, ?_, ?_, ?_, ?_, ?_, ?_⟩
  · intro s r slots f rest ho hp hq
    have deliver (hd : dmaOk s = true) := exec_upRingFrameDeliver_mastering r slots ho hp hd
    refine ⟨fun span hd hs => ?_, fun hd hs hw hn => ?_, fun hd hs hw => ?_⟩
    · rw [deliver hd, deliverFrame_span hq hs, popQueue_cons hq]
    · rw [deliver hd, deliverFrame_short hq hs, waitHead_waits f.bytes.length hw hn]
    · rw [deliver hd, deliverFrame_short hq hs, waitHead_drops f.bytes.length hq hw]
  · intro s k slots i rest ho hp hq
    dsimp only
    refine ⟨fun b hd hb hf => ?_, fun b hd hb hf => ?_, fun hd hb => ?_, fun hd hw hn => ?_⟩
    · rw [exec_upRingRecord_mastering k slots ho hp hd, deliverRecord_fits slots hq hb hf, popQueue_cons hq]; rfl
    · rw [exec_upRingRecord_mastering k slots ho hp hd, deliverRecord_full slots hq hb hf]
    · rw [exec_upRingRecord_mastering k slots ho hp hd, deliverRecord_unopened slots hq hb]
    · rw [exec_upRingRecord_waits k slots ho hp hd hq, waitHead_waits i.bytes.length hw hn]
  · intro s r t i rest ht hq hp hd
    exact exec_ringWaitExpiry_due r ht hq hp hd
  · intro s k b hb hd hr ht
    exact (exec_recordBufferCoalesce_due k hb hd hr ht).trans (congrArg _ (completeBuffer_open hb))
  · intro s r he ht hu hp hd
    exact exec_ringIrqTimer_due r he ht hu hp hd
  · intro s k slots data d ho hd h1 hs hf
    have fetched := exec_hostTxFrame_fetched k slots data ho hd h1 hs hf
    refine ⟨fun p hport hst => ?_, fun c hst => ?_⟩
    · obtain ⟨p, hp⟩ := p
      subst hport
      exact fetched.trans (congrArg _ (dif_pos ⟨hst, hp⟩))
    · refine fetched.trans (congrArg _ (dif_neg ?_))
      rintro ⟨hn, -⟩
      exact nomatch hn.symm.trans hst
  · intro s k desc block ho hu hd h0 hc
    exact exec_commandFetch_ready k desc block ho hu hd h0 hc
  · intro s k c rest st res hq hc hr ho hd h0
    exact exec_commandCompletion_due k hq hc hr ho hd h0

end Sys2Proof.Machine
end

/-! The steps of BOOT, from the headers of the slots to the end, and the register of the boot flash (R341-R357, R394). -/
section
namespace Sys2Proof.Machine

section boot
variable {s : State}

/-! ## The slots in turn (R341, R345, R346) -/

theorem exec_bootSlotHeader_next (rd : Bool) {k : Nat} {rest : List Nat} (hb : booting s .header = true) (hk : s.sys.boot.headers = k :: rest) :
    exec (.bootSlotHeader rd) s = .next (if slotHeader rd s k = 0 then
        bootNext (s.setBoot { s.sys.boot with headers := rest, bodies := seqOrder s (s.sys.boot.bodies ++ [k]) })
      else bootReject k (slotHeader rd s k) 0 (s.setBoot { s.sys.boot with headers := rest })) := by
  show execBootSlotHeader rd s = _
  unfold execBootSlotHeader
  rw [hb, hk]

theorem exec_bootSlotBodyRead_bad {k : Nat} {x : Section} (hb : booting s .body = true) (hk : s.sys.boot.slot = some k) (hx : badSection s k = some x) :
    exec .bootSlotBodyRead s = .next (bootReject k 6 x.tag s) := by
  show execBootSlotBodyRead s = _
  unfold execBootSlotBodyRead
  rw [hb, hk]; dsimp only
  rw [hx]

theorem exec_bootSlotBodyRead_whole {k : Nat} (hb : booting s .body = true) (hk : s.sys.boot.slot = some k) (hx : badSection s k = none) :
    exec .bootSlotBodyRead s = .next (bootStage .signatures s) := by
  show execBootSlotBodyRead s = _
  unfold execBootSlotBodyRead
  rw [hb, hk]; dsimp only
  rw [hx]

theorem exec_bootSignatureVerify_slot {k : Nat} (hb : booting s .signatures = true) (hk : s.sys.boot.slot = some k) :
    let u := if otpOpen s then record 0x000A 0 0 0 0 (s.set F.SYS_BOOT_STAT_OPEN 1) else s
    exec .bootSignatureVerify s = .next (if sigzGood s k = false then bootReject k 7 0 s
      else if custkeyGood u k = true ∧ sigcGood u k = true then bootStage .firmware u else bootReject k 8 0 u) := by
  show execBootSignatureVerify s = _
  unfold execBootSignatureVerify
  rw [hb, hk]
  simp only [Bool.and_eq_true]

theorem exec_bootTimeout_late {k : Nat} (hk : s.sys.boot.slot = some k) (hb : inBoot s = true) (he : s.sys.boot.stage ≠ .ended)
    (hh : s.sys.boot.stage ≠ .header) (ht : s.sys.boot.since + bootLimit ≤ s.now) : exec .bootTimeout s = .next (bootReject k 9 0 (resetDomains s)) := by
  show execBootTimeout s = _
  unfold execBootTimeout
  rw [hk]
  exact congrArg _ (if_pos ⟨hb, he, hh, ht⟩)

/-! ## Firmware, registers, keys, certificates (R348, R350, R353, R355) -/

/-- The state in which the self tests have been answered. -/
def testsAnswered (l : BitVec 18) (c : BitVec 16) (r : Bool) (s : State) : State :=
  entropyTest r (answerTests .coreFail 16 c.toNat (answerTests .laneFail 18 l.toNat s))

theorem exec_bootFirmwareStart_booting (l : BitVec 18) (c : BitVec 16) (r : Bool) (hb : inBoot s = true) (he : s.sys.boot.stage ≠ .ended) :
    exec (.bootFirmwareStart l c r) s = .next (if (testsAnswered l c r s).sys.boot.stage = .firmware then bootStage .regs (loadFirmware (testsAnswered l c r s))
      else testsAnswered l c r s) :=
  congrArg _ (if_pos ⟨hb, he⟩)

theorem exec_bootRegsApply_slot {k : Nat} (hb : booting s .regs = true) (hk : s.sys.boot.slot = some k) :
    exec .bootRegsApply s = .next (
      let u := sectionClamps k s [] (sections s k)
      let r := (regRecords (valueOf u k 0x0200)).foldl (applyRecord k) (u, [])
      bootStage .keys (imageInForce (r.2.foldl (fun (s : State) (e : Nat × Nat) => checkReg k e.1 s) r.1))) := by
  show execBootRegsApply s = _
  unfold execBootRegsApply
  rw [hb, hk]

theorem exec_bootKeysLoad_booting (hb : booting s .keys = true) : exec .bootKeysLoad s = .next (
      let u := deriveReserved s
      match u.sys.boot.slot with
      | some k =>
        let b := valueOf u k 0x0201
        let es := lengthEntries b.length (b.drop 4)
        let c := countClamp k 0x0201 510 es.length b u
        bootStage .certs (crlRekey (generateRoot ((es.take c.1).foldl loadKey c.2)))
      | none => bootStage .finish (maskRom u)) :=
  congrArg _ (if_pos hb)

theorem exec_bootCertsCheck_slot {k : Nat} (hb : booting s .certs = true) (hk : s.sys.boot.slot = some k) :
    exec .bootCertsCheck s = .next (
      let b := valueOf s k 0x0202
      let es := lengthEntries b.length (b.drop 4)
      let c := countClamp k 0x0202 4 es.length b s
      let u := checkCerts ((es.take c.1).foldl (loadChain k) c.2)
      let p := valueOf u k 0x0203
      let d := countClamp k 0x0203 16 ((p.length - 4) / 24) p u
      let ms := (List.range d.1).map (fun j => slice p (4 + 24 * j) 24)
      bootStage .finish ([0, 1].foldl (mastersOver k ms) (ms.foldl (loadMaster k) d.2))) := by
  show execBootCertsCheck s = _
  unfold execBootCertsCheck
  rw [hb, hk]

/-! ## The end of BOOT (R95, R348), and the training of the DRAM (R394) -/

/-- The state in which writes are open and the slot that was booted is shown. -/
def slotShown (s : State) : State :=
  let u := { s with sys := { s.sys with writesOpen := true, banksSet := true } }
  s.sys.boot.slot.elim u (fun k =>
    let v := (u.set F.SYS_BOOT_STAT_SLOT k).set (if k = 0 then F.SYS_BOOT_STAT_RESA else F.SYS_BOOT_STAT_RESB) 1
    v.set F.SYS_BOOT_SEQ_SEQ (imgLE v k 12 4))

/-- The state in which the time that BOOT took is shown. -/
def bootTimed (s : State) : State := (slotShown s).set F.SYS_BOOT_TIME_TIME (((slotShown s).now - (slotShown s).sys.releasedAt) / 1200000)

theorem deriveClientKeys_eq (w : State) : deriveClientKeys w = (
    let k := hkdf Config.deviceKey (instBytes w.datum) 32
    { w with svp := { w.svp with key1 := beAt k 0 16, key2 := beAt k 16 16, keysDerived := true, table := [], cached := [], dirty := [] } }) := by
  unfold deriveClientKeys clearClients
  generalize hkdf Config.deviceKey (instBytes w.datum) 32 = k
  rfl

theorem exec_bootEnd_finishing (hb : booting s .finish = true) : exec .bootEnd s = .next (
      let w := bootTimed s
      let y := loadFallback (if rngFailed w then deriveClientKeys w else drawClientKeys w)
      bootStage .ended (claimUpdate (refreshValues ((List.finRange 4).foldl (fun (s : State) (p : Fin 4) => showConflict s p)
        (spuSeedAll (tagSeedAll (pairsAtBootEnd y))))))) := by
  refine congrArg _ ((if_pos hb).trans ?_)
  unfold bootTimed slotShown
  dsimp only
  cases s.sys.boot.slot <;> rfl

theorem exec_dramTrainingDone_training (hp : powered s = true) (hl : s.on F.SYN_STAT_SYN0LOCK = true) (ht : s.on F.HMI_MEM_STAT_TRAINED = false) :
    let u := s.set F.HMI_MEM_STAT_TRAINED 1
    exec .dramTrainingDone s = .next (if u.fbk.resumed then u else chainResume u) :=
  congrArg _ (if_pos ⟨hp, hl, ht⟩)

/-- An operation of the flash that fails shows FLASH, and leaves free bytes where it had begun to change them. -/
theorem exec_flashOpDone_failed {op a : Nat} {b : Bytes} (h : s.sys.flashOp = some (op, a, b)) :
    let u := (flashEnded s).set F.SYS_FL_CTL_ERR 2
    exec (.flashOpDone true) s = .next (if op = 0 then u else flashScramble a (if op = 2 then 65536 else 256) u) :=
  (flashOpDone_eq (u := flashEnded s) true h rfl).trans (congrArg _ (if_pos rfl))

end boot

/-! ## The start of a flash operation (R357) -/

/-- What R357 permits rests on registers other than SYS_FL_CTL and those that events touch. -/
theorem flashPermitted_congr {s t : State} (h : ∀ r, r ≠ A.SYS_FL_CTL → eventReg r = false → t.rd r = s.rd r) (a : Nat) :
    flashPermitted t a = flashPermitted s a := by
  have get (f : Fld) (h1 : f.addr ≠ A.SYS_FL_CTL) (h2 : eventReg f.addr = false) : t.get f = s.get f := by unfold State.get; rw [h _ h1 h2]
  have bit : t.bit A.SYS_LIVELOCK 31 = s.bit A.SYS_LIVELOCK 31 := by unfold State.bit; rw [h _ (by decide) (by decide)]
  have mode : t.mode = s.mode := get F.SYS_MODE_STAT_MODE (by decide) (by decide)
  have live : t.on F.SYS_LIVECTL_FLASH = s.on F.SYS_LIVECTL_FLASH := by unfold State.on; rw [get _ (by decide) (by decide)]
  unfold flashPermitted
  simp only [mode, bit, live, get F.SYS_BOOT_STAT_SLOT (by decide) (by decide), get F.SYS_MODE_STAT_SAFECAUSE (by decide) (by decide)]

/-- The state in which GO has taken OP and cleared ERR. -/
def flashAsked (op : Nat) (s : State) : State := (s.set F.SYS_FL_CTL_OP op).set F.SYS_FL_CTL_ERR 0

theorem flashAsked_rd (op : Nat) (s : State) {r : Nat} (h : r ≠ A.SYS_FL_CTL) : (flashAsked op s).rd r = s.rd r :=
  (State.rd_set_other _ _ _ _ h).trans (State.rd_set_other _ _ _ _ h)

/-- After the counted access and the take of OP, the registers on which the judgement rests are as before. -/
theorem flashAsked_countAccess_rd (op : Nat) (p : Path) (s : State) (r : Nat) (h : r ≠ A.SYS_FL_CTL) (he : eventReg r = false) :
    (flashAsked op (countAccess p s)).rd r = s.rd r :=
  (flashAsked_rd op _ h).trans (countAccess_rd p s he)

/-- The state in which an operation of the flash is under way. -/
def flashBegun (op a : Nat) (s : State) : State :=
  { s with sys := { s.sys with flashOp := some (if op = 3 then 0 else op, a, if op = 1 then flashBuffer s else []) } }.set F.SYS_FL_CTL_BUSY 1

theorem flashGo_busy (p : Path) (v : Word) {s : State} (h : s.sys.flashOp.isSome = true) : flashGo p v s = s := if_pos h

section go
variable {v : Word} {s : State} {op a : Nat} (p : Path) (hn : s.sys.flashOp.isSome = false) (ho : fieldGet v 28 2 = op)
  (ha : (flashAsked op s).get F.SYS_FL_ADDR_ADDR = a)
include hn ho ha

theorem flashGo_denied (hp : flashPermitted (flashAsked op s) a = false) :
    flashGo p v s = record 0x0002 A.SYS_FL_CTL v.toNat 3 (if p = .mw0 then 0 else 1) ((flashAsked op s).set F.SYS_FL_CTL_ERR 1) := by
  subst ho ha
  have path : (if p = .mw0 then 0 else 1) = (match p with | .mw0 => 0 | .mspi => 1 : Nat) := by cases p <;> rfl
  rw [path]
  exact (if_neg (ne_true_of_eq_false hn)).trans (if_pos hp)

theorem flashGo_misaligned (hp : flashPermitted (flashAsked op s) a = true) (hm : a % (if op = 2 then 65536 else 256) ≠ 0) :
    flashGo p v s = (flashAsked op s).set F.SYS_FL_CTL_ERR 3 := by
  subst ho ha
  exact ((if_neg (ne_true_of_eq_false hn)).trans (if_neg (ne_false_of_eq_true hp))).trans (if_pos hm)

theorem flashGo_begins (hp : flashPermitted (flashAsked op s) a = true) (hm : a % (if op = 2 then 65536 else 256) = 0) :
    flashGo p v s = (let x := flashBegun op a (flashAsked op s)
      if op = 2 ∧ a % slotSize = 0 then record 0x000D a 0 0 0 x else x) := by
  subst ho ha
  exact ((if_neg (ne_true_of_eq_false hn)).trans (if_neg (ne_false_of_eq_true hp))).trans (if_neg (not_not.mpr hm))

end go

/-- The word of a row of the flash has GO and the row's OP. -/
theorem flashWord_fields (v : Word) {op : Nat} (h : op < 4) :
    (fieldSet (v ||| 0x80000000) 28 2 op).getLsbD 31 = true ∧ fieldGet (fieldSet (v ||| 0x80000000) 28 2 op) 28 2 = op := by
  refine ⟨?_, (fieldGet_set_same _ _ _ _ (by decide)).trans (Nat.mod_eq_of_lt h)⟩
  rw [fieldSet_bit _ _ _ _ _ (by decide), if_neg (by decide)]
  simp

/-- A write of SYS_FL_CTL with GO reaches the judgement of the operation. -/
theorem regCommand_flashGo {s : State} (p : Path) (v : Word) {op : Nat} (h : Admits s) (ho : op < 4) :
    regCommand p A.SYS_FL_CTL (fieldSet (v ||| 0x80000000) 28 2 op) s = .next (flashGo p (fieldSet (v ||| 0x80000000) 28 2 op) (countAccess p s)) := by
  have hook : hookIndex p A.SYS_FL_CTL = some 3 := by cases p <;> decide +kernel
  exact (regCommand_hook _ h (by decide +kernel) (liveOff_none s (by decide)) hook rfl).trans (congrArg _ (if_pos (flashWord_fields v ho).1))

/-- Each row of the flash writes SYS_FL_CTL with GO and its OP. -/
theorem exec_flashRow {s : State} {p : Path} {v : Word} {c : Nat × Instr} (h : Admits s)
    (hc : c ∈ [(if fieldGet v 28 2 = 3 then 3 else 0, Instr.flashRead p v), (1, .flashProgram p v), (2, .flashErase p v)]) :
    c.1 < 4 ∧ exec c.2 s = .next (flashGo p (fieldSet (v ||| 0x80000000) 28 2 c.1) (countAccess p s)) := by
  simp only [List.mem_cons, List.not_mem_nil, or_false] at hc
  obtain rfl | rfl | rfl := hc
  · have small : (if fieldGet v 28 2 = 3 then 3 else 0) < 4 := by split <;> decide
    exact ⟨small, regCommand_flashGo p v h small⟩
  · exact ⟨by simp, regCommand_flashGo p v h (by decide)⟩
  · exact ⟨by simp, regCommand_flashGo p v h (by decide)⟩

/-- Settles O49: each step of BOOT in its stage, and GO by the checks of R357 in their order. -/
theorem bootCommandsTakeEffect : Obligations.BootCommandsTakeEffect := by
  unfold Obligations.BootCommandsTakeEffect
  refine ⟨fun s rd k rest hb hk => exec_bootSlotHeader_next rd hb hk, ?_,
    fun s k hb hk => exec_bootSignatureVerify_slot hb hk, fun s k hk hb he hh ht => exec_bootTimeout_late hk hb he hh ht, ?_,
    fun s k hb hk => exec_bootRegsApply_slot hb hk, fun s hb => exec_bootKeysLoad_booting hb, fun s k hb hk => exec_bootCertsCheck_slot hb hk, ?_, ?_, ?_, ?_⟩
  · intro s k hb hk
    cases hx : badSection s k with
    | some x => exact exec_bootSlotBodyRead_bad hb hk hx
    | none => exact exec_bootSlotBodyRead_whole hb hk hx
  · intro s l c r hb he
    have starts := exec_bootFirmwareStart_booting l c r hb he
    exact ⟨fun h => starts.trans (congrArg _ (if_pos h)), fun h => starts.trans (congrArg _ (if_neg h))⟩
  · intro s u v w hb hu hv hw
    subst hu
    have shown : v = slotShown s := by
      subst hv
      unfold slotShown
      cases s.sys.boot.slot <;> rfl
    have timed : w = bootTimed s := by rw [hw, shown, bootTimed]
    rw [timed, exec_bootEnd_finishing hb]
    dsimp only
    rw [deriveClientKeys_eq]
  · intro s hp hl ht
    have trained := exec_dramTrainingDone_training hp hl ht
    exact ⟨fun h => trained.trans (congrArg _ (if_neg (ne_true_of_eq_false h))), fun h => trained.trans (congrArg _ (if_pos h))⟩
  · intro s p v ha u a c hc w
    obtain ⟨small, runs⟩ := exec_flashRow ha hc
    have op := (flashWord_fields v small).2
    have same := flashAsked_countAccess_rd c.1 p s
    have addr : (flashAsked c.1 u).get F.SYS_FL_ADDR_ADDR = a := congrArg (fieldGet · _ _) (same A.SYS_FL_ADDR (by decide) (by decide))
    have permitted : flashPermitted (flashAsked c.1 u) a = flashPermitted s a := flashPermitted_congr same a
    have flash : u.sys.flashOp = s.sys.flashOp := by rw [countAccess_sys]
    rw [runs, ← flash, ← permitted]
    exact ⟨fun h => congrArg _ (flashGo_busy p _ h), fun h hp => congrArg _ (flashGo_denied p h op addr hp),
      fun h hp hm => congrArg _ (flashGo_misaligned p h op addr hp hm), fun h hp hm => congrArg _ (flashGo_begins p h op addr hp hm)⟩
  · intro s u op a b h hu
    subst hu
    exact exec_flashOpDone_failed h

end Sys2Proof.Machine
end

/-! The fault manager and the Field Book: the events judged, acknowledgements, the entries of the journal, its seals, its chain and its commands (R379-R396,
R414). -/
section
namespace Sys2Proof.Machine

section book
variable {s : State}

/-! ## The fault manager (R379, R380, R382) -/

theorem exec_faultEvent_first {e : FaultEv} {rest : List FaultEv} (h : eventOrder s = e :: rest) :
    exec .faultEvent s = .next (judge e { s with flt := { s.flt with queue := rest } }) := by
  show execFaultEvent s = _
  unfold execFaultEvent
  rw [h]

/-- The state in which an event has been counted by the performance monitor. -/
def eventNoted (s : State) : State := pmcEvent 0 0x03 0x80 1 s

theorem judge_atOnce {e : FaultEv} (s : State) (h : faultAtOnce e.code = true) : judge e s = lasting e 2 (eventNoted s) := if_pos h

/-- Another event of this class makes the fault lasting (R380). -/
def bucketCrosses (e : FaultEv) (s : State) : Prop :=
  (s.get (F.SYS_FLT_CFG_N (faultClass e.code)) - 1) * classWindow s (faultClass e.code) <
    (s.bucket (bucketKey e)).level + classWindow s (faultClass e.code)

theorem judge_crosses {e : FaultEv} {s : State} (h : faultAtOnce e.code = false) (hc : bucketCrosses e (eventNoted s)) :
    judge e s = lasting e ((eventNoted s).get (F.SYS_FLT_CFG_RESP (faultClass e.code)))
      ((eventNoted s).setBucket (bucketKey e) { (eventNoted s).bucket (bucketKey e) with level := 0 }) :=
  (if_neg (ne_true_of_eq_false h)).trans (if_pos hc)

theorem judge_fills {e : FaultEv} {s : State} (h : faultAtOnce e.code = false) (hc : ¬bucketCrosses e (eventNoted s)) :
    judge e s = faultWrite e false ((eventNoted s).setBucket (bucketKey e)
      { (eventNoted s).bucket (bucketKey e) with level := ((eventNoted s).bucket (bucketKey e)).level + classWindow (eventNoted s) (faultClass e.code) }) :=
  (if_neg (ne_true_of_eq_false h)).trans (if_neg hc)

theorem exec_irqEoi_admitted (v : Word) (h : Admits s) : exec (.irqEoi v) s = .next (eoiWrite v (countAccess .mw0 s)) :=
  regCommand_hook v h (by decide +kernel) (liveOff_none s (by decide)) (i := 0) (by decide +kernel) rfl

/-! ## The journal (R388, R390, R391, R394) -/

theorem exec_fbkEntryAccept_first {q : QEntry} (h : firstHead (queueHeads [] s.fbk.queued) = some q) :
    exec .fbkEntryAccept s = .next (
      let u := { s with fbk := { s.fbk with queued := s.fbk.queued.erase q } }
      let n := (u.fbk.lost.get q.block).getD 0
      let v := if n = 0 then u else acceptEntry { fbkEntry u 3 n 0 0 0 with src := srcBlock q.block } { u with fbk := { u.fbk with lost := u.fbk.lost.del q.block } }
      acceptEntry (if v.dtm.started then q.entry else { q.entry with datum := v.recordTime }) v) := by
  show execFbkEntryAccept s = _
  unfold execFbkEntryAccept
  rw [h]

theorem exec_fbkSealSigned_signed {seg : Nat} {sig : Bytes} (h : s.fbk.sigs.get seg = some sig) :
    exec (.fbkSealSigned seg) s = .next (writeSeal seg sig { s with fbk := { s.fbk with sigs := s.fbk.sigs.del seg } }) := by
  show execFbkSealSigned seg s = _
  unfold execFbkSealSigned
  rw [h]

theorem writeSeal_absent {g : Nat} (sig : Bytes) (h : s.fbk.segs.get g = none) : writeSeal g sig s = s := by
  unfold writeSeal; rw [h]

theorem writeSeal_stored {g : Nat} {x : Segment} (sig : Bytes) (h : s.fbk.segs.get g = some x) : writeSeal g sig s = (
      let b : Seal := ⟨s.recordTime, sig.isEmpty, decide (0 < x.padCount), g, s.get64 A.FBK_CHAINID_W0, x.hash, sig, x.padCount⟩
      let r := s.fbk.retained.map (fun (p : Nat × Entry) => if p.1 / 4096 = g ∧ p.1 < unplaced then (inSealed, p.2) else p)
      let v := { s with fbk := { s.fbk with segs := s.fbk.segs.put g { x with sealBlk := some b }, headHash := x.hash, headKept := true, retained := r, sigs := s.fbk.sigs.del g } }
      deliver g b.bytes ((v.set64 A.FBK_SEALED_W0 g).setB F.FBK_STAT_SIGNOK (signOk v))) := by
  unfold writeSeal
  rw [h]

theorem exec_fbkSealPeriod_due (hp : s.get F.FBK_CFG_SEALPER ≠ 0) (ht : s.get F.FBK_CFG_SEALPER * 60000 < s.fbk.sealTicks) :
    exec .fbkSealPeriod s = .next (sealEarly { s with fbk := { s.fbk with sealTicks := s.fbk.sealTicks - s.get F.FBK_CFG_SEALPER * 60000 } }) :=
  congrArg _ (if_pos ⟨Nat.mul_ne_zero hp (by decide), ht⟩)

theorem sealEarly_open (hj : journalReady s = true) (ho : s.fbk.openSeg ≠ []) :
    sealEarly s = fbkShow (padSegment (4096 - s.fbk.openSeg.length) (4096 - s.fbk.openSeg.length) s) :=
  if_pos ⟨hj, mt List.length_eq_zero_iff.mp ho⟩

theorem sealEarly_nothing (h : journalReady s = false ∨ s.fbk.openSeg = []) : sealEarly s = s := by
  refine if_neg ?_
  rintro ⟨hj, hn⟩
  rcases h with h | h
  · exact nomatch h.symm.trans hj
  · exact hn (List.length_eq_zero_iff.mpr h)

theorem exec_fbkChainResume_trained (h : s.fbk.resumed = false) (ht : s.on F.HMI_MEM_STAT_TRAINED = true) :
    exec .fbkChainResume s = .next (chainResume s) :=
  congrArg _ (if_pos ⟨h, ht⟩)

/-- The state in which the journal has resumed with an empty segment, and retention holds what sealed segments hold. -/
def bookReopened (s : State) : State :=
  { s with fbk := { s.fbk with resumed := true, openSeg := [], openUndelivered := false, retained := s.fbk.retained.filter (fun p => decide (p.1 = inSealed)), segs := [] } }

/-- The retained entries that no sealed segment holds. -/
def unsealedEntries (s : State) : List Entry := (s.fbk.retained.filter (fun p => decide (p.1 ≠ inSealed))).map (·.2)

theorem chainResume_kept (h : s.fbk.headKept = true) : chainResume s = (
    let u := bookReopened s
    let sealed := s.get64 A.FBK_SEALED_W0
    let v := { u with fbk := { u.fbk with prevHash := u.fbk.headHash } }.set64 A.FBK_NEXT_W0 (if sealed = 2 ^ 64 - 1 then 0 else (sealed + 1) * 4096)
    let e := fbkEntry v 2 v.fbk.openLost (s.fbk.retained.filter (fun p => decide (p.1 < unplaced))).length (s.rd A.SYS_RST_CAUSE).toNat 0
    fbkShow (journalAll (e :: unsealedEntries s) v)) :=
  if_pos h

theorem chainResume_new (h : s.fbk.headKept = false) : chainResume s = (
    let d := (bookReopened s).draw 64
    let v := { d.2 with fbk := { d.2.fbk with prevHash := zeros 48, headHash := zeros 48, headKept := true } }
    let w := ((v.set64 A.FBK_CHAINID_W0 d.1).set64 A.FBK_SEALED_W0 (2 ^ 64 - 1)).set64 A.FBK_NEXT_W0 0
    fbkShow (journalAll (fbkEntry w 1 (s.rd A.SYS_RST_CAUSE).toNat 0 0 0 :: unsealedEntries s) w)) :=
  if_neg (ne_true_of_eq_false h)

/-! ## The commands of the Field Book (R396) -/

section commands
variable {k : Fin 8} {c : HostCmd} {op len res : Nat} {f : HostCmd → State → Nat × Bytes × State}

/-- A command at the front that fails a check ends with its status. -/
theorem fbkCommand_fails (hf : fbkFront s k = some c) (ho : beAt c.block 0 1 = op) (hc : fbkCheck c len res ≠ 0) :
    fbkCommand k op len res f s = fbkEnd k c (fbkCheck c len res) [] s := by
  unfold fbkCommand
  rw [hf]
  exact (if_neg (not_not.mpr ho)).trans (if_pos hc)

/-- A command at the front that passes the checks runs, and ends with what it returns. -/
theorem fbkCommand_runs (hf : fbkFront s k = some c) (ho : beAt c.block 0 1 = op) (hc : fbkCheck c len res = 0) :
    fbkCommand k op len res f s = fbkEnd k c (f c s).1 (f c s).2.1 (f c s).2.2 := by
  unfold fbkCommand
  rw [hf]
  exact (if_neg (not_not.mpr ho)).trans (if_neg (not_not.mpr hc))

/-- How a command of the Field Book at the front ends. -/
theorem fbkCommand_ends (hf : fbkFront s k = some c) (ho : beAt c.block 0 1 = op) :
    (fbkCheck c len res ≠ 0 → (.next (fbkCommand k op len res f s) : Host.Outcome State Fault Refusal) = .next (fbkEnd k c (fbkCheck c len res) [] s)) ∧
    (fbkCheck c len res = 0 →
      (.next (fbkCommand k op len res f s) : Host.Outcome State Fault Refusal) = .next (fbkEnd k c (f c s).1 (f c s).2.1 (f c s).2.2)) :=
  ⟨fun hc => congrArg _ (fbkCommand_fails hf ho hc), fun hc => congrArg _ (fbkCommand_runs hf ho hc)⟩

end commands

end book

/-- Settles O53: the fault manager by the judgement of one event, the journal by the acceptance, the seal and the resumption, and the five commands by
their common course. -/
theorem faultAndBookCommandsTakeEffect : Obligations.FaultAndBookCommandsTakeEffect := by
  unfold Obligations.FaultAndBookCommandsTakeEffect
  refine ⟨?_, fun s => ⟨rfl, fun _ _ => rfl, fun _ _ _ => rfl⟩, fun s v ha => exec_alarmAck_admitted v ha, fun s v ha => exec_irqEoi_admitted v ha,
    ?_, ?_, ?_, ?_, fun _ _ _ hf ho => fbkCommand_ends hf ho, fun _ _ _ _ hf ho => fbkCommand_ends hf ho, fun _ _ _ hf ho => fbkCommand_ends hf ho,
    fun _ _ _ hf ho => fbkCommand_ends hf ho, fun _ _ _ hf ho => fbkCommand_ends hf ho⟩
  · intro s t e rest h ht
    subst ht
    have first := exec_faultEvent_first h
    exact ⟨fun ho => first.trans (congrArg _ (judge_atOnce _ ho)), fun ho hc => first.trans (congrArg _ (judge_crosses ho hc)),
      fun ho hc => first.trans (congrArg _ (judge_fills ho hc))⟩
  · intro s u q h hu
    subst hu
    exact exec_fbkEntryAccept_first h
  · intro s u seg sig h hu
    subst hu
    have signed := exec_fbkSealSigned_signed h
    exact ⟨fun hx => signed.trans (congrArg _ (writeSeal_absent sig hx)), fun x hx => signed.trans (congrArg _ (writeSeal_stored sig hx))⟩
  · intro s u hp ht hu
    subst hu
    have due := exec_fbkSealPeriod_due hp ht
    exact ⟨fun hj ho => due.trans (congrArg _ (sealEarly_open hj ho)), fun h => due.trans (congrArg _ (sealEarly_nothing h))⟩
  · intro s u cause again hr ht hagain hcause hu
    subst hagain hcause hu
    have resumes := exec_fbkChainResume_trained hr ht
    exact ⟨fun h => resumes.trans (congrArg _ (chainResume_kept h)), fun h => resumes.trans (congrArg _ (chainResume_new h))⟩

end Sys2Proof.Machine
end

/-! The performance monitor: selections, clears, snapshots, and the tags of packets and of instructions (R397-R409). -/
section
namespace Sys2Proof.Machine

section counters
variable {s : State}

/-! ## Selections (R403) -/

theorem selAt_sel (u : Fin 13) (k : Fin 8) : selAt (A.PMC_SEL u k) = some (u, k) := by revert u k; decide +kernel

/-- Every selection is a live register of no domain that can be off. -/
theorem pmcSel_live (u : Fin 13) (k : Fin 8) : liveRow (A.PMC_SEL u k) = true ∧ regDomain (A.PMC_SEL u k) = none := by revert u k; decide +kernel

theorem exec_pmcSelWrite_admitted (u : Fin 13) (k : Fin 8) (v : Word) (h : Admits s) :
    exec (.pmcSelWrite u k v) s = .next (selWrite u k v (countAccess .mw0 s)) := by
  obtain ⟨live, always⟩ := pmcSel_live u k
  refine (regCommand_live .mw0 _ v h live (liveOff_none s always)).trans (congrArg _ ?_)
  unfold liveWrite
  rw [selAt_sel]
  rfl

/-! ## Clears and snapshots (R403, R404) -/

theorem regCommand_pmcCtl (v : Word) (h : Admits s) : regCommand .mw0 A.PMC_CTL v s = .next (pmcCtlWrite v (countAccess .mw0 s)) :=
  regCommand_hook v h (by decide +kernel) (liveOff_none s (by decide)) (i := 6) (by decide +kernel) rfl

theorem exec_pmcSnapPeriod_due (hp : s.get F.PMC_CFG_SNAPPER ≠ 0) (ht : s.get F.PMC_CFG_SNAPPER < s.pmc.snapTicks) :
    exec .pmcSnapPeriod s = .next (snapshot { s with pmc := { s.pmc with snapTicks := s.pmc.snapTicks - s.get F.PMC_CFG_SNAPPER } }) :=
  congrArg _ (if_pos ⟨hp, ht⟩)

/-! ## Tags (R406, R409) -/

/-- A permitted write of PMC_TAG_CFG loads it, and seeds the packet LFSRs where it enables them. -/
theorem exec_tagEnable_permitted (v : Word) (h : Admits s) (hd : denyReason (countAccess .mw0 s) A.PMC_TAG_CFG v = none) :
    exec (.tagEnable v) s = .next (tagSeedAll (keepHistory (countAccess .mw0 s).regs (loadLive .mw0 (countAccess .mw0 s) (A.PMC_TAG_CFG, v)))) :=
  regCommand_image .mw0 A.PMC_TAG_CFG v h (by decide +kernel) (ownedWhole_outside _ (.inl (by decide))) hd

section tags
variable {spu : Fin 8} {offered : Nat} (source : Fin 4) (stall : Fin 5) (pc fetch issue ex : Nat)

/-- The generator of a processor after the instructions it offered, and the selections among them. -/
def spuRun (s : State) (spu : Fin 8) (offered : Nat) : Nat × Nat := lfsrRun (s.get F.PMC_SPU_CFG_K) offered s.pmc.spuLfsr[spu] 0

/-- The state in which the instructions that a processor offered have advanced its generator. -/
def spuAdvanced (s : State) (spu : Fin 8) (offered : Nat) : State :=
  pmcEvent 7 0x02 spu offered { s with pmc := { s.pmc with spuLfsr := s.pmc.spuLfsr.set spu (spuRun s spu offered).1 } }

/-- The state in which skipped selections have been counted. -/
def tagsSkipped (n : Nat) (s : State) : State := if n = 0 then s else irqSet 17 A.PMC_IRQ_STAT 15 (s.addSat F.PMC_TAG_SKIP_CNT_COUNT n)

/-- The generator selects the last instruction that was offered. -/
def spuHit (s : State) (spu : Fin 8) (offered : Nat) : Prop := (spuRun s spu offered).1 % 2 ^ s.get F.PMC_SPU_CFG_K = 0 ∧ 0 < offered

theorem exec_spuInstructionTag_missed (he : s.on F.PMC_SPU_CFG_EN = true) (hs : (s.get F.PMC_SPU_CFG_SPUS).testBit spu = true)
    (hh : ¬spuHit s spu offered) : exec (.spuInstructionTag spu offered source stall pc fetch issue ex) s =
      .next (tagsSkipped (spuRun s spu offered).2 (spuAdvanced s spu offered)) := by
  have miss : decide ((lfsrRun (s.get F.PMC_SPU_CFG_K) offered s.pmc.spuLfsr[spu] 0).1 % 2 ^ s.get F.PMC_SPU_CFG_K = 0 ∧ 0 < offered) = false :=
    decide_eq_false hh
  refine congrArg _ ((if_pos (by rw [he, hs]; rfl)).trans ?_)
  simp only [miss, Bool.false_eq_true, if_false]
  rfl

theorem exec_spuInstructionTag_hit (he : s.on F.PMC_SPU_CFG_EN = true) (hs : (s.get F.PMC_SPU_CFG_SPUS).testBit spu = true)
    (hh : spuHit s spu offered) : exec (.spuInstructionTag spu offered source stall pc fetch issue ex) s =
      .next (pmcRecord (spuRecord spu source stall pc fetch issue ex) (tagsSkipped ((spuRun s spu offered).2 - 1) (spuAdvanced s spu offered))) := by
  have hit : decide ((lfsrRun (s.get F.PMC_SPU_CFG_K) offered s.pmc.spuLfsr[spu] 0).1 % 2 ^ s.get F.PMC_SPU_CFG_K = 0 ∧ 0 < offered) = true :=
    decide_eq_true hh
  refine congrArg _ ((if_pos (by rw [he, hs]; rfl)).trans ?_)
  simp only [hit, if_true]
  rfl

end tags

end counters

/-- Settles O55: the register writes by the hook of their register, and the instruction tag by whether its generator selects the last instruction. -/
theorem counterCommandsTakeEffect : Obligations.CounterCommandsTakeEffect := by
  unfold Obligations.CounterCommandsTakeEffect
  refine ⟨fun s u k v ha => exec_pmcSelWrite_admitted u k v ha, fun s ha => regCommand_pmcCtl 2 ha, fun s ha => regCommand_pmcCtl 1 ha,
    fun s hp ht => exec_pmcSnapPeriod_due hp ht, ?_, ?_⟩
  · intro s v ha hd
    have loads := exec_tagEnable_permitted v ha hd
    exact ⟨fun h => loads.trans (congrArg _ (if_neg (ne_true_of_eq_false h))), fun h => loads.trans (congrArg _ (if_pos h))⟩
  · intro s u spu offered source stall pc fetch issue ex k r he hs hk hr hu h0
    subst hk hr hu
    exact ⟨fun h => exec_spuInstructionTag_missed source stall pc fetch issue ex he hs fun hh => h hh.1,
      fun h => exec_spuInstructionTag_hit source stall pc fetch issue ex he hs ⟨h, h0⟩⟩

end Sys2Proof.Machine
end
